-- ==== Sys2Proof/Word.lean ====
section
/-! DEFINITION. The word types of the module's registers, frames and records. -/

namespace Sys2Proof

abbrev Byte := BitVec 8
abbrev Word32 := BitVec 32
abbrev Word64 := BitVec 64
/-- A SHAKE256 digest with 256-bit output (21, opening text). -/
abbrev Digest := BitVec 256

end Sys2Proof
end

