-- ==== Sys2Proof/Syntax.lean ====
section
/-! DEFINITION. The commands of the block: one constructor per row of spec/opcode_table.json, with the operands the world supplies. -/

namespace Sys2Proof

/-- The path a host request takes (19 R501, PATH). -/
inductive Path where
  | window | mailbox | halter
  deriving DecidableEq, Repr, Inhabited

/-- Who sends a host request: the master (0 the CXL host, 1 to 8 a Halter session, 19 R499), its path, and, on Halter,
the sequence number and whether the KMAC256 tag is right (19 R497, 21 R534; the tag as a symbol, log 18). -/
structure Src where
  master : Fin 9
  path   : Path
  seq    : Nat := 0
  tagOk  : Bool := true
  deriving DecidableEq, Repr, Inhabited

/-- A Falcon-1024 signature as a symbol: the digest of the public key that made it and the digest it signs (log 18). -/
structure Sig where
  key : Digest
  msg : Digest
  deriving DecidableEq, Repr, Inhabited

/-- A die: compute die Cp or the hub (01 R9). -/
inductive Die where
  | compute (p : Fin 8)
  | hub
  deriving DecidableEq, Repr, Inhabited

/-- A die-to-die connection (01 R19): a compute die to the hub, to its next ring neighbour, or hub to guest. -/
inductive Conn where
  | toHub (p : Fin 8)
  | ring (p : Fin 8)
  | guest
  deriving DecidableEq, Repr, Inhabited

/-- A flit on a die-to-die connection (01 R20, R21): as its sending side holds it, and as it arrives. -/
structure NativeFlit where
  sent : List Byte
  got  : List Byte
  deriving DecidableEq, Repr, Inhabited

/-- What a refill of a partition brings (15 R403): tiles by context, tensor and tile number, and the module-state records. -/
structure Refill where
  part  : Fin 8
  tiles : List (Nat × Nat × Nat × List Byte)
  recs  : List (BitVec 128)
  deriving DecidableEq, Repr, Inhabited

/-- What the other ranks of an ALL_REDUCE give by rank (12 R320): their values, towards this module's shard, and their delivered shards. -/
structure OtherRanks where
  members : List (List Nat)
  shards  : List (List Byte)
  deriving DecidableEq, Repr, Inhabited

/-- A data flit as a link delivers it (11 R278 to R280): header, payload, CRC-32, the wrong symbols of the codewords that carried it, and the
SEQ acknowledged beside it. -/
structure CarriedFlit where
  hdr       : BitVec 96
  payload   : List Byte
  crc       : BitVec 32
  codewords : List (List (Fin 544))
  ack       : Option (BitVec 16)
  deriving DecidableEq, Repr, Inhabited

/-- The six directions, with the codes of 11 R288. -/
inductive Dir where
  | xp | xm | yp | ym | zp | zm
  deriving DecidableEq, Repr, Inhabited

/-- What an ECC error hit (09 R232 to R238): `wrong` counts the wrong bits of the 8-byte word of an on-chip store, or the wrong 8-bit
symbols of the 32-byte HBM access that the on-die code leaves; `elem` is the tensor element held there, when the location holds one. -/
structure Ecc where
  wrong   : Nat
  store   : Nat                       -- 1 core store, 2 link store, 3 hub commons, 4 HBM (R238)
  content : Nat                       -- content code of R234; HBM's staging and firmware ranges give their own (R225)
  part    : Nat                       -- partition 0 to 7, 8 for the hub commons
  unit    : Nat                       -- physical core, or the link of the partition whose buffers region 2 names; HBM's pseudo-channel follows from the address (R226)
  addr    : Nat                       -- byte offset within the store, or a of R225
  region  : Nat := 0                  -- for content 9: the row of 18 R485's table, from 0
  elem    : Option (Nat × Nat × Nat) := none   -- context, tensor, element; past a block tensor's last element its exponent bytes
  deriving DecidableEq, Repr, Inhabited

/-- A physical error that a core commits in one execution; the reason the checks of chapters 04 and 10 exist. -/
inductive Upset where
  | none
  | acc (tile row col : Nat) (bits : BitVec 32)     -- an accumulator holds another value at drain
  | drain (tile elem : Nat) (mask : BitVec 32)      -- a delivered encoding is flipped after the check unit
  | lane (tile : Nat)                               -- the corner PE sums wrongly
  deriving DecidableEq, Repr, Inhabited

/-- What the silicon adds to one execution of a piece: an error of the core and the ECC errors its reads meet. -/
structure Hw where
  upset : Upset := .none
  eccs  : List Ecc := []
  deriving DecidableEq, Repr, Inhabited

/-- What the silicon adds to one check execution: in its `unit`-th unit a digest that is wrong by an exclusive OR, a failed corner
or data comparison; and the ECC errors its reads meet. -/
structure CheckErr where
  unit   : Nat := 0
  digest : BitVec 64 := 0
  lane   : Bool := false
  data   : Bool := false
  eccs   : List Ecc := []
  deriving DecidableEq, Repr, Inhabited

/-- The piece whose watchdog ran out (07 R192): one on a core or DMA engine (`which` as it stands among those running), a COLL, or a WAIT. -/
inductive WdTarget where
  | core (c : Fin 145) (which : Fin 2)
  | coll (ctx : Fin 16)
  | wait (ctx : Fin 16)
  | sig (ctx : Fin 16)
  deriving DecidableEq, Repr, Inhabited

/-- A physical outcome of one bring-up step (01 R24, R25, 16 R430, R431): UCIe modules and stacks that failed. -/
structure Bringup where
  ucieBad  : List (Fin 8) := []       -- modules 0 to 3 hub-facing, 4 and 5 next neighbour, 6 and 7 previous one (log 19)
  stackBad : List (Fin 2) := []
  deriving DecidableEq, Repr, Inhabited

/-- The kinds of an emergency (17 R457). -/
inductive Emer where
  | overpower | regulator
  | logicHot (p : Fin 8)
  | dramHot (n : Fin 16)
  | hubHot | coolant
  deriving DecidableEq, Repr, Inhabited

/-- The rail a regulator feeds (17 R441): of one partition, or a hub, input or auxiliary rail. -/
inductive Rail where
  | part (p : Fin 8)
  | hub
  deriving DecidableEq, Repr, Inhabited

/-- A unit of the fault ledger (14 R372). -/
structure LUnit where
  utype : Nat
  unit  : Nat
  deriving DecidableEq, Repr, Inhabited

/-- An image as the Farrier parses it (21 R524, R525), and what the checks find in it. -/
structure FwImage where
  magicOk  : Bool
  svn      : Nat
  version  : BitVec 32
  keySlot  : Option (Fin 4)            -- the fused firmware-key digest that KEYDIG equals
  pdigest  : Digest
  tooLarge : Bool := false
  sigOk    : Bool := true              -- public key, PDIGEST and signature check
  revoke   : Option (Fin 4) := none    -- a type 2 payload's request (R525)
  deriving DecidableEq, Repr, Inhabited

/-- The commands. Operands that a rule measures or receives from outside are the world's; everything else is the module's state. -/
inductive Instr where
  -- power and start-up
  | pwrEnAssert (inputMv : Nat) (prodEntry : Bool)
  | pwrEnDeassert
  | inputUndervoltage
  | powerDownStepDone
  | inputFetOpen (inputMv : Nat)
  | bootPhaseDone (badImages : List (Nat × Nat))
  | partitionBringupStagger
  | partitionBringupStepDone (p : Fin 8) (r : Bringup)
  | selftestKernelDone (core : Fin 136) (pclass : Nat) (digestOk : Bool)
  | stateEnterTest (src : Src)
  | stateLeaveTest (src : Src)
  | moduleResetCommand (src : Src)
  | partitionResetCommand (src : Src) (p : Fin 8)
  | moduleResetHoldoffEnd
  | partitionResetDelayEnd (p : Fin 8)
  | perstNAssert
  | perstNDeassert
  | d2dFlitReceived (c : Conn × Bool) (seq : Nat) (flit : NativeFlit) (crc : BitVec 16)
  | d2dTimeout (requester far : Die)
  -- dispatch and tile work
  | taskDispatch (ctx : Fin 16) (task : Nat)
  | queueRoomFreed (ctx : Fin 16)
  | mm (core : Fin 136) (hw : Hw)
  | mmTa (core : Fin 136) (hw : Hw)
  | mmTb (core : Fin 136) (hw : Hw)
  | mmAcc (core : Fin 136) (hw : Hw)
  | attF (core : Fin 136) (hw : Hw)
  | attB (core : Fin 136) (hw : Hw)
  | ew (core : Fin 136) (hw : Hw)
  | red (core : Fin 136) (hw : Hw)
  | norm (core : Fin 136) (hw : Hw)
  | smax (core : Fin 136) (hw : Hw)
  | opt (core : Fin 136) (hw : Hw)
  | convFmt (core : Fin 136) (hw : Hw)
  | amax (core : Fin 136) (hw : Hw)
  | copy (engine : Fin 145) (hw : Hw)
  | sig (ctx : Fin 16)
  | wait (ctx : Fin 16)
  | allReduce (ctx : Fin 16) (others : OtherRanks)
  | reduceScatter (ctx : Fin 16) (members : List (List Nat))
  | allGather (ctx : Fin 16) (members : List (List Byte))
  | send (ctx : Fin 16)
  | recv (ctx : Fin 16) (data : List Byte)
  | barrier (ctx : Fin 16)
  | signal (ctx : Fin 16)
  | pieceComplete (core : Fin 145) (which : Fin 2)
  | splitStallResume (core : Fin 145)
  | reexecIssue (core : Fin 136) (err : CheckErr)
  | checkPieceComplete (core : Fin 136)
  | arbiterComplete (core : Fin 136) (finished : Bool)
  | pieceWatchdogExpiry (who : WdTarget)
  | checkWatchdogExpiry (core : Fin 136)
  | sigTakesEffect (ctx : Fin 16)
  | waitSatisfied (ctx : Fin 16)
  | stepBoundary
  | batchHeaderPoll (hdrStep : Nat) (filled : Nat)
  | batchFetchDone (body : List Byte)
  | verdictContribute
  -- sync lanes
  | syncUpFrame (link : Fin 48) (frame : BitVec 96)
  | syncDownFrame (link : Fin 48) (frame : BitVec 96)
  | replayDispatch
  | syncLeavingFrame (link : Fin 48) (frame : BitVec 96)
  | syncStateFrame (link : Fin 48) (frame : BitVec 96)
  | syncIdleFrame (link : Fin 48) (frame : BitVec 96)
  | idleFrameSend (link : Fin 48)
  | syncLaneHeartbeatLoss (link : Fin 48)
  | bundleSilent (d : Dir)
  -- fencing and recovery
  | fenceProposalTimer (d : Dir)
  | fenceRecordReceived (link : Fin 48) (rec : BitVec 128)
  | fenceFloodRepeat
  | fenceProxyAbort (slot : Fin 6)
  | fenceRecordRequest (slot : Fin 6)
  | fenceCommand (src : Src) (coord : BitVec 32)
  | recoveryPatienceExpiry (d : Dir)
  | takeoverDone (digestOk : Bool) (tensors : List (Nat × Nat × List Byte)) (recs : List (BitVec 128))
  | refillDone (refill : Refill)
  | mirrorStreamReceived (step : Nat) (rebuild : Bool) (tensors : List (Nat × Nat × List Byte)) (recs : List (BitVec 128))
  | mirrorAckReceived (step : Nat)
  | mirrorRebuildDone
  | moduleStatePieceReceived (cut : Nat) (piece : List Byte)
  -- data links
  | linkFlitReceived (link : Fin 48) (hdr : BitVec 96) (payload : List Byte) (crc : BitVec 32) (codewords : List (List (Fin 544)))
      (ack : Option (BitVec 16))
  | linkNakReceived (link : Fin 48) (lastGood : BitVec 16)
  | errorReturnReceived (link : Fin 48) (flit : CarriedFlit)
  | signalArrival (ctx : Fin 16) (group : Nat) (step : Nat) (attempt : BitVec 4)
  | laneLossOfLock (link : Fin 48) (lane : Fin 16)
  | laneErrorWindow (link : Fin 48) (lane : Fin 16) (errors symbols : Nat)
  | ctleReevaluation (link : Fin 48) (lane : Fin 16)
  | linkTrainingDone (link : Fin 48) (latencyNs : Nat)
  | linkLockTimeout (link : Fin 48)
  | linkTrainingRetry (link : Fin 48)
  | discoveryRecordSend (link : Fin 48)
  | discoveryRecordReceived (link : Fin 48) (rec : BitVec 256)
  | linkFenceCommand (src : Src) (value : BitVec 8)
  -- checkpoints
  | epochMarkEdge (highNs : Nat)
  | epochMarkCommand (src : Src)
  | captureStart
  | capturePiecesDone (cut : Nat)
  | manifestDurable (cut : Nat)
  | lehrWriteError (cut : Nat)
  | poolWriteError (cut : Nat)
  | retainCommand (src : Src) (cut : BitVec 64)
  | retainCopyDone
  | releaseCommand (src : Src) (area : BitVec 8)
  | restoreRequest (src : Src) (req : BitVec 128)
  | restoreDone (readError : Bool) (badPiece : Bool)
  | exportRequest (src : Src) (req : BitVec 128)
  | exportDone (ok : Bool)
  -- programs and contexts
  | programLoadRequest (src : Src) (req : BitVec 128)
  | programLoadDone
  | contextStart (src : Src) (ctx : Fin 16)
  | contextHalt (src : Src) (ctx : Fin 16)
  | contextResume (src : Src) (ctx : Fin 16)
  | contextUnload (src : Src) (ctx : Fin 16)
  | unloadComplete (ctx : Fin 16)
  | counterClear (src : Src)
  -- placement and memory
  | migrationPlanReady (moves : List (Nat × Nat × Fin 8 × Nat))
  | migrationCopyDone (ctx tensor : Nat)
  | migrationEnableWrite (src : Src)
  | replacementDone (fits : Bool) (part : Fin 8)
  | regulatorSharesWrite (src : Src) (value : BitVec 64)
  | patrolScrub (p : Fin 8) (err : Option Ecc) (passDone : Bool)
  | rowCopyDone (p : Fin 8)
  | dramTempSample (n : Fin 16) (temp : Option Int) (dieMax : Int)
  | cxlMemAccess (offset : Nat) (write : Option (List Byte)) (len : Nat) (err : Option Ecc)
  -- ledger and tests
  | ledgerEventClassed
  | ledgerRecordWritten
  | optimeFlush
  | trotPieceIssue (core : Fin 136) (pclass : Nat)
  | trotPieceComplete (digestOk : Bool)
  | gallopStartCommand (src : Src)
  | gallopStopCommand (src : Src)
  | gallopAutoStart
  | gallopCellComplete (failed : Bool)
  | coreProbeDone (core : Fin 136) (digestOk : Bool)
  | coreProbeTimeout (core : Fin 136)
  | coreResetDone (core : Fin 136)
  | hubWatchdogExpiry
  | escalationClear (src : Src)
  -- power and thermal
  | powerControllerIteration (inputW : Nat)
  | emergencyEscalationTimer (e : Emer)
  | emergencyClearTimer (e : Emer)
  | regulatorFault (r : Rail)
  | telemetryTimeout
  | coolantInletOver (temp : Int)
  | thermalTrip
  | rackLeaseWrite (src : Src) (value : BitVec 32)
  | leaseExpiry
  | islandVoltageLoop (core : Fin 136) (marginMore marginShort : Bool)
  | droopDetected (core : Fin 136)
  | logicTempSample (core : Fin 136) (temp : Int)
  -- firmware
  | ostlerTrap (o : Fin 12)
  | ostlerWatchdogExpiry (o : Fin 12)
  | ostlerRestartCommand (src : Src) (o : Fin 16)
  | ostlerDumpCommand (src : Src) (o : Fin 16)
  | ostlerDumpDone (o : Fin 12) (digestOk : Bool) (timeouts : Nat) (truncated : Bool) (size : Nat)
  | ostlerReady (o : Fin 12)
  | ostlerReadyTimeout (o : Fin 12)
  | farrierWatchdogExpiry
  | farrierRestartDone
  | updateRequest (src : Src) (req : BitVec 256)
  | updateDone (img : FwImage) (writeOk : Bool)
  | activateCommand (src : Src) (mask : BitVec 8)
  | activationDeferralEnd
  | patternLibraryReload (digestOk : Bool)
  | logFlashCopy
  | dumpExportRequest (src : Src) (req : BitVec 128)
  -- host and management ports
  | hello (master : Fin 9)
  | halterOpen (frags : List (Nat × List Byte)) (count total : Nat)
  | fragmentTimeout (slot : Fin 9)
  | sessionIdleTimeout (slot : Fin 9)
  | dictRead (src : Src) (index sub : Nat)
  | dictWrite (src : Src) (index sub size : Nat) (value : Nat)
  | claim (src : Src) (slot : Fin 8) (priority : Fin 16) (sig : Sig)
  | release (src : Src)
  | transfer (src : Src) (dest : Fin 9)
  | renew (src : Src)
  | pendingClaimLapse
  | ownerLeaseExpiry
  | imageChunk (src : Src) (offset : Nat) (bytes : List Byte)
  | imageChunkTimeout
  | mailboxIdentify
  | mailboxGetSupportedLogs
  | mailboxUnsupportedOpcode (opcode : BitVec 16)
  | persistGenerationStart
  | persistGenerationDone (ok : Bool)
  | persistRetry
  | restoreDefaults (src : Src) (value : BitVec 8)
  -- security
  | attestationRequest (src : Src) (nonce : Digest)
  | attestationDone
  | reportExport (src : Src) (offset : BitVec 64)
  | credentialInstall (src : Src) (req : BitVec 128)
  | credentialRemove (src : Src) (slot : BitVec 8)
  | debugUnlockRequest (src : Src) (req : BitVec 128) (token : Sig)
  | blinkersWindowWrite (src : Src) (w : Fin 16) (value : BitVec 256)
  | guestRequest (addr len : Nat) (write : Option (List Byte))
  | ptEntry (sig : Sig)
  | productionValueWrite (src : Src) (req : BitVec 192)
  | ledgerReset (src : Src) (value : BitVec 8)
  | fuseProgram (src : Src) (req : BitVec 128)
  | inputRestored (inputMv : Nat)
  | dumpExportDone (ok : Bool)
  | testPortInstruction (instr : Nat)
  | hubHot (temp : Int)
  deriving DecidableEq, Repr

end Sys2Proof
end

