-- ==== Sys2Proof/Config.lean ====
section
/-! DEFINITION. What the manual leaves to the device: free values, each an opaque constant that no proof can see into. -/

namespace Sys2Proof.Config

/-- A free 64-bit value: the n-th value a step draws where the manual fixes none (nonces, session numbers). Log 4. -/
opaque freeWord : Nat → BitVec 64
/-- What byte `off` of a TRANSIENT copy holds before the step has written it: "Not defined" (07 R171). Log 4. -/
opaque freeByte : Nat → Nat → BitVec 8
/-- The exact value `(-1)^neg * m * 2^e` of an ACC result above ACC's range, which 02 R48 and R49 give no delivered value:
the significand and exponent of the ACC value delivered (the sign is kept). DESIGN CHOICE, log 17. -/
opaque accOver : Bool → Nat → Int → Nat
/-- The same for a non-zero ACC result below 2^-510 outside the special functions. DESIGN CHOICE, log 17. -/
opaque accUnder : Bool → Nat → Int → Nat
/-- The shared secret of an ML-KEM-1024 encapsulation against the key with this digest (21 R534; the algorithm is outside the manual). -/
opaque mlkemSecret : BitVec 256 → Nat → BitVec 256
/-- The 1,568-byte ciphertext of the same encapsulation. -/
opaque mlkemCipher : BitVec 256 → Nat → BitVec 12544
/-- What a Falcon-1024 signature of 1,280 bytes says: the digest of the key that made it and the digest it signs (log 18). -/
opaque signed : List (BitVec 8) → BitVec 256 × BitVec 256
/-- The key digest and subject serial of a DER certificate that chains to the Colevere root (21 R530); none where it does not. -/
opaque certified : List (BitVec 8) → Option (BitVec 256 × BitVec 64)
/-- The 1,280-byte signature that a key makes over a digest (21, opening text). -/
opaque signature : BitVec 256 → BitVec 256 → BitVec 10240
/-- The KMAC256 tag of 32 bytes under a key, with the customisation "WN-HALTER" (21 R534; the function is outside the manual). -/
opaque kmac : BitVec 256 → List (BitVec 8) → BitVec 256
/-- Can a generation that starts now complete within the 150 ms of a power-down (20 R517; no rule gives its length)? Log 4. -/
opaque genFits : Nat → Bool
/-- The CXL.mem request that a flit to the guest carries (01 R26; CXL gives its layout): guest address, bytes, write. Log 232. -/
opaque guestMem : List (BitVec 8) → Option (Nat × Nat × Bool)
/-- The revision of a die, hub first, then C0 to C7 (22 R555 VERSION, modulo 16). Log 105. -/
opaque dieRevision : Nat → Nat
/-- Colevere's manufacturer code under JEP106 (22 R555 MANUF, modulo 2,048). Log 105. -/
opaque makerCode : Nat
/-- What the lane pairs of fields A and B, or a die's test controller, deliver to a scan (22 R556; no command carries it), by the counter of
free values. Log 105. -/
opaque scanData : Nat → Nat
/-- The digest of the boot ROM's minimal image (22 R557). Log 4. -/
opaque minimalImage : BitVec 256
/-- The digest of the output payload of the mailbox command Identify (19 R491; the standard gives its layout). -/
opaque identifyPayload : BitVec 64 → BitVec 64
/-- The output of Get Supported Logs (19 R491). -/
opaque supportedLogs : BitVec 64
/-- The event code the hub image's catalogue gives an event (18 R478: "Each hub image carries an event catalogue"). -/
opaque eventCode : Nat → BitVec 16
/-- A setting that training or adaptation finds for an equaliser of a link (11 R281): a FIR tap, a CTLE peaking or a DFE tap. Log 4. -/
opaque equaliser : Nat → Nat → BitVec 16
/-- The fixed hash of SRC, DEST and FLOW by which a router picks a link of a bundle (11 R306; the hash itself is not given). Log 4. -/
opaque linkHash : Nat → Nat → Nat → Nat
/-- Voltage and current telemetry of a rail at a reading (17 R461, 0x7000.31; no command carries it). Log 4. -/
opaque railReading : Nat → Nat → BitVec 64
/-- Coolant outlet temperature at a reading, F32 (17 R461, 0x7400.1A; no command carries it). Log 4. -/
opaque coolantOutlet : Nat → BitVec 32
/-- Hub temperature at a reading while no hub emergency is present, in tenths of a °C modulo 1,100 (17 R457, R461, 0x7400.18; no command
carries it). Log 4. -/
opaque hubReading : Nat → Nat
/-- Coolant inlet temperature at a reading while no coolant emergency is present, in tenths of a °C modulo 451 (17 R461, 0x7400.19; no command
carries it). Log 4. -/
opaque inletReading : Nat → Nat
/-- 64-byte chunk of the device certificate, which carries the identity key, the module serial number and whether a guest die is present (21
R529; the rest of it is a production value). Log 4. -/
opaque deviceCert : BitVec 256 → Nat → Bool → Nat → BitVec 512
/-- 64-byte chunk of the production CA's certificate (1) or of the root's (2) (21 R529, R544; production values). Log 4. -/
opaque certChunk : Nat → Nat → BitVec 512
/-- How many reads of a crash dump that module hardware or the Farrier makes time out (18 R483; no command carries it). Log 4. -/
opaque dumpTimeouts : Nat → Nat
/-- Does such a dump reach its 500 ms limit (18 R483)? Log 4. -/
opaque dumpTruncated : Nat → Bool
/-- Length of a certificate in bytes (21 R544 0xA000.12). Log 4. -/
opaque certLength : Nat → Nat
/-- The trace point that stands at an event, modulo 256 (18 R480, which gives only the groups of points). Log 209. -/
opaque tracePoint : Nat → Nat
/-- Is the slot of a trace point free, so that its entry is posted (18 R480)? Log 209. -/
opaque tracePosts : Nat → Bool
/-- The firmware interface version of a hub image (18 R487 0x1100.02): I in bits 31:16, J in bits 15:0. Log 4. -/
opaque interfaceVersion : Nat → Nat
/-- Row within a bank of 16 consecutive grains of a pseudo-channel (09 R226: "a fixed mapping", which is not given; any 16
consecutive grains fall in 16 different banks, so that the bank is, but for its name, the grain number modulo 16). Log 4. -/
opaque hbmRow : Nat → Nat
/-- The serial number of the module at a position that no discovery record of this module names (13 R357). Log 87. -/
opaque serialOf : Nat → BitVec 64
/-- Is it the checksum lane of the core, not the core, that a failed matrix trot kernel charges (14 R373 gives KIND 4 "1 or 2" and says no more):
by core, pattern class and failure. Log 206. -/
opaque trotLane : Nat → Nat → Nat → Bool
/-- Hard post-package repairs that a bank has resources for (14 R381, 09 R236; no rule gives the number), by pseudo-channel of the module and
bank. Log 4. -/
opaque repairsPerBank : Nat → Nat → Nat
/-- Can a UCIe module with a permanent fault be repaired with a redundant lane at training (14 R381 "where possible"), by unit identifier?
Log 4. -/
opaque ucieSpare : Nat → Bool
/-- DPART of a data flit of a collective (11 R305, which does not say how the sender picks it), by its landing header without FLIT and COUNT;
modulo 8. Log 4. -/
opaque landingPart : Nat → Nat
/-- Which of the 17 sensors of its die lies nearest to a unit (14 R374, which places none), by unit type and identifier. Log 39. -/
opaque nearestSensor : Nat → Nat → Nat
/-- Class, partitions and sharing of a tensor under the fixed placement of 08 R212, whose function is not given: the digest of the
image, the latched values with the core and slot maps, and the tensor. Bits 2:0 class, 10:3 partitions, 11 sharing, 18:12 slot of a core
store, 21:19 partition of the first version tile. Log 4. -/
opaque placement : BitVec 256 → List Nat → Nat → BitVec 32
/-- The slot of a piece under the same placement: as above, with the task's position and the piece. Log 4. -/
opaque pieceSlot : BitVec 256 → List Nat → Nat → Nat → Nat

/-- The partition whose HBM holds the fingerprint ring (10 R271: "the partition that holds them"; which one is not given). Log 4. -/
opaque ringPart : Nat
/-- A byte of a batch of a committed step that a partition reset has taken away and no rule fetches again (15 R403, R404), by step and
offset. Log 4. -/
opaque lostBatch : Nat → Nat → BitVec 8
/-- The digest of a part of a hub image, by the digest of its payload: 0 the security-core firmware, 1 + o the program of ostler o
(21 R526; how the payload divides is not given). Log 4. -/
opaque component : BitVec 256 → Nat → BitVec 256
/-- The 16-bit CRC of a 64-byte die-to-die flit (01 R20; its polynomial is not given). Log 4. -/
opaque d2dCrc : List (BitVec 8) → BitVec 16
/-- The CRC that the UCIe adapter of the guest connection forms over a 256-byte flit (01 R26; the standard gives it). Log 4. -/
opaque ucieCrc : List (BitVec 8) → BitVec 16

end Sys2Proof.Config
end

