-- ==== Sys2Proof/Machine/ProgramTypes.lean ====
section
/-! DEFINITION. The parts of a loaded step program (07 R167 to R178, 12 R314): plain records of the decoded image; and the values that a core
computes with. -/

namespace Sys2Proof.Machine

/-- Sparse bytes by offset: offsets strictly rising, no entry equal to what an unlisted offset reads as. -/
abbrev Mem := List Host.Cell

/-- An ACC value: zero, `(-1)^neg * m * 2^e` with a 36-bit significand whose top bit is set, infinity, or the one NaN (02 R48). -/
inductive Acc where
  | zero (neg : Bool)
  | fin (neg : Bool) (m : Nat) (e : Int)
  | inf (neg : Bool)
  | nan
  deriving DecidableEq, Repr, Inhabited

/-- An operand slot (07 R176): version selector bits and tensor ID. -/
structure OpSlot where
  vsel   : Nat
  tensor : Nat
  deriving DecidableEq, Repr, Inhabited

/-- The four matrix opcodes (04 R99). -/
inductive MatKind where
  | mm | mmTa | mmTb | mmAcc
  deriving DecidableEq, Repr, Inhabited

/-- A descriptor's body by opcode (07 R177). -/
inductive Body where
  | mat (kind : MatKind) (a b : OpSlot) (c : Nat) (z : OpSlot) (deriv : Nat) (gated : Bool) (g : Nat) (wideB ta tb : Bool)
  | att (bwd : Bool) (q k v o l dO : OpSlot) (dq dk dv head : Nat) (causal : Bool) (g : Nat) (wideB : Bool)
      (qoff koff : Nat) (sigma : BitVec 32)
  | ew (a b : OpSlot) (out sub bkind : Nat) (k1 k2 f2 : BitVec 32) (tmpl : OpSlot)
  | red (src : OpSlot) (dst sub : Nat) (whole : Bool)
  | norm (x gamma beta stats dy : OpSlot) (out dgamma dbeta sub : Nat) (eps : BitVec 32)
  | smax (x dp : OpSlot) (out : Nat) (bwd : Bool) (sigma : BitVec 32) (causal : Bool) (qoff koff : Nat)
  | opt (alg : Nat) (w m v grad rec : OpSlot) (work first count : Nat)
  | conv (src : OpSlot) (dst : Nat)
  | amax (src : OpSlot) (dst : Nat)
  | copy (src : OpSlot) (dst : Nat)
  | coll (kind redop group : Nat) (src : OpSlot) (dst peer : Nat)
  | sig (obj inc : Nat) (gmask : BitVec 16)
  | wait (obj target : Nat)
  deriving DecidableEq, Repr, Inhabited

/-- A task descriptor (07 R175, R177). -/
structure Task where
  opcode : Nat
  cgroup : Nat
  halt   : Bool
  bunit  : Nat
  bound  : Nat
  body   : Body
  deriving DecidableEq, Repr, Inhabited

/-- A tensor-table entry (07 R170). `dims` holds the declared dimensions, outermost first. -/
structure Tensor where
  format    : Nat
  persist   : Nat
  dims      : List Nat
  sr        : Bool
  keep      : Bool
  frozen    : Bool
  gradValid : Bool
  policy    : Nat
  scopeGroup : Bool
  group     : Nat
  sInit     : Int
  histLen   : Nat
  margin    : Nat
  gradLink  : Nat
  hint      : BitVec 16
  dataOff   : Nat
  deriving DecidableEq, Repr, Inhabited

/-- A group-table entry (12 R314): member counts and spacings already increased by one. -/
structure Group where
  barrier : Bool
  order   : Nat
  len     : List Nat      -- members along X, Y, Z
  stride  : List Nat
  notifyObj : Option Nat
  channel : Nat
  bop     : Nat
  deriving DecidableEq, Repr, Inhabited

/-- A loaded program with what its load latched (07 R196, 02 R56, 03 R75, 04 R106). -/
structure Program where
  programId : Nat
  planId    : Nat
  tensors   : List Tensor
  groups    : List Group
  tasks     : List Task
  data      : Mem
  digest    : Digest
  seed      : Nat
  histDef   : Nat
  marginDef : Nat
  tolInit   : Nat
  deriving DecidableEq, Repr, Inhabited

end Sys2Proof.Machine
end

