-- ==== Sys2Proof/Machine/State.lean ====
section
/-! DEFINITION. The block's whole state as plain data, the reasons a step can stop, and the state at reset. -/

namespace Sys2Proof.Machine

/-- Why a step faults. -/
inductive Fault where
  /-- Raised by CXL_MEM_ACCESS at an offset outside the 64 GiB aperture, an address that does not exist (09 R241). Safe: the
  module's own decoder never claims such an address, so nothing the manual describes is shut out. -/
  | outsideAperture
  deriving DecidableEq, Repr

/-- Why a step is refused. -/
inductive Refusal where
  /-- Raised only by an arm of exec whose command has no meaning yet. Safe: nothing can be proved of what it does. -/
  | notModelled (mnemonic : String)
  deriving DecidableEq, Repr

/-! ### Clock and pins -/

/-- The module's own time (18 R481, 14 R375); nothing in it is shared with another module (12 R339). -/
structure Clk where
  now         : Nat := 0       -- ns
  hubOn       : Nat := 0       -- ns at which PD40 came on
  opBase      : Nat := 0       -- operating seconds at Farrier power-on
  opFrom      : Nat := 0       -- ns at Farrier power-on
  optimeFlash : Nat := 0       -- operating seconds last written to flash
  pcycle      : Nat := 0       -- power-up count
  deriving DecidableEq, Repr, Inhabited

/-- The pins the host connector gives (22 R547, R551; 17 R459, R460; 16 R438). -/
structure Pins where
  pwrEn     : Bool := false
  perstN    : Bool := false    -- level high: deasserted
  trstN     : Bool := false    -- level of TRST_N: low or open holds the TAPs (22 R551)
  prodHeld  : Bool := false    -- TRST_N and TMS were high at the assertion of PWR_EN (22 R557)
  inputMv   : Nat := 0
  inputOk   : Bool := false
  fetOpen   : Bool := false
  thermTrip : Bool := false    -- THERM_TRIP_N asserted
  alert     : Bool := false    -- ALERT_N asserted
  deriving DecidableEq, Repr, Inhabited

/-! ### Device and start-up -/

/-- Device states of 0x2000.01 (20 R515). -/
inductive DevState where
  | boot | ready | joined | spare | recovery | outOfService | test
  deriving DecidableEq, Repr, Inhabited

/-- Where the power-down sequence of 16 R428 stands; `reset` marks the one a module reset runs (R436). -/
structure Down where
  step  : Nat
  reset : Bool
  deriving DecidableEq, Repr, Inhabited

/-- The instructions the TAPs hold (21 R538). -/
inductive TapInstr where
  | bypass | idcode | extest | samplePreload | intest | extestPulse | extestTrain
  deriving DecidableEq, Repr, Inhabited

/-- Production values (20 R515). -/
structure Product where
  guestPart  : Bool := false                  -- the hardware is an NDS9-768L-G: fixed at the package line (00 R3, R4)
  partG      : Bool := false                  -- the part number written says NDS9-768L-G
  guestSeen  : Bool := false                  -- the value written for 0x1000.04
  serial     : Nat := 1
  pkgSerial  : Nat := 1
  guestId    : Nat := 0
  mac        : Nat := 0
  boardIssue : Nat := 0
  deriving DecidableEq, Repr, Inhabited

/-- Start-up, resets and the device state (chapter 16), with production test (22 R557 to R559). -/
structure Dev where
  on         : Bool := false
  state      : DevState := .boot
  prev       : DevState := .ready
  phase      : Nat := 0
  lastKind   : Nat := 0
  lastPart   : Nat := 0
  lastCause  : Nat := 0
  inService  : BitVec 8 := 0
  inReset    : BitVec 8 := 0
  heldOff    : BitVec 8 := 0
  delayed    : BitVec 8 := 0
  bring      : Vector Nat 8 := Vector.replicate 8 0     -- bring-up step in progress, 0 none
  nextPart   : Nat := 0                                 -- next partition of the stagger; 8 when all are started
  down       : Option Down := none
  holdoff    : Bool := false
  oosAtEnd   : Bool := false
  oosKeep    : Bool := false                            -- the module reset began in OUT_OF_SERVICE without an escalation clear (15 R406)
  marched    : BitVec 9 := 0                            -- stores whose start-up march has run: link stores, the hub commons (16 R432)
  tries      : Vector Nat 16 := Vector.replicate 16 0   -- memory trainings of each stack in this bring-up
  kernels    : List (Nat × Nat) := []                   -- self-test kernels left: core, pattern class
  retest     : List (Nat × Nat) := []                   -- kernels being run a second time
  ucieOff    : List (Nat × Nat) := []                   -- disabled UCIe modules: die, module
  d2dSeq     : List ((Conn × Bool) × Nat) := []         -- last good flit of a die-to-die connection by direction
  d2dBuf     : List ((Conn × Bool) × List (List Byte)) := []   -- replay buffer of its sending side: the flits after the last good one (R20)
  d2dReplays : List (Conn × Nat) := []                  -- replays of a die-to-die connection
  prodEntry  : Bool := false
  prodTest   : Bool := false
  minimal    : Bool := false
  ledgerRst  : Bool := false
  fused      : Bool := false
  scanOpen   : Bool := false
  prodNonce  : BitVec 64 := 0
  prodHello  : Bool := false                            -- a HELLO has drawn the nonce in production entry (22 R557)
  stuck      : Bool := false                            -- both Farrier banks failed: the package stays unpowered (21 R526)
  tap        : TapInstr := .idcode
  product    : Product := {}
  fuses      : List (Nat × Nat) := []
  deriving DecidableEq, Repr, Inhabited

/-! ### Dictionary, persistence and host ports -/

/-- One generation of the persisted entries in Farrier flash (20 R516, R517). -/
structure Gen where
  number : Nat := 0
  valid  : Bool := true
  image  : List (Nat × Nat) := []
  deriving DecidableEq, Repr, Inhabited

/-- Values latched from entries at module reset, at a load into context 0 and at START (20 R512). -/
structure Latched where
  machine   : Nat := 0
  coords    : Nat := 0
  shape     : Nat := 0x7FF0
  sparePos  : Nat := 16
  ratio     : Nat := 0x2108
  discMode  : Nat := 0
  block     : Nat := 0x3FF00000
  ringBase  : Nat := 0
  slotSize  : Nat := 0
  slotCount : Nat := 0
  depth     : Nat := 4
  ckptOn    : Bool := true
  minSpace  : Nat := 50
  maxSpace  : Nat := 5000
  patience  : Nat := 8000
  replayBlock : Nat := 0x3FF00000
  reserveMille : Nat := 125
  deriving DecidableEq, Repr, Inhabited

/-- The dictionary's RW and RWP values and their persistence. A value is listed only while it differs from its default. -/
structure Dict where
  vals      : List (Nat × Nat) := []
  copyA     : Gen := {}
  copyB     : Gen := {}
  pendingW  : Bool := false
  failed    : Bool := false
  defaulted : Bool := false
  gen       : Nat := 0
  writing   : Option Gen := none
  lastStart : Nat := 0
  again     : Bool := false
  latched   : Latched := {}
  kept      : List (Nat × Nat) := []         -- last readings of blocks whose partition lost its power (R511)
  deriving DecidableEq, Repr, Inhabited

/-- A pending claim (19 R500). -/
structure Claim where
  master   : Fin 9
  slot     : Fin 8
  priority : Nat
  until_   : Nat
  deriving DecidableEq, Repr, Inhabited

/-- A Halter session (19 R497, 21 R534 to R536). -/
structure Session where
  slot    : Fin 9
  number  : BitVec 32
  transcript : Digest                        -- T of R534
  key     : BitVec 512                       -- K of R534
  topSeq  : Nat := 0
  seqSeen : Bool := false                    -- a request has been accepted in it
  replies : List (Nat × Nat × Nat × List Byte) := []   -- request SEQ, TYPE, status, body; newest first, 16 kept
  queued  : Nat := 0                         -- NOTIFY messages queued, at most 64
  lastAt  : Nat := 0                         -- ns of its last message
  deriving DecidableEq, Repr, Inhabited

/-- Ownership, sessions, illegal sequences and notifications (chapter 19, 20 R520 to R523). -/
structure HostPort where
  owner     : Option (Fin 9) := none
  ownerPrio : Nat := 0
  ownerSlot : Nat := 0
  leaseEnd  : Nat := 0
  claim     : Option Claim := none
  managers  : List (Fin 9) := []
  changes   : Nat := 0
  tagFails  : Nat := 0
  sessions  : List Session := []
  illegal   : Nat := 0
  lastIllegal : Nat := 0
  noteSeq   : Nat := 0
  noteHeld  : List (Nat × Nat × Nat × Nat) := []   -- records that wait for the end of BOOT: kind, index, sub, argument (R523)
  noteRing  : List (Nat × BitVec 256) := []  -- slot in the ring, record
  note15    : Option Nat := none             -- when the last record of kind 15 was posted
  msix0     : Nat := 0
  msix1     : Nat := 0
  reply     : Option (Nat × Nat) := none     -- last reply: status, value
  chunks    : List (Nat × Nat) := []         -- image bytes received: offset, count
  linkWidth : Nat := 0                       -- lanes that the CXL port trained with (R488)
  linkRate  : Nat := 0                       -- and their rate, GT/s
  only68    : Bool := false                  -- the host offers 68-byte flits only, and the link stays down
  plcaId    : Nat := 0xFF                    -- PLCA node ID in force (R496)
  deriving DecidableEq, Repr, Inhabited

/-! ### Contexts and programs -/

/-- Context states of 07 R186. -/
inductive CtxState where
  | empty | loading | loaded | running | halted
  deriving DecidableEq, Repr, Inhabited

/-- A piece of a task (07 R190, 08 R208): `unit` is its first tile, query tile or OPT tile, or 0 for a whole task. -/
structure Piece where
  ctx  : Nat
  task : Nat
  unit : Nat
  step : Nat
  slot : Nat := 0         -- placement slot 16 p + s it was placed on; 128 + p the link DMA of partition p, 136 the hub DMA
  deriving DecidableEq, Repr, Inhabited

/-- Scale and tolerance state of one tensor (03 R73 to R78, 04 R106). -/
structure TState where
  tensor : Nat
  hist   : List (Nat × BitVec 32) := []      -- step and running maximum, newest first
  tol    : Nat := 0
  quiet  : Nat := 0
  cur    : List (Nat × Int × BitVec 32) := []       -- CURRENT: step, scale, AMAX result; newest first, of the open steps
  used   : Option (Nat × Int × BitVec 32 × BitVec 32) := none  -- last commit: step, scale, window maximum, running maximum
  deriving DecidableEq, Repr, Inhabited

/-- A dispatched SIG that waits for earlier tasks (07 R180). -/
structure SigWait where
  task : Nat
  step : Nat
  obj  : Nat
  inc  : Nat
  mask : BitVec 16
  deriving DecidableEq, Repr, Inhabited

/-- One of the sixteen contexts (07 R185 to R191). -/
structure Ctx where
  state     : CtxState := .empty
  cause     : Nat := 0
  causeTask : Nat := 0
  prog      : Option Program := none
  pos       : Nat := 0
  step      : Nat := 0
  held      : List (Nat × Piece) := []       -- core and piece waiting for queue room
  waiting   : Option (Nat × Nat) := none     -- WAIT in force: object, target
  began     : List (Nat × Nat) := []         -- COLL, SIG and WAIT tasks of the step: task, ns from which its watchdog runs (R192)
  sigs      : List SigWait := []
  left      : List (Nat × Nat) := []         -- tasks of the step in flight, on cores or link blocks: task, pieces left
  special   : List Nat := []                 -- tasks of the step with a special flag set
  unloading : Bool := false
  joins     : Bool := false                  -- started, joins at context 0's next boundary
  restored  : Bool := false                  -- a restore has filled it: rebuild before the first step
  invalid   : Bool := false                  -- a failed restore left no valid committed state
  started   : Bool := false
  diag      : Bool := false                  -- a diagnosis-replay load
  collWait  : Option Nat := none             -- ns since which the write of the COLL at the link blocks waits (08 R203, 10 R257)
  cut       : List Nat := []                 -- COLL tasks of the step that sent an unreachable flit: they do not complete (11 R310)
  resv      : List (Nat × Nat × Nat) := []   -- reserved-exponent blocks counted in the step: task, tensor, block (R46)
  tens      : List TState := []
  deriving DecidableEq, Repr, Inhabited

/-- 0x2100.11 and the request being carried out (07 R195, R197). -/
structure Load where
  reason : Nat := 0
  ctx    : Nat := 0
  wher   : Nat := 0
  status : Nat := 0
  index  : Nat := 0
  image  : Option (List Byte) := none        -- the bytes of the single pass
  poisoned : Bool := false
  length : Nat := 0
  src    : Option Src := none                -- who asked for the load
  deriving DecidableEq, Repr, Inhabited

/-! ### Tensor storage -/

/-- Which copy of a tile this is (10 R247, R250). -/
inductive CopyKind where
  | committed | prev | w1 | w2
  | hold (cuts : List Nat)   -- held for the captures of these cuts
  | whole            -- TRANSIENT, CONST and RESULT contents, and context 15's tensors
  deriving DecidableEq, Repr, Inhabited

/-- One physical copy: bytes at offsets of the tensor's canonical image (13 R344), the scale they were written with (03 R66),
and, for a TRANSIENT copy, the number under which unwritten bytes are free. Contexts 16 + c are those of the mirror region: the mirrored
module's context c (13 R351). -/
structure Copy where
  ctx    : Nat
  tensor : Nat
  tile   : Nat
  kind   : CopyKind
  scale  : Int := 0
  bytes  : Mem := []
  undef  : Option Nat := none
  mask   : Mem := []                         -- TRANSIENT: 1 at every offset written
  deriving DecidableEq, Repr, Inhabited

/-- What a mirror stream carries: OPT state and module-state records (15 R409, 13 R345). -/
structure MirrorSet where
  tensors : List (Nat × Nat × List Byte) := []   -- context, tensor, image
  recs    : List (BitVec 128) := []
  deriving DecidableEq, Repr, Inhabited

/-- Version tracking (10 R247 to R252), with the mirror region's tiles among the copies (13 R351) and its records apart (15 R409). -/
structure Vers where
  copies    : List Copy := []
  reserve   : Nat := 0
  minRes    : Nat := 0
  stallFree : Nat := 0
  peak      : Nat := 0
  splits    : Nat := 0
  stalls    : Nat := 0
  stallNs   : Nat := 0
  stalled   : List (Nat × Nat) := []         -- stalled cores and when the wait began
  waited    : List Piece := []               -- pieces not yet issued that have waited and been counted (10 R252)
  mirrorRecs : List (BitVec 128) := []        -- committed records of the mirrored module
  mirrorW   : List (Nat × List (BitVec 128)) := []   -- its records by open step
  mirrorLost : Bool := false
  deriving DecidableEq, Repr, Inhabited

/-- Batch input (07 R193, R194; 10 R271; 19 R492, R493). -/
structure Fetch where
  state   : Nat := 0
  step    : Nat := 0
  filled  : Nat := 0
  queue   : List Nat := []                   -- further steps to fetch at START
  batches : List (Nat × List Byte) := []
  again   : List Nat := []                   -- steps whose batch a partition reset took away, to be fetched once more (15 R404)
  digest  : Option Digest := none            -- of the program under which they were fetched (10 R273)
  first   : Nat := 0                         -- the first step after a START, while batches that it waits for are fetched (R194)
  deriving DecidableEq, Repr, Inhabited

/-- A result object (19 R502): current and committed record. -/
structure Result where
  cur  : BitVec 128 := 0
  held : BitVec 128 := 0                     -- the record of step n once n + 1 has written the current one
  comm : BitVec 128 := 0
  deriving DecidableEq, Repr, Inhabited

/-! ### Cores -/

/-- Where a check piece comes from (10 R255, R256, R258). -/
inductive CheckSource where
  | sample | csum | optDup | arbiter
  deriving DecidableEq, Repr, Inhabited

/-- Numeric events of one execution, with its first special element (03 R82, R83). -/
structure Events where
  sat     : Nat := 0
  flush   : Nat := 0
  special : Nat := 0
  first   : Option (Nat × Nat × Nat × Nat) := none   -- tile, row, column, kind
  tiles   : List Nat := []                           -- tiles with the special flag set, each once
  deriving DecidableEq, Repr, Inhabited

/-- What an execution formed for one unit: its digests and its checksum outcome (04 R104 to R110). -/
structure UnitOut where
  unit     : Nat
  digests  : List (BitVec 64)
  dataFail : Bool := false
  laneFail : Nat := 0
  specialAcc : Bool := false
  raw  : Nat := 0                             -- its saturation, flush and special events
  resv : Nat := 0                             -- reserved-exponent blocks it decodes
  deriving DecidableEq, Repr, Inhabited

/-- How a chosen unit's check stands. -/
inductive CheckState where
  | waiting | matched | mismatch
  deriving DecidableEq, Repr, Inhabited

/-- A unit whose digest is kept (04 R110) until its check decides it. -/
structure CheckRec where
  source  : CheckSource
  ctx     : Nat
  task    : Nat
  unit    : Nat
  slot    : Nat
  core    : Nat
  digests : List (BitVec 64)
  checkCore : Nat := 0
  dataFail : Bool := false
  laneFail : Nat := 0
  state   : CheckState := .waiting
  deriving DecidableEq, Repr, Inhabited

/-- A re-execution, OPT duplicate or arbiter execution in a check queue. It reads what its primary read (10 R255, R257), so
what an errorless execution of it forms is known when the primary reads: for each unit its digests and checksum outcome, and
over all of them the numeric events and the reserved-exponent reads. -/
structure CheckPiece where
  source : CheckSource
  piece  : Piece
  units  : List UnitOut
  raw    : Nat := 0
  resv   : Nat := 0
  core   : Nat := 0                           -- arbiter: the primary's core, the checking core, and their digests
  checkCore : Nat := 0
  prim   : List (BitVec 64) := []
  chk    : List (BitVec 64) := []
  recs   : List CheckRec := []                -- the records of its units, as the primary left them
  stale  : Bool := false                      -- its step was rolled back while it ran
  deriving DecidableEq, Repr, Inhabited

/-- A task's events in a step, towards its numeric record (03 R83). -/
structure TaskStat where
  ctx    : Nat
  task   : Nat
  opcode : Nat
  tensor : Nat
  ev     : Events
  deriving DecidableEq, Repr, Inhabited

/-- What a running execution delivers when it completes. -/
structure Run where
  piece  : Piece
  outs   : List (Nat × Events) := []          -- per output tensor
  splits : List TaskStat := []                -- events of the splits it needed, by the task they count with (10 R248)
  units  : List UnitOut := []
  maxima : List (Nat × BitVec 32) := []       -- per output tensor
  amax   : Option (Nat × BitVec 32) := none   -- AMAX result
  results : List (Nat × BitVec 64) := []      -- RESULT object and value
  recFault : Bool := false
  optSkip  : Bool := false
  stale    : Bool := false                    -- its step was rolled back while it ran
  startedAt : Nat := 0                        -- ns
  tiles    : Nat := 1                         -- T of 07 R192
  deriving DecidableEq, Repr, Inhabited

/-- One slot of a marver (05 R121 to R125): two planes of 64 banks of 64 entries, and the lines written of its K block. A plane that
nothing has been written into since reset lists no bank. -/
structure MarverSlot where
  hi    : List (List Acc) := []
  lo    : List (List Acc) := []
  lines : Nat := 0
  deriving DecidableEq, Repr, Inhabited

/-- The working storage of a core (04 R90, 05 R121, R136, 09 R222): the two accumulators of every working PE, by bank, row and column (a PE
that a bank does not list holds +0), the two slots of each marver, the pre-activation buffer, and the two halves of vector staging. -/
structure Bench where
  acc0 : List (List Acc) := []
  acc1 : List (List Acc) := []
  bank : Bool := false                        -- the bank that the next tile takes
  a    : MarverSlot × MarverSlot := ({}, {})
  b    : MarverSlot × MarverSlot := ({}, {})
  next : Bool := false                        -- the slot that loads next
  preAct : List Byte := []
  stage0 : List Byte := []
  stage1 : List Byte := []
  half : Bool := false                        -- the half that fills next
  deriving DecidableEq, Repr, Inhabited

/-- One physical core (01 R10, R190; 17 R450, R464). -/
structure Core where
  queue    : List Piece := []
  checkQ   : List CheckPiece := []
  running  : List Run := []                   -- at most two, the second a vector piece beside a matrix sweep (06 R155)
  checking : Option (CheckPiece × List UnitOut) := none
  checkAt  : Nat := 0                         -- ns at which it was issued
  bench    : Bench := {}
  lastCheck : Bool := false
  test     : Bool := false                    -- powered as a gallop test core (14 R394)
  probe    : Nat := 0                         -- 0 none, 1 first probe, 2 resetting, 3 probe after the reset
  probeCls : Nat := 0                         -- pattern class of the kernel that probes it
  resets   : List Nat := []                   -- operating seconds of its core resets
  barred   : Bool := false                    -- takes no further piece (18 R467)
  setpoint : Nat := 6800                      -- island regulator, tenths of mV
  freq     : Nat := 3000
  stretch  : Nat := 0
  temp     : Int := 0                         -- tenths of a °C
  therm    : Nat := 64
  thermN   : Nat := 0                         -- samples until the thermal ceiling is recomputed
  lastSweep : Option Nat := none              -- ns at which the array last swept
  ramp     : Option Nat := none               -- ns at which its ramp's start offset ends
  deriving DecidableEq, Repr, Inhabited

/-! ### Steps, checks and verdict -/

/-- Checksum outcome of a tensor in a step (04 R106). -/
structure TolOut where
  ctx    : Nat
  tensor : Nat
  failed : Bool
  differed : Bool
  deriving DecidableEq, Repr, Inhabited

/-- Step states of 10 R246. -/
inductive StepStatus where
  | dispatching | checking | contributed
  deriving DecidableEq, Repr, Inhabited

/-- A GROUP scale exchange in progress (12 R323): the largest value the module has merged, the phase of the reduce it stands in, and the
keys of the flits it has taken. -/
structure Exch where
  ctx    : Nat
  tensor : Nat
  value  : BitVec 32
  phase  : Nat := 0
  keys   : List Nat := []
  deriving DecidableEq, Repr, Inhabited

/-- An open step: provisional until its combined word (10 R244). -/
structure OpenStep where
  step     : Nat
  status   : StepStatus := .dispatching
  level    : Nat := 0
  fails    : BitVec 16 := 0                   -- bits of 0x2100.09 (R269)
  begun    : Bool := false                    -- any piece dispatched
  checks   : List CheckRec := []
  mirrorSent  : Bool := false
  mirrorAcked : Bool := false
  exchanges : Nat := 0
  exchDone  : List (Nat × Nat) := []          -- scale exchanges that have ended: context, tensor
  exchEarly : List (Nat × Nat × BitVec 32 × Nat) := []   -- reduce flits that came before their phase: context, tensor, value, header (12 R323)
  stats    : List TaskStat := []
  maxima   : List (Nat × Nat × BitVec 32) := []   -- context, tensor, running maximum
  amaxes   : List Exch := []                  -- scale exchanges that have not ended
  tol      : List TolOut := []
  clamps   : Nat := 0
  optSkip  : Bool := false
  optDigs  : List (Nat × Nat × Nat × List (BitVec 64)) := []  -- context, task, tile, digests
  deriving DecidableEq, Repr, Inhabited

/-- The step engine (chapter 10). -/
structure Steps where
  committed : Nat := 0
  older     : Option OpenStep := none
  younger   : Option OpenStep := none
  lastWord  : BitVec 32 := 0
  lastFailed : BitVec 32 := 0
  rollbacks : Nat := 0
  discarded : Nat := 0
  arbWait   : List CheckPiece := []   -- arbiter executions that wait for room in their core's check queue (10 R256, R258)
  prints    : List (Nat × BitVec 64) := []    -- fingerprints, newest first, 64 kept
  attempt   : Nat := 0
  lastAbort : Option (Nat × Nat) := none      -- GEN and ATTEMPT of the last abort a module outside the job forwarded (12 R333)
  lagFrom   : Option Nat := none              -- receipt of the last combined word; none: LAG 0
  lagOwn    : Nat := 0
  ownLag    : Nat := 0
  combLag   : Nat := 0
  slacks    : List Nat := []                  -- slack of the last 64 commits
  lastClean : Option Nat := none
  stepNs    : Nat := 0                        -- D of 17 R454
  completions : Nat := 0
  aborts    : Nat := 0
  contribAt : Nat := 0
  barrierNs : Nat := 0
  barrierMax : Nat := 0
  replayDue : Option Nat := none              -- a rollback waits to dispatch this step again
  discardHeld : Bool := false                 -- the discard of working versions waits for an arbiter (R258)
  lossSeen  : Bool := false                   -- no clean verdict until module reset (R234, R379)
  replayCut : Nat := 0                        -- cut restored into context 15
  replayStep : Nat := 0
  replayResult : Nat := 0
  replayActive : Bool := false
  deriving DecidableEq, Repr, Inhabited

/-! ### Sync objects, barriers, collectives -/

/-- A sync object (07 R179). -/
structure SyncObj where
  tag   : Nat := 0
  count : Nat := 0
  deriving DecidableEq, Repr, Inhabited

/-- Combining of one barrier channel (12 R328 to R332): `plus` and `minus` are what came along the axis from each side. -/
structure Chan where
  gen     : Nat := 0
  own     : Option (BitVec 32) := none
  phase   : Nat := 0                          -- 0 X, 1 Y, 2 Z, 3 combined
  input   : Option (BitVec 32) := none        -- the phase input once ready
  early   : List (Nat × Nat × Bool × Nat × BitVec 32) := []  -- frames held: generation, axis, from plus side, count, value
  seen    : Bool := false
  state   : Nat := 0                          -- R342
  op      : Nat := 0
  ctx     : Nat := 0xF
  task    : Option Nat := none                -- the BARRIER task that contributed
  word    : BitVec 32 := 0                    -- last combined word
  genAt   : Nat := 0                          -- generation at the last commit (R329)
  deriving DecidableEq, Repr, Inhabited

/-- A landing-chunk buffer (12 R325): the context and landing-header key it was granted for, arrival map and bytes. -/
structure Chunk where
  part : Nat
  link : Nat := 0                             -- the link whose grant it is
  ctx  : Nat
  key  : Nat
  map  : List Nat := []
  bytes : List (Nat × List Byte) := []
  full : Bool := false
  deriving DecidableEq, Repr, Inhabited

/-- Collective counters and landing zones (12 R325, R340). -/
structure Coll where
  chunks  : List Chunk := []
  dup     : Nat := 0
  stale   : Nat := 0
  sentB   : Nat := 0
  reduced : Nat := 0
  signals : Nat := 0
  deriving DecidableEq, Repr, Inhabited

/-! ### Counters, placement, memory -/

/-- Numeric and checking counters (03 R85, 04 R107, 06 R165, 10 R259). -/
structure Num where
  sat : Nat := 0
  flush : Nat := 0
  special : Nat := 0
  specialTiles : Nat := 0
  raw : Nat := 0
  clamps : Nat := 0
  reservedExp : Nat := 0
  recIdx : Nat := 0
  recs : List (Nat × BitVec 256) := []        -- index, record; newest first, 8,192 kept
  overruns : Nat := 0
  csumFail : Nat := 0
  csumFalse : Nat := 0
  laneFail : Nat := 0
  specialAcc : Nat := 0
  optMis : Nat := 0
  optSkip : Nat := 0
  optFault : Nat := 0
  reexec : Nat := 0
  mismatch : Nat := 0
  unresolved : Nat := 0
  deriving DecidableEq, Repr, Inhabited

/-- A planned tensor move (08 R213): to a class and partition, and there to one core store or to several. -/
structure Move where
  ctx    : Nat
  tensor : Nat
  cls    : Nat
  part   : Nat
  slot   : Option Nat := none
  copied : Bool
  deriving DecidableEq, Repr, Inhabited

/-- Where a tensor lies (08 R199 to R202, R219). For CONST, class, partitions and slot are those of the resident copy. -/
structure Placed where
  ctx    : Nat
  tensor : Nat
  cls    : Nat                                -- class code; 0 a CONST without a resident copy, 5 more than one class
  parts  : BitVec 8
  slot   : Option Nat := none                 -- class 1: the slot whose core store holds it whole; none: spread over its partitions
  base   : Nat := 0                           -- partition of version tile 0 in HBM: PERSISTENT, INPUT, a CONST master copy
  split  : List (Nat × Nat) := []             -- bytes by store, where no even spread holds it; class 5 where they lie in more than one class
  pinned : Bool := false
  shared : Option (Nat × Nat) := none         -- shares space; the list positions over which it is live (R202)
  moved  : Bool := false                      -- has moved since its load
  age    : Nat := 0                           -- committed steps since the last move, or the load
  access : Nat := 0
  deriving DecidableEq, Repr, Inhabited

/-- A placed task (08 R220). A COPY's engine follows from where its tensors lie (R210). -/
structure PlacedTask where
  ctx  : Nat
  task : Nat
  slots : List Nat                            -- the placement slot of each primary piece
  deriving DecidableEq, Repr, Inhabited

/-- Space that a move or a re-placement freed at the boundary of a step (08 R203). -/
structure Freed where
  ctx    : Nat
  tensor : Nat
  step   : Nat
  units  : List Nat                           -- the stores it lay in
  deriving DecidableEq, Repr, Inhabited

/-- Placement (chapter 08) and the core maps (01 R16). -/
structure Place where
  coreMap  : Vector (BitVec 32) 8 := Vector.replicate 8 0x0080FFFF
  slotMap  : Vector (Vector Nat 16) 8 := Vector.replicate 8 (Vector.ofFn fun i => i.val)
  gen      : Nat := 0
  moves    : Nat := 0
  hintsOff : Nat := 0
  status   : Nat := 0
  plan     : List Move := []
  tensors  : List Placed := []
  tasks    : List PlacedTask := []
  withheld : List (Nat × Nat × Nat) := []     -- store, partition, 64 KiB block
  latchedOn : Bool := true
  latchedDwell : Nat := 16
  latchedCopy : Nat := 256
  replacing : List Nat := []                  -- partitions whose re-placement without a spare runs, the oldest first (08 R217)
  traffic  : List ((Nat × Nat × Nat × Nat) × Nat) := []   -- bytes that primary executions accessed: step, context, tensor, partition (R213)
  batchAt  : List (Nat × Nat × Nat × BitVec 8) := []      -- partitions of retained batches: step, context, tensor (R200)
  freed    : List Freed := []
  deriving DecidableEq, Repr, Inhabited

/-- One HBM stack's thermal state (09 R239, R240). -/
structure Stack where
  temp     : Int := 0                         -- tenths of a °C
  ceil     : Nat := 64
  twice    : Bool := false
  fallback : Bool := false
  misses   : Nat := 0
  die      : Int := 0                         -- tenths of a °C: highest compute-die sensor under the stack, in the last sample
  sampled  : Bool := false                    -- a sample has set it since reset
  deriving DecidableEq, Repr, Inhabited

/-- A location of a tensor that holds an uncorrectable error until it is written again (09 R234): its content code and bytes. -/
structure Mark where
  content : Nat
  ctx     : Nat
  tensor  : Nat
  off     : Nat
  len     : Nat
  deriving DecidableEq, Repr, Inhabited

/-- A row being copied to a spare row (09 R236): its unit, ADDR of the location that made it a candidate, and the uncorrectable locations that
are copied as poisoned, with their content codes. -/
structure RowCopy where
  part : Nat
  row  : Nat
  addr : Nat
  bad  : List (Nat × Nat) := []
  deriving DecidableEq, Repr, Inhabited

/-- Memory health (09 R228 to R238). -/
structure MemHealth where
  hbmCorr : Nat := 0
  hbmUncorr : Nat := 0
  storeCorr : Nat := 0
  storeUncorr : Nat := 0
  rows : List (Nat × Nat) := []               -- redirected rows: partition, row identifier
  copying : List RowCopy := []                -- rows being copied to a spare row
  poisoned : List (Nat × Nat × Nat × Nat) := []   -- locations of spare rows copied as poisoned: partition, row, address, content code
  repaired : List (Nat × Nat) := []           -- rows that hard post-package repair has replaced: partition, row (R236)
  hits : List (Nat × Nat × Nat) := []         -- correctable hits: row, address, operating seconds
  lastUncorr : BitVec 128 := 0
  passes : Nat := 0
  integrity : BitVec 3 := 0
  scrubPos : Vector Nat 8 := Vector.replicate 8 0   -- locations read in the present pass
  shares : BitVec 64 := 0x00320C80640961F4
  sharesNext : Option (BitVec 64) := none
  usage : Vector (BitVec 64) 8 := Vector.replicate 8 0
  stk : Vector Stack 16 := Vector.replicate 16 {}
  marks : List Mark := []                     -- marked locations of tensors
  unalloc : List (Nat × Nat × Nat × Nat) := []  -- marked locations that nothing is allocated in (R234 code 0): store, partition, unit, address
  copyPoison : List (Nat × Nat) := []         -- poisoned ostler restart copies: 0 in P0, 1 in P4, and when (18 R485)
  deriving DecidableEq, Repr, Inhabited

/-! ### Links -/

/-- Link states of 11 R300. -/
inductive LinkState where
  | down | training | refused | up | fenced | held
  deriving DecidableEq, Repr, Inhabited

/-- Link classes of 11 R296. -/
inductive LinkClass where
  | notTrained | expected | permuted | crossed | surplus | foreign | version | missing
  deriving DecidableEq, Repr, Inhabited

/-- A flit in the retransmit buffer (11 R280). -/
structure Flit where
  hdr     : BitVec 96
  payload : List Byte
  seq     : BitVec 16
  replays : Nat := 0
  hdrIn   : BitVec 96 := 0                    -- its header before this router's hop, from which it is routed again (R301)
  came    : Option Dir := none                -- the direction it arrived travelling in; none where it starts here
  deriving DecidableEq, Repr, Inhabited

/-- One chip-to-chip link (chapter 11). -/
structure Link where
  cls     : LinkClass := .notTrained
  dir     : Option Dir := none
  index   : Nat := 0
  state   : LinkState := .down
  cause   : Nat := 0
  spareUsed : Bool := false
  swapped : Nat := 31
  farRec  : BitVec 256 := 0
  fecCorr : Nat := 0
  fecUncorr : Nat := 0
  replays : Nat := 0
  syncErr : Nat := 0
  serWin  : List (Nat × Nat × Nat) := []      -- windows behind the ratio of .07: ns, symbol errors, symbols
  retrains : Nat := 0
  txSeq   : BitVec 16 := 0
  txBuf   : List Flit := []                   -- the retransmit buffer: flits not yet acknowledged, oldest first (R280)
  waits   : List Flit := []                   -- flits that wait for room in it or for a credit of their virtual channel (R280, R307)
  txCred  : Vector Nat 4 := Vector.replicate 4 512   -- credits left for each virtual channel
  rxSeq   : BitVec 16 := 0
  laneBad : List Nat := []
  lastFrame : Nat := 0
  downs   : List Nat := []                    -- ns of its downs, for the retrain limit
  uncWin  : List (Nat × Nat) := []            -- ns and count of uncorrectable codewords
  farSerial : Option Nat := none
  trained : Bool := false                     -- trained since it last went down
  recOk   : Bool := false                     -- has received an acceptable record
  recAcked : Bool := false                    -- and had its own acknowledged
  latency : Nat := 0
  ctle    : Vector (BitVec 16) 16 := Vector.replicate 16 0
  ctleSeq : Nat := 0
  fir     : Vector (Vector (BitVec 16) 3) 16 := Vector.replicate 16 (Vector.replicate 3 0)     -- transmit FIR taps by data lane (R281)
  dfe     : Vector (Vector (BitVec 16) 12) 16 := Vector.replicate 16 (Vector.replicate 12 0)   -- DFE taps by data lane
  syncCtle : BitVec 16 := 0
  syncDfe : BitVec 16 := 0
  symErrs : Vector Nat 16 := Vector.replicate 16 0   -- symbols that the FEC corrected, by data lane, since its last window (R278, R282)
  minor   : Nat := 2                          -- minor protocol version in force (R298)
  credits : Vector Nat 4 := Vector.replicate 4 0
  deriving DecidableEq, Repr, Inhabited

/-- What the module knows of each direction (11 R285, R308; 15 R411). -/
structure Side where
  nbState : Option DevState := none
  silent  : Bool := false
  lossAt  : Nat := 0
  left    : Nat := 0                          -- cause of the last LEAVING
  seqs    : List (Nat × Nat × Nat) := []      -- frames taken: type, sequence number, ns
  txSeqs  : List (Nat × Nat) := []            -- next sequence number by type
  deriving DecidableEq, Repr, Inhabited

/-- Module-level link state (11 R312). -/
structure Topo where
  verdict   : Nat := 0
  unroutable : Nat := 0
  outOfBlock : Nat := 0
  detoured  : Nat := 0
  downEvents : Nat := 0
  sides     : Vector Side 6 := Vector.replicate 6 {}
  errReturns : List (BitVec 96) := []         -- reported to ostler 1
  deriving DecidableEq, Repr, Inhabited

/-! ### Checkpoints -/

/-- An area of the Lehr store or a pool window (13 R353 to R361). -/
structure Area where
  state  : Nat := 0                           -- 0 empty 1 writing 2 local 3 job-complete 4 invalid 5 retain source
  cut    : Nat := 0
  npiece : Nat := 0
  flags  : BitVec 4 := 0
  hdr    : Nat := 0                           -- manifest header, 2,048 bits
  recs   : List (BitVec 512) := []
  sigKey : Digest := 0
  pieces : List (List Byte) := []
  deriving DecidableEq, Repr, Inhabited

/-- A capture in progress (13 R351, R352). -/
structure Capture where
  cut     : Nat
  area    : Option Nat := none                -- Lehr area being written
  target  : Option Nat := none                -- pool target being written
  begun   : Bool := false
  fellBack : Bool := false                    -- a Lehr write error moved the cut to the pool
  read    : Bool := false                     -- every tile has been copied
  copied  : Bool := false                     -- every piece is durable in every required copy
  pieces  : List (BitVec 512 × List Byte) := []
  got     : List Copy := []                   -- held tiles that the engine has copied (10 R250, 13 R351)
  owned   : List (Nat × Nat × Nat) := []      -- the tensors it captures, by the programs loaded at the cut: context, tensor, bytes (13 R343)
  mirrored : List (Nat × Nat × Nat) := []
  modState : List Byte := []                  -- the module-state piece of the cut (13 R345)
  durable : Bool := false                     -- its manifest is durable in every required copy
  deriving DecidableEq, Repr, Inhabited

/-- The Lehr engine (chapter 13). -/
structure Ckpt where
  lastCut : Nat := 0
  lastLocal : Nat := 0
  lastJob : Nat := 0
  jobArea : Option Nat := none                -- the ping-pong area that holds the newest job-complete cut (13 R354)
  marks : Nat := 0
  abandoned : Nat := 0
  cuts : Nat := 0
  pend : Bool := false
  carried : Bool := false
  markEdge : Option Nat := none               -- last edge that raised a mark
  lastAbandon : Nat := 0
  areas : Vector Area 18 := Vector.replicate 18 {}
  pool  : Vector Area 8 := Vector.replicate 8 {}
  captures : List Capture := []
  votes : List (Nat × Option (BitVec 32)) := []   -- cuts taken whose channel-1 instance is open, with the module's word
  retain : Option (Nat × Nat) := none         -- source and destination area
  storeBad : Bool := false
  restore : Nat := 0                          -- 0x6000.19 status bits
  restReq : Option (BitVec 128) := none
  restCut : Nat := 0
  restReason : Nat := 0
  restNoState : Bool := false
  expStatus : Nat := 0
  expReq : Option (BitVec 128) := none
  expCut : Nat := 0
  expReason : Nat := 0
  partnerPieces : List (Nat × List Byte) := []   -- the partner's module-state pieces, by cut
  deriving DecidableEq, Repr, Inhabited

/-! ### Ledger and tests -/

/-- A fault event or ledger record (14 R385) before its number and CRC. -/
structure LRec where
  optime : Nat := 0
  pcycle : Nat := 0
  seq    : Nat := 0
  step   : Nat := 0
  kind   : Nat := 0
  unit   : LUnit := default
  pclass : Nat := 0
  temp   : Option Int := none
  volt   : Nat := 0
  freq   : Nat := 0
  cls    : Nat := 0
  gallop : Bool := false
  retired : Bool := false
  detail : Nat := 0
  arg    : Nat := 0
  deriving DecidableEq, Repr, Inhabited

/-- A unit summary entry (14 R386). -/
structure Summary where
  unit    : LUnit
  lastSeq : Nat := 0
  events  : Nat := 0
  cls     : Nat := 0
  quarantined : Bool := false
  retired : Bool := false
  pending : Bool := false
  deriving DecidableEq, Repr, Inhabited

/-- The fault ledger (14 R384 to R387). `classed` is ostler 3's own copy of the records of the last 30 days. -/
structure Ledger where
  ring    : List LRec := []                   -- newest first, 262,144 kept
  kept    : List LRec := []
  summary : List Summary := []                -- ascending by unit type, then unit: the flash copy written last
  older   : List Summary := []                -- the other flash copy of the table, as it stood one record before
  classed : List LRec := []
  events  : List LRec := []                   -- the 256-entry queue to ostler 3
  toWrite : List LRec := []                   -- classed, waiting for the Farrier
  written : Nat := 0
  lost    : Nat := 0
  pkgSerial : Nat := 1
  deriving DecidableEq, Repr, Inhabited

/-- One gallop cell (14 R392): the unit it covers, its pattern class, offset (mV), clock (MHz) and target temperature. -/
structure Cell where
  unit   : LUnit
  pclass : Nat
  offset : Int
  clock  : Nat
  temp   : Option Int
  pend   : Bool := false
  repeat_ : Bool := false
  deriving DecidableEq, Repr, Inhabited

/-- Trot and gallop tests (14 R388 to R397). -/
structure Tests where
  trotRun : Nat := 0
  trotFail : Nat := 0
  trotNext : Nat := 0                         -- next core in the rotation
  trot : Option (Nat × Nat × Bool) := none    -- core, pattern class, repeat
  owed : List (Nat × Nat) := []
  laneBad : List (Nat × Nat) := []            -- of the trot failures to be repeated, those that named the lane: core, pattern class
  gState : Nat := 0
  gResult : Nat := 0
  gFails : Nat := 0
  gTotal : Nat := 0
  gFound : Bool := false
  cells : List Cell := []
  runs : Nat := 0
  aborts : Nat := 0
  passes : List (LUnit × Nat) := []           -- complete runs a pending unit has passed
  failedPend : List LUnit := []               -- pending units that failed in this run
  pendRun : List LUnit := []                  -- units that were pending when this run began
  coreResets : Nat := 0
  oosAfter : Bool := false
  trotAt : Nat := 0                           -- ns at which the last trot piece ended
  gDue : Nat := 0                             -- ns at which the next automatic run is due
  deriving DecidableEq, Repr, Inhabited

/-! ### Recovery -/

/-- Roles of 15 R426. -/
inductive Role where
  | none | working | spare | taking | fenced | lost
  deriving DecidableEq, Repr, Inhabited

/-- Fencing, takeover and escalation (chapter 15). -/
structure Recov where
  set     : List (BitVec 128) := []           -- the job fence set, in adoption order
  known   : List (BitVec 128) := []           -- records received and not adopted
  own     : List (BitVec 128 × Nat) := []     -- proposals not yet adopted, and when first flooded
  dropped : List (BitVec 128) := []           -- records discarded for an opposed one (15 R415)
  remap   : Nat := 31
  role    : Role := .none
  last    : Nat := 0
  lastPart : Nat := 0xF
  single  : Bool := false
  rebuild : Bool := false
  hold    : Bool := false
  holdOwed : Bool := false                    -- no abort contribution with HOLD has been made since it was set (15 R402)
  wait    : Bool := false
  waitFrom : Nat := 0                         -- ns of the combined word that started the wait (15 R414)
  lost    : Nat := 0
  lostPend : Nat := 0                         -- code of a JOB_LOST to contribute
  notice  : BitVec 6 := 0                     -- notices pending in contributions
  partHist : List (Nat × Nat) := []           -- partition and operating seconds
  modHist : List Nat := []
  partResets : Nat := 0
  modResets : Nat := 0
  refills : BitVec 8 := 0                     -- partitions waiting for their refill
  owed    : Bool := false                     -- a rebuild that the partner gets once the refill is done (15 R409)
  rebuilding : Bool := false                  -- a rebuild has been sent and not acknowledged (15 R409)
  serving : Bool := false                     -- the position it mirrors is being taken over (15 R418, 16 R439)
  recent  : List (BitVec 128) := []           -- records adopted since the last clean word: their takeovers run (15 R421, R422)
  cleared : Bool := false                     -- an escalation clear that the next reset uses up (15 R406)
  taking  : Option (BitVec 128) := none       -- record of the position being taken over
  asked   : BitVec 6 := 0                     -- slots whose record was requested
  deriving DecidableEq, Repr, Inhabited

/-! ### Power -/

/-- A present emergency (17 R457, R458). -/
structure EmerState where
  kind : Emer
  since : Nat
  ceil  : Nat := 16
  cleared : Bool := false
  deriving DecidableEq, Repr, Inhabited

/-- The power controller and thermal state (chapter 17). -/
structure Power where
  p : Nat := 64
  g : Nat := 64
  target : Nat := 0                           -- T is target / targetDen W
  targetDen : Nat := 1
  inputW : Nat := 0
  window : List Nat := []                     -- samples of the trailing 4,000 ms, newest first
  overAt : Option Nat := none                   -- ns since which P_in exceeds 3,600 W at P = 16
  leaseSeq : Nat := 0
  leaseW : Nat := 0
  leaseEnd : Option Nat := none
  expiries : Nat := 0
  reined : Nat := 0
  stretches : Nat := 0
  floors : Nat := 0
  emers : List EmerState := []
  trip : Bool := false
  stepSum : Nat := 0                          -- input power summed over the step, and samples
  stepN : Nat := 0
  headroom : Nat := 0
  inlet : Int := 0                            -- tenths of a °C, as hubTemp
  hubTemp : Int := 0
  deriving DecidableEq, Repr, Inhabited

/-! ### Firmware -/

/-- A request that waits for a restarting ostler (18 R470): a host's write of an entry, or one of module hardware. -/
inductive OstlerReq where
  | host (src : Src) (key value : Nat)
  | unit (c : Instr)
  | fence (link cause : Nat)
  | transfers
  | held (dest : Nat)
  | rebuild
  deriving DecidableEq, Repr

/-- One ostler (18 R465 to R470). -/
structure Ostler where
  state : Nat := 0                            -- 0 running 1 dumping 2 restarting 3 failed
  queue : List OstlerReq := []                -- waiting requests in arrival order, 64 at most
  contents : Nat := 0                         -- the free contents of its registers and its 512 KiB of local memory (R466, log 208)
  fails : List Nat := []                      -- ns of failed restarts
  readyAt : Option Nat := none
  deriving DecidableEq, Repr, Inhabited

/-- One image bank (18 R473 to R477, R487): 0 empty 1 invalid 2 writing 3 valid 4 pending 5 trial. -/
structure Bank where
  state : Nat := 0
  img   : FwImage := { magicOk := true, svn := 0, version := 0, keySlot := some 0, pdigest := 0 }
  fails : Nat := 0
  deriving DecidableEq, Repr, Inhabited

/-- One image type's two banks. -/
structure BankPair where
  a : Bank := { state := 3 }
  b : Bank := {}
  activeB : Bool := false
  trial : Bool := false
  deriving DecidableEq, Repr, Inhabited

/-- A log entry (18 R478). -/
structure LogEnt where
  entry : BitVec 256
  seq   : Nat
  level : Nat
  copied : Bool := false
  deriving DecidableEq, Repr, Inhabited

/-- Firmware state (chapter 18). -/
structure Fw where
  ostlers : Vector Ostler 12 := Vector.replicate 12 {}
  held : List (Nat × OstlerReq) := []         -- requests that module hardware keeps for a full queue: ostler, request
  restarts : Nat := 0
  farrierDown : Bool := false
  later : List (Option Nat × Nat) := []       -- resets asked for during a Farrier restart: a partition or the module, and the cause
  images : Vector BankPair 3 := Vector.replicate 3 {}
  updReason : Nat := 0
  updType : Nat := 0
  updState : Nat := 0
  updPct : Nat := 0
  updSource : Nat := 0
  updLen : Nat := 0
  deferMask : BitVec 8 := 0
  deferred : Nat := 0
  reversions : Nat := 0
  log : List LogEnt := []                     -- newest first, 32,768 kept
  logIdx : Nat := 0
  flashLog : List (BitVec 256) := []          -- newest first
  flashIdx : Nat := 0
  flashLoss : Nat := 0
  traceDrops : Nat := 0
  dumps : Vector (Option (BitVec 256)) 8 := Vector.replicate 8 none
  sums  : Vector (Option (BitVec 256)) 4 := Vector.replicate 4 none
  dumpMem : Vector Nat 8 := Vector.replicate 8 0   -- the free contents that the body of each full dump holds
  dumpSeed : Vector Nat 8 := Vector.replicate 8 0  -- and those that its CRC was formed over (18 R485)
  sumMem : Vector Nat 4 := Vector.replicate 4 0    -- the free contents of the body of each flash summary
  dumpCount : Nat := 0
  dumping : List (Nat × Nat × Nat × Nat) := []   -- a dump in progress: ostler, trigger code, counter and step at the trigger
  dumpOnly : List Nat := []
  expState : Nat := 0
  expSlot : Nat := 0
  expOff : Nat := 0
  libReload : Bool := false
  deriving DecidableEq, Repr, Inhabited

/-! ### Security -/

/-- A credential slot (21 R531). -/
structure Cred where
  valid : Bool := false
  key   : Digest := 0
  owner : Bool := false
  power : Bool := false
  convert : Bool := false
  debug : Bool := false
  deriving DecidableEq, Repr, Inhabited

/-- Fragments of an OPEN that is not complete yet (21 R535). -/
structure Frags where
  next  : Nat                                -- index of the fragment that must come next
  count : Nat
  total : Nat
  bytes : List Byte
  deriving DecidableEq, Repr, Inhabited

/-- The security core (chapter 21). -/
structure Sec where
  meas : Vector Digest 8 := Vector.replicate 8 0
  bootDig : Vector Digest 12 := Vector.replicate 12 0
  svns : Vector Nat 3 := Vector.replicate 3 0
  svnFlash : Vector Nat 3 := Vector.replicate 3 0   -- the copy of the counters in Farrier flash (R528)
  revoked : BitVec 4 := 0
  creds : Vector Cred 8 := Vector.replicate 8 {}
  claimNonce : BitVec 64 := 0
  debugNonce : BitVec 64 := 0
  unlocked : Bool := false
  unlockSeen : Bool := false
  events : Nat := 0
  attState : Nat := 0
  attNonce : Digest := 0
  report : List Byte := []
  reportNext : List Byte := []
  identity : Digest := 0
  prodKey : Digest := 0
  cfgWord : BitVec 32 := 0
  frags : Option Frags := none
  denials : Nat := 0
  lastDenial : BitVec 128 := 0
  deriving DecidableEq, Repr, Inhabited

/-! ### What the module sends -/

/-- A thing the module puts on a link, lane, port or bus. -/
inductive Emit where
  | frame (link : Nat) (f : BitVec 96)
  | flit (link : Nat) (f : Flit) (crc : BitVec 32)
  | nak (link : Nat) (seq : BitVec 16)
  | ack (link : Nat) (seq : BitVec 16)
  | discovery (link : Nat) (r : BitVec 256)
  | train (link : Nat)
  | fence (r : BitVec 128) (dirs : List Nat)
  | askRecord (slot : Nat)
  | fenceSet (dir : Nat)
  | mirror (step : Nat) (rebuild : Bool) (m : MirrorSet)
  | mirrorAck (step : Nat)
  | mirrorLost                                 -- asks the mirrored module for a rebuild (15 R409)
  | askState                                   -- asks the partner for the mirror that it holds (15 R403)
  | mirrorHeld (dest step : Nat) (digest : Digest) (m : MirrorSet)   -- the committed mirror it holds, to a refilling or remount module (15 R403, R418)
  | moduleState (cut : Nat) (piece : List Byte)
  | pull (ctx tensor member : Nat)
  | signal (ctx group peer : Nat) (step : Nat)
  | pollHeader (step addr : Nat)
  | readBody (step addr len : Nat)
  | d2dReplay (c : Conn) (away : Bool) (seq : Nat)
  | d2dAck (c : Conn) (away : Bool) (seq : Nat)
  | d2dSend (c : Conn) (away : Bool) (flit : List Byte)      -- a flit sent once more from the replay buffer (01 R20, R21)
  | d2dDeliver (c : Conn) (away : Bool) (flit : List Byte)   -- a native flit handed to the receiving die (01 R21)
  | errorReply (who : Nat) (path : List Conn)   -- an error response to a request, over its path on the package (01 R22, R23, R29)
  | memData (data : List Byte) (poisoned : Bool)
  | snoop (offset : Nat)
  | guestData (data : List Byte) (ok : Bool)   -- `ok` false: Unsupported Request (21 R540)
  | window (off value : Nat)                   -- a window read's completion at a window offset (19 R490, 20 R506)
  | halter (slot : Fin 9) (hdr : BitVec 128) (body : List Byte) (tag : Option Digest)   -- with its tag in a session (19 R497)
  | note (slot : Fin 9) (hdr : BitVec 128) (r : BitVec 256) (tag : Digest)   -- NOTIFY, with the record as its body (20 R523)
  | uio (target : Nat) (bytes : Nat)
  | lehr (op : Nat) (area : Nat)               -- 0 shut down, 1 zero the head and flush, 2 pieces, 3 manifest
  | tapScan (dr : List Nat)
  deriving DecidableEq, Repr, Inhabited

/-! ### The whole state -/

/-- Every piece of state the manual gives the module, the queue of waiting commands, what has been sent, and the counter
that numbers free values. -/
structure State where
  pending : List Instr := []
  clk     : Clk := {}
  pins    : Pins := {}
  dev     : Dev := {}
  domains : BitVec 50 := 0
  dict    : Dict := {}
  host    : HostPort := {}
  staging : Mem := []
  poison  : List Nat := []
  ctxs    : Vector Ctx 16 := Vector.replicate 16 {}
  load    : Load := {}
  vers    : Vers := {}
  fetch   : Fetch := {}
  results : Vector Result 64 := Vector.replicate 64 {}
  cores   : Vector Core 145 := Vector.replicate 145 {}   -- 136 cores; the link DMA of each partition from 136 on; the hub DMA, 144
  steps   : Steps := {}
  sync    : List (Nat × SyncObj) := []
  chans   : Vector Chan 64 := Vector.replicate 64 {}
  coll    : Coll := {}
  num     : Num := {}
  place   : Place := {}
  mem     : MemHealth := {}
  links   : Vector Link 48 := Vector.replicate 48 {}
  topo    : Topo := {}
  ckpt    : Ckpt := {}
  ledger  : Ledger := {}
  tests   : Tests := {}
  recov   : Recov := {}
  power   : Power := {}
  fw      : Fw := {}
  sec     : Sec := {}
  sent    : List Emit := []
  free    : Nat := 0
  deriving DecidableEq, Repr

/-- The module as delivered and OFF (16 R427): every field at the value its rule states, or the one the log names. -/
def State.reset : State := {}

end Sys2Proof.Machine
end

