-- ==== Sys2Proof/Machine/Bits.lean ====
section
/-! DEFINITION. Bit fields, byte order, checks and digests, the mixer, and the updates of vectors, lists and sparse bytes. -/

namespace Sys2Proof.Machine

/-! ### Vectors and lists -/

/-- `v` with element `i` changed by `f`. -/
def upd {α : Type} {n : Nat} (v : Vector α n) (i : Fin n) (f : α → α) : Vector α n := v.set i (f v[i])

/-- Element `i`, or `d` beyond the end. -/
def nth {α : Type} {n : Nat} (v : Vector α n) (i : Nat) (d : α) : α := if h : i < n then v[i] else d

/-- `v` with element `i` changed by `f`; unchanged where there is no such element. -/
def updN {α : Type} {n : Nat} (v : Vector α n) (i : Nat) (f : α → α) : Vector α n :=
  if h : i < n then upd v ⟨i, h⟩ f else v

/-- The elements of `l` that `p` names, changed by `f`. -/
def mapWhere {α : Type} (l : List α) (p : α → Bool) (f : α → α) : List α := l.map fun a => if p a then f a else a

/-- The value a key has in an association list. -/
def assoc? {κ α : Type} [DecidableEq κ] (l : List (κ × α)) (k : κ) : Option α :=
  match l with
  | [] => none
  | (k', a) :: r => if k' = k then some a else assoc? r k

/-- An association list with `k` set to `a`, where it stood or else at the end. -/
def assocSet {κ α : Type} [DecidableEq κ] (l : List (κ × α)) (k : κ) (a : α) : List (κ × α) :=
  match l with
  | [] => [(k, a)]
  | (k', b) :: r => if k' = k then (k, a) :: r else (k', b) :: assocSet r k a

/-- An association list without key `k`. -/
def assocDel {κ α : Type} [DecidableEq κ] (l : List (κ × α)) (k : κ) : List (κ × α) := l.filter fun p => p.1 ≠ k

/-- The numbers from 0 below `n`. -/
def upto (n : Nat) : List Nat := List.range n

/-- The Fin numbers below `n`. -/
def fins (n : Nat) : List (Fin n) := List.finRange n

/-- `l` without later repeats. -/
def nub {α : Type} [DecidableEq α] (l : List α) : List α := l.foldl (fun acc a => if a ∈ acc then acc else acc ++ [a]) []

/-- `a` put into a sorted list, before the first element it precedes. -/
def insertBy {α : Type} (le : α → α → Bool) (a : α) : List α → List α
  | [] => [a]
  | b :: r => if le a b then a :: b :: r else b :: insertBy le a r

/-- A list sorted, equal elements in their order. -/
def sortBy {α : Type} (le : α → α → Bool) (l : List α) : List α := l.foldr (insertBy le) []

/-- Cuts a list into runs of `k`. -/
def chunksOf {α : Type} (k : Nat) (l : List α) : List (List α) :=
  (upto ((l.length + k - 1) / k)).map fun i => (l.drop (i * k)).take k

/-! ### Fields and bytes (R6: little-endian, bit 0 least significant) -/

/-- Bits `hi` to `lo` of a number. -/
def fld (w : Nat) (hi lo : Nat) : Nat := (w >>> lo) % 2 ^ (hi + 1 - lo)

/-- Two's complement of the low `n` bits. -/
def signed (n w : Nat) : Int := if w % 2 ^ n < 2 ^ (n - 1) then (w % 2 ^ n : Nat) else (w % 2 ^ n : Nat) - (2 ^ n : Nat)

/-- An integer as an `n`-bit two's complement field. -/
def unsigned (n : Nat) (i : Int) : Nat := (i % (2 ^ n : Nat)).toNat

/-- A field list `(low bit, width, value)` joined into one number. -/
def pack (fs : List (Nat × Nat × Nat)) : Nat := fs.foldl (fun w f => w ||| ((f.2.2 % 2 ^ f.2.1) <<< f.1)) 0

/-- A value held in `n` bits that stops at its largest. -/
def sat (n v : Nat) : Nat := min v (2 ^ n - 1)

/-- A Bool as a bit. -/
def bit (b : Bool) : Nat := if b then 1 else 0

/-- Bytes, lowest first, as a number. -/
def ofBytes (bs : List Byte) : Nat := bs.foldr (fun b w => b.toNat + 256 * w) 0

/-- The low `n` bytes of a number, lowest first. -/
def toBytes (n w : Nat) : List Byte := (upto n).map fun i => BitVec.ofNat 8 (w >>> (8 * i))

/-- The `n` bytes of a number, highest first. -/
def toBytesBE (n w : Nat) : List Byte := (toBytes n w).reverse

/-! ### Cyclic redundancy checks -/

/-- One bit of a most-significant-first CRC of `n` bits. -/
def crcBit {n : Nat} (poly : BitVec n) (c : BitVec n) (b : Bool) : BitVec n :=
  if c.msb != b then (c <<< 1) ^^^ poly else c <<< 1

/-- One byte of it, most significant bit first. -/
def crcByte {n : Nat} (poly : BitVec n) (c : BitVec n) (b : Byte) : BitVec n :=
  ((upto 8).map fun i => b.getLsbD (7 - i)).foldl (crcBit poly) c

/-- CRC-64/ECMA-182 (R108). -/
def crc64 (bs : List Byte) : BitVec 64 := bs.foldl (crcByte 0x42F0E1EBA9EA3693#64) 0

/-- CRC-16 with polynomial 0x1021, initial 0xFFFF, no reflection (R284), over the top bits of a number, highest bit first. -/
def crc16 (width w : Nat) : BitVec 16 :=
  ((upto width).map fun i => w.testBit (width - 1 - i)).foldl (crcBit 0x1021#16) 0xFFFF#16

/-- One byte of the reflected CRC-32 of IEEE 802.3. -/
def crc32Byte (c : BitVec 32) (b : Byte) : BitVec 32 :=
  (upto 8).foldl (fun c _ => if c.getLsbD 0 then (c >>> 1) ^^^ 0xEDB88320#32 else c >>> 1) (c ^^^ b.setWidth 32)

/-- CRC-32 of IEEE 802.3 over bytes. -/
def crc32 (bs : List Byte) : BitVec 32 := ~~~ (bs.foldl crc32Byte 0xFFFFFFFF#32)

/-! ### SHAKE256 (21, opening text; FIPS 202) -/

/-- A Keccak lane by its coordinates, in a state kept plane by plane. -/
def laneXY (st : List (BitVec 64)) (x y : Nat) : BitVec 64 := st.getD (5 * (y % 5) + x % 5) 0

/-- A state formed lane by lane from the coordinates. -/
def planes (f : Nat → Nat → BitVec 64) : List (BitVec 64) := (upto 5).flatMap fun y => (upto 5).map fun x => f x y

/-- Where rho's walk stands after `t` moves (x, y) → (y, 2 x + 3 y) from (1, 0). -/
def rhoWalk : Nat → Nat × Nat
  | 0 => (1, 0)
  | t + 1 => ((rhoWalk t).2, (2 * (rhoWalk t).1 + 3 * (rhoWalk t).2) % 5)

/-- The turn of each lane the walk passes, the t-th by the triangular number (t + 1)(t + 2) / 2; lane (0, 0) is not turned. -/
def rhoTurns : List ((Nat × Nat) × Nat) := (upto 24).map fun t => (rhoWalk t, (t + 1) * (t + 2) / 2 % 64)

/-- The shift register behind iota, x⁸ + x⁶ + x⁵ + x⁴ + 1, after `t` shifts from 1. -/
def iotaShift : Nat → Nat
  | 0 => 1
  | t + 1 => let w := 2 * iotaShift t; if w < 256 then w else w ^^^ 0x171

/-- The word that round `n` adds into lane (0, 0): bit 2^j − 1 is the register's low bit after 7 n + j shifts. -/
def iotaWord (n : Nat) : BitVec 64 :=
  (upto 7).foldl (fun w j => w ||| (BitVec.ofNat 64 (iotaShift (7 * n + j) % 2) <<< (2 ^ j - 1))) 0

/-- Round `n` of Keccak-f[1600]: theta, then rho and pi by the walk's turns, then chi, then iota. -/
def keccakRound (turns : List ((Nat × Nat) × Nat)) (st : List (BitVec 64)) (n : Nat) : List (BitVec 64) :=
  let column (x : Nat) := (upto 5).foldl (fun w y => w ^^^ laneXY st x y) 0
  let mixed := planes fun x y => laneXY st x y ^^^ column (x + 4) ^^^ (column (x + 1)).rotateLeft 1
  let moved := planes fun x y =>
    let from_ := ((x + 3 * y) % 5, x)
    (laneXY mixed from_.1 from_.2).rotateLeft ((assoc? turns from_).getD 0)
  planes fun x y =>
    let w := laneXY moved x y ^^^ (laneXY moved (x + 2) y &&& ~~~ laneXY moved (x + 1) y)
    if x = 0 ∧ y = 0 then w ^^^ iotaWord n else w

/-- Keccak-f[1600]. -/
def keccakF (st : List (BitVec 64)) : List (BitVec 64) := (upto 24).foldl (keccakRound rhoTurns) st

/-- Absorbs one 136-byte block: its seventeen 8-byte words into the first lanes. -/
def keccakAbsorb (st : List (BitVec 64)) (blk : List Byte) : List (BitVec 64) :=
  let words := (chunksOf 8 blk).map fun w => BitVec.ofNat 64 (ofBytes w)
  keccakF (planes fun x y => laneXY st x y ^^^ words.getD (5 * y + x) 0)

/-- SHAKE256 padding: 1111 then pad10*1, to a multiple of 136 bytes. -/
def shakePad (bs : List Byte) : List Byte :=
  let gap := 136 - bs.length % 136
  if gap = 1 then bs ++ [0x9F#8] else bs ++ [0x1F#8] ++ List.replicate (gap - 2) 0#8 ++ [0x80#8]

/-- The sponge after SHAKE256 has absorbed a byte string. -/
def shakeState (bs : List Byte) : List (BitVec 64) := (chunksOf 136 (shakePad bs)).foldl keccakAbsorb (List.replicate 25 0)

/-- The first `n` lanes of a sponge as one number, the first lane lowest. -/
def squeeze (st : List (BitVec 64)) (n : Nat) : Nat := (st.take n).foldr (fun w acc => w.toNat + 2 ^ 64 * acc) 0

/-- SHAKE256 with 256-bit output; byte 0 of the output is the digest's low byte (R6). -/
def shake256 (bs : List Byte) : Digest := BitVec.ofNat 256 (squeeze (shakeState bs) 4)

/-- SHAKE256 with 512-bit output. -/
def shake512 (bs : List Byte) : BitVec 512 := BitVec.ofNat 512 (squeeze (shakeState bs) 8)

/-- A digest as its 32 bytes. -/
def digestBytes (d : Digest) : List Byte := toBytes 32 d.toNat

/-- M = SHAKE256(M ‖ d) (R527). -/
def extend (m d : Digest) : Digest := shake256 (digestBytes m ++ digestBytes d)

/-! ### The mixer (R53) -/

/-- mix64 of R53. -/
def mix64 (x : BitVec 64) : BitVec 64 :=
  let x := x ^^^ (x >>> 31)
  let x := x * 0xA3B195E74C2D6F19
  let x := x ^^^ (x >>> 27)
  let x := x * 0x8F5D37C1B6E20A4B
  x ^^^ (x >>> 33)

/-- draw of R53: 16 bits from seed, step, tensor, element and slot. -/
def draw (seed step tensor element slot : Nat) : Nat :=
  let k := mix64 (BitVec.ofNat 64 seed ^^^ 0x5C4E0F1A93D72B68)
  let x := mix64 (k ^^^ BitVec.ofNat 64 step)
  let w := (BitVec.ofNat 64 tensor <<< 44) ||| (BitVec.ofNat 64 slot <<< 40) ||| BitVec.ofNat 64 element
  ((mix64 (x ^^^ w)) >>> 48).toNat

/-! ### Sparse bytes -/

/-- The byte at `a`; an unlisted address reads 0 (log 14). -/
def memGet (m : Mem) (a : Nat) : Byte :=
  match m with
  | [] => 0
  | (k, b) :: r => if k = a then b else memGet r a

/-- `m` with byte `a` set to `b`, kept in canonical form: addresses rising, no zero byte listed. -/
def memSet (m : Mem) (a : Nat) (b : Byte) : Mem :=
  match m with
  | [] => if b = 0 then [] else [(a, b)]
  | (k, c) :: r =>
    if a < k then (if b = 0 then (k, c) :: r else (a, b) :: (k, c) :: r)
    else if a = k then (if b = 0 then r else (a, b) :: r)
    else (k, c) :: memSet r a b

/-- `bs` written from address `a` on. -/
def memPut (m : Mem) (a : Nat) : List Byte → Mem
  | [] => m
  | b :: bs => memPut (memSet m a b) (a + 1) bs

/-- `n` bytes from address `a` on. -/
def memTake (m : Mem) (a : Nat) : Nat → List Byte
  | 0 => []
  | n + 1 => memGet m a :: memTake m (a + 1) n

/-- Canonical form: addresses strictly rising, no entry equal to the byte an unlisted address reads as. -/
def Mem.wf : Mem → Bool
  | [] => true
  | (k, b) :: r => b != 0 && (match r with | [] => true | (k', _) :: _ => decide (k < k')) && Mem.wf r

end Sys2Proof.Machine
end

