-- ==== Sys2Proof/Machine/Acc.lean ====
section
/-! DEFINITION. The accumulator format ACC (02 R48, R49), its arithmetic, and the special-function primitives (06 R144, R147). -/

namespace Sys2Proof.Machine

/-- Bits in the binary form of `m`. -/
def bitLen (m : Nat) : Nat := if m = 0 then 0 else Nat.log2 m + 1

/-- `m / 2^k` rounded to nearest, ties to even. -/
def rneShift (m k : Nat) : Nat :=
  let q := m >>> k
  let r := m % 2 ^ k
  if 2 * r > 2 ^ k || (2 * r = 2 ^ k && q % 2 = 1) then q + 1 else q

/-- `m * 2^e`, `m` non-zero, as a significand of `p` bits rounded to nearest even. -/
def roundTo (p m : Nat) (e : Int) : Nat × Int :=
  let l := bitLen m
  if l ≤ p then (m <<< (p - l), e - (p - l : Nat))
  else
    let q := rneShift m (l - p)
    if q = 2 ^ p then (2 ^ (p - 1), e + (l - p : Nat) + 1) else (q, e + (l - p : Nat))

/-- The ACC value a code of a free result stands for (log 17). -/
def freeAcc (neg : Bool) (code : Nat) : Acc :=
  match code % 4 with
  | 0 => .inf neg
  | 1 => .zero neg
  | 2 => .nan
  | _ => .fin neg (2 ^ 35 + (code / 4) % 2 ^ 35) (Int.ofNat ((code / 4 / 2 ^ 35) % 1022) - 545)

/-- The exact value `(-1)^neg * m * 2^e` rounded once to ACC with RNE (R49); a result outside ACC's range is free (log 17). -/
def accOf (neg : Bool) (m : Nat) (e : Int) : Acc :=
  if m = 0 then .zero neg
  else
    let (q, x) := roundTo 36 m e
    if x + 35 ≥ 512 then freeAcc neg (Config.accOver neg m e)
    else if x + 35 < -510 then freeAcc neg (Config.accUnder neg m e)
    else .fin neg q x

/-- The sign bit. -/
def accNeg : Acc → Bool
  | .zero n => n
  | .fin n _ _ => n
  | .inf n => n
  | .nan => false

/-- −a. -/
def accMinus : Acc → Acc
  | .zero n => .zero (!n)
  | .fin n m e => .fin (!n) m e
  | .inf n => .inf (!n)
  | .nan => .nan

/-- |a|. -/
def accAbs : Acc → Acc
  | .zero _ => .zero false
  | .fin _ m e => .fin false m e
  | .inf _ => .inf false
  | .nan => .nan

/-- Finite: zero or a normal value. -/
def accFinite : Acc → Bool
  | .zero _ => true
  | .fin _ _ _ => true
  | _ => false

/-- A finite value as a signed integer over a power of two. -/
def accInt (low : Int) : Acc → Int
  | .fin n m e => if n then -(Int.ofNat (m <<< (e - low).toNat)) else Int.ofNat (m <<< (e - low).toNat)
  | _ => 0

/-- a + b: the exact sum rounded once (R49). -/
def accAdd (a b : Acc) : Acc :=
  match a, b with
  | .nan, _ => .nan
  | _, .nan => .nan
  | .inf n, .inf k => if n = k then .inf n else .nan
  | .inf n, _ => .inf n
  | _, .inf n => .inf n
  | .zero n, .zero k => .zero (n && k)
  | .zero _, x => x
  | x, .zero _ => x
  | .fin n m e, .fin k q x =>
    let low := min e x
    let s := accInt low (.fin n m e) + accInt low (.fin k q x)
    if s = 0 then .zero false else accOf (s < 0) s.natAbs low

/-- a − b (R49). -/
def accSub (a b : Acc) : Acc := accAdd a (accMinus b)

/-- a · b, rounded once; exact for the operand forms of the array (R91, R103, R144). -/
def accMul (a b : Acc) : Acc :=
  match a, b with
  | .nan, _ => .nan
  | _, .nan => .nan
  | .inf _, .zero _ => .nan
  | .zero _, .inf _ => .nan
  | .inf n, x => .inf (n != accNeg x)
  | x, .inf n => .inf (n != accNeg x)
  | .zero n, x => .zero (n != accNeg x)
  | x, .zero n => .zero (n != accNeg x)
  | .fin n m e, .fin k q x => accOf (n != k) (m * q) (e + x)

/-- a · 2^k, exact (R50 stage 2, R66, R67). -/
def accScale (a : Acc) (k : Int) : Acc :=
  match a with
  | .fin n m e => .fin n m (e + k)
  | x => x

/-- a < b for operands that are not NaN; the two zeros are equal. -/
def accLt (a b : Acc) : Bool :=
  match a, b with
  | .nan, _ => false
  | _, .nan => false
  | .inf n, .inf k => n && !k
  | .inf n, _ => n
  | _, .inf n => !n
  | x, y =>
    let low := min (match x with | .fin _ _ e => e | _ => 0) (match y with | .fin _ _ e => e | _ => 0)
    decide (accInt low x < accInt low y)

/-- a ≤ b, false where either is NaN. -/
def accLe (a b : Acc) : Bool := a != .nan && b != .nan && !accLt b a

/-- The maximum of IEEE 754-2019 (R144). -/
def accMax (a b : Acc) : Acc :=
  match a, b with
  | .nan, _ => .nan
  | _, .nan => .nan
  | .zero n, .zero k => .zero (n && k)
  | x, y => if accLt x y then y else x

/-- The minimum of IEEE 754-2019 (R144). -/
def accMin (a b : Acc) : Acc :=
  match a, b with
  | .nan, _ => .nan
  | _, .nan => .nan
  | .zero n, .zero k => .zero (n || k)
  | x, y => if accLt y x then y else x

/-- A whole number. -/
def accNat (n : Nat) : Acc := accOf false n 0

/-- One. -/
def accOne : Acc := accNat 1

/-- +0. -/
def accZero : Acc := .zero false

/-- The leading `p` significand bits of a value, the rest dropped (R96). -/
def accTrunc (p : Nat) : Acc → Acc
  | .fin n m e => .fin n ((m >>> (36 - p)) <<< (36 - p)) e
  | x => x

/-- A value rounded with RNE to `p` significand bits (CS24 of R103). -/
def accNarrow (p : Nat) : Acc → Acc
  | .fin n m e =>
    let (q, x) := roundTo p m e
    .fin n (q <<< (36 - p)) (x - (36 - p : Nat))
  | x => x

/-- Sums adjacent pairs once (R103). -/
def pairUp (f : Acc → Acc → Acc) : List Acc → List Acc
  | a :: b :: r => f a b :: pairUp f r
  | l => l

/-- The fixed pairwise tree over 64 values: six levels (R103). -/
def tree64 (f : Acc → Acc → Acc) (l : List Acc) : Acc :=
  ((upto 6).foldl (fun l _ => pairUp f l) l).headD accZero

/-! ### Special functions: the exact value rounded once (R147)

Fixed-point intervals of growing precision stand for "the exact mathematical value"; an interval whose two ends round alike gives
the correctly rounded value, whichever method found it. -/

/-- The largest `r` with `r * r ≤ n`, found bit by bit. -/
def isqrtBits (n : Nat) : Nat → Nat → Nat
  | 0, r => r
  | k + 1, r =>
    let t := r + 2 ^ k
    if t * t ≤ n then isqrtBits n k t else isqrtBits n k r

/-- Integer square root. -/
def isqrt (n : Nat) : Nat := isqrtBits n (bitLen n / 2 + 1) 0

/-- A positive rational `p / q`, `q` non-zero, rounded once: 40 more bits than needed with a sticky bit. -/
def accRatio (neg : Bool) (p q : Nat) (e : Int) : Acc :=
  if p = 0 then .zero neg
  else
    let k := 40 + bitLen q
    let n := p <<< k
    accOf neg (2 * (n / q) + (if n % q = 0 then 0 else 1)) (e - (k : Nat) - 1)

/-- Rounds to ACC a result whose range R147 settles: above becomes infinity, below becomes a zero of its sign. -/
def sfuOf (neg : Bool) (m : Nat) (e : Int) : Acc :=
  if m = 0 then .zero neg
  else
    let (q, x) := roundTo 36 m e
    if x + 35 ≥ 512 then .inf neg else if x + 35 < -510 then .zero neg else .fin neg q x

/-- recip(x) (R147). -/
def sfuRecip : Acc → Acc
  | .zero n => .inf n
  | .inf n => .zero n
  | .nan => .nan
  | .fin n m e => let t := 2 ^ 80
    sfuOf n (2 * (t / m) + (if t % m = 0 then 0 else 1)) (-e - 81)

/-- sqrt(x) (R147). -/
def sfuSqrt : Acc → Acc
  | .zero n => .zero n
  | .nan => .nan
  | .inf n => if n then .nan else .inf false
  | .fin n m e =>
    if n then .nan
    else
      let m := if e % 2 = 0 then m <<< 60 else m <<< 61
      let e := if e % 2 = 0 then e - 60 else e - 61
      let r := isqrt m
      sfuOf false (2 * r + (if r * r = m then 0 else 1)) (e / 2 - 1)

/-- rsqrt(x) (R147). -/
def sfuRsqrt : Acc → Acc
  | .zero n => .inf n
  | .nan => .nan
  | .inf n => if n then .nan else .zero false
  | .fin n m e =>
    if n then .nan
    else
      let m := if e % 2 = 0 then m else 2 * m
      let e := if e % 2 = 0 then e else e - 1
      let t := 2 ^ 160 / m
      let r := isqrt t
      sfuOf false (2 * r + (if r * r * m = 2 ^ 160 then 0 else 1)) (-(e / 2) - 81)

/-- Sum of a series: terms from the first on, each made from the last, over `fuel` terms. -/
def seriesSum (fuel : Nat) (k : Nat) (term : Int) (next : Nat → Int → Int) (out : Nat → Int → Int) : Int :=
  match fuel with
  | 0 => 0
  | n + 1 => if term = 0 then 0 else out k term + seriesSum n (k + 1) (next k term) next out

/-- atanh(p / q) at `P` fraction bits, for |p / q| at most 1/2. -/
def fxAtanh (P : Nat) (p q : Int) : Int :=
  let y := p * (2 ^ P : Nat) / q
  let y2 := y * y / (2 ^ P : Nat)
  seriesSum (P + 2) 0 y (fun _ t => (t * y2) / (2 ^ P : Nat)) (fun k t => t / (2 * k + 1 : Nat))

/-- ln 2 at `P` fraction bits. -/
def fxLn2 (P : Nat) : Int := 2 * fxAtanh P 1 3

/-- exp(r) at `P` fraction bits, for a fixed-point r of magnitude below 1. -/
def fxExp (P : Nat) (r : Int) : Int :=
  seriesSum (P + 4) 0 (2 ^ P : Nat) (fun k t => Int.tdiv (t * r) (2 ^ P * (k + 1) : Nat)) (fun _ t => t)

/-- arctan(1 / n) at `P` fraction bits. -/
def fxAtanInv (P n : Nat) : Int :=
  seriesSum (P + 2) 0 (2 ^ P / n : Nat) (fun _ t => Int.tdiv (-t) (n * n : Nat)) (fun k t => Int.tdiv t (2 * k + 1 : Nat))

/-- pi at `P` fraction bits (Machin). -/
def fxPi (P : Nat) : Int := 16 * fxAtanInv P 5 - 4 * fxAtanInv P 239

/-- `m * 2^e` at `P` fraction bits. -/
def fxOf (P m : Nat) (e : Int) : Int := if e + P ≥ 0 then Int.ofNat (m <<< (e + P).toNat) else Int.ofNat (m >>> (-(e + P)).toNat)

/-- A positive value between `v - err` and `v + err` at exponent `x`, if both ends round to one ACC value. -/
def settle (neg : Bool) (v err : Int) (x : Int) : Option Acc :=
  if v ≤ err then none
  else
    let a := sfuOf neg (v - err).toNat x
    if a = sfuOf neg (v + err).toNat x then some a else none

/-- Tries one precision after another; the last fallback keeps the middle of the interval. -/
def atPrecisions (f : Nat → Option Acc) (last : Acc) : Acc :=
  ([128, 256, 512, 1024, 2048, 4096].findSome? f).getD last

/-- exp of a finite non-zero value at precision `P`. -/
def tryExp (n : Bool) (m : Nat) (e : Int) (P : Nat) : Option Acc :=
  let v := fxOf P m e
  let v := if n then -v else v
  let l := fxLn2 P
  let k := v / l
  settle false (fxExp P (v - k * l)) (2 ^ 24 : Nat) (k - P)

/-- exp(x) (R147). -/
def sfuExp : Acc → Acc
  | .nan => .nan
  | .zero _ => accOne
  | .inf n => if n then .zero false else .inf false
  | .fin n m e =>
    if e + 35 ≥ 10 then (if n then .zero false else .inf false)
    else if e + 35 < -60 then accOne
    else atPrecisions (tryExp n m e) .nan

/-- ln of a positive normal value at precision `P`. -/
def tryLn (m : Nat) (e : Int) (P : Nat) : Option Acc :=
  -- the significand as a value in [2/3, 4/3)
  let (q, x) := if 3 * m < 2 ^ 37 then ((2 : Int) ^ 35, e + 35) else ((2 : Int) ^ 36, e + 36)
  let v := 2 * fxAtanh P (m - q) (m + q) + x * fxLn2 P
  if v < 0 then settle true (-v) (2 ^ 24 : Nat) (-P) else settle false v (2 ^ 24 : Nat) (-P)

/-- ln(x) (R147). -/
def sfuLn : Acc → Acc
  | .nan => .nan
  | .zero _ => .inf true
  | .inf n => if n then .nan else .inf false
  | .fin n m e => if n then .nan else if m = 2 ^ 35 ∧ e = -35 then .zero false else atPrecisions (tryLn m e) .nan

/-- tanh of a positive normal value below 2^5 at precision `P`; small arguments keep `2 (−e)` more bits. -/
def tryTanh (n : Bool) (m : Nat) (e : Int) (P : Nat) : Option Acc :=
  let P := P + 2 * (-e).toNat
  let t := -(2 * fxOf P m e)
  let l := fxLn2 P
  let k := t / l
  let E := fxExp P (t - k * l) / (2 ^ (-k).toNat : Nat)
  let one : Int := (2 ^ P : Nat)
  settle n ((one - E) * one / (one + E)) (2 ^ 24 : Nat) (-P)

/-- tanh(x) (R147). -/
def sfuTanh : Acc → Acc
  | .nan => .nan
  | .zero n => .zero n
  | .inf n => if n then accMinus accOne else accOne
  | .fin n m e =>
    if e + 35 ≥ 5 then (if n then accMinus accOne else accOne)
    else if e + 35 < -40 then .fin n m e
    else atPrecisions (tryTanh n m e) .nan

/-- erf of a positive normal value below 8 at precision `P`, by the series 2/√π Σ (−1)^k x^(2k+1) / (k! (2k+1)). -/
def tryErf (n : Bool) (m : Nat) (e : Int) (P : Nat) : Option Acc :=
  let P := P + 100 + 2 * (-e).toNat
  let x := fxOf P m e
  let x2 := x * x / (2 ^ P : Nat)
  let s := seriesSum (P + 400) 0 x (fun k t => Int.tdiv (-(t * x2)) (2 ^ P * (k + 1) : Nat)) (fun k t => Int.tdiv t (2 * k + 1 : Nat))
  let rp : Int := (isqrt (fxPi P * (2 ^ P : Nat)).toNat : Nat)
  settle n (2 * s * (2 ^ P : Nat) / rp) (2 ^ 90 : Nat) (-P)

/-- erf(x) (R147). -/
def sfuErf : Acc → Acc
  | .nan => .nan
  | .zero n => .zero n
  | .inf n => if n then accMinus accOne else accOne
  | .fin n m e =>
    if e + 35 ≥ 3 then (if n then accMinus accOne else accOne)
    else atPrecisions (tryErf n m e) .nan

/-! ### Composite functions (R148) -/

/-- √ of a positive rational at 36 bits: constants of R148 held as ACC values rounded with RNE. -/
def accSqrtRatio (p q : Nat) : Acc :=
  let r := isqrt ((p <<< 160) / q)
  accOf false (2 * r + 1) (-81)

/-- c1 = √(2/π). -/
def accC1 : Acc := accSqrtRatio (2 * 2 ^ 160) (fxPi 160).toNat
/-- c2 = 0.044715. -/
def accC2 : Acc := accRatio false 44715 1000000 0
/-- c3 = 1/√2. -/
def accC3 : Acc := accSqrtRatio 1 2
/-- ½. -/
def accHalf : Acc := .fin false (2 ^ 35) (-36)

/-- s(x) = recip(1 + exp(−x)) (R148). -/
def accSigmoid (x : Acc) : Acc := sfuRecip (accAdd accOne (sfuExp (accMinus x)))

/-- u of the tanh form: c1 · (x + c2 · (x · x · x)) (R148). -/
def accGeluU (x : Acc) : Acc := accMul accC1 (accAdd x (accMul accC2 (accMul (accMul x x) x)))

/-- GELU, tanh form: ½ · x · (1 + tanh u) (R148). -/
def accGeluTanh (x : Acc) : Acc := accMul (accMul accHalf x) (accAdd accOne (sfuTanh (accGeluU x)))

/-- Φ(x) = ½ · (1 + erf(x · c3)) (R148). -/
def accPhi (x : Acc) : Acc := accMul accHalf (accAdd accOne (sfuErf (accMul x accC3)))

/-- GELU, erf form: x · Φ(x) (R148). -/
def accGeluErf (x : Acc) : Acc := accMul x (accPhi x)

/-- SiLU: x · s(x) (R148). -/
def accSilu (x : Acc) : Acc := accMul x (accSigmoid x)

/-- The limits of R133 at ±∞ for a function or derivative; `pos` and `neg` are the two ends. -/
def accLimit (x pos neg : Acc) : Option Acc :=
  match x with
  | .nan => some .nan
  | .inf n => some (if n then neg else pos)
  | _ => none

/-- A finite |x| of 2^15 or more (R133). -/
def accHuge : Acc → Bool
  | .fin _ _ e => decide (e + 35 ≥ 15)
  | _ => false

/-- φ of a derivative code (R128, R133). -/
def derivPhi (code : Nat) (z : Acc) : Acc :=
  let inf := Acc.inf false
  match code with
  | 1 => (accLimit z inf accZero).getD (if accHuge z then (if accNeg z then accZero else inf) else accMax z accZero)
  | 2 => (accLimit z inf accZero).getD (accMul (accMax z accZero) (accMax z accZero))
  | 3 => (accLimit z inf accZero).getD (accGeluTanh z)
  | 4 => (accLimit z inf accZero).getD (accGeluErf z)
  | 5 => (accLimit z inf accZero).getD (accSilu z)
  | 6 => (accLimit z accOne accZero).getD (if accHuge z then (if accNeg z then accZero else accOne) else accSigmoid z)
  | 7 => (accLimit z accOne (accMinus accOne)).getD (sfuTanh z)
  | _ => accOne

/-- φ′ of a derivative code, evaluated from its formula of R128 in the order of R146 (R131, R133, R148). -/
def derivPrime (code : Nat) (z : Acc) : Acc :=
  let inf := Acc.inf false
  match code with
  | 1 => (accLimit z accOne accZero).getD (if accLt accZero z then accOne else accZero)
  | 2 => (accLimit z inf accZero).getD (accMul (accNat 2) (accMax z accZero))
  | 3 => (accLimit z accOne accZero).getD
    (let t := sfuTanh (accGeluU z)
     accAdd (accMul accHalf (accAdd accOne t))
       (accMul (accMul (accMul (accMul accHalf z) (accSub accOne (accMul t t))) accC1)
         (accAdd accOne (accMul (accRatio false 134145 1000000 0) (accMul z z)))))
  | 4 => (accLimit z accOne accZero).getD
    (accAdd (accPhi z)
      (accMul (accMul z (sfuExp (accMul (accMinus (accMul z z)) accHalf))) (sfuRecip (accSqrtRatio (2 * (fxPi 160).toNat) (2 ^ 160)))))
  | 5 => (accLimit z accOne accZero).getD
    (let s := accSigmoid z
     accMul s (accAdd accOne (accMul z (accSub accOne s))))
  | 6 => (accLimit z accZero accZero).getD
    (if accHuge z then accZero else let s := accSigmoid z; accMul s (accSub accOne s))
  | 7 => (accLimit z accZero accZero).getD
    (if accHuge z then accZero else let t := sfuTanh z; accSub accOne (accMul t t))
  | _ => accOne

end Sys2Proof.Machine
end

