-- ==== Sys2Proof/Machine/Format.lean ====
section
/-! DEFINITION. The stored formats (02 R39 to R47), rounding (R51), conversion with its events (R58 to R63). -/

namespace Sys2Proof.Machine

/-! Format codes of R39. -/

/-- FP16. -/
abbrev fmtFP16 : Nat := 0
/-- FP32. -/
abbrev fmtFP32 : Nat := 1
/-- MW16. -/
abbrev fmtMW16 : Nat := 2
/-- MU16. -/
abbrev fmtMU16 : Nat := 3
/-- CP32. -/
abbrev fmtCP32 : Nat := 4

/-- Bytes of one element's encoding in its first plane (R39). -/
def elemBytes (fmt : Nat) : Nat := if fmt = fmtFP32 ∨ fmt = fmtCP32 then 4 else 2

/-- Does the format share block exponents (R43)? -/
def isBlock (fmt : Nat) : Bool := fmt = fmtMW16 || fmt = fmtMU16

/-- The event one element counts as (R62). -/
inductive Ev where
  | none | sat | flush | special
  deriving DecidableEq, Repr, Inhabited

/-- Kind of a special value (R83): 1 NaN, 2 +∞, 3 −∞, 0 finite. -/
def spKind : Acc → Nat
  | .nan => 1
  | .inf n => if n then 3 else 2
  | _ => 0

/-- An IEEE value with `p` significand bits and exponent bias `bias`, `ew` exponent bits, decoded (R40, R41, R42). -/
def decIeee (p bias ew w : Nat) : Acc :=
  let neg := w.testBit (p - 1 + ew)
  let e := (w >>> (p - 1)) % 2 ^ ew
  let f := w % 2 ^ (p - 1)
  if e = 2 ^ ew - 1 then (if f = 0 then .inf neg else .nan)
  else if e = 0 then accOf neg f (1 - Int.ofNat bias - Int.ofNat (p - 1))
  else accOf neg (2 ^ (p - 1) + f) (Int.ofNat e - Int.ofNat bias - Int.ofNat (p - 1))

/-- FP16 to ACC. -/
def decFP16 (w : Nat) : Acc := decIeee 11 15 5 w

/-- FP32 to ACC. -/
def decFP32 (w : Nat) : Acc := decIeee 24 127 8 w

/-- One MW16 or MU16 element with its block exponent (R43, R45, R46). -/
def decBlockElem (mu : Bool) (e m : Nat) : Acc :=
  if e = 0 then accZero
  else if e = 255 then .nan
  else if mu then accOf false (m % 65536) (Int.ofNat e - 141)
  else
    let i := signed 16 m
    if i = 0 then accZero else accOf (i < 0) i.natAbs (Int.ofNat e - 141)

/-- round_mag of R51 for the exact value `m * 2^-sh`: `q` plus the rounding of what is dropped. -/
def roundMag (sr : Bool) (r16 m sh : Nat) : Nat :=
  let q := m >>> sh
  let rem := m % 2 ^ sh
  if sr then (if (rem <<< 16) >>> sh + r16 ≥ 65536 then q + 1 else q)
  else if 2 * rem > 2 ^ sh || (2 * rem = 2 ^ sh && q % 2 = 1) then q + 1 else q

/-- An ACC value into FP16 (`p` = 11) or FP32 (`p` = 24): encoding and event (R51, R58, R59, R61). -/
def encIeee (p bias ew : Nat) (sr keep : Bool) (r16 : Nat) (v : Acc) : Nat × Ev :=
  let sign (n : Bool) := bit n <<< (p - 1 + ew)
  match v with
  | .nan => (((2 ^ ew - 1) <<< (p - 1)) ||| 2 ^ (p - 2), .special)
  | .inf n => (sign n ||| ((2 ^ ew - 1) <<< (p - 1)), .special)
  | .zero n => (sign n, .none)
  | .fin n m e =>
    let emin : Int := 1 - Int.ofNat bias
    let place : Int := max (e + 35) emin - Int.ofNat (p - 1)
    let q := if place ≤ e then m <<< (e - place).toNat else roundMag sr r16 m (place - e).toNat
    let (q, place) := if q = 2 ^ p then (2 ^ (p - 1), place + 1) else (q, place)
    if place > Int.ofNat bias - Int.ofNat (p - 1) then (sign n ||| (((2 ^ ew - 2) <<< (p - 1)) ||| (2 ^ (p - 1) - 1)), .sat)
    else if q = 0 then (sign n, .flush)
    else if q < 2 ^ (p - 1) then (if keep then (sign n ||| q, .none) else (sign n, .flush))
    else
      let x := (place + Int.ofNat (p - 1) + Int.ofNat bias).toNat
      (sign n ||| (x <<< (p - 1)) ||| (q - 2 ^ (p - 1)), .none)

/-- Into FP16. -/
def encFP16 (sr keep : Bool) (r16 : Nat) (v : Acc) : Nat × Ev := encIeee 11 15 5 sr keep r16 v

/-- Into FP32. -/
def encFP32 (sr keep : Bool) (r16 : Nat) (v : Acc) : Nat × Ev := encIeee 24 127 8 sr keep r16 v

/-- Into the cased pair (hi, lo) of R63. -/
def encCP32 (v : Acc) : (Nat × Nat) × Ev :=
  let (hi, ev) := encFP32 false true 0 v
  match ev with
  | .special => ((hi, 0), .special)
  | .sat => ((hi, 0), .sat)
  | _ =>
    let lo := (encFP32 false true 0 (accSub v (decFP32 hi))).1
    let gone := hi % 2 ^ 31 = 0 && lo % 2 ^ 31 = 0 && (match v with | .fin _ _ _ => true | _ => false)
    ((hi, lo), if gone then .flush else .none)

/-- What replaces a NaN or infinity on its way into a block format (R62, case table). -/
def blockReplace (mu : Bool) (v : Acc) : Acc :=
  let top := if mu then accOf false 65535 113 else accOf false 32767 113
  match v with
  | .nan => accZero
  | .inf n => if n then (if mu then accZero else accMinus top) else top
  | x => x

/-- The rounded magnitude of one element at block exponent `e` (R47). -/
def blockMag (sr : Bool) (e : Nat) (v : Acc) (r16 : Nat) : Nat :=
  match v with
  | .fin _ m x =>
    let s := x + 141 - Int.ofNat e
    if s ≥ 0 then m <<< s.toNat else roundMag sr r16 m (-s).toNat
  | _ => 0

/-- encode_block of R47 on 32 values, with the event of each element (R58, R60, R61): exponent, 16-bit significands, events. -/
def encBlock (mu sr : Bool) (rs : List Nat) (vs : List Acc) : Nat × List Nat × List Ev :=
  let top := if mu then 65536 else 32768
  let biasK : Int := if mu then 126 else 127
  let rep := vs.map (blockReplace mu)
  let clampedNeg := rep.map fun v => mu && (match v with | .fin n _ _ => n | _ => false)
  let ws := (rep.zip clampedNeg).map fun p => if p.2 then accZero else p.1
  let k? : Option Int := ws.foldl (fun acc v => match v with
    | .fin _ _ e => some (match acc with | some k => max k (e + 35) | none => e + 35)
    | _ => acc) none
  match k? with
  | none =>
    (0, vs.map fun _ => 0, (vs.zip clampedNeg).map fun p => if spKind p.1 ≠ 0 then .special else if p.2 then .sat else .none)
  | some k =>
    let clampedLow := decide (k + biasK < 1)
    let e0 := (min (max (k + biasK) 1) 254).toNat
    let mags (e : Nat) := (ws.zip rs).map fun p => blockMag sr e p.1 p.2
    let e1 := if (mags e0).any (· = top) && decide (e0 < 254) then e0 + 1 else e0
    let ms := mags e1
    let zero := ms.all (· = 0)
    let out := (ws.zip ms).map fun p =>
      let m := min p.2 (top - 1)
      if accNeg p.1 then unsigned 16 (-(Int.ofNat m)) else m
    let evs := ((vs.zip clampedNeg).zip (ws.zip ms)).map fun p =>
      if spKind p.1.1 ≠ 0 then Ev.special
      else if p.1.2 || decide (p.2.2 ≥ top) then Ev.sat
      else if decide (p.2.2 = 0) && (match p.2.1 with | .fin _ _ _ => true | _ => false) && (clampedLow || zero) then Ev.flush
      else Ev.none
    (if zero then 0 else e1, out, evs)

/-- |x| of a finite value held as a running maximum: FP32, rounded towards zero, never zero for a non-zero value (R71). -/
def holdMax (v : Acc) : Nat :=
  match v with
  | .fin _ m e =>
    if e + 35 ≥ 128 then 0x7F7FFFFF
    else if e + 35 < -149 then 1
    else
      let place : Int := max (e + 35) (-126) - 23
      let q := m >>> (place - e).toNat
      if q < 2 ^ 23 then q else ((place + 150).toNat <<< 23) ||| (q - 2 ^ 23)
  | _ => 0

/-- The running maximum of values as they are delivered: finite values only (R70). FP32 codes of magnitudes order as numbers. -/
def maxOf (vs : List Acc) : Nat := vs.foldl (fun a v => max a (holdMax v)) 0

/-- floor(log2 A) of a non-zero FP32 magnitude. -/
def log2FP32 (a : Nat) : Int :=
  match decFP32 a with
  | .fin _ _ e => e + 35
  | _ => 0

/-- choose_scale of R74: the scale, and whether it was clamped. -/
def chooseScale (a : Option Nat) (margin : Nat) (sInit : Int) : Int × Bool :=
  match a with
  | none => (sInit, false)
  | some a =>
    if a = 0 then (sInit, false)
    else
      let s := 15 - log2FP32 a - Int.ofNat margin
      (min (max s (-64)) 63, decide (s < -64) || decide (s > 63))

end Sys2Proof.Machine
end

