-- ==== Sys2Proof/Machine/Operands.lean ====
section
/-! DEFINITION. Operand slots: which copy a selector names (05 R139, 10 R247), the scale it was written with (03 R66), the value
of an element, and what a write does to the version tiles (10 R248). -/

namespace Sys2Proof.Machine

/-! ### Looking things up -/

/-- Context `c`. -/
def ctxAt (s : State) (c : Nat) : Ctx := nth s.ctxs c {}

/-- The program of context `c`, or an empty one. -/
def progAt (s : State) (c : Nat) : Program := ((ctxAt s c).prog).getD default

/-- Tensor-table entry `t`. -/
def tensorAt (p : Program) (t : Nat) : Tensor := p.tensors.getD t default

/-- The persistence classes of 07 R171. -/
abbrev clsTransient : Nat := 0
abbrev clsPersistent : Nat := 1
abbrev clsInput : Nat := 2
abbrev clsConst : Nat := 3
abbrev clsResult : Nat := 4

/-- Elements of a tensor (07 R170). -/
def elems (t : Tensor) : Nat := t.dims.foldl (· * ·) 1

/-- Columns: the last dimension (07 R174). -/
def colsOf (t : Tensor) : Nat := t.dims.getLastD 1

/-- Rows: the product of the other dimensions (07 R174). -/
def rowsOf (t : Tensor) : Nat := t.dims.dropLast.foldl (· * ·) 1

/-- Bytes of the canonical image (13 R344, 02 R44); CP32 has two planes of FP32 (R63). -/
def imageBytes (fmt n : Nat) : Nat :=
  if isBlock fmt then 2 * n + (n + 31) / 32 else if fmt = fmtCP32 then 8 * n else elemBytes fmt * n

/-- Does a weight's frozen attribute carry to tensor `t` (05 R137)? -/
def frozenGrad (p : Program) (t : Nat) : Bool := p.tensors.any fun w => w.frozen && w.gradValid && w.gradLink = t

/-- Are writes into tensor `t` discarded: a frozen gradient (04 R101) or the frozen weight itself (log 21)? -/
def frozenOut (p : Program) (t : Nat) : Bool := (tensorAt p t).frozen || frozenGrad p t

/-- The last committed step as context `c` counts: the module's, or for a diagnosis replay the replayed one (10 R275). -/
def baseStep (s : State) (c : Nat) : Nat := if c = 15 then s.steps.replayStep else s.steps.committed

/-- Scale and tolerance state of tensor `t` in context `c`. -/
def tstate (s : State) (c t : Nat) : TState := ((ctxAt s c).tens.find? fun x => x.tensor = t).getD { tensor := t }

/-- History length and margin in force (03 R75). -/
def histLenOf (p : Program) (t : Tensor) : Nat := if t.histLen = 0 then p.histDef else t.histLen
def marginOf (p : Program) (t : Tensor) : Nat := if t.margin = 15 then p.marginDef else t.margin

/-- The window maximum of a DELAYED tensor for step `n`: entries of steps n − 1 − L to n − 2 (03 R73). -/
def windowMax (p : Program) (t : Tensor) (st : TState) (n : Nat) : Option Nat :=
  let win := st.hist.filter fun e => decide (n ≤ e.1 + 1 + histLenOf p t) && decide (e.1 + 2 ≤ n)
  if win.isEmpty then none else some (win.foldl (fun a e => max a e.2.toNat) 0)

/-- A tensor's scale for step `n` and whether choosing it clamped (03 R68, R69, R74, R78). -/
def scaleFor (s : State) (c t n : Nat) : Int × Bool :=
  let p := progAt s c
  let e := tensorAt p t
  match e.policy with
  | 1 => (e.sInit, false)
  | 2 => chooseScale (windowMax p e (tstate s c t) n) (marginOf p e) e.sInit
  | 3 => match assoc? (tstate s c t).cur n with
    | some (x, _) => (x, false)
    | none => (e.sInit, false)
  | _ => (0, false)

/-- The scale of step `n`. -/
def scaleOf (s : State) (c t n : Nat) : Int := (scaleFor s c t n).1

/-- The scale an accepted load records: the initial one, or 0 under NONE (07 R196). -/
def initScale (t : Tensor) : Int := if t.policy = 0 then 0 else t.sInit

/-! ### Copies and selectors -/

/-- The copy of one tile of a given kind. -/
def copyOf (s : State) (c t tile : Nat) (k : CopyKind) : Option Copy :=
  s.vers.copies.find? fun x => x.ctx = c && x.tensor = t && x.tile = tile && decide (x.kind = k)

/-- The working copy of step `n`. -/
def workKind (s : State) (c n : Nat) : CopyKind := if n ≤ baseStep s c + 1 then .w1 else .w2

/-- The first of several copies that is there. -/
def firstCopy (s : State) (c t tile : Nat) (ks : List CopyKind) : Option Copy := ks.findSome? (copyOf s c t tile)

/-- The kinds a selector reads in step `n`, newest first (05 R139, 10 R247): 0 WORKING, 1 COMMITTED, 5 STEP_REL(1), 6 STEP_REL(2). -/
def selKinds (s : State) (c n sel : Nat) : List CopyKind :=
  let second := decide (n > baseStep s c + 1)
  match sel with
  | 0 => if second then [.w2, .w1, .committed] else [.w1, .committed]
  | 5 => if second then [.w1, .committed] else [.committed]
  | 6 => if second then [.committed] else [.prev, .committed]
  | _ => [.committed]

/-- What a piece reads through: the state, its context and step, and the bytes of tensors that uncorrectable errors met in this
execution: tensor, offset, count (09 R234). -/
structure Rd where
  s    : State
  ctx  : Nat
  step : Nat
  bad  : List (Nat × Nat × Nat) := []

/-- The program a reader runs. -/
def rdProg (r : Rd) : Program := progAt r.s r.ctx

/-- The first step, below which a STEP_REL read of an INPUT tensor gives +0 (07 R194). -/
def firstStepOf (s : State) : Nat := (assoc? s.dict.vals 0x210002).getD 1

/-- The content codes of 09 R234 under which a tensor's bytes lie: by class and, for a version tile, by the copy read. -/
def contentCodes (persist : Nat) (k : Option CopyKind) : List Nat :=
  match persist with
  | 0 => [1]
  | 1 => match k with
    | some .w1 => [2]
    | some .w2 => [2]
    | _ => [3]
  | 2 => [6]
  | 3 => [4, 5]
  | _ => []

/-- The lost bytes of a tensor: those this execution's errors hit, and those marked where it reads (09 R234). -/
def lostRanges (r : Rd) (t : Nat) (codes : List Nat) : List (Nat × Nat) :=
  (r.bad.filter fun b => b.1 = t).map (·.2) ++
    (r.s.mem.marks.filter fun m => m.ctx = r.ctx && m.tensor = t && codes.contains m.content).map fun m => (m.off, m.len)

/-- Byte `o` of the canonical NaN of a format (02 R41). -/
def nanByte (fmt o : Nat) : Byte :=
  if fmt = fmtFP16 then (if o % 2 = 1 then 0x7E else 0) else if o % 4 = 3 then 0x7F else if o % 4 = 2 then 0xC0 else 0

/-- The exponent bytes of a block tensor of `n` elements that a lost range costs: its own, or those of the significands' blocks (09 R234). -/
def lostExps (n : Nat) (x : Nat × Nat) : Nat × Nat :=
  if 2 * n ≤ x.1 then (x.1 - 2 * n, x.2) else (x.1 / 64, (x.1 + x.2 - 1) / 64 + 1 - x.1 / 64)

/-- Byte `o` of a tensor of `n` elements as it is delivered: a NaN, or a block exponent of 255, where an uncorrectable error hit
(09 R234). -/
def poisonByte (fmt n : Nat) (lost : List (Nat × Nat)) (o : Nat) (b : Byte) : Byte :=
  if isBlock fmt then
    if decide (2 * n ≤ o) && lost.any fun x => decide ((lostExps n x).1 ≤ o - 2 * n) && decide (o - 2 * n < (lostExps n x).1 + (lostExps n x).2) then 0xFF else b
  else if lost.any fun x => decide (x.1 ≤ o) && decide (o < x.1 + x.2) then nanByte fmt o else b

/-- Bytes at offset `off` of tensor `e` as they are delivered. -/
def poisonBytes (e : Tensor) (lost : List (Nat × Nat)) (off : Nat) (bs : List Byte) : List Byte :=
  if lost.isEmpty then bs else bs.mapIdx fun i b => poisonByte e.format (elems e) lost (off + i) b

/-- Bytes of tensor `t` at canonical offset `off` as stored, the scale they were written with (07 R171, 03 R66), and the content codes
of their place. -/
def storedBytes (r : Rd) (sel t off n : Nat) : List Byte × Int × List Nat :=
  let p := rdProg r
  let e := tensorAt p t
  let tile := off / 65536
  match e.persist with
  | 1 => match firstCopy r.s r.ctx t tile (selKinds r.s r.ctx r.step sel) with
    | some k => (memTake k.bytes off n, k.scale, contentCodes 1 (some k.kind))
    | none => (List.replicate n 0, initScale e, contentCodes 1 none)
  | 2 =>
    let back := if sel = 5 then 1 else if sel = 6 then 2 else 0
    let st := r.step - back
    let bs := if r.step < firstStepOf r.s + back then List.replicate n (0 : Byte)
      else match assoc? r.s.fetch.batches st with
        | some b => (upto n).map fun i => b.getD (e.dataOff * 256 + off + i) 0
        | none => (upto n).map fun i => Config.lostBatch st (e.dataOff * 256 + off + i)
    (bs, scaleOf r.s r.ctx t r.step, contentCodes 2 none)
  | 3 => (memTake p.data (e.dataOff * 256 + off) n, scaleOf r.s r.ctx t r.step, contentCodes 3 none)
  | 0 =>
    let k := copyOf r.s r.ctx t 0 (workKind r.s r.ctx r.step)
    let num := (k.bind (·.undef)).getD r.s.free
    let get (o : Nat) : Byte := match k with
      | some k => if memGet k.mask o = 0 then Config.freeByte num o else memGet k.bytes o
      | none => Config.freeByte num o
    ((upto n).map fun i => get (off + i), scaleOf r.s r.ctx t r.step, contentCodes 0 none)
  | _ => (List.replicate n 0, 0, [])

/-- Bytes of tensor `t` at canonical offset `off` as they are delivered, and the scale they were written with. Every read of a frozen
gradient returns +0 in every element, whose encoding is zero bytes in every format (05 R138). -/
def rdBytes (r : Rd) (sel t off n : Nat) : List Byte × Int :=
  let (bs, sc, codes) := storedBytes r sel t off n
  if frozenGrad (rdProg r) t then (List.replicate n 0, sc)
  else (poisonBytes (tensorAt (rdProg r) t) (lostRanges r t codes) off bs, sc)

/-- The first `n` bytes of a tensor's canonical image, version tile by version tile (13 R344, 10 R247). -/
def rdImage (r : Rd) (sel t n : Nat) : List Byte :=
  (upto ((n + 65535) / 65536)).flatMap fun k => (rdBytes r sel t (65536 * k) (min 65536 (n - 65536 * k))).1

/-- The stored encoding of element `i`: significand or word, and the block exponent of a block format. -/
def rdEnc (r : Rd) (sel t i : Nat) : Nat × Nat :=
  let e := tensorAt (rdProg r) t
  let b := elemBytes e.format
  let w := ofBytes (rdBytes r sel t (b * i) b).1
  let x := if isBlock e.format then ofBytes (rdBytes r sel t (2 * elems e + i / 32) 1).1 else 0
  (w, x)

/-- The logical value of element `i` of tensor `t`, decoded exactly with its scale removed (02 R50, 03 R66); a frozen gradient reads
+0 (05 R138). -/
def rdElem (r : Rd) (o : OpSlot) (i : Nat) : Acc :=
  let p := rdProg r
  let e := tensorAt p o.tensor
  if frozenGrad p o.tensor then accZero
  else
    let (w, x) := rdEnc r o.vsel o.tensor i
    let b := elemBytes e.format
    let sc := (rdBytes r o.vsel o.tensor (b * i) b).2
    match e.format with
    | 0 => accScale (decFP16 w) (-sc)
    | 1 => accScale (decFP32 w) (-sc)
    | 2 => decBlockElem false x w
    | 3 => decBlockElem true x w
    | _ => accAdd (decFP32 w) (decFP32 (ofBytes (rdBytes r o.vsel o.tensor (4 * elems e + 4 * i) 4).1))

/-- The blocks with the reserved exponent 255 among elements `is` of a block tensor (02 R46). -/
def reservedBlocks (r : Rd) (o : OpSlot) (is : List Nat) : List Nat :=
  if isBlock (tensorAt (rdProg r) o.tensor).format then
    nub ((is.filter fun i => (rdEnc r o.vsel o.tensor i).2 = 255).map (· / 32))
  else []

/-! ### Writes and splits -/

/-- One write: tensor, canonical offset, bytes. -/
structure Wr where
  tensor : Nat
  off    : Nat
  bytes  : List Byte
  deriving DecidableEq, Repr, Inhabited

/-- The kinds of copy that a pool tile holds (10 R252). -/
def isPoolKind : CopyKind → Bool
  | .prev => true
  | .w1 => true
  | .w2 => true
  | .hold _ => true
  | .committed => false
  | .whole => false

/-- Copies drawn from the pool: PREV, W1, W2 and HOLD (10 R252); a diagnosis replay's are not (R273). -/
def poolCopies (s : State) : Nat :=
  (s.vers.copies.filter fun k => k.ctx ≠ 15 && k.undef.isNone && isPoolKind k.kind).length

/-- HOLD copies (10 R250). -/
def holdCopies (s : State) : Nat := (s.vers.copies.filter fun k => match k.kind with | .hold _ => true | _ => false).length

/-- The tiles a write range covers. -/
def tilesOf (off n : Nat) : List Nat := if n = 0 then [] else (upto ((off + n - 1) / 65536 + 1 - off / 65536)).map (· + off / 65536)

/-- The splits that writes of step `n` need: persistent tiles without a working copy of that step (10 R248). -/
def splitsNeeded (s : State) (c n : Nat) (ws : List Wr) : List (Nat × Nat) :=
  let p := progAt s c
  nub ((ws.filter fun w => decide ((tensorAt p w.tensor).persist = clsPersistent) && !frozenOut p w.tensor).flatMap fun w =>
    ((tilesOf w.off w.bytes.length).filter fun k => (copyOf s c w.tensor k (workKind s c n)).isNone).map fun k => (w.tensor, k))

/-- The bytes of a tile that some writes cover; a piece writes no byte twice. -/
def coveredBytes (ws : List Wr) (t tile : Nat) : Nat :=
  ((ws.filter fun w => w.tensor = t).map fun w => min (w.off + w.bytes.length) (65536 * (tile + 1)) - max w.off (65536 * tile)).sum

/-- Do the writes overwrite the whole 64 KiB tile, so that its split copies nothing (10 R248)? -/
def overwrites (ws : List Wr) (p : Nat × Nat) : Bool := decide (coveredBytes ws p.1 p.2 ≥ 65536)

/-- An element re-expressed at another scale: RNE with the tensor's keep
attribute; its word, its event, and its kind before any replacement (10 R248). -/
def reexpress (t : Tensor) (old new : Int) (w : Nat) : Nat × Ev × Nat :=
  let v := decFP16 w
  let (x, ev) := encFP16 false t.keep 0 (accScale v (new - old))
  (x, ev, spKind v)

/-- The words of a copy re-expressed at scale `new`: bytes, and the event and kind of every element that has one (10 R248). -/
def reexpressTile (t : Tensor) (tile : Nat) (k : Copy) (new : Int) : Mem × List (Nat × Ev × Nat) :=
  let n := elems t
  let is := (upto 32768).filterMap fun j => if tile * 32768 + j < n then some (tile * 32768 + j) else none
  is.foldl (fun acc i =>
    let (w, ev, kind) := reexpress t k.scale new (ofBytes (memTake k.bytes (2 * i) 2))
    (memPut acc.1 (2 * i) (toBytes 2 w), if ev = .none then acc.2 else acc.2 ++ [(i, ev, kind)])) ([], [])

/-- A copy's bytes as a split reads them: marked locations as what they are delivered as (09 R234). -/
def readCopy (s : State) (e : Tensor) (k : Copy) : Mem :=
  let codes := contentCodes clsPersistent (some k.kind)
  let lost := (s.mem.marks.filter fun m => m.ctx = k.ctx && m.tensor = k.tensor && codes.contains m.content).map fun m => (m.off, m.len)
  lost.foldl (fun m x =>
    if isBlock e.format then memPut m (2 * elems e + (lostExps (elems e) x).1) (List.replicate (lostExps (elems e) x).2 0xFF)
    else memPut m x.1 ((upto x.2).map fun i => nanByte e.format (x.1 + i))) k.bytes

/-- What a split copies into the new tile: contents at the step's scale, and the events of re-expressing them; nothing where the piece
overwrites the whole tile (10 R248). -/
def splitContents (s : State) (c t tile n : Nat) (whole : Bool) : Copy × List (Nat × Ev × Nat) :=
  let e := tensorAt (progAt s c) t
  let sc := scaleOf s c t n
  let src := firstCopy s c t tile (if workKind s c n = .w2 then [.w1, .committed] else [.committed])
  let k : Copy := src.getD { ctx := c, tensor := t, tile := tile, kind := .committed, scale := initScale e }
  let k : Copy := { k with bytes := readCopy s e k }
  let (bytes, evs) := if whole then ([], [])
    else if k.scale ≠ sc && decide (e.policy ≥ 2) && e.format = fmtFP16 then reexpressTile e tile k sc else (k.bytes, [])
  ({ ctx := c, tensor := t, tile := tile, kind := workKind s c n, scale := sc, bytes := bytes }, evs)

/-- The version-tracker counts after `k` splits (10 R252). -/
def countSplits (v : Vers) (k inUse : Nat) : Vers := { v with splits := v.splits + k, peak := max v.peak inUse }

/-- Performs the splits `ts` that the writes `ws` of step `n` in context `c` need (10 R248). -/
def doSplits (s : State) (c n : Nat) (ws : List Wr) (ts : List (Nat × Nat)) : State :=
  let news := ts.map fun p => (splitContents s c p.1 p.2 n (overwrites ws p)).1
  let s' : State := { s with vers := { s.vers with copies := s.vers.copies ++ news } }
  { s' with vers := countSplits s'.vers ts.length (poolCopies s') }

/-- The state in which a piece reads: the splits it needs are made before it issues. A tile that it overwrites whole is not copied, so
its reads still find the contents of the step before (10 R248, 05 R139). -/
def splitFirst (s : State) (c n : Nat) (ws : List Wr) : State :=
  let ts := (splitsNeeded s c n ws).filter fun p => !overwrites ws p
  if ts.isEmpty then s else doSplits s c n ws ts

/-- The events of the splits `ts`: tensor, element, event, kind (10 R248). -/
def splitEvents (s : State) (c n : Nat) (ws : List Wr) (ts : List (Nat × Nat)) : List (Nat × Nat × Ev × Nat) :=
  ts.flatMap fun p => (splitContents s c p.1 p.2 n (overwrites ws p)).2.map fun e => (p.1, e.1, e.2.1, e.2.2)

/-- Puts bytes into the working copy of step `n`, one tile at a time. -/
def putCopy (copies : List Copy) (c t tile : Nat) (k : CopyKind) (off : Nat) (bs : List Byte) : List Copy :=
  mapWhere copies (fun x => x.ctx = c && x.tensor = t && x.tile = tile && decide (x.kind = k)) fun x =>
    { x with bytes := memPut x.bytes off bs }

/-- A write into a PERSISTENT tensor, whose tiles have been split. -/
def putPersistent (s : State) (c n : Nat) (w : Wr) : State :=
  { s with vers := { s.vers with copies := (tilesOf w.off w.bytes.length).foldl (fun cs tile =>
      let lo := max w.off (tile * 65536)
      let hi := min (w.off + w.bytes.length) ((tile + 1) * 65536)
      putCopy cs c w.tensor tile (workKind s c n) lo ((w.bytes.drop (lo - w.off)).take (hi - lo))) s.vers.copies } }

/-- A write into a TRANSIENT tensor: its step's contents are made, undefined, at the first write (07 R171). -/
def putTransient (s : State) (c n : Nat) (w : Wr) : State :=
  let k := workKind s c n
  let s := if (copyOf s c w.tensor 0 k).isNone then
      { s with free := s.free + 1,
               vers := { s.vers with copies := s.vers.copies ++ [{ ctx := c, tensor := w.tensor, tile := 0, kind := k, undef := some s.free }] } }
    else s
  let put (x : Copy) : Copy :=
    { x with bytes := memPut x.bytes w.off w.bytes, mask := memPut x.mask w.off (List.replicate w.bytes.length 1) }
  let copies := mapWhere s.vers.copies (fun x => x.ctx = c && x.tensor = w.tensor && decide (x.kind = k)) put
  { s with vers := { s.vers with copies := copies } }

/-- One write of step `n` in context `c`; a frozen tensor's is discarded at drain (04 R101). A RESULT tensor's bytes reach its
object when the task completes (19 R503). -/
def putWr (s : State) (c n : Nat) (w : Wr) : State :=
  let p := progAt s c
  if frozenOut p w.tensor then s
  else match (tensorAt p w.tensor).persist with
    | 1 => putPersistent s c n w
    | 0 => putTransient s c n w
    | _ => s

/-- Does a mark stand after some writes of its context? An uncommitted location that they cover holds good data (09 R234). -/
def markStands (c : Nat) (ws : List Wr) (m : Mark) : Bool :=
  !(m.ctx = c && (m.content = 1 || m.content = 2)) ||
    decide (((ws.filter fun w => w.tensor = m.tensor).map fun w => min (w.off + w.bytes.length) (m.off + m.len) - max w.off m.off).sum < m.len)

/-- Writes of step `n`, splits first (10 R248). -/
def putAll (s : State) (c n : Nat) (ws : List Wr) : State :=
  let s := ws.foldl (fun s w => putWr s c n w) (doSplits s c n ws (splitsNeeded s c n ws))
  if s.mem.marks.isEmpty then s else { s with mem := { s.mem with marks := s.mem.marks.filter (markStands c ws) } }

end Sys2Proof.Machine
end

