-- ==== Sys2Proof/Machine/Flags.lean ====
section
/-! DEFINITION. Delivery of a tile: encodings, events and special flags (02 R58 to R62, 03 R81 to R83), running maxima (R70),
digests (04 R108, R109), and the numeric record. -/

namespace Sys2Proof.Machine

/-! ### Events -/

/-- The code of an event in a list: one delivered element at its row and column of a tile. -/
structure Hit where
  row  : Nat
  col  : Nat
  ev   : Ev
  kind : Nat
  deriving DecidableEq, Repr, Inhabited

/-- The events of one tile; the first special element is the first in the order given (03 R82). -/
def tileEvents (tile : Nat) (hs : List Hit) : Events :=
  let cnt (e : Ev) := (hs.filter fun h => decide (h.ev = e)).length
  { sat := cnt .sat, flush := cnt .flush, special := cnt .special,
    first := (hs.find? fun h => decide (h.ev = .special)).map fun h => (tile, h.row, h.col, h.kind),
    tiles := if cnt .special = 0 then [] else [tile] }

/-- The smaller position: tile, then row, then column (03 R82). -/
def earlier (a b : Nat × Nat × Nat × Nat) : Bool :=
  decide (a.1 < b.1) || (a.1 = b.1 && (decide (a.2.1 < b.2.1) || (a.2.1 = b.2.1 && decide (a.2.2.1 ≤ b.2.2.1))))

/-- Events of two parts of one task together; a tile's special flag counts once (03 R82). -/
def addEvents (a b : Events) : Events :=
  { sat := a.sat + b.sat, flush := a.flush + b.flush, special := a.special + b.special, tiles := nub (a.tiles ++ b.tiles),
    first := match a.first, b.first with
      | some x, some y => if earlier x y then some x else some y
      | some x, none => some x
      | none, y => y }

/-- All events of one execution, towards 0x4000.06 (03 R85, R567). -/
def rawEvents (e : Events) : Nat := e.sat + e.flush + e.special

/-- Has the task at least one event (03 R83)? -/
def anyEvents (e : Events) : Bool := decide (rawEvents e > 0)

/-- The trailer of a tile digest (04 R109). -/
def trailer (e : Events) : List Byte :=
  let (row, col, kind) := match e.first with
    | some (_, r, c, k) => (r, c, k)
    | none => (0, 0, 0)
  toBytes 8 (pack [(48, 16, sat 16 e.sat), (32, 16, sat 16 e.flush), (16, 16, sat 16 e.special), (14, 2, kind), (6, 6, row), (0, 6, col)])

/-- The numeric record of a task for one output tensor (03 R83). -/
def numRecord (step tensor ctx opcode task : Nat) (e : Events) : BitVec 256 :=
  let (tile, row, col, kind) := e.first.getD (0, 0, 0, 0)
  BitVec.ofNat 256 (pack [(208, 48, step), (188, 20, tensor), (184, 4, ctx), (176, 8, opcode), (174, 2, kind),
    (160, 14, sat 14 e.tiles.length), (128, 32, task), (96, 32, sat 32 e.sat), (64, 32, sat 32 e.flush), (42, 22, sat 22 e.special),
    (12, 28, tile), (6, 6, row), (0, 6, col)])

/-! ### Delivery -/

/-- What one element position receives: position in the tile, element index in the tensor, logical value. -/
structure Cellv where
  pos  : Nat
  elem : Nat
  val  : Acc
  deriving DecidableEq, Repr, Inhabited

/-- A delivered tile: writes, digest bytes without trailer, element events in the order given, running maximum. -/
structure TileOut where
  writes : List Wr := []
  stream : List Byte := []
  hits   : List Hit := []
  top    : Nat := 0
  deriving DecidableEq, Repr, Inhabited

/-- The draw of an element (02 R53, R55), unused under RNE. -/
def drawFor (r : Rd) (t elem slot : Nat) : Nat := if (tensorAt (rdProg r) t).sr then draw (rdProg r).seed r.step t elem slot else 0

/-- Encodings at chosen positions of a 4,096-position stream, +0 elsewhere (04 R109). -/
def stream4096 (width : Nat) (ps : List (Nat × Nat)) : List Byte :=
  (upto 4096).flatMap fun i => toBytes width ((assoc? ps i).getD 0)

/-- Flips bits of the encoding at one position: a delivered word that the silicon corrupted. -/
def flipAt (flip : Option (Nat × Nat)) (pos w : Nat) : Nat :=
  match flip with
  | some (p, m) => if p = pos then w ^^^ m else w
  | none => w

/-- Delivery into an FP16 or FP32 tensor (R50 stages 2 and 3): scale of the step, the tensor's mode and keep attribute. -/
def deliverFloat (r : Rd) (t slot : Nat) (cells : List Cellv) (flip : Option (Nat × Nat)) : TileOut :=
  let e := tensorAt (rdProg r) t
  let sc := scaleOf r.s r.ctx t r.step
  let b := elemBytes e.format
  let enc (c : Cellv) := (if e.format = fmtFP16 then encFP16 else encFP32) e.sr e.keep (drawFor r t c.elem slot) (accScale c.val sc)
  let outs := cells.map fun c => let (w, ev) := enc c; (c, flipAt flip c.pos (w % 2 ^ (8 * b)), ev)
  { writes := outs.map fun o => ⟨t, b * o.1.elem, toBytes b o.2.1⟩
    stream := stream4096 b (outs.map fun o => (o.1.pos, o.2.1))
    hits := outs.map fun o => ⟨o.1.pos / 64, o.1.pos % 64, o.2.2, spKind o.1.val⟩
    top := maxOf (cells.map (·.val)) }

/-- Delivery into a CP32 tensor (02 R63, 04 R102): hi plane, then lo plane. -/
def deliverPair (r : Rd) (t : Nat) (cells : List Cellv) (flip : Option (Nat × Nat)) : TileOut :=
  let e := tensorAt (rdProg r) t
  let outs := cells.map fun c => let (w, ev) := encCP32 c.val; (c, (flipAt flip c.pos w.1, w.2), ev)
  { writes := outs.flatMap fun o => [⟨t, 4 * o.1.elem, toBytes 4 o.2.1.1⟩, ⟨t, 4 * elems e + 4 * o.1.elem, toBytes 4 o.2.1.2⟩]
    stream := stream4096 4 (outs.map fun o => (o.1.pos, o.2.1.1)) ++ stream4096 4 (outs.map fun o => (o.1.pos, o.2.1.2))
    hits := outs.map fun o => ⟨o.1.pos / 64, o.1.pos % 64, o.2.2, spKind o.1.val⟩
    top := maxOf (cells.map (·.val)) }

/-- Delivery into MW16 or MU16 (02 R47): cells are a run of whole blocks, except at the tensor's end, where the block is padded
with zeros (R44). -/
def deliverBlocks (r : Rd) (t slot : Nat) (cells : List Cellv) (flip : Option (Nat × Nat)) : TileOut :=
  let e := tensorAt (rdProg r) t
  let mu := decide (e.format = fmtMU16)
  let blocks := (chunksOf 32 cells).map fun cs =>
    let vs := cs.map (·.val) ++ List.replicate (32 - cs.length) accZero
    let rs := cs.map (fun c => drawFor r t c.elem slot) ++ List.replicate (32 - cs.length) 0
    let (x, ms, evs) := encBlock mu e.sr rs vs
    (cs, x, (cs.zip ms).map fun p => flipAt flip p.1.pos p.2, evs)
  let wr (b : List Cellv × Nat × List Nat × List Ev) : List Wr :=
    match b.1 with
    | [] => []
    | c :: _ => [⟨t, 2 * c.elem, b.2.2.1.flatMap (toBytes 2)⟩, ⟨t, 2 * elems e + c.elem / 32, toBytes 1 b.2.1⟩]
  { writes := blocks.flatMap wr
    stream := stream4096 2 (blocks.flatMap fun b => (b.1.zip b.2.2.1).map fun p => (p.1.pos, p.2)) ++
      (upto 128).flatMap fun k => toBytes 1 ((blocks.find? fun b => (b.1.headD default).pos / 32 = k && !b.1.isEmpty).elim 0 (·.2.1))
    hits := blocks.flatMap fun b => (b.1.zip b.2.2.2).map fun p => ⟨p.1.pos / 64, p.1.pos % 64, p.2, spKind p.1.val⟩
    top := maxOf (cells.map (·.val)) }

/-- Delivery into any format (02 R50). -/
def deliver (r : Rd) (t slot : Nat) (cells : List Cellv) (flip : Option (Nat × Nat)) : TileOut :=
  match (tensorAt (rdProg r) t).format with
  | 0 => deliverFloat r t slot cells flip
  | 1 => deliverFloat r t slot cells flip
  | 4 => deliverPair r t cells flip
  | _ => deliverBlocks r t slot cells flip

/-- The digest of a delivered tile with its events (04 R109). -/
def tileDigest (o : TileOut) (e : Events) : BitVec 64 := crc64 (o.stream ++ trailer e)

/-! ### Units -/

/-- What one execution forms for one unit of R255. -/
structure Unit_ where
  unit     : Nat
  writes   : List Wr := []
  digests  : List (BitVec 64) := []
  outs     : List (Nat × Events) := []        -- per output tensor
  maxima   : List (Nat × Nat) := []           -- per output tensor: running maximum (03 R70)
  dataFail : Bool := false
  laneFail : Nat := 0
  specialAcc : Bool := false
  resv     : List (Nat × Nat) := []           -- reserved-exponent blocks decoded: tensor, block
  acc      : List (List Acc) := []            -- the accumulators as they drain (04 R90)
  blocks   : List (List (List Acc) × List (List Acc)) := []   -- the stored lines of A and B of its last two K blocks (05 R121)
  preAct   : List Byte := []                  -- pre-activation values read during its sweep (05 R136)
  deriving DecidableEq, Repr, Inhabited

/-- The unit of a single output tile. -/
def unitOf (unit t tile : Nat) (o : TileOut) : Unit_ :=
  let e := tileEvents tile o.hits
  { unit := unit, writes := o.writes, digests := [tileDigest o e], outs := [(t, e)], maxima := [(t, o.top)] }

/-- Raw events of a unit. -/
def unitRaw (u : Unit_) : Nat := (u.outs.map fun o => rawEvents o.2).sum

/-! ### Tolerance (04 R106) -/

/-- The tolerance exponent and quiet count after the commit of a step that wrote the tensor. `failed`: a data comparison failed;
`differed`: a re-execution digest differed. -/
def moveTolerance (f quiet : Nat) (failed differed : Bool) : Nat × Nat :=
  if failed then (if differed then f else min (f + 1) 20, 0)
  else if quiet + 1 ≥ 64 then (if differed then f else f - 1, 0)
  else (f, quiet + 1)

end Sys2Proof.Machine
end

