-- ==== Sys2Proof/Machine/Matrix.lean ====
section
/-! DEFINITION. The matrix engine (chapter 04) with the fused derivatives of chapter 05, and the fused attention tiles. -/

namespace Sys2Proof.Machine

/-! ### Gathers and the order of additions (04 R95 to R97) -/

/-- x_hi of R96: the leading 12 significand bits. -/
def partHi (x : Acc) : Acc := accTrunc 12 x

/-- x_lo of R96: what the truncation drops; +0 for infinity and NaN. -/
def partLo (x : Acc) : Acc :=
  match x with
  | .fin _ _ _ => accSub x (partHi x)
  | _ => accZero

/-- Does pass `p` take the lo part of operand A, and of operand B (R97)? -/
def passLo (wideB : Bool) (p : Nat) : Bool × Bool :=
  if p = 2 then (!wideB, wideB) else if p = 3 then (wideB, !wideB) else (false, false)

/-- The order of terms: K blocks of 64, then passes, then k (R95). -/
def termOrder (g k : Nat) : List (Nat × Nat) :=
  (upto ((k + 63) / 64)).flatMap fun kb => (upto g).flatMap fun p =>
    (upto (min 64 (k - 64 * kb))).map fun j => (p + 1, 64 * kb + j)

/-- One line of an operand as the array receives it over a sweep. -/
def sweepOf (order : List (Nat × Nat)) (lo : Nat → Bool) (line : Nat → Acc) : List Acc :=
  order.map fun t => if lo t.1 then partLo (line t.2) else partHi (line t.2)

/-- Products added in order onto an accumulator, each addition rounded once (R91, R95). -/
def accumulate (acc : Acc) (a b : List Acc) : Acc := (a.zip b).foldl (fun acc p => accAdd acc (accMul p.1 p.2)) acc

/-- The operands of one tile: sweeps of its rows of A and of its columns of B. -/
structure Sweeps where
  rows : List (List Acc)
  cols : List (List Acc)
  deriving Repr, Inhabited

/-- The sweeps of a tile of `m` rows, `n` columns and contraction length `k`. -/
def sweeps (g : Nat) (wideB : Bool) (m n k : Nat) (a b : Nat → Nat → Acc) : Sweeps :=
  let order := termOrder g k
  { rows := (upto m).map fun i => sweepOf order (fun p => (passLo wideB p).1) (a i)
    cols := (upto n).map fun j => sweepOf order (fun p => (passLo wideB p).2) (fun t => b t j) }

/-- The working accumulators of a tile, from given starting values (R92, R95). -/
def tileAcc (w : Sweeps) (start : Nat → Nat → Acc) : List (List Acc) :=
  w.rows.mapIdx fun i r => w.cols.mapIdx fun j c => accumulate (start i j) r c

/-! ### The checksum lane (04 R103 to R105) -/

/-- Sums position by position by the fixed pairwise tree over 64 lines, padding entering as +0, narrowed to CS24 (R103). -/
def laneSum (lines : List (List Acc)) : List Acc :=
  let len := (lines.headD []).length
  (upto len).map fun k => accNarrow 24 (tree64 accAdd ((lines.map fun l => l.getD k accZero) ++ List.replicate (64 - lines.length) accZero))

/-- A list filled up to 64 with +0. -/
def to64 (l : List Acc) : List Acc := l ++ List.replicate (64 - l.length) accZero

/-- A comparison of R104: ρ ≤ μ · 2^(f − 24). -/
def sumPasses (f : Nat) (cs : List Acc) (s : Acc) : Bool :=
  let rho := accAbs (accSub (tree64 accAdd (to64 cs)) s)
  let mu := accAdd (tree64 accAdd (to64 (cs.map accAbs))) (accAbs s)
  accLe rho (accScale mu (Int.ofNat f - 24))

/-- What the check unit finds in a tile (R104, R105). -/
structure LaneRes where
  dataFail : Bool := false
  laneFail : Nat := 0
  special  : Bool := false
  deriving DecidableEq, Repr, Inhabited

/-- The check of one product: `cells` are the working accumulators as drained, `badLane` a corner PE that sums wrongly. -/
def checkTile (f : Nat) (w : Sweeps) (cells : List (List Acc)) (badLane : Bool) : LaneRes :=
  let aSum := laneSum w.rows
  let bSum := laneSum w.cols
  let sCol := w.cols.map fun c => accumulate accZero aSum c
  let sRow := w.rows.map fun r => accumulate accZero r bSum
  let corner := accumulate accZero aSum bSum
  if (cells.flatten ++ sCol ++ sRow ++ [corner]).any (fun x => !accFinite x) then { special := true }
  else
    let colsOk := sCol.mapIdx fun j s => sumPasses f (cells.map fun r => r.getD j accZero) s
    let rowsOk := (cells.zip sRow).map fun p => sumPasses f p.1 p.2
    { dataFail := !(colsOk.all id && rowsOk.all id)
      laneFail := (if sumPasses f sCol corner then 0 else 1) + (if sumPasses f sRow corner then 0 else 1) + (if badLane then 1 else 0) }

/-- Outcomes of several products of one attention unit together. DESIGN CHOICE, log 149: R104, R105 and R107 speak of one tile, and no
rule says how a unit's products combine; the unit is one tile here, so a special accumulator in any of them leaves only its own count
(R104), and failures of the others join. -/
def addLane (a b : LaneRes) : LaneRes :=
  if a.special || b.special then { special := true } else { dataFail := a.dataFail || b.dataFail, laneFail := a.laneFail + b.laneFail }

/-- The tolerance exponent of a tensor (R106): the latched initial value until a commit has moved it. -/
def tolOf (s : State) (c t : Nat) : Nat :=
  match (ctxAt s c).tens.find? fun x => x.tensor = t with
  | some x => x.tol
  | none => (progAt s c).tolInit

/-! ### Physical errors -/

/-- Accumulators with the one an upset names replaced. -/
def upsetAcc (up : Upset) (tile : Nat) (cells : List (List Acc)) : List (List Acc) :=
  match up with
  | .acc t r c bits => if t = tile then cells.mapIdx fun i row => row.mapIdx fun j v => if i = r ∧ j = c then decFP32 bits.toNat else v else cells
  | _ => cells

/-- The position and mask an upset flips in a delivered tile. -/
def upsetFlip (up : Upset) (tile : Nat) : Option (Nat × Nat) :=
  match up with
  | .drain t e m => if t = tile then some (e, m.toNat) else none
  | _ => none

/-- Does an upset break the checksum lane of this tile? -/
def upsetLane (up : Upset) (tile : Nat) : Bool :=
  match up with
  | .lane t => decide (t = tile)
  | _ => false

/-! ### Matrix tasks (04 R99, 05 R129, R131, R134) -/

/-- M, N, K of a matrix task and its operands as element indices (R99, R118): row-major stored operands, transposed on delivery. -/
structure MatShape where
  m : Nat
  n : Nat
  k : Nat
  aT : Bool
  bT : Bool
  deriving DecidableEq, Repr, Inhabited

/-- The shape from the views of the operands (07 R174). -/
def matShape (p : Program) (kind : MatKind) (a b : OpSlot) (ta tb : Bool) : MatShape :=
  let A := tensorAt p a.tensor
  let B := tensorAt p b.tensor
  let aT := (match kind with | .mmTa => true | .mmAcc => ta | _ => false)
  let bT := (match kind with | .mmTb => true | .mmAcc => tb | _ => false)
  { m := if aT then colsOf A else rowsOf A, k := if aT then rowsOf A else colsOf A, n := if bT then rowsOf B else colsOf B, aT := aT, bT := bT }

/-- Output tiles of an M × N grid (03 R81). -/
def gridTiles (m n : Nat) : Nat := ((m + 63) / 64) * ((n + 63) / 64)

/-- Element index of (row, col) of a row-major tensor with `cols` columns, transposed on delivery where `t`. -/
def elemIx (t : Bool) (cols row col : Nat) : Nat := if t then col * cols + row else row * cols + col

/-- Rows of tile `tile` of an M × N grid: first row, first column, rows, columns. -/
def tileBox (m n tile : Nat) : Nat × Nat × Nat × Nat :=
  let w := (n + 63) / 64
  let r0 := 64 * (tile / w)
  let c0 := 64 * (tile % w)
  (r0, c0, min 64 (m - r0), min 64 (n - c0))

/-- Flattens a tile of values into cells, in row-major order. -/
def cellsOf (tile : List (List Acc)) (elem : Nat → Nat → Nat) : List Cellv :=
  (tile.mapIdx fun i r => r.mapIdx fun j v => ⟨64 * i + j, elem i j, v⟩).flatten

/-- A K block of an operand tile as its 64 stored lines; what is missing is padding (05 R122, R124). `line u v` is element `v` of line `u`. -/
def blockLines (line : Nat → Nat → Acc) : List (List Acc) := (upto 64).map fun u => (upto 64).map (line u)

/-- The stored lines of the last two K blocks of a tile. -/
def lastBlocks (k : Nat) (a b : Nat → Nat → Nat → Acc) : List (List (List Acc) × List (List Acc)) :=
  (((upto ((k + 63) / 64)).drop ((k + 63) / 64 - 2)).map fun kb => (blockLines (a kb), blockLines (b kb)))

/-- One output tile of a matrix task: sweep, check, drain (R99), inserted derivative stage (R131), delivery and digest. The
pre-activation operand is read through its own slot's selector (R139), which is WORKING where R131 speaks of the working version;
another selector there is a DESIGN CHOICE, log 150. -/
def matUnit (r : Rd) (kind : MatKind) (a b : OpSlot) (c : Nat) (z : OpSlot) (deriv : Nat) (gated : Bool) (g : Nat)
    (wideB ta tb : Bool) (up : Upset) (tile : Nat) : Unit_ :=
  let p := rdProg r
  let sh := matShape p kind a b ta tb
  let (r0, c0, rows, cols) := tileBox sh.m sh.n tile
  let aAt (i k : Nat) := rdElem r a (elemIx sh.aT (colsOf (tensorAt p a.tensor)) (r0 + i) k)
  let bAt (k j : Nat) := rdElem r b (elemIx sh.bT (colsOf (tensorAt p b.tensor)) k (c0 + j))
  let w := sweeps g wideB rows cols sh.k aAt bAt
  let drained := upsetAcc up tile (tileAcc w fun _ _ => accZero)
  let chk := checkTile (tolOf r.s r.ctx c) w drained (upsetLane up tile)
  let width := if gated then 2 * sh.n else sh.n
  let at_ (i j : Nat) := (r0 + i) * width + c0 + j
  let flip := upsetFlip up tile
  -- stage 2 of R99: only MM_ACC, and a frozen gradient adds nothing (05 R138)
  let acc := match kind with
    | .mmAcc => if frozenGrad p c then drained
        else drained.mapIdx fun i row => row.mapIdx fun j v => accAdd v (rdElem r ⟨0, c⟩ (at_ i j))
    | _ => drained
  let zAt (i j : Nat) := rdElem r z (at_ i j)
  let block (byK : Bool) (n : Nat) (at_ : Nat → Nat → Acc) (kb u v : Nat) : Acc :=
    let x := if byK then v else u
    let t := 64 * kb + if byK then u else v
    if x < n ∧ t < sh.k then at_ x t else accZero
  let zWords (i : Nat) : List Byte := (upto cols).flatMap fun j =>
    (if gated then [at_ i j, at_ i (j + sh.n)] else [at_ i j]).flatMap fun e =>
      toBytes (elemBytes (tensorAt p z.tensor).format) (rdEnc r z.vsel z.tensor e).1
  let unit (o : TileOut) : Unit_ :=
    { unitOf tile c tile o with
      dataFail := chk.dataFail, laneFail := chk.laneFail, specialAcc := chk.special, acc := drained,
      blocks := lastBlocks sh.k (block sh.aT rows aAt) (block (!sh.bT) cols fun j k => bAt k j),
      preAct := if deriv = 0 then [] else (upto rows).flatMap zWords }
  if deriv = 0 then unit (deliver r c 0 (cellsOf acc at_) flip)
  else if !gated then
    let dz := acc.mapIdx fun i row => row.mapIdx fun j v => accMul v (derivPrime deriv (zAt i j))
    unit (deliver r c 0 (cellsOf dz at_) flip)
  else
    let gate := acc.mapIdx fun i row => row.mapIdx fun j v =>
      accMul (accMul v (zAt i (j + sh.n))) (derivPrime deriv (zAt i j))
    let upv := acc.mapIdx fun i row => row.mapIdx fun j v => accMul v (derivPhi deriv (zAt i j))
    let og := deliver r c 0 (cellsOf gate at_) flip
    let ou := deliver r c 0 (cellsOf upv fun i j => at_ i (j + sh.n)) none
    let o : TileOut :=
      { writes := og.writes ++ ou.writes, stream := og.stream ++ ou.stream,
        hits := (og.hits.zip ou.hits).flatMap (fun h => [h.1, h.2]), top := max og.top ou.top }
    unit o

/-! ### Attention (04 R111 to R114) -/

/-- The shape an attention task works on. -/
structure AttShape where
  sq : Nat
  sk : Nat
  d  : Nat
  causal : Bool
  qoff : Nat
  koff : Nat
  deriving DecidableEq, Repr, Inhabited

/-- Is query `q` allowed to see key `k` (R111)? -/
def unmasked (a : AttShape) (q k : Nat) : Bool := !a.causal || decide (a.koff + k ≤ a.qoff + q)

/-- Is any pair of a block of queries and a block of keys unmasked? -/
def blockLive (a : AttShape) (q0 nq k0 nk : Nat) : Bool :=
  (upto nq).any fun i => (upto nk).any fun j => unmasked a (q0 + i) (k0 + j)

/-- A probability or gradient rounded with RNE to the operand format, subnormals kept (R112 step 4). -/
def toOperand (fmt : Nat) (v : Acc) : Acc :=
  if fmt = fmtFP16 then decFP16 (encFP16 false true 0 v).1 else decFP32 (encFP32 false true 0 v).1

/-- Accumulators with one of them replaced: what an upset leaves before the drain and the check. -/
def spoil (hit : Option (Nat × Nat × Acc)) (cells : List (List Acc)) : List (List Acc) :=
  match hit with
  | some (r, c, v) => cells.mapIdx fun i row => row.mapIdx fun j x => if i = r ∧ j = c then v else x
  | none => cells

/-- The accumulator of an attention unit that an upset names. -/
def upsetHit (up : Upset) (unit : Nat) : Option (Nat × Nat × Acc) :=
  match up with
  | .acc t r c bits => if t = unit then some (r, c, decFP32 bits.toNat) else none
  | _ => none

/-- A product of two small matrices in the array, added onto `start`, with its check (R95, R103, R104); `hit` is an accumulator that
holds another value when they are drained. The array is 64 columns wide, so each strip of 64 columns is a tile with lane sums of its own
(R90, R103). DESIGN CHOICE, log 151: how the lane follows accumulators that a product adds onto (P · V_b
onto α · O, Pᵀ · dO onto dV, dSᵀ · Q onto dK) no rule says; the product is checked as one that starts at +0. -/
def product (f g : Nat) (wideB : Bool) (m n k : Nat) (a b : Nat → Nat → Acc) (start : Nat → Nat → Acc) (hit : Option (Nat × Nat × Acc)) :
    List (List Acc) × LaneRes :=
  let w := sweeps g wideB m n k a b
  let cells := spoil hit (tileAcc w fun _ _ => accZero)
  let strip (j : Nat) : LaneRes :=
    checkTile f { w with cols := (w.cols.drop (64 * j)).take 64 } (cells.map fun row => (row.drop (64 * j)).take 64) false
  (spoil hit (tileAcc w start), ((upto ((n + 63) / 64)).map strip).foldl addLane {})

/-- Entry (i, j) of a list of rows. -/
def cell (t : List (List Acc)) (i j : Nat) : Acc := (t.getD i []).getD j accZero

/-- The running state of one query tile of ATT_F: maximum, sum and O accumulators of each row. -/
structure AttRow where
  m : List Acc
  l : List Acc
  o : List (List Acc)
  chk : LaneRes := {}
  first : Bool := true
  p : List (List Acc) := []                   -- P of the last key block as the array takes it
  deriving Repr, Inhabited

/-- One key block of ATT_F (R112 steps 1 to 5); `hit` spoils an O accumulator. -/
def attBlock (f g : Nat) (wideB : Bool) (fmtV : Nat) (sigma : Acc) (a : AttShape) (q k v : Nat → Nat → Acc) (q0 nq k0 nk : Nat)
    (hit : Option (Nat × Nat × Acc)) (st : AttRow) : AttRow :=
  let (sc, c1) := product f g wideB nq nk a.d (fun i t => q (q0 + i) t) (fun t j => k (k0 + j) t) (fun _ _ => accZero) none
  let sc := sc.mapIdx fun i row => row.mapIdx fun j x => if unmasked a (q0 + i) (k0 + j) then accMul x sigma else .inf true
  let m' := (st.m.zip sc).map fun p => p.2.foldl accMax p.1
  let pr := (sc.zip m').map fun p => p.1.map fun x => sfuExp (accSub x p.2)
  let alpha := if st.first then st.m.map fun _ => accZero else (st.m.zip m').map fun p => sfuExp (accSub p.1 p.2)
  let rowsum (l : List Acc) : Acc := match l with
    | [] => accZero
    | x :: r => r.foldl accAdd x
  let l' := (alpha.zip (st.l.zip pr)).map fun p => accAdd (accMul p.1 p.2.1) (rowsum p.2.2)
  let pq := pr.map fun row => row.map (toOperand fmtV)
  let o1 := (st.o.zip alpha).map fun p => p.1.map fun x => accMul x p.2
  let (o2, c2) := product f g wideB nq a.d nk (cell pq) (fun t j => v (k0 + t) j) (cell o1) hit
  { m := m', l := l', o := o2, chk := addLane st.chk (addLane c1 c2), first := false, p := pq }

/-- Key blocks of 64 that a run of queries sees, in increasing order; a wholly masked one is skipped (R112, R114). -/
def liveBlocks (a : AttShape) (q0 nq : Nat) : List Nat :=
  (upto ((a.sk + 63) / 64)).filter fun b => blockLive a q0 nq (64 * b) (min 64 (a.sk - 64 * b))

/-- The tiles of 64 columns of rows `r0 …` of a tensor with `d` columns, delivered and digested. -/
def stripTiles (r : Rd) (t r0 d : Nat) (rows : List (List Acc)) (flip : Option (Nat × Nat)) : List (Nat × TileOut) :=
  (upto ((d + 63) / 64)).map fun j =>
    let part := rows.map fun row => (row.drop (64 * j)).take 64
    let o := deliver r t 0 (cellsOf part fun i k => (r0 + i) * d + 64 * j + k) (if j = 0 then flip else none)
    ((r0 / 64) * ((d + 63) / 64) + j, o)

/-- Joins delivered tiles of one tensor into a unit's digests and events. -/
def stripUnit (ts : List (Nat × TileOut)) : List Wr × List (BitVec 64) × Events × Nat :=
  (ts.flatMap fun x => x.2.writes,
   ts.map fun x => tileDigest x.2 (tileEvents x.1 x.2.hits),
   ts.foldl (fun e x => addEvents e (tileEvents x.1 x.2.hits)) {},
   ts.foldl (fun m x => max m x.2.top) 0)

/-- One query tile of ATT_F: its O tiles and its L tile (R112, R113). DEDUCED, log 213: the constant of a row that sees no key enters L's running
maximum. -/
def attFUnit (r : Rd) (q k v o l : OpSlot) (head : Nat) (causal : Bool) (g : Nat) (wideB : Bool) (qoff koff : Nat)
    (sigma : BitVec 32) (up : Upset) (qt : Nat) : Unit_ :=
  let p := rdProg r
  let a : AttShape := ⟨rowsOf (tensorAt p q.tensor), rowsOf (tensorAt p k.tensor), 64 * head, causal, qoff, koff⟩
  let q0 := 64 * qt
  let nq := min 64 (a.sq - q0)
  let at_ (o : OpSlot) (i j : Nat) := rdElem r o (i * a.d + j)
  let sg := decFP32 sigma.toNat
  let f := tolOf r.s r.ctx o.tensor
  let st0 : AttRow := ⟨List.replicate nq (.inf true), List.replicate nq accZero, List.replicate nq (List.replicate a.d accZero), {}, true, []⟩
  -- an O accumulator that an upset names is wrong as the last block's product leaves it
  let hit (b : Nat) := if (liveBlocks a q0 nq).getLast? = some b then upsetHit up qt else none
  let st := (liveBlocks a q0 nq).foldl (fun st b =>
    attBlock f g wideB (tensorAt p v.tensor).format sg a (at_ q) (at_ k) (at_ v) q0 nq (64 * b) (min 64 (a.sk - 64 * b)) (hit b) st) st0
  let seen (i : Nat) : Bool := (upto a.sk).any fun j => unmasked a (q0 + i) j
  let oAcc := (st.o.zip st.l).map fun x => x.1.map fun y => accMul y (sfuRecip x.2)
  let oRows := oAcc.mapIdx fun i row => if seen i then row else row.map fun _ => accZero
  let lVals := (st.m.zip st.l).mapIdx fun i x => if seen i then accAdd x.1 (sfuLn x.2) else decFP32 0xFF7FFFFF
  let ot := stripTiles r o.tensor q0 a.d oRows (upsetFlip up qt)
  let (ow, od, oe, om) := stripUnit ot
  -- L: one column, rounded once to FP32 with RNE; an unseen row stores its constant and counts nothing
  let sc := scaleOf r.s r.ctx l.tensor r.step
  let lo := lVals.mapIdx fun i x =>
    if seen i then let e := encFP32 false (tensorAt p l.tensor).keep 0 (accScale x sc); (i, e.1, e.2, spKind x) else (i, 0xFF7FFFFF, Ev.none, 0)
  let lt : TileOut :=
    { writes := lo.map fun x => ⟨l.tensor, 4 * (q0 + x.1), toBytes 4 x.2.1⟩
      stream := stream4096 4 (lo.map fun x => (64 * x.1, x.2.1))
      hits := lo.map fun x => ⟨x.1, 0, x.2.2.1, x.2.2.2⟩
      top := maxOf lVals }
  let le := tileEvents qt lt.hits
  let chk := addLane st.chk { laneFail := if upsetLane up qt then 1 else 0 }
  { unit := qt, writes := ow ++ lt.writes, digests := od ++ [tileDigest lt le], outs := [(o.tensor, oe), (l.tensor, le)],
    maxima := [(o.tensor, om), (l.tensor, lt.top)], dataFail := chk.dataFail,
    laneFail := chk.laneFail, specialAcc := chk.special, acc := st.o.map (·.take 64),
    blocks := ((liveBlocks a q0 nq).getLast?.toList).map fun b => (st.p, (upto (min 64 (a.sk - 64 * b))).map fun t => (upto 64).map (at_ v (64 * b + t))) }

/-- The sums of ATT_B over one key block and the query tiles before it: dK, dV, and the dQ partial sums of every query. -/
structure AttBack where
  dk : List (List Acc)
  dv : List (List Acc)
  dq : List (List Acc)
  chk : LaneRes := {}
  dqChk : List (Nat × LaneRes) := []          -- by query tile: the checks of its dS · K_b
  formed : List (List (List Acc) × List (List Acc)) := []   -- P with dO and dS with Q of the last pair, as lines of marver slots (05 R127)
  deriving Repr, Inhabited

/-- One pair of key block and query tile of ATT_B (R114 steps 1 to 5); `hitK` spoils a dK accumulator, `hitQ` one of dS · K_b. P and dS
enter the array rounded with RNE to Q's operand format, subnormals kept, as R112 step 4 has P of ATT_F; dS is formed from P before that
rounding. DESIGN CHOICE, log 152: neither R114 nor 05 R127 gives a rounding. -/
def attBackPair (f g : Nat) (wideB : Bool) (fmt : Nat) (sigma : Acc) (a : AttShape) (q k v dO : Nat → Nat → Acc) (dsum lrow : Nat → Acc)
    (q0 nq k0 nk : Nat) (hitK hitQ : Option (Nat × Nat × Acc)) (st : AttBack) : AttBack :=
  let (sc, c1) := product f g wideB nq nk a.d (fun i t => q (q0 + i) t) (fun t j => k (k0 + j) t) (fun _ _ => accZero) none
  let pr := sc.mapIdx fun i row => row.mapIdx fun j x =>
    if unmasked a (q0 + i) (k0 + j) then sfuExp (accSub (accMul sigma x) (lrow (q0 + i))) else accZero
  let pq := pr.map fun row => row.map (toOperand fmt)
  let (dv, c2) := product f g wideB nk a.d nq (fun i t => cell pq t i) (fun t j => dO (q0 + t) j) (cell st.dv) none
  let (dp, c3) := product f g wideB nq nk a.d (fun i t => dO (q0 + i) t) (fun t j => v (k0 + j) t) (fun _ _ => accZero) none
  let ds := dp.mapIdx fun i row => row.mapIdx fun j x => accMul (accMul sigma (cell pr i j)) (accSub x (dsum (q0 + i)))
  let dsq := ds.map fun row => row.map (toOperand fmt)
  let (dk, c4) := product f g wideB nk a.d nq (fun i t => cell dsq t i) (fun t j => q (q0 + t) j) (cell st.dk) hitK
  let (dqb, c5) := product f g wideB nq a.d nk (cell dsq) (fun t j => k (k0 + t) j) (fun _ _ => accZero) hitQ
  let dq := st.dq.mapIdx fun i row => if q0 ≤ i ∧ i < q0 + nq then row.mapIdx fun j x => accAdd x (cell dqb (i - q0) j) else row
  { dk := dk, dv := dv, dq := dq, chk := [c1, c2, c3, c4].foldl addLane st.chk,
    dqChk := assocSet st.dqChk (q0 / 64) (addLane ((assoc? st.dqChk (q0 / 64)).getD {}) c5),
    formed := [(pq, (upto nq).map fun t => (upto 64).map (dO (q0 + t))), (dsq, (upto nq).map fun t => (upto 64).map (q (q0 + t)))] }

/-- ATT_B, the whole task: key blocks first, then query tiles, each a unit (R114, 10 R255). A key block's unit carries the checks of S, dP,
Pᵀ · dO and dSᵀ · Q, a query tile's those of dS · K_b (log 149). D_r rounds each product and then the sum (DESIGN CHOICE, log 153). -/
def attBUnits (r : Rd) (q k v o l dO : OpSlot) (dq dk dv head : Nat) (causal : Bool) (g : Nat) (wideB : Bool) (qoff koff : Nat)
    (sigma : BitVec 32) (up : Upset) : List Unit_ :=
  let p := rdProg r
  let a : AttShape := ⟨rowsOf (tensorAt p q.tensor), rowsOf (tensorAt p k.tensor), 64 * head, causal, qoff, koff⟩
  let at_ (o : OpSlot) (i j : Nat) := rdElem r o (i * a.d + j)
  let sg := decFP32 sigma.toNat
  let f := tolOf r.s r.ctx dq
  let fmt := (tensorAt p q.tensor).format
  let dsums := (upto a.sq).map fun i => (upto a.d).foldl (fun x j => accAdd x (accMul (at_ dO i j) (at_ o i j))) accZero
  let lrow (i : Nat) := rdElem r l i
  let nkb := (a.sk + 63) / 64
  let nqt := (a.sq + 63) / 64
  let zeros (n : Nat) := List.replicate n (List.replicate a.d accZero)
  let live (b t : Nat) : Bool := blockLive a (64 * t) (min 64 (a.sq - 64 * t)) (64 * b) (min 64 (a.sk - 64 * b))
  -- an accumulator that an upset names is wrong as the unit's last product leaves it
  let hitK (b t : Nat) := if ((upto nqt).filter (live b)).getLast? = some t then upsetHit up b else none
  let hitQ (b t : Nat) := if ((upto nkb).filter fun b => live b t).getLast? = some b then upsetHit up (nkb + t) else none
  let out := (upto nkb).foldl (fun (acc : List Unit_ × List (List Acc) × List (Nat × LaneRes)) b =>
    let k0 := 64 * b
    let nk := min 64 (a.sk - k0)
    let st := ((upto nqt).filter (live b)).foldl (fun st t =>
      attBackPair f g wideB fmt sg a (at_ q) (at_ k) (at_ v) (at_ dO) (fun i => dsums.getD i accZero) lrow (64 * t) (min 64 (a.sq - 64 * t)) k0 nk
        (hitK b t) (hitQ b t) st) ⟨zeros nk, zeros nk, acc.2.1, {}, acc.2.2, []⟩
    let kt := stripTiles r dk k0 a.d st.dk (upsetFlip up b)
    let vt := stripTiles r dv k0 a.d st.dv none
    let (kw, kd, ke, km) := stripUnit kt
    let (vw, vd, ve, vm) := stripUnit vt
    let chk := addLane st.chk { laneFail := if upsetLane up b then 1 else 0 }
    let u : Unit_ := { unit := b, writes := kw ++ vw, digests := kd ++ vd, outs := [(dk, ke), (dv, ve)], maxima := [(dk, km), (dv, vm)],
                       dataFail := chk.dataFail, laneFail := chk.laneFail, specialAcc := chk.special, acc := st.dk.map (·.take 64),
                       blocks := st.formed }
    (acc.1 ++ [u], st.dq, st.dqChk)) ([], zeros a.sq, [])
  out.1 ++ (upto nqt).map fun t =>
    let rows := (out.2.1.drop (64 * t)).take 64
    let qt := stripTiles r dq (64 * t) a.d rows (upsetFlip up (nkb + t))
    let (qw, qd, qe, qm) := stripUnit qt
    let chk := addLane ((assoc? out.2.2 t).getD {}) { laneFail := if upsetLane up (nkb + t) then 1 else 0 }
    { unit := nkb + t, writes := qw, digests := qd, outs := [(dq, qe)], maxima := [(dq, qm)],
      dataFail := chk.dataFail, laneFail := chk.laneFail, specialAcc := chk.special }

end Sys2Proof.Machine
end

