-- ==== Sys2Proof/Machine/Vector.lean ====
section
/-! DEFINITION. The vector engine (06 R149 to R152), CONV_FMT (02 R50), AMAX (03 R77) and COPY (08 R210). -/

namespace Sys2Proof.Machine

/-- The elements of tile `t` of R81: a run of 4,096. -/
def runOf (n t : Nat) : List Nat := (upto (min 4096 (n - 4096 * t))).map (· + 4096 * t)

/-- The number of such tiles. -/
def runTiles (n : Nat) : Nat := (n + 4095) / 4096

/-- Values of a run as cells. -/
def runCells (t : Nat) (vs : List (Nat × Acc)) : List Cellv := vs.map fun p => ⟨p.1 - 4096 * t, p.1, p.2⟩

/-- Replaces the value at one position of a run where an upset hits the tile. -/
def upsetRun (up : Upset) (tile : Nat) (vs : List (Nat × Acc)) : List (Nat × Acc) :=
  match up with
  | .acc t r c bits => if t = tile then vs.map fun p => if p.1 = 4096 * tile + 64 * r + c then (p.1, decFP32 bits.toNat) else p else vs
  | _ => vs

/-- The reserved-exponent blocks of an operand as (tensor, block). -/
def resvOf (r : Rd) (o : OpSlot) (is : List Nat) : List (Nat × Nat) := (reservedBlocks r o is).map fun b => (o.tensor, b)

/-- One EW sub-operation on an element (R149). -/
def ewOp (sub : Nat) (k1 : Acc) (a b : Acc) : Acc :=
  match sub with
  | 0 => a
  | 1 => accAdd a b
  | 2 => accSub a b
  | 3 => accMul a b
  | 4 => accAdd (accMul a k1) b
  | 5 => accMax a b
  | 6 => accMin a b
  | 7 => accAbs a
  | 8 => accMul a a
  | 9 => accMax a accZero
  | 10 => sfuExp a
  | 11 => sfuLn a
  | 12 => sfuRsqrt a
  | 13 => sfuRecip a
  | 14 => sfuTanh a
  | 15 => accSigmoid a
  | 16 => accGeluTanh a
  | 17 => accGeluErf a
  | 18 => accSilu a
  | _ => a

/-- The stored words of a 16-element FP32 record. -/
def recordWords (r : Rd) (o : OpSlot) : List Nat := (upto 16).map fun i => if frozenGrad (rdProg r) o.tensor then 0 else (rdEnc r o.vsel o.tensor i).1

/-- The clip coefficient of R166: GCOEF before delivery, and SKIP. -/
def clipOf (q k1 k2 f2 : Acc) : Acc × Nat :=
  let q := match q with | .zero _ => accZero | x => x
  if accFinite q && !accNeg q then (accMul (accMin accOne (accMul k1 (sfuRecip (accAdd (sfuSqrt q) k2)))) f2, 0)
  else (accZero, 1)

/-- EW code 19: the parameter record (R166). -/
def clipUnit (r : Rd) (a : OpSlot) (out : Nat) (k1 k2 f2 : BitVec 32) (tmpl : OpSlot) (up : Upset) : Unit_ :=
  let e := tensorAt (rdProg r) out
  let (c, skip) := clipOf (rdElem r a 0) (decFP32 k1.toNat) (decFP32 k2.toNat) (decFP32 f2.toNat)
  let (w, ev) := encFP32 e.sr e.keep (drawFor r out 7 6) c
  let ws := (recordWords r tmpl).mapIdx fun i x => if i = 7 then w else if i = 8 then skip else x
  let ws := ws.mapIdx fun i x => flipAt (upsetFlip up 0) i x
  let o : TileOut := { writes := [⟨out, 0, ws.flatMap (toBytes 4)⟩], stream := stream4096 4 (ws.mapIdx fun i x => (i, x)),
                       hits := [⟨0, 7, ev, spKind c⟩], top := holdMax c }
  unitOf 0 out 0 o

/-- One output tile of EW (R149). -/
def ewUnit (r : Rd) (a b : OpSlot) (out sub bkind : Nat) (k1 k2 f2 : BitVec 32) (tmpl : OpSlot) (up : Upset) (tile : Nat) : Unit_ :=
  if sub = 19 then clipUnit r a out k1 k2 f2 tmpl up
  else
    let p := rdProg r
    let is := runOf (elems (tensorAt p a.tensor)) tile
    let cols := colsOf (tensorAt p a.tensor)
    let bAt (i : Nat) : Acc := match bkind with
      | 0 => rdElem r b i
      | 1 => rdElem r b (i % cols)
      | 2 => decFP32 k2.toNat
      | _ => accZero
    let vs := upsetRun up tile (is.map fun i => (i, ewOp sub (decFP32 k1.toNat) (rdElem r a i) (bAt i)))
    let u := unitOf tile out tile (deliver r out 6 (runCells tile vs) (upsetFlip up tile))
    { u with resv := resvOf r a is ++ (if bkind = 0 then resvOf r b is else if bkind = 1 then resvOf r b (is.map (· % cols)) else []) }

/-! ### Reductions (R150) -/

/-- The identity of a RED sub-operation. -/
def redId (sub : Nat) : Acc := if sub = 2 then .inf true else accZero

/-- The combination of a RED sub-operation. -/
def redOp (sub : Nat) (a b : Acc) : Acc := if sub = 2 ∨ sub = 3 then accMax a b else accAdd a b

/-- What a RED sub-operation takes of each element. DESIGN CHOICE, log 153: R150 writes no formula for the sum of squares; each square is
rounded before it is added, as R144 has a multiply-add that is written as two operations. -/
def redIn (sub : Nat) (x : Acc) : Acc := if sub = 1 then accMul x x else if sub = 3 then accAbs x else x

/-- Lane `l` of a row: its elements in increasing order, starting from the first. -/
def redLane (sub : Nat) (xs : List Acc) (l : Nat) : Acc :=
  match (xs.zipIdx.filter fun p => p.2 % 64 = l).map fun p => redIn sub p.1 with
  | [] => redId sub
  | x :: r => r.foldl (redOp sub) x

/-- A row reduced in the fixed order (R150). -/
def reduceRow (sub : Nat) (xs : List Acc) : Acc := tree64 (redOp sub) ((upto 64).map (redLane sub xs))

/-- A whole tensor reduced: tile by tile, then the tile results in increasing index (R150). -/
def reduceAll (sub : Nat) (xs : List Acc) : Acc :=
  match (chunksOf 4096 xs).map (reduceRow sub) with
  | [] => redId sub
  | x :: r => r.foldl (redOp sub) x

/-- One unit of RED: an output tile of row results, or the whole tensor (R150, 10 R255). -/
def redUnit (r : Rd) (src : OpSlot) (dst sub : Nat) (whole : Bool) (up : Upset) (tile : Nat) : Unit_ :=
  let e := tensorAt (rdProg r) src.tensor
  let cols := colsOf e
  let row (i : Nat) : List Nat := (upto cols).map (· + i * cols)
  if whole then
    let is := upto (elems e)
    let vs := upsetRun up 0 [(0, reduceAll sub (is.map (rdElem r src)))]
    { unitOf 0 dst 0 (deliver r dst 6 (runCells 0 vs) (upsetFlip up 0)) with resv := resvOf r src is }
  else
    let is := runOf (rowsOf e) tile
    let vs := upsetRun up tile (is.map fun i => (i, reduceRow sub ((row i).map (rdElem r src))))
    { unitOf tile dst tile (deliver r dst 6 (runCells tile vs) (upsetFlip up tile)) with resv := resvOf r src (is.flatMap row) }

/-- AMAX: the maximum of |x| over finite logical values, held as R71 states (R77, R152). -/
def amaxOf (r : Rd) (src : OpSlot) : Nat := maxOf ((upto (elems (tensorAt (rdProg r) src.tensor))).map (rdElem r src))

/-- The unit of AMAX: it writes nothing; its digest is taken over the held result (log 22). -/
def amaxUnit (r : Rd) (src : OpSlot) (up : Upset) : Unit_ × Nat :=
  let w := flipAt (upsetFlip up 0) 0 (amaxOf r src)
  let o : TileOut := { stream := stream4096 4 [(0, w)] }
  ({ unit := 0, digests := [tileDigest o {}], outs := [], maxima := [],
     resv := resvOf r src (upto (elems (tensorAt (rdProg r) src.tensor))) }, w)

/-! ### NORM and SMAX (R151, R152) -/

/-- What a row of NORM produces: the OUT row, its statistics, and its contributions to dγ and dβ. -/
structure NormRow where
  out : List Acc
  mu  : Acc
  rs  : Acc
  dg  : List Acc
  db  : List Acc
  deriving Repr, Inhabited

/-- mean: the R150 sum multiplied by recip(D) (R151). -/
def meanOf (xs : List Acc) : Acc := accMul (reduceRow 0 xs) (sfuRecip (accNat xs.length))

/-- One row of NORM (R151); the backward forms read the statistics row. -/
def normRow (sub : Nat) (eps : Acc) (x gamma beta dy : List Acc) (mu rs : Acc) : NormRow :=
  match sub with
  | 0 =>
    let m := meanOf x
    let c := x.map fun v => accSub v m
    let r := sfuRsqrt (accAdd (meanOf (c.map fun v => accMul v v)) eps)
    ⟨(c.zip (gamma.zip beta)).map fun p => accAdd (accMul (accMul p.1 r) p.2.1) p.2.2, m, r, [], []⟩
  | 1 =>
    let r := sfuRsqrt (accAdd (meanOf (x.map fun v => accMul v v)) eps)
    ⟨(x.zip gamma).map fun p => accMul (accMul p.1 r) p.2, accZero, r, [], []⟩
  | 2 =>
    let xh := x.map fun v => accMul (accSub v mu) rs
    let dh := (dy.zip gamma).map fun p => accMul p.1 p.2
    let m1 := meanOf dh
    let m2 := meanOf ((dh.zip xh).map fun p => accMul p.1 p.2)
    ⟨(dh.zip xh).map fun p => accMul rs (accSub (accSub p.1 m1) (accMul p.2 m2)), mu, rs, (dy.zip xh).map fun p => accMul p.1 p.2, dy⟩
  | _ =>
    let xh := x.map fun v => accMul v rs
    let dh := (dy.zip gamma).map fun p => accMul p.1 p.2
    let m2 := meanOf ((dh.zip xh).map fun p => accMul p.1 p.2)
    ⟨(dh.zip xh).map fun p => accMul rs (accSub p.1 (accMul p.2 m2)), mu, rs, (dy.zip xh).map fun p => accMul p.1 p.2, []⟩

/-- Column sums over rows in increasing order (R151). DESIGN CHOICE, log 154: the rule names the partials and the row order only; dγ sums
dy · x̂ and dβ sums dy, each column starting from its first row. -/
def colSums (rows : List (List Acc)) : List Acc :=
  match rows with
  | [] => []
  | x :: r => r.foldl (fun a b => (a.zip b).map fun p => accAdd p.1 p.2) x

/-- Delivers a whole tensor's values as its tiles of R81. -/
def deliverTiles (r : Rd) (t slot : Nat) (vs : List Acc) (up : Upset) : List (Nat × TileOut) :=
  (upto (runTiles vs.length)).map fun k =>
    let part := upsetRun up k ((vs.drop (4096 * k)).take 4096 |>.mapIdx fun i v => (4096 * k + i, v))
    (k, deliver r t slot (runCells k part) (upsetFlip up k))

/-- Units of a task delivered whole: one per tile of its first output; further outputs belong to unit 0 (log 23). -/
def unitsWith (t : Nat) (tiles : List (Nat × TileOut)) (others : List (Nat × List (Nat × TileOut))) : List Unit_ :=
  tiles.map fun x =>
    let u := unitOf x.1 t x.1 x.2
    if x.1 = 0 then others.foldl (fun u o =>
        let (w, d, e, m) := stripUnit o.2
        { u with writes := u.writes ++ w, digests := u.digests ++ d, outs := u.outs ++ [(o.1, e)], maxima := u.maxima ++ [(o.1, m)] }) u
    else u

/-- The reserved-exponent blocks that unit `k` of a task delivered whole decodes: elements of the rows that its run lies in, the vectors'
elements that those rows or the run take, and for unit 0, which has the further outputs, every row (02 R46, 10 R255; log 23). -/
def rowResv (r : Rd) (k n cols : Nat) (all wholeRows : Bool) (lines vecs : List OpSlot) : List (Nat × Nat) :=
  let run := runOf n k
  let rows := if all && k = 0 then upto (n / cols) else nub (run.map (· / cols))
  let is := rows.flatMap fun i => (upto cols).map (· + i * cols)
  let js := if wholeRows then upto cols else nub (run.map (· % cols))
  (lines.flatMap fun o => resvOf r o is) ++ vecs.flatMap fun o => resvOf r o js

/-- NORM, the whole task (R151). A statistics tensor has 2 · rows elements, μ of row i at 2 i and r at 2 i + 1. DESIGN CHOICE, log 155:
the rule gives (μ, r) in FP32 and no layout. -/
def normUnits (r : Rd) (x gamma beta stats dy : OpSlot) (out dgamma dbeta sub : Nat) (eps : BitVec 32) (up : Upset) : List Unit_ :=
  let e := tensorAt (rdProg r) x.tensor
  let cols := colsOf e
  let line (o : OpSlot) (i : Nat) := (upto cols).map fun j => rdElem r o (i * cols + j)
  let vec (o : OpSlot) := (upto cols).map fun j => rdElem r o j
  let g := vec gamma
  let b := if sub = 0 then vec beta else []
  let rows := (upto (rowsOf e)).map fun i =>
    normRow sub (decFP32 eps.toNat) (line x i) g b (if sub ≥ 2 then line dy i else [])
      (if sub ≥ 2 then rdElem r stats (2 * i) else accZero) (if sub ≥ 2 then rdElem r stats (2 * i + 1) else accZero)
  let main := deliverTiles r out 6 (rows.flatMap (·.out)) up
  let others :=
    if sub < 2 then [(stats.tensor, deliverTiles r stats.tensor 6 (rows.flatMap fun n => [n.mu, n.rs]) .none)]
    else (dgamma, deliverTiles r dgamma 6 (colSums (rows.map (·.dg))) .none) ::
      (if sub = 2 then [(dbeta, deliverTiles r dbeta 6 (colSums (rows.map (·.db))) .none)] else [])
  let lines := if sub ≥ 2 then [x, dy] else [x]
  let vecs := if sub = 0 then [gamma, beta] else [gamma]
  (unitsWith out main others).map fun u => { u with resv := rowResv r u.unit (elems e) cols true (decide (sub ≥ 2)) lines vecs }

/-- One row of SMAX forward (R152). -/
def smaxFwd (sigma : Acc) (x : List Acc) (live : Nat → Bool) : List Acc :=
  if (upto x.length).all fun j => !live j then x.map fun _ => accZero
  else
    let sx := x.mapIdx fun j v => if live j then accMul sigma v else .inf true
    let m := sx.foldl accMax (.inf true)
    let ex := sx.map fun v => sfuExp (accSub v m)
    let rl := sfuRecip (reduceRow 0 ex)
    ex.map fun v => accMul v rl

/-- One row of SMAX backward: dx = σ · p · (dp − Σ(dp · p)) (R152). DESIGN CHOICE, log 198: no rule says how the mask acts on the single
entries of a partly masked row; it only finds the rows with every entry masked, and a masked entry's p and dp enter as they stand. -/
def smaxBwd (sigma : Acc) (p dp : List Acc) (live : Nat → Bool) : List Acc :=
  if (upto p.length).all fun j => !live j then p.map fun _ => accZero
  else
    let s := reduceRow 0 ((dp.zip p).map fun q => accMul q.1 q.2)
    (p.zip dp).map fun q => accMul (accMul sigma q.1) (accSub q.2 s)

/-- SMAX, the whole task (R152). -/
def smaxUnits (r : Rd) (x dp : OpSlot) (out : Nat) (bwd : Bool) (sigma : BitVec 32) (causal : Bool) (qoff koff : Nat) (up : Upset) : List Unit_ :=
  let e := tensorAt (rdProg r) x.tensor
  let cols := colsOf e
  let line (o : OpSlot) (i : Nat) := (upto cols).map fun j => rdElem r o (i * cols + j)
  let live (i j : Nat) : Bool := !causal || decide (koff + j ≤ qoff + i)
  let vs := (upto (rowsOf e)).flatMap fun i =>
    if bwd then smaxBwd (decFP32 sigma.toNat) (line x i) (line dp i) (live i) else smaxFwd (decFP32 sigma.toNat) (line x i) (live i)
  (unitsWith out (deliverTiles r out 6 vs up) []).map fun u =>
    { u with resv := rowResv r u.unit (elems e) cols false false (if bwd then [x, dp] else [x]) [] }

/-- One output tile of CONV_FMT: decode, remove the scale, deliver with slot 5 (02 R50, R55). -/
def convUnit (r : Rd) (src : OpSlot) (dst : Nat) (up : Upset) (tile : Nat) : Unit_ :=
  let is := runOf (elems (tensorAt (rdProg r) src.tensor)) tile
  let vs := upsetRun up tile (is.map fun i => (i, rdElem r src i))
  { unitOf tile dst tile (deliver r dst 5 (runCells tile vs) (upsetFlip up tile)) with resv := resvOf r src is }

/-- COPY: every bit of the source's image, unchanged; no conversion, so no event and no running maximum (03 R70, 08 R210). -/
def copyWrites (r : Rd) (src : OpSlot) (dst : Nat) : List Wr :=
  let e := tensorAt (rdProg r) src.tensor
  let n := imageBytes e.format (elems e)
  if frozenGrad (rdProg r) src.tensor then [⟨dst, 0, List.replicate n 0⟩]
  else (upto ((n + 65535) / 65536)).map fun k =>
    ⟨dst, 65536 * k, (rdBytes r src.vsel src.tensor (65536 * k) (min 65536 (n - 65536 * k))).1⟩

end Sys2Proof.Machine
end

