-- ==== Sys2Proof/Machine/Optimizer.lean ====
section
/-! DEFINITION. The optimizer step (06 R156 to R163): one OPT tile of one execution. -/

namespace Sys2Proof.Machine

/-- STEP_REL(1) (07 R176). -/
abbrev selRel1 : Nat := 5

/-- The parameter record's stored words (R158). -/
structure OptRec where
  lr : Acc
  b1 : Acc
  b2 : Acc
  eps : Acc
  wd : Acc
  bc1 : Acc
  bc2 : Acc
  c : Acc
  skip : Nat
  fault : Bool
  deriving Repr, Inhabited

/-- The record as OPT reads it: words with no scale removed (R158). -/
def optRecord (r : Rd) (o : OpSlot) : OptRec :=
  let ws := recordWords r o
  let f (i : Nat) := decFP32 (ws.getD i 0)
  { lr := f 0, b1 := f 1, b2 := f 2, eps := f 3, wd := f 4, bc1 := f 5, bc2 := f 6, c := f 7, skip := ws.getD 8 0,
    fault := (ws.drop 9).any (· ≠ 0) }

/-- One element of the update: new w, m and v (R159). -/
def optElem (alg : Nat) (p : OptRec) (w m v grad : Acc) : Acc × Acc × Acc :=
  let g := accMul p.c grad
  match alg with
  | 0 =>
    let m1 := accAdd (accMul p.b1 m) (accMul (accSub accOne p.b1) g)
    let v1 := accAdd (accMul p.b2 v) (accMul (accSub accOne p.b2) (accMul g g))
    let u := accMul (accMul m1 p.bc1) (sfuRecip (accAdd (sfuSqrt (accMul v1 p.bc2)) p.eps))
    (accSub w (accMul p.lr (accAdd u (accMul p.wd w))), m1, v1)
  | 1 =>
    let m1 := accAdd (accMul p.b1 m) g
    (accSub w (accMul p.lr (accAdd m1 (accMul p.wd w))), m1, v)
  | _ =>
    let m1 := accAdd (accMul p.b1 m) g
    (accSub w (accMul p.lr (accAdd (accAdd g (accMul p.b1 m1)) (accMul p.wd w))), m1, v)

/-- The elements of OPT tile `t` of a range (R160). -/
def optRun (first count t : Nat) : List Nat := (upto (min 4096 (count - 4096 * t))).map (· + first + 4096 * t)

/-- The STEP_REL(1) encodings of a tile of one tensor: writes that copy them, and the digest stream (R158, R161). -/
def storedTile (r : Rd) (t base : Nat) (is : List Nat) : TileOut :=
  let e := tensorAt (rdProg r) t
  let b := elemBytes e.format
  let ws := is.map fun i => (i, rdEnc r selRel1 t i)
  let blocks := nub (is.map (· / 32))
  let exps := if isBlock e.format then blocks.map fun k => (k, ofBytes (rdBytes r selRel1 t (2 * elems e + k) 1).1) else []
  { writes := (ws.map fun w => ⟨t, b * w.1, toBytes b w.2.1⟩) ++ exps.map fun x => ⟨t, 2 * elems e + x.1, toBytes 1 x.2⟩
    stream := stream4096 b (ws.map fun w => (w.1 - base, w.2.1)) ++
      (if isBlock e.format then (upto 128).flatMap fun k => toBytes 1 ((assoc? exps (base / 32 + k)).getD 0) else []) }

/-- The stored value a delivered significand and exponent decode to, element by element (R159). -/
def deliveredMaster (fmt n : Nat) (o : TileOut) (i : Nat) : Acc :=
  let sig := (o.writes.find? fun w => decide (w.off ≤ 2 * i) && decide (2 * i + 2 ≤ w.off + w.bytes.length) && decide (w.off < 2 * n)).elim 0
    fun w => ofBytes ((w.bytes.drop (2 * i - w.off)).take 2)
  let x := (o.writes.find? fun w => decide (w.off = 2 * n + i / 32)).elim 0 fun w => ofBytes w.bytes
  decBlockElem (fmt = fmtMU16) x sig

/-- What one execution of one OPT tile forms, and whether the update was skipped or stopped by a record fault (R158 to R163). -/
def optUnit (r : Rd) (alg : Nat) (w m v grad rec : OpSlot) (work first count : Nat) (up : Upset) (tile : Nat) : Unit_ × Bool × Bool :=
  let p := rdProg r
  let pr := optRecord r rec
  let is := optRun first count tile
  let base := first + 4096 * tile
  let states := if alg = 0 then [w.tensor, m.tensor, v.tensor] else [w.tensor, m.tensor]
  let tensors := states ++ [work]
  let frozen := frozenOut p w.tensor
  let quiet (os : List TileOut) (write : Bool) : Unit_ :=
    { unit := tile, writes := if write then os.flatMap (·.writes) else [], digests := os.map fun o => tileDigest o {},
      outs := [], maxima := [] }
  if pr.fault then (quiet (tensors.map fun t => storedTile r t base is) false, false, true)
  else if pr.skip ≠ 0 then (quiet (tensors.map fun t => storedTile r t base is) (!frozen), !frozen, false)
  else
    let rel (o : OpSlot) : OpSlot := ⟨selRel1, o.tensor⟩
    let gAt (i : Nat) := if frozen then accZero else rdElem r grad i
    let vals := is.map fun i => (i, optElem alg pr (rdElem r (rel w) i) (rdElem r (rel m) i)
      (if alg = 0 then rdElem r (rel v) i else accZero) (gAt i))
    let cells (f : Acc × Acc × Acc → Acc) : List Cellv := vals.map fun x => ⟨x.1 - base, x.1, f x.2⟩
    let wCells := match up with
      | .acc t rr c bits => if t = tile then (cells (·.1)).map fun x => if x.pos = 64 * rr + c then { x with val := decFP32 bits.toNat } else x else cells (·.1)
      | _ => cells (·.1)
    let ow := deliver r w.tensor 1 wCells (upsetFlip up tile)
    let om := deliver r m.tensor 2 (cells (·.2.1)) none
    let ov := deliver r v.tensor 3 (cells (·.2.2)) none
    let tw := tensorAt p w.tensor
    let oo := deliver r work 4 (is.map fun i => ⟨i - base, i, deliveredMaster tw.format (elems tw) ow i⟩) none
    let outs := if alg = 0 then [ow, om, ov, oo] else [ow, om, oo]
    let tops := (tensors.zip outs).map fun x => (x.1, x.2.top)
    let resv := resvOf r (rel w) is ++ resvOf r (rel m) is ++ (if alg = 0 then resvOf r (rel v) is else [])
    -- a frozen weight: nothing written, no event, but running maxima as ever (R162, 03 R72)
    if frozen then ({ quiet outs false with maxima := tops, resv := resv }, false, false)
    else
      let evs := (tensors.zip outs).map fun x => (x.1, tileEvents tile x.2.hits)
      ({ unit := tile, writes := outs.flatMap (·.writes), digests := (outs.zip evs).map fun x => tileDigest x.1 x.2.2,
         outs := evs, maxima := tops, resv := resv }, false, false)

end Sys2Proof.Machine
end

