-- ==== Sys2Proof/Machine/Facts.lean ====
section
/-! DEFINITION. What a loaded program says of its tensors and tasks: output tensors, OPT state, derived and local persistent
tensors (13 R343), footprints and captured bytes. -/

namespace Sys2Proof.Machine

/-- The first output tensor of a task (10 R254), where it has one. -/
def firstOut (t : Task) : Option Nat :=
  match t.body with
  | .mat _ _ _ c _ _ _ _ _ _ _ => some c
  | .att bwd _ _ _ o _ _ dq _ _ _ _ _ _ _ _ _ => some (if bwd then dq else o.tensor)
  | .ew _ _ out _ _ _ _ _ _ => some out
  | .red _ dst _ _ => some dst
  | .norm _ _ _ _ _ out _ _ _ _ => some out
  | .smax _ _ out _ _ _ _ _ => some out
  | .opt _ w _ _ _ _ _ _ _ => some w.tensor
  | .conv _ dst => some dst
  | .amax _ dst => some dst
  | .copy _ dst => some dst
  | .coll kind _ _ _ dst _ => if kind = 3 || kind = 6 then none else some dst
  | .sig _ _ _ => none
  | .wait _ _ => none

/-- Tensors that OPT tasks write as W, M or V: the OPT state tensors (08 R201). -/
def optTensors (p : Program) : List Nat :=
  nub (p.tasks.flatMap fun t => match t.body with
    | .opt alg w m v _ _ _ _ _ => if alg = 0 then [w.tensor, m.tensor, v.tensor] else [w.tensor, m.tensor]
    | _ => [])

/-- Tensors that OPT tasks write as WORK. -/
def workTensors (p : Program) : List Nat :=
  nub (p.tasks.flatMap fun t => match t.body with
    | .opt _ _ _ _ _ _ work _ _ => [work]
    | _ => [])

/-- Derived tensors: every WORK tensor and every DST of an ALL_GATHER whose SRC is one (13 R343). -/
def derivedTensors (p : Program) : List Nat :=
  nub (workTensors p ++ p.tasks.flatMap fun t => match t.body with
    | .coll 2 _ _ src dst _ => if (workTensors p).contains src.tensor then [dst] else []
    | _ => [])

/-- PERSISTENT tensors of a program. -/
def persistents (p : Program) : List Nat := (upto p.tensors.length).filter fun t => (tensorAt p t).persist = clsPersistent

/-- Local persistent tensors (13 R343). -/
def localPersistents (p : Program) : List Nat :=
  (persistents p).filter fun t => !(optTensors p).contains t && !(derivedTensors p).contains t

/-- Bytes of a tensor's canonical image. -/
def tensorBytes (t : Tensor) : Nat := imageBytes t.format (elems t)

/-- Version tiles of a tensor (10 R247). -/
def tilesIn (t : Tensor) : Nat := (tensorBytes t + 65535) / 65536

/-- Is the tensor an output of a matrix or attention task, L among them, so that it has a tolerance exponent (04 R106, R107)? -/
def matrixWriter (p : Program) (t : Nat) : Bool := p.tasks.any fun k => match k.body with
  | .mat _ _ _ c _ _ _ _ _ _ _ => c = t
  | .att bwd _ _ _ o l _ dq dk dv _ _ _ _ _ _ _ => if bwd then dq = t || dk = t || dv = t else o.tensor = t || l.tensor = t
  | _ => false

/-- Loaded programs of contexts 0 to 14: context and program. -/
def jobPrograms (s : State) : List (Nat × Program) := (upto 15).filterMap fun c => ((ctxAt s c).prog).map fun p => (c, p)

/-- Loaded programs of every context: a diagnosis replay's too. -/
def loadedPrograms (s : State) : List (Nat × Program) := (upto 16).filterMap fun c => ((ctxAt s c).prog).map fun p => (c, p)

/-- Captured tensors of the module's own state: context, tensor, bytes, in order (13 R343, R351). -/
def capturedOwn (s : State) : List (Nat × Nat × Nat) :=
  (jobPrograms s).flatMap fun cp =>
    ((persistents cp.2).filter fun t => (optTensors cp.2).contains t || (localPersistents cp.2).contains t).map fun t =>
      (cp.1, t, tensorBytes (tensorAt cp.2 t))

/-- OPT state of the loaded programs: the mirror region has the same tensors (08 R201). -/
def capturedMirror (s : State) : List (Nat × Nat × Nat) :=
  (jobPrograms s).flatMap fun cp => (optTensors cp.2).map fun t => (cp.1, t, tensorBytes (tensorAt cp.2 t))

/-- Does some context 0 to 14 hold local persistent tensors (15 R422 code 4)? -/
def anyLocal (s : State) : Bool := (jobPrograms s).any fun cp => !(localPersistents cp.2).isEmpty

/-- Deepest STEP_REL selector some task applies to tensor `t`: 0, 1 or 2 (10 R247). -/
def slotsOf (b : Body) : List OpSlot :=
  match b with
  | .mat _ a b _ z _ _ _ _ _ _ => [a, b, z]
  | .att bwd q k v o l dO _ _ _ _ _ _ _ _ _ _ => if bwd then [q, k, v, o, l, dO] else [q, k, v]
  | .ew a b _ _ _ _ _ _ tmpl => [a, b, tmpl]
  | .red src _ _ _ => [src]
  | .norm x gamma beta stats dy _ _ _ _ _ => [x, gamma, beta, stats, dy]
  | .smax x dp _ _ _ _ _ _ => [x, dp]
  | .opt _ w m v grad rec _ _ _ => [w, m, v, grad, rec]
  | .conv src _ => [src]
  | .amax src _ => [src]
  | .copy src _ => [src]
  | .coll _ _ _ src _ _ => [src]
  | .sig _ _ _ => []
  | .wait _ _ => []

def depthOf (p : Program) (t : Nat) : Nat :=
  (p.tasks.flatMap fun k => slotsOf k.body).foldl (fun d o => if o.tensor = t then max d (if o.vsel = 6 then 2 else if o.vsel = 5 then 1 else 0) else d) 0

/-- Deepest STEP_REL selector applied to an INPUT tensor (10 R271). -/
def inputDepth (p : Program) : Nat :=
  (upto p.tensors.length).foldl (fun d t => if (tensorAt p t).persist = clsInput then max d (depthOf p t) else d) 0

/-- Retention depth D (10 R271). -/
def retainDepth (s : State) : Nat := max s.dict.latched.depth (2 + ((jobPrograms s).map fun cp => inputDepth cp.2).foldl max 0)

/-! ### Module-state records (13 R345) -/

/-- A module-state record. -/
def stateRec (step value kind c t : Nat) : BitVec 128 := BitVec.ofNat 128 (pack [(64, 64, step), (32, 32, value), (28, 4, kind), (24, 4, c), (0, 20, t)])

/-- Records that replace each other: equal but for VALUE. -/
def sameRec (a b : BitVec 128) : Bool := fld a.toNat 127 64 = fld b.toNat 127 64 && fld a.toNat 31 0 = fld b.toNat 31 0

/-- The tolerance record of a tensor. -/
def tolRec (c : Nat) (x : TState) : BitVec 128 := stateRec 0 (pack [(0, 5, x.tol), (5, 6, x.quiet)]) 1 c x.tensor

/-- Records of one tensor: histories by step, tolerance, tile scales. -/
def tensorRecs (s : State) (c : Nat) (p : Program) (x : TState) : List (BitVec 128) :=
  let e := tensorAt p x.tensor
  let hist := x.hist.reverse.map fun h => stateRec h.1 h.2.toNat 0 c x.tensor
  let tol := if matrixWriter p x.tensor then [tolRec c x] else []
  let tiles := if e.persist = clsPersistent && e.policy ≥ 2 then (upto (tilesIn e)).map fun k =>
      stateRec k (unsigned 8 ((copyOf s c x.tensor k .committed).elim (initScale e) (·.scale))) 2 c x.tensor
    else []
  hist ++ tol ++ tiles

/-- The module-state records of the committed state, in ascending order of context, tensor, kind, step. -/
def moduleRecs (s : State) : List (BitVec 128) :=
  (jobPrograms s).flatMap fun cp => (sortBy (fun a b => decide (a.tensor ≤ b.tensor)) (ctxAt s cp.1).tens).flatMap (tensorRecs s cp.1 cp.2)

/-- Records as the bytes of a piece. -/
def recBytes (rs : List (BitVec 128)) : List Byte := rs.flatMap fun r => toBytes 16 r.toNat

/-- The module-state piece. -/
def moduleState (s : State) : List Byte := recBytes (moduleRecs s)

/-- The records of a piece. -/
def recsOf (bs : List Byte) : List (BitVec 128) := (chunksOf 16 bs).map fun b => BitVec.ofNat 128 (ofBytes b)

/-- One tensor's state as records give it: histories, newest first, and tolerance; what has no record starts afresh (13 R365). -/
def tstateFrom (c : Nat) (tolInit : Nat) (rs : List (BitVec 128)) (t : Nat) : TState :=
  let mine (kind : Nat) := rs.filter fun r => fld r.toNat 27 24 = c && fld r.toNat 19 0 = t && fld r.toNat 31 28 = kind
  let hist := (mine 0).foldl (fun l r => (fld r.toNat 127 64, BitVec.ofNat 32 (fld r.toNat 63 32)) :: l) []
  match mine 1 with
  | [] => { tensor := t, hist := hist, tol := tolInit }
  | r :: _ => { tensor := t, hist := hist, tol := fld r.toNat 36 32, quiet := fld r.toNat 42 37 }

/-- The tile scale that records give a version tile, else the initial scale (13 R365). -/
def tileScale (c : Nat) (rs : List (BitVec 128)) (e : Tensor) (t k : Nat) : Int :=
  match rs.find? fun r => fld r.toNat 27 24 = c && fld r.toNat 19 0 = t && fld r.toNat 31 28 = 2 && fld r.toNat 127 64 = k with
  | some r => signed 8 (fld r.toNat 39 32)
  | none => initScale e

/-- The COLL ordinal of the task at `pos` among its program's COLL tasks (12 R324). -/
def isColl (t : Task) : Bool := match t.body with | .coll _ _ _ _ _ _ => true | _ => false
def collOrdinal (p : Program) (pos : Nat) : Nat := ((p.tasks.take pos).filter isColl).length

/-- The opcode's pattern class (14 R374). FP32-gathered matrix work has a gather count above 1. -/
def pclassOf (t : Task) : Nat :=
  match t.body with
  | .mat _ _ _ _ _ _ _ g _ _ _ => if g > 1 then 2 else 1
  | .att _ _ _ _ _ _ _ _ _ _ _ _ _ _ _ _ _ => 3
  | .opt _ _ _ _ _ _ _ _ _ => 5
  | .coll _ _ _ _ _ _ => 8
  | .copy _ _ => 6
  | .sig _ _ _ => 0
  | .wait _ _ => 0
  | .ew _ _ _ _ _ _ _ _ _ => 4
  | .red _ _ _ _ => 4
  | .norm _ _ _ _ _ _ _ _ _ _ => 4
  | .smax _ _ _ _ _ _ _ _ => 4
  | .conv _ _ => 4
  | .amax _ _ => 4

end Sys2Proof.Machine
end

