-- ==== Sys2Proof/Machine/Catalog.lean ====
section
/-! DEFINITION. The parameter dictionary's catalogue (20 R506 to R508, R514 and the entry tables of every chapter): each entry's
size, access class, default, reserved bits and range. -/

namespace Sys2Proof.Machine

/-- Access classes (R508). -/
inductive Access where
  | ro | rw | rwp | wo
  deriving DecidableEq, Repr, Inhabited

/-- A catalogue entry: bytes, access, default, mask of reserved bits, and range of an accepted value. -/
structure Ent where
  size : Nat
  acc  : Access
  dflt : Nat := 0
  resv : Nat := 0
  lo   : Nat := 0
  hi   : Nat
  deriving DecidableEq, Repr, Inhabited

/-- A read-only entry. -/
def roE (size : Nat) (dflt : Nat := 0) : Option Ent := some { size := size, acc := .ro, dflt := dflt, hi := 0 }

/-- A writable entry: class, size, default, reserved mask, range. -/
def wrE (acc : Access) (size dflt resv lo hi : Nat) : Option Ent :=
  some { size := size, acc := acc, dflt := dflt, resv := resv, lo := lo, hi := hi }

/-- A writable entry whose whole range is accepted. -/
def anyE (acc : Access) (size dflt resv : Nat) : Option Ent := wrE acc size dflt resv 0 (2 ^ (8 * size) - 1)

/-- An entry's key: index in bits 23:8, sub-index in bits 7:0. -/
def keyOf (index sub : Nat) : Nat := index * 256 + sub

/-- Area 0x1000: identity (R515). -/
def ent1000 : Nat → Option Ent
  | 1 => roE 12
  | 2 => roE 8
  | 3 => roE 8
  | 4 => roE 1
  | 5 => roE 6
  | 6 => roE 8
  | 7 => roE 32
  | 8 => roE 32
  | 9 => roE 2
  | _ => none

/-- 0x1100: versions (18 R487). -/
def ent1100 : Nat → Option Ent
  | 5 => anyE .rw 4 0 0
  | n => if 1 ≤ n ∧ n ≤ 4 then roE 4 else none

/-- 0x1200: ownership (19 R505). -/
def ent1200 : Nat → Option Ent
  | 1 => roE 1 0xFF
  | 2 => roE 1
  | 3 => roE 4
  | 4 => roE 2 0xFFFF
  | 5 => roE 4
  | 6 => roE 4
  | 7 => roE 4
  | 0x10 => wrE .rwp 1 0xFF 0 1 0xFF
  | _ => none

/-- 0x2000: state and commands (16 R435, R440; 19 R501; 20 R515 to R523). -/
def ent2000 : Nat → Option Ent
  | 1 => roE 1 1
  | 2 => anyE .wo 2 0 0xF800
  | 3 => roE 4
  | 4 => roE 8
  | 6 => roE 4
  | 7 => roE 1
  | 8 => roE 4
  | 0x0A => roE 4
  | 0x0B => anyE .wo 1 0 0xFE
  | 0x10 => anyE .rw 4 0x37FF6 0xFFFC0001
  | 0x11 => roE 4
  | n => if 0x20 ≤ n ∧ n ≤ 0x3F then roE 32 else none

/-- 0x2100: job and step control (10 R276; 15 R425; 02 R56; 07 R186 to R197; 19 R492). -/
def ent2100 : Nat → Option Ent
  | 0x02 => anyE .rw 8 1 0
  | 0x03 => roE 8
  | 0x04 => wrE .rw 4 8000 0 1000 60000
  | 0x05 => roE 4
  | 0x06 => wrE .rw 1 4 0 2 64
  | 0x07 => roE 4
  | 0x08 => anyE .rw 8 0 0
  | 0x09 => roE 4
  | 0x0C => roE 8
  | 0x0D => roE 8
  | 0x10 => anyE .wo 16 0 0xFFFFFFF0
  | 0x11 => roE 8
  | 0x30 => anyE .wo 4 0 0xFFFFFF00
  | 0x40 => anyE .rw 8 0 0
  | 0x41 => roE 8
  | 0x44 => anyE .rw 8 0 0
  | 0x45 => roE 8
  | 0x50 => anyE .rw 8 0 0
  | 0x51 => wrE .rw 4 0 0 0 0x40000000
  | 0x52 => wrE .rw 2 0 0 2 4096
  | 0x53 => roE 8
  | n => if 0x20 ≤ n ∧ n ≤ 0x2F then roE 4 else none

/-- 0x2200: result objects (19 R502). -/
def ent2200 (n : Nat) : Option Ent := if 1 ≤ n ∧ n ≤ 0x80 then roE 16 else none

/-- 0x3000: topology (11 R287, R290, R292, R297, R303, R312). -/
def ent3000 : Nat → Option Ent
  | 1 => anyE .rwp 8 0 0
  | 2 => anyE .rwp 4 0 0xFFFF8000
  | 3 => anyE .rwp 4 0x2108 0xFFFF8000
  | 4 => wrE .rwp 1 0 0 0 2
  | 5 => anyE .rwp 4 0x7FF0 0xFFFF8000
  | 6 => wrE .rwp 1 16 0 0 31
  | 7 => roE 2 0x0102
  | 8 => roE 4
  | 9 => roE 1
  | 0x0A => wrE .wo 1 0 0xC0 0 47
  | 0x0B => anyE .rw 4 0x3FF00000 0xC00003FF
  | n => if 0x0C ≤ n ∧ n ≤ 0x0F then roE 8 else none

/-- 0x3010 + n: link n (11 R300). -/
def entLink : Nat → Option Ent
  | 1 => roE 4
  | 2 => roE 32
  | 3 => roE 8
  | 4 => roE 8
  | 5 => roE 8
  | 6 => roE 8
  | 7 => roE 4
  | 8 => roE 4
  | _ => none

/-- 0x3400: barriers and sync objects (12 R340). -/
def ent3400 : Nat → Option Ent
  | 1 => roE 1
  | 6 => roE 8
  | 7 => roE 8
  | 8 => roE 4
  | 9 => roE 4
  | 0x10 => anyE .rw 2 0 0xE000
  | 0x11 => roE 16
  | n => if 2 ≤ n ∧ n ≤ 5 then roE 2 else if 0x20 ≤ n ∧ n ≤ 0x24 then roE 8 else if 0x40 ≤ n ∧ n ≤ 0x7F then roE 4 else none

/-- 0x4000: check level and numeric counters (10 R253, R259; 03 R85; 04 R107; 06 R165). -/
def ent4000 : Nat → Option Ent
  | 1 => wrE .rwp 1 2 0 0 7
  | 9 => roE 4
  | 0x0A => anyE .rw 4 0 0
  | 0x0B => roE 32
  | 0x0C => roE 4
  | 0x0D => anyE .wo 1 0 0xFE
  | 0x0E => wrE .rw 1 4 0 0 0xFF
  | 0x14 => roE 1
  | n => if (2 ≤ n ∧ n ≤ 8) ∨ (0x10 ≤ n ∧ n ≤ 0x1A) then roE 8 else none

/-- 0x4400: scaling (20 R515; 03 R87). -/
def ent4400 : Nat → Option Ent
  | 1 => wrE .rwp 1 16 0 1 32
  | 2 => wrE .rwp 1 1 0 0 8
  | 8 => anyE .rw 4 0 0xFF000000
  | 9 => roE 16
  | _ => none

/-- 0x5000: memory and placement (08 R214, R218; 01 R16; 09 R228, R230, R237). -/
def ent5000 : Nat → Option Ent
  | 1 => wrE .rw 1 1 0 0 1
  | 2 => wrE .rw 2 16 0 1 1024
  | 3 => wrE .rw 2 256 0 0 4096
  | 4 => roE 4
  | 5 => roE 8
  | 6 => roE 4
  | 7 => anyE .rw 4 0 0xFF000000
  | 8 => roE 16
  | 0x0A => anyE .rw 4 0 0xF8000000
  | 0x0B => roE 32
  | 0x30 => roE 4
  | 0x40 => anyE .rw 8 0x00320C80640961F4 0xF000000000000000
  | 0x54 => roE 4
  | 0x55 => roE 16
  | 0x56 => roE 4
  | 0x57 => roE 4
  | n => if 0x10 ≤ n ∧ n ≤ 0x17 then roE 4 0x0080FFFF else if 0x18 ≤ n ∧ n ≤ 0x1F then roE 16
    else if (0x21 ≤ n ∧ n ≤ 0x24) ∨ (0x48 ≤ n ∧ n ≤ 0x4F) ∨ (0x50 ≤ n ∧ n ≤ 0x53) then roE 8 else none

/-- 0x5400: versions and the Lehr reserve (10 R252). -/
def ent5400 : Nat → Option Ent
  | 1 => wrE .rwp 2 125 0 0 4000
  | 7 => roE 8
  | 8 => roE 8
  | 9 => roE 8
  | 0x0A => roE 4
  | n => if 2 ≤ n ∧ n ≤ 6 then roE 4 else none

/-- 0x6000: checkpoints (13 R371). -/
def ent6000 : Nat → Option Ent
  | 1 => wrE .rwp 1 1 0 0 1
  | 2 => roE 4
  | 3 => wrE .rwp 4 50 0 1 1000000
  | 4 => wrE .rwp 4 5000 0 1 1000000
  | 5 => wrE .rwp 1 1 0 0 3
  | 6 => wrE .rwp 1 8 0 1 40
  | 0x0A => anyE .wo 1 0 0xFE
  | 0x10 => wrE .rw 1 0 0 0 17
  | 0x11 => roE 16
  | 0x12 => anyE .wo 8 0 0
  | 0x13 => anyE .wo 1 0 0
  | 0x18 => anyE .wo 16 0 (0xFFFFFFFFFF000000 + 0xFFE0)
  | 0x19 => roE 8
  | 0x1A => anyE .wo 16 0 (0xFFFFFFFFFF000000 + 0xFFE0)
  | 0x1B => roE 8
  | n => if (7 ≤ n ∧ n ≤ 9) ∨ (0x0B ≤ n ∧ n ≤ 0x0E) then roE 8
    else if 0x20 ≤ n ∧ n ≤ 0x27 then anyE .rwp 16 0 0xFFFFFFFE else none

/-- 0x7000: power (17 R461; 01 R35). -/
def ent7000 : Nat → Option Ent
  | 1 => wrE .rwp 2 3200 0 2300 3600
  | 2 => anyE .rw 4 0 0
  | 3 => roE 4
  | 4 => wrE .rwp 2 2400 0 2300 3600
  | 5 => wrE .rwp 2 3000 0 2400 3200
  | 6 => wrE .rwp 1 1 0 0 1
  | 7 => wrE .rw 1 64 0 16 64
  | 0x10 => roE 8
  | 0x11 => roE 4
  | 0x12 => roE 4
  | 0x13 => roE 2
  | 0x14 => roE 4 0x01404000
  | 0x15 => roE 4
  | 0x16 => roE 2
  | 0x17 => roE 8
  | 0x18 => roE 8
  | 0x19 => roE 4
  | 0x1A => roE 4
  | 0x30 => wrE .rw 1 0 0 0 43
  | 0x31 => roE 8
  | _ => none

/-- 0x7400: sensors (17 R461; 09 R240). -/
def ent7400 : Nat → Option Ent
  | 0x20 => wrE .rw 1 0 0 0 135
  | 0x21 => roE 16
  | n => if (0x10 ≤ n ∧ n ≤ 0x1A) ∨ (0x40 ≤ n ∧ n ≤ 0x5F) then roE 4 else none

/-- 0x8000: ledger and tests (14 R397). -/
def ent8000 : Nat → Option Ent
  | 1 => roE 4
  | 2 => roE 4
  | 3 => anyE .rw 4 0 0
  | 4 => roE 64
  | 5 => roE 32
  | 6 => roE 8
  | 7 => roE 4
  | 8 => anyE .rw 8 0 0xFFFFFF0000000000
  | 9 => roE 16
  | 0x0A => roE 4 0xFF
  | 0x0B => roE 4
  | 0x0C => roE 4
  | 0x10 => wrE .rwp 1 1 0 0 1
  | 0x11 => wrE .rwp 4 50 0 5 60000
  | 0x12 => roE 8
  | 0x13 => roE 8
  | 0x20 => anyE .wo 1 0 0xFC
  | 0x21 => anyE .rwp 4 0xFE 0xFFFFFF00
  | 0x22 => roE 4
  | 0x23 => roE 4
  | 0x24 => roE 4
  | 0x25 => wrE .rwp 1 1 0 0 1
  | 0x26 => wrE .rwp 4 21600 0 600 604800
  | 0x27 => roE 4
  | _ => none

/-- 0x8400: recovery and escalation (15 R425). -/
def ent8400 : Nat → Option Ent
  | 1 => wrE .rwp 1 3 0 2 16
  | 2 => wrE .rwp 4 600 0 60 86400
  | 3 => wrE .rwp 1 2 0 1 8
  | 4 => wrE .rwp 4 3600 0 60 604800
  | 5 => roE 4
  | 6 => roE 4
  | 7 => roE 1
  | 8 => wrE .rw 1 0 0 0 63
  | 9 => roE 16
  | 0x0A => roE 1 31
  | 0x0B => roE 4
  | 0x0C => roE 4
  | 0x0D => roE 4
  | 0x0E => anyE .wo 4 0 0xFFFF8000
  | 0x0F => anyE .wo 1 0 0xFE
  | _ => none

/-- 0x9000, 0x9100, 0x9200: firmware (18 R487). -/
def ent9000 : Nat → Option Ent
  | 1 => anyE .wo 32 0 (2 ^ 160 - 2 ^ 8)
  | 2 => roE 8
  | 3 => roE 4
  | 4 => anyE .wo 1 0 0xF1
  | 5 => wrE .rwp 1 1 0 0 3
  | 6 => roE 4
  | 7 => roE 4
  | 0x0A => anyE .wo 1 0 0xE0
  | 0x0B => roE 4
  | 0x0C => roE 12
  | _ => none

def ent9100 : Nat → Option Ent
  | 1 => roE 4
  | 2 => anyE .rw 4 0 0
  | 3 => roE 32
  | 4 => wrE .rw 1 2 0 0 7
  | 5 => roE 8
  | 6 => roE 8
  | 0x10 => roE 4
  | 0x11 => anyE .rw 4 0 0
  | 0x12 => roE 32
  | 0x13 => roE 4
  | 0x20 => roE 4
  | 0x21 => anyE .rw 1 0 0x78
  | 0x22 => roE 32
  | 0x23 => anyE .wo 16 0 (2 ^ 64 - 2 ^ 8 + 0x78)
  | 0x24 => roE 4
  | _ => none

def ent9200 (n : Nat) : Option Ent := if 1 ≤ n ∧ n ≤ 8 then anyE .rw 4 0 0 else none

/-- 0xA000: security (21 R531, R532, R537, R542 to R544). -/
def entA000 : Nat → Option Ent
  | 1 => roE 4
  | 2 => wrE .rw 1 0 0 0 7
  | 3 => roE 32
  | 4 => roE 4
  | 5 => roE 4
  | 0x10 => wrE .rw 4 0 0 0 0x02FFFFFF
  | 0x11 => roE 64
  | 0x12 => roE 12
  | 0x20 => anyE .wo 32 0 0
  | 0x21 => roE 4
  | 0x22 => wrE .rw 2 0 0 0 28
  | 0x23 => roE 64
  | 0x24 => anyE .wo 8 0 0
  | 0x30 => roE 8
  | 0x48 => anyE .wo 16 0 (2 ^ 64 - 2 ^ 9)
  | 0x49 => wrE .wo 1 0 0 0 7
  | 0x50 => anyE .wo 16 0 (2 ^ 64 - 2 ^ 32)
  | 0x51 => roE 8
  | 0x52 => roE 8
  | n => if 0x40 ≤ n ∧ n ≤ 0x47 then roE 40 else none

/-- 0xB000: blinkers (21 R539, R541, R544). -/
def entB000 : Nat → Option Ent
  | 1 => anyE .rw 4 0 0xFFFFFFFE
  | 2 => roE 8
  | 3 => roE 16
  | n => if 0x10 ≤ n ∧ n ≤ 0x1F then anyE .rwp 32 0 (2 ^ 96 - 2 ^ 4) else none

/-- 0xC000: production test (22 R558). -/
def entC000 : Nat → Option Ent
  | 1 => roE 4
  | 2 => roE 8
  | 0x10 => anyE .wo 24 0 (2 ^ 64 - 2 ^ 32)
  | 0x11 => anyE .wo 1 0 0xFE
  | 0x12 => anyE .wo 16 0 (2 ^ 64 - 2 ^ 8)
  | _ => none

/-- The listed entry at an index and sub-index (R514). -/
def listed (index sub : Nat) : Option Ent :=
  match index with
  | 0x1000 => ent1000 sub
  | 0x1100 => ent1100 sub
  | 0x1200 => ent1200 sub
  | 0x2000 => ent2000 sub
  | 0x2100 => ent2100 sub
  | 0x2200 => ent2200 sub
  | 0x3000 => ent3000 sub
  | 0x3400 => ent3400 sub
  | 0x4000 => ent4000 sub
  | 0x4400 => ent4400 sub
  | 0x5000 => ent5000 sub
  | 0x5400 => ent5400 sub
  | 0x6000 => ent6000 sub
  | 0x7000 => ent7000 sub
  | 0x7400 => ent7400 sub
  | 0x8000 => ent8000 sub
  | 0x8400 => ent8400 sub
  | 0x9000 => ent9000 sub
  | 0x9100 => ent9100 sub
  | 0x9200 => ent9200 sub
  | 0xA000 => entA000 sub
  | 0xB000 => entB000 sub
  | 0xC000 => entC000 sub
  | n => if 0x3010 ≤ n ∧ n ≤ 0x303F then entLink sub else none

/-- Sub-index 0: a U8 RO entry with the highest sub-index of an implemented index (R506). -/
def highestSub (index : Nat) : Nat := (upto 256).foldl (fun m i => if (listed index i).isSome then i else m) 0

/-- The entry at an index and sub-index; none where it is not implemented (R506, R514). -/
def entryOf (index sub : Nat) : Option Ent :=
  if sub = 0 then (if highestSub index = 0 then none else roE 1 (highestSub index)) else listed index sub

/-- The default of an entry by key. -/
def dfltOf (key : Nat) : Nat := ((entryOf (key / 256) (key % 256)).map (·.dflt)).getD 0

/-- An RW or RWP entry's value in force: the listed one, else its default (R508). -/
def dictVal (d : Dict) (key : Nat) : Nat := (assoc? d.vals key).getD (dfltOf key)

/-- Sets an association in key order, dropping it when it equals the default. -/
def setVal (l : List (Nat × Nat)) (key v dflt : Nat) : List (Nat × Nat) :=
  match l with
  | [] => if v = dflt then [] else [(key, v)]
  | (k, w) :: r =>
    if key < k then (if v = dflt then (k, w) :: r else (key, v) :: (k, w) :: r)
    else if key = k then (if v = dflt then r else (key, v) :: r)
    else (k, w) :: setVal r key v dflt

/-- Is the listed form canonical: keys rising? -/
def valsWf : List (Nat × Nat) → Bool
  | [] => true
  | (k, _) :: r => (match r with | [] => true | (k', _) :: _ => decide (k < k')) && valsWf r

/-- Is the entry persisted (R508 RWP)? -/
def isRwp (key : Nat) : Bool := ((entryOf (key / 256) (key % 256)).map fun e => decide (e.acc = .rwp)).getD false

end Sys2Proof.Machine
end

