-- ==== Sys2Proof/Machine/Topology.lean ====
section
/-! DEFINITION. Coordinates, the job block, bundles, routing and tandem partners (chapter 11, 12 R313, 15 R408, R417). -/

namespace Sys2Proof.Machine

/-! ### Coordinates (R290: bits 14:10 z, 9:5 y, 4:0 x) -/

/-- The three coordinates of a packed word, by axis 0 X, 1 Y, 2 Z. -/
def coordOn (c axis : Nat) : Nat := (c >>> (5 * axis)) % 32

/-- A packed coordinate word. -/
def coordOf (x y z : Nat) : Nat := z * 1024 + y * 32 + x

/-- A packed word with one axis replaced. -/
def coordSet (c axis v : Nat) : Nat := c - coordOn c axis * 32 ^ axis + v * 32 ^ axis

/-- Size of an axis of the latched machine shape. -/
def sizeOn (s : State) (axis : Nat) : Nat := coordOn s.dict.latched.shape axis + 1

/-- The module's own coordinates. -/
def ownCoord (s : State) : Nat := s.dict.latched.coords

/-- Direction codes 0 to 5 (R288). -/
def dirCode : Dir → Nat
  | .xp => 0
  | .xm => 1
  | .yp => 2
  | .ym => 3
  | .zp => 4
  | .zm => 5

/-- The direction of a code. -/
def dirOf : Nat → Dir
  | 0 => .xp
  | 1 => .xm
  | 2 => .yp
  | 3 => .ym
  | 4 => .zp
  | _ => .zm

/-- All directions in code order. -/
def allDirs : List Dir := [.xp, .xm, .yp, .ym, .zp, .zm]

/-- The opposite direction. -/
def opposite : Dir → Dir
  | .xp => .xm
  | .xm => .xp
  | .yp => .ym
  | .ym => .yp
  | .zp => .zm
  | .zm => .zp

/-- The axis of a direction and whether it is the + one. -/
def axisOf (d : Dir) : Nat := dirCode d / 2
def isPlus (d : Dir) : Bool := dirCode d % 2 = 0

/-- One step from `c` in direction `d`, modulo the shape (R295). -/
def stepCoord (s : State) (c : Nat) (d : Dir) : Nat :=
  let a := axisOf d
  let n := sizeOn s a
  coordSet c a (if isPlus d then (coordOn c a + 1) % n else (coordOn c a + n - 1) % n)

/-! ### The job block (R292, 10 R275) -/

/-- The block in force: the replay block while a diagnosis replay runs (10 R275). -/
def blockNow (s : State) : Nat := if s.steps.replayActive then s.dict.latched.replayBlock else s.dict.latched.block

/-- First position and extent of the block on an axis. -/
def blockOrg (s : State) (axis : Nat) : Nat := if axis = 0 then 0 else fld (blockNow s) (9 + 5 * axis) (5 + 5 * axis)
def blockLen (s : State) (axis : Nat) : Nat := if axis = 0 then sizeOn s 0 else fld (blockNow s) (19 + 5 * axis) (15 + 5 * axis) + 1

/-- Position of a coordinate within the block along an axis. -/
def blockPos (s : State) (c axis : Nat) : Nat := (coordOn c axis + sizeOn s axis - blockOrg s axis) % sizeOn s axis

/-- Does the block hold the position (R292)? -/
def inBlock (s : State) (c : Nat) : Bool :=
  decide (coordOn c 0 < sizeOn s 0) && [1, 2].all fun a => decide (coordOn c a < sizeOn s a) && decide (blockPos s c a < blockLen s a)

/-- Is the axis a ring of the block (R292)? The default block on a smaller shape is not clipped (log 221). -/
def isRing (s : State) (axis : Nat) : Bool := blockLen s axis = sizeOn s axis

/-- Does the step from `c` in direction `d` stay inside the block: never over the end of a line? -/
def stepInBlock (s : State) (c : Nat) (d : Dir) : Bool :=
  let a := axisOf d
  inBlock s (stepCoord s c d) && (isRing s a || (if isPlus d then decide (blockPos s c a + 1 < blockLen s a) else decide (blockPos s c a > 0)))

/-! ### Bundles (R287, R288) -/

/-- Links in each direction of an axis under a ratio word. -/
def ratioCount (ratio axis : Nat) : Nat := coordOn ratio axis

/-- The list S of R288: direction codes in order. -/
def bundleList (ratio : Nat) : List Nat := (upto 6).flatMap fun d => List.replicate (ratioCount ratio (d / 2)) d

/-- The link of entry i of S, and the entry of a link. -/
def linkOfEntry (i : Nat) : Nat := 6 * (i % 8) + i / 8
def entryOfLink (l : Nat) : Nat := l / 6 + 8 * (l % 6)

/-- The direction and bundle index R288 assigns to link `l`. -/
def assigned (ratio l : Nat) : Dir × Nat :=
  let i := entryOfLink l
  let d := (bundleList ratio).getD i 0
  (dirOf d, i - ((bundleList ratio).takeWhile (· ≠ d)).length)

/-- Link `l`. -/
def linkAt (s : State) (l : Nat) : Link := nth s.links l {}

/-- Is a link in service: UP in some bundle? -/
def inService (k : Link) : Bool := decide (k.state = .up)

/-- The in-service links of a direction, in index order. -/
def dirLinks (s : State) (d : Dir) : List Nat :=
  let ls := (upto 48).filter fun l => inService (linkAt s l) && decide ((linkAt s l).dir = some d)
  sortBy (fun a b => decide ((linkAt s a).index ≤ (linkAt s b).index)) ls

/-- All in-service links. -/
def upLinks (s : State) : List Nat := (upto 48).filter fun l => inService (linkAt s l)

/-- The direction a link serves, or was assigned. -/
def linkDir (s : State) (l : Nat) : Dir := ((linkAt s l).dir).getD (assigned s.dict.latched.ratio l).1

/-! ### Discovery records (R294) -/

def recMagic (r : BitVec 256) : Nat := fld r.toNat 255 240
def recMaj (r : BitVec 256) : Nat := fld r.toNat 239 232
/-- PMIN: the far end's minor version; a link runs the lower of the two (R298). -/
def recMin (r : BitVec 256) : Nat := fld r.toNat 231 224
def recMachine (r : BitVec 256) : Nat := fld r.toNat 223 160
def recSerial (r : BitVec 256) : Nat := fld r.toNat 159 96
def recShape (r : BitVec 256) : Nat := fld r.toNat 95 81
def recCoord (r : BitVec 256) : Nat := fld r.toNat 80 66
def recRatio (r : BitVec 256) : Nat := fld r.toNat 65 51
def recSpare (r : BitVec 256) : Nat := fld r.toNat 50 46
def recDir (r : BitVec 256) : Nat := fld r.toNat 45 43
def recIndex (r : BitVec 256) : Nat := fld r.toNat 42 38
def recState (r : BitVec 256) : Nat := fld r.toNat 37 35

/-- The CRC of a record: over bits 255:32, most significant byte first of the wire order of R6 (bytes 4 to 31, lowest first). -/
def recCrc (r : BitVec 256) : BitVec 32 := crc32 ((toBytes 32 r.toNat).drop 4)

/-- Does the record pass its CRC? -/
def recOkCrc (r : BitVec 256) : Bool := recCrc r = BitVec.ofNat 32 (fld r.toNat 31 0)

/-! ### The fence set and blocked positions (R309, 15 R412) -/

def fenceSerial (r : BitVec 128) : Nat := fld r.toNat 127 64
def fenceCoord (r : BitVec 128) : Nat := fld r.toNat 63 49
def fenceFrom (r : BitVec 128) : Nat := fld r.toNat 48 34
def fenceReason (r : BitVec 128) : Nat := fld r.toNat 33 30

/-- Records with equal SERIAL and FCOORD are one fence (R412). -/
def sameFence (a b : BitVec 128) : Bool := fenceSerial a = fenceSerial b && fenceCoord a = fenceCoord b

/-- The slot of a record (R410). -/
def slotOf (r : BitVec 128) : Nat := (coordOn (fenceCoord r) 0 + coordOn (fenceCoord r) 1 + coordOn (fenceCoord r) 2) % 6

/-- Does the fence set name the position? -/
def fencedAt (s : State) (c : Nat) : Bool := s.recov.set.any fun r => fenceCoord r = c

/-- What is known of the neighbour in a direction. -/
def sideOf (s : State) (d : Dir) : Side := nth s.topo.sides (dirCode d) {}

/-- Is the next module in direction `d` blocked (R309)? -/
def blockedDir (s : State) (d : Dir) : Bool :=
  fencedAt s (stepCoord s (ownCoord s) d) || decide ((sideOf s d).nbState = some .boot) ||
    decide ((sideOf s d).nbState = some .outOfService) || (dirLinks s d).isEmpty

/-! ### Logical positions (R291, 12 R313, 15 R417) -/

/-- The spare X position latched. -/
def sparePos (s : State) : Nat := s.dict.latched.sparePos

/-- Logical extent of an axis (12 R313). -/
def logExtent (s : State) (axis : Nat) : Nat :=
  if axis = 0 then (if sparePos s = 31 then sizeOn s 0 else sizeOn s 0 - 1) else blockLen s axis

/-- The physical x of logical X `l` in a ring with remap `r` (R417). -/
def physX (s : State) (r l : Nat) : Nat :=
  if sparePos s = 31 then l else if l = r then sparePos s else if l < sparePos s then l else l + 1

/-- The logical X of physical x in a ring with remap `r`: none for a remount module that stands by. -/
def logX (s : State) (r x : Nat) : Option Nat :=
  if sparePos s = 31 then some x
  else if x = sparePos s then (if r = 31 then none else some r)
  else some (if x < sparePos s then x else x - 1)

/-- Ring remap of the X ring through `c`, from a fence set alone (R417): 31 none, `none` job lost. -/
def ringRemap (s : State) (set : List (BitVec 128)) (c : Nat) : Option Nat :=
  let names := nub ((set.filter fun r => coordOn (fenceCoord r) 1 = coordOn c 1 && coordOn (fenceCoord r) 2 = coordOn c 2).map fun r =>
    coordOn (fenceCoord r) 0)
  match names with
  | [] => some 31
  | [x] => if sparePos s = 31 then none else if x = sparePos s then some 31 else some (if x < sparePos s then x else x - 1)
  | _ => none

/-- The logical position of this module along an axis (12 R313). -/
def ownLog (s : State) (axis : Nat) : Nat :=
  if axis = 0 then (logX s s.recov.remap (coordOn (ownCoord s) 0)).getD 0 else blockPos s (ownCoord s) axis

/-- The partner axis of the job (R408): Z, else Y, else X. -/
def partnerAxis (s : State) : Nat := if blockLen s 2 > 1 then 2 else if blockLen s 1 > 1 then 1 else 0

/-- The physical position that a fence set puts at a logical one (15 R417). -/
def physIn (s : State) (set : List (BitVec 128)) (lx ly lz : Nat) : Nat :=
  let y := (ly + blockOrg s 1) % sizeOn s 1
  let z := (lz + blockOrg s 2) % sizeOn s 2
  let r := (ringRemap s set (coordOf 0 y z)).getD 31
  coordOf (physX s r lx) y z

/-- The physical position at logical coordinates, with this ring's or another ring's remap. -/
def physAt (s : State) (lx ly lz : Nat) : Nat := physIn s s.recov.set lx ly lz

/-- The physical position a logical step along the partner axis (R408); `fwd` for the partner, else the mirrored module. -/
def pairAt (s : State) (fwd : Bool) : Nat :=
  let a := partnerAxis s
  let n := logExtent s a
  let mv (k : Nat) : Nat := if k = a then (if fwd then (ownLog s k + 1) % n else (ownLog s k + n - 1) % n) else ownLog s k
  physAt s (mv 0) (mv 1) (mv 2)

/-- Does the job have mirrors at all (R408)? -/
def hasMirror (s : State) : Bool := decide (logExtent s (partnerAxis s) > 1)

/-! ### Routing (R306, R310) -/

/-- The direction dimension-order routing takes from `here` to `dest`; none at the destination. -/
def routeDir (s : State) (here dest : Nat) : Option Dir :=
  match (upto 3).find? fun a => coordOn here a ≠ coordOn dest a with
  | none => none
  | some a =>
    let n := sizeOn s a
    let up := (coordOn dest a + n - coordOn here a) % n
    let plus := if isRing s a then decide (2 * up ≤ n) else decide (blockPos s here a < blockPos s dest a)
    some (dirOf (2 * a + if plus then 0 else 1))

/-- The four directions on the other axes, in code order (R310). -/
def perps (d : Dir) : List Dir := allDirs.filter fun p => axisOf p ≠ axisOf d

/-- detour of R310: the perpendicular direction taken, or none. A neighbour that is blocked is no hop of it (R308, R309). -/
def detourDir (s : State) (flow : Nat) (d : Dir) : Option Dir :=
  let here := ownCoord s
  let rot := (perps d).drop (flow % 4) ++ (perps d).take (flow % 4)
  rot.find? fun p =>
    let n0 := stepCoord s here p
    let n1 := stepCoord s n0 d
    let n2 := stepCoord s n1 d
    !blockedDir s p && stepInBlock s here p && stepInBlock s n0 d && stepInBlock s n1 d && !fencedAt s n0 && !fencedAt s n1 && !fencedAt s n2

/-- The link of a bundle that a flit takes (R306): a fixed hash over the in-service links; the hash is the device's own (log 4). -/
def pickLink (s : State) (d : Dir) (src dest flow : Nat) : Option Nat :=
  let ls := dirLinks s d
  ls[Config.linkHash src dest flow % ls.length]?

/-- Does the step cross the dateline of its ring (R307)? -/
def dateline (s : State) (here : Nat) (d : Dir) : Bool :=
  let a := axisOf d
  isRing s a && (if isPlus d then decide (coordOn here a + 1 = sizeOn s a) else decide (coordOn here a = 0))

/-- Has a flit from `src` crossed the dateline of the axis of `d` once it has made the hop in `d`, the way it goes on that axis? It
entered the axis at the coordinate of its source, and a shorter way never passes its start again (R306, R307). -/
def pastDateline (s : State) (here src : Nat) (d : Dir) : Bool :=
  let a := axisOf d
  let n := coordOn (stepCoord s here d) a
  isRing s a && (if isPlus d then decide (n < coordOn src a) else decide (n > coordOn src a))

/-- The next-hop directions of a hop round a blocked position lie in the block (12 R332): the bridge for a frame in direction `d`. -/
def forwards (st : DevState) : Bool :=
  match st with
  | .boot => false
  | .outOfService => false
  | .ready => true
  | .joined => true
  | .spare => true
  | .recovery => true
  | .test => true

end Sys2Proof.Machine
end

