-- ==== Sys2Proof/Machine/Groups.lean ====
section
/-! DEFINITION. Groups and ranks, the ring order of a reduction, and the flits of a collective (12 R313 to R325). -/

namespace Sys2Proof.Machine

/-! ### Groups (12 R313 to R316) -/

/-- Members and spacing of a group on an axis. -/
def lenOn (g : Group) (a : Nat) : Nat := g.len.getD a 1
def strideOn (g : Group) (a : Nat) : Nat := g.stride.getD a 1

/-- Group size (R315). -/
def groupSize (g : Group) : Nat := lenOn g 0 * lenOn g 1 * lenOn g 2

/-- The module's index along an axis (R315). -/
def ownIndex (s : State) (g : Group) (a : Nat) : Nat := ownLog s a / strideOn g a % lenOn g a

/-- Rank of an index triple (R315). -/
def rankOf3 (g : Group) (x y z : Nat) : Nat := x + lenOn g 0 * (y + lenOn g 1 * z)

/-- The module's rank. -/
def ownRank (s : State) (g : Group) : Nat := rankOf3 g (ownIndex s g 0) (ownIndex s g 1) (ownIndex s g 2)

/-- The key of a landing header: every field but FLIT and COUNT (R325). -/
def landKey (h : Nat) : Nat := h >>> 16 <<< 16

/-- Index of rank `r` on an axis. -/
def indexOf (g : Group) (r a : Nat) : Nat :=
  match a with
  | 0 => r % lenOn g 0
  | 1 => r / lenOn g 0 % lenOn g 1
  | _ => r / (lenOn g 0 * lenOn g 1) % lenOn g 2

/-- Where the member of rank `r` stands: its logical position, by the fence set's ring remaps (R313 to R315, 15 R417). -/
def rankCoord (s : State) (g : Group) (r : Nat) : Nat :=
  let at_ (a : Nat) : Nat := ownLog s a - ownIndex s g a * strideOn g a + indexOf g r a * strideOn g a
  physAt s (at_ 0) (at_ 1) (at_ 2)

/-- The rank that differs from `r` only by its index `k` on an axis. -/
def rankWith (g : Group) (r a k : Nat) : Nat :=
  let at_ (b : Nat) : Nat := if b = a then k else indexOf g r b
  rankOf3 g (at_ 0) (at_ 1) (at_ 2)

/-- Axes in a group's phase order (R314 ORDER). -/
def orderAxes (order : Nat) : List Nat :=
  match order with
  | 0 => [0, 1, 2]
  | 1 => [0, 2, 1]
  | 2 => [1, 0, 2]
  | 3 => [1, 2, 0]
  | 4 => [2, 0, 1]
  | _ => [2, 1, 0]

/-- The phases that are run: axes with more than one member. -/
def phases (g : Group) : List Nat := (orderAxes g.order).filter fun a => lenOn g a > 1

/-- Shard length (R316). -/
def shardLen (n g : Nat) : Nat := 32 * ((n + 32 * g - 1) / (32 * g))

/-- The elements that rank `r` owns (R316). -/
def shardOf (n g r : Nat) : List Nat := (upto (min n ((r + 1) * shardLen n g) - r * shardLen n g)).map (· + r * shardLen n g)

/-! ### In-link reduction (R319) -/

/-- The combine of a reduction: sums in ACC, exact maxima. -/
def ringOp (redop : Nat) (a b : Acc) : Acc := if redop = 1 then accMax a b else accAdd a b

/-- What has been summed once ring step `t` is reached on the way to owner index `o` (R319): members o + d to o + d t. -/
def ringPart (redop len o : Nat) (plus : Bool) (p : Nat → Acc) (t : Nat) : Acc :=
  let at_ (t : Nat) : Acc := p (if plus then (o + t) % len else (o + t * (len - 1)) % len)
  (upto (t - 1)).foldl (fun acc i => ringOp redop acc (at_ (i + 2))) (at_ 1)

/-- `ring_sum` (R319): the owner's own value comes last. -/
def ringSum (redop len o : Nat) (plus : Bool) (p : Nat → Acc) : Acc := ringPart redop len o plus p len

/-- One phase: the member whose index is the owner's takes the ring's sum. -/
def phaseParts (g : Group) (redop r a : Nat) (plus : Bool) (part : Nat → Acc) (m : Nat) : Acc :=
  if indexOf g m a = indexOf g r a then ringSum redop (lenOn g a) (indexOf g r a) plus (fun k => part (rankWith g m a k)) else part m

/-- The parts that members hold of an element of owner `r` after some phases. -/
def partsAfter (g : Group) (redop r : Nat) (plus : Bool) (v : Nat → Acc) (ps : List Nat) : Nat → Acc :=
  ps.foldl (fun part a => phaseParts g redop r a plus part) v

/-- `reduced(e)` (R319): the value at the owner `r` of an element whose members hold `v`. -/
def reducedAt (g : Group) (redop r : Nat) (plus : Bool) (v : Nat → Acc) : Acc := partsAfter g redop r plus v (phases g) r

/-- Does element `e` travel the + ring (R319)? -/
def plusRing (e : Nat) : Bool := e / 32 % 2 = 0

/-- A member's logical value as the command's operand spells it (log 28): bit 47 the sign, bits 46:36 an exponent code, bits 35:0 the
significand; code 0 is a zero, code 2047 an infinity or the NaN. -/
def operandAcc (w : Nat) : Acc :=
  let neg := w.testBit 47
  let x := fld w 46 36
  let m := w % 2 ^ 36
  if x = 0 then .zero neg else if x = 2047 then (if m = 0 then .inf neg else .nan) else accOf neg m ((x : Int) - 1058)

/-- The same, towards the wire: 6 bytes an ACC value (R321; log 28). -/
def accWord (v : Acc) : Nat :=
  match v with
  | .zero n => bit n <<< 47
  | .inf n => (bit n <<< 47) + (2047 <<< 36)
  | .nan => (2047 <<< 36) + 1
  | .fin n m e => (bit n <<< 47) + ((e + 1058).toNat <<< 36) + m % 2 ^ 36

/-! ### Flits of a collective (R324) -/

/-- A collective flit before its link header: the landing fields, the rank that takes it, and its data. -/
structure CollFlit where
  axis  : Nat
  stage : Nat
  hop   : Nat
  chunk : Nat
  flit  : Nat
  rank  : Nat
  data  : List Byte
  deriving DecidableEq, Repr, Inhabited

/-- The landing header (R324). -/
def landOf (step attempt ord : Nat) (f : CollFlit) : Nat :=
  pack [(80, 16, step), (76, 4, attempt), (54, 22, ord), (52, 2, f.axis), (50, 2, f.stage), (45, 5, f.hop), (16, 29, f.chunk), (8, 8, f.flit),
    (0, 8, f.data.length)]

/-- Fields of a landing header, the first 12 bytes of a payload. -/
def landHdr (payload : List Byte) : Nat := ofBytes (payload.take 12)

/-- The 240-byte payload: the landing header, then 228 bytes of which COUNT are data. -/
def collPayload (land : Nat) (data : List Byte) : List Byte := toBytes 12 land ++ data ++ List.replicate (228 - data.length) 0

/-- FLOW of a collective flit: the context, and the low bits of the ordinal (R324). -/
def collFlow (c ord : Nat) : BitVec 16 := BitVec.ofNat 16 (pack [(12, 4, c), (0, 12, ord)])

/-- CHUNK of the `k`-th chunk of a ring stream: even on the + ring, odd on the − ring (log 28: no rule numbers a stream's chunks). -/
def ringChunk (plus : Bool) (k : Nat) : Nat := 2 * k + bit (!plus)

/-- A byte stream cut into flits of 228 bytes and chunks of 256 flits (R324). -/
def streamFlits (axis stage hop rank : Nat) (number : Nat → Nat) (bs : List Byte) : List CollFlit :=
  (chunksOf 228 bs).mapIdx fun i d => ⟨axis, stage, hop, number (i / 256), i % 256, rank, d⟩

/-- Elements of rank `r`'s shard on one ring direction. -/
def shardRing (n g r : Nat) (plus : Bool) : List Nat := (shardOf n g r).filter fun e => plusRing e = plus

/-- The ranks whose elements the module still handles in a phase: those that agree with it on the axes before it. -/
def phaseRanks (g : Group) (own : Nat) (before : List Nat) : List Nat :=
  (upto (groupSize g)).filter fun r => before.all fun a => indexOf g r a = indexOf g own a

/-- The elements that travel a ring in phase `j`, on the axis `a`, for the member of index `o` (R319). -/
def ringElems (g : Group) (n own j a o : Nat) (plus : Bool) : List Nat :=
  ((phaseRanks g own ((phases g).take j)).filter fun r => indexOf g r a = o).flatMap fun r => shardRing n (groupSize g) r plus

/-- Ring steps from index `o` to index `i` in a direction. -/
def ringSteps (len o i : Nat) (plus : Bool) : Nat := if plus then (i + len - o) % len else (o + len - i) % len

/-- The index `t` ring steps before `i`. -/
def ringBack (len i t : Nat) (plus : Bool) : Nat := if plus then (i + (len - 1) * t) % len else (i + t) % len

/-- The next member's index in a direction. -/
def ringNext (len i : Nat) (plus : Bool) : Nat := if plus then (i + 1) % len else (i + len - 1) % len

/-- Every stream of a reduce or gather: phase, axis, index it is for or from, direction. -/
def ringStreams (g : Group) : List (Nat × Nat × Nat × Bool) :=
  (phases g).zipIdx.flatMap fun (a, j) => (upto (lenOn g a)).flatMap fun o => [(j, a, o, true), (j, a, o, false)]

/-- What a module sends in a reduce (R319, R321): on every ring but the one it owns, the sum so far with its own part in it. `enc` puts a
value on the wire. -/
def reduceFlits (g : Group) (n own redop : Nat) (enc : Acc → List Byte) (v : Nat → Nat → Acc) : List CollFlit :=
  (ringStreams g).flatMap fun (j, a, o, plus) =>
    let i := indexOf g own a
    let t := ringSteps (lenOn g a) o i plus
    if t = 0 then [] else
      let bytes := (ringElems g n own j a o plus).flatMap fun e =>
        let part := partsAfter g redop (e / shardLen n (groupSize g)) plus (v e) ((phases g).take j)
        enc (ringPart redop (lenOn g a) o plus (fun k => part (rankWith g own a k)) t)
      streamFlits a 0 t (rankWith g own a (ringNext (lenOn g a) i plus)) (ringChunk plus) bytes

/-- The stored bytes of elements of a tensor: words, then the exponents of their blocks, or the lo plane (R320). -/
def elemImage (e : Tensor) (image : Mem) (es : List Nat) : List Byte :=
  let b := elemBytes e.format
  let more : List Byte :=
    if isBlock e.format then (nub (es.map (· / 32))).flatMap fun k => memTake image (2 * elems e + k) 1
    else if e.format = fmtCP32 then es.flatMap fun i => memTake image (4 * elems e + 4 * i) 4 else []
  (es.flatMap fun i => memTake image (b * i) b) ++ more

/-- What a module sends in a gather (R320), in the reverse phase order: every shard but the next member's, as stored. -/
def gatherFlits (g : Group) (own : Nat) (e : Tensor) (image : Mem) : List CollFlit :=
  (ringStreams g).reverse.flatMap fun (j, a, o, plus) =>
    let i := indexOf g own a
    let next := ringNext (lenOn g a) i plus
    if next = o then [] else
      streamFlits a 1 (ringSteps (lenOn g a) o i plus + 1) (rankWith g own a next) (ringChunk plus)
        (elemImage e image (ringElems g (elems e) own j a o plus))

/-- Bytes an element travels as while it is reduced (R321). -/
def wireWidth (redop fmt : Nat) : Nat := if redop = 1 then elemBytes fmt else 6

/-- Bytes of some elements of a tensor as stored, planes included. -/
def imageWidth (e : Tensor) (es : List Nat) : Nat :=
  elemBytes e.format * es.length + (if isBlock e.format then (nub (es.map (· / 32))).length else if e.format = fmtCP32 then 4 * es.length else 0)

/-- The bytes of the ring stream that a module receives with a landing header's AXIS, STAGE, HOP and direction (R324). -/
def ringBytes (g : Group) (n own redop : Nat) (src dst : Tensor) (axis stage hop : Nat) (plus : Bool) : Nat :=
  match (phases g).findIdx? (· = axis) with
  | none => 0
  | some j =>
    let o := ringBack (lenOn g axis) (indexOf g own axis) (hop + (if stage = 0 then 1 else 0)) plus
    if hop = 0 || hop ≥ lenOn g axis then 0
    else if stage = 0 then wireWidth redop src.format * (ringElems g n own j axis o plus).length
    else imageWidth dst (ringElems g n own j axis o plus)

end Sys2Proof.Machine
end

