-- ==== Sys2Proof/Machine/Places.lean ====
section
/-! DEFINITION. Where tensors and tasks lie: slots, stores and partitions, what lies in each, and the engine of a COPY (08 R199 to R210,
R218). -/

namespace Sys2Proof.Machine

/-! ### Tasks -/

/-- Task `n` of context `c`. -/
def taskAt (s : State) (c n : Nat) : Option Task := (progAt s c).tasks[n]?

/-! ### Slots (R207) -/

/-- The core or engine of a placement slot: 16 p + s a core, 128 + p the link DMA of partition p, 136 the hub DMA (R207, R210). -/
def coreOfSlot (s : State) (slot : Nat) : Option Nat :=
  let k := nth (nth s.place.slotMap (slot / 16) (Vector.replicate 16 31)) (slot % 16) 31
  if slot < 128 then (if k < 17 then some (17 * (slot / 16) + k) else none)
  else if slot < 137 then some (slot + 8) else none

/-- The partition of a slot; the hub DMA lies in none. -/
def partOfSlot (slot : Nat) : Option Nat := if slot < 128 then some (slot / 16) else if slot < 136 then some (slot - 128) else none

/-! ### Stores (R199) -/

/-- Partitions of a mask. -/
def partsIn (m : BitVec 8) : List Nat := (upto 8).filter fun p => m.getLsbD p

/-- The stores of a class within some partitions: 1000 + slot a core store, 2000 + p a link store, 3000 the hub commons, 4000 + p HBM. -/
def unitsIn (s : State) (cls : Nat) (parts : BitVec 8) : List Nat :=
  match cls with
  | 1 => ((upto 128).filter fun u => parts.getLsbD (u / 16) && (coreOfSlot s u).isSome).map (1000 + ·)
  | 2 => (partsIn parts).map (2000 + ·)
  | 3 => [3000]
  | 4 => (partsIn parts).map (4000 + ·)
  | _ => []

/-- Bytes spread evenly over some stores. -/
def spreadOn (us : List Nat) (n : Nat) : List (Nat × Nat) := us.map fun u => (u, (n + us.length - 1) / us.length)

/-- The class of a store, and its partition; the hub commons lie in none. -/
def storeClass (u : Nat) : Nat := if u < 2000 then 1 else if u < 3000 then 2 else if u < 4000 then 3 else 4
def storePart (u : Nat) : Option Nat := if u < 2000 then some ((u - 1000) / 16) else if u < 3000 then some (u - 2000) else if u < 4000 then none else some (u - 4000)

/-- CLASS and PIN of a HINT (R205). -/
def hintClass (x : BitVec 16) : Nat := fld x.toNat 15 13
def hintPin (x : BitVec 16) : Bool := x.getLsbD 12

/-- Is a tensor of context `c` placed as a TRANSIENT one: a diagnosis replay's PERSISTENT tensors are (10 R273)? -/
def placedTransient (c : Nat) (e : Tensor) : Bool := e.persist = clsTransient || (c = 15 && e.persist = clsPersistent)

/-- The persistence class by which a tensor of context `c` is placed. -/
def placedPersist (c : Nat) (e : Tensor) : Nat := if placedTransient c e then clsTransient else e.persist

/-- Is the tensor's footprint fixed in HBM: PERSISTENT, INPUT, CONST master copy (R200)? -/
def fixedHbm (c : Nat) (e : Tensor) : Bool :=
  placedPersist c e = clsPersistent || placedPersist c e = clsInput || placedPersist c e = clsConst

/-- Does R201 set the tensor's space aside: version tiles and batches? -/
def setAside (c : Nat) (e : Tensor) : Bool := placedPersist c e = clsPersistent || placedPersist c e = clsInput

/-- Where the bytes of a tensor lie that R201 does not set aside: store and bytes. -/
def placeShares (s : State) (k : Placed) : List (Nat × Nat) :=
  let e := tensorAt (progAt s k.ctx) k.tensor
  let n := tensorBytes e
  if setAside k.ctx e then []
  else if !k.split.isEmpty then k.split
  else match k.cls, k.slot with
    | 1, some u => [(1000 + u, n)]
    | cls, _ => spreadOn (unitsIn s cls k.parts) n

/-- The batches of an INPUT tensor that has moved into one partition: D + 1 of them in its HBM (R200, R201). -/
def movedBatches (s : State) (u : Nat) (k : Placed) : Nat :=
  let e := tensorAt (progAt s k.ctx) k.tensor
  if e.persist = clsInput && k.moved && (upto 8).any (fun p => k.parts = BitVec.twoPow 8 p && u = 4000 + p) then 65536 * tilesIn e * (retainDepth s + 1)
  else 0

/-- Bytes of a tensor in one store that R201 does not set aside. -/
def shareAt (s : State) (u : Nat) (k : Placed) : Nat := (((placeShares s k).filter fun x => x.1 = u).map (·.2)).sum + movedBatches s u k

/-- The byte ranges of a tensor that lie in store `u`: the shares follow each other (log 175). -/
def shareRanges (s : State) (u : Nat) (k : Placed) : List (Nat × Nat) :=
  ((placeShares s k).foldl (fun (acc : Nat × List (Nat × Nat)) x =>
    (acc.1 + x.2, if x.1 = u then acc.2 ++ [(acc.1, acc.1 + x.2)] else acc.2)) (0, [])).2

/-- The stores a tensor lies in, its HBM homes among them. -/
def unitsOf (s : State) (k : Placed) : List Nat :=
  let e := tensorAt (progAt s k.ctx) k.tensor
  if setAside k.ctx e then (partsIn k.parts).map (4000 + ·) else nub ((placeShares s k).map (·.1))

/-- Peak of the bytes live at once: first position, last position, bytes (R202, R204). -/
def peakOf (l : List (Nat × Nat × Nat)) : Nat :=
  (l.map fun a => ((l.filter fun b => decide (b.1 ≤ a.1) && decide (a.1 ≤ b.2.1)).map (·.2.2)).sum).foldl max 0

/-- Bytes that some placed tensors take in one store; those of a context that share space take the peak of what is live at once (R202). -/
def usedIn (s : State) (ks : List Placed) (u : Nat) : Nat :=
  ((ks.filter fun k => k.shared.isNone).map (shareAt s u)).sum +
    ((upto 16).map fun c => peakOf ((ks.filter fun k => k.ctx = c).filterMap fun k => k.shared.map fun x => (x.1, x.2, shareAt s u k))).sum

/-- Bytes placed in a class (R218): its stores, and for HBM the version tiles, batches and master copies. DESIGN CHOICE, log 215: a spread
share is rounded up, what R201 fixes counts in whole 64 KiB tiles, and an INPUT tensor once. -/
def occupancy (s : State) (cls : Nat) : Nat :=
  let fixed := s.place.tensors.map fun k => let e := tensorAt (progAt s k.ctx) k.tensor; if fixedHbm k.ctx e then 65536 * tilesIn e else 0
  ((unitsIn s cls 0xFF).map (usedIn s (s.place.tensors.filter fun k => !setAside k.ctx (tensorAt (progAt s k.ctx) k.tensor)))).sum + if cls = 4 then fixed.sum else 0

/-- Are two spans apart, so that all of one comes before all of the other (R202)? -/
def spansApart (a b : Nat × Nat) : Bool := decide (a.2 < b.1) || decide (b.2 < a.1)

/-- Do two placed tensors share space: both so placed in one context and store, their spans apart (R202)? -/
def sharesWith (s : State) (k x : Placed) : Bool :=
  k.ctx = x.ctx && k.tensor ≠ x.tensor && (match k.shared, x.shared with
    | some a, some b => spansApart a b
    | _, _ => false) && (unitsOf s k).any fun u => (unitsOf s x).contains u

/-! ### Version tiles and batches in HBM (R200, R201) -/

/-- Where a tensor lies now. -/
def placedAt (s : State) (c t : Nat) : Option Placed := s.place.tensors.find? fun k => k.ctx = c && k.tensor = t

/-- The partition of version tile `k` of a tensor: they go round the partitions from the tensor's base. The mirror region's tiles
(contexts 16 + c) lie as the module's own of context c do. -/
def tileHome (s : State) (c t k : Nat) : Nat := (((placedAt s (c % 16) t).map (·.base)).getD 0 + k) % 8

/-- The partitions of `n` tiles from a base on. -/
def homesMask (base n : Nat) : BitVec 8 := (upto (min n 8)).foldl (fun m k => m ||| BitVec.twoPow 8 ((base + k) % 8)) 0

/-- Does partition `p` hold a part of the batch of step `n`? -/
def batchOn (s : State) (n p : Nat) : Bool := s.place.batchAt.any fun b => b.1 = n && b.2.2.2.getLsbD p

/-- The partitions in which a tensor has bytes (R219): a CONST's master copy and an INPUT's retained batches too. -/
def partsOf (s : State) (k : Placed) : BitVec 8 :=
  let e := tensorAt (progAt s k.ctx) k.tensor
  let batches := (s.place.batchAt.filter fun b => b.2.1 = k.ctx && b.2.2.1 = k.tensor && (assoc? s.fetch.batches b.1).isSome).map (·.2.2.2)
  (if e.persist = clsConst then homesMask k.base (tilesIn e) else if e.persist = clsInput then batches.foldl (· ||| ·) 0 else 0) ||| k.parts

/-- The targets of moves that wait for their boundary, as places beside those that stand (R213). -/
def pendingPlaced (s : State) : List Placed :=
  s.place.plan.filterMap fun m => (placedAt s m.ctx m.tensor).map fun k =>
    { k with cls := m.cls, parts := if m.cls = 3 then 0 else BitVec.twoPow 8 m.part, slot := m.slot, split := [], shared := none, moved := true }

/-! ### The mirror region (13 R351) -/

/-- Is the copy a tile of the mirror region? -/
def isMirrorTile (k : Copy) : Bool := decide (16 ≤ k.ctx)

/-- Images of the mirrored module as tiles of the mirror region: context, tensor, bytes. -/
def mirrorTiles (kind : CopyKind) (imgs : List (Nat × Nat × List Byte)) : List Copy :=
  imgs.flatMap fun x => (upto ((x.2.2.length + 65535) / 65536)).map fun k =>
    { ctx := 16 + x.1, tensor := x.2.1, tile := k, kind := kind, bytes := memPut [] (65536 * k) ((x.2.2.drop (65536 * k)).take 65536) }

/-! ### COPY (R210) -/

/-- A tensor as a COPY meets it: its class, the slot of its core store, and its first partition. A CONST is read from its resident copy,
where it has one. -/
def copyEnd (s : State) (c t : Nat) : Nat × Option Nat × Nat :=
  match placedAt s c t with
  | some k =>
    if k.cls = 0 || k.cls = 4 then (4, none, if k.parts = 0 then k.base else ((partsIn k.parts).head?).getD 0)
    else (k.cls, k.slot, ((partsIn k.parts).head?).getD 0)
  | none => (4, none, 0)

/-- The slot code of the engine of a COPY (R210). DESIGN CHOICE, log 167: of a tensor in several partitions the first counts, and between a
core store and the hub commons, which the table leaves out, the link DMA moves. -/
def copyEngine (s : State) (c src dst : Nat) : Nat :=
  let a := copyEnd s c src
  let b := copyEnd s c dst
  if a.1 = 3 && b.1 = 3 then 136
  else if a.1 = 1 && b.1 = 1 && a.2.1.isSome && a.2.1 = b.2.1 then a.2.1.getD 0
  else if b.1 = 3 then 128 + a.2.2
  else 128 + b.2.2

/-- The partition a sync object lies in, if it is a local one (12 R331). -/
def objPart (o : Nat) : Option Nat := if 4096 ≤ o ∧ o < 8192 then some ((o - 4096) / 512) else none

/-- The directions whose link blocks a COLL's piece runs on (12 R318): both ways of each phase's axis, or the way to the peer. -/
def collDirs (s : State) (c : Nat) (kind gi peer : Nat) : List Dir :=
  let g := (progAt s c).groups.getD gi default
  if kind = 3 || kind = 4 || kind = 6 then (routeDir s (ownCoord s) (rankCoord s g peer)).toList
  else (phases g).flatMap fun a => [dirOf (2 * a), dirOf (2 * a + 1)]

/-- The partitions of the link blocks of a COLL's piece. -/
def collHomes (s : State) (c : Nat) (kind gi peer : Nat) : List Nat :=
  nub (((upto 48).filter fun l => (collDirs s c kind gi peer).contains (linkDir s l)).map (· / 6))

/-- The slots of the pieces of task `n` of context `c` as they are placed now (R220). -/
def taskSlots (s : State) (c n : Nat) : List Nat :=
  match taskAt s c n with
  | some { body := .copy src dst, .. } => [copyEngine s c src.tensor dst]
  | _ => ((s.place.tasks.find? fun x => x.ctx = c && x.task = n).map (·.slots)).getD []

end Sys2Proof.Machine
end

