-- ==== Sys2Proof/Machine/Entries.lean ====
section
/-! DEFINITION. What every dictionary entry reads (20 R506, R508, R511 and the entry tables of every chapter). -/

namespace Sys2Proof.Machine

/-! ### Small readings -/

/-- Code of a device state (20 R515). -/
def devCode : DevState → Nat
  | .boot => 1
  | .ready => 2
  | .joined => 3
  | .spare => 4
  | .recovery => 5
  | .outOfService => 6
  | .test => 7

/-- Device state of a code. -/
def devOfCode : Nat → DevState
  | 1 => .boot
  | 2 => .ready
  | 3 => .joined
  | 4 => .spare
  | 5 => .recovery
  | 6 => .outOfService
  | _ => .test

/-- A whole number of degrees, watts and so on as binary32. -/
def f32Of (i : Int) : Nat := (encFP32 false true 0 (accOf (i < 0) i.natAbs 0)).1

/-- An F32 of a number of tenths. -/
def f32Tenths (i : Int) : Nat := (encFP32 false true 0 (accRatio (i < 0) i.natAbs 10 0)).1

/-- A ratio as binary32. -/
def f32Ratio (n d : Nat) : Nat :=
  if d = 0 then 0 else (encFP32 false true 0 (accOf false (n * 2 ^ 64 / d * 2 + (if n * 2 ^ 64 % d = 0 then 0 else 1)) (-65))).1

/-- Code of a context state (07 R186). -/
def ctxCode : CtxState → Nat
  | .empty => 0
  | .loading => 1
  | .loaded => 2
  | .running => 3
  | .halted => 4

/-- Context status (07 R186). -/
def ctxStatus (c : Ctx) : Nat := pack [(28, 4, ctxCode c.state), (24, 4, c.cause), (0, 23, c.causeTask)]

/-- Program load status (07 R197). -/
def loadStatus (l : Load) : Nat := pack [(56, 8, l.reason), (52, 4, l.ctx), (50, 2, l.wher), (48, 2, l.status), (0, 23, l.index)]

/-- Operating time in seconds (14 R375). -/
def optime (s : State) : Nat := s.clk.opBase + (s.clk.now - s.clk.opFrom) / 1000000000

/-- The 100 MHz local counter (18 R481). -/
def localCounter (s : State) : Nat := if s.domains.getLsbD 40 then (s.clk.now - s.clk.hubOn) / 10 else 0

/-- The step in progress, or 0 outside a job. -/
def stepNow (s : State) : Nat :=
  match s.steps.older with
  | some o => o.step
  | none => if (ctxAt s 0).state = .running || (ctxAt s 0).state = .halted then s.steps.committed + 1 else 0

/-! ### Core maps (01 R16) -/

/-- REMOUNT of a core-map word. -/
def remountOf (w : BitVec 32) : Nat := fld w.toNat 23 19

/-- Is physical core `k` active in the map? -/
def activeIn (w : BitVec 32) (k : Nat) : Bool := w.toNat.testBit k && decide (k < 17)

/-- The core map of partition `p`. -/
def coreMapOf (s : State) (p : Nat) : BitVec 32 := nth s.place.coreMap p 0

/-- Is global core `g` active? -/
def coreActive (s : State) (g : Nat) : Bool := activeIn (coreMapOf s (g / 17)) (g % 17)

/-- Global core `g`. -/
def coreAt (s : State) (g : Nat) : Core := nth s.cores g {}

/-- The active cores. -/
def activeCores (s : State) : List Nat := (upto 136).filter (coreActive s)

/-- Is ostler `o` dumping, restarting or failed (R468)? -/
def ostlerBusy (s : State) (o : Nat) : Bool := decide ((nth s.fw.ostlers o {}).state ≠ 0)

/-- Changes an ostler. -/
def onOstler (s : State) (o : Nat) (f : Ostler → Ostler) : State := { s with fw := { s.fw with ostlers := updN s.fw.ostlers o f } }

/-- The summary entry of a unit. -/
def summaryOf (s : State) (u : LUnit) : Option Summary := s.ledger.summary.find? fun e => decide (e.unit = u)

/-- Is a unit retired or permanent in the ledger (14 R381)? -/
def unitGone (s : State) (u : LUnit) : Bool := s.ledger.summary.any fun e => decide (e.unit = u) && (decide (e.cls = 3) || e.retired)

/-- Is a core marked QUARANTINED or RETIRED in the ledger's summary, as a core or for its checksum lane? -/
def coreMarked (s : State) (g : Nat) : Bool :=
  s.ledger.summary.any fun e => (e.unit.utype = 1 || e.unit.utype = 2) && e.unit.unit = g && (e.quarantined || e.retired)

/-- Is the remount core of partition `p` available (14 R380)? -/
def spareAvailable (s : State) (p : Nat) : Bool :=
  let r := remountOf (coreMapOf s p)
  decide (r < 17) && !coreMarked s (17 * p + r)

/-! ### Ceilings (17 R444) -/

/-- The cores beneath a stack (01 R12): cores 0 to 8 under the even one, 9 to 16 under the odd one. -/
def stackOfCore (g : Nat) : Nat := 2 * (g / 17) + (if g % 17 < 9 then 0 else 1)

/-- Does an emergency act on partition `p` (17 R457)? -/
def emerOn (k : Emer) (p : Nat) : Bool :=
  match k with
  | .logicHot q => q.val = p
  | .dramHot n => n.val / 2 = p
  | .overpower => true
  | .regulator => true
  | .hubHot => true
  | .coolant => true

/-- The emergency ceiling of a core; a DRAM emergency acts through the DRAM ceiling (R457, 09 R239). -/
def emerCeil (s : State) (g : Nat) : Nat :=
  s.power.emers.foldl (fun m e => match e.kind with
    | .dramHot _ => m
    | _ => if emerOn e.kind (g / 17) then min m e.ceil else m) 64

/-- The ramp ceiling (17 R452). -/
def rampCeil (s : State) (g : Nat) : Nat :=
  match (coreAt s g).ramp with
  | some t => if s.clk.now < t then 0 else if s.clk.now ≥ t + 2000 then 64 else 16 + 6 * min 8 ((s.clk.now - t) / 250)
  | none => 64

/-- The owner ceiling 0x7000.07. -/
def ownerCeil (s : State) : Nat := dictVal s.dict 0x700007

/-- DRAM ceiling of a core. -/
def dramCeil (s : State) (g : Nat) : Nat := (nth s.mem.stk (stackOfCore g) {}).ceil

/-- Ceilings other than the ramp's, lowest (R444). -/
def slowCeil (s : State) (g : Nat) : Nat :=
  min (min s.power.p s.power.g) (min (min (ownerCeil s) (coreAt s g).therm) (min (dramCeil s g) (emerCeil s g)))

/-- The effective ceiling of a core (R444). -/
def ceilOf (s : State) (g : Nat) : Nat := min (slowCeil s g) (rampCeil s g)

/-- Is `v g` below 64 and the lowest ceiling of some active core (R462)? -/
def binds (s : State) (v : Nat → Nat) : Nat := bit ((activeCores s).any fun g => decide (v g < 64) && decide (v g ≤ ceilOf s g))

/-- The power budget in force: lease or fallback (R446, R448, R449). -/
def leaseLive (s : State) : Bool := s.power.leaseEnd.isSome

/-- Rein status (R462). -/
def reinStatus (s : State) : Nat :=
  pack [(24, 1, bit (!leaseLive s)), (16, 8, s.power.g), (8, 8, s.power.p), (5, 1, binds s fun _ => s.power.g), (4, 1, binds s (emerCeil s)),
    (3, 1, binds s (dramCeil s)), (2, 1, binds s fun g => (coreAt s g).therm), (1, 1, binds s fun _ => ownerCeil s), (0, 1, binds s fun _ => s.power.p)]

/-- Is an emergency of a kind present and not cleared (R463)? -/
def emerBit (s : State) (f : Emer → Bool) : Bool := s.power.emers.any fun e => f e.kind && !e.cleared

/-- Emergency status (R463). -/
def emerStatus (s : State) : Nat :=
  let hot (p : Nat) : Bool := emerBit s fun k => match k with | .logicHot q => q.val = p | .dramHot n => n.val / 2 = p | _ => false
  let b (n : Nat) : Bool := match n with
    | 1 => emerBit s (· = .overpower)
    | 2 => emerBit s (· = .regulator)
    | 3 => emerBit s fun k => match k with | .logicHot _ => true | _ => false
    | 4 => emerBit s fun k => match k with | .dramHot _ => true | _ => false
    | 5 => emerBit s (· = .hubHot)
    | 6 => emerBit s (· = .coolant)
    | _ => s.power.trip
  pack ((upto 8).map (fun p => (16 + p, 1, bit (hot p))) ++ ([1, 2, 3, 4, 5, 6, 7].map fun n => (n, 1, bit (b n))) ++
    [(0, 1, bit ([1, 2, 3, 4, 5, 6, 7].any b))])

/-- Average input power A over the trailing 4,000 ms, as a sum of samples and their number (R446). -/
def avgPower (s : State) : Nat × Nat := (s.power.window.sum, max 1 s.power.window.length)

/-! ### Links -/

def linkClassCode : LinkClass → Nat
  | .notTrained => 0
  | .expected => 1
  | .permuted => 2
  | .crossed => 3
  | .surplus => 4
  | .foreign => 5
  | .version => 6
  | .missing => 7

def linkStateCode : LinkState → Nat
  | .down => 0
  | .training => 1
  | .refused => 2
  | .up => 3
  | .fenced => 4
  | .held => 5

/-- Link status (11 R300). -/
def linkStatus (k : Link) : Nat :=
  pack [(28, 4, linkClassCode k.cls), (25, 3, if inService k then (k.dir.map dirCode).getD 7 else 7),
    (20, 5, if inService k then k.index else 0), (16, 4, linkStateCode k.state), (12, 4, k.cause), (8, 1, bit k.spareUsed), (0, 5, k.swapped)]

/-- Direction status (11 R312). -/
def dirStatus (s : State) : Nat :=
  pack ((allDirs.map fun d => (5 * dirCode d, 5, (dirLinks s d).length)) ++
    [(30, 1, bit (s.topo.verdict ≠ 0 && allDirs.any fun d => decide ((dirLinks s d).length < 2)))])

/-- An entry of link `l`. -/
def readLink (s : State) (l sub : Nat) : Nat :=
  let k := linkAt s l
  match sub with
  | 1 => linkStatus k
  | 2 => k.farRec.toNat - fld k.farRec.toNat 34 32 * 2 ^ 32           -- bits 34:32 read 0 (00 R7)
  | 3 => k.fecCorr
  | 4 => k.fecUncorr
  | 5 => k.replays
  | 6 => k.syncErr
  | 7 =>
    let w := k.serWin.filter fun x => decide (s.clk.now < x.1 + 1000000000)
    f32Ratio (w.map (·.2.1)).sum (w.map (·.2.2)).sum
  | _ => k.retrains

/-! ### Steps, checkpoints, recovery -/

def statusCode : StepStatus → Nat
  | .dispatching => 1
  | .checking => 2
  | .contributed => 3

/-- State of step `n` in 0x2100.05. -/
def stepCode (s : State) (n : Nat) : Nat :=
  let f (o : Option OpenStep) : Nat := match o with
    | some x => if x.step = n && (x.begun || decide (x.status ≠ .dispatching)) then statusCode x.status else 0
    | none => 0
  max (f s.steps.older) (f s.steps.younger)

/-- The check executions outstanding for the older step: those not completed, and the arbiters (10 R276). -/
def checksOut (s : State) : Nat :=
  match s.steps.older with
  | some x =>
    let arbs := (s.cores.toList.flatMap fun k => k.checkQ ++ (k.checking.map (·.1)).toList) ++ s.steps.arbWait
    (x.checks.filter fun r => decide (r.state = .waiting)).length +
      (arbs.filter fun c => decide (c.source = .arbiter) && decide (c.piece.step = x.step)).length
  | none => 0

/-- Step status (10 R276). -/
def stepStatus (s : State) : Nat :=
  pack [(28, 4, stepCode s (s.steps.committed + 1)), (24, 4, stepCode s (s.steps.committed + 2)), (0, 16, sat 16 (checksOut s))]

/-- Recovery status (15 R426). -/
def roleCode : Role → Nat
  | .none => 0
  | .working => 1
  | .spare => 2
  | .taking => 3
  | .fenced => 4
  | .lost => 5

def recovStatus (r : Recov) : Nat :=
  pack [(28, 4, roleCode r.role), (24, 4, r.last), (20, 4, r.lastPart), (19, 1, bit r.single), (18, 1, bit r.rebuild), (17, 1, bit r.hold),
    (16, 1, bit r.wait), (0, 4, r.lost)]

/-- Tandem coordinates (15 R425): while the module holds a position of a job with mirrors. -/
def tandem (s : State) : Nat :=
  if (decide (s.recov.role = .working) || decide (s.recov.role = .taking)) && hasMirror s then
    pack [(15, 15, pairAt s false), (0, 15, pairAt s true)] else 0

/-- Bytes that the loaded programs would capture (13 R354): own state, the mirror region where the job has mirrors, and the module-state
pieces, the partner's counted as long as the module's own (log 87). -/
def cutBytes (s : State) : Nat :=
  let own := ((capturedOwn s).map fun x => x.2.2).sum + 16 * (moduleRecs s).length
  if hasMirror s then own + ((capturedMirror s).map fun x => x.2.2).sum + 16 * (moduleRecs s).length else own

/-- Checkpoint status (13 R371). -/
def ckptStatus (s : State) : Nat :=
  let k := s.ckpt
  let st := if k.captures.any fun c => !c.durable then 1 else if !k.captures.isEmpty then 2 else if k.retain.isSome then 3 else 0
  let area := match k.captures.find? (fun c => !c.durable && c.begun), k.captures with
    | some c, _ => c.area.getD 0
    | none, c :: _ => c.area.getD 0
    | none, [] => (k.retain.map (·.2)).getD 0
  pack [(28, 4, st), (23, 5, area), (19, 4, k.lastAbandon), (18, 1, bit k.pend), (17, 1, bit k.carried), (16, 1, bit k.storeBad)]

/-- Restore and export status layouts (13 R371 0x6000.19). -/
def restStatus (cut reason st : Nat) (noState : Bool) : Nat := pack [(16, 48, cut), (8, 1, bit noState), (4, 4, reason), (0, 2, st)]

/-- An area's summary (13 R371 0x6000.11). -/
def areaWord (a : Area) : Nat := pack [(64, 64, a.cut), (32, 32, a.npiece), (4, 4, a.flags.toNat), (0, 4, a.state)]

/-! ### Ledger -/

/-- TEMP of R374: 0x80 unknown. -/
def tempByte (t : Option Int) : Nat := match t with
  | some i => unsigned 8 i
  | none => 0x80

/-- Bits 511:128 of a ledger record (14 R385). -/
def lrecTop (r : LRec) : Nat :=
  pack [(448, 64, r.optime), (416, 32, r.pcycle), (384, 32, r.seq), (320, 64, r.step), (312, 8, r.kind), (304, 8, r.unit.utype), (272, 32, r.unit.unit),
    (268, 4, r.pclass), (256, 8, tempByte r.temp), (244, 12, r.volt), (232, 12, r.freq), (230, 2, r.cls), (229, 1, bit r.gallop), (228, 1, bit r.retired),
    (192, 36, r.detail), (128, 64, r.arg)]

/-- A ledger record's 64 bytes with its CRC over bits 511:128 (log 24). -/
def lrecWord (r : LRec) : Nat := lrecTop r ||| ((crc32 ((toBytes 64 (lrecTop r)).drop 16)).toNat <<< 96)

/-- A unit summary entry (14 R386). -/
def sumWord (e : Summary) : Nat :=
  pack [(96, 32, e.lastSeq), (64, 32, sat 32 e.events), (32, 32, e.unit.unit), (24, 8, e.unit.utype), (22, 2, e.cls), (21, 1, bit e.quarantined),
    (20, 1, bit e.retired), (19, 1, bit e.pending), (0, 1, 1)]

/-- The ledger digest (14 R386). -/
def ledgerDigest (l : Ledger) : Digest := shake256 (l.summary.flatMap fun e => toBytes 16 (sumWord e))

/-- Gallop status (14 R397). -/
def gallopStatus (t : Tests) : Nat :=
  pack [(28, 4, t.gState), (24, 4, t.gResult), (16, 8, if t.gTotal = 0 then 0 else (t.gTotal - t.cells.length) * 100 / t.gTotal), (0, 16, sat 16 t.gFails)]

/-! ### Firmware and security -/

/-- The active bank of an image type 1 to 3. -/
def pairOf (s : State) (t : Nat) : BankPair := nth s.fw.images (t - 1) {}
def activeBank (b : BankPair) : Bank := if b.activeB then b.b else b.a
def otherBank (b : BankPair) : Bank := if b.activeB then b.a else b.b

/-- Version of the active image of a type. -/
def versionOf (s : State) (t : Nat) : Nat := (activeBank (pairOf s t)).img.version.toNat

/-- Bank status byte of a type (18 R487). -/
def bankByte (b : BankPair) : Nat := pack [(7, 1, bit b.activeB), (4, 3, if b.trial then 5 else min 4 (otherBank b).state)]

/-- Does some slot carry OWNER? -/
def anyOwner (s : State) : Bool := s.sec.creds.toList.any fun c => c.valid && c.owner

/-- Is the guest part fitted (20 R515)? -/
def guestPart (s : State) : Bool := s.dev.product.guestPart

/-- Security configuration (21 R542). -/
def secConfig (s : State) : Nat :=
  let dbg := bit (!s.sec.unlocked)
  let scan := bit (!s.dev.scanOpen)
  let deny := bit (!guestPart s || !(dictVal s.dict 0xB00001).testBit 0)
  let own := bit (anyOwner s)
  let seen := bit s.sec.unlockSeen
  let prod := bit s.dev.prodTest
  let ev := dbg * scan * deny * own * (1 - seen) * (1 - prod)
  pack [(31, 1, ev), (5, 1, prod), (4, 1, seen), (3, 1, own), (2, 1, deny), (1, 1, scan), (0, 1, dbg)]

/-- A credential slot (21 R531). -/
def credWord (c : Cred) : Nat :=
  if c.valid then pack [(64, 256, c.key.toNat), (4, 1, bit c.debug), (3, 1, bit c.convert), (2, 1, bit c.power), (1, 1, bit c.owner), (0, 1, 1)] else 0

/-- The bytes of ASCII characters. -/
def ascii (t : List Char) : List Byte := t.map fun c => BitVec.ofNat 8 c.toNat

/-- A string of ASCII as its bytes, first at the lowest address. -/
def strVal (t : List Char) : Nat := ofBytes (ascii t)

/-- The part number of NDS9-768L-G and of NDS9-768L. -/
def partNumber (guest : Bool) : Nat :=
  strVal (['N', 'D', 'S', '9', '-', '7', '6', '8', 'L'] ++ if guest then ['-', 'G'] else [])

/-- A certificate chunk: zero beyond the end (21 R544). -/
def certChunkAt (s : State) (sel : Nat) : Nat :=
  let c := fld sel 31 24
  let off := 64 * fld sel 23 0
  let len := Config.certLength c
  let chunk := if c = 0 then Config.deviceCert s.sec.identity s.dev.product.serial (guestPart s && s.dev.product.guestSeen) (off / 64)
    else Config.certChunk c (off / 64)
  if off ≥ len then 0 else chunk.toNat % 2 ^ (8 * min 64 (len - off))

/-- The production-test status (22 R559). -/
def prodStatus (s : State) : Nat :=
  let tap := if s.dev.tap = .extestPulse || s.dev.tap = .extestTrain then 2 else bit s.dev.scanOpen
  pack [(4, 4, tap), (3, 1, bit s.dev.minimal), (2, 1, bit s.dev.ledgerRst), (1, 1, bit s.dev.fused), (0, 1, bit s.dev.prodTest)]

/-! ### Placement -/

/-- Selected tensor placement (08 R219). -/
def tensorPlacement (s : State) (sel : Nat) : Nat :=
  let c := fld sel 23 20
  let t := fld sel 19 0
  match (ctxAt s c).prog with
  | none => 0
  | some p =>
    if t < p.tensors.length then
      let k := (s.place.tensors.find? fun x => x.ctx = c && x.tensor = t).getD { ctx := c, tensor := t, cls := 0, parts := 0 }
      let moving := s.place.plan.any fun m => m.ctx = c && m.tensor = t && !m.copied
      pack [(96, 32, s.place.gen), (64, 32, sat 32 k.access), (48, 16, sat 16 k.age), (40, 8, (partsOf s k).toNat),
        (37, 3, k.cls), (36, 1, bit (k.pinned && decide (k.cls = hintClass (tensorAt p t).hint))), (35, 1, bit moving),
        (34, 1, bit (s.place.tensors.any (sharesWith s k))), (32, 1, 1), (0, 32, tilesIn (tensorAt p t))]
    else 0

/-- The primary pieces of a task and their partitions (R220): a COLL is one piece on link blocks, a SIG or WAIT one piece at its object
(R208). -/
def pieceHomes (s : State) (c n : Nat) : Nat × List Nat :=
  match taskAt s c n with
  | some { body := .coll kind _ gi _ _ peer, .. } => (1, collHomes s c kind gi peer)
  | some { body := .sig o _ _, .. } => (1, (objPart o).toList)
  | some { body := .wait o _, .. } => (1, (objPart o).toList)
  | _ => ((taskSlots s c n).length, nub ((taskSlots s c n).filterMap partOfSlot))

/-- Selected task placement (08 R220). -/
def taskPlacement (s : State) (sel : Nat) : Nat :=
  let c := fld sel 26 23
  let n := fld sel 22 0
  match (ctxAt s c).prog with
  | none => 0
  | some p =>
    if n < p.tasks.length then
      let homes := pieceHomes s c n
      let cores := nub (((taskSlots s c n).filter (· < 128)).filterMap (coreOfSlot s))
      pack ([(224, 32, s.place.gen), (208, 16, sat 16 homes.1), (136, 1, 1)] ++ homes.2.map (fun q => (200 + q, 1, 1)) ++
        cores.map fun g => (g, 1, 1))
    else 0

/-- A slot map as its 16 bytes (08 R207). -/
def slotBytes (m : Vector Nat 16) : Nat := ofBytes (m.toList.map fun k => BitVec.ofNat 8 k)

/-! ### Scale state (03 R87) -/

/-- Selected scale state. DESIGN CHOICE, log 172: before the first commit after a load, and for other policies than DELAYED after a restore,
S_USED shows the initial scale. Log 211: in a diagnosis replay the last closed step shows beside STEP. -/
def scaleState (s : State) (sel : Nat) : Nat :=
  let c := fld sel 23 20
  let t := fld sel 19 0
  match (ctxAt s c).prog with
  | none => 0
  | some p =>
    if t < p.tensors.length then
      let e := tensorAt p t
      let u := (tstate s c t).used
      let (sc, win, last) := match u with
        | some (_, sc, win, last) => (sc, win.toNat, last.toNat)
        | none => (initScale e, 0, 0)
      pack [(96, 32, last), (64, 32, win), (32, 32, s.steps.committed), (24, 8, unsigned 8 sc), (16, 8, unsigned 8 e.sInit), (12, 4, e.policy),
        (11, 1, bit e.scopeGroup), (6, 5, histLenOf p e - 1), (2, 4, marginOf p e), (0, 1, 1)]
    else 0

/-- Selected tolerance exponent (04 R107). -/
def tolSelected (s : State) (sel : Nat) : Nat :=
  let c := fld sel 23 20
  let t := fld sel 19 0
  match (ctxAt s c).prog with
  | none => 0
  | some p => if t < p.tensors.length && matrixWriter p t then
      (((ctxAt s c).tens.find? fun x => x.tensor = t).map (·.tol)).getD p.tolInit else 0

/-- A result record by entry (19 R502). -/
def resultWord (s : State) (sub : Nat) : Nat :=
  if sub ≤ 64 then (nth s.results (sub - 1) {}).cur.toNat else (nth s.results (sub - 65) {}).comm.toNat

/-! ### Reading an entry -/

/-- An RW or RWP entry by its key. -/
def rw (s : State) (key : Nat) : Nat := dictVal s.dict key

/-- A bit list as a number. -/
def bits (n : Nat) (f : Nat → Bool) : Nat := pack ((upto n).map fun i => (i, 1, bit (f i)))

def read1000 (s : State) (sub : Nat) : Nat :=
  match sub with
  | 1 => partNumber s.dev.product.partG
  | 2 => s.dev.product.serial
  | 3 => s.dev.product.pkgSerial
  | 4 => bit (guestPart s && s.dev.product.guestSeen)
  | 5 => s.dev.product.mac
  | 6 => if guestPart s then s.dev.product.guestId else 0
  | 7 => strVal ['C', 'o', 'l', 'e', 'v', 'e', 'r', 'e', ' ', 'S', 'y', 's', 't', 'e', 'm', 's']
  | 8 => strVal ['W', 'e', 'l', 'h', 'i', 'l', 'd', ' ', 'N', 'd', 'o', 's', 't', 'r', 'a']
  | _ => s.dev.product.boardIssue

def read1100 (s : State) (sub : Nat) : Nat :=
  match sub with
  | 1 => versionOf s 1
  | 2 => Config.interfaceVersion (versionOf s 2)
  | 3 => versionOf s 2
  | 4 => versionOf s 3
  | _ => rw s 0x110005

def read1200 (s : State) (sub : Nat) : Nat :=
  let h := s.host
  match sub with
  | 1 => (h.owner.map (·.val)).getD 0xFF
  | 2 => h.ownerPrio
  | 3 => if h.owner.isSome then (h.leaseEnd - s.clk.now + 999999) / 1000000 else 0
  | 4 => match h.claim with
    | some c => c.master.val * 256 + c.priority
    | none => 0xFFFF
  | 5 => bits 9 fun k => h.sessions.any fun x => x.slot.val = k
  | 6 => h.changes
  | 7 => h.tagFails
  | _ => rw s (keyOf 0x1200 sub)

def read2000 (s : State) (sub : Nat) : Nat :=
  match sub with
  | 1 => devCode s.dev.state
  | 3 => s.host.illegal
  | 4 => s.host.lastIllegal
  | 6 => pack [(28, 4, s.dev.lastKind), (24, 4, s.dev.lastPart), (16, 8, s.dev.lastCause)]
  | 7 => s.dev.phase
  | 8 => s.dev.inService.toNat
  | 0x0A => pack [(16, 16, s.dict.gen), (2, 1, bit s.dict.defaulted), (1, 1, bit s.dict.failed), (0, 1, bit s.dict.pendingW)]
  | 0x11 => s.host.noteSeq
  | n => if 0x20 ≤ n then ((assoc? s.host.noteRing (n - 0x20)).getD 0).toNat else rw s (keyOf 0x2000 n)

def read2100 (s : State) (sub : Nat) : Nat :=
  match sub with
  | 3 => s.steps.committed
  | 5 => stepStatus s
  | 7 => s.steps.lastWord.toNat - fld s.steps.lastWord.toNat 7 2 * 4   -- bits 7:2 read 0 (00 R7)
  | 9 => s.steps.lastFailed.toNat
  | 0x0C => s.steps.rollbacks
  | 0x0D => s.steps.discarded
  | 0x11 => loadStatus s.load
  | 0x41 => ((assoc? s.steps.prints (rw s 0x210040)).getD 0).toNat
  | 0x45 => pack [(8, 56, s.steps.replayStep), (2, 2, s.steps.replayResult), (0, 1, bit s.steps.replayActive)]
  | 0x53 => pack [(56, 8, s.fetch.state), (0, 56, s.fetch.step)]
  | n => if 0x20 ≤ n ∧ n ≤ 0x2F then ctxStatus (ctxAt s (n - 0x20)) else rw s (keyOf 0x2100 n)

def read3000 (s : State) (sub : Nat) : Nat :=
  match sub with
  | 7 => 0x0102
  | 8 => dirStatus s
  | 9 => s.topo.verdict
  | 0x0C => s.topo.unroutable
  | 0x0D => s.topo.outOfBlock
  | 0x0E => s.topo.detoured
  | 0x0F => s.topo.downEvents
  | n => rw s (keyOf 0x3000 n)

/-- The object record of R341. -/
def objWord (s : State) (obj : Nat) : Nat :=
  let o := (assoc? s.sync obj).getD {}
  pack [(64, 64, o.tag), (32, 32, o.count), (13, 1, 1), (0, 13, obj)]

/-- The binding of program channel `k`: the context whose loaded program names it in a barrier entry, and the entry's BOP (12 R314, R342). -/
def chanBinding (s : State) (k : Nat) : Option (Nat × Nat) :=
  if k < 2 then none
  else (upto 16).findSome? fun c =>
    if (ctxAt s c).state = .loaded || (ctxAt s c).state = .running || (ctxAt s c).state = .halted then
      ((progAt s c).groups.find? fun g => g.barrier && g.channel = k).map fun g => (c, g.bop)
    else none

/-- Channel status (R342): the generation in progress, or the last completed, and the binding. -/
def chanWord (s : State) (k : Nat) : Nat :=
  let c := nth s.chans k {}
  let b := (chanBinding s k).getD (0xF, 0)
  pack [(24, 8, if k ≠ 0 && c.state = 3 then c.gen + 255 else c.gen), (22, 2, c.state), (20, 2, b.2), (16, 4, b.1)]

def read3400 (s : State) (sub : Nat) : Nat :=
  match sub with
  | 1 => s.steps.attempt
  | 2 => s.steps.ownLag
  | 3 => s.steps.combLag
  | 4 => s.steps.combLag - s.steps.ownLag
  | 5 => match s.steps.slacks with
    | [] => 0
    | a :: r => r.foldl min a
  | 6 => s.steps.completions
  | 7 => s.steps.aborts
  | 8 => s.steps.barrierNs
  | 9 => s.steps.barrierMax
  | 0x11 => objWord s (rw s 0x340010)
  | 0x20 => s.coll.dup
  | 0x21 => s.coll.stale
  | 0x22 => s.coll.sentB
  | 0x23 => s.coll.reduced
  | 0x24 => s.coll.signals
  | n => if 0x40 ≤ n then chanWord s (n - 0x40) else rw s (keyOf 0x3400 n)

/-- The record a record selector names (03 R85): index is the count appended, modulo 2^32. -/
def numRecordAt (s : State) (ix : Nat) : Nat := ((s.num.recs.find? fun r => r.1 % 2 ^ 32 = ix).map (·.2.toNat)).getD 0

def read4000 (s : State) (sub : Nat) : Nat :=
  let n := s.num
  match sub with
  | 2 => n.sat
  | 3 => n.flush
  | 4 => n.special
  | 5 => n.specialTiles
  | 6 => n.raw
  | 7 => n.clamps
  | 8 => n.reservedExp
  | 9 => n.recIdx
  | 0x0B => numRecordAt s (rw s 0x40000A)
  | 0x0C => n.overruns
  | 0x10 => n.csumFail
  | 0x11 => n.csumFalse
  | 0x12 => n.laneFail
  | 0x13 => n.specialAcc
  | 0x14 => tolSelected s (rw s 0x440008)
  | 0x15 => n.optMis
  | 0x16 => n.optSkip
  | 0x17 => n.optFault
  | 0x18 => n.reexec
  | 0x19 => n.mismatch
  | 0x1A => n.unresolved
  | k => rw s (keyOf 0x4000 k)

def read5000 (s : State) (sub : Nat) : Nat :=
  match sub with
  | 4 => s.place.gen
  | 5 => s.place.moves
  | 6 => s.place.hintsOff
  | 8 => tensorPlacement s (rw s 0x500007)
  | 0x0B => taskPlacement s (rw s 0x50000A)
  | 0x30 => s.place.status
  | 0x50 => s.mem.hbmCorr
  | 0x51 => s.mem.hbmUncorr
  | 0x52 => s.mem.storeCorr
  | 0x53 => s.mem.storeUncorr
  | 0x54 => s.mem.rows.length
  | 0x55 => s.mem.lastUncorr.toNat
  | 0x56 => s.mem.passes
  | 0x57 => s.mem.integrity.toNat
  | n =>
    if 0x10 ≤ n ∧ n ≤ 0x17 then (coreMapOf s (n - 0x10)).toNat
    else if 0x18 ≤ n ∧ n ≤ 0x1F then slotBytes (nth s.place.slotMap (n - 0x18) (Vector.replicate 16 0))
    else if 0x21 ≤ n ∧ n ≤ 0x24 then occupancy s (n - 0x20)
    else if 0x48 ≤ n ∧ n ≤ 0x4F then (nth s.mem.usage (n - 0x48) 0).toNat
    else rw s (keyOf 0x5000 n)

def read5400 (s : State) (sub : Nat) : Nat :=
  let v := s.vers
  match sub with
  | 2 => v.reserve
  | 3 => poolCopies s
  | 4 => v.peak
  | 5 => v.minRes
  | 6 => v.stallFree
  | 7 => v.splits
  | 8 => v.stalls
  | 9 => v.stallNs
  | 0x0A => holdCopies s
  | n => rw s (keyOf 0x5400 n)

def read6000 (s : State) (sub : Nat) : Nat :=
  let k := s.ckpt
  match sub with
  | 2 => ckptStatus s
  | 7 => k.lastCut
  | 8 => k.lastLocal
  | 9 => k.lastJob
  | 0x0B => k.marks
  | 0x0C => k.abandoned
  | 0x0D => k.cuts
  | 0x0E => cutBytes s
  | 0x11 =>
    let n := rw s 0x600010
    let a := nth k.areas n {}
    areaWord (if k.retain.map (·.1) = some n then { a with state := 5 } else a)
  | 0x19 => restStatus k.restCut k.restReason k.restore k.restNoState
  | 0x1B => restStatus k.expCut k.expReason k.expStatus false
  | n => rw s (keyOf 0x6000 n)

/-- Has the power hub, PD40, reported its sensors since the last module reset (20 R511)? -/
def hubReported (s : State) : Bool := s.domains.getLsbD 40 || s.dev.down.isSome

/-- The power domain of a core's quadrant: cores 0 to 3, 4 to 7, 8 to 11, 12 to 16 (01 R32). -/
def quadrantOf (g : Nat) : Nat := 5 * (g / 17) + min 3 (g % 17 / 4)

/-- Has a core's island been powered since the last module reset (20 R511)? A partition in reset shows the last values. -/
def coreReported (s : State) (g : Nat) : Bool :=
  s.domains.getLsbD (quadrantOf g) || s.dev.down.isSome || (s.dev.inReset.getLsbD (g / 17) && decide (s.dev.state ≠ .boot))

/-- Core status (17 R464). -/
def coreStatus (s : State) (g : Nat) : Nat :=
  let c := coreAt s g
  if coreReported s g && (coreActive s g || c.test) then
    pack [(96, 32, f32Tenths c.temp), (80, 16, c.setpoint / 10), (64, 16, c.freq), (32, 32, sat 32 c.stretch), (24, 8, ceilOf s g), (16, 8, c.therm), (0, 1, 1)]
  else 0

def read7000 (s : State) (sub : Nat) : Nat :=
  let w := s.power
  match sub with
  | 3 => match w.leaseEnd with
    | some t => (t - s.clk.now + 999999) / 1000000
    | none => 0
  | 0x10 => s.domains.toNat
  | 0x11 => f32Of w.inputW
  | 0x12 => f32Ratio (avgPower s).1 (avgPower s).2
  | 0x13 => w.target / w.targetDen
  | 0x14 => reinStatus s
  | 0x15 => emerStatus s
  | 0x16 => w.headroom
  | 0x17 => w.reined
  | 0x18 => w.stretches
  | 0x19 => w.floors
  | 0x1A => w.expiries
  | 0x31 => if hubReported s then (Config.railReading (rw s 0x700030) s.free).toNat else 0
  | n => rw s (keyOf 0x7000 n)

/-- Highest core sensor of a partition's die: tenths of a °C. -/
def dieTemp (s : State) (p : Nat) : Int :=
  [2 * p, 2 * p + 1].foldl (fun m n => max m (nth s.mem.stk n {}).die) ((upto 17).foldl (fun m k => max m (coreAt s (17 * p + k)).temp) (coreAt s (17 * p)).temp)

/-- Thermal status of a stack (09 R240); the default 0 until a sample sets it (20 R508). -/
def stackWord (s : State) (n : Nat) : Nat :=
  let k := nth s.mem.stk n {}
  let em := s.power.emers.any fun e => (match e.kind with | .dramHot m => m.val = n | _ => false) && !e.cleared
  if !k.sampled then 0 else pack [(8, 8, k.ceil), (2, 1, bit k.fallback), (1, 1, bit k.twice), (0, 1, bit em)]

/-- The uncore domain of a partition (01 R32). -/
def uncoreOf (p : Nat) : Nat := 5 * p + 4

/-- What an entry of a block in a power domain shows: its reading, or the last one before the block lost its power (R511). -/
def keptOr (s : State) (dom key live : Nat) : Nat := if s.domains.getLsbD dom then live else (assoc? s.dict.kept key).getD live

/-- The key of a core's status among the kept readings, beyond every entry's. -/
def coreKey (g : Nat) : Nat := 2 ^ 24 + g

/-- Selected core status as it shows (R511). -/
def coreShown (s : State) (g : Nat) : Nat := keptOr s (quadrantOf g) (coreKey g) (coreStatus s g)

def read7400 (s : State) (sub : Nat) : Nat :=
  match sub with
  | 0x18 => if emerBit s fun e => decide (e = .hubHot) then f32Tenths s.power.hubTemp else if hubReported s then f32Tenths (Config.hubReading s.free % 1100) else 0
  | 0x19 => if emerBit s fun e => decide (e = .coolant) then f32Tenths s.power.inlet else if hubReported s then f32Tenths (Config.inletReading s.free % 451) else 0
  | 0x1A => if hubReported s then (Config.coolantOutlet s.free).toNat else 0
  | 0x21 => coreShown s (rw s 0x740020)
  | n =>
    if 0x10 ≤ n ∧ n ≤ 0x17 then keptOr s (uncoreOf (n - 0x10)) (keyOf 0x7400 n) (f32Tenths (dieTemp s (n - 0x10)))
    else if 0x40 ≤ n ∧ n ≤ 0x4F then keptOr s (uncoreOf ((n - 0x40) / 2)) (keyOf 0x7400 n) (f32Tenths (nth s.mem.stk (n - 0x40) {}).temp)
    else if 0x50 ≤ n ∧ n ≤ 0x5F then keptOr s (uncoreOf ((n - 0x50) / 2)) (keyOf 0x7400 n) (stackWord s (n - 0x50))
    else rw s (keyOf 0x7400 n)

/-- The record of a SEQ: in the ring, else in the kept region (14 R397). -/
def ledgerRecordAt (s : State) (seq : Nat) : Nat :=
  match s.ledger.ring.find? fun r => r.seq = seq with
  | some r => lrecWord r
  | none => ((s.ledger.kept.find? fun r => r.seq = seq).map lrecWord).getD 0

def read8000 (s : State) (sub : Nat) : Nat :=
  let t := s.tests
  match sub with
  | 1 => s.ledger.ring.length
  | 2 => s.ledger.written
  | 4 => ledgerRecordAt s (rw s 0x800003)
  | 5 => (ledgerDigest s.ledger).toNat
  | 6 => optime s
  | 7 => s.clk.pcycle
  | 9 => ((summaryOf s ⟨fld (rw s 0x800008) 39 32, fld (rw s 0x800008) 31 0⟩).map sumWord).getD 0
  | 0x0A => bits 8 (spareAvailable s)
  | 0x0B => s.place.withheld.length
  | 0x0C => s.ledger.lost
  | 0x12 => t.trotRun
  | 0x13 => t.trotFail
  | 0x22 => gallopStatus t
  | 0x23 => t.runs
  | 0x24 => t.aborts
  | 0x27 => versionOf s 3
  | n => rw s (keyOf 0x8000 n)

def read8400 (s : State) (sub : Nat) : Nat :=
  let r := s.recov
  match sub with
  | 5 => recovStatus r
  | 6 => tandem s
  | 7 => r.set.length
  | 9 => (r.set.getD (rw s 0x840008) 0).toNat
  | 0x0A => r.remap
  | 0x0B => r.partResets
  | 0x0C => r.modResets
  | 0x0D => s.tests.coreResets
  | n => rw s (keyOf 0x8400 n)

/-- Update status (18 R487). -/
def updStatus (f : Fw) : Nat := pack [(56, 8, f.updReason), (52, 4, f.updType), (48, 4, f.updState), (40, 8, f.updPct)]

/-- The header of the dump that a selector names, without its CRC. -/
def dumpSel (f : Fw) (sel : Nat) : Option (BitVec 256) := if sel / 128 % 2 = 1 then nth f.sums (sel % 8) none else nth f.dumps (sel % 8) none

/-- SIZE of a dump header. -/
def dumpSize (h : BitVec 256) : Nat := fld h.toNat 95 64

/-- Byte `i` of what an ostler holds: x1 to x31 and the pc of its RV32IMAC core, then its 512 KiB of local memory, program and data (R466);
free (log 208). -/
def ostlerByte (contents i : Nat) : Byte := Config.freeByte contents i

/-- The free contents of the body of the dump that a selector names. -/
def dumpBody (f : Fw) (sel : Nat) : Nat := if sel / 128 % 2 = 1 then nth f.sumMem (sel % 8) 0 else nth f.dumpMem (sel % 8) 0

/-- The CRC of a dump: over bits 255:32 of its header and the body as it was written, bytes in ascending order (18 R484). -/
def dumpCrc (h : BitVec 256) (seed : Nat) : Nat := (crc32 (toBytes 28 (h.toNat / 2 ^ 32) ++ (upto (dumpSize h - 32)).map (ostlerByte seed))).toNat

/-- The header with its CRC. -/
def dumpShown (f : Fw) (sel : Nat) : Option (BitVec 256) :=
  let seed := if sel / 128 % 2 = 1 then nth f.sumMem (sel % 8) 0 else nth f.dumpSeed (sel % 8) 0
  (dumpSel f sel).map fun h => h ||| BitVec.ofNat 256 (dumpCrc h seed)

/-- A dump's bytes: its header, and a body that begins with what the ostler held, markers of reads that timed out among it; no rule gives the rest (R482,
R483, log 4). -/
def dumpBytes (h : BitVec 256) (k : Nat) : List Byte := toBytes 32 h.toNat ++ (upto (dumpSize h - 32)).map (ostlerByte k)

/-- Byte o of the ostler status: a dump without a restart shows too (18 R487). -/
def ostlerCode (f : Fw) (o : Nat) : Nat :=
  let n := (nth f.ostlers o {}).state
  if n = 0 && f.dumping.any fun d => d.1 = o then 1 else n

def read9000 (s : State) (sub : Nat) : Nat :=
  let f := s.fw
  match sub with
  | 2 => updStatus f
  | 3 => pack ([1, 2, 3].map fun t => (8 * t, 8, bankByte (pairOf s t)))
  | 6 => f.deferred
  | 7 => f.reversions
  | 0x0B => f.restarts
  | 0x0C => pack ((upto 12).map fun o => (8 * o, 8, ostlerCode f o))
  | n => rw s (keyOf 0x9000 n)

def read9100 (s : State) (sub : Nat) : Nat :=
  let f := s.fw
  match sub with
  | 1 => f.logIdx
  | 3 => ((f.log.find? fun e => e.seq % 2 ^ 32 = rw s 0x910002).map (·.entry.toNat)).getD 0
  | 5 => f.traceDrops
  | 6 => localCounter s
  | 0x10 => f.flashIdx
  | 0x12 => (f.flashLog.getD (f.flashIdx - 1 - rw s 0x910011) 0).toNat * bit (decide (rw s 0x910011 < f.flashIdx))
  | 0x13 => f.flashLoss
  | 0x20 => f.dumpCount
  | 0x22 =>
    ((dumpShown f (rw s 0x910021)).getD 0).toNat
  | 0x24 => f.expState
  | n => rw s (keyOf 0x9100 n)

def readA000 (s : State) (sub : Nat) : Nat :=
  let c := s.sec
  match sub with
  | 1 => secConfig s
  | 3 => (nth c.meas (rw s 0xA00002) 0).toNat
  | 4 => pack ([1, 2, 3].map fun t => (8 * t, 8, nth c.svns (t - 1) 0))
  | 5 => c.revoked.toNat
  | 0x11 => certChunkAt s (rw s 0xA00010)
  | 0x12 => pack ([0, 1, 2].map fun k => (32 * k, 32, Config.certLength k))
  | 0x21 => pack [(28, 4, c.attState), (0, 16, c.report.length)]
  | 0x23 => ofBytes ((c.report.drop (64 * rw s 0xA00022)).take 64)
  | 0x30 => c.claimNonce.toNat
  | 0x51 => c.debugNonce.toNat
  | 0x52 => c.events
  | n => if 0x40 ≤ n ∧ n ≤ 0x47 then credWord (nth c.creds (n - 0x40) {}) else rw s (keyOf 0xA000 n)

def readB000 (s : State) (sub : Nat) : Nat :=
  match sub with
  | 2 => s.sec.denials
  | 3 => s.sec.lastDenial.toNat
  | n => rw s (keyOf 0xB000 n)

def readC000 (s : State) (sub : Nat) : Nat :=
  match sub with
  | 1 => prodStatus s
  | 2 => s.dev.prodNonce.toNat
  | _ => 0

/-- A link entry as it shows (R511). -/
def linkShown (s : State) (l sub : Nat) : Nat := keptOr s (uncoreOf (l / 6)) (keyOf (0x3010 + l) sub) (readLink s l sub)

/-- The readings of a partition's blocks: cores, die and stack temperatures, stack words, links. -/
def partReadings (s : State) (p : Nat) : List (Nat × Nat) :=
  let temps := [0x10 + p, 0x40 + 2 * p, 0x41 + 2 * p, 0x50 + 2 * p, 0x51 + 2 * p]
  ((upto 17).map fun k => (coreKey (17 * p + k), coreShown s (17 * p + k))) ++ (temps.map fun n => (keyOf 0x7400 n, read7400 s n)) ++
    (upto 6).flatMap fun k => (upto 8).map fun i => (keyOf (0x3010 + 6 * p + k) (i + 1), linkShown s (6 * p + k) (i + 1))

/-- A partition is about to lose its power: what its blocks report last is kept (R511). -/
def keepReadings (s : State) (p : Nat) : State :=
  let now := partReadings s p
  { s with dict := { s.dict with kept := now ++ s.dict.kept.filter fun x => !(now.map (·.1)).contains x.1 } }

/-- What a listed entry that is not WO reads, by index. -/
def readListed (s : State) (index sub : Nat) : Nat :=
  match index with
  | 0x1000 => read1000 s sub
  | 0x1100 => read1100 s sub
  | 0x1200 => read1200 s sub
  | 0x2000 => read2000 s sub
  | 0x2100 => read2100 s sub
  | 0x2200 => resultWord s sub
  | 0x3000 => read3000 s sub
  | 0x3400 => read3400 s sub
  | 0x4000 => read4000 s sub
  | 0x4400 => if sub = 9 then scaleState s (rw s 0x440008) else rw s (keyOf 0x4400 sub)
  | 0x5000 => read5000 s sub
  | 0x5400 => read5400 s sub
  | 0x6000 => read6000 s sub
  | 0x7000 => read7000 s sub
  | 0x7400 => read7400 s sub
  | 0x8000 => read8000 s sub
  | 0x8400 => read8400 s sub
  | 0x9000 => read9000 s sub
  | 0x9100 => read9100 s sub
  | 0x9200 => rw s (keyOf 0x9200 sub)
  | 0xA000 => readA000 s sub
  | 0xB000 => readB000 s sub
  | 0xC000 => readC000 s sub
  | n => linkShown s (n - 0x3010) sub

/-- Does every entry of the area read zero: blinkers on NDS9-768L, production test outside its state (21 R541, 22 R558)? -/
def areaShut (s : State) (index : Nat) : Bool :=
  (decide (index = 0xB000) && !guestPart s) || (decide (index = 0xC000) && !s.dev.prodTest)

/-- A counter is read modulo its entry's width (log 7). -/
def readEntry (s : State) (index sub : Nat) : Nat :=
  match entryOf index sub with
  | none => 0
  | some e => if e.acc = .wo || areaShut s index then 0 else if sub = 0 then e.dflt else readListed s index sub % 2 ^ (8 * e.size)

end Sys2Proof.Machine
end

