-- ==== Sys2Proof/Machine/Frames.lean ====
section
/-! DEFINITION. Sending, free draws, flits and their headers (11 R279, R280, R305), sync frames (11 R284 to R286), and the combining of barrier channels (12 R328 to R332). -/

namespace Sys2Proof.Machine

/-- The outcome of a command that has its effect. -/
abbrev Out := Host.Outcome State Fault Refusal

/-! ### Sending and free values -/

/-- Puts something on a link, lane, port or bus. -/
def emit (s : State) (e : Emit) : State := { s with sent := s.sent ++ [e] }

/-- Several things in order. -/
def emits (s : State) (es : List Emit) : State := { s with sent := s.sent ++ es }

/-- The next free value, and the state that has drawn it (log 4). -/
def drawnWord (s : State) : BitVec 64 := Config.freeWord s.free
def drawn (s : State) : State := { s with free := s.free + 1 }

/-! ### Flit headers (11 R305) -/

def hdDest (h : BitVec 96) : Nat := fld h.toNat 95 81
def hdPart (h : BitVec 96) : Nat := fld h.toNat 80 78
def hdSrc (h : BitVec 96) : Nat := fld h.toNat 77 63
def hdVc (h : BitVec 96) : Nat := fld h.toNat 62 61
def hdDdir (h : BitVec 96) : Nat := fld h.toNat 60 58
def hdDleft (h : BitVec 96) : Nat := fld h.toNat 57 56
def hdType (h : BitVec 96) : Nat := fld h.toNat 55 50
def hdDtimes (h : BitVec 96) : Nat := fld h.toNat 49 48
def hdFlow (h : BitVec 96) : Nat := fld h.toNat 47 32
def hdSeq (h : BitVec 96) : Nat := fld h.toNat 31 16

/-- A header with bits `hi` to `lo` replaced. -/
def hdSet (h : BitVec 96) (hi lo v : Nat) : BitVec 96 :=
  BitVec.ofNat 96 (h.toNat - fld h.toNat hi lo * 2 ^ lo + v % 2 ^ (hi + 1 - lo) * 2 ^ lo)

/-- The CRC of a flit: over header and payload, bytes in ascending order (R279). -/
def flitCrc (h : BitVec 96) (payload : List Byte) : BitVec 32 := crc32 (toBytes 12 h.toNat ++ payload)

/-- Changes link `l`. -/
def onLink (s : State) (l : Nat) (f : Link → Link) : State := { s with links := updN s.links l f }

/-! ### Sending a flit (11 R280, R305) -/

/-- The CREDIT field of the next flit of a link: the first virtual channel with credits to return. -/
def creditField (k : Link) : Nat :=
  match (upto 4).find? fun v => nth k.credits v 0 > 0 with
  | some v => pack [(14, 2, v), (0, 14, sat 14 (nth k.credits v 0))]
  | none => 0

/-- A link after it has put a flit on the wire: it stays in the buffer until it is acknowledged, and has taken a credit (R280, R307). -/
def linkSends (k : Link) (f : Flit) : Link :=
  let v := fld (creditField k) 15 14
  { k with txSeq := f.seq, txBuf := k.txBuf ++ [f], credits := updN k.credits v fun n => n - fld (creditField k) 13 0,
           txCred := updN k.txCred (hdVc f.hdr) (· - 1) }

/-- May a flit with header `h` go out: room in the 512 KiB buffer of 2,048 flits, a credit of its virtual channel, and no flit of that
channel before it (R280, R307; log 29)? -/
def linkRoom (k : Link) (h : BitVec 96) : Bool :=
  decide (k.txBuf.length < 2048) && decide (nth k.txCred (hdVc h) 0 > 0) && !(k.waits.any fun f => hdVc f.hdr = hdVc h)

/-- A flit on the wire: header, payload and its CRC-32 (R279). -/
def onWire (l : Nat) (f : Flit) : Emit := .flit l f (flitCrc f.hdr f.payload)

/-- Sends a flit on a link with the link's next SEQ, or lets it wait; in BOOT and OUT_OF_SERVICE none goes out (R308). -/
def pushFlit (s : State) (l : Nat) (f : Flit) : State :=
  let k := linkAt s l
  if forwards s.dev.state && linkRoom k f.hdr then
    let f := { f with hdr := hdSet (hdSet f.hdr 31 16 (k.txSeq.toNat + 1)) 15 0 (creditField k), seq := k.txSeq + 1, replays := 0 }
    emit (onLink s l fun k => linkSends k f) (onWire l f)
  else onLink s l fun k => { k with waits := k.waits ++ [f] }

/-- The header of a flit that the module itself sends (R305). -/
def ownHeader (s : State) (dest part ty : Nat) (flow : BitVec 16) : BitVec 96 :=
  BitVec.ofNat 96 (pack [(81, 15, dest), (78, 3, part), (63, 15, ownCoord s), (50, 6, ty), (32, 16, flow.toNat)])

/-! ### Link-control flits (11 R305, 15 R413) -/

/-- FLOW of a flit that belongs to no collective. No rule gives these flits a flow or a payload layout. DESIGN CHOICE, log 224. -/
def streamFlow : BitVec 16 := 0xFFFF

/-- A link-control flit to the neighbour in direction `d`: R309 does not stop it (15 R413). -/
def controlOn (s : State) (d : Dir) (payload : List Byte) : State :=
  let h := ownHeader s (stepCoord s (ownCoord s) d) 0 2 streamFlow
  match pickLink s d (ownCoord s) (hdDest h) streamFlow.toNat with
  | some l => if forwards s.dev.state then pushFlit s l { hdr := h, payload := payload ++ List.replicate (240 - payload.length) 0, seq := 0, hdrIn := h } else s
  | none => s

/-- A fence record goes to the neighbours in directions `ds` (15 R413), from a module that forwards (11 R308). -/
def sendFence (s : State) (r : BitVec 128) (ds : List Nat) : State :=
  if forwards s.dev.state then ds.foldl (fun s k => controlOn s (dirOf k) (5 :: toBytes 16 r.toNat)) (emit s (.fence r ds)) else s

/-! ### Notifications (20 R520 to R523) -/

/-- May records be posted now: not in BOOT, whose end posts the first record (R523). -/
def canPost (s : State) : Bool := s.dev.on && decide (s.dev.state ≠ .boot)

/-- Is an event of BOOT's phases 4 and 5 posted later, once the record of its end is out? Those before the end of phase 3 never are (R523).
DEDUCED, log 223. -/
def postsLater (s : State) : Bool := s.dev.on && decide (s.dev.state = .boot) && decide (s.dev.phase ≥ 4)

/-- Is the kind enabled, and kind 15 not within 10 ms of the last (R520, R522)? -/
def noteDue (s : State) (kind : Nat) : Bool :=
  (rw s 0x200010).testBit kind && (kind ≠ 15 || match s.host.note15 with
    | some t => decide (s.clk.now ≥ t + 10000000)
    | none => true)

/-- A notification record (R521). -/
def noteRecord (s : State) (kind index sub arg : Nat) : BitVec 256 :=
  BitVec.ofNat 256 (pack [(192, 64, localCounter s), (160, 32, s.host.noteSeq), (112, 48, s.steps.committed), (104, 8, kind), (88, 16, index),
    (80, 8, sub), (0, 64, arg)])

/-- The header of a Halter message (19 R497): MAGIC, VER, TYPE, SESSION, SEQ, LENGTH, STATUS. -/
def halterHeader (session ty seq length status : Nat) : BitVec 128 :=
  BitVec.ofNat 128 (pack [(112, 16, 0x4854), (104, 8, 1), (96, 8, ty), (64, 32, session), (32, 32, seq), (16, 16, length), (0, 16, status)])

/-- The key of a session's module-to-master tags: bytes 32 to 63 of K (21 R534). -/
def tagKey (x : Session) : BitVec 256 := BitVec.extractLsb' 256 256 x.key

/-- The tag of a message in a session, over its header and body (21 R534). -/
def tagOf (x : Session) (hdr : BitVec 128) (body : List Byte) : Digest := Config.kmac (tagKey x) (toBytes 16 hdr.toNat ++ body)

/-- The Halter NOTIFY messages of a record: one for each session with room (R523). -/
def noteEmits (h : HostPort) (r : BitVec 256) : List Emit :=
  (h.sessions.filter fun x => decide (x.queued < 64)).map fun x =>
    let hdr := halterHeader x.number.toNat 0x40 h.noteSeq 32 0
    .note x.slot hdr r (tagOf x hdr (toBytes 32 r.toNat))

/-- The host port after a record is posted (R523). -/
def notePosted (h : HostPort) (kind now : Nat) (r : BitVec 256) : HostPort :=
  { h with noteRing := assocSet h.noteRing (h.noteSeq % 32) r, noteSeq := h.noteSeq + 1, msix1 := h.msix1 + 1,
           note15 := if kind = 15 then some now else h.note15,
           sessions := h.sessions.map fun x => if x.queued < 64 then { x with queued := x.queued + 1 } else x }

/-- Posts a notification of an enabled kind (R520 to R523). -/
def post (s : State) (kind index sub arg : Nat) : State :=
  if canPost s && noteDue s kind then
    let r := noteRecord s kind index sub arg
    { s with host := notePosted s.host kind s.clk.now r, sent := s.sent ++ noteEmits s.host r }
  else if postsLater s && kind ≠ 1 && noteDue s kind then { s with host := { s.host with noteHeld := s.host.noteHeld ++ [(kind, index, sub, arg)] } }
  else s

/-- The records that BOOT has held back are posted (R523). -/
def postHeld (s : State) : State :=
  s.host.noteHeld.foldl (fun s x => post s x.1 x.2.1 x.2.2.1 x.2.2.2) { s with host := { s.host with noteHeld := [] } }

/-! ### Frames (11 R284 to R286, 12 R330) -/

/-- A sync frame's 96 bits. -/
def frameOf (ty seq payload : Nat) : BitVec 96 :=
  let top := pack [(88, 8, ty), (80, 8, seq), (16, 64, payload)]
  BitVec.ofNat 96 (top ||| (crc16 80 (top >>> 16)).toNat)

/-- Does boundary scan drive the links: an 1149.6 test runs in the production-test state (22 R557)? -/
def scanDrives (s : State) : Bool := s.dev.prodTest && s.dev.scanOpen && (decide (s.dev.tap = .extestPulse) || decide (s.dev.tap = .extestTrain))

/-- May a frame of TYPE `ty` be sent: in BOOT and OUT_OF_SERVICE no UP and DOWN frame goes out (R308). DEDUCED, log 225: LEAVING, which R302,
R304 and 16 R436 have sent without regard to the state, does. -/
def mayFrame (s : State) (ty : Nat) : Bool := decide (ty = 4) || (!scanDrives s && (decide (ty ≥ 3) || forwards s.dev.state))

/-- Sends a frame of TYPE 1 to 4 in a direction: the same SEQ on every in-service lane of the bundle (R285). -/
def sendFrame (s : State) (ty payload : Nat) (d : Dir) : State :=
  if !mayFrame s ty then s else
  let seq := ((assoc? (sideOf s d).txSeqs ty).getD 0) % 256
  let k := dirCode d
  { s with topo := { s.topo with sides := updN s.topo.sides k fun x => { x with txSeqs := assocSet x.txSeqs ty (seq + 1) } },
           sent := s.sent ++ (dirLinks s d).map fun l => .frame l (frameOf ty seq payload) }

/-- A frame in each of several directions. -/
def sendFrames (s : State) (ty payload : Nat) (ds : List Dir) : State := ds.foldl (fun s d => sendFrame s ty payload d) s

/-- The directions that leave the block nowhere: those whose next position lies in the block (R292, R293). -/
def blockDirs (s : State) : List Dir := allDirs.filter (stepInBlock s (ownCoord s))

/-- The payload of an UP or DOWN frame (12 R330). -/
def chanPayload (chan gen attempt axis count op value : Nat) : Nat :=
  pack [(58, 6, chan), (50, 8, gen), (46, 4, attempt), (44, 2, axis), (38, 6, count), (36, 2, op), (0, 32, value)]

/-- Channel 0's generation for a step (12 R329). -/
def gen0 (n : Nat) : Nat := n % 256

/-- Changes a channel. -/
def onChan (s : State) (k : Nat) (f : Chan → Chan) : State := { s with chans := updN s.chans k f }

/-- A channel whose instance is complete with a combined word: channel 0 keeps its step's generation, the others count (R329). -/
def chanDone (k : Nat) (c : Chan) (g word : Nat) : Chan :=
  { c with gen := if k = 0 then g else (g + 1) % 256, own := none, phase := 0, input := none, seen := false, state := 3, task := none,
           word := BitVec.ofNat 32 word, early := c.early.filter fun f => f.1 ≠ g }

/-! ### Combining (12 R328 to R332) -/

/-- Channel `k`. -/
def chanAt (s : State) (k : Nat) : Chan := nth s.chans k {}

/-- The combine of a channel (10 R263, 13 R349, 12 R314 BOP). -/
def combine (k op : Nat) (a b : BitVec 32) : BitVec 32 :=
  let x := a.toNat
  let y := b.toNat
  match k with
  | 0 => BitVec.ofNat 32 (pack [(16, 16, max (x / 65536) (y / 65536)), (1, 15, x / 2 ||| y / 2), (0, 1, x % 2 * (y % 2))])
  | 1 => BitVec.ofNat 32 (pack [(16, 16, max (x / 65536) (y / 65536)), (1, 15, x / 2 ||| y / 2), (0, 1, x % 2 * (y % 2))])
  | _ => match op with
    | 0 => a &&& b
    | 1 => a ||| b
    | 2 => if a < b then b else a
    | _ => if a < b then a else b

/-- The identity of a channel (R332, 13 R349). -/
def chanIdentity (k op : Nat) : BitVec 32 := if k < 2 then 1 else if op = 0 || op = 3 then 0xFFFFFFFF else 0

/-- Does the module hold a position of the job, or run a replay? -/
def takesPart (s : State) : Bool :=
  s.steps.replayActive || ((decide (s.recov.role = .working) || decide (s.recov.role = .taking)) &&
    (decide (s.dev.state = .joined) || decide (s.dev.state = .recovery)))

/-- Does the module contribute a word of its own to channel `k`'s instance of generation `g`, now or once its program runs, rather than the
identity (R332)? One in SPARE does not, nor one without a loaded program that binds the channel. Channels 0 and 1 are the job's, whose program
is context 0's: before its START, from READY, that binds the first two generations of channel 0 (R329). A module in TEST, or one that meets
another generation, is one of the other modules of a replay block, and so is one whose context 15 has not started (10 R275).
DESIGN CHOICE, log 79. -/
def chanBound (s : State) (k g : Nat) : Bool :=
  if k < 2 then takesPart s || (decide (s.recov.role ≠ .spare) && (ctxAt s 0).prog.isSome && decide (s.dev.state ≠ .test) &&
    (k = 1 || decide (g = (s.steps.committed + 1) % 256) || decide (g = (s.steps.committed + 2) % 256)))
  else decide (s.recov.role ≠ .spare) && (chanBinding s k).isSome

/-- The step that a channel-0 instance belongs to: the one after the last closed. -/
def stepClosing (s : State) : Nat := (if s.steps.replayActive then s.steps.replayStep else s.steps.committed) + 1

/-- The generation of the instance in progress (R329): a module outside the job takes it from the frames. -/
def genNow (s : State) (k g : Nat) : Nat :=
  if takesPart s || s.recov.role = .spare then (if k = 0 then stepClosing s % 256 else (chanAt s k).gen)
  else if (chanAt s k).state = 1 || (chanAt s k).state = 2 then (chanAt s k).gen else g

/-- What came along an axis from one side: members covered and their combined value. -/
def upFrom (c : Chan) (k g axis : Nat) (plus : Bool) : Nat × BitVec 32 :=
  ((c.early.find? fun f => f.1 = g && f.2.1 = axis && f.2.2.1 = plus).map fun f => (f.2.2.2.1, f.2.2.2.2)).getD (0, chanIdentity k c.op)

/-- The same, a blocked neighbour counting as one member with the identity (R332). -/
def sideIn (s : State) (k axis : Nat) (plus : Bool) : Nat × BitVec 32 :=
  let c := chanAt s k
  let d := dirOf (2 * axis + if plus then 0 else 1)
  let r := upFrom c k c.gen axis plus
  if r.1 = 0 && blockedDir s d && stepInBlock s (ownCoord s) d then (1, r.2) else r

/-- The largest COUNT a module sends on a ring (R331 point 3). -/
def upCap (s : State) (axis : Nat) (plus : Bool) : Nat :=
  if isRing s axis then (if plus then blockLen s axis / 2 else (blockLen s axis - 1) / 2) else blockLen s axis

/-- Colours of the coordinates of an axis, different for neighbours, a ring's ends among them. -/
def axisColour (s : State) (axis k : Nat) : Nat :=
  let n := sizeOn s axis
  if k % n + 1 = n && n % 2 = 1 then 2 else k % n % 2

/-- How a mark names the blocked coordinate `b` for a frame that travels to one side. -/
def markColour (s : State) (axis b : Nat) (plus : Bool) : Nat := axisColour s axis (if plus then b else b + 1)

/-- The mark, in bits 35:32, of a frame that goes round the blocked position next in direction `d` by way of `p`: R332 has it forwarded
unchanged, and no field of R330 says where it turns. It tells a module on the way whether it stands before, beside or past that position.
DESIGN CHOICE, log 193. -/
def bridgeMark (s : State) (d p : Dir) : Nat :=
  (1 + 3 * (perps d).idxOf p + markColour s (axisOf d) (coordOn (stepCoord s (ownCoord s) d) (axisOf d)) (isPlus d)) <<< 32

/-- Sends one UP frame of the phase that covers `n` members of the opposite side, round a blocked position with the count raised by one
(R331, R332). -/
def sendUpCount (s : State) (k axis : Nat) (plus : Bool) (w v : BitVec 32) (n : Nat) : State :=
  let c := chanAt s k
  let d := dirOf (2 * axis + if plus then 0 else 1)
  let past := blockedDir s d
  let count := n + 1 + bit past
  let frame := chanPayload k c.gen s.steps.attempt axis count c.op (combine k c.op w v).toNat
  if count > upCap s axis plus || !stepInBlock s (ownCoord s) d then s
  else if !past then sendFrame s 1 frame d
  else if !stepInBlock s (stepCoord s (ownCoord s) d) d then s
  else match detourDir s 0 d with
    | some p => sendFrame s 1 (frame + bridgeMark s d p) p
    | none => s

/-- Sends the phase's UP frame in one direction. Where the opposite neighbour is blocked and nothing has come from that side, a frame without
it goes first, so that no receiver skips a count (R331 points 2 and 3, R332). -/
def sendUp (s : State) (k axis : Nat) (plus : Bool) : State :=
  match (chanAt s k).input with
  | none => s
  | some w =>
    let (n, v) := sideIn s k axis (!plus)
    let s := if n = 1 && (upFrom (chanAt s k) k (chanAt s k).gen axis (!plus)).1 = 0 then sendUpCount s k axis plus w v 0 else s
    sendUpCount s k axis plus w v n

/-- Is the phase on an axis complete (R331 point 4)? -/
def phaseDone (s : State) (k axis : Nat) : Bool :=
  let e := blockLen s axis
  let m := (sideIn s k axis false).1
  let p := (sideIn s k axis true).1
  if isRing s axis then decide (m + p + 1 ≥ e)
  else decide (m ≥ blockPos s (ownCoord s) axis) && decide (p + blockPos s (ownCoord s) axis + 1 ≥ e)

/-- A phase begins with its input (R331 point 1). -/
def enterPhase (s : State) (k ph : Nat) (w : BitVec 32) : State :=
  let s := onChan s k fun c => { c with phase := ph, input := some w }
  if ph < 3 && blockLen s ph > 1 then sendUp (sendUp s k ph true) k ph false else s

/-- Completes the phases that can be completed; an axis of extent 1 is skipped (R331). -/
def chanGo (s : State) (k : Nat) : Nat → State
  | 0 => s
  | fuel + 1 =>
    let c := chanAt s k
    match c.input with
    | none => s
    | some w =>
      if c.phase ≥ 3 then s
      else if blockLen s c.phase ≤ 1 then chanGo (enterPhase s k (c.phase + 1) w) k fuel
      else if phaseDone s k c.phase then
        chanGo (enterPhase s k (c.phase + 1) (combine k c.op w (combine k c.op (sideIn s k c.phase true).2 (sideIn s k c.phase false).2))) k fuel
      else s

/-- The module's word for the instance of generation `g` (R328, R331). -/
def chanOwn (s : State) (k g op ctx : Nat) (w : BitVec 32) : State :=
  let s := onChan s k fun c => { c with gen := g, own := some w, state := 2, op := op, ctx := ctx }
  chanGo (enterPhase s k 0 w) k 4

/-- The combined word, once the last phase is complete. -/
def chanWordOf (s : State) (k : Nat) : Option (BitVec 32) := if (chanAt s k).phase ≥ 3 then (chanAt s k).input else none

/-- A received UP value joins what its side has delivered: the larger count, the combine of the values. -/
def upTaken (c : Chan) (k g axis : Nat) (plus : Bool) (count : Nat) (v : BitVec 32) : Chan :=
  let r := upFrom c k g axis plus
  let rest := c.early.filter fun f => !(f.1 = g && f.2.1 = axis && f.2.2.1 = plus)
  { c with early := rest ++ [(g, axis, plus, max r.1 count, combine k c.op r.2 v)] }

/-- An unbound module contributes the identity as soon as it sees the instance's first frame (R332); a fenced one nothing (15 R416). -/
def chanIdle (s : State) (k : Nat) : State :=
  let c := chanAt s k
  let g := genNow s k ((c.early.head?.map (·.1)).getD 0)
  if c.own.isNone && !chanBound s k g && s.recov.role ≠ .fenced && (c.early.any fun f => f.1 = g) then
    chanOwn s k g c.op 0xF (chanIdentity k c.op)
  else s

/-- A valid UP frame of the current or the next generation is combined (R329, R331). -/
def chanTake (s : State) (k g op axis : Nat) (plus : Bool) (count : Nat) (v : BitVec 32) : State :=
  let now := genNow s k g
  if g ≠ now && g ≠ (now + 1) % 256 then s
  else
    let grew := decide (count > (upFrom (chanAt s k) k g axis plus).1)
    let seen (c : Chan) : Chan := if g = now && (c.state = 0 || c.state = 3) then { c with state := 1, seen := true, gen := g, op := if k < 2 then 0 else op } else c
    let s := onChan s k fun c => upTaken (seen c) k g axis plus count v
    let s := chanIdle s k
    let c := chanAt s k
    if g = now && grew && c.input.isSome && c.phase = axis then chanGo (sendUp s k axis (!plus)) k 4 else s

/-- A channel that holds frames of its next generation is in that instance without an own contribution (R342). -/
def chanNext (c : Chan) (g : Nat) : Chan :=
  if c.early.any fun f => f.1 = g && decide (f.2.1 < 3) then { c with gen := g, state := 1, seen := true } else c

/-- Closes a completed instance; frames already held for the next one open it. -/
def chanClose (s : State) (k word : Nat) : State :=
  onChan s k fun c => chanNext (chanDone k c c.gen word) ((c.gen + 1) % 256)

/-! ### Channel 1 (13 R349, R350) -/

/-- A cut is job-complete: its area and 0x6000.09 (R350). -/
def cutComplete (k : Ckpt) (cut : Nat) : Ckpt :=
  let f (a : Area) : Area := if a.cut = cut && a.state = 2 then { a with state := 3 } else a
  let at_ (i : Nat) : Bool := (nth k.areas i {}).cut = cut && (nth k.areas i {}).state = 2
  { k with lastJob := cut, jobArea := if at_ 0 then some 0 else if at_ 1 then some 1 else k.jobArea, areas := k.areas.map f, pool := k.pool.map f }

/-- The combined word of channel 1 for the oldest cut without one. -/
def cutWord (s : State) (w : BitVec 32) : State :=
  match s.ckpt.votes with
  | [] => chanClose s 1 w.toNat
  | (cut, _) :: r =>
    let k := { s.ckpt with votes := r, captures := s.ckpt.captures.filter fun c => !(c.cut = cut && c.durable) }
    let s := { s with ckpt := if w.getLsbD 0 then cutComplete k cut else k }
    chanClose (if w.getLsbD 0 then post s 11 0x6000 9 cut else s) 1 w.toNat

/-- Contributes the module's word for the oldest undecided cut, when it has one and the previous instance is complete (R329, R349); a module in
SPARE answers the frames it holds (R332). -/
def castVotes (s : State) : Nat → State
  | 0 => s
  | fuel + 1 =>
    match chanWordOf s 1 with
    | some w => castVotes (chanIdle (cutWord s w) 1) fuel
    | none =>
      match s.ckpt.votes with
      | (_, some w) :: _ =>
        if (chanAt s 1).own.isNone then castVotes (chanOwn s 1 (chanAt s 1).gen 0 0xF w) fuel else s
      | _ => s

/-- The module decides its word for a cut. -/
def vote (s : State) (cut : Nat) (w : BitVec 32) : State :=
  castVotes { s with ckpt := { s.ckpt with votes := s.ckpt.votes.map fun v => if v.1 = cut && v.2.isNone then (cut, some w) else v } } 8

end Sys2Proof.Machine
end

