-- ==== Sys2Proof/Machine/Ops.lean ====
section
/-! DEFINITION. The named operations that commands share: sending, free draws, notifications, replies, the illegal-sequence record,
fault events, the device state, power domains, context halts, queues, captures, sync objects and frames. -/

namespace Sys2Proof.Machine

/-- Moves the clock to at least `t`: a timer that expires at `t` (log 3). -/
def reach (s : State) (t : Nat) : State := { s with clk := { s.clk with now := max s.clk.now t } }

/-! ### Replies and illegal sequences (19 R497, R501) -/

/-- Codes of a path (R501 PATH). -/
def pathCode : Path → Nat
  | .window => 0
  | .mailbox => 1
  | .halter => 2

/-- The session number of a slot; 0 for HELLO and session set-up (R497). -/
def sessionNo (s : State) (slot : Fin 9) : Nat := ((s.host.sessions.find? fun x => decide (x.slot = slot)).map fun x => x.number.toNat).getD 0

/-- A Halter message to a session. -/
def halterMsg (s : State) (slot : Fin 9) (ty seq status : Nat) (body : List Byte) : Emit :=
  let hdr := halterHeader (sessionNo s slot) ty seq body.length status
  .halter slot hdr body ((s.host.sessions.find? fun x => decide (x.slot = slot)).map fun x => tagOf x hdr body)

/-- The body of a dictionary operation that carries `size` bytes of `value` (20 R513). -/
def dictBody (index sub size value : Nat) : List Byte := toBytes 4 (pack [(24, 8, size), (16, 8, sub), (0, 16, index)]) ++ toBytes size value

/-- The reply of a request: the mailbox completion with its value and MSI-X vector 0, or a Halter message with its body, which the session
keeps. Window writes have none. -/
def reply (s : State) (src : Src) (ty status value : Nat) (body : List Byte) : State :=
  match src.path with
  | .window => s
  | .mailbox => { s with host := { s.host with reply := some (status, value), msix0 := s.host.msix0 + 1 } }
  | .halter =>
    if !s.host.sessions.any fun x => x.slot = src.master then s
    else
    { s with sent := s.sent ++ [halterMsg s src.master ty src.seq status body],
             host := { s.host with reply := some (status, value),
                                   sessions := mapWhere s.host.sessions (fun x => x.slot = src.master) fun x =>
                                     { x with replies := ((src.seq, ty, status, body) :: x.replies).take 16, topSeq := max x.topSeq src.seq,
                                              seqSeen := true, lastAt := s.clk.now } } }

/-- 0x2000.04 of an illegal sequence (R501). -/
def illegalWord (src : Src) (reason index sub : Nat) : Nat :=
  pack [(56, 8, reason), (52, 4, src.master.val), (48, 4, pathCode src.path), (8, 16, index), (0, 8, sub)]

/-- Counts and records an illegal sequence (R501), and posts kind 15. -/
def countIllegal (s : State) (src : Src) (reason index sub : Nat) : State :=
  let w := illegalWord src reason index sub
  post { s with host := { s.host with illegal := min (s.host.illegal + 1) 0xFFFFFFFF, lastIllegal := w } } 15 0x2000 4 w

/-- An illegal sequence with its reply. -/
def illegal (s : State) (src : Src) (ty reason index sub : Nat) : State := reply (countIllegal s src reason index sub) src ty reason 0 []

/-! ### Log and fault events (18 R478, 14 R385, R387) -/

/-- The log ring with one more entry, if its level is written (R478, R479). The catalogue of codes and arguments is the image's own. -/
def posted (s : State) (source level word : Nat) : Fw :=
  if level < rw s 0x910004 then s.fw
  else
    let e := BitVec.ofNat 256 (pack [(192, 64, localCounter s), (160, 32, s.fw.logIdx), (128, 32, stepNow s), (124, 4, source), (121, 3, level),
      (96, 25, word), (48, 48, (Config.freeWord s.free).toNat), (0, 48, (Config.freeWord (s.free + 1)).toNat)])
    let lost := (s.fw.log.drop 32767).filter fun x => x.level ≥ 5 && !x.copied
    { s.fw with log := ⟨e, s.fw.logIdx, level, false⟩ :: s.fw.log.take 32767, logIdx := s.fw.logIdx + 1, flashLoss := s.fw.flashLoss + lost.length }

/-- The same, with the code of an event. -/
def logged (s : State) (source level kind : Nat) : Fw := posted s source level (Config.eventCode kind).toNat

/-- A trace point whose enable bit is set posts an entry of LEVEL 0, unless its slot is taken (18 R480). Which point stands at an event, and
whether its slot is free, is not given; the model lets a point post only beside an entry of the log (log 209). -/
def traced (s : State) : State :=
  let p := Config.tracePoint s.free % 256
  if !(rw s (0x920001 + p / 32)).testBit (p % 32) then drawn s
  else if !Config.tracePosts s.free then drawn { s with fw := { s.fw with traceDrops := s.fw.traceDrops + 1 } }
  else { s with fw := posted s (if p < 192 then p / 16 else 12) 0 (pack [(24, 1, 1), (0, 16, 0xFF00 + p)]), free := s.free + 2 }

/-- Writes a log entry. -/
def logEntry (s : State) (source level kind : Nat) : State := traced { s with fw := logged s source level kind, free := s.free + 2 }

/-! ### Requests of module hardware to a restarting ostler (18 R470) -/

/-- A request of module hardware: the queue takes it, or the block that makes it keeps it while the queue is full; one that waits
already is the same request. -/
def hwRequest (s : State) (o : Nat) (q : OstlerReq) : State :=
  let k := nth s.fw.ostlers o {}
  if k.queue.contains q || s.fw.held.contains (o, q) then s
  else if k.queue.length < 64 then onOstler s o fun k => { k with queue := k.queue ++ [q] }
  else { s with fw := { s.fw with held := s.fw.held ++ [(o, q)] } }

/-- The conditions of an event on a core (14 R374); whole degrees, rounded down (log 157). -/
def onCore (s : State) (g : Nat) (r : LRec) : LRec :=
  { r with temp := some ((coreAt s g).temp / 10), volt := (coreAt s g).setpoint / 10, freq := (coreAt s g).freq }

/-- The stack of a row unit or a stack unit (14 R372). -/
def unitStack (u : LUnit) : Nat := if u.utype = 3 then 2 * (u.unit / 2 ^ 29) + u.unit / 2 ^ 28 % 2 else u.unit

/-- The compute die that a link, lane, UCIe module, link store block or power domain belongs to (14 R372). -/
def unitDie (u : LUnit) : Option Nat :=
  let p := match u.utype with
    | 4 => u.unit / 256 / 6
    | 5 => u.unit / 6
    | 6 => u.unit / 16
    | 7 => u.unit / 2 ^ 24 % 16
    | 9 => u.unit / 5
    | _ => 8
  if p < 8 then some p else none

/-- Conditions that an event's unit gives by itself: a core's island, a stack's layer, the nearest sensor of a die; others stay unknown (14
R374; log 39). -/
def conditioned (s : State) (r : LRec) : LRec :=
  if r.temp.isSome then r
  else if r.unit.utype = 1 || r.unit.utype = 2 then onCore s r.unit.unit r
  else if r.unit.utype = 3 || r.unit.utype = 8 then { r with temp := some ((nth s.mem.stk (unitStack r.unit) {}).temp / 10) }
  else match unitDie r.unit with
    | some p => { r with temp := some ((coreAt s (17 * p + Config.nearestSensor r.unit.utype r.unit.unit % 17)).temp / 10) }
    | none => r

/-- A fault event joins the queue of 256, where it waits for ostler 3 and then for the Farrier, or is counted lost (14 R387); an error
entry goes to the log. -/
def faultEvent (s : State) (r : LRec) : State :=
  let r := { conditioned s r with optime := optime s, pcycle := s.clk.pcycle, step := stepNow s }
  let l := if s.ledger.events.length + s.ledger.toWrite.length < 256 then { s.ledger with events := s.ledger.events ++ [r] } else { s.ledger with lost := s.ledger.lost + 1 }
  logEntry { s with ledger := l } 3 5 r.kind

/-! ### Power domains (01 R32 to R35) -/

/-- The domains that domain `d` depends on (R34). -/
def needs (d : Nat) : List Nat :=
  if d < 40 then (if d % 5 = 4 then [40, 48] else [d / 5 * 5 + 4]) else if d = 43 then [] else [43]

/-- Switches a domain on, if what it depends on is on (R34). -/
def domOn (w : BitVec 50) (d : Nat) : BitVec 50 := if (needs d).all fun k => w.getLsbD k then w ||| BitVec.twoPow 50 d else w

/-- The domains that depend on `d`, directly or not (R34). -/
def dependents (d : Nat) : List Nat :=
  if d = 43 then (upto 50).filter (· ≠ 43) else if d = 40 || d = 48 then upto 40 else if d < 40 && d % 5 = 4 then (upto 4).map (· + d / 5 * 5) else []

/-- Switches a domain off, after every domain that depends on it (R34). -/
def domOff (w : BitVec 50) (d : Nat) : BitVec 50 := (dependents d ++ [d]).foldl (fun w k => w &&& ~~~ BitVec.twoPow 50 k) w

/-- Domains switched on in order, and off. -/
def domainsOn (s : State) (ds : List Nat) : State := { s with domains := ds.foldl domOn s.domains }
def domainsOff (s : State) (ds : List Nat) : State := { s with domains := ds.foldl domOff s.domains }

/-- The five domains of a partition, uncore first (R32). -/
def partDomains (p : Nat) : List Nat := [5 * p + 4, 5 * p, 5 * p + 1, 5 * p + 2, 5 * p + 3]

/-- STATE frames of the present device state, on every in-service sync lane (R284, R308). -/
def sendState (s : State) : State := sendFrames s 4 (devCode s.dev.state) allDirs

/-- LEAVING frames with a cause, in the given directions (R284, R304, 16 R428). -/
def sendLeaving (s : State) (cause : Nat) (ds : List Dir) : State := sendFrames s 3 cause ds

/-! ### Gallop runs that end early (14 R396) -/

/-- The cores a core cell covers (14 R394). -/
def cellCores (c : Cell) : List Nat := if c.unit.utype = 1 || c.unit.utype = 2 then [c.unit.unit] else []

/-- Sets a core to a cell's offset and clock: gallop conditions apply to core islands only (14 R392). -/
def coreAtCell (k : Core) (offset : Int) (clock : Nat) : Core :=
  { k with setpoint := (k.setpoint + 10 * offset).toNat, freq := clock }

/-- A core at its adaptive setpoint and nominal clock again, and out of test (14 R394, R396). -/
def coreOutOfCell (active : Bool) (k : Core) (offset : Int) : Core :=
  { k with setpoint := (k.setpoint - 10 * offset).toNat, freq := 3000, test := if active then k.test else false }

/-- The link a link or lane cell covers (14 R372). -/
def cellLink (c : Cell) : Option Nat := if c.unit.utype = 4 then some (c.unit.unit / 256) else if c.unit.utype = 5 then some c.unit.unit else none

/-- A link that a cell took down trains again (14 R393). -/
def linkBack (s : State) (l : Nat) : State :=
  { s with links := updN s.links l fun k => if k.state = .down then { k with state := .training, trained := false } else k, sent := s.sent ++ [.train l] }

/-- Ends the cell in progress. -/
def endCell (s : State) : State :=
  match s.tests.cells with
  | [] => s
  | c :: _ =>
    let s := { s with cores := (cellCores c).foldl (fun v g => updN v g fun k => coreOutOfCell (coreActive s g) k c.offset) s.cores }
    match cellLink c with
    | some l => linkBack s l
    | none => s

/-- When the next automatic run is due after one ends: 0x8000.26 seconds (14 R391). -/
def nextRun (s : State) : Nat := s.clk.now + 1000000000 * rw s 0x800026

/-- The run aborts: the cell is discarded without a record, and the abort is counted (14 R396). -/
def gallopAbort (s : State) : State :=
  if s.tests.gState = 0 then s
  else
    let s := endCell s
    { s with tests := { s.tests with gState := 0, gResult := 3, aborts := s.tests.aborts + 1, cells := [], gTotal := 0, oosAfter := false,
                                     gDue := nextRun s } }

/-! ### Device state (16 R434) -/

/-- Image types 1 to 3 whose other bank is PENDING, by their bits of 0x9000.04 (18 R475). -/
def pendingTypes (s : State) : List Nat := [1, 2, 3].filter fun t => decide ((otherBank (pairOf s t)).state = 4)

/-- Does a condition of 18 R476 defer the activation of a type? A module reset runs until BOOT ends. -/
def deferBlocks (s : State) (t : Nat) : Bool :=
  (decide (s.dev.state = .boot) && decide (s.dev.lastKind = 1)) || s.power.emers.any (fun e => !e.cleared) || decide (s.dev.inReset ≠ 0) || s.dev.down.isSome || s.dev.holdoff || s.fw.farrierDown ||
    s.fw.ostlers.toList.any (fun o => decide (o.state ≠ 0)) || (decide (t = 2) && (s.ckpt.captures.any (fun k => !k.durable) || s.ckpt.retain.isSome))

/-- An activation is wanted: its types wait for ACTIVATION_DEFERRAL_END, and those that a condition defers are counted (18 R476). -/
def wantActivation (s : State) (ts : List Nat) : State :=
  { s with fw := { s.fw with deferMask := ts.foldl (fun m t => m ||| BitVec.twoPow 8 t) s.fw.deferMask,
                             deferred := s.fw.deferred + (ts.filter (deferBlocks s)).length } }

/-! ### Image banks and activation (18 R473 to R477) -/

/-- Changes the banks of image type `t`. -/
def onPair (s : State) (t : Nat) (f : BankPair → BankPair) : State := { s with fw := { s.fw with images := updN s.fw.images (t - 1) f } }

/-- Changes the bank that is not active. -/
def onOther (p : BankPair) (f : Bank → Bank) : BankPair := if p.activeB then { p with a := f p.a } else { p with b := f p.b }

/-- The update's state and reason, with kind 14 (20 R522). -/
def updTo (s : State) (st reason pct : Nat) : State :=
  let s := { s with fw := { s.fw with updState := st, updReason := reason, updPct := pct } }
  post s 14 0x9000 2 (updStatus s.fw)

/-- The inactive bank of the update's type in a state. -/
def updBank (s : State) (st : Nat) : State := onPair s s.fw.updType fun p => onOther p fun b => { b with state := st, fails := 0 }

/-- An update that has its image goes on by itself: it is written, then verified (18 R474, R487); a Farrier that restarts does neither. DESIGN
CHOICE, log 231: one idle tick each. -/
def updMoves (s : State) : State :=
  if s.fw.farrierDown then s
  else if s.fw.updSource = 0 && s.fw.updState = 1 then updTo (updBank s 2) 2 0 50
  else if s.fw.updState = 2 then updTo s 3 0 50
  else s

/-- An idle tick: 10 ns pass, the queued NOTIFY messages leave (log 3), and an update goes on. -/
def tick (s : State) : State :=
  updMoves { s with clk := { s.clk with now := s.clk.now + 10 },
                    host := { s.host with sessions := s.host.sessions.map fun x => { x with queued := 0 } } }

/-- The other bank becomes active and TRIAL (R477). -/
def bankActivated (s : State) (t : Nat) : State :=
  onPair s t fun p => { onOther p fun b => { b with state := 3, fails := 0 } with activeB := !p.activeB, trial := true }

/-- The active bank is given up as INVALID and the other one is active again: counted and logged (R477). -/
def bankReverted (s : State) (t : Nat) : State :=
  let s := onPair s t fun p => onOther { p with activeB := !p.activeB, trial := false } fun b => { b with state := 1, fails := 0 }
  logEntry { s with fw := { s.fw with reversions := s.fw.reversions + 1 } } 14 5 (256 + t)

/-- A boot attempt of a type in trial begins: two failed attempts in a row bring the other bank back (R477). `fails` counts the attempts that
have begun without a confirmation. -/
def bootAttempt (s : State) (t : Nat) : State :=
  let p := pairOf s t
  let more (b : Bank) : Bank := { b with fails := b.fails + 1 }
  if !p.trial then s
  else if (activeBank p).fails ≥ 2 then bankReverted s t
  else onPair s t fun p => if p.activeB then { p with b := more p.b } else { p with a := more p.a }

/-- Ownership at a module reset or power-up: none (19 R500). -/
def ownerless (h : HostPort) : HostPort :=
  { h with owner := none, ownerPrio := 0, ownerSlot := 0, leaseEnd := 0, claim := none, managers := h.managers.filter (· ≠ 0) }

/-- Module reset: BOOT, LEAVING cause 2 at once, the count (R436, R405); the power-down steps follow. -/
def modResetRun (s : State) (cause : Nat) : State :=
  let s := sendLeaving (gallopAbort s) 2 allDirs
  { s with dev := { s.dev with state := .boot, oosKeep := decide (s.dev.state = .outOfService) && !s.recov.cleared, lastKind := 1, lastPart := 0, lastCause := cause, down := some { step := 2, reset := true }, phase := 0 },
           host := ownerless s.host,
           recov := { s.recov with modHist := optime s :: s.recov.modHist, modResets := s.recov.modResets + 1 },
           sent := s.sent ++ [.lehr 0 0] }

/-- A type's PENDING bank takes effect: by a Farrier restart, a module reset with cause 7, which `hub` starts, or a reload of the library
(R473). -/
def activateWith (hub : State → State) (s : State) (t : Nat) : State :=
  if !(pendingTypes s).contains t then s
  else
    let s := bankActivated s t
    match t with
    | 1 => bootAttempt { s with fw := { s.fw with farrierDown := true } } 1
    | 2 => hub s
    | _ => { s with fw := { s.fw with libReload := true } }

/-- Activates the types, the library first and the module reset last; one that a condition defers as its turn comes waits (R475, R476). -/
def activateOrDefer (hub : State → State) (s : State) (ts : List Nat) : State :=
  ([3, 1, 2].filter ts.contains).foldl (fun s t => if deferBlocks s t then wantActivation s [t] else activateWith hub s t) s

/-- The module reset of a hub image that READY activates: it waits for a Farrier that restarts (R472). -/
def hubReady (s : State) : State :=
  if s.fw.farrierDown then { s with fw := { s.fw with later := s.fw.later ++ [(none, 7)] } } else modResetRun s 7

/-- Is the module in a job: JOINED, SPARE or RECOVERY? -/
def inJob (s : State) : Bool := s.dev.state = .joined || s.dev.state = .spare || s.dev.state = .recovery

/-- M4 takes the word of 0xA000.01 (21 R527), as 32 bytes. -/
def measureConfig (s : State) : State :=
  let w := secConfig s
  { s with sec := { s.sec with meas := updN s.sec.meas 4 fun m => extend m (BitVec.ofNat 256 w), cfgWord := BitVec.ofNat 32 w } }

/-- The same, where the word has changed. -/
def configChanged (s : State) : State := if BitVec.ofNat 32 (secConfig s) = s.sec.cfgWord then s else measureConfig s

/-- The device state itself: STATE frames show it, kind 1 is posted, READY measures the configuration, SPARE counts 10 s to its first
gallop run (14 R391). -/
def setState (s : State) (d : DevState) : State :=
  let old := s.dev.state
  let s := { s with dev := { s.dev with state := d }, tests := { s.tests with gDue := if d = .spare then s.clk.now + 10000000000 else s.tests.gDue } }
  let s := if d = .ready then measureConfig s else s
  let s := post (sendState s) 1 0x2000 1 (devCode old * 256 + devCode d)
  if old = .boot && d ≠ .boot then postHeld s else s

/-- Changes the device state: a gallop run aborts (14 R396), and one that found a fault with no retirement left ends the service (14 R382). -/
def changeState (s : State) (d : DevState) : State :=
  if s.dev.state = d then s
  else
    let bad := s.tests.gState ≠ 0 && s.tests.oosAfter && d ≠ .boot && d ≠ .outOfService
    let s := setState (gallopAbort s) d
    if bad then setState s .outOfService else s

/-- READY is entered from a job: mode 3 activates what is PENDING (18 R475). -/
def jobToReady (s : State) : State :=
  let t := changeState s .ready
  if inJob s && t.dev.state = .ready && rw s 0x900005 = 3 then activateOrDefer hubReady t (pendingTypes t) else t

/-- The run aborts for another reason than a change of state (14 R382, R396). -/
def gallopStop (s : State) : State := if s.tests.gState ≠ 0 && s.tests.oosAfter then changeState s .outOfService else gallopAbort s

/-- Enters RECOVERY, keeping the state to return to (16 R434). -/
def enterRecovery (s : State) : State :=
  if s.dev.state = .joined || s.dev.state = .spare then
    changeState { s with dev := { s.dev with prev := s.dev.state } } .recovery
  else s

/-- Leaves RECOVERY for the previous state (16 R434). -/
def leaveRecovery (s : State) : State := if s.dev.state = .recovery then changeState s s.dev.prev else s

/-! ### Contexts (07 R186, R189) -/

/-- Rank of a halt cause, highest first (R186). -/
def rankOf (cause : Nat) : Nat := if cause = 5 || cause = 6 then 4 else if cause = 1 then 3 else if cause = 2 then 2 else if cause = 3 || cause = 4 then 1 else 0

/-- A context halted with a cause (R186): a halted one changes only for a higher rank. -/
def haltedCtx (c : Ctx) (cause task : Nat) : Ctx :=
  match c.state with
  | .running => { c with state := .halted, cause := cause, causeTask := task }
  | .halted => if rankOf cause > rankOf c.cause then { c with cause := cause, causeTask := task } else c
  | .empty => c
  | .loading => c
  | .loaded => c

/-- Changes one context. -/
def onCtx (s : State) (c : Nat) (f : Ctx → Ctx) : State := { s with ctxs := updN s.ctxs c f }

/-- Halts a context; kind 5 is posted when its status changed. -/
def haltCtx (s : State) (c cause task : Nat) : State :=
  let before := ctxAt s c
  let s := onCtx s c fun x => haltedCtx x cause task
  if decide (ctxAt s c = before) then s else post s 5 0x2100 (0x20 + c) (ctxStatus (ctxAt s c))

/-- Halts several contexts at tasks of theirs. -/
def haltAll (s : State) (cause : Nat) (l : List (Nat × Nat)) : State := l.foldl (fun s x => haltCtx s x.1 cause x.2) s

/-! ### Queues -/

/-- Changes one core. -/
def onCore_ (s : State) (g : Nat) (f : Core → Core) : State := { s with cores := updN s.cores g f }

/-- The pieces on a core: queued and running. -/
def piecesOn (k : Core) : List Piece := k.queue ++ k.running.map (·.piece)

/-- A core with its queues, running work, checks and probe gone. -/
def clearedCore (k : Core) : Core :=
  { k with queue := [], checkQ := [], running := [], checking := none, ramp := none, lastSweep := none, bench := {} }

/-- The check executions on a core: waiting and issued. -/
def checksOn (k : Core) : List CheckPiece := k.checkQ ++ match k.checking with
  | some (c, _) => [c]
  | none => []

/-! ### Arbiters (10 R258) -/

/-- A fault event of a step task on a core: pattern class, conditions and task position (14 R373, R374, R385; its layout has no place for the
tile of R164). -/
def taskEvent (s : State) (kind utype g c task : Nat) (arg : BitVec 64) : State :=
  let pc := ((taskAt s c task).map pclassOf).getD 0
  faultEvent s (onCore s g { kind := kind, unit := ⟨utype, g⟩, pclass := pc, detail := if kind ≤ 3 then task % 2 ^ 23 else 0, arg := arg.toNat })

/-- The first digest of two lists that differs, as the first has it. -/
def firstDiff (a b : List (BitVec 64)) : BitVec 64 := (((a.zip b).find? fun p => p.1 ≠ p.2).map (·.1)).getD (a.headD 0)

/-- What an arbiter decides: the core charged, or all three (R258). -/
def arbiterCharges (s : State) (g : Nat) (c : CheckPiece) (digests : Option (List (BitVec 64))) : State :=
  let x := c.piece.ctx
  let t := c.piece.task
  match digests with
  | some d =>
    if d = c.prim then taskEvent s 1 1 c.checkCore x t (firstDiff c.chk d)
    else if d = c.chk then taskEvent s 1 1 c.core x t (firstDiff c.prim d)
    else
      let s := { s with num := { s.num with unresolved := s.num.unresolved + 1 } }
      taskEvent (taskEvent (taskEvent s 2 1 c.core x t (firstDiff c.prim d)) 2 1 c.checkCore x t (firstDiff c.chk d)) 2 1 g x t (firstDiff d c.prim)
  | none =>
    let s := { s with num := { s.num with unresolved := s.num.unresolved + 1 } }
    taskEvent (taskEvent (taskEvent s 2 1 c.core x t (firstDiff c.prim c.chk)) 2 1 c.checkCore x t (firstDiff c.chk c.prim)) 2 1 g x t 0

/-- Arbiters that their core loses cannot finish: their mismatches stay unresolved (R258). -/
def arbitersLost (s : State) (gs : List Nat) : State :=
  gs.foldl (fun s g => ((checksOn (coreAt s g)).filter fun c => decide (c.source = .arbiter)).foldl (fun s c => arbiterCharges s g c none) s) s

/-- OPT tiles whose duplicate some cores lose: it cannot finish, which counts as a mismatch (06 R164). -/
def dupsOn (s : State) (gs : List Nat) : Nat :=
  (gs.map fun g => (((checksOn (coreAt s g)).filter fun c => decide (c.source = .optDup)).map (·.units.length)).sum).sum

/-- The task of a lost duplicate is recorded in the fault ledger (06 R164). DESIGN CHOICE, log 197: the event kinds of 14 R373 name none for
it; it is recorded as an unresolved mismatch (KIND 2), once for each duplicate piece, against the core that loses it. -/
def dupsRecorded (s : State) (gs : List Nat) : State :=
  gs.foldl (fun s g => ((checksOn (coreAt s g)).filter fun c => decide (c.source = .optDup)).foldl (fun s c => taskEvent s 2 1 g c.piece.ctx c.piece.task 0) s) s

/-- The bit of 0x2100.09 that a lost duplicate sets (10 R269). -/
def dupBit (s : State) (gs : List Nat) : BitVec 16 := if dupsOn s gs = 0 then 0 else 0x0004

/-- Waits for a reserve tile that some cores' pieces give up end, and count (10 R249, R252). -/
def endStalls (now : Nat) (v : Vers) (f : Nat → Bool) : Vers :=
  { v with stalled := v.stalled.filter fun x => !f x.1, stallNs := v.stallNs + ((v.stalled.filter fun x => f x.1).map fun x => now - x.2).sum }

/-! ### Discarding what lies on cores -/

/-- Is the copy a working one, W1 or W2, of contexts 0 to 14? -/
def isWork (k : Copy) : Bool := decide (k.ctx < 15) && (decide (k.kind = .w1) || decide (k.kind = .w2))

/-- Returns every working copy of contexts 0 to 14 to the pool (R268 step 2). -/
def dropWork (v : Vers) : Vers := { v with copies := v.copies.filter fun k => !isWork k }

/-- Is an arbiter execution waiting or running somewhere (R258)? -/
def arbiterLeft (s : State) : Bool :=
  !s.steps.arbWait.isEmpty || s.cores.toList.any fun k => (checksOn k).any fun c => decide (c.source = .arbiter)

/-- The held discard of working versions takes place once no arbiter is left (10 R258 step 3, R268 step 2). -/
def lateDiscard (s : State) : State :=
  if s.steps.discardHeld && !arbiterLeft s then { s with steps := { s.steps with discardHeld := false }, vers := dropWork s.vers } else s

/-- Discards what lies on the cores `gs` (07 R191); the contexts whose pieces went halt with CAUSE 4 where `halts`. -/
def discardOn (s : State) (gs : List Nat) (halts : Bool) : State :=
  let lost := nub ((gs.flatMap fun g => piecesOn (coreAt s g)).map fun p => (p.ctx, p.task))
  let s := arbitersLost (dupsRecorded { s with num := { s.num with optMis := s.num.optMis + dupsOn s gs } } gs) gs
  let s := { s with cores := gs.foldl (fun v g => updN v g clearedCore) s.cores, vers := endStalls s.clk.now s.vers fun g => gs.contains g }
  let s := if gs.any fun g => (s.tests.trot.map (·.1)) = some g then { s with tests := { s.tests with trot := none, trotAt := s.clk.now } } else s
  let s := lateDiscard s
  if halts then haltAll s 4 lost else s

/-- Check records whose check execution lies on the given cores are left waiting: the step fails anyway (07 R191). -/
def partCores (p : Nat) : List Nat := (upto 17).map (· + 17 * p)

/-! ### Captures (13 R352) -/

/-- A copy held for a cut no more: none where no other cut holds it (10 R250). -/
def unheld (cut : Nat) (k : Copy) : Option Copy :=
  match k.kind with
  | .hold cs => if cs.filter (· ≠ cut) = [] then none else some { k with kind := .hold (cs.filter (· ≠ cut)) }
  | _ => some k

/-- Releases the HOLD copies of a cut (10 R250). -/
def releaseHold (v : Vers) (cut : Nat) : Vers := { v with copies := v.copies.filterMap (unheld cut) }

/-- An area being written with a cut that is given up holds no valid manifest (R355). -/
def unwritten (cut : Nat) (a : Area) : Area := if a.state = 1 && a.cut = cut then { state := 4, cut := cut } else a

/-- Abandons the capture of a cut with its cause (R352); the module contributes DONE 0 for it. -/
def abandonCapture (s : State) (cut cause : Nat) : State :=
  if s.ckpt.captures.any fun c => c.cut = cut && !c.durable then
    let s := { s with ckpt := { s.ckpt with captures := s.ckpt.captures.filter fun c => c.cut ≠ cut, abandoned := s.ckpt.abandoned + 1,
                                            lastAbandon := cause, areas := s.ckpt.areas.map (unwritten cut), pool := s.ckpt.pool.map (unwritten cut) },
                      vers := releaseHold s.vers cut }
    post (vote s cut (BitVec.ofNat 32 (cut % 65536 * 65536))) 11 0x6000 2 cut
  else s

/-- Abandons every open capture. -/
def abandonAll (s : State) (cause : Nat) : State := (s.ckpt.captures.map (·.cut)).foldl (fun s c => abandonCapture s c cause) s

/-! ### Sync objects (07 R179, R184) -/

/-- Object `o`. -/
def syncAt (s : State) (o : Nat) : SyncObj := (assoc? s.sync o).getD {}

/-- The objects with `o` at a value; tag 0 and count 0 is unlisted. -/
def syncSet (l : List (Nat × SyncObj)) (o : Nat) (v : SyncObj) : List (Nat × SyncObj) :=
  match l with
  | [] => if v = {} then [] else [(o, v)]
  | (k, w) :: r =>
    if o < k then (if v = {} then (k, w) :: r else (o, v) :: (k, w) :: r)
    else if o = k then (if v = {} then r else (o, v) :: r)
    else (k, w) :: syncSet r o v

/-- What a SIG of step `n` with `inc` makes of an object, or none for the sync-order fault (R179). -/
def sigOn (v : SyncObj) (n inc : Nat) : Option SyncObj :=
  if v.tag > n then none
  else
    let v : SyncObj := if v.tag < n then { tag := n, count := 0 } else v
    some { v with count := min (v.count + inc) 0xFFFFFFFF }

/-- Does the object lie in a partition in reset (01 R29)? -/
def objInReset (s : State) (o : Nat) : Bool :=
  match objPart o with
  | some p => s.dev.inReset.getLsbD p
  | none => false

/-- A SIG takes effect: nothing on an object of a partition in reset, a KIND 15 event on a later tag (R179, 01 R29). -/
def applySig (s : State) (o n inc : Nat) : State :=
  if objInReset s o then s
  else match sigOn (syncAt s o) n inc with
    | some v => { s with sync := syncSet s.sync o v }
    | none => faultEvent s { kind := 15 }

/-- Is a WAIT of step `n` for `target` satisfied (R179, 01 R29)? -/
def waitMet (s : State) (o target n : Nat) : Bool :=
  !objInReset s o && ((decide ((syncAt s o).tag = n) && decide ((syncAt s o).count ≥ target)) || decide ((syncAt s o).tag > n))

/-- Every listed object whose tag exceeds `c` goes to tag `c`, count 0 (R183, 12 R338). -/
def syncBack (l : List (Nat × SyncObj)) (c : Nat) : List (Nat × SyncObj) :=
  l.foldl (fun acc x => syncSet acc x.1 (if x.2.tag > c then { tag := c, count := 0 } else x.2)) []

/-- The named objects set to tag `c`, count 0 (R184). -/
def syncFresh (l : List (Nat × SyncObj)) (os : List Nat) (c : Nat) : List (Nat × SyncObj) :=
  os.foldl (fun acc o => syncSet acc o { tag := c, count := 0 }) l

/-- The objects that an image names (R184). -/
def namedObjects (p : Program) : List Nat :=
  nub ((p.tasks.filterMap fun t => match t.body with
    | .sig o _ _ => some o
    | .wait o _ => some o
    | _ => none) ++ p.groups.filterMap (·.notifyObj))

/-! ### Fence proposals (15 R411 to R413) -/

/-- A fence record (R412). -/
def fenceRec (s : State) (serial coord reason : Nat) : BitVec 128 :=
  BitVec.ofNat 128 (pack [(64, 64, serial), (49, 15, coord), (34, 15, ownCoord s), (30, 4, reason), (0, 30, s.steps.committed)])

/-- Directions with an in-service link. -/
def liveDirs (s : State) : List Nat := (allDirs.filter fun d => !(dirLinks s d).isEmpty).map dirCode

/-- The NOTICE bit of a record. -/
def noticeBit (r : BitVec 128) : BitVec 6 := BitVec.twoPow 6 (slotOf r)

/-- Of two records of reason 1 that name each other's proposer, is `r` the one to discard: the one naming the lower packed coordinate
(R415)? -/
def opposed (q r : BitVec 128) : Bool :=
  fenceReason r = 1 && fenceReason q = 1 && fenceCoord q = fenceFrom r && fenceCoord r = fenceFrom q && decide (fenceCoord q > fenceCoord r)

/-- Is the fence already proposed, held or adopted? -/
def holdsFence (s : State) (r : BitVec 128) : Bool := (s.recov.set ++ s.recov.known ++ s.recov.own.map (·.1)).any (sameFence r)

/-- Is the fence already proposed, held or adopted, or discarded for one that is adopted (R415)? -/
def knowsFence (s : State) (r : BitVec 128) : Bool := holdsFence s r || s.recov.set.any fun q => opposed q r

/-- Proposes a fence of a member of the block: floods the record and sets NOTICE (R411, R413). -/
def proposeFence (s : State) (serial coord reason : Nat) : State :=
  let r := fenceRec s serial coord reason
  if !inJob s || !inBlock s coord || knowsFence s r then s
  else
    let s := { s with recov := { s.recov with own := s.recov.own ++ [(r, s.clk.now)], notice := s.recov.notice ||| noticeBit r } }
    sendFence s r (liveDirs s)

/-- The serial a direction's neighbour gave in its discovery records. -/
def serialOf (s : State) (d : Dir) : Nat :=
  ((upto 48).findSome? fun l => if (linkAt s l).dir = some d then (linkAt s l).farSerial else none).getD 0

/-- Proposes a fence of the neighbour in a direction. -/
def proposeNeighbour (s : State) (d : Dir) (reason : Nat) : State :=
  if stepInBlock s (ownCoord s) d then proposeFence s (serialOf s d) (stepCoord s (ownCoord s) d) reason else s

/-- Proposes a fence of itself (R411 reason 5). -/
def selfFence (s : State) : State := proposeFence s s.dev.product.serial (ownCoord s) 5

end Sys2Proof.Machine
end

