-- ==== Sys2Proof/Machine/LinkOps.lean ====
section
/-! DEFINITION. What the links and routers do on a link's behalf: flit headers, routing and detours (11 R305 to R310), retransmission (R280),
links going down, HELD and FENCED (R301 to R304), and the reception of sync frames (R284, R285). -/

namespace Sys2Proof.Machine

/-! ### Changing a link -/

/-- Is the direction served by at least two links in at least two partitions (R297, mode 1)? -/
def dirSound (s : State) (d : Dir) : Bool := (dirLinks s d).length ≥ 2 && (nub ((dirLinks s d).map (· / 6))).length ≥ 2

/-- The discovery verdict (R297, R299): 1 SOUND, 2 UNSOUND. -/
def verdictNow (s : State) : Nat :=
  let l := s.dict.latched
  let sound := match l.discMode with
    | 0 => (upto 48).all fun k => decide ((linkAt s k).cls = .expected) || decide ((linkAt s k).cls = .permuted)
    | 1 => allDirs.all (dirSound s)
    | _ => true
  if l.machine ≠ 0 && sound then 1 else 2

/-- The verdict is recomputed when a link's class changes (R297). -/
def reVerdict (s : State) : State := { s with topo := { s.topo with verdict := verdictNow s } }

/-- A link's status has changed: the verdict, and a record of kind 17 (20 R522). -/
def postLink (s : State) (l : Nat) : State := post (reVerdict s) 17 (0x3010 + l) 1 (linkStatus (linkAt s l))

/-! ### Routing (R306 to R310) -/

/-- Where a flit goes next. -/
inductive Hop where
  | here
  | out (d : Dir) (h : BitVec 96)
  | unreachable
  deriving DecidableEq, Repr, Inhabited

/-- The direction of travel when a flit detours: at the first later router the one its blocked axis takes, then the one it came by (R310). -/
def detourOn (s : State) (h : BitVec 96) (came : Option Dir) : Dir :=
  let p := dirOf (hdDdir h - 1)
  if hdDleft h ≥ 2 then
    let here := ownCoord s
    let dest := coordSet (hdDest h) (axisOf p) (coordOn here (axisOf p))
    (routeDir s here dest).getD p
  else came.getD p

/-- The virtual channel of a hop in direction `d` (R307): 2 and 3 on a detour; the upper one once the dateline of this axis is crossed.
`side` marks the hops on a detour's perpendicular axis, where only the hop itself can cross. -/
def vcOf (s : State) (h : BitVec 96) (side : Bool) (d : Dir) : Nat :=
  (if hdDdir h = 0 then 0 else 2) + bit (if side then dateline s (ownCoord s) d else pastDateline s (ownCoord s) (hdSrc h) d)

/-- A hop with its virtual channel; a router sends no flit to a blocked module (R309). -/
def hopOut (s : State) (h : BitVec 96) (side : Bool) (d : Dir) : Hop :=
  if blockedDir s d then .unreachable else .out d (hdSet h 62 61 (vcOf s h side d))

/-- The next hop of a flit that arrived travelling in `came`, or starts here (R306, R309, R310); one with DEST outside the block goes on towards the
line's end (log 220). -/
def nextHop (s : State) (h : BitVec 96) (came : Option Dir) : Hop :=
  if hdDdir h ≠ 0 && fencedAt s (hdDest h) then .unreachable
  else if hdDdir h ≠ 0 && hdDleft h ≠ 0 then hopOut s (hdSet h 57 56 (hdDleft h - 1)) false (detourOn s h came)
  else if hdDdir h ≠ 0 then hopOut s (hdSet h 60 58 0) true (opposite (dirOf (hdDdir h - 1)))
  else match routeDir s (ownCoord s) (hdDest h) with
    | none => .here
    | some d =>
      if fencedAt s (hdDest h) then .unreachable
      else if !blockedDir s d then hopOut s h false d
      else if hdDtimes h ≥ 2 then .unreachable
      else match detourDir s (hdFlow h) d with
        | some p => hopOut s (hdSet (hdSet (hdSet h 60 58 (1 + dirCode p)) 57 56 2) 49 48 (hdDtimes h + 1)) true p
        | none => .unreachable

/-- The error return of an unreachable flit (R310): it travels to the flit's source, with DPART as it was (log 219). -/
def errorReturn (s : State) (h : BitVec 96) : BitVec 96 :=
  BitVec.ofNat 96 (pack [(81, 15, hdSrc h), (78, 3, hdPart h), (63, 15, ownCoord s), (50, 6, 1), (32, 16, hdFlow h)])

/-- Counts a flit that this router sent into a detour (R312). -/
def countDetour (s : State) (before after : BitVec 96) : State :=
  { s with topo := { s.topo with detoured := s.topo.detoured + bit (decide (hdDtimes after > hdDtimes before)) } }

/-- The COLL task at the link blocks that a FLOW names: context, and low bits of the ordinal (12 R324). -/
def flowTask (s : State) (flow : Nat) : Option (Nat × Nat) :=
  let c := flow / 4096
  ((ctxAt s c).left.find? fun l => (taskAt s c l.1).any isColl && decide (collOrdinal (progAt s c) l.1 % 4096 = flow % 4096)).map fun l => (c, l.1)

/-- The same, of a COLL that has sent all it sends and that the model has ended, in the step its context is still in: by the landing header of
the payload that the error return brings back (12 R324; log 227). -/
def flowEnded (s : State) (flow : Nat) (payload : List Byte) : Option (Nat × Nat) :=
  let c := flow / 4096
  let x := ctxAt s c
  let h := landHdr payload
  let mine (i : Nat) : Bool := (taskAt s c i).any isColl && decide (collOrdinal (progAt s c) i = fld h 75 54)
  let open_ := [s.steps.older, s.steps.younger].any fun o => o.any fun o => decide (o.step = x.step) && decide (o.status ≠ .contributed)
  if c < 15 && open_ && fld h 95 80 = x.step % 65536 && fld h 79 76 = s.steps.attempt % 16 then ((upto x.pos).find? mine).map fun i => (c, i) else none

/-- An error return that reaches its source is reported to ostler 1, and the piece that sent the flit does not complete: its watchdog runs on
(R310). -/
def reportError (s : State) (h : BitVec 96) (payload : List Byte) : State :=
  let s := { s with topo := { s.topo with errReturns := s.topo.errReturns ++ [h] } }
  match flowTask s (hdFlow h), flowEnded s (hdFlow h) payload with
  | some (c, t), _ => onCtx s c fun x => { x with cut := if x.cut.contains t then x.cut else x.cut ++ [t] }
  | none, some (c, t) => onCtx s c fun x => { x with cut := x.cut ++ [t], left := (t, 1) :: x.left }
  | none, none => s

/-- Puts a flit on the link of its hop; one whose hop is not out of this module goes nowhere. -/
def sendHop (s : State) (h : BitVec 96) (payload : List Byte) (came : Option Dir) : State :=
  match nextHop s h came with
  | .out d h' =>
    match pickLink s d (hdSrc h) (hdDest h) (hdFlow h) with
    | some l => pushFlit (countDetour s h h') l { hdr := h', payload := payload, seq := 0, hdrIn := h, came := came }
    | none => s
  | .here => if hdType h = 1 then reportError s h payload else s
  | .unreachable => s

/-- An unreachable flit is counted and turned into an error return, with the payload it has; an error return that cannot be delivered is
dropped (R279, R310; log 162). -/
def unroutable (s : State) (h : BitVec 96) (payload : List Byte) : State :=
  let s := { s with topo := { s.topo with unroutable := s.topo.unroutable + 1 } }
  if hdType h = 1 then s else sendHop s (errorReturn s h) payload none

/-- Routes a flit that is not for this module. -/
def routeFlit (s : State) (h : BitVec 96) (payload : List Byte) (came : Option Dir) : State :=
  match nextHop s h came with
  | .unreachable => unroutable s h payload
  | .out _ _ => sendHop s h payload came
  | .here => sendHop s h payload came

/-- Can a flit that starts here go anywhere (R309, R310)? -/
def reachable (s : State) (h : BitVec 96) : Bool := decide (nextHop s h none ≠ .unreachable)

/-- A data flit of the module's own takes its way as a transit flit does; an unreachable one is counted, and reported to ostler 1 (R306, R310). -/
def startFlit (s : State) (dest part : Nat) (flow : BitVec 16) (payload : List Byte) : State :=
  routeFlit s (ownHeader s dest part 0 flow) payload none

/-! ### Requests, pulls and streams as flits (R279, R305; log 224) -/

/-- A link-control flit to module `dest`. -/
def controlTo (s : State) (dest : Nat) (payload : List Byte) : State :=
  routeFlit s (ownHeader s dest 0 2 streamFlow) (payload ++ List.replicate (240 - payload.length) 0) none

/-- A stream of bytes to module `dest`, 240 to a flit. -/
def streamTo (s : State) (dest : Nat) (bs : List Byte) : State :=
  (upto ((bs.length + 239) / 240)).foldl (fun s i =>
    let b := (bs.drop (240 * i)).take 240
    startFlit s dest 0 streamFlow (b ++ List.replicate (240 - b.length) 0)) s

/-- The bytes of a mirror stream: the tensors' images, then the records. -/
def mirrorBytes (m : MirrorSet) : List Byte := m.tensors.flatMap (·.2.2) ++ m.recs.flatMap fun r => toBytes 16 r.toNat

/-- Puts what a message carries on the links. -/
def carried (s : State) : Emit → State
  | .askRecord k => (liveDirs s).foldl (fun s d => controlOn s (dirOf d) [1, BitVec.ofNat 8 k]) s
  | .fenceSet d => s.recov.set.foldl (fun s r => controlOn s (dirOf d) (5 :: toBytes 16 r.toNat)) s
  | .mirrorLost => controlTo s (pairAt s false) [2]
  | .askState => controlTo s (pairAt s true) [3]
  | .pull c t src => controlTo s src ([4, BitVec.ofNat 8 c] ++ toBytes 4 t)
  | .mirror _ _ m => streamTo s (pairAt s true) (mirrorBytes m)
  | .mirrorHeld dest _ _ m => streamTo s dest (mirrorBytes m)
  | .moduleState _ bs => streamTo s (pairAt s true) bs
  | _ => s

/-- Sends a message of recovery or of the mirror: itself, and the flits that carry it. -/
def tell (s : State) (e : Emit) : State := carried (emit s e) e

/-- Several of them. -/
def tells (s : State) (es : List Emit) : State := es.foldl tell s

/-- May a flit that waits, or is sent again, still go out in direction `d`: not to a blocked module, nor to a fenced DEST (R309), but for a
link-control flit to the neighbour (15 R413)? -/
def mayStillGo (s : State) (d : Dir) (f : Flit) : Bool :=
  (decide (hdType f.hdr = 2) && decide (hdDest f.hdr = stepCoord s (ownCoord s) d)) || (!blockedDir s d && !fencedAt s (hdDest f.hdr))

/-- Sends what a link's waiting flits may send now; one that may not go this way any more is routed again. -/
def drainLink (s : State) (l : Nat) : State :=
  let ws := (linkAt s l).waits
  if ws.isEmpty then s
  else ws.foldl (fun s f => if mayStillGo s (linkDir s l) f then pushFlit s l f else routeFlit s f.hdrIn f.payload f.came)
    (onLink s l fun k => { k with waits := [] })

/-! ### Links that go down (R301, R304) -/

/-- Re-sends unacknowledged flits: over the other links of the bundle, or by another way when none is left or may be taken (R301, R309). -/
def resend (s : State) (d : Dir) (fs : List Flit) : State :=
  fs.foldl (fun s f => match (if mayStillGo s d f then pickLink s d (hdSrc f.hdr) (hdDest f.hdr) (hdFlow f.hdr) else none) with
    | some l => pushFlit s l f
    | none => routeFlit s f.hdrIn f.payload f.came) s

/-- The flits that a link has taken over and has not had acknowledged. -/
def unacked (k : Link) : List Flit := k.txBuf ++ k.waits

/-- A link that carries nothing any more. -/
def linkOut (k : Link) (st : LinkState) (cause : Nat) : Link :=
  { k with state := st, cause := cause, cls := .notTrained, trained := false, recOk := false, recAcked := false, txBuf := [], waits := [] }

/-- A link block sends LEAVING: on every sync lane of the bundle that the link belongs to (R285, R302, R304). -/
def leaveOn (s : State) (l cause : Nat) : State := sendFrame s 3 cause (linkDir s l)

/-- Fences a link (R302): its far end sees LEAVING with cause 3, its flits go elsewhere, and the ledger has an event. -/
def fenceLink (s : State) (l cause : Nat) : State :=
  let k := linkAt s l
  if k.state = .fenced then s
  else
    let d := linkDir s l
    let up := inService k
    let s := if up then leaveOn s l 3 else s
    let s := onLink s l fun k => linkOut k .fenced cause
    let s := { s with topo := { s.topo with downEvents := s.topo.downEvents + bit up } }
    let s := faultEvent (resend s d (unacked k)) { kind := 9, unit := ⟨5, l⟩, pclass := 8 }
    postLink s l

/-- A fence of cause 2 or 3, which ostler 1 makes: it waits while that ostler restarts (18 R467). -/
def fenceByOstler (s : State) (l cause : Nat) : State :=
  if ostlerBusy s 1 then hwRequest s 1 (.fence l cause) else fenceLink s l cause

/-- Downs of a link within the last 10 s. -/
def recentDowns (s : State) (k : Link) : List Nat := k.downs.filter fun t => decide (s.clk.now < t + 10000000000)

/-- A link goes down (R301): it retrains, and a fourth time down within 10 s fences it (R302). -/
def linkDown (s : State) (l cause : Nat) : State :=
  let k := linkAt s l
  if !inService k then s
  else if (recentDowns s k).length ≥ 3 && !ostlerBusy s 1 then fenceLink s l 3
  else
    let s := if (recentDowns s k).length ≥ 3 then fenceByOstler s l 3 else s
    let d := linkDir s l
    let s := onLink s l fun k => { linkOut k .training cause with downs := s.clk.now :: recentDowns s k }
    let s := { s with topo := { s.topo with downEvents := s.topo.downEvents + 1 } }
    postLink (resend s d (unacked k)) l

/-- A link whose far end leaves goes HELD (R304); the period counts as down, but not towards the retrain limit (R302, R312). -/
def holdLink (s : State) (l : Nat) : State :=
  let k := linkAt s l
  if !inService k then s
  else
    let d := linkDir s l
    let s := onLink s l fun k => linkOut k .held 7
    let s := { s with topo := { s.topo with downEvents := s.topo.downEvents + 1 } }
    postLink (resend s d (unacked k)) l

/-- A data lane fails (R282): the spare takes it over, or the link is fenced when the spare is in use, be it for the lane that the spare
now carries. -/
def laneFails (s : State) (l lane : Nat) : State :=
  let k := linkAt s l
  let s := onLink s l fun k => { k with laneBad := if k.laneBad.contains lane then k.laneBad else k.laneBad ++ [lane] }
  if k.spareUsed then fenceLink s l 1
  else faultEvent (onLink s l fun k => { k with spareUsed := true, swapped := lane }) { kind := 8, unit := ⟨4, l * 256 + lane⟩, pclass := 8 }

/-! ### Sync frames received (R284, R285) -/

/-- TYPE, SEQ and PAYLOAD of a frame. -/
def frType (f : BitVec 96) : Nat := fld f.toNat 95 88
def frSeq (f : BitVec 96) : Nat := fld f.toNat 87 80
def frLoad (f : BitVec 96) : Nat := fld f.toNat 79 16

/-- Does a frame pass its CRC? -/
def frOk (f : BitVec 96) : Bool := crc16 80 (fld f.toNat 95 16) = BitVec.ofNat 16 (fld f.toNat 15 0)

/-- A frame that fails its CRC is discarded and counted (R284). -/
def frameBad (s : State) (l : Nat) : State := onLink s l fun k => { k with syncErr := k.syncErr + 1 }

/-- A valid frame refreshes its lane's heartbeat and ends its bundle's silence (R286). -/
def frameSeen (s : State) (l : Nat) : State :=
  let s := onLink s l fun k => { k with lastFrame := s.clk.now }
  { s with topo := { s.topo with sides := updN s.topo.sides (dirCode (linkDir s l)) fun x => { x with silent := false } } }

/-- Has a copy of the frame been taken within the last 64 frame times of 3.84 ns (R285)? -/
def frameTaken (s : State) (d : Dir) (f : BitVec 96) : Bool :=
  (sideOf s d).seqs.any fun q => q.1 = frType f && q.2.1 = frSeq f && decide (s.clk.now < q.2.2 + 246)

/-- Notes a frame as taken. -/
def noteFrame (s : State) (d : Dir) (f : BitVec 96) : State :=
  let old (x : Side) : List (Nat × Nat × Nat) := x.seqs.filter fun q => decide (s.clk.now < q.2.2 + 246)
  { s with topo := { s.topo with sides := updN s.topo.sides (dirCode d) fun x => { x with seqs := (frType f, frSeq f, s.clk.now) :: old x } } }

/-- May a frame of TYPE `ty` be taken from link `l`: the lane is in service? -/
def frameDue (s : State) (l ty : Nat) (f : BitVec 96) : Bool := s.dev.on && inService (linkAt s l) && (!frOk f || frType f = ty)

/-- A valid frame that is the first copy of its SEQ. -/
def frameNew (s : State) (l : Nat) (f : BitVec 96) : Bool := !frameTaken s (linkDir s l) f

/-- The state once a valid first copy has been noted. -/
def frameIn (s : State) (l : Nat) (f : BitVec 96) : State := noteFrame (frameSeen s l) (linkDir s l) f

end Sys2Proof.Machine
end

