-- ==== Sys2Proof/Machine/Verdict.lean ====
section
/-! DEFINITION. The verdict, the abort word, rollback, fence adoption, leaving a job and its loss (10 R260 to R269, 12 R329 to R333,
15 R414 to R422). -/

namespace Sys2Proof.Machine

/-! ### Channel words and frames -/

/-- The FENCE field a contribution carries (15 R410). -/
def fenceBits (s : State) : Nat :=
  pack [(8, 6, s.recov.notice.toNat), (14, 1, bit s.recov.hold), (15, 1, bit (s.recov.lostPend ≠ 0))]

/-- Sends the abort word of step `n` as a DOWN frame in the given directions of the block (12 R333). -/
def sendDown (s : State) (n word : Nat) (ds : List Dir) : State :=
  sendFrames s 2 (chanPayload 0 (gen0 n) s.steps.attempt 3 0 0 word) (ds.filter fun d => (blockDirs s).contains d)

/-! ### Working versions -/

/-- Is the copy one of an open step's mirror stream (15 R409)? -/
def isMirrorWork (k : Copy) : Bool := isMirrorTile k && (decide (k.kind = .w1) || decide (k.kind = .w2))

/-- The waits of discarded pieces end, and the mirror streams of steps from `n` on are discarded (R268 steps 1 and 3). -/
def dropStreams (now n : Nat) (v : Vers) : Vers :=
  endStalls now { v with waited := [], copies := v.copies.filter (fun k => !isMirrorWork k), mirrorW := v.mirrorW.filter fun m => m.1 < n } fun _ => true

/-- A core after step 1 of R268: unissued pieces and checks gone, issued pieces stale, arbiters kept. An issued check runs to completion;
its own records judge it. -/
def coreBack (k : Core) : Core :=
  { k with queue := k.queue.filter fun p => p.ctx = 15,
           checkQ := k.checkQ.filter fun c => decide (c.source = .arbiter) || c.piece.ctx = 15,
           running := k.running.map fun r => if r.piece.ctx = 15 then r else { r with stale := true },
           checking := k.checking.map fun c => if c.1.piece.ctx = 15 then c else ({ c.1 with stale := true }, c.2) }

/-- A context after step 4 of R268; one that has not joined yet has no work in a discarded step (07 R187). -/
def ctxBack (n : Nat) (c : Ctx) : Ctx :=
  let live := c.state = .running || c.state = .halted
  if live && !c.joins then
    { c with state := if c.state = .halted && (c.cause = 3 || c.cause = 4) then .running else c.state,
             pos := 0, step := n, held := [], waiting := none, began := [], sigs := [], left := [], special := [], collWait := none, cut := [], resv := [],
             tens := c.tens.map fun t => { t with cur := t.cur.filter fun k => k.1 < n } }
  else c

/-- Program channels return to their generation at the last commit; channels 0 and 1 stand (12 R329, 13 R349). -/
def chansBack (v : Vector Chan 64) : Vector Chan 64 :=
  Vector.ofFn fun i => if i.val < 2 then v[i] else { v[i] with gen := v[i].genAt, own := none, input := none, early := [], seen := false, state := 0, task := none }

/-- Results return to their committed record (19 R503). -/
def resultsBack (v : Vector Result 64) : Vector Result 64 := v.map fun r => { r with cur := r.comm, held := 0 }

/-- Is a flit that waits for a link one of the module's own collectives in step `n` or `n + 1` of contexts 0 to 14 (R268 step 3)? -/
def ownStepFlit (s : State) (n : Nat) (f : Flit) : Bool :=
  let k := fld (landHdr f.payload) 95 80
  decide (hdType f.hdr = 0) && decide (hdSrc f.hdr = ownCoord s) && decide (hdFlow f.hdr / 4096 < 15) &&
    (decide (k = n % 65536) || decide (k = (n + 1) % 65536))

/-- A link without them. -/
def withoutOwn (s : State) (n : Nat) (k : Link) : Link := { k with waits := k.waits.filter fun f => !ownStepFlit s n f }

/-- Rollback, steps 1 to 3 of R268: step `n` and the one after it are discarded; the replay writes marked locations of theirs again, and a
CONST copy is recopied from its master (09 R234). -/
def discardSteps (s : State) (n : Nat) : State :=
  let s := { s with links := s.links.map (withoutOwn s n) }
  let s := { s with cores := s.cores.map coreBack, sync := syncBack s.sync (n - 1), chans := chansBack s.chans,
                    coll := { s.coll with chunks := s.coll.chunks.filter fun k => k.ctx = 15 },
                    place := { s.place with traffic := s.place.traffic.filter fun x => x.1.1 < n },
                    mem := { s.mem with marks := s.mem.marks.filter fun m => m.ctx = 15 || !(m.content = 1 || m.content = 2 || m.content = 5) } }
  let s := { s with vers := dropStreams s.clk.now n s.vers }
  if arbiterLeft s then { s with steps := { s.steps with discardHeld := true } } else { s with vers := dropWork s.vers }

/-- How many steps a rollback discards (R269). -/
def discardCount (s : State) : Nat := 1 + (match s.steps.younger with
  | some y => bit y.begun
  | none => 0)

/-- The bits of a failing event that still stands: a partition in reset or its refill (15 R402); a committed-state loss, or a quarantine that could not be carried
out, after which no verdict is clean (R269, 09 R234, 14 R379). -/
def standingBits (s : State) : BitVec 16 :=
  (if s.dev.inReset = 0 && !s.recov.hold then 0 else 0x0008) |||
    (if s.steps.lossSeen then (if s.mem.integrity.getLsbD 0 then 0x0100 else 0x0010) else 0)

/-- The own bits of a failed verdict: none where no step is open, or this module's word was clean (R269). -/
def ownBits (s : State) : Option (BitVec 16) :=
  match s.steps.older with
  | some o => if o.status = .contributed then none else some (o.fails ||| standingBits s)
  | none => none

/-- The cause of a failed verdict (R269): own bits, or REMOTE where the own verdict was clean or undecided. One that fails for a JOB_LOST
to contribute alone has no bit. -/
def failWord (s : State) : BitVec 32 :=
  match ownBits s with
  | some own => if own = 0 && s.recov.lostPend = 0 then 0x8000 else own.setWidth 32
  | none => 0x8000

/-- Steps 1 to 3 with their counts, and kind 4. -/
def rolledBack (s : State) (n : Nat) : State :=
  let steps := { s.steps with rollbacks := s.steps.rollbacks + 1, discarded := s.steps.discarded + discardCount s, lastFailed := failWord s,
                              older := none, younger := none, lagFrom := none }
  let s := discardSteps { s with steps := steps, results := resultsBack s.results } n
  post s 4 0x2100 9 s.steps.lastFailed.toNat

/-- Rollback (R268): the replay of step `n` is due. -/
def rollback (s : State) (n : Nat) : State :=
  let s := rolledBack s n
  { s with ctxs := Vector.ofFn fun i => if i.val < 15 then ctxBack n s.ctxs[i] else s.ctxs[i], steps := { s.steps with replayDue := some n } }

/-! ### Job lost (15 R422) -/

/-- A combined word carrying JOB_LOST (R422). -/
def jobLost (s : State) (n : Nat) : State :=
  let s := rolledBack s n
  let s := haltCtx s 0 2 0
  let code := s.recov.lostPend
  let s := { s with recov := { s.recov with role := .lost, lost := code, lostPend := 0 }, steps := { s.steps with replayDue := none } }
  post s 8 0x8400 5 code

/-- Notes a condition of R422: JOB_LOST goes into the next contribution. -/
def loseJob (s : State) (code : Nat) : State :=
  if s.recov.lostPend = 0 && s.recov.role ≠ .lost then { s with recov := { s.recov with lostPend := code } } else s

/-! ### Leaving, takeover, new partners (15 R416 to R419) -/

/-- A module that a fence names leaves the job (R416); outside a job it only knows that it is fenced. -/
def leaveJob (s : State) : State :=
  let s := { s with recov := { s.recov with notice := 0 } }
  if s.recov.role = .fenced then s
  else if !inJob s then { s with recov := { s.recov with role := .fenced } }
  else
    let s := (upto 15).foldl (fun s c => haltCtx s c 6 0) s
    let s := discardSteps s (s.steps.committed + 1)
    let s := { s with steps := { s.steps with older := none, younger := none, replayDue := none },
                      recov := { s.recov with role := .fenced, hold := false, wait := false, taking := none } }
    jobToReady s

/-- Members of the tensor's ALL_GATHER group along its first axis with more than one: the physical positions a stride away, + and −,
then the rest (R419). -/
def gatherSources (s : State) (g : Group) : List Nat :=
  let axes := match g.order with
    | 0 => [0, 1, 2]
    | 1 => [0, 2, 1]
    | 2 => [1, 0, 2]
    | 3 => [1, 2, 0]
    | 4 => [2, 0, 1]
    | _ => [2, 1, 0]
  match axes.find? fun a => g.len.getD a 1 > 1 with
  | none => []
  | some a =>
    let l := g.len.getD a 1
    let st := g.stride.getD a 1
    let idx := ownLog s a / st % l
    let base := ownLog s a - idx * st
    let at_ (i : Nat) : Nat :=
      let v := base + i * st
      physAt s (if a = 0 then v else ownLog s 0) (if a = 1 then v else ownLog s 1) (if a = 2 then v else ownLog s 2)
    let others := (idx + 1) % l :: (idx + l - 1) % l :: ((upto l).map fun k => (idx + 1 + k) % l)
    (nub others).filter (· ≠ idx) |>.map at_

/-- Is the module at `c` known to be recovering: a neighbour whose STATE shows it (11 R308)? -/
def recovering (s : State) (c : Nat) : Bool :=
  allDirs.any fun d => decide (stepCoord s (ownCoord s) d = c) && decide ((sideOf s d).nbState = some .recovery)

/-- The member a derived tensor is pulled from (R419): the first that is neither fenced nor recovering. -/
def pullSource (s : State) (g : Group) : Nat := ((gatherSources s g).find? fun c => !fencedAt s c && !recovering s c).getD (ownCoord s)

/-- The pulls of every derived tensor of contexts 0 to 14 (R419). -/
def pulls (s : State) : List Emit :=
  (jobPrograms s).flatMap fun cp => (derivedTensors cp.2).filterMap fun t =>
    (cp.2.tasks.findSome? fun k => match k.body with
      | .coll 2 _ g _ dst _ => if dst = t then cp.2.groups[g]? else none
      | _ => none).map fun g => .pull cp.1 t (pullSource s g)

/-- Sends pulls: a new transfer waits while ostler 2 restarts (18 R467). -/
def sendPulls (s : State) (l : List Emit) : State :=
  if l.isEmpty then s else if ostlerBusy s 2 then hwRequest s 2 .transfers else tells s l

/-- Sends them all. -/
def pullDerived (s : State) : State := sendPulls s (pulls s)

/-- A source that is fenced or starts recovering during a takeover or a refill is replaced; `old` are the pulls before (R421). -/
def repull (s : State) (old : List Emit) : State :=
  if s.recov.role = .taking || s.recov.refills &&& s.dev.inService ≠ 0 then sendPulls s ((pulls s).filter fun e => !old.contains e) else s

/-- The committed images of the OPT state tensors of contexts 0 to 14 (R409). -/
def committedOpt (s : State) : List (Nat × Nat × List Byte) :=
  (capturedMirror s).map fun x => (x.1, x.2.1, rdImage { s := s, ctx := x.1, step := s.steps.committed } 1 x.2.1 x.2.2)

/-- Sends the partner a rebuild of the committed state; SINGLE stands until it is acknowledged (R409). -/
def sendRebuildNow (s : State) : State :=
  tell { s with recov := { s.recov with single := true, rebuilding := true, last := 5 } } (.mirror s.steps.committed true ⟨committedOpt s, moduleRecs s⟩)

/-- The same, a new transfer of ostler 2's, which waits while it restarts (18 R465, R467). -/
def sendRebuild (s : State) : State :=
  if ostlerBusy s 2 then hwRequest { s with recov := { s.recov with single := true, rebuilding := true } } 2 .rebuild else sendRebuildNow s

/-- The partner is to get a rebuild: at once, or once the refill is done; SINGLE stands meanwhile (R409). -/
def giveRebuild (s : State) : State :=
  if s.recov.refills = 0 then sendRebuild s else { s with recov := { s.recov with owed := true, single := true } }

/-- Has a loaded program an INPUT tensor? -/
def hasInput (s : State) : Bool := (jobPrograms s).any fun cp => cp.2.tensors.any fun t => t.persist = clsInput

/-- Batches to fetch once more, of steps c + 1 onward: after what the fetcher is at (R404). -/
def refetch (s : State) (steps : List Nat) : State :=
  let todo := nub (steps.filter fun k => decide (k > s.steps.committed))
  let f := { s.fetch with batches := s.fetch.batches.filter fun b => !todo.contains b.1, again := [] }
  if !hasInput s || todo.isEmpty then { s with fetch := { s.fetch with again := [] } }
  else if f.state = 1 || f.state = 2 then { s with fetch := { f with queue := f.queue ++ todo.filter fun k => k ≠ f.step && !f.queue.contains k } }
  else { s with fetch := { f with state := 1, step := todo.headD 0, filled := 0, queue := todo.drop 1 } }

/-- The remount module takes a position (R417, R418 steps 1 and 3). -/
def takeoverStart (s : State) (r : BitVec 128) : State :=
  let s := { s with dev := { s.dev with prev := .joined } }
  let s := changeState s .recovery
  let s := { s with recov := { s.recov with role := .taking, last := 4, taking := some r, rebuild := hasMirror s, hold := s.recov.hold || decide (s.dev.inReset ≠ 0) } }
  let s := if anyLocal s then loseJob s 4 else s
  refetch (pullDerived s) ((s.steps.committed + 1) :: s.fetch.batches.map (·.1))

/-! ### Waits on a recovering member (15 R414) -/

/-- Is a task a COLL or a WAIT, whose time in a wait does not count? -/
def waitFree (t : Task) : Bool :=
  match t.body with
  | .coll .. => true
  | .wait .. => true
  | _ => false

/-- A dispatch time moved on by the part of the wait since `from_` that lies after it. -/
def movedOn (now from_ : Nat) (b : Nat × Nat) : Nat × Nat := (b.1, b.2 + (now - max b.2 from_))

/-- The wait ends: COLL, SIGNAL and WAIT pieces of contexts 0 to 14 have its time back (R414). -/
def waitEnds (s : State) : State :=
  if !s.recov.wait then s
  else
    let moved (c : Nat) (x : Ctx) : Ctx :=
      { x with began := x.began.map fun b => if (taskAt s c b.1).any waitFree then movedOn s.clk.now s.recov.waitFrom b else b }
    { s with recov := { s.recov with wait := false },
             ctxs := Vector.ofFn fun i => if i.val < 15 then moved i.val s.ctxs[i] else s.ctxs[i] }

/-- A combined word that carries a NOTICE bit or HOLD starts a wait on every member (R414). -/
def waitStarts (s : State) (word : Nat) : State :=
  if fld word 14 8 ≠ 0 && s.recov.role ≠ .fenced then { s with recov := { s.recov with wait := true, waitFrom := s.clk.now } } else s

/-! ### Adoption (15 R414, R415, R417) -/

/-- Where the tandem partner of the position that a record fences stood before the fences adopted since the last clean word, whose takeovers
still run (R408, R422). -/
def partnerOf (s : State) (r : BitVec 128) : Nat :=
  let c := fenceCoord r
  let y := coordOn c 1
  let z := coordOn c 2
  let a := partnerAxis s
  let n := logExtent s a
  let set := s.recov.set.filter fun x => !sameFence x r && !s.recov.recent.any (sameFence x)
  let lx := (logX s ((ringRemap s set c).getD 31) (coordOn c 0)).getD 0
  let lp (k : Nat) : Nat := if k = 0 then lx else if k = 1 then blockPos s (coordOf 0 y z) 1 else blockPos s (coordOf 0 y z) 2
  let mv (k : Nat) : Nat := if k = a then (lp k + 1) % n else lp k
  physIn s set (mv 0) (mv 1) (mv 2)

/-- Conditions of R422 that adopting `r` meets: code, or 0. A position fenced since the last clean word may still be in its takeover, which
needs its partner (R421). -/
def lostBy (s : State) (r : BitVec 128) : Nat :=
  let c := fenceCoord r
  let working := coordOn c 0 ≠ sparePos s
  let partner := partnerOf s r
  if !working && (ringRemap s s.recov.set c).isSome then 0
  else if sparePos s = 31 then 2
  else if (ringRemap s s.recov.set c).isNone then 1
  else if !hasMirror s then 7
  else if fencedAt s partner || (partner = ownCoord s && s.recov.single) || s.recov.recent.any (fun q => partnerOf s q = c) then 8
  else if partner = ownCoord s && s.vers.mirrorLost then 3
  else 0

/-- The image of a mirrored tensor in the mirror region: its committed tiles. -/
def mirrorImage (s : State) (c t n : Nat) : List Byte :=
  (upto ((n + 65535) / 65536)).flatMap fun k =>
    memTake ((firstCopy s (16 + c) t k [.committed]).elim [] (·.bytes)) (65536 * k) (min 65536 (n - 65536 * k))

/-- Sends the committed mirror that this module holds, with the DIGEST of context 0's image, to the position it mirrors or to the module
that takes it (R403, R418 step 2). -/
def sendHeldNow (s : State) (dest : Nat) : State :=
  let imgs := (capturedMirror s).map fun x => (x.1, x.2.1, mirrorImage s x.1 x.2.1 x.2.2)
  tell s (.mirrorHeld dest s.steps.committed (progAt s 0).digest ⟨imgs, s.vers.mirrorRecs⟩)

/-- The same, a new transfer of ostler 2's, which waits while it restarts (18 R465, R467). -/
def sendHeld (s : State) (dest : Nat) : State := if ostlerBusy s 2 then hwRequest s 2 (.held dest) else sendHeldNow s dest

/-- As the source of a pull, sends module `dest` the committed copy of a derived tensor, in the mirror class (R419; log 222). -/
def answerPull (s : State) (dest c t : Nat) : State :=
  let p := progAt s c
  if c < 15 && (derivedTensors p).contains t then
    streamTo s dest (rdImage { s := s, ctx := c, step := s.steps.committed } 1 t (tensorBytes (tensorAt p t)))
  else s

/-- Adopts one record (R414, R415, R417): the set, the remap of this ring, and what it means to this module. -/
def adoptRecord (s : State) (r : BitVec 128) : State :=
  if s.recov.set.any (sameFence r) then s
  else if s.recov.set.length ≥ 64 then loseJob s 6
  else
    let partner := pairAt s true
    let mirrored := decide (s.recov.role = .working) && hasMirror s && decide (pairAt s false = fenceCoord r)
    let old := pulls s
    let pairs := s.recov.role = .taking && (fenceCoord r = pairAt s true || fenceCoord r = pairAt s false)
    let s := { s with recov := { s.recov with set := s.recov.set ++ [r], known := s.recov.known.filter (fun k => !sameFence k r && !opposed r k),
                                              dropped := s.recov.dropped ++ (s.recov.known ++ s.recov.own.map (·.1)).filter (opposed r),
                                              own := s.recov.own.filter (fun k => !sameFence k.1 r && !opposed r k.1),
                                              asked := s.recov.asked &&& ~~~ noticeBit r, serving := s.recov.serving || mirrored } }
    let s := post s 7 0x8400 7 (fenceCoord r + fenceReason r * 2 ^ 15)
    let s := if fenceReason r = 4 then waitEnds s else s
    if fenceCoord r = ownCoord s && fenceSerial r = s.dev.product.serial then leaveJob s
    else
      let code := if lostBy s r = 0 && pairs then 3 else lostBy s r
      let s := if code = 0 then s else loseJob s code
      let s := { s with recov := { s.recov with recent := s.recov.recent ++ [r] } }
      let mine := coordOn (fenceCoord r) 1 = coordOn (ownCoord s) 1 && coordOn (fenceCoord r) 2 = coordOn (ownCoord s) 2
      let remap := if mine then (ringRemap s s.recov.set (ownCoord s)).getD 31 else s.recov.remap
      let s := repull { s with recov := { s.recov with remap := remap } } old
      let s := if mirrored && code = 0 then sendHeld s (pairAt s false) else s
      if code ≠ 0 then s
      else if coordOn (ownCoord s) 0 = sparePos s && mine && remap ≠ 31 && s.recov.role = .spare then takeoverStart s r
      else if s.recov.role = .working && hasMirror s && pairAt s true ≠ partner then giveRebuild s
      else s

/-- The records held and not adopted, but for those that one held or adopted opposes (R415). -/
def heldRecords (s : State) : List (BitVec 128) :=
  let rs := s.recov.known ++ s.recov.own.map (·.1)
  rs.filter fun r => !((s.recov.set ++ rs).any fun q => opposed q r)

/-- Does the module hold a record of slot `k`, adopted, waiting or discarded (R414, R415)? -/
def holdsSlot (s : State) (k : Nat) : Bool :=
  (s.recov.set ++ s.recov.known ++ s.recov.own.map (·.1) ++ s.recov.dropped).any fun r => slotOf r = k

/-- A channel-0 frame carrying NOTICE bits (R414): adopts every record of those slots that it holds; a slot of which it holds none
is asked for. -/
def adoptNotices (s : State) (word : Nat) : State :=
  let slots := (upto 6).filter fun k => word.testBit (8 + k)
  slots.foldl (fun s k =>
    let rs := (heldRecords s).filter fun r => slotOf r = k
    if rs.isEmpty && !holdsSlot s k then { s with recov := { s.recov with asked := s.recov.asked ||| BitVec.twoPow 6 k } }
    else rs.foldl adoptRecord s) s

/-! ### The abort word (R265, 12 R333) -/

/-- Has the module's context 15 a diagnosis replay running (R275)? -/
def replaying (s : State) : Bool := s.steps.replayActive

/-- A combined word with CLEAN clear stops a diagnosis replay (R275): no rollback and no retry. -/
def replayStop (s : State) : State :=
  let fails := (ownBits s).getD 0
  let cause (c : Ctx) : Nat :=
    if c.state = .halted && (c.cause = 3 || c.cause = 4) then c.cause else if fails &&& 0x20 ≠ 0 then 3 else if fails &&& 0x18 ≠ 0 then 4 else 0
  let halted (c : Ctx) : Ctx := { c with state := .halted, cause := cause c, causeTask := if c.state = .halted && cause c ≠ 0 then c.causeTask else 0 }
  let s := onCtx s 15 halted
  let s := { s with steps := { s.steps with replayResult := 3, replayActive := false, older := none, younger := none } }
  post s 5 0x2100 0x2F (ctxStatus (ctxAt s 15))

/-- What an abort word makes of a module's open work, by the role it had: a position's holder rolls back; a spare's channels go back; one that
takes a position over has only the step that its own loss opened (R268, 12 R329). -/
def abortEnds (s : State) (n : Nat) (was : Role) : State :=
  if s.recov.role = .working then rollback s n
  else if s.recov.role = .taking && was = .taking && s.steps.older.isSome then rolledBack s n
  else s

/-- The abort word of the open step arrives or is made: counts, waits, fences, then rollback, job loss or the replay's stop. -/
def completeAbort (s : State) (n word : Nat) : State :=
  let contributed := s.steps.older.any fun o => decide (o.status = .contributed)
  let ns := if contributed then s.clk.now - s.steps.contribAt else 0
  let s := waitEnds s
  let s := { s with steps := { s.steps with aborts := s.steps.aborts + 1, attempt := (s.steps.attempt + 1) % 256,
                                            lastWord := BitVec.ofNat 32 word, barrierNs := ns, barrierMax := max s.steps.barrierMax ns } }
  let s := onChan s 0 fun c => chanDone 0 c (gen0 n) word
  if replaying s then replayStop s
  else
    let was := s.recov.role
    let s := if was = .spare || was = .taking then { s with chans := chansBack s.chans } else s
    let s := waitStarts (adoptNotices s word) word
    if s.recov.role = .fenced then s else if word.testBit 15 then jobLost s n else abortEnds s n was

/-- Does a halt with CAUSE 1 or 2 of a context of step `n` hold its contribution (R262)? -/
def heldByOwner (s : State) (n : Nat) : Bool :=
  (upto 15).any fun c => decide ((ctxAt s c).state = .halted) && ((ctxAt s c).cause = 1 || (ctxAt s c).cause = 2) && decide ((ctxAt s c).step = n)

/-- Is the verdict of an open step known to fail (R260, R30, R379, R402, R422)? -/
def verdictFails (s : State) (o : OpenStep) : Bool :=
  o.fails ≠ 0 || s.steps.lossSeen || s.dev.inReset ≠ 0 || s.recov.hold || s.recov.lostPend ≠ 0

/-- Does the module hold a position of the job, or take one over (R418)? -/
def holdsPlace (s : State) : Bool :=
  (decide (s.recov.role = .working) || decide (s.recov.role = .taking)) && (decide (s.dev.state = .joined) || decide (s.dev.state = .recovery))

/-- May the module contribute for its older step: not yet done, not held, and taking part? -/
def mayContribute (s : State) : Bool :=
  (match s.steps.older with
    | some o => decide (o.status ≠ .contributed)
    | none => false) &&
  (replaying s || (!heldByOwner s (stepClosing s) && holdsPlace s))

/-- The FENCE bits of the contributions of generation `g` that channel 0 holds (R265). -/
def combinedFence (s : State) (g : Nat) : Nat :=
  let c := chanAt s 0
  let vs := (c.early.filter fun f => f.1 = g && decide (f.2.1 < 3)).map (·.2.2.2.2) ++ (if c.gen = g then c.input.toList else [])
  vs.foldl (fun x v => x ||| v.toNat &&& 0xFF00) 0

/-- An abort word of this module's making for step `n`: FENCE is the OR of what has been combined, and its own bits (R265). -/
def abortWord (s : State) (n : Nat) : Nat := fenceBits s ||| combinedFence s (gen0 n)

/-- The module's abort contribution for step `n`, which completes the instance at once (R265). -/
def contributeAbort (s : State) (n : Nat) : State :=
  let word := abortWord s n
  completeAbort (sendDown { s with steps := { s.steps with contribAt := s.clk.now }, recov := { s.recov with holdOwed := false } } n word allDirs) n word

/-- With no step open, the step whose channel-0 instance is next is opened for an abort contribution. -/
def openNext (s : State) : State :=
  if s.steps.older.isNone then { s with steps := { s.steps with older := some { step := stepClosing s } } } else s

/-- A JOB_LOST to contribute, and a HOLD that no abort has shown yet, go out in the module's next contribution, for a step that is not open yet
too (15 R402, R422). -/
def lossAbort (s : State) : State :=
  if (s.recov.lostPend ≠ 0 || (s.recov.hold && s.recov.holdOwed)) && s.steps.older.isNone && holdsPlace s && !heldByOwner s (stepClosing s) then
    contributeAbort (openNext s) (stepClosing s)
  else s

/-- An instance that an abort word completes, and the loss of the job that its fences bring (R265, 15 R422). -/
def abortStep (s : State) (n word : Nat) : State := lossAbort (completeAbort s n word)

/-- The module's own abort contribution for its older step (R265). -/
def ownAbort (s : State) : State :=
  match s.steps.older with
  | none => s
  | some o => lossAbort (contributeAbort s o.step)

/-- Contributes an abort where the older step's verdict is known to fail and the module may contribute (R261). -/
def tryAbort (s : State) : State :=
  match s.steps.older with
  | some o => if mayContribute s && verdictFails s o then ownAbort s else s
  | none => lossAbort s

/-- A partition reset is contributed at once, also where no step is open here: the first contribution after it is an abort with HOLD (01 R30,
15 R402). -/
def holdAbort (s : State) : State := tryAbort (if s.recov.hold && holdsPlace s then openNext s else s)

/-! ### Failing events (R260) -/

/-- Sets bits of 0x2100.09 on an open step not yet contributed. -/
def failOpen (b : BitVec 16) (o : OpenStep) : OpenStep := if o.status = .contributed then o else { o with fails := o.fails ||| b }

/-- A failing event: every open step not yet contributed fails, and the abort goes out (R260, R265). -/
def failSteps (s : State) (b : BitVec 16) : State :=
  tryAbort { s with steps := { s.steps with older := s.steps.older.map (failOpen b), younger := s.steps.younger.map (failOpen b) } }

/-- Fails only the step with number `n` (R260: a digest mismatch). -/
def failStep (s : State) (n : Nat) (b : BitVec 16) : State :=
  let f (o : OpenStep) : OpenStep := if o.step = n then failOpen b o else o
  tryAbort { s with steps := { s.steps with older := s.steps.older.map f, younger := s.steps.younger.map f } }

end Sys2Proof.Machine
end

