-- ==== Sys2Proof/Machine/Reset.lean ====
section
/-! DEFINITION. Crash dumps, partition and module resets, OUT_OF_SERVICE, quarantine, and what an ECC error does (01 R14 to R16, R29 to
R31, 09 R233 to R238, 14 R378 to R381, 15 R402 to R405, 16 R428 to R437, 18 R482 to R485). -/

namespace Sys2Proof.Machine

/-! ### Crash dumps (18 R482 to R484) -/

/-- A dump header as of counter `stamp` in step `n` (R484); its CRC is formed when it is read. -/
def dumpHeaderAt (s : State) (stamp n trig source part timeouts size : Nat) (trunc summary : Bool) : BitVec 256 :=
  BitVec.ofNat 256 (pack [(192, 64, stamp), (160, 32, n), (152, 8, trig), (148, 4, source), (144, 4, part), (128, 16, sat 16 timeouts),
    (127, 1, bit trunc), (126, 1, bit summary), (64, 32, size), (32, 32, s.fw.dumpCount + 1)])

/-- One whose trigger is now. -/
def dumpHeader (s : State) (trig source part timeouts size : Nat) (trunc summary : Bool) : BitVec 256 :=
  dumpHeaderAt s (localCounter s) (stepNow s) trig source part timeouts size trunc summary

/-- SEQ of a header. -/
def dumpSeq (h : BitVec 256) : Nat := fld h.toNat 63 32

/-- The slot a dump takes: a free one, else the oldest (R484). -/
def dumpSlot {n : Nat} (v : Vector (Option (BitVec 256)) n) : Nat :=
  let keyed := (upto n).map fun i => (i, (nth v i none).elim 0 dumpSeq)
  (keyed.foldl (fun b x => if x.2 < b.2 then x else b) (keyed.headD (0, 0))).1

/-- The lowest-numbered partition in service besides `skip` (R484). -/
def dumpPart (s : State) (skip : Nat) : Option Nat := (upto 8).find? fun p => s.dev.inService.getLsbD p && decide (p ≠ skip)

/-- Stores a full dump, where a partition in service can hold it (R484). -/
def storeDump (s : State) (skip : Nat) (h : BitVec 256) (body : Nat) : State :=
  if (dumpPart s skip).isNone then s
  else
    let k := dumpSlot s.fw.dumps
    { s with fw := { s.fw with dumps := updN s.fw.dumps k fun _ => some h, dumpMem := updN s.fw.dumpMem k fun _ => body,
                               dumpSeed := updN s.fw.dumpSeed k fun _ => body, dumpCount := s.fw.dumpCount + 1 } }

/-- What the body of a dump holds: an ostler's contents, or a free value (log 4). -/
def dumpHolds (s : State) (source : Nat) : Nat := if source < 12 then (nth s.fw.ostlers source {}).contents else s.free

/-- A full dump that module hardware takes now; which of its reads time out is free (R482, R483; log 4). -/
def fullDump (s : State) (skip trig source part size : Nat) : State :=
  let h := dumpHeader s trig source part (Config.dumpTimeouts s.free) size (Config.dumpTruncated s.free) false
  drawn (storeDump s skip h (dumpHolds s source))

/-- Writes a 64 KiB summary to the oldest flash slot (R484); which of its reads time out is free (R483; log 4). -/
def flashSummary (s : State) (trig source part : Nat) : State :=
  let h := dumpHeader s trig source part (Config.dumpTimeouts s.free) 65536 (Config.dumpTruncated s.free) true
  let k := dumpSlot s.fw.sums
  drawn { s with fw := { s.fw with sums := updN s.fw.sums k fun _ => some h, sumMem := updN s.fw.sumMem k fun _ => s.free, dumpCount := s.fw.dumpCount + 1 } }

/-! ### Escalation (15 R405) -/

/-- Entries of a history within a window of operating seconds. -/
def within (now window : Nat) (l : List Nat) : Nat := (l.filter fun t => decide (now ≤ t + window)).length

/-- Does the partition history reach its count (R405)? -/
def partsOver (s : State) : Bool := decide (within (optime s) (rw s 0x840002) (s.recov.partHist.map (·.2)) ≥ rw s 0x840001)

/-- Does the module history reach its count (R405)? -/
def modsOver (s : State) : Bool := decide (within (optime s) (rw s 0x840004) s.recov.modHist ≥ rw s 0x840003)

/-! ### OUT_OF_SERVICE -/

/-- Enters OUT_OF_SERVICE (R434). A thermal trip may do so from any state; every other cause not from BOOT. -/
def outOfService (s : State) : State := if s.dev.state = .boot then { s with dev := { s.dev with oosAtEnd := true } } else changeState s .outOfService

/-! ### Partition reset (01 R29 to R31, 15 R402, 16 R436, R439) -/

/-- The partition an aperture offset maps to (09 R241). -/
def aperturePart (x : Nat) : Nat := (x >>> 12) % 8

/-- A link of a partition goes down with it: no retrain, and nothing towards the limit; a fence stands (11 R302, R304). -/
def partLinkDown (s : State) (l : Nat) : State :=
  let k := linkAt s l
  if k.state = .fenced then s
  else
    let s := onLink s l fun k => linkOut k .down k.cause
    if inService k then postLink (resend { s with topo := { s.topo with downEvents := s.topo.downEvents + 1 } } (linkDir s l) (unacked k)) l else s

/-- A partition's links before power goes: each of its six link blocks sends LEAVING with cause 1 on every lane of its bundle, then they
go down (11 R304). -/
def partLinksDown (s : State) (p : Nat) : State :=
  let ls := (upto 6).map (· + 6 * p)
  ls.foldl partLinkDown (ls.foldl (fun s l => leaveOn s l 1) s)

/-- The context a restore request names. -/
def restContext (r : BitVec 128) : Nat := fld r.toNat 23 20

/-- A restore that fails leaves its context without a valid committed state (13 R364). -/
def restoreFails (s : State) (reason cut : Nat) : State :=
  match s.ckpt.restReq with
  | none => s
  | some r =>
    let s := { s with ckpt := { s.ckpt with restore := 3, restReason := reason, restCut := cut, restReq := none, restNoState := false },
                      ctxs := updN s.ctxs (restContext r) fun x => { x with invalid := true } }
    post s 12 0x6000 0x19 (restStatus cut reason 3 false)

/-- An operation that a partition reset ends (16 R439): a retain copy, its destination invalid and free. -/
def endedByReset (k : Ckpt) : Ckpt :=
  match k.retain with
  | some (_, dst) => { k with retain := none, areas := updN k.areas dst fun _ => { state := 4 } }
  | none => k

/-- Does a copy lie in partition `p`: a version tile by its home, a TRANSIENT's contents by its stores? -/
def copyOn (s : State) (p : Nat) (k : Copy) : Bool :=
  if k.undef.isSome || k.ctx = 15 then (placedAt s k.ctx k.tensor).any fun x => x.parts.getLsbD p else decide (tileHome s k.ctx k.tensor k.tile = p)

/-- The batches that partition `p` holds a part of: those yet to be replayed are fetched once more (15 R404); which steps. -/
def batchesOn (s : State) (p : Nat) : List Nat := (s.fetch.batches.map (·.1)).filter fun n => batchOn s n p

/-- Contents that a partition's power takes away: staging bytes, its version and mirror tiles, batches, chunks in its link store, and the
fingerprint ring where it holds that (09 R242, 10 R271, 15 R403, 16 R436). -/
def partContents (s : State) (p : Nat) : State :=
  let gone := batchesOn s p
  -- a PREV copy is refilled from nowhere (15 R403): its bytes are free (log 171)
  let left (k : Copy) : Option Copy :=
    if !copyOn s p k then some k
    else if k.kind = .prev then some { k with bytes := memPut [] (65536 * k.tile) ((upto 65536).map (Config.freeByte s.free)) } else none
  { s with staging := s.staging.filter fun x => aperturePart x.1 ≠ p, poison := s.poison.filter fun u => aperturePart (32 * u) ≠ p,
           free := s.free + 1,
           vers := { s.vers with copies := s.vers.copies.filterMap left,
                                 mirrorLost := (s.vers.copies.any fun k => isMirrorTile k && copyOn s p k) || s.vers.mirrorLost },
           fetch := { s.fetch with batches := s.fetch.batches.filter fun b => !gone.contains b.1, again := s.fetch.again ++ gone },
           coll := { s.coll with chunks := s.coll.chunks.filter fun k => k.part ≠ p },
           steps := { s.steps with prints := if p = Config.ringPart % 8 then [] else s.steps.prints } }

/-- What a partition holds of cores and engines: its cores and its link DMA. -/
def partEngines (p : Nat) : List Nat := partCores p ++ [136 + p]

/-- What a partition reset ends of takeovers and rebuilds (16 R439): the mirror of a position that is being taken over is lost with its
tiles, and so is the job; a rebuild not yet acknowledged starts again after the refill. -/
def pairsCut (s : State) (p : Nat) : State :=
  let s := { s with recov := { s.recov with owed := s.recov.owed || (s.recov.single && decide (s.recov.role = .working)) } }
  if s.recov.serving && s.vers.copies.any (fun k => isMirrorTile k && copyOn s p k) then loseJob s 3 else s

/-- Does a die-to-die connection end at compute die `p`? Its ends start afresh when it is trained again. -/
def connOf (p : Nat) (c : Conn) : Bool :=
  match c with
  | .toHub q => q.val = p
  | .ring q => q.val = p || (q.val + 1) % 8 = p
  | .guest => false

/-- The reset itself, once it is neither merged nor ignored (R29 to R31, R402). -/
def partResetRun (s : State) (p cause : Nat) : State :=
  let s := keepReadings s p
  let b := BitVec.twoPow 8 p
  let tooMany := partsOver { s with recov := { s.recov with partHist := (p, optime s) :: s.recov.partHist } }
  let thermal := cause = 6 && s.power.emers.any fun e => match e.kind with
    | .logicHot q => q.val = p
    | .dramHot n => n.val / 2 = p
    | _ => false
  let s := { s with recov := { s.recov with partHist := (p, optime s) :: s.recov.partHist, partResets := s.recov.partResets + 1, last := 2, lastPart := p,
                                            hold := s.recov.hold || decide (s.recov.role = .working) || decide (s.recov.role = .taking),
                                            holdOwed := s.recov.holdOwed || decide (s.recov.role = .working) || decide (s.recov.role = .taking),
                                            refills := s.recov.refills ||| (if s.recov.role = .working || s.recov.role = .taking then b else 0) },
                    dev := { s.dev with lastKind := 2, lastPart := p, lastCause := cause, inReset := s.dev.inReset ||| b,
                                        inService := s.dev.inService &&& ~~~ b } }
  let s := post s 16 0x2000 8 s.dev.inService.toNat
  let s := pairsCut (enterRecovery (gallopStop s)) p
  let s := domainsOff (partContents (partLinksDown s p) p) (partDomains p).reverse
  let s := { s with dev := { s.dev with d2dSeq := s.dev.d2dSeq.filter (fun x => !connOf p x.1.1), d2dBuf := s.dev.d2dBuf.filter fun x => !connOf p x.1.1 } }
  let s := restoreFails s 7 s.ckpt.restCut
  let s := abandonAll { s with ckpt := endedByReset s.ckpt, place := { s.place with plan := [] } } 1
  let dup := dupBit s (partEngines p)
  let s := discardOn s (partEngines p) true
  let s := if s.recov.role = .working && anyLocal s then loseJob s 4 else s
  let ks (l : List (Nat × Nat)) : List (Nat × Nat) := l.filter fun k => k.1 / 17 ≠ p
  let s := { s with dev := { s.dev with kernels := ks s.dev.kernels, retest := ks s.dev.retest, heldOff := if tooMany then s.dev.heldOff ||| b else s.dev.heldOff,
                                        delayed := if thermal && !tooMany then s.dev.delayed ||| b else s.dev.delayed,
                                        bring := updN s.dev.bring p fun _ => if tooMany || thermal then 0 else 1 } }
  let s := if s.steps.older.isNone then holdAbort s else failSteps s (0x0008 ||| dup ||| if cause = 5 then 0x0040 else 0)
  if tooMany then outOfService s else s

/-- Is a module reset in progress, from its start to READY (R436, R437)? A boot after it is part of it; that of a power-up is not. -/
def moduleResetting (s : State) : Bool := s.dev.down.any (·.reset) || s.dev.holdoff || (decide (s.dev.state = .boot) && decide (s.dev.lastKind = 1))

/-- Has power-up not come to partition `p` yet (R430)? -/
def notStarted (s : State) (p : Nat) : Bool := decide (s.dev.state = .boot) && (decide (s.dev.phase < 4) || (decide (s.dev.phase = 4) && decide (s.dev.nextPart ≤ p)))

/-- Starts a partition reset (R29, R31, R437): merged with one in progress, ignored in OUT_OF_SERVICE, during a module reset or power-down
and before power-up has come to the partition, and deferred while the Farrier restarts (18 R472), its step failed already. -/
def partReset (s : State) (p cause : Nat) : State :=
  if !s.dev.on || s.dev.down.isSome || moduleResetting s || notStarted s p || s.dev.state = .outOfService || s.dev.inReset.getLsbD p then s
  else if s.fw.farrierDown then failSteps { s with fw := { s.fw with later := s.fw.later ++ [(some p, cause)] } } 0x0008
  else partResetRun s p cause

/-! ### Module reset (16 R428, R436) -/

/-- Starts a module reset (R437): merged with one in progress, deferred while the Farrier restarts (18 R472); after a thermal trip only
OFF brings the rails back (17 R459). -/
def modReset (s : State) (cause : Nat) : State :=
  if !s.dev.on || s.power.trip || s.dev.down.isSome || moduleResetting s then s
  else if s.fw.farrierDown then failSteps { s with fw := { s.fw with later := s.fw.later ++ [(none, cause)] } } 0x0008
  else modResetRun s cause

/-! ### Quarantine (01 R14, R15, 14 R378 to R380, 08 R216, R217) -/

/-- A core map with core `k` out and `r` in its place, or none in its place. -/
def mapSwap (w : BitVec 32) (k r : Nat) : BitVec 32 :=
  if r < 17 then BitVec.ofNat 32 (pack [(19, 5, k), (0, 17, (w.toNat % 2 ^ 17 - 2 ^ k) + 2 ^ r)])
  else BitVec.ofNat 32 (pack [(19, 5, 31), (0, 17, w.toNat % 2 ^ 17 - 2 ^ k)])

/-- Number of active cores of a map. -/
def activeCount (w : BitVec 32) : Nat := ((upto 17).filter (activeIn w)).length

/-- A summary in ascending order of unit type, then unit, with one more entry (14 R386). -/
def sumInsert : List Summary → Summary → List Summary
  | [], e => [e]
  | x :: r, e =>
    if e.unit.utype < x.unit.utype || (e.unit.utype = x.unit.utype && e.unit.unit < x.unit.unit) then e :: x :: r else x :: sumInsert r e

/-- May a full table give this entry up (14 R384)? -/
def sumYields (e : Summary) : Bool := decide (e.cls = 1) && !e.quarantined && !e.retired && !e.pending

/-- The summary with an entry for a unit; where the table of 65,536 is full, in place of the TRANSIENT unmarked unit of lowest LAST_SEQ;
none where no entry qualifies (14 R384). -/
def sumEnsure (l : List Summary) (u : LUnit) : Option (List Summary) :=
  if l.any fun e => decide (e.unit = u) then some l
  else if l.length < 65536 then some (sumInsert l { unit := u })
  else match l.filter sumYields with
    | [] => none
    | y :: r =>
      let low := r.foldl (fun b x => if x.lastSeq < b.lastSeq then x else b) y
      some (sumInsert (l.erase low) { unit := u })

/-- Marks a unit's summary entry, which it gets where it has none. -/
def markSummary (l : Ledger) (u : LUnit) (f : Summary → Summary) : Ledger :=
  { l with summary := mapWhere ((sumEnsure l.summary u).getD l.summary) (fun e => decide (e.unit = u)) f }

/-- A core as the gate brings it in: its queues empty, its sensors and loop as they are. -/
def gatedIn (k : Core) : Core := { clearedCore k with test := false, probe := 0, barred := false }

/-- Marks core `g` quarantined in the summary, as a core, and for its lane where that has an entry. -/
def markQuarantined (s : State) (g : Nat) : State :=
  let f (e : Summary) : Summary := { e with quarantined := true }
  let l := markSummary s.ledger ⟨1, g⟩ f
  { s with ledger := { l with summary := mapWhere l.summary (fun e => decide (e.unit = ⟨2, g⟩)) f } }

/-- Start-up kernels after a quarantine: the core's are gone, and the remount core is tested in its place (16 R432). -/
def retested (ks : List (Nat × Nat)) (running : Bool) (g r : Nat) (spare : Bool) : List (Nat × Nat) :=
  ks.filter (fun k => k.1 ≠ g) ++ if running && spare then [1, 2, 3, 4].map fun f => (r, f) else []

/-- Takes an active core out, with or without a spare (R14, R15, R216, R217). Without one, the map of a loaded program changes when its
re-placement is done. -/
def takeOut (s : State) (g : Nat) : State :=
  let p := g / 17
  let k := g % 17
  let w := coreMapOf s p
  let r := if spareAvailable s p then remountOf w else 31
  let slots := updN s.place.slotMap p fun v => v.map fun c => if c = k then (if r < 17 then r else 31) else c
  let later := decide (r ≥ 17) && s.ctxs.toList.any fun x => x.prog.isSome
  let s := { s with place := { s.place with coreMap := updN s.place.coreMap p fun _ => mapSwap w k r, slotMap := slots, gen := s.place.gen + 1,
                                            plan := [], replacing := if later then s.place.replacing ++ [p] else s.place.replacing },
                    dev := { s.dev with kernels := retested s.dev.kernels (decide (s.dev.state = .boot) && decide (s.dev.phase = 5)) g (17 * p + r) (decide (r < 17)),
                                        retest := s.dev.retest.filter fun k => k.1 ≠ g } }
  if r < 17 then onCore_ s (17 * p + r) gatedIn else s

/-- Active cores of a partition that no decided quarantine waits to take out (18 R467). -/
def unbarred (s : State) (p : Nat) : Nat := activeCount (coreMapOf s p) - ((partCores p).filter fun g => coreActive s g && (coreAt s g).barred).length

/-- Is the partition's ostler dumping, restarting or failed? -/
def partOstlerBusy (s : State) (p : Nat) : Bool := decide ((nth s.fw.ostlers (4 + p) {}).state ≠ 0)

/-- Quarantines a core (R14 to R16, R378, R379): a failing event; one that would leave fewer than fifteen is not carried out. While the
partition's ostler restarts, the core takes no further piece, and its gating and the bring-in wait (18 R467). -/
def quarantine (s : State) (g : Nat) : State :=
  if !coreActive s g then markQuarantined s g
  else if (coreAt s g).barred then s
  else if unbarred s (g / 17) + bit (spareAvailable s (g / 17)) ≤ 15 then
    outOfService (failSteps { s with steps := { s.steps with lossSeen := true } } 0x0010)
  else
    let s := markQuarantined s g
    let s := if partOstlerBusy s (g / 17) then onCore_ s g fun k => { k with barred := true } else takeOut s g
    let s := { s with place := { s.place with plan := [] } }
    failSteps (discardOn s [g] true) (0x0010 ||| dupBit s [g])

/-- The cores of a partition whose quarantine waited for its ostler are taken out (18 R467). -/
def quarantinesEnd (s : State) (p : Nat) : State :=
  ((partCores p).filter fun g => coreActive s g && (coreAt s g).barred).foldl (fun s g => takeOut (onCore_ s g fun k => { k with barred := false }) g) s

/-! ### Committed-state and mirror loss (09 R234, 15 R411) -/

/-- Committed-state loss: no clean verdict until module reset, and a self-fence (R234, R411 reason 5). -/
def stateLoss (s : State) : State :=
  let s := { s with steps := { s.steps with lossSeen := true }, mem := { s.mem with integrity := s.mem.integrity ||| 1 } }
  failSteps (selfFence s) 0x0100

/-- Mirror loss: this module's steps go on, and it asks for a rebuild (R234, R409). -/
def mirrorLoss (s : State) : State :=
  tell { s with mem := { s.mem with integrity := s.mem.integrity ||| 2 }, vers := { s.vers with mirrorLost := true, copies := s.vers.copies.filter fun k => !isMirrorTile k, mirrorW := [] },
                recov := { s.recov with rebuild := true } } .mirrorLost

/-! ### ECC errors (09 R232 to R238, 18 R485) -/

/-- Does the error lie in HBM? -/
def isHbm (e : Ecc) : Bool := e.store = 4

/-- Bytes of a store: a core store, a link store, the hub commons (R221), a partition's HBM (R225). -/
def storeBytes (store : Nat) : Nat :=
  match store with
  | 1 => 6 * 2 ^ 20
  | 2 => 48 * 2 ^ 20
  | 3 => 64 * 2 ^ 20
  | 4 => 96 * 2 ^ 30
  | _ => 0

/-- Bytes that one code protects: an 8-byte word, or a 32-byte HBM access (R232). -/
def eccGrain (e : Ecc) : Nat := if isHbm e then 32 else 8

/-- The pseudo-channel of an HBM address: the XOR of the 6-bit groups of its 256-byte grain (R226). -/
def pseudoChannel (a : Nat) : Nat :=
  let g := a >>> 8
  fld g 5 0 ^^^ fld g 11 6 ^^^ fld g 17 12 ^^^ fld g 23 18 ^^^ fld g 28 24

/-- The stack of an HBM address of partition `p` (R226). -/
def stackOf (p a : Nat) : Nat := 2 * p + (if pseudoChannel a < 32 then 0 else 1)

/-- First addresses of the staging and of the firmware range of a partition's HBM (R225). -/
abbrev stagingBase : Nat := 0x15C0000000
abbrev firmwareBase : Nat := 0x17C0000000

/-- UNIT of a location: the physical core, or the pseudo-channel (R238). -/
def eccUnit (e : Ecc) : Nat := if isHbm e then pseudoChannel e.addr else if e.store = 1 then e.unit else 0

/-- Is the location a spare row in HBM's firmware range, which holds what a redirected row held (R236, 18 R485)? -/
def spareRow (e : Ecc) : Bool := isHbm e && decide (firmwareBase ≤ e.addr) && decide (e.region = 11)

/-- The content code of a location, held to the layout of R225: HBM's staging range holds staging (8), its firmware range code 9 but for
spare rows, which have the code of their data (18 R485), and nothing else of the module holds staging. -/
def eccContent (e : Ecc) : Nat :=
  if spareRow e then (if e.content = 9 then 0 else e.content)
  else if isHbm e && decide (firmwareBase ≤ e.addr) then 9
  else if isHbm e && decide (stagingBase ≤ e.addr) then 8
  else if e.content = 8 || (isHbm e && e.content = 9) then 0 else e.content

/-- Is there such a location: within its store, of a core or partition that exists? -/
def eccReal (e : Ecc) : Bool :=
  decide (e.addr < storeBytes e.store) && (if e.store = 3 then decide (e.part = 8) else decide (e.part < 8)) && (e.store ≠ 1 || decide (e.unit < 17))

/-- Is the error more than the code corrects: two wrong bits of a word, two wrong symbols of an access (R232)? DESIGN CHOICE, log 158: more
than two, which the code need not see, count as detected. -/
def eccBad (e : Ecc) : Bool := decide (2 ≤ e.wrong)

/-- The bytes of a tensor that an uncorrectable error hits: its element's code word or access, with the content code (R232, R234). -/
def eccMark (s : State) (e : Ecc) : Option Mark :=
  match e.elem with
  | some (c, t, i) =>
    let y := tensorAt (progAt s c) t
    let at_ := if isBlock y.format && decide (elems y ≤ i) then elems y + i else elemBytes y.format * i
    if eccReal e && eccBad e then
      some { content := eccContent e, ctx := c, tensor := t, off := at_ / eccGrain e * eccGrain e, len := eccGrain e }
    else none
  | none => none

/-- The row unit of an HBM location (R226, 14 R372). -/
def rowUnit (e : Ecc) : Nat := pack [(29, 3, e.part), (23, 6, eccUnit e), (4, 19, Config.hbmRow (e.addr >>> 18)), (0, 4, (e.addr >>> 14) % 16)]

/-- The last uncorrectable location (R238), aligned to the code word. -/
def eccWord (s : State) (e : Ecc) : BitVec 128 :=
  BitVec.ofNat 128 (pack [(80, 48, stepNow s), (76, 4, e.store), (72, 4, eccContent e), (68, 4, e.part), (62, 6, eccUnit e),
    (0, 37, e.addr / eccGrain e * eccGrain e)])

/-- The spare rows in use or being filled in a partition. -/
def rowsUsed (s : State) (p : Nat) : Nat := (s.mem.rows.filter fun r => r.1 = p).length + (s.mem.copying.filter fun r => r.part = p).length

/-- A row that meets the retirement criteria starts its copy; beyond 256 spare rows it is only recorded (R236). -/
def retireRow (s : State) (e : Ecc) (bad : Bool) : State :=
  let row := rowUnit e
  let loc := (e.addr / 32 * 32, eccContent e)
  if s.mem.rows.contains (e.part, row) || (s.mem.copying.any fun r => r.row = row && !bad) then s
  else if s.mem.copying.any fun r => r.row = row then
    { s with mem := { s.mem with copying := s.mem.copying.map fun r => if r.row = row && !r.bad.contains loc then { r with bad := r.bad ++ [loc] } else r } }
  else if rowsUsed s e.part ≥ 256 then faultEvent s { kind := 6, unit := ⟨3, row⟩, pclass := 7, arg := (eccWord s e).toNat % 2 ^ 37 }
  else { s with mem := { s.mem with copying := s.mem.copying ++ [{ part := e.part, row := row, addr := (eccWord s e).toNat % 2 ^ 37, bad := if bad then [loc] else [] }] } }

/-- Distinct accesses of a row with correctable errors within 24 hours (R236). -/
def recentHits (s : State) (row : Nat) : Nat :=
  (nub ((s.mem.hits.filter fun h => h.1 = row && decide (optime s ≤ h.2.2 + 86400)).map (·.2.1))).length

/-- A correctable error (R233, R236): corrected, counted, and the row judged. -/
def eccCorr (s : State) (e : Ecc) : State :=
  if isHbm e then
    let row := rowUnit e
    let s := { s with mem := { s.mem with hbmCorr := s.mem.hbmCorr + 1, hits := (row, e.addr / 32, optime s) :: s.mem.hits } }
    if recentHits s row ≥ 3 then retireRow s e false else s
  else { s with mem := { s.mem with storeCorr := s.mem.storeCorr + 1 } }

/-- A location that nothing is allocated in is marked (R234 code 0). -/
def unallocMark (l : List (Nat × Nat × Nat × Nat)) (e : Ecc) : List (Nat × Nat × Nat × Nat) :=
  let x := (e.store, e.part, eccUnit e, e.addr / eccGrain e * eccGrain e)
  if eccContent e ≠ 0 || l.contains x then l else l ++ [x]

/-- The ledger unit of an on-chip location (14 R372, R373 KIND 7). -/
def storeUnit (e : Ecc) : LUnit := if e.store = 1 then ⟨1, 17 * e.part + e.unit⟩ else ⟨7, pack [(28, 4, e.store), (24, 4, e.part), (0, 24, e.addr / 65536)]⟩

/-- A TRANSIENT's contents without what lay in core `g`'s store (16 R436). -/
def withoutStore (s : State) (g : Nat) (k : Copy) : Copy :=
  match k.undef, placedAt s k.ctx k.tensor, (upto 128).find? fun u => coreOfSlot s u = some g with
  | none, some x, some u =>
    if k.ctx ≠ 15 || (tensorAt (progAt s 15) k.tensor).persist ≠ clsPersistent then k
    else
      let lo := 65536 * k.tile
      let rs := (shareRanges s (1000 + u) x).filterMap fun r => if max r.1 lo < min r.2 (lo + 65536) then some (max r.1 lo, min r.2 (lo + 65536)) else none
      { k with bytes := rs.foldl (fun m r => memPut m r.1 ((upto (r.2 - r.1)).map fun i => Config.freeByte s.free (r.1 + i))) k.bytes }
  | some _, some x, some u =>
    let rs := shareRanges s (1000 + u) x
    let stays (b : Host.Cell) : Bool := !(rs.any fun r => decide (r.1 ≤ b.1) && decide (b.1 < r.2))
    { k with bytes := k.bytes.filter stays, mask := k.mask.filter stays }
  | _, _, _ => k

/-- A core's store is cleared. Resident CONST copies are placed there still: they hold what the image does, and are recopied before the replay,
which waits for the reset (15 R399). -/
def storeCleared (s : State) (g : Nat) : State :=
  { s with vers := { s.vers with copies := s.vers.copies.map (withoutStore s g) }, free := s.free + 1 }

/-- A core is reset: its queues and its store go, its resets are counted; a core that needs a second one within 600 s is quarantined instead (15
R399, 16 R436). -/
def coreReset (s : State) (g : Nat) : State :=
  if (coreAt s g).resets.any fun t => decide (optime s ≤ t + 600) then quarantine (onCore_ s g fun k => { k with probe := 0 }) g
  else
    let s := onCore_ (storeCleared (discardOn s [g] false) g) g fun k => { k with probe := 2, resets := optime s :: k.resets }
    { s with tests := { s.tests with coreResets := s.tests.coreResets + 1 }, recov := { s.recov with last := 1 } }

/-- What the owning function does about a held-back or firmware region, by row of the table of 18 R485. -/
def heldBack (s : State) (e : Ecc) : State :=
  match e.region with
  | 0 => failSteps s 0x0080
  | 1 =>
    let s := failSteps s 0x0080
    if s.dev.down.isSome || moduleResetting s then s else coreReset s (17 * e.part + e.unit)   -- 16 R437
  | 2 => linkDown (failSteps s 0x0080) (6 * e.part + e.unit % 6) 6
  | 3 => failSteps s 0x0080
  | 4 => { s with fw := { s.fw with log := mapWhere s.fw.log (fun x => x.seq % 32768 = e.addr / 32 % 32768) fun x => { x with entry := 0 } } }
  | 5 => { s with num := { s.num with recs := s.num.recs.filter fun r => r.1 % 8192 ≠ e.addr / 32 % 8192 } }
  | 6 => { s with results := updN s.results (e.addr / 32 % 64) fun _ => {} }
  | 7 => stateLoss s
  | 8 => { s with mem := { s.mem with copyPoison := (e.part / 4, s.clk.now) :: s.mem.copyPoison } }
  | 9 => stateLoss s
  | 10 => drawn { s with fw := { s.fw with dumpMem := updN s.fw.dumpMem (e.addr / 2 ^ 26 % 8) fun _ => s.free } }   -- its CRC is left failing; slot: log 230
  | _ => s

/-- The aperture offset of an address of the staging region (09 R241). -/
def stagingOffset (p a : Nat) : Nat :=
  let rel := a - stagingBase
  rel / 4096 * 32768 + p * 4096 + rel % 4096

/-- The 32-byte unit of the aperture that holds a staging location is poisoned (R234). Which one a spare row holds, no rule says: it is
free (log 4). -/
def stagingPoison (s : State) (e : Ecc) : State :=
  let u := if spareRow e then (Config.freeWord s.free).toNat % 2 ^ 31 else stagingOffset e.part e.addr / 32
  let s := if spareRow e then { s with free := s.free + 1 } else s
  { s with mem := { s.mem with integrity := s.mem.integrity ||| 4 }, poison := if s.poison.contains u then s.poison else u :: s.poison }

/-- What follows an uncorrectable error by what the location holds (R234); `read` when an execution of contexts 0 to 14 read it, or of
context 15 in a diagnosis replay (10 R275). -/
def contentAct (s : State) (e : Ecc) (read : Bool) : State :=
  match eccContent e with
  | 1 => if read then failSteps s 0x0080 else s
  | 2 => if read then failSteps s 0x0080 else s
  | 5 => if read then failSteps s 0x0080 else s
  | 3 => stateLoss s
  | 4 => stateLoss s
  | 6 => stateLoss s
  | 7 => mirrorLoss s
  | 8 => stagingPoison s e
  | 9 => heldBack s e
  | _ => s

/-- A location that holds an uncorrectable error is marked, once. -/
def addMark (ms : List Mark) (m : Option Mark) : List Mark :=
  match m with
  | some m => if ms.contains m then ms else ms ++ [m]
  | none => ms

/-- An uncorrectable error (R234 to R238): counted, its location recorded, an on-chip word in the ledger, a row retired. -/
def eccUncorr (s : State) (e : Ecc) (read : Bool) (pc : Nat) : State :=
  let m := { s.mem with lastUncorr := eccWord s e, hbmUncorr := s.mem.hbmUncorr + bit (isHbm e), storeUncorr := s.mem.storeUncorr + bit (!isHbm e),
                        marks := addMark s.mem.marks (eccMark s e), unalloc := unallocMark s.mem.unalloc e }
  let s := { s with mem := m }
  let s := if isHbm e then retireRow s e true else faultEvent s { kind := 7, unit := storeUnit e, pclass := pc, arg := (eccWord s e).toNat % 2 ^ 37 }
  contentAct s e read

/-- An ECC error met by a read (R232 to R234): none where nothing is wrong or no such location exists. -/
def eccHit (s : State) (e : Ecc) (read : Bool) (pc : Nat) : State :=
  if e.wrong = 0 || !eccReal e then s else if eccBad e then eccUncorr s e read pc else eccCorr s e

/-- The errors that an execution of context `c` met: it fails a step unless it is the service context's own (R234, 10 R275). -/
def eccHits (s : State) (c task : Nat) (es : List Ecc) : State :=
  let pc := ((taskAt s c task).map pclassOf).getD 0
  es.foldl (fun s e => eccHit s e (decide (c ≠ 15) || s.steps.replayActive) pc) s

end Sys2Proof.Machine
end

