-- ==== Sys2Proof/Machine/Issue.lean ====
section
/-! DEFINITION. Dispatch of tasks into pieces and their issue on cores (07 R188 to R192, 08 R207 to R209, 10 R248 to R257, 17 R452, R453). -/

namespace Sys2Proof.Machine

/-! ### Check slots (08 R209) -/

/-- The core of the slot `far` partitions on, or of the next non-empty slot in ascending order, wrapping (R209, 10 R258). -/
def partnerCore (s : State) (slot far : Nat) : Option Nat :=
  (upto 16).findSome? fun i => coreOfSlot s (16 * ((slot / 16 + far) % 8) + (slot % 16 + i) % 16)

/-! ### Tasks, units and pieces (08 R208, 10 R255; one unit a piece, or the whole task: log 25) -/

/-- The body of the task that context `c` dispatches next. -/
def nextBody (s : State) (c : Nat) : Option Body := (taskAt s c (ctxAt s c).pos).map fun t => t.body

/-- The number of units of a task (10 R255). -/
def taskUnits (p : Program) (t : Task) : Nat :=
  match t.body with
  | .mat kind a b _ _ _ _ _ _ ta tb => let sh := matShape p kind a b ta tb; gridTiles sh.m sh.n
  | .att false q _ _ _ _ _ _ _ _ _ _ _ _ _ _ _ => (rowsOf (tensorAt p q.tensor) + 63) / 64
  | .att true q k _ _ _ _ _ _ _ _ _ _ _ _ _ _ => (rowsOf (tensorAt p k.tensor) + 63) / 64 + (rowsOf (tensorAt p q.tensor) + 63) / 64
  | .ew a _ _ sub _ _ _ _ _ => if sub = 19 then 1 else runTiles (elems (tensorAt p a.tensor))
  | .red src _ _ whole => if whole then 1 else runTiles (rowsOf (tensorAt p src.tensor))
  | .norm x _ _ _ _ _ _ _ _ _ => runTiles (elems (tensorAt p x.tensor))
  | .smax x _ _ _ _ _ _ _ => runTiles (elems (tensorAt p x.tensor))
  | .opt _ _ _ _ _ _ _ _ count => (count + 4095) / 4096
  | .conv src _ => runTiles (elems (tensorAt p src.tensor))
  | .amax _ _ => 1
  | .copy _ _ => 1
  | .coll _ _ _ _ _ _ => 0
  | .sig _ _ _ => 0
  | .wait _ _ => 0

/-- Is the task never split: one piece holds all its units? -/
def isWhole (t : Task) : Bool :=
  match t.body with
  | .att bwd _ _ _ _ _ _ _ _ _ _ _ _ _ _ _ _ => bwd
  | .norm _ _ _ _ _ _ _ _ _ _ => true
  | .smax _ _ _ _ _ _ _ _ => true
  | .amax _ _ => true
  | .copy _ _ => true
  | _ => false

/-- First units of a task's pieces, in order. -/
def pieceUnits (p : Program) (t : Task) : List Nat := if isWhole t then [0] else upto (taskUnits p t)

/-- The units of the piece that begins with unit `u`. -/
def unitsOfPiece (p : Program) (t : Task) (u : Nat) : List Nat := if isWhole t then upto (taskUnits p t) else [u]

/-- Does the task go to core queues: neither COLL, SIG nor WAIT (07 R178, R181)? -/
def isCoreTask (t : Task) : Bool := t.opcode ≠ 0x30 && t.opcode ≠ 0x38 && t.opcode ≠ 0x39

/-- Does the task run in the core array (07 R178)? -/
def usesArray (t : Task) : Bool := decide (0x10 ≤ t.opcode ∧ t.opcode < 0x20)

/-- The output tensors that a task writes: AMAX writes none (07 R177). -/
def outputsOf (t : Task) : List Nat :=
  match t.body with
  | .mat _ _ _ c _ _ _ _ _ _ _ => [c]
  | .att bwd _ _ _ o l _ dq dk dv _ _ _ _ _ _ _ => if bwd then [dq, dk, dv] else [o.tensor, l.tensor]
  | .ew _ _ out _ _ _ _ _ _ => [out]
  | .red _ dst _ _ => [dst]
  | .norm _ _ _ stats _ out dgamma dbeta sub _ => if sub < 2 then [out, stats.tensor] else if sub = 2 then [out, dgamma, dbeta] else [out, dgamma]
  | .smax _ _ out _ _ _ _ _ => [out]
  | .opt alg w m v _ _ work _ _ => if alg = 0 then [w.tensor, m.tensor, v.tensor, work] else [w.tensor, m.tensor, work]
  | .conv _ dst => [dst]
  | .amax _ _ => []
  | .copy _ dst => [dst]
  | .coll kind _ _ _ dst _ => if kind = 3 || kind = 6 then [] else [dst]
  | .sig _ _ _ => []
  | .wait _ _ => []

/-- The operand slots that a task reads: outputs held in operand slots apart (07 R177). -/
def readsOf (t : Task) : List OpSlot :=
  match t.body with
  | .mat _ a b _ z deriv _ _ _ _ _ => if deriv = 0 then [a, b] else [a, b, z]
  | .ew a b _ sub bkind _ _ _ tmpl => if sub = 19 then [a, tmpl] else if bkind < 2 then [a, b] else [a]
  | .norm x gamma beta stats dy _ _ _ sub _ => if sub = 0 then [x, gamma, beta] else if sub = 1 then [x, gamma] else [x, gamma, stats, dy]
  | .smax x dp _ bwd _ _ _ _ => if bwd then [x, dp] else [x]
  | .opt alg w m v grad rec _ _ _ => if alg = 0 then [w, m, v, grad, rec] else [w, m, grad, rec]
  | .coll kind _ _ src _ _ => if kind = 4 || kind = 6 then [] else [src]
  | b => slotsOf b

/-! ### Open steps -/

/-- The open step `n`. -/
def openAt (s : State) (n : Nat) : Option OpenStep :=
  match s.steps.older, s.steps.younger with
  | some o, y => if o.step = n then some o else y.filter fun x => decide (x.step = n)
  | none, y => y.filter fun x => decide (x.step = n)

/-- Changes the open step `n`. -/
def onStep (s : State) (n : Nat) (f : OpenStep → OpenStep) : State :=
  let g (o : OpenStep) : OpenStep := if o.step = n then f o else o
  { s with steps := { s.steps with older := s.steps.older.map g, younger := s.steps.younger.map g } }

/-- The check level in force: what 0x4000.01 holds, or 7 in a diagnosis replay (10 R253, R274). -/
def levelNow (s : State) (c : Nat) : Nat := if c = 15 then 7 else rw s 0x400001

/-- The level that step `n` latched, or will latch. -/
def levelOf (s : State) (c n : Nat) : Nat :=
  match openAt s n with
  | some o => if o.begun then o.level else levelNow s c
  | none => levelNow s c

/-- The step's first piece is dispatched: its level is latched (10 R253). -/
def beginStep (lv : Nat) (o : OpenStep) : OpenStep := if o.begun then o else { o with begun := true, level := lv }

/-! ### Sampling (10 R253, R254) -/

/-- What r16 must lie below at a level. -/
def sampleBelow (level : Nat) : Nat := if level = 0 then 0 else 2 ^ (9 + level)

/-- Is a task of a kind that is sampled (10 R255)? -/
def sampledKind (t : Task) : Bool :=
  match t.body with
  | .opt _ _ _ _ _ _ _ _ _ => false
  | .copy _ _ => false
  | .coll _ _ _ _ _ _ => false
  | .sig _ _ _ => false
  | .wait _ _ => false
  | _ => true

/-- Is unit `u` of a task chosen (R253, R254)? -/
def isSampled (p : Program) (t : Task) (level n task u : Nat) : Bool :=
  sampledKind t && decide (draw p.seed n ((firstOut t).getD 0) (task * 2 ^ 18 + u % 2 ^ 18) 14 < sampleBelow level)

/-- Is every unit of the task executed twice: OPT (06 R163)? -/
def isOpt (t : Task) : Bool := match t.body with | .opt _ _ _ _ _ _ _ _ _ => true | _ => false

/-- Will the piece need an entry of a check queue whatever its checksums show? -/
def needsCheck (s : State) (t : Task) (pc : Piece) : Bool :=
  isOpt t || (unitsOfPiece (progAt s pc.ctx) t pc.unit).any (isSampled (progAt s pc.ctx) t (levelOf s pc.ctx pc.step) pc.step pc.task)

/-- Room left in the check queue that serves a slot (10 R256). -/
def checkRoom (s : State) (slot : Nat) : Nat :=
  match partnerCore s slot 4 with
  | some g => if (coreAt s g).barred then 0 else 64 - (coreAt s g).checkQ.length
  | none => 0

/-! ### Writers that wait (08 R203, 10 R257) -/

/-- Check executions of a context that have not completed. -/
def checksLeft (s : State) (c : Nat) : List CheckPiece := (s.cores.toList.flatMap checksOn ++ s.steps.arbWait).filter fun x => x.piece.ctx = c

/-- A tensor and those that share its space (08 R202). -/
def spaceOf (s : State) (c t : Nat) : List Nat :=
  t :: match placedAt s c t with
    | some k => (s.place.tensors.filter fun x => sharesWith s k x).map (·.tensor)
    | none => []

/-- Does a task read one of some tensors, in the working version where only that may be overwritten? -/
def readsOne (t : Task) (ts : List Nat) : Bool := (readsOf t).any fun o => ts.contains o.tensor && o.vsel = 0

/-- Does a write of piece `pc` into tensor `o` wait: a check execution is left that reads the location, of an earlier step where the step
has no copy of its own, or of an earlier task of the step; or one that reads what a move freed there. DESIGN CHOICE, log 170: locations are
compared by tensor and by store. -/
def writeWaits (s : State) (pc : Piece) (o : Nat) : Bool :=
  let e := tensorAt (progAt s pc.ctx) o
  let space := spaceOf s pc.ctx o
  let before (c : CheckPiece) : Bool :=
    (decide (c.piece.step < pc.step) && decide (e.persist = clsTransient)) || (decide (c.piece.step = pc.step) && decide (c.piece.task < pc.task))
  ((checksLeft s pc.ctx).any fun c => before c && (taskAt s pc.ctx c.piece.task).any fun q => readsOne q space) ||
    s.place.freed.any fun f => ((placedAt s pc.ctx o).any fun k => !setAside pc.ctx e && (unitsOf s k).any fun u => f.units.contains u) &&
      (checksLeft s f.ctx).any fun c => decide (c.piece.step < f.step) && (taskAt s f.ctx c.piece.task).any fun q => (readsOf q).any fun x => x.tensor = f.tensor

/-- Does a piece wait before it may write (R203, R257)? -/
def writerWaits (s : State) (pc : Piece) (t : Task) : Bool := (outputsOf t).any (writeWaits s pc)

/-- The COLL of a context at the link blocks: as a piece, and its task. -/
def collAtLinks (s : State) (c : Nat) : Option (Piece × Task) :=
  match (ctxAt s c).left.find? fun l => (taskAt s c l.1).any isColl with
  | none => none
  | some l => (taskAt s c l.1).map fun t => ({ ctx := c, task := l.1, unit := 0, step := (ctxAt s c).step }, t)

/-- Is the COLL of a context held by the checks that read what it writes? -/
def collHeld (s : State) (c : Nat) : Bool := (collAtLinks s c).any fun x => writerWaits s x.1 x.2

/-- Is the task a BARRIER, which waits only once the combined word is there? -/
def isBarrier (t : Task) : Bool := match t.body with | .coll 5 _ _ _ _ _ => true | _ => false

/-- The wait of a context's COLL begins, or ends and leaves its watchdog as it was (08 R203, 10 R257). -/
def noteWait (s : State) (c : Nat) : State :=
  match collAtLinks s c, (ctxAt s c).collWait with
  | some (pc, t), none => if !isBarrier t && writerWaits s pc t then onCtx s c fun x => { x with collWait := some s.clk.now } else s
  | some (pc, t), some since =>
    if writerWaits s pc t then s
    else onCtx s c fun x => { x with collWait := none, began := mapWhere x.began (fun b => b.1 = pc.task) (movedOn s.clk.now since) }
  | none, some _ => onCtx s c fun x => { x with collWait := none }
  | none, none => s

/-- The same of every context: after an event that begins or ends a check execution. -/
def noteWaits (s : State) : State := (upto 16).foldl noteWait s

/-! ### Dispatch (07 R190, R191) -/

/-- Is the batch of step `n` one of a committed step that a partition reset took away, and that nothing fetches again (15 R403, R404)? -/
def batchLost (s : State) (n : Nat) : Bool :=
  decide (n ≤ s.steps.committed) && (assoc? s.fetch.batches n).isNone && !s.fetch.queue.contains n &&
    !((s.fetch.state = 1 || s.fetch.state = 2) && s.fetch.step = n)

/-- Batches that a task reads are there (07 R193, R194): a step below the first one needs none, and a lost one reads as it may (log 169). -/
def inputsThere (s : State) (p : Program) (t : Task) (n : Nat) : Bool :=
  (readsOf t).all fun o => (tensorAt p o.tensor).persist ≠ clsInput ||
    let back := if o.vsel = 5 then 1 else if o.vsel = 6 then 2 else 0
    decide (n < firstStepOf s + back) || (assoc? s.fetch.batches (n - back)).isSome || batchLost s (n - back)

/-- May context `c` dispatch its next task: running, its step open, nothing holding it, and the batches it reads there (07 R181, R188,
R191, R193)? DESIGN CHOICE, log 192: contexts 1 to 14 go on in step n while context 0 stands HALTED in it. -/
def dispatchable (s : State) (c : Nat) : Bool :=
  let x := ctxAt s c
  decide (x.state = .running) && decide (x.pos < (progAt s c).tasks.length) && x.waiting.isNone && x.held.isEmpty && (openAt s x.step).isSome &&
    (c = 15 || decide (x.step ≠ s.fetch.first)) &&
    ((taskAt s c x.pos).all fun t => inputsThere s (progAt s c) t x.step) &&
    (c = 15 || (decide (s.dev.state = .joined) && decide ((ctxAt s 0).step = x.step)))

/-- Contexts are served in strict priority, context 0 first (R190). -/
def firstInLine (s : State) (c : Nat) : Bool := (upto (c % 15)).all fun k => !dispatchable s k

/-- Is there room for a piece on core `g` (R190, R191, 10 R256)? -/
def hasRoom (s : State) (g : Nat) (pc : Piece) : Bool :=
  let k := coreAt s g
  (decide (136 ≤ g) || (coreActive s g && !k.barred)) && decide (k.queue.length < 256) && (pc.ctx ≠ 15 || k.queue.all fun q => q.ctx = 15) &&
    match taskAt s pc.ctx pc.task with
    | some t => !needsCheck s t pc || decide (checkRoom s pc.slot > 0)
    | none => true

/-- Pushes pieces in order until one finds no room; it and those behind it are held (R191). -/
def pushPieces (s : State) : List (Nat × Piece) → State × List (Nat × Piece)
  | [] => (s, [])
  | (g, pc) :: r => if hasRoom s g pc then pushPieces (onCore_ s g fun k => { k with queue := k.queue ++ [pc] }) r else (s, (g, pc) :: r)

/-- Pushes pieces of context `c` and keeps what found no room. -/
def pushFor (s : State) (c : Nat) (l : List (Nat × Piece)) : State :=
  let (s', rest) := pushPieces s l
  onCtx s' c fun x => { x with held := rest }

/-- The pieces of a task on the slots where the map has them: core or engine, and piece. None where the map names a slot that is empty,
which a re-placement mends (R207, R208, R217). -/
def piecesFor (s : State) (c n task : Nat) (t : Task) : Option (List (Nat × Piece)) :=
  let us := pieceUnits (progAt s c) t
  let slots := taskSlots s c task
  if us.length = slots.length then
    (us.zip slots).mapM fun x => (coreOfSlot s x.2).map fun g => (g, { ctx := c, task := task, unit := x.1, step := n, slot := x.2 })
  else none

/-- Task `pos` of context `c` goes to the queues (R190). -/
def dispatchTask (s : State) (c : Nat) (ps : List (Nat × Piece)) : State :=
  let x := ctxAt s c
  let s := onStep s x.step (beginStep (levelNow s c))
  let s := onCtx s c fun x => { x with pos := x.pos + 1, left := x.left ++ [(x.pos, ps.length)] }
  pushFor s c ps

/-- A COLL goes to the link blocks as one piece (12 R318). -/
def dispatchColl (s : State) (c : Nat) : State :=
  let x := ctxAt s c
  noteWait (onCtx (onStep s x.step (beginStep (levelNow s c))) c fun x =>
    { x with pos := x.pos + 1, left := x.left ++ [(x.pos, 1)], began := x.began ++ [(x.pos, s.clk.now)] }) c

/-- TASK_DISPATCH (R190): the dispatch unit takes the next task of a context and pushes its pieces where the map has them, or hands a COLL to
the link blocks. -/
def execTaskDispatch (ctx : Fin 16) (task : Nat) (s : State) : Out :=
  let x := ctxAt s ctx.val
  match taskAt s ctx.val x.pos with
  | none => .next s
  | some t =>
    if task ≠ x.pos then .next s
    else if dispatchable s ctx.val && firstInLine s ctx.val && isColl t then .next (dispatchColl s ctx.val)
    else if dispatchable s ctx.val && firstInLine s ctx.val && isCoreTask t then
      match piecesFor s ctx.val x.step x.pos t with
      | some ps => .next (dispatchTask s ctx.val ps)
      | none => .next s
    else .next s

/-- Held pieces with the cores that their slots have now (08 R216). -/
def heldNow (s : State) (l : List (Nat × Piece)) : List (Nat × Piece) := l.map fun h => ((coreOfSlot s h.2.slot).getD h.1, h.2)

/-- QUEUE_ROOM_FREED (R191): held pieces of the context enter the queues, in order, as far as there is room. -/
def execQueueRoomFreed (ctx : Fin 16) (s : State) : Out :=
  let x := ctxAt s ctx.val
  if x.state = .running then .next (pushFor s ctx.val (heldNow s x.held)) else .next s

/-! ### What an execution forms -/

/-- What one execution of one piece forms. -/
structure Work where
  units    : List Unit_ := []
  copies   : List Wr := []                    -- COPY's writes, which form no unit
  amax     : Option (Nat × BitVec 32) := none
  recFault : Bool := false
  optSkip  : Bool := false
  deriving Repr, Inhabited

/-- One execution of the piece of `t` that begins with unit `u` (chapters 04 to 06). -/
def pieceWork (r : Rd) (t : Task) (u : Nat) (up : Upset) : Work :=
  match t.body with
  | .mat kind a b c z deriv gated g wideB ta tb => { units := [matUnit r kind a b c z deriv gated g wideB ta tb up u] }
  | .att false q k v o l _ _ _ _ head causal g wideB qoff koff sigma => { units := [attFUnit r q k v o l head causal g wideB qoff koff sigma up u] }
  | .att true q k v o l dO dq dk dv head causal g wideB qoff koff sigma =>
    { units := attBUnits r q k v o l dO dq dk dv head causal g wideB qoff koff sigma up }
  | .ew a b out sub bkind k1 k2 f2 tmpl => { units := [ewUnit r a b out sub bkind k1 k2 f2 tmpl up u] }
  | .red src dst sub whole => { units := [redUnit r src dst sub whole up u] }
  | .norm x gamma beta stats dy out dgamma dbeta sub eps => { units := normUnits r x gamma beta stats dy out dgamma dbeta sub eps up }
  | .smax x dp out bwd sigma causal qoff koff => { units := smaxUnits r x dp out bwd sigma causal qoff koff up }
  | .opt alg w m v grad rec work first count =>
    let (x, skip, fault) := optUnit r alg w m v grad rec work first count up u
    { units := [x], recFault := fault, optSkip := skip }
  | .conv src dst => { units := [convUnit r src dst up u] }
  | .amax src dst => let (x, w) := amaxUnit r src up; { units := [x], amax := some (dst, BitVec.ofNat 32 w) }
  | .copy src dst => { copies := copyWrites r src dst }
  | .coll _ _ _ _ _ _ => {}
  | .sig _ _ _ => {}
  | .wait _ _ => {}

/-- Every write of an execution. -/
def workWrites (w : Work) : List Wr := w.copies ++ w.units.flatMap (·.writes)

/-- The bytes of this context's tensors that uncorrectable errors hit (09 R232, R234). -/
def badBytes (s : State) (c : Nat) (es : List Ecc) : List (Nat × Nat × Nat) :=
  (es.filterMap (eccMark s)).filterMap fun m => if m.ctx = c then some (m.tensor, m.off, m.len) else none

/-- Values delivered into RESULT tensors (07 R171, 19 R502): object and little-endian value. -/
def resultsOf (p : Program) (ws : List Wr) : List (Nat × BitVec 64) :=
  (nub ((ws.map (·.tensor)).filter fun t => (tensorAt p t).persist = clsResult)).map fun t =>
    let m : Mem := (ws.filter fun w => w.tensor = t).foldl (fun m w => memPut m w.off w.bytes) []
    ((tensorAt p t).dataOff, BitVec.ofNat 64 (ofBytes (memTake m 0 8)))

/-- Events of several units per output tensor. -/
def joinOuts (os : List (Nat × Events)) : List (Nat × Events) :=
  os.foldl (fun acc o => assocSet acc o.1 (addEvents ((assoc? acc o.1).getD {}) o.2)) []

/-- Running maxima per output tensor (03 R70). -/
def joinMax (ms : List (Nat × Nat)) : List (Nat × BitVec 32) :=
  (ms.foldl (fun acc m => assocSet acc m.1 (max ((assoc? acc m.1).getD 0) m.2)) []).map fun m => (m.1, BitVec.ofNat 32 m.2)

/-- What the check unit keeps of a unit. -/
def outOf (u : Unit_) : UnitOut :=
  { unit := u.unit, digests := u.digests, dataFail := u.dataFail, laneFail := u.laneFail, specialAcc := u.specialAcc, raw := unitRaw u,
    resv := (nub u.resv).length }

/-- Does R105 send the unit to exact re-execution? -/
def csumSends (u : UnitOut) : Bool := u.dataFail || u.laneFail > 0 || u.specialAcc

/-! ### Split events (10 R248) -/

/-- Where an element lies in the tiles of R81 for this task: OPT tiles count from FIRST (06 R160), and a gated derivative's are those of
dh (05 R133). None for an element outside the range of an OPT, which lies in no tile of the task (log 156). -/
def tilePos (p : Program) (t : Task) (tensor elem : Nat) : Option (Nat × Nat × Nat) :=
  let run (i : Nat) : Nat × Nat × Nat := (i / 4096, i % 4096 / 64, i % 64)
  let grid (cols row col : Nat) : Nat × Nat × Nat := (row / 64 * ((cols + 63) / 64) + col / 64, row % 64, col % 64)
  let cols := colsOf (tensorAt p tensor)
  match t.body with
  | .mat _ _ _ _ _ _ gated _ _ _ _ =>
    if gated then some (grid (cols / 2) (elem / cols) (elem % cols % (cols / 2))) else some (grid cols (elem / cols) (elem % cols))
  | .att _ _ _ _ _ _ _ _ _ _ _ _ _ _ _ _ _ => some (grid cols (elem / cols) (elem % cols))
  | .opt _ _ _ _ _ _ _ first count => if first ≤ elem ∧ elem < first + count then some (run (elem - first)) else none
  | _ => some (run elem)

/-- Output ranges of a task in the canonical images: tensor, offset, bytes. OPT writes its range, a BARRIER the first element of DST (12 R316),
every other task the whole tensor; a frozen output is not written (04 R101, 05 R137). -/
def outRanges (p : Program) (k : Task) : List (Nat × Nat × Nat) :=
  let outs := (outputsOf k).filter fun t => !frozenOut p t
  match k.body with
  | .coll 5 _ _ _ dst _ => if outs.contains dst then [(dst, 0, 4)] else []
  -- an OPT on a frozen weight writes nothing (06 R162)
  | .opt _ w _ _ _ _ _ first count => if frozenOut p w.tensor then [] else outs.flatMap fun t =>
      let e := tensorAt p t
      (t, 2 * first, 2 * count) ::
        if isBlock e.format then [(t, 2 * elems e + first / 32, (first + count + 31) / 32 - first / 32)] else []
  | _ => outs.map fun t => (t, 0, tensorBytes (tensorAt p t))

/-- The first task in list order that writes a tile of a tensor (10 R248). -/
def firstWriter (p : Program) (tensor tile : Nat) : Option Nat :=
  p.tasks.findIdx? fun k => (outRanges p k).any fun r => r.1 = tensor && (tilesOf r.2.1 r.2.2).contains tile

/-- The events of the splits `ts` that a piece of task `pos` needs: each counts with the first task in list order that writes its tile (10 R248). -/
def splitOuts (s : State) (pos c n : Nat) (ws : List Wr) (ts : List (Nat × Nat)) : List TaskStat :=
  let p := progAt s c
  (splitEvents s c n ws ts).filterMap fun e =>
    let pos := (firstWriter p e.1 (2 * e.2.1 / 65536)).getD pos
    (taskAt s c pos).map fun t =>
      { ctx := c, task := pos, opcode := t.opcode, tensor := e.1, ev := match e.2.2.1 with
          | .sat => { sat := 1 }
          | .flush => { flush := 1 }
          | .special => match tilePos p t e.1 e.2.1 with
            | some (tile, row, col) => { special := 1, first := some (tile, row, col, e.2.2.2), tiles := [tile] }
            | none => { special := 1 }
          | .none => {} }

/-! ### What a piece waits for -/

/-- The CURRENT tensors that a task writes have their scale of step `n` (03 R77, R79). -/
def scalesThere (s : State) (c : Nat) (p : Program) (t : Task) (n : Nat) : Bool :=
  (outputsOf t).all fun o => (tensorAt p o).policy ≠ 3 || (assoc? (tstate s c o).cur n).isSome

/-- May a task start beside one that runs (06 R155, 07 R191)? -/
def mayPair (running next : Task) : Bool :=
  let plain (t : Task) : Bool := match t.body with | .mat _ _ _ _ _ deriv _ _ _ _ _ => deriv = 0 | _ => false
  (plain running && !usesArray next) || (!usesArray running && plain next)

/-- The core is free for a piece of `t`: nothing running, or one piece it may run beside. -/
def coreFree (s : State) (k : Core) (t : Task) : Bool :=
  match k.running with
  | [] => true
  | [r] => match taskAt s r.piece.ctx r.piece.task with
    | some q => mayPair q t
    | none => false
  | _ => false

/-- Does no trot piece occupy the core (14 R389)? -/
def trotFree (s : State) (g : Nat) : Bool := decide (s.tests.trot.map (·.1) ≠ some g)

/-! ### What an execution leaves in its core (04 R90, 05 R121 to R136, 09 R222) -/

/-- A K block in a marver slot: element `v` of stored line `u` in bank (u + v) mod 64 at entry `u`, its hi and lo parts at one place
(05 R121, R122, R124); the slot is complete. -/
def marverOf (lines : List (List Acc)) : MarverSlot :=
  let plane (f : Acc → Acc) : List (List Acc) := (upto 64).map fun b => (upto 64).map fun u => f (cell lines u ((b + 64 - u) % 64))
  { hi := plane partHi, lo := plane partLo, lines := 64 }

/-- A marver's slots with one filled. -/
def fillSlot (second : Bool) (x : MarverSlot × MarverSlot) (m : MarverSlot) : MarverSlot × MarverSlot := if second then (x.1, m) else (m, x.2)

/-- One K block is loaded into the slots that are free (05 R121). -/
def loadBlock (k : Bench) (ab : List (List Acc) × List (List Acc)) : Bench :=
  { k with a := fillSlot k.next k.a (marverOf ab.1), b := fillSlot k.next k.b (marverOf ab.2), next := !k.next }

/-- An accumulator of a working PE: PEs that a bank does not list hold +0, as a cleared bank and the padding of a tile do (04 R90 to R92). -/
def peAcc (k : Bench) (bank : Bool) (i j : Nat) : Acc := cell (if bank then k.acc1 else k.acc0) i j

/-- A unit in the array: its last K blocks in the slots, its accumulators in a bank, its pre-activation values in their buffer. -/
def unitBench (k : Bench) (u : Unit_) : Bench :=
  let k := u.blocks.foldl loadBlock k
  let k := if k.bank then { k with acc1 := u.acc } else { k with acc0 := u.acc }
  { k with bank := !k.bank, preAct := if u.preAct.isEmpty then k.preAct else u.preAct }

/-- The bytes of the last operand run that a vector piece stages through the core store: of its first operand that lies outside it. -/
def stagedBytes (s : State) (pc : Piece) (t : Task) : List Byte :=
  match (readsOf t).find? fun o => !((placedAt s pc.ctx o.tensor).any fun k => k.cls = 1) with
  | none => []
  | some o =>
    let e := tensorAt (progAt s pc.ctx) o.tensor
    let n := if isBlock e.format then 8192 else 4096 * elemBytes e.format
    let off := n * pc.unit
    (rdBytes { s := s, ctx := pc.ctx, step := pc.step } o.vsel o.tensor off (min n (tensorBytes e - off))).1

/-- What an execution leaves in its core. -/
def benchAfter (s : State) (pc : Piece) (t : Task) (w : Work) (k : Bench) : Bench :=
  if usesArray t then w.units.foldl unitBench k
  else
    let bs := stagedBytes s pc t
    if bs.isEmpty then k else if k.half then { k with stage1 := bs, half := false } else { k with stage0 := bs, half := true }

/-- The run has drained: its slots are released once the last pass has been read, and the drained banks are cleared (05 R125, 04 R92). -/
def releaseSlots (k : Bench) : Bench :=
  let free (m : MarverSlot) : MarverSlot := { m with lines := 0 }
  { k with acc0 := [], acc1 := [], a := (free k.a.1, free k.a.2), b := (free k.b.1, free k.b.2) }

/-! ### Access counts (08 R213) -/

/-- Bytes of its operands that a piece reads: a matrix tile its rows, its columns and its own pre-activations, an ATT_F tile its queries and
all keys and values, any other piece an equal part of every operand. DESIGN CHOICE, log 168. -/
def pieceReads (p : Program) (t : Task) (u : Nat) : List (Nat × Nat) :=
  let size (o : OpSlot) : Nat := elemBytes (tensorAt p o.tensor).format
  match t.body with
  | .mat kind a b c z deriv gated _ _ ta tb =>
    let sh := matShape p kind a b ta tb
    let (_, _, rows, cols) := tileBox sh.m sh.n u
    -- the existing output that MM_ACC adds to (04 R99); a frozen gradient is not read (05 R138)
    let sum := match kind with
      | .mmAcc => if frozenGrad p c then [] else [(c, rows * cols * size ⟨0, c⟩)]
      | _ => []
    [(a.tensor, rows * sh.k * size a), (b.tensor, sh.k * cols * size b)] ++ sum ++
      if deriv = 0 then [] else [(z.tensor, rows * cols * size z * if gated then 2 else 1)]
  | .att false q k v _ _ _ _ _ _ head _ _ _ _ _ _ =>
    [(q.tensor, min 64 (rowsOf (tensorAt p q.tensor) - 64 * u) * 64 * head * size q), (k.tensor, tensorBytes (tensorAt p k.tensor)),
      (v.tensor, tensorBytes (tensorAt p v.tensor))]
  | .coll 5 _ _ src _ _ => [(src.tensor, 4)]
  | _ => (readsOf t).map fun o => (o.tensor, (tensorBytes (tensorAt p o.tensor) + max 1 (pieceUnits p t).length - 1) / max 1 (pieceUnits p t).length)

/-- The partitions that serve a tensor's bytes; 8 the hub commons. -/
def servedBy (s : State) (c t : Nat) : List Nat :=
  match placedAt s c t with
  | some k => if k.cls = 3 then [8] else match k.slot with
    | some u => [u / 16]
    | none => partsIn (partsOf s k)
  | none => [8]

/-- Bytes of a tensor that a piece accessed join the counts by partition; the commit counts them in 256-byte units. -/
def addTraffic (s : State) (n c : Nat) (x : Nat × Nat) (l : List ((Nat × Nat × Nat × Nat) × Nat)) : List ((Nat × Nat × Nat × Nat) × Nat) :=
  let ps := servedBy s c x.1
  ps.foldl (fun l p => assocSet l (n, c, x.1, p) ((assoc? l (n, c, x.1, p)).getD 0 + (x.2 + ps.length - 1) / ps.length)) l

/-- The counts after a primary execution: what it reads and writes. -/
def countTraffic (s : State) (pc : Piece) (t : Task) (ws : List Wr) : List ((Nat × Nat × Nat × Nat) × Nat) :=
  if pc.ctx = 15 then s.place.traffic
  else
    let l := (pieceReads (progAt s pc.ctx) t pc.unit ++ ws.map fun w => (w.tensor, w.bytes.length)).foldl
      (fun l x => assocSet l x.1 ((assoc? l x.1).getD 0 + x.2)) []
    l.foldl (fun l x => addTraffic s pc.step pc.ctx x l) s.place.traffic

/-! ### What an execution amounts to -/

/-- What a piece forms, read in the state that its splits leave (10 R248). -/
def workOver (s : State) (pc : Piece) (t : Task) (bad : List (Nat × Nat × Nat)) (up : Upset) : Work :=
  let run (s : State) : Work := pieceWork { s := s, ctx := pc.ctx, step := pc.step, bad := bad } t pc.unit up
  let w := run s
  if (splitsNeeded s pc.ctx pc.step (workWrites w)).isEmpty then w else run (splitFirst s pc.ctx pc.step (workWrites w))

/-- What the piece forms as issued, and what an errorless execution of it forms, which reads the same memory (10 R257). -/
def workOf (s : State) (pc : Piece) (t : Task) (hw : Hw) : Work := workOver s pc t (badBytes s pc.ctx hw.eccs) hw.upset
def cleanOf (s : State) (pc : Piece) (t : Task) (hw : Hw) : Work := workOver s pc t (badBytes s pc.ctx hw.eccs) .none

/-- Are there reserve tiles for the splits of a piece (10 R249)? A diagnosis replay's copies are not drawn from the pool (R273). -/
def splitRoom (s : State) (c : Nat) (ts : List (Nat × Nat)) : Bool := c = 15 || decide (ts.length + poolCopies s ≤ s.vers.reserve)

/-- The check executions that a piece's units need: source and units (10 R253, R255; 04 R105; 06 R163). -/
def checksFor (s : State) (pc : Piece) (t : Task) (w : Work) : List (CheckSource × List Nat) :=
  let p := progAt s pc.ctx
  let lv := levelOf s pc.ctx pc.step
  let us := w.units.map outOf
  let of (src : CheckSource) (l : List UnitOut) : List (CheckSource × List Nat) := if l.isEmpty then [] else [(src, l.map (·.unit))]
  of .sample (us.filter fun u => isSampled p t lv pc.step pc.task u.unit) ++ of .csum (us.filter csumSends) ++
    of .optDup (if isOpt t then us else [])

/-- The records of a piece's checks (04 R110). -/
def checkRecs (pc : Piece) (g far : Nat) (w : Work) (cs : List (CheckSource × List Nat)) : List CheckRec :=
  cs.flatMap fun c => (w.units.filter fun u => c.2.contains u.unit).map fun u =>
    { source := c.1, ctx := pc.ctx, task := pc.task, unit := u.unit, slot := pc.slot, core := g, digests := u.digests, checkCore := far, dataFail := u.dataFail,
      laneFail := u.laneFail }

/-- The check piece of some units, which carries their records. -/
def checkPiece (src : CheckSource) (pc : Piece) (g far : Nat) (w clean : Work) (us : List Nat) : CheckPiece :=
  let l := clean.units.filter fun u => us.contains u.unit
  { source := src, piece := pc, units := l.map outOf, raw := (l.map unitRaw).sum, resv := (l.map fun u => (nub u.resv).length).sum,
    recs := checkRecs pc g far w [(src, us)] }

/-- Counters that every execution adds to (03 R85, 04 R107, R567). -/
def countWork (n : Num) (w : Work) (resv : Nat) (split : List TaskStat) : Num :=
  { n with raw := n.raw + (w.units.map unitRaw).sum + (split.map fun o => rawEvents o.ev).sum,
           csumFail := n.csumFail + (w.units.filter (·.dataFail)).length,
           laneFail := n.laneFail + (w.units.map (·.laneFail)).sum,
           specialAcc := n.specialAcc + (w.units.filter (·.specialAcc)).length,
           reservedExp := n.reservedExp + resv }

/-- Reserved-exponent blocks that a task reads for the first time in the step (02 R46). A block of one tensor counts once whichever of its versions
the task reads (log 210). -/
def newResv (x : Ctx) (pc : Piece) (w : Work) : List (Nat × Nat × Nat) :=
  (nub ((w.units.flatMap (·.resv)).map fun b => (pc.task, b.1, b.2))).filter fun b => !x.resv.contains b

/-- The start offset of a core's ramp in ns (17 R453). -/
def rampOffset (serial g : Nat) : Nat := 32 * ((mix64 (BitVec.ofNat 64 serial ^^^ (BitVec.ofNat 64 g <<< 48))) >>> 60).toNat

/-- The array of a core begins to sweep: a ramp begins where it has not swept for 1 µs (17 R452, R453). -/
def arraySweeps (s : State) (g : Nat) (k : Core) : Core :=
  let idle := match k.lastSweep with
    | none => true
    | some u => decide (s.clk.now ≥ u + 1000)
  { k with lastSweep := some s.clk.now, ramp := if idle then some (s.clk.now + rampOffset s.dev.product.serial g) else k.ramp }

/-- The array of a core has swept until now for a task (17 R452). -/
def swept (s : State) (t : Option Task) (k : Core) : Core := if t.any usesArray then { k with lastSweep := some s.clk.now } else k

/-- A kernel of the matrix families sweeps the array (17 R452). -/
def trotSweeps (s : State) (g pclass : Nat) : State := if 1 ≤ pclass ∧ pclass ≤ 3 then onCore_ s g (arraySweeps s g) else s

/-- A kernel of the pattern library ends: its last sweep cycle is over (17 R452). -/
def sweepsEnd (s : State) (g pclass : Nat) : State :=
  if 1 ≤ pclass ∧ pclass ≤ 3 then onCore_ s g fun k => { k with lastSweep := some s.clk.now } else s

/-- An array starts to sweep: after 1 µs without a sweep it ramps (17 R452). -/
def sweepStarts (s : State) (g : Nat) (t : Task) (k : Core) : Core := if usesArray t then arraySweeps s g k else k

/-- The tiles of R81 in a piece of these units: T of 07 R192. A whole-tensor reduction is a run of its source's tiles (08 R208). -/
def pieceTiles (p : Program) (t : Task) (us : List UnitOut) : Nat :=
  let source (o : OpSlot) := max 1 (runTiles (elems (tensorAt p o.tensor)))
  match t.body with
  | .copy src _ => source src
  | .amax src _ => source src
  | .red src _ _ true => source src
  | .att .. => max 1 (us.map (·.digests.length)).sum
  | _ => max 1 us.length

/-- The execution a core has started. -/
def runOf_ (s : State) (t : Task) (pc : Piece) (w : Work) (split : List TaskStat) : Run :=
  let p := progAt s pc.ctx
  { piece := pc, startedAt := s.clk.now, tiles := pieceTiles p t (w.units.map outOf), outs := joinOuts (w.units.flatMap (·.outs)), splits := split, units := w.units.map outOf, maxima := joinMax (w.units.flatMap (·.maxima)),
    amax := w.amax, results := resultsOf p (workWrites w), recFault := w.recFault, optSkip := w.optSkip }

/-- Puts check pieces into the queue of the checking core. -/
def enqueueChecks (s : State) (far : Nat) (ks : List CheckPiece) : State := onCore_ s far fun k => { k with checkQ := k.checkQ ++ ks }

/-! ### Issue -/

/-- Where a COLL of context `c` stands among the stalled pieces: behind the cores. -/
def collStall (c : Nat) : Nat := 145 + c

/-- A piece waits for a reserve tile (10 R249, R252): it is counted once, also where it has resumed and must wait again. -/
def stallPiece (s : State) (g : Nat) (pc : Piece) : State :=
  let known := s.vers.waited.contains pc
  { s with vers := { s.vers with stalled := s.vers.stalled ++ [(g, s.clk.now)], stalls := s.vers.stalls + bit (!known),
                                 waited := if known then s.vers.waited else s.vers.waited ++ [pc] } }

/-- A piece that issues has waited for the last time. -/
def waitedOver (s : State) (pc : Piece) : State := { s with vers := { s.vers with waited := s.vers.waited.filter fun x => x ≠ pc } }

/-! ### Locations marked before (09 R234) -/

/-- The elements of a tensor that a mark covers. -/
def markElems (e : Tensor) (m : Mark) : List Nat :=
  let b := max 1 (elemBytes e.format)
  let first := m.off / b
  let last := (m.off + max 1 m.len - 1) / b
  if isBlock e.format then let x := lostExps (elems e) (m.off, max 1 m.len); (upto (32 * x.2)).map (· + 32 * x.1) else (upto (last + 1 - first)).map (· + first)

/-- Does the piece of `t` that begins with unit `u` read element `i` through operand `o`? -/
def pieceReadsAt (p : Program) (t : Task) (u : Nat) (o : OpSlot) (i : Nat) : Bool :=
  let cols := max 1 (colsOf (tensorAt p o.tensor))
  let inRun : Bool := decide (i / 4096 = u)
  match t.body with
  | .mat kind a b c z _ _ _ _ ta tb =>
    let sh := matShape p kind a b ta tb
    let (r0, c0, rows, width) := tileBox sh.m sh.n u
    let within (x lo n : Nat) : Bool := decide (lo ≤ x) && decide (x < lo + n)
    (o = a && within (if sh.aT then i % cols else i / cols) r0 rows) || (o = b && within (if sh.bT then i / cols else i % cols) c0 width) ||
      ((o = z || o.tensor = c) && within (i / cols) r0 rows && within (i % cols % max 1 sh.n) c0 width)
  | .att false q _ _ _ _ _ _ _ _ _ _ _ _ _ _ _ => o ≠ q || decide (i / cols / 64 = u)
  | .ew _ b _ sub bkind _ _ _ _ => sub = 19 || (o = b && bkind = 1) || inRun
  | .red _ _ _ whole => whole || decide (i / cols / 4096 = u)
  | .opt _ _ _ _ _ rec _ first count => o = rec || (decide (first + 4096 * u ≤ i) && decide (i < min (first + 4096 * (u + 1)) (first + count)))
  | .conv _ _ => inRun
  | _ => true

/-- What a task reads, an accumulating product's output among it (04 R99 stage 2). -/
def readsAll (t : Task) : List OpSlot :=
  match t.body with
  | .mat .mmAcc _ _ c _ _ _ _ _ _ _ => ⟨0, c⟩ :: readsOf t
  | _ => readsOf t

/-- Does a piece read a location marked with content code 1, 2 or 5 before it? -/
def readsMarked (s : State) (pc : Piece) (t : Task) : Bool :=
  let p := progAt s pc.ctx
  s.mem.marks.any fun m => m.ctx = pc.ctx && (m.content = 1 || m.content = 2 || m.content = 5) && (readsAll t).any fun o =>
    o.tensor = m.tensor && ((storedBytes { s := s, ctx := pc.ctx, step := pc.step } o.vsel o.tensor m.off m.len).2.2).contains m.content &&
      (markElems (tensorAt p o.tensor) m).any (pieceReadsAt p t pc.unit o)

/-- An execution that reads a marked location: no clean verdict for the step (R234). -/
def markedRead (s : State) (pc : Piece) (t : Task) : State → State :=
  if readsMarked s pc t && (pc.ctx ≠ 15 || s.steps.replayActive) then fun x => failSteps x 0x0080 else id

/-- A piece issues: splits, writes, counts, checks, and the errors that its reads met. -/
def issuePiece (s : State) (g : Nat) (pc : Piece) (t : Task) (hw : Hw) (w clean : Work) (cs : List (CheckSource × List Nat)) (far : Nat) : State :=
  let ws := workWrites w
  let ts := splitsNeeded s pc.ctx pc.step ws
  let s1 := putAll s pc.ctx pc.step ws
  let split := splitOuts s pc.task pc.ctx pc.step ws ts
  let resv := newResv (ctxAt s pc.ctx) pc w
  let run := runOf_ s t pc w split
  let num := countWork s1.num w resv.length split
  let s2 : State := { s1 with num := { num with optFault := num.optFault + bit (w.recFault && pc.unit = 0) },
                              place := { s1.place with traffic := countTraffic s1 pc t ws } }
  let bench := benchAfter s pc t w
  let marked := markedRead s pc t
  let s := s2
  let s := onCtx s pc.ctx fun x => { x with resv := x.resv ++ resv }
  let s := onCore_ s g fun k => sweepStarts s g t { k with queue := k.queue.drop 1, running := k.running ++ [run], lastCheck := false, bench := bench k.bench }
  let s := onStep s pc.step fun o => { o with checks := o.checks ++ checkRecs pc g far w cs }
  let s := if cs.isEmpty then s else enqueueChecks s far (cs.map fun c => checkPiece c.1 pc g far w clean c.2)
  marked (eccHits (waitedOver s pc) pc.ctx pc.task hw.eccs)

/-! ### What a core issues -/

/-- Is there room for a piece's splits, and in the check queue for the checks it needs whatever an upset does (10 R249, R256)? -/
def roomToIssue (s : State) (pc : Piece) (t : Task) : Bool :=
  let w := workOf s pc t {}
  let cs := checksFor s pc t w
  splitRoom s pc.ctx (splitsNeeded s pc.ctx pc.step (workWrites w)) &&
    (cs.isEmpty || match partnerCore s pc.slot 4 with
      | some far => decide (cs.length ≤ 64 - (coreAt s far).checkQ.length)
      | none => false)

/-- Could the core issue its head piece now, were no check in the way? -/
def headIssuable (s : State) (g : Nat) : Bool :=
  let k := coreAt s g
  match k.queue with
  | [] => false
  | pc :: _ => match taskAt s pc.ctx pc.task with
    | none => false
    | some t => !(s.vers.stalled.any fun x => x.1 = g) && coreFree s k t && inputsThere s (progAt s pc.ctx) t pc.step &&
        scalesThere s pc.ctx (progAt s pc.ctx) t pc.step && !writerWaits s pc t && roomToIssue s pc t

/-- The check piece a core may issue: it alternates with the task queue, starting with the check queue (R256). -/
def checkReady (s : State) (g : Nat) : Option CheckPiece :=
  let k := coreAt s g
  match k.checkQ with
  | [] => none
  | c :: _ => if k.checking.isNone && k.running.isEmpty && trotFree s g && k.probe = 0 && !k.barred && !(k.lastCheck && headIssuable s g) then some c else none

/-- Which piece a core may issue now, and its task: the head of its queue, when nothing it needs is missing and the check queue is
not served first (07 R191, 10 R256, 18 R467). -/
def headReady (s : State) (g opcode : Nat) : Option (Piece × Task) :=
  let k := coreAt s g
  match k.queue with
  | [] => none
  | pc :: _ =>
    match taskAt s pc.ctx pc.task with
    | none => none
    | some t =>
      if t.opcode = opcode && k.checking.isNone && (k.lastCheck || (checkReady s g).isNone) && k.probe = 0 && !k.barred && trotFree s g &&
          !(s.vers.stalled.any fun x => x.1 = g) && coreFree s k t && inputsThere s (progAt s pc.ctx) t pc.step &&
          scalesThere s pc.ctx (progAt s pc.ctx) t pc.step && !writerWaits s pc t then some (pc, t) else none

/-- Issue of the head piece of core `g` with the given opcode: it stalls for reserve tiles, is kept where the check queue is full
(10 R249, R256), and otherwise issues. -/
def issue (s : State) (g opcode : Nat) (hw : Hw) : State :=
  match headReady s g opcode with
  | none => s
  | some (pc, t) =>
    let w := workOf s pc t hw
    let cs := checksFor s pc t w
    if !splitRoom s pc.ctx (splitsNeeded s pc.ctx pc.step (workWrites w)) then stallPiece s g pc
    else if cs.isEmpty then issuePiece s g pc t hw w (cleanOf s pc t hw) cs 0
    else match partnerCore s pc.slot 4 with
      | none => s
      | some far =>
        if cs.length ≤ 64 - (coreAt s far).checkQ.length then noteWaits (issuePiece s g pc t hw w (cleanOf s pc t hw) cs far) else s

/-! ### The tile commands -/

/-- MM (04 R99): C = A · B. -/
def execMm (core : Fin 136) (hw : Hw) (s : State) : Out := .next (issue s core.val 0x10 hw)
/-- MM_TA (R99): C = Aᵀ · B. -/
def execMmTa (core : Fin 136) (hw : Hw) (s : State) : Out := .next (issue s core.val 0x11 hw)
/-- MM_TB (R99, 05 R128 to R131): C = A · Bᵀ, with any fused derivative. -/
def execMmTb (core : Fin 136) (hw : Hw) (s : State) : Out := .next (issue s core.val 0x12 hw)
/-- MM_ACC (R99): the product is added into the existing output. -/
def execMmAcc (core : Fin 136) (hw : Hw) (s : State) : Out := .next (issue s core.val 0x13 hw)
/-- ATT_F (R112, R113). -/
def execAttF (core : Fin 136) (hw : Hw) (s : State) : Out := .next (issue s core.val 0x18 hw)
/-- ATT_B (R114). -/
def execAttB (core : Fin 136) (hw : Hw) (s : State) : Out := .next (issue s core.val 0x19 hw)
/-- EW (06 R149). -/
def execEw (core : Fin 136) (hw : Hw) (s : State) : Out := .next (issue s core.val 0x20 hw)
/-- RED (R150). -/
def execRed (core : Fin 136) (hw : Hw) (s : State) : Out := .next (issue s core.val 0x21 hw)
/-- NORM (R151). -/
def execNorm (core : Fin 136) (hw : Hw) (s : State) : Out := .next (issue s core.val 0x22 hw)
/-- SMAX (R152). -/
def execSmax (core : Fin 136) (hw : Hw) (s : State) : Out := .next (issue s core.val 0x23 hw)
/-- OPT (R159): the update, and its duplicate on another partition (R163). -/
def execOpt (core : Fin 136) (hw : Hw) (s : State) : Out := .next (issue s core.val 0x24 hw)
/-- CONV_FMT (02 R50). -/
def execConvFmt (core : Fin 136) (hw : Hw) (s : State) : Out := .next (issue s core.val 0x28 hw)
/-- AMAX (03 R77). -/
def execAmax (core : Fin 136) (hw : Hw) (s : State) : Out := .next (issue s core.val 0x29 hw)
/-- COPY (08 R210): on the engine that the places of its source and destination choose: a core, a link DMA or the hub DMA. -/
def execCopy (engine : Fin 145) (hw : Hw) (s : State) : Out := .next (issue s engine.val 0x31 hw)

end Sys2Proof.Machine
end

