-- ==== Sys2Proof/Machine/Commit.lean ====
section
/-! DEFINITION. Commit (10 R267), the step fingerprint (10 R272), the cut decision (13 R347), the slack governor (17 R454), the close of a
diagnosis-replay step (10 R275), and what a combined channel-0 word does. -/

namespace Sys2Proof.Machine

/-! ### Version tracker (10 R247, R250, R267 step 2) -/

/-- Cuts whose capture still has tiles to copy (R250). -/
def openCuts (s : State) : List Nat := (s.ckpt.captures.filter fun c => !c.read).map (·.cut)

/-- The tile of a copy. -/
def sameTile (a b : Copy) : Bool := a.ctx = b.ctx && a.tensor = b.tensor && a.tile = b.tile

/-- Has the tile a copy of a kind? -/
def tileHas (v : Vers) (k : Copy) (kind : CopyKind) : Bool := v.copies.any fun x => sameTile x k && decide (x.kind = kind)

/-- Is the copy held for a cut (R250)? -/
def heldFor (cut : Nat) (k : Copy) : Bool :=
  match k.kind with
  | .hold cs => cs.contains cut
  | _ => false

/-- Has the end-of-cut copy of a tile been held or copied already? -/
def tileHeld (s : State) (k : Copy) (cut : Nat) : Bool :=
  (s.vers.copies.any fun x => sameTile x k && heldFor cut x) || s.ckpt.captures.any fun q => q.cut = cut && q.got.any fun x => sameTile x k

/-- Does the open cut `c` capture the tile (13 R343)? -/
def captures (s : State) (c : Nat) (k : Copy) : Bool :=
  s.ckpt.captures.any fun q => q.cut = c && (isMirrorTile k || q.owned.any fun x => x.1 = k.ctx && x.2.1 = k.tensor)

/-- A released copy becomes one HOLD copy for the open cuts it is the end of, and otherwise returns to the pool (R250); the mirror region's
tiles are captured as the module's own are (13 R351). -/
def released (s : State) (k : Copy) (cuts : List Nat) : List Copy :=
  let cs := cuts.filter fun c => !tileHeld s k c && captures s c k
  if !cs.isEmpty then [{ k with kind := .hold cs }] else []

/-- What a commit of step `n` makes of a copy of the committing contexts (R247, R250, R267). -/
def commitCopy (s : State) (n : Nat) (k : Copy) : List Copy :=
  let cuts := openCuts s
  if k.undef.isSome then (match k.kind with | .w2 => [{ k with kind := .w1 }] | _ => [])
  else match k.kind with
    | .w1 => [{ k with kind := .committed }]
    | .w2 => [{ k with kind := .w1 }]
    | .prev => released s k (cuts.filter fun c => c + 2 ≤ n)
    | .committed =>
      if !tileHas s.vers k .w1 then [k]
      else if depthOf (progAt s k.ctx) k.tensor ≥ 2 then [{ k with kind := .prev }]
      else released s k (cuts.filter fun c => c + 1 ≤ n && !(c + 2 ≤ n && tileHas s.vers k .prev))
    | .hold _ => [k]
    | .whole => [k]

/-- The copies after the commit of step `n` by the contexts that `who` names. -/
def commitCopies (s : State) (n : Nat) (who : Nat → Bool) : List Copy :=
  s.vers.copies.flatMap fun k => if who k.ctx then commitCopy s n k else [k]

/-- A marked location after a commit (09 R234): a version tile that commits takes its mark along, and the copy it replaces goes with its own. -/
def commitMark (s : State) (m : Mark) : List Mark :=
  let has (kind : CopyKind) : Bool :=
    s.vers.copies.any fun k => k.ctx = m.ctx && k.tensor = m.tensor && k.tile = m.off / 65536 && k.kind = kind
  if m.ctx = 15 || !has .w1 then [m]
  else if m.content = 2 then (if has .w2 then [m] else [{ m with content := 3 }])
  else if m.content = 3 && depthOf (progAt s m.ctx) m.tensor < 2 then []
  else [m]

/-- The mirrored module's records after the commit of step `n` (15 R409): the step's over those it holds. -/
def mirrorCommitted (v : Vers) (n : Nat) : List (BitVec 128) :=
  match assoc? v.mirrorW n with
  | none => v.mirrorRecs
  | some m => (v.mirrorRecs.filter fun x => !(m.any (sameRec x))) ++ m

/-! ### Numbers (03 R76, R83 to R86, 04 R106) -/

/-- Where a task's output stands among its outputs. -/
def outIndex (s : State) (x : TaskStat) : Nat := ((taskAt s x.ctx x.task).map fun t => (outputsOf t).idxOf x.tensor).getD 0

/-- The records of a step: one for each task and output tensor with events, in context, then task-list order, then as the task names its
outputs (R84, 08 R211). -/
def stepRecords (s : State) (o : OpenStep) : List (BitVec 256) :=
  let before (a b : TaskStat) : Bool := decide (a.ctx < b.ctx ∨ (a.ctx = b.ctx ∧ (a.task < b.task ∨ (a.task = b.task ∧ outIndex s a ≤ outIndex s b))))
  let ss := sortBy before (o.stats.filter fun x => anyEvents x.ev)
  ss.map fun x => numRecord o.step x.tensor x.ctx x.opcode x.task x.ev

/-- Appends records to the ring of 8,192 (R84, R85). -/
def appendRecs (n : Num) (rs : List (BitVec 256)) : Num :=
  rs.foldl (fun n r => { n with recs := (n.recIdx, r) :: n.recs.take 8191, recIdx := n.recIdx + 1,
                                overruns := n.overruns + bit (decide (n.recs.length ≥ 8192)) }) n

/-- Committed totals of a step (R85, 06 R165). -/
def addTotals (n : Num) (o : OpenStep) : Num :=
  let sum (f : Events → Nat) : Nat := (o.stats.map fun x => f x.ev).sum
  { n with sat := n.sat + sum (·.sat), flush := n.flush + sum (·.flush), special := n.special + sum (·.special),
           specialTiles := n.specialTiles + sum (·.tiles.length), clamps := n.clamps + o.clamps, optSkip := n.optSkip + bit o.optSkip }

/-- Scale and tolerance state of tensor `t` after the commit of step `o` (R76, R87, R106). DESIGN CHOICE, log 212: the 64 newest history entries
are kept. -/
def commitTensor (s : State) (c : Nat) (o : OpenStep) (t : TState) : TState :=
  let p := progAt s c
  let e := tensorAt p t.tensor
  let top := (o.maxima.find? fun m => m.1 = c && m.2.1 = t.tensor).map (·.2.2)
  let win : BitVec 32 := match e.policy with
    | 2 => BitVec.ofNat 32 ((windowMax p e t o.step).getD 0)
    | 3 => ((assoc? t.cur o.step).map (·.2)).getD 0
    | _ => 0
  let hist := match top with
    | some m => if e.policy = 2 then ((o.step, m) :: t.hist).take 64 else t.hist
    | none => t.hist
  let tol := match o.tol.find? fun x => x.ctx = c && x.tensor = t.tensor with
    | some x => moveTolerance t.tol t.quiet x.failed x.differed
    | none => (t.tol, t.quiet)
  { t with hist := hist, tol := tol.1, quiet := tol.2, used := some (o.step, scaleOf s c t.tensor o.step, win, top.getD 0) }

/-- A context's scale and tolerance state after the commit. -/
def commitCtx (s : State) (c : Nat) (o : OpenStep) (x : Ctx) : Ctx := { x with tens := x.tens.map (commitTensor s c o) }

/-! ### Fingerprint (R272) -/

/-- The fingerprint of a step: CRC-64 of its OPT digests in context, task and tile order; 0 without OPT. -/
def fingerprint (o : OpenStep) : BitVec 64 :=
  let le (a b : Nat × Nat × Nat × List (BitVec 64)) : Bool :=
    decide (a.1 < b.1 ∨ (a.1 = b.1 ∧ (a.2.1 < b.2.1 ∨ (a.2.1 = b.2.1 ∧ a.2.2.1 ≤ b.2.2.1))))
  crc64 ((sortBy le o.optDigs).flatMap fun x => x.2.2.2.flatMap fun d => toBytes 8 d.toNat)

/-! ### Results (19 R503) -/

/-- A RESULT record: step, flags and value (19 R502). -/
def resultRec (n : Nat) (committed : Bool) (v : BitVec 64) : BitVec 128 :=
  BitVec.ofNat 128 (pack [(80, 48, n), (66, 1, bit committed), (65, 1, bit (!committed)), (64, 1, 1), (0, 64, v.toNat)])

/-- Commit of step `n` on an object: a provisional record of that step turns committed. -/
def commitResult (n : Nat) (r : Result) : Result :=
  let mine (w : BitVec 128) : Bool := w.getLsbD 65 && decide (fld w.toNat 127 80 = n % 2 ^ 48)
  if mine r.cur then
    let w := resultRec n true (r.cur.setWidth 64)
    { cur := w, held := 0, comm := w }
  else if mine r.held then { r with held := 0, comm := resultRec n true (r.held.setWidth 64) }
  else r

/-! ### Step engine and barrier entries (10 R264, R266, R267, 12 R336) -/

/-- The step engine after the commit of step `n` with word `w`. -/
def commitSteps (s : State) (n w : Nat) (fp : BitVec 64) : Steps :=
  let t := s.steps
  let comb := fld w 31 16
  let contributed := t.older.any fun o => decide (o.status = .contributed)
  let ns := if contributed then s.clk.now - t.contribAt else 0
  { t with committed := n, older := t.younger, younger := none, lastWord := BitVec.ofNat 32 w, completions := t.completions + 1,
           prints := (n, fp) :: t.prints.take 63, ownLag := t.lagOwn, combLag := comb, slacks := (comb - t.lagOwn) :: t.slacks.take 63,
           lagFrom := some s.clk.now, barrierNs := ns, barrierMax := max t.barrierMax ns,
           stepNs := (t.lastClean.map fun c => s.clk.now - c).getD 0, lastClean := some s.clk.now }

/-! ### Power (17 R454, R455) -/

/-- The budget in force: the lease, or the fallback (17 R446, R449). -/
def budget (s : State) : Nat := if leaseLive s then s.power.leaseW else rw s 0x700004

/-- The governor's ceiling after a commit (R454). -/
def governed (s : State) (w : Nat) : Nat :=
  let g := s.power.g
  let slack := match s.steps.slacks.take 8 with
    | [] => 0
    | a :: r => 64 * r.foldl min a
  let d := s.steps.stepNs
  if rw s 0x700006 = 0 || fld w 14 8 ≠ 0 || d = 0 then g
  else if 50000 * slack > d && g > 48 then g - 1
  else if 100000 * slack < d && g < 64 then g + 1
  else g

/-- Power state after a commit: G and the headroom (R454, R455). -/
def commitPower (s : State) (w : Nat) : Power :=
  let p := s.power
  let n := max 1 p.stepN
  { p with g := governed s w, headroom := (n * min p.target (p.targetDen * budget s) - p.targetDen * p.stepSum) / (n * p.targetDen), stepSum := 0, stepN := 0 }

/-! ### Placement counts (08 R213, R214, R219; 09 R230) -/

/-- The five fields of R228, per mille of a partition's pseudo-channel time: together at most 1,000 (09 R230). -/
def usageOf (w : Nat) : BitVec 64 :=
  let next (acc : Nat × Nat) (i : Nat) : Nat × Nat :=
    let x := fld w (12 * i + 11) (12 * i) % (acc.1 + 1)
    (acc.1 - x, acc.2 + (x <<< (12 * i)))
  BitVec.ofNat 64 ((upto 5).foldl next (1000, 0)).2

/-- Accesses of a tensor in a step, over all partitions, in 256-byte units (08 R213). -/
def accessOf (s : State) (n c t : Nat) : Nat := ((s.place.traffic.filter fun x => x.1.1 = n && x.1.2.1 = c && x.1.2.2.1 = t).map fun x => (x.2 + 255) / 256).sum

/-- The placement engine takes step `n`'s counts, and space freed before a step that has closed is free (08 R203, R213). The usage of each
partition, which no command carries, is a free value (log 4). -/
def commitPlace (s : State) (n : Nat) : State :=
  let tens := s.place.tensors.map fun t => { t with access := accessOf s n t.ctx t.tensor, age := t.age + 1 }
  let usage := Vector.ofFn fun i : Fin 8 => usageOf (Config.freeWord (s.free + i.val)).toNat
  { s with place := { s.place with tensors := tens, latchedOn := decide (rw s 0x500001 = 1), latchedDwell := rw s 0x500002, latchedCopy := rw s 0x500003,
                                   traffic := s.place.traffic.filter (fun x => decide (x.1.1 > n)), freed := s.place.freed.filter (fun f => decide (f.step > n + 1)),
                                   batchAt := s.place.batchAt.filter fun b => (assoc? s.fetch.batches b.1).isSome },
           mem := { s.mem with usage := usage }, free := s.free + 8 }

/-- What is left of a copy whose context is unloaded: open captures hold the tiles of their cuts on (10 R250, 13 R343). -/
def unloadedCopy (s : State) (k : Copy) : List Copy :=
  match k.kind with
  | .hold _ => [k]
  | .committed => released s k ((openCuts s).filter fun c => decide (c = s.steps.committed) || !tileHas s.vers k .prev)
  | .prev => released s k ((openCuts s).filter fun c => decide (c < s.steps.committed))
  | .w1 => []
  | .w2 => []
  | .whole => []

/-! ### The cut (13 R345, R347, R352) -/

/-- Does the commit of step `n` take a cut (R347)? -/
def cutDue (s : State) (n : Nat) (mark : Bool) : Bool :=
  let l := s.dict.latched
  l.ckptOn && (decide (n - s.ckpt.lastCut ≥ l.maxSpace) || (decide (n - s.ckpt.lastCut ≥ l.minSpace) && (mark || s.ckpt.carried)))

/-- Takes cut `n`: a third open capture abandons the oldest (R352); the module-state piece goes to the partner (R345). -/
def takeCut (s : State) (n : Nat) : State :=
  let s := match s.ckpt.captures.filter fun k => !k.durable with
    | a :: _ :: _ => abandonCapture s a.cut 3
    | _ => s
  let piece := moduleState s
  let c : Capture := { cut := n, owned := capturedOwn s, mirrored := capturedMirror s, modState := piece }
  let s := { s with ckpt := { s.ckpt with lastCut := n, cuts := s.ckpt.cuts + 1, carried := false, captures := s.ckpt.captures ++ [c],
                                          votes := s.ckpt.votes ++ [(n, none)], partnerPieces := s.ckpt.partnerPieces.filter fun q => q.1 ≥ n || s.ckpt.captures.any fun k => k.cut = q.1 } }
  if hasMirror s then tell s (.moduleState n piece) else s

/-- Step 7 of R267: the cut decision; a mark carried below the minimum is deferred, one carried while disabled discarded (R347). -/
def commitCut (s : State) (n : Nat) (mark : Bool) : State :=
  let s := { s with ckpt := { s.ckpt with pend := s.ckpt.pend && !mark } }
  if cutDue s n mark then takeCut s n
  else { s with ckpt := { s.ckpt with carried := s.dict.latched.ckptOn && (s.ckpt.carried || mark) } }

/-! ### Commit (R267) -/

/-- Steps 1 to 6 of R267 for the contexts 0 to 14. -/
def commitState (s : State) (o : OpenStep) (w : Nat) : State :=
  let n := o.step
  { s with steps := commitSteps s n w (fingerprint o),
           vers := { s.vers with copies := commitCopies s n (· ≠ 15),
                                 mirrorRecs := mirrorCommitted s.vers n, mirrorW := s.vers.mirrorW.filter fun m => m.1 > n },
           num := appendRecs (addTotals s.num o) (stepRecords s o),
           mem := { s.mem with marks := s.mem.marks.flatMap (commitMark s) },
           ctxs := Vector.ofFn fun i => if i.val < 15 then commitCtx s i.val o s.ctxs[i] else s.ctxs[i],
           results := s.results.map (commitResult n),
           chans := s.chans.map fun c => { c with genAt := c.gen },
           fetch := { s.fetch with batches := s.fetch.batches.filter fun b => b.1 + retainDepth s ≥ n + 3 } }

/-- Does a marked location become part of a committed version tile, so that committed state is lost (09 R234, code 3)? -/
def lossCommits (s : State) : Bool := s.mem.marks.any fun m => m.content = 2 && (commitMark s m).any fun x => x.content = 3

/-- A step whose stream the partner has acknowledged commits: the own committed state has a mirror, unless a rebuild is still to come
(15 R409, R426). -/
def mirrorStands (s : State) (o : OpenStep) : State :=
  if o.mirrorAcked && !s.recov.owed && !s.recov.rebuilding then { s with recov := { s.recov with single := false } } else s

/-- A spare passes a step boundary with every commit: contexts started since join (07 R187, 15 R418). -/
def spareBoundary (s : State) : State :=
  if s.recov.role = .spare then { s with ctxs := s.ctxs.map fun x => { x with joins := false } } else s

/-- Commits the step that is open, with its combined word. -/
def commit (s : State) (w : Nat) : State :=
  let o := s.steps.older.getD { step := s.steps.committed + 1 }
  let lost := lossCommits s
  let s := commitState s o w
  let s := { s with power := commitPower s w }
  let s := commitCut (commitPlace s o.step) o.step ((BitVec.ofNat 32 w).getLsbD 1)
  let s := post s 3 0x2100 3 o.step
  let s := spareBoundary (mirrorStands s o)
  if lost then stateLoss s else s

/-! ### The close of a replayed step (R274, R275) -/

/-- Closes the replayed step: context 15's tiles, records, histories and tolerances; then the fingerprint is compared.
DESIGN CHOICE, log 203: a step whose committed fingerprint the ring no longer holds counts as differing; log 217: the last step is the entry's
value as it stands then. -/
def replayClose (s : State) (w : Nat) : State :=
  let o := s.steps.older.getD { step := s.steps.replayStep + 1 }
  let n := o.step
  let same := decide (assoc? s.steps.prints n = some (fingerprint o))
  let last := decide (n ≥ rw s 0x210044)
  let stop := !same || last
  let s : State := { s with vers := { s.vers with copies := commitCopies s n (· = 15) },
                            num := appendRecs s.num (stepRecords s o),
                            ctxs := s.ctxs.set 15 (let x := commitCtx s 15 o s.ctxs[15]; if stop then { x with state := .halted, cause := 0, causeTask := 0 } else x),
                            steps := { s.steps with older := if stop then none else s.steps.younger, younger := none, replayStep := n, lastWord := BitVec.ofNat 32 w,
                                                    replayActive := !stop, replayResult := if !same then 2 else if last then 1 else 0, lagFrom := some s.clk.now } }
  if stop then post s 5 0x2100 0x2F (ctxStatus (ctxAt s 15)) else s

/-! ### The combined word (10 R265, R267, 12 R329 to R333) -/

/-- What a member does with a clean combined word: notices of it are done, its instance closes, the step commits (R265, R267, 15 R413, R414). -/
def cleanWord (s : State) (w : Nat) : State :=
  let s := waitEnds s
  let s := { s with recov := { s.recov with serving := false, recent := [], notice := s.recov.notice &&& ~~~ BitVec.ofNat 6 (fld w 13 8) } }
  let s := chanClose s 0 w
  if replaying s then replayClose s w
  else holdAbort (waitStarts (adoptNotices (commit s w) w) w)

/-- An abort word received: forwarded once with the module's own FENCE bits, and the instance completes (12 R333; log 30). -/
def takeAbort (s : State) (n word : Nat) (came : Dir) : State :=
  let w := word ||| fenceBits s
  abortStep (sendDown s n w (allDirs.filter fun d => d ≠ came)) n w

/-- An abort of the instance now in progress that came before the one before it was complete here (R329). -/
def heldAbort (s : State) : State :=
  let c := chanAt s 0
  match c.early.find? fun f => f.1 = gen0 (stepClosing s) && f.2.1 = 3 with
  | some f => takeAbort s (stepClosing s) f.2.2.2.2.toNat (dirOf f.2.2.2.1)
  | none => s

/-- The combined word of channel 0, where its last phase is complete (12 R331); then what is held for the next instance. -/
def finishStep (s : State) : State :=
  match chanWordOf s 0 with
  | none => s
  | some w => if w.getLsbD 0 then heldAbort (chanIdle (cleanWord s w.toNat) 0) else abortStep s (stepClosing s) w.toNat

end Sys2Proof.Machine
end

