-- ==== Sys2Proof/Machine/HostOps.lean ====
section
/-! DEFINITION. The host's door: which requests reach the module, how a write is judged, and how ownership passes (16 R433, 18 R470,
19 R497 to R501, 20 R507 to R511, 21 R536). -/

namespace Sys2Proof.Machine

/-! ### Which path answers (R433, R438, 18 R472) -/

/-- Is a module reset between its start and phase 3 (16 R436)? -/
def resetting (s : State) : Bool := s.dev.down.any (·.reset) || s.dev.holdoff

/-- Does the Farrier answer Halter: from the start of phase 2, and not while it restarts (R433, 18 R472)? -/
def farrierUp (s : State) : Bool := s.dev.on && !s.fw.farrierDown && (decide (s.dev.state ≠ .boot) || decide (s.dev.phase ≥ 2) || resetting s)

/-- Do the mailbox and the window answer: PERST_N deasserted, PD41 on, the link up (R488), from the end of phase 3 (R433, R438)? -/
def cxlUp (s : State) : Bool := s.dev.on && s.pins.perstN && s.domains.getLsbD 41 && !s.host.only68 && (decide (s.dev.state ≠ .boot) || decide (s.dev.phase ≥ 4))

/-- Does a request of this source reach the module: master 0 on the CXL port, 1 to 8 on Halter (R499)? -/
def reaches (s : State) (src : Src) : Bool :=
  match src.path with
  | .halter => farrierUp s && decide (src.master ≠ 0)
  | .window => cxlUp s && decide (src.master = 0)
  | .mailbox => cxlUp s && decide (src.master = 0)

/-- A Halter session in a slot. -/
def sessionOf (s : State) (slot : Fin 9) : Option Session := s.host.sessions.find? fun x => decide (x.slot = slot)

/-- A message dropped without a reply and counted in 0x1200.07 (R497, R536). -/
def tagFail (s : State) : State := { s with host := { s.host with tagFails := s.host.tagFails + 1 } }

/-- A session has a message now (R497). -/
def heard (s : State) (slot : Fin 9) : State :=
  { s with host := { s.host with sessions := mapWhere s.host.sessions (fun x => x.slot = slot) fun x => { x with lastAt := s.clk.now } } }

/-- Where a request ends before it is judged: it does not reach the module; its tag is wrong; it repeats a kept reply; its SEQ is
below one accepted (R497, R536). -/
def door (s : State) (src : Src) : Option State :=
  if !reaches s src then some s
  else match src.path with
    | .window => none
    | .mailbox => none
    | .halter =>
      match sessionOf s src.master with
      | none => some s
      | some x =>
        if !src.tagOk then some (tagFail s)
        else match x.replies.find? fun r => decide (r.1 = src.seq) with
          | some r => some (emit (heard s src.master) (halterMsg s src.master r.2.1 src.seq r.2.2.1 r.2.2.2))
          | none => if src.seq ≤ x.topSeq && x.seqSeen then some (tagFail s) else none

/-! ### Ownership (R499, R500) -/

/-- The owner's lease starts again with an accepted request of any kind (R500). -/
def renewLease (s : State) (m : Fin 9) : State :=
  if s.host.owner = some m then { s with host := { s.host with leaseEnd := s.clk.now + 5000000000 } } else s

/-- An accepted request: the lease, and the reply with STATUS 0. -/
def accepted (s : State) (src : Src) (ty value : Nat) (body : List Byte) : State := reply (renewLease s src.master) src ty 0 value body

/-- The code of an owner in 0x1200.01. -/
def ownerCode (o : Option (Fin 9)) : Nat := (o.map (·.val)).getD 0xFF

/-- A new owner, counted and posted. -/
def setOwner (s : State) (o : Option (Fin 9)) (prio slot : Nat) : State :=
  let old := ownerCode s.host.owner
  let s := { s with host := { s.host with owner := o, ownerPrio := prio, ownerSlot := slot, changes := s.host.changes + 1,
                                          leaseEnd := if o.isSome then s.clk.now + 5000000000 else 0 } }
  post s 2 0x1200 1 (old * 256 + ownerCode o)

/-- Ownership passes: to the pending claimant at once, or to no one (R500). -/
def passOwnership (s : State) : State :=
  match s.host.claim with
  | some c => setOwner { s with host := { s.host with claim := none } } (some c.master) c.priority c.slot.val
  | none => setOwner s none 0 0

/-! ### Judging a write (20 R509) -/

/-- May a master write an entry: the owner; the power manager 0x7000.02; 0xA000.48 only master 0 while no slot carries OWNER (R499, 21
R532)? -/
def mayWrite (s : State) (m : Fin 9) (key : Nat) : Bool :=
  if key = 0xA00048 && !anyOwner s then decide (m = 0)
  else decide (s.host.owner = some m) || (decide (key = 0x700002) && s.host.managers.contains m)

/-- The first condition of a list that fails: its reason; 0 when none does. -/
def firstReason : List (Bool × Nat) → Nat
  | [] => 0
  | (bad, why) :: r => if bad then why else firstReason r

/-- In BOOT, Halter takes only RWP writes; the mailbox answers from the end of phase 3 (R433). -/
def tooEarly (s : State) (path : Path) (e : Ent) : Bool :=
  decide (s.dev.state = .boot) && (decide (s.dev.phase ≤ 3) || decide (path = .halter)) && decide (e.acc ≠ .rwp)

/-- Is HBM not powered throughout yet (R433)? -/
def hbmDark (s : State) : Bool := decide (s.dev.state = .boot) && decide (s.dev.inService ≠ 0xFF)

/-- The reason for which a write fails, 0 when it is accepted (R509). `own` is what the entry's own rules say of it. An area that is shut
refuses every write with 6 (21 R541, 22 R558), and a write of the power-domain state asks for a domain change (01 R33; DEDUCED, log 145). -/
def writeReason (s : State) (src : Src) (key size value own : Nat) : Nat :=
  match entryOf (key / 256) (key % 256) with
  | none => 3
  | some e => firstReason [
      (areaShut s (key / 256), 6),
      (decide (e.acc = .ro), if key = 0x700010 then 10 else 2),
      (!mayWrite s src.master key, 1),
      (decide (size ≠ e.size), if src.path = .window then 7 else 9),
      (decide (value &&& e.resv ≠ 0) || decide (own = 4), 4),
      (decide (value < e.lo) || decide (value > e.hi), 5),
      (decide (own ≠ 0), own),
      (tooEarly s src.path e, 6)]

/-! ### Requests that wait for a restarting ostler (18 R467, R470) -/

/-- The ostler that carries out a write (R465, R467). -/
def ostlerOf (key : Nat) : Option Nat :=
  if key = 0x210010 || key = 0x210030 then some 0
  else if key / 256 = 0x3000 then some 1
  else if key = 0x600012 || key = 0x600013 || key = 0x600018 || key = 0x60001A then some 2
  else if key = 0x800020 then some 3
  else none

/-- The ostler whose queue a write joins now; a gallop abort is hardware's (R467). -/
def waitsFor (s : State) (key value : Nat) : Option Nat :=
  if key = 0x800020 && value = 2 then none else (ostlerOf key).filter (ostlerBusy s)

/-- A Halter request waits: its SEQ counts as accepted. -/
def seqTaken (s : State) (src : Src) : State :=
  if src.path = .halter then
    { s with host := { s.host with sessions := mapWhere s.host.sessions (fun x => x.slot = src.master) fun x =>
      { x with topSeq := max x.topSeq src.seq, seqSeen := true, lastAt := s.clk.now } } }
  else s

/-- A write: judged, then carried out or left to the queue of a restarting ostler (R470, R509). -/
def hostCommand (s : State) (src : Src) (key size value own : Nat) (effect : State → State) : State :=
  match door s src with
  | some s' => s'
  | none =>
    let why := writeReason s src key size value own
    if why ≠ 0 then illegal s src 0x11 why (key / 256) (key % 256)
    else match waitsFor s key value with
      | some o =>
        if (nth s.fw.ostlers o {}).queue.length ≥ 64 then illegal s src 0x11 8 (key / 256) (key % 256)
        else seqTaken (renewLease (onOstler s o fun k => { k with queue := k.queue ++ [.host src key value] }) src.master) src
      | none => accepted (effect s) src 0x11 0 []

/-! ### RW and RWP values (20 R508, R516) -/

/-- An entry takes a value: PENDING for an RWP entry that changes (R516). -/
def putValue (s : State) (key value : Nat) : State :=
  if dictVal s.dict key = value then s
  else { s with dict := { s.dict with vals := setVal s.dict.vals key value (dfltOf key), pendingW := s.dict.pendingW || isRwp key,
                                      again := s.dict.again || (isRwp key && s.dict.writing.isSome) } }

/-- Is copy A the older one, which the next generation overwrites: a copy without a good CRC, else the lower number (R516)? -/
def olderIsA (d : Dict) : Bool := if d.copyA.valid = d.copyB.valid then decide (d.copyA.number < d.copyB.number) else !d.copyA.valid

/-- Changes the older copy. -/
def onOlder (d : Dict) (f : Gen → Gen) : Dict := if olderIsA d then { d with copyA := f d.copyA } else { d with copyB := f d.copyB }

/-! ### The staging aperture (09 R234, R241; 19 R494) -/

/-- Bytes written into the staging aperture: 32-byte words written whole are no longer poisoned (09 R234). -/
def stagePut (s : State) (off : Nat) (bs : List Byte) : State :=
  { s with staging := memPut s.staging off bs, poison := s.poison.filter fun u => !(decide (off ≤ 32 * u) && decide (32 * u + 32 ≤ off + bs.length)) }

/-- The module writes to the aperture: it snoops what the host may hold first (19 R494). One record stands for all lines of a write. -/
def moduleStages (s : State) (off : Nat) (bs : List Byte) : State := stagePut (emit s (.snoop off)) off bs

/-! ### Device-state conditions several commands share -/

/-- Are contexts 0 to 14 EMPTY? -/
def allEmpty (s : State) : Bool := (upto 15).all fun c => decide ((ctxAt s c).state = .empty)

/-- Is the device in READY or TEST? -/
def readyOrTest (s : State) : Bool := decide (s.dev.state = .ready) || decide (s.dev.state = .test)

end Sys2Proof.Machine
end

