-- ==== Sys2Proof/Machine/Progress.lean ====
section
/-! DEFINITION. The course of a step: SIG and WAIT, completion of pieces and tasks, the step boundary, batch input, the module's verdict and
the replay (07 R179 to R194, 08 R213, 10 R246 to R268, 12 R323, 15 R409, 19 R492, R493). -/

namespace Sys2Proof.Machine

/-! ### When a step is complete (07 R188) -/

/-- The contexts whose work makes up the open steps: 0 to 14, or context 15 in a diagnosis replay (10 R275). -/
def stepCtxs (s : State) : List Nat := if replaying s then [15] else upto 15

/-- Is a context RUNNING or HALTED? -/
def isLive (x : Ctx) : Bool := decide (x.state = .running) || decide (x.state = .halted)

/-- Has context `c` completed every task of step `n`? A halted one holds its step in DISPATCHING (10 R246). -/
def ctxDone (s : State) (c n : Nat) : Bool :=
  let x := ctxAt s c
  !isLive x || x.joins || decide (n < x.step) ||
    (decide (x.step = n) && decide (x.state = .running) && decide (x.pos ≥ (progAt s c).tasks.length) && x.held.isEmpty && x.left.isEmpty && x.sigs.isEmpty && x.waiting.isNone)

/-- Has every task of step `n` completed its primary execution (R188)? -/
def primaryDone (s : State) (n : Nat) : Bool := (stepCtxs s).all fun c => ctxDone s c n

/-- Is task `i` of context `c` complete in step `n`? -/
def taskDone (s : State) (c n i : Nat) : Bool :=
  let x := ctxAt s c
  !isLive x || decide (n < x.step) || (decide (x.step = n) && decide (i < x.pos) && (x.left.all fun l => l.1 ≠ i))

/-! ### The mirror stream (15 R409) -/

/-- Have the OPT tasks of contexts 0 to 14 completed in step `n`? -/
def optsDone (s : State) (n : Nat) : Bool :=
  (upto 15).all fun c => (ctxAt s c).joins || (progAt s c).tasks.zipIdx.all fun t => !isOpt t.1 || taskDone s c n t.2

/-- Is the mirror stream of step `n` due: after OPT, once every task has completed and every scale exchange has ended, so that it carries all
the step's amax-history entries (03 R79)? -/
def mirrorDue (s : State) (o : OpenStep) : Bool :=
  !replaying s && hasMirror s && s.recov.role = .working && !o.mirrorSent && optsDone s o.step && primaryDone s o.step && decide (o.exchanges = 0)

/-- What the step's stream carries: working images of the OPT state, the step's amax-history entries and tolerance changes. -/
def mirrorOf (s : State) (o : OpenStep) : MirrorSet :=
  let n := o.step
  let imgs := (capturedMirror s).map fun x => (x.1, x.2.1, rdImage { s := s, ctx := x.1, step := n } 0 x.2.1 x.2.2)
  let hist := (o.maxima.filter fun m => (tensorAt (progAt s m.1) m.2.1).policy = 2).map fun m => stateRec n m.2.2.toNat 0 m.1 m.2.1
  let tols := (jobPrograms s).flatMap fun cp => ((ctxAt s cp.1).tens.filter fun x => o.tol.any fun y => y.ctx = cp.1 && y.tensor = x.tensor).map fun x =>
    tolRec cp.1 (commitTensor s cp.1 o x)
  { tensors := imgs, recs := hist ++ tols }

/-- Sends the stream once. -/
def streamMirror (s : State) (n : Nat) : State :=
  match openAt s n with
  | none => s
  | some o =>
    if mirrorDue s o then tell (onStep s n fun o => { o with mirrorSent := true }) (.mirror n false (mirrorOf s o)) else s

/-- The step moves on: CHECKING once every primary piece is complete (10 R246), and the mirror stream after OPT. -/
def progress (s : State) (n : Nat) : State :=
  let done := primaryDone s n
  streamMirror (onStep s n fun o => if done && decide (o.status = .dispatching) then { o with status := .checking } else o) n

/-! ### Scale exchange (03 R79, 12 R323) -/

/-- The group that a GROUP tensor names. -/
def scaleGroup (p : Program) (e : Tensor) : Group := p.groups.getD e.group default

/-- A combined maximum takes effect: the CURRENT tensor's scale, or the running maximum that enters the history (R78, R79). DESIGN CHOICE,
log 160: R77 speaks of a tensor's AMAX task; of several that name one CURRENT tensor in a step the largest result counts. -/
def setMaximum (s : State) (c t n : Nat) (v : BitVec 32) : State :=
  let p := progAt s c
  let e := tensorAt p t
  if e.policy = 3 then
    let old := ((assoc? (tstate s c t).cur n).map (·.2)).getD 0
    let v := if v < old then old else v
    let r := chooseScale (some v.toNat) (marginOf p e) e.sInit
    let s := onCtx s c fun x => { x with tens := mapWhere x.tens (fun y => y.tensor = t) fun y =>
      { y with cur := (n, r.1, v) :: (y.cur.filter fun k => k.1 ≠ n).take 1 } }
    onStep s n fun o => { o with clamps := o.clamps + bit r.2 }
  else onStep s n fun o => { o with maxima := mapWhere o.maxima (fun m => m.1 = c && m.2.1 = t) fun m => (m.1, m.2.1, v) }

/-- The ordinal under which a tensor's exchange travels: it counts on from the context's COLL tasks (log 28). -/
def exchOrdinal (p : Program) (t : Nat) : Nat := collOrdinal p p.tasks.length + t

/-- Sends a data flit of a collective to a rank of its group, with its landing header (R324). -/
def sendLand (s : State) (c ord n : Nat) (g : Group) (f : CollFlit) : State :=
  let land := landOf n s.steps.attempt ord f
  startFlit s (rankCoord s g f.rank) (Config.landingPart (landKey land) % 8) (collFlow c ord) (collPayload land f.data)

/-- Sends a flit of an exchange to the next member on an axis: one FP32 value on the + ring (R319, R323, R324). -/
def exchSend (s : State) (c t n axis stage hop : Nat) (v : BitVec 32) : State :=
  let p := progAt s c
  let g := scaleGroup p (tensorAt p t)
  let rank := rankWith g (ownRank s g) axis (ringNext (lenOn g axis) (ownIndex s g axis) true)
  sendLand s c (exchOrdinal p t) n g ⟨axis, stage, hop, 0, 0, rank, toBytes 4 v.toNat⟩

/-- Sends the result along some axes of an exchange, the last phase first (R320, R323). -/
def exchSpread (s : State) (c t n : Nat) (v : BitVec 32) (axes : List Nat) : State :=
  axes.reverse.foldl (fun s a => exchSend s c t n a 1 1 v) s

/-- An exchange ends on this module with the combined maximum. -/
def exchEnd (s : State) (c t n : Nat) (v : BitVec 32) : State :=
  setMaximum (onStep s n fun o => { o with exchanges := o.exchanges - 1, exchDone := o.exchDone ++ [(c, t)], amaxes := o.amaxes.filter fun m => !(m.ctx = c && m.tensor = t) }) c t n v

/-- Phase `j` of an exchange begins here: the member after the owner starts the ring; with no phase left the owner has the result, which
takes effect and goes back out (R319, R320, R323). -/
def exchBegin (s : State) (c t n j : Nat) (v : BitVec 32) : State :=
  let g := scaleGroup (progAt s c) (tensorAt (progAt s c) t)
  match (phases g)[j]? with
  | some a => if ownIndex s g a = 1 then exchSend s c t n a 0 1 v else s
  | none => exchSpread (exchEnd s c t n v) c t n v (phases g)

/-- Is a flit one of a reduce that this member takes in phase `j` of its group's exchange or later: of the ring step before its own (R319)? -/
def exchFrom (s : State) (g : Group) (j h : Nat) : Bool :=
  let a := fld h 53 52
  let i := ownIndex s g a
  ((phases g).drop j).contains a && fld h 51 50 = 0 && i ≠ 1 && fld h 49 45 = (if i = 0 then lenOn g a else i) - 1

/-- Is a reduce flit of an exchange the one this member waits for in its phase (R319)? -/
def exchDue (s : State) (g : Group) (e : Exch) (h : Nat) : Bool := exchFrom s g e.phase h && decide ((phases g)[e.phase]? = some (fld h 53 52))

/-- A reduce flit of an exchange is merged and sent on, or opens the next phase at its owner (R319, R323). -/
def exchMerge (s : State) (c n : Nat) (e : Exch) (v : BitVec 32) (h : Nat) : State :=
  let g := scaleGroup (progAt s c) (tensorAt (progAt s c) e.tensor)
  let a := fld h 53 52
  let top := if e.value < v then v else e.value
  let next := if ownIndex s g a = 0 then e.phase + 1 else 99
  let s := onStep s n fun o => { o with amaxes := mapWhere o.amaxes (fun m => m.ctx = c && m.tensor = e.tensor) fun m =>
    { m with value := top, phase := next, keys := landKey h :: m.keys } }
  if ownIndex s g a = 0 then exchBegin s c e.tensor n next top else exchSend s c e.tensor n a 0 (fld h 49 45 + 1) top

/-- The early flit that an exchange waits for now, with the exchange. -/
def exchHeld (s : State) (c t n : Nat) : Option (Exch × BitVec 32 × Nat) :=
  (openAt s n).bind fun o => (o.amaxes.find? fun m => m.ctx = c && m.tensor = t).bind fun e =>
    (o.exchEarly.find? fun x => x.1 = c && x.2.1 = t && exchDue s (scaleGroup (progAt s c) (tensorAt (progAt s c) t)) e x.2.2.2).map fun x =>
      (e, x.2.2.1, x.2.2.2)

/-- Merges early flits as their phases come. DESIGN CHOICE, log 194: an exchange's chunks are granted from its step's opening on. -/
def exchTake (s : State) (c t n : Nat) : Nat → State
  | 0 => s
  | fuel + 1 =>
    match exchHeld s c t n with
    | some (e, v, h) =>
      let s := onStep s n fun o => { o with exchEarly := o.exchEarly.filter fun x => !(x.1 = c && x.2.1 = t && x.2.2.2 = h) }
      exchTake (exchMerge s c n e v h) c t n fuel
    | none => s

/-- A local maximum: taken at once, or sent into the exchange of its group (R79, R323). -/
def giveMaximum (s : State) (c t n : Nat) (v : BitVec 32) : State :=
  let p := progAt s c
  let e := tensorAt p t
  if e.scopeGroup && groupSize (scaleGroup p e) > 1 then
    let s := onStep s n fun o =>
      { o with exchanges := o.exchanges + 1, amaxes := o.amaxes ++ [{ ctx := c, tensor := t, value := v }], exchDone := o.exchDone.filter fun x => x ≠ (c, t) }
    exchTake (exchBegin s c t n 0 v) c t n 4
  else setMaximum s c t n v

/-- Have all tasks that write the tensor completed in the step? -/
def writersDone (s : State) (c n t : Nat) : Bool := (progAt s c).tasks.zipIdx.all fun k => !(outputsOf k.1).contains t || taskDone s c n k.2

/-- The running maxima of a completed task's GROUP tensors of policy DELAYED go into their exchange (R79). -/
def giveRunning (s : State) (c n : Nat) (ts : List Nat) : State :=
  ts.foldl (fun s t =>
    let e := tensorAt (progAt s c) t
    if e.policy = 2 && e.scopeGroup && writersDone s c n t then
      match (openAt s n).bind fun o => o.maxima.find? fun m => m.1 = c && m.2.1 = t with
      | some m => giveMaximum s c t n m.2.2
      | none => s
    else s) s

/-! ### Completion (08 R223, 03 R82 to R89) -/

/-- A task's events join its statistics. -/
def addStat (l : List TaskStat) (c task opcode t : Nat) (e : Events) : List TaskStat :=
  if l.any fun x => x.ctx = c && x.task = task && x.tensor = t then
    mapWhere l (fun x => x.ctx = c && x.task = task && x.tensor = t) fun x => { x with ev := addEvents x.ev e }
  else l ++ [⟨c, task, opcode, t, e⟩]

/-- The same for a split's events. -/
def addSplit (l : List TaskStat) (x : TaskStat) : List TaskStat := addStat l x.ctx x.task x.opcode x.tensor x.ev

/-- A running maximum joins the step's (R70). -/
def addMax (l : List (Nat × Nat × BitVec 32)) (c t : Nat) (v : BitVec 32) : List (Nat × Nat × BitVec 32) :=
  if l.any fun m => m.1 = c && m.2.1 = t then
    mapWhere l (fun m => m.1 = c && m.2.1 = t) fun m => (c, t, if m.2.2 < v then v else m.2.2)
  else l ++ [(c, t, v)]

/-- A checksum outcome joins the step's (04 R106). -/
def addTol (l : List TolOut) (c t : Nat) (failed : Bool) : List TolOut :=
  if l.any fun x => x.ctx = c && x.tensor = t then mapWhere l (fun x => x.ctx = c && x.tensor = t) fun x => { x with failed := x.failed || failed }
  else l ++ [⟨c, t, failed, false⟩]

/-- What a completed execution adds to its open step. DESIGN CHOICE, log 173: a data comparison that fails in an attention task moves the
tolerance of every output tensor, although the check ran under the first output's (04 R106). DEDUCED, log 214: a frozen output's tolerance moves as an unfrozen one's. -/
def stepTakes (t : Task) (r : Run) (o : OpenStep) : OpenStep :=
  let c := r.piece.ctx
  let failed := r.units.any (·.dataFail)
  { o with stats := r.splits.foldl addSplit (r.outs.foldl (fun l x => addStat l c r.piece.task t.opcode x.1 x.2) o.stats),
           maxima := r.maxima.foldl (fun l m => addMax l c m.1 m.2) o.maxima,
           tol := if usesArray t then (outputsOf t).foldl (fun l x => addTol l c x failed) o.tol else o.tol,
           optSkip := o.optSkip || r.optSkip,
           optDigs := if isOpt t then o.optDigs ++ r.units.map fun u => (c, r.piece.task, u.unit, u.digests) else o.optDigs }

/-- The records of RESULT objects that a completed task has written (19 R503). -/
def putResults (v : Vector Result 64) (n : Nat) (rs : List (Nat × BitVec 64)) : Vector Result 64 :=
  rs.foldl (fun v r => updN v (r.1 - 1) fun x =>
    { x with cur := resultRec n false r.2, held := if x.cur.getLsbD 65 && fld x.cur.toNat 127 80 ≠ n % 2 ^ 48 then x.cur else x.held }) v

/-- A task has completed its primary execution: AMAX's result, scale exchanges, RESULT objects, the halt flag. -/
def taskEnds (s : State) (t : Task) (r : Run) : State :=
  let c := r.piece.ctx
  let n := r.piece.step
  let s := { s with results := if c = 15 then s.results else putResults s.results n r.results }
  let s := match r.amax with
    | some (d, v) => giveMaximum s c d n v
    | none => s
  let s := giveRunning s c n (outputsOf t)
  if t.halt && (ctxAt s c).special.contains r.piece.task then haltCtx s c 1 r.piece.task else s

/-- One piece less of a task. -/
def pieceOff (l : List (Nat × Nat)) (task : Nat) : List (Nat × Nat) :=
  (l.map fun x => if x.1 = task then (x.1, x.2 - 1) else x).filter fun x => x.2 ≠ 0

/-- The tasks whose special flag an execution raises: its own, and those whose splits it made (03 R82, 10 R248). -/
def specialTasks (r : Run) : List Nat :=
  (if r.outs.any fun o => !o.2.tiles.isEmpty then [r.piece.task] else []) ++ (r.splits.filter fun x => !x.ev.tiles.isEmpty).map (·.task)

/-- The completion of an execution that still belongs to its step. -/
def runEnds (s : State) (t : Task) (r : Run) : State :=
  let c := r.piece.ctx
  let n := r.piece.step
  let s := onStep s n (stepTakes t r)
  let s := onCtx s c fun x =>
    { x with left := pieceOff x.left r.piece.task,
             special := nub (x.special ++ specialTasks r) }
  progress (if (ctxAt s c).left.all fun x => x.1 ≠ r.piece.task then taskEnds s t r else s) n

/-- The core after execution `which` has left it. -/
def runLeaves (now : Nat) (array : Bool) (which : Nat) (k : Core) : Core :=
  { k with running := k.running.eraseIdx which, lastSweep := if array then some now else k.lastSweep,
           bench := if array then releaseSlots k.bench else k.bench }

/-- PIECE_COMPLETE (R223): a piece completes; an execution whose step was rolled back only leaves (10 R268). -/
def execPieceComplete (core : Fin 145) (which : Fin 2) (s : State) : Out :=
  match (coreAt s core.val).running[which.val]? with
  | none => .next s
  | some r =>
    match taskAt s r.piece.ctx r.piece.task with
    | none => .next (onCore_ s core.val (runLeaves s.clk.now false which.val))
    | some t =>
      let s' := onCore_ s core.val (runLeaves s.clk.now (usesArray t) which.val)
      .next (if r.stale then s' else runEnds s' t r)

/-! ### Split stalls (10 R249) -/

/-- The splits that the head piece of a core needs: its context and tiles. -/
def headSplits (s : State) (g : Nat) : Option (Nat × List (Nat × Nat)) :=
  match (coreAt s g).queue with
  | [] => none
  | pc :: _ => (taskAt s pc.ctx pc.task).map fun t => (pc.ctx, splitsNeeded s pc.ctx pc.step (workWrites (workOf s pc t {})))

/-- Held tiles in the order in which the engine copies them: the older capture's first, of captures that have begun (R250, 13 R351, R352). -/
def heldTiles (s : State) : List Copy :=
  nub ((s.ckpt.captures.filter fun q => q.begun && !q.read).flatMap fun q => s.vers.copies.filter (heldFor q.cut))

/-- The engine finishes the copies of the first `n` held tiles: each is kept with the captures it was held for and returns to the pool. -/
def finishHolds (s : State) (n : Nat) : State :=
  let done := (heldTiles s).take n
  { s with ckpt := { s.ckpt with captures := s.ckpt.captures.map fun q => { q with got := q.got ++ done.filter (heldFor q.cut) } },
           vers := { s.vers with copies := s.vers.copies.filter fun k => !done.contains k } }

/-- SPLIT_STALL_RESUME (R249): tiles are there again, by a commit or because the Lehr engine has copied held ones, and the waiting piece is
issuable. -/
def execSplitStallResume (core : Fin 145) (s : State) : Out :=
  match (s.vers.stalled.any fun x => x.1 = core.val), headSplits s core.val with
  | true, some (c, ts) =>
    let s' := if splitRoom s c ts then s else finishHolds s (ts.length + poolCopies s - s.vers.reserve)
    if splitRoom s' c ts then .next { s' with vers := endStalls s.clk.now s'.vers fun g => g = core.val } else .next s
  | _, _ => .next s

/-! ### SIG and WAIT (07 R179 to R181) -/

/-- SIG (R180): dispatched, it waits for the earlier tasks that its GMASK names. -/
def execSig (ctx : Fin 16) (s : State) : Out :=
  match nextBody s ctx.val with
  | some (.sig obj inc gmask) =>
    if dispatchable s ctx.val && firstInLine s ctx.val then
      .next (onCtx s ctx.val fun x =>
        { x with pos := x.pos + 1, sigs := x.sigs ++ [⟨x.pos, x.step, obj, inc, gmask⟩], began := x.began ++ [(x.pos, s.clk.now)] })
    else .next s
  | _ => .next s

/-- WAIT (R181): dispatched, it holds every later task of its context. -/
def execWait (ctx : Fin 16) (s : State) : Out :=
  match nextBody s ctx.val with
  | some (.wait obj target) =>
    if dispatchable s ctx.val && firstInLine s ctx.val then
      .next (onCtx s ctx.val fun x => { x with pos := x.pos + 1, waiting := some (obj, target), began := x.began ++ [(x.pos, s.clk.now)] })
    else .next s
  | _ => .next s

/-- Do the conditions of a dispatched SIG hold: every earlier task whose CGROUP its GMASK names has completed (R180)? -/
def sigReady (s : State) (c : Nat) (w : SigWait) : Bool :=
  let x := ctxAt s c
  ((progAt s c).tasks.take w.task).zipIdx.all fun t =>
    !w.mask.getLsbD t.1.cgroup || ((x.left.all fun l => l.1 ≠ t.2) && x.sigs.all fun q => q.task ≠ t.2)

/-- SIG_TAKES_EFFECT (R179): the object's tag and count move, or the sync-order fault is recorded. -/
def execSigTakesEffect (ctx : Fin 16) (s : State) : Out :=
  match (ctxAt s ctx.val).sigs.find? (sigReady s ctx.val) with
  | none => .next s
  | some w =>
    let s := onCtx s ctx.val fun x => { x with sigs := x.sigs.filter fun q => q.task ≠ w.task }
    .next (progress (if ctx.val = 15 && w.obj < 4096 then s else applySig s w.obj w.step w.inc) w.step)

/-- WAIT_SATISFIED (R179, R181): dispatch of the context goes on. -/
def execWaitSatisfied (ctx : Fin 16) (s : State) : Out :=
  let x := ctxAt s ctx.val
  match x.waiting with
  | none => .next s
  | some (o, target) =>
    if waitMet s o target x.step then .next (progress (onCtx s ctx.val fun x => { x with waiting := none }) x.step) else .next s

/-! ### Batch input (07 R193, R194, 19 R492, R493) -/

/-- Asks the fetcher for the batch of step `n`: at once, or after those it is at. -/
def fetchBatch (s : State) (n : Nat) : State :=
  if !hasInput s || (assoc? s.fetch.batches n).isSome || s.fetch.queue.contains n || ((s.fetch.state = 1 || s.fetch.state = 2) && s.fetch.step = n) then s
  else if s.fetch.state = 1 || s.fetch.state = 2 then { s with fetch := { s.fetch with queue := s.fetch.queue ++ [n] } }
  else { s with fetch := { s.fetch with state := 1, step := n, filled := 0 } }

/-- Address of the slot of step `n` (R492). -/
def slotAddr (s : State) (n : Nat) : Nat :=
  let l := s.dict.latched
  l.ringBase + (if l.slotCount = 0 then 0 else n % l.slotCount) * l.slotSize

/-- BATCH_HEADER_POLL (R493): the header is read; another step's is read again 10 µs later. With the port's link down the fetch waits (16
R438). -/
def execBatchHeaderPoll (hdrStep filled : Nat) (s : State) : Out :=
  if s.fetch.state = 1 && cxlUp s then
    let n := s.fetch.step
    let s := emit s (.pollHeader n (slotAddr s n))
    if hdrStep = n then .next (emit { s with fetch := { s.fetch with state := 2, filled := filled } } (.readBody n (slotAddr s n) filled))
    else .next s
  else .next s

/-- The fetcher after a batch: the next step of its queue, or done. -/
def fetchNext (f : Fetch) : Fetch :=
  match f.queue with
  | [] => { f with state := 3, first := 0 }
  | n :: r => { f with state := 1, step := n, filled := 0, queue := r, first := if (n :: r).any fun k => decide (k ≤ f.first) then f.first else 0 }

/-- Where the batch of step `n` comes to lie: each INPUT tensor in its partitions of now (08 R200). -/
def batchPlaces (s : State) (n : Nat) : List (Nat × Nat × Nat × BitVec 8) :=
  (s.place.tensors.filter fun k => (tensorAt (progAt s k.ctx) k.tensor).persist = clsInput).map fun k => (n, k.ctx, k.tensor, k.parts)

/-- Does a batch of now go to a partition in reset? -/
def batchShut (s : State) : Bool := (batchPlaces s s.fetch.step).any fun b => decide (b.2.2.2 &&& s.dev.inReset ≠ 0)

/-- BATCH_FETCH_DONE (07 R193): the batch is retained; what lies beyond FILLED reads as zero (R493). A partition in reset answers the fetcher
with an error (01 R29), and the batch is fetched once more when it is back (15 R404). -/
def execBatchFetchDone (body : List Byte) (s : State) : Out :=
  if s.fetch.state ≠ 2 || !cxlUp s then .next s
  else if batchShut s then
    .next (emit { s with fetch := fetchNext { s.fetch with again := s.fetch.again ++ [s.fetch.step] } } (.errorReply 8 []))
  else
    let at_ := s.place.batchAt.filter (fun b => b.1 ≠ s.fetch.step) ++ batchPlaces s s.fetch.step
    .next { s with
            place := { s.place with batchAt := at_ },
            fetch := fetchNext { s.fetch with batches := assocSet s.fetch.batches s.fetch.step (body.take s.fetch.filled) } }

/-! ### The step boundary (07 R188) -/

/-- The step that may begin: the one after the newest open step, its primary executions complete and its predecessor committed. -/
def nextStep (s : State) : Option Nat :=
  match s.steps.older, s.steps.younger with
  | some _, some _ => none
  | some o, none => if primaryDone s o.step then some (o.step + 1) else none
  | none, _ => if primaryDone s (baseStep s (if replaying s then 15 else 0)) then some (baseStep s (if replaying s then 15 else 0) + 1) else none

/-- May a step begin: the context that leads runs, no replay is due, nothing recovers? -/
def mayBegin (s : State) (n : Nat) : Bool :=
  if replaying s then decide ((ctxAt s 15).state = .running) && decide (n ≤ rw s 0x210044)
  else decide ((ctxAt s 0).state = .running) && decide (s.dev.state = .joined) && s.steps.replayDue.isNone && s.recov.role = .working &&
    s.place.replacing.isEmpty

/-- A context at the first task of step `n`. -/
def ctxBegins (n : Nat) (x : Ctx) : Ctx :=
  if isLive x then { x with step := n, pos := 0, left := [], began := [], sigs := [], special := [], collWait := none, cut := [], resv := [], joins := false } else x

/-- How many DELAYED tensors clamp their scale in step `n` (03 R74, R85). -/
def clampsOf (s : State) (n : Nat) : Nat :=
  ((stepCtxs s).map fun c => if isLive (ctxAt s c) then
    ((upto (progAt s c).tensors.length).filter fun t => (tensorAt (progAt s c) t).policy = 2 && (scaleFor s c t n).2).length else 0).sum

/-- Plans that are ready take effect at the boundary of step `n` (08 R213): moves count, the map's generation goes on, and the old space is
free once the reads of earlier steps are done (08 R203). -/
def plansTake (s : State) (n : Nat) : State :=
  let ready := s.place.plan.filter (·.copied)
  if ready.isEmpty then s
  else
    let move (t : Placed) : Placed :=
      match ready.find? fun m => m.ctx = t.ctx && m.tensor = t.tensor with
      | some m =>
        { t with cls := m.cls, parts := if m.cls = 3 then 0 else BitVec.twoPow 8 m.part, slot := m.slot, split := [], shared := none, moved := true,
                 age := 0 }
      | none => t
    let gone := (s.place.tensors.filter fun t => ready.any fun m => m.ctx = t.ctx && m.tensor = t.tensor).map fun t =>
      ({ ctx := t.ctx, tensor := t.tensor, step := n, units := unitsOf s t } : Freed)
    { s with place := { s.place with plan := s.place.plan.filter fun m => !m.copied, tensors := s.place.tensors.map move,
                                     moves := s.place.moves + ready.length, gen := s.place.gen + 1, freed := s.place.freed ++ gone } }

/-- Regulator shares written since the last boundary take effect (09 R228). -/
def sharesTake (m : MemHealth) : MemHealth := { m with shares := m.sharesNext.getD m.shares, sharesNext := none }

/-- Opens step `n` behind the steps that are open. -/
def openStep (t : Steps) (o : OpenStep) : Steps := if t.older.isNone then { t with older := some o } else { t with younger := some o }

/-- Step `n` begins: contexts at its first task, plans and shares in effect, the next batch asked for (R188, R193). -/
def beginNext (s : State) (n : Nat) : State :=
  let who := stepCtxs s
  let s := { s with ctxs := Vector.ofFn fun i => if who.contains i.val then ctxBegins n s.ctxs[i] else s.ctxs[i] }
  let s := { s with steps := openStep s.steps { step := n, clamps := clampsOf s n }, mem := sharesTake s.mem }
  if replaying s then s else fetchBatch (plansTake s n) (n + 1)

/-- STEP_BOUNDARY (R188). -/
def execStepBoundary (s : State) : Out :=
  match nextStep s with
  | none => .next s
  | some n => if mayBegin s n then .next (beginNext s n) else .next s

/-! ### The verdict (10 R260 to R264) -/

/-- Do all conditions of R260 hold for an open step? -/
def verdictClean (s : State) (o : OpenStep) : Bool :=
  primaryDone s o.step && (o.checks.all fun r => decide (r.state = .matched)) && o.exchanges = 0 &&
    (replaying s || !hasMirror s || o.mirrorAcked) && !verdictFails s o

/-- LAG of a contribution now: in units of 64 µs since the last combined word, saturating; 0 after a START or a rollback (R264). -/
def lagNow (s : State) : Nat :=
  match s.steps.lagFrom with
  | some t => sat 16 ((s.clk.now - t) / 64000)
  | none => 0

/-- The word of a clean contribution (R263). -/
def cleanContribution (s : State) : BitVec 32 := BitVec.ofNat 32 (pack [(16, 16, lagNow s), (1, 1, bit s.ckpt.pend), (0, 1, 1)] ||| fenceBits s)

/-- Contributes a clean verdict for the older step (R261, 12 R331). -/
def contributeClean (s : State) (o : OpenStep) : State :=
  let w := cleanContribution s
  let s := { s with steps := { s.steps with older := some { o with status := .contributed }, contribAt := s.clk.now, lagOwn := fld w.toNat 31 16 } }
  finishStep (chanOwn s 0 (gen0 o.step) 0 0xF w)

/-- VERDICT_CONTRIBUTE (R261): clean when every condition holds, an abort when the verdict is known to fail, nothing before. -/
def execVerdictContribute (s : State) : Out :=
  match s.steps.older with
  | none => .next s
  | some o =>
    if !mayContribute s then .next s
    else if verdictFails s o then .next (ownAbort s)
    else if verdictClean s o then .next (contributeClean s o)
    else .next s

/-! ### The replay (10 R268) -/

/-- Is a core being probed or reset after a watchdog expiry (15 R399)? -/
def probing (s : State) : Bool := s.cores.toList.any fun k => decide (k.probe ≠ 0)

/-- Have the issued pieces and checks of contexts 0 to 14 and the arbiters completed, is no core reset to come, and no record awaited (R268,
15 R399, R414)? -/
def replayReady (s : State) : Bool :=
  (s.cores.toList.all fun k => (k.running.all fun r => r.piece.ctx = 15) && (k.checking.all fun c => c.1.piece.ctx = 15)) && !arbiterLeft s && s.recov.asked = 0 && decide (s.dev.state = .joined) &&
    s.place.replacing.isEmpty && !probing s

/-- REPLAY_DISPATCH (R268 step 5): step `n` is dispatched again, from retained batches, the latched seed and committed scales; the next
step's batch is asked for where it is not retained (07 R193). -/
def execReplayDispatch (s : State) : Out :=
  match s.steps.replayDue with
  | none => .next s
  | some n =>
    if replayReady s then
      let s := { s with vers := dropWork s.vers }
      .next (fetchBatch { s with steps := openStep { s.steps with replayDue := none, discardHeld := false } { step := n, clamps := clampsOf s n } } (n + 1))
    else .next s

end Sys2Proof.Machine
end

