-- ==== Sys2Proof/Machine/Collectives.lean ====
section
/-! DEFINITION. Collectives (chapter 12): the COLL commands, landing zones, scale exchanges and SIGNALs. -/

namespace Sys2Proof.Machine

/-! ### A COLL at the link blocks (07 R190, 12 R316, R318) -/

/-- A COLL task that has been dispatched: its context's step, list position and fields. -/
structure CollTask where
  pos   : Nat
  step  : Nat
  kind  : Nat
  redop : Nat
  group : Group
  src   : OpSlot
  dst   : Nat
  peer  : Nat
  deriving DecidableEq, Repr, Inhabited

/-- The first COLL of a context at the link blocks, when what it reads and writes is there and no check reads what it writes (07 R193, 03 R77,
08 R203, 10 R257); a BARRIER holds only its write. -/
def collReady (s : State) (c kind : Nat) : Option CollTask :=
  match (ctxAt s c).left.find? fun l => (taskAt s c l.1).any isColl with
  | none => none
  | some (pos, _) =>
    if (ctxAt s c).cut.contains pos then none
    else match taskAt s c pos with
    | none => none
    | some t =>
      match t.body with
      | .coll k redop gi src dst peer =>
        let n := (ctxAt s c).step
        if k = kind && inputsThere s (progAt s c) t n && scalesThere s c (progAt s c) t n && (k = 5 || !collHeld s c) then
          some { pos := pos, step := n, kind := k, redop := redop, group := (progAt s c).groups.getD gi default, src := src, dst := dst, peer := peer }
        else none
      | _ => none

/-- The reader of a COLL. -/
def collRd (s : State) (c : Nat) (k : CollTask) : Rd := { s := s, ctx := c, step := k.step }

/-- What a COLL delivers: one unit without a digest. -/
def collUnit (t : Nat) (writes : List Wr) (e : Events) (top : Nat) (resv : List (Nat × Nat)) : Unit_ :=
  { unit := 0, writes := writes, outs := [(t, e)], maxima := [(t, top)], resv := resv }

/-- The delivery of values into DST by runs of 4,096 (R319): writes, events and maximum. -/
def deliverRuns (r : Rd) (dst : Nat) (vs : List (Nat × Acc)) : List Wr × Events × Nat :=
  let runs := nub (vs.map fun v => v.1 / 4096)
  runs.foldl (fun acc t =>
    let own := deliver r dst 7 (runCells t (vs.filter fun v => v.1 / 4096 = t)) none
    (acc.1 ++ own.writes, addEvents acc.2.1 (tileEvents t own.hits), max acc.2.2 own.top)) ([], {}, 0)

/-- Writes without a conversion: a stored image's elements `is` into the places that begin at `at_`, planes included (R320). -/
def planeWrites (e : Tensor) (dst n at_ : Nat) (image : Mem) (srcLen len : Nat) : List Wr :=
  let b := elemBytes e.format
  let main : Wr := ⟨dst, b * at_, memTake image 0 (b * len)⟩
  let more : List Wr :=
    if isBlock e.format then [⟨dst, 2 * n + at_ / 32, memTake image (2 * srcLen) ((len + 31) / 32)⟩]
    else if e.format = fmtCP32 then [⟨dst, 4 * n + 4 * at_, memTake image (4 * srcLen) (4 * len)⟩] else []
  (main :: more).filter fun w => !w.bytes.isEmpty

/-- Bytes as a sparse image. -/
def imageOf (bs : List Byte) : Mem := memPut [] 0 bs

/-- Does the COLL find tiles for its splits (10 R248, R249)? -/
def collRoom (s : State) (c : Nat) (k : CollTask) (u : Unit_) : Bool := splitRoom s c (splitsNeeded s c k.step u.writes)

/-- What a COLL forms, read in the state that its splits leave (10 R248). -/
def collWork (s : State) (c : Nat) (k : CollTask) (f : State → Unit_) : Unit_ :=
  let u := f s
  if (splitsNeeded s c k.step u.writes).isEmpty then u else f (splitFirst s c k.step u.writes)

/-- The wait of the stalled COLL `task` ends: it counts, but not against its watchdog (10 R249, R252). -/
def collGoes (s : State) (c task : Nat) : State :=
  match assoc? s.vers.stalled (collStall c) with
  | some since =>
    let s := { s with vers := { s.vers with stalled := assocDel s.vers.stalled (collStall c), stallNs := s.vers.stallNs + (s.clk.now - since) } }
    onCtx s c fun x => { x with began := mapWhere x.began (fun b => b.1 = task) (movedOn s.clk.now since) }
  | none => s

/-- A COLL as a piece. -/
def collPiece (c : Nat) (k : CollTask) : Piece := { ctx := c, task := k.pos, unit := 0, step := k.step }

/-- A COLL waits for a reserve tile: counted once (10 R249, R252). -/
def collStalls (s : State) (c : Nat) (k : CollTask) : State :=
  if (assoc? s.vers.stalled (collStall c)).isSome then s else stallPiece s (collStall c) (collPiece c k)

/-- A COLL completes with what it delivered (R318): splits, writes, counts, and the end of the task; one that sent an unreachable flit does
not, and its watchdog runs on (11 R310). -/
def collEnds (s : State) (c : Nat) (k : CollTask) (u : Unit_) : State :=
  match taskAt s c k.pos with
  | none => s
  | some t =>
    if (ctxAt s c).cut.contains k.pos then s else
    let pc := collPiece c k
    let marked := markedRead s pc t
    let s := waitedOver s pc
    let w : Work := { units := [u] }
    let split := splitOuts s k.pos c k.step u.writes (splitsNeeded s c k.step u.writes)
    let s1 := putAll s c k.step u.writes
    let resv := newResv (ctxAt s c) pc w
    let s := { s1 with num := countWork s1.num w resv.length split, place := { s1.place with traffic := countTraffic s1 pc t u.writes } }
    let s := onCtx s c fun x => { x with resv := x.resv ++ resv }
    marked <| runEnds { s with coll := { s.coll with chunks := s.coll.chunks.filter fun x => !(x.ctx = c && fld x.key 75 54 = collOrdinal (progAt s c) k.pos) } } t
      { runOf_ s t pc w split with units := [] }

/-! ### Counts of the wire (R324, R340) -/

/-- Additions of the module's reduction units in a reduce (R319): all but those of the member that starts the ring. -/
def additions (g : Group) (n own : Nat) : Nat :=
  ((ringStreams g).map fun (j, a, o, plus) =>
    if ringSteps (lenOn g a) o (indexOf g own a) plus = 1 then 0 else (ringElems g n own j a o plus).length).sum

/-- Elements added by chunks of the COLL that have landed already. -/
def landedAdds (s : State) (c ord width : Nat) : Nat :=
  ((s.coll.chunks.filter fun x => x.ctx = c && fld x.key 75 54 = ord && x.full && fld x.key 51 50 = 0).map fun x =>
    (x.bytes.map fun b => b.2.length).sum / width).sum

/-- Adds to the counts of 0x3400.22 and .23. -/
def countColl (s : State) (bytes adds : Nat) : State :=
  { s with coll := { s.coll with sentB := s.coll.sentB + bytes, reduced := s.coll.reduced + adds } }

/-- Sends the flits of a COLL, each on its way with its landing header (R324), and counts their 256 wire bytes each (R340). -/
def sendFlits (s : State) (c : Nat) (k : CollTask) (fs : List CollFlit) : State :=
  countColl (fs.foldl (fun s f => sendLand s c (collOrdinal (progAt s c) k.pos) k.step k.group f) s) (256 * fs.length) 0

/-! ### ALL_REDUCE and REDUCE_SCATTER -/

/-- Member `m`'s value of element `e`: its own from SRC, another's from the operand (R319). -/
def memberValue (r : Rd) (src : OpSlot) (own : Nat) (members : List (List Nat)) (e m : Nat) : Acc :=
  if m = own then rdElem r src e else operandAcc ((members.getD m []).getD e 0)

/-- Have all members issued their part: a value list of every rank? -/
def allThere {α : Type} (g : Group) (members : List α) : Bool := members.length = groupSize g

/-- The reduced value of element `e` (R319). -/
def reducedValue (r : Rd) (k : CollTask) (own n e : Nat) (members : List (List Nat)) : Acc :=
  reducedAt k.group k.redop (e / shardLen n (groupSize k.group)) (plusRing e) (memberValue r k.src own members e)

/-- A value of SRC on the wire: 6 bytes, or for a maximum SRC's own encoding, which is exact (R321). -/
def wireValue (r : Rd) (k : CollTask) (v : Acc) : List Byte :=
  let e := tensorAt (rdProg r) k.src.tensor
  let x := accScale v (scaleOf r.s r.ctx k.src.tensor r.step)
  if k.redop ≠ 1 then toBytes 6 (accWord v)
  else if e.format = fmtFP16 then toBytes 2 (encFP16 false true 0 x).1 else toBytes 4 (encFP32 false true 0 x).1

/-- The own shard of an ALL_REDUCE or REDUCE_SCATTER as it is delivered from element `base` on (R319). -/
def ownShard (s : State) (c : Nat) (k : CollTask) (members : List (List Nat)) (base : Nat) : List Wr × Events × Nat :=
  let r := collRd s c k
  let n := elems (tensorAt (progAt s c) k.src.tensor)
  let own := ownRank s k.group
  deliverRuns r k.dst ((shardOf n (groupSize k.group) own).map fun e => (e - base, reducedValue r k own n e members))

/-- Each rank's shard of an image in its place, unchanged, but for the module's own. -/
def shardWrites (e : Tensor) (dst : Nat) (g : Group) (own : Nat) (image : Nat → List Byte) : List Wr :=
  let n := elems e
  let len := shardLen n (groupSize g)
  ((upto (groupSize g)).filter (· ≠ own)).flatMap fun m => planeWrites e dst n (m * len) (imageOf (image m)) len (shardOf n (groupSize g) m).length

/-- What an ALL_REDUCE delivers (R320): the own shard as this module rounds it, with its events and maximum, and every other shard as its
owner rounded it: `shards` are the ranks' delivered shards. -/
def allReduceUnit (s : State) (c : Nat) (k : CollTask) (members : List (List Nat)) (shards : List (List Byte)) : Unit_ :=
  let n := elems (tensorAt (progAt s c) k.src.tensor)
  let d := ownShard s c k members 0
  collUnit k.dst (d.1 ++ shardWrites (tensorAt (progAt s c) k.dst) k.dst k.group (ownRank s k.group) fun m => shards.getD m []) d.2.1 d.2.2
    (resvOf (collRd s c k) k.src (upto n))

/-- What a REDUCE_SCATTER delivers: the own shard, numbered from 0. -/
def reduceScatterUnit (s : State) (c : Nat) (k : CollTask) (members : List (List Nat)) : Unit_ :=
  let n := elems (tensorAt (progAt s c) k.src.tensor)
  let d := ownShard s c k members (ownRank s k.group * shardLen n (groupSize k.group))
  collUnit k.dst d.1 d.2.1 d.2.2 (resvOf (collRd s c k) k.src (upto n))

/-- The flits of the reduce (R319). -/
def reduceSends (s : State) (c : Nat) (k : CollTask) (members : List (List Nat)) : List CollFlit :=
  let r := collRd s c k
  let own := ownRank s k.group
  reduceFlits k.group (elems (tensorAt (progAt s c) k.src.tensor)) own k.redop (wireValue r k) fun e m => memberValue r k.src own members e m

/-- The flits of a gather of what a COLL writes (R320). -/
def gatherSends (s : State) (c : Nat) (k : CollTask) (u : Unit_) : List CollFlit :=
  gatherFlits k.group (ownRank s k.group) (tensorAt (progAt s c) k.dst) (u.writes.foldl (fun m w => memPut m w.off w.bytes) [])

/-- The additions that landed chunks of a reduce have not made (R325, R340). -/
def addsLeft (s : State) (c : Nat) (k : CollTask) : Nat :=
  let e := tensorAt (progAt s c) k.src.tensor
  additions k.group (elems e) (ownRank s k.group) - landedAdds s c (collOrdinal (progAt s c) k.pos) (wireWidth k.redop e.format)

/-- A COLL that runs: its flits, its additions, and its end; without room for its splits it waits (10 R249). -/
def collRuns (s : State) (c : Nat) (k : CollTask) (u : Unit_) (fs : List CollFlit) (adds : Nat) : State :=
  let s := noteWait s c
  if collRoom s c k u then collEnds (countColl (sendFlits (collGoes s c k.pos) c k fs) 0 adds) c k u else collStalls s c k

/-- ALL_REDUCE (R320). -/
def execAllReduce (ctx : Fin 16) (others : OtherRanks) (s : State) : Out :=
  match collReady s ctx.val 0 with
  | none => .next s
  | some k =>
    if allThere k.group others.members && allThere k.group others.shards then
      let u := collWork s ctx.val k fun s => allReduceUnit s ctx.val k others.members others.shards
      .next (collRuns s ctx.val k u (reduceSends s ctx.val k others.members ++ gatherSends s ctx.val k u) (addsLeft s ctx.val k))
    else .next s

/-- REDUCE_SCATTER (R319). -/
def execReduceScatter (ctx : Fin 16) (members : List (List Nat)) (s : State) : Out :=
  match collReady s ctx.val 1 with
  | none => .next s
  | some k =>
    if allThere k.group members then
      let u := collWork s ctx.val k fun s => reduceScatterUnit s ctx.val k members
      .next (collRuns s ctx.val k u (reduceSends s ctx.val k members) (addsLeft s ctx.val k))
    else .next s

/-! ### ALL_GATHER, SEND, RECV (R320) -/

/-- A tensor's stored image through a slot; a frozen gradient reads +0 (05 R138). -/
def storedImage (s : State) (c : Nat) (k : CollTask) : List Byte :=
  let e := tensorAt (progAt s c) k.src.tensor
  if frozenGrad (progAt s c) k.src.tensor then List.replicate (tensorBytes e) 0 else rdImage (collRd s c k) k.src.vsel k.src.tensor (tensorBytes e)

/-- What an ALL_GATHER writes: each rank's shard in its place, unchanged. -/
def gatherUnit (s : State) (c : Nat) (k : CollTask) (members : List (List Byte)) : Unit_ :=
  let e := tensorAt (progAt s c) k.dst
  let n := elems e
  let g := groupSize k.group
  let own := ownRank s k.group
  let mine := planeWrites e k.dst n (own * shardLen n g) (imageOf (storedImage s c k)) (shardLen n g) (shardOf n g own).length
  { unit := 0, writes := mine ++ shardWrites e k.dst k.group own fun m => members.getD m [] }

/-- ALL_GATHER (R320). -/
def execAllGather (ctx : Fin 16) (members : List (List Byte)) (s : State) : Out :=
  match collReady s ctx.val 2 with
  | none => .next s
  | some k =>
    if allThere k.group members then
      let u := collWork s ctx.val k fun s => gatherUnit s ctx.val k members
      .next (collRuns s ctx.val k u (gatherSends s ctx.val k u) 0)
    else .next s

/-- The flits of a SEND: the stored image, point to point (R317, R324). -/
def sendSends (s : State) (c : Nat) (k : CollTask) : List CollFlit := streamFlits 3 2 1 k.peer id (storedImage s c k)

/-- SEND (R317): the tensor streams to the receiving rank, and the task completes. -/
def execSend (ctx : Fin 16) (s : State) : Out :=
  match collReady s ctx.val 3 with
  | none => .next s
  | some k => .next (collRuns s ctx.val k { unit := 0 } (sendSends s ctx.val k) 0)

/-- The bytes a RECV writes: what came, and free bytes where the sender's element count or format differs (R317, R5; log 4). -/
def recvBytes (s : State) (n : Nat) (data : List Byte) : List Byte :=
  if data.length = n then data else (upto n).map fun i => Config.freeByte s.free i

/-- RECV (R317). -/
def execRecv (ctx : Fin 16) (data : List Byte) (s : State) : Out :=
  match collReady s ctx.val 4 with
  | none => .next s
  | some k =>
    let n := tensorBytes (tensorAt (progAt s ctx.val) k.dst)
    let u : Unit_ := { unit := 0, writes := [⟨k.dst, 0, recvBytes s n data⟩] }
    .next (collRuns (drawn s) ctx.val k u [] 0)

/-! ### BARRIER (R328) -/

/-- The word a BARRIER contributes: the first four bytes of SRC. -/
def barrierWord (s : State) (c : Nat) (k : CollTask) : BitVec 32 := BitVec.ofNat 32 (ofBytes ((storedImage s c k).take 4))

/-- What a BARRIER writes: the combined word. -/
def barrierWrite (k : CollTask) (w : BitVec 32) : List Wr := [⟨k.dst, 0, toBytes 4 w.toNat⟩]

/-- The splits that a BARRIER needs before it issues (10 R248). -/
def barrierSplits (s : State) (c : Nat) (k : CollTask) : List (Nat × Nat) := splitsNeeded s c k.step (barrierWrite k 0)

/-- A BARRIER issues: its splits are made and their events counted with it (10 R248, R249). -/
def barrierOpens (s : State) (c : Nat) (k : CollTask) : State :=
  let ts := barrierSplits s c k
  match taskAt s c k.pos with
  | none => s
  | some _ =>
    if ts.isEmpty then s
    else
      let split := splitOuts s k.pos c k.step (barrierWrite k 0) ts
      let s := doSplits s c k.step (barrierWrite k 0) ts
      let s := onStep s k.step fun o => { o with stats := split.foldl addSplit o.stats }
      { s with num := countWork s.num {} 0 split }

/-- A BARRIER ends with the combined word in DST. -/
def barrierEnds (s : State) (c : Nat) (k : CollTask) (w : BitVec 32) : State := collEnds s c k { unit := 0, writes := barrierWrite k w }

/-- The BARRIER task that a channel's contribution belongs to, while its step stands. -/
def barrierOf (s : State) (c : Chan) : Option CollTask :=
  match c.task with
  | none => none
  | some pos =>
    match taskAt s c.ctx pos with
    | some { body := .coll 5 redop gi src dst peer, .. } =>
      if (ctxAt s c.ctx).left.any fun l => l.1 = pos then
        some { pos := pos, step := (ctxAt s c.ctx).step, kind := 5, redop := redop, group := (progAt s c.ctx).groups.getD gi default, src := src,
               dst := dst, peer := peer }
      else none
    | _ => none

/-- A program channel's combined word, once the last phase is complete: its BARRIER ends, unless checks read its DST still, whose end the
command BARRIER waits for (08 R203, 10 R257); the next generation opens, and an unbound module
answers frames it holds for it (R329, R332). -/
def finishProgram (s : State) (k : Nat) : State :=
  match chanWordOf s k with
  | none => s
  | some w =>
    let c := chanAt s k
    match barrierOf s c with
    | some t =>
      if collHeld s c.ctx then onCtx s c.ctx fun x => { x with collWait := x.collWait.orElse fun _ => some s.clk.now }
      else chanIdle (chanClose (barrierEnds (noteWait s c.ctx) c.ctx t w) k w.toNat) k
    | none => chanIdle (chanClose s k w.toNat) k

/-- BARRIER (R328): the word goes into the channel, once the previous instance is complete here (R329). -/
def execBarrier (ctx : Fin 16) (s : State) : Out :=
  match collReady s ctx.val 5 with
  | none => .next s
  | some k =>
    let ch := k.group.channel
    if (chanAt s ch).own.isNone then
      if splitRoom s ctx.val (barrierSplits s ctx.val k) then
        let w := barrierWord s ctx.val k
        let s := barrierOpens (collGoes s ctx.val k.pos) ctx.val k
        let s := onChan s ch fun c => { c with task := some k.pos }
        .next (finishProgram (chanOwn s ch (chanAt s ch).gen k.group.bop ctx.val w) ch)
      else .next (collStalls s ctx.val k)
    else if (chanAt s ch).task = some k.pos && (chanAt s ch).ctx = ctx.val then .next (finishProgram s ch)
    else .next s

/-! ### SIGNAL (R337) -/

/-- The flit of a SIGNAL: point to point, one byte of data (R324; log 28). -/
def signalFlit (k : CollTask) : CollFlit := ⟨3, 2, 1, 0, 0, k.peer, [0]⟩

/-- SIGNAL: signals the NOTIFY object of the receiving rank; its acknowledgement is part of it (log 28). -/
def execSignal (ctx : Fin 16) (s : State) : Out :=
  match collReady s ctx.val 6 with
  | none => .next s
  | some k =>
    match taskAt s ctx.val k.pos with
    | some { body := .coll _ _ gi _ _ peer, .. } =>
      .next (collEnds (emit (sendFlits s ctx.val k [signalFlit k]) (.signal ctx.val gi peer k.step)) ctx.val k { unit := 0 })
    | _ => .next s

/-- SIGNAL_ARRIVAL (R337): INC 1 on the receiving entry's NOTIFY with the sender's step; a stale ATTEMPT is dropped. -/
def execSignalArrival (ctx : Fin 16) (group step : Nat) (attempt : BitVec 4) (s : State) : Out :=
  if attempt.toNat ≠ s.steps.attempt % 16 then .next { s with coll := { s.coll with stale := s.coll.stale + 1 } }
  else match (progAt s ctx.val).groups[group]?.bind (·.notifyObj) with
    | some o => .next (applySig { s with coll := { s.coll with signals := s.coll.signals + 1 } } o step 1)
    | none => .next s

/-! ### Landing zones (R324 to R326) -/

/-- The COLL of a context that a landing header names: at the link blocks, in its step, of the header's ordinal (R324). -/
def landColl (s : State) (c h : Nat) : Option Nat :=
  if fld h 95 80 ≠ (ctxAt s c).step % 65536 then none
  else ((ctxAt s c).left.find? fun l => (taskAt s c l.1).any isColl && collOrdinal (progAt s c) l.1 = fld h 75 54).map (·.1)

/-- The open step that a landing header names (R324). -/
def landStep (s : State) (h : Nat) : Option OpenStep :=
  (s.steps.older.toList ++ s.steps.younger.toList).find? fun o => o.step % 65536 = fld h 95 80

/-- The scale exchange of an open step that a landing header names (R323; log 28). -/
def landExchange (s : State) (c h : Nat) : Option (Nat × Exch) :=
  (landStep s h).bind fun o =>
    (o.amaxes.find? fun m => m.ctx = c && exchOrdinal (progAt s c) m.tensor = fld h 75 54).map fun m => (o.step, m)

/-- Do the header's attempt and stage stand (R326)? -/
def landNow (s : State) (h : Nat) : Bool := fld h 79 76 = s.steps.attempt % 16 && fld h 51 50 ≠ 3

/-- Bytes of the stream that a landing header belongs to, where the task receives such a stream: 0 where it does not (R324). -/
def landBytes (s : State) (c task h : Nat) : Nat :=
  let p := progAt s c
  match taskAt s c task with
  | some { body := .coll kind redop gi src dst _, .. } =>
    let g := p.groups.getD gi default
    let plus := decide (fld h 44 16 % 2 = 0)
    let n := elems (tensorAt p (if kind = 2 then dst else src.tensor))
    let ring := ringBytes g n (ownRank s g) redop (tensorAt p src.tensor) (tensorAt p dst) (fld h 53 52) (fld h 51 50) (fld h 49 45) plus
    match kind with
    | 0 => if fld h 51 50 = 2 then 0 else ring
    | 1 => if fld h 51 50 = 0 then ring else 0
    | 2 => if fld h 51 50 = 1 then ring else 0
    | 4 => if fld h 51 50 = 2 && fld h 53 52 = 3 && fld h 49 45 = 1 then tensorBytes (tensorAt p dst) else 0
    | _ => 0
  | _ => 0

/-- The flits of the chunk that a landing header names; the receiver grants a buffer for a chunk that its task is to receive (R325). -/
def landFlits (s : State) (c task h : Nat) : Nat :=
  let k := if fld h 51 50 = 2 then fld h 44 16 else fld h 44 16 / 2
  min 256 ((landBytes s c task h + 227) / 228 - 256 * k)

/-- Grants that the store of a partition keeps back for its other in-service links: four for each, less those that it has (R325). -/
def grantsKept (s : State) (part link : Nat) : Nat :=
  (((upto 6).map (· + 6 * part)).map fun l =>
    if l ≠ link && inService (linkAt s l) then 4 - (s.coll.chunks.filter fun k => k.part = part && k.link = l).length else 0).sum

/-- Is there a buffer for a chunk in the link store of a partition: one of 176 that no other link's grants need, or the one that holds its
key already (R325)? -/
def chunkRoom (s : State) (part link c key : Nat) : Bool :=
  (s.coll.chunks.any fun k => k.part = part && k.ctx = c && k.key = key) ||
    decide ((s.coll.chunks.filter fun k => k.part = part).length + grantsKept s part link < 176)

/-- A chunk buffer of `count` flits after one has landed: full when its map is (R325). -/
def landed (k : Chunk) (count flit : Nat) (data : List Byte) : Chunk :=
  let map := k.map ++ [flit]
  { k with map := map, bytes := k.bytes ++ [(flit, data)], full := (upto count).all fun i => map.contains i }

/-- A reduction unit adds a chunk once, when its map is full (R325, R340); what it sends on goes out with the COLL (R319). -/
def chunkReduced (s : State) (c task : Nat) (k : Chunk) : State :=
  if k.full && fld k.key 51 50 = 0 then
    match taskAt s c task with
    | some { body := .coll _ redop _ src _ _, .. } =>
      countColl s 0 ((k.bytes.map fun b => b.2.length).sum / wireWidth redop (tensorAt (progAt s c) src.tensor).format)
    | _ => s
  else s

/-- Is a gather flit of an exchange one that this member takes (R320): its index on an axis before which its indices are 0? -/
def exchBack (s : State) (g : Group) (h : Nat) : Option (List Nat) :=
  let a := fld h 53 52
  let before := (phases g).takeWhile (· ≠ a)
  if fld h 51 50 = 1 && (phases g).contains a && (before.all fun b => ownIndex s g b = 0) && fld h 49 45 = ownIndex s g a && fld h 49 45 ≠ 0 then some before
  else none

/-- The tensor of an open step whose scale exchange has not begun here and that a landing header names (R323; log 28). -/
def landAhead (s : State) (c h : Nat) : Option (Nat × Nat) :=
  (landStep s h).bind fun o =>
    let p := progAt s c
    let t := fld h 75 54 - exchOrdinal p 0
    let e := tensorAt p t
    if exchOrdinal p 0 ≤ fld h 75 54 && t < p.tensors.length && e.policy ≥ 2 && e.scopeGroup && exchFrom s (scaleGroup p e) 0 h &&
      !o.exchDone.contains (c, t) then some (o.step, t) else none

/-- A reduce flit that comes before its phase waits; a second one of its key is a duplicate (R325; log 194). -/
def exchHolds (s : State) (c n t : Nat) (v : BitVec 32) (h : Nat) : State :=
  if (openAt s n).any fun o => o.exchEarly.any fun x => x.1 = c && x.2.1 = t && landKey x.2.2.2 = landKey h then
    { s with coll := { s.coll with dup := s.coll.dup + 1 } }
  else onStep s n fun o => { o with exchEarly := o.exchEarly ++ [(c, t, v, h)] }

/-- A flit of a scale exchange lands (R323): a reduce flit is merged and sent on, or opens the next phase at its owner; a gather flit
brings the result, which is sent on. -/
def exchangeLands (s : State) (c n : Nat) (e : Exch) (v : BitVec 32) (h : Nat) : State :=
  let g := scaleGroup (progAt s c) (tensorAt (progAt s c) e.tensor)
  let a := fld h 53 52
  let hop := fld h 49 45
  if e.keys.contains (landKey h) then { s with coll := { s.coll with dup := s.coll.dup + 1 } }
  else if exchDue s g e h then progress (exchTake (exchMerge s c n e v h) c e.tensor n 4) n
  else if exchFrom s g (e.phase + 1) h then exchHolds s c n e.tensor v h
  else match exchBack s g h with
    | some before =>
      let s := if hop + 1 < lenOn g a then exchSend s c e.tensor n a 1 (hop + 1) v else s
      progress (exchEnd (exchSpread s c e.tensor n v before) c e.tensor n v) n
    | none => { s with coll := { s.coll with stale := s.coll.stale + 1 } }

/-- A collective data flit reaches its module (R325): it lands into a buffer granted for its key, or is dropped as stale or duplicate. -/
def landFlit (s : State) (link part c : Nat) (payload : List Byte) : State :=
  let h := landHdr payload
  let key := landKey h
  let flit := fld h 15 8
  let data := (payload.drop 12).take (fld h 7 0)
  let stale := { s with coll := { s.coll with stale := s.coll.stale + 1 } }
  if !landNow s h then stale
  else match landExchange s c h, landColl s c h with
    | some (n, e), _ => exchangeLands s c n e (BitVec.ofNat 32 (ofBytes (data.take 4))) h
    | none, none =>
      match landAhead s c h with
      | some (n, t) => exchHolds s c n t (BitVec.ofNat 32 (ofBytes (data.take 4))) h
      | none => stale
    | none, some task =>
      if flit ≥ landFlits s c task h || !chunkRoom s part link c key then stale
      else
        let mine (k : Chunk) : Bool := k.part = part && k.ctx = c && k.key = key
        let k := (s.coll.chunks.find? mine).getD { part := part, link := link, ctx := c, key := key }
        if k.map.contains flit then { s with coll := { s.coll with dup := s.coll.dup + 1 } }
        else
          let k := landed k (landFlits s c task h) flit data
          chunkReduced { s with coll := { s.coll with chunks := s.coll.chunks.filter (fun x => !mine x) ++ [k] } } c task k

end Sys2Proof.Machine
end

