-- ==== Sys2Proof/Machine/Loader.lean ====
section
/-! DEFINITION. The program image: its header, sections, tensor table, group table and task list, and the loader's checks of each
(07 R167 to R178, R196 steps 1 to 6, R198; 12 R314 to R316). -/

namespace Sys2Proof.Machine

/-! ### Pieces of the image -/

/-- `n` bytes of an image as a number. -/
def imgNat (img : List Byte) (off n : Nat) : Nat := ofBytes ((img.drop off).take n)

/-- The 1,024 header bits (R168). -/
def imgHeader (img : List Byte) : Nat := imgNat img 0 128

def hdContext (h : Nat) : Nat := fld h 975 972
def hdNtensor (h : Nat) : Nat := fld h 831 811
def hdNtask (h : Nat) : Nat := fld h 810 788
def hdNgroup (h : Nat) : Nat := fld h 787 779
def hdOffTensor (h : Nat) : Nat := fld h 767 736
def hdOffGroup (h : Nat) : Nat := fld h 735 704
def hdOffTask (h : Nat) : Nat := fld h 703 672
def hdOffData (h : Nat) : Nat := fld h 671 640
def hdLenData (h : Nat) : Nat := fld h 639 608
def hdImageLen (h : Nat) : Nat := fld h 607 576
def hdDigest (h : Nat) : Digest := BitVec.ofNat 256 (fld h 511 256)

/-- The words of a table: `k` entries of `n` bytes. -/
def tableWords (img : List Byte) (off n k : Nat) : List Nat := (upto k).map fun i => imgNat img (off + n * i) n

/-- A tensor-table entry (R170). -/
def parseTensor (w : Nat) : Tensor where
  format := fld w 511 508
  persist := fld w 507 505
  dims := (upto (fld w 504 503 + 1)).map fun i => fld w (450 - 20 * i) (431 - 20 * i) + 1
  sr := w.testBit 502
  keep := w.testBit 501
  frozen := w.testBit 500
  gradValid := w.testBit 499
  policy := fld w 498 497
  scopeGroup := w.testBit 496
  group := fld w 495 488
  sInit := signed 7 (fld w 487 481)
  histLen := fld w 480 475
  margin := fld w 474 471
  gradLink := fld w 470 451
  hint := BitVec.ofNat 16 (fld w 370 355)
  dataOff := fld w 354 323

/-- A group-table entry (12 R314). -/
def parseGroup (w : Nat) : Group where
  barrier := decide (fld w 255 252 = 2)
  order := fld w 251 249
  len := [fld w 248 244 + 1, fld w 238 234 + 1, fld w 228 224 + 1]
  stride := [fld w 243 239 + 1, fld w 233 229 + 1, fld w 223 219 + 1]
  notifyObj := if w.testBit 206 then some (fld w 218 207) else none
  channel := fld w 205 200
  bop := fld w 199 198

/-- A 23-bit operand slot from its lowest bit (R176). -/
def slotFld (w lo : Nat) : OpSlot := ⟨fld w (lo + 22) (lo + 20), fld w (lo + 19) lo⟩

/-- A 32-bit field. -/
def wordFld (w lo : Nat) : BitVec 32 := BitVec.ofNat 32 (fld w (lo + 31) lo)

/-- A matrix body (R177). -/
def parseMat (k : MatKind) (w : Nat) : Body :=
  .mat k (slotFld w 425) (slotFld w 402) (fld w 401 382) (slotFld w 359) (fld w 358 355) (w.testBit 354) (fld w 353 352) (w.testBit 351)
    (w.testBit 350) (w.testBit 349)

/-- An attention body (R177). -/
def parseAtt (bwd : Bool) (w : Nat) : Body :=
  .att bwd (slotFld w 425) (slotFld w 402) (slotFld w 379) (slotFld w 356) (slotFld w 333) (slotFld w 310) (fld w 309 290) (fld w 289 270)
    (fld w 269 250) (fld w 249 246) (w.testBit 245) (fld w 244 243) (w.testBit 242) (fld w 241 210) (fld w 209 178) (wordFld w 146)

/-- The body of a descriptor by opcode (R177, R178); none for a reserved code. -/
def parseBody (w : Nat) : Option Body :=
  match fld w 511 504 with
  | 0x10 => some (parseMat .mm w)
  | 0x11 => some (parseMat .mmTa w)
  | 0x12 => some (parseMat .mmTb w)
  | 0x13 => some (parseMat .mmAcc w)
  | 0x18 => some (parseAtt false w)
  | 0x19 => some (parseAtt true w)
  | 0x20 => some (.ew (slotFld w 425) (slotFld w 402) (fld w 401 382) (fld w 381 376) (fld w 375 374) (wordFld w 342) (wordFld w 310) (wordFld w 278)
      (slotFld w 255))
  | 0x21 => some (.red (slotFld w 425) (fld w 424 405) (fld w 404 403) (w.testBit 402))
  | 0x22 => some (.norm (slotFld w 425) (slotFld w 402) (slotFld w 379) (slotFld w 356) (slotFld w 333) (fld w 332 313) (fld w 312 293) (fld w 292 273)
      (fld w 272 269) (wordFld w 237))
  | 0x23 => some (.smax (slotFld w 425) (slotFld w 402) (fld w 332 313) (decide (fld w 272 269 = 1)) (wordFld w 237) (w.testBit 236) (fld w 235 204)
      (fld w 203 172))
  | 0x24 => some (.opt (fld w 447 444) (slotFld w 421) (slotFld w 398) (slotFld w 375) (slotFld w 352) (slotFld w 329) (fld w 328 309) (fld w 308 269)
      (fld w 268 229))
  | 0x28 => some (.conv (slotFld w 425) (fld w 424 405))
  | 0x29 => some (.amax (slotFld w 425) (fld w 424 405))
  | 0x31 => some (.copy (slotFld w 425) (fld w 424 405))
  | 0x30 => some (.coll (fld w 447 444) (fld w 443 442) (fld w 441 434) (slotFld w 411) (fld w 410 391) (fld w 390 375))
  | 0x38 => some (.sig (fld w 447 435) (fld w 434 427) (BitVec.ofNat 16 (fld w 426 411)))
  | 0x39 => some (.wait (fld w 447 435) (fld w 434 403))
  | _ => none

/-- A descriptor (R175). -/
def parseTask (w : Nat) : Option Task := (parseBody w).map fun b =>
  { opcode := fld w 511 504, cgroup := fld w 503 500, halt := w.testBit 499, bunit := fld w 495 494, bound := fld w 493 470, body := b }

/-! ### Header and sections (R196 steps 1 to 3) -/

/-- Is a load into context 15 a diagnosis-replay load (10 R273)? -/
def diagAllowed (s : State) (h : Nat) : Bool :=
  decide (s.dev.state = .test) && allEmpty s && decide (s.fetch.digest = some (hdDigest h))

/-- The header checks, in R196's order: the reason, 0 where all pass. -/
def headerReason (s : State) (ctx length h : Nat) : Nat := firstReason [
  (decide (fld h 1023 992 ≠ 0x5053444E) || decide (fld h 991 976 ≠ 1), 0x01),
  (decide (fld h 971 960 ≠ 0) || decide (fld h 778 768 ≠ 0) || decide (fld h 575 512 ≠ 0) || decide (fld h 255 0 ≠ 0), 0x05),
  (decide (hdImageLen h ≠ length) || decide (hdContext h ≠ ctx), 0x03),
  (decide (ctx = 15) && !diagAllowed s h, 0x04),
  (decide (hdNtensor h = 0) || decide (hdNtensor h > 1048576) || decide (hdNtask h = 0) || decide (hdNtask h > 4194304) || decide (hdNgroup h > 256) ||
    decide (hdImageLen h > 536870912), 0x03)]

/-- The digest of an image with its DIGEST field read as zero (R168). -/
def imageDigest (img : List Byte) : Digest := shake256 (img.take 32 ++ List.replicate 32 0 ++ img.drop 64)

/-- The sections in R196's order: start and length. -/
def sections (h : Nat) : List (Nat × Nat) :=
  [(hdOffTensor h, 64 * hdNtensor h), (hdOffGroup h, 32 * hdNgroup h), (hdOffTask h, 64 * hdNtask h), (hdOffData h, hdLenData h)]

/-- Do two byte ranges overlap? -/
def overlap (a b : Nat × Nat) : Bool := decide (0 < a.2) && decide (0 < b.2) && decide (a.1 < b.1 + b.2) && decide (b.1 < a.1 + a.2)

/-- Does some pair of a list satisfy a relation? -/
def anyPair {α : Type} (f : α → α → Bool) : List α → Bool
  | [] => false
  | a :: r => r.any (f a) || anyPair f r

/-- Section bounds (R196 step 3). The header is a range of its own. -/
def sectionsBad (h : Nat) : Bool :=
  ((sections h).any fun x => decide (x.1 % 64 ≠ 0) || decide (x.1 + x.2 > hdImageLen h)) || anyPair overlap ((0, 128) :: sections h)

/-! ### Tensor table (R196 step 4) -/

/-- PART and SPREAD of a HINT (R205). -/
def hintPart (x : BitVec 16) : Nat := fld x.toNat 11 8
def hintSpread (x : BitVec 16) : Bool := x.getLsbD 7

/-- A reserved hint (08 R205). -/
def hintBad (x : BitVec 16) : Bool :=
  decide (hintClass x > 4) || decide (hintPart x > 8) || (hintSpread x && decide (hintPart x ≠ 0)) || decide (fld x.toNat 3 0 ≠ 0)

/-- Does a format break its policy's column (03 R68)? -/
def policyBad (policy fmt : Nat) : Bool :=
  match policy with
  | 0 => false
  | 1 => decide (fmt ≠ fmtFP16) && decide (fmt ≠ fmtFP32)
  | _ => decide (fmt ≠ fmtFP16)

/-- Byte range of an INPUT tensor in its slot (R193). -/
def inputRange (t : Tensor) : Nat × Nat := (256 * t.dataOff, tensorBytes t)

/-- Does an INPUT tensor break the batch layout against a slot size and count (R193, R493)? `before` are the ones before it. -/
def inputBad (size count : Nat) (before : List Tensor) (t : Tensor) : Bool :=
  decide (t.dataOff = 0) || decide ((inputRange t).1 + (inputRange t).2 > size) || decide (count = 0) || decide (size = 0) ||
    before.any fun x => decide (x.persist = clsInput) && overlap (inputRange x) (inputRange t)

/-- The reason a tensor entry is rejected, 0 for none. DESIGN CHOICE, log 200: KEEP on a format other than FP16 or FP32 is no fault and has no
effect. -/
def tensorReason (h size count : Nat) (before : List Tensor) (w : Nat) : Nat :=
  let t := parseTensor w
  firstReason [
    (decide (fld w 322 0 ≠ 0) || decide (t.format > 4) || decide (t.persist > 4), 0x05),
    ((upto 4).any fun i => decide (i ≥ t.dims.length) && decide (fld w (450 - 20 * i) (431 - 20 * i) ≠ 0), 0x05),
    (hintBad t.hint || (!t.scopeGroup && decide (t.group ≠ 0)), 0x05),
    (decide (elems t > 2 ^ 40), 0x08),
    (policyBad t.policy t.format, 0x0A),
    (decide (t.histLen > 32) || (decide (8 < t.margin) && decide (t.margin < 15)), 0x0B),
    (t.scopeGroup && decide (t.group ≥ hdNgroup h), 0x1F),
    (t.frozen && !(decide (t.persist = clsPersistent) && (decide (t.format = fmtFP16) || decide (t.format = fmtMW16)) && t.gradValid), 0x1C),
    (t.gradValid && decide (t.gradLink ≥ hdNtensor h), 0x06),
    (decide (t.persist = clsConst) && decide (256 * t.dataOff + tensorBytes t > hdLenData h), 0x01),
    (decide (t.persist = clsInput) && inputBad size count before t, 0x20),
    (decide (t.persist = clsResult) && (decide (t.dataOff = 0) || decide (t.dataOff > 64)), 0x05),
    (decide (t.persist = clsResult) && decide (tensorBytes t > 8), 0x07),
    ((decide (t.persist = clsTransient) || decide (t.persist = clsPersistent)) && decide (t.dataOff ≠ 0), 0x05)]

/-- The first rejected word of a table with its reason and position. -/
def firstBad (f : Nat → Nat) : Nat → List Nat → Option (Nat × Nat)
  | _, [] => none
  | i, w :: r => if f w ≠ 0 then some (f w, i) else firstBad f (i + 1) r

/-- The first rejected tensor. -/
def badTensor (h size count : Nat) : List Tensor → Nat → List Nat → Option (Nat × Nat)
  | _, _, [] => none
  | before, i, w :: r =>
    if tensorReason h size count before w ≠ 0 then some (tensorReason h size count before w, i)
    else badTensor h size count (before ++ [parseTensor w]) (i + 1) r

/-! ### Group table (R196 step 5) -/

/-- The reason a group entry is rejected (12 R314, R315): judged by the block that is latched. -/
def groupReason (s : State) (w : Nat) : Nat :=
  let g := parseGroup w
  let ty := fld w 255 252
  firstReason [
    (decide (ty ≠ 1) && decide (ty ≠ 2), 0x05),
    (decide (fld w 197 0 ≠ 0), 0x05),
    (decide (ty = 1) && (decide (g.order > 5) || decide (g.channel ≠ 0) || decide (g.bop ≠ 0)), 0x05),
    (decide (ty = 2) && (decide (fld w 251 206 ≠ 0) || decide (g.channel < 2)), 0x05),
    (decide (ty = 1) && (upto 3).any fun a => decide (logExtent s a % (g.len.getD a 1 * g.stride.getD a 1) ≠ 0), 0x07)]

/-! ### Task list (R196 step 6): what a descriptor may hold -/

/-- A mask with the bits of some fields (high, low) set. -/
def fieldMask (fs : List (Nat × Nat)) : Nat := fs.foldl (fun m f => m ||| ((2 ^ (f.1 + 1 - f.2) - 1) <<< f.2)) 0

/-- The fields that a body uses: what no field names is reserved, and a slot its sub-operation does not use is zero (R177). DESIGN CHOICE, log 199: BETA is a slot of LayerNorm forward (SUB 0) only, since
LayerNorm backward reads no β (06 R151). -/
def bodyFields (b : Body) : List (Nat × Nat) :=
  match b with
  | .mat _ _ _ _ _ deriv _ _ _ _ _ => [(447, 382), (358, 349)] ++ if deriv = 0 then [] else [(381, 359)]
  | .att bwd _ _ _ _ _ _ _ _ _ _ _ _ _ _ _ _ => if bwd then [(447, 146)] else [(447, 333), (249, 146)]
  | .ew _ _ _ sub bkind _ _ _ _ => [(447, 425), (401, 278)] ++ (if bkind < 2 then [(424, 402)] else []) ++ if sub = 19 then [(277, 255)] else []
  | .red _ _ _ _ => [(447, 402)]
  | .norm _ _ _ _ _ _ _ _ sub _ =>
    match sub with
    | 0 => [(447, 356), (332, 313), (272, 237)]
    | 1 => [(447, 402), (378, 356), (332, 313), (272, 237)]
    | 2 => [(447, 402), (378, 237)]
    | _ => [(447, 402), (378, 293), (272, 237)]
  | .smax _ _ _ bwd _ _ _ _ => [(447, 425), (332, 313), (272, 172)] ++ if bwd then [(424, 402)] else []
  | .opt alg _ _ _ _ _ _ _ _ => [(447, 398), (374, 229)] ++ if alg = 0 then [(397, 375)] else []
  | .conv _ _ => [(447, 405)]
  | .amax _ _ => [(447, 405)]
  | .copy _ _ => [(447, 405)]
  | .coll kind _ _ _ _ _ => [(447, 434)] ++ (if kind = 4 || kind = 6 then [] else [(433, 411)]) ++ (if kind = 3 || kind = 6 then [] else [(410, 391)]) ++
      if kind = 3 || kind = 4 || kind = 6 then [(390, 375)] else []
  | .sig _ _ _ => [(447, 411)]
  | .wait _ _ => [(447, 435), (434, 403)]

/-- Codes of a body that its group reserves (R149, R150, R151, R156, R177, 12 R316). -/
def codeBad (w : Nat) (b : Body) : Bool :=
  match b with
  | .mat kind _ _ _ _ deriv _ g wideB ta tb => decide (g = 0) || (decide (g = 1) && wideB) || ((ta || tb) && decide (kind ≠ .mmAcc)) || decide (deriv > 7)
  | .att _ _ _ _ _ _ _ _ _ _ _ _ g wideB _ _ _ => decide (g = 0) || (decide (g = 1) && wideB)
  | .ew _ _ _ sub bkind _ _ _ _ => decide (sub > 19) || (decide (1 ≤ sub ∧ sub ≤ 6) == decide (bkind = 3))
  | .norm _ _ _ _ _ _ _ _ sub _ => decide (sub > 3)
  | .smax _ _ _ _ _ _ _ _ => decide (fld w 272 269 > 1)
  | .opt alg _ _ _ _ _ _ _ count => decide (alg > 2) || decide (count = 0)
  | .coll kind redop _ _ _ _ => decide (kind > 6) || decide (redop > 1) || (decide (kind > 1) && decide (redop ≠ 0))
  | .red _ _ _ _ => false
  | .conv _ _ => false
  | .amax _ _ => false
  | .copy _ _ => false
  | .sig _ _ _ => false
  | .wait _ _ => false

/-- Does a descriptor carry a reserved value (R175 to R177)? -/
def descriptorBad (w : Nat) (t : Task) : Bool :=
  decide (t.bunit = 3) || decide (t.bound = 0) || decide (fld w 498 496 ≠ 0) || decide (fld w 469 448 ≠ 0) || codeBad w t.body ||
    decide ((w % 2 ^ 448) &&& (2 ^ 448 - 1 - fieldMask (bodyFields t.body)) ≠ 0)

/-- 23-bit slots that a body uses as outputs (R176). -/
def outSlots (b : Body) : List OpSlot :=
  match b with
  | .att false _ _ _ o l _ _ _ _ _ _ _ _ _ _ _ => [o, l]
  | .norm _ _ _ stats _ _ _ _ sub _ => if sub < 2 then [stats] else []
  | _ => []

/-- The state slots of an OPT. -/
def optSlots (b : Body) : List OpSlot :=
  match b with
  | .opt alg w m v _ _ _ _ _ => if alg = 0 then [w, m, v] else [w, m]
  | _ => []

/-- Reads with MM_ACC's read of its output (05 R119). -/
def allReads (t : Task) : List OpSlot :=
  match t.body with
  | .mat .mmAcc _ _ c _ _ _ _ _ _ _ => readsOf t ++ [⟨0, c⟩]
  | _ => readsOf t

/-- Tensors a descriptor names besides its operand slots: outputs and AMAX's target. -/
def namedOuts (t : Task) : List Nat :=
  match t.body with
  | .amax _ dst => [dst]
  | _ => outputsOf t

/-- Does the class of a tensor allow a read with a selector (R171)? -/
def readAllowed (p : Program) (o : OpSlot) : Bool :=
  match (tensorAt p o.tensor).persist with
  | 0 => decide (o.vsel = 0)
  | 1 => true
  | 2 => decide (o.vsel ≠ 1)
  | 3 => decide (o.vsel = 0)
  | _ => false

/-- May a task write the tensor (R172)? -/
def writeAllowed (p : Program) (t : Nat) : Bool := (tensorAt p t).persist ≠ clsInput && (tensorAt p t).persist ≠ clsConst

/-! ### Formats and shapes of a task (R174, 02 R64, R65) -/

/-- Is the format FP16 or FP32? -/
def isFloat (f : Nat) : Bool := f = fmtFP16 || f = fmtFP32

/-- Format, elements, columns and rows of tensor `t`. -/
def fmtOf (p : Program) (t : Nat) : Nat := (tensorAt p t).format
def cntOf (p : Program) (t : Nat) : Nat := elems (tensorAt p t)
def colOf (p : Program) (t : Nat) : Nat := colsOf (tensorAt p t)
def rowOf (p : Program) (t : Nat) : Nat := rowsOf (tensorAt p t)

/-- Is the tensor's matrix view `m` × `n`? -/
def viewIs (p : Program) (t m n : Nat) : Bool := rowOf p t = m && colOf p t = n

/-- A vector input and a vector output (R65). -/
def vecIn (p : Program) (t : Nat) : Bool := fmtOf p t ≤ 3
def vecOut (p : Program) (t : Nat) : Bool := isFloat (fmtOf p t)

/-- Is a CP32 output allowed in the context (R64)? -/
def casedOk (c f : Nat) : Bool := f ≠ fmtCP32 || c = 15

/-- Matrix tasks (04 R97 to R100, 05 R128 to R130, R174). -/
def matReason (p : Program) (c : Nat) (kind : MatKind) (a b : OpSlot) (out : Nat) (z : OpSlot) (deriv : Nat) (gated : Bool) (g : Nat) (ta tb : Bool) : Nat :=
  let sh := matShape p kind a b ta tb
  let bK := if kind = .mmTb || (kind = .mmAcc && tb) then colOf p b.tensor else rowOf p b.tensor
  let fa := fmtOf p a.tensor
  let fo := fmtOf p out
  let w := if gated then 2 * sh.n else sh.n
  firstReason [
    (decide (fa ≠ fmtOf p b.tensor) || !isFloat fa || !(isFloat fo || decide (fo = fmtCP32)) || !casedOk c fo, 0x09),
    (decide (fa = fmtFP16) && decide (g ≠ 1), 0x0E),
    (decide (out = a.tensor) || decide (out = b.tensor) || (decide (deriv ≠ 0) && decide (out = z.tensor)), 0x0F),
    (gated && decide (deriv = 0), 0x12),
    (decide (deriv ≠ 0) && (decide (kind = .mmAcc) || decide (fo = fmtCP32) || !isFloat (fmtOf p z.tensor) || !viewIs p out sh.m w ||
      !viewIs p z.tensor sh.m w), 0x12),
    (decide (sh.k ≠ bK) || (decide (deriv = 0) && !viewIs p out sh.m sh.n), 0x07),
    (decide (sh.m > 1048576) || decide (sh.n > 1048576) || decide (sh.k > 1048576), 0x1E)]

/-- Attention tasks (04 R100, R111, R112, R114). -/
def attReason (p : Program) (bwd : Bool) (q k v o l dO : OpSlot) (dq dk dv head g : Nat) : Nat :=
  let d := 64 * head
  let sq := rowOf p q.tensor
  let sk := rowOf p k.tensor
  let f := fmtOf p q.tensor
  let ins := if bwd then [q, k, v, o, dO] else [q, k, v]
  let outs := if bwd then [dq, dk, dv] else [o.tensor]
  let written := if bwd then outs else l.tensor :: outs
  let operands := if bwd then l :: ins else ins
  firstReason [
    (decide (head < 1) || decide (head > 4), 0x10),
    (!isFloat f || (ins.any fun x => decide (fmtOf p x.tensor ≠ f)) || (outs.any fun t => !isFloat (fmtOf p t)) || decide (fmtOf p l.tensor ≠ fmtFP32), 0x09),
    (decide (f = fmtFP16) && decide (g ≠ 1), 0x0E),
    (written.any fun t => operands.any fun x => decide (x.tensor = t), 0x0F),
    (!viewIs p q.tensor sq d || !viewIs p k.tensor sk d || !viewIs p v.tensor sk d || !viewIs p o.tensor sq d || !viewIs p l.tensor sq 1 ||
      (bwd && (!viewIs p dO.tensor sq d || !viewIs p dq sq d || !viewIs p dk sk d || !viewIs p dv sk d)), 0x07),
    (decide (sq > 1048576) || decide (sk > 1048576), 0x1E)]

/-- EW tasks (R149, R166). -/
def ewReason (p : Program) (a b : OpSlot) (out sub bkind : Nat) (tmpl : OpSlot) : Nat :=
  if sub = 19 then firstReason [
    (decide (fmtOf p a.tensor ≠ fmtFP32) || decide (fmtOf p out ≠ fmtFP32) || decide (fmtOf p tmpl.tensor ≠ fmtFP32), 0x09),
    (decide (cntOf p out ≠ 16) || decide (cntOf p tmpl.tensor ≠ 16), 0x07),
    (decide ((tensorAt p out).policy ≠ 0) || decide ((tensorAt p tmpl.tensor).policy ≠ 0), 0x0A)]
  else firstReason [
    (!vecIn p a.tensor || !vecOut p out || (decide (bkind < 2) && decide (fmtOf p b.tensor ≠ fmtOf p a.tensor)), 0x09),
    (decide (cntOf p out ≠ cntOf p a.tensor) || (decide (bkind = 0) && decide ((tensorAt p b.tensor).dims ≠ (tensorAt p a.tensor).dims)) ||
      (decide (bkind = 1) && decide (cntOf p b.tensor ≠ colOf p a.tensor)), 0x07)]

/-- NORM tasks (R151). -/
def normReason (p : Program) (x gamma beta stats dy : OpSlot) (out dgamma dbeta sub : Nat) : Nat :=
  let d := colOf p x.tensor
  let parts := if sub = 2 then [dgamma, dbeta] else if sub = 3 then [dgamma] else []
  let rows := if sub = 0 then [gamma.tensor, beta.tensor] else [gamma.tensor]
  firstReason [
    (!vecIn p x.tensor || !vecOut p out || (rows.any fun t => !vecIn p t) || decide (fmtOf p stats.tensor ≠ fmtFP32) ||
      (parts.any fun t => decide (fmtOf p t ≠ fmtFP32)) || (decide (sub ≥ 2) && !vecIn p dy.tensor), 0x09),
    (decide (cntOf p out ≠ cntOf p x.tensor) || (rows.any fun t => decide (cntOf p t ≠ d)) || decide (cntOf p stats.tensor ≠ 2 * rowOf p x.tensor) ||
      (parts.any fun t => decide (cntOf p t ≠ d)) || (decide (sub ≥ 2) && decide (cntOf p dy.tensor ≠ cntOf p x.tensor)), 0x07),
    (decide (d > 65536), 0x16)]

/-- SMAX tasks (R152). -/
def smaxReason (p : Program) (x dp : OpSlot) (out : Nat) (bwd : Bool) : Nat := firstReason [
  (!vecIn p x.tensor || !vecOut p out || (bwd && !vecIn p dp.tensor), 0x09),
  (decide (cntOf p out ≠ cntOf p x.tensor) || (bwd && decide (cntOf p dp.tensor ≠ cntOf p x.tensor)), 0x07)]

/-- OPT tasks (R156 to R158, R173). -/
def optReason (p : Program) (alg : Nat) (w m v grad rec : OpSlot) (work first count : Nat) : Nat :=
  let n := cntOf p w.tensor
  let others := (if alg = 0 then [v.tensor] else []) ++ [m.tensor, grad.tensor, work]
  firstReason [
    (decide (fmtOf p w.tensor ≠ fmtMW16) || decide (fmtOf p m.tensor ≠ fmtMW16) || (decide (alg = 0) && decide (fmtOf p v.tensor ≠ fmtMU16)) ||
      !isFloat (fmtOf p grad.tensor) || decide (fmtOf p work ≠ fmtFP16) || decide (fmtOf p rec.tensor ≠ fmtFP32), 0x09),
    (decide (cntOf p rec.tensor ≠ 16), 0x07),
    (decide ((tensorAt p rec.tensor).policy ≠ 0), 0x0A),
    (others.any fun t => decide (cntOf p t ≠ n), 0x07),
    (decide (first % 32 ≠ 0) || decide (first + count > n) || (decide ((first + count) % 32 ≠ 0) && decide (first + count ≠ n)), 0x18),
    (decide ((tensorAt p w.tensor).frozen ≠ (tensorAt p work).frozen), 0x1C)]

/-- CONV_FMT and COPY (R177, R65). -/
def moveReason (p : Program) (c : Nat) (copy : Bool) (src : OpSlot) (dst : Nat) : Nat := firstReason [
  ((if copy then decide (fmtOf p src.tensor ≠ fmtOf p dst) else decide (fmtOf p src.tensor = fmtCP32)) || !casedOk c (fmtOf p dst), 0x09),
  (decide (cntOf p src.tensor ≠ cntOf p dst), 0x07)]

/-- COLL tasks (12 R314, R316). -/
def collReason (p : Program) (c kind redop group : Nat) (src : OpSlot) (dst peer : Nat) : Nat :=
  let g := p.groups.getD group default
  let k := groupSize g
  let ns := cntOf p src.tensor
  let nd := cntOf p dst
  firstReason [
    (decide (group ≥ p.groups.length), 0x1F),
    (decide (g.barrier ≠ (kind = 5)), 0x05),
    (decide (kind = 6) && g.notifyObj.isNone, 0x05),
    ((decide (kind = 3) || decide (kind = 4) || decide (kind = 6)) && decide (peer ≥ k), 0x05),
    (decide (kind < 2) && decide (redop = 1) && !(fmtOf p src.tensor = fmtFP16 || fmtOf p src.tensor = fmtFP32), 0x05),
    (decide (kind < 2) && !isFloat (fmtOf p src.tensor), 0x09),
    (decide (kind < 3) && decide (fmtOf p src.tensor ≠ fmtOf p dst), 0x09),
    (!(decide (kind = 3) || decide (kind = 6)) && !casedOk c (fmtOf p dst), 0x09),
    (decide (kind = 0) && decide (ns ≠ nd), 0x07),
    (decide (kind = 1) && decide (nd ≠ shardLen ns k), 0x07),
    (decide (kind = 2) && decide (ns ≠ shardLen nd k), 0x07)]

/-- The reason of a body's own rules. -/
def bodyReason (p : Program) (c : Nat) (b : Body) : Nat :=
  match b with
  | .mat kind a b out z deriv gated g _ ta tb => matReason p c kind a b out z deriv gated g ta tb
  | .att bwd q k v o l dO dq dk dv head _ g _ _ _ _ => attReason p bwd q k v o l dO dq dk dv head g
  | .ew a b out sub bkind _ _ _ tmpl => ewReason p a b out sub bkind tmpl
  | .red src dst _ whole => firstReason [(!vecIn p src.tensor || !vecOut p dst, 0x09),
      (decide (cntOf p dst ≠ if whole then 1 else rowOf p src.tensor), 0x07)]
  | .norm x gamma beta stats dy out dgamma dbeta sub _ => normReason p x gamma beta stats dy out dgamma dbeta sub
  | .smax x dp out bwd _ _ _ _ => smaxReason p x dp out bwd
  | .opt alg w m v grad rec work first count => optReason p alg w m v grad rec work first count
  | .conv src dst => moveReason p c false src dst
  | .amax src dst => firstReason [(!vecIn p src.tensor, 0x09), (decide ((tensorAt p dst).policy ≠ 3), 0x22)]
  | .copy src dst => moveReason p c true src dst
  | .coll kind redop group src dst peer => collReason p c kind redop group src dst peer
  | .sig _ inc _ => if inc = 0 then 0x1D else 0
  | .wait _ target => if target = 0 then 0x1D else 0

/-- The reason a descriptor is rejected, 0 for none (R196 step 6): reserved values first, a reserved VSEL of an output slot among them, then the
other rules in their order (DEDUCED, log 65: R196 orders no two faults of one descriptor). -/
def taskReason (p : Program) (c w : Nat) : Nat :=
  match parseTask w with
  | none => 0x05
  | some t => firstReason [
      (descriptorBad w t || (readsOf t ++ outSlots t.body).any fun o => decide (o.vsel = 2) || decide (o.vsel = 3), 0x05),
      ((allReads t).any (fun o => decide (o.tensor ≥ p.tensors.length)) || (namedOuts t).any fun k => decide (k ≥ p.tensors.length), 0x06),
      ((readsOf t).any fun o => decide (o.vsel = 4) || decide (o.vsel = 7), 0x13),
      ((outSlots t.body).any fun o => decide (o.vsel ≠ 0), 0x19),
      ((optSlots t.body).any fun o => decide (o.vsel ≠ 5), 0x17),
      ((allReads t).any (fun o => !readAllowed p o) || (outputsOf t).any fun k => !writeAllowed p k, 0x1A),
      (decide (c ≠ 15) && (readsOf t).any fun o => decide (o.vsel = 1), 0x14),
      (bodyReason p c t.body ≠ 0, bodyReason p c t.body)]

end Sys2Proof.Machine
end

