-- ==== Sys2Proof/Machine/LoadRules.lean ====
section
/-! DEFINITION. The loader's whole-program rules: order, scale scope and placement (03 R77, R80; 05 R120, R142; 07 R172, R182, R196 step 7;
08 R199 to R206; 10 R251; 19 R503), and the judgement of an image. -/

namespace Sys2Proof.Machine

/-! ### The order that SIG and WAIT give (R182) -/

/-- Sum of the increments that SIG tasks give an object. -/
def incSum (ts : List Task) (o : Nat) : Nat := (ts.map fun t => match t.body with | .sig k inc _ => if k = o then inc else 0 | _ => 0).sum

/-- The first WAIT on object `o` after position `i` whose target exceeds what other SIGs add. -/
def waitAfter (ts : List Task) (i o other : Nat) : Option Nat :=
  (ts.zipIdx.drop (i + 1)).findSome? fun t => match t.1.body with
    | .wait k target => if k = o ∧ target > other then some t.2 else none
    | _ => none

/-- The positions of the WAITs that order task `x` before what follows them: a SIG after `x` whose GMASK names its CGROUP, on a local object. -/
def waitsOrdering (ts : List Task) (x : Nat) : List Nat :=
  let cg := (ts[x]?.map (·.cgroup)).getD 0
  (ts.zipIdx.drop (x + 1)).filterMap fun t => match t.1.body with
    | .sig o inc mask => if 4096 ≤ o ∧ mask.getLsbD cg then waitAfter ts t.2 o (incSum ts o - inc) else none
    | _ => none

/-- The last position not ordered after `x`: the earliest such WAIT. What a chain of two cases adds lies behind it already. -/
def orderPoint (ts : List Task) (x : Nat) : Option Nat :=
  match waitsOrdering ts x with
  | [] => none
  | a :: r => some (r.foldl min a)

/-- Is task `x` ordered before task `y` within one step (R182 cases 2 and 3)? -/
def ordered (ts : List Task) (x y : Nat) : Bool :=
  match orderPoint ts x with
  | some w => decide (w < y)
  | none => false

/-! ### Order rules (R196 step 7) -/

/-- Positions before `y` of the tasks that a test names. -/
def earlierTasks (ts : List Task) (y : Nat) (f : Task → Bool) : List Nat := ((ts.take y).zipIdx.filter fun t => f t.1).map (·.2)

/-- Writers of tensor `t` before `y`, its WORKING readers; the AMAX tasks that name it. -/
def writersBefore (ts : List Task) (y t : Nat) : List Nat := earlierTasks ts y fun k => (outputsOf k).contains t
def readersBefore (ts : List Task) (y t : Nat) : List Nat := earlierTasks ts y fun k => (allReads k).any fun o => decide (o.vsel = 0) && decide (o.tensor = t)
def amaxesOf (ts : List Task) (t : Nat) : List Nat := earlierTasks ts ts.length fun k => match k.body with | .amax _ d => decide (d = t) | _ => false

/-- The reason task `y` breaks an order rule as the later task of a pair: transient read, accumulation, version read, scale. -/
def orderReason (p : Program) (y : Nat) (k : Task) : Nat :=
  let ts := p.tasks
  let outs := outputsOf k
  let loose (xs : List Nat) : Bool := xs.any fun x => !ordered ts x y
  firstReason [
    ((allReads k).any fun o => decide ((tensorAt p o.tensor).persist = clsTransient) && !(writersBefore ts y o.tensor).any fun x => ordered ts x y, 0x1B),
    (outs.any fun t => loose (writersBefore ts y t), 0x11),
    ((allReads k).any (fun o => decide (o.vsel = 0) && loose (writersBefore ts y o.tensor)) || outs.any fun t => loose (readersBefore ts y t), 0x15),
    (outs.any fun t => decide ((tensorAt p t).policy = 3) && ((amaxesOf ts t).isEmpty || loose (amaxesOf ts t)), 0x0C)]

/-- The reason a COLL breaks the scale scope (03 R80). -/
def scopeReason (p : Program) (k : Task) : Nat :=
  match k.body with
  | .coll _ _ group _ _ _ =>
    let named := (readsOf k).map (·.tensor) ++ outputsOf k
    if named.any fun t => decide ((tensorAt p t).policy ≥ 2) && !((tensorAt p t).scopeGroup && decide ((tensorAt p t).group = group)) then 0x0D else 0
  | _ => 0

/-- The first task, in list order, that a rule rejects. -/
def firstTask (f : Nat → Task → Nat) (ts : List Task) : Option (Nat × Nat) :=
  ts.zipIdx.findSome? fun t => if f t.2 t.1 ≠ 0 then some (f t.2 t.1, t.2) else none

/-! ### Reserve (08 R201, 10 R251, R252) -/

/-- The distinct version tiles that the tasks of one step write (R251). -/
def writtenTiles (p : Program) : List (Nat × Nat) :=
  nub ((p.tasks.flatMap (outRanges p)).flatMap fun r =>
    if (tensorAt p r.1).persist = clsPersistent then (tilesOf r.2.1 r.2.2).map fun k => (r.1, k) else [])

/-- W and W2 of a program (R251). -/
def writtenCount (p : Program) : Nat := (writtenTiles p).length
def writtenDeep (p : Program) : Nat := ((writtenTiles p).filter fun k => decide (depthOf p k.1 = 2)).length

/-- PERSISTENT footprint in tiles. -/
def footTiles (p : Program) : Nat := ((persistents p).map fun t => tilesIn (tensorAt p t)).sum

/-- Tiles of the Lehr reserve over several programs (R201); a diagnosis replay has none (10 R273). -/
def reserveTiles (s : State) (ps : List (Nat × Program)) : Nat := (((ps.filter fun q => q.1 ≠ 15).map fun q => footTiles q.2).sum * s.dict.latched.reserveMille + 999) / 1000

/-! ### Placement (08 R199 to R206) -/

/-- Classes a persistence class may occupy (R200). -/
def classAllowed (persist cls : Nat) : Bool :=
  match persist with
  | 0 => decide (1 ≤ cls ∧ cls ≤ 4)
  | 3 => decide (1 ≤ cls ∧ cls ≤ 4)
  | 4 => decide (cls = 3)
  | _ => decide (cls = 4)

/-- Does a PIN hint name a class it cannot have (R206)? -/
def pinBad (c : Nat) (t : Tensor) : Bool := hintPin t.hint && !classAllowed (placedPersist c t) (hintClass t.hint)

/-- Tiles of the tensors of a kind with IDs up to `k`. -/
def tilesUpTo (p : Program) (k : Nat) (f : Tensor → Bool) : Nat := ((p.tensors.take (k + 1)).map fun t => if f t then tilesIn t else 0).sum

/-- Tiles of the three regions of R201 per partition, spread evenly: reserve, mirror, D + 1 batches. A diagnosis replay has neither a
reserve nor a mirror (10 R273). -/
def regionTiles (s : State) (ps : List (Nat × Program)) : Nat :=
  let mirror := ((ps.filter fun q => q.1 ≠ 15).map fun q => ((optTensors q.2).map fun t => tilesIn (tensorAt q.2 t)).sum).sum
  let batch := (ps.map fun q => (max s.dict.latched.depth (2 + inputDepth q.2) + 1) *
    tilesUpTo q.2 q.2.tensors.length fun t => decide (t.persist = clsInput)).sum
  (reserveTiles s ps + 7) / 8 + (mirror + 7) / 8 + (batch + 7) / 8

/-- Placeable tiles of HBM per partition (R199): 87 GiB. -/
def hbmTiles : Nat := 87 * 16384

/-- Positions at which a tensor is accessed. -/
def accesses (p : Program) (t : Nat) : List Nat :=
  (p.tasks.zipIdx.filter fun k => (outputsOf k.1).contains t || (allReads k.1).any fun o => decide (o.tensor = t)).map (·.2)

/-- The span over which a TRANSIENT tensor's space is its own (R202): from its first access to where all of them are ordered before. What a
diagnosis replay carries from step to step is live throughout (10 R273). -/
def liveSpan (c : Nat) (p : Program) (t : Nat) : Option (Nat × Nat × Nat) :=
  if (tensorAt p t).persist = clsPersistent && c = 15 then some (0, p.tasks.length, tensorBytes (tensorAt p t))
  else match accesses p t with
  | [] => none
  | a :: r => some (a, (a :: r).foldl (fun m x => max m ((orderPoint p.tasks x).getD p.tasks.length)) 0, tensorBytes (tensorAt p t))

/-- Peak of the TRANSIENT bytes live at once among the tensors with IDs up to `k` that a test names (R202, R204). -/
def peakBytes (c : Nat) (p : Program) (k : Nat) (f : Tensor → Bool) : Nat :=
  peakOf (((upto (k + 1)).filter fun t => placedTransient c (tensorAt p t) && decide (t < p.tensors.length) && f (tensorAt p t)).filterMap
    (liveSpan c p))

/-- Is the tensor pinned to a class? -/
def pinnedTo (cls : Nat) (t : Tensor) : Bool := hintPin t.hint && decide (hintClass t.hint = cls)

/-- Bytes of the resident CONST copies pinned to a class, with IDs up to `k`. -/
def pinnedConst (p : Program) (k cls : Nat) : Nat :=
  ((p.tensors.take (k + 1)).map fun t => if t.persist = clsConst && pinnedTo cls t then tensorBytes t else 0).sum

/-- Bytes that pins take of a class with IDs up to `k`: resident CONST copies, and the peak of pinned TRANSIENT tensors (R202, R206). -/
def pinnedBytes (c : Nat) (p : Program) (k cls : Nat) : Nat := pinnedConst p k cls + peakBytes c p k (pinnedTo cls)

/-- Placeable bytes of an on-chip class (R199), less the withheld blocks (14 R381). -/
def classBytes (s : State) (cls : Nat) : Nat :=
  let lost := 65536 * (s.place.withheld.filter fun w => w.1 = cls).length
  match cls with
  | 1 => 5767168 * (activeCores s).length
  | 2 => 8 * 33554432 - lost
  | _ => 50331648 - lost

/-- Do the programs `olds` and the tensors of `p`, for context `c`, with IDs up to `k` fit (R204)? -/
def fitsUpTo (s : State) (olds : List (Nat × Program)) (c : Nat) (p : Program) (k : Nat) : Bool :=
  let ps := olds ++ [(c, p)]
  let all (q : Nat × Program) : Nat := q.2.tensors.length
  let fixed := (olds.map fun q => tilesUpTo q.2 (all q) (fixedHbm q.1)).sum + tilesUpTo p k (fixedHbm c)
  let perPart := regionTiles s ps + (fixed + 7) / 8
  let results := 8 * ((olds.map fun q => (q.2.tensors.filter fun t => decide (t.persist = clsResult)).length).sum +
    ((p.tensors.take (k + 1)).filter fun t => decide (t.persist = clsResult)).length)
  let pins (cls : Nat) : Nat := (olds.map fun q => pinnedBytes q.1 q.2 (all q) cls).sum + pinnedBytes c p k cls
  let room (cls : Nat) : Nat := if cls = 4 then 8 * 65536 * (hbmTiles - perPart) else if cls = 3 then classBytes s 3 - results else classBytes s cls
  let consts (q : Program) (k : Nat) : Nat := ([1, 2, 3, 4].map (pinnedConst q k)).sum
  let moving := (olds.map fun q => peakBytes q.1 q.2 (all q) (fun _ => true) + consts q.2 (all q)).sum + peakBytes c p k (fun _ => true) + consts p k
  decide (perPart ≤ hbmTiles) && ([1, 2, 3, 4].all fun cls => decide (pins cls ≤ room cls)) && decide (moving ≤ ([1, 2, 3, 4].map room).sum)

/-- Working area of an ATT_B piece beyond a core's 5.5 MiB (R208)? -/
def areaBad (p : Program) (k : Task) : Bool :=
  match k.body with
  | .att true q _ _ _ _ _ _ _ _ head _ _ _ _ _ _ => decide (rowOf p q.tensor * (64 * head) * 6 > 5767168)
  | _ => false

/-- RESULT objects that other loaded programs name (19 R503). -/
def namedResults (ps : List (Nat × Program)) : List Nat := ps.flatMap fun p => (p.2.tensors.filter fun t => decide (t.persist = clsResult)).map (·.dataOff)

/-- The first tensor that a test names. -/
def firstTensor (p : Program) (f : Tensor → Bool) : Option Nat := (p.tensors.zipIdx.find? fun t => f t.1).map (·.2)

/-- Is the reserve too small for the tiles one step writes (10 R251)? -/
def reserveShort (s : State) (ps : List (Nat × Program)) : Bool :=
  decide (reserveTiles s ps < ((ps.filter fun q => q.1 ≠ 15).map fun q => writtenCount q.2 + writtenDeep q.2).sum)

/-- Why a program cannot be placed: section and index (R204, R206, R251, 19 R503). -/
def placeFail (s : State) (olds : List (Nat × Program)) (c : Nat) (p : Program) : Option (Nat × Nat) :=
  match firstTensor p (pinBad c) with
  | some t => some (1, t)
  | none =>
    match firstTensor p fun t => decide (t.persist = clsResult) && (namedResults olds).contains t.dataOff with
    | some t => some (1, t)
    | none =>
      if c ≠ 15 && reserveShort s (olds ++ [(c, p)]) then some (1, (((writtenTiles p).map (·.1)).min?).getD 0)
      else
        match (upto p.tensors.length).find? fun k => !fitsUpTo s olds c p k with
        | some t => some (1, t)
        | none => (firstTask (fun _ k => bit (areaBad p k)) p.tasks).map fun x => (3, x.2)

/-! ### The judgement of an image (R196) -/

/-- What the loader makes of an image: reason, section and index of the first failure (reason 0: accepted), and the program. -/
structure Judged where
  reason : Nat := 0
  wher   : Nat := 0
  index  : Nat := 0
  prog   : Option Program := none
  deriving Repr, Inhabited

/-- A rejection. -/
def rejects (reason wher index : Nat) : Judged := { reason := reason, wher := wher, index := index }

/-- Slot size and count that INPUT tensors are judged by (R193). -/
def ringFor (s : State) (c : Nat) : Nat × Nat :=
  if c ≠ 0 && c ≠ 15 && decide ((ctxAt s 0).state = .empty) then (rw s 0x210051, rw s 0x210052)
  else (s.dict.latched.slotSize, s.dict.latched.slotCount)

/-- Loaded programs besides that of context `c`. -/
def otherPrograms (s : State) (c : Nat) : List (Nat × Program) := (loadedPrograms s).filter fun x => x.1 ≠ c

/-- Does an INPUT tensor of another loaded program break the values a load into context 0 latches (R193)? -/
def othersBad (s : State) (c : Nat) : Bool :=
  c = 0 && ((jobPrograms s).filter fun x => x.1 ≠ 0).any fun p => p.2.tensors.any fun t =>
    decide (t.persist = clsInput) && inputBad s.dict.latched.slotSize s.dict.latched.slotCount [] t

/-- Step 7: order, scope and placement. -/
def judgeWhole (s : State) (c : Nat) (p : Program) : Judged :=
  match firstTask (orderReason p) p.tasks with
  | some (r, i) => rejects r 3 i
  | none =>
    match firstTask (fun _ k => scopeReason p k) p.tasks with
    | some (r, i) => rejects r 3 i
    | none =>
      match placeFail s (otherPrograms s c) c p with
      | some (w, i) => rejects 0x21 w i
      | none => { prog := some p }

/-- Steps 4 to 6: the tables. -/
def judgeTables (s : State) (c h : Nat) (img : List Byte) : Judged :=
  let (size, count) := ringFor s c
  let tws := tableWords img (hdOffTensor h) 64 (hdNtensor h)
  let gws := tableWords img (hdOffGroup h) 32 (hdNgroup h)
  let kws := tableWords img (hdOffTask h) 64 (hdNtask h)
  match badTensor h size count [] 0 tws with
  | some (r, i) => rejects r 1 i
  | none =>
    if othersBad s c then rejects 0x20 1 0
    else match firstBad (groupReason s) 0 gws with
      | some (r, i) => rejects r 2 i
      | none =>
        let p : Program := { programId := fld h 959 896, planId := fld h 895 832, tensors := tws.map parseTensor, groups := gws.map parseGroup, tasks := [],
                             data := memPut [] 0 ((img.drop (hdOffData h)).take (hdLenData h)), digest := hdDigest h, seed := rw s 0x210008,
                             histDef := rw s 0x440001, marginDef := rw s 0x440002, tolInit := rw s 0x40000E }
        match firstBad (taskReason p c) 0 kws with
        | some (r, i) => rejects r 3 i
        | none => judgeWhole s c { p with tasks := kws.filterMap parseTask }

/-- The loader's judgement of the bytes of its pass (R195, R196). -/
def judgeImage (s : State) (l : Load) : Judged :=
  let img := l.image.getD []
  let h := imgHeader img
  if l.poisoned then rejects 0x02 0 0
  else
    let r := headerReason s l.ctx l.length h
    if r ≠ 0 then rejects r 0 0
    else if imageDigest img ≠ hdDigest h then rejects 0x02 0 0
    else if sectionsBad h then rejects 0x01 0 0
    else judgeTables s l.ctx h img

end Sys2Proof.Machine
end

