-- ==== Sys2Proof/Machine/Placing.lean ====
section
/-! DEFINITION. The placement engine: where an accepted program's tensors and tasks go, within every capacity, and where they go again when
a slot is lost or a plan moves them (08 R199 to R217). What R212 leaves to a fixed function is Config.placement and Config.pieceSlot. -/

namespace Sys2Proof.Machine

/-! ### Room (R199 to R202) -/

/-- The latched values and maps of which the placement is a function (R212). -/
def mapWords (s : State) : List Nat :=
  [bit s.place.latchedOn, s.place.latchedDwell, s.place.latchedCopy, s.dict.latched.depth, s.dict.latched.reserveMille] ++
    s.place.coreMap.toList.map (·.toNat) ++ s.place.slotMap.toList.map slotBytes

/-- Room of a store for what R201 does not set aside: its capacity less withheld blocks, or the HBM that regions and fixed tensors leave. -/
def roomOf (s : State) (u : Nat) : Nat :=
  let ps := loadedPrograms s
  let lost (f : Nat × Nat × Nat → Bool) : Nat := 65536 * (s.place.withheld.filter f).length
  if u < 2000 then 5767168
  else if u < 3000 then 33554432 - lost fun w => w.1 = 2 && w.2.1 = u - 2000
  else if u < 4000 then 50331648 - lost fun w => w.1 = 3
  else 65536 * (hbmTiles - regionTiles s ps - ((ps.map fun q => tilesUpTo q.2 q.2.tensors.length (fixedHbm q.1)).sum + 7) / 8)

/-- Does a tensor fit where it would be placed, beside others? -/
def fitsAt (s : State) (ks : List Placed) (k : Placed) : Bool :=
  !(placeShares s k).isEmpty && (placeShares s k).all fun x => decide (usedIn s (ks ++ [k]) x.1 ≤ roomOf s x.1)

/-- The slot, or the next one that is not empty. -/
def slotFrom (s : State) (slot : Nat) : Nat := ((upto 128).find? fun i => (coreOfSlot s ((slot + i) % 128)).isSome).elim 0 fun i => (slot + i) % 128

/-! ### One tensor (R200, R202, R206, R212) -/

/-- The span of a TRANSIENT tensor that another one of its program may share space with (R202). -/
def shareSpan (c : Nat) (p : Program) (t : Nat) : Option (Nat × Nat) :=
  let span (k : Nat) : Option (Nat × Nat) := if (tensorAt p k).persist = clsTransient then (liveSpan c p k).map fun x => (x.1, x.2.1) else none
  (span t).filter fun a => (upto p.tensors.length).any fun k => k ≠ t && (span k).any (spansApart a)

/-- A tensor at the start of its placement: version tiles go round the partitions, from the tensor before it on (R201). -/
def placedBase (s : State) (c : Nat) (p : Program) (t : Nat) : Placed :=
  let first := fld (Config.placement p.digest (mapWords s) 0).toNat 21 19
  let before := ((p.tensors.take t).map fun e => if fixedHbm c e then tilesIn e else 0).sum
  { ctx := c, tensor := t, cls := 0, parts := 0, base := (first + before) % 8, pinned := hintPin (tensorAt p t).hint }

/-- The places in a class, the proposed one first: one core store where it fits whole, the proposed partitions, all of them. -/
def placesIn (k : Placed) (n slot : Nat) (parts : BitVec 8) (cls : Nat) : List Placed :=
  if cls = 3 then [{ k with cls := 3 }]
  else
    let spread := [{ k with cls := cls, parts := if parts = 0 then 0xFF else parts }, { k with cls := cls, parts := 0xFF }]
    if cls = 1 && decide (n ≤ 5767168) then { k with cls := 1, parts := BitVec.twoPow 8 (slot / 16), slot := some slot } :: spread else spread

/-- With space of its own, or shared: the proposed choice first. -/
def withSharing (first : Bool) (span : Option (Nat × Nat)) (k : Placed) : List Placed :=
  match span with
  | none => [k]
  | some a => if first then [{ k with shared := some a }, k] else [k, { k with shared := some a }]

/-- The places that a TRANSIENT tensor or a resident CONST copy may have, in the order in which they are tried. -/
def placesFor (s : State) (c : Nat) (p : Program) (t : Nat) : List Placed :=
  let e := tensorAt p t
  let w := (Config.placement p.digest (mapWords s) t).toNat
  let classes := if hintPin e.hint then [hintClass e.hint] else (if e.persist = clsConst then fld w 2 0 % 5 else 1 + fld w 2 0 % 4) :: [4, 3, 2, 1]
  if classes.head? = some 0 then []
  else classes.flatMap fun cls =>
    (placesIn (placedBase s c p t) (tensorBytes e) (slotFrom s (fld w 18 12)) (BitVec.ofNat 8 (fld w 10 3)) cls).flatMap
      (withSharing (w.testBit 11) (shareSpan c p t))

/-- What shared tensors of a context that are live over a span take in a store at most (R202). -/
def sharedOver (s : State) (ks : List Placed) (c : Nat) (a : Nat × Nat) (u : Nat) : Nat :=
  peakOf (((ks.filter fun k => k.ctx = c).filterMap fun k => (k.shared.filter fun x => !spansApart a x).map fun x => (max x.1 a.1, min x.2 a.2, shareAt s u k)))

/-- Room that a store has left for a tensor of context `c` beside the tensors `ks`; where it shares space, what is live over its span counts. -/
def roomFor (s : State) (ks : List Placed) (c : Nat) (span : Option (Nat × Nat)) (u : Nat) : Nat :=
  match span with
  | none => roomOf s u - usedIn s ks u
  | some a => roomOf s u - (usedIn s (ks.filter fun k => k.ctx ≠ c || k.shared.isNone) u + sharedOver s ks c a u)

/-- Bytes put into stores in order, as far as each has room. -/
def splitBytes (s : State) (ks : List Placed) (c : Nat) (span : Option (Nat × Nat)) : Nat → List Nat → List (Nat × Nat)
  | _, [] => []
  | n, u :: r => let m := min n (roomFor s ks c span u); if m = 0 then splitBytes s ks c span n r else (u, m) :: splitBytes s ks c span (n - m) r

/-- A tensor at the given shares of some stores. -/
def placedAs (k : Placed) (span : Option (Nat × Nat)) (split : List (Nat × Nat)) : Placed :=
  let cls := match nub (split.map fun x => storeClass x.1) with
    | [cls] => cls
    | _ => 5
  { k with cls := cls, parts := (split.filterMap fun x => storePart x.1).foldl (fun m p => m ||| BitVec.twoPow 8 p) 0, slot := none, split := split,
           shared := span }

/-- A tensor that no even spread holds lies where the stores of some classes have room for it (R204). -/
def placedSplit (s : State) (ks : List Placed) (k : Placed) (n : Nat) (span : Option (Nat × Nat)) (classes : List Nat) : Placed :=
  placedAs k span (splitBytes s ks k.ctx span n (classes.flatMap fun cls => unitsIn s cls 0xFF))

/-- Where tensor `t` goes beside the tensors `ks`. -/
def placeTensor (s : State) (c : Nat) (p : Program) (ks : List Placed) (t : Nat) : Placed :=
  let e := tensorAt p t
  let k := placedBase s c p t
  if e.persist = clsResult then { k with cls := 3 }
  else if setAside c e then { k with cls := 4, parts := homesMask k.base (tilesIn e) }
  else match (placesFor s c p t).find? (fitsAt s ks) with
    | some x => x
    | none =>
      if hintPin e.hint then placedSplit s ks k (tensorBytes e) (shareSpan c p t) [hintClass e.hint]
      else if e.persist = clsConst then k
      else placedSplit s ks k (tensorBytes e) (shareSpan c p t) [1, 2, 3, 4]

/-! ### Any assignment (R204) -/

/-- The stores that hold more than they may of the tensors `ks` (R199). -/
def fullStores (s : State) (ks : List Placed) : List Nat :=
  (nub ((ks.flatMap (placeShares s)).map (·.1) ++ (upto 8).map (4000 + ·))).filter fun u => decide (roomOf s u < usedIn s ks u)

/-- Does part of a tensor's bytes lie nowhere? -/
def incomplete (s : State) (k : Placed) : Bool :=
  let e := tensorAt (progAt s k.ctx) k.tensor
  !setAside k.ctx e && k.cls ≠ 0 && decide (((placeShares s k).map (·.2)).sum < tensorBytes e)

/-- Is every tensor of `ks` placed whole, within every capacity? -/
def allHold (s : State) (ks : List Placed) : Bool := (fullStores s ks).isEmpty && !ks.any (incomplete s)

/-- Every way to lay `n` bytes over some stores. -/
def everySplit : List Nat → Nat → List (List (Nat × Nat))
  | [], n => if n = 0 then [[]] else []
  | u :: r, n => (upto (n + 1)).flatMap fun m => (everySplit r (n - m)).map fun l => if m = 0 then l else (u, m) :: l

/-- Every place that a tensor may have (R200, R202, R206): a pin keeps its class, space is shared where it may be, and a CONST may do without a
resident copy. -/
def everyPlace (s : State) (k : Placed) : List Placed :=
  let p := progAt s k.ctx
  let e := tensorAt p k.tensor
  if setAside k.ctx e || e.persist = clsResult then [k]
  else
    let classes := if hintPin e.hint then [hintClass e.hint] else [1, 2, 3, 4]
    ((everySplit (classes.flatMap fun cls => unitsIn s cls 0xFF) (tensorBytes e)).map (placedAs k (shareSpan k.ctx p k.tensor))) ++
      if e.persist = clsConst && !hintPin e.hint then [{ k with cls := 0, parts := 0, slot := none, split := [], shared := none }] else []

/-- An assignment of some tensors beside `ks` that the capacities allow, if there is one: `ks` with them. -/
def searchPlaces (s : State) : List Placed → List Placed → Option (List Placed)
  | ks, [] => if allHold s ks then some ks else none
  | ks, k :: r => (everyPlace s k).findSome? fun x => searchPlaces s (ks ++ [x]) r

/-- The places `mine` beside `ks` as they stand where they fit, else the first of all assignments that fits (R204: only where none does is there
no placement). -/
def fullAssign (s : State) (ks mine : List Placed) : List Placed :=
  if allHold s (ks ++ mine) then mine
  else match searchPlaces s ks mine with
    | some l => l.drop ks.length
    | none => mine

/-! ### A program (R206, R208, R212) -/

/-- Hints of a tensor that its placement does not follow (R206). DESIGN CHOICE, log 202: CLASS, PART and SPREAD count apart, WEIGHT never. -/
def hintsMissed (e : Tensor) (k : Placed) : Nat :=
  bit (decide (hintClass e.hint ≠ 0) && decide (hintClass e.hint ≠ k.cls)) +
    bit (decide (hintPart e.hint ≠ 0) && !k.parts.getLsbD (hintPart e.hint - 1)) + bit (hintSpread e.hint && decide (k.parts ≠ 0xFF))

/-- A program's tensors beside those of other contexts and the targets of their moves: first fit with the pinned ones first, and where that
places not all of them any assignment that does (R204, R206). -/
def placeTensors (s : State) (c : Nat) (p : Program) : List Placed :=
  let ids := upto p.tensors.length
  let pinned (t : Nat) : Bool := hintPin (tensorAt p t).hint
  let others := (s.place.tensors ++ pendingPlaced s).filter fun k => k.ctx ≠ c
  fullAssign s others ((ids.filter pinned ++ ids.filter fun t => !pinned t).foldl (fun ks t => ks ++ [placeTensor s c p (others ++ ks) t]) [])

/-- The slots of a task's pieces (R208, R212, R220); a COPY's engine follows from its tensors. -/
def placedTask (s : State) (c : Nat) (p : Program) (i : Nat) (t : Task) : PlacedTask :=
  let us := if isCoreTask t && t.opcode ≠ 0x31 then pieceUnits p t else []
  { ctx := c, task := i, slots := (upto us.length).map fun k => slotFrom s (Config.pieceSlot p.digest (mapWords s) i k % 128) }

/-- The first tensor of context `c` that has not found its place: part of its bytes lies nowhere, or in a store that holds too much (R204,
R206). -/
def placeTrouble (s : State) (c : Nat) : Option Nat :=
  let p := progAt s c
  let full := fullStores s (s.place.tensors ++ pendingPlaced s)
  let bad (t : Nat) : Bool := (placedAt s c t).any fun k => incomplete s k || (placeShares s k).any fun x => full.contains x.1
  match (upto p.tensors.length).find? bad with
  | some t => some t
  | none => if full.isEmpty then none else (upto p.tensors.length).find? fun t => fixedHbm c (tensorAt p t)

/-- Every task's. -/
def placedTasks (s : State) (c : Nat) (p : Program) : List PlacedTask := p.tasks.zipIdx.map fun t => placedTask s c p t.2 t.1

/-! ### Moves (R213, R214) -/

/-- Where a move may put a tensor, within a class and a partition: one core store of it, or all of its core stores. -/
def moveTargets (s : State) (k : Placed) (n cls part : Nat) : List Placed :=
  let k : Placed := { k with cls := cls, slot := none, split := [], shared := none, moved := true }
  let m := BitVec.twoPow 8 part
  if cls = 3 then [{ k with parts := 0 }]
  else if cls = 1 && decide (n ≤ 5767168) then
    ((unitsIn s 1 m).map fun u => { k with parts := m, slot := some (u - 1000) }) ++ [{ k with parts := m }]
  else [{ k with parts := m }]

/-- The place of a moved tensor beside the tensors `ks`, its old place among them: none where it does not fit. -/
def moveTo (s : State) (ks : List Placed) (k : Placed) (cls part : Nat) : Option Placed :=
  let e := tensorAt (progAt s k.ctx) k.tensor
  if e.persist = clsInput then
    -- the batches to come go to one partition's HBM, beside those that have moved there and those that are about to
    let x : Placed := { k with parts := BitVec.twoPow 8 part, moved := true }
    if cls = 4 && decide (usedIn s (ks.filter (fun y => !(y.ctx = k.ctx && y.tensor = k.tensor)) ++ [x]) (4000 + part) ≤ roomOf s (4000 + part)) then some x
    else none
  else (moveTargets s k (tensorBytes e) cls part).find? (fitsAt s ks)

/-! ### Re-placement (R217) -/

/-- Has a tensor bytes in the core store of a slot that is empty now, of partition `p`? -/
def lostPlace (s : State) (p : Nat) (k : Placed) : Bool :=
  match k.cls with
  | 1 => match k.slot with
    | some u => (coreOfSlot s u).isNone
    | none => if k.split.isEmpty then k.parts.getLsbD p else k.split.any fun x => (coreOfSlot s (x.1 - 1000)).isNone
  | _ => k.split.any fun x => decide (x.1 < 2000) && (coreOfSlot s (x.1 - 1000)).isNone

/-- Tensors of an emptied slot of partition `p`, placed again beside the others by the rule of R212, or all of them where only that fits
(R204). -/
def replaceTensors (s : State) (p : Nat) : List Placed :=
  let stay := s.place.tensors.filter fun k => !lostPlace s p k
  let again (ks : List Placed) (k : Placed) : List Placed :=
    let n := placeTensor s k.ctx (progAt s k.ctx) (stay ++ ks) k.tensor
    ks ++ [{ n with base := k.base, moved := k.moved, age := k.age, access := k.access }]
  let ks := stay ++ fullAssign s stay ((s.place.tensors.filter (lostPlace s p)).foldl again [])
  fullAssign s [] ks

/-- What a re-placement frees (R203): the stores of every tensor that lies elsewhere now. -/
def replaceFrees (s : State) (p : Nat) : List Freed :=
  let ks := replaceTensors s p
  (s.place.tensors.filter fun k => lostPlace s p k || !ks.contains k).map fun k => { ctx := k.ctx, tensor := k.tensor, step := stepNow s + 1, units := unitsOf s k }

/-- The new map is in effect: the slot's tensors, and every task over the slots that are left. -/
def replacementFits (s : State) (p : Nat) : State :=
  let tasks := (loadedPrograms s).flatMap fun cp => placedTasks s cp.1 cp.2
  { s with place := { s.place with tensors := replaceTensors s p, tasks := tasks, gen := s.place.gen + 1, replacing := s.place.replacing.drop 1,
                                   freed := s.place.freed ++ replaceFrees s p } }

/-- What no longer fits after a quarantine in partition `p` (R204, R217): the task whose working area does not, or 0 for tensors. -/
def replaceTrouble (s : State) (p : Nat) : Option Nat :=
  let short := (loadedPrograms s).findSome? fun cp =>
    if fitsUpTo s (otherPrograms s cp.1) cp.1 cp.2 cp.2.tensors.length then (firstTask (fun _ k => bit (areaBad cp.2 k)) cp.2.tasks).map (·.2) else some 0
  match short with
  | some t => some t
  | none => if (upto 16).any fun c => (placeTrouble (replacementFits s p) c).isSome then some 0 else none

end Sys2Proof.Machine
end

