-- ==== Sys2Proof/Machine/Programs.lean ====
section
/-! DEFINITION. Program loads, the context commands, the rebuild after a restore, and the counter clear (03 R85, R86; 07 R184 to R197;
08 R206, R212, R219; 10 R252, R271 to R276; 13 R366; 15 R407, R414; 19 R503). -/

namespace Sys2Proof.Machine

/-! ### The load request (R195) -/

def reqOffset (r : BitVec 128) : Nat := fld r.toNat 127 64
def reqLength (r : BitVec 128) : Nat := fld r.toNat 63 32
def reqContext (r : BitVec 128) : Nat := fld r.toNat 3 0

/-- Does a range of the staging aperture meet a partition in reset (01 R29)? -/
def stageAway (s : State) (off len : Nat) : Bool :=
  decide (0 < len) && (upto (min 8 ((off + len - 1) / 4096 + 1 - off / 4096))).any fun i => s.dev.inReset.getLsbD (aperturePart (off + 4096 * i))

/-- Does a range of the staging aperture meet poison or a partition in reset (09 R234, 01 R29)? -/
def stageBad (s : State) (off len : Nat) : Bool :=
  stageAway s off len || (decide (0 < len) && s.poison.any fun u => decide (off < 32 * u + 32) && decide (32 * u < off + len))

/-- What the entry's own rules say of a request: 0 when it is carried out (R195). -/
def loadOwn (s : State) (r : BitVec 128) : Nat := firstReason [
  (decide (reqOffset r % 64 ≠ 0), 4),
  (decide (reqOffset r + reqLength r > 2 ^ 36), 5),
  (decide ((ctxAt s (reqContext r)).state ≠ .empty) || decide (s.load.status = 1) || decide (s.dev.state = .boot), 6)]

/-- The pass over the image (R195): the module's own copy of its bytes; the context is LOADING. -/
def loadStarts (src : Src) (r : BitVec 128) (s : State) : State :=
  let c := reqContext r
  let bytes := memTake s.staging (reqOffset r) (reqLength r)
  let l : Load := { ctx := c, status := 1, image := some bytes, poisoned := stageBad s (reqOffset r) (reqLength r), length := reqLength r, src := some src }
  let s := { s with load := l }
  onCtx (emit s (.snoop (reqOffset r))) c fun x => { x with state := .loading }

/-- PROGRAM_LOAD_REQUEST (R195). -/
def execProgramLoadRequest (src : Src) (req : BitVec 128) (s : State) : Out :=
  .next (hostCommand s src 0x210010 16 req.toNat (loadOwn s req) (loadStarts src req))

/-! ### What a load latches and clears (R196) -/

/-- Values that a load latches (R193, R271, R275, 10 R252, 11 R292). -/
def loadLatch (s : State) (c : Nat) : State :=
  let l := s.dict.latched
  let l := if c = 0 then { l with block := rw s 0x30000B, ringBase := rw s 0x210050, slotSize := rw s 0x210051, slotCount := rw s 0x210052,
                                  depth := rw s 0x210006, reserveMille := rw s 0x540001 }
    else if c = 15 then { l with replayBlock := rw s 0x30000B } else l
  { s with dict := { s.dict with latched := l } }

/-- The state by which a load is judged: group entries of a diagnosis replay by its replay block (10 R275). -/
def judgeView (s : State) (c : Nat) : State :=
  if c = 15 then { s with dict := { s.dict with latched := { s.dict.latched with block := s.dict.latched.replayBlock } } } else s

/-- The step engine after a load into context 0: last committed step, entries of R340 and the fingerprint ring cleared (10 R271, R276). -/
def stepsForJob (t : Steps) (first : Nat) : Steps :=
  { t with committed := first - 1, older := none, younger := none, prints := [], ownLag := 0, combLag := 0, slacks := [], completions := 0, aborts := 0,
           barrierNs := 0, barrierMax := 0, lagFrom := none, lastClean := none, replayDue := none, discardHeld := false }

/-- What a load into context 0 clears: counters (R86, R107, R165, R259, 10 R252, 12 R340), batches, a pending mark (19 R504), the fence set
(15 R414). -/
def clearForJob (s : State) : State :=
  let first := rw s 0x210002
  { s with steps := stepsForJob s.steps first,
           num := { reservedExp := s.num.reservedExp },
           dict := { s.dict with vals := setVal s.dict.vals 0x40000A 0 0 },
           vers := { s.vers with peak := 0, splits := 0, stalls := 0, stallNs := 0, stalled := [], waited := [], mirrorRecs := [], mirrorW := [], mirrorLost := false,
                                   copies := (dropWork s.vers).copies.filter fun k => !isMirrorTile k },
           fetch := {},
           coll := { chunks := s.coll.chunks },
           place := { s.place with gen := 0, hintsOff := 0, traffic := [], batchAt := [], freed := [] },
           ckpt := { s.ckpt with lastCut := first - 1, pend := false, carried := false },
           recov := { s.recov with set := [], known := [], own := [], dropped := [], remap := 31, notice := 0, asked := 0, lostPend := 0 } }

/-! ### Placement of an accepted program (08 R200, R206, R212, R219) -/

/-- The program's tensors and tasks are placed, and hints not followed are counted. DESIGN CHOICE, log 201: a load into contexts 1 to 14 or an
unload is no change of map that steps the map generation. -/
def placeProgram (s : State) (c : Nat) (p : Program) : State :=
  let ks := placeTensors s c p
  let missed := (ks.map fun k => hintsMissed (tensorAt p k.tensor) k).sum
  { s with place := { s.place with tensors := s.place.tensors.filter (fun k => k.ctx ≠ c) ++ ks, tasks := s.place.tasks.filter (fun k => k.ctx ≠ c) ++ placedTasks s c p,
                                   hintsOff := s.place.hintsOff + missed } }

/-- The reserve and the sizes of R251 for the loaded programs. -/
def sizeReserve (s : State) : State :=
  let ps := jobPrograms s
  let w := (ps.map fun q => writtenCount q.2).sum
  let w2 := (ps.map fun q => writtenDeep q.2).sum
  { s with vers := { s.vers with reserve := reserveTiles s ps, minRes := w + w2, stallFree := 2 * w + w2 } }

/-! ### Accepting an image (R184, R196) -/

/-- Zero contents of every PERSISTENT tensor as committed copies at their initial scale (R196). -/
def zeroCopies (c : Nat) (p : Program) : List Copy :=
  (persistents p).flatMap fun t => (upto (tilesIn (tensorAt p t))).map fun k =>
    { ctx := c, tensor := t, tile := k, kind := .committed, scale := initScale (tensorAt p t) }

/-- A context that holds a program just loaded: its histories empty, its tolerances initial; the fields of its last halt stand (R186). -/
def ctxLoaded (c : Nat) (p : Program) (x : Ctx) : Ctx :=
  { state := .loaded, cause := x.cause, causeTask := x.causeTask, prog := some p, diag := decide (c = 15),
    tens := (upto p.tensors.length).map fun t => { tensor := t, tol := p.tolInit } }

/-- RESULT objects that a program names start empty (19 R503). -/
def clearResults (v : Vector Result 64) (p : Program) : Vector Result 64 := (namedResults [(0, p)]).foldl (fun v k => updN v (k - 1) fun _ => {}) v

/-- The accepted program (R196). -/
def acceptLoad (s : State) (c : Nat) (p : Program) : State :=
  let s := if c = 0 then clearForJob s else s
  let s := onCtx s c (ctxLoaded c p)
  let s := { s with vers := { s.vers with copies := s.vers.copies.filter (fun k => k.ctx ≠ c) ++ if c = 15 then [] else zeroCopies c p },
                    sync := syncFresh s.sync (namedObjects p) s.steps.committed,
                    results := clearResults s.results p,
                    mem := { s.mem with usage := Vector.replicate 8 0 },
                    sec := { s.sec with meas := updN s.sec.meas 5 fun m => extend m p.digest } }
  sizeReserve (placeProgram s c p)

/-- The load ends with its status, and kind 6 is posted. -/
def loadStatusIs (s : State) (l : Load) : State :=
  let s := { s with load := l }
  post s 6 0x2100 0x11 (loadStatus l)

/-- The load in progress is rejected (R196). A rejection for a reserved value is counted as an illegal host sequence is (00 R7). DESIGN CHOICE,
log 205: "in the same way" is read as the whole record of 0x2000.04, with reason 4 and the entry, master and path of the load request. -/
def loadRejected (s : State) (j : Judged) : State :=
  let c := s.load.ctx
  let src := s.load.src
  let s := loadStatusIs (onCtx s c fun x => { x with state := .empty }) { reason := j.reason, ctx := c, wher := j.wher, status := 3, index := j.index }
  match src with
  | some q => if j.reason = 5 then countIllegal s q 4 0x2100 0x10 else s
  | none => s

/-- The load in progress ends (R196): rejected, also where its tensors do not find their places beside those of other contexts (08 R204, R206). -/
def loadEnds (s : State) : State :=
  let c := s.load.ctx
  let s' := loadLatch s c
  let j := judgeImage (judgeView s' c) s.load
  match j.prog with
  | none => loadRejected s j
  | some p =>
    let t := acceptLoad s' c p
    match placeTrouble t c with
    | none => loadStatusIs t { ctx := c, status := 2 }
    | some i => loadRejected s (rejects 0x21 1 i)

/-- PROGRAM_LOAD_DONE (R196, 18 R467): not while ostler 0 restarts. -/
def execProgramLoadDone (s : State) : Out := if s.load.status = 1 && !ostlerBusy s 0 then .next (loadEnds s) else .next s

/-! ### The rebuild after a restore (13 R366) -/

/-- A write into committed copies, at the scale of step `n`. -/
def putCommitted (n c : Nat) (s : State) (w : Wr) : State :=
  let sc := scaleOf s c w.tensor n
  { s with vers := { s.vers with copies := (tilesOf w.off w.bytes.length).foldl (fun cs tile =>
      let lo := max w.off (tile * 65536)
      let hi := min (w.off + w.bytes.length) ((tile + 1) * 65536)
      mapWhere (putCopy cs c w.tensor tile .committed lo ((w.bytes.drop (lo - w.off)).take (hi - lo)))
        (fun k => k.ctx = c && k.tensor = w.tensor && k.tile = tile && decide (k.kind = .committed)) fun k => { k with scale := sc }) s.vers.copies } }

/-- Restored master weights converted into WORK, with slot 4 and step `n` (13 R366 point 1). -/
def convertMaster (n c : Nat) (s : State) (w : OpSlot) (work first count : Nat) : State :=
  let r : Rd := { s := s, ctx := c, step := n }
  let ws := (upto ((count + 4095) / 4096)).flatMap fun t =>
    (deliver r work 4 ((optRun first count t).map fun i => ⟨i - (first + 4096 * t), i, rdElem r ⟨1, w.tensor⟩ i⟩) none).writes
  ws.foldl (putCommitted n c) s

/-- An ALL_GATHER of a WORK tensor among the committed copies; what the other members deliver is free (13 R366 point 2, log 4). -/
def regather (n c pos : Nat) (s : State) (g : Group) (src dst : Nat) : State :=
  let p := progAt s c
  let e := tensorAt p dst
  let k := groupSize g
  let own := ownRank s g
  let img (m : Nat) : List Byte :=
    if m = own then rdImage { s := s, ctx := c, step := n } 1 src (tensorBytes (tensorAt p src))
    else (upto (tensorBytes (tensorAt p src))).map (Config.freeByte (s.free + m))
  let ws := (upto k).flatMap fun m => planeWrites e dst (elems e) (m * shardLen (elems e) k) (imageOf (img m)) (shardLen (elems e) k)
    (shardOf (elems e) k m).length
  let t : CollTask := { pos := pos, step := n, kind := 2, redop := 0, group := g, src := ⟨1, src⟩, dst := dst, peer := 0 }
  let fs := gatherFlits g own e (ws.foldl (fun m w => memPut m w.off w.bytes) [])
  sendFlits { ws.foldl (putCommitted n c) s with free := s.free + k } c t fs

/-- One task of the rebuild. -/
def rebuildTask (n c : Nat) (gathers : Bool) (s : State) (t : Task × Nat) : State :=
  match t.1.body with
  | .opt _ w _ _ _ _ work first count => if gathers then s else convertMaster n c s w work first count
  | .coll 2 _ gi src dst _ =>
    if gathers && (workTensors (progAt s c)).contains src.tensor then regather n c t.2 s ((progAt s c).groups.getD gi default) src.tensor dst else s
  | _ => s

/-- The rebuild for step `n` in context `c`: conversions, then gathers. -/
def rebuildCtx (n : Nat) (s : State) (c : Nat) : State :=
  let ts := (progAt s c).tasks.zipIdx
  ts.foldl (rebuildTask n c true) (ts.foldl (rebuildTask n c false) s)

/-- Can the rebuild of a program not finish: a gather of it does not reach a member (13 R366)? -/
def gatherStuck (s : State) (p : Program) : Bool :=
  p.tasks.any fun t => match t.body with
    | .coll 2 _ gi src _ _ =>
      let g := p.groups.getD gi default
      (workTensors p).contains src.tensor && (upto (groupSize g)).any fun m => m ≠ ownRank s g && !reachable s (ownHeader s (rankCoord s g m) 0 0 0)
    | _ => false

/-- Can the rebuild of the job's contexts not finish? -/
def rebuildFails (s : State) : Bool := (ctxAt s 0).restored && (jobPrograms s).any fun cp => gatherStuck s cp.2

/-- A rebuild that cannot finish halts context 0 with CAUSE 3, and the restore ends with reason 8 (R366). -/
def rebuildEnds (failed : Bool) (s : State) : State :=
  if failed then haltCtx { s with ckpt := { s.ckpt with restore := 3, restReason := 8 } } 0 3 0 else s

/-- The rebuild (13 R366), where a restore came before. -/
def rebuild (s : State) : State := if (ctxAt s 0).restored then (upto 15).foldl (rebuildCtx s.steps.committed) s else s

/-! ### START (R187, R194, 10 R274, 13 R348, 15 R407) -/

/-- What stands against START of a context: reason 6, or 0. -/
def startOwn (s : State) (c : Nat) : Nat :=
  let x := ctxAt s c
  let bad :=
    decide (x.state ≠ .loaded) || x.unloading ||
    (decide (c = 0) && (decide (s.dev.state ≠ .ready) || decide (s.topo.verdict ≠ 1) || x.invalid || s.dev.prodTest)) ||
    (decide (1 ≤ c ∧ c ≤ 14) && decide ((ctxAt s 0).state ≠ .running)) ||
    (decide (c = 15) && (!x.diag || !x.restored || x.invalid ||
      ((progAt s 15).tensors.any (fun t => decide (t.persist = clsInput)) &&
        (upto (rw s 0x210044 - s.steps.replayCut)).any fun i => (assoc? s.fetch.batches (s.steps.replayCut + 1 + i)).isNone)))
  if bad then 6 else 0

/-- The steps whose batches the first step of a job needs (R194). -/
def firstBatches (s : State) : List Nat :=
  let n := s.steps.committed + 1
  let d := inputDepth (progAt s 0)
  ((upto (d + 1)).filterMap fun i => if n + i ≥ d then some (n + i - d) else none).filter fun k => decide (firstStepOf s ≤ k)

/-- Initial fetches, under the digest of context 0's program, and the next step's as the first one begins (R193, R194, 10 R273). -/
def startFetch (s : State) : State :=
  let s := (firstBatches s ++ [s.steps.committed + 2]).foldl fetchBatch s
  let n := s.steps.committed + 1
  let busy := (s.fetch.state = 1 || s.fetch.state = 2) && decide (s.fetch.step ≤ n) || s.fetch.queue.any fun k => decide (k ≤ n)
  { s with fetch := { s.fetch with digest := (ctxAt s 0).prog.map (·.digest), first := if busy then n else 0 } }

/-- Values latched at START of context 0 (13 R348, 15 R425). -/
def startLatch (d : Dict) : Dict :=
  { d with latched := { d.latched with ckptOn := decide (dictVal d 0x600001 = 1), minSpace := dictVal d 0x600003, maxSpace := dictVal d 0x600004,
                                       patience := dictVal d 0x210004 } }

/-- Is a copy held for a capture only? -/
def isHold (k : Copy) : Bool :=
  match k.kind with
  | .hold _ => true
  | .w1 => false
  | .w2 => false
  | .committed => false
  | .prev => false
  | .whole => false

/-- The job state that every START of context 0 begins with (12 R329, R340, 15 R407, 17 R454). Frames held for the
first instances stand. -/
def startFresh (s : State) (role : Role) : State :=
  { s with dict := startLatch s.dict, power := { s.power with g := 64, stepSum := 0, stepN := 0 },
           chans := Vector.ofFn fun i => { early := s.chans[i].early.filter fun f => i.val = 0 || decide (f.1 < 2) },
           ckpt := { s.ckpt with votes := [], captures := [] },
           vers := { s.vers with copies := s.vers.copies.filter fun k => !isHold k },
           recov := { s.recov with role := role, single := decide (role = .working), rebuild := false, rebuilding := false, owed := false, hold := false, holdOwed := false, wait := false, lost := 0, lostPend := 0, notice := 0,
                                   refills := 0, taking := none },
           steps := { s.steps with older := none, younger := none, attempt := 0, lagFrom := none, lagOwn := 0, replayDue := none } }

/-- Context 0 at the first task of step `n`. -/
def ctxStarted (n : Nat) (x : Ctx) : Ctx := { x with state := .running, step := n, pos := 0, started := true, restored := false }

/-- A working module starts: the rebuild, the first step, its batches (R187, R194, 15 R407). -/
def startWorking (s : State) : State :=
  let n := s.steps.committed + 1
  let ends := rebuildEnds (rebuildFails s)
  let s := onCtx (startFresh (rebuild s) .working) 0 (ctxStarted n)
  let s := { s with steps := openStep s.steps { step := n, clamps := clampsOf s n } }
  ends (changeState (startFetch s) .joined)

/-- The remount module of a ring starts as a spare (15 R407). -/
def startSpare (s : State) : State := changeState (onCtx (startFresh s .spare) 0 (ctxStarted (s.steps.committed + 1))) .spare

/-- START of context 0. -/
def startJob (s : State) : State := if coordOn (ownCoord s) 0 = sparePos s then startSpare s else startWorking s

/-- Context 15 begins its replay after the restored cut: its derived tensors are rebuilt (13 R368), and its first step opens. -/
def replayBegins (s : State) : State :=
  let c := s.steps.replayCut
  let s := rebuildCtx c { s with steps := { s.steps with replayStep := c, replayActive := true, replayResult := 0, older := none, younger := none, lagFrom := none },
                                 chans := s.chans.set 0 {} } 15
  let s := onCtx s 15 (ctxStarted (c + 1))
  { s with steps := openStep s.steps { step := c + 1, clamps := clampsOf s (c + 1) } }

/-- START of a diagnosis replay (10 R274): nothing to replay ends it at once. DEDUCED, log 228: a rebuild that cannot finish halts context 15 as
it halts context 0 (13 R366, R368). -/
def startReplay (s : State) : State :=
  if rw s 0x210044 ≤ s.steps.replayCut then
    { onCtx s 15 (fun x => { x with state := .halted, cause := 0, causeTask := 0, started := true }) with
      steps := { s.steps with replayStep := s.steps.replayCut, replayResult := 1, replayActive := false } }
  else if gatherStuck s (progAt s 15) then
    haltCtx { onCtx s 15 (fun x => { x with state := .running, started := true }) with ckpt := { s.ckpt with restore := 3, restReason := 8 } } 15 3 0
  else replayBegins s

/-- START of a context (R187): 1 to 14 join at context 0's next step boundary. -/
def startCtx (c : Nat) (s : State) : State :=
  if c = 0 then startJob s
  else if c = 15 then startReplay s
  else onCtx s c fun x => { x with state := .running, step := s.steps.committed, pos := 0, started := true, joins := true }

/-- The value of a context command. -/
def ctxCommand (cmd c : Nat) : Nat := 16 * cmd + c

/-- CONTEXT_START (R187). -/
def execContextStart (src : Src) (ctx : Fin 16) (s : State) : Out :=
  .next (hostCommand s src 0x210030 4 (ctxCommand 1 ctx.val) (startOwn s ctx.val) (startCtx ctx.val))

/-! ### HALT, RESUME, UNLOAD (R187) -/

/-- Is the context one that commands may name: not context 15 without a diagnosis-replay load, not one whose UNLOAD waits (R187)? -/
def ctxOpen (s : State) (c : Nat) : Bool := !(ctxAt s c).unloading && (c ≠ 15 || (ctxAt s 15).diag)

/-- What stands against HALT, RESUME and UNLOAD. -/
def haltOwn (s : State) (c : Nat) : Nat := if ctxOpen s c && (ctxAt s c).state = .running then 0 else 6
def resumeOwn (s : State) (c : Nat) : Nat := if ctxOpen s c && (ctxAt s c).state = .halted && (ctxAt s c).cause ≠ 6 then 0 else 6
def unloadOwn (s : State) (c : Nat) : Nat := if ctxOpen s c && ((ctxAt s c).state = .loaded || (ctxAt s c).state = .halted) then 0 else 6

/-- An owner HALT: CAUSE 2 (R186, R189). -/
def ownerHalt (c : Nat) (s : State) : State := haltCtx s c 2 0

/-- RESUME: dispatch goes on after the last dispatched task; a step that only the halt held goes on too (10 R246). -/
def resumeCtx (c : Nat) (s : State) : State := progress (onCtx s c fun x => { x with state := .running }) (ctxAt s c).step

/-- UNLOAD is accepted and waits for queued pieces. -/
def unloadCtx (c : Nat) (s : State) : State := onCtx s c fun x => { x with unloading := true }

/-- CONTEXT_HALT (R187). -/
def execContextHalt (src : Src) (ctx : Fin 16) (s : State) : Out :=
  .next (hostCommand s src 0x210030 4 (ctxCommand 2 ctx.val) (haltOwn s ctx.val) (ownerHalt ctx.val))

/-- CONTEXT_RESUME (R187). -/
def execContextResume (src : Src) (ctx : Fin 16) (s : State) : Out :=
  .next (hostCommand s src 0x210030 4 (ctxCommand 3 ctx.val) (resumeOwn s ctx.val) (resumeCtx ctx.val))

/-- CONTEXT_UNLOAD (R187). -/
def execContextUnload (src : Src) (ctx : Fin 16) (s : State) : Out :=
  .next (hostCommand s src 0x210030 4 (ctxCommand 4 ctx.val) (unloadOwn s ctx.val) (unloadCtx ctx.val))

/-- Does a core hold a piece or check of the context? -/
def onSomeCore (s : State) (c : Nat) : Bool :=
  s.cores.toList.any fun k => (piecesOn k).any (fun p => decide (p.ctx = c)) || (checksOn k).any fun x => decide (x.piece.ctx = c)

/-- Is a COLL of the context at the link blocks, in a step that is open? -/
def collOpen (s : State) (c : Nat) : Bool := (openAt s (ctxAt s c).step).isSome && (ctxAt s c).left.any fun l => (taskAt s c l.1).any isColl

/-- Has every queued piece of the context completed, and, for context 0, every open capture ended (R187, 13 R352)? -/
def unloadReady (s : State) (c : Nat) : Bool := !onSomeCore s c && !collOpen s c && (c ≠ 0 || s.ckpt.captures.all (·.durable))

/-- The context is EMPTY and its storage free but for what open captures hold (13 R343); the fields of its last halt stand (R186). -/
def freeCtx (s : State) (c : Nat) : State :=
  let s := onCtx s c fun x => { cause := x.cause, causeTask := x.causeTask }
  let copies := s.vers.copies.flatMap fun k => if k.ctx = c then unloadedCopy s k else [k]
  sizeReserve { s with vers := { s.vers with copies := copies },
                       place := { s.place with tensors := s.place.tensors.filter (fun k => k.ctx ≠ c), tasks := s.place.tasks.filter (fun k => k.ctx ≠ c),
                                               plan := s.place.plan.filter fun m => m.ctx ≠ c } }

/-- The job ends with context 0: no step is open, what contexts 1 to 14 had begun of it is discarded, and the state is READY (16 R434). -/
def jobEnds (s : State) : State :=
  let s := discardSteps s (s.steps.committed + 1)
  let copies := s.vers.copies.flatMap fun k => if isMirrorTile k then unloadedCopy s k else [k]
  let again (x : Ctx) : Ctx := if isLive x then { ctxBegins s.steps.committed x with held := [], waiting := none, began := [], joins := true } else x
  let s := { s with steps := { s.steps with older := none, younger := none, replayDue := none },
                    ctxs := Vector.ofFn fun i => if i.val < 15 then again s.ctxs[i] else s.ctxs[i],
                    recov := { s.recov with role := if s.recov.role = .fenced then .fenced else .none, hold := false, wait := false, taking := none },
                    vers := { s.vers with mirrorRecs := [], mirrorW := [], mirrorLost := false, copies := copies } }
  if inJob s then jobToReady s else s

/-- A diagnosis replay ends with context 15. -/
def replayEnds (s : State) : State :=
  if s.steps.replayActive then { s with steps := { s.steps with replayActive := false, older := none, younger := none } } else s

/-- UNLOAD_COMPLETE (R187). -/
def execUnloadComplete (ctx : Fin 16) (s : State) : Out :=
  if (ctxAt s ctx.val).unloading && unloadReady s ctx.val then
    let s := freeCtx s ctx.val
    .next (if ctx.val = 0 then jobEnds s else if ctx.val = 15 then replayEnds s else s)
  else .next s

/-! ### Counter clear (03 R85, R86) -/

/-- What a write of 1 to 0x4000.0D clears: entries .02 to .07 and .0C of R85, and those of R107, R165 and R259. -/
def clearCounters (s : State) : State :=
  { s with num := { reservedExp := s.num.reservedExp, recIdx := s.num.recIdx, recs := s.num.recs } }

/-- Every value but 1 is reserved (R85). -/
def clearOwn (value : Nat) : Nat := if value = 1 then 0 else 4

/-- COUNTER_CLEAR (R85). -/
def execCounterClear (src : Src) (s : State) : Out := .next (hostCommand s src 0x40000D 1 1 (clearOwn 1) clearCounters)

end Sys2Proof.Machine
end

