-- ==== Sys2Proof/Machine/Boot.lean ====
section
/-! DEFINITION. Power, the boot phases, what a module reset and a power loss take away, image banks at boot, and the state commands
(16 R427 to R438, 18 R473 to R477, 21 R525 to R528, 22 R547, R557). -/

namespace Sys2Proof.Machine

/-! ### Image banks (18 R475, R477; 21 R525, R528) -/

/-- The types of a list whose other bank is PENDING are activated. -/
def activateTypes (s : State) (ts : List Nat) : State := (ts.filter fun t => (pendingTypes s).contains t).foldl bankActivated s

/-- A verification failure, refused token or revocation (0xA000.52). -/
def securityEvent (s : State) : State := { s with sec := { s.sec with events := s.sec.events + 1 } }

/-- A trial bank is confirmed: the version counter rises to its SVN (21 R528), and a hub image's revocation fuse is blown, never that of
the slot that signed it (21 R525). -/
def bankConfirmed (s : State) (t : Nat) : State :=
  let p := pairOf s t
  if !p.trial then s
  else
    let img := (activeBank p).img
    let s := onPair s t fun p => { p with trial := false }
    let svns := updN s.sec.svns (t - 1) fun n => max n img.svn
    let s := { s with sec := { s.sec with svns := svns, svnFlash := svns } }
    match img.revoke with
    | some k => if t = 2 && img.keySlot ≠ some k then securityEvent { s with sec := { s.sec with revoked := s.sec.revoked ||| BitVec.twoPow 4 k.val } } else s
    | none => s

/-- Does a bank hold an image that can be verified? -/
def bankHolds (b : Bank) : Bool := decide (b.state ≥ 3)

/-- Does the world's list of images that fail verification name bank B (`true`) or A of a type? -/
def imageBad (bad : List (Nat × Nat)) (t : Nat) (b : Bool) : Bool := bad.contains (t, bit b)

/-- Is the firmware-key slot that an image names one of the fused four, and not revoked (21 R525)? -/
def keyLive (s : State) (k : Option (Fin 4)) : Bool :=
  match k with
  | some i => !s.sec.revoked.getLsbD i.val
  | none => false

/-- Does a bank of a type verify: the world finds its bytes good, its key slot stands and its SVN is not below the counter (21 R525)? -/
def bankVerifies (s : State) (bad : List (Nat × Nat)) (t : Nat) (b : Bool) : Bool :=
  let img := (if b then (pairOf s t).b else (pairOf s t).a).img
  !imageBad bad t b && keyLive s img.keySlot && decide (nth s.sec.svns (t - 1) 0 ≤ img.svn)

/-- Verifies the active bank of a type, and the other one where it fails (21 R526). -/
def bootVerify (bad : List (Nat × Nat)) (s : State) (t : Nat) : State × Bool :=
  let p := pairOf s t
  if bankVerifies s bad t p.activeB then (s, true)
  else
    let s := securityEvent s
    if !bankHolds (otherBank p) then (s, false)
    else if !bankVerifies s bad t (!p.activeB) then (securityEvent s, false)
    else (bankReverted s t, true)

/-! ### Latches and maps at a start (20 R512, 11 R290, 08 R207) -/

/-- Entries latched at power-up and module reset (11 R287, R290, R297). -/
def bootLatch (d : Dict) : Latched :=
  { machine := dictVal d 0x300001, coords := dictVal d 0x300002, ratio := dictVal d 0x300003, discMode := dictVal d 0x300004,
    shape := dictVal d 0x300005, sparePos := dictVal d 0x300006 }

/-- The slot map of a core map: slot s is the s-th lowest active core (08 R207). -/
def slotsFor (w : BitVec 32) : Vector Nat 16 :=
  let l := (upto 17).filter (activeIn w)
  Vector.ofFn fun i => l.getD i.val 31

/-- Classed records of the last 2,592,000 s of operating time (14 R387). -/
def recentClassed (l : Ledger) (now : Nat) : List LRec :=
  let near (r : LRec) : Bool := decide (r.cls ≠ 0) && decide (now ≤ r.optime + 2592000)
  let ring := l.ring.filter near
  ring ++ l.kept.filter fun r => near r && !ring.any fun x => x.seq = r.seq

/-- An area whose writing a reset or power loss ends holds no manifest (13 R352, R355). -/
def areaCut (a : Area) : Area := if a.state = 1 then { state := 4, cut := a.cut } else a

/-! ### What a module reset loses (R436) -/

/-- RWP values only: RW entries return to their defaults (20 R508). -/
def keepRwp (vals : List (Nat × Nat)) : List (Nat × Nat) := vals.filter fun v => isRwp v.1 || decide (v.1 = 0x800003)

/-- The host port after a module reset: sessions stand, what the hub held is gone (19 R500, R501, 20 R523). -/
def hostAfterReset (h : HostPort) : HostPort :=
  { ownerless h with illegal := 0, lastIllegal := 0, noteSeq := 0, noteRing := [], noteHeld := [], note15 := none, msix0 := 0, msix1 := 0, reply := none,
                     linkWidth := 0, linkRate := 0, only68 := false,
                     sessions := h.sessions.map fun x => { x with queued := 0 } }

/-- Firmware state after a module reset: flash, images and the Farrier's own state stand (18 R484, R487). -/
def fwAfterReset (f : Fw) : Fw :=
  { farrierDown := f.farrierDown, images := f.images, updReason := f.updReason, updType := f.updType, updState := f.updState,
    updPct := f.updPct, updSource := f.updSource, updLen := f.updLen, deferMask := f.deferMask, deferred := f.deferred, reversions := f.reversions,
    flashLog := f.flashLog, flashIdx := f.flashIdx, flashLoss := f.flashLoss, sums := f.sums, sumMem := f.sumMem, dumpCount := f.dumpCount }

/-- The security core after a module reset: M0 and what flash and fuses hold (21 R527, R532, R537). -/
def secAfterReset (c : Sec) : Sec :=
  { meas := Vector.ofFn fun i => if i.val = 0 then c.meas[i] else 0, svns := c.svns, svnFlash := c.svnFlash, revoked := c.revoked, creds := c.creds, claimNonce := c.claimNonce,
    debugNonce := c.debugNonce, unlockSeen := c.unlockSeen, events := c.events, identity := c.identity, prodKey := c.prodKey, frags := c.frags }

/-- The start-up state after a module reset: UCIe modules, partitions and tests afresh. -/
def devAfterReset (d : Dev) : Dev :=
  { on := d.on, state := d.state, lastKind := d.lastKind, lastPart := d.lastPart, lastCause := d.lastCause, holdoff := true, oosKeep := d.oosKeep, prodEntry := d.prodEntry,
    prodTest := d.prodTest, minimal := d.minimal, ledgerRst := d.ledgerRst, fused := d.fused, scanOpen := d.scanOpen, prodNonce := d.prodNonce, prodHello := d.prodHello, tap := d.tap,
    product := d.product, fuses := d.fuses }

/-- Recovery state that flash keeps; a fenced module stays fenced (15 R405, R424, R425). -/
def recovAfterReset (r : Recov) : Recov :=
  { partHist := r.partHist, modHist := r.modHist, partResets := r.partResets, modResets := r.modResets, role := if r.role = .fenced then .fenced else .none }

/-- What is left of the state when the package has been off (R436). -/
def resetLoss (s : State) : State :=
  let d : Dict := { s.dict with vals := keepRwp s.dict.vals, kept := [] }
  { pending := s.pending, clk := s.clk, pins := s.pins, dev := devAfterReset s.dev, domains := s.domains, dict := { d with latched := bootLatch d },
    host := hostAfterReset s.host,
    place := { coreMap := s.place.coreMap, withheld := s.place.withheld, slotMap := s.place.coreMap.map slotsFor },
    ckpt := { areas := s.ckpt.areas.map areaCut, pool := s.ckpt.pool.map areaCut, jobArea := s.ckpt.jobArea },
    mem := { repaired := s.mem.repaired },
    ledger := { s.ledger with events := [], toWrite := [], classed := recentClassed s.ledger (optime s) },
    recov := recovAfterReset s.recov, power := { trip := s.power.trip, inlet := s.power.inlet, hubTemp := s.power.hubTemp },
    fw := fwAfterReset s.fw, sec := secAfterReset s.sec, sent := s.sent, free := s.free }

/-! ### OFF (R427) -/

/-- An update that power ends leaves its bank INVALID (18 R474). -/
def bankOff (p : BankPair) : BankPair := onOther p fun b => if b.state = 2 then { b with state := 1 } else b

/-- The record selector of the ledger, which persists (14 R397). -/
def recordSelector (d : Dict) : List (Nat × Nat) := d.vals.filter fun v => decide (v.1 = 0x800003)

/-- The persisted copies when power goes: an interrupted generation leaves the older copy unusable (20 R516, R517). -/
def persistOff (d : Dict) : Dict :=
  let d := if d.writing.isSome then onOlder d fun g => { g with valid := false } else d
  { copyA := d.copyA, copyB := d.copyB, vals := recordSelector d }

/-- The module OFF: flash, fuses, the Lehr store and the production values are what it keeps (R427, R436). -/
def powerOff (s : State) : State :=
  { pending := s.pending,
    clk := { now := s.clk.now, optimeFlash := s.clk.optimeFlash, pcycle := s.clk.pcycle },
    pins := { s.pins with thermTrip := false, alert := false },
    dev := { product := s.dev.product, fuses := s.dev.fuses },
    dict := persistOff s.dict,
    place := { coreMap := s.place.coreMap, withheld := s.place.withheld },
    ckpt := { areas := s.ckpt.areas.map areaCut, pool := s.ckpt.pool.map areaCut, jobArea := s.ckpt.jobArea },
    mem := { repaired := s.mem.repaired },
    ledger := { ring := s.ledger.ring, kept := s.ledger.kept, summary := s.ledger.summary, older := s.ledger.older, written := s.ledger.written, lost := s.ledger.lost,
                pkgSerial := s.ledger.pkgSerial },
    recov := recovAfterReset s.recov,
    fw := { images := s.fw.images.map bankOff, reversions := s.fw.reversions, flashLog := s.fw.flashLog, flashIdx := s.fw.flashIdx, sums := s.fw.sums,
            sumMem := s.fw.sumMem, dumpCount := s.fw.dumpCount },
    sec := { svns := s.sec.svns, svnFlash := s.sec.svnFlash, revoked := s.sec.revoked, creds := s.sec.creds, events := s.sec.events, identity := s.sec.identity, prodKey := s.sec.prodKey },
    sent := s.sent, free := s.free }

/-! ### Power-up (R429, 20 R517) -/

/-- The newest copy whose CRC passes; defaults where neither does (20 R517). -/
def persistedTaken (d : Dict) : Dict :=
  let gs := [d.copyA, d.copyB].filter (·.valid)
  match gs with
  | [] => { copyA := d.copyA, copyB := d.copyB, vals := recordSelector d, defaulted := true }
  | g :: r =>
    let best := r.foldl (fun b x => if x.number > b.number then x else b) g
    { copyA := d.copyA, copyB := d.copyB, vals := (recordSelector d).foldl (fun l x => setVal l x.1 x.2 (dfltOf x.1)) best.image, gen := best.number }

/-- The flash copy of the summary table with the higher LAST_SEQ (14 R387). The model writes a copy in one command, so both copies' CRCs are
valid; what a loss of power cuts off is the record in `toWrite`. -/
def summaryTaken (l : Ledger) : List Summary :=
  let top (t : List Summary) : Nat := t.foldl (fun m e => max m e.lastSeq) 0
  if top l.older > top l.summary then l.older else l.summary

/-- ALERT_N (17 R460): an emergency, the fallback budget, or a Farrier that holds the package unpowered, which has no lease either. -/
def setAlert (s : State) : State :=
  { s with pins := { s.pins with alert := s.dev.on && (s.power.emers.any (fun e => !e.cleared) || !leaseLive s || s.dev.stuck) } }

/-- From OFF the module starts in BOOT with phase 1, or waits in production entry (R429, 22 R557). -/
def powerUp (s : State) (prodEntry : Bool) : State :=
  let d := persistedTaken s.dict
  let s := { s with clk := { s.clk with pcycle := s.clk.pcycle + 1, opBase := s.clk.optimeFlash, opFrom := s.clk.now },
                    dev := { s.dev with on := true, state := .boot, phase := if prodEntry then 0 else 1, lastKind := 0, lastPart := 0, lastCause := 1, prodEntry := prodEntry },
                    dict := { d with latched := bootLatch d },
                    place := { s.place with slotMap := s.place.coreMap.map slotsFor },
                    host := { s.host with plcaId := dictVal d 0x120010 }, sec := { s.sec with svnFlash := s.sec.svns },
                    ledger := { s.ledger with summary := summaryTaken s.ledger, classed := recentClassed s.ledger s.clk.optimeFlash } }
  let s := [1, 2].foldl bootAttempt (if rw s 0x900005 = 2 then activateTypes s [1, 2, 3] else s)
  setAlert { s with sec := { s.sec with cfgWord := BitVec.ofNat 32 (secConfig s) } }

/-- Is the input inside 40 to 50 V (22 R546, R547)? -/
def inputGood (mv : Nat) : Bool := decide (40000 ≤ mv) && decide (mv ≤ 50000)

/-- PWR_EN_ASSERT (R427, R429, 22 R547). -/
def execPwrEnAssert (inputMv : Nat) (prodEntry : Bool) (s : State) : Out :=
  let s := { s with pins := { s.pins with pwrEn := true, inputMv := inputMv, inputOk := inputGood inputMv, trstN := s.pins.trstN || prodEntry,
                                          prodHeld := prodEntry } }
  if !s.dev.on && inputGood inputMv && !s.pins.fetOpen then .next (powerUp s prodEntry) else .next s

/-- INPUT_RESTORED (22 R547): the input has been inside 40 to 50 V for 100 ms with PWR_EN asserted. -/
def execInputRestored (inputMv : Nat) (s : State) : Out :=
  if !s.dev.on && s.pins.pwrEn && inputGood inputMv then
    .next (powerUp { s with pins := { s.pins with inputMv := inputMv, inputOk := true, fetOpen := false } } s.pins.prodHeld)
  else .next s

/-! ### Power-down (R428, 22 R547) -/

/-- A power-down request: LEAVING cause 2, then the Lehr store; a Farrier restart leaves step 2 out (18 R472). It overrides any reset. -/
def powerDown (s : State) : State :=
  if !s.dev.on || s.dev.down.any (fun d => !d.reset) then s
  else
    let s := sendLeaving (gallopStop s) 2 allDirs
    let s := { s with dev := { s.dev with down := some { step := if s.fw.farrierDown then 3 else 2, reset := false }, holdoff := false } }
    if s.fw.farrierDown then s else emit s (.lehr 0 0)

/-- PWR_EN_DEASSERT (R428). -/
def execPwrEnDeassert (s : State) : Out := .next (powerDown { s with pins := { s.pins with pwrEn := false } })

/-- INPUT_UNDERVOLTAGE (R428, 22 R547). -/
def execInputUndervoltage (s : State) : Out := .next (powerDown { s with pins := { s.pins with inputOk := false } })

/-- A generation that has started completes before the Farrier's rail goes (20 R517). -/
def persistLast (d : Dict) : Dict :=
  match d.writing with
  | some g => { onOlder d fun _ => g with writing := none }
  | none => d

/-- The Farrier's rail is off (R428 step 4); with PWR_EN asserted and the input good the module starts again (R427). -/
def railOff (s : State) : State :=
  let s := powerOff { s with dict := persistLast s.dict }
  if s.pins.pwrEn && s.pins.inputOk && !s.pins.fetOpen then powerUp s s.pins.prodHeld else s

/-- Every package domain off, in the reverse of the order of 01 R34. -/
def packageOff (s : State) : State :=
  domainsOff s ((upto 8).reverse.flatMap (fun p => (partDomains p).reverse) ++ [47, 49, 41, 44, 45, 46, 42, 48, 40, 43])

/-- The step after one of R428 or R436: the domains, then the rail or the hold-off. -/
def powerStep (s : State) (d : Down) : State :=
  match d.step with
  | 2 => { s with dev := { s.dev with down := some { d with step := 3 } } }
  | 3 =>
    let s := packageOff s
    if d.reset then setAlert (resetLoss s) else { s with dev := { s.dev with down := some { d with step := 4 } } }
  | _ => railOff s

/-- POWER_DOWN_STEP_DONE (R428, R436). -/
def execPowerDownStepDone (s : State) : Out :=
  match s.dev.down with
  | some d => .next (powerStep s d)
  | none => .next s

/-- INPUT_FET_OPEN (22 R547): below 36 V or above 54 V; R428 does not run. -/
def execInputFetOpen (inputMv : Nat) (s : State) : Out :=
  if inputMv < 36000 || inputMv > 54000 then
    let s := { s with pins := { s.pins with inputMv := inputMv, inputOk := false, fetOpen := true } }
    .next (if s.dev.on then powerOff s else s)
  else .next s

/-! ### Boot phases (R429, R433, 21 R526, R527) -/

/-- Do the reset histories end this boot after phase 3 (R433)? -/
def historiesOver (s : State) : Bool := partsOver s || modsOver s

/-- PD43 comes on: the security core starts with M0 reported, and fresh nonces (21 R527, R533, R537). -/
def securityOn (s : State) : State :=
  domainsOn { s with sec := { s.sec with claimNonce := Config.freeWord s.free, debugNonce := Config.freeWord (s.free + 1) }, free := s.free + 2 } [43]

/-- The end of phase 2: the Farrier image is confirmed, unless the boot ROM's minimal image runs (22 R557), the histories are evaluated, and
PD43 comes on. -/
def phase2Ends (s : State) : State :=
  let s := if s.dev.minimal then s else bankConfirmed s 1
  let image := if s.dev.minimal then Config.minimalImage else (activeBank (pairOf s 1)).img.pdigest
  let s := { s with sec := { s.sec with meas := updN s.sec.meas 0 fun m => extend m image } }
  securityOn { s with dev := { s.dev with phase := 3, oosAtEnd := s.dev.oosAtEnd || historiesOver s } }

/-- MODULE_RESET_HOLDOFF_END (R436): the histories again, pending images under mode 1, PD43, and phase 3. -/
def execModuleResetHoldoffEnd (s : State) : Out :=
  if s.dev.holdoff then
    let s := bootAttempt (if rw s 0x900005 = 1 then activateTypes s [2, 3] else s) 2
    let s := { s with sec := { s.sec with cfgWord := BitVec.ofNat 32 (secConfig s) } }
    .next (securityOn { s with dev := { s.dev with holdoff := false, phase := 3, oosAtEnd := historiesOver s || s.dev.oosKeep, oosKeep := false } })
  else .next s

/-- M1 and M2, and M7; M3 where the pattern library verifies (21 R526, R527). -/
def measureBoot (lib : Bool) (s : State) : State :=
  let hub := (activeBank (pairOf s 2)).img.pdigest
  let digs : Vector Digest 12 := Vector.ofFn fun o => Config.component hub (1 + o.val)
  let m := updN s.sec.meas 1 fun m => extend m (Config.component hub 0)
  let m := updN m 2 fun m => digs.toList.foldl extend m
  let m := if lib then updN m 3 fun m => extend m (activeBank (pairOf s 3)).img.pdigest else m
  let m := updN m 7 fun m => extend m (BitVec.ofNat 256 (read1000 s 6))
  { s with sec := { s.sec with meas := m, bootDig := digs } }

/-- The CXL port trains with PD41 on and PERST_N deasserted (19 R488). What the host offers is free (log 218): it gives the width, ×1 to ×8, the
rate, 8 to 64 GT/s, and whether only 68-byte flits are offered, with which no link comes up. -/
def hostTrains (s : State) : State :=
  let w := (drawnWord s).toNat
  let no := w.testBit 4
  if s.pins.perstN && s.domains.getLsbD 41 then
    drawn { s with host := { s.host with only68 := no, linkWidth := if no then 0 else 2 ^ fld w 1 0, linkRate := if no then 0 else 8 * 2 ^ fld w 3 2 } }
  else s

/-- The hub's domains in R429's order, PD47 only with a guest die; the CXL port trains. -/
def hubOn (s : State) : State :=
  hostTrains (domainsOn { s with clk := { s.clk with hubOn := s.clk.now } } ([40, 48, 42, 46, 45, 44, 41, 49] ++ if guestPart s then [47] else []))

/-- The boot ends in OUT_OF_SERVICE; the phase stays (R440). -/
def bootFails (s : State) : State := changeState s .outOfService

/-- Brings up one partition: step 1 of R430 begins. -/
def bringStarts (s : State) (p : Nat) : State := { s with dev := { s.dev with bring := updN s.dev.bring p fun _ => 1 } }

/-- The end of phase 3: images verified and measured, hub on, then the partitions. -/
def phase3Ends (bad : List (Nat × Nat)) (s : State) : State :=
  let (s, hub) := bootVerify bad s 2
  let (s, lib) := bootVerify bad s 3
  let s := hubOn s
  if !hub then bootFails s
  else
    let s := measureBoot lib (if lib then bankConfirmed s 3 else s)
    if !lib || s.dev.oosAtEnd then bootFails s else bringStarts { s with dev := { s.dev with phase := 4, nextPart := 1 } } 0

/-- The self-test kernels of R432: one of each of the four families on every active core. -/
def bootKernels (s : State) : List (Nat × Nat) := (activeCores s).flatMap fun g => [1, 2, 3, 4].map fun f => (g, f)

/-- The end of phase 4, once every partition has been brought up or held off (R431). -/
def phase4Ends (s : State) : State :=
  if s.dev.nextPart < 8 || s.dev.bring.toList.any (· ≠ 0) then s
  else if s.dev.oosAtEnd then bootFails s
  else { s with dev := { s.dev with phase := 5, kernels := bootKernels s, retest := [] } }

/-- The end of phase 5, with the marches over the link stores and the hub commons done (R432): READY, TEST after production entry, or OUT_OF_SERVICE (R432, R434). -/
def phase5Ends (s : State) : State :=
  if !s.dev.kernels.isEmpty || !s.dev.retest.isEmpty || !s.ledger.events.isEmpty || s.dev.bring.toList.any (· ≠ 0) then s
  else
    let s := { s with dev := { s.dev with phase := 6, marched := 0x1FF } }
    if s.dev.oosAtEnd then bootFails s
    else if s.dev.prodEntry then configChanged (changeState { s with dev := { s.dev with prodTest := true, scanOpen := true } } .test)
    else bankConfirmed (changeState s .ready) 2

/-- The phase in progress completes (R429). -/
def phaseEnds (bad : List (Nat × Nat)) (s : State) : State :=
  match s.dev.phase with
  | 1 =>
    let (s, ok) := bootVerify bad s 1
    if ok then { s with dev := { s.dev with phase := 2 } }
    else if s.dev.prodEntry then { s with dev := { s.dev with phase := 2, minimal := true } }
    else setAlert { s with dev := { s.dev with stuck := true } }
  | 2 => phase2Ends s
  | 3 => phase3Ends bad s
  | 4 => phase4Ends s
  | 5 => phase5Ends s
  | _ => s

/-- Is a boot running: in BOOT, and not while a reset's power-down or hold-off runs or the Farrier restarts? -/
def booting (s : State) : Bool := s.dev.on && decide (s.dev.state = .boot) && s.dev.down.isNone && !s.dev.holdoff && !s.fw.farrierDown && !s.dev.stuck

/-- BOOT_PHASE_DONE (R429, R434). -/
def execBootPhaseDone (badImages : List (Nat × Nat)) (s : State) : Out := if booting s then .next (phaseEnds badImages s) else .next s

/-! ### State commands (R435) -/

/-- The value of a state command. -/
def stateCommand (cmd part : Nat) : Nat := 256 * part + cmd

/-- What stands against each state command (R435, 22 R557). -/
def stateOwn (s : State) (value : Nat) : Nat :=
  let part := fld value 11 8
  match fld value 7 0 with
  | 1 => if s.dev.state = .ready && allEmpty s then 0 else 6
  | 2 => if s.dev.state = .test && allEmpty s && !s.dev.prodTest then 0 else 6
  | 3 => if s.dev.state = .boot then 6 else 0
  | 4 => if part ≥ 8 then 4 else if s.dev.state = .boot then 6 else 0
  | _ => 4

/-- The effect of each state command. -/
def stateAct (value : Nat) (s : State) : State :=
  match fld value 7 0 with
  | 1 => changeState s .test
  | 2 => changeState s .ready
  | 3 => modReset s 2
  | 4 => partReset s (fld value 11 8) 2
  | _ => s

/-- STATE_ENTER_TEST. -/
def execStateEnterTest (src : Src) (s : State) : Out := .next (hostCommand s src 0x200002 2 (stateCommand 1 0) (stateOwn s (stateCommand 1 0)) (stateAct (stateCommand 1 0)))

/-- STATE_LEAVE_TEST. -/
def execStateLeaveTest (src : Src) (s : State) : Out := .next (hostCommand s src 0x200002 2 (stateCommand 2 0) (stateOwn s (stateCommand 2 0)) (stateAct (stateCommand 2 0)))

/-- MODULE_RESET_COMMAND. -/
def execModuleResetCommand (src : Src) (s : State) : Out := .next (hostCommand s src 0x200002 2 (stateCommand 3 0) (stateOwn s (stateCommand 3 0)) (stateAct (stateCommand 3 0)))

/-- PARTITION_RESET_COMMAND. -/
def execPartitionResetCommand (src : Src) (p : Fin 8) (s : State) : Out :=
  .next (hostCommand s src 0x200002 2 (stateCommand 4 p.val) (stateOwn s (stateCommand 4 p.val)) (stateAct (stateCommand 4 p.val)))

/-! ### PERST_N (R438) -/

/-- Is a waiting request one of the mailbox? -/
def byMailbox (q : OstlerReq) : Bool :=
  match q with
  | .host src _ _ => decide (src.path = .mailbox)
  | .unit _ => false
  | .fence _ _ => false
  | .transfers => false
  | .held _ => false
  | .rebuild => false

/-- PERST_N_ASSERT: a mailbox command that waits is dropped without a reply; nothing else of the module stops. -/
def execPerstNAssert (s : State) : Out :=
  .next { s with pins := { s.pins with perstN := false }, host := { s.host with linkWidth := 0, linkRate := 0, only68 := false },
                 fw := { s.fw with ostlers := s.fw.ostlers.map fun o => { o with queue := o.queue.filter fun q => !byMailbox q } } }

/-- PERST_N_DEASSERT: the port's link trains, where PD41 is on (19 R488). -/
def execPerstNDeassert (s : State) : Out := .next (hostTrains { s with pins := { s.pins with perstN := true } })

end Sys2Proof.Machine
end

