-- ==== Sys2Proof/Machine/Sync.lean ====
section
/-! DEFINITION. The sync lanes: UP, DOWN, LEAVING, STATE and IDLE frames, heartbeats and silence (11 R284 to R286, R293, R301, R304, R308;
12 R328 to R333; 15 R411, R414, R415). -/

namespace Sys2Proof.Machine

/-! ### Channel frames (12 R330) -/

def upChan (p : Nat) : Nat := fld p 63 58
def upGen (p : Nat) : Nat := fld p 57 50
def upAttempt (p : Nat) : Nat := fld p 49 46
def upAxis (p : Nat) : Nat := fld p 45 44
def upCount (p : Nat) : Nat := fld p 43 38
def upOp (p : Nat) : Nat := fld p 37 36
def upValue (p : Nat) : BitVec 32 := BitVec.ofNat 32 p

/-- Is the neighbour in a direction in the fence set (15 R415)? -/
def fencedSide (s : State) (d : Dir) : Bool := fencedAt s (stepCoord s (ownCoord s) d)

/-- Are the module's barriers at work in its state (11 R308)? -/
def barriersOn (s : State) : Bool := forwards s.dev.state

/-- Is a frame's attempt count the module's own (12 R333)? A module outside the job counts none. -/
def attemptOk (s : State) (p : Nat) : Bool :=
  upAttempt p = s.steps.attempt % 16 || !(takesPart s || decide (s.recov.role = .spare))

/-- What a frame's mark names: the perpendicular direction that it set out in, and the blocked position's colour; none for a frame that goes
straight (log 193). -/
def bridgeOf (p : Nat) : Option (Dir × Nat) :=
  let m := fld p 35 32
  if m = 0 || m > 12 then none else some ((perps (dirOf (2 * upAxis p))).getD ((m - 1) / 3) .xp, (m - 1) % 3)

/-- Does a mark's colour say that the blocked position stands at coordinate `b` of the axis, for a frame that travels to one side of it? -/
def markAt (s : State) (p x b : Nat) (plus : Bool) : Bool := decide (x = markColour s (upAxis p) b plus)

/-- The coordinate next to the module's own on a frame's axis. -/
def nextOn (s : State) (p : Nat) (plus : Bool) : Nat := coordOn (stepCoord s (ownCoord s) (dirOf (2 * upAxis p + if plus then 0 else 1))) (upAxis p)

/-- The side that an UP value from the neighbour in direction `d` counts for: the link's own, or that of the blocked position that a bridged
frame has come round, at the end of its way; none for a frame to pass on (R310, R332). -/
def upSide (s : State) (p : Nat) (d : Dir) : Option Bool :=
  match bridgeOf p with
  | none => if axisOf d = upAxis p then some (isPlus d) else none
  | some (q, x) =>
    -- it has come back in the direction opposite to the first: the blocked position is a neighbour on the axis
    let side (plus : Bool) : Bool := markAt s p x (nextOn s p plus) (!plus) && blockedDir s (dirOf (2 * upAxis p + if plus then 0 else 1))
    if d = q then (if side false then some false else if side true then some true else none) else none

/-- Passes a bridged frame on unchanged: from its first hop along the blocked direction, for two hops, and then back (R310, R332). -/
def bridgeOn (s : State) (p : Nat) (d : Dir) : State :=
  match bridgeOf p with
  | some (q, x) =>
    let along (plus : Bool) : Dir := dirOf (2 * upAxis p + if plus then 0 else 1)
    let here := coordOn (ownCoord s) (upAxis p)
    if opposite d = q then
      -- beside the sender: the blocked position is next on one side
      if markAt s p x (nextOn s p true) true then sendFrame s 1 p (along true)
      else if markAt s p x (nextOn s p false) false then sendFrame s 1 p (along false) else s
    else if axisOf d = upAxis p then
      -- beside the blocked position it goes on, one past it it turns back
      if markAt s p x here (!isPlus d) then sendFrame s 1 p (opposite d)
      else if markAt s p x (nextOn s p (isPlus d)) (!isPlus d) then sendFrame s 1 p (opposite q) else s
    else s
  | none => s

/-- What a fenced module does with an UP frame: it has no word of its own and passes the frame on the way that it travels (15 R416; log 193). -/
def upPast (s : State) (p : Nat) (d : Dir) : State :=
  match bridgeOf p with
  | some _ => bridgeOn s p d
  | none =>
    if axisOf d = upAxis p && stepInBlock s (ownCoord s) (opposite d) && !blockedDir s (opposite d) then sendFrame s 1 p (opposite d) else s

/-- What completes once a channel has a combined word. -/
def finishChan (s : State) (k : Nat) : State :=
  match k with
  | 0 => finishStep s
  | 1 => castVotes s 8
  | _ => finishProgram s k

/-- NOTICE bits of a channel-0 frame adopt the records they name (15 R414). -/
def noticesIn (s : State) (p : Nat) : State := if upChan p = 0 && !replaying s then adoptNotices s (upValue p).toNat else s

/-- A valid UP frame of the block joins its channel's phase (R331). -/
def takeUp (s : State) (p : Nat) (d : Dir) : State :=
  let s := noticesIn s p
  match upSide s p d with
  | none => bridgeOn s p d
  | some plus => finishChan (chanTake s (upChan p) (upGen p) (upOp p) (upAxis p) plus (upCount p) (upValue p)) (upChan p)

/-- SYNC_UP_FRAME (R331). -/
def execSyncUpFrame (link : Fin 48) (frame : BitVec 96) (s : State) : Out :=
  let d := linkDir s link.val
  let p := frLoad frame
  if !frameDue s link.val 1 frame then .next s
  else if !frOk frame then .next (frameBad s link.val)
  else if !frameNew s link.val frame then .next (frameSeen s link.val)
  else
    let s := frameIn s link.val frame
    if !barriersOn s || upAxis p = 3 || fencedSide s d then .next s
    else if !stepInBlock s (ownCoord s) d then .next { s with topo := { s.topo with outOfBlock := s.topo.outOfBlock + 1 } }
    else if s.recov.role = .fenced then .next (upPast s p d)
    else if !attemptOk s p then .next s
    else .next (takeUp s p d)

/-- Holds an abort of the next instance (R329): direction it came from, and word. -/
def holdDown (s : State) (p : Nat) (d : Dir) : State :=
  onChan s 0 fun c => { c with early := c.early ++ [(upGen p, 3, false, dirCode d, upValue p)] }

/-- The step whose instance a DOWN frame names. -/
def downStep (s : State) (p : Nat) : Nat := if takesPart s || s.recov.role = .spare then stepClosing s else upGen p

/-- Is a DOWN frame the first copy of its abort? Where the module closes steps of its own the generation and the attempt say so; a module
outside the job remembers the last abort it has forwarded (R333). -/
def firstAbort (s : State) (p : Nat) : Bool :=
  takesPart s || decide (s.recov.role = .spare) || decide (s.steps.lastAbort ≠ some (upGen p, upAttempt p))

/-- A fenced module forwards the first copy of an abort with its own FENCE bits; no instance of its own completes (15 R416). -/
def downPast (s : State) (p : Nat) (d : Dir) : State :=
  let s := { s with steps := { s.steps with lastAbort := some (upGen p, upAttempt p) } }
  sendFrames s 2 (p ||| fenceBits s) ((blockDirs s).filter fun x => x ≠ d)

/-- SYNC_DOWN_FRAME (R333): the first copy is forwarded with the module's FENCE bits and completes the instance. -/
def execSyncDownFrame (link : Fin 48) (frame : BitVec 96) (s : State) : Out :=
  let d := linkDir s link.val
  let p := frLoad frame
  if !frameDue s link.val 2 frame then .next s
  else if !frOk frame then .next (frameBad s link.val)
  else if !frameNew s link.val frame then .next (frameSeen s link.val)
  else
    let s := frameIn s link.val frame
    if !barriersOn s || upChan p ≠ 0 || fencedSide s d then .next s
    else if !stepInBlock s (ownCoord s) d then .next { s with topo := { s.topo with outOfBlock := s.topo.outOfBlock + 1 } }
    else if s.recov.role = .fenced then .next (if firstAbort s p then downPast s p d else s)
    else if !attemptOk s p || !firstAbort s p then .next s
    else if upGen p = gen0 (downStep s p) then
      .next (takeAbort { s with steps := { s.steps with lastAbort := some (upGen p, upAttempt p) } } (downStep s p) (upValue p).toNat d)
    else if upGen p = gen0 (downStep s p + 1) then .next (holdDown (noticesIn s p) p d)
    else .next s

/-! ### LEAVING and STATE (11 R284, R304, R308; 15 R411) -/

/-- The links that a LEAVING takes HELD: the link itself, or with cause 2 every link of the bundle (R304). -/
def leavers (s : State) (l cause : Nat) : List Nat := if cause = 2 then dirLinks s (linkDir s l) else [l]

/-- A LEAVING from a direction: its links go HELD; a module reset is proposed for a fence at once (15 R411 reason 2). -/
def takeLeaving (s : State) (l cause : Nat) : State :=
  let d := linkDir s l
  let s := { s with topo := { s.topo with sides := updN s.topo.sides (dirCode d) fun x => { x with left := cause } } }
  let s := (leavers s l cause).foldl holdLink s
  if cause = 2 then proposeNeighbour s d 2 else s

/-- SYNC_LEAVING_FRAME (R304). -/
def execSyncLeavingFrame (link : Fin 48) (frame : BitVec 96) (s : State) : Out :=
  if !frameDue s link.val 3 frame then .next s
  else if !frOk frame then .next (frameBad s link.val)
  else if !frameNew s link.val frame then .next (frameSeen s link.val)
  else .next (takeLeaving (frameIn s link.val frame) link.val (fld (frLoad frame) 2 0))

/-- The neighbour's state, the fence that BOOT or OUT_OF_SERVICE brings, and the change of source that RECOVERY brings (15 R411 reason 3,
R421). -/
def takeState (s : State) (d : Dir) (code : Nat) : State :=
  if code = 0 then s
  else
    let st := devOfCode code
    let s := repull { s with topo := { s.topo with sides := updN s.topo.sides (dirCode d) fun x => { x with nbState := some st } } } (pulls s)
    if st = .boot || st = .outOfService then proposeNeighbour s d 3 else s

/-- SYNC_STATE_FRAME (R308). -/
def execSyncStateFrame (link : Fin 48) (frame : BitVec 96) (s : State) : Out :=
  if !frameDue s link.val 4 frame then .next s
  else if !frOk frame then .next (frameBad s link.val)
  else if !frameNew s link.val frame then .next (frameSeen s link.val)
  else .next (takeState (frameIn s link.val frame) (linkDir s link.val) (fld (frLoad frame) 2 0))

/-! ### IDLE frames, heartbeats, silence (R286) -/

/-- SYNC_IDLE_FRAME: the lane's heartbeat is refreshed. -/
def execSyncIdleFrame (link : Fin 48) (frame : BitVec 96) (s : State) : Out :=
  if !frameDue s link.val 0 frame then .next s
  else if !frOk frame then .next (frameBad s link.val)
  else .next (frameSeen s link.val)

/-- IDLE_FRAME_SEND: a lane in service with nothing else to send. -/
def execIdleFrameSend (link : Fin 48) (s : State) : Out :=
  if s.dev.on && inService (linkAt s link.val) && !scanDrives s then .next (emit s (.frame link.val (frameOf 0 0 0))) else .next s

/-- SYNC_LANE_HEARTBEAT_LOSS: 64 µs without a valid frame take the link down with cause heartbeat (R286, R301). -/
def execSyncLaneHeartbeatLoss (link : Fin 48) (s : State) : Out :=
  if inService (linkAt s link.val) then
    .next (linkDown (reach s ((linkAt s link.val).lastFrame + 64000)) link.val 5)
  else .next s

/-- Did lanes of the direction ever serve, so that it can fall silent? -/
def sideServed (s : State) (d : Dir) : Bool := (upto 48).any fun l => (linkAt s l).dir = some d && (linkAt s l).farSerial.isSome

/-- The last valid frame of a direction's lanes. -/
def lastOnSide (s : State) (d : Dir) : Nat :=
  ((upto 48).filter fun l => (linkAt s l).dir = some d).foldl (fun t l => max t (linkAt s l).lastFrame) 0

/-- BUNDLE_SILENT: no sync lane of the bundle has delivered a valid frame for 64 µs; ostler 1 is told (R286). -/
def execBundleSilent (d : Dir) (s : State) : Out :=
  if sideServed s d && !(sideOf s d).silent then
    let s := reach s (lastOnSide s d + 64000)
    .next { s with topo := { s.topo with sides := updN s.topo.sides (dirCode d) fun x => { x with silent := true, lossAt := s.clk.now } } }
  else .next s

end Sys2Proof.Machine
end

