-- ==== Sys2Proof/Machine/Recovery.lean ====
section
/-! DEFINITION. Fence proposals, floods and records, takeover, refill and the mirror (15 R403, R409, R411 to R421, 10 R260, 13 R345). -/

namespace Sys2Proof.Machine

/-! ### Fence proposals (15 R411, R413) -/

/-- FENCE_PROPOSAL_TIMER (R411): a bundle still silent 1 ms after heartbeat loss brings a fence of reason 1. -/
def execFenceProposalTimer (d : Dir) (s : State) : Out :=
  if (sideOf s d).silent then .next (proposeNeighbour (reach s ((sideOf s d).lossAt + 1000000)) d 1) else .next s

/-- FENCE_FLOOD_REPEAT (R413): proposals not yet adopted are flooded again. -/
def execFenceFloodRepeat (s : State) : Out :=
  match s.recov.own with
  | [] => .next s
  | (_, t) :: _ => .next (s.recov.own.foldl (fun s x => sendFence s x.1 (liveDirs s)) (reach s (t + 100000)))

/-- The direction of a fenced neighbour. -/
def dirTo (s : State) (c : Nat) : Option Dir := allDirs.find? fun d => stepCoord s (ownCoord s) d = c

/-- Does the module hold a frame of the open channel-0 instance from the neighbour in direction `d` (R413 point 3)? -/
def holdsFrom (s : State) (d : Dir) : Bool := (upFrom (chanAt s 0) 0 (gen0 (stepClosing s)) (axisOf d) (isPlus d)).1 > 0

/-- An abort of the instance after that of step `n`: sent, and held until step `n`'s is complete; `k` is a direction's code, or 6 (R413). -/
def nextAbort (s : State) (k n : Nat) : State :=
  let w := abortWord s n
  onChan (sendDown s (n + 1) w allDirs) 0 fun c => { c with early := c.early ++ [(gen0 (n + 1), 3, false, k, BitVec.ofNat 32 w)] }

/-- The abort contribution made for a fenced module: of the open instance, or of the next one where its frame is held (R413). -/
def proxyAbort (s : State) (d : Dir) : State :=
  let n := stepClosing s
  if holdsFrom s d then
    nextAbort s (dirCode d) n
  else abortStep (sendDown s n (abortWord s n) allDirs) n (abortWord s n)

/-- The module's own abort contribution of a self-fence: for the oldest instance it has not contributed to (R413 step 4). -/
def selfAbort (s : State) : State :=
  if s.steps.older.any fun o => decide (o.status = .contributed) then nextAbort s 6 (stepClosing s)
  else
    let t := openNext s
    if mayContribute t then ownAbort t else s

/-- The abort that follows a flood: on behalf of a neighbour, or the module's own for a self-fence (R413 points 3 and 4). -/
def fenceAbort (s : State) (r : BitVec 128) : State :=
  if fenceCoord r = ownCoord s then selfAbort s
  else match dirTo s (fenceCoord r) with
    | some d => proxyAbort s d
    | none => s

/-- FENCE_PROXY_ABORT (R413): 100 µs after the first flood of a proposal of the slot. -/
def execFenceProxyAbort (slot : Fin 6) (s : State) : Out :=
  match s.recov.own.find? fun x => slotOf x.1 = slot.val with
  | none => .next s
  | some (r, t) => .next (fenceAbort (reach s (t + 100000)) r)

/-- Adopts the records held of a slot that a channel-0 frame has noticed; one that is held only to be discarded is asked for no more
(R414, R415). -/
def adoptAsked (s : State) (slot : Nat) : State :=
  if s.recov.asked.getLsbD slot then
    let s := ((heldRecords s).filter fun r => slotOf r = slot).foldl adoptRecord s
    if holdsSlot s slot then { s with recov := { s.recov with asked := s.recov.asked &&& ~~~ BitVec.twoPow 6 slot } } else s
  else s

/-- A fence record that is new here: held, noticed and forwarded once, except where it came from (R413); one that names this module
makes it leave the job (R416). -/
def takeRecord (s : State) (r : BitVec 128) (came : Dir) : State :=
  let s := sendFence s r ((liveDirs s).filter fun d => d ≠ dirCode came)
  let out := s.recov.set.any fun q => opposed q r
  let s := { s with recov := { s.recov with known := if out then s.recov.known else s.recov.known ++ [r],
                                            dropped := if out then s.recov.dropped ++ [r] else s.recov.dropped } }
  if out then adoptAsked s (slotOf r)
  else if fenceCoord r = ownCoord s && fenceSerial r = s.dev.product.serial then leaveJob s
  else if inJob s then adoptAsked { s with recov := { s.recov with notice := s.recov.notice ||| noticeBit r } } (slotOf r)
  else s

/-- A record that a link brings: a new one of a module of the block is taken (R413). -/
def recordHere (s : State) (l : Nat) (r : BitVec 128) : State :=
  if inBlock s (fenceCoord r) && !(holdsFence s r || s.recov.dropped.any (sameFence r)) then takeRecord s r (linkDir s l) else s

/-- FENCE_RECORD_RECEIVED (R413): a flooded record arrives as link-control flits. -/
def execFenceRecordReceived (link : Fin 48) (rec : BitVec 128) (s : State) : Out :=
  .next (if inService (linkAt s link.val) && forwards s.dev.state then recordHere s link.val rec else s)

/-- FENCE_RECORD_REQUEST (R414): a record of a noticed slot that is not held is requested; replay dispatch waits meanwhile. -/
def execFenceRecordRequest (slot : Fin 6) (s : State) : Out :=
  if s.recov.asked.getLsbD slot.val then
    let s := adoptAsked s slot.val
    .next (if s.recov.asked.getLsbD slot.val then tell s (.askRecord slot.val) else s)
  else .next s

/-- RECOVERY_PATIENCE_EXPIRY (R411 reason 4, R421): a neighbour still shows RECOVERY when the patience after the word that started the
wait is over. -/
def execRecoveryPatienceExpiry (d : Dir) (s : State) : Out :=
  if s.recov.wait && (sideOf s d).nbState = some .recovery then
    .next (proposeNeighbour (reach s (s.recov.waitFrom + s.dict.latched.patience * 1000000)) d 4)
  else .next s

/-! ### Committed state from outside (15 R403, R418, 13 R365) -/

/-- A tensor image as committed copies, tile by tile, with the scales that the records give (03 R66, 13 R365). -/
def imageCopies (s : State) (rs : List (BitVec 128)) (c t : Nat) (bs : List Byte) : List Copy :=
  let e := tensorAt (progAt s c) t
  (upto (tilesIn e)).map fun k =>
    { ctx := c, tensor := t, tile := k, kind := .committed, scale := tileScale c rs e t k, bytes := memPut [] (65536 * k) ((bs.drop (65536 * k)).take 65536) }

/-- Committed copies replaced by images: context, tensor, bytes. -/
def installImages (s : State) (rs : List (BitVec 128)) (imgs : List (Nat × Nat × List Byte)) : State :=
  let news := imgs.flatMap fun x => imageCopies s rs x.1 x.2.1 x.2.2
  let gone (k : Copy) : Bool := (imgs.any fun x => x.1 = k.ctx && x.2.1 = k.tensor) && (decide (k.kind = .committed) || decide (k.kind = .prev))
  { s with vers := { s.vers with copies := s.vers.copies.filter (fun k => !gone k) ++ news } }

/-- A DELAYED tensor's scale of step `n` as its records show it: the step they were captured at (03 R76, R87). -/
def shownScale (p : Program) (n : Nat) (t : TState) : TState :=
  let e := tensorAt p t.tensor
  let win := windowMax p e t n
  if e.policy = 2 then
    { t with used := some (n, (chooseScale win (marginOf p e) e.sInit).1, BitVec.ofNat 32 (win.getD 0), (assoc? t.hist n).getD 0) }
  else t

/-- The scale of step `n` of a CURRENT tensor, by which the rebuild converts: that of its first tile's record (13 R366). -/
def stepScale (p : Program) (c n : Nat) (rs : List (BitVec 128)) (t : Nat) : List (Nat × Int × BitVec 32) :=
  let e := tensorAt p t
  if e.policy = 3 && rs.any fun r => fld r.toNat 27 24 = c && fld r.toNat 19 0 = t && fld r.toNat 31 28 = 2 then [(n, tileScale c rs e t 0, 0)] else []

/-- The tensors' state of context `c` as the records of step `n` give it (13 R365). -/
def tensFrom (p : Program) (c n : Nat) (rs : List (BitVec 128)) (ts : List TState) : List TState :=
  ts.map fun t => shownScale p n { tstateFrom c p.tolInit rs t.tensor with cur := stepScale p c n rs t.tensor }

/-- Histories and tolerances of contexts 0 to 14 as records of step `n` give them (13 R365). -/
def installRecs (s : State) (n : Nat) (rs : List (BitVec 128)) : State :=
  { s with ctxs := Vector.ofFn fun i =>
      let x := s.ctxs[i]
      if i.val < 15 then { x with tens := tensFrom (progAt s i.val) i.val n rs x.tens } else x }

/-! ### Takeover and refill (15 R403, R418) -/

/-- The remount module holds the position: WORKING, JOINED, the replay of step c + 1 due, G at 64 (R418 point 4, 17 R454). -/
def takeoverEnds (s : State) (tensors : List (Nat × Nat × List Byte)) (rs : List (BitVec 128)) : State :=
  let n := s.steps.committed + 1
  let s := installRecs (installImages s rs tensors) s.steps.committed rs
  let s := { s with recov := { s.recov with role := .working, taking := none, hold := false, refills := 0 }, power := { s.power with g := 64 }, steps := { s.steps with older := none, younger := none, replayDue := some n, lagFrom := none },
                    ctxs := Vector.ofFn fun i => if i.val < 15 then ctxBack n s.ctxs[i] else s.ctxs[i] }
  leaveRecovery s

/-- The tensors that a takeover transfers: every PERSISTENT one of contexts 0 to 14 but the local ones (R418, R419). -/
def takenTensors (s : State) : List (Nat × Nat) :=
  (jobPrograms s).flatMap fun cp => ((persistents cp.2).filter fun t => !(localPersistents cp.2).contains t).map fun t => (cp.1, t)

/-- May the transfers of a takeover be complete: every tensor is there, every partition is back and the job is not lost
(R418, R421, 16 R439)? -/
def takeoverComplete (s : State) (tensors : List (Nat × Nat × List Byte)) : Bool :=
  s.dev.inReset = 0 && s.recov.lostPend = 0 && (takenTensors s).all fun x => tensors.any fun y => y.1 = x.1 && y.2.1 = x.2

/-- TAKEOVER_DONE (R418): a different DIGEST of context 0 loses the job (R422 code 5). -/
def execTakeoverDone (digestOk : Bool) (tensors : List (Nat × Nat × List Byte)) (recs : List (BitVec 128)) (s : State) : Out :=
  if s.recov.role ≠ .taking then .next s
  else if ostlerBusy s 2 then .next (hwRequest s 2 (.unit (.takeoverDone digestOk tensors recs)))
  else if !digestOk then .next (tryAbort (loseJob s 5))
  else if takeoverComplete s tensors then .next (takeoverEnds s tensors recs)
  else .next s

/-- The last refill is done: HOLD ends, a new partner gets the rebuild it is owed, and the module leaves RECOVERY (R402, R403, R409). -/
def refillEnds (s : State) : State :=
  let s := { s with recov := { s.recov with hold := false, holdOwed := false, last := 3 } }
  leaveRecovery (if s.recov.owed then sendRebuild { s with recov := { s.recov with owed := false } } else s)

/-- The version tiles that a partition has lost and a source refills: context, tensor, tile. Local persistent tensors have none (R403). -/
def missingTiles (s : State) (p : Nat) : List (Nat × Nat × Nat) :=
  (jobPrograms s).flatMap fun cp => ((persistents cp.2).filter fun t => !(localPersistents cp.2).contains t).flatMap fun t =>
    ((upto (tilesIn (tensorAt cp.2 t))).filter fun k => tileHome s cp.1 t k = p && (copyOf s cp.1 t k .committed).isNone).map fun k => (cp.1, t, k)

/-- Tiles as they come back, with the scales that the records give. -/
def refillTiles (s : State) (tiles : List (Nat × Nat × Nat × List Byte)) (rs : List (BitVec 128)) : List Copy :=
  tiles.map fun x =>
    let e := tensorAt (progAt s x.1) x.2.1
    { ctx := x.1, tensor := x.2.1, tile := x.2.2.1, kind := .committed, scale := tileScale x.1 rs e x.2.1 x.2.2.1,
      bytes := memPut [] (65536 * x.2.2.1) (x.2.2.2.take (min 65536 (tensorBytes e - 65536 * x.2.2.1))) }

/-- REFILL_DONE (R403): every committed copy that the partition lost is there again; HOLD ends once the mirror region is back too. -/
def execRefillDone (refill : Refill) (s : State) : Out :=
  let p := refill.part
  let gone := missingTiles s p.val
  let given := refill.tiles.filter fun x => gone.contains (x.1, x.2.1, x.2.2.1)
  if s.recov.refills.getLsbD p.val && s.dev.inService.getLsbD p.val && gone.all (fun g => given.any fun x => (x.1, x.2.1, x.2.2.1) = g) then
    let s := { s with vers := { s.vers with copies := s.vers.copies ++ refillTiles s given refill.recs } }
    let s := { s with recov := { s.recov with refills := s.recov.refills &&& ~~~ BitVec.twoPow 8 p.val } }
    .next (if s.recov.refills = 0 && s.dev.inReset = 0 && s.recov.role ≠ .taking && !s.recov.rebuild then refillEnds s else s)
  else .next s

/-! ### The mirror (15 R409) -/

/-- Does the module mirror another one's position? -/
def isMirror (s : State) : Bool := hasMirror s && (decide (s.recov.role = .working) || decide (s.recov.role = .taking))

/-- Tiles of a stream that its step has no working copy of yet: each takes a tile of the pool (10 R248, 13 R351). -/
def mirrorSplits (s : State) (news : List Copy) : List Copy :=
  news.filter fun k => !(s.vers.copies.any fun x => sameTile x k && decide (x.kind = k.kind))

/-- Tiles of the mirror region written over those of their kind. -/
def putMirror (v : Vers) (news : List Copy) : List Copy := v.copies.filter (fun x => !(news.any fun k => sameTile x k && decide (x.kind = k.kind))) ++ news

/-- The mirrored module's committed state replaces what the mirror region held of it (R409). -/
def mirrorBack (s : State) (tensors : List (Nat × Nat × List Byte)) (recs : List (BitVec 128)) : State :=
  let kept := s.vers.copies.filter fun k => !(isMirrorTile k && decide (k.kind = .committed))
  { s with vers := { s.vers with copies := kept ++ mirrorTiles .committed tensors, mirrorRecs := recs, mirrorLost := false },
           recov := { s.recov with rebuild := false, last := 5 } }

/-- The same; where a refill waited for the mirror region alone, it ends (R403). -/
def mirrorRebuilt (s : State) (tensors : List (Nat × Nat × List Byte)) (recs : List (BitVec 128)) : State :=
  let s := mirrorBack s tensors recs
  if s.recov.hold && s.recov.refills = 0 && s.dev.inReset = 0 && s.recov.role = .working then refillEnds s else s

/-- The stream of an open step becomes its working mirror: splits like any other (10 R248, 13 R351). -/
def mirrorStreamed (s : State) (step : Nat) (news : List Copy) (recs : List (BitVec 128)) : State :=
  let k := (mirrorSplits s news).length
  let s := { s with vers := { s.vers with copies := putMirror s.vers news, mirrorW := assocSet s.vers.mirrorW step recs } }
  { s with vers := countSplits s.vers k (poolCopies s) }

/-- Do tiles of a stream go to a partition in reset (01 R29)? -/
def mirrorShut (s : State) (news : List Copy) : Bool := news.any fun k => s.dev.inReset.getLsbD (tileHome s k.ctx k.tensor k.tile)

/-- MIRROR_STREAM_RECEIVED (R409): the stream of an open step becomes that step's working mirror, once the pool has its tiles; a rebuild
replaces the committed one. A partition in reset answers with an error and nothing is acknowledged (01 R29). -/
def execMirrorStreamReceived (step : Nat) (rebuild : Bool) (tensors : List (Nat × Nat × List Byte)) (recs : List (BitVec 128)) (s : State) : Out :=
  if !isMirror s then .next s
  else if mirrorShut s (mirrorTiles .committed tensors) then .next (emit s (.errorReply 8 []))
  else if rebuild then .next (emit (mirrorRebuilt s tensors recs) (.mirrorAck step))
  else if step = s.steps.committed + 1 || step = s.steps.committed + 2 then
    let news := mirrorTiles (workKind s 0 step) tensors
    if (mirrorSplits s news).length + poolCopies s ≤ s.vers.reserve then .next (emit (mirrorStreamed s step news recs) (.mirrorAck step)) else .next s
  else .next s

/-- MIRROR_ACK_RECEIVED (10 R260): the step's stream has been acknowledged. -/
def execMirrorAckReceived (step : Nat) (s : State) : Out :=
  .next (onStep s step fun o => if o.mirrorSent then { o with mirrorAcked := true } else o)

/-- MIRROR_REBUILD_DONE (R409): the partner has acknowledged a rebuild. -/
def execMirrorRebuildDone (s : State) : Out := .next { s with recov := { s.recov with single := s.recov.owed, rebuilding := false } }

/-- MODULE_STATE_PIECE_RECEIVED (13 R345): the partner's module-state piece of a cut, for capture as KIND 3. -/
def execModuleStatePieceReceived (cut : Nat) (piece : List Byte) (s : State) : Out :=
  if isMirror s then .next { s with ckpt := { s.ckpt with partnerPieces := assocSet s.ckpt.partnerPieces cut piece } } else .next s

end Sys2Proof.Machine
end

