-- ==== Sys2Proof/Machine/Links.lean ====
section
/-! DEFINITION. Data links: flits, replay, lanes, training and discovery (11 R278 to R282, R292 to R310). -/

namespace Sys2Proof.Machine

/-! ### Flits received (R280, R293, R302, R304, R306) -/

/-- The symbols of a codeword that arrived wrong, each once. -/
def wrongSymbols (w : List (Fin 544)) : List Nat := nub (w.map (·.val))

/-- The data lane of a symbol: a codeword is striped across the 16 lanes in symbol order (R278). -/
def symbolLane (i : Nat) : Nat := i % 16

/-- A codeword is corrected with up to 15 wrong symbols of its 544 and uncorrectable with more (R278). -/
def fecFixes (w : List (Fin 544)) : Bool := decide ((wrongSymbols w).length ≤ 15)

/-- Codewords of a list that needed correction, and those that are uncorrectable. -/
def fecCorrected (ws : List (List (Fin 544))) : List (List (Fin 544)) := ws.filter fun w => fecFixes w && !w.isEmpty
def fecLost (ws : List (List (Fin 544))) : Nat := (ws.filter fun w => !fecFixes w).length

/-- Corrected symbols of a list of codewords on one lane (R282). -/
def lanesHit (ws : List (List (Fin 544))) (lane : Nat) : Nat :=
  ((fecCorrected ws).map fun w => ((wrongSymbols w).filter fun i => symbolLane i = lane).length).sum

/-- FEC counts, the corrections of each lane, and the uncorrectable codewords of the last second (R278, R282, R300, R302). -/
def fecCounts (now : Nat) (ws : List (List (Fin 544))) (k : Link) : Link :=
  let lost := fecLost ws
  { k with fecCorr := k.fecCorr + (fecCorrected ws).length, fecUncorr := k.fecUncorr + lost,
           symErrs := Vector.ofFn fun i => k.symErrs[i] + lanesHit ws i.val,
           uncWin := (if lost = 0 then [] else [(now, lost)]) ++ k.uncWin.filter fun w => decide (now < w.1 + 1000000000) }

/-- More than 64 uncorrectable codewords within 1 s (R302). -/
def tooManyErrors (k : Link) : Bool := (k.uncWin.map (·.2)).sum > 64

/-- A flit that is not confirmed is dropped and a NAK names the last good SEQ (R280). -/
def nakFlit (s : State) (l : Nat) : State := emit s (.nak l (linkAt s l).rxSeq)

/-- A flit taken in order: acknowledged, its buffer's credit due back, and the credits that its header returns (R280, R305, R307). -/
def takeFlit (s : State) (l : Nat) (h : BitVec 96) : State :=
  let seq := BitVec.ofNat 16 (hdSeq h)
  emit (onLink s l fun k => { k with rxSeq := seq, credits := updN k.credits (hdVc h) (· + 1),
                                     txCred := updN k.txCred (fld h.toNat 15 14) (· + fld h.toNat 13 0) }) (.ack l seq)

/-- Flits after the last good SEQ. -/
def afterSeq (lastGood : BitVec 16) (f : Flit) : Bool := f.seq ≠ lastGood && (f.seq - lastGood).toNat < 32768

/-- The far end acknowledges every flit up to a SEQ: they leave the retransmit buffer (R280). -/
def ackedTo (ack : Option (BitVec 16)) (k : Link) : Link :=
  match ack with
  | some q => { k with txBuf := k.txBuf.filter (afterSeq q) }
  | none => k

/-- A link-control flit by the first byte of its payload: 1 asks for the records of a slot, 2 for a rebuild of a lost mirror region, 3 for the
OPT state that the partner mirrors; 4 pulls a derived tensor, 5 brings a fence record (15 R403, R409, R413, R414, R419). No rule gives these
flits a payload. DESIGN CHOICE, log 195. -/
def controlHere (s : State) (l : Nat) (h : BitVec 96) (payload : List Byte) : State :=
  match (payload.getD 0 0).toNat with
  | 1 =>
    let rs := (s.recov.set ++ s.recov.known ++ s.recov.own.map (·.1)).filter fun r => slotOf r = (payload.getD 1 0).toNat
    (nub rs).foldl (fun s r => sendFence s r [dirCode (linkDir s l)]) s
  | 2 => if s.recov.role = .working && hasMirror s && decide (hdSrc h = pairAt s true) then giveRebuild s else s
  | 3 => if isMirror s && decide (hdSrc h = pairAt s false) then sendHeld s (hdSrc h) else s
  | 4 => answerPull s (hdSrc h) (payload.getD 1 0).toNat (ofBytes ((payload.drop 2).take 4))
  | 5 => recordHere s l (BitVec.ofNat 128 (ofBytes ((payload.drop 1).take 16)))
  | _ => s

/-- A flit at its destination: a data flit lands, one for a partition in reset is dropped and counted (R304; log 29); a request is answered.
A reserved TYPE is rejected and counted (R305, 00 R7; log 226). -/
def flitHere (s : State) (l : Nat) (h : BitVec 96) (payload : List Byte) : State :=
  match hdType h with
  | 0 =>
    if hdFlow h = streamFlow.toNat then s
    else if s.dev.inReset.getLsbD (hdPart h) then { s with coll := { s.coll with stale := s.coll.stale + 1 } }
    else landFlit s l (hdPart h) (hdFlow h / 4096) payload
  | 1 => reportError s h payload
  | 2 => controlHere s l h payload
  | _ => countIllegal s { master := 0, path := .window } 4 0 0

/-- A flit is routed or delivered: discarded when its far end lies outside the block (R293), dropped in BOOT and OUT_OF_SERVICE (R308). -/
def flitOn (s : State) (l : Nat) (h : BitVec 96) (payload : List Byte) : State :=
  let d := linkDir s l
  if !stepInBlock s (ownCoord s) d then { s with topo := { s.topo with outOfBlock := s.topo.outOfBlock + 1 } }
  else if !forwards s.dev.state then s
  else match nextHop s h (some (opposite d)) with
    | .here => flitHere s l h payload
    | .out _ _ => routeFlit s h payload (some (opposite d))
    | .unreachable => routeFlit s h payload (some (opposite d))

/-- A flit that a link delivers with the codewords that carried it and the acknowledgement that came beside it (R278 to R280; log 163):
counted, checked, acknowledged and routed or landed, or a NAK. -/
def flitReceived (s : State) (l : Nat) (h : BitVec 96) (payload : List Byte) (crc : BitVec 32) (ws : List (List (Fin 544)))
    (ack : Option (BitVec 16)) : State :=
  if !inService (linkAt s l) then s
  else
    let s := onLink s l (fecCounts s.clk.now ws)
    let s := if tooManyErrors (linkAt s l) && ostlerBusy s 1 then fenceByOstler s l 2 else s
    if tooManyErrors (linkAt s l) && !ostlerBusy s 1 then fenceLink s l 2
    else if fecLost ws ≠ 0 || flitCrc h payload ≠ crc then nakFlit s l
    else
      let s := onLink s l (ackedTo ack)
      if BitVec.ofNat 16 (hdSeq h) = (linkAt s l).rxSeq + 1 then flitOn (drainLink (takeFlit s l h) l) l h payload
      else nakFlit (drainLink s l) l

/-- LINK_FLIT_RECEIVED (R280). -/
def execLinkFlitReceived (link : Fin 48) (hdr : BitVec 96) (payload : List Byte) (crc : BitVec 32) (codewords : List (List (Fin 544)))
    (ack : Option (BitVec 16)) (s : State) : Out := .next (flitReceived s link.val hdr payload crc codewords ack)

/-! ### Replay (R280) -/

/-- A link that replays every flit left in its buffer. -/
def linkReplays (k : Link) : Link :=
  { k with txBuf := k.txBuf.map fun f => { f with replays := f.replays + 1 }, replays := k.replays + k.txBuf.length }

/-- LINK_NAK_RECEIVED (R280): flits up to the last good SEQ are acknowledged, and the sender replays the rest; one that has been replayed
eight times without acknowledgement takes the link down (R301). To a module that is blocked by now nothing is replayed: the flits take another
way, as do those whose DEST is fenced (R309); BOOT and OUT_OF_SERVICE replay nothing (R308). -/
def execLinkNakReceived (link : Fin 48) (lastGood : BitVec 16) (s : State) : Out :=
  if !inService (linkAt s link.val) then .next s
  else
    let s := onLink s link.val (ackedTo (some lastGood))
    if (linkAt s link.val).txBuf.any fun f => decide (f.replays ≥ 8) then .next (linkDown s link.val 6)
    else if !forwards s.dev.state then .next s
    else
      let d := linkDir s link.val
      let gone := (linkAt s link.val).txBuf.filter fun f => !mayStillGo s d f
      let s := onLink s link.val fun k => linkReplays { k with txBuf := k.txBuf.filter fun f => mayStillGo s d f }
      .next (drainLink (resend (emits s ((linkAt s link.val).txBuf.map (onWire link.val))) d gone) link.val)

/-- ERROR_RETURN_RECEIVED (R310): a flit of TYPE 1, checked and acknowledged as any other, is routed on, or reported to ostler 1 at its
source; it may itself detour. -/
def execErrorReturnReceived (link : Fin 48) (flit : CarriedFlit) (s : State) : Out :=
  if hdType flit.hdr = 1 then .next (flitReceived s link.val flit.hdr flit.payload flit.crc flit.codewords flit.ack) else .next s

/-! ### Lanes (R281, R282) -/

/-- LANE_LOSS_OF_LOCK (R282): the spare takes the lane over, or the link is fenced. -/
def execLaneLossOfLock (link : Fin 48) (lane : Fin 16) (s : State) : Out :=
  if (linkAt s link.val).trained then .next (laneFails s link.val lane.val) else .next s

/-- LANE_ERROR_WINDOW (R282): 100 ms of a lane, judged against 2 × 10^−5: the corrections counted with the flits of the window and those
in codewords that carried none. -/
def execLaneErrorWindow (link : Fin 48) (lane : Fin 16) (errors symbols : Nat) (s : State) : Out :=
  if (linkAt s link.val).trained then
    let all := errors + (linkAt s link.val).symErrs[lane]
    let s := onLink s link.val fun k =>
      { k with serWin := (s.clk.now, all, symbols) :: k.serWin.filter (fun w => decide (s.clk.now < w.1 + 1000000000)),
               symErrs := k.symErrs.set lane 0 }
    .next (if all * 50000 > symbols then laneFails s link.val lane.val else s)
  else .next s

/-- The DFE taps of a lane at an evaluation, as its equaliser finds them (R281). -/
def dfeTaps (l lane n : Nat) : Vector (BitVec 16) 12 := Vector.ofFn fun t => Config.equaliser (4096 + 192 * l + 12 * lane + t.val) n

/-- CTLE_REEVALUATION (R281): the lane's peaking takes the value that its equaliser finds, and its DFE has adapted; traffic and latency
are untouched. -/
def execCtleReevaluation (link : Fin 48) (lane : Fin 16) (s : State) : Out :=
  if (linkAt s link.val).trained then
    .next (onLink s link.val fun k =>
      { k with ctle := k.ctle.set lane (Config.equaliser (16 * link.val + lane.val) k.ctleSeq), ctleSeq := k.ctleSeq + 1,
               dfe := k.dfe.set lane (dfeTaps link.val lane.val k.ctleSeq) })
  else .next s

/-! ### Training (R282, R288, R297) -/

/-- May the links of the partition run: its uncore domain is on and link training has begun, step 5 of 16 R430 (01 R32)? -/
def linkPowered (s : State) (l : Nat) : Bool :=
  s.domains.getLsbD (5 * (l / 6) + 4) && (decide (nth s.dev.bring (l / 6) 0 = 0) || decide (nth s.dev.bring (l / 6) 0 = 5))

/-- Lanes that the ledger's summary classes as permanent: data lanes, the spare (16) and the sync lane (17) (R282, 14 R372, R376). -/
def permanentLanes (s : State) (l : Nat) : List Nat :=
  (upto 18).filter fun k => s.ledger.summary.any fun e => e.unit = ⟨4, l * 256 + k⟩ && (e.cls = 3 || e.retired)

/-- A link as training leaves it: its direction under R288, and any permanent lane on the spare from the start. -/
def linkTrained (s : State) (l latency : Nat) (k : Link) : Link :=
  let a := assigned s.dict.latched.ratio l
  let again := k.farSerial.isSome || k.latency ≠ 0
  let k := { k with state := .training, trained := true, cls := .notTrained, dir := some a.1, index := a.2, latency := latency,
                    fir := Vector.ofFn (fun i => Vector.ofFn fun t => Config.equaliser (16384 + 48 * l + 3 * i.val + t.val) k.retrains),
                    dfe := Vector.ofFn (fun i => dfeTaps l i.val k.ctleSeq), ctle := Vector.ofFn (fun i => Config.equaliser (16 * l + i.val) k.ctleSeq),
                    syncCtle := Config.equaliser (1024 + l) k.ctleSeq, syncDfe := Config.equaliser (1088 + l) k.ctleSeq, ctleSeq := k.ctleSeq + 1,
                    retrains := k.retrains + bit again, txSeq := 0, rxSeq := 0, txCred := Vector.replicate 4 512, credits := Vector.replicate 4 0,
                    recOk := false, recAcked := false, minor := 2 }
  match permanentLanes s l with
  | [] => k
  | n :: _ => if k.spareUsed then k else { k with spareUsed := true, swapped := n, laneBad := k.laneBad ++ [n] }

/-- May the link train: powered, not fenced, not trained already? -/
def mayTrain (s : State) (l : Nat) : Bool := linkPowered s l && decide ((linkAt s l).state ≠ .fenced) && !(linkAt s l).trained

/-- The module's discovery record for a link (R294); PMIN reports the minor version that the link runs once it has settled (R298; log 196). -/
def ownRecord (s : State) (l : Nat) : BitVec 256 :=
  let t := s.dict.latched
  let a := assigned t.ratio l
  let top := pack [(240, 16, 0x7A5C), (232, 8, 1), (224, 8, (linkAt s l).minor), (160, 64, t.machine), (96, 64, s.dev.product.serial), (81, 15, t.shape), (66, 15, t.coords),
    (51, 15, t.ratio), (46, 5, t.sparePos), (43, 3, dirCode a.1), (38, 5, a.2), (35, 3, devCode s.dev.state)]
  BitVec.ofNat 256 top ||| (recCrc (BitVec.ofNat 256 top)).setWidth 256

/-- Has the link more permanent data lanes than its spare can cover (R282, R302; log 164)? -/
def lanesLost (s : State) (l : Nat) : Bool := (permanentLanes s l).any fun n => n ≠ (linkAt s l).swapped

/-- LINK_TRAINING_DONE (R297): training is complete and discovery starts; a link with a second permanent lane is fenced. -/
def execLinkTrainingDone (link : Fin 48) (latencyNs : Nat) (s : State) : Out :=
  if mayTrain s link.val then
    let s := onLink s link.val (linkTrained s link.val latencyNs)
    if lanesLost s link.val || unitGone s ⟨5, link.val⟩ then .next (fenceLink s link.val 1) else .next (emit s (.discovery link.val (ownRecord s link.val)))
  else .next s

/-- LINK_LOCK_TIMEOUT (R296): no lock within 100 ms of training start; ostler 1 classes the link (18 R465). -/
def execLinkLockTimeout (link : Fin 48) (s : State) : Out :=
  if !mayTrain s link.val then .next s
  else if ostlerBusy s 1 then .next (hwRequest s 1 (.unit (.linkLockTimeout link)))
  else .next (reVerdict (onLink s link.val fun k => { k with state := .down, cls := .missing }))

/-- LINK_TRAINING_RETRY (R297): a MISSING link tries again, under ostler 1's control (18 R465). -/
def execLinkTrainingRetry (link : Fin 48) (s : State) : Out :=
  if !(mayTrain s link.val && (linkAt s link.val).cls = .missing) then .next s
  else if ostlerBusy s 1 then .next (hwRequest s 1 (.unit (.linkTrainingRetry link)))
  else
    .next (emit (onLink s link.val fun k => { k with state := .training }) (.train link.val))

/-! ### Discovery (R294 to R299) -/

/-- DISCOVERY_RECORD_SEND (R294): every 10 µs until an acceptable record is in and the own one is acknowledged. -/
def execDiscoveryRecordSend (link : Fin 48) (s : State) : Out :=
  let k := linkAt s link.val
  if k.trained && !(k.recOk && k.recAcked) then .next (emit s (.discovery link.val (ownRecord s link.val))) else .next s

/-- Does the far end answer as the neighbour in direction `d` would (R295, R296)? -/
def asNeighbour (s : State) (r : BitVec 256) (d : Dir) : Bool := recCoord r = stepCoord s (ownCoord s) d && recDir r = dirCode (opposite d)

/-- The class of a far end (R296): VERSION, FOREIGN, then the others; SURPLUS while the machine is unconfigured (R299). -/
def classOf (s : State) (l : Nat) (r : BitVec 256) : LinkClass :=
  let t := s.dict.latched
  let a := assigned t.ratio l
  if t.machine = 0 then .surplus
  else if recMaj r ≠ 1 then .version
  else if recMagic r ≠ 0x7A5C || !recOkCrc r || recMachine r ≠ t.machine || recShape r ≠ t.shape || recRatio r ≠ t.ratio || recSpare r ≠ t.sparePos then .foreign
  else if asNeighbour s r a.1 then (if recIndex r = a.2 then .expected else .permuted)
  else if allDirs.any fun d => d ≠ a.1 && asNeighbour s r d then .crossed
  else .surplus

/-- Does the class go into service in the discovery mode (R297)? -/
def serves (s : State) (c : LinkClass) : Bool :=
  match c with
  | .expected => true
  | .permuted => true
  | .crossed => s.dict.latched.discMode ≥ 2
  | .surplus => false
  | .foreign => false
  | .version => false
  | .missing => false
  | .notTrained => false

/-- A link in service after an acceptable record: direction and index, CROSSED in the bundle it was found in (R297). -/
def linkUp (s : State) (l : Nat) (c : LinkClass) (r : BitVec 256) (k : Link) : Link :=
  let a := assigned s.dict.latched.ratio l
  let d := if c = .crossed then (allDirs.find? (asNeighbour s r)).getD a.1 else a.1
  { k with state := .up, cls := c, dir := some d, index := if c = .crossed then recIndex r else a.2, recOk := true, recAcked := true,
           farSerial := some (recSerial r), lastFrame := s.clk.now, minor := min 2 (recMin r) }

/-- A link comes UP, or stays so: kind 17 when it came UP, the neighbour's state, and the fence set for a neighbour that is in it (15 R416). -/
def linkAccepted (s : State) (l : Nat) (c : LinkClass) (r : BitVec 256) : State :=
  let was := linkAt s l
  let s := onLink s l (linkUp s l c r)
  let d := linkDir s l
  let s := { s with topo := { s.topo with sides := updN s.topo.sides (dirCode d) fun x => { x with silent := false } } }
  let s := takeState s d (recState r)
  let s := if fencedAt s (recCoord r) then tell s (.fenceSet (dirCode d)) else s
  let s := if (linkAt s l).minor ≠ was.minor then emit s (.discovery l (ownRecord s l)) else s
  if inService was then reVerdict s else postLink s l

/-- A link is refused (R297, R301): trained, carrying discovery records only. -/
def linkRefused (s : State) (l : Nat) (c : LinkClass) (cause : Nat) : State :=
  let was := linkAt s l
  let s := onLink s l fun k => { k with state := .refused, cls := c, cause := cause, txBuf := [], waits := [], recOk := false }
  if inService was then postLink (resend { s with topo := { s.topo with downEvents := s.topo.downEvents + 1 } } (linkDir s l) (unacked was)) l else reVerdict s

/-- Does another module answer than the one recorded before (R301)? -/
def otherModule (k : Link) (r : BitVec 256) : Bool := k.farSerial.any fun n => n ≠ recSerial r

/-- DISCOVERY_RECORD_RECEIVED (R296): the link is classed and the verdict recomputed. -/
def execDiscoveryRecordReceived (link : Fin 48) (rec : BitVec 256) (s : State) : Out :=
  if (linkAt s link.val).trained && ostlerBusy s 1 then .next (hwRequest s 1 (.unit (.discoveryRecordReceived link rec)))
  else if (linkAt s link.val).trained then
    let c := classOf s link.val rec
    let s := onLink s link.val fun k => { k with farRec := rec }
    let other := otherModule (linkAt s link.val) rec
    if other || !serves s c then .next (linkRefused s link.val c (if other then 8 else (linkAt s link.val).cause))
    else .next (linkAccepted s link.val c rec)
  else .next s

end Sys2Proof.Machine
end

