-- ==== Sys2Proof/Machine/Bringup.lean ====
section
/-! DEFINITION. Partition bring-up, the start-up self-test, die-to-die connections and the test port (16 R430 to R432, 01 R16, R21 to R25,
15 R400, R403, 21 R538, 22 R555). -/

namespace Sys2Proof.Machine

/-! ### Bring-up (R430, R431) -/

/-- The bring-up step in progress of partition `p`. -/
def bringAt (s : State) (p : Nat) : Nat := nth s.dev.bring p 0

/-- Sets it. -/
def setBring (s : State) (p k : Nat) : State := { s with dev := { s.dev with bring := updN s.dev.bring p fun _ => k } }

/-- The bring-up of the remaining partitions is complete: a module that holds one with its power off goes OUT_OF_SERVICE, in a boot at the end of
phase 4 (R431). -/
def bringingDone (s : State) : State :=
  if s.dev.state ≠ .boot && s.dev.oosAtEnd && s.dev.delayed = 0 && s.dev.bring.toList.all (· = 0) then outOfService s else s

/-- The partition is held with its power off, and the module goes OUT_OF_SERVICE once the others are up (R431, 01 R25). -/
def holdPart (s : State) (p : Nat) : State :=
  let s := domainsOff (setBring (keepReadings s p) p 0) (partDomains p).reverse
  bringingDone { s with dev := { s.dev with heldOff := s.dev.heldOff ||| BitVec.twoPow 8 p, inReset := s.dev.inReset ||| BitVec.twoPow 8 p, oosAtEnd := true } }

/-- Permanent UCIe modules of a partition that no redundant lane repairs (14 R381). -/
def permanentUcie (s : State) (p : Nat) : List Nat :=
  (upto 8).filter fun m => unitGone s ⟨6, 16 * p + m⟩ && !Config.ucieSpare (16 * p + m)

/-- UCIe training: failed modules, and permanent ones that no lane repairs, are disabled and recorded; a lost hub connection holds the partition (01 R24, R25). -/
def ucieTrained (s : State) (p : Nat) (bad : List (Fin 8)) : State :=
  let new := (nub (bad.map (·.val) ++ permanentUcie s p)).filter fun m => !s.dev.ucieOff.contains (p, m)
  let s := { s with dev := { s.dev with ucieOff := s.dev.ucieOff ++ new.map fun m => (p, m) } }
  let s := new.foldl (fun s m => faultEvent s { kind := 10, unit := ⟨6, 16 * p + m⟩, pclass := 9 }) s
  if (upto 4).all fun m => s.dev.ucieOff.contains (p, m) then holdPart s p else setBring s p 3

/-- One more row repaired for good, if its bank has a repair resource left (09 R226, R236; 14 R381). -/
def repairOne (done : List (Nat × Nat)) (r : Nat × Nat) : List (Nat × Nat) :=
  let bank (x : Nat × Nat) : Nat × Nat := (x.2 / 2 ^ 23, x.2 % 16)
  if (done.filter fun x => bank x = bank r).length < Config.repairsPerBank (r.2 / 2 ^ 23) (r.2 % 16) then done ++ [r] else done

/-- Rows that the ledger classes as permanent are repaired for good, and their spare rows are free (09 R236); where the bank has no repair
left, the row goes to a spare row (14 R381). -/
def rowsRepaired (s : State) (p : Nat) : State :=
  let perm (r : Nat × Nat) : Bool := r.1 = p && s.ledger.summary.any fun e => decide (e.unit = ⟨3, r.2⟩) && decide (e.cls = 3)
  let found := (s.ledger.summary.filter fun e => decide (e.unit.utype = 3) && decide (e.cls = 3) && decide (e.unit.unit / 2 ^ 29 = p)).map fun e => (p, e.unit.unit)
  let fixed := (found.filter fun r => !s.mem.repaired.contains r).foldl repairOne s.mem.repaired
  let redirected := (found.filter fun r => !fixed.contains r && !s.mem.rows.contains r).take (256 - rowsUsed s p)
  let gone (r : Nat × Nat) : Bool := perm r && fixed.contains r
  { s with mem := { s.mem with rows := (s.mem.rows.filter fun r => !gone r) ++ redirected, poisoned := s.mem.poisoned.filter fun x => !gone (x.1, x.2.1),
                               repaired := fixed } }

/-- Memory training: a stack is retrained twice, and a third failure holds the partition (R431). -/
def memTrained (s : State) (p : Nat) (bad : List (Fin 2)) : State :=
  let s := { s with dev := { s.dev with tries := bad.foldl (fun v n => updN v (2 * p + n.val) (· + 1)) s.dev.tries } }
  let dead := bad.filter fun n => nth s.dev.tries (2 * p + n.val) 0 ≥ 3
  if !dead.isEmpty then
    holdPart (dead.foldl (fun s n => faultEvent s { kind := 13, unit := ⟨8, 2 * p + n.val⟩, pclass := 7 }) s) p
  else if !bad.isEmpty then s
  else
    setBring (rowsRepaired { s with dev := { s.dev with tries := updN (updN s.dev.tries (2 * p) fun _ => 0) (2 * p + 1) fun _ => 0 } } p) p 4

/-- One marked core of a persisted map is taken out, or cannot be (01 R16, 14 R379). -/
def reconcileCore (s : State) (g : Nat) : State :=
  if !coreActive s g || !coreMarked s g then s
  else if activeCount (coreMapOf s (g / 17)) ≤ 15 && !spareAvailable s (g / 17) then
    outOfService { s with steps := { s.steps with lossSeen := true } }
  else takeOut s g

/-- The core map of a partition in line with the ledger, and its slots (01 R16, 08 R207). -/
def reconcile (s : State) (p : Nat) : State :=
  let s := (partCores p).foldl reconcileCore s
  { s with place := { s.place with slotMap := updN s.place.slotMap p fun _ => slotsFor (coreMapOf s p) } }

/-- The bundle ratio is latched as BOOT trains its first link (11 R287). -/
def ratioLatched (s : State) : State :=
  if s.dev.state = .boot && s.links.toList.all (fun k => !k.trained && decide (k.state ≠ .training)) then
    { s with dict := { s.dict with latched := { s.dict.latched with ratio := rw s 0x300003 } } }
  else s

/-- One link starts to train; a retired one, or one with a second permanent lane, is fenced (14 R381). -/
def linkStarts (s : State) (l : Nat) : State :=
  if (linkAt s l).state = .fenced then s
  else if unitGone s ⟨5, l⟩ || decide ((permanentLanes s l).length ≥ 2) then fenceLink s l 1
  else emit (onLink (ratioLatched s) l fun k => { k with state := .training, trained := false }) (.train l)

/-- Step 4 done: the quadrants are on, and the six links train. -/
def coresOn (s : State) (p : Nat) : State :=
  let s := if s.dev.state = .boot then reconcile s p else s
  let s := setBring (domainsOn s [5 * p, 5 * p + 1, 5 * p + 2, 5 * p + 3]) p 5
  ((upto 6).map (· + 6 * p)).foldl linkStarts s

/-- The 512 local sync objects of a partition (01 R10). -/
def localObjects (p : Nat) : List Nat := (upto 512).map (· + (4096 + 512 * p))

/-- After a partition reset: its local objects afresh (07 R184), and the refill begins where one is due (15 R403, R404). -/
def partReturns (s : State) (p : Nat) : State :=
  let s := { s with sync := syncFresh s.sync (localObjects p) s.steps.committed }
  if s.recov.refills.getLsbD p then
    let s := refetch (pullDerived s) s.fetch.again
    if hasMirror s then tells { s with recov := { s.recov with rebuild := true } } [.askState, .mirrorLost] else s
  else if s.recov.refills = 0 && s.dev.inReset = 0 && s.recov.role ≠ .taking then leaveRecovery s
  else s

/-- Step 5 done: the partition is in service. -/
def partUp (s : State) (p : Nat) : State :=
  let b := BitVec.twoPow 8 p
  let s := setBring { s with dev := { s.dev with inService := s.dev.inService ||| b, inReset := s.dev.inReset &&& ~~~ b } } p 0
  let s := post s 16 0x2000 8 s.dev.inService.toNat
  if s.dev.state = .boot then
    -- a reset during the self-test takes its kernels away: they run again (R432)
    (if s.dev.phase = 5 then { s with dev := { s.dev with kernels := s.dev.kernels ++ (bootKernels s).filter fun k => k.1 / 17 = p } } else s)
  else bringingDone (partReturns s p)

/-- A bring-up step completes (R430); step 4 waits for the partition's ostler (18 R470). -/
def bringStep (s : State) (p : Nat) (r : Bringup) : State :=
  match bringAt s p with
  | 1 => setBring (domainsOn s [5 * p + 4]) p 2
  | 2 => ucieTrained s p r.ucieBad
  | 3 => memTrained s p r.stackBad
  | 4 => coresOn s p
  | 5 => partUp s p
  | _ => s

/-- Does the Farrier run bring-up: the module is on, with no power-down or module reset in progress? -/
def bringing (s : State) : Bool := s.dev.on && s.dev.down.isNone && !s.dev.holdoff && !s.fw.farrierDown

/-- PARTITION_BRINGUP_STAGGER (R430): the next partition starts 250 ms after the one before. -/
def execPartitionBringupStagger (s : State) : Out :=
  if bringing s && decide (s.dev.state = .boot) && decide (s.dev.phase = 4) && decide (s.dev.nextPart < 8) then
    .next (bringStarts { s with dev := { s.dev with nextPart := s.dev.nextPart + 1 } } s.dev.nextPart)
  else .next s

/-- PARTITION_BRINGUP_STEP_DONE (R430, R431). -/
def execPartitionBringupStepDone (p : Fin 8) (r : Bringup) (s : State) : Out := 
  if bringing s then
    .next (if bringAt s p.val = 4 && ostlerBusy s (4 + p.val) then hwRequest s (4 + p.val) (.unit (.partitionBringupStepDone p r)) else bringStep s p.val r)
  else .next s

/-- PARTITION_RESET_DELAY_END (17 R457): the 10 s wait ends, and step 1 of R430 begins. -/
def execPartitionResetDelayEnd (p : Fin 8) (s : State) : Out :=
  if bringing s && s.dev.delayed.getLsbD p.val then
    .next (bringStarts { s with dev := { s.dev with delayed := s.dev.delayed &&& ~~~ BitVec.twoPow 8 p.val } } p.val)
  else .next s

/-! ### Start-up self-test (R432) -/

/-- The pattern family of a kernel's class: scope bits 1 to 4 of 14 R393. -/
def familyOf (pclass : Nat) : Nat := if pclass = 3 then 2 else if pclass = 4 || pclass = 5 then 3 else if pclass = 6 then 4 else 1

/-- A trot failure is counted and its event raised: its digest is wrong, and no rule says which it is, nor how patterns are numbered (log 4). -/
def trotEvent (s : State) (g pclass : Nat) (again : Bool := false) : State :=
  let lane := if again then s.tests.laneBad.contains (g, pclass) else (pclass = 1 || pclass = 2) && Config.trotLane g pclass s.free
  let rest := s.tests.laneBad.filter (· ≠ (g, pclass))
  let s := { s with tests := { s.tests with trotFail := s.tests.trotFail + 1, laneBad := if lane && !again then rest ++ [(g, pclass)] else rest } }
  drawn (drawn (faultEvent s { kind := 4, unit := ⟨if lane then 2 else 1, g⟩, pclass := pclass, detail := (Config.freeWord (s.free + 1)).toNat % 2 ^ 16,
                               arg := (drawnWord s).toNat }))

/-- A kernel's outcome: a first failure brings the same kernel again, a second one is recorded too. -/
def kernelDone (s : State) (g pclass : Nat) (ok : Bool) : State :=
  let k := (g, familyOf pclass)
  if s.dev.retest.contains (g, pclass) then
    let s := { s with dev := { s.dev with retest := s.dev.retest.erase (g, pclass) } }
    if ok then s else trotEvent s g pclass true
  else if s.dev.kernels.contains k then
    let s := { s with dev := { s.dev with kernels := s.dev.kernels.erase k } }
    if ok then s else trotEvent { s with dev := { s.dev with retest := s.dev.retest ++ [(g, pclass)] } } g pclass
  else s

/-- SELFTEST_KERNEL_DONE (R432). -/
def execSelftestKernelDone (core : Fin 136) (pclass : Nat) (digestOk : Bool) (s : State) : Out :=
  if booting s && decide (s.dev.phase = 5) then .next (kernelDone s core.val pclass digestOk) else .next s

/-! ### Die-to-die connections (01 R20 to R22, 15 R400) -/

/-- Is a UCIe module of a compute die disabled (01 R24)? Modules 0 to 3 face the hub, 4 and 5 the next die of the ring, 6 and 7 the one
before (log 165). -/
def ucieIsOff (s : State) (p m : Nat) : Bool := s.dev.ucieOff.contains (p, m)

/-- Is every module of the ring connection from Cp to the next die disabled (01 R25)? -/
def ringOff (s : State) (p : Nat) : Bool :=
  (ucieIsOff s p 4 || ucieIsOff s ((p + 1) % 8) 6) && (ucieIsOff s p 5 || ucieIsOff s ((p + 1) % 8) 7)

/-- The connections a request between two dies crosses; 8 is the hub (01 R23, R25): the ring connection of neighbours while a module of it
works, else the hub; never a third compute die. -/
def packagePath (s : State) (q f : Nat) : List Conn :=
  if q = f then []
  else if q ≥ 8 then [.toHub (Fin.ofNat 8 f)]
  else if f ≥ 8 then [.toHub (Fin.ofNat 8 q)]
  else if f = (q + 1) % 8 && !ringOff s q then [.ring (Fin.ofNat 8 q)]
  else if q = (f + 1) % 8 && !ringOff s f then [.ring (Fin.ofNat 8 f)]
  else [.toHub (Fin.ofNat 8 q), .toHub (Fin.ofNat 8 f)]

/-- Does a connection carry flits: both ends powered and a module of it left; the guest's on NDS9-768L-G only (01 R19, R24 to R27)? -/
def connUp (s : State) (c : Conn) : Bool :=
  match c with
  | .toHub p => s.domains.getLsbD 48 && s.domains.getLsbD (5 * p.val + 4) && !(upto 4).all (ucieIsOff s p.val)
  | .ring p => s.domains.getLsbD (5 * p.val + 4) && s.domains.getLsbD (5 * ((p.val + 1) % 8) + 4) && !ringOff s p.val
  | .guest => guestPart s && s.domains.getLsbD 47

/-- The CRC of a flit on a connection: of a native flit, or of the guest's 256-byte flit (01 R20, R26). -/
def connCrc (c : Conn) (flit : List Byte) : BitVec 16 := if c = .guest then Config.ucieCrc flit else Config.d2dCrc flit

/-- How many flits of a connection's direction have been delivered: the position of the last good one. -/
def d2dLast (s : State) (c : Conn) (away : Bool) : Nat := (assoc? s.dev.d2dSeq (c, away)).getD 0

/-- The replay buffer of a direction's sending side: the flits sent and not yet acknowledged, oldest first (01 R20). -/
def replayBuffer (s : State) (c : Conn) (away : Bool) : List (List Byte) := (assoc? s.dev.d2dBuf (c, away)).getD []

/-- Changes it. -/
def setReplay (s : State) (c : Conn) (away : Bool) (b : List (List Byte)) : State :=
  { s with dev := { s.dev with d2dBuf := assocSet s.dev.d2dBuf (c, away) b } }

/-- The flit at position `seq` crosses: its sending side holds it from its first sending on (01 R20). -/
def d2dHolds (s : State) (c : Conn) (away : Bool) (seq : Nat) (flit : List Byte) : State :=
  let b := replayBuffer s c away
  if seq = d2dLast s c away + b.length + 1 then setReplay s c away (b ++ [flit]) else s

/-- A flit that fails its CRC is discarded; the replay asked for counts by connection, and the sending side sends again all that it holds
(01 R20, R21). -/
def d2dAgain (s : State) (c : Conn) (away : Bool) : State :=
  emits { s with dev := { s.dev with d2dReplays := assocSet s.dev.d2dReplays c ((assoc? s.dev.d2dReplays c).getD 0 + 1) } }
    (.d2dReplay c away (d2dLast s c away) :: (replayBuffer s c away).map (.d2dSend c away))

/-- A good flit: the next one is delivered, acknowledged and leaves the replay buffer; one delivered already is only acknowledged again. DESIGN
CHOICE, log 191: one beyond the next follows a flit that failed, and waits in the buffer for the replay under way; 01 R21 names a CRC
mismatch only. -/
def d2dTaken (s : State) (c : Conn) (away : Bool) (seq : Nat) (flit : List Byte) : State :=
  if seq = d2dLast s c away + 1 then
    emits (setReplay { s with dev := { s.dev with d2dSeq := assocSet s.dev.d2dSeq (c, away) seq } } c away ((replayBuffer s c away).drop 1))
      [.d2dDeliver c away flit, .d2dAck c away seq]
  else if seq ≤ d2dLast s c away then emit s (.d2dAck c away (d2dLast s c away))
  else s

/-! ### Blinkers on the guest connection (21 R539, R540) -/

/-- A window's fields. -/
def winBase (w : Nat) : Nat := fld w 255 192
def winOff (w : Nat) : Nat := fld w 191 128
def winBytes (w : Nat) : Nat := 4096 * fld w 127 96
def winOn (w : Nat) : Bool := w.testBit 0
def winDir (w : Nat) : Bool := w.testBit 3

/-- Window `i` as it stands. -/
def winAt (s : State) (i : Nat) : Nat := rw s (0xB00010 + i)

/-- Does a request of `n` bytes at `addr` in a direction lie wholly within an enabled window: `true` the module's own (21 R539, R540)? -/
def winHolds (dir : Bool) (addr n w : Nat) : Bool :=
  winOn w && decide (winDir w = dir) && decide (winBase w ≤ addr) && decide (addr + n ≤ winBase w + winBytes w)

/-- The enabled windows of a direction that hold a request. -/
def windowsFor (s : State) (dir : Bool) (addr n : Nat) : List Nat := ((upto 16).map (winAt s)).filter (winHolds dir addr n)

/-- A denial is counted and recorded (21 R540): cause 1 no window, 2 permission. -/
def denied (s : State) (addr cause : Nat) (write : Bool) : State :=
  let r := BitVec.ofNat 128 (pack [(64, 64, addr), (4, 4, cause), (0, 4, if write then 2 else 1)])
  { s with sec := { s.sec with denials := s.sec.denials + 1, lastDenial := r } }

/-- What blinkers blocks of a flit that the module is about to send to the guest: a CXL.mem request outside the enabled DIR 1 windows that
allow it (21 R540; 00 R4): its address, cause and kind. A request is judged once, when its flit is first sent. -/
def guestBlocked (s : State) (c : Conn × Bool) (seq : Nat) (flit : List Byte) : Option (Nat × Nat × Bool) :=
  if c ≠ (.guest, true) || seq ≠ d2dLast s .guest true + (replayBuffer s .guest true).length + 1 then none
  else match Config.guestMem flit with
    | none => none
    | some (addr, n, write) =>
      let ws := windowsFor s true addr n
      if ws.any fun w => w.testBit (if write then 2 else 1) then none else some (addr, if ws.isEmpty then 1 else 2, write)

/-- D2D_FLIT_RECEIVED (01 R20, R21, R26), of a connection and a direction of it: true for a flit towards the hub, the next ring die or the
guest; delivered once and in order, unless blinkers blocks what it asks of the guest (21 R540). A position that the sending side has not reached is no event. -/
def execD2dFlitReceived (c : Conn × Bool) (seq : Nat) (flit : NativeFlit) (crc : BitVec 16) (s : State) : Out :=
  if !connUp s c.1 || seq > d2dLast s c.1 c.2 + (replayBuffer s c.1 c.2).length + 1 then .next s
  else match guestBlocked s c seq flit.sent with
    | some (addr, cause, write) => .next (denied s addr cause write)
    | none =>
      let s := d2dHolds s c.1 c.2 seq flit.sent
      if connCrc c.1 flit.got ≠ crc then .next (d2dAgain s c.1 c.2) else .next (d2dTaken s c.1 c.2 seq flit.got)

/-- A die's number in 14 R372. -/
def dieNo : Die → Nat
  | .compute p => p.val
  | .hub => 8

/-- The partition that the reset after a timeout concerns; 8 for the hub (15 R400). -/
def d2dDump (s : State) (requester far : Nat) : State :=
  let s := fullDump s far 3 15 far 65536
  if far = 8 && requester < 8 then flashSummary s 3 15 8 else s

/-- What a timeout does: the error response, the ledger event, the dump, the failing event, which a partition reset's HOLD goes out with (01
R30), and the reset (01 R22, 15 R400, 18 R482). DESIGN
CHOICE (log 166): the record names the connection by the far die, and so the hub's by 8, whichever die asked. -/
def d2dTimedOut (s : State) (requester far : Nat) : State :=
  let s := faultEvent (emit s (.errorReply requester (packagePath s requester far))) { kind := 11, unit := ⟨6, 16 * far + 15⟩, pclass := 9 }
  let s := d2dDump s requester far
  if far < 8 then failSteps (partReset s far 5) 0x0040 else if requester < 8 then modReset (failSteps s 0x0040) 5 else failSteps s 0x0040

/-- D2D_TIMEOUT (01 R22): a request to a partition in reset has its error response from the hub at once, and does not time out (01 R29). -/
def execD2dTimeout (requester far : Die) (s : State) : Out :=
  let q := dieNo requester
  let f := dieNo far
  if q = f || !s.domains.getLsbD 48 then .next s
  else if f < 8 && s.dev.inReset.getLsbD f then .next (emit s (.errorReply q (packagePath s q 8)))
  else .next (d2dTimedOut s q f)

/-! ### The test port (21 R538, 22 R555) -/

/-- The instructions by the operand's order: BYPASS, IDCODE, EXTEST, SAMPLE/PRELOAD, INTEST, EXTEST_PULSE, EXTEST_TRAIN. -/
def tapOf : Nat → TapInstr
  | 1 => .idcode
  | 2 => .extest
  | 3 => .samplePreload
  | 4 => .intest
  | 5 => .extestPulse
  | 6 => .extestTrain
  | _ => .bypass

/-- Is the instruction open while boundary scan is locked? -/
def tapOpen : TapInstr → Bool
  | .bypass => true
  | .idcode => true
  | .extest => false
  | .samplePreload => false
  | .intest => false
  | .extestPulse => false
  | .extestTrain => false

/-- The IDCODEs of the chain, hub first (22 R555). -/
def idcodes : List Nat :=
  (upto 9).map fun i => pack [(28, 4, Config.dieRevision i), (12, 16, if i = 0 then 0x9D90 else 0x9D91), (1, 11, Config.makerCode), (0, 1, 1)]

/-- The levels that the hub's boundary register captures of the low-speed pins of the host connector: PWR_EN, PERST_N, ALERT_N, THERM_TRIP_N,
EPOCH_MARK reading low (22 R551, R556; the order is the model's, log 105). -/
def boundaryLevels (s : State) : Nat :=
  pack [(3, 1, bit s.pins.pwrEn), (2, 1, bit s.pins.perstN), (1, 1, bit (!s.pins.alert)), (0, 1, bit (!s.pins.thermTrip))]

/-- What each data register of the chain delivers under an instruction (22 R555, R556): a bypass bit 0, the IDCODE, the captured pins of the hub,
or what the lanes and the dies' test controllers give, which is free (log 105). -/
def scanOf (s : State) (t : TapInstr) : List Nat :=
  match t with
  | .bypass => List.replicate 9 0
  | .idcode => idcodes
  | .extest => boundaryLevels s :: List.replicate 8 0
  | .samplePreload => boundaryLevels s :: List.replicate 8 0
  | .intest => (upto 9).map fun i => if i = 0 then 0 else Config.scanData (s.free + i)
  | .extestPulse => (upto 9).map fun i => if i = 0 then 0 else Config.scanData (s.free + i) % 2 ^ 432
  | .extestTrain => (upto 9).map fun i => if i = 0 then 0 else Config.scanData (s.free + i) % 2 ^ 432

/-- Does a scan deliver free values? -/
def scanFree (t : TapInstr) : Bool := decide (t = .intest) || decide (t = .extestPulse) || decide (t = .extestTrain)

/-- TEST_PORT_INSTRUCTION (21 R538): 7 stands for TRST_N low or open, which holds the TAPs in Test-Logic-Reset; the others arrive with TRST_N
high (22 R551, log 105). An instruction that is accepted scans its data register. -/
def execTestPortInstruction (instr : Nat) (s : State) : Out :=
  if !s.dev.on then .next s
  else if instr = 7 then .next { s with dev := { s.dev with tap := .idcode }, pins := { s.pins with trstN := false, prodHeld := false } }
  else
    let s := { s with pins := { s.pins with trstN := true } }
    let t := tapOf instr
    if tapOpen t || s.dev.scanOpen then
      let n := if scanFree t then s.free + 9 else s.free
      .next { emit { s with dev := { s.dev with tap := t } } (.tapScan (scanOf s t)) with free := n }
    else .next s

end Sys2Proof.Machine
end

