-- ==== Sys2Proof/Machine/Checkpoints.lean ====
section
/-! DEFINITION. Checkpoints: epoch marks, capture, manifests, retained areas, restore and export (13 R343 to R371, 19 R504, 21 R530). -/

namespace Sys2Proof.Machine

/-! ### Epoch marks (R346, 19 R504) -/

/-- A raised mark is pending, and counts once. -/
def raiseMark (s : State) : State := { s with ckpt := { s.ckpt with pend := true, marks := s.ckpt.marks + 1 } }

/-- EPOCH_MARK_EDGE (19 R504): an edge qualified by 1 µs high, 100 µs or more after the one that raised the last mark. -/
def execEpochMarkEdge (highNs : Nat) (s : State) : Out :=
  if s.dev.on && decide (highNs ≥ 1000) && (match s.ckpt.markEdge with | some t => decide (s.clk.now ≥ t + 100000) | none => true) then
    .next (raiseMark { s with ckpt := { s.ckpt with markEdge := some s.clk.now } })
  else .next s

/-- Only the value 1 is not reserved (R371). -/
def markOwn (value : Nat) : Nat := if value = 1 then 0 else 4

/-- EPOCH_MARK_COMMAND (R346). -/
def execEpochMarkCommand (src : Src) (s : State) : Out := .next (hostCommand s src 0x60000A 1 1 (markOwn 1) raiseMark)

/-! ### What a capture reads (R343, R344, R351) -/

/-- The end-of-cut copy of a tile: what the engine has copied, its HOLD copy, PREV where a later step has first written the tile, else COMMITTED
(10 R247, R250). What it reads now is delivered as marked locations are (09 R234). -/
def cutCopy (s : State) (q : Capture) (c t tile : Nat) : Option Copy :=
  match (q.got ++ s.vers.copies.filter (heldFor q.cut)).find? fun x => x.ctx = c && x.tensor = t && x.tile = tile with
  | some x => some x
  | none => (firstCopy s c t tile (if decide (s.steps.committed > q.cut) then [.prev, .committed] else [.committed])).map fun x =>
      if decide (x.kind = .committed) then { x with bytes := readCopy s (tensorAt (progAt s c) t) x } else x

/-- A captured tensor's canonical image at the end of the cut. -/
def cutImage (s : State) (q : Capture) (c t n : Nat) : List Byte :=
  (upto ((n + 65535) / 65536)).flatMap fun k =>
    let len := min 65536 (n - 65536 * k)
    match cutCopy s q c t k with
    | some x => memTake x.bytes (65536 * k) len
    | none => List.replicate len 0

/-- One captured image: KIND, context, tensor, bytes. -/
structure Part where
  kind   : Nat
  ctx    : Nat
  tensor : Nat
  img    : List Byte
  deriving DecidableEq, Repr, Inhabited

/-- A cut's images, of the tensors that stood at the cut, the module-state pieces last (R343, R345). -/
def captureParts (s : State) (k : Capture) : List Part :=
  let own := k.owned.map fun x => (⟨0, x.1, x.2.1, cutImage s k x.1 x.2.1 x.2.2⟩ : Part)
  let there (x : Nat × Nat × Nat) : Bool := (upto ((x.2.2 + 65535) / 65536)).all fun i => (cutCopy s k (16 + x.1) x.2.1 i).isSome
  let mir := (k.mirrored.filter there).map fun x => (⟨1, x.1, x.2.1, cutImage s k (16 + x.1) x.2.1 x.2.2⟩ : Part)
  let other := (s.ckpt.partnerPieces.filter fun q => q.1 = k.cut).map fun q => (⟨3, 0, 0, q.2⟩ : Part)
  own ++ mir ++ ⟨2, 0, 0, k.modState⟩ :: other

/-- A piece record (R358). -/
def pieceRec (p : Part) (imgOff storeOff : Nat) (bytes : List Byte) : BitVec 512 :=
  BitVec.ofNat 512 (pack [(256, 256, (shake256 bytes).toNat), (224, 32, storeOff), (192, 32, imgOff), (165, 27, bytes.length), (145, 20, p.tensor),
    (141, 4, p.ctx), (139, 2, p.kind)])

/-- The pieces of one image, cut at 64 MiB boundaries (R344): image offset in 64 KiB units, and bytes. -/
def cutPieces (p : Part) : List (Nat × List Byte) := (chunksOf (64 * 2 ^ 20) p.img).mapIdx fun i bs => (1024 * i, bs)

/-- Pieces laid out from offset 64 MiB of the area on, each at a 4 KiB boundary (R355). -/
def layPieces : Nat → List (Part × Nat × List Byte) → List (BitVec 512 × List Byte)
  | _, [] => []
  | off, (p, io, bs) :: r => (pieceRec p io off bs, bs) :: layPieces (off + (bs.length + 4095) / 4096) r

/-- Every piece of a cut with its record, in order of context, then tensor, then image offset, the module-state pieces last (R351). -/
def capturePieces (s : State) (k : Capture) : List (BitVec 512 × List Byte) :=
  let ps := (captureParts s k).flatMap fun p => (cutPieces p).map fun x => (p, x.1, x.2)
  let before (a b : Part × Nat × List Byte) : Bool :=
    decide (a.1.ctx * 2 ^ 20 + a.1.tensor < b.1.ctx * 2 ^ 20 + b.1.tensor) || (a.1.ctx = b.1.ctx && a.1.tensor = b.1.tensor && decide (a.2.1 ≤ b.2.1))
  layPieces 16384 (sortBy before (ps.filter fun x => decide (x.1.kind < 2)) ++ ps.filter fun x => !decide (x.1.kind < 2))

/-! ### Fields of a piece record -/

def pieceDigest (r : BitVec 512) : Digest := BitVec.ofNat 256 (fld r.toNat 511 256)
def pieceStore (r : BitVec 512) : Nat := fld r.toNat 255 224
def pieceImg (r : BitVec 512) : Nat := fld r.toNat 223 192
def pieceLen (r : BitVec 512) : Nat := fld r.toNat 191 165
def pieceTensor (r : BitVec 512) : Nat := fld r.toNat 164 145
def pieceCtx (r : BitVec 512) : Nat := fld r.toNat 144 141
def pieceKind (r : BitVec 512) : Nat := fld r.toNat 140 139

/-! ### Starting a capture (R351, R352, R354, R361) -/

/-- Bytes that an area or window must hold: the captured bytes and the 64 MiB manifest region (R354). -/
def cutNeeds (s : State) (k : Capture) : Nat := ((captureParts s k).map (·.img.length)).sum + 64 * 2 ^ 20

/-- Number of pieces. -/
def cutPieceCount (s : State) (k : Capture) : Nat := ((captureParts s k).map fun p => (p.img.length + 64 * 2 ^ 20 - 1) / (64 * 2 ^ 20)).sum

/-- Does the cut exceed an area or the largest NPIECE (R352 cause 6)? -/
def cutTooBig (s : State) (k : Capture) : Bool := decide (cutNeeds s k > 100 * 2 ^ 30) || decide (cutPieceCount s k > 1048551)

/-- The lowest-numbered enabled pool target from `i` on whose window holds the cut (R361). -/
def poolFrom (s : State) (k : Capture) (i : Nat) : Option Nat :=
  (upto 8).find? fun t =>
    let w := rw s (0x600020 + t)
    decide (i ≤ t) && w.testBit 0 && decide (fld w 63 48 * 2 ^ 30 ≥ cutNeeds s k)

/-- The ping-pong area that does not hold the newest job-complete cut (R354). -/
def pingArea (k : Ckpt) : Nat :=
  let a := nth k.areas 0 {}
  let b := nth k.areas 1 {}
  match k.jobArea with
  | some 0 => if a.state = 3 then 1 else 0
  | some _ => if b.state = 3 then 0 else bit (decide (a.state = 3))
  | none => if a.state = 3 && (b.state ≠ 3 || decide (a.cut ≥ b.cut)) then 1 else 0

/-- Changes the capture of a cut. -/
def onCapture (s : State) (cut : Nat) (f : Capture → Capture) : State :=
  { s with ckpt := { s.ckpt with captures := mapWhere s.ckpt.captures (fun k => k.cut = cut) f } }

/-- The engine begins to write a cut into a Lehr area: its head is zeroed first (R355). -/
def lehrBegins (s : State) (cut area : Nat) : State :=
  emit (onCapture { s with ckpt := { s.ckpt with areas := updN s.ckpt.areas area fun _ => { state := 1, cut := cut } } } cut
    fun k => { k with begun := true, area := some area }) (.lehr 1 area)

/-- The engine begins to write a cut into a pool window, its head zeroed first (R361). -/
def poolBegins (s : State) (cut target : Nat) : State :=
  emit (onCapture { s with ckpt := { s.ckpt with pool := updN s.ckpt.pool target fun _ => { state := 1, cut := cut } } } cut
    fun k => { k with begun := true, target := some target }) (.uio target 4096)

/-- The pool part of a capture starts, or the capture is abandoned with cause 4 (R361). -/
def poolStart (s : State) (k : Capture) (from_ : Nat) : State :=
  match poolFrom s k from_ with
  | some t => poolBegins s k.cut t
  | none => abandonCapture s k.cut 4

/-- A capture starts as the fallback mode says (R360); it waits for a retain copy that reads its area (R354). -/
def captureBegins (s : State) (k : Capture) : State :=
  let mode := rw s 0x600005
  let a := pingArea s.ckpt
  if cutTooBig s k then abandonCapture s k.cut 6
  else if mode = 3 then poolStart s k 0
  else if s.ckpt.retain.map (·.1) = some a then s
  else if mode = 2 then
    match poolFrom s k 0 with
    | some t => poolBegins (lehrBegins s k.cut a) k.cut t
    | none => abandonCapture s k.cut 4
  else lehrBegins s k.cut a

/-- CAPTURE_START (R351, R352): the oldest open capture, once every older one is finished. -/
def execCaptureStart (s : State) : Out :=
  match s.ckpt.captures.find? fun k => !k.durable with
  | some k => .next (if s.dev.on && !k.begun then captureBegins s k else s)
  | none => .next s

/-! ### Manifests (R350, R357) -/

/-- The serial of the module at a position, as a neighbour's discovery records give it; elsewhere no rule says how it is known: a free
value of the position (log 87). -/
def serialAt (s : State) (coord : Nat) : Nat :=
  match allDirs.find? fun d => stepCoord s (ownCoord s) d = coord && !(dirLinks s d).isEmpty with
  | some d => serialOf s d
  | none => (Config.serialOf coord).toNat

/-- This module's logical coordinates, where it has a logical position (12 R313). -/
def ownLogical (s : State) : Option Nat :=
  (logX s s.recov.remap (coordOn (ownCoord s) 0)).map fun x => coordOf x (ownLog s 1) (ownLog s 2)

/-- The logical coordinates a step along the partner axis (15 R408). -/
def pairLogical (s : State) (fwd : Bool) : Nat :=
  let a := partnerAxis s
  let n := logExtent s a
  let mv (k : Nat) : Nat := if k = a then (if fwd then (ownLog s k + 1) % n else (ownLog s k + n - 1) % n) else ownLog s k
  coordOf (mv 0) (mv 1) (mv 2)

/-- FLAGS of a manifest: LOCAL, POOL. -/
def manifestFlags (s : State) (pool : Bool) : Nat := pack [(0, 1, bit (anyLocal s)), (1, 1, bit pool)]

/-- A manifest's header (R357). -/
def manifestHeader (s : State) (cut npiece : Nat) (pool : Bool) : Nat :=
  let p := progAt s 0
  let m := hasMirror s
  pack [(2016, 32, 0x4C485243), (2000, 16, 1), (1984, 16, manifestFlags s pool), (1920, 64, cut), (1856, 64, p.planId), (1792, 64, p.seed),
    (1728, 64, rw s 0x300001), (1664, 64, s.dev.product.serial), (1600, 64, if m then serialAt s (pairAt s true) else 0),
    (1536, 64, if m then serialAt s (pairAt s false) else 0), (1521, 15, ownCoord s), (1506, 15, (ownLogical s).getD 0),
    (1491, 15, if m then pairLogical s false else 0), (1476, 15, rw s 0x300005), (1461, 15, rw s 0x300003), (1431, 30, s.dict.latched.block),
    (1426, 5, rw s 0x300006), (1394, 32, Config.interfaceVersion (versionOf s 2)),
    (1378, 16, pack ((jobPrograms s).map fun cp => (cp.1, 1, 1))), (1346, 32, npiece),
    (768, 256, (shake256 ((jobPrograms s).flatMap fun cp => digestBytes cp.2.digest)).toNat)]

/-- An area that holds a whole copy of a cut, with its manifest signed by the device identity. -/
def wholeArea (s : State) (k : Capture) (pool : Bool) : Area :=
  { state := 2, cut := k.cut, npiece := k.pieces.length, flags := BitVec.ofNat 4 (manifestFlags s pool),
    hdr := manifestHeader s k.cut k.pieces.length pool, recs := k.pieces.map (·.1), sigKey := s.sec.identity, pieces := k.pieces.map (·.2) }

/-- CAPTURE_PIECES_DONE (R355): every piece is durable, and nothing is held for the cut any more; the manifest follows. -/
def execCapturePiecesDone (cut : Nat) (s : State) : Out :=
  match s.ckpt.captures.find? fun k => k.cut = cut with
  | some k =>
    if k.begun && !k.copied then
      let ps := if k.read then k.pieces else capturePieces s k
      let s := { onCapture s cut (fun k => { k with read := true, copied := true, pieces := ps }) with vers := releaseHold s.vers cut }
      .next (emits s ((k.area.toList.map fun a => .lehr 2 a) ++ k.target.toList.map fun t => .uio t (ps.map (·.2.length)).sum))
    else .next s
  | none => .next s

/-- The module's word for a cut whose capture is complete (R349). -/
def doneWord (s : State) (cut : Nat) (pool : Bool) : BitVec 32 :=
  BitVec.ofNat 32 (pack [(16, 16, cut), (2, 1, bit (anyLocal s)), (1, 1, bit pool), (0, 1, 1)])

/-- The manifest is durable in every required copy: the areas are locally complete, and DONE 1 is contributed (R350). -/
def manifestIsDurable (s : State) (k : Capture) : State :=
  let areas := match k.area with
    | some a => updN s.ckpt.areas a fun _ => wholeArea s k false
    | none => s.ckpt.areas
  let pool := match k.target with
    | some t => updN s.ckpt.pool t fun _ => wholeArea s k true
    | none => s.ckpt.pool
  let s' := { s with ckpt := { s.ckpt with areas := areas, pool := pool, lastLocal := k.cut, storeBad := s.ckpt.storeBad && k.area.isNone } }
  vote (emits (onCapture s' k.cut fun k => { k with durable := true }) (k.area.toList.map fun a => .lehr 3 a)) k.cut (doneWord s k.cut k.target.isSome)

/-- MANIFEST_DURABLE (R350, R355): not while ostler 2, which assembles it, restarts (18 R467). -/
def execManifestDurable (cut : Nat) (s : State) : Out :=
  match s.ckpt.captures.find? fun k => k.cut = cut with
  | some k => .next (if k.copied && !k.durable && !ostlerBusy s 2 then manifestIsDurable s k else s)
  | none => .next s

/-! ### Write errors (R352, R360, R361) -/

/-- The cut is rewritten in full to the pool: its area holds no valid manifest. -/
def fallBack (s : State) (k : Capture) : State :=
  let s := onCapture { s with ckpt := { s.ckpt with areas := s.ckpt.areas.map (unwritten k.cut) } } k.cut
    fun k => { k with area := none, fellBack := true, copied := false }
  poolStart s k 0

/-- A Lehr store write of a capture fails: rewritten to the pool in mode 1, else abandoned with cause 2. -/
def lehrFails (s : State) (k : Capture) : State :=
  let s := { s with ckpt := { s.ckpt with storeBad := true } }
  if rw s 0x600005 = 1 && !k.fellBack then fallBack s k else abandonCapture s k.cut 2

/-- LEHR_WRITE_ERROR (R352, R360). -/
def execLehrWriteError (cut : Nat) (s : State) : Out :=
  match s.ckpt.captures.find? fun k => k.cut = cut with
  | some k => .next (if k.begun && !k.durable && (k.area.isSome || k.fellBack) then lehrFails s k else s)
  | none => .next s

/-- A pool write fails: the cut starts again on the next suitable target (R361). -/
def poolFails (s : State) (k : Capture) (t : Nat) : State :=
  let s := onCapture { s with ckpt := { s.ckpt with pool := updN s.ckpt.pool t (unwritten k.cut) } } k.cut fun k => { k with target := none, copied := false }
  poolStart s k (t + 1)

/-- POOL_WRITE_ERROR (R361). -/
def execPoolWriteError (cut : Nat) (s : State) : Out :=
  match s.ckpt.captures.find? fun k => k.cut = cut with
  | some k =>
    match k.target with
    | some t => .next (if k.durable then s else poolFails s k t)
    | none => .next s
  | none => .next s

/-! ### Retained areas (R356) -/

/-- The ping-pong area that holds a cut locally complete. -/
def cutArea (k : Ckpt) (cut : Nat) : Option Nat :=
  [0, 1].find? fun a => decide ((nth k.areas a {}).cut = cut) && (decide ((nth k.areas a {}).state = 2) || decide ((nth k.areas a {}).state = 3))

/-- The lowest free retained area. -/
def freeArea (k : Ckpt) : Option Nat :=
  ((upto 16).map (· + 2)).find? fun a => decide ((nth k.areas a {}).state = 0) || decide ((nth k.areas a {}).state = 4)

/-- What stands against a retain command (R356). -/
def retainOwn (s : State) (cut : Nat) : Nat :=
  if (cutArea s.ckpt cut).isNone || (freeArea s.ckpt).isNone || s.ckpt.retain.isSome then 6 else 0

/-- The retain copy starts: its destination's head is zeroed (R355, R356). -/
def retainStarts (cut : Nat) (s : State) : State :=
  match cutArea s.ckpt cut, freeArea s.ckpt with
  | some a, some d => emit { s with ckpt := { s.ckpt with retain := some (a, d), areas := updN s.ckpt.areas d fun _ => { state := 1, cut := cut } } } (.lehr 1 d)
  | _, _ => s

/-- RETAIN_COMMAND (R356). -/
def execRetainCommand (src : Src) (cut : BitVec 64) (s : State) : Out :=
  .next (hostCommand s src 0x600012 8 cut.toNat (retainOwn s cut.toNat) (retainStarts cut.toNat))

/-- RETAIN_COPY_DONE (R356). -/
def execRetainCopyDone (s : State) : Out :=
  match s.ckpt.retain with
  | some (a, d) => .next { s with ckpt := { s.ckpt with retain := none, areas := updN s.ckpt.areas d fun _ => nth s.ckpt.areas a {} } }
  | none => .next s

/-- A release names a retained area (R356). -/
def releaseOwn (area : Nat) : Nat := if 2 ≤ area ∧ area ≤ 17 then 0 else 5

/-- A retained area is invalidated as R355 does; a retain copy into it ends. -/
def releaseArea (area : Nat) (s : State) : State :=
  emit { s with ckpt := { s.ckpt with areas := updN s.ckpt.areas area fun a => { state := 4, cut := a.cut },
                                      retain := s.ckpt.retain.filter fun x => x.2 ≠ area } } (.lehr 1 area)

/-- RELEASE_COMMAND (R356). -/
def execReleaseCommand (src : Src) (area : BitVec 8) (s : State) : Out :=
  .next (hostCommand s src 0x600013 1 area.toNat (releaseOwn area.toNat) (releaseArea area.toNat))

/-! ### Restore and export requests (R362, R370) -/

def restOffset (r : BitVec 128) : Nat := fld r.toNat 127 64
def restPart (r : BitVec 128) : Nat := fld r.toNat 19 18
def restSource (r : BitVec 128) : Nat := fld r.toNat 17 16
def restArea (r : BitVec 128) : Nat := fld r.toNat 4 0

/-- May a restore of this context be carried out (R362)? -/
def restoreAllowed (s : State) (c : Nat) : Bool :=
  if c = 0 then decide ((ctxAt s 0).state = .loaded) && !(ctxAt s 0).started
  else decide (s.dev.state = .test) && (ctxAt s 15).diag

/-- What stands against a restore request (R362). -/
def restoreOwn (s : State) (r : BitVec 128) : Nat := firstReason [
  (decide (restPart r = 0) || decide (restSource r ≥ 2) || (decide (restContext r ≠ 0) && decide (restContext r ≠ 15)) ||
    (decide (restSource r = 1) && decide (restOffset r % 4096 ≠ 0)), 4),
  ((decide (restSource r = 0) && decide (restArea r > 17)) || (decide (restSource r = 1) && decide (restOffset r ≥ 2 ^ 36)), 5),
  (!restoreAllowed s (restContext r) || decide (s.ckpt.restore = 1), 6)]

/-- The restore is in progress. -/
def restoreStarts (r : BitVec 128) (s : State) : State :=
  let s := { s with ckpt := { s.ckpt with restReq := some r, restore := 1, restCut := 0, restReason := 0, restNoState := false } }
  if restSource r = 1 then emit s (.snoop (restOffset r)) else s

/-- RESTORE_REQUEST (R362). -/
def execRestoreRequest (src : Src) (req : BitVec 128) (s : State) : Out :=
  .next (hostCommand s src 0x600018 16 req.toNat (restoreOwn s req) (restoreStarts req))

/-! ### The manifest a restore takes (R357, R359, 21 R530) -/

/-- A manifest as read: header, records, the key named, whether it is valid, and the bytes of each piece. -/
structure Manifest where
  hdr    : Nat
  recs   : List (BitVec 512)
  valid  : Bool
  pieces : List (List Byte)
  deriving DecidableEq, Repr, Inhabited

def mfFlags (h : Nat) : Nat := fld h 1999 1984
def mfCut (h : Nat) : Nat := fld h 1983 1920
def mfPlan (h : Nat) : Nat := fld h 1919 1856
def mfSeed (h : Nat) : Nat := fld h 1855 1792
def mfSerial (h : Nat) : Nat := fld h 1727 1664
def mfLogical (h : Nat) : Nat := fld h 1520 1506
def mfMirrored (h : Nat) : Nat := fld h 1505 1491
def mfCount (h : Nat) : Nat := fld h 1377 1346

/-- MAGIC, FMT and NPIECE (R359). -/
def mfShape (h : Nat) : Bool := decide (fld h 2047 2016 = 0x4C485243) && decide (fld h 2015 2000 = 1) && decide (1 ≤ mfCount h) && decide (mfCount h ≤ 1048551)

/-- The bytes a manifest's signature covers. -/
def mfBytes (h : Nat) (recs : List (BitVec 512)) : List Byte := toBytes 256 h ++ recs.flatMap fun r => toBytes 64 r.toNat

/-- May the key that a staged manifest names sign it: this module's own, one with the signer's certificate behind the block, or a
credential with CONVERT for a converted manifest (21 R530, R369)? -/
def mfKeyOk (s : State) (h : Nat) (key : Digest) (cert : List Byte) : Bool :=
  decide (key = s.sec.identity) ||
    (match Config.certified cert with | some (k, sn) => decide (k = key) && decide (sn.toNat = mfSerial h) | none => false) ||
    ((mfFlags h).testBit 2 && s.sec.creds.toList.any fun c => c.valid && c.convert && decide (c.key = key))

/-- The manifest in the staging aperture at `off`. -/
def stagedManifest (s : State) (off : Nat) : Manifest :=
  let h := ofBytes (memTake s.staging off 256)
  let n := if mfShape h then mfCount h else 0
  let recs := (upto n).map fun i => BitVec.ofNat 512 (ofBytes (memTake s.staging (off + 256 + 64 * i) 64))
  let at_ := off + 256 + 64 * n
  let key : Digest := BitVec.ofNat 256 (ofBytes (memTake s.staging at_ 32))
  let sg := Config.signed (memTake s.staging (at_ + 32) 1280)
  { hdr := h, recs := recs,
    valid := mfShape h && decide (sg = (key, shake256 (mfBytes h recs))) && mfKeyOk s h key (memTake s.staging (at_ + 1312) (off + 64 * 2 ^ 20 - (at_ + 1312))),
    pieces := recs.map fun r => memTake s.staging (off + 4096 * pieceStore r) (pieceLen r) }

/-- The manifest of a Lehr area: one that is complete was signed by this module. -/
def areaManifest (a : Area) : Manifest :=
  { hdr := a.hdr, recs := a.recs, valid := (decide (a.state = 2) || decide (a.state = 3)) && mfShape a.hdr, pieces := a.pieces }

/-- The manifest that a request names. -/
def restManifest (s : State) (r : BitVec 128) : Manifest :=
  if restSource r = 1 then stagedManifest s (restOffset r) else areaManifest (nth s.ckpt.areas (restArea r) {})

/-! ### What a restore takes (R363, R364) -/

/-- The kinds of a manifest that hold this module's own state: tensors and module state, none where it holds no such state (R363). -/
def ownKinds (s : State) (h : Nat) : Option (Nat × Nat) :=
  match ownLogical s with
  | none => none
  | some l => if mfLogical h = l then some (0, 2) else if mfMirrored h = l then some (1, 3) else none

/-- The same for the mirror region. -/
def mirrorKinds (s : State) (h : Nat) : Option (Nat × Nat) :=
  match ownLogical s with
  | none => none
  | some l => if mfLogical h = l then some (1, 3) else if hasMirror s && mfLogical h = pairLogical s false then some (0, 2) else none

/-- Does the manifest match the request (R364 reason 2)? -/
def manifestFits (s : State) (r : BitVec 128) (h : Nat) : Bool :=
  (!(restPart r).testBit 0 || (ownKinds s h).isSome) && (!(restPart r).testBit 1 || (mirrorKinds s h).isSome)

/-- Context of the loaded program that a piece of context `k` fills: itself, or 15 for context 0 in a diagnosis replay (R368). -/
def fillsCtx (c k : Nat) : Option Nat := if c = 0 then some k else if k = 0 then some 15 else none

/-- The pieces of a kind: record and bytes. -/
def piecesOf (m : Manifest) (kind : Nat) : List (BitVec 512 × List Byte) := (m.recs.zip m.pieces).filter fun x => pieceKind x.1 = kind

/-- The pieces of a kind as images by context and tensor. -/
def imagesOf (c : Nat) (ps : List (BitVec 512 × List Byte)) : List (Nat × Nat × List Byte) :=
  (nub (ps.map fun x => (pieceCtx x.1, pieceTensor x.1))).filterMap fun k =>
    let mine := ps.filter fun x => pieceCtx x.1 = k.1 && pieceTensor x.1 = k.2
    let n := (mine.map fun x => pieceLen x.1).sum
    (fillsCtx c k.1).map fun d => (d, k.2, memTake (mine.foldl (fun w x => memPut w (65536 * pieceImg x.1) x.2) []) 0 n)

/-- Does every tensor named exist in its loaded program with an equal image length (R364 reason 5)? -/
def imagesFit (s : State) (imgs : List (Nat × Nat × List Byte)) : Bool :=
  imgs.all fun x => match (ctxAt s x.1).prog with
    | some p => decide (x.2.1 < p.tensors.length) && decide (x.2.2.length = tensorBytes (tensorAt p x.2.1))
    | none => false

/-- The bytes of the module-state pieces of a kind, where there are any. -/
def stateOf (m : Manifest) (kind : Nat) : Option (List (BitVec 128)) :=
  let ps := piecesOf m kind
  if ps.isEmpty then none else some (recsOf (ps.flatMap (·.2)))

/-- The pieces that a request takes. -/
def takenPieces (s : State) (r : BitVec 128) (m : Manifest) : List (BitVec 512 × List Byte) :=
  let kinds := (if (restPart r).testBit 0 then ((ownKinds s m.hdr).map fun k => [k.1, k.2]).getD [] else []) ++
    (if (restPart r).testBit 1 then ((mirrorKinds s m.hdr).map fun k => [k.1, k.2]).getD [] else [])
  (m.recs.zip m.pieces).filter fun x => kinds.contains (pieceKind x.1)

/-- Does poison or a partition in reset meet what is read from the aperture: the manifest of `n` records and the pieces (R364 reason 7)? -/
def apertureBad (s : State) (r : BitVec 128) (n : Nat) (ps : List (BitVec 512 × List Byte)) : Bool :=
  decide (restSource r = 1) && (stageBad s (restOffset r) (256 + 64 * n + 1312) || ps.any fun x => stageBad s (restOffset r + 4096 * pieceStore x.1) (pieceLen x.1))

/-- Would a restore write tiles whose partition is in reset, so that the hub answers it with an error (01 R29)? -/
def restoreShut (s : State) (r : BitVec 128) : Bool :=
  s.dev.inReset ≠ 0 && (if restContext r = 15 then [(15, progAt s 15)] else jobPrograms s).any fun cp =>
    (persistents cp.2).any fun t => (upto (tilesIn (tensorAt cp.2 t))).any fun k => s.dev.inReset.getLsbD (tileHome s cp.1 t k)

/-- The first check of R364 that fails: its reason, 0 when all pass. -/
def restoreReason (s : State) (r : BitVec 128) (m : Manifest) (readError badPiece : Bool) : Nat :=
  let p := progAt s (restContext r)
  let ps := takenPieces s r m
  firstReason [
    (!m.valid, 1),
    (!manifestFits s r m.hdr, 2),
    (decide (mfPlan m.hdr ≠ p.planId), 3),
    (decide (mfSeed m.hdr ≠ p.seed), 4),
    ([0, 1].any (fun k => !imagesFit s (imagesOf (restContext r) (ps.filter fun x => pieceKind x.1 = k))), 5),
    (badPiece || ps.any (fun x => decide (shake256 x.2 ≠ pieceDigest x.1)), 6),
    (readError || apertureBad s r m.recs.length ps || restoreShut s r, 7)]

/-! ### A restore that succeeds (R365, R368) -/

/-- Records of context 0 as context 15's. -/
def recsForReplay (rs : List (BitVec 128)) : List (BitVec 128) :=
  (rs.filter fun r => fld r.toNat 27 24 = 0).map fun r => r ||| BitVec.ofNat 128 (15 * 2 ^ 24)

/-- Copies of the contexts a restore fills, PREV, W1, W2 and HOLD gone (R365). -/
def restoredCopies (c : Nat) (k : Copy) : Bool := (if c = 0 then k.ctx = 15 else k.ctx ≠ 15) || decide (k.kind = .committed) || decide (k.kind = .whole)

/-- Committed copies of the derived tensors of a diagnosis replay, for the rebuild to write (R368). -/
def derivedCopies (s : State) (rs : List (BitVec 128)) : State :=
  let p := progAt s 15
  let ds := (derivedTensors p).filter fun t => decide ((tensorAt p t).persist = clsPersistent)
  let new := ds.flatMap fun t => imageCopies s rs 15 t (List.replicate (tensorBytes (tensorAt p t)) 0)
  { s with vers := { s.vers with copies := s.vers.copies.filter (fun k => !(k.ctx = 15 && ds.contains k.tensor)) ++ new } }

/-- The module's own state: images, histories, tolerances, scales. -/
def restoreOwnState (s : State) (c : Nat) (m : Manifest) (k : Nat × Nat) : State :=
  let st := stateOf m k.2
  let rs := st.getD []
  let imgs := imagesOf c (piecesOf m k.1)
  let s := { s with ckpt := { s.ckpt with restNoState := s.ckpt.restNoState || st.isNone } }
  if c = 0 then installRecs (installImages s rs imgs) (mfCut m.hdr) rs
  else
    let rs := recsForReplay rs
    onCtx (derivedCopies (installImages s rs imgs) rs) 15 fun x => { x with tens := tensFrom (progAt s 15) 15 (mfCut m.hdr) rs x.tens }

/-- The mirror region. -/
def restoreMirror (s : State) (m : Manifest) (k : Nat × Nat) : State :=
  { s with ckpt := { s.ckpt with restNoState := s.ckpt.restNoState || (stateOf m k.2).isNone },
           vers := { s.vers with copies := s.vers.copies.filter (fun k => !isMirrorTile k) ++ mirrorTiles .committed (imagesOf 0 (piecesOf m k.1)),
                                 mirrorRecs := (stateOf m k.2).getD [], mirrorW := [], mirrorLost := false } }

/-- The steps after a restore: last committed step and L, or the cut of a diagnosis replay; sync objects (07 R184). -/
def restoredSteps (s : State) (c cut : Nat) : State :=
  if c = 0 then
    { s with steps := { s.steps with committed := cut }, ckpt := { s.ckpt with lastCut := cut },
             sync := syncFresh s.sync (nub ((jobPrograms s).flatMap fun cp => namedObjects cp.2)) cut }
  else { s with steps := { s.steps with replayCut := cut }, sync := syncFresh s.sync (namedObjects (progAt s 15)) cut }

/-- The state a restore fills; PREV, W1, W2 and HOLD are emptied. -/
def restoreFills (s : State) (r : BitVec 128) (m : Manifest) : State :=
  let c := restContext r
  let s := { s with vers := { s.vers with copies := s.vers.copies.filter (restoredCopies c) } }
  let s := match ownKinds s m.hdr with
    | some k => if (restPart r).testBit 0 then restoreOwnState s c m k else s
    | none => s
  match mirrorKinds s m.hdr with
  | some k => if (restPart r).testBit 1 && c = 0 then restoreMirror s m k else s
  | none => s

/-- A restore that succeeds: committed state, steps, sync objects, status, the M6 extension (R365, 21 R527). -/
def restoreSucceeds (s : State) (r : BitVec 128) (m : Manifest) : State :=
  let c := restContext r
  let cut := mfCut m.hdr
  let s := restoredSteps (restoreFills s r m) c cut
  let s := onCtx s c fun x => { x with restored := true, invalid := false }
  let s := { s with ckpt := { s.ckpt with restore := 2, restReason := 0, restCut := cut, restReq := none },
                    sec := { s.sec with meas := updN s.sec.meas 6 fun d => extend d (shake256 (toBytes 256 m.hdr)) } }
  post s 12 0x6000 0x19 (restStatus cut 0 2 s.ckpt.restNoState)

/-- A restore ends (R364, R365). -/
def restoreEnds (s : State) (r : BitVec 128) (readError badPiece : Bool) : State :=
  let v := if restContext r = 15 then judgeView s 15 else s
  let m := restManifest s r
  let why := restoreReason v r m readError badPiece
  if why ≠ 0 then restoreFails s why (if m.valid then mfCut m.hdr else 0)
  else
    let t := restoreSucceeds v r m
    { t with dict := s.dict }

/-- RESTORE_DONE (R364, R365, R368). -/
def execRestoreDone (readError badPiece : Bool) (s : State) : Out :=
  match s.ckpt.restReq with
  | some r => .next (restoreEnds s r readError badPiece)
  | none => .next s

/-! ### Export (R370) -/

/-- What stands against an export request. -/
def exportOwn (s : State) (r : BitVec 128) : Nat := firstReason [
  (decide (restPart r = 0) || decide (restSource r ≥ 2) || (decide (restContext r ≠ 0) && decide (restContext r ≠ 15)) ||
    decide (restOffset r % 4096 ≠ 0), 4),
  (decide (restArea r > 17) || decide (restOffset r ≥ 2 ^ 36), 5),
  (decide (s.ckpt.expStatus = 1) || hbmDark s, 6)]

/-- The export is in progress. -/
def exportStarts (r : BitVec 128) (s : State) : State :=
  { s with ckpt := { s.ckpt with expReq := some r, expStatus := 1, expCut := 0, expReason := 0 } }

/-- EXPORT_REQUEST (R370). -/
def execExportRequest (src : Src) (req : BitVec 128) (s : State) : Out :=
  .next (hostCommand s src 0x60001A 16 req.toNat (exportOwn s req) (exportStarts req))

/-- What an export writes: offset in the aperture and bytes, the manifest whole, then the pieces that PART takes. -/
def exportWrites (r : BitVec 128) (a : Area) : List (Nat × List Byte) :=
  let want (k : Nat) : Bool := (restPart r).testBit (k % 2)
  let sg := Config.signature a.sigKey (shake256 (mfBytes a.hdr a.recs))
  (restOffset r, mfBytes a.hdr a.recs ++ digestBytes a.sigKey ++ toBytes 1280 sg.toNat) ::
    ((a.recs.zip a.pieces).filter fun x => want (pieceKind x.1)).map fun x => (restOffset r + 4096 * pieceStore x.1, x.2)

/-- The export's status and its notification. -/
def exportStatus (s : State) (cut reason st : Nat) : State :=
  post { s with ckpt := { s.ckpt with expStatus := st, expReason := reason, expCut := cut, expReq := none } } 12 0x6000 0x1B (restStatus cut reason st false)

/-- An export ends: reason 1 for an area without a valid manifest, 7 for a failure of the copy. -/
def exportEnds (s : State) (r : BitVec 128) (ok : Bool) : State :=
  let a := nth s.ckpt.areas (restArea r) {}
  let ws := exportWrites r a
  if !(areaManifest a).valid then exportStatus s 0 1 3
  else if !ok || ws.any (fun w => decide (w.1 + w.2.length > 2 ^ 36) || stageAway s w.1 w.2.length) then exportStatus s a.cut 7 3
  else exportStatus (ws.foldl (fun s w => moduleStages s w.1 w.2) s) a.cut 0 2

/-- EXPORT_DONE (R370). -/
def execExportDone (ok : Bool) (s : State) : Out :=
  match s.ckpt.expReq with
  | some r => .next (exportEnds s r ok)
  | none => .next s

end Sys2Proof.Machine
end

