-- ==== Sys2Proof/Machine/Checks.lean ====
section
/-! DEFINITION. Check executions, arbiters and watchdogs (10 R255 to R258, 03 R567, 04 R106, R107, 06 R164, 07 R192, 15 R399). -/

namespace Sys2Proof.Machine

/-! ### Issue of a check piece (10 R255, R256) -/

/-- What the execution forms: the errorless outcomes, with the core's own error in one unit. -/
def checkOuts (c : CheckPiece) (err : CheckErr) : List UnitOut :=
  c.units.mapIdx fun i u =>
    if i = err.unit then { u with digests := u.digests.map fun d => d ^^^ err.digest, dataFail := u.dataFail || err.data, laneFail := u.laneFail + bit err.lane }
    else u

/-- Counters that a check execution adds to (R567, 10 R259, 02 R46). -/
def countCheck (n : Num) (c : CheckPiece) (outs : List UnitOut) : Num :=
  { n with raw := n.raw + c.raw, reservedExp := n.reservedExp + c.resv, csumFail := n.csumFail + (outs.filter (·.dataFail)).length,
           laneFail := n.laneFail + (outs.map (·.laneFail)).sum, specialAcc := n.specialAcc + (outs.filter (·.specialAcc)).length,
           reexec := n.reexec + (if c.source = .sample then c.units.length else 0) }

/-- The core when the check starts; a matrix or attention check starts the array (17 R452). -/
def checkStarts (s : State) (g : Nat) (c : CheckPiece) (outs : List UnitOut) (k : Core) : Core :=
  let k := { k with checkQ := k.checkQ.drop 1, checking := some (c, outs), checkAt := s.clk.now, lastCheck := true }
  match taskAt s c.piece.ctx c.piece.task with
  | some t => sweepStarts s g t k
  | none => k

/-- A check piece leaves its core, whose array has swept until now where its task sweeps (17 R452). -/
def checkLeaves (s : State) (g : Nat) (c : CheckPiece) : State :=
  onCore_ s g fun k => swept s (taskAt s c.piece.ctx c.piece.task) { k with checking := none }

/-- Arbiter executions that waited enter the check queue of the core that serves them, as far as it has room (R256, R258). -/
def arbitersEnter (s : State) : State :=
  s.steps.arbWait.foldl (fun s c =>
    match partnerCore s c.piece.slot 2 with
    | some a =>
      if (coreAt s a).checkQ.length < 64 then enqueueChecks { s with steps := { s.steps with arbWait := s.steps.arbWait.erase c } } a [c] else s
    | none => s) s

/-- REEXEC_ISSUE (R255): a check piece issues from a core's check queue. -/
def execReexecIssue (core : Fin 136) (err : CheckErr) (s : State) : Out :=
  match checkReady s core.val with
  | none => .next s
  | some c =>
    let outs := checkOuts c err
    let marked := ((taskAt s c.piece.ctx c.piece.task).map (markedRead s c.piece)).getD id
    let s := onCore_ { s with num := countCheck s.num c outs } core.val (checkStarts s core.val c outs)
    .next (arbitersEnter (marked (eccHits s c.piece.ctx c.piece.task err.eccs)))

/-! ### Outcomes (10 R258, 04 R106) -/

/-- The bit of 0x2100.09 of a check's source (10 R256, R269). -/
def sourceBit : CheckSource → BitVec 16
  | .sample => 0x0001
  | .csum => 0x0002
  | .optDup => 0x0004
  | .arbiter => 0

/-- Is this the record of unit `u` of a check piece? -/
def recordOf (c : CheckPiece) (u : Nat) (r : CheckRec) : Bool :=
  decide (r.source = c.source) && r.ctx = c.piece.ctx && r.task = c.piece.task && r.unit = u

/-- The record of a unit: that of its open step, or as the primary left it where the step was rolled back meanwhile: every execution is judged
(R567, 06 R164). -/
def findRec (s : State) (c : CheckPiece) (u : Nat) : Option CheckRec :=
  if c.stale then c.recs.find? (recordOf c u) else (openAt s c.piece.step).bind fun o => o.checks.find? (recordOf c u)

/-- What a check changes in its step, unless that was rolled back. -/
def onCheckStep (s : State) (c : CheckPiece) (f : OpenStep → OpenStep) : State := if c.stale then s else onStep s c.piece.step f

/-- Sets how a unit's check stands. -/
def setRec (s : State) (c : CheckPiece) (u : Nat) (st : CheckState) : State :=
  onCheckStep s c fun o => { o with checks := mapWhere o.checks (recordOf c u) fun r => { r with state := st } }

/-- A lane fault of a core for each corner comparison that failed while the digests match (04 R106). -/
def laneEvents (s : State) (g c task n : Nat) (arg : BitVec 64) : State := (upto n).foldl (fun s _ => taskEvent s 3 2 g c task arg) s

/-- A unit whose digests match (04 R106, R107): false alarms and lane faults of both executions. -/
def unitMatches (s : State) (g : Nat) (c : CheckPiece) (r : CheckRec) (out : UnitOut) : State :=
  let s := setRec s c out.unit .matched
  let primary := decide (c.source = .csum)
  let s := { s with num := { s.num with csumFalse := s.num.csumFalse + bit (primary && r.dataFail) + bit out.dataFail } }
  let s := laneEvents s r.core c.piece.ctx c.piece.task (if primary then r.laneFail else 0) (firstDiff r.digests [])
  laneEvents s g c.piece.ctx c.piece.task out.laneFail (firstDiff out.digests [])

/-- The arbiter piece of a unit (R258): it carries the two executions it judges. -/
def arbiterOf (c : CheckPiece) (g : Nat) (r : CheckRec) (u : UnitOut) (chk : List (BitVec 64)) : CheckPiece :=
  { source := .arbiter, piece := c.piece, units := [u], raw := u.raw, resv := u.resv, core := r.core, checkCore := g, prim := r.digests, chk := chk }

/-- Counts of a mismatch (06 R164, 10 R259). -/
def countMismatch (n : Num) (src : CheckSource) : Num :=
  { n with mismatch := n.mismatch + bit (decide (src = .sample)), optMis := n.optMis + bit (decide (src = .optDup)) }

/-- A unit whose digests differ (R258): counted, and its arbiter queued two partitions on, once there is room; `chk` is empty where none
was formed. -/
def unitDiffers (s : State) (g : Nat) (c : CheckPiece) (r : CheckRec) (u : UnitOut) (chk : List (BitVec 64)) : State :=
  let s := setRec s c u.unit .mismatch
  let s := onCheckStep s c fun o =>
    { o with tol := if c.source = .csum then o.tol.map fun t => { t with differed := t.differed || decide (t.ctx = c.piece.ctx) } else o.tol }
  let s := { s with num := countMismatch s.num c.source }
  arbitersEnter { s with steps := { s.steps with arbWait := s.steps.arbWait ++ [arbiterOf c g r u chk] } }

/-- One unit of a completed check: what it decides, and whether the digests differ. -/
def judgeUnit (s : State) (g : Nat) (c : CheckPiece) (out : UnitOut) : State :=
  match findRec s c out.unit with
  | none => s
  | some r =>
    if r.digests = out.digests then unitMatches s g c r out
    else unitDiffers s g c r ((c.units.find? fun u => u.unit = out.unit).getD out) out.digests

/-- Does some unit of a completed check differ from its primary? -/
def anyDiffers (s : State) (c : CheckPiece) (outs : List UnitOut) : Bool :=
  outs.any fun out => (findRec s c out.unit).any fun r => decide (r.digests ≠ out.digests)

/-- CHECK_PIECE_COMPLETE (R258): the digests are compared, and a mismatch fails its step (R260). -/
def execCheckPieceComplete (core : Fin 136) (s : State) : Out :=
  match (coreAt s core.val).checking with
  | none => .next s
  | some (c, outs) =>
    if c.source = .arbiter then .next s
    else
      let differs := anyDiffers s c outs
      let s := checkLeaves s core.val c
      let s := noteWaits (outs.foldl (fun s out => judgeUnit s core.val c out) s)
      .next (if differs && !c.stale then failStep s c.piece.step (sourceBit c.source) else s)

/-! ### Arbiters (10 R258) -/

/-- An arbiter leaves its core with its outcome. -/
def arbiterEnds (s : State) (g : Nat) (c : CheckPiece) (digests : Option (List (BitVec 64))) : State :=
  noteWaits <| lateDiscard (arbiterCharges (checkLeaves s g c) g c digests)

/-- ARBITER_COMPLETE (R258): an arbiter that cannot finish leaves the mismatch unresolved. -/
def execArbiterComplete (core : Fin 136) (finished : Bool) (s : State) : Out :=
  match (coreAt s core.val).checking with
  | none => .next s
  | some (c, outs) =>
    if c.source = .arbiter then .next (arbiterEnds s core.val c (if finished then some (outs.flatMap (·.digests)) else none)) else .next s

/-! ### Watchdogs (07 R192, 10 R256, 15 R399) -/

/-- The watchdog of a piece of `tiles` tiles: 4 × BOUND × T, 1 ms at least, in ns (R192). -/
def watchdogNs (t : Option Task) (tiles : Nat) : Nat :=
  max 1000000 (4 * tiles * (t.elim 0 fun t => t.bound * if t.bunit = 0 then 1 else if t.bunit = 1 then 1000 else 1000000))

/-- When the watchdog of a COLL, a SIG or a WAIT of a context is due: its tile count is 1 (R192). -/
def taskDue (s : State) (c task : Nat) : Nat := ((assoc? (ctxAt s c).began task).getD s.clk.now) + watchdogNs (taskAt s c task) 1

/-- A watchdog that no core carries (a WAIT, a queued SIG, a DMA piece): 14 R373 gives KIND 14 the unit type 1, and no rule says which core, so
the number is free (log 206). -/
def unattributed (s : State) : State := drawn (faultEvent s { kind := 14, unit := ⟨1, (drawnWord s).toNat % 136⟩ })

/-- A piece on a core or DMA engine: it ends, the context halts with CAUSE 3, the step fails and a core is probed. A stale piece's step is gone, so
no context halts for it (log 27). -/
def pieceExpires (s : State) (g which : Nat) (r : Run) : State :=
  let s := reach s (r.startedAt + watchdogNs (taskAt s r.piece.ctx r.piece.task) r.tiles)
  let s := onCore_ s g fun k => swept s (taskAt s r.piece.ctx r.piece.task)
    { k with running := k.running.eraseIdx which, probe := if k.probe = 0 && decide (g < 136) then 1 else k.probe,
             probeCls := ((taskAt s r.piece.ctx r.piece.task).map pclassOf).getD 0 }
  let s := if g < 136 && (coreAt s g).probe = 1 then trotSweeps s g (coreAt s g).probeCls else s
  let s := if g < 136 then taskEvent s 14 1 g r.piece.ctx r.piece.task 0 else unattributed s
  if r.stale then s else failSteps (haltCtx s r.piece.ctx 3 r.piece.task) 0x0020

/-- A COLL, a SIG or a WAIT: no core to probe. -/
def waitExpires (s : State) (c task : Nat) (f : Ctx → Ctx) : State :=
  let s := unattributed (onCtx (reach s (taskDue s c task)) c f)
  failSteps (haltCtx s c 3 task) 0x0020

/-- The first COLL task of a context at the link blocks. -/
def collLeft (s : State) (c : Nat) : Option Nat := ((ctxAt s c).left.find? fun l => (taskAt s c l.1).any isColl).map (·.1)

/-- Does the watchdog of a COLL or WAIT of context `c` stand still: in a wait of 15 R414? -/
def watchdogStands (s : State) (c : Nat) : Bool := s.recov.wait && decide (c ≠ 15)

/-- PIECE_WATCHDOG_EXPIRY (R192); a COLL that waits for a tile or for checks that read what it writes has none running (10 R249, 08 R203,
10 R257), nor has a WAIT on an object of a partition in
reset (01 R29). -/
def execPieceWatchdogExpiry (who : WdTarget) (s : State) : Out :=
  match who with
  | .core c which =>
    match (coreAt s c.val).running[which.val]? with
    | some r => .next (pieceExpires s c.val which.val r)
    | none => .next s
  | .coll c =>
    let s := noteWait s c.val
    match collLeft s c.val with
    | some t =>
      if watchdogStands s c.val || (assoc? s.vers.stalled (collStall c.val)).isSome || (ctxAt s c.val).collWait.isSome then .next s
      else .next (waitExpires s c.val t fun x => { x with left := x.left.filter fun l => l.1 ≠ t })
    | none => .next s
  | .wait c =>
    if ((ctxAt s c.val).waiting.any fun w => !objInReset s w.1) && !watchdogStands s c.val then
      .next (waitExpires s c.val ((ctxAt s c.val).pos - 1) fun x => { x with waiting := none })
    else .next s
  | .sig c =>
    match (ctxAt s c.val).sigs with
    | w :: _ => .next (waitExpires s c.val w.task fun x => { x with sigs := x.sigs.filter fun q => q.task ≠ w.task })
    | [] => .next s

/-- Every unit of an expired check counts as a mismatch (10 R256). -/
def expireUnits (s : State) (g : Nat) (c : CheckPiece) : State :=
  c.units.foldl (fun s u => match findRec s c u.unit with
    | some r => unitDiffers s g c r u []
    | none => s) s

/-- CHECK_WATCHDOG_EXPIRY (R256): mismatches of its units and an informational record; no context halts. -/
def execCheckWatchdogExpiry (core : Fin 136) (s : State) : Out :=
  match (coreAt s core.val).checking with
  | none => .next s
  | some (c, _) =>
    let tiles := (taskAt s c.piece.ctx c.piece.task).elim 1 fun t => pieceTiles (progAt s c.piece.ctx) t c.units
    let s := reach s ((coreAt s core.val).checkAt + watchdogNs (taskAt s c.piece.ctx c.piece.task) tiles)
    let s := taskEvent s 14 1 core.val c.piece.ctx c.piece.task 0
    if c.source = .arbiter then .next (arbiterEnds s core.val c none)
    else
      let open_ := c.units.any fun u => (findRec s c u.unit).isSome
      let s := noteWaits (expireUnits (checkLeaves s core.val c) core.val c)
      .next (if open_ && !c.stale then failStep s c.piece.step (sourceBit c.source) else s)

end Sys2Proof.Machine
end

