-- ==== Sys2Proof/Machine/Power.lean ====
section
/-! DEFINITION. Power and thermal control: the controller, the lease, island loops, sensors and emergencies (17 R446 to R460). -/

namespace Sys2Proof.Machine

/-! ### Emergencies (R457, R458) -/

/-- Do the hardware loops of the hub run: PD40 on (R442, R458)? -/
def loopsRun (s : State) : Bool := s.domains.getLsbD 40

/-- Is an emergency of exactly this kind present? -/
def emerPresent (s : State) (k : Emer) : Bool := emerBit s fun e => decide (e = k)

/-- A change of emergencies shows on ALERT_N and as kind 9 (R460, 20 R522). -/
def emerShown (s : State) : State :=
  let s := setAlert s
  post s 9 0x7000 0x15 (emerStatus s)

/-- Raises an emergency, with ceiling 16; a gallop run aborts (R457, R458). -/
def raiseEmer (s : State) (k : Emer) : State :=
  if emerPresent s k then s
  else
    let rest := s.power.emers.filter fun e => e.kind ≠ k
    emerShown (gallopStop { s with power := { s.power with emers := rest ++ [{ kind := k, since := s.clk.now }] } })

/-- Clears an emergency: its ceiling rises from now on (R458). -/
def clearEmer (s : State) (k : Emer) : State :=
  emerShown { s with power := { s.power with emers := mapWhere s.power.emers (fun e => decide (e.kind = k)) fun e => { e with cleared := true } } }

/-- The ceilings of cleared emergencies rise by one each 20 µs, until nothing is left of them (R458). -/
def emersRise (es : List EmerState) : List EmerState :=
  (es.map fun e => if e.cleared then { e with ceil := e.ceil + 1 } else e).filter fun e => !e.cleared || decide (e.ceil < 64)

/-- How long an emergency may last before a reset, where one follows (R457). -/
def escalatesAfter : Emer → Option Nat
  | .overpower => some 100000000
  | .regulator => none
  | .logicHot _ => some 2000000000
  | .dramHot _ => some 2000000000
  | .hubHot => some 2000000000
  | .coolant => none

/-- The reset that an emergency leads to (R457). -/
def escalate (s : State) (k : Emer) : State :=
  match k with
  | .overpower => modReset s 6
  | .regulator => s
  | .logicHot p => partReset s p.val 6
  | .dramHot n => partReset s (n.val / 2) 6
  | .hubHot => modReset s 6
  | .coolant => s

/-- EMERGENCY_ESCALATION_TIMER (R457). -/
def execEmergencyEscalationTimer (e : Emer) (s : State) : Out :=
  match s.power.emers.find? fun x => decide (x.kind = e) && !x.cleared, escalatesAfter e with
  | some x, some t => .next (escalate (reach s (x.since + t)) e)
  | _, _ => .next s

/-- Do the readings that the state holds satisfy the clear condition (R457)? The hub and the inlet have no reading of their own there. -/
def mayClear (s : State) (k : Emer) : Bool :=
  match k with
  | .overpower => decide (s.power.inputW < 3400)
  | .regulator => true
  | .logicHot p => decide (dieTemp s p.val < 1050)
  | .dramHot n => decide ((nth s.mem.stk n.val {}).temp < 900)
  | .hubHot => true
  | .coolant => true

/-- The reading of the hub or inlet sensor once its emergency clears: free, within the clear condition (log 4). -/
def readingCleared (s : State) (k : Emer) : State :=
  match k with
  | .hubHot => drawn { s with power := { s.power with hubTemp := (drawnWord s).toNat % 1050 } }
  | .coolant => drawn { s with power := { s.power with inlet := (drawnWord s).toNat % 431 } }
  | .overpower => s
  | .regulator => s
  | .logicHot _ => s
  | .dramHot _ => s

/-- EMERGENCY_CLEAR_TIMER: the condition has held for 100 ms (R457). -/
def execEmergencyClearTimer (e : Emer) (s : State) : Out :=
  match s.power.emers.find? fun x => decide (x.kind = e) && !x.cleared with
  | some x => if mayClear s e then .next (clearEmer (readingCleared (reach s (x.since + 100000000)) e) e) else .next s
  | none => .next s

/-! ### The controller (R446, R447) -/

/-- Target power T in units of 1/d W, for A = a/d W (R446). -/
def targetPower (s : State) (a d : Nat) : Nat :=
  let l := d * rw s 0x700001
  min (d * 3600) (min (d * budget s) (l + (l - a)))

/-- P after an iteration with T = t/d W (R447). -/
def nextP (p inputW t d : Nat) : Nat :=
  if inputW * d > t then max 16 (p - (inputW * d - t + 24 * d - 1) / (24 * d))
  else if (inputW + 50) * d < t && p < 64 then p + 1
  else p

/-- Cores with a ceiling below 64: each adds 20 µs to the reined time (0x7000.17). -/
def reinedCores (s : State) : Nat := ((activeCores s).filter fun g => decide (ceilOf s g < 64)).length

/-- An iteration on a sample of the input power: A over 200,000 samples, T, P, and the sums of R455. -/
def controlled (s : State) (w : Nat) : State :=
  let window := (w :: s.power.window).take 200000
  let s := { s with power := { s.power with inputW := w, window := window } }
  let a := avgPower s
  let t := targetPower s a.1 a.2
  let p := nextP s.power.p w t a.2
  let s := { s with power := { s.power with target := t, targetDen := a.2, p := p, emers := emersRise s.power.emers, stepSum := s.power.stepSum + w, stepN := s.power.stepN + 1,
                                            overAt := if w > 3600 && p = 16 then some (s.power.overAt.getD s.clk.now) else none } }
  { s with power := { s.power with reined := s.power.reined + 20000 * reinedCores s } }

/-- Has the input stayed above 3,600 W for 20 ms at P = 16 (R457)? -/
def overTwenty (s : State) : Bool :=
  match s.power.overAt with
  | some t => decide (s.clk.now ≥ t + 20000000)
  | none => false

/-- POWER_CONTROLLER_ITERATION (R446, R447, R457, R458). -/
def execPowerControllerIteration (inputW : Nat) (s : State) : Out :=
  if loopsRun s then
    let s := controlled s inputW
    .next (if inputW > 4300 || overTwenty s then raiseEmer s .overpower else s)
  else .next s

/-! ### The lease (R448, R449) -/

/-- What a write of the rack lease says: WATTS in range (R448). -/
def leaseOwn (value : Nat) : Nat := if 2300 ≤ value % 65536 ∧ value % 65536 ≤ 3600 then 0 else 5

/-- Is SEQ 1 to 32,767 beyond the last accepted one (R448)? -/
def leaseInSeq (s : State) (value : Nat) : Bool :=
  let d := (value / 65536 + 65536 - s.power.leaseSeq) % 65536
  decide (1 ≤ d) && decide (d ≤ 32767)

/-- A lease starts: 10,000 ms from the write; the fallback ends (R448, R460, 20 R522). A write out of sequence is ignored. -/
def leaseWritten (value : Nat) (s : State) : State :=
  if !leaseInSeq s value then s
  else
    let fell := !leaseLive s
    let s := { putValue s 0x700002 value with power := { s.power with leaseSeq := value / 65536, leaseW := value % 65536, leaseEnd := some (s.clk.now + 10000000000) } }
    let s := setAlert s
    if fell then post s 10 0x7000 0x14 (reinStatus s) else s

/-- RACK_LEASE_WRITE (R448). -/
def execRackLeaseWrite (src : Src) (value : BitVec 32) (s : State) : Out :=
  .next (hostCommand s src 0x700002 4 value.toNat (leaseOwn value.toNat) (leaseWritten value.toNat))

/-- LEASE_EXPIRY (R449). -/
def execLeaseExpiry (s : State) : Out :=
  match s.power.leaseEnd with
  | none => .next s
  | some t =>
    let s := reach s t
    let s := setAlert { s with power := { s.power with leaseEnd := none, expiries := s.power.expiries + 1 } }
    .next (post s 10 0x7000 0x14 (reinStatus s))

/-! ### Island voltage, clock and droop (R450, R451) -/

/-- Is a core powered: active, or a test core in the remount position (R464)? -/
def corePowered (s : State) (g : Nat) : Bool := s.domains.getLsbD (quadrantOf g) && (coreActive s g || (coreAt s g).test)

/-- The gallop cell that a core is in. -/
def cellOn (s : State) (g : Nat) : Option Cell := (s.tests.cells.head?).filter fun c => s.tests.gState = 1 && (cellCores c).contains g

/-- One pass of the island loop (R450). `held` is the clock a gallop cell fixes (14 R392), and `off` its offset, in tenths of mV. -/
def islandLoop (k : Core) (ceiling : Nat) (off : Int) (held more short : Bool) : Core :=
  let v : Int := k.setpoint - off
  if short then
    if v < 9000 then { k with setpoint := (v + 25 + off).toNat }
    else if held || k.freq ≤ 2400 then k else { k with freq := max 2400 (k.freq - 25) }
  else if more then
    let f := if held || v > 8800 then k.freq else if k.freq < ceiling then min ceiling (k.freq + 25) else ceiling
    { k with setpoint := if v > 6800 then (v - 25 + off).toNat else k.setpoint, freq := f }
  else k

/-- Does the island hold 2.4 GHz at 0.900 V without margin (R450)? -/
def atFloor (k : Core) (off : Int) (short : Bool) : Bool := short && decide ((k.setpoint : Int) - off ≥ 9000) && decide (k.freq ≤ 2400)

/-- ISLAND_VOLTAGE_LOOP (R450). -/
def execIslandVoltageLoop (core : Fin 136) (marginMore marginShort : Bool) (s : State) : Out :=
  let g := core.val
  if !corePowered s g then .next s
  else
    let cell := cellOn s g
    let off := (cell.map fun c => 10 * c.offset).getD 0
    let floors := s.power.floors + bit (atFloor (coreAt s g) off marginShort)
    let s := { s with power := { s.power with floors := floors } }
    .next (onCore_ s g fun k => islandLoop k (rw s 0x700005) off cell.isSome marginMore marginShort)

/-- DROOP_DETECTED: the period is stretched, and the stretch counted (R451). -/
def execDroopDetected (core : Fin 136) (s : State) : Out :=
  if corePowered s core.val then
    .next (onCore_ { s with power := { s.power with stretches := s.power.stretches + 1 } } core.val fun k => { k with stretch := k.stretch + 1 })
  else .next s

/-! ### Temperature (R456, R457) -/

/-- 64 − ⌈(t − t0) × 9.6⌉ from t0 on, at least 16, of temperatures in tenths of a °C (R456, 09 R239). -/
def heatCeil (t0 t : Int) : Nat := if t < t0 then 64 else max 16 (64 - (((t - t0).toNat * 96 + 99) / 100))

/-- A recomputed ceiling rises by at most 4. -/
def riseBy4 (old new : Nat) : Nat := min new (old + 4)

/-- A core takes a sample; every tenth one, 1 ms apart, recomputes the ceiling. -/
def tempSampled (k : Core) (temp : Int) : Core :=
  if k.thermN = 0 then { k with temp := temp, therm := riseBy4 k.therm (heatCeil 1050 temp), thermN := 9 }
  else { k with temp := temp, thermN := k.thermN - 1 }

/-- LOGIC_TEMP_SAMPLE (R456, R457). -/
def execLogicTempSample (core : Fin 136) (temp : Int) (s : State) : Out :=
  let g := core.val
  if !s.domains.getLsbD (5 * (g / 17) + 4) then .next s
  else
    let s := onCore_ s g fun k => tempSampled k temp
    .next (if temp ≥ 1100 && loopsRun s then raiseEmer s (.logicHot ⟨g / 17, by have := core.isLt; omega⟩) else s)

/-- HUB_HOT (R457). -/
def execHubHot (temp : Int) (s : State) : Out :=
  if temp ≥ 1100 && loopsRun s then .next (raiseEmer { s with power := { s.power with hubTemp := temp } } .hubHot) else .next s

/-- COOLANT_INLET_OVER: above 45 °C (R457, 22 R546). -/
def execCoolantInletOver (temp : Int) (s : State) : Out :=
  if temp > 450 && loopsRun s then .next (raiseEmer { s with power := { s.power with inlet := temp } } .coolant) else .next s

/-! ### Regulators (R457) -/

/-- A reset that a regulator fault starts waits for no hot die (R457). -/
def undelayed (s : State) (p : Nat) : State :=
  if s.dev.delayed.getLsbD p then
    { s with dev := { s.dev with delayed := s.dev.delayed &&& ~~~ BitVec.twoPow 8 p, bring := updN s.dev.bring p fun _ => 1 } }
  else s

/-- The reset of a faulted rail. -/
def railReset (s : State) (r : Rail) : State :=
  match r with
  | .hub => modReset s 6
  | .part p => if s.dev.inReset.getLsbD p.val then s else undelayed (partReset s p.val 6) p.val

/-- REGULATOR_FAULT (R457). -/
def execRegulatorFault (r : Rail) (s : State) : Out := if loopsRun s then .next (railReset (raiseEmer s .regulator) r) else .next s

/-- TELEMETRY_TIMEOUT (R457). -/
def execTelemetryTimeout (s : State) : Out := if loopsRun s then .next (raiseEmer s .regulator) else .next s

/-! ### Thermal trip (R459) -/

/-- A trip: every package rail off at once, without LEAVING; what the package held is lost as in a module reset, the host's ownership and the
counters of its door stand, and the Farrier sets OUT_OF_SERVICE. A power-down that runs goes on. -/
def tripped (s : State) : State :=
  let r := resetLoss (packageOff s)
  setAlert { r with dev := { r.dev with state := .outOfService, holdoff := false, phase := s.dev.phase, down := s.dev.down.filter fun d => !d.reset },
                    host := { s.host with sessions := r.host.sessions }, power := { r.power with trip := true },
                    pins := { s.pins with thermTrip := true } }

/-- THERMAL_TRIP (R459). -/
def execThermalTrip (s : State) : Out := if s.dev.on && !s.power.trip then .next (tripped s) else .next s

end Sys2Proof.Machine
end

