-- ==== Sys2Proof/Machine/Memory.lean ====
section
/-! DEFINITION. Migration and re-placement, regulator shares, scrubbing, row retirement, DRAM heat, and the staging aperture (08 R213 to
R217, 09 R228, R235 to R242, 19 R494). -/

namespace Sys2Proof.Machine

/-! ### Migration (08 R213 to R215) -/

/-- May the engine build a plan: JOINED, no partition in reset, no quarantine without its new map, enabled at the last commit and since, and
ostler 0 running (R215, 18 R468)? -/
def mayPlan (s : State) : Bool :=
  decide (s.dev.state = .joined) && decide (s.dev.inReset = 0) && s.place.latchedOn && decide (rw s 0x500001 = 1) && s.place.replacing.isEmpty &&
    !(s.cores.toList.any (·.barred)) && !ostlerBusy s 0

/-- Persistence class of a context's tensor. -/
def persistOf (s : State) (c t : Nat) : Nat := (tensorAt (progAt s c) t).persist

/-- The partitions of the cores that read a tensor (R213). -/
def readerParts (s : State) (c t : Nat) : List Nat :=
  (((progAt s c).tasks.zipIdx.filter fun k => (readsOf k.1).any fun o => o.tensor = t).flatMap fun k => taskSlots s c k.2).filterMap partOfSlot

/-- May a placed tensor move to a class and partition, towards the cores that read it: a candidate without a pin, a class R200 allows, past the dwell since an earlier move, not in a plan
already (R213, R214)? A CONST moves its resident copy. -/
def moveOk (s : State) (k : Placed) (cls part : Nat) : Bool :=
  let e := persistOf s k.ctx k.tensor
  !k.pinned && decide (1 ≤ cls) && decide (cls ≤ 4) &&
    (decide (e = clsTransient) || (decide (e = clsConst) && k.cls ≠ 0) || (decide (e = clsInput) && decide (cls = 4))) &&
    (!k.moved || decide (k.age ≥ s.place.latchedDwell)) && (cls = 3 || (readerParts s k.ctx k.tensor).contains part) && !s.place.plan.any fun x => x.ctx = k.ctx && x.tensor = k.tensor

/-- Bytes of a placed tensor. -/
def placedBytes (s : State) (k : Placed) : Nat := tensorBytes (tensorAt (progAt s k.ctx) k.tensor)

/-- Has a tensor at least the access per byte of another (R213)? -/
def hotter (s : State) (a b : Placed) : Bool := decide (a.access * placedBytes s b ≥ b.access * placedBytes s a)

/-- A plan in the making: what it places, its moves, and the copy volume left. -/
structure Plan where
  places : List Placed
  moves  : List Move
  left   : Nat
  deriving Repr, Inhabited

/-- A plan with one more move, where every limit allows it (R214): 64 tensors, the copy volume, which only CONST moves use, and the room. -/
def addMove (s : State) (q : Plan) (m : Placed × Nat × Nat) : Plan :=
  let (k, cls, part) := m
  let n := if persistOf s k.ctx k.tensor = clsConst then placedBytes s k else 0
  if !moveOk s k cls part || q.moves.length ≥ 64 || n > q.left || q.moves.any fun x => x.ctx = k.ctx && x.tensor = k.tensor then q
  else match moveTo s (s.place.tensors ++ pendingPlaced s ++ q.places) k cls part with
    | none => q
    | some x =>
      { places := q.places ++ [x], left := q.left - n,
        moves := q.moves ++ [{ ctx := k.ctx, tensor := k.tensor, cls := cls, part := part, slot := x.slot, copied := decide (n = 0) }] }

/-- The plan that a list of moves makes: the tensors of most access per byte first (R213, R214). -/
def planOf (s : State) (ms : List (Nat × Nat × Fin 8 × Nat)) : List Move :=
  let ks := ms.filterMap fun m => (placedAt s m.1 m.2.1).map fun k => (k, m.2.2.2, m.2.2.1.val)
  ((sortBy (fun a b => hotter s a.1 b.1) ks).foldl (addMove s) { places := [], moves := [], left := s.place.latchedCopy * 2 ^ 20 }).moves

/-- MIGRATION_PLAN_READY (R213 to R215): the plan built from the last committed step's counts; where the engine sends each tensor is the
world's operand. -/
def execMigrationPlanReady (moves : List (Nat × Nat × Fin 8 × Nat)) (s : State) : Out :=
  if mayPlan s then .next { s with place := { s.place with plan := s.place.plan ++ planOf s moves } } else .next s

/-- MIGRATION_COPY_DONE: a CONST move may take effect at the next boundary (R213). -/
def execMigrationCopyDone (ctx tensor : Nat) (s : State) : Out :=
  .next { s with place := { s.place with plan := mapWhere s.place.plan (fun m => m.ctx = ctx && m.tensor = tensor) fun m => { m with copied := true } } }

/-- A write of migration enable: 0 abandons the plans (R215). -/
def migrationSet (value : Nat) (s : State) : State :=
  let s := putValue s 0x500001 value
  if value = 0 then { s with place := { s.place with plan := [] } } else s

/-- MIGRATION_ENABLE_WRITE: a write of 0 (R215). -/
def execMigrationEnableWrite (src : Src) (s : State) : Out := .next (hostCommand s src 0x500001 1 0 0 (migrationSet 0))

/-! ### Re-placement without a spare (08 R217) -/

/-- Capacity no longer suffices: context 0 halts with CAUSE 5, 0x5000.30 says so, and the module leaves service. -/
def replacementFails (s : State) (p task : Nat) : State :=
  let s := { s with place := { s.place with status := 0x21 + 256 * p, replacing := s.place.replacing.drop 1 } }
  outOfService (haltCtx s 0 5 task)

/-- REPLACEMENT_DONE (R217): of the partition whose re-placement is the oldest, with the outcome that the capacity rules of R204 give on the
map as it is. -/
def execReplacementDone (fits : Bool) (part : Fin 8) (s : State) : Out :=
  if s.place.replacing.head? = some part.val && !ostlerBusy s 0 then
    match replaceTrouble s part.val with
    | none => .next (if fits then replacementFits s part.val else s)
    | some task => .next (if fits then s else replacementFails s part.val task)
  else .next s

/-! ### Regulator shares (09 R228) -/

/-- Do the five fields sum to 1,000, none below 20? -/
def sharesOk (value : Nat) : Bool :=
  let fs := (upto 5).map fun i => fld value (12 * i + 11) (12 * i)
  decide (fs.sum = 1000) && fs.all fun f => decide (f ≥ 20)

/-- What the entry's own rule says of a value. -/
def sharesOwn (value : Nat) : Nat := if sharesOk value then 0 else 5

/-- The value is held; it takes effect at the next step boundary. -/
def sharesWritten (value : Nat) (s : State) : State :=
  { putValue s 0x500040 value with mem := { s.mem with sharesNext := some (BitVec.ofNat 64 value) } }

/-- REGULATOR_SHARES_WRITE (R228). -/
def execRegulatorSharesWrite (src : Src) (value : BitVec 64) (s : State) : Out :=
  .next (hostCommand s src 0x500040 8 value.toNat (sharesOwn value.toNat) (sharesWritten value.toNat))

/-! ### Scrub and row retirement (09 R235, R236) -/

/-- PATROL_SCRUB: the next location of a partition in service is read; an error acts as at any read that no execution makes. -/
def execPatrolScrub (p : Fin 8) (err : Option Ecc) (passDone : Bool) (s : State) : Out :=
  if s.dev.inService.getLsbD p.val then
    let s := { s with mem := { s.mem with scrubPos := updN s.mem.scrubPos p.val fun n => if passDone then 0 else n + 1,
                                          passes := s.mem.passes + bit passDone } }
    .next (match err with
      | some e => eccHit s e false 0
      | none => s)
  else .next s

/-- ROW_COPY_DONE: the oldest copy of the partition is complete, an uncorrectable location as poisoned with its content code; later
accesses are redirected, and the row's event is raised (R236). -/
def execRowCopyDone (p : Fin 8) (s : State) : Out :=
  match s.mem.copying.find? fun c => c.part = p.val with
  | none => .next s
  | some k =>
    let s := { s with mem := { s.mem with copying := s.mem.copying.erase k, rows := s.mem.rows ++ [(k.part, k.row)],
                                          poisoned := s.mem.poisoned ++ k.bad.map fun b => (k.part, k.row, b.1, b.2) } }
    .next (faultEvent s { kind := 6, unit := ⟨3, k.row⟩, pclass := 7, arg := k.addr })

/-! ### Heat in the stacks (09 R239) -/

/-- The DRAM-layer temperature in tenths of a °C: the readout, after three failed ones the substitute, before that the last value. -/
def layerTemp (k : Stack) (temp : Option Int) (dieMax : Int) : Int :=
  match temp with
  | some t => t
  | none => if k.misses + 1 ≥ 3 then dieMax + 80 else k.temp

/-- A stack after a sample; `hot` while its emergency is present. DESIGN CHOICE, log 216: the fallback flag falls with the next good readout. -/
def stackSampled (k : Stack) (temp : Option Int) (dieMax : Int) (hot : Bool) : Stack :=
  let t := layerTemp k temp dieMax
  let misses := if temp.isNone then k.misses + 1 else 0
  { temp := t, ceil := if hot || t ≥ 950 then 16 else riseBy4 k.ceil (heatCeil 900 t), twice := decide (t ≥ 850) || (k.twice && decide (t ≥ 830)),
    fallback := decide (misses ≥ 3), misses := misses, die := dieMax, sampled := true }

/-- DRAM_TEMP_SAMPLE (R239): refresh, ceiling, sensor fallback with its event, and the emergency. -/
def execDramTempSample (n : Fin 16) (temp : Option Int) (dieMax : Int) (s : State) : Out :=
  if !s.domains.getLsbD (5 * (n.val / 2) + 4) then .next s
  else
    let k := nth s.mem.stk n.val {}
    let k' := stackSampled k temp dieMax (emerPresent s (.dramHot n))
    let s := { s with mem := { s.mem with stk := updN s.mem.stk n.val fun _ => k' } }
    let s := if k'.fallback && !k.fallback then faultEvent s { kind := 12, unit := ⟨8, n.val⟩ } else s
    let s := if dieMax ≥ 1100 && loopsRun s then raiseEmer s (.logicHot ⟨n.val / 2, by have := n.isLt; omega⟩) else s
    .next (if k'.temp ≥ 950 && loopsRun s then raiseEmer s (.dramHot n) else s)

/-! ### The staging aperture (09 R241, R242; 19 R494; 01 R29) -/

/-- A host access that lies in the aperture. A read delivers the staged bytes, poisoned where a 32-byte unit is (R234). -/
def apertureAccess (s : State) (offset : Nat) (write : Option (List Byte)) (len : Nat) (err : Option Ecc) : State :=
  if stageAway s offset len then emit s (.errorReply 9 [])
  else
    let s := match err with
      | some e => eccHit s e false 0
      | none => s
    match write with
    | some bs => stagePut s offset bs
    | none => emit s (.memData (memTake s.staging offset len) (stageBad s offset len))

/-- Does an access in BOOT need the HBM of a partition that is not there yet: it is ignored, and counted (16 R433; log 229)? -/
def stageDark (s : State) (off len : Nat) : Bool :=
  decide (s.dev.state = .boot) && (upto (min 8 ((off + len - 1) / 4096 + 1 - off / 4096))).any fun i =>
    !s.dev.inService.getLsbD (aperturePart (off + 4096 * i)) && !s.dev.inReset.getLsbD (aperturePart (off + 4096 * i))

/-- CXL_MEM_ACCESS. The aperture's decoder claims offsets 0 to 64 GiB − 1 only. -/
def execCxlMemAccess (offset : Nat) (write : Option (List Byte)) (len : Nat) (err : Option Ecc) (s : State) : Out :=
  let n := (write.map List.length).getD len
  if offset + n > 2 ^ 36 then .fault .outsideAperture
  else if !cxlUp s || n = 0 then .next s
  else if stageDark s offset n then .next (emit (countIllegal s { master := 0, path := .window } 6 0 0) (.errorReply 9 []))
  else .next (apertureAccess s offset write n err)

end Sys2Proof.Machine
end

