-- ==== Sys2Proof/Machine/Health.lean ====
section
/-! DEFINITION. Classing, the ledger, trot and gallop tests, core probes, and the escalation clear (14 R373 to R397, 15 R399, R401, R406). -/

namespace Sys2Proof.Machine

/-! ### Classing (14 R373, R376 to R382) -/

/-- Groups of R373: 0 informational, 1 compute, 2 lane, 3 gallop, 4 memory, 5 link, 6 die-to-die, 7 sensor. -/
def kindGroup (kind : Nat) : Nat :=
  match kind with
  | 1 => 1
  | 2 => 1
  | 3 => 2
  | 4 => 1
  | 5 => 3
  | 6 => 4
  | 7 => 4
  | 8 => 5
  | 9 => 5
  | 10 => 6
  | 11 => 6
  | 12 => 7
  | 13 => 4
  | _ => 0

/-- Are two values within a limit, or is either unknown? -/
def near (a b limit : Nat) : Bool := decide (a = 0) || decide (b = 0) || (decide (a ≤ b + limit) && decide (b ≤ a + limit))

/-- The same for temperatures. -/
def nearTemp (a b : Option Int) : Bool :=
  match a, b with
  | some x, some y => decide ((x - y).natAbs ≤ 5)
  | _, _ => true

/-- Do two classed records match (R376)? -/
def recsMatch (a b : LRec) : Bool :=
  decide (a.unit = b.unit) && decide (kindGroup a.kind = kindGroup b.kind) && decide (a.optime ≤ b.optime + 2592000) && decide (b.optime ≤ a.optime + 2592000) &&
    (decide (a.pclass = b.pclass) || decide (a.pclass = 0) || decide (b.pclass = 0)) && nearTemp a.temp b.temp && near a.volt b.volt 15 && near a.freq b.freq 100

/-- The class of an event (R377, R395): a gallop event brings its own. -/
def eventClass (s : State) (r : LRec) : Nat :=
  if kindGroup r.kind = 0 then 0
  else if kindGroup r.kind = 3 then max 1 r.cls
  else if s.ledger.classed.any fun x => kindGroup x.kind ≠ 3 && recsMatch x r then 2 else 1

/-- The class of a unit as ostler 3 knows it: the highest among its records, written or not (R377, R387). -/
def unitClass (s : State) (u : LUnit) : Nat :=
  max (((summaryOf s u).map (·.cls)).getD 0) ((s.ledger.toWrite.filter fun r => decide (r.unit = u)).foldl (fun m r => max m r.cls) 0)

/-- The withheld blocks of a store (R381, R382). -/
def withheldIn (s : State) (store part : Nat) : Nat := (s.place.withheld.filter fun w => w.1 = store && w.2.1 = part).length

/-- A fault with no retirement left: OUT_OF_SERVICE when the gallop run that found it ends, or now (R382). -/
def noneLeft (s : State) : State := if s.tests.gState = 0 then outOfService s else { s with tests := { s.tests with oosAfter := true } }

/-- A store block is withheld from the next load on; more than 16 leave no retirement (R381, R382). -/
def withhold (s : State) (unit : Nat) : State :=
  let w := (unit / 2 ^ 28, unit / 2 ^ 24 % 16, unit % 2 ^ 24)
  let s := if s.place.withheld.contains w then s else { s with place := { s.place with withheld := s.place.withheld ++ [w] } }
  if withheldIn s w.1 w.2.1 > 16 then noneLeft s else s

/-- Marks a unit retired in the summary. -/
def markRetired (s : State) (u : LUnit) : State := { s with ledger := markSummary s.ledger u fun e => { e with retired := true } }

/-- A unit that becomes PERMANENT is retired (R381): at once here, or at the next training for rows, lanes, links and UCIe modules. -/
def retire (s : State) (u : LUnit) : State :=
  match u.utype with
  | 1 => markRetired (if coreActive s u.unit then quarantine s u.unit else s) u
  | 2 => markRetired (if coreActive s u.unit then quarantine s u.unit else s) u
  | 7 => withhold s u.unit
  | 8 => noneLeft s
  | 9 => noneLeft s
  | _ => s

/-- Does retirement of the unit type exist (R381)? -/
def retirable (u : LUnit) : Bool := decide (1 ≤ u.utype) && decide (u.utype ≤ 7)

/-- What ostler 3 does about a class that the unit did not have (R378, R381). -/
def classAct (s : State) (r : LRec) (old : Nat) : State :=
  if r.cls = 2 && old < 2 && (r.unit.utype = 1 || r.unit.utype = 2) then quarantine s r.unit.unit
  else if r.cls = 3 && old < 3 then retire s r.unit
  else s

/-- Ostler 3's copy: classed records of the last 2,592,000 s (R387). -/
def classedKept (s : State) (r : LRec) : List LRec :=
  let l := s.ledger.classed.filter fun x => decide (optime s ≤ x.optime + 2592000)
  if r.cls = 0 then l else l ++ [r]

/-- The event is classed, acted on, and left to the Farrier. -/
def classed (s : State) (e : LRec) (rest : List LRec) : State :=
  let old := unitClass s e.unit
  let cls := eventClass s e
  let r := { e with cls := cls, gallop := decide (kindGroup e.kind = 3), retired := decide (cls = 3) && decide (old < 3) && retirable e.unit }
  let s := { s with ledger := { s.ledger with events := rest, toWrite := s.ledger.toWrite ++ [r], classed := classedKept s r } }
  classAct s r old

/-- LEDGER_EVENT_CLASSED (R377, R387): not while ostler 3 restarts (18 R467). -/
def execLedgerEventClassed (s : State) : Out :=
  match s.ledger.events with
  | [] => .next s
  | e :: rest => if ostlerBusy s 3 then .next s else .next (classed s e rest)

/-! ### Writing records (14 R384 to R386) -/

/-- A summary entry after a record. -/
def sumTaken (r : LRec) (seq : Nat) (e : Summary) : Summary :=
  { e with lastSeq := seq, events := min (e.events + 1) 0xFFFFFFFF, cls := max e.cls r.cls, retired := e.retired || r.retired,
           pending := e.pending || (decide (r.cls = 2) && decide (e.cls < 2)) }

/-- The ledger with a record written (R384, R385): a classed one updates the summary; class 2 and 3 and retirements go to the kept region. -/
def recWritten (l : Ledger) (e : LRec) : Ledger :=
  let r := { e with seq := l.written + 1 }
  let keep := decide (r.cls ≥ 2) || r.retired
  let full := keep && decide (l.kept.length ≥ 8192)
  let none_ := decide (r.cls ≠ 0) && (sumEnsure l.summary r.unit).isNone
  let l := { l with ring := r :: l.ring.take 262143, older := if r.cls = 0 then l.older else l.summary, written := r.seq, kept := if keep && !full then r :: l.kept else l.kept, lost := l.lost + bit full + bit none_ }
  if r.cls = 0 then l else markSummary l r.unit (sumTaken r r.seq)

/-- LEDGER_RECORD_WRITTEN (R375, R384 to R387): the operating time goes to flash with it; kind 13 when the unit's class reaches 2 or 3. -/
def execLedgerRecordWritten (s : State) : Out :=
  match s.ledger.toWrite with
  | [] => .next s
  | e :: rest =>
    if !s.dev.on || s.fw.farrierDown then .next s
    else
      let old := ((summaryOf s e.unit).map (·.cls)).getD 0
      let l := recWritten { s.ledger with toWrite := rest } e
      let s := { s with ledger := l, clk := { s.clk with optimeFlash := optime s } }
      .next (if e.cls ≥ 2 && e.cls > old then post s 13 0x8000 2 l.written else s)

/-- OPTIME_FLUSH: 60 s after the last write of the operating time (R375). -/
def execOptimeFlush (s : State) : Out :=
  if !s.dev.on || s.fw.farrierDown then .next s
  else
    let s := reach s (s.clk.opFrom + 1000000000 * (s.clk.optimeFlash + 60 - s.clk.opBase))
    .next { s with clk := { s.clk with optimeFlash := optime s } }

/-! ### Trot (14 R388 to R390) -/

/-- May ostler 3 issue a trot piece (R388, 17 R458, 18 R467)? -/
def mayTrot (s : State) : Bool :=
  decide (s.dev.state = .joined) && decide (rw s 0x800010 = 1) && decide (s.dev.inReset = 0) && s.tests.trot.isNone && !ostlerBusy s 3 &&
    !(s.power.emers.any fun e => !e.cleared)

/-- Is a core idle: in service, both queues empty, nothing running on it (R388)? -/
def coreIdle (s : State) (g : Nat) : Bool :=
  let k := coreAt s g
  coreActive s g && k.queue.isEmpty && k.checkQ.isEmpty && k.running.isEmpty && k.checking.isNone && decide (k.probe = 0) && !k.barred

/-- Repeats still owed: a core that left has none (R390). -/
def owedNow (s : State) : List (Nat × Nat) := s.tests.owed.filter fun o => coreActive s o.1

/-- The core that comes next: first one owed a repeat, then the next idle active core in ascending order, wrapping (R388, R390). -/
def trotCore (s : State) : Option Nat :=
  match owedNow s with
  | o :: _ => if coreIdle s o.1 then some o.1 else none
  | [] => ((upto 136).map fun i => (s.tests.trotNext + i) % 136).find? (coreIdle s)

/-- The piece that a core gets: a repeat keeps the kernel's pattern class. -/
def trotIssued (s : State) (g pclass : Nat) : State :=
  let s := reach s (s.tests.trotAt + 1000000 * rw s 0x800011)
  let s := trotSweeps s g (match owedNow s with | o :: _ => o.2 | [] => pclass)
  match owedNow s with
  | o :: r => { s with tests := { s.tests with trot := some (o.1, o.2, true), owed := r, trotRun := s.tests.trotRun + 1 } }
  | [] => { s with tests := { s.tests with trot := some (g, pclass, false), owed := [], trotNext := (g + 1) % 136, trotRun := s.tests.trotRun + 1 } }

/-- TROT_PIECE_ISSUE (R388): of the kernel that the world's library gives. -/
def execTrotPieceIssue (core : Fin 136) (pclass : Nat) (s : State) : Out :=
  if mayTrot s && decide (trotCore s = some core.val) then .next (trotIssued s core.val pclass) else .next s

/-- TROT_PIECE_COMPLETE (R390): a first failure owes a repeat. -/
def execTrotPieceComplete (digestOk : Bool) (s : State) : Out :=
  match s.tests.trot with
  | none => .next s
  | some (g, pclass, again) =>
    let s := { s with tests := { s.tests with trot := none, trotAt := s.clk.now } }
    let s := sweepsEnd s g pclass
    if digestOk then .next s
    else
      let owed := if again then s.tests.owed else s.tests.owed ++ [(g, pclass)]
      .next (trotEvent { s with tests := { s.tests with owed := owed } } g pclass again)

/-! ### Gallop: the cells of a run (14 R392 to R394) -/

/-- The twelve condition points of R392 without a temperature: offset in mV, clock in MHz. -/
def cellPoints : List (Int × Nat) := [-30, -20, -10, 0].flatMap fun o => [3000, 3075, 3150].map fun f => (o, f)

/-- May a core cell cover a core: active, or in the remount position, in a partition in service (R394)? -/
def cellCore (s : State) (g : Nat) : Bool :=
  s.dev.inService.getLsbD (g / 17) && (coreActive s g || decide (remountOf (coreMapOf s (g / 17)) = g % 17))

/-- Is a unit one that a cell may cover in this state (R393, R394)? -/
def cellUnit (s : State) (u : LUnit) : Bool :=
  match u.utype with
  | 1 => cellCore s u.unit
  | 2 => cellCore s u.unit
  | 4 => decide (s.dev.state = .test)
  | 5 => decide (s.dev.state = .test)
  | 6 => decide (s.dev.state = .test)
  | _ => true

/-- Cells of a core unit at every point, and of another unit at its nominal settings (R392). -/
def unitCells (u : LUnit) (pclass : Nat) (temps : List (Option Int)) (pend : Bool) : List Cell :=
  let points := if u.utype = 1 || u.utype = 2 then cellPoints else [(0, 3000)]
  temps.flatMap fun t => points.map fun x => { unit := u, pclass := pclass, offset := x.1, clock := x.2, temp := t, pend := pend }

/-- The newest record that made a unit INTERMITTENT: its conditions are what its cells use (R392, R393). -/
def pendRec (s : State) (u : LUnit) : Option LRec :=
  match s.ledger.classed.reverse.find? fun r => decide (r.unit = u) && decide (r.cls = 2) with
  | some r => some r
  | none => (s.ledger.ring ++ s.ledger.kept).find? fun r => decide (r.unit = u) && decide (r.cls = 2)

/-- The values nearest to a recorded one; all of them where it is unknown. -/
def nearestOf {α : Type} (l : List α) (dist : α → Nat) (known : Bool) (a : α) : Bool :=
  !known || l.all fun b => dist a ≤ dist b

/-- Is a cell's point the one of R392 nearest to the record's VOLT and FREQ (R393; log 207)? -/
def atRecorded (s : State) (u : LUnit) (r : LRec) (c : Cell) : Bool :=
  if u.utype ≠ 1 && u.utype ≠ 2 then true
  else
    let v (o : Int) : Nat := ((coreAt s u.unit).setpoint / 10 + o - r.volt : Int).natAbs
    let f (m : Nat) : Nat := (m - r.freq) + (r.freq - m)
    nearestOf [-30, -20, -10, 0] v (decide (r.volt ≠ 0)) c.offset && nearestOf [3000, 3075, 3150] f (decide (r.freq ≠ 0)) c.clock

/-- Cells of the GALLOP_PENDING units at their recorded conditions (R393). -/
def pendCells (s : State) : List Cell :=
  (s.ledger.summary.filter fun e => e.pending && cellUnit s e.unit).flatMap fun e =>
    let r := (pendRec s e.unit).getD {}
    (unitCells e.unit r.pclass [r.temp] true).filter (atRecorded s e.unit r)

/-- A row cell of a stack: which row fails is not known before. -/
def rowCell (n : Nat) : LUnit := ⟨3, pack [(29, 3, n / 2), (28, 1, n % 2)]⟩

/-- Units and pattern classes of family `f` (R393). -/
def familyUnits (f : Nat) : List (LUnit × Nat) :=
  let cores (cs : List Nat) (ty : Nat) : List (LUnit × Nat) := (upto 136).flatMap fun g => cs.map fun c => (⟨ty, g⟩, c)
  match f with
  | 1 => cores [1, 2] 1 ++ cores [1, 2] 2
  | 2 => cores [3] 1
  | 3 => cores [4, 5] 1
  | 4 => cores [6] 1
  | 5 => (upto 16).flatMap fun n => [(rowCell n, 7), (⟨8, n⟩, 7)]
  | 6 => (upto 64).map fun i => (⟨6, 16 * (i / 8) + i % 8⟩, 9)
  | _ => (upto 48).flatMap fun l => (upto 18).map (fun k => (⟨4, 256 * l + k⟩, 8)) ++ [(⟨5, l⟩, 8)]

/-- The sweep of the scope: scope bit 0 leaves it out, bits 6 and 7 act in TEST only (R393). -/
def sweepCells (s : State) : List Cell :=
  let scope := rw s 0x800021
  if scope.testBit 0 then []
  else ((upto 7).map (· + 1)).flatMap fun f =>
    if scope.testBit f && (f < 6 || s.dev.state = .test) then
      ((familyUnits f).filter fun u => cellUnit s u.1).flatMap fun u => unitCells u.1 u.2 [none, some 85, some 100] false
    else []

/-! ### Gallop: running (14 R391, R395, R396, R383) -/

/-- The cell at the head begins: a core at its point, a remount core powered as a test core, a link taken down (R392 to R394). -/
def beginCell (s : State) : State :=
  match s.tests.cells with
  | [] => s
  | c :: _ =>
    let s := { s with cores := (cellCores c).foldl (fun v g => updN v g fun k => { coreAtCell k c.offset c.clock with test := !coreActive s g }) s.cores }
    let s := (cellCores c).foldl (fun s g => trotSweeps s g c.pclass) s
    match cellLink c with
    | some l => partLinkDown (if inService (linkAt s l) then leaveOn s l 3 else s) l
    | none => s

/-- A unit that has passed its second complete run is no longer pending; its core becomes available again (R383). -/
def pendingEnds (s : State) (u : LUnit) : State :=
  let s := { s with ledger := { s.ledger with summary := mapWhere s.ledger.summary (fun e => decide (e.unit = u)) fun e => { e with pending := false } } }
  let core (e : Summary) : Bool := (u.utype = 1 || u.utype = 2) && (e.unit.utype = 1 || e.unit.utype = 2) && e.unit.unit = u.unit
  if s.ledger.summary.any fun e => core e && e.pending then s
  else { s with ledger := { s.ledger with summary := mapWhere s.ledger.summary core fun e => { e with quarantined := false } } }

/-- One more complete run that a pending unit has passed. -/
def passCounted (s : State) (u : LUnit) : State :=
  let n := (assoc? s.tests.passes u).getD 0 + 1
  if n ≥ 2 then pendingEnds { s with tests := { s.tests with passes := assocDel s.tests.passes u } } u
  else { s with tests := { s.tests with passes := assocSet s.tests.passes u n } }

/-- The units pending when the run began that it covered and that passed every cell. -/
def passedUnits (s : State) : List LUnit :=
  ((s.ledger.summary.filter fun e => e.pending && cellUnit s e.unit).map (·.unit)).filter fun u => !s.tests.failedPend.contains u && s.tests.pendRun.contains u

/-- The run is complete. -/
def gallopDone (s : State) : State :=
  let bad := s.tests.oosAfter
  let s := (passedUnits s).foldl passCounted s
  let s := { s with tests := { s.tests with gState := 0, gResult := if s.tests.gFound then 2 else 1, runs := s.tests.runs + 1, cells := [], gTotal := 0,
                                            oosAfter := false, gDue := nextRun s } }
  if bad then outOfService s else s

/-- The next cell begins, or the run is complete. -/
def nextCell (s : State) : State := if s.tests.cells.isEmpty then gallopDone s else beginCell s

/-- A run starts. -/
def gallopBegin (s : State) : State :=
  let cells := pendCells s ++ sweepCells s
  nextCell { s with tests := { s.tests with gState := 1, gFails := 0, gFound := false, gTotal := cells.length, cells := cells, failedPend := [], pendRun := cells.filterMap fun c => if c.pend then some c.unit else none, oosAfter := false } }

/-- Does nothing stand against a run: none runs, no emergency, no partition in reset, ostler 3 running (R396, 18 R467)? -/
def mayGallop (s : State) : Bool :=
  decide (s.tests.gState = 0) && !(s.power.emers.any fun e => !e.cleared) && decide (s.dev.inReset = 0)

/-- What stands against a gallop command (R391). -/
def gallopOwn (s : State) (value : Nat) : Nat :=
  match value with
  | 1 => if s.dev.state = .test && mayGallop s then 0 else 6
  | 2 => if s.dev.state = .test || s.dev.state = .spare then 0 else 6
  | _ => 4

/-- The effect of a gallop command. -/
def gallopAct (value : Nat) (s : State) : State :=
  match value with
  | 1 => gallopBegin s
  | 2 => gallopStop s
  | _ => s

/-- GALLOP_START_COMMAND (R391). -/
def execGallopStartCommand (src : Src) (s : State) : Out := .next (hostCommand s src 0x800020 1 1 (gallopOwn s 1) (gallopAct 1))

/-- GALLOP_STOP_COMMAND (R391). -/
def execGallopStopCommand (src : Src) (s : State) : Out := .next (hostCommand s src 0x800020 1 2 (gallopOwn s 2) (gallopAct 2))

/-- GALLOP_AUTO_START (R391). -/
def execGallopAutoStart (s : State) : Out :=
  if s.dev.state = .spare && rw s 0x800025 = 1 && mayGallop s && !ostlerBusy s 3 then .next (gallopBegin (reach s s.tests.gDue)) else .next s

/-- The unit that a failing cell names: of a march over rows, a free row of its stack (log 4). -/
def failedUnit (s : State) (c : Cell) : LUnit :=
  if c.unit.utype = 3 && !c.pend && !c.repeat_ then
    ⟨3, c.unit.unit + (drawnWord s).toNat % 2 ^ 28⟩
  else c.unit

/-- The event of a failed cell (R385, R395): PERMANENT at the second failure of a repeated cell; pattern number and digest are free (log 4). -/
def cellEvent (s : State) (c : Cell) (cls : Nat) : State :=
  let n := s.tests.gTotal - s.tests.cells.length
  let w := Config.freeWord (s.free + 1)
  { faultEvent s { kind := 5, unit := c.unit, pclass := c.pclass, cls := cls, detail := pack [(16, 20, n), (0, 16, w.toNat)],
                   arg := (Config.freeWord (s.free + 2)).toNat } with free := s.free + 5 }

/-- A cell fails: a first time, and it is repeated at once; a second time, and its unit is PERMANENT (R395). -/
def cellFails (s : State) (c : Cell) (rest : List Cell) : State :=
  let c := { c with unit := failedUnit s c }
  let fp := if c.pend && !s.tests.failedPend.contains c.unit then s.tests.failedPend ++ [c.unit] else s.tests.failedPend
  if c.repeat_ then
    let s := cellEvent { s with tests := { s.tests with gFound := true, failedPend := fp } } c 3
    nextCell { endCell s with tests := { s.tests with cells := rest } }
  else
    let s := cellEvent { s with tests := { s.tests with gFails := s.tests.gFails + 1, failedPend := fp } } c 1
    { s with tests := { s.tests with cells := { c with repeat_ := true } :: rest } }

/-- The kernel of a cell has swept its cores' arrays (17 R452). -/
def cellSweeps (s : State) (c : Cell) : State := (cellCores c).foldl (fun s g => sweepsEnd s g c.pclass) s

/-- GALLOP_CELL_COMPLETE (R395): it waits while ostler 3 restarts (18 R467, R470). -/
def execGallopCellComplete (failed : Bool) (s : State) : Out :=
  match s.tests.cells with
  | [] => .next s
  | c :: rest =>
    if s.tests.gState ≠ 1 then .next s
    else if ostlerBusy s 3 then .next (hwRequest s 3 (.unit (.gallopCellComplete failed)))
    else if failed then .next (cellFails (cellSweeps s c) c rest)
    else .next (nextCell { endCell (cellSweeps s c) with tests := { s.tests with cells := rest } })

/-! ### Core probes and resets (15 R399) -/

/-- Does the core's partition have its power, with no module reset or power-down in progress (16 R437)? -/
def mayProbe (s : State) (g : Nat) : Bool := s.dev.inService.getLsbD (g / 17) && s.dev.down.isNone && !moduleResetting s

/-- Does it have its ostler too? -/
def probeable (s : State) (g : Nat) : Bool := !ostlerBusy s (4 + g / 17) && mayProbe s g

/-- An event of a core's probe: carried out, or left to the queue of the partition's restarting ostler (18 R467, R470). -/
def probeEvent (s : State) (g : Nat) (c : Instr) (effect : State) : Out :=
  if probeable s g then .next effect
  else if mayProbe s g then .next (hwRequest s (4 + g / 17) (.unit c))
  else .next s

/-- A probe fails: the first resets the core, the one after the reset quarantines it. -/
def probeFails (s : State) (g : Nat) : State :=
  if (coreAt s g).probe = 1 then coreReset s g else quarantine (onCore_ s g fun k => { k with probe := 0 }) g

/-- CORE_PROBE_DONE: a wrong digest is a trot failure besides. -/
def execCoreProbeDone (core : Fin 136) (digestOk : Bool) (s : State) : Out :=
  let g := core.val
  let n := (coreAt s g).probe
  if n = 1 || n = 3 then
    probeEvent s g (.coreProbeDone core digestOk)
      (let s := sweepsEnd s g (coreAt s g).probeCls
       if digestOk then onCore_ s g fun k => { k with probe := 0 } else probeFails (trotEvent s g (coreAt s g).probeCls) g)
  else .next s

/-- CORE_PROBE_TIMEOUT: not done within 1 ms. -/
def execCoreProbeTimeout (core : Fin 136) (s : State) : Out :=
  let n := (coreAt s core.val).probe
  if n = 1 || n = 3 then probeEvent s core.val (.coreProbeTimeout core) (probeFails s core.val) else .next s

/-- The known-answer kernel of a probe begins (R399, 17 R452). -/
def probeSweeps (s : State) (g : Nat) : State := trotSweeps s g (coreAt s g).probeCls

/-- CORE_RESET_DONE: the core is probed again. -/
def execCoreResetDone (core : Fin 136) (s : State) : Out :=
  if (coreAt s core.val).probe = 2 then probeEvent s core.val (.coreResetDone core) (probeSweeps (onCore_ s core.val fun k => { k with probe := 3 }) core.val) else .next s

/-! ### Hub watchdog and escalation (15 R401, R406; 18 R472, R482) -/

/-- Has the hub's active image begun to boot: BOOT, past the power-down of the reset that activated it (18 R477)? -/
def hubBooting (s : State) : Bool := decide (s.dev.state = .boot) && s.dev.down.isNone && !s.dev.holdoff

/-- A module reset that ostlers 0 to 3 or the hub watchdog force: a trial hub image in BOOT gives way to the other bank and phase 3 runs again, without a
count (R477); a boot after power-up is reset too. -/
def hubReset (s : State) : State :=
  if hubBooting s && (pairOf s 2).trial then setAlert (bankReverted (resetLoss (packageOff s)) 2)
  else if booting s && s.dev.phase ≥ 4 && s.dev.lastKind = 0 then modResetRun s 4
  else modReset s 4

/-- HUB_WATCHDOG_EXPIRY: a flash summary, then a module reset with cause 3; not while the Farrier restarts, and merged with
a reset in progress (16 R437), but for a hub image in trial, which gives way (18 R477). -/
def execHubWatchdogExpiry (s : State) : Out :=
  if !s.dev.on || s.fw.farrierDown || !s.domains.getLsbD 40 || s.dev.down.isSome then .next s
  else if hubBooting s && (pairOf s 2).trial then .next (hubReset (flashSummary s 4 15 8))
  else if moduleResetting s then .next s
  else .next (modReset (flashSummary s 4 15 8) 3)

/-- What stands against the escalation clear (R406). -/
def escalationOwn (s : State) (value : Nat) : Nat := if value ≠ 1 then 4 else if s.dev.state = .outOfService then 0 else 6

/-- Both reset histories are empty. -/
def historiesCleared (s : State) : State := { s with recov := { s.recov with partHist := [], modHist := [], cleared := true } }

/-- ESCALATION_CLEAR (R406). -/
def execEscalationClear (src : Src) (s : State) : Out := .next (hostCommand s src 0x84000F 1 1 (escalationOwn s 1) historiesCleared)

end Sys2Proof.Machine
end

