-- ==== Sys2Proof/Machine/Firmware.lean ====
section
/-! DEFINITION. Ostler and Farrier restarts, firmware updates and activations, the flash copy of the log, and dump exports (18 R465 to
R485, 19 R498). -/

namespace Sys2Proof.Machine

/-! ### Ostler restarts (R468, R469, 15 R401) -/

/-- Do the ostlers run: their cluster PD42 is on? -/
def ostlersOn (s : State) : Bool := s.domains.getLsbD 42

/-- Ostler `o`. -/
def ostlerAt (s : State) (o : Nat) : Ostler := nth s.fw.ostlers o {}

/-- A restart begins with its crash dump, of a trigger code (R468, R482). -/
def restartBegins (s : State) (o trig : Nat) : State :=
  let s := onOstler s o fun k => { k with state := 1, readyAt := none }
  { s with fw := { s.fw with restarts := s.fw.restarts + 1, dumping := s.fw.dumping.filter (fun d => d.1 ≠ o) ++ [(o, trig, localCounter s, stepNow s)],
                             dumpOnly := s.fw.dumpOnly.filter (· ≠ o) } }

/-- The reset that three failed restarts within 60 s force (15 R401): of the ostler's partition, or of the module, which the dumps of R482 and
R484 precede. -/
def ostlerReset (s : State) (o trig : Nat) : State :=
  if o ≥ 4 then partReset s (o - 4) 4 else hubReset (flashSummary (fullDump s 9 trig o 8 65536) trig o 8)

/-- A failed restart: another follows at once; the third within 60 s forces a reset (R469, 15 R401). -/
def restartFails (s : State) (o trig : Nat) : State :=
  let recent := s.clk.now :: (ostlerAt s o).fails.filter fun t => decide (s.clk.now < t + 60000000000)
  if recent.length < 3 then restartBegins (onOstler s o fun k => { k with fails := recent }) o trig
  else
    let s := onOstler s o fun k => { k with fails := [] }
    if o ≥ 4 then ostlerReset (restartBegins s o trig) o trig else ostlerReset (onOstler s o fun k => { k with state := 3 }) o trig

/-- A running ostler traps or lets its watchdog expire: within 1 s of being ready, its restart has failed (R469). -/
def ostlerStops (s : State) (o trig : Nat) : State :=
  let k := ostlerAt s o
  if !ostlersOn s || k.state ≠ 0 then s
  else if k.readyAt.any fun t => decide (s.clk.now < t + 1000000000) then restartFails s o trig
  else restartBegins s o trig

/-- OSTLER_TRAP (R468). -/
def execOstlerTrap (o : Fin 12) (s : State) : Out := .next (ostlerStops s o.val 1)

/-- OSTLER_WATCHDOG_EXPIRY (R468). -/
def execOstlerWatchdogExpiry (o : Fin 12) (s : State) : Out := .next (ostlerStops s o.val 2)

/-- What stands against an ostler command (R487): bits 3:0 ostler, bit 4 dump only. -/
def ostlerOwn (s : State) (value : Nat) : Nat := firstReason [(decide (value % 16 > 11), 5), (decide (s.dev.state = .boot), 6)]

/-- The effect of an ostler command: one that the ostler's state already brings adds nothing. -/
def ostlerAct (value : Nat) (s : State) : State :=
  let o := value % 16
  if !ostlersOn s || (ostlerAt s o).state ≠ 0 then s
  else if value < 16 then restartBegins s o 5
  else if s.fw.dumping.any fun d => d.1 = o then s
  else { s with fw := { s.fw with dumping := s.fw.dumping ++ [(o, 5, localCounter s, stepNow s)], dumpOnly := s.fw.dumpOnly ++ [o] } }

/-- OSTLER_RESTART_COMMAND (R468, R487). -/
def execOstlerRestartCommand (src : Src) (o : Fin 16) (s : State) : Out :=
  .next (hostCommand s src 0x90000A 1 o.val (ostlerOwn s o.val) (ostlerAct o.val))

/-- OSTLER_DUMP_COMMAND (R482, R487). -/
def execOstlerDumpCommand (src : Src) (o : Fin 16) (s : State) : Out :=
  .next (hostCommand s src 0x90000A 1 (16 + o.val) (ostlerOwn s (16 + o.val)) (ostlerAct (16 + o.val)))

/-- Can the restart copy in P0 (0) or P4 (1) be read: in service, and not poisoned within the last second, which the Farrier takes to
rewrite it (R468, R485)? -/
def copyServes (s : State) (c : Nat) : Bool :=
  s.dev.inService.getLsbD (4 * c) && !(s.mem.copyPoison.any fun x => x.1 = c && decide (s.clk.now < x.2 + 1000000000))

/-- The dump is stored; then the program is reloaded and its digest checked, unless only a dump was asked for (R468, R484). -/
def ostlerDumped (s : State) (o trig stamp n : Nat) (digestOk : Bool) (timeouts : Nat) (truncated : Bool) (size : Nat) : State :=
  let s := drawn (onOstler s o fun k => { k with contents := s.free })
  let h := dumpHeaderAt s stamp n trig o (if o ≥ 4 then o - 4 else 8) timeouts (min (max size 32) (2 ^ 26)) truncated false
  let s := storeDump s 9 h (dumpHolds s o)
  let only := s.fw.dumpOnly.contains o
  let s := { s with fw := { s.fw with dumping := s.fw.dumping.filter fun d => d.1 ≠ o, dumpOnly := s.fw.dumpOnly.filter (· ≠ o) } }
  if only then s
  else if digestOk && (s.dev.state = .boot || copyServes s 0 || copyServes s 1) then onOstler s o fun k => { k with state := 2 }
  else restartFails s o 2

/-- OSTLER_DUMP_DONE (R468). -/
def execOstlerDumpDone (o : Fin 12) (digestOk : Bool) (timeouts : Nat) (truncated : Bool) (size : Nat) (s : State) : Out :=
  match s.fw.dumping.find? fun d => d.1 = o.val with
  | some d => .next (ostlerDumped s o.val d.2.1 d.2.2.1 d.2.2.2 digestOk timeouts truncated size)
  | none => .next s

/-- OSTLER_READY_TIMEOUT (R469). -/
def execOstlerReadyTimeout (o : Fin 12) (s : State) : Out :=
  if (ostlerAt s o.val).state = 2 then .next (restartFails s o.val 2) else .next s

/-! ### The Farrier's restart (R472) -/

/-- The Farrier restarts through its boot ROM; a PENDING Farrier image takes effect under mode 1, and a restart that finds another in
progress is a failed boot attempt (R472, R475, R477). -/
def farrierRestarts (s : State) : State :=
  let s := if rw s 0x900005 = 1 && !s.fw.farrierDown then activateTypes s [1] else s
  bootAttempt { s with fw := { s.fw with farrierDown := true } } 1

/-- FARRIER_WATCHDOG_EXPIRY. -/
def execFarrierWatchdogExpiry (s : State) : Out := if s.dev.on then .next (farrierRestarts s) else .next s

/-- A reset that waited for the Farrier starts. -/
def laterReset (s : State) (r : Option Nat × Nat) : State :=
  match r.1 with
  | some p => partReset s p r.2
  | none => modReset s r.2

/-- Does the active Farrier image pass the boot ROM: its key not revoked, its SVN not below the counter (21 R525, R526, R528)? Its bytes were
verified when the bank became PENDING. -/
def farrierVerifies (s : State) : Bool :=
  let i := (activeBank (pairOf s 1)).img
  keyLive s i.keySlot && decide (i.svn ≥ nth s.sec.svns 0 0)

/-- FARRIER_RESTART_DONE: the image is confirmed, and resets that waited start; a trial image that fails verification gives way to the other
bank, and the restart runs again (R477). -/
def execFarrierRestartDone (s : State) : Out :=
  if s.fw.farrierDown && (pairOf s 1).trial && !farrierVerifies s then .next (bankReverted (securityEvent s) 1)
  else if s.fw.farrierDown then
    let l := s.fw.later
    let s := bankConfirmed { s with fw := { s.fw with farrierDown := false, later := [] } } 1
    .next (l.foldl laterReset s)
  else .next s

/-! ### Updates (R474, R487, 19 R498, 21 R525, R528) -/

/-- Fields of an update request. -/
def updOffset (v : Nat) : Nat := fld v 255 192
def updLength (v : Nat) : Nat := fld v 191 160
def updSrc (v : Nat) : Nat := fld v 7 4
def updTypeOf (v : Nat) : Nat := fld v 3 0

/-- The largest image of a type (R473). -/
def imageLimit (t : Nat) : Nat := if t = 1 then 8 * 2 ^ 20 else if t = 2 then 32 * 2 ^ 20 else 48 * 2 ^ 20

/-- Does an update run? -/
def updating (f : Fw) : Bool := decide (1 ≤ f.updState) && decide (f.updState ≤ 3)

/-- What stands against an update request (R474). -/
def updateOwn (s : State) (v : Nat) : Nat := firstReason [
  (decide (updTypeOf v = 0) || decide (updTypeOf v > 3) || decide (updSrc v > 1) || (decide (updSrc v = 0) && decide (updOffset v % 4096 ≠ 0)), 4),
  (decide (updSrc v = 0) && decide (updOffset v + updLength v > 2 ^ 36), 5),
  (updating s.fw || decide (s.dev.state = .boot), 6)]

/-- The update fails: its bank is INVALID, and a verification failure is a security event (R474, 0xA000.52). -/
def updFails (s : State) (reason : Nat) : State :=
  let s := updTo (updBank { s with host := { s.host with chunks := [] } } 1) 5 reason 0
  if reason = 1 || reason = 2 || reason = 5 then securityEvent s else s

/-- An update starts: the inactive bank is INVALID, and the image is read (R474). -/
def updateStarts (v : Nat) (s : State) : State :=
  let s := { s with fw := { s.fw with updType := updTypeOf v, updSource := updSrc v, updLen := updLength v }, host := { s.host with chunks := [] } }
  let s := updTo (updBank s 1) 1 0 0
  let s := if updSrc v = 0 then emit s (.snoop (updOffset v)) else s
  if updLength v > imageLimit (updTypeOf v) then updFails s 3 else s

/-- UPDATE_REQUEST (R474). -/
def execUpdateRequest (src : Src) (req : BitVec 256) (s : State) : Out :=
  .next (hostCommand s src 0x900001 32 req.toNat (updateOwn s req.toNat) (updateStarts req.toNat))

/-- What fails of a received image: its reason, 0 when it verifies (21 R525, R528). -/
def imageReason (s : State) (img : FwImage) (writeOk : Bool) : Nat := firstReason [
  (img.tooLarge, 3),
  (!writeOk, 4),
  (!img.magicOk, 5),
  (!img.sigOk || !keyLive s img.keySlot, 1),
  (decide (img.svn > 63) || decide (img.svn < nth s.sec.svns (s.fw.updType - 1) 0), 2)]

/-- Has the image been received: read from the aperture, or by every chunk (19 R498)? -/
def imageThere (f : Fw) : Bool := updating f && (decide (f.updSource = 0) || decide (f.updState ≥ 2))

/-- The image is in the bank, PENDING. -/
def updPending (s : State) (img : FwImage) : State :=
  updTo (onPair s s.fw.updType fun p => onOther p fun _ => { state := 4, img := img }) 4 0 100

/-- UPDATE_DONE (R474): not while the Farrier restarts. -/
def execUpdateDone (img : FwImage) (writeOk : Bool) (s : State) : Out :=
  if imageThere s.fw && !s.fw.farrierDown then
    let why := imageReason s img writeOk
    .next (if why = 0 then updPending s img else updFails s why)
  else .next s

/-! ### Image chunks (19 R498) -/

/-- Does a list of ranges cover every byte from `at_` to `until_`, with at most `fuel` ranges? -/
def covered (l : List (Nat × Nat)) (until_ : Nat) : Nat → Nat → Bool
  | 0, at_ => decide (at_ ≥ until_)
  | fuel + 1, at_ =>
    if at_ ≥ until_ then true
    else
      let next := l.foldl (fun m r => if r.1 ≤ at_ then max m (r.1 + r.2) else m) at_
      if next = at_ then false else covered l until_ fuel next

/-- Ranges received with one more, a range that another holds left out. -/
def chunkIn (l : List (Nat × Nat)) (off n : Nat) : List (Nat × Nat) :=
  if l.any fun r => decide (r.1 ≤ off) && decide (off + n ≤ r.1 + r.2) then l else l ++ [(off, n)]

/-- Why a chunk is turned away: from another than the owner, outside state 1 of a Halter update, or malformed. -/
def chunkReason (s : State) (src : Src) (off n : Nat) : Nat := firstReason [
  (decide (s.host.owner ≠ some src.master), 1),
  (decide (n = 0) || decide (n > 1024), 9),
  (decide (s.fw.updSource ≠ 1) || decide (s.fw.updState ≠ 1), 6),
  (decide (off + n > s.fw.updLen), 5)]

/-- A chunk is taken; the last one ends the reading (R498). -/
def chunkTaken (s : State) (off n : Nat) : State :=
  let l := chunkIn s.host.chunks off n
  let s := { s with host := { s.host with chunks := l } }
  if covered l s.fw.updLen l.length 0 then updTo (updBank s 2) 2 0 50 else s

/-- IMAGE_CHUNK (19 R498): on Halter only. -/
def execImageChunk (src : Src) (offset : Nat) (bytes : List Byte) (s : State) : Out :=
  if src.path ≠ .halter then .next s
  else match door s src with
    | some t => .next t
    | none =>
      let why := chunkReason s src offset bytes.length
      if why ≠ 0 then .next (illegal s src 0x30 why 0 0)
      else .next (accepted (chunkTaken s offset bytes.length) src 0x30 0 [])

/-- IMAGE_CHUNK_TIMEOUT: no chunk for 10 s (19 R498). -/
def execImageChunkTimeout (s : State) : Out :=
  if s.fw.updSource = 1 && s.fw.updState = 1 && !s.fw.farrierDown then .next (updFails s 6) else .next s

/-! ### Activation (R473, R475 to R477) -/

/-- The types of a mask. -/
def maskTypes (mask : Nat) : List Nat := [1, 2, 3].filter mask.testBit

/-- An activate command under mode 0: named PENDING types at once, or deferred (R475, R476). -/
def activateAct (mask : Nat) (s : State) : State :=
  let ts := (maskTypes mask).filter (pendingTypes s).contains
  if rw s 0x900005 ≠ 0 then s
  else activateOrDefer (modReset · 7) s ts

/-- ACTIVATE_COMMAND (R475, R476). -/
def execActivateCommand (src : Src) (mask : BitVec 8) (s : State) : Out :=
  .next (hostCommand s src 0x900004 1 mask.toNat 0 (activateAct mask.toNat))

/-- ACTIVATION_DEFERRAL_END (R476): what nothing defers any more is carried out; the rest waits on. -/
def execActivationDeferralEnd (s : State) : Out :=
  let ts := (maskTypes s.fw.deferMask.toNat).filter fun t => !deferBlocks s t
  let mask := ts.foldl (fun m t => m &&& ~~~ BitVec.twoPow 8 t) s.fw.deferMask
  .next (activateOrDefer (modReset · 7) { s with fw := { s.fw with deferMask := mask } } ts)

/-- The active library is verified and measured (21 R526, R527). -/
def libraryMeasured (s : State) : State :=
  { s with sec := { s.sec with meas := updN s.sec.meas 3 fun m => extend m (activeBank (pairOf s 3)).img.pdigest } }

/-- PATTERN_LIBRARY_RELOAD (R473, R477): between trot pieces and runs; a digest that fails brings the other bank back. -/
def execPatternLibraryReload (digestOk : Bool) (s : State) : Out :=
  if s.fw.libReload && s.tests.trot.isNone && s.tests.gState = 0 && !ostlerBusy s 3 then
    let s := { s with fw := { s.fw with libReload := false } }
    .next (libraryMeasured (if digestOk then bankConfirmed s 3 else securityEvent (bankReverted s 3)))
  else .next s

/-! ### The flash log (R479) -/

/-- Marks a log entry copied. -/
def logCopied (l : List LogEnt) (seq : Nat) : List LogEnt := mapWhere l (fun e => e.seq = seq) fun e => { e with copied := true }

/-- LOG_FLASH_COPY: the oldest entry of LEVEL 5 or above that is not in flash; not while ostler 3 or the Farrier restarts. -/
def execLogFlashCopy (s : State) : Out :=
  match s.fw.log.reverse.find? fun e => decide (e.level ≥ 5) && !e.copied with
  | none => .next s
  | some e =>
    if s.fw.farrierDown || ostlerBusy s 3 then .next s
    else .next { s with fw := { s.fw with flashLog := e.entry :: s.fw.flashLog.take 524287, flashIdx := s.fw.flashIdx + 1, log := logCopied s.fw.log e.seq } }

/-! ### Dump exports (R487) -/

/-- What stands against a dump export: a range past the aperture, or an export in progress. -/
def dumpOwn (s : State) (v : Nat) : Nat := firstReason [
  (decide (fld v 127 64 + ((dumpSel s.fw (v % 256)).map dumpSize).getD 0 > 2 ^ 36), 5),
  (decide (s.fw.expState = 1) || hbmDark s, 6)]

/-- The export copies. -/
def dumpStarts (v : Nat) (s : State) : State := { s with fw := { s.fw with expState := 1, expSlot := v % 256, expOff := fld v 127 64 } }

/-- DUMP_EXPORT_REQUEST. -/
def execDumpExportRequest (src : Src) (req : BitVec 128) (s : State) : Out :=
  .next (hostCommand s src 0x910023 16 req.toNat (dumpOwn s req.toNat) (dumpStarts req.toNat))

/-- DUMP_EXPORT_DONE: done, or failed where the slot is empty or the aperture does not take the bytes. -/
def execDumpExportDone (ok : Bool) (s : State) : Out :=
  if s.fw.expState ≠ 1 then .next s
  else match dumpShown s.fw s.fw.expSlot with
    | none => .next { s with fw := { s.fw with expState := 3 } }
    | some h =>
      if !ok || stageAway s s.fw.expOff (dumpSize h) then .next { s with fw := { s.fw with expState := 3 } }
      else .next { moduleStages s s.fw.expOff (dumpBytes h (dumpBody s.fw s.fw.expSlot)) with fw := { s.fw with expState := 2 } }

end Sys2Proof.Machine
end

