-- ==== Sys2Proof/Machine/Security.lean ====
section
/-! DEFINITION. Halter sessions, claims and ownership, attestation, credentials, debug unlock, blinkers and production test (19 R497 to
R500, 21 R529 to R544, 22 R557 to R559). -/

namespace Sys2Proof.Machine

/-- Is the security core on (01 R34)? -/
def securityUp (s : State) : Bool := s.domains.getLsbD 43

/-- A new claim nonce, and a new debug nonce (R533, R537). -/
def newClaimNonce (s : State) : State := drawn { s with sec := { s.sec with claimNonce := drawnWord s } }
def newDebugNonce (s : State) : State := drawn { s with sec := { s.sec with debugNonce := drawnWord s } }

/-! ### HELLO (19 R498, 22 R557) -/

/-- Does the boot ROM wait in production entry (R557)? -/
def entryWaits (s : State) : Bool :=
  s.dev.on && s.dev.prodEntry && decide (s.dev.phase = 0) && decide (s.dev.state = .boot) && !resetting s && !s.dev.prodTest

/-- What a HELLO reply gives: serial, coordinates and device state, each as wide as its entry. -/
def helloBody (s : State) : List Byte := toBytes 8 s.dev.product.serial ++ toBytes 4 (ownCoord s) ++ toBytes 1 (devCode s.dev.state)

/-- A message outside any session; HELLO and OPEN carry no SEQ here, so their replies show 0 on (log 188). -/
def setupMsg (slot : Fin 9) (ty seq status : Nat) (body : List Byte) : Emit := .halter slot (halterHeader 0 ty seq body.length status) body none

/-- HELLO from the sender that `master` names; in production entry the reply carries a newly drawn nonce. -/
def execHello (master : Fin 9) (s : State) : Out :=
  if master = 0 then .next s
  else if entryWaits s then
    let s := drawn { s with dev := { s.dev with prodNonce := drawnWord s, prodHello := true } }
    .next (emit s (setupMsg master 0x01 0 0 (helloBody s ++ toBytes 8 s.dev.prodNonce.toNat)))
  else if farrierUp s then .next (emit s (setupMsg master 0x01 0 0 (helloBody s)))
  else .next s

/-! ### OPEN (R534, R535) -/

/-- Fragments of one operation after those already held: consecutive, each of at most 1,036 bytes, never more than announced (R535). -/
def fragsTake (f : Frags) : List (Nat × List Byte) → Option Frags
  | [] => some f
  | (i, bs) :: r =>
    if i = f.next && decide (i < f.count) && decide (0 < bs.length) && decide (bs.length ≤ 1036) && decide (f.bytes.length + bs.length ≤ f.total) then
      fragsTake { f with next := i + 1, bytes := f.bytes ++ bs } r
    else none

/-- The fragments held so far, if they belong to the operation that goes on; none held starts afresh. -/
def fragsHeld (s : State) (count total : Nat) : Frags :=
  match s.sec.frags with
  | some f => if f.count = count && f.total = total then f else { next := 0, count := count, total := total, bytes := [] }
  | none => { next := 0, count := count, total := total, bytes := [] }

/-- The lowest free session slot (19 R499). -/
def freeSlot (s : State) : Option (Fin 9) := (fins 9).find? fun k => decide (k ≠ 0) && (sessionOf s k).isNone

/-- An illegal sequence on Halter outside any session. -/
def openRefused (s : State) (why : Nat) : State :=
  emit (countIllegal s { master := 0, path := .halter } why 0 0) (setupMsg 0 0x03 0 why [])

/-- The fragments of an operation's bytes: index, count and total length before up to 1,036 bytes each (R535). -/
def fragments (bytes : List Byte) : List (List Byte) :=
  let n := (bytes.length + 1035) / 1036
  (upto n).map fun i => toBytes 4 (pack [(24, 8, i), (16, 8, n), (0, 16, bytes.length)]) ++ (bytes.drop (1036 * i)).take 1036

/-- The session that an encapsulation key opens in a slot (R534). -/
def openSession (s : State) (slot : Fin 9) (body : List Byte) : State :=
  let number := BitVec.ofNat 32 ((drawnWord s).toNat % (2 ^ 32 - 1) + 1)
  let ek := shake256 body
  let cipher := Config.mlkemCipher ek s.free
  let t := shake256 (body ++ toBytes 4 number.toNat ++ toBytes 1568 cipher.toNat)
  let k := shake512 (digestBytes (Config.mlkemSecret ek s.free) ++ digestBytes t)
  let x : Session := { slot := slot, number := number, transcript := t, key := k, lastAt := s.clk.now }
  let body := toBytes 4 number.toNat ++ toBytes 1568 cipher.toNat ++ toBytes 1280 (Config.signature s.sec.identity t).toNat
  let s := emits s ((fragments body).zipIdx.map fun f => setupMsg slot 0x03 f.2 0 f.1)
  drawn { s with host := { s.host with sessions := s.host.sessions ++ [x] } }

/-- A whole OPEN: malformed; no slot free; or a session opens. -/
def openWhole (s : State) (f : Frags) : State :=
  if f.total ≠ 1568 || f.bytes.length ≠ 1568 then openRefused s 9
  else match freeSlot s with
    | none => openRefused s 6
    | some k => if securityUp s then openSession s k f.bytes else openRefused s 6

/-- Are fragments held of another operation than the one that goes on? They can no longer complete. -/
def fragsOther (s : State) (count total : Nat) : Bool := s.sec.frags.any fun f => decide (f.count ≠ count) || decide (f.total ≠ total)

/-- HALTER_OPEN (R534, R535): fragments out of order, or of an operation that another one breaks off, are discarded and counted; an incomplete
operation is held. -/
def execHalterOpen (frags : List (Nat × List Byte)) (count total : Nat) (s : State) : Out :=
  if !farrierUp s || frags.isEmpty then .next s
  else
    let held := fragsHeld s count total
    let s := if fragsOther s count total then tagFail s else s
    match fragsTake held frags with
    | none => .next (tagFail { s with sec := { s.sec with frags := none } })
    | some f =>
      if f.next = count then .next (openWhole { s with sec := { s.sec with frags := none } } f)
      else .next { s with sec := { s.sec with frags := some f } }

/-- FRAGMENT_TIMEOUT (R535): slot 0 an OPEN, another slot the fragments of a CLAIM in that session. -/
def execFragmentTimeout (slot : Fin 9) (s : State) : Out :=
  if slot = 0 then (if s.sec.frags.isSome then .next (tagFail { s with sec := { s.sec with frags := none } }) else .next s)
  else if (sessionOf s slot).isSome && farrierUp s then .next (tagFail s)
  else .next s

/-- A session closes: its power-manager place ends, ownership stands until its lease ends (19 R497, R533). -/
def closeSession (s : State) (slot : Fin 9) : State :=
  { s with host := { s.host with sessions := s.host.sessions.filter (fun x => x.slot ≠ slot), managers := s.host.managers.filter (· ≠ slot) } }

/-- SESSION_IDLE_TIMEOUT: 30 s after the session's last message (19 R497). -/
def execSessionIdleTimeout (slot : Fin 9) (s : State) : Out :=
  match sessionOf s slot with
  | some x => .next (closeSession (reach s (x.lastAt + 30000000000)) slot)
  | none => .next s

/-! ### CLAIM and ownership (19 R499, R500; 21 R533) -/

/-- What a claim's signature covers (R533). -/
def claimDigest (s : State) (src : Src) (priority : Nat) : Digest :=
  let t := if src.path = .halter then ((sessionOf s src.master).map (·.transcript)).getD 0 else 0
  shake256 (ascii ['W', 'N', '-', 'C', 'L', 'A', 'I', 'M'] ++ toBytes 8 s.dev.product.serial ++ toBytes 1 src.master.val ++ toBytes 1 priority ++ toBytes 8 s.sec.claimNonce.toNat ++
    digestBytes t)

/-- A credential slot. -/
def credAt (s : State) (i : Nat) : Cred := nth s.sec.creds i {}

/-- Is the claim valid (R533)? -/
def claimValid (s : State) (src : Src) (slot : Fin 8) (priority : Nat) (sig : Sig) : Bool :=
  let c := credAt s slot.val
  c.valid && (c.owner || c.power) && decide (sig.key = c.key) && decide (sig.msg = claimDigest s src priority)

/-- A valid claim with OWNER in the election (R500): of the owner itself, of the first master, or of another one. -/
def elect (s : State) (m : Fin 9) (slot : Fin 8) (priority : Nat) : State :=
  let c : Claim := { master := m, slot := slot, priority := priority, until_ := s.clk.now + 10000000000 }
  match s.host.owner with
  | none => setOwner s (some m) priority slot.val
  | some o =>
    if o = m then { s with host := { s.host with ownerPrio := priority, ownerSlot := slot.val } }
    else match s.host.claim with
      | some p => if priority > p.priority then { s with host := { s.host with claim := some c } } else s
      | none => { s with host := { s.host with claim := some c } }

/-- What a valid claim brings: OWNER the election, POWER the power manager's place. -/
def claimed (s : State) (m : Fin 9) (slot : Fin 8) (priority : Nat) : State :=
  let c := credAt s slot.val
  let s := if c.power && !s.host.managers.contains m then { s with host := { s.host with managers := s.host.managers ++ [m] } } else s
  if c.owner then elect s m slot priority else s

/-- A request that the window cannot carry, and what judges it elsewhere: a reason, else an effect. -/
def portRequest (s : State) (src : Src) (ty : Nat) (why : Nat) (effect : State → State) : State :=
  if src.path = .window then s
  else match door s src with
    | some t => t
    | none => if why ≠ 0 then illegal s src ty why 0 0 else accepted (effect s) src ty 0 []

/-- CLAIM (R533): the nonce changes after every one; with the security core off none can be judged (log 133). -/
def execClaim (src : Src) (slot : Fin 8) (priority : Fin 16) (sig : Sig) (s : State) : Out :=
  if src.path = .window then .next s
  else match door s src with
    | some t => .next t
    | none =>
      if !securityUp s then .next (illegal (newClaimNonce s) src 0x20 6 0 0)
      else if claimValid s src slot priority.val sig then .next (accepted (newClaimNonce (claimed s src.master slot priority.val)) src 0x20 0 [])
      else .next (illegal (newClaimNonce s) src 0x20 9 0 0)

/-- Reason 1 for another than the owner. -/
def ownerOnly (s : State) (src : Src) : Nat := if s.host.owner = some src.master then 0 else 1

/-- RELEASE (R500). -/
def execRelease (src : Src) (s : State) : Out := .next (portRequest s src 0x21 (ownerOnly s src) passOwnership)

/-- What stands against a transfer: the sender is not the owner, or names another than the pending claimant. -/
def transferOwn (s : State) (src : Src) (dest : Fin 9) : Nat :=
  firstReason [(decide (ownerOnly s src ≠ 0), 1), (decide (s.host.claim.map (·.master) ≠ some dest), 6)]

/-- TRANSFER (R500). -/
def execTransfer (src : Src) (dest : Fin 9) (s : State) : Out := .next (portRequest s src 0x22 (transferOwn s src dest) passOwnership)

/-- RENEW (R500): the lease starts again, as with every accepted request of the owner. -/
def execRenew (src : Src) (s : State) : Out := .next (portRequest s src 0x23 (ownerOnly s src) fun s => s)

/-- PENDING_CLAIM_LAPSE (R500). -/
def execPendingClaimLapse (s : State) : Out :=
  match s.host.claim with
  | some c => let s := reach s c.until_
              .next { s with host := { s.host with claim := none } }
  | none => .next s

/-- OWNER_LEASE_EXPIRY (R500). -/
def execOwnerLeaseExpiry (s : State) : Out :=
  if s.host.owner.isSome then .next (passOwnership (reach s s.host.leaseEnd)) else .next s

/-! ### Attestation (R543, R544) -/

/-- The header of a report (R543). -/
def reportHeader (s : State) (nonce : Digest) : Nat :=
  let m (k : Nat) : Nat := (nth s.sec.meas k 0).toNat
  pack ([(4064, 32, 0x41545354), (4048, 16, 1), (4040, 8, devCode s.dev.state), (3968, 64, s.dev.product.serial), (3904, 64, rw s 0x300001),
    (3648, 256, nonce.toNat)] ++ ((upto 8).map fun k => (3392 - 256 * k, 256, m k)) ++
    [(1344, 256, (ledgerDigest s.ledger).toNat), (1312, 32, read1100 s 2), (1280, 32, read1100 s 1), (1248, 32, read1100 s 3), (1216, 32, read1100 s 4),
    (1184, 32, read1100 s 5), (1176, 8, nth s.sec.svns 0 0), (1168, 8, nth s.sec.svns 1 0), (1160, 8, nth s.sec.svns 2 0), (1128, 32, secConfig s),
    (1064, 64, optime s), (1032, 32, s.clk.pcycle), (968, 64, s.steps.committed)])

/-- What stands against a request: a report is being built. -/
def attestOwn (s : State) : Nat := if s.sec.attState = 1 then 6 else 0

/-- The snapshot is taken. -/
def attestStarts (nonce : Nat) (s : State) : State :=
  let n : Digest := BitVec.ofNat 256 nonce
  { s with sec := { s.sec with attState := 1, attNonce := n, reportNext := toBytes 512 (reportHeader s n) } }

/-- ATTESTATION_REQUEST. -/
def execAttestationRequest (src : Src) (nonce : Digest) (s : State) : Out :=
  .next (hostCommand s src 0xA00020 32 nonce.toNat (attestOwn s) (attestStarts nonce.toNat))

/-- The report of a header: header, digest of the identity key, signature. -/
def reportOf (c : Sec) (header : List Byte) : List Byte :=
  header ++ digestBytes c.identity ++ toBytes 1280 (Config.signature c.identity (shake256 header)).toNat

/-- ATTESTATION_DONE. -/
def execAttestationDone (s : State) : Out :=
  if s.sec.attState = 1 then
    .next { s with sec := { s.sec with attState := 2, report := reportOf s.sec s.sec.reportNext, reportNext := [] } }
  else .next s

/-- What stands against an export of the report. -/
def reportOwn (s : State) (off : Nat) : Nat := firstReason [
  (decide (off % 4096 ≠ 0) || decide (off + 1824 > 2 ^ 36), 5),
  (decide (s.sec.attState ≠ 2) || stageAway s off 1824 || hbmDark s, 6)]

/-- The report is written into the aperture. -/
def reportOut (off : Nat) (s : State) : State := moduleStages s off s.sec.report

/-- REPORT_EXPORT. -/
def execReportExport (src : Src) (offset : BitVec 64) (s : State) : Out :=
  .next (hostCommand s src 0xA00024 8 offset.toNat (reportOwn s offset.toNat) (reportOut offset.toNat))

/-! ### Credentials (R531, R532) -/

/-- Fields of an install request. -/
def credOffset (v : Nat) : Nat := fld v 127 64
def credSlot (v : Nat) : Nat := fld v 3 0

/-- Does some slot but `i` carry OWNER? -/
def otherOwner (s : State) (i : Nat) : Bool := (upto 8).any fun k => decide (k ≠ i) && (credAt s k).valid && (credAt s k).owner

/-- What stands against an install (R532): a slot or range that is none; for the first OWNER key the state and the attribute; a
replacement that leaves no OWNER; bytes that cannot be read. -/
def installOwn (s : State) (v : Nat) : Nat := firstReason [
  (decide (credSlot v > 7) || decide (credOffset v + 1793 > 2 ^ 36), 5),
  (!anyOwner s && !(readyOrTest s && v.testBit 5), 6),
  (!v.testBit 5 && !otherOwner s (credSlot v), 6),
  (stageBad s (credOffset v) 1793, 6)]

/-- The slot that the present owner claimed with changes: ownership passes as on expiry (R532). -/
def slotTouched (s : State) (i : Nat) : State := if s.host.owner.isSome && s.host.ownerSlot = i then passOwnership s else s

/-- The key is installed, with its digest and attributes. -/
def installed (v : Nat) (s : State) : State :=
  let c : Cred := { valid := true, key := shake256 (memTake s.staging (credOffset v) 1793), owner := v.testBit 5, power := v.testBit 6,
                    convert := v.testBit 7, debug := v.testBit 8 }
  let s := emit s (.snoop (credOffset v))
  configChanged (slotTouched { s with sec := { s.sec with creds := updN s.sec.creds (credSlot v) fun _ => c } } (credSlot v))

/-- CREDENTIAL_INSTALL. -/
def execCredentialInstall (src : Src) (req : BitVec 128) (s : State) : Out :=
  .next (hostCommand s src 0xA00048 16 req.toNat (installOwn s req.toNat) (installed req.toNat))

/-- What stands against a removal. -/
def removeOwn (s : State) (slot : Nat) : Nat := if otherOwner s slot then 0 else 6

/-- The slot is cleared. -/
def removed (slot : Nat) (s : State) : State :=
  configChanged (slotTouched { s with sec := { s.sec with creds := updN s.sec.creds slot fun _ => {} } } slot)

/-- CREDENTIAL_REMOVE. -/
def execCredentialRemove (src : Src) (slot : BitVec 8) (s : State) : Out :=
  .next (hostCommand s src 0xA00049 1 slot.toNat (removeOwn s slot.toNat) (removed slot.toNat))

/-! ### Debug unlock (R537) -/

/-- What a debug token signs. -/
def debugDigest (s : State) : Digest := shake256 (ascii ['W', 'N', '-', 'D', 'E', 'B', 'U', 'G'] ++ toBytes 8 s.dev.product.serial ++ toBytes 8 s.sec.debugNonce.toNat)

/-- Is the token one of a slot that carries DEBUG? -/
def tokenOk (s : State) (token : Sig) : Bool :=
  s.sec.creds.toList.any (fun c => c.valid && c.debug && decide (c.key = token.key)) && decide (token.msg = debugDigest s)

/-- What stands against a debug unlock: 9 a token that does not verify. -/
def unlockOwn (s : State) (v : Nat) (token : Sig) : Nat := firstReason [
  (decide (fld v 127 64 + fld v 31 0 > 2 ^ 36), 5),
  (!readyOrTest s || stageBad s (fld v 127 64) (fld v 31 0), 6),
  (decide (fld v 31 0 ≠ 1280) || !tokenOk s token, 9)]

/-- Debug is unlocked until the next module reset; UNLOCK_SEEN stays until power-up. -/
def unlock (s : State) : State := configChanged (newDebugNonce { s with sec := { s.sec with unlocked := true, unlockSeen := true } })

/-- A debug unlock: the token is read from the aperture behind a snoop (19 R494), and a refused one is a security event too (0xA000.52). -/
def unlockCommand (s : State) (src : Src) (v : Nat) (token : Sig) : State :=
  let own := unlockOwn s v token
  let judged := (door s src).isNone && decide (writeReason s src 0xA00050 16 v own = own)
  let refused := judged && decide (own = 9)
  let read := judged && (decide (own = 0) || (refused && decide (fld v 31 0 = 1280)))
  let s := if read then emit s (.snoop (fld v 127 64)) else s
  hostCommand (if refused then securityEvent s else s) src 0xA00050 16 v own unlock

/-- DEBUG_UNLOCK_REQUEST. -/
def execDebugUnlockRequest (src : Src) (req : BitVec 128) (token : Sig) (s : State) : Out := .next (unlockCommand s src req.toNat token)

/-! ### Blinkers (R539 to R541) -/

/-- Do two windows overlap in guest addresses? -/
def winsMeet (a b : Nat) : Bool :=
  decide (0 < winBytes a) && decide (0 < winBytes b) && decide (winBase a < winBase b + winBytes b) && decide (winBase b < winBase a + winBytes a)

/-- Does an enabled window meet another enabled one of its DIR? -/
def winClash (s : State) (i w : Nat) : Bool :=
  winOn w && (upto 16).any fun k => decide (k ≠ i) && winOn (winAt s k) && decide (winDir (winAt s k) = winDir w) && winsMeet (winAt s k) w

/-- What stands against a window write: alignment of its fields, its place, and NDS9-768L, which refuses it. -/
def windowOwn (s : State) (i w : Nat) : Nat := firstReason [
  (decide (winBase w % 4096 ≠ 0) || decide (winOff w % 4096 ≠ 0), 4),
  (decide (winOff w + winBytes w > 2 ^ 36) || winClash s i w, 5),
  (!guestPart s, 6)]

/-- The digest of the sixteen windows (R527). -/
def windowsDigest (s : State) : Digest := shake256 ((upto 16).flatMap fun k => toBytes 32 (winAt s k))

/-- A window is written, and M7 extended. -/
def windowWritten (i w : Nat) (s : State) : State :=
  let s := putValue s (0xB00010 + i) w
  { s with sec := { s.sec with meas := updN s.sec.meas 7 fun m => extend m (windowsDigest s) } }

/-- BLINKERS_WINDOW_WRITE. -/
def execBlinkersWindowWrite (src : Src) (w : Fin 16) (value : BitVec 256) (s : State) : Out :=
  .next (hostCommand s src (0xB00010 + w.val) 32 value.toNat (windowOwn s w.val value.toNat) (windowWritten w.val value.toNat))

/-- Blinkers control: PASS in TEST only (R541), and not on NDS9-768L. -/
def passOwn (s : State) : Nat := if guestPart s && s.dev.state = .test then 0 else 6

/-- A write of blinkers control shows in 0xA000.01. -/
def passWritten (value : Nat) (s : State) : State := configChanged (putValue s 0xB00001 value)

/-- The staging offset a request reaches, or the cause of its denial: 1 no window, 2 permission (R540). PASS admits it to the staging
region by its own address (R541). -/
def guestJudged (s : State) (addr n : Nat) (write : Bool) : Except Nat Nat :=
  let ws := windowsFor s false addr n
  match ws.find? fun w => w.testBit (if write then 2 else 1) with
  | some w => .ok (addr - winBase w + winOff w)
  | none =>
    if (rw s 0xB00001).testBit 0 && decide (addr + n ≤ 2 ^ 36) then .ok addr
    else .error (if ws.isEmpty then 1 else 2)

/-- A guest's request is denied: a read completes with Unsupported Request, a write is dropped (R540). -/
def guestDenied (s : State) (addr cause : Nat) (write : Bool) : State :=
  let s := denied s addr cause write
  if write then s else emit s (.guestData [] false)

/-- A passed request: it reads or writes the aperture, or meets a partition in reset (R540, 01 R29). -/
def guestPassed (s : State) (off n : Nat) (write : Option (List Byte)) : State :=
  if stageAway s off n then emit s (.errorReply 10 [.guest])
  else match write with
    | some bs => moduleStages s off bs
    | none => emits s [.snoop off, .guestData (memTake s.staging off n) true]

/-- GUEST_REQUEST: from a guest die whose port domain PD47 is on. -/
def execGuestRequest (addr len : Nat) (write : Option (List Byte)) (s : State) : Out :=
  let n := (write.map List.length).getD len
  if !guestPart s || !s.domains.getLsbD 47 || n = 0 then .next s
  else match guestJudged s addr n write.isSome with
    | .ok off => .next (guestPassed s off n write)
    | .error cause => .next (guestDenied s addr cause write.isSome)

/-! ### Production test (22 R557 to R559) -/

/-- What a PT_ENTRY token signs. -/
def entryDigest (s : State) : Digest := shake256 (ascii ['W', 'N', '-', 'P', 'R', 'O', 'D', 'T', 'E', 'S', 'T'] ++ toBytes 8 s.dev.product.serial ++ toBytes 8 s.dev.prodNonce.toNat)

/-- PT_ENTRY: a valid token runs phases 1 to 5; an invalid one, or one before any HELLO has given a nonce, draws a new nonce. -/
def execPtEntry (sig : Sig) (s : State) : Out :=
  if !entryWaits s then .next s
  else if s.dev.prodHello && sig.key = s.sec.prodKey && sig.msg = entryDigest s then .next { s with dev := { s.dev with phase := 1 } }
  else .next (securityEvent (drawn { s with dev := { s.dev with prodNonce := drawnWord s } }))

/-- Fields of a production value write. -/
def prodSub (v : Nat) : Nat := fld v 23 16
def prodValue (v : Nat) : Nat := fld v 191 64

/-- Bytes of the production value that a sub-index of 0x1000 holds; none for the others (20 R515). -/
def prodSize : Nat → Option Nat
  | 1 => some 12
  | 2 => some 8
  | 3 => some 8
  | 4 => some 1
  | 5 => some 6
  | 6 => some 8
  | 9 => some 2
  | _ => none

/-- Is the value one that its entry can hold? -/
def prodFits (v : Nat) : Bool :=
  match prodSub v with
  | 1 => decide (prodValue v = partNumber true) || decide (prodValue v = partNumber false)
  | 4 => decide (prodValue v ≤ 1)
  | n => decide (prodValue v < 2 ^ (8 * (prodSize n).getD 0))

/-- What stands against a production value write. -/
def prodOwn (s : State) (v : Nat) : Nat := firstReason [
  (decide (fld v 15 0 ≠ 0x1000) || decide (prodSize (prodSub v) ≠ some (fld v 31 24)) || !prodFits v, 5),
  (!s.dev.prodTest, 6)]

/-- The production values with one written. The part number and the presence value are what 0x1000 reports; neither makes the hardware
another part (00 R3). -/
def prodWith (p : Product) (sub value : Nat) : Product :=
  match sub with
  | 1 => { p with partG := decide (value = partNumber true) }
  | 2 => { p with serial := value }
  | 3 => { p with pkgSerial := value }
  | 4 => { p with guestSeen := decide (value = 1) }
  | 5 => { p with mac := value }
  | 6 => { p with guestId := value }
  | 9 => { p with boardIssue := value }
  | _ => p

/-- A production value is written. -/
def prodWritten (v : Nat) (s : State) : State :=
  configChanged { s with dev := { s.dev with product := prodWith s.dev.product (prodSub v) (prodValue v) } }

/-- PRODUCTION_VALUE_WRITE. -/
def execProductionValueWrite (src : Src) (req : BitVec 192) (s : State) : Out :=
  .next (hostCommand s src 0xC00010 24 req.toNat (prodOwn s req.toNat) (prodWritten req.toNat))

/-- What stands against a ledger reset. -/
def ledgerOwn (s : State) (value : Nat) : Nat := firstReason [
  (decide (value ≠ 1), 4),
  (!s.dev.prodTest || decide (s.dev.product.pkgSerial = s.ledger.pkgSerial), 6)]

/-- The ring, the kept region and the summary table are empty, and the new package serial is recorded. -/
def ledgerEmptied (s : State) : State :=
  { s with ledger := { s.ledger with ring := [], kept := [], summary := [], older := [], classed := [], pkgSerial := s.dev.product.pkgSerial },
           dev := { s.dev with ledgerRst := true } }

/-- LEDGER_RESET. -/
def execLedgerReset (src : Src) (value : BitVec 8) (s : State) : Out :=
  .next (hostCommand s src 0xC00011 1 value.toNat (ledgerOwn s value.toNat) ledgerEmptied)

/-- What stands against a fuse write. -/
def fuseOwn (s : State) : Nat := if s.dev.prodTest then 0 else 6

/-- A fuse group is programmed: a fuse that is blown stays blown. -/
def fused (v : Nat) (s : State) : State :=
  let g := fld v 7 0
  { s with dev := { s.dev with fuses := assocSet s.dev.fuses g (((assoc? s.dev.fuses g).getD 0) ||| fld v 127 64), fused := true } }

/-- FUSE_PROGRAM. -/
def execFuseProgram (src : Src) (req : BitVec 128) (s : State) : Out :=
  .next (hostCommand s src 0xC00012 16 req.toNat (fuseOwn s) (fused req.toNat))

end Sys2Proof.Machine
end

