-- ==== Sys2Proof/Machine/HostPort.lean ====
section
/-! DEFINITION. Reads and writes of every dictionary entry, the standard mailbox commands, persistence, the fence commands, and an
ostler that is ready again and serves what waited (18 R468, R470; 19 R490, R491; 20 R509, R510, R516 to R519; 11 R303; 15 R425). -/

namespace Sys2Proof.Machine

/-! ### Fence commands (11 R303, 15 R425) -/

/-- The direction of the neighbour in the block at a coordinate. -/
def neighbourAt (s : State) (coord : Nat) : Option Dir :=
  allDirs.find? fun d => stepInBlock s (ownCoord s) d && decide (stepCoord s (ownCoord s) d = coord)

/-- What stands against a fence command: no neighbour in the block there; not in a job. -/
def fenceOwn (s : State) (coord : Nat) : Nat := firstReason [((neighbourAt s coord).isNone, 5), (!inJob s, 6)]

/-- The fence is proposed with reason 6. -/
def fenceAct (coord : Nat) (s : State) : State :=
  match neighbourAt s coord with
  | some d => proposeNeighbour s d 6
  | none => s

/-- FENCE_COMMAND (15 R411, R425). -/
def execFenceCommand (src : Src) (coord : BitVec 32) (s : State) : Out :=
  .next (hostCommand s src 0x84000E 4 coord.toNat (fenceOwn s coord.toNat) (fenceAct coord.toNat))

/-- Would a fence of link `l` leave its direction with fewer than two in-service links (11 R303)? -/
def fenceThins (s : State) (l : Nat) : Bool :=
  decide (((dirLinks s (linkDir s l)).filter fun k => decide (k ≠ l)).length < 2)

/-- What stands against a link fence command. -/
def linkFenceOwn (s : State) (l : Nat) : Nat := if s.dev.state = .boot || fenceThins s l then 6 else 0

/-- The link is fenced with cause 4. -/
def linkFenceAct (l : Nat) (s : State) : State := fenceLink s l 4

/-- LINK_FENCE_COMMAND (11 R302, R303). -/
def execLinkFenceCommand (src : Src) (value : BitVec 8) (s : State) : Out :=
  .next (hostCommand s src 0x30000A 1 value.toNat (linkFenceOwn s value.toNat) (linkFenceAct value.toNat))

/-! ### Restore defaults (20 R519) -/

/-- What stands against restore defaults. -/
def defaultsOwn (s : State) (value : Nat) : Nat := firstReason [(decide (value ≠ 1), 4), (!(readyOrTest s && allEmpty s), 6)]

/-- Every RWP entry of areas 0x1000 to 0x9FFF returns to its default; PENDING is set. -/
def defaultsTaken (s : State) : State :=
  { s with dict := { s.dict with vals := s.dict.vals.filter fun v => !(isRwp v.1 && decide (v.1 < 0xA00000)), pendingW := true,
                                 again := s.dict.again || s.dict.writing.isSome } }

/-- RESTORE_DEFAULTS. -/
def execRestoreDefaults (src : Src) (value : BitVec 8) (s : State) : Out :=
  .next (hostCommand s src 0x20000B 1 value.toNat (defaultsOwn s value.toNat) defaultsTaken)

/-! ### What each entry's own rule says of a write -/

/-- A context command that names no command is a reserved value (07 R187). -/
def ctxOwn (s : State) (value : Nat) : Nat :=
  let c := value % 16
  match value / 16 with
  | 1 => startOwn s c
  | 2 => haltOwn s c
  | 3 => resumeOwn s c
  | 4 => unloadOwn s c
  | _ => 4

/-- The effect of a context command. -/
def ctxAct (value : Nat) (s : State) : State :=
  let c := value % 16
  match value / 16 with
  | 1 => startCtx c s
  | 2 => ownerHalt c s
  | 3 => resumeCtx c s
  | 4 => unloadCtx c s
  | _ => s

/-- Reason 5 where a value breaks a rule of its range. -/
def inRange (ok : Bool) : Nat := if ok then 0 else 5

/-- Does a coordinate lie inside a shape word (11 R290)? -/
def inShape (c shape : Nat) : Bool := [0, 1, 2].all fun a => decide (coordOn c a ≤ coordOn shape a)

/-- Is a shape one the entry accepts: X size 1 to 17, own coordinates and spare position inside (11 R290)? -/
def shapeOk (s : State) (shape : Nat) : Bool :=
  decide (coordOn shape 0 ≤ 16) && inShape (rw s 0x300002) shape && (decide (rw s 0x300006 = 31) || decide (rw s 0x300006 ≤ coordOn shape 0))

/-- Is a ratio one the entry accepts (11 R287)? -/
def ratioOk (v : Nat) : Bool :=
  let n := [0, 1, 2].map (ratioCount v)
  decide (n.sum = 24) && n.all fun k => decide (2 ≤ k) && decide (k ≤ 20)

/-- Does a job block fit the shape and hold the module's own coordinates (11 R292)? -/
def blockOk (s : State) (v : Nat) : Bool :=
  [1, 2].all fun a =>
    let size := sizeOn s a
    let org := fld v (9 + 5 * a) (5 + 5 * a)
    let len := fld v (19 + 5 * a) (15 + 5 * a) + 1
    decide (len ≤ size) && decide (org < size) && decide ((coordOn (ownCoord s) a + size - org) % size < len)

/-- The rules of the entries from 0x8000 on; an entry that is not named has none beyond the catalogue's. -/
def condHigh (s : State) (key value : Nat) : Nat :=
  match key with
  | 0x800020 => gallopOwn s value
  | 0x84000E => fenceOwn s value
  | 0x84000F => escalationOwn s value
  | 0x900001 => updateOwn s value
  | 0x90000A => ostlerOwn s value
  | 0x910023 => dumpOwn s value
  | 0xA00020 => attestOwn s
  | 0xA00024 => reportOwn s value
  | 0xA00048 => installOwn s value
  | 0xA00049 => removeOwn s value
  | 0xB00001 => passOwn s
  | 0xC00010 => prodOwn s value
  | 0xC00011 => ledgerOwn s value
  | 0xC00012 => fuseOwn s
  | k => if 0xB00010 ≤ k ∧ k ≤ 0xB0001F then windowOwn s (k - 0xB00010) value else 0

/-- What the rule of an entry says of a value, beyond reserved fields and range: 0 nothing. -/
def condOf (s : State) (key value : Nat) : Nat :=
  match key with
  | 0x120010 => inRange (decide (value ≤ 7) || decide (value = 0xFF))
  | 0x200002 => stateOwn s value
  | 0x20000B => defaultsOwn s value
  | 0x210002 => if value = 0 then 4 else 0
  | 0x210010 => loadOwn s (BitVec.ofNat 128 value)
  | 0x210030 => ctxOwn s value
  | 0x210050 => inRange (decide (value % 4096 = 0))
  | 0x210051 => inRange (decide (value % 4096 = 0))
  | 0x210052 => inRange (decide (rw s 0x210006 + 2 ≤ value))
  | 0x300002 => inRange (inShape value (rw s 0x300005))
  | 0x300003 => inRange (ratioOk value)
  | 0x300005 => inRange (shapeOk s value)
  | 0x300006 => inRange (decide (value = 31) || decide (value ≤ coordOn (rw s 0x300005) 0))
  | 0x30000A => linkFenceOwn s value
  | 0x30000B => inRange (blockOk s value)
  | 0x40000D => clearOwn value
  | 0x40000E => if value ≤ 20 then 0 else 4
  | 0x500040 => sharesOwn value
  | 0x600003 => inRange (decide (value ≤ rw s 0x600004))
  | 0x60000A => markOwn value
  | 0x600012 => retainOwn s value
  | 0x600013 => releaseOwn value
  | 0x600018 => restoreOwn s (BitVec.ofNat 128 value)
  | 0x60001A => exportOwn s (BitVec.ofNat 128 value)
  | 0x700002 => leaseOwn value
  | k => if 0x600020 ≤ k ∧ k ≤ 0x600027 then (if fld value 127 64 % 4096 = 0 then 0 else 4) else condHigh s k value

/-! ### What an accepted write does -/

/-- Effects from 0x8000 on. -/
def effectHigh (key value : Nat) : State → State :=
  match key with
  | 0x800020 => gallopAct value
  | 0x84000E => fenceAct value
  | 0x84000F => historiesCleared
  | 0x900001 => updateStarts value
  | 0x900004 => activateAct value
  | 0x90000A => ostlerAct value
  | 0x910023 => dumpStarts value
  | 0xA00020 => attestStarts value
  | 0xA00024 => reportOut value
  | 0xA00048 => installed value
  | 0xA00049 => removed value
  | 0xB00001 => passWritten value
  | 0xC00010 => prodWritten value
  | 0xC00011 => ledgerEmptied
  | 0xC00012 => fused value
  | k => if 0xB00010 ≤ k ∧ k ≤ 0xB0001F then windowWritten (k - 0xB00010) value else fun s => putValue s k value

/-- The effect of an accepted write of each entry: a command's own, else the entry takes the value. -/
def effectOf (src : Src) (key value : Nat) : State → State :=
  match key with
  | 0x200002 => stateAct value
  | 0x20000B => defaultsTaken
  | 0x210010 => loadStarts src (BitVec.ofNat 128 value)
  | 0x210030 => ctxAct value
  | 0x30000A => linkFenceAct value
  | 0x40000D => clearCounters
  | 0x500001 => migrationSet value
  | 0x500040 => sharesWritten value
  | 0x60000A => raiseMark
  | 0x600012 => retainStarts value
  | 0x600013 => releaseArea value
  | 0x600018 => restoreStarts (BitVec.ofNat 128 value)
  | 0x60001A => exportStarts (BitVec.ofNat 128 value)
  | 0x700002 => leaseWritten value
  | k => effectHigh k value

/-- A write of any entry. A debug unlock takes its token from the staged bytes. -/
def writeEntry (s : State) (src : Src) (key size value : Nat) : State :=
  if key = 0xA00050 then
    if size ≠ 16 then hostCommand s src key size value 0 fun s => s
    else
      let t := Config.signed (memTake s.staging (fld value 127 64) 1280)
      unlockCommand s src value { key := t.1, msg := t.2 }
  else hostCommand s src key size value (condOf s key value) (effectOf src key value)

/-- DICT_WRITE (20 R509, R513): a body carries SIZE bytes of VALUE. -/
def execDictWrite (src : Src) (index sub size value : Nat) (s : State) : Out :=
  if index ≥ 65536 || sub ≥ 256 then .next s else .next (writeEntry s src (keyOf index sub) size (value % 2 ^ (8 * size)))

/-! ### Reads (19 R490, 20 R510) -/

/-- Does the entry show a sensor that no command carries (log 4)? -/
def freeReading (index sub : Nat) : Bool := (decide (index = 0x7000) && decide (sub = 0x31)) || (decide (index = 0x7400) && decide (sub = 0x1A))

/-! ### The management port (19 R496) -/

/-- The PLCA node ID in force, 1 to 7; none where the port uses CSMA/CD. -/
def plcaNode (s : State) : Option Nat := if s.host.plcaId = 0xFF then none else some s.host.plcaId

/-- The module's IPv6 address: link-local, by modified EUI-64 from the MAC address, whose first octet is the entry's lowest byte. -/
def portAddress (s : State) : Nat :=
  let m (k : Nat) : Nat := fld s.dev.product.mac (8 * k + 7) (8 * k)
  0xFE80 * 2 ^ 112 + pack [(56, 8, m 0 ^^^ 2), (48, 8, m 1), (40, 8, m 2), (24, 16, 0xFFFE), (16, 8, m 3), (8, 8, m 4), (0, 8, m 5)]

/-- The UDP port of Halter. -/
def halterPort : Nat := 47210

/-- Where the dictionary window places an entry, and the entry at an offset (20 R506). -/
def windowOffset (index sub : Nat) : Nat := index * 16384 + sub * 64
def windowSlot (off : Nat) : Nat × Nat := (off / 16384, off % 16384 / 64)

/-- DICT_READ: the window gives the value and has no other effect; on the mailbox and Halter an entry that is not implemented has STATUS 3. -/
def execDictRead (src : Src) (index sub : Nat) (s : State) : Out :=
  match door s src with
  | some t => .next t
  | none =>
    let v := readEntry s index sub
    let s := if freeReading index sub then drawn s else s
    if src.path = .window then .next (emit s (.window (windowOffset index sub) v))
    else match entryOf index sub with
      | none => .next (reply s src 0x10 3 0 (dictBody index sub 0 0))
      | some e => .next (accepted s src 0x10 v (dictBody index sub e.size v))

/-! ### The standard mailbox commands (19 R491) -/

/-- A mailbox completion with vector 0 (19 R488). -/
def mailboxDone (s : State) (status value : Nat) : State := { s with host := { s.host with reply := some (status, value), msix0 := s.host.msix0 + 1 } }

/-- MAILBOX_IDENTIFY. -/
def execMailboxIdentify (s : State) : Out :=
  if cxlUp s then .next (mailboxDone (renewLease s 0) 0 (Config.identifyPayload (BitVec.ofNat 64 s.dev.product.serial)).toNat) else .next s

/-- MAILBOX_GET_SUPPORTED_LOGS. -/
def execMailboxGetSupportedLogs (s : State) : Out := if cxlUp s then .next (mailboxDone (renewLease s 0) 0 Config.supportedLogs.toNat) else .next s

/-- The opcodes that the mailbox implements (19 R491, R498). -/
def mailboxHas (op : Nat) : Bool := op = 1 || op = 0x400 || (decide (0xC001 ≤ op) && decide (op ≤ 0xC006))

/-- MAILBOX_UNSUPPORTED_OPCODE: the standard's return code Unsupported, shown as 0x10003 beside the operations' STATUS (PRESUMED, log 31). -/
def execMailboxUnsupportedOpcode (opcode : BitVec 16) (s : State) : Out :=
  if cxlUp s && !mailboxHas opcode.toNat then .next (mailboxDone s 0x10003 0) else .next s

/-! ### Persistence (20 R516 to R518) -/

/-- A generation of every RWP value in force starts. -/
def genStarts (s : State) : State :=
  let g : Gen := { number := max s.dict.copyA.number s.dict.copyB.number + 1, valid := true, image := keepRwp s.dict.vals }
  { s with dict := { s.dict with writing := some g, again := false, lastStart := s.clk.now } }

/-- May the Farrier write: running, not writing, and in a power-down only a generation that can complete in its 150 ms, which is free (20 R517)? -/
def mayPersist (s : State) : Bool := farrierUp s && s.dict.writing.isNone && (!s.dev.down.any (fun d => !d.reset) || Config.genFits s.free)

/-- PERSIST_GENERATION_START: with PENDING, 100 ms after the last start (R516). -/
def execPersistGenerationStart (s : State) : Out :=
  if mayPersist s && s.dict.pendingW && !s.dict.failed then
    .next (genStarts (if s.dict.lastStart = 0 then s else reach s (s.dict.lastStart + 100000000)))
  else .next s

/-- PERSIST_GENERATION_DONE (R516, R518). -/
def execPersistGenerationDone (ok : Bool) (s : State) : Out :=
  match s.dict.writing with
  | none => .next s
  | some g =>
    if s.fw.farrierDown then .next s
    else if ok then
      let d := onOlder s.dict fun _ => g
      .next { s with dict := { d with writing := none, gen := g.number, failed := false, defaulted := false, pendingW := d.again, again := false } }
    else
      let d := onOlder s.dict fun x => { x with valid := false }
      .next { s with dict := { d with writing := none, failed := true } }

/-- PERSIST_RETRY: 1 s after a failed generation (R518). -/
def execPersistRetry (s : State) : Out :=
  if mayPersist s && s.dict.failed then .next (genStarts (reach s (s.dict.lastStart + 1000000000))) else .next s

/-! ### An ostler ready again (18 R467, R468, R470) -/

/-- A host's request that waited is judged by its entry's condition now, carried out, and answered. -/
def servedHost (s : State) (src : Src) (key value : Nat) : State :=
  let why := condOf s key value
  if why ≠ 0 then illegal s src 0x11 why (key / 256) (key % 256) else reply (effectOf src key value s) src 0x11 0 0 []

/-- What a command answers, where it goes on. -/
def nextOr (s : State) (o : Out) : State :=
  match o with
  | .next t => t
  | .fault _ => s
  | .refused _ => s

/-- The commands of module hardware that wait for an ostler (R467, R470), as they act once it is ready. -/
def servedUnit (s : State) (c : Instr) : State :=
  match c with
  | .gallopCellComplete failed => nextOr s (execGallopCellComplete failed s)
  | .partitionBringupStepDone p r => nextOr s (execPartitionBringupStepDone p r s)
  | .coreProbeDone g ok => nextOr s (execCoreProbeDone g ok s)
  | .coreProbeTimeout g => nextOr s (execCoreProbeTimeout g s)
  | .coreResetDone g => nextOr s (execCoreResetDone g s)
  | .discoveryRecordReceived l r => nextOr s (execDiscoveryRecordReceived l r s)
  | .takeoverDone ok tensors recs => nextOr s (execTakeoverDone ok tensors recs s)
  | .linkLockTimeout l => nextOr s (execLinkLockTimeout l s)
  | .linkTrainingRetry l => nextOr s (execLinkTrainingRetry l s)
  | _ => s

/-- A request that waited is served. -/
def served (s : State) (q : OstlerReq) : State :=
  match q with
  | .host src key value => servedHost s src key value
  | .unit c => servedUnit s c
  | .fence l cause => fenceLink s l cause
  | .transfers => if s.recov.role = .taking || s.recov.refills &&& s.dev.inService ≠ 0 then tells s (pulls s) else s
  | .held dest => if isMirror s then sendHeldNow s dest else s
  | .rebuild => if s.recov.role = .working && hasMirror s then sendRebuildNow s else s

/-- What waited for a partition's ostler: a core's gating (18 R467). -/
def ostlerResumes (s : State) (o : Nat) : State := if o ≥ 4 then quarantinesEnd s (o - 4) else s

/-- OSTLER_READY. -/
def execOstlerReady (o : Fin 12) (s : State) : Out :=
  let k := ostlerAt s o.val
  if k.state = 2 then
    let reqs := k.queue ++ (s.fw.held.filter fun h => h.1 = o.val).map (·.2)
    let s := drawn (onOstler s o.val fun k => { k with state := 0, readyAt := some s.clk.now, queue := [], contents := s.free })
    let s := { s with fw := { s.fw with held := s.fw.held.filter fun h => h.1 ≠ o.val } }
    .next (reqs.foldl served (ostlerResumes s o.val))
  else .next s

end Sys2Proof.Machine
end

