-- ==== Sys2Proof/Machine/Dispatch.lean ====
section
/-! DEFINITION. One arm per command: the meaning it calls, or its rejection by name. -/

namespace Sys2Proof.Machine

/-- The effect of a command on everything but the queue. -/
def exec (i : Instr) (s : State) : Host.Outcome State Fault Refusal :=
  match i with
  | .pwrEnAssert inputMv prodEntry => Sys2Proof.Machine.execPwrEnAssert inputMv prodEntry s
  | .pwrEnDeassert => Sys2Proof.Machine.execPwrEnDeassert s
  | .inputUndervoltage => Sys2Proof.Machine.execInputUndervoltage s
  | .powerDownStepDone => Sys2Proof.Machine.execPowerDownStepDone s
  | .inputFetOpen inputMv => Sys2Proof.Machine.execInputFetOpen inputMv s
  | .bootPhaseDone badImages => Sys2Proof.Machine.execBootPhaseDone badImages s
  | .partitionBringupStagger => Sys2Proof.Machine.execPartitionBringupStagger s
  | .partitionBringupStepDone p r => Sys2Proof.Machine.execPartitionBringupStepDone p r s
  | .selftestKernelDone core pclass digestOk => Sys2Proof.Machine.execSelftestKernelDone core pclass digestOk s
  | .stateEnterTest src => Sys2Proof.Machine.execStateEnterTest src s
  | .stateLeaveTest src => Sys2Proof.Machine.execStateLeaveTest src s
  | .moduleResetCommand src => Sys2Proof.Machine.execModuleResetCommand src s
  | .partitionResetCommand src p => Sys2Proof.Machine.execPartitionResetCommand src p s
  | .moduleResetHoldoffEnd => Sys2Proof.Machine.execModuleResetHoldoffEnd s
  | .partitionResetDelayEnd p => Sys2Proof.Machine.execPartitionResetDelayEnd p s
  | .perstNAssert => Sys2Proof.Machine.execPerstNAssert s
  | .perstNDeassert => Sys2Proof.Machine.execPerstNDeassert s
  | .d2dFlitReceived c seq flit crc => Sys2Proof.Machine.execD2dFlitReceived c seq flit crc s
  | .d2dTimeout requester far => Sys2Proof.Machine.execD2dTimeout requester far s
  | .taskDispatch ctx task => Sys2Proof.Machine.execTaskDispatch ctx task s
  | .queueRoomFreed ctx => Sys2Proof.Machine.execQueueRoomFreed ctx s
  | .mm core hw => Sys2Proof.Machine.execMm core hw s
  | .mmTa core hw => Sys2Proof.Machine.execMmTa core hw s
  | .mmTb core hw => Sys2Proof.Machine.execMmTb core hw s
  | .mmAcc core hw => Sys2Proof.Machine.execMmAcc core hw s
  | .attF core hw => Sys2Proof.Machine.execAttF core hw s
  | .attB core hw => Sys2Proof.Machine.execAttB core hw s
  | .ew core hw => Sys2Proof.Machine.execEw core hw s
  | .red core hw => Sys2Proof.Machine.execRed core hw s
  | .norm core hw => Sys2Proof.Machine.execNorm core hw s
  | .smax core hw => Sys2Proof.Machine.execSmax core hw s
  | .opt core hw => Sys2Proof.Machine.execOpt core hw s
  | .convFmt core hw => Sys2Proof.Machine.execConvFmt core hw s
  | .amax core hw => Sys2Proof.Machine.execAmax core hw s
  | .copy engine hw => Sys2Proof.Machine.execCopy engine hw s
  | .sig ctx => Sys2Proof.Machine.execSig ctx s
  | .wait ctx => Sys2Proof.Machine.execWait ctx s
  | .allReduce ctx others => Sys2Proof.Machine.execAllReduce ctx others s
  | .reduceScatter ctx members => Sys2Proof.Machine.execReduceScatter ctx members s
  | .allGather ctx members => Sys2Proof.Machine.execAllGather ctx members s
  | .send ctx => Sys2Proof.Machine.execSend ctx s
  | .recv ctx data => Sys2Proof.Machine.execRecv ctx data s
  | .barrier ctx => Sys2Proof.Machine.execBarrier ctx s
  | .signal ctx => Sys2Proof.Machine.execSignal ctx s
  | .pieceComplete core which => Sys2Proof.Machine.execPieceComplete core which s
  | .splitStallResume core => Sys2Proof.Machine.execSplitStallResume core s
  | .reexecIssue core err => Sys2Proof.Machine.execReexecIssue core err s
  | .checkPieceComplete core => Sys2Proof.Machine.execCheckPieceComplete core s
  | .arbiterComplete core finished => Sys2Proof.Machine.execArbiterComplete core finished s
  | .pieceWatchdogExpiry who => Sys2Proof.Machine.execPieceWatchdogExpiry who s
  | .checkWatchdogExpiry core => Sys2Proof.Machine.execCheckWatchdogExpiry core s
  | .sigTakesEffect ctx => Sys2Proof.Machine.execSigTakesEffect ctx s
  | .waitSatisfied ctx => Sys2Proof.Machine.execWaitSatisfied ctx s
  | .stepBoundary => Sys2Proof.Machine.execStepBoundary s
  | .batchHeaderPoll hdrStep filled => Sys2Proof.Machine.execBatchHeaderPoll hdrStep filled s
  | .batchFetchDone body => Sys2Proof.Machine.execBatchFetchDone body s
  | .verdictContribute => Sys2Proof.Machine.execVerdictContribute s
  | .syncUpFrame link frame => Sys2Proof.Machine.execSyncUpFrame link frame s
  | .syncDownFrame link frame => Sys2Proof.Machine.execSyncDownFrame link frame s
  | .replayDispatch => Sys2Proof.Machine.execReplayDispatch s
  | .syncLeavingFrame link frame => Sys2Proof.Machine.execSyncLeavingFrame link frame s
  | .syncStateFrame link frame => Sys2Proof.Machine.execSyncStateFrame link frame s
  | .syncIdleFrame link frame => Sys2Proof.Machine.execSyncIdleFrame link frame s
  | .idleFrameSend link => Sys2Proof.Machine.execIdleFrameSend link s
  | .syncLaneHeartbeatLoss link => Sys2Proof.Machine.execSyncLaneHeartbeatLoss link s
  | .bundleSilent d => Sys2Proof.Machine.execBundleSilent d s
  | .fenceProposalTimer d => Sys2Proof.Machine.execFenceProposalTimer d s
  | .fenceRecordReceived link rec => Sys2Proof.Machine.execFenceRecordReceived link rec s
  | .fenceFloodRepeat => Sys2Proof.Machine.execFenceFloodRepeat s
  | .fenceProxyAbort slot => Sys2Proof.Machine.execFenceProxyAbort slot s
  | .fenceRecordRequest slot => Sys2Proof.Machine.execFenceRecordRequest slot s
  | .fenceCommand src coord => Sys2Proof.Machine.execFenceCommand src coord s
  | .recoveryPatienceExpiry d => Sys2Proof.Machine.execRecoveryPatienceExpiry d s
  | .takeoverDone digestOk tensors recs => Sys2Proof.Machine.execTakeoverDone digestOk tensors recs s
  | .refillDone refill => Sys2Proof.Machine.execRefillDone refill s
  | .mirrorStreamReceived step rebuild tensors recs => Sys2Proof.Machine.execMirrorStreamReceived step rebuild tensors recs s
  | .mirrorAckReceived step => Sys2Proof.Machine.execMirrorAckReceived step s
  | .mirrorRebuildDone => Sys2Proof.Machine.execMirrorRebuildDone s
  | .moduleStatePieceReceived cut piece => Sys2Proof.Machine.execModuleStatePieceReceived cut piece s
  | .linkFlitReceived link hdr payload crc codewords ack => Sys2Proof.Machine.execLinkFlitReceived link hdr payload crc codewords ack s
  | .linkNakReceived link lastGood => Sys2Proof.Machine.execLinkNakReceived link lastGood s
  | .errorReturnReceived link flit => Sys2Proof.Machine.execErrorReturnReceived link flit s
  | .signalArrival ctx group step attempt => Sys2Proof.Machine.execSignalArrival ctx group step attempt s
  | .laneLossOfLock link lane => Sys2Proof.Machine.execLaneLossOfLock link lane s
  | .laneErrorWindow link lane errors symbols => Sys2Proof.Machine.execLaneErrorWindow link lane errors symbols s
  | .ctleReevaluation link lane => Sys2Proof.Machine.execCtleReevaluation link lane s
  | .linkTrainingDone link latencyNs => Sys2Proof.Machine.execLinkTrainingDone link latencyNs s
  | .linkLockTimeout link => Sys2Proof.Machine.execLinkLockTimeout link s
  | .linkTrainingRetry link => Sys2Proof.Machine.execLinkTrainingRetry link s
  | .discoveryRecordSend link => Sys2Proof.Machine.execDiscoveryRecordSend link s
  | .discoveryRecordReceived link rec => Sys2Proof.Machine.execDiscoveryRecordReceived link rec s
  | .linkFenceCommand src value => Sys2Proof.Machine.execLinkFenceCommand src value s
  | .epochMarkEdge highNs => Sys2Proof.Machine.execEpochMarkEdge highNs s
  | .epochMarkCommand src => Sys2Proof.Machine.execEpochMarkCommand src s
  | .captureStart => Sys2Proof.Machine.execCaptureStart s
  | .capturePiecesDone cut => Sys2Proof.Machine.execCapturePiecesDone cut s
  | .manifestDurable cut => Sys2Proof.Machine.execManifestDurable cut s
  | .lehrWriteError cut => Sys2Proof.Machine.execLehrWriteError cut s
  | .poolWriteError cut => Sys2Proof.Machine.execPoolWriteError cut s
  | .retainCommand src cut => Sys2Proof.Machine.execRetainCommand src cut s
  | .retainCopyDone => Sys2Proof.Machine.execRetainCopyDone s
  | .releaseCommand src area => Sys2Proof.Machine.execReleaseCommand src area s
  | .restoreRequest src req => Sys2Proof.Machine.execRestoreRequest src req s
  | .restoreDone readError badPiece => Sys2Proof.Machine.execRestoreDone readError badPiece s
  | .exportRequest src req => Sys2Proof.Machine.execExportRequest src req s
  | .exportDone ok => Sys2Proof.Machine.execExportDone ok s
  | .programLoadRequest src req => Sys2Proof.Machine.execProgramLoadRequest src req s
  | .programLoadDone => Sys2Proof.Machine.execProgramLoadDone s
  | .contextStart src ctx => Sys2Proof.Machine.execContextStart src ctx s
  | .contextHalt src ctx => Sys2Proof.Machine.execContextHalt src ctx s
  | .contextResume src ctx => Sys2Proof.Machine.execContextResume src ctx s
  | .contextUnload src ctx => Sys2Proof.Machine.execContextUnload src ctx s
  | .unloadComplete ctx => Sys2Proof.Machine.execUnloadComplete ctx s
  | .counterClear src => Sys2Proof.Machine.execCounterClear src s
  | .migrationPlanReady moves => Sys2Proof.Machine.execMigrationPlanReady moves s
  | .migrationCopyDone ctx tensor => Sys2Proof.Machine.execMigrationCopyDone ctx tensor s
  | .migrationEnableWrite src => Sys2Proof.Machine.execMigrationEnableWrite src s
  | .replacementDone fits part => Sys2Proof.Machine.execReplacementDone fits part s
  | .regulatorSharesWrite src value => Sys2Proof.Machine.execRegulatorSharesWrite src value s
  | .patrolScrub p err passDone => Sys2Proof.Machine.execPatrolScrub p err passDone s
  | .rowCopyDone p => Sys2Proof.Machine.execRowCopyDone p s
  | .dramTempSample n temp dieMax => Sys2Proof.Machine.execDramTempSample n temp dieMax s
  | .cxlMemAccess offset write len err => Sys2Proof.Machine.execCxlMemAccess offset write len err s
  | .ledgerEventClassed => Sys2Proof.Machine.execLedgerEventClassed s
  | .ledgerRecordWritten => Sys2Proof.Machine.execLedgerRecordWritten s
  | .optimeFlush => Sys2Proof.Machine.execOptimeFlush s
  | .trotPieceIssue core pclass => Sys2Proof.Machine.execTrotPieceIssue core pclass s
  | .trotPieceComplete digestOk => Sys2Proof.Machine.execTrotPieceComplete digestOk s
  | .gallopStartCommand src => Sys2Proof.Machine.execGallopStartCommand src s
  | .gallopStopCommand src => Sys2Proof.Machine.execGallopStopCommand src s
  | .gallopAutoStart => Sys2Proof.Machine.execGallopAutoStart s
  | .gallopCellComplete failed => Sys2Proof.Machine.execGallopCellComplete failed s
  | .coreProbeDone core digestOk => Sys2Proof.Machine.execCoreProbeDone core digestOk s
  | .coreProbeTimeout core => Sys2Proof.Machine.execCoreProbeTimeout core s
  | .coreResetDone core => Sys2Proof.Machine.execCoreResetDone core s
  | .hubWatchdogExpiry => Sys2Proof.Machine.execHubWatchdogExpiry s
  | .escalationClear src => Sys2Proof.Machine.execEscalationClear src s
  | .powerControllerIteration inputW => Sys2Proof.Machine.execPowerControllerIteration inputW s
  | .emergencyEscalationTimer e => Sys2Proof.Machine.execEmergencyEscalationTimer e s
  | .emergencyClearTimer e => Sys2Proof.Machine.execEmergencyClearTimer e s
  | .regulatorFault r => Sys2Proof.Machine.execRegulatorFault r s
  | .telemetryTimeout => Sys2Proof.Machine.execTelemetryTimeout s
  | .coolantInletOver temp => Sys2Proof.Machine.execCoolantInletOver temp s
  | .thermalTrip => Sys2Proof.Machine.execThermalTrip s
  | .rackLeaseWrite src value => Sys2Proof.Machine.execRackLeaseWrite src value s
  | .leaseExpiry => Sys2Proof.Machine.execLeaseExpiry s
  | .islandVoltageLoop core marginMore marginShort => Sys2Proof.Machine.execIslandVoltageLoop core marginMore marginShort s
  | .droopDetected core => Sys2Proof.Machine.execDroopDetected core s
  | .logicTempSample core temp => Sys2Proof.Machine.execLogicTempSample core temp s
  | .ostlerTrap o => Sys2Proof.Machine.execOstlerTrap o s
  | .ostlerWatchdogExpiry o => Sys2Proof.Machine.execOstlerWatchdogExpiry o s
  | .ostlerRestartCommand src o => Sys2Proof.Machine.execOstlerRestartCommand src o s
  | .ostlerDumpCommand src o => Sys2Proof.Machine.execOstlerDumpCommand src o s
  | .ostlerDumpDone o digestOk timeouts truncated size => Sys2Proof.Machine.execOstlerDumpDone o digestOk timeouts truncated size s
  | .ostlerReady o => Sys2Proof.Machine.execOstlerReady o s
  | .ostlerReadyTimeout o => Sys2Proof.Machine.execOstlerReadyTimeout o s
  | .farrierWatchdogExpiry => Sys2Proof.Machine.execFarrierWatchdogExpiry s
  | .farrierRestartDone => Sys2Proof.Machine.execFarrierRestartDone s
  | .updateRequest src req => Sys2Proof.Machine.execUpdateRequest src req s
  | .updateDone img writeOk => Sys2Proof.Machine.execUpdateDone img writeOk s
  | .activateCommand src mask => Sys2Proof.Machine.execActivateCommand src mask s
  | .activationDeferralEnd => Sys2Proof.Machine.execActivationDeferralEnd s
  | .patternLibraryReload digestOk => Sys2Proof.Machine.execPatternLibraryReload digestOk s
  | .logFlashCopy => Sys2Proof.Machine.execLogFlashCopy s
  | .dumpExportRequest src req => Sys2Proof.Machine.execDumpExportRequest src req s
  | .hello master => Sys2Proof.Machine.execHello master s
  | .halterOpen frags count total => Sys2Proof.Machine.execHalterOpen frags count total s
  | .fragmentTimeout slot => Sys2Proof.Machine.execFragmentTimeout slot s
  | .sessionIdleTimeout slot => Sys2Proof.Machine.execSessionIdleTimeout slot s
  | .dictRead src index sub => Sys2Proof.Machine.execDictRead src index sub s
  | .dictWrite src index sub size value => Sys2Proof.Machine.execDictWrite src index sub size value s
  | .claim src slot priority sig => Sys2Proof.Machine.execClaim src slot priority sig s
  | .release src => Sys2Proof.Machine.execRelease src s
  | .transfer src dest => Sys2Proof.Machine.execTransfer src dest s
  | .renew src => Sys2Proof.Machine.execRenew src s
  | .pendingClaimLapse => Sys2Proof.Machine.execPendingClaimLapse s
  | .ownerLeaseExpiry => Sys2Proof.Machine.execOwnerLeaseExpiry s
  | .imageChunk src offset bytes => Sys2Proof.Machine.execImageChunk src offset bytes s
  | .imageChunkTimeout => Sys2Proof.Machine.execImageChunkTimeout s
  | .mailboxIdentify => Sys2Proof.Machine.execMailboxIdentify s
  | .mailboxGetSupportedLogs => Sys2Proof.Machine.execMailboxGetSupportedLogs s
  | .mailboxUnsupportedOpcode opcode => Sys2Proof.Machine.execMailboxUnsupportedOpcode opcode s
  | .persistGenerationStart => Sys2Proof.Machine.execPersistGenerationStart s
  | .persistGenerationDone ok => Sys2Proof.Machine.execPersistGenerationDone ok s
  | .persistRetry => Sys2Proof.Machine.execPersistRetry s
  | .restoreDefaults src value => Sys2Proof.Machine.execRestoreDefaults src value s
  | .attestationRequest src nonce => Sys2Proof.Machine.execAttestationRequest src nonce s
  | .attestationDone => Sys2Proof.Machine.execAttestationDone s
  | .reportExport src offset => Sys2Proof.Machine.execReportExport src offset s
  | .credentialInstall src req => Sys2Proof.Machine.execCredentialInstall src req s
  | .credentialRemove src slot => Sys2Proof.Machine.execCredentialRemove src slot s
  | .debugUnlockRequest src req token => Sys2Proof.Machine.execDebugUnlockRequest src req token s
  | .blinkersWindowWrite src w value => Sys2Proof.Machine.execBlinkersWindowWrite src w value s
  | .guestRequest addr len write => Sys2Proof.Machine.execGuestRequest addr len write s
  | .ptEntry sig => Sys2Proof.Machine.execPtEntry sig s
  | .productionValueWrite src req => Sys2Proof.Machine.execProductionValueWrite src req s
  | .ledgerReset src value => Sys2Proof.Machine.execLedgerReset src value s
  | .fuseProgram src req => Sys2Proof.Machine.execFuseProgram src req s
  | .inputRestored inputMv => Sys2Proof.Machine.execInputRestored inputMv s
  | .dumpExportDone ok => Sys2Proof.Machine.execDumpExportDone ok s
  | .testPortInstruction instr => Sys2Proof.Machine.execTestPortInstruction instr s
  | .hubHot temp => Sys2Proof.Machine.execHubHot temp s

end Sys2Proof.Machine
end

