-- ==== Sys2Proof/Safety.lean ====
section
/-! DEFINITION. The terms of the statements: which parts of the state a command may change, the invariants, and when the owner's
request is judged. -/

namespace Sys2Proof.Machine

/-! ### The parts of the state -/

/-- The parts of the state that frames speak of: each field of State, with the device state, production values and fuses apart from the
rest of `dev`, the owner apart from `host`, the entry values apart from `dict`, the last committed step apart from `steps`, the
fence set apart from `recov`, and version counters with revocations, credentials and measurements apart from `sec`. -/
inductive StatePart where
  | pending | clk | pins | devState | product | fuses | dev | domains | vals | dict | owner | host | staging | poison | ctxs | load | vers
  | fetch | results | cores | committed | steps | sync | chans | coll | num | place | mem | links | topo | ckpt | ledger | tests | fenceSet | recov
  | power | fw | counters | creds | meas | sec | sent | free
  deriving DecidableEq, Repr

/-- Does a part stand the same in two states? -/
def StatePart.same : StatePart → State → State → Prop
  | .pending, s, t => s.pending = t.pending
  | .clk, s, t => s.clk = t.clk
  | .pins, s, t => s.pins = t.pins
  | .devState, s, t => s.dev.state = t.dev.state
  | .product, s, t => s.dev.product = t.dev.product
  | .fuses, s, t => s.dev.fuses = t.dev.fuses
  | .dev, s, t => { s.dev with state := .boot, product := {}, fuses := [] } = { t.dev with state := .boot, product := {}, fuses := [] }
  | .domains, s, t => s.domains = t.domains
  | .vals, s, t => s.dict.vals = t.dict.vals
  | .dict, s, t => { s.dict with vals := [] } = { t.dict with vals := [] }
  | .owner, s, t => s.host.owner = t.host.owner
  | .host, s, t => { s.host with owner := none } = { t.host with owner := none }
  | .staging, s, t => s.staging = t.staging
  | .poison, s, t => s.poison = t.poison
  | .ctxs, s, t => s.ctxs = t.ctxs
  | .load, s, t => s.load = t.load
  | .vers, s, t => s.vers = t.vers
  | .fetch, s, t => s.fetch = t.fetch
  | .results, s, t => s.results = t.results
  | .cores, s, t => s.cores = t.cores
  | .committed, s, t => s.steps.committed = t.steps.committed
  | .steps, s, t => { s.steps with committed := 0 } = { t.steps with committed := 0 }
  | .sync, s, t => s.sync = t.sync
  | .chans, s, t => s.chans = t.chans
  | .coll, s, t => s.coll = t.coll
  | .num, s, t => s.num = t.num
  | .place, s, t => s.place = t.place
  | .mem, s, t => s.mem = t.mem
  | .links, s, t => s.links = t.links
  | .topo, s, t => s.topo = t.topo
  | .ckpt, s, t => s.ckpt = t.ckpt
  | .ledger, s, t => s.ledger = t.ledger
  | .tests, s, t => s.tests = t.tests
  | .fenceSet, s, t => s.recov.set = t.recov.set
  | .recov, s, t => { s.recov with set := [] } = { t.recov with set := [] }
  | .power, s, t => s.power = t.power
  | .fw, s, t => s.fw = t.fw
  | .counters, s, t => (s.sec.svns, s.sec.revoked) = (t.sec.svns, t.sec.revoked)
  | .creds, s, t => s.sec.creds = t.sec.creds
  | .meas, s, t => s.sec.meas = t.sec.meas
  | .sec, s, t => { s.sec with svns := default, revoked := 0, creds := default, meas := default } =
      { t.sec with svns := default, revoked := 0, creds := default, meas := default }
  | .sent, s, t => s.sent = t.sent
  | .free, s, t => s.free = t.free

/-- Every part outside `W` stands the same: what `t` holds beyond `W` is what `s` holds. -/
def Touches (W : List StatePart) (s t : State) : Prop := ∀ p, W.contains p = false → p.same s t

/-- The same of an outcome, where it is a next state. -/
def OutTouches (W : List StatePart) (s : State) (o : Out) : Prop := ∀ t, o = .next t → Touches W s t

/-! ### Invariants -/

/-- Every domain that is on has what it depends on (01 R34). -/
def DomainsOk (w : BitVec 50) : Prop := ∀ d, d < 50 → w.getLsbD d = true → ∀ k ∈ needs d, w.getLsbD k = true

/-- The values of the dictionary, those of the persisted copies, and those of a generation being written stand in key order. -/
structure DictOk (d : Dict) : Prop where
  vals    : valsWf d.vals = true
  copyA   : valsWf d.copyA.image = true
  copyB   : valsWf d.copyB.image = true
  writing : ∀ g, d.writing = some g → valsWf g.image = true

/-- What every step keeps: the domain dependencies of 01 R34, the canonical form of the staged bytes, and entry values in key order. -/
structure Inv (s : State) : Prop where
  domains : DomainsOk s.domains
  staging : s.staging.wf = true
  dict    : DictOk s.dict

/-! ### When a request is judged -/

/-- A request of the owner reaches the dictionary: its path is open, and on Halter its tag is right and its SEQ new (19 R497, R499, 21
R536); the device is past the end of phase 3 (16 R433). -/
structure OwnerAsks (s : State) (src : Src) : Prop where
  open_  : door s src = none
  owner  : s.host.owner = some src.master
  ready  : s.dev.state ≠ .boot

/-- Command `c` completes at `s`, in a state that `P` holds of. -/
def Gives (c : Instr) (s : State) (P : State → Prop) : Prop := ∃ t, exec c s = .next t ∧ P t

/-- A write passes: the door lets its request through, nothing of 20 R509 stands against it, and the ostler that carries it out runs. -/
def Passes (s : State) (src : Src) (key size value own : Nat) : Prop :=
  door s src = none ∧ writeReason s src key size value own = 0 ∧ waitsFor s key value = none

/-! ### Writes -/

/-- A write that a command asks for: who sends it, the entry, its SIZE and VALUE, and what the entry's own rules say of it. -/
structure HostWrite where
  src   : Src
  key   : Nat
  size  : Nat
  value : Nat
  own   : Nat

/-- The write that a command is, if it is one. A debug unlock stands in `unlockWrite`: a token that is refused counts besides (0xA000.52). -/
def hostWrite (s : State) : Instr → Option HostWrite
  | .stateEnterTest src => some ⟨src, 0x200002, 2, 1, stateOwn s 1⟩
  | .stateLeaveTest src => some ⟨src, 0x200002, 2, 2, stateOwn s 2⟩
  | .moduleResetCommand src => some ⟨src, 0x200002, 2, 3, stateOwn s 3⟩
  | .partitionResetCommand src p => some ⟨src, 0x200002, 2, 256 * p.val + 4, stateOwn s (256 * p.val + 4)⟩
  | .programLoadRequest src req => some ⟨src, 0x210010, 16, req.toNat, loadOwn s req⟩
  | .contextStart src c => some ⟨src, 0x210030, 4, ctxCommand 1 c.val, startOwn s c.val⟩
  | .contextHalt src c => some ⟨src, 0x210030, 4, ctxCommand 2 c.val, haltOwn s c.val⟩
  | .contextResume src c => some ⟨src, 0x210030, 4, ctxCommand 3 c.val, resumeOwn s c.val⟩
  | .contextUnload src c => some ⟨src, 0x210030, 4, ctxCommand 4 c.val, unloadOwn s c.val⟩
  | .counterClear src => some ⟨src, 0x40000D, 1, 1, clearOwn 1⟩
  | .migrationEnableWrite src => some ⟨src, 0x500001, 1, 0, 0⟩
  | .regulatorSharesWrite src v => some ⟨src, 0x500040, 8, v.toNat, sharesOwn v.toNat⟩
  | .linkFenceCommand src v => some ⟨src, 0x30000A, 1, v.toNat, linkFenceOwn s v.toNat⟩
  | .epochMarkCommand src => some ⟨src, 0x60000A, 1, 1, markOwn 1⟩
  | .retainCommand src v => some ⟨src, 0x600012, 8, v.toNat, retainOwn s v.toNat⟩
  | .releaseCommand src v => some ⟨src, 0x600013, 1, v.toNat, releaseOwn v.toNat⟩
  | .restoreRequest src v => some ⟨src, 0x600018, 16, v.toNat, restoreOwn s v⟩
  | .exportRequest src v => some ⟨src, 0x60001A, 16, v.toNat, exportOwn s v⟩
  | .rackLeaseWrite src v => some ⟨src, 0x700002, 4, v.toNat, leaseOwn v.toNat⟩
  | .gallopStartCommand src => some ⟨src, 0x800020, 1, 1, gallopOwn s 1⟩
  | .gallopStopCommand src => some ⟨src, 0x800020, 1, 2, gallopOwn s 2⟩
  | .fenceCommand src v => some ⟨src, 0x84000E, 4, v.toNat, fenceOwn s v.toNat⟩
  | .escalationClear src => some ⟨src, 0x84000F, 1, 1, escalationOwn s 1⟩
  | .updateRequest src v => some ⟨src, 0x900001, 32, v.toNat, updateOwn s v.toNat⟩
  | .activateCommand src v => some ⟨src, 0x900004, 1, v.toNat, 0⟩
  | .ostlerRestartCommand src o => some ⟨src, 0x90000A, 1, o.val, ostlerOwn s o.val⟩
  | .ostlerDumpCommand src o => some ⟨src, 0x90000A, 1, 16 + o.val, ostlerOwn s (16 + o.val)⟩
  | .dumpExportRequest src v => some ⟨src, 0x910023, 16, v.toNat, dumpOwn s v.toNat⟩
  | .restoreDefaults src v => some ⟨src, 0x20000B, 1, v.toNat, defaultsOwn s v.toNat⟩
  | .attestationRequest src v => some ⟨src, 0xA00020, 32, v.toNat, attestOwn s⟩
  | .reportExport src v => some ⟨src, 0xA00024, 8, v.toNat, reportOwn s v.toNat⟩
  | .credentialInstall src v => some ⟨src, 0xA00048, 16, v.toNat, installOwn s v.toNat⟩
  | .credentialRemove src v => some ⟨src, 0xA00049, 1, v.toNat, removeOwn s v.toNat⟩
  | .blinkersWindowWrite src w v => some ⟨src, 0xB00010 + w.val, 32, v.toNat, windowOwn s w.val v.toNat⟩
  | .productionValueWrite src v => some ⟨src, 0xC00010, 24, v.toNat, prodOwn s v.toNat⟩
  | .ledgerReset src v => some ⟨src, 0xC00011, 1, v.toNat, ledgerOwn s v.toNat⟩
  | .fuseProgram src v => some ⟨src, 0xC00012, 16, v.toNat, fuseOwn s⟩
  | .dictWrite src index sub size value =>
    if index ≥ 65536 || sub ≥ 256 then none
    else if keyOf index sub = 0xA00050 then (if size = 16 then none else some ⟨src, 0xA00050, size, value % 2 ^ (8 * size), 0⟩)
    else some ⟨src, keyOf index sub, size, value % 2 ^ (8 * size), condOf s (keyOf index sub) (value % 2 ^ (8 * size))⟩
  | _ => none

/-- The source, request and token of a debug unlock (0xA000.50), by its own command, or by a dictionary write, whose token lies in staging
(21 R537). -/
def unlockWrite (s : State) : Instr → Option (Src × Nat × Sig)
  | .debugUnlockRequest src req token => some (src, req.toNat, token)
  | .dictWrite src index sub size value =>
    if index < 65536 && sub < 256 && decide (keyOf index sub = 0xA00050) && decide (size = 16) then
      let t := Config.signed (memTake s.staging (fld (value % 2 ^ 128) 127 64) 1280)
      some (src, value % 2 ^ 128, { key := t.1, msg := t.2 })
    else none
  | _ => none

/-- The failed restarts of an ostler within the last 60 s (15 R401). -/
def recentFails (s : State) (o : Nat) : List Nat := (ostlerAt s o).fails.filter fun t => decide (s.clk.now < t + 60000000000)

/-- Command `c` is the failure of a restart of ostler `o` at `s` (18 R469): not ready 100 ms after its dump, a digest that fails, or a trap or
a watchdog within 1 s of being ready. -/
def FailsNow (c : Instr) (o : Fin 12) (s : State) : Prop :=
  (c = .ostlerReadyTimeout o ∧ (ostlerAt s o.val).state = 2) ∨
  ((∃ timeouts truncated size, c = .ostlerDumpDone o false timeouts truncated size) ∧ (s.fw.dumping.any fun d => d.1 = o.val) = true ∧ o.val ∉ s.fw.dumpOnly) ∨
  ((c = .ostlerTrap o ∨ c = .ostlerWatchdogExpiry o) ∧ ostlersOn s = true ∧ (ostlerAt s o.val).state = 0 ∧
    ∃ n, (ostlerAt s o.val).readyAt = some n ∧ s.clk.now < n + 1000000000)

/-- The fuses of a group that are blown. -/
def fusesOf (s : State) (g : Nat) : Nat := (assoc? s.dev.fuses g).getD 0

/-- The thirteen tile operations of the cores with the opcodes of 07 R177. -/
def tileOps : List (Nat × (Fin 136 → Hw → Instr)) :=
  [(0x10, .mm), (0x11, .mmTa), (0x12, .mmTb), (0x13, .mmAcc), (0x18, .attF), (0x19, .attB), (0x20, .ew), (0x21, .red), (0x22, .norm), (0x23, .smax),
   (0x24, .opt), (0x28, .convFmt), (0x29, .amax)]

/-- A piece that its engine may issue: no memory error meets it, now or marked before where it reads, its splits find tiles, and its checks find room at the partner core. -/
def MayIssue (s : State) (pc : Piece) (t : Task) (hw : Hw) : Prop :=
  hw.eccs = [] ∧ readsMarked s pc t = false ∧ splitRoom s pc.ctx (splitsNeeded s pc.ctx pc.step (workWrites (workOf s pc t hw))) = true ∧
    (checksFor s pc t (workOf s pc t hw) = [] ∨
      ∃ far, partnerCore s pc.slot 4 = some far ∧ (checksFor s pc t (workOf s pc t hw)).length ≤ 64 - (coreAt s far).checkQ.length)

/-- The piece at the head of engine `g` is issued from `s` to `u`: it has left the queue and runs, and what it writes is written. -/
def Issued (s u : State) (g : Nat) (pc : Piece) (t : Task) (hw : Hw) : Prop :=
  (coreAt u g).queue = (coreAt s g).queue.drop 1 ∧ (coreAt u g).running.length = (coreAt s g).running.length + 1 ∧
    (coreAt u g).running.map (·.piece) = (coreAt s g).running.map (·.piece) ++ [pc] ∧
    u.vers = { (putAll s pc.ctx pc.step (workWrites (workOf s pc t hw))).vers with waited := s.vers.waited.filter fun x => x ≠ pc }

/-- The piece at the head of engine `g` waits for tiles: it stalls, counted once however often it waits, and nothing else changes (10 R249,
R252). -/
def Stalled (s u : State) (g : Nat) (pc : Piece) : Prop :=
  u.cores = s.cores ∧ u.vers.copies = s.vers.copies ∧ u.vers.stalls = s.vers.stalls + (if pc ∈ s.vers.waited then 0 else 1) ∧ u.vers.stalled = s.vers.stalled ++ [(g, s.clk.now)] ∧
    Touches [.vers] s u

/-- Every flit that a collective of context `c` sends finds a way to its rank (11 R309, R310). -/
def SendsReach (s : State) (c : Nat) (k : CollTask) (fs : List CollFlit) : Prop :=
  ∀ f ∈ fs, reachable s (ownHeader s (rankCoord s k.group f.rank)
    (Config.landingPart (landKey (landOf k.step s.steps.attempt (collOrdinal (progAt s c) k.pos) f)) % 8) 0
    (collFlow c (collOrdinal (progAt s c) k.pos))) = true

/-! ### The parts a command may change -/

/-- Parts of the state: what a removal of power takes with it (01 R34, R36). -/
def wipeParts : List StatePart :=
  [.pins, .devState, .dev, .domains, .vals, .dict, .owner, .host, .staging, .poison, .ctxs, .load, .vers, .fetch, .results, .cores, .committed, .steps, .sync, .chans, .coll, .num, .place, .mem, .links, .topo, .ckpt, .ledger, .tests, .fenceSet, .recov, .power, .fw, .meas, .sec]

/-- Parts of the state: what a module or partition reset takes with it (01 R37). -/
def resetParts : List StatePart :=
  [.devState, .dev, .domains, .dict, .owner, .host, .staging, .poison, .ctxs, .vers, .fetch, .results, .cores, .steps, .sync, .chans, .coll, .num, .place, .mem, .links, .topo, .ckpt, .ledger, .tests, .fenceSet, .recov, .fw, .meas, .sec, .sent, .free]

/-- Parts of the state: what running a piece, and a fatal event it raises, may change. -/
def tileParts : List StatePart :=
  [.devState, .dev, .owner, .host, .poison, .ctxs, .vers, .fetch, .results, .cores, .steps, .sync, .chans, .coll, .num, .place, .mem, .links, .topo, .ledger, .tests, .fenceSet, .recov, .fw, .meas, .sec, .sent, .free]

/-- Parts of the state: what fencing a partition off, and leaving one, may change. -/
def fenceParts : List StatePart :=
  [.devState, .dev, .owner, .host, .ctxs, .vers, .fetch, .results, .cores, .steps, .sync, .chans, .coll, .place, .mem, .links, .topo, .tests, .fenceSet, .recov, .fw, .meas, .sec, .sent, .free]

/-- Parts of the state: what halting the module may change. -/
def haltParts : List StatePart :=
  [.devState, .host, .cores, .links, .topo, .tests, .meas, .sec, .sent]

/-- The parts of the state that a command may change, whatever the state it meets: the whole-machine rule of frames. -/
def mayTouch : Instr → List StatePart
  | .pwrEnAssert .. => [.clk, .pins, .devState, .dev, .vals, .dict, .host, .place, .ledger, .fw, .sec, .free]
  | .pwrEnDeassert => haltParts ++ [.pins, .dev]
  | .inputUndervoltage => haltParts ++ [.pins, .dev]
  | .powerDownStepDone => wipeParts ++ [.clk, .free]
  | .inputFetOpen .. => wipeParts ++ [.clk]
  | .bootPhaseDone .. => haltParts ++ [.clk, .pins, .dev, .domains, .fw, .counters, .free]
  | .partitionBringupStagger => [.dev]
  | .partitionBringupStepDone .. => haltParts ++ [.dev, .domains, .dict, .ctxs, .fetch, .steps, .sync, .place, .mem, .ledger, .recov, .fw, .free]
  | .selftestKernelDone .. => [.dev, .ledger, .tests, .fw, .free]
  | .stateEnterTest .. => resetParts
  | .stateLeaveTest .. => resetParts
  | .moduleResetCommand .. => resetParts
  | .partitionResetCommand .. => resetParts
  | .moduleResetHoldoffEnd => [.dev, .domains, .fw, .sec, .free]
  | .partitionResetDelayEnd .. => [.dev]
  | .perstNAssert => [.pins, .host, .fw]
  | .perstNDeassert => [.pins, .host, .free]
  | .d2dFlitReceived .. => [.dev, .sec, .sent]
  | .d2dTimeout .. => resetParts
  | .taskDispatch .. => [.ctxs, .cores, .steps]
  | .queueRoomFreed .. => [.ctxs, .cores]
  | .mm .. => tileParts
  | .mmTa .. => tileParts
  | .mmTb .. => tileParts
  | .mmAcc .. => tileParts
  | .attF .. => tileParts
  | .attB .. => tileParts
  | .ew .. => tileParts
  | .red .. => tileParts
  | .norm .. => tileParts
  | .smax .. => tileParts
  | .opt .. => tileParts
  | .convFmt .. => tileParts
  | .amax .. => tileParts
  | .copy .. => tileParts
  | .sig .. => [.ctxs]
  | .wait .. => [.ctxs]
  | .allReduce .. => fenceParts ++ [.num]
  | .reduceScatter .. => fenceParts ++ [.num]
  | .allGather .. => fenceParts ++ [.num]
  | .send .. => fenceParts ++ [.num]
  | .recv .. => fenceParts ++ [.num]
  | .barrier .. => fenceParts ++ [.num]
  | .signal .. => fenceParts ++ [.num]
  | .pieceComplete .. => [.host, .ctxs, .results, .cores, .steps, .links, .topo, .sent]
  | .splitStallResume .. => [.vers, .ckpt]
  | .reexecIssue .. => tileParts
  | .checkPieceComplete .. => fenceParts ++ [.num, .ledger]
  | .arbiterComplete .. => [.ctxs, .vers, .cores, .steps, .num, .ledger, .fw, .free]
  | .pieceWatchdogExpiry .. => fenceParts ++ [.clk, .ledger]
  | .checkWatchdogExpiry .. => fenceParts ++ [.clk, .num, .ledger]
  | .sigTakesEffect .. => [.ctxs, .steps, .sync, .links, .topo, .ledger, .fw, .sent, .free]
  | .waitSatisfied .. => [.ctxs, .steps, .links, .topo, .sent]
  | .stepBoundary => [.ctxs, .fetch, .steps, .place, .mem]
  | .batchHeaderPoll .. => [.fetch, .sent]
  | .batchFetchDone .. => [.fetch, .place, .sent]
  | .verdictContribute => fenceParts ++ [.committed, .num, .ckpt, .power]
  | .syncUpFrame .. => fenceParts ++ [.committed, .num, .ckpt, .power]
  | .syncDownFrame .. => fenceParts
  | .replayDispatch => [.vers, .fetch, .steps]
  | .syncLeavingFrame .. => [.host, .ctxs, .links, .topo, .recov, .sent]
  | .syncStateFrame .. => [.ctxs, .links, .topo, .recov, .fw, .sent]
  | .syncIdleFrame .. => [.links, .topo]
  | .idleFrameSend .. => [.sent]
  | .syncLaneHeartbeatLoss .. => [.clk, .host, .ctxs, .links, .topo, .ledger, .fw, .sent, .free]
  | .bundleSilent .. => [.clk, .topo]
  | .fenceProposalTimer .. => [.clk, .links, .recov, .sent]
  | .fenceRecordReceived .. => haltParts ++ [.dev, .owner, .ctxs, .vers, .fetch, .steps, .sync, .chans, .coll, .place, .mem, .fenceSet, .recov, .fw, .free]
  | .fenceFloodRepeat => [.clk, .links, .sent]
  | .fenceProxyAbort .. => fenceParts ++ [.clk]
  | .fenceRecordRequest .. => haltParts ++ [.dev, .owner, .ctxs, .vers, .fetch, .steps, .sync, .chans, .coll, .place, .mem, .fenceSet, .recov, .fw, .free]
  | .fenceCommand .. => [.host, .links, .recov, .fw, .sent]
  | .recoveryPatienceExpiry .. => [.clk, .links, .recov, .sent]
  | .takeoverDone .. => fenceParts ++ [.power]
  | .refillDone .. => haltParts ++ [.ctxs, .vers, .recov, .fw]
  | .mirrorStreamReceived .. => haltParts ++ [.ctxs, .vers, .recov, .fw]
  | .mirrorAckReceived .. => [.steps]
  | .mirrorRebuildDone => [.recov]
  | .moduleStatePieceReceived .. => [.ckpt]
  | .linkFlitReceived .. => haltParts ++ [.dev, .owner, .ctxs, .vers, .fetch, .steps, .sync, .chans, .coll, .place, .mem, .ledger, .fenceSet, .recov, .fw, .free]
  | .linkNakReceived .. => [.host, .ctxs, .links, .topo, .ledger, .fw, .sent, .free]
  | .errorReturnReceived .. => haltParts ++ [.dev, .owner, .ctxs, .vers, .fetch, .steps, .sync, .chans, .coll, .place, .mem, .ledger, .fenceSet, .recov, .fw, .free]
  | .signalArrival .. => [.sync, .coll, .ledger, .fw, .free]
  | .laneLossOfLock .. => [.host, .ctxs, .links, .topo, .ledger, .fw, .sent, .free]
  | .laneErrorWindow .. => [.host, .ctxs, .links, .topo, .ledger, .fw, .sent, .free]
  | .ctleReevaluation .. => [.links]
  | .linkTrainingDone .. => [.host, .ctxs, .links, .topo, .ledger, .fw, .sent, .free]
  | .linkLockTimeout .. => [.links, .topo, .fw]
  | .linkTrainingRetry .. => [.links, .fw, .sent]
  | .discoveryRecordSend .. => [.sent]
  | .discoveryRecordReceived .. => [.host, .ctxs, .links, .topo, .recov, .fw, .sent]
  | .linkFenceCommand .. => [.host, .ctxs, .links, .topo, .ledger, .fw, .sent, .free]
  | .epochMarkEdge .. => [.ckpt]
  | .epochMarkCommand .. => [.host, .ckpt, .fw, .sent]
  | .captureStart => [.host, .vers, .chans, .topo, .ckpt, .sent]
  | .capturePiecesDone .. => [.vers, .ckpt, .sent]
  | .manifestDurable .. => [.host, .chans, .topo, .ckpt, .sent]
  | .lehrWriteError .. => [.host, .vers, .chans, .topo, .ckpt, .sent]
  | .poolWriteError .. => [.host, .vers, .chans, .topo, .ckpt, .sent]
  | .retainCommand .. => [.host, .ckpt, .fw, .sent]
  | .retainCopyDone => [.ckpt]
  | .releaseCommand .. => [.host, .ckpt, .fw, .sent]
  | .restoreRequest .. => [.host, .ckpt, .fw, .sent]
  | .restoreDone .. => [.dict, .host, .ctxs, .vers, .committed, .steps, .sync, .ckpt, .meas, .sent]
  | .exportRequest .. => [.host, .ckpt, .fw, .sent]
  | .exportDone .. => [.host, .staging, .poison, .ckpt, .sent]
  | .programLoadRequest .. => [.host, .ctxs, .load, .fw, .sent]
  | .programLoadDone => [.vals, .dict, .host, .ctxs, .load, .vers, .fetch, .results, .committed, .steps, .sync, .coll, .num, .place, .mem, .ckpt, .fenceSet, .recov, .meas, .sent]
  | .contextStart .. => haltParts ++ [.dict, .ctxs, .vers, .fetch, .steps, .chans, .coll, .ckpt, .recov, .power, .fw, .free]
  | .contextHalt .. => [.host, .ctxs, .fw, .sent]
  | .contextResume .. => [.host, .ctxs, .steps, .links, .topo, .fw, .sent]
  | .contextUnload .. => [.host, .ctxs, .fw, .sent]
  | .unloadComplete .. => haltParts ++ [.dev, .owner, .ctxs, .vers, .steps, .sync, .chans, .coll, .place, .mem, .recov, .fw, .free]
  | .counterClear .. => [.host, .num, .fw, .sent]
  | .migrationPlanReady .. => [.place]
  | .migrationCopyDone .. => [.place]
  | .migrationEnableWrite .. => [.vals, .dict, .host, .place, .fw, .sent]
  | .replacementDone .. => haltParts ++ [.dev, .ctxs, .place]
  | .regulatorSharesWrite .. => [.vals, .dict, .host, .mem, .fw, .sent]
  | .patrolScrub .. => tileParts
  | .rowCopyDone .. => [.mem, .ledger, .fw, .free]
  | .dramTempSample .. => haltParts ++ [.pins, .mem, .ledger, .power, .fw, .free]
  | .cxlMemAccess .. => tileParts ++ [.staging]
  | .ledgerEventClassed => fenceParts ++ [.num, .ledger]
  | .ledgerRecordWritten => [.clk, .host, .ledger, .sent]
  | .optimeFlush => [.clk]
  | .trotPieceIssue .. => [.clk, .cores, .tests]
  | .trotPieceComplete .. => [.cores, .ledger, .tests, .fw, .free]
  | .gallopStartCommand .. => haltParts ++ [.dev, .ctxs, .ledger, .fw]
  | .gallopStopCommand .. => haltParts ++ [.dev, .ctxs, .ledger, .fw]
  | .gallopAutoStart => haltParts ++ [.clk, .dev, .ctxs, .ledger]
  | .gallopCellComplete .. => haltParts ++ [.dev, .ctxs, .ledger, .fw, .free]
  | .coreProbeDone .. => fenceParts ++ [.num, .ledger]
  | .coreProbeTimeout .. => fenceParts ++ [.num, .ledger]
  | .coreResetDone .. => [.cores, .fw]
  | .hubWatchdogExpiry => wipeParts ++ [.sent, .free]
  | .escalationClear .. => [.host, .recov, .fw, .sent]
  | .powerControllerIteration .. => haltParts ++ [.pins, .power]
  | .emergencyEscalationTimer .. => resetParts ++ [.clk]
  | .emergencyClearTimer .. => [.clk, .pins, .host, .power, .sent, .free]
  | .regulatorFault .. => resetParts ++ [.pins, .power]
  | .telemetryTimeout => haltParts ++ [.pins, .power]
  | .coolantInletOver .. => haltParts ++ [.pins, .power]
  | .thermalTrip => wipeParts
  | .rackLeaseWrite .. => [.pins, .vals, .dict, .host, .power, .fw, .sent]
  | .leaseExpiry => [.clk, .pins, .host, .power, .sent]
  | .islandVoltageLoop .. => [.cores, .power]
  | .droopDetected .. => [.cores, .power]
  | .logicTempSample .. => haltParts ++ [.pins, .power]
  | .ostlerTrap .. => wipeParts ++ [.sent, .free]
  | .ostlerWatchdogExpiry .. => wipeParts ++ [.sent, .free]
  | .ostlerRestartCommand .. => [.host, .fw, .sent]
  | .ostlerDumpCommand .. => [.host, .fw, .sent]
  | .ostlerDumpDone .. => wipeParts ++ [.sent, .free]
  | .ostlerReady .. => resetParts ++ [.pins, .product, .fuses, .vals, .load, .power, .creds]
  | .ostlerReadyTimeout .. => wipeParts ++ [.sent, .free]
  | .farrierWatchdogExpiry => [.fw, .free]
  | .farrierRestartDone => resetParts ++ [.counters]
  | .updateRequest .. => [.host, .fw, .sec, .sent]
  | .updateDone .. => [.host, .fw, .sec, .sent]
  | .activateCommand .. => fenceParts
  | .activationDeferralEnd => fenceParts
  | .patternLibraryReload .. => [.fw, .counters, .meas, .sec, .free]
  | .logFlashCopy => [.fw]
  | .dumpExportRequest .. => [.host, .fw, .sent]
  | .hello .. => [.dev, .sent, .free]
  | .halterOpen .. => [.host, .sec, .sent, .free]
  | .fragmentTimeout .. => [.host, .sec]
  | .sessionIdleTimeout .. => [.clk, .host]
  | .dictRead .. => [.host, .sent, .free]
  | .dictWrite .. => resetParts ++ [.pins, .product, .fuses, .vals, .load, .power, .creds]
  | .claim .. => [.owner, .host, .sec, .sent, .free]
  | .release .. => [.owner, .host, .sent]
  | .transfer .. => [.owner, .host, .sent]
  | .renew .. => [.host, .sent]
  | .pendingClaimLapse => [.clk, .host]
  | .ownerLeaseExpiry => [.clk, .owner, .host, .sent]
  | .imageChunk .. => [.host, .fw, .sent]
  | .imageChunkTimeout => [.host, .fw, .sec, .sent]
  | .mailboxIdentify => [.host]
  | .mailboxGetSupportedLogs => [.host]
  | .mailboxUnsupportedOpcode .. => [.host]
  | .persistGenerationStart => [.clk, .dict]
  | .persistGenerationDone .. => [.dict]
  | .persistRetry => [.clk, .dict]
  | .restoreDefaults .. => [.vals, .dict, .host, .fw, .sent]
  | .attestationRequest .. => [.host, .fw, .sec, .sent]
  | .attestationDone => [.sec]
  | .reportExport .. => [.host, .staging, .poison, .fw, .sent]
  | .credentialInstall .. => [.owner, .host, .fw, .creds, .meas, .sec, .sent]
  | .credentialRemove .. => [.owner, .host, .fw, .creds, .meas, .sec, .sent]
  | .debugUnlockRequest .. => [.host, .fw, .meas, .sec, .sent, .free]
  | .blinkersWindowWrite .. => [.vals, .dict, .host, .fw, .meas, .sent]
  | .guestRequest .. => [.staging, .poison, .sec, .sent]
  | .ptEntry .. => [.dev, .sec, .free]
  | .productionValueWrite .. => [.product, .host, .fw, .meas, .sec, .sent]
  | .ledgerReset .. => [.dev, .host, .ledger, .fw, .sent]
  | .fuseProgram .. => [.fuses, .dev, .host, .fw, .sent]
  | .inputRestored .. => [.clk, .pins, .devState, .dev, .vals, .dict, .host, .place, .ledger, .fw, .sec, .free]
  | .dumpExportDone .. => [.staging, .poison, .fw, .sent]
  | .testPortInstruction .. => [.pins, .dev, .sent, .free]
  | .hubHot .. => haltParts ++ [.pins, .power]

end Sys2Proof.Machine
end

