-- ==== Sys2Proof/Certificates/Slice0/Obligations.lean ====
section
/-! DEFINITION. The statements for the provers: what every command does where it completes, where writes are turned away, and the rules that
hold of the whole machine. -/

open Sys2Proof Sys2Proof.Machine

/-! ### Steps -/

/-- The command at the front of the queue runs on the state with the queue's rest. -/
def Obligations.StepRunsFront : Prop := ∀ (c : Instr) (s : State), step { s with pending := c :: s.pending } = exec c s

/-! ### Power and start-up (16 R427 to R438) -/

/-- From OFF, PWR_EN with a good input, and an input restored with PWR_EN asserted, start the module: BOOT, cause 1, one more power-up. Under
production entry (22 R557) it starts in phase 0, where it waits for the entry token: the model's number for that wait (log 140). -/
def Obligations.PowerUp : Prop :=
  (∀ (mv : Nat) (e : Bool) (s : State), s.dev.on = false → inputGood mv = true → s.pins.fetOpen = false →
    Gives (.pwrEnAssert mv e) s fun t => t.pins.pwrEn = true ∧ t.pins.inputMv = mv ∧ t.dev.on = true ∧ t.dev.state = .boot ∧
      t.dev.phase = (if e then 0 else 1) ∧ t.dev.lastCause = 1 ∧ t.clk.pcycle = s.clk.pcycle + 1) ∧
  (∀ (mv : Nat) (s : State), s.dev.on = false → s.pins.pwrEn = true → inputGood mv = true →
    Gives (.inputRestored mv) s fun t => t.pins.inputOk = true ∧ t.pins.fetOpen = false ∧ t.dev.on = true ∧ t.dev.state = .boot ∧
      t.dev.phase = (if s.pins.prodHeld then 0 else 1) ∧ t.dev.lastCause = 1 ∧ t.clk.pcycle = s.clk.pcycle + 1)

/-- PWR_EN deasserted or the input under its limit begins the power-down sequence in place of any reset; its steps take the domains off
and end in OFF, or in a new power-up; a module reset ends its own in the hold-off; an open input FET takes everything at once. -/
def Obligations.PowerDown : Prop :=
  (∀ s : State, s.dev.on = true → s.dev.down.any (fun d => !d.reset) = false →
    Gives .pwrEnDeassert s fun t => t.pins.pwrEn = false ∧ t.dev.holdoff = false ∧ ∃ d, t.dev.down = some d ∧ d.reset = false ∧ (d.step = 2 ∨ d.step = 3)) ∧
  (∀ s : State, s.dev.on = true → s.dev.down.any (fun d => !d.reset) = false →
    Gives .inputUndervoltage s fun t => t.pins.inputOk = false ∧ t.dev.holdoff = false ∧ ∃ d, t.dev.down = some d ∧ d.reset = false ∧ (d.step = 2 ∨ d.step = 3)) ∧
  (∀ (s : State) (r : Bool), s.dev.down = some ⟨2, r⟩ → Gives .powerDownStepDone s fun t => t.dev.down = some ⟨3, r⟩ ∧ t.domains = s.domains) ∧
  (∀ s : State, s.dev.down = some ⟨3, false⟩ → Gives .powerDownStepDone s fun t => t.dev.down = some ⟨4, false⟩ ∧ t.domains = 0) ∧
  (∀ s : State, s.dev.down = some ⟨3, true⟩ → Gives .powerDownStepDone s fun t => t.dev.down = none ∧ t.dev.holdoff = true ∧ t.domains = 0) ∧
  (∀ s : State, s.dev.down = some ⟨4, false⟩ →
    Gives .powerDownStepDone s fun t => t.dev.on = (s.pins.pwrEn && s.pins.inputOk && !s.pins.fetOpen) ∧ t.domains = 0 ∧ t.dev.down = none) ∧
  (∀ (mv : Nat) (s : State), s.dev.on = true → mv < 36000 ∨ mv > 54000 →
    Gives (.inputFetOpen mv) s fun t => t.pins.fetOpen = true ∧ t.pins.inputMv = mv ∧ t.dev.on = false ∧ t.domains = 0 ∧ t.host.owner = none)

/-- Each phase of a boot with good images leads to the next: the Farrier image to phase 2, M0 and PD43 to phase 3, the images and the hub
to phase 4 with partition 0's bring-up, the partitions to phase 5 with the self-test kernels, and these to READY. Where neither Farrier bank
verifies, and outside production entry, the boot does not go on and ALERT_N is asserted. -/
def Obligations.BootPhases : Prop :=
  (∀ s : State, booting s = true → s.dev.phase = 1 → bankVerifies s [] 1 (pairOf s 1).activeB = true →
    Gives (.bootPhaseDone []) s fun t => t.dev.phase = 2 ∧ t.dev.state = .boot) ∧
  (∀ (bad : List (Nat × Nat)) (s : State), booting s = true → s.dev.phase = 1 → s.dev.prodEntry = false →
      bankVerifies s bad 1 (pairOf s 1).activeB = false →
      bankHolds (otherBank (pairOf s 1)) = false ∨ bankVerifies s bad 1 (!(pairOf s 1).activeB) = false →
    Gives (.bootPhaseDone bad) s fun t => t.dev.phase = 1 ∧ t.pins.alert = true ∧ t.domains = s.domains ∧
      ∀ b : List (Nat × Nat), exec (.bootPhaseDone b) t = .next t) ∧
  (∀ s : State, booting s = true → s.dev.phase = 2 → s.dev.minimal = false →
    Gives (.bootPhaseDone []) s fun t => t.dev.phase = 3 ∧ t.domains.getLsbD 43 = true ∧
      nth t.sec.meas 0 0 = extend (nth s.sec.meas 0 0) (activeBank (pairOf s 1)).img.pdigest) ∧
  (∀ s : State, booting s = true → s.dev.phase = 3 → s.dev.oosAtEnd = false → s.domains.getLsbD 43 = true →
      bankVerifies s [] 2 (pairOf s 2).activeB = true → bankVerifies s [] 3 (pairOf s 3).activeB = true →
    Gives (.bootPhaseDone []) s fun t => t.dev.phase = 4 ∧ t.dev.nextPart = 1 ∧ bringAt t 0 = 1 ∧ t.domains.getLsbD 40 = true ∧ t.domains.getLsbD 41 = true) ∧
  (∀ s : State, booting s = true → s.dev.phase = 4 → s.dev.nextPart = 8 → (∀ p : Fin 8, bringAt s p.val = 0) → s.dev.oosAtEnd = false →
    Gives (.bootPhaseDone []) s fun t => t.dev.phase = 5 ∧ t.dev.kernels = bootKernels s) ∧
  (∀ s : State, booting s = true → s.dev.phase = 5 → s.dev.kernels = [] → s.dev.retest = [] → s.ledger.events = [] → s.dev.oosAtEnd = false →
      s.dev.prodEntry = false → s.tests.gState = 0 → (∀ p : Fin 8, bringAt s p.val = 0) →
    Gives (.bootPhaseDone []) s fun t => t.dev.phase = 6 ∧ t.dev.state = .ready)

/-- The partitions start one after another; each takes five steps, with its uncore on after the first and the quadrants after the fourth, and
is then in service; failed UCIe modules are disabled, and a partition with no hub module left, or a stack that fails a third time, is held with
its power off; a delayed one starts later; the hold-off of a module reset ends in phase 3; a kernel whose digest is right is done, and one whose
digest is wrong comes again and is counted, the second time too. The hub's UCIe modules are those numbered 0 to 3 (log 19, the model's numbering). -/
def Obligations.PartitionBringup : Prop :=
  (∀ s : State, bringing s = true → s.dev.state = .boot → s.dev.phase = 4 → s.dev.nextPart < 8 →
    Gives .partitionBringupStagger s fun t => t.dev.nextPart = s.dev.nextPart + 1 ∧ bringAt t s.dev.nextPart = 1) ∧
  (∀ (p : Fin 8) (r : Bringup) (s : State), bringing s = true → bringAt s p.val = 1 → s.domains.getLsbD 40 = true → s.domains.getLsbD 48 = true →
    Gives (.partitionBringupStepDone p r) s fun t => bringAt t p.val = 2 ∧ t.domains.getLsbD (5 * p.val + 4) = true) ∧
  (∀ (p : Fin 8) (r : Bringup) (s : State), bringing s = true → bringAt s p.val = 2 →
      (∃ m : Fin 4, Fin.castLE (by decide) m ∉ r.ucieBad ∧ (p.val, m.val) ∉ s.dev.ucieOff ∧ m.val ∉ permanentUcie s p.val) →
    Gives (.partitionBringupStepDone p r) s fun t => bringAt t p.val = 3 ∧ (∀ m ∈ r.ucieBad, (p.val, m.val) ∈ t.dev.ucieOff) ∧
      ∀ x ∈ s.dev.ucieOff, x ∈ t.dev.ucieOff) ∧
  (∀ (p : Fin 8) (r : Bringup) (s : State), bringing s = true → bringAt s p.val = 2 →
      (∀ m : Fin 4, Fin.castLE (by decide) m ∈ r.ucieBad ∨ (p.val, m.val) ∈ s.dev.ucieOff) →
    Gives (.partitionBringupStepDone p r) s fun t => bringAt t p.val = 0 ∧ t.dev.inReset.getLsbD p.val = true ∧
      ∀ d ∈ partDomains p.val, t.domains.getLsbD d = false) ∧
  (∀ (p : Fin 8) (r : Bringup) (s : State), bringing s = true → bringAt s p.val = 3 → r.stackBad = [] →
    Gives (.partitionBringupStepDone p r) s fun t => bringAt t p.val = 4 ∧ nth t.dev.tries (2 * p.val) 0 = 0 ∧ nth t.dev.tries (2 * p.val + 1) 0 = 0) ∧
  (∀ (p : Fin 8) (r : Bringup) (s : State), bringing s = true → bringAt s p.val = 3 → r.stackBad.Nodup →
      r.stackBad ≠ [] → (∀ n ∈ r.stackBad, nth s.dev.tries (2 * p.val + n.val) 0 < 2) →
    Gives (.partitionBringupStepDone p r) s fun t => bringAt t p.val = 3 ∧
      ∀ n : Fin 2, nth t.dev.tries (2 * p.val + n.val) 0 = nth s.dev.tries (2 * p.val + n.val) 0 + (if n ∈ r.stackBad then 1 else 0)) ∧
  (∀ (p : Fin 8) (r : Bringup) (s : State), bringing s = true → bringAt s p.val = 3 → r.stackBad.Nodup →
      (∃ n ∈ r.stackBad, 2 ≤ nth s.dev.tries (2 * p.val + n.val) 0) →
    Gives (.partitionBringupStepDone p r) s fun t => bringAt t p.val = 0 ∧ t.dev.inReset.getLsbD p.val = true ∧
      ∀ d ∈ partDomains p.val, t.domains.getLsbD d = false) ∧
  (∀ (p : Fin 8) (r : Bringup) (s : State), bringing s = true → bringAt s p.val = 4 → ostlerBusy s (4 + p.val) = false →
      s.domains.getLsbD (5 * p.val + 4) = true →
    Gives (.partitionBringupStepDone p r) s fun t => bringAt t p.val = 5 ∧ ∀ q : Fin 4, t.domains.getLsbD (5 * p.val + q.val) = true) ∧
  (∀ (p : Fin 8) (r : Bringup) (s : State), bringing s = true → bringAt s p.val = 5 →
    Gives (.partitionBringupStepDone p r) s fun t => bringAt t p.val = 0 ∧ t.dev.inService.getLsbD p.val = true ∧ t.dev.inReset.getLsbD p.val = false) ∧
  (∀ (p : Fin 8) (s : State), bringing s = true → s.dev.delayed.getLsbD p.val = true →
    Gives (.partitionResetDelayEnd p) s fun t => bringAt t p.val = 1 ∧ t.dev.delayed.getLsbD p.val = false) ∧
  (∀ s : State, s.dev.holdoff = true →
    Gives .moduleResetHoldoffEnd s fun t => t.dev.holdoff = false ∧ t.dev.phase = 3 ∧ t.domains.getLsbD 43 = true) ∧
  (∀ (g : Fin 136) (k : Nat) (ok : Bool) (s : State), booting s = true → s.dev.phase = 5 → (g.val, familyOf k) ∈ s.dev.kernels → (g.val, k) ∉ s.dev.retest →
    Gives (.selftestKernelDone g k ok) s fun t => t.dev.kernels = s.dev.kernels.erase (g.val, familyOf k) ∧
      t.dev.retest = (if ok then s.dev.retest else s.dev.retest ++ [(g.val, k)]) ∧ t.tests.trotFail = s.tests.trotFail + (if ok then 0 else 1)) ∧
  (∀ (g : Fin 136) (k : Nat) (ok : Bool) (s : State), booting s = true → s.dev.phase = 5 → (g.val, k) ∈ s.dev.retest →
    Gives (.selftestKernelDone g k ok) s fun t => t.dev.kernels = s.dev.kernels ∧ t.dev.retest = s.dev.retest.erase (g.val, k) ∧
      t.tests.trotFail = s.tests.trotFail + (if ok then 0 else 1))

/-- The state commands that pass: TEST and back to READY, a module reset, and a partition reset whose domains are off at once. -/
def Obligations.StateCommands : Prop :=
  (∀ (src : Src) (s : State), Passes s src 0x200002 2 1 (stateOwn s 1) → s.tests.gState = 0 → Gives (.stateEnterTest src) s fun t => t.dev.state = .test) ∧
  (∀ (src : Src) (s : State), Passes s src 0x200002 2 2 (stateOwn s 2) → s.tests.gState = 0 → Gives (.stateLeaveTest src) s fun t => t.dev.state = .ready) ∧
  (∀ (src : Src) (s : State), Passes s src 0x200002 2 3 (stateOwn s 3) → s.dev.on = true → s.power.trip = false → s.dev.down = none → s.dev.holdoff = false →
      s.fw.farrierDown = false →
    Gives (.moduleResetCommand src) s fun t => t.dev.state = .boot ∧ t.dev.lastKind = 1 ∧ t.dev.lastCause = 2 ∧ t.dev.down = some ⟨2, true⟩ ∧
      t.host.owner = none ∧ t.recov.modResets = s.recov.modResets + 1 ∧ t.domains = s.domains) ∧
  (∀ (src : Src) (p : Fin 8) (s : State), Passes s src 0x200002 2 (256 * p.val + 4) (stateOwn s (256 * p.val + 4)) → s.dev.on = true → s.dev.down = none →
      s.dev.holdoff = false → s.dev.state ≠ .outOfService → s.dev.inReset.getLsbD p.val = false → s.fw.farrierDown = false →
    Gives (.partitionResetCommand src p) s fun t => ∀ d ∈ partDomains p.val, t.domains.getLsbD d = false)

/-- PERST_N takes the port's link down and drops what waits for the mailbox, and deasserted it trains the link, which stays down only for a
host that cannot do 256-byte flits; a flit in order is delivered and acknowledged, one that fails is
asked for again and sent once more, one beyond the next waits for that, and one delivered already is only acknowledged; a request to the guest's memory that no window lets pass is
not sent, and is counted and recorded; a request that times out takes the far die's partition down, and one to a
partition in reset has its error response at once; the TAPs hold the instruction that is open, IDCODE scans out, and an instruction that is not
open is ignored. The flit beyond the next (log 191), the numbers of the TAP's instructions with 7 for TRST_N (log 105) and IDCODE as what the
TAPs hold after TRST_N (log 10) are the model's. -/
def Obligations.PinsAndTestPort : Prop :=
  (∀ s : State, Gives .perstNAssert s fun t => t.pins.perstN = false ∧ t.host.linkWidth = 0 ∧ ∀ o, ∀ q ∈ (ostlerAt t o).queue, byMailbox q = false) ∧
  (∀ s : State, Gives .perstNDeassert s fun t => t.pins = { s.pins with perstN := true } ∧
    (s.domains.getLsbD 41 = true → (t.host.linkWidth = 0 ↔ t.host.only68 = true)) ∧ Touches [.pins, .host, .free] s t) ∧
  (∀ (c : Conn) (away : Bool) (flit : NativeFlit) (s : State), connUp s c = true →
      guestBlocked s (c, away) (d2dLast s c away + 1) flit.sent = none →
    Gives (.d2dFlitReceived (c, away) (d2dLast s c away + 1) flit (connCrc c flit.got)) s fun t => d2dLast t c away = d2dLast s c away + 1 ∧
      t.sent = s.sent ++ [.d2dDeliver c away flit.got, .d2dAck c away (d2dLast s c away + 1)] ∧
      replayBuffer t c away = (replayBuffer s c away).drop 1) ∧
  (∀ (c : Conn) (away : Bool) (seq : Nat) (flit : NativeFlit) (crc : BitVec 16) (s : State), connUp s c = true → connCrc c flit.got ≠ crc → guestBlocked s (c, away) seq flit.sent = none →
      seq ≤ d2dLast s c away + (replayBuffer s c away).length + 1 →
    Gives (.d2dFlitReceived (c, away) seq flit crc) s fun t => d2dLast t c away = d2dLast s c away ∧
      replayBuffer t c away = (if seq = d2dLast s c away + (replayBuffer s c away).length + 1 then replayBuffer s c away ++ [flit.sent] else replayBuffer s c away) ∧
      t.sent = s.sent ++ .d2dReplay c away (d2dLast s c away) :: (replayBuffer t c away).map (.d2dSend c away) ∧
      (assoc? t.dev.d2dReplays c).getD 0 = (assoc? s.dev.d2dReplays c).getD 0 + 1) ∧
  (∀ (c : Conn) (away : Bool) (seq : Nat) (flit : NativeFlit) (s : State), connUp s c = true → d2dLast s c away + 1 < seq →
      seq ≤ d2dLast s c away + (replayBuffer s c away).length + 1 → guestBlocked s (c, away) seq flit.sent = none →
    Gives (.d2dFlitReceived (c, away) seq flit (connCrc c flit.got)) s fun t => d2dLast t c away = d2dLast s c away ∧ t.sent = s.sent ∧ Touches [.dev] s t) ∧
  (∀ (c : Conn) (away : Bool) (seq : Nat) (flit : NativeFlit) (s : State), connUp s c = true → seq ≤ d2dLast s c away → guestBlocked s (c, away) seq flit.sent = none →
    Gives (.d2dFlitReceived (c, away) seq flit (connCrc c flit.got)) s fun t => d2dLast t c away = d2dLast s c away ∧
      t.sent = s.sent ++ [.d2dAck c away (d2dLast s c away)]) ∧
  (∀ (flit : NativeFlit) (crc : BitVec 16) (s : State), connUp s .guest = true →
    Gives (.d2dFlitReceived (.guest, true) (d2dLast s .guest true + (replayBuffer s .guest true).length + 1) flit crc) s fun t =>
      ∀ a n w, Config.guestMem flit.sent = some (a, n, w) → (windowsFor s true a n).any (fun x => x.testBit (if w then 2 else 1)) = false →
        t.sec.denials = s.sec.denials + 1 ∧ fld t.sec.lastDenial.toNat 127 64 = a % 2 ^ 64 ∧
        fld t.sec.lastDenial.toNat 7 4 = (if (windowsFor s true a n).isEmpty then 1 else 2) ∧ fld t.sec.lastDenial.toNat 3 0 = (if w then 2 else 1) ∧
        t.sent = s.sent ∧ Touches [.sec] s t) ∧
  (∀ (p : Fin 8) (s : State), s.domains.getLsbD 48 = true → s.dev.inReset.getLsbD p.val = false → s.dev.on = true → s.dev.down = none →
      s.dev.holdoff = false → s.dev.state ≠ .boot → s.dev.state ≠ .outOfService → s.fw.farrierDown = false → s.steps.older = none → s.steps.younger = none →
    Gives (.d2dTimeout .hub (.compute p)) s fun t => ∀ d ∈ partDomains p.val, t.domains.getLsbD d = false) ∧
  (∀ (q : Die) (p : Fin 8) (s : State), s.domains.getLsbD 48 = true → s.dev.inReset.getLsbD p.val = true → q ≠ .compute p →
    Gives (.d2dTimeout q (.compute p)) s fun t => t.sent = s.sent ++ [.errorReply (dieNo q) (packagePath s (dieNo q) 8)] ∧ Touches [.sent] s t) ∧
  (∀ (i : Fin 7) (s : State), s.dev.on = true → tapOpen (tapOf i.val) = true ∨ s.dev.scanOpen = true →
    Gives (.testPortInstruction i.val) s fun t => t.dev.tap = tapOf i.val ∧ (i.val = 1 → t.sent = s.sent ++ [.tapScan idcodes])) ∧
  (∀ (i : Fin 7) (s : State), s.dev.on = true → tapOpen (tapOf i.val) = false → s.dev.scanOpen = false →
    Gives (.testPortInstruction i.val) s fun t => t.dev.tap = s.dev.tap ∧ t.sent = s.sent) ∧
  (∀ s : State, s.dev.on = true → Gives (.testPortInstruction 7) s fun t => t.dev.tap = .idcode ∧ t.pins.trstN = false ∧ t.sent = s.sent)

/-! ### Dispatch, SIG and WAIT (07 R179 to R191) -/

/-- The dispatch unit takes the next task of a context: its pieces are counted as outstanding, or its COLL goes to the link blocks as one;
held pieces enter the queues in order; SIG and WAIT are dispatched, take effect and are satisfied. That a SIG of context 15 leaves the global
objects alone is read from 12 R337 (log 161); that a command without its event changes nothing is log 2. -/
def Obligations.DispatchAndSync : Prop :=
  (∀ (c : Fin 16) (t : Task) (s : State), taskAt s c.val (ctxAt s c.val).pos = some t → dispatchable s c.val = true →
      firstInLine s c.val = true → isColl t = true →
    Gives (.taskDispatch c (ctxAt s c.val).pos) s fun u => (ctxAt u c.val).pos = (ctxAt s c.val).pos + 1 ∧
      (ctxAt u c.val).left = (ctxAt s c.val).left ++ [((ctxAt s c.val).pos, 1)]) ∧
  (∀ (c : Fin 16) (t : Task) (ps : List (Nat × Piece)) (s : State), taskAt s c.val (ctxAt s c.val).pos = some t →
      dispatchable s c.val = true → firstInLine s c.val = true → isColl t = false → isCoreTask t = true →
      piecesFor s c.val (ctxAt s c.val).step (ctxAt s c.val).pos t = some ps →
    Gives (.taskDispatch c (ctxAt s c.val).pos) s fun u => (ctxAt u c.val).pos = (ctxAt s c.val).pos + 1 ∧
      (ctxAt u c.val).left = (ctxAt s c.val).left ++ [((ctxAt s c.val).pos, ps.length)] ∧
      ∃ l, ps = l ++ (ctxAt u c.val).held) ∧
  (∀ (c : Fin 16) (g : Nat) (pc : Piece) (r : List (Nat × Piece)) (s : State), (ctxAt s c.val).state = .running →
      heldNow s (ctxAt s c.val).held = (g, pc) :: r → g < 145 → hasRoom s g pc = true →
    Gives (.queueRoomFreed c) s fun u => pc ∈ (coreAt u g).queue ∧ ∃ l, r = l ++ (ctxAt u c.val).held) ∧
  (∀ (c : Fin 16) (obj inc : Nat) (mask : BitVec 16) (s : State), nextBody s c.val = some (.sig obj inc mask) → dispatchable s c.val = true →
      firstInLine s c.val = true →
    Gives (.sig c) s fun u => (ctxAt u c.val).pos = (ctxAt s c.val).pos + 1 ∧
      (ctxAt u c.val).sigs = (ctxAt s c.val).sigs ++ [⟨(ctxAt s c.val).pos, (ctxAt s c.val).step, obj, inc, mask⟩] ∧ u.sync = s.sync) ∧
  (∀ (c : Fin 16) (obj target : Nat) (s : State), nextBody s c.val = some (.wait obj target) → dispatchable s c.val = true →
      firstInLine s c.val = true →
    Gives (.wait c) s fun u => (ctxAt u c.val).pos = (ctxAt s c.val).pos + 1 ∧ (ctxAt u c.val).waiting = some (obj, target)) ∧
  (∀ (c : Fin 16) (w : SigWait) (s : State), (ctxAt s c.val).sigs.find? (sigReady s c.val) = some w → objInReset s w.obj = false → 0 < w.inc →
      (c.val = 15 → 4096 ≤ w.obj) →
      (syncAt s w.obj).tag ≤ w.step →
    Gives (.sigTakesEffect c) s fun u => (syncAt u w.obj).tag = w.step ∧
      (syncAt u w.obj).count = min ((if (syncAt s w.obj).tag = w.step then (syncAt s w.obj).count else 0) + w.inc) 0xFFFFFFFF) ∧
  (∀ (w : SigWait) (s : State), (ctxAt s 15).sigs.find? (sigReady s 15) = some w → w.obj < 4096 →
    Gives (.sigTakesEffect 15) s fun u => u.sync = s.sync ∧ ∀ q ∈ (ctxAt u 15).sigs, q.task ≠ w.task) ∧
  (∀ (c : Fin 16) (obj target : Nat) (s : State), (ctxAt s c.val).waiting = some (obj, target) → waitMet s obj target (ctxAt s c.val).step = true →
    Gives (.waitSatisfied c) s fun u => (ctxAt u c.val).waiting = none ∧ (ctxAt u c.val).pos = (ctxAt s c.val).pos) ∧
  (∀ (c : Fin 16) (n : Nat) (s : State), ((ctxAt s c.val).waiting.isSome = true ∨ (ctxAt s c.val).held ≠ [] ∨
      (ctxAt s c.val).state ≠ .running ∨ ∃ k, k < c.val % 15 ∧ dispatchable s k = true) →
    exec (.taskDispatch c n) s = .next s ∧ exec (.sig c) s = .next s ∧ exec (.wait c) s = .next s)

/-! ### Tile work (04 to 06, 10 R248 to R256) -/

/-- A tile operation on the piece at the head of its core's queue, with reserve tiles for its splits, issues: MM, MM_TA, MM_TB, MM_ACC, ATT_F,
ATT_B, EW, RED, NORM, SMAX, OPT, CONV and AMAX on a core, COPY on a core or a DMA engine. The piece leaves the queue and runs, and the tile copies
hold what the operation writes; without tiles it stalls, and is counted. -/
def Obligations.TileOps : Prop :=
  (∀ x ∈ tileOps, ∀ (g : Fin 136) (hw : Hw) (pc : Piece) (t : Task) (s : State), headReady s g.val x.1 = some (pc, t) →
    MayIssue s pc t hw → Gives (x.2 g hw) s fun u => Issued s u g.val pc t hw) ∧
  (∀ (g : Fin 145) (hw : Hw) (pc : Piece) (t : Task) (s : State), headReady s g.val 0x31 = some (pc, t) →
    MayIssue s pc t hw → Gives (.copy g hw) s fun u => Issued s u g.val pc t hw) ∧
  (∀ x ∈ tileOps, ∀ (g : Fin 136) (hw : Hw) (pc : Piece) (t : Task) (s : State), headReady s g.val x.1 = some (pc, t) →
    splitRoom s pc.ctx (splitsNeeded s pc.ctx pc.step (workWrites (workOf s pc t hw))) = false → Gives (x.2 g hw) s fun u => Stalled s u g.val pc) ∧
  (∀ (g : Fin 145) (hw : Hw) (pc : Piece) (t : Task) (s : State), headReady s g.val 0x31 = some (pc, t) →
    splitRoom s pc.ctx (splitsNeeded s pc.ctx pc.step (workWrites (workOf s pc t hw))) = false → Gives (.copy g hw) s fun u => Stalled s u g.val pc)

/-- A piece that completes leaves its core and is no longer outstanding in its task; a stalled piece goes on when tiles are there. -/
def Obligations.PieceCompletion : Prop :=
  (∀ (g : Fin 145) (which : Fin 2) (r : Run) (t : Task) (s : State), (coreAt s g.val).running[which.val]? = some r →
      taskAt s r.piece.ctx r.piece.task = some t → r.stale = false → r.piece.ctx < 16 →
    Gives (.pieceComplete g which) s fun u => (coreAt u g.val).running = (coreAt s g.val).running.eraseIdx which.val ∧
      (ctxAt u r.piece.ctx).left = pieceOff (ctxAt s r.piece.ctx).left r.piece.task) ∧
  (∀ (g : Fin 145) (which : Fin 2) (r : Run) (s : State), (coreAt s g.val).running[which.val]? = some r → r.stale = true →
    Gives (.pieceComplete g which) s fun u => (coreAt u g.val).running = (coreAt s g.val).running.eraseIdx which.val ∧ Touches [.cores] s u) ∧
  (∀ (g : Fin 145) (since c : Nat) (ts : List (Nat × Nat)) (s : State), s.vers.stalled.filter (fun x => x.1 = g.val) = [(g.val, since)] →
      headSplits s g.val = some (c, ts) → splitRoom s c ts = true →
    Gives (.splitStallResume g) s fun u => (∀ x ∈ u.vers.stalled, x.1 ≠ g.val) ∧ u.vers.stallNs = s.vers.stallNs + (s.clk.now - since) ∧
      Touches [.vers] s u) ∧
  (∀ (g : Fin 145) (c : Nat) (ts : List (Nat × Nat)) (s : State), (s.vers.stalled.any fun x => x.1 = g.val) = true → headSplits s g.val = some (c, ts) →
      splitRoom s c ts = false → splitRoom (finishHolds s (ts.length + poolCopies s - s.vers.reserve)) c ts = false →
    exec (.splitStallResume g) s = .next s)

/-- Check pieces issue, are compared, are judged by an arbiter, or run out of time: the core's check ends, and an arbiter that decides nothing
leaves its mismatch unresolved (log 60: read so of one that cannot finish). A SIG's watchdog runs over no wait of its own (log 182). -/
def Obligations.CheckPieces : Prop :=
  (∀ (g : Fin 136) (err : CheckErr) (c : CheckPiece) (s : State), checkReady s g.val = some c → err.eccs = [] → s.mem.marks = [] →
    Gives (.reexecIssue g err) s fun u => (coreAt u g.val).checking = some (c, checkOuts c err) ∧ (coreAt u g.val).lastCheck = true ∧
      (s.steps.arbWait = [] → (coreAt u g.val).checkQ = (coreAt s g.val).checkQ.drop 1)) ∧
  (∀ (g : Fin 136) (c : CheckPiece) (out : UnitOut) (r : CheckRec) (s : State), (coreAt s g.val).checking = some (c, [out]) → c.source ≠ .arbiter →
      findRec s c out.unit = some r → r.digests = out.digests → c.stale = false →
    Gives (.checkPieceComplete g) s fun u => (coreAt u g.val).checking = none ∧ (findRec u c out.unit).map (·.state) = some .matched) ∧
  (∀ (g : Fin 136) (c : CheckPiece) (out : UnitOut) (r : CheckRec) (s : State), (coreAt s g.val).checking = some (c, [out]) → c.source = .sample →
      findRec s c out.unit = some r → r.digests ≠ out.digests →
    Gives (.checkPieceComplete g) s fun u => (coreAt u g.val).checking = none ∧ u.num.mismatch = s.num.mismatch + 1) ∧
  (∀ (g : Fin 136) (c : CheckPiece) (outs : List UnitOut) (s : State), (coreAt s g.val).checking = some (c, outs) → c.source = .arbiter →
    Gives (.arbiterComplete g false) s fun u => (coreAt u g.val).checking = none ∧ u.num.unresolved = s.num.unresolved + 1) ∧
  (∀ (g : Fin 136) (c : CheckPiece) (outs : List UnitOut) (s : State), (coreAt s g.val).checking = some (c, outs) → c.source = .arbiter →
      outs.flatMap (·.digests) = c.prim ∨ outs.flatMap (·.digests) = c.chk →
    Gives (.arbiterComplete g true) s fun u => (coreAt u g.val).checking = none ∧ u.num.unresolved = s.num.unresolved) ∧
  (∀ (g : Fin 136) (c : CheckPiece) (outs : List UnitOut) (s : State), (coreAt s g.val).checking = some (c, outs) → c.source ≠ .arbiter →
      (∀ x ∈ c.units, findRec s c x.unit = none) →
    Gives (.checkWatchdogExpiry g) s fun u => (coreAt u g.val).checking = none ∧ u.num = s.num) ∧
  (∀ (g : Fin 136) (c : CheckPiece) (outs : List UnitOut) (x : UnitOut) (s : State), (coreAt s g.val).checking = some (c, outs) → c.source = .sample →
      c.units = [x] → (findRec s c x.unit).isSome = true →
    Gives (.checkWatchdogExpiry g) s fun u => (coreAt u g.val).checking = none ∧ u.num.mismatch = s.num.mismatch + 1) ∧
  (∀ (g : Fin 145) (which : Fin 2) (r : Run) (s : State), (coreAt s g.val).running[which.val]? = some r → r.stale = false → r.piece.ctx < 16 →
      (ctxAt s r.piece.ctx).state = .running → s.steps.older = none → s.steps.younger = none → s.recov.lostPend = 0 →
    Gives (.pieceWatchdogExpiry (.core g which)) s fun u => (ctxAt u r.piece.ctx).state = .halted ∧ (ctxAt u r.piece.ctx).cause = 3 ∧
      (g.val < 136 → (coreAt u g.val).probe ≠ 0) ∧ (coreAt u g.val).running = (coreAt s g.val).running.eraseIdx which.val) ∧
  (∀ (c : Fin 16) (n : Nat) (s : State), collLeft s c.val = some n → s.recov.wait = false → collHeld s c.val = false →
      assoc? s.vers.stalled (collStall c.val) = none → (ctxAt s c.val).state = .running → s.steps.older = none → s.steps.younger = none →
      s.recov.lostPend = 0 →
    Gives (.pieceWatchdogExpiry (.coll c)) s fun u => (ctxAt u c.val).state = .halted ∧ (ctxAt u c.val).cause = 3 ∧ (ctxAt u c.val).causeTask = n) ∧
  (∀ (c : Fin 16) (obj target : Nat) (s : State), (ctxAt s c.val).waiting = some (obj, target) → objInReset s obj = false → s.recov.wait = false →
      (ctxAt s c.val).state = .running → s.steps.older = none → s.steps.younger = none → s.recov.lostPend = 0 →
    Gives (.pieceWatchdogExpiry (.wait c)) s fun u => (ctxAt u c.val).state = .halted ∧ (ctxAt u c.val).cause = 3 ∧ (ctxAt u c.val).waiting = none) ∧
  (∀ (c : Fin 16) (w : SigWait) (s : State), (ctxAt s c.val).sigs = [w] → (ctxAt s c.val).state = .running → s.steps.older = none → s.steps.younger = none →
      s.recov.lostPend = 0 →
    Gives (.pieceWatchdogExpiry (.sig c)) s fun u => (ctxAt u c.val).state = .halted ∧ (ctxAt u c.val).cause = 3 ∧ (ctxAt u c.val).causeTask = w.task ∧
      (ctxAt u c.val).sigs = [])

/-! ### Collectives (12 R317 to R337) -/

/-- A collective whose members are there and whose splits find tiles completes, where its flits find a way and it reads no lost location: its task is no longer outstanding, and what it sends is counted;
a BARRIER's word stands in its channel until the combined word is there, and then its task is done; a signal that arrives adds one to its object. The one command for a whole COLL, with the
other members' values as operands, is log 28. -/
def Obligations.Collectives : Prop :=
  (∀ (c : Fin 16) (ms : List (List Nat)) (sh : List (List Byte)) (k : CollTask) (u : Unit_) (s : State), collReady s c.val 0 = some k →
      allThere k.group ms = true → allThere k.group sh = true → u = (collWork s c.val k fun s => allReduceUnit s c.val k ms sh) →
      collRoom s c.val k u = true → s.mem.marks = [] → SendsReach s c.val k (reduceSends s c.val k ms ++ gatherSends s c.val k u) →
    Gives (.allReduce c ⟨ms, sh⟩) s fun t => (ctxAt t c.val).left = pieceOff (ctxAt s c.val).left k.pos ∧
      t.coll.sentB = s.coll.sentB + 256 * (reduceSends s c.val k ms ++ gatherSends s c.val k u).length ∧
      t.coll.reduced = s.coll.reduced + addsLeft s c.val k) ∧
  (∀ (c : Fin 16) (ms : List (List Nat)) (k : CollTask) (s : State), collReady s c.val 1 = some k → allThere k.group ms = true →
      collRoom s c.val k (collWork s c.val k fun s => reduceScatterUnit s c.val k ms) = true → s.mem.marks = [] →
      SendsReach s c.val k (reduceSends s c.val k ms) →
    Gives (.reduceScatter c ms) s fun t => (ctxAt t c.val).left = pieceOff (ctxAt s c.val).left k.pos ∧
      t.coll.sentB = s.coll.sentB + 256 * (reduceSends s c.val k ms).length ∧ t.coll.reduced = s.coll.reduced + addsLeft s c.val k) ∧
  (∀ (c : Fin 16) (ms : List (List Byte)) (k : CollTask) (u : Unit_) (s : State), collReady s c.val 2 = some k → allThere k.group ms = true →
      u = (collWork s c.val k fun s => gatherUnit s c.val k ms) → collRoom s c.val k u = true → s.mem.marks = [] →
      SendsReach s c.val k (gatherSends s c.val k u) →
    Gives (.allGather c ms) s fun t => (ctxAt t c.val).left = pieceOff (ctxAt s c.val).left k.pos ∧
      t.coll.sentB = s.coll.sentB + 256 * (gatherSends s c.val k u).length ∧ t.coll.reduced = s.coll.reduced) ∧
  (∀ (c : Fin 16) (k : CollTask) (s : State), collReady s c.val 3 = some k → collRoom s c.val k { unit := 0 } = true → s.mem.marks = [] →
      SendsReach s c.val k (sendSends s c.val k) →
    Gives (.send c) s fun t => (ctxAt t c.val).left = pieceOff (ctxAt s c.val).left k.pos ∧
      t.coll.sentB = s.coll.sentB + 256 * (sendSends s c.val k).length ∧ t.vers.copies = s.vers.copies) ∧
  (∀ (c : Fin 16) (data : List Byte) (k : CollTask) (s : State), collReady s c.val 4 = some k →
      collRoom s c.val k { unit := 0, writes := [⟨k.dst, 0, recvBytes s (tensorBytes (tensorAt (progAt s c.val) k.dst)) data⟩] } = true → s.mem.marks = [] →
    Gives (.recv c data) s fun t => (ctxAt t c.val).left = pieceOff (ctxAt s c.val).left k.pos ∧ t.coll.sentB = s.coll.sentB) ∧
  (∀ (c : Fin 16) (k : CollTask) (s : State), collReady s c.val 5 = some k → (chanAt s k.group.channel).own = none → k.group.channel < 64 →
      barrierSplits s c.val k = [] → splitRoom s c.val [] = true →
      chanWordOf (chanOwn (onChan (collGoes s c.val k.pos) k.group.channel fun x => { x with task := some k.pos }) k.group.channel
        (chanAt s k.group.channel).gen k.group.bop c.val (barrierWord s c.val k)) k.group.channel = none →
    Gives (.barrier c) s fun t => (chanAt t k.group.channel).own = some (barrierWord s c.val k) ∧ (chanAt t k.group.channel).state = 2 ∧
      (chanAt t k.group.channel).gen = (chanAt s k.group.channel).gen) ∧
  (∀ (c : Fin 16) (k : CollTask) (w : BitVec 32) (s : State), collReady s c.val 5 = some k → (chanAt s k.group.channel).own = none →
      k.group.channel < 64 → barrierSplits s c.val k = [] → splitRoom s c.val [] = true →
      chanWordOf (chanOwn (onChan (collGoes s c.val k.pos) k.group.channel fun x => { x with task := some k.pos }) k.group.channel
        (chanAt s k.group.channel).gen k.group.bop c.val (barrierWord s c.val k)) k.group.channel = some w → collHeld s c.val = false → s.mem.marks = [] →
    Gives (.barrier c) s fun t => (ctxAt t c.val).left = pieceOff (ctxAt s c.val).left k.pos) ∧
  (∀ (c : Fin 16) (k : CollTask) (s : State), collReady s c.val 6 = some k → s.mem.marks = [] → SendsReach s c.val k [signalFlit k] →
    Gives (.signal c) s fun t => (ctxAt t c.val).left = pieceOff (ctxAt s c.val).left k.pos ∧ t.coll.sentB = s.coll.sentB + 256) ∧
  (∀ (c : Fin 16) (gi n o : Nat) (a : BitVec 4) (s : State), a.toNat = s.steps.attempt % 16 → (progAt s c.val).groups[gi]?.bind (·.notifyObj) = some o →
      objInReset s o = false → (syncAt s o).tag ≤ n →
    Gives (.signalArrival c gi n a) s fun t => (syncAt t o).tag = n ∧
      (syncAt t o).count = min ((if (syncAt s o).tag = n then (syncAt s o).count else 0) + 1) 0xFFFFFFFF ∧ t.coll.signals = s.coll.signals + 1) ∧
  (∀ (c : Fin 16) (gi n : Nat) (a : BitVec 4) (s : State), a.toNat ≠ s.steps.attempt % 16 →
    Gives (.signalArrival c gi n a) s fun t => t.coll.stale = s.coll.stale + 1 ∧ t.sync = s.sync ∧ Touches [.coll] s t)

/-! ### The course of a step (07 R188 to R193, 10 R260 to R268) -/

/-- A step begins with its contexts at their first task; its batch is polled for and read; a replay begins again from committed versions. What a partition reset takes from a batch is log 169. -/
def Obligations.StepCourse : Prop :=
  (∀ (n : Nat) (s : State), nextStep s = some n → mayBegin s n = true →
    Gives .stepBoundary s fun t => (openAt t n).map (·.step) = some n ∧
      ∀ c ∈ stepCtxs s, isLive (ctxAt s c) = true → (ctxAt t c).step = n ∧ (ctxAt t c).pos = 0 ∧ (ctxAt t c).left = []) ∧
  (∀ (filled : Nat) (s : State), s.fetch.state = 1 → cxlUp s = true →
    Gives (.batchHeaderPoll s.fetch.step filled) s fun t => t.fetch.state = 2 ∧ t.fetch.filled = filled ∧ t.fetch.step = s.fetch.step ∧
      t.sent = s.sent ++ [.pollHeader s.fetch.step (slotAddr s s.fetch.step), .readBody s.fetch.step (slotAddr s s.fetch.step) filled]) ∧
  (∀ (h filled : Nat) (s : State), s.fetch.state = 1 → cxlUp s = true → h ≠ s.fetch.step →
    Gives (.batchHeaderPoll h filled) s fun t => t.fetch = s.fetch ∧ t.sent = s.sent ++ [.pollHeader s.fetch.step (slotAddr s s.fetch.step)]) ∧
  (∀ (body : List Byte) (s : State), s.fetch.state = 2 → cxlUp s = true → batchShut s = false →
    Gives (.batchFetchDone body) s fun t => assoc? t.fetch.batches s.fetch.step = some (body.take s.fetch.filled) ∧
      (t.fetch.state = 3 ∨ t.fetch.state = 1)) ∧
  (∀ (body : List Byte) (s : State), s.fetch.state = 2 → cxlUp s = true → batchShut s = true →
    Gives (.batchFetchDone body) s fun t => t.sent = s.sent ++ [.errorReply 8 []] ∧ t.fetch.batches = s.fetch.batches ∧ s.fetch.step ∈ t.fetch.again) ∧
  (∀ (n : Nat) (s : State), s.steps.replayDue = some n → replayReady s = true → s.steps.older = none →
    Gives .replayDispatch s fun t => t.steps.replayDue = none ∧ t.steps.older.map (·.step) = some n ∧ ∀ k ∈ t.vers.copies, isWork k = false)

/-- A module that may contribute: where its verdict is known to fail, and nothing else is noticed or lost, the abort completes the step at
once, and its replay is due; where every condition holds, its clean word stands for the step until the combined word is there. -/
def Obligations.Verdict : Prop :=
  (∀ (o : OpenStep) (s : State), s.steps.older = some o → mayContribute s = true → verdictFails s o = true → s.steps.replayActive = false →
      s.recov.role = .working → (∀ k, k < 8 → (abortWord s o.step).testBit (8 + k) = (decide (k = 6) && s.recov.hold)) →
    Gives .verdictContribute s fun t => t.steps.aborts = s.steps.aborts + 1 ∧ t.steps.attempt = (s.steps.attempt + 1) % 256 ∧
      t.steps.rollbacks = s.steps.rollbacks + 1 ∧ t.steps.replayDue = some o.step ∧ t.steps.older = none ∧ t.steps.younger = none ∧
      t.steps.committed = s.steps.committed) ∧
  (∀ (o : OpenStep) (s : State), s.steps.older = some o → mayContribute s = true → verdictFails s o = false → verdictClean s o = true →
      chanWordOf (chanOwn { s with steps := { s.steps with older := some { o with status := .contributed }, contribAt := s.clk.now, lagOwn := fld (cleanContribution s).toNat 31 16 } } 0 (gen0 o.step) 0 0xF (cleanContribution s)) 0 = none →
    Gives .verdictContribute s fun t => t.steps.older = some { o with status := .contributed } ∧ t.steps.contribAt = s.clk.now ∧
      (chanAt t 0).own = some (cleanContribution s) ∧ t.steps.committed = s.steps.committed) ∧
  (∀ (o : OpenStep) (s : State), s.steps.older = some o → verdictFails s o = false → verdictClean s o = false → exec .verdictContribute s = .next s)

/-! ### Sync lanes (11 R284 to R308, 12 R331, R333) -/

/-- Frames in service: an UP value joins its channel's side; an abort of the step in progress is taken once and its replay is due; one of the
next step is held, and nothing is rolled back by it yet; LEAVING and STATE are noted of the neighbour; IDLE refreshes the heartbeat; a silent lane takes its link down. -/
def Obligations.SyncLanes : Prop :=
  (∀ (l : Fin 48) (f : BitVec 96) (plus : Bool) (s : State), frameDue s l.val 1 f = true → frOk f = true → frameNew s l.val f = true →
      barriersOn (frameIn s l.val f) = true → upAxis (frLoad f) < 3 → fencedSide (frameIn s l.val f) (linkDir s l.val) = false → s.recov.role ≠ .fenced →
      stepInBlock s (ownCoord s) (linkDir s l.val) = true → attemptOk s (frLoad f) = true → 2 ≤ upChan (frLoad f) → upChan (frLoad f) < 64 →
      upSide (frameIn s l.val f) (frLoad f) (linkDir s l.val) = some plus →
      upGen (frLoad f) = genNow (frameIn s l.val f) (upChan (frLoad f)) (upGen (frLoad f)) →
      chanWordOf (chanTake (frameIn s l.val f) (upChan (frLoad f)) (upGen (frLoad f)) (upOp (frLoad f)) (upAxis (frLoad f)) plus (upCount (frLoad f))
        (upValue (frLoad f))) (upChan (frLoad f)) = none →
    Gives (.syncUpFrame l f) s fun t => upCount (frLoad f) ≤
      (upFrom (chanAt t (upChan (frLoad f))) (upChan (frLoad f)) (upGen (frLoad f)) (upAxis (frLoad f)) plus).1) ∧
  (∀ (l : Fin 48) (f : BitVec 96) (s : State), frameDue s l.val 2 f = true → frOk f = true → frameNew s l.val f = true →
      barriersOn (frameIn s l.val f) = true → upChan (frLoad f) = 0 → fencedSide (frameIn s l.val f) (linkDir s l.val) = false → s.recov.role = .working →
      s.dev.state = .joined ∨ s.dev.state = .recovery → stepInBlock s (ownCoord s) (linkDir s l.val) = true → attemptOk s (frLoad f) = true →
      upGen (frLoad f) = gen0 (downStep s (frLoad f)) →
      s.steps.replayActive = false → (s.recov.hold && s.recov.holdOwed) = false →
      (∀ k, k < 8 → ((upValue (frLoad f)).toNat ||| fenceBits s).testBit (8 + k) = (k = 6 && s.recov.hold)) →
    Gives (.syncDownFrame l f) s fun t => t.steps.aborts = s.steps.aborts + 1 ∧ t.steps.replayDue = some (downStep s (frLoad f)) ∧
      t.steps.committed = s.steps.committed) ∧
  (∀ (l : Fin 48) (f : BitVec 96) (s : State), frameDue s l.val 2 f = true → frOk f = true → frameNew s l.val f = true →
      barriersOn (frameIn s l.val f) = true → upChan (frLoad f) = 0 → fencedSide (frameIn s l.val f) (linkDir s l.val) = false → s.recov.role = .working →
      s.dev.state = .joined ∨ s.dev.state = .recovery → stepInBlock s (ownCoord s) (linkDir s l.val) = true → attemptOk s (frLoad f) = true →
      upGen (frLoad f) = gen0 (downStep s (frLoad f) + 1) → (∀ k, k < 6 → (upValue (frLoad f)).toNat.testBit (8 + k) = false) →
    Gives (.syncDownFrame l f) s fun t =>
      (chanAt t 0).early = (chanAt s 0).early ++ [(upGen (frLoad f), 3, false, dirCode (linkDir s l.val), upValue (frLoad f))] ∧
      t.steps = s.steps ∧ t.recov = s.recov) ∧
  (∀ (l : Fin 48) (f : BitVec 96) (s : State), frameDue s l.val 3 f = true → frOk f = true → frameNew s l.val f = true →
    Gives (.syncLeavingFrame l f) s fun t => (sideOf t (linkDir s l.val)).left = fld (frLoad f) 2 0) ∧
  (∀ (l : Fin 48) (f : BitVec 96) (s : State), frameDue s l.val 4 f = true → frOk f = true → frameNew s l.val f = true → fld (frLoad f) 2 0 ≠ 0 →
    Gives (.syncStateFrame l f) s fun t => (sideOf t (linkDir s l.val)).nbState = some (devOfCode (fld (frLoad f) 2 0))) ∧
  (∀ (l : Fin 48) (f : BitVec 96) (s : State), frameDue s l.val 0 f = true → frOk f = true →
    Gives (.syncIdleFrame l f) s fun t => (linkAt t l.val).lastFrame = s.clk.now ∧ (sideOf t (linkDir s l.val)).silent = false) ∧
  (∀ (l : Fin 48) (s : State), s.dev.on = true → inService (linkAt s l.val) = true → scanDrives s = false →
    Gives (.idleFrameSend l) s fun t => t.sent = s.sent ++ [.frame l.val (frameOf 0 0 0)]) ∧
  (∀ (l : Fin 48) (s : State), inService (linkAt s l.val) = true →
    Gives (.syncLaneHeartbeatLoss l) s fun t => inService (linkAt t l.val) = false ∧ s.clk.now ≤ t.clk.now) ∧
  (∀ (d : Dir) (s : State), sideServed s d = true → (sideOf s d).silent = false →
    Gives (.bundleSilent d) s fun t => (sideOf t d).silent = true ∧ (sideOf t d).lossAt = t.clk.now)

/-- A frame whose CRC fails counts as an error of its lane and has no other effect, whatever its type (11 R286). -/
def Obligations.BadFrames : Prop :=
  ∀ x ∈ [(0, Instr.syncIdleFrame), (1, Instr.syncUpFrame), (2, Instr.syncDownFrame), (3, Instr.syncLeavingFrame), (4, Instr.syncStateFrame)],
    ∀ (l : Fin 48) (f : BitVec 96) (s : State), s.dev.on = true → inService (linkAt s l.val) = true → frOk f = false →
      Gives (x.2 l f) s fun t => (linkAt t l.val).syncErr = (linkAt s l.val).syncErr + 1 ∧ (linkAt t l.val).lastFrame = (linkAt s l.val).lastFrame ∧
        Touches [.links] s t

/-! ### Fencing (15 R411 to R414) -/

/-- A silent bundle's neighbour, or one long in RECOVERY, is proposed for a fence with reason 1 or 4 and flooded; proposals are flooded again;
an abort is made for a fenced neighbour whose frame is held; a new record is forwarded and kept; a missing record is asked for. What goes to the
neighbours follows as control flits (log 224). -/
def Obligations.Fencing : Prop :=
  (∀ (d : Dir) (s : State), (sideOf s d).silent = true → inJob s = true → stepInBlock s (ownCoord s) d = true →
      inBlock s (stepCoord s (ownCoord s) d) = true → knowsFence s (fenceRec s (serialOf s d) (stepCoord s (ownCoord s) d) 1) = false →
      forwards s.dev.state = true →
    Gives (.fenceProposalTimer d) s fun t =>
      t.recov.own.map (·.1) = s.recov.own.map (·.1) ++ [fenceRec s (serialOf s d) (stepCoord s (ownCoord s) d) 1] ∧
      ∃ more, t.sent = s.sent ++ .fence (fenceRec s (serialOf s d) (stepCoord s (ownCoord s) d) 1) (liveDirs s) :: more) ∧
  (∀ (d : Dir) (s : State), s.recov.wait = true → (sideOf s d).nbState = some .recovery → inJob s = true →
      stepInBlock s (ownCoord s) d = true → inBlock s (stepCoord s (ownCoord s) d) = true →
      knowsFence s (fenceRec s (serialOf s d) (stepCoord s (ownCoord s) d) 4) = false →
    Gives (.recoveryPatienceExpiry d) s fun t =>
      t.recov.own.map (·.1) = s.recov.own.map (·.1) ++ [fenceRec s (serialOf s d) (stepCoord s (ownCoord s) d) 4]) ∧
  (∀ s : State, s.recov.own ≠ [] → forwards s.dev.state = true →
    Gives .fenceFloodRepeat s fun t => (∀ x ∈ s.recov.own, .fence x.1 (liveDirs s) ∈ t.sent) ∧ t.recov = s.recov) ∧
  (∀ s : State, forwards s.dev.state = false → Gives .fenceFloodRepeat s fun t => t.sent = s.sent ∧ t.recov = s.recov) ∧
  (∀ (slot : Fin 6) (r : BitVec 128) (at_ : Nat) (d : Dir) (s : State), s.recov.own.find? (fun x => slotOf x.1 = slot.val) = some (r, at_) →
      fenceCoord r ≠ ownCoord s → dirTo s (fenceCoord r) = some d → holdsFrom s d = true →
    Gives (.fenceProxyAbort slot) s fun t => (chanAt t 0).early = (chanAt s 0).early ++
      [(gen0 (stepClosing s + 1), 3, false, dirCode d, BitVec.ofNat 32 (abortWord s (stepClosing s)))]) ∧
  (∀ (l : Fin 48) (r : BitVec 128) (s : State), inService (linkAt s l.val) = true → forwards s.dev.state = true → inBlock s (fenceCoord r) = true →
      knowsFence s r = false → s.recov.dropped.any (sameFence r) = false → fenceCoord r ≠ ownCoord s → inJob s = true →
      s.recov.asked.getLsbD (slotOf r) = false →
    Gives (.fenceRecordReceived l r) s fun t => t.recov.known = s.recov.known ++ [r] ∧
      ∃ more, t.sent = s.sent ++ .fence r ((liveDirs s).filter fun d => d ≠ dirCode (linkDir s l.val)) :: more) ∧
  (∀ (slot : Fin 6) (s : State), s.recov.asked.getLsbD slot.val = true → holdsSlot s slot.val = false →
    Gives (.fenceRecordRequest slot) s fun t => (∃ more, t.sent = s.sent ++ .askRecord slot.val :: more) ∧ t.recov = s.recov) ∧
  (∀ (src : Src) (coord : BitVec 32) (d : Dir) (s : State), Passes s src 0x84000E 4 coord.toNat (fenceOwn s coord.toNat) → neighbourAt s coord.toNat = some d →
      stepInBlock s (ownCoord s) d = true → inBlock s (stepCoord s (ownCoord s) d) = true →
      knowsFence s (fenceRec s (serialOf s d) (stepCoord s (ownCoord s) d) 6) = false →
    Gives (.fenceCommand src coord) s fun t => t.recov.own.map (·.1) = s.recov.own.map (·.1) ++
      [fenceRec s (serialOf s d) (stepCoord s (ownCoord s) d) 6])

/-! ### Takeover, refill, mirror (15 R403, R409, R418) -/

/-- A takeover with the right program makes the module WORKING with step c + 1 due again, and with another one loses the job; a refill is done;
mirror streams are kept and acknowledged; a module-state piece is kept. When a refill is done is read as in log 184. -/
def Obligations.TakeoverAndMirror : Prop :=
  (∀ (tensors : List (Nat × Nat × List Byte)) (recs : List (BitVec 128)) (s : State), s.recov.role = .taking →
      ostlerBusy s 2 = false → takeoverComplete s tensors = true →
    Gives (.takeoverDone true tensors recs) s fun t => t.recov.role = .working ∧ t.recov.taking = none ∧
      t.steps.replayDue = some (s.steps.committed + 1) ∧ t.steps.committed = s.steps.committed) ∧
  (∀ (tensors : List (Nat × Nat × List Byte)) (recs : List (BitVec 128)) (s : State), s.recov.role = .taking → ostlerBusy s 2 = false →
      takeoverComplete s tensors = false → exec (.takeoverDone true tensors recs) s = .next s) ∧
  (∀ (tensors : List (Nat × Nat × List Byte)) (recs : List (BitVec 128)) (o : OpenStep) (s : State), s.recov.role = .taking → ostlerBusy s 2 = false →
      s.recov.lostPend = 0 → s.steps.older = some o → o.status = .contributed →
    Gives (.takeoverDone false tensors recs) s fun t => t.recov.lostPend = 5 ∧ Touches [.recov] s t) ∧
  (∀ (p : Fin 8) (tiles : List (Nat × Nat × Nat × List Byte)) (recs : List (BitVec 128)) (s : State), s.recov.refills.getLsbD p.val = true →
      s.dev.inService.getLsbD p.val = true → (∀ g ∈ missingTiles s p.val, g ∈ tiles.map fun x => (x.1, x.2.1, x.2.2.1)) →
    Gives (.refillDone ⟨p, tiles, recs⟩) s fun t => t.recov.refills.getLsbD p.val = false ∧
      ∀ g ∈ missingTiles s p.val, (copyOf t g.1 g.2.1 g.2.2 .committed).isSome = true) ∧
  (∀ (p : Fin 8) (tiles : List (Nat × Nat × Nat × List Byte)) (recs : List (BitVec 128)) (s : State),
      (∃ g ∈ missingTiles s p.val, g ∉ tiles.map fun x => (x.1, x.2.1, x.2.2.1)) → exec (.refillDone ⟨p, tiles, recs⟩) s = .next s) ∧
  (∀ (n : Nat) (tensors : List (Nat × Nat × List Byte)) (recs : List (BitVec 128)) (s : State), isMirror s = true →
      mirrorShut s (mirrorTiles .committed tensors) = false →
    Gives (.mirrorStreamReceived n true tensors recs) s fun t => t.vers.mirrorRecs = recs ∧
      (t.vers.copies.filter fun k => isMirrorTile k && decide (k.kind = .committed)) = mirrorTiles .committed tensors ∧ t.recov.rebuild = false ∧
      t.sent.getLast? = some (.mirrorAck n)) ∧
  (∀ (n : Nat) (tensors : List (Nat × Nat × List Byte)) (recs : List (BitVec 128)) (s : State), isMirror s = true →
      mirrorShut s (mirrorTiles .committed tensors) = false → n = s.steps.committed + 1 ∨ n = s.steps.committed + 2 →
      (mirrorSplits s (mirrorTiles (workKind s 0 n) tensors)).length + poolCopies s ≤ s.vers.reserve →
    Gives (.mirrorStreamReceived n false tensors recs) s fun t => (∀ k ∈ mirrorTiles (workKind s 0 n) tensors, k ∈ t.vers.copies) ∧
      t.vers.mirrorRecs = s.vers.mirrorRecs ∧ t.sent = s.sent ++ [.mirrorAck n]) ∧
  (∀ (n : Nat) (again : Bool) (tensors : List (Nat × Nat × List Byte)) (recs : List (BitVec 128)) (s : State), isMirror s = true →
      mirrorShut s (mirrorTiles .committed tensors) = true →
    Gives (.mirrorStreamReceived n again tensors recs) s fun t => t.sent = s.sent ++ [.errorReply 8 []] ∧ Touches [.sent] s t) ∧
  (∀ (o : OpenStep) (s : State), s.steps.older = some o → o.mirrorSent = true →
    Gives (.mirrorAckReceived o.step) s fun t => t.steps.older = some { o with mirrorAcked := true }) ∧
  (∀ s : State, Gives .mirrorRebuildDone s fun t => t.recov = { s.recov with single := s.recov.owed, rebuilding := false } ∧ Touches [.recov] s t) ∧
  (∀ (cut : Nat) (piece : List Byte) (s : State), isMirror s = true →
    Gives (.moduleStatePieceReceived cut piece) s fun t => assoc? t.ckpt.partnerPieces cut = some piece ∧
      (∀ c, c ≠ cut → assoc? t.ckpt.partnerPieces c = assoc? s.ckpt.partnerPieces c) ∧ Touches [.ckpt] s t)

/-! ### Data links (11 R280 to R310) -/

/-- Flits in order are acknowledged and their SEQ and credits taken, others are asked for again; too many lost codewords fence the link; a NAK
brings the replays, and the eighth failed one the end of the link; an error return reaches its source. -/
def Obligations.LinkFlits : Prop :=
  (∀ (l : Fin 48) (h : BitVec 96) (pay : List Byte) (ws : List (List (Fin 544))) (s : State), inService (linkAt s l.val) = true → fecLost ws = 0 →
      tooManyErrors (fecCounts s.clk.now ws (linkAt s l.val)) = false → BitVec.ofNat 16 (hdSeq h) = (linkAt s l.val).rxSeq + 1 →
    Gives (.linkFlitReceived l h pay (flitCrc h pay) ws none) s fun t => ∃ u, t = flitOn (drainLink u l.val) l.val h pay ∧ Touches [.links, .sent] s u ∧
      u.sent = s.sent ++ [.ack l.val (BitVec.ofNat 16 (hdSeq h))] ∧ (linkAt u l.val).rxSeq = BitVec.ofNat 16 (hdSeq h) ∧
      (linkAt u l.val).credits = updN (linkAt s l.val).credits (hdVc h) (· + 1) ∧
      (linkAt u l.val).txCred = updN (linkAt s l.val).txCred (fld h.toNat 15 14) (· + fld h.toNat 13 0) ∧
      (linkAt u l.val).fecCorr = (linkAt s l.val).fecCorr + (fecCorrected ws).length) ∧
  (∀ (l : Fin 48) (h : BitVec 96) (pay : List Byte) (crc : BitVec 32) (ws : List (List (Fin 544))) (ack : Option (BitVec 16)) (s : State),
      inService (linkAt s l.val) = true → tooManyErrors (fecCounts s.clk.now ws (linkAt s l.val)) = false → (fecLost ws ≠ 0 ∨ flitCrc h pay ≠ crc) →
    Gives (.linkFlitReceived l h pay crc ws ack) s fun t => (linkAt t l.val).rxSeq = (linkAt s l.val).rxSeq ∧
      (linkAt t l.val).fecUncorr = (linkAt s l.val).fecUncorr + fecLost ws ∧
      t.sent = s.sent ++ [.nak l.val (linkAt s l.val).rxSeq] ∧ Touches [.links, .sent] s t) ∧
  (∀ (l : Fin 48) (h : BitVec 96) (pay : List Byte) (crc : BitVec 32) (ws : List (List (Fin 544))) (ack : Option (BitVec 16)) (s : State),
      inService (linkAt s l.val) = true → tooManyErrors (fecCounts s.clk.now ws (linkAt s l.val)) = true → ostlerBusy s 1 = false →
    Gives (.linkFlitReceived l h pay crc ws ack) s fun t => (linkAt t l.val).state = .fenced) ∧
  (∀ (l : Fin 48) (g : BitVec 16) (s : State), inService (linkAt s l.val) = true → (linkAt s l.val).waits = [] → forwards s.dev.state = true →
      (∀ f ∈ (ackedTo (some g) (linkAt s l.val)).txBuf, f.replays < 8 ∧ mayStillGo s (linkDir s l.val) f = true) →
    Gives (.linkNakReceived l g) s fun t => t.sent = s.sent ++ (linkReplays (ackedTo (some g) (linkAt s l.val))).txBuf.map (onWire l.val) ∧
      (linkAt t l.val).replays = (linkAt s l.val).replays + (ackedTo (some g) (linkAt s l.val)).txBuf.length) ∧
  (∀ (l : Fin 48) (g : BitVec 16) (s : State), inService (linkAt s l.val) = true →
      (∃ f ∈ (ackedTo (some g) (linkAt s l.val)).txBuf, f.replays ≥ 8) →
    Gives (.linkNakReceived l g) s fun t => inService (linkAt t l.val) = false) ∧
  (∀ (l : Fin 48) (h : BitVec 96) (pay : List Byte) (s : State), inService (linkAt s l.val) = true → hdType h = 1 → (linkAt s l.val).waits = [] →
      tooManyErrors (linkAt s l.val) = false → BitVec.ofNat 16 (hdSeq h) = (linkAt s l.val).rxSeq + 1 →
      stepInBlock s (ownCoord s) (linkDir s l.val) = true → forwards s.dev.state = true → nextHop s h (some (opposite (linkDir s l.val))) = .here →
    Gives (.errorReturnReceived l ⟨h, pay, flitCrc h pay, [], none⟩) s fun t => t.topo.errReturns = s.topo.errReturns ++ [h] ∧
      (linkAt t l.val).rxSeq = BitVec.ofNat 16 (hdSeq h))

/-- A failing lane goes to the spare, and without a spare its link is fenced; a lane within its limit is only recorded; the peaking follows
the lane's equaliser. Any failure of a lane while the spare is in use as
the second one is read so (log 164). -/
def Obligations.LinkLanes : Prop :=
  (∀ (l : Fin 48) (lane : Fin 16) (s : State), (linkAt s l.val).trained = true → lane.val ∉ (linkAt s l.val).laneBad → (linkAt s l.val).spareUsed = false →
    Gives (.laneLossOfLock l lane) s fun t => (linkAt t l.val).spareUsed = true ∧ (linkAt t l.val).swapped = lane.val ∧
      (linkAt t l.val).laneBad = (linkAt s l.val).laneBad ++ [lane.val] ∧ (linkAt t l.val).state = (linkAt s l.val).state) ∧
  (∀ (l : Fin 48) (lane : Fin 16) (s : State), (linkAt s l.val).trained = true → (linkAt s l.val).spareUsed = true →
    Gives (.laneLossOfLock l lane) s fun t => (linkAt t l.val).state = .fenced) ∧
  (∀ (l : Fin 48) (lane : Fin 16) (errors symbols : Nat) (s : State), (linkAt s l.val).trained = true →
      (errors + (linkAt s l.val).symErrs[lane]) * 50000 ≤ symbols →
    Gives (.laneErrorWindow l lane errors symbols) s fun t => (linkAt t l.val).laneBad = (linkAt s l.val).laneBad ∧
      (linkAt t l.val).serWin.head? = some (s.clk.now, errors + (linkAt s l.val).symErrs[lane], symbols) ∧ (linkAt t l.val).symErrs[lane] = 0) ∧
  (∀ (l : Fin 48) (lane : Fin 16) (errors symbols : Nat) (s : State), (linkAt s l.val).trained = true →
      symbols < (errors + (linkAt s l.val).symErrs[lane]) * 50000 → (linkAt s l.val).spareUsed = false →
    Gives (.laneErrorWindow l lane errors symbols) s fun t => (linkAt t l.val).spareUsed = true ∧ (linkAt t l.val).swapped = lane.val) ∧
  (∀ (l : Fin 48) (lane : Fin 16) (s : State), (linkAt s l.val).trained = true →
    Gives (.ctleReevaluation l lane) s fun t => (linkAt t l.val).ctle[lane] = Config.equaliser (16 * l.val + lane.val) (linkAt s l.val).ctleSeq ∧
      (linkAt t l.val).dfe[lane] = dfeTaps l.val lane.val (linkAt s l.val).ctleSeq ∧
      (linkAt t l.val).state = (linkAt s l.val).state ∧ Touches [.links] s t)

/-- Training ends in discovery, or in MISSING, which is tried again; discovery records go out until they are answered; the far end's record puts
the link in service or leaves it REFUSED; the owner fences a link. -/
def Obligations.LinkTraining : Prop :=
  (∀ (l : Fin 48) (latency : Nat) (s : State), mayTrain s l.val = true → permanentLanes s l.val = [] → unitGone s ⟨5, l.val⟩ = false →
    Gives (.linkTrainingDone l latency) s fun t => (linkAt t l.val).trained = true ∧ (linkAt t l.val).state = .training ∧
      (linkAt t l.val).latency = latency ∧ (linkAt t l.val).dir = some (assigned s.dict.latched.ratio l.val).1 ∧
      t.sent = s.sent ++ [.discovery l.val (ownRecord t l.val)]) ∧
  (∀ (l : Fin 48) (latency : Nat) (s : State), mayTrain s l.val = true → unitGone s ⟨5, l.val⟩ = true →
    Gives (.linkTrainingDone l latency) s fun t => (linkAt t l.val).state = .fenced) ∧
  (∀ (l : Fin 48) (s : State), mayTrain s l.val = true → ostlerBusy s 1 = false →
    Gives (.linkLockTimeout l) s fun t => (linkAt t l.val).state = .down ∧ (linkAt t l.val).cls = .missing) ∧
  (∀ (l : Fin 48) (s : State), mayTrain s l.val = true → (linkAt s l.val).cls = .missing → ostlerBusy s 1 = false →
    Gives (.linkTrainingRetry l) s fun t => (linkAt t l.val).state = .training ∧ t.sent = s.sent ++ [.train l.val]) ∧
  (∀ (l : Fin 48) (s : State), (linkAt s l.val).trained = true → ((linkAt s l.val).recOk && (linkAt s l.val).recAcked) = false →
    Gives (.discoveryRecordSend l) s fun t => t.sent = s.sent ++ [.discovery l.val (ownRecord s l.val)] ∧ Touches [.sent] s t) ∧
  (∀ (l : Fin 48) (r : BitVec 256) (s : State), (linkAt s l.val).trained = true → ostlerBusy s 1 = false → serves s (classOf s l.val r) = true →
      otherModule (linkAt s l.val) r = false →
    Gives (.discoveryRecordReceived l r) s fun t => inService (linkAt t l.val) = true ∧ (linkAt t l.val).cls = classOf s l.val r ∧
      (linkAt t l.val).farSerial = some (recSerial r)) ∧
  (∀ (l : Fin 48) (r : BitVec 256) (s : State), (linkAt s l.val).trained = true → ostlerBusy s 1 = false →
      serves s (classOf s l.val r) = false ∨ otherModule (linkAt s l.val) r = true →
    Gives (.discoveryRecordReceived l r) s fun t => (linkAt t l.val).state = .refused ∧ (linkAt t l.val).cls = classOf s l.val r) ∧
  (∀ (src : Src) (v : BitVec 8) (s : State), Passes s src 0x30000A 1 v.toNat (linkFenceOwn s v.toNat) → v.toNat < 48 →
    Gives (.linkFenceCommand src v) s fun t => (linkAt t v.toNat).state = .fenced)

/-! ### Programs and contexts (07 R186, R187, R195, R196) -/

/-- A load request makes its context LOADING and copies the image; the pass ends in LOADED with the accepted program, or in EMPTY with the
first reason, 0x21 where the tensors find no place beside those of other contexts. The order of the search for places is the model's
(log 50). -/
def Obligations.ProgramLoad : Prop :=
  (∀ (src : Src) (req : BitVec 128) (s : State), Passes s src 0x210010 16 req.toNat (loadOwn s req) →
    Gives (.programLoadRequest src req) s fun t => (ctxAt t (reqContext req)).state = .loading ∧ t.load.status = 1 ∧ t.load.ctx = reqContext req ∧
      t.load.image = some (memTake s.staging (reqOffset req) (reqLength req)) ∧ t.staging = s.staging) ∧
  (∀ s : State, s.load.status = 1 → ostlerBusy s 0 = false → s.load.ctx < 16 →
    Gives .programLoadDone s fun t =>
      (∀ p, (judgeImage (judgeView (loadLatch s s.load.ctx) s.load.ctx) s.load).prog = some p →
          placeTrouble (acceptLoad (loadLatch s s.load.ctx) s.load.ctx p) s.load.ctx = none →
        t.load.status = 2 ∧ (ctxAt t s.load.ctx).state = .loaded ∧ (ctxAt t s.load.ctx).prog = some p) ∧
      ((judgeImage (judgeView (loadLatch s s.load.ctx) s.load.ctx) s.load).prog = none →
        t.load.status = 3 ∧ t.load.reason = (judgeImage (judgeView (loadLatch s s.load.ctx) s.load.ctx) s.load).reason ∧
          (ctxAt t s.load.ctx).state = .empty) ∧
      (∀ p i, (judgeImage (judgeView (loadLatch s s.load.ctx) s.load.ctx) s.load).prog = some p →
          placeTrouble (acceptLoad (loadLatch s s.load.ctx) s.load.ctx p) s.load.ctx = some i →
        t.load.status = 3 ∧ t.load.reason = 0x21 ∧ t.load.index = i ∧ (ctxAt t s.load.ctx).state = .empty))

/-- The context commands that pass: START joins the job or the next step boundary, HALT gives CAUSE 2, RESUME runs on, UNLOAD waits and then
leaves the context EMPTY with no tile of it but those a capture in progress still holds; the counters are cleared. A diagnosis replay's last state and its end at
once are read as in logs 58 and 78. -/
def Obligations.ContextCommands : Prop :=
  (∀ (src : Src) (s : State), Passes s src 0x210030 4 (ctxCommand 1 0) (startOwn s 0) → coordOn (ownCoord s) 0 ≠ sparePos s → s.tests.gState = 0 →
      rebuildFails s = false →
    Gives (.contextStart src 0) s fun t => t.dev.state = .joined ∧ (ctxAt t 0).state = .running ∧ (ctxAt t 0).step = s.steps.committed + 1 ∧
      t.recov.role = .working ∧ (openAt t (s.steps.committed + 1)).isSome = true) ∧
  (∀ (src : Src) (s : State), Passes s src 0x210030 4 (ctxCommand 1 0) (startOwn s 0) → coordOn (ownCoord s) 0 ≠ sparePos s → s.tests.gState = 0 →
      rebuildFails s = true →
    Gives (.contextStart src 0) s fun t => (ctxAt t 0).state = .halted ∧ (ctxAt t 0).cause = 3 ∧ t.ckpt.restReason = 8) ∧
  (∀ (src : Src) (s : State), Passes s src 0x210030 4 (ctxCommand 1 0) (startOwn s 0) → coordOn (ownCoord s) 0 = sparePos s → s.tests.gState = 0 →
    Gives (.contextStart src 0) s fun t => t.dev.state = .spare ∧ (ctxAt t 0).state = .running ∧ t.recov.role = .spare) ∧
  (∀ (src : Src) (c : Fin 16) (s : State), Passes s src 0x210030 4 (ctxCommand 1 c.val) (startOwn s c.val) → 1 ≤ c.val → c.val ≤ 14 →
    Gives (.contextStart src c) s fun t => (ctxAt t c.val).state = .running ∧ (ctxAt t c.val).joins = true ∧ t.dev.state = s.dev.state) ∧
  (∀ (src : Src) (s : State), Passes s src 0x210030 4 (ctxCommand 1 15) (startOwn s 15) → rw s 0x210044 ≤ s.steps.replayCut →
    Gives (.contextStart src 15) s fun t => (ctxAt t 15).state = .halted ∧ t.steps.replayResult = 1 ∧ t.steps.replayActive = false) ∧
  (∀ (src : Src) (s : State), Passes s src 0x210030 4 (ctxCommand 1 15) (startOwn s 15) → s.steps.replayCut < rw s 0x210044 →
      gatherStuck s (progAt s 15) = true →
    Gives (.contextStart src 15) s fun t => (ctxAt t 15).state = .halted ∧ (ctxAt t 15).cause = 3 ∧ t.ckpt.restReason = 8) ∧
  (∀ (src : Src) (c : Fin 16) (s : State), Passes s src 0x210030 4 (ctxCommand 2 c.val) (haltOwn s c.val) →
    Gives (.contextHalt src c) s fun t => (ctxAt t c.val).state = .halted ∧ (ctxAt t c.val).cause = 2 ∧ (ctxAt t c.val).pos = (ctxAt s c.val).pos) ∧
  (∀ (src : Src) (c : Fin 16) (s : State), Passes s src 0x210030 4 (ctxCommand 3 c.val) (resumeOwn s c.val) →
    Gives (.contextResume src c) s fun t => (ctxAt t c.val).state = .running ∧ (ctxAt t c.val).pos = (ctxAt s c.val).pos) ∧
  (∀ (src : Src) (c : Fin 16) (s : State), Passes s src 0x210030 4 (ctxCommand 4 c.val) (unloadOwn s c.val) →
    Gives (.contextUnload src c) s fun t => (ctxAt t c.val).unloading = true) ∧
  (∀ (c : Fin 16) (s : State), (ctxAt s c.val).unloading = true → unloadReady s c.val = true →
    Gives (.unloadComplete c) s fun t => (ctxAt t c.val).state = .empty ∧ (ctxAt t c.val).prog = none ∧
      ∀ k ∈ t.vers.copies, k.ctx = c.val → isHold k = true) ∧
  (∀ (src : Src) (s : State), Passes s src 0x40000D 1 1 (clearOwn 1) →
    Gives (.counterClear src) s fun t => t.num = { reservedExp := s.num.reservedExp, recIdx := s.num.recIdx, recs := s.num.recs }) ∧
  (∀ (src : Src) (c : Fin 16) (s : State), OwnerAsks s src →
    ((ctxAt s c.val).state ≠ .running → Gives (.contextHalt src c) s fun t => t.ctxs = s.ctxs ∧ t.host.illegal = min (s.host.illegal + 1) 0xFFFFFFFF ∧
      t.host.lastIllegal = illegalWord src 6 0x2100 0x30) ∧
    ((ctxAt s c.val).state ≠ .halted → Gives (.contextResume src c) s fun t => t.ctxs = s.ctxs ∧ t.host.lastIllegal = illegalWord src 6 0x2100 0x30) ∧
    ((ctxAt s c.val).state = .running → Gives (.contextUnload src c) s fun t => t.ctxs = s.ctxs ∧ t.host.lastIllegal = illegalWord src 6 0x2100 0x30))

/-! ### Checkpoints (13 R346 to R370, 19 R504) -/

/-- Marks are raised by an edge and by the owner; a capture begins in the ping-pong area, its pieces free what was held, its manifest makes it
locally complete; a Lehr write error in another mode than 1, and a pool write error with no further target, give the capture up. Which failure ends a capture is read as in log 89. -/
def Obligations.Captures : Prop :=
  (∀ (high : Nat) (s : State), s.dev.on = true → high ≥ 1000 → (∀ n, s.ckpt.markEdge = some n → s.clk.now ≥ n + 100000) →
    Gives (.epochMarkEdge high) s fun t => t.ckpt.pend = true ∧ t.ckpt.marks = s.ckpt.marks + 1 ∧ t.ckpt.markEdge = some s.clk.now) ∧
  (∀ (src : Src) (s : State), Passes s src 0x60000A 1 1 (markOwn 1) →
    Gives (.epochMarkCommand src) s fun t => t.ckpt.pend = true ∧ t.ckpt.marks = s.ckpt.marks + 1) ∧
  (∀ (k : Capture) (s : State), s.ckpt.captures.find? (fun k => !k.durable) = some k → s.dev.on = true → k.begun = false → cutTooBig s k = false →
      rw s 0x600005 ≠ 2 → rw s 0x600005 ≠ 3 → s.ckpt.retain.map (·.1) ≠ some (pingArea s.ckpt) →
    Gives .captureStart s fun t => nth t.ckpt.areas (pingArea s.ckpt) {} = { state := 1, cut := k.cut } ∧ t.sent = s.sent ++ [.lehr 1 (pingArea s.ckpt)]) ∧
  (∀ (cut : Nat) (k : Capture) (s : State), s.ckpt.captures.find? (fun k => k.cut = cut) = some k → k.begun = true → k.copied = false →
    Gives (.capturePiecesDone cut) s fun t => t.vers = releaseHold s.vers cut ∧ (t.ckpt.captures.find? (fun k => k.cut = cut)).map (·.copied) = some true) ∧
  (∀ (cut a : Nat) (k : Capture) (s : State), s.ckpt.captures.find? (fun k => k.cut = cut) = some k → k.copied = true → k.durable = false →
      ostlerBusy s 2 = false → k.area = some a → a < 18 →
    Gives (.manifestDurable cut) s fun t => t.ckpt.lastLocal = cut ∧ (nth t.ckpt.areas a {}).cut = cut ∧
      ((nth t.ckpt.areas a {}).state = 2 ∨ (nth t.ckpt.areas a {}).state = 3)) ∧
  (∀ (cut : Nat) (k : Capture) (s : State), s.ckpt.captures.find? (fun k => k.cut = cut) = some k → k.begun = true → k.durable = false →
      k.area.isSome = true ∨ k.fellBack = true → rw s 0x600005 ≠ 1 ∨ k.fellBack = true →
    Gives (.lehrWriteError cut) s fun t => t.vers = releaseHold s.vers cut) ∧
  (∀ (cut tg : Nat) (k : Capture) (s : State), s.ckpt.captures.find? (fun k => k.cut = cut) = some k → k.target = some tg → k.durable = false →
      poolFrom s k (tg + 1) = none →
    Gives (.poolWriteError cut) s fun t => t.vers = releaseHold s.vers cut) ∧
  (∀ (cut tg next : Nat) (k : Capture) (s : State), s.ckpt.captures.find? (fun k => k.cut = cut) = some k → k.target = some tg → k.durable = false →
      poolFrom s k (tg + 1) = some next →
    Gives (.poolWriteError cut) s fun t => nth t.ckpt.pool next {} = { state := 1, cut := cut } ∧ t.vers = s.vers)

/-- A retain copy starts and completes, and a retained area is released; restore and export requests start; a restore that fails keeps the
committed step; an export puts the area's bytes into the staging aperture, and one of an area without a manifest fails with reason 1. The reasons 1 and 7 of an export are read so (log 92). -/
def Obligations.RetainRestoreExport : Prop :=
  (∀ (src : Src) (cut : BitVec 64) (a d : Nat) (s : State), Passes s src 0x600012 8 cut.toNat (retainOwn s cut.toNat) →
      cutArea s.ckpt cut.toNat = some a → freeArea s.ckpt = some d →
    Gives (.retainCommand src cut) s fun t => t.ckpt.retain = some (a, d) ∧ nth t.ckpt.areas d {} = { state := 1, cut := cut.toNat }) ∧
  (∀ (a d : Nat) (s : State), s.ckpt.retain = some (a, d) → d < 18 →
    Gives .retainCopyDone s fun t => t.ckpt.retain = none ∧ nth t.ckpt.areas d {} = nth s.ckpt.areas a {} ∧ Touches [.ckpt] s t) ∧
  (∀ (src : Src) (area : BitVec 8) (s : State), Passes s src 0x600013 1 area.toNat (releaseOwn area.toNat) →
    Gives (.releaseCommand src area) s fun t => (nth t.ckpt.areas area.toNat {}).state = 4) ∧
  (∀ (src : Src) (req : BitVec 128) (s : State), Passes s src 0x600018 16 req.toNat (restoreOwn s req) →
    Gives (.restoreRequest src req) s fun t => t.ckpt.restore = 1 ∧ t.ckpt.restReq = some req ∧ t.steps = s.steps) ∧
  (∀ (readError badPiece : Bool) (r : BitVec 128) (s : State), s.ckpt.restReq = some r → restContext r = 0 →
      restoreReason s r (restManifest s r) readError badPiece ≠ 0 →
    Gives (.restoreDone readError badPiece) s fun t => t.ckpt.restore = 3 ∧ t.ckpt.restReq = none ∧
      t.ckpt.restReason = restoreReason s r (restManifest s r) readError badPiece ∧ t.steps = s.steps ∧ (ctxAt t 0).invalid = true) ∧
  (∀ (src : Src) (req : BitVec 128) (s : State), Passes s src 0x60001A 16 req.toNat (exportOwn s req) →
    Gives (.exportRequest src req) s fun t => t.ckpt.expStatus = 1 ∧ t.ckpt.expReq = some req) ∧
  (∀ (ok : Bool) (r : BitVec 128) (s : State), s.ckpt.expReq = some r → (areaManifest (nth s.ckpt.areas (restArea r) {})).valid = false →
    Gives (.exportDone ok) s fun t => t.ckpt.expStatus = 3 ∧ t.ckpt.expReason = 1 ∧ t.ckpt.expReq = none ∧ t.staging = s.staging) ∧
  (∀ (r : BitVec 128) (s : State), s.ckpt.expReq = some r → (areaManifest (nth s.ckpt.areas (restArea r) {})).valid = true →
      ((exportWrites r (nth s.ckpt.areas (restArea r) {})).all fun w => decide (w.1 + w.2.length ≤ 2 ^ 36) && !stageAway s w.1 w.2.length) = true →
    Gives (.exportDone true) s fun t => t.ckpt.expStatus = 2 ∧ t.ckpt.expReason = 0 ∧ t.ckpt.expReq = none ∧
      t.staging = (exportWrites r (nth s.ckpt.areas (restArea r) {})).foldl (fun m w => memPut m w.1 w.2) s.staging) ∧
  (∀ (readError badPiece : Bool) (r : BitVec 128) (s : State), s.ckpt.restReq = some r → restContext r = 0 →
    restoreReason s r (restManifest s r) readError badPiece = 0 →
    Gives (.restoreDone readError badPiece) s fun t => t.steps.committed = mfCut (restManifest s r).hdr ∧ t.ckpt.lastCut = mfCut (restManifest s r).hdr ∧
      t.ckpt.restore = 2 ∧ (ctxAt t 0).restored = true ∧ t.dict = s.dict ∧
      nth t.sec.meas 6 0 = extend (nth s.sec.meas 6 0) (shake256 (toBytes 256 (restManifest s r).hdr)))

/-! ### Placement and memory (08 R213 to R217, 09 R228 to R242) -/

/-- Plans join those that wait, copies are noted, a write of 0 drops the plans; a re-placement fits, or halts context 0 with CAUSE 5 and takes the module
OUT_OF_SERVICE; shares wait
for the boundary; scrubbing advances; a copied row is redirected; a stack's sample is taken. -/
def Obligations.PlacementAndMemory : Prop :=
  (∀ (moves : List (Nat × Nat × Fin 8 × Nat)) (s : State), mayPlan s = true →
    Gives (.migrationPlanReady moves) s fun t => t.place.plan = s.place.plan ++ planOf s moves ∧ (planOf s moves).length ≤ 64) ∧
  (∀ (c n : Nat) (s : State), Gives (.migrationCopyDone c n) s fun t => t.place.plan.length = s.place.plan.length ∧
    ∀ m ∈ t.place.plan, m.ctx = c → m.tensor = n → m.copied = true) ∧
  (∀ (src : Src) (s : State), Passes s src 0x500001 1 0 0 → Gives (.migrationEnableWrite src) s fun t => t.place.plan = [] ∧ rw t 0x500001 = 0) ∧
  (∀ (p : Fin 8) (r : List Nat) (s : State), s.place.replacing = p.val :: r → ostlerBusy s 0 = false → replaceTrouble s p.val = none →
    Gives (.replacementDone true p) s fun t => t.place.replacing = r ∧ t.place.gen = s.place.gen + 1 ∧ Touches [.place] s t) ∧
  (∀ (p : Fin 8) (task : Nat) (r : List Nat) (s : State), s.place.replacing = p.val :: r → ostlerBusy s 0 = false → replaceTrouble s p.val = some task →
      (ctxAt s 0).state = .running → s.dev.state ≠ .boot →
    Gives (.replacementDone false p) s fun t => t.place.status = 0x21 + 256 * p.val ∧ (ctxAt t 0).state = .halted ∧ (ctxAt t 0).cause = 5 ∧
      (ctxAt t 0).causeTask = task ∧ t.dev.state = .outOfService) ∧
  (∀ (src : Src) (v : BitVec 64) (s : State), Passes s src 0x500040 8 v.toNat (sharesOwn v.toNat) →
    Gives (.regulatorSharesWrite src v) s fun t => t.mem.sharesNext = some v ∧ t.mem.shares = s.mem.shares) ∧
  (∀ (p : Fin 8) (passDone : Bool) (s : State), s.dev.inService.getLsbD p.val = true →
    Gives (.patrolScrub p none passDone) s fun t => t.mem.passes = s.mem.passes + bit passDone ∧
      nth t.mem.scrubPos p.val 0 = (if passDone then 0 else nth s.mem.scrubPos p.val 0 + 1) ∧ Touches [.mem] s t) ∧
  (∀ (p : Fin 8) (k : RowCopy) (s : State), s.mem.copying.find? (fun c => c.part = p.val) = some k →
    Gives (.rowCopyDone p) s fun t => t.mem.rows = s.mem.rows ++ [(k.part, k.row)] ∧ t.mem.copying = s.mem.copying.erase k ∧
      t.mem.poisoned = s.mem.poisoned ++ k.bad.map fun b => (k.part, k.row, b.1, b.2)) ∧
  (∀ (n : Fin 16) (temp : Option Int) (dieMax : Int) (s : State), s.domains.getLsbD (5 * (n.val / 2) + 4) = true →
      layerTemp (nth s.mem.stk n.val {}) temp dieMax < 950 →
    Gives (.dramTempSample n temp dieMax) s fun t => (nth t.mem.stk n.val {}).temp = layerTemp (nth s.mem.stk n.val {}) temp dieMax)

/-- The staging aperture: a write stores its bytes and no other byte of it changes, a read delivers what is there and changes none, and an access
outside the 64 GiB is the one stop of the model (log 2). -/
def Obligations.ApertureAccess : Prop :=
  (∀ (off len : Nat) (bs : List Byte) (s : State), cxlUp s = true → bs ≠ [] → off + bs.length ≤ 2 ^ 36 → stageAway s off bs.length = false → stageDark s off bs.length = false →
      s.staging.wf = true →
    Gives (.cxlMemAccess off (some bs) len none) s fun t => memTake t.staging off bs.length = bs ∧
      (∀ a, a < off ∨ off + bs.length ≤ a → memGet t.staging a = memGet s.staging a) ∧ Touches [.staging, .poison] s t) ∧
  (∀ (off len : Nat) (s : State), cxlUp s = true → len ≠ 0 → off + len ≤ 2 ^ 36 → stageAway s off len = false → stageDark s off len = false →
    Gives (.cxlMemAccess off none len none) s fun t => t.sent = s.sent ++ [.memData (memTake s.staging off len) (stageBad s off len)] ∧ Touches [.sent] s t) ∧
  (∀ (off len : Nat) (w : Option (List Byte)) (err : Option Ecc) (s : State), off + (w.map List.length).getD len > 2 ^ 36 →
    exec (.cxlMemAccess off w len err) s = .fault .outsideAperture)

/-! ### The ledger and the tests (14 R375 to R397, 15 R399, R406) -/

/-- An event is classed and left to the Farrier, which writes it under the next number; the operating time goes to flash. SEQ assigned at the writing is read so (log 117). -/
def Obligations.LedgerCourse : Prop :=
  (∀ (e : LRec) (rest : List LRec) (s : State), s.ledger.events = e :: rest → ostlerBusy s 3 = false → kindGroup e.kind = 0 →
    Gives .ledgerEventClassed s fun t => t.ledger.events = rest ∧ t.ledger.toWrite.map (·.kind) = s.ledger.toWrite.map (·.kind) ++ [e.kind] ∧
      t.ledger.toWrite.map (·.cls) = s.ledger.toWrite.map (·.cls) ++ [0]) ∧
  (∀ (e : LRec) (rest : List LRec) (s : State), s.ledger.events = e :: rest → ostlerBusy s 3 = false → eventClass s e ≤ max 1 (unitClass s e.unit) →
    Gives .ledgerEventClassed s fun t => t.ledger.events = rest ∧ t.ledger.toWrite.map (·.kind) = s.ledger.toWrite.map (·.kind) ++ [e.kind] ∧
      t.ledger.toWrite.map (·.cls) = s.ledger.toWrite.map (·.cls) ++ [eventClass s e] ∧ Touches [.ledger] s t) ∧
  (∀ (e : LRec) (rest : List LRec) (s : State), s.ledger.toWrite = e :: rest → s.dev.on = true → s.fw.farrierDown = false →
    Gives .ledgerRecordWritten s fun t => t.ledger.toWrite = rest ∧ t.ledger.written = s.ledger.written + 1 ∧
      t.ledger.ring.head? = some { e with seq := s.ledger.written + 1 } ∧ t.ledger.ring.length ≤ 262144 ∧ t.clk.optimeFlash = optime s) ∧
  (∀ s : State, s.dev.on = true → s.fw.farrierDown = false → Gives .optimeFlush s fun t => t.clk.optimeFlash = optime t ∧ Touches [.clk] s t) ∧
  (∀ (src : Src) (s : State), Passes s src 0x84000F 1 1 (escalationOwn s 1) →
    Gives (.escalationClear src) s fun t => t.recov.partHist = [] ∧ t.recov.modHist = [])

/-- Trot pieces are issued to the core in turn and end, a failure owing a repeat; gallop runs start, stop, end their cells, and start by
themselves in SPARE; probes end, or lead to a core reset, after which the core is probed again. The count of a trot run at its issue and the wait of a
repeat are the model's (log 118). -/
def Obligations.TrotAndGallop : Prop :=
  (∀ (g : Fin 136) (k : Nat) (s : State), mayTrot s = true → trotCore s = some g.val →
    Gives (.trotPieceIssue g k) s fun t => t.tests.trot.map (·.1) = some g.val ∧ t.tests.trotRun = s.tests.trotRun + 1) ∧
  (∀ (g k : Nat) (again : Bool) (s : State), s.tests.trot = some (g, k, again) →
    Gives (.trotPieceComplete true) s fun t => t.tests.trot = none ∧ t.tests.owed = s.tests.owed ∧ t.tests.trotFail = s.tests.trotFail) ∧
  (∀ (g k : Nat) (again : Bool) (s : State), s.tests.trot = some (g, k, again) →
    Gives (.trotPieceComplete false) s fun t => t.tests.trot = none ∧ t.tests.trotFail = s.tests.trotFail + 1 ∧
      t.tests.owed = (if again then s.tests.owed else s.tests.owed ++ [(g, k)])) ∧
  (∀ (src : Src) (s : State), Passes s src 0x800020 1 1 (gallopOwn s 1) → pendCells s ++ sweepCells s ≠ [] →
    Gives (.gallopStartCommand src) s fun t => t.tests.gState = 1 ∧ t.tests.cells = pendCells s ++ sweepCells s ∧
      t.tests.gTotal = (pendCells s ++ sweepCells s).length) ∧
  (∀ (src : Src) (s : State), Passes s src 0x800020 1 2 (gallopOwn s 2) → s.tests.gState ≠ 0 → s.tests.oosAfter = false →
    Gives (.gallopStopCommand src) s fun t => t.tests.gState = 0 ∧ t.tests.gResult = 3 ∧ t.tests.aborts = s.tests.aborts + 1 ∧ t.tests.cells = []) ∧
  (∀ s : State, s.dev.state = .spare → rw s 0x800025 = 1 → mayGallop s = true → ostlerBusy s 3 = false → pendCells s ++ sweepCells s ≠ [] →
    Gives .gallopAutoStart s fun t => t.tests.gState = 1 ∧ t.tests.cells = pendCells s ++ sweepCells s) ∧
  (∀ (c d : Cell) (rest : List Cell) (s : State), s.tests.cells = c :: d :: rest → s.tests.gState = 1 → ostlerBusy s 3 = false →
    Gives (.gallopCellComplete false) s fun t => t.tests.cells = d :: rest ∧ t.tests.gState = 1) ∧
  (∀ (c : Cell) (rest : List Cell) (s : State), s.tests.cells = c :: rest → s.tests.gState = 1 → ostlerBusy s 3 = false → c.repeat_ = false →
    Gives (.gallopCellComplete true) s fun t => t.tests.gFails = s.tests.gFails + 1 ∧ t.tests.gState = 1 ∧
      t.tests.cells.map (·.repeat_) = true :: rest.map (·.repeat_)) ∧
  (∀ (g : Fin 136) (s : State), (coreAt s g.val).probe = 1 ∨ (coreAt s g.val).probe = 3 → probeable s g.val = true →
    Gives (.coreProbeDone g true) s fun t => (coreAt t g.val).probe = 0 ∧ Touches [.cores] s t) ∧
  (∀ (g : Fin 136) (s : State), (coreAt s g.val).probe = 1 → probeable s g.val = true → (∀ x ∈ (coreAt s g.val).resets, optime s > x + 600) →
    Gives (.coreProbeTimeout g) s fun t => (coreAt t g.val).probe = 2 ∧ (coreAt t g.val).queue = [] ∧ t.tests.coreResets = s.tests.coreResets + 1) ∧
  (∀ (g : Fin 136) (s : State), (coreAt s g.val).probe = 2 → probeable s g.val = true →
    Gives (.coreResetDone g) s fun t => (coreAt t g.val).probe = 3 ∧ Touches [.cores] s t)


/-! ### Power and thermal control (17 R446 to R460) -/

/-- The controller takes its sample and moves P by the rule of 17 R447 towards a target of at most 3,600 W; above 4,300 W the overpower
emergency is there. A lease in sequence starts and lasts 10 s, one out of sequence changes nothing of it; its end brings the fallback. -/
def Obligations.ControllerAndLease : Prop :=
  (∀ (w : Nat) (s : State), loopsRun s = true → w ≤ 4300 → overTwenty (controlled s w) = false →
    Gives (.powerControllerIteration w) s fun t => t.power.inputW = w ∧ 0 < t.power.targetDen ∧ t.power.target ≤ 3600 * t.power.targetDen ∧
      t.pins = s.pins ∧
      t.power.p = (if w * t.power.targetDen > t.power.target then
          max 16 (s.power.p - (w * t.power.targetDen - t.power.target + 24 * t.power.targetDen - 1) / (24 * t.power.targetDen))
        else if (w + 50) * t.power.targetDen < t.power.target ∧ s.power.p < 64 then s.power.p + 1 else s.power.p)) ∧
  (∀ (w : Nat) (s : State), loopsRun s = true → w > 4300 →
    Gives (.powerControllerIteration w) s fun t => emerPresent t .overpower = true) ∧
  (∀ (src : Src) (v : BitVec 32) (s : State), Passes s src 0x700002 4 v.toNat (leaseOwn v.toNat) → leaseInSeq s v.toNat = true →
    Gives (.rackLeaseWrite src v) s fun t => t.power.leaseSeq = v.toNat / 65536 ∧ t.power.leaseW = v.toNat % 65536 ∧
      t.power.leaseEnd = some (s.clk.now + 10000000000) ∧ t.power.expiries = s.power.expiries) ∧
  (∀ (src : Src) (v : BitVec 32) (s : State), Passes s src 0x700002 4 v.toNat (leaseOwn v.toNat) → leaseInSeq s v.toNat = false →
    Gives (.rackLeaseWrite src v) s fun t => Touches [.host, .sent] s t) ∧
  (∀ (n : Nat) (s : State), s.power.leaseEnd = some n →
    Gives .leaseExpiry s fun t => t.power = { s.power with leaseEnd := none, expiries := s.power.expiries + 1 } ∧ t.pins.alert = s.dev.on ∧
      n ≤ t.clk.now ∧ s.clk.now ≤ t.clk.now)

/-- An island without margin rises by 2.5 mV up to 0.900 V and then slows by 25 MHz down to 2.4 GHz, one with more margin falls by 2.5 mV;
a droop is counted; a sample of a core is taken, and its ceiling rises by at most 4. -/
def Obligations.IslandsAndSensors : Prop :=
  (∀ (g : Fin 136) (more : Bool) (s : State), corePowered s g.val = true → cellOn s g.val = none → (coreAt s g.val).setpoint < 9000 →
    Gives (.islandVoltageLoop g more true) s fun t => (coreAt t g.val).setpoint = (coreAt s g.val).setpoint + 25 ∧ (coreAt t g.val).freq = (coreAt s g.val).freq) ∧
  (∀ (g : Fin 136) (more : Bool) (s : State), corePowered s g.val = true → cellOn s g.val = none → 9000 ≤ (coreAt s g.val).setpoint → 2400 < (coreAt s g.val).freq →
    Gives (.islandVoltageLoop g more true) s fun t => (coreAt t g.val).setpoint = (coreAt s g.val).setpoint ∧
      (coreAt t g.val).freq = max 2400 ((coreAt s g.val).freq - 25)) ∧
  (∀ (g : Fin 136) (s : State), corePowered s g.val = true → cellOn s g.val = none → 6800 < (coreAt s g.val).setpoint →
    Gives (.islandVoltageLoop g true false) s fun t => (coreAt t g.val).setpoint = (coreAt s g.val).setpoint - 25) ∧
  (∀ (g : Fin 136) (s : State), corePowered s g.val = true →
    Gives (.droopDetected g) s fun t => t.power.stretches = s.power.stretches + 1 ∧ (coreAt t g.val).stretch = (coreAt s g.val).stretch + 1 ∧
      Touches [.cores, .power] s t) ∧
  (∀ (g : Fin 136) (temp : Int) (s : State), s.domains.getLsbD (5 * (g.val / 17) + 4) = true → temp < 1100 →
    Gives (.logicTempSample g temp) s fun t => (coreAt t g.val).temp = temp ∧ (coreAt t g.val).therm ≤ (coreAt s g.val).therm + 4 ∧ Touches [.cores] s t)

/-- Each condition raises its emergency; an overpower that lasts resets the module and a hot die its partition, with cause 6; what has
passed clears; a rail that faults takes the module or its partition down. That a regulator's partition reset is not delayed, and
what stands after a trip, are read so (log 111). -/
def Obligations.Emergencies : Prop :=
  (∀ (g : Fin 136) (p : Fin 8) (temp : Int) (s : State), s.domains.getLsbD (5 * (g.val / 17) + 4) = true → loopsRun s = true → 1100 ≤ temp → p.val = g.val / 17 →
    Gives (.logicTempSample g temp) s fun t => emerPresent t (.logicHot p) = true) ∧
  (∀ (temp : Int) (s : State), loopsRun s = true → 1100 ≤ temp → Gives (.hubHot temp) s fun t => emerPresent t .hubHot = true ∧ t.power.hubTemp = temp) ∧
  (∀ (temp : Int) (s : State), loopsRun s = true → 450 < temp → Gives (.coolantInletOver temp) s fun t => emerPresent t .coolant = true ∧ t.power.inlet = temp) ∧
  (∀ s : State, loopsRun s = true → Gives .telemetryTimeout s fun t => emerPresent t .regulator = true) ∧
  (∀ (x : EmerState) (s : State), s.power.emers.find? (fun x => decide (x.kind = .overpower) && !x.cleared) = some x → s.dev.on = true → s.power.trip = false →
      s.dev.down = none → s.dev.holdoff = false → s.dev.state ≠ .boot → s.fw.farrierDown = false →
    Gives (.emergencyEscalationTimer .overpower) s fun t => t.dev.state = .boot ∧ t.dev.lastCause = 6 ∧ t.dev.down = some ⟨2, true⟩ ∧
      x.since + 100000000 ≤ t.clk.now) ∧
  (∀ (p : Fin 8) (x : EmerState) (s : State), s.power.emers.find? (fun x => decide (x.kind = .logicHot p) && !x.cleared) = some x → s.dev.on = true →
      s.dev.down = none → s.dev.holdoff = false → s.dev.state ≠ .boot → s.dev.state ≠ .outOfService → s.dev.inReset.getLsbD p.val = false → s.fw.farrierDown = false →
    Gives (.emergencyEscalationTimer (.logicHot p)) s fun t => (∀ d ∈ partDomains p.val, t.domains.getLsbD d = false) ∧ x.since + 2000000000 ≤ t.clk.now) ∧
  (∀ (e : Emer) (x : EmerState) (s : State), s.power.emers.find? (fun x => decide (x.kind = e) && !x.cleared) = some x → mayClear s e = true →
    Gives (.emergencyClearTimer e) s fun t => emerPresent t e = false ∧ x.since + 100000000 ≤ t.clk.now) ∧
  (∀ s : State, loopsRun s = true → s.dev.on = true → s.power.trip = false → s.dev.down = none → s.dev.holdoff = false → s.dev.state ≠ .boot →
      s.fw.farrierDown = false →
    Gives (.regulatorFault .hub) s fun t => emerPresent t .regulator = true ∧ t.dev.state = .boot ∧ t.dev.lastCause = 6) ∧
  (∀ (p : Fin 8) (s : State), loopsRun s = true → s.dev.on = true → s.dev.down = none → s.dev.holdoff = false → s.dev.state ≠ .boot → s.dev.state ≠ .outOfService →
      s.dev.inReset.getLsbD p.val = false → s.fw.farrierDown = false → s.tests.gState = 0 →
    Gives (.regulatorFault (.part p)) s fun t => emerPresent t .regulator = true ∧ ∀ d ∈ partDomains p.val, t.domains.getLsbD d = false) ∧
  (∀ s : State, s.dev.on = true → s.power.trip = false →
    Gives .thermalTrip s fun t => t.domains = 0 ∧ t.pins.thermTrip = true ∧ t.power.trip = true ∧ t.dev.state = .outOfService ∧ t.dev.on = true ∧
      t.host.owner = s.host.owner ∧ t.sent = s.sent)

/-! ### Ostlers and Farrier (18 R465 to R472, 15 R401) -/

/-- A trap, a watchdog or the owner restarts an ostler with a dump of the trigger's code, of its time and step; after the dump it is reloaded, and it runs again once
it is ready; the owner may ask for a dump alone. -/
def Obligations.OstlerRestarts : Prop :=
  (∀ (o : Fin 12) (s : State), ostlersOn s = true → (ostlerAt s o.val).state = 0 → (∀ n, (ostlerAt s o.val).readyAt = some n → n + 1000000000 ≤ s.clk.now) →
    Gives (.ostlerTrap o) s fun t => (ostlerAt t o.val).state = 1 ∧ t.fw.restarts = s.fw.restarts + 1 ∧ (o.val, 1, localCounter s, stepNow s) ∈ t.fw.dumping ∧ Touches [.fw] s t) ∧
  (∀ (o : Fin 12) (s : State), ostlersOn s = true → (ostlerAt s o.val).state = 0 → (∀ n, (ostlerAt s o.val).readyAt = some n → n + 1000000000 ≤ s.clk.now) →
    Gives (.ostlerWatchdogExpiry o) s fun t => (ostlerAt t o.val).state = 1 ∧ t.fw.restarts = s.fw.restarts + 1 ∧ (o.val, 2, localCounter s, stepNow s) ∈ t.fw.dumping ∧
      Touches [.fw] s t) ∧
  (∀ (src : Src) (o : Fin 16) (s : State), Passes s src 0x90000A 1 o.val (ostlerOwn s o.val) → ostlersOn s = true → (ostlerAt s o.val).state = 0 → o.val < 12 →
    Gives (.ostlerRestartCommand src o) s fun t => (ostlerAt t o.val).state = 1 ∧ t.fw.restarts = s.fw.restarts + 1 ∧ (o.val, 5, localCounter s, stepNow s) ∈ t.fw.dumping ∧
      (ostlerAt t o.val).fails = (ostlerAt s o.val).fails) ∧
  (∀ (src : Src) (o : Fin 16) (s : State), Passes s src 0x90000A 1 (16 + o.val) (ostlerOwn s (16 + o.val)) → ostlersOn s = true → (ostlerAt s o.val).state = 0 →
      s.fw.dumping.any (fun d => d.1 = o.val) = false →
    Gives (.ostlerDumpCommand src o) s fun t => t.fw.ostlers = s.fw.ostlers ∧ t.fw.dumping = s.fw.dumping ++ [(o.val, 5, localCounter s, stepNow s)] ∧
      t.fw.dumpOnly = s.fw.dumpOnly ++ [o.val]) ∧
  (∀ (o : Fin 12) (d : Nat × Nat × Nat × Nat) (timeouts size : Nat) (truncated : Bool) (s : State), s.fw.dumping.find? (fun d => d.1 = o.val) = some d →
      o.val ∉ s.fw.dumpOnly → (s.dev.state = .boot ∨ copyServes s 0 = true ∨ copyServes s 1 = true) →
    Gives (.ostlerDumpDone o true timeouts truncated size) s fun t => (ostlerAt t o.val).state = 2 ∧ t.fw.dumping = s.fw.dumping.filter (fun d => d.1 ≠ o.val)) ∧
  (∀ (o : Fin 12) (d : Nat × Nat × Nat × Nat) (ok : Bool) (timeouts size : Nat) (truncated : Bool) (s : State), s.fw.dumping.find? (fun d => d.1 = o.val) = some d →
      o.val ∈ s.fw.dumpOnly →
    Gives (.ostlerDumpDone o ok timeouts truncated size) s fun t => (∀ k : Fin 12, (ostlerAt t k.val).state = (ostlerAt s k.val).state ∧
      (ostlerAt t k.val).queue = (ostlerAt s k.val).queue) ∧ t.fw.restarts = s.fw.restarts ∧ t.fw.dumpOnly = s.fw.dumpOnly.filter (· ≠ o.val)) ∧
  (∀ (o : Fin 12) (s : State), (ostlerAt s o.val).state = 2 → (ostlerAt s o.val).queue = [] → (∀ h ∈ s.fw.held, h.1 ≠ o.val) →
    Gives (.ostlerReady o) s fun t => (ostlerAt t o.val).state = 0 ∧ (ostlerAt t o.val).readyAt = some s.clk.now)

/-- 18 R469: an ostler that is not ready 100 ms after its dump, whose digest fails, or that stops within 1 s of being ready has failed a restart;
another follows at once and counts, while one that the owner commands counts only if it fails. -/
def Obligations.FailedRestarts : Prop :=
  (∀ (c : Instr) (o : Fin 12) (s : State), FailsNow c o s → (recentFails s o.val).length < 2 →
    Gives c s fun t => (ostlerAt t o.val).state = 1 ∧ t.fw.restarts = s.fw.restarts + 1 ∧ (ostlerAt t o.val).fails = s.clk.now :: recentFails s o.val) ∧
  (∀ (src : Src) (o : Fin 16) (s : State), Passes s src 0x90000A 1 o.val (ostlerOwn s o.val) →
    Gives (.ostlerRestartCommand src o) s fun t => (ostlerAt t o.val).fails = (ostlerAt s o.val).fails)

/-- 15 R401: the third failed restart of an ostler within 60 s resets its partition for ostlers 4 to 11 and the module for 0 to 3; 100 ms without
the hub's heartbeat reset the module. -/
def Obligations.RestartsForceResets : Prop :=
  (∀ (c : Instr) (o : Fin 12) (p : Fin 8) (s : State), FailsNow c o s → o.val = 4 + p.val → 2 ≤ (recentFails s o.val).length → s.dev.on = true →
      s.dev.down = none → s.dev.holdoff = false → s.dev.state ≠ .boot → s.dev.state ≠ .outOfService → s.dev.inReset.getLsbD p.val = false →
      s.fw.farrierDown = false →
    Gives c s fun t => ∀ d ∈ partDomains p.val, t.domains.getLsbD d = false) ∧
  (∀ (c : Instr) (o : Fin 12) (s : State), FailsNow c o s → o.val < 4 → 2 ≤ (recentFails s o.val).length → s.dev.on = true → s.power.trip = false →
      s.dev.down = none → s.dev.holdoff = false → s.dev.state ≠ .boot → s.fw.farrierDown = false →
    Gives c s fun t => t.dev.state = .boot ∧ t.dev.lastKind = 1 ∧ t.dev.lastCause = 4 ∧ t.dev.down = some ⟨2, true⟩) ∧
  (∀ s : State, s.dev.on = true → s.power.trip = false → s.fw.farrierDown = false → s.domains.getLsbD 40 = true → s.dev.down = none → s.dev.holdoff = false →
      s.dev.state ≠ .boot →
    Gives .hubWatchdogExpiry s fun t => t.dev.state = .boot ∧ t.dev.lastKind = 1 ∧ t.dev.lastCause = 3 ∧ t.dev.down = some ⟨2, true⟩)

/-- The Farrier restarts, and afterwards answers again with its trial image confirmed and its version counter raised; a trial image that fails its
verification, or whose boots failed, gives way to the other bank; the log goes to flash entry
by entry; a dump is exported or fails. What becomes of a bank that fails, and when type 1 is
confirmed, are read as in logs 99 and 123. -/
def Obligations.FarrierCourse : Prop :=
  (∀ s : State, s.dev.on = true → s.fw.farrierDown = false → rw s 0x900005 ≠ 1 → (pairOf s 1).trial = false →
    Gives .farrierWatchdogExpiry s fun t => t.fw.farrierDown = true ∧ t.fw.images = s.fw.images ∧ Touches [.fw] s t) ∧
  (∀ s : State, s.dev.on = true → s.fw.farrierDown = false → rw s 0x900005 ≠ 1 → (pairOf s 1).trial = true → 2 ≤ (activeBank (pairOf s 1)).fails →
    Gives .farrierWatchdogExpiry s fun t => t.fw.farrierDown = true ∧ (pairOf t 1).trial = false ∧ (pairOf t 1).activeB = !(pairOf s 1).activeB ∧
      t.fw.reversions = s.fw.reversions + 1) ∧
  (∀ s : State, s.fw.farrierDown = true → (pairOf s 1).trial = true → farrierVerifies s = false →
    Gives .farrierRestartDone s fun t => t.fw.farrierDown = true ∧ (pairOf t 1).activeB = !(pairOf s 1).activeB ∧ t.sec.events = s.sec.events + 1 ∧
      t.fw.reversions = s.fw.reversions + 1) ∧
  (∀ s : State, s.fw.farrierDown = true → s.fw.later = [] → ((pairOf s 1).trial = true → farrierVerifies s = true) →
    Gives .farrierRestartDone s fun t => t.fw.farrierDown = false ∧ (pairOf t 1).trial = false ∧ t.dev = s.dev ∧
      nth t.sec.svns 0 0 = (if (pairOf s 1).trial then max (nth s.sec.svns 0 0) (activeBank (pairOf s 1)).img.svn else nth s.sec.svns 0 0)) ∧
  (∀ (e : LogEnt) (s : State), s.fw.log.reverse.find? (fun e => decide (e.level ≥ 5) && !e.copied) = some e → s.fw.farrierDown = false → ostlerBusy s 3 = false →
    Gives .logFlashCopy s fun t => t.fw.flashLog.head? = some e.entry ∧ t.fw.flashIdx = s.fw.flashIdx + 1 ∧ Touches [.fw] s t) ∧
  (∀ (src : Src) (req : BitVec 128) (s : State), Passes s src 0x910023 16 req.toNat (dumpOwn s req.toNat) →
    Gives (.dumpExportRequest src req) s fun t => t.fw.expState = 1 ∧ t.fw.expSlot = req.toNat % 256 ∧ t.fw.expOff = fld req.toNat 127 64) ∧
  (∀ (ok : Bool) (s : State), s.fw.expState = 1 → dumpSel s.fw s.fw.expSlot = none →
    Gives (.dumpExportDone ok) s fun t => t.fw.expState = 3 ∧ t.staging = s.staging) ∧
  (∀ (h : BitVec 256) (s : State), s.fw.expState = 1 → dumpSel s.fw s.fw.expSlot = some h → stageAway s s.fw.expOff (dumpSize h) = false →
    Gives (.dumpExportDone true) s fun t => t.fw.expState = 2 ∧ t.sent = s.sent ++ [.snoop s.fw.expOff])

/-! ### Images (18 R473 to R477, 19 R498) -/

/-- An update request makes the other bank INVALID and receives, or fails at once for an image that is too large; an image that verifies is PENDING
and one that does not names its reason; chunks gather until all are there. The size that the limit holds for is read so (log 125). -/
def Obligations.Updates : Prop :=
  (∀ (src : Src) (req : BitVec 256) (s : State), Passes s src 0x900001 32 req.toNat (updateOwn s req.toNat) → updLength req.toNat ≤ imageLimit (updTypeOf req.toNat) →
    Gives (.updateRequest src req) s fun t => t.fw.updState = 1 ∧ t.fw.updReason = 0 ∧ t.fw.updType = updTypeOf req.toNat ∧ t.fw.updLen = updLength req.toNat ∧
      (otherBank (pairOf t (updTypeOf req.toNat))).state = 1) ∧
  (∀ (src : Src) (req : BitVec 256) (s : State), Passes s src 0x900001 32 req.toNat (updateOwn s req.toNat) → imageLimit (updTypeOf req.toNat) < updLength req.toNat →
    Gives (.updateRequest src req) s fun t => t.fw.updState = 5 ∧ t.fw.updReason = 3) ∧
  (∀ (img : FwImage) (ok : Bool) (s : State), imageThere s.fw = true → s.fw.farrierDown = false → imageReason s img ok = 0 → 1 ≤ s.fw.updType → s.fw.updType ≤ 3 →
    Gives (.updateDone img ok) s fun t => t.fw.updState = 4 ∧ t.fw.updReason = 0 ∧ (otherBank (pairOf t s.fw.updType)).state = 4 ∧
      (otherBank (pairOf t s.fw.updType)).img = img ∧ activeBank (pairOf t s.fw.updType) = activeBank (pairOf s s.fw.updType)) ∧
  (∀ (img : FwImage) (ok : Bool) (s : State), imageThere s.fw = true → s.fw.farrierDown = false → imageReason s img ok ≠ 0 → 1 ≤ s.fw.updType → s.fw.updType ≤ 3 →
    Gives (.updateDone img ok) s fun t => t.fw.updState = 5 ∧ t.fw.updReason = imageReason s img ok ∧ (otherBank (pairOf t s.fw.updType)).state = 1) ∧
  (∀ (src : Src) (offset : Nat) (bytes : List Byte) (s : State), src.path = .halter → door s src = none → chunkReason s src offset bytes.length = 0 →
    Gives (.imageChunk src offset bytes) s fun t => t.host.chunks = chunkIn s.host.chunks offset bytes.length ∧
      t.fw.updState = (if covered (chunkIn s.host.chunks offset bytes.length) s.fw.updLen (chunkIn s.host.chunks offset bytes.length).length 0 then 2 else 1)) ∧
  (∀ s : State, s.fw.updSource = 1 → s.fw.updState = 1 → s.fw.farrierDown = false →
    Gives .imageChunkTimeout s fun t => t.fw.updState = 5 ∧ t.fw.updReason = 6 ∧ t.host.chunks = [])

/-- A PENDING library that the owner activates is the active, trial one and is reloaded, then verified and measured, or given up for the other bank;
a Farrier image restarts the Farrier; what a condition defers waits and is counted, and is carried out afterwards. An activate outside its modes without effect, and the order of
the types, are read so (log 124). -/
def Obligations.Activations : Prop :=
  (∀ (src : Src) (s : State), Passes s src 0x900004 1 8 0 → rw s 0x900005 = 0 → (pendingTypes s).contains 3 = true → deferBlocks s 3 = false →
    Gives (.activateCommand src 8) s fun t => t.fw.libReload = true ∧ (pairOf t 3).activeB = !(pairOf s 3).activeB ∧ (pairOf t 3).trial = true ∧
      t.fw.deferred = s.fw.deferred) ∧
  (∀ (src : Src) (s : State), Passes s src 0x900004 1 2 0 → rw s 0x900005 = 0 → (pendingTypes s).contains 1 = true → deferBlocks s 1 = false →
    Gives (.activateCommand src 2) s fun t => t.fw.farrierDown = true ∧ (pairOf t 1).activeB = !(pairOf s 1).activeB ∧ (pairOf t 1).trial = true) ∧
  (∀ (src : Src) (s : State), Passes s src 0x900004 1 8 0 → rw s 0x900005 = 0 → (pendingTypes s).contains 3 = true → deferBlocks s 3 = true →
    Gives (.activateCommand src 8) s fun t => t.fw.deferMask = s.fw.deferMask ||| 8 ∧ t.fw.deferred = s.fw.deferred + 1 ∧ t.fw.images = s.fw.images) ∧
  (∀ (src : Src) (mask : BitVec 8) (s : State), Passes s src 0x900004 1 mask.toNat 0 → rw s 0x900005 ≠ 0 →
    Gives (.activateCommand src mask) s fun t => t.fw = s.fw) ∧
  (∀ s : State, s.fw.deferMask = 8 → (pendingTypes s).contains 3 = true → deferBlocks s 3 = false →
    Gives .activationDeferralEnd s fun t => t.fw.deferMask = 0 ∧ t.fw.libReload = true ∧ (pairOf t 3).activeB = !(pairOf s 3).activeB) ∧
  (∀ s : State, s.fw.libReload = true → s.tests.trot = none → s.tests.gState = 0 → ostlerBusy s 3 = false →
    Gives (.patternLibraryReload true) s fun t => t.fw.libReload = false ∧ (pairOf t 3).trial = false ∧
      nth t.sec.meas 3 0 = extend (nth s.sec.meas 3 0) (activeBank (pairOf s 3)).img.pdigest) ∧
  (∀ s : State, s.fw.libReload = true → s.tests.trot = none → s.tests.gState = 0 → ostlerBusy s 3 = false →
    Gives (.patternLibraryReload false) s fun t => t.fw.libReload = false ∧ (pairOf t 3).activeB = !(pairOf s 3).activeB ∧
      t.sec.events = s.sec.events + 1 ∧ t.fw.reversions = s.fw.reversions + 1)

/-! ### Reads and writes (19 R490 to R501, 20 R508 to R510) -/

/-- 20 R510 with 19 R490: a read gives the entry's value; of an entry that is not implemented it gives zero, with STATUS 3 on the mailbox and Halter,
and of a WO entry zero with STATUS 0; no illegal sequence is counted. -/
def Obligations.DictReads : Prop :=
  (∀ (src : Src) (index sub : Nat) (s : State), door s src = none → src.path = .window →
    Gives (.dictRead src index sub) s fun t => t.sent = s.sent ++ [.window (windowOffset index sub) (readEntry s index sub)] ∧ Touches [.sent, .free] s t) ∧
  (∀ (src : Src) (index sub : Nat) (s : State), door s src = none → src.path ≠ .window → entryOf index sub = none →
    Gives (.dictRead src index sub) s fun t => t.host.reply = some (3, 0) ∧ t.host.illegal = s.host.illegal ∧ Touches [.host, .sent, .free] s t) ∧
  (∀ (src : Src) (index sub : Nat) (e : Ent) (s : State), door s src = none → src.path ≠ .window → entryOf index sub = some e →
    Gives (.dictRead src index sub) s fun t => t.host.reply = some (0, readEntry s index sub) ∧ t.host.illegal = s.host.illegal ∧
      Touches [.host, .sent, .free] s t) ∧
  (∀ (index sub : Nat) (s : State), entryOf index sub = none → readEntry s index sub = 0) ∧
  (∀ (index sub : Nat) (e : Ent) (s : State), entryOf index sub = some e → e.acc = .wo → readEntry s index sub = 0)

/-- A write that passes is carried out and answered with STATUS 0, and it starts the owner's lease again; an entry with no effect of its own takes
the value, and no other entry changes; a debug unlock that passes, with the token staged or given, unlocks. -/
def Obligations.WritesAccepted : Prop :=
  (∀ (c : Instr) (w : HostWrite) (s : State), hostWrite s c = some w → Passes s w.src w.key w.size w.value w.own →
    Gives c s fun t => (w.src.path = .mailbox → t.host.reply = some (0, 0)) ∧
      (t.host.owner = some w.src.master → t.host.leaseEnd = s.clk.now + 5000000000)) ∧
  (∀ (src : Src) (index sub size value : Nat) (s : State), index < 65536 → sub < 256 → keyOf index sub ≠ 0xA00050 →
      Passes s src (keyOf index sub) size (value % 2 ^ (8 * size)) (condOf s (keyOf index sub) (value % 2 ^ (8 * size))) →
      effectOf src (keyOf index sub) (value % 2 ^ (8 * size)) s = putValue s (keyOf index sub) (value % 2 ^ (8 * size)) → valsWf s.dict.vals = true →
    Gives (.dictWrite src index sub size value) s fun t => rw t (keyOf index sub) = value % 2 ^ (8 * size) ∧
      (∀ k, k ≠ keyOf index sub → rw t k = rw s k) ∧ Touches [.vals, .dict, .host, .sent] s t) ∧
  (∀ (c : Instr) (src : Src) (v : Nat) (token : Sig) (s : State), unlockWrite s c = some (src, v, token) →
      Passes s src 0xA00050 16 v (unlockOwn s v token) →
    Gives c s fun t => t.sec.unlocked = true ∧ t.sec.unlockSeen = true ∧ (src.path = .mailbox → t.host.reply = some (0, 0)) ∧
      (t.host.owner = some src.master → t.host.leaseEnd = s.clk.now + 5000000000))

/-- A write that fails is ignored, and counted and recorded as an illegal sequence with the first reason that stands against it, a debug unlock too,
which a token that is no good leaves locked. -/
def Obligations.WritesRefused : Prop :=
  (∀ (c : Instr) (w : HostWrite) (s : State), hostWrite s c = some w → door s w.src = none → writeReason s w.src w.key w.size w.value w.own ≠ 0 →
    Gives c s fun t => t.host.illegal = min (s.host.illegal + 1) 0xFFFFFFFF ∧
      t.host.lastIllegal = illegalWord w.src (writeReason s w.src w.key w.size w.value w.own) (w.key / 256) (w.key % 256) ∧ Touches [.host, .sent] s t) ∧
  (∀ (c : Instr) (src : Src) (v : Nat) (token : Sig) (s : State), unlockWrite s c = some (src, v, token) → door s src = none →
      writeReason s src 0xA00050 16 v (unlockOwn s v token) ≠ 0 →
    Gives c s fun t => t.host.illegal = min (s.host.illegal + 1) 0xFFFFFFFF ∧
      t.host.lastIllegal = illegalWord src (writeReason s src 0xA00050 16 v (unlockOwn s v token)) 0xA000 0x50 ∧
      t.sec = { s.sec with events := t.sec.events } ∧ Touches [.host, .sent, .sec] s t)

/-- Only the owner writes, but for the power manager's lease and master 0's first credential: whatever another master sends, by whatever command,
changes nothing beyond the port's own counters, replies and notices. -/
def Obligations.OnlyTheOwnerWrites : Prop :=
  (∀ (c : Instr) (w : HostWrite) (s : State), hostWrite s c = some w → s.host.owner ≠ some w.src.master →
    ¬(w.key = 0x700002 ∧ s.host.managers.contains w.src.master = true) → ¬(w.key = 0xA00048 ∧ anyOwner s = false ∧ w.src.master = 0) →
    Gives c s fun t => Touches [.host, .sent] s t) ∧
  (∀ (c : Instr) (src : Src) (v : Nat) (token : Sig) (s : State), unlockWrite s c = some (src, v, token) → s.host.owner ≠ some src.master →
    Gives c s fun t => Touches [.host, .sent] s t)

/-- A write whose ostler restarts waits in the ostler's queue, unless 64 wait there already; a debug unlock has no ostler to wait for. On Halter a bad
tag is counted and not answered, and a repeated request has its reply again. -/
def Obligations.WritesAtTheDoor : Prop :=
  (∀ (c : Instr) (w : HostWrite) (o : Nat) (s : State), hostWrite s c = some w → door s w.src = none →
    writeReason s w.src w.key w.size w.value w.own = 0 → waitsFor s w.key w.value = some o →
    ((ostlerAt s o).queue.length < 64 →
      Gives c s fun t => (ostlerAt t o).queue = (ostlerAt s o).queue ++ [.host w.src w.key w.value] ∧ Touches [.fw, .host] s t) ∧
    (64 ≤ (ostlerAt s o).queue.length →
      Gives c s fun t => t.host.lastIllegal = illegalWord w.src 8 (w.key / 256) (w.key % 256) ∧ Touches [.host, .sent] s t)) ∧
  (∀ (c : Instr) (w : HostWrite) (x : Session) (s : State), hostWrite s c = some w → w.src.path = .halter → w.src.master ≠ 0 → farrierUp s = true →
    sessionOf s w.src.master = some x →
    (w.src.tagOk = false → Gives c s fun t => t.host.tagFails = s.host.tagFails + 1 ∧ t.sent = s.sent ∧ Touches [.host] s t) ∧
    (∀ r, w.src.tagOk = true → x.replies.find? (fun r => decide (r.1 = w.src.seq)) = some r →
      Gives c s fun t => t.sent = s.sent ++ [halterMsg s w.src.master r.2.1 w.src.seq r.2.2.1 r.2.2.2] ∧ Touches [.host, .sent] s t)) ∧
  (∀ (s : State) (v : Nat), waitsFor s 0xA00050 v = none) ∧
  (∀ (c : Instr) (src : Src) (v : Nat) (token : Sig) (x : Session) (s : State), unlockWrite s c = some (src, v, token) → src.path = .halter →
      src.master ≠ 0 → farrierUp s = true → sessionOf s src.master = some x →
    (src.tagOk = false → Gives c s fun t => t.host.tagFails = s.host.tagFails + 1 ∧ t.sent = s.sent ∧ Touches [.host] s t) ∧
    (∀ r, src.tagOk = true → x.replies.find? (fun r => decide (r.1 = src.seq)) = some r →
      Gives c s fun t => t.sent = s.sent ++ [halterMsg s src.master r.2.1 src.seq r.2.2.1 r.2.2.2] ∧ Touches [.host, .sent] s t))

/-! ### Sessions and ownership (19 R497 to R500, 21 R533 to R536) -/

/-- HELLO is answered; an OPEN whose fragments come out of order is dropped and counted, one that is not whole yet is kept, one that replaces another is
counted, and a whole one opens a session in the lowest free slot; fragments and sessions that wait too long go. The held fragments (log 128) and the session's slot and
number (log 129) are read so; SEQ 0 in these messages and the order of the HELLO reply are the model's (log 188). -/
def Obligations.Sessions : Prop :=
  (∀ (m : Fin 9) (s : State), m ≠ 0 → entryWaits s = false → farrierUp s = true →
    Gives (.hello m) s fun t => t.sent = s.sent ++ [setupMsg m 1 0 0 (helloBody s)] ∧ Touches [.sent] s t) ∧
  (∀ (m : Fin 9) (s : State), m ≠ 0 → entryWaits s = true →
    Gives (.hello m) s fun t => t.dev.prodNonce = Config.freeWord s.free ∧ t.dev.prodHello = true ∧
      t.sent = s.sent ++ [setupMsg m 1 0 0 (helloBody s ++ toBytes 8 (Config.freeWord s.free).toNat)]) ∧
  (∀ (frags : List (Nat × List Byte)) (count total : Nat) (s : State), farrierUp s = true → frags ≠ [] → fragsTake (fragsHeld s count total) frags = none →
    Gives (.halterOpen frags count total) s fun t => t.sec.frags = none ∧
      t.host.tagFails = s.host.tagFails + 1 + bit (fragsOther s count total) ∧ t.host.sessions = s.host.sessions) ∧
  (∀ (frags : List (Nat × List Byte)) (count total : Nat) (f : Frags) (s : State), farrierUp s = true → frags ≠ [] →
      fragsTake (fragsHeld s count total) frags = some f → f.next ≠ count →
    Gives (.halterOpen frags count total) s fun t => t.sec.frags = some f ∧ t.host.tagFails = s.host.tagFails + bit (fragsOther s count total) ∧
      Touches [.sec, .host] s t) ∧
  (∀ (frags : List (Nat × List Byte)) (count total : Nat) (f : Frags) (k : Fin 9) (s : State), farrierUp s = true → frags ≠ [] →
      fragsTake (fragsHeld s count total) frags = some f → f.next = count → f.total = 1568 → f.bytes.length = 1568 → freeSlot s = some k → securityUp s = true →
    Gives (.halterOpen frags count total) s fun t => t.sec.frags = none ∧
      ∃ x : Session, t.host.sessions = s.host.sessions ++ [x] ∧ x.slot = k ∧ x.number ≠ 0 ∧ x.topSeq = 0 ∧ x.seqSeen = false ∧ x.lastAt = s.clk.now) ∧
  (∀ s : State, s.sec.frags.isSome = true → Gives (.fragmentTimeout 0) s fun t => t.sec.frags = none ∧ t.host.tagFails = s.host.tagFails + 1) ∧
  (∀ (slot : Fin 9) (s : State), slot ≠ 0 → (sessionOf s slot).isSome = true → farrierUp s = true →
    Gives (.fragmentTimeout slot) s fun t => t.host.tagFails = s.host.tagFails + 1 ∧ Touches [.host] s t) ∧
  (∀ (slot : Fin 9) (x : Session) (s : State), sessionOf s slot = some x →
    Gives (.sessionIdleTimeout slot) s fun t => sessionOf t slot = none ∧ t.host.managers = s.host.managers.filter (· ≠ slot) ∧ t.host.owner = s.host.owner ∧
      x.lastAt + 30000000000 ≤ t.clk.now)

/-- A valid claim makes the first master the owner for 5 s, or waits 10 s behind another owner unless one of as high a priority waits already; an
invalid one gives nothing; each changes the nonce. Ownership passes to the pending claimant, or to no one. Index and sub-index 0 of the records are read so (log 126). -/
def Obligations.Ownership : Prop :=
  (∀ (src : Src) (slot : Fin 8) (priority : Fin 16) (sig : Sig) (s : State), src.path ≠ .window → door s src = none → securityUp s = true →
      claimValid s src slot priority.val sig = true → (credAt s slot.val).owner = true → s.host.owner = none →
    Gives (.claim src slot priority sig) s fun t => t.host.owner = some src.master ∧ t.host.ownerPrio = priority.val ∧ t.host.ownerSlot = slot.val ∧
      t.host.leaseEnd = s.clk.now + 5000000000 ∧ t.sec.claimNonce = Config.freeWord s.free) ∧
  (∀ (src : Src) (slot : Fin 8) (priority : Fin 16) (sig : Sig) (o : Fin 9) (s : State), src.path ≠ .window → door s src = none → securityUp s = true →
      claimValid s src slot priority.val sig = true → (credAt s slot.val).owner = true → s.host.owner = some o → o ≠ src.master →
      (∀ p, s.host.claim = some p → p.priority < priority.val) →
    Gives (.claim src slot priority sig) s fun t => t.host.owner = some o ∧
      t.host.claim = some ⟨src.master, slot, priority.val, s.clk.now + 10000000000⟩) ∧
  (∀ (src : Src) (slot : Fin 8) (priority : Fin 16) (sig : Sig) (o : Fin 9) (p : Claim) (s : State), src.path ≠ .window → door s src = none →
      securityUp s = true → claimValid s src slot priority.val sig = true → (credAt s slot.val).owner = true → s.host.owner = some o → o ≠ src.master →
      s.host.claim = some p → priority.val ≤ p.priority →
    Gives (.claim src slot priority sig) s fun t => t.host.owner = some o ∧ t.host.claim = some p) ∧
  (∀ (src : Src) (slot : Fin 8) (priority : Fin 16) (sig : Sig) (s : State), src.path ≠ .window → door s src = none → securityUp s = true →
      claimValid s src slot priority.val sig = false →
    Gives (.claim src slot priority sig) s fun t => t.host.owner = s.host.owner ∧ t.host.claim = s.host.claim ∧
      t.host.lastIllegal = illegalWord src 9 0 0 ∧ t.sec.claimNonce = Config.freeWord s.free) ∧
  (∀ (src : Src) (slot : Fin 8) (priority : Fin 16) (sig : Sig) (s : State), src.path ≠ .window → door s src = none → securityUp s = false →
    Gives (.claim src slot priority sig) s fun t => t.host.owner = s.host.owner ∧ t.host.claim = s.host.claim ∧
      t.host.lastIllegal = illegalWord src 6 0 0 ∧ t.sec.claimNonce = Config.freeWord s.free) ∧
  (∀ (src : Src) (s : State), src.path ≠ .window → door s src = none → s.host.owner = some src.master →
    Gives (.release src) s fun t => t.host.owner = s.host.claim.map (·.master) ∧ t.host.claim = none) ∧
  (∀ (src : Src) (dest : Fin 9) (c : Claim) (s : State), src.path ≠ .window → door s src = none → s.host.owner = some src.master → s.host.claim = some c →
      c.master = dest →
    Gives (.transfer src dest) s fun t => t.host.owner = some dest ∧ t.host.claim = none) ∧
  (∀ (src : Src) (s : State), src.path ≠ .window → door s src = none → s.host.owner = some src.master →
    Gives (.renew src) s fun t => t.host.owner = some src.master ∧ t.host.leaseEnd = s.clk.now + 5000000000) ∧
  (∀ (c : Claim) (s : State), s.host.claim = some c → Gives .pendingClaimLapse s fun t => t.host.claim = none ∧ t.host.owner = s.host.owner ∧ c.until_ ≤ t.clk.now) ∧
  (∀ s : State, s.host.owner.isSome = true →
    Gives .ownerLeaseExpiry s fun t => t.host.owner = s.host.claim.map (·.master) ∧ t.host.changes = s.host.changes + 1 ∧ s.host.leaseEnd ≤ t.clk.now)

/-- The mailbox answers Identify, Get Supported Logs and every opcode that it does not have; persisted values go to the older copy, whole, or leave it
unusable and are written again; restore defaults drops every persisted value below 0xA000. The return code's number is presumed (log 31); which copy is the
older is read as in log 144. -/
def Obligations.MailboxAndPersistence : Prop :=
  (∀ s : State, cxlUp s = true →
    (Gives .mailboxIdentify s fun t => t.host.msix0 = s.host.msix0 + 1 ∧ t.host.reply.map (·.1) = some 0 ∧ Touches [.host] s t) ∧
    (Gives .mailboxGetSupportedLogs s fun t => t.host.msix0 = s.host.msix0 + 1 ∧ t.host.reply.map (·.1) = some 0 ∧ Touches [.host] s t)) ∧
  (∀ (op : BitVec 16) (s : State), cxlUp s = true → mailboxHas op.toNat = false →
    Gives (.mailboxUnsupportedOpcode op) s fun t => t.host.msix0 = s.host.msix0 + 1 ∧ t.host.reply = some (0x10003, 0) ∧ Touches [.host] s t) ∧
  (∀ s : State, mayPersist s = true → s.dict.pendingW = true → s.dict.failed = false →
    Gives .persistGenerationStart s fun t => t.dict.writing = some ⟨max s.dict.copyA.number s.dict.copyB.number + 1, true, keepRwp s.dict.vals⟩ ∧
      t.dict.copyA = s.dict.copyA ∧ t.dict.copyB = s.dict.copyB) ∧
  (∀ (g : Gen) (s : State), s.dict.writing = some g → s.fw.farrierDown = false →
    (Gives (.persistGenerationDone true) s fun t => t.dict.writing = none ∧ t.dict.gen = g.number ∧ t.dict.failed = false ∧
      (if olderIsA s.dict then t.dict.copyA = g ∧ t.dict.copyB = s.dict.copyB else t.dict.copyB = g ∧ t.dict.copyA = s.dict.copyA)) ∧
    (Gives (.persistGenerationDone false) s fun t => t.dict.writing = none ∧ t.dict.failed = true ∧
      (if olderIsA s.dict then t.dict.copyA.valid = false ∧ t.dict.copyB = s.dict.copyB else t.dict.copyB.valid = false ∧ t.dict.copyA = s.dict.copyA))) ∧
  (∀ s : State, mayPersist s = true → s.dict.failed = true →
    Gives .persistRetry s fun t => t.dict.writing.map (·.image) = some (keepRwp s.dict.vals) ∧ s.dict.lastStart + 1000000000 ≤ t.clk.now) ∧
  (∀ (src : Src) (v : BitVec 8) (s : State), Passes s src 0x20000B 1 v.toNat (defaultsOwn s v.toNat) →
    Gives (.restoreDefaults src v) s fun t => t.dict.pendingW = true ∧
      ∀ x, x ∈ t.dict.vals ↔ x ∈ s.dict.vals ∧ ¬(isRwp x.1 = true ∧ x.1 < 0xA00000))

/-! ### Security functions and production test (21 R529 to R544, 22 R557 to R559) -/

/-- A report is asked for, made and exported; a key is installed in its slot and removed from it, and no other slot changes; a valid debug token
unlocks, with a new nonce. -/
def Obligations.SecurityCommands : Prop :=
  (∀ (src : Src) (nonce : Digest) (s : State), Passes s src 0xA00020 32 nonce.toNat (attestOwn s) →
    Gives (.attestationRequest src nonce) s fun t => t.sec.attState = 1 ∧ t.sec.attNonce = nonce ∧ t.sec.report = s.sec.report) ∧
  (∀ s : State, s.sec.attState = 1 →
    Gives .attestationDone s fun t => t.sec.attState = 2 ∧ t.sec.report = reportOf s.sec s.sec.reportNext ∧ Touches [.sec] s t) ∧
  (∀ (src : Src) (off : BitVec 64) (s : State), Passes s src 0xA00024 8 off.toNat (reportOwn s off.toNat) → s.staging.wf = true →
    Gives (.reportExport src off) s fun t => memTake t.staging off.toNat s.sec.report.length = s.sec.report ∧
      (∀ a, a < off.toNat ∨ off.toNat + s.sec.report.length ≤ a → memGet t.staging a = memGet s.staging a) ∧ t.sec = s.sec) ∧
  (∀ (src : Src) (req : BitVec 128) (s : State), Passes s src 0xA00048 16 req.toNat (installOwn s req.toNat) →
    Gives (.credentialInstall src req) s fun t =>
      credAt t (credSlot req.toNat) = ⟨true, shake256 (memTake s.staging (credOffset req.toNat) 1793), req.getLsbD 5, req.getLsbD 6, req.getLsbD 7, req.getLsbD 8⟩ ∧
      (∀ k, k ≠ credSlot req.toNat → credAt t k = credAt s k) ∧
      (s.host.owner.isSome = true → s.host.ownerSlot = credSlot req.toNat → t.host.owner = s.host.claim.map (·.master))) ∧
  (∀ (src : Src) (slot : BitVec 8) (s : State), Passes s src 0xA00049 1 slot.toNat (removeOwn s slot.toNat) →
    Gives (.credentialRemove src slot) s fun t => credAt t slot.toNat = {} ∧ (∀ k, k ≠ slot.toNat → credAt t k = credAt s k) ∧
      (s.host.owner.isSome = true → s.host.ownerSlot = slot.toNat → t.host.owner = s.host.claim.map (·.master))) ∧
  (∀ (src : Src) (req : BitVec 128) (token : Sig) (s : State), Passes s src 0xA00050 16 req.toNat (unlockOwn s req.toNat token) →
    Gives (.debugUnlockRequest src req token) s fun t => t.sec.unlocked = true ∧ t.sec.unlockSeen = true ∧ t.sec.debugNonce = Config.freeWord s.free ∧
      t.sec.events = s.sec.events)

/-- A window is written and measured, and the others stand; a guest's write that passes stores its bytes, a read that passes is answered with what is
there, and one that is denied is counted and reaches nothing. The snoop at each access is the model's (log 114), and PASS and
overlapping windows are read as in log 138. -/
def Obligations.Blinkers : Prop :=
  (∀ (src : Src) (w : Fin 16) (v : BitVec 256) (s : State), Passes s src (0xB00010 + w.val) 32 v.toNat (windowOwn s w.val v.toNat) → valsWf s.dict.vals = true →
    Gives (.blinkersWindowWrite src w v) s fun t => winAt t w.val = v.toNat ∧ (∀ k, k ≠ w.val → winAt t k = winAt s k) ∧
      nth t.sec.meas 7 0 = extend (nth s.sec.meas 7 0) (windowsDigest t)) ∧
  (∀ (addr len off : Nat) (bs : List Byte) (s : State), guestPart s = true → s.domains.getLsbD 47 = true → bs ≠ [] →
      guestJudged s addr bs.length true = .ok off → stageAway s off bs.length = false → s.staging.wf = true →
    Gives (.guestRequest addr len (some bs)) s fun t => memTake t.staging off bs.length = bs ∧
      (∀ a, a < off ∨ off + bs.length ≤ a → memGet t.staging a = memGet s.staging a) ∧ t.sec.denials = s.sec.denials) ∧
  (∀ (addr len off : Nat) (s : State), guestPart s = true → s.domains.getLsbD 47 = true → len ≠ 0 → guestJudged s addr len false = .ok off →
      stageAway s off len = false →
    Gives (.guestRequest addr len none) s fun t => t.sent = s.sent ++ [.snoop off, .guestData (memTake s.staging off len) true] ∧ Touches [.sent] s t) ∧
  (∀ (addr len cause : Nat) (bs : List Byte) (s : State), guestPart s = true → s.domains.getLsbD 47 = true → bs ≠ [] →
      guestJudged s addr bs.length true = .error cause →
    Gives (.guestRequest addr len (some bs)) s fun t => t.sec.denials = s.sec.denials + 1 ∧ t.sent = s.sent ∧ Touches [.sec] s t) ∧
  (∀ (addr len cause : Nat) (s : State), guestPart s = true → s.domains.getLsbD 47 = true → len ≠ 0 → guestJudged s addr len false = .error cause →
    Gives (.guestRequest addr len none) s fun t => t.sec.denials = s.sec.denials + 1 ∧ t.sent = s.sent ++ [.guestData [] false] ∧ Touches [.sec, .sent] s t)

/-- A valid production token starts phase 1, another draws a new nonce; a production value is written; the ledger is emptied for a new package and keeps
its numbering; a fuse group is programmed. What the ledger keeps, and phase 0 as the place of the wait,
are read so (log 140). -/
def Obligations.ProductionTest : Prop :=
  (∀ (sig : Sig) (s : State), entryWaits s = true → s.dev.prodHello = true → sig.key = s.sec.prodKey → sig.msg = entryDigest s →
    Gives (.ptEntry sig) s fun t => t.dev = { s.dev with phase := 1 } ∧ Touches [.dev] s t) ∧
  (∀ (sig : Sig) (s : State), entryWaits s = true → (s.dev.prodHello = false ∨ sig.key ≠ s.sec.prodKey ∨ sig.msg ≠ entryDigest s) →
    Gives (.ptEntry sig) s fun t => t.dev.phase = s.dev.phase ∧ t.dev.prodNonce = Config.freeWord s.free ∧ t.sec.events = s.sec.events + 1) ∧
  (∀ (src : Src) (req : BitVec 192) (s : State), Passes s src 0xC00010 24 req.toNat (prodOwn s req.toNat) →
    Gives (.productionValueWrite src req) s fun t => t.dev.product = prodWith s.dev.product (prodSub req.toNat) (prodValue req.toNat) ∧
      t.dev.fuses = s.dev.fuses) ∧
  (∀ (src : Src) (v : BitVec 8) (s : State), Passes s src 0xC00011 1 v.toNat (ledgerOwn s v.toNat) →
    Gives (.ledgerReset src v) s fun t => t.ledger.ring = [] ∧ t.ledger.kept = [] ∧ t.ledger.summary = [] ∧ t.ledger.pkgSerial = s.dev.product.pkgSerial ∧
      t.ledger.written = s.ledger.written ∧ t.dev.ledgerRst = true) ∧
  (∀ (src : Src) (req : BitVec 128) (s : State), Passes s src 0xC00012 16 req.toNat (fuseOwn s) →
    Gives (.fuseProgram src req) s fun t => fusesOf t (req.toNat % 256) = fusesOf s (req.toNat % 256) ||| fld req.toNat 127 64 ∧
      (∀ g, g ≠ req.toNat % 256 → fusesOf t g = fusesOf s g) ∧ t.dev.fused = true)

/-! ### Whole-machine rules -/

/-- 07 R186: a halt of a RUNNING context records its cause; of a HALTED one it changes the record only where it ranks above the recorded cause, 5 and 6 above
1, 1 above 2, 2 above 3 and 4; of any other context it changes nothing. -/
def Obligations.HaltRanks : Prop :=
  ∀ (c : Fin 16) (cause task : Nat) (s : State),
    ((ctxAt s c.val).state = .running → ctxAt (haltCtx s c.val cause task) c.val = { ctxAt s c.val with state := .halted, cause := cause, causeTask := task }) ∧
    ((ctxAt s c.val).state = .halted → ctxAt (haltCtx s c.val cause task) c.val =
      if rankOf cause > rankOf (ctxAt s c.val).cause then { ctxAt s c.val with cause := cause, causeTask := task } else ctxAt s c.val) ∧
    ((ctxAt s c.val).state ≠ .running → (ctxAt s c.val).state ≠ .halted → haltCtx s c.val cause task = s) ∧
    rankOf 5 = rankOf 6 ∧ rankOf 1 < rankOf 5 ∧ rankOf 2 < rankOf 1 ∧ rankOf 3 < rankOf 2 ∧ rankOf 3 = rankOf 4 ∧
    ∀ k : Fin 16, k ≠ c → ctxAt (haltCtx s c.val cause task) k.val = ctxAt s k.val

/-- 01 R34: switching a domain on or off, whichever it is, leaves every domain that is on with all that it depends on. -/
def Obligations.DomainDependencies : Prop :=
  ∀ (w : BitVec 50) (d : Nat), d < 50 → DomainsOk w → DomainsOk (domOn w d) ∧ DomainsOk (domOff w d) ∧ (domOff w d).getLsbD d = false

/-- The staged bytes: storing bytes keeps the canonical form, reading them back gives them, and every other address reads as before. -/
def Obligations.StagedBytes : Prop :=
  ∀ (m : Mem) (off : Nat) (bs : List Byte), m.wf = true → (memPut m off bs).wf = true ∧ memTake (memPut m off bs) off bs.length = bs ∧
    ∀ a, a < off ∨ off + bs.length ≤ a → memGet (memPut m off bs) a = memGet m a

/-- Commands leave the queue one at a time from its front and in order: a step takes the first and adds none. The 10 ns tick is the model's (log 3). -/
def Obligations.QueueFirstInFirstOut : Prop :=
  (∀ s t : State, step s = .next t → t.pending = s.pending.drop 1) ∧
  (∀ s : State, s.pending = [] → ∃ t, step s = .next t ∧ t.clk.now = s.clk.now + 10 ∧ Touches [.clk, .host] s t)

/-- A fuse that is blown stays blown, whatever the command and the state. -/
def Obligations.FusesStayBlown : Prop :=
  ∀ (c : Instr) (s t : State) (g k : Nat), exec c s = .next t → (fusesOf s g).testBit k = true → (fusesOf t g).testBit k = true

/-- 21 R525, R528: no command lowers a version counter or takes a revocation back. -/
def Obligations.CountersOnlyRise : Prop :=
  ∀ (c : Instr) (s t : State), exec c s = .next t → (∀ k : Fin 3, nth s.sec.svns k.val 0 ≤ nth t.sec.svns k.val 0) ∧
    ∀ k : Fin 4, s.sec.revoked.getLsbD k.val = true → t.sec.revoked.getLsbD k.val = true

/-- The module at reset: OFF, in BOOT for its first reader, every domain off, without an owner, its contexts EMPTY, its objects at tag 0 and count 0, every
entry at its default, its rein open, its cores mapped as shipped. -/
def Obligations.ResetState : Prop :=
  State.reset.dev.on = false ∧ State.reset.dev.state = .boot ∧ State.reset.domains = 0 ∧ State.reset.host.owner = none ∧ State.reset.host.claim = none ∧
    (∀ c : Fin 16, (ctxAt State.reset c.val).state = .empty) ∧ (∀ o, syncAt State.reset o = { tag := 0, count := 0 }) ∧ (∀ k, rw State.reset k = dfltOf k) ∧
    State.reset.power.p = 64 ∧ State.reset.power.g = 64 ∧ State.reset.steps.committed = 0 ∧ (∀ p : Fin 8, coreMapOf State.reset p.val = 0x0080FFFF) ∧
    State.reset.recov.remap = 31 ∧ State.reset.pending = []

/-- What every step keeps holds at reset. -/
def Obligations.ResetInvariant : Prop := Inv State.reset

/-- From every state in which the domains have what they depend on, the staged bytes stand in canonical form and the entries in key order, a step leads to one
in which they do. -/
def Obligations.StepKeepsInvariant : Prop := ∀ s t : State, Inv s → step s = .next t → Inv t

/-- The frame of every command: whatever the state, a command changes no part of the state beyond those listed for it, and the only fault is an access
outside the aperture; nothing is refused. That nothing else stops is the
model's rule of log 2. -/
def Obligations.Frames : Prop :=
  ∀ (c : Instr) (s : State), (∃ t, exec c s = .next t ∧ Touches (mayTouch c) s t) ∨
    ((∃ off len w err, c = .cxlMemAccess off w len err ∧ off + (w.map List.length).getD len > 2 ^ 36) ∧ exec c s = .fault .outsideAperture)
end

