-- ==== Sys2Proof/Laws/State.lean ====
section
/-! SUPPORT. What the small updates of the state leave of each part, what a write that passes comes to, and the laws of the staged bytes, of
vectors and of association lists. -/

namespace Sys2Proof.Machine

/-! ### Field lemmas -/

@[simp] theorem reach_now (s : State) (n : Nat) : (reach s n).clk.now = max s.clk.now n := rfl
@[simp] theorem reach_dev (s : State) (n : Nat) : (reach s n).dev = s.dev := rfl
@[simp] theorem reach_domains (s : State) (n : Nat) : (reach s n).domains = s.domains := rfl
@[simp] theorem reach_host (s : State) (n : Nat) : (reach s n).host = s.host := rfl
@[simp] theorem reach_dict (s : State) (n : Nat) : (reach s n).dict = s.dict := rfl
@[simp] theorem reach_power (s : State) (n : Nat) : (reach s n).power = s.power := rfl
@[simp] theorem reach_fw (s : State) (n : Nat) : (reach s n).fw = s.fw := rfl
@[simp] theorem reach_tests (s : State) (n : Nat) : (reach s n).tests = s.tests := rfl
@[simp] theorem reach_sent (s : State) (n : Nat) : (reach s n).sent = s.sent := rfl

@[simp] theorem emit_sent (s : State) (e : Emit) : (emit s e).sent = s.sent ++ [e] := rfl
@[simp] theorem emit_host (s : State) (e : Emit) : (emit s e).host = s.host := rfl
@[simp] theorem emit_staging (s : State) (e : Emit) : (emit s e).staging = s.staging := rfl

@[simp] theorem drawn_free (s : State) : (drawn s).free = s.free + 1 := rfl
@[simp] theorem drawn_sec (s : State) : (drawn s).sec = s.sec := rfl
@[simp] theorem drawn_host (s : State) : (drawn s).host = s.host := rfl

@[simp] theorem onCtx_ctxs (s : State) (c : Nat) (f : Ctx → Ctx) : (onCtx s c f).ctxs = updN s.ctxs c f := rfl
@[simp] theorem onCtx_cores (s : State) (c : Nat) (f : Ctx → Ctx) : (onCtx s c f).cores = s.cores := rfl
@[simp] theorem onCtx_steps (s : State) (c : Nat) (f : Ctx → Ctx) : (onCtx s c f).steps = s.steps := rfl
@[simp] theorem onCtx_sync (s : State) (c : Nat) (f : Ctx → Ctx) : (onCtx s c f).sync = s.sync := rfl

@[simp] theorem onCore_cores (s : State) (g : Nat) (f : Core → Core) : (onCore_ s g f).cores = updN s.cores g f := rfl
@[simp] theorem onCore_ctxs (s : State) (g : Nat) (f : Core → Core) : (onCore_ s g f).ctxs = s.ctxs := rfl
@[simp] theorem onCore_power (s : State) (g : Nat) (f : Core → Core) : (onCore_ s g f).power = s.power := rfl
@[simp] theorem onCore_domains (s : State) (g : Nat) (f : Core → Core) : (onCore_ s g f).domains = s.domains := rfl

@[simp] theorem onLink_links (s : State) (l : Nat) (f : Link → Link) : (onLink s l f).links = updN s.links l f := rfl
@[simp] theorem onLink_coll (s : State) (l : Nat) (f : Link → Link) : (onLink s l f).coll = s.coll := rfl
@[simp] theorem onLink_topo (s : State) (l : Nat) (f : Link → Link) : (onLink s l f).topo = s.topo := rfl
@[simp] theorem onLink_sent (s : State) (l : Nat) (f : Link → Link) : (onLink s l f).sent = s.sent := rfl
@[simp] theorem onLink_clk (s : State) (l : Nat) (f : Link → Link) : (onLink s l f).clk = s.clk := rfl

@[simp] theorem onChan_chans (s : State) (k : Nat) (f : Chan → Chan) : (onChan s k f).chans = updN s.chans k f := rfl
@[simp] theorem onChan_steps (s : State) (k : Nat) (f : Chan → Chan) : (onChan s k f).steps = s.steps := rfl
@[simp] theorem onChan_ctxs (s : State) (k : Nat) (f : Chan → Chan) : (onChan s k f).ctxs = s.ctxs := rfl

@[simp] theorem onOstler_ostlers (s : State) (o : Nat) (f : Ostler → Ostler) : (onOstler s o f).fw.ostlers = updN s.fw.ostlers o f := rfl
@[simp] theorem onOstler_clk (s : State) (o : Nat) (f : Ostler → Ostler) : (onOstler s o f).clk = s.clk := rfl
@[simp] theorem onOstler_dev (s : State) (o : Nat) (f : Ostler → Ostler) : (onOstler s o f).dev = s.dev := rfl

@[simp] theorem domainsOn_domains (s : State) (ds : List Nat) : (domainsOn s ds).domains = ds.foldl domOn s.domains := rfl
@[simp] theorem domainsOff_domains (s : State) (ds : List Nat) : (domainsOff s ds).domains = ds.foldl domOff s.domains := rfl
@[simp] theorem domainsOff_dev (s : State) (ds : List Nat) : (domainsOff s ds).dev = s.dev := rfl

@[simp] theorem keepReadings_vals (s : State) (p : Nat) : (keepReadings s p).dict.vals = s.dict.vals := rfl
@[simp] theorem keepReadings_domains (s : State) (p : Nat) : (keepReadings s p).domains = s.domains := rfl
@[simp] theorem keepReadings_dev (s : State) (p : Nat) : (keepReadings s p).dev = s.dev := rfl
@[simp] theorem keepReadings_recov (s : State) (p : Nat) : (keepReadings s p).recov = s.recov := rfl

@[simp] theorem denied_sent (s : State) (a c : Nat) (w : Bool) : (denied s a c w).sent = s.sent := rfl
@[simp] theorem denied_dev (s : State) (a c : Nat) (w : Bool) : (denied s a c w).dev = s.dev := rfl
@[simp] theorem denied_denials (s : State) (a c : Nat) (w : Bool) : (denied s a c w).sec.denials = s.sec.denials + 1 := rfl

@[simp] theorem setAlert_power (s : State) : (setAlert s).power = s.power := rfl
@[simp] theorem setAlert_dev (s : State) : (setAlert s).dev = s.dev := rfl
@[simp] theorem setAlert_host (s : State) : (setAlert s).host = s.host := rfl
@[simp] theorem setAlert_clk (s : State) : (setAlert s).clk = s.clk := rfl
@[simp] theorem setAlert_domains (s : State) : (setAlert s).domains = s.domains := rfl

/-! ### Vectors and association lists -/

theorem nth_updN {α : Type} {n : Nat} (v : Vector α n) (i j : Nat) (f : α → α) (d : α) :
    nth (updN v i f) j d = if i = j ∧ j < n then f (nth v j d) else nth v j d := by
  unfold nth updN upd
  split <;> split <;> simp_all [Vector.getElem_set]
  · split <;> simp_all
  · omega

theorem assocSet_same {κ α : Type} [DecidableEq κ] (l : List (κ × α)) (k : κ) (a : α) : assoc? (assocSet l k a) k = some a := by
  induction l with
  | nil => simp [assocSet, assoc?]
  | cons x r ih => obtain ⟨k', b⟩ := x; by_cases h : k' = k <;> simp [assocSet, assoc?, h, ih]

theorem assocSet_other {κ α : Type} [DecidableEq κ] (l : List (κ × α)) (k j : κ) (a : α) (h : j ≠ k) : assoc? (assocSet l k a) j = assoc? l j := by
  induction l with
  | nil => simp [assocSet, assoc?, Ne.symm h]
  | cons x r ih =>
    obtain ⟨k', b⟩ := x
    by_cases e : k' = k
    · subst e; simp [assocSet, assoc?, Ne.symm h]
    · rw [assocSet, if_neg e]
      by_cases g : k' = j
      · simp [assoc?, g]
      · simp [assoc?, g, ih]

/-! ### The dictionary window (20 R506) -/

/-- The slot at the offset of an entry is that entry's. -/
theorem windowSlot_windowOffset {index sub : Nat} (h : sub < 256) : windowSlot (windowOffset index sub) = (index, sub) := by
  unfold windowSlot windowOffset
  rw [Prod.mk.injEq]
  omega

/-! ### A write that passes -/

/-- A write that passes is the effect of its entry, then the owner's lease and the reply. -/
theorem hostCommand_passes {s : State} {src : Src} {key size value own : Nat} {effect : State → State} (h : Passes s src key size value own) :
    hostCommand s src key size value own effect = accepted (effect s) src 0x11 0 [] := by
  obtain ⟨hd, hr, hw⟩ := h
  simp [hostCommand, hd, hr, hw]

/-- A write that fails is an illegal sequence with its reason. -/
theorem hostCommand_refused {s : State} {src : Src} {key size value own : Nat} {effect : State → State} (hd : door s src = none)
    (hr : writeReason s src key size value own ≠ 0) :
    hostCommand s src key size value own effect = illegal s src 0x11 (writeReason s src key size value own) (key / 256) (key % 256) := by
  simp [hostCommand, hd, hr]

/-! ### The staged bytes -/

theorem Mem.wf_tail {k : Nat} {b : Byte} {r : Mem} (h : Mem.wf ((k, b) :: r) = true) : Mem.wf r = true := by
  simp only [Mem.wf, Bool.and_eq_true] at h
  exact h.2

/-- Every address of a canonical list lies above that of the entry before it. -/
theorem Mem.wf_above {k : Nat} {b : Byte} {r : Mem} (h : Mem.wf ((k, b) :: r) = true) : ∀ x ∈ r, k < x.1 := by
  induction r generalizing k b with
  | nil => simp
  | cons y r ih =>
    obtain ⟨k', c⟩ := y
    have hk : k < k' := by simp only [Mem.wf, Bool.and_eq_true, decide_eq_true_eq] at h; exact h.1.2
    intro x hx
    rcases List.mem_cons.mp hx with rfl | hx
    · exact hk
    · exact lt_trans hk (ih (Mem.wf_tail h) x hx)

theorem memGet_zero {m : Mem} {a : Nat} (h : ∀ x ∈ m, x.1 ≠ a) : memGet m a = 0 := by
  induction m with
  | nil => rfl
  | cons y r ih =>
    obtain ⟨k, b⟩ := y
    have hk : k ≠ a := h (k, b) (by simp)
    simp [memGet, hk, ih fun x hx => h x (by simp [hx])]

theorem Mem.wf_cons {k : Nat} {b : Byte} {r : Mem} (hb : b ≠ 0) (ha : ∀ x ∈ r, k < x.1) (hr : Mem.wf r = true) : Mem.wf ((k, b) :: r) = true := by
  cases r with
  | nil => simpa [Mem.wf] using hb
  | cons y r =>
    obtain ⟨k', c⟩ := y
    have hk : k < k' := ha (k', c) (by simp)
    rw [Mem.wf, hr]
    simpa [hk] using hb

theorem memSet_mem {m : Mem} {a : Nat} {b : Byte} {x : Nat × Byte} (h : x ∈ memSet m a b) : x.1 = a ∨ x ∈ m := by
  induction m with
  | nil => by_cases hb : b = 0 <;> simp_all [memSet]
  | cons y r ih =>
    obtain ⟨k, c⟩ := y
    simp only [memSet] at h
    repeat' split at h
    all_goals simp only [List.mem_cons] at *
    all_goals rcases h with h | h <;> simp_all
    all_goals try tauto

/-- Storing a byte keeps the canonical form. -/
theorem memSet_wf {m : Mem} (a : Nat) (b : Byte) (h : m.wf = true) : (memSet m a b).wf = true := by
  induction m with
  | nil =>
    rw [memSet]
    split
    · rfl
    · exact Mem.wf_cons ‹_› (by simp) rfl
  | cons y r ih =>
    obtain ⟨k, c⟩ := y
    have hc : c ≠ 0 := by simp only [Mem.wf, Bool.and_eq_true, bne_iff_ne] at h; exact h.1.1
    have ha := Mem.wf_above h
    have hr := Mem.wf_tail h
    simp only [memSet]
    split
    · split
      · exact h
      · refine Mem.wf_cons ‹_› (fun x hx => ?_) h
        rcases List.mem_cons.mp hx with rfl | hx
        · assumption
        · exact lt_trans ‹_› (ha x hx)
    · split
      · split
        · exact hr
        · subst_vars; exact Mem.wf_cons ‹_› ha hr
      · refine Mem.wf_cons hc (fun x hx => ?_) (ih hr)
        rcases memSet_mem hx with e | hx
        · omega
        · exact ha x hx

/-- Storing bytes keeps the canonical form. -/
theorem memPut_wf {m : Mem} (a : Nat) (bs : List Byte) (h : m.wf = true) : (memPut m a bs).wf = true := by
  induction bs generalizing m a with
  | nil => exact h
  | cons b bs ih => exact ih (a + 1) (memSet_wf a b h)

/-- A byte reads as it was stored, and every other as before. -/
theorem memGet_memSet {m : Mem} (a c : Nat) (b : Byte) (h : m.wf = true) : memGet (memSet m a b) c = if c = a then b else memGet m c := by
  induction m with
  | nil =>
    rw [memSet]
    by_cases hb : b = 0
    · rw [if_pos hb, hb]; simp [memGet]
    · rw [if_neg hb]
      by_cases hc : c = a
      · rw [if_pos hc, memGet, if_pos hc.symm]
      · rw [if_neg hc]; simp [memGet, Ne.symm hc]
  | cons y r ih =>
    obtain ⟨k, d⟩ := y
    have ha := Mem.wf_above h
    have hr := ih (Mem.wf_tail h)
    have hz : ∀ e, e ≤ k → memGet r e = 0 := fun e he => memGet_zero fun x hx => by have := ha x hx; omega
    rw [memSet]
    by_cases h1 : a < k
    · rw [if_pos h1]
      by_cases hb : b = 0
      · rw [if_pos hb]
        by_cases hc : c = a
        · subst hc
          rw [if_pos rfl, memGet, if_neg (by omega), hb]
          exact hz c (by omega)
        · rw [if_neg hc]
      · rw [if_neg hb]
        by_cases hc : c = a
        · rw [if_pos hc, memGet, if_pos hc.symm]
        · rw [if_neg hc, memGet, if_neg (Ne.symm hc)]
    · rw [if_neg h1]
      by_cases h2 : a = k
      · subst h2
        rw [if_pos rfl]
        by_cases hb : b = 0
        · rw [if_pos hb]
          by_cases hc : c = a
          · rw [if_pos hc, hc, hb]; exact hz a (le_refl a)
          · rw [if_neg hc, memGet, if_neg (Ne.symm hc)]
        · rw [if_neg hb]
          by_cases hc : c = a
          · rw [if_pos hc, memGet, if_pos hc.symm]
          · rw [if_neg hc, memGet, if_neg (Ne.symm hc), memGet, if_neg (Ne.symm hc)]
      · rw [if_neg h2, memGet, memGet]
        by_cases hk : k = c
        · rw [if_pos hk, if_pos hk, if_neg (by omega)]
        · rw [if_neg hk, if_neg hk, hr]

end Sys2Proof.Machine
end

