-- ==== Sys2Proof/Laws/Touches.lean ====
section
/-! SUPPORT. How frames compose: `Touches W s t` under more parts, further calls, folds, and record updates. -/

namespace Sys2Proof.Machine

theorem StatePart.same_refl (p : StatePart) (s : State) : p.same s s := by cases p <;> rfl

theorem StatePart.same_trans {p : StatePart} {s t u : State} (h : p.same s t) (k : p.same t u) : p.same s u := by
  cases p <;> exact Eq.trans h k

theorem Touches.refl {W : List StatePart} {s : State} : Touches W s s := fun p _ => p.same_refl s

theorem Touches.trans {W : List StatePart} {s t u : State} (h : Touches W s t) (k : Touches W t u) : Touches W s u :=
  fun p hp => StatePart.same_trans (h p hp) (k p hp)

/-- Does one list of parts lie in another? -/
def partsWithin (V W : List StatePart) : Bool := V.all fun p => W.contains p

theorem Touches.mono {V W : List StatePart} {s t : State} (hv : partsWithin V W = true) (h : Touches V s t) : Touches W s t := by
  intro p hp
  refine h p ?_
  by_contra hc
  have hm : p ∈ V := by simpa using hc
  have := List.all_eq_true.mp hv p hm
  simp_all

/-- One more call, whose parts lie in `W`. -/
theorem Touches.step {V W : List StatePart} {s x y : State} (g : Touches V x y) (hv : partsWithin V W = true) (h : Touches W s x) : Touches W s y :=
  h.trans (g.mono hv)

theorem Touches.fold {α : Type} {W : List StatePart} {s x : State} {f : State → α → State} {l : List α}
    (hf : ∀ x a, Touches W x (f x a)) (h : Touches W s x) : Touches W s (l.foldl f x) := by
  induction l generalizing x with
  | nil => exact h
  | cons a r ih => exact ih (h.trans (hf x a))

/-- A frame of a record update, set apart from that of a call. -/
def Leaf (W : List StatePart) (s y : State) : Prop := Touches W s y

theorem Touches.mk_iff {W : List StatePart} {s : State}
    {a0 a1 a2 a3 a4 a5 a6 a7 a8 a9 a10 a11 a12 a13 a14 a15 a16 a17 a18 a19 a20 a21 a22 a23 a24 a25 a26 a27 a28 a29 a30 a31 a32} :
    Touches W s (State.mk a0 a1 a2 a3 a4 a5 a6 a7 a8 a9 a10 a11 a12 a13 a14 a15 a16 a17 a18 a19 a20 a21 a22 a23 a24 a25 a26 a27 a28 a29 a30 a31 a32) ↔
    Leaf W s (State.mk a0 a1 a2 a3 a4 a5 a6 a7 a8 a9 a10 a11 a12 a13 a14 a15 a16 a17 a18 a19 a20 a21 a22 a23 a24 a25 a26 a27 a28 a29 a30 a31 a32) := Iff.rfl

/-- A record update of `x`; `x` is read from the queue, which no command changes. -/
theorem Leaf.of {W : List StatePart} {s x : State}
    {a0 a1 a2 a3 a4 a5 a6 a7 a8 a9 a10 a11 a12 a13 a14 a15 a16 a17 a18 a19 a20 a21 a22 a23 a24 a25 a26 a27 a28 a29 a30 a31 a32}
    (_ : a0 = x.pending)
    (e : ∀ p, W.contains p = false → p.same x (State.mk a0 a1 a2 a3 a4 a5 a6 a7 a8 a9 a10 a11 a12 a13 a14 a15 a16 a17 a18 a19 a20 a21 a22 a23 a24 a25 a26 a27 a28 a29 a30 a31 a32))
    (h : Touches W s x) :
    Leaf W s (State.mk a0 a1 a2 a3 a4 a5 a6 a7 a8 a9 a10 a11 a12 a13 a14 a15 a16 a17 a18 a19 a20 a21 a22 a23 a24 a25 a26 a27 a28 a29 a30 a31 a32) := h.trans e

theorem Touches.ite_iff {W : List StatePart} {s x y : State} {c : Prop} [Decidable c] :
    Touches W s (if c then x else y) ↔ (c → Touches W s x) ∧ (¬c → Touches W s y) := by
  split <;> simp [*]

theorem OutTouches.next {W : List StatePart} {s t : State} (h : Touches W s t) : OutTouches W s (.next t) := by
  intro u hu
  cases hu
  exact h

theorem OutTouches.fault {W : List StatePart} {s : State} {r : Fault} : OutTouches W s (.fault r) := by
  intro u hu
  cases hu

theorem OutTouches.mono {V W : List StatePart} {s : State} {o : Out} (hv : partsWithin V W = true) (h : OutTouches V s o) : OutTouches W s o :=
  fun t ht => (h t ht).mono hv

end Sys2Proof.Machine
end

