-- ==== Sys2Proof/Laws/TouchOperands.lean ====
section
/-! SUPPORT. What each operation and meaning of Machine/Operands.lean can change. -/

set_option linter.unusedSimpArgs false
set_option linter.unusedTactic false
set_option linter.unreachableTactic false

namespace Sys2Proof.Machine

theorem doSplits_touches (s : State) (c : Nat) (n : Nat) (ws : List Wr) (ts : List (Nat × Nat)) : Touches [.vers] s (doSplits s c n ws ts) := by
  unfold doSplits
  try dsimp only
  repeat' first
    | with_reducible exact .refl
    | simp only [Touches.mk_iff, Touches.ite_iff]
    | with_reducible refine And.intro (fun _ => ?_) (fun _ => ?_)
    | ((with_reducible refine Leaf.of rfl (fun p hp => ?_) ?_); (cases p <;> first | exact absurd hp (by decide) | (show _ = _; with_reducible rfl) | rfl | (show _ = _; unfold openStep; split <;> rfl)))

theorem splitFirst_touches (s : State) (c : Nat) (n : Nat) (ws : List Wr) : Touches [.vers] s (splitFirst s c n ws) := by
  unfold splitFirst
  try dsimp only
  repeat' first
    | with_reducible exact .refl
    | simp only [Touches.mk_iff, Touches.ite_iff]
    | with_reducible refine And.intro (fun _ => ?_) (fun _ => ?_)
    | ((with_reducible refine Leaf.of rfl (fun p hp => ?_) ?_); (cases p <;> first | exact absurd hp (by decide) | (show _ = _; with_reducible rfl) | rfl | (show _ = _; unfold openStep; split <;> rfl)))
    | ((with_reducible apply Touches.step (doSplits_touches _ _ _ _ _)); · decide)

theorem putPersistent_touches (s : State) (c : Nat) (n : Nat) (w : Wr) : Touches [.vers] s (putPersistent s c n w) := by
  unfold putPersistent
  try dsimp only
  repeat' first
    | with_reducible exact .refl
    | simp only [Touches.mk_iff, Touches.ite_iff]
    | with_reducible refine And.intro (fun _ => ?_) (fun _ => ?_)
    | ((with_reducible refine Leaf.of rfl (fun p hp => ?_) ?_); (cases p <;> first | exact absurd hp (by decide) | (show _ = _; with_reducible rfl) | rfl | (show _ = _; unfold openStep; split <;> rfl)))

theorem putTransient_touches (s : State) (c : Nat) (n : Nat) (w : Wr) : Touches [.vers, .free] s (putTransient s c n w) := by
  unfold putTransient
  try dsimp only
  repeat' first
    | with_reducible exact .refl
    | simp only [Touches.mk_iff, Touches.ite_iff]
    | with_reducible refine And.intro (fun _ => ?_) (fun _ => ?_)
    | ((with_reducible refine Leaf.of rfl (fun p hp => ?_) ?_); (cases p <;> first | exact absurd hp (by decide) | (show _ = _; with_reducible rfl) | rfl | (show _ = _; unfold openStep; split <;> rfl)))

theorem putWr_touches (s : State) (c : Nat) (n : Nat) (w : Wr) : Touches [.vers, .free] s (putWr s c n w) := by
  unfold putWr
  try dsimp only
  repeat' first
    | with_reducible exact .refl
    | simp only [Touches.mk_iff, Touches.ite_iff]
    | with_reducible refine And.intro (fun _ => ?_) (fun _ => ?_)
    | ((with_reducible refine Leaf.of rfl (fun p hp => ?_) ?_); (cases p <;> first | exact absurd hp (by decide) | (show _ = _; with_reducible rfl) | rfl | (show _ = _; unfold openStep; split <;> rfl)))
    | ((with_reducible apply Touches.step (putTransient_touches _ _ _ _)); · decide)
    | ((with_reducible apply Touches.step (putPersistent_touches _ _ _ _)); · decide)
    | (with_reducible apply Touches.fold (fun _ _ => ?_))
    | split

theorem putAll_touches (s : State) (c : Nat) (n : Nat) (ws : List Wr) : Touches [.vers, .mem, .free] s (putAll s c n ws) := by
  unfold putAll
  try dsimp only
  repeat' first
    | with_reducible exact .refl
    | simp only [Touches.mk_iff, Touches.ite_iff]
    | with_reducible refine And.intro (fun _ => ?_) (fun _ => ?_)
    | ((with_reducible refine Leaf.of rfl (fun p hp => ?_) ?_); (cases p <;> first | exact absurd hp (by decide) | (show _ = _; with_reducible rfl) | rfl | (show _ = _; unfold openStep; split <;> rfl)))
    | ((with_reducible apply Touches.step (doSplits_touches _ _ _ _ _)); · decide)
    | ((with_reducible apply Touches.step (putWr_touches _ _ _ _)); · decide)
    | (with_reducible apply Touches.fold (fun _ _ => ?_))

end Sys2Proof.Machine
end

