-- ==== Sys2Proof/Laws/TouchFrames.lean ====
section
/-! SUPPORT. What each operation and meaning of Machine/Frames.lean can change. -/

set_option linter.unusedSimpArgs false
set_option linter.unusedTactic false
set_option linter.unreachableTactic false

namespace Sys2Proof.Machine

theorem emit_touches (s : State) (e : Emit) : Touches [.sent] s (emit s e) := by
  unfold emit
  try dsimp only
  repeat' first
    | with_reducible exact .refl
    | simp only [Touches.mk_iff, Touches.ite_iff]
    | with_reducible refine And.intro (fun _ => ?_) (fun _ => ?_)
    | ((with_reducible refine Leaf.of rfl (fun p hp => ?_) ?_); (cases p <;> first | exact absurd hp (by decide) | (show _ = _; with_reducible rfl) | rfl | (show _ = _; unfold openStep; split <;> rfl)))

theorem emits_touches (s : State) (es : List Emit) : Touches [.sent] s (emits s es) := by
  unfold emits
  try dsimp only
  repeat' first
    | with_reducible exact .refl
    | simp only [Touches.mk_iff, Touches.ite_iff]
    | with_reducible refine And.intro (fun _ => ?_) (fun _ => ?_)
    | ((with_reducible refine Leaf.of rfl (fun p hp => ?_) ?_); (cases p <;> first | exact absurd hp (by decide) | (show _ = _; with_reducible rfl) | rfl | (show _ = _; unfold openStep; split <;> rfl)))

theorem drawn_touches (s : State) : Touches [.free] s (drawn s) := by
  unfold drawn
  try dsimp only
  repeat' first
    | with_reducible exact .refl
    | simp only [Touches.mk_iff, Touches.ite_iff]
    | with_reducible refine And.intro (fun _ => ?_) (fun _ => ?_)
    | ((with_reducible refine Leaf.of rfl (fun p hp => ?_) ?_); (cases p <;> first | exact absurd hp (by decide) | (show _ = _; with_reducible rfl) | rfl | (show _ = _; unfold openStep; split <;> rfl)))

theorem onLink_touches (s : State) (l : Nat) (f : Link → Link) : Touches [.links] s (onLink s l f) := by
  unfold onLink
  try dsimp only
  repeat' first
    | with_reducible exact .refl
    | simp only [Touches.mk_iff, Touches.ite_iff]
    | with_reducible refine And.intro (fun _ => ?_) (fun _ => ?_)
    | ((with_reducible refine Leaf.of rfl (fun p hp => ?_) ?_); (cases p <;> first | exact absurd hp (by decide) | (show _ = _; with_reducible rfl) | rfl | (show _ = _; unfold openStep; split <;> rfl)))

theorem pushFlit_touches (s : State) (l : Nat) (f : Flit) : Touches [.links, .sent] s (pushFlit s l f) := by
  unfold pushFlit
  try dsimp only
  repeat' first
    | with_reducible exact .refl
    | simp only [Touches.mk_iff, Touches.ite_iff]
    | with_reducible refine And.intro (fun _ => ?_) (fun _ => ?_)
    | ((with_reducible refine Leaf.of rfl (fun p hp => ?_) ?_); (cases p <;> first | exact absurd hp (by decide) | (show _ = _; with_reducible rfl) | rfl | (show _ = _; unfold openStep; split <;> rfl)))
    | ((with_reducible apply Touches.step (onLink_touches _ _ _)); · decide)
    | ((with_reducible apply Touches.step (emit_touches _ _)); · decide)

theorem controlOn_touches (s : State) (d : Dir) (payload : List Byte) : Touches [.links, .sent] s (controlOn s d payload) := by
  unfold controlOn
  try dsimp only
  repeat' first
    | with_reducible exact .refl
    | simp only [Touches.mk_iff, Touches.ite_iff]
    | with_reducible refine And.intro (fun _ => ?_) (fun _ => ?_)
    | ((with_reducible refine Leaf.of rfl (fun p hp => ?_) ?_); (cases p <;> first | exact absurd hp (by decide) | (show _ = _; with_reducible rfl) | rfl | (show _ = _; unfold openStep; split <;> rfl)))
    | ((with_reducible apply Touches.step (pushFlit_touches _ _ _)); · decide)
    | (with_reducible apply Touches.fold (fun _ _ => ?_))
    | split

theorem sendFence_touches (s : State) (r : BitVec 128) (ds : List Nat) : Touches [.links, .sent] s (sendFence s r ds) := by
  unfold sendFence
  try dsimp only
  repeat' first
    | with_reducible exact .refl
    | simp only [Touches.mk_iff, Touches.ite_iff]
    | with_reducible refine And.intro (fun _ => ?_) (fun _ => ?_)
    | ((with_reducible refine Leaf.of rfl (fun p hp => ?_) ?_); (cases p <;> first | exact absurd hp (by decide) | (show _ = _; with_reducible rfl) | rfl | (show _ = _; unfold openStep; split <;> rfl)))
    | ((with_reducible apply Touches.step (emit_touches _ _)); · decide)
    | ((with_reducible apply Touches.step (controlOn_touches _ _ _)); · decide)
    | (with_reducible apply Touches.fold (fun _ _ => ?_))

theorem post_touches (s : State) (kind : Nat) (index : Nat) (sub : Nat) (arg : Nat) : Touches [.host, .sent] s (post s kind index sub arg) := by
  unfold post
  try dsimp only
  repeat' first
    | with_reducible exact .refl
    | simp only [Touches.mk_iff, Touches.ite_iff]
    | with_reducible refine And.intro (fun _ => ?_) (fun _ => ?_)
    | ((with_reducible refine Leaf.of rfl (fun p hp => ?_) ?_); (cases p <;> first | exact absurd hp (by decide) | (show _ = _; with_reducible rfl) | rfl | (show _ = _; unfold openStep; split <;> rfl)))

theorem postHeld_touches (s : State) : Touches [.host, .sent] s (postHeld s) := by
  unfold postHeld
  try dsimp only
  repeat' first
    | with_reducible exact .refl
    | simp only [Touches.mk_iff, Touches.ite_iff]
    | with_reducible refine And.intro (fun _ => ?_) (fun _ => ?_)
    | ((with_reducible refine Leaf.of rfl (fun p hp => ?_) ?_); (cases p <;> first | exact absurd hp (by decide) | (show _ = _; with_reducible rfl) | rfl | (show _ = _; unfold openStep; split <;> rfl)))
    | ((with_reducible apply Touches.step (post_touches _ _ _ _ _)); · decide)
    | (with_reducible apply Touches.fold (fun _ _ => ?_))

theorem sendFrame_touches (s : State) (ty : Nat) (payload : Nat) (d : Dir) : Touches [.topo, .sent] s (sendFrame s ty payload d) := by
  unfold sendFrame
  try dsimp only
  repeat' first
    | with_reducible exact .refl
    | simp only [Touches.mk_iff, Touches.ite_iff]
    | with_reducible refine And.intro (fun _ => ?_) (fun _ => ?_)
    | ((with_reducible refine Leaf.of rfl (fun p hp => ?_) ?_); (cases p <;> first | exact absurd hp (by decide) | (show _ = _; with_reducible rfl) | rfl | (show _ = _; unfold openStep; split <;> rfl)))

theorem sendFrames_touches (s : State) (ty : Nat) (payload : Nat) (ds : List Dir) : Touches [.topo, .sent] s (sendFrames s ty payload ds) := by
  unfold sendFrames
  try dsimp only
  repeat' first
    | with_reducible exact .refl
    | simp only [Touches.mk_iff, Touches.ite_iff]
    | with_reducible refine And.intro (fun _ => ?_) (fun _ => ?_)
    | ((with_reducible refine Leaf.of rfl (fun p hp => ?_) ?_); (cases p <;> first | exact absurd hp (by decide) | (show _ = _; with_reducible rfl) | rfl | (show _ = _; unfold openStep; split <;> rfl)))
    | ((with_reducible apply Touches.step (sendFrame_touches _ _ _ _)); · decide)
    | (with_reducible apply Touches.fold (fun _ _ => ?_))

theorem onChan_touches (s : State) (k : Nat) (f : Chan → Chan) : Touches [.chans] s (onChan s k f) := by
  unfold onChan
  try dsimp only
  repeat' first
    | with_reducible exact .refl
    | simp only [Touches.mk_iff, Touches.ite_iff]
    | with_reducible refine And.intro (fun _ => ?_) (fun _ => ?_)
    | ((with_reducible refine Leaf.of rfl (fun p hp => ?_) ?_); (cases p <;> first | exact absurd hp (by decide) | (show _ = _; with_reducible rfl) | rfl | (show _ = _; unfold openStep; split <;> rfl)))

theorem sendUpCount_touches (s : State) (k : Nat) (axis : Nat) (plus : Bool) (w : BitVec 32) (v : BitVec 32) (n : Nat) : Touches [.topo, .sent] s (sendUpCount s k axis plus w v n) := by
  unfold sendUpCount
  try dsimp only
  repeat' first
    | with_reducible exact .refl
    | simp only [Touches.mk_iff, Touches.ite_iff]
    | with_reducible refine And.intro (fun _ => ?_) (fun _ => ?_)
    | ((with_reducible refine Leaf.of rfl (fun p hp => ?_) ?_); (cases p <;> first | exact absurd hp (by decide) | (show _ = _; with_reducible rfl) | rfl | (show _ = _; unfold openStep; split <;> rfl)))
    | ((with_reducible apply Touches.step (sendFrame_touches _ _ _ _)); · decide)
    | (with_reducible apply Touches.fold (fun _ _ => ?_))
    | split

theorem sendUp_touches (s : State) (k : Nat) (axis : Nat) (plus : Bool) : Touches [.topo, .sent] s (sendUp s k axis plus) := by
  unfold sendUp
  try dsimp only
  repeat' first
    | with_reducible exact .refl
    | simp only [Touches.mk_iff, Touches.ite_iff]
    | with_reducible refine And.intro (fun _ => ?_) (fun _ => ?_)
    | ((with_reducible refine Leaf.of rfl (fun p hp => ?_) ?_); (cases p <;> first | exact absurd hp (by decide) | (show _ = _; with_reducible rfl) | rfl | (show _ = _; unfold openStep; split <;> rfl)))
    | ((with_reducible apply Touches.step (sendUpCount_touches _ _ _ _ _ _ _)); · decide)
    | (with_reducible apply Touches.fold (fun _ _ => ?_))
    | split

theorem enterPhase_touches (s : State) (k : Nat) (ph : Nat) (w : BitVec 32) : Touches [.chans, .topo, .sent] s (enterPhase s k ph w) := by
  unfold enterPhase
  try dsimp only
  repeat' first
    | with_reducible exact .refl
    | simp only [Touches.mk_iff, Touches.ite_iff]
    | with_reducible refine And.intro (fun _ => ?_) (fun _ => ?_)
    | ((with_reducible refine Leaf.of rfl (fun p hp => ?_) ?_); (cases p <;> first | exact absurd hp (by decide) | (show _ = _; with_reducible rfl) | rfl | (show _ = _; unfold openStep; split <;> rfl)))
    | ((with_reducible apply Touches.step (sendUp_touches _ _ _ _)); · decide)
    | ((with_reducible apply Touches.step (onChan_touches _ _ _)); · decide)

theorem chanGo_touches (s : State) (k fuel : Nat) : Touches [.chans, .topo, .sent] s (chanGo s k fuel) := by
  induction fuel generalizing s with
  | zero => exact .refl
  | succ n ih =>
    unfold chanGo
    try dsimp only
    repeat' first
      | ((with_reducible apply Touches.step (ih _)); · decide)
      | with_reducible exact .refl
      | simp only [Touches.mk_iff, Touches.ite_iff]
      | with_reducible refine And.intro (fun _ => ?_) (fun _ => ?_)
      | ((with_reducible refine Leaf.of rfl (fun p hp => ?_) ?_); (cases p <;> first | exact absurd hp (by decide) | (show _ = _; with_reducible rfl) | rfl | (show _ = _; unfold openStep; split <;> rfl)))
      | ((with_reducible apply Touches.step (enterPhase_touches _ _ _ _)); · decide)
      | (with_reducible apply Touches.fold (fun _ _ => ?_))
      | split

theorem chanOwn_touches (s : State) (k : Nat) (g : Nat) (op : Nat) (ctx : Nat) (w : BitVec 32) : Touches [.chans, .topo, .sent] s (chanOwn s k g op ctx w) := by
  unfold chanOwn
  try dsimp only
  repeat' first
    | with_reducible exact .refl
    | simp only [Touches.mk_iff, Touches.ite_iff]
    | with_reducible refine And.intro (fun _ => ?_) (fun _ => ?_)
    | ((with_reducible refine Leaf.of rfl (fun p hp => ?_) ?_); (cases p <;> first | exact absurd hp (by decide) | (show _ = _; with_reducible rfl) | rfl | (show _ = _; unfold openStep; split <;> rfl)))
    | ((with_reducible apply Touches.step (onChan_touches _ _ _)); · decide)
    | ((with_reducible apply Touches.step (enterPhase_touches _ _ _ _)); · decide)
    | ((with_reducible apply Touches.step (chanGo_touches _ _ _)); · decide)

theorem chanIdle_touches (s : State) (k : Nat) : Touches [.chans, .topo, .sent] s (chanIdle s k) := by
  unfold chanIdle
  try dsimp only
  repeat' first
    | with_reducible exact .refl
    | simp only [Touches.mk_iff, Touches.ite_iff]
    | with_reducible refine And.intro (fun _ => ?_) (fun _ => ?_)
    | ((with_reducible refine Leaf.of rfl (fun p hp => ?_) ?_); (cases p <;> first | exact absurd hp (by decide) | (show _ = _; with_reducible rfl) | rfl | (show _ = _; unfold openStep; split <;> rfl)))
    | ((with_reducible apply Touches.step (chanOwn_touches _ _ _ _ _ _)); · decide)

theorem chanTake_touches (s : State) (k : Nat) (g : Nat) (op : Nat) (axis : Nat) (plus : Bool) (count : Nat) (v : BitVec 32) : Touches [.chans, .topo, .sent] s (chanTake s k g op axis plus count v) := by
  unfold chanTake
  try dsimp only
  repeat' first
    | with_reducible exact .refl
    | simp only [Touches.mk_iff, Touches.ite_iff]
    | with_reducible refine And.intro (fun _ => ?_) (fun _ => ?_)
    | ((with_reducible refine Leaf.of rfl (fun p hp => ?_) ?_); (cases p <;> first | exact absurd hp (by decide) | (show _ = _; with_reducible rfl) | rfl | (show _ = _; unfold openStep; split <;> rfl)))
    | ((with_reducible apply Touches.step (sendUp_touches _ _ _ _)); · decide)
    | ((with_reducible apply Touches.step (chanGo_touches _ _ _)); · decide)
    | ((with_reducible apply Touches.step (onChan_touches _ _ _)); · decide)
    | ((with_reducible apply Touches.step (chanIdle_touches _ _)); · decide)

theorem chanClose_touches (s : State) (k : Nat) (word : Nat) : Touches [.chans] s (chanClose s k word) := by
  unfold chanClose
  try dsimp only
  repeat' first
    | with_reducible exact .refl
    | simp only [Touches.mk_iff, Touches.ite_iff]
    | with_reducible refine And.intro (fun _ => ?_) (fun _ => ?_)
    | ((with_reducible refine Leaf.of rfl (fun p hp => ?_) ?_); (cases p <;> first | exact absurd hp (by decide) | (show _ = _; with_reducible rfl) | rfl | (show _ = _; unfold openStep; split <;> rfl)))
    | ((with_reducible apply Touches.step (onChan_touches _ _ _)); · decide)

theorem cutWord_touches (s : State) (w : BitVec 32) : Touches [.host, .chans, .ckpt, .sent] s (cutWord s w) := by
  unfold cutWord
  try dsimp only
  repeat' first
    | with_reducible exact .refl
    | simp only [Touches.mk_iff, Touches.ite_iff]
    | with_reducible refine And.intro (fun _ => ?_) (fun _ => ?_)
    | ((with_reducible refine Leaf.of rfl (fun p hp => ?_) ?_); (cases p <;> first | exact absurd hp (by decide) | (show _ = _; with_reducible rfl) | rfl | (show _ = _; unfold openStep; split <;> rfl)))
    | ((with_reducible apply Touches.step (post_touches _ _ _ _ _)); · decide)
    | ((with_reducible apply Touches.step (chanClose_touches _ _ _)); · decide)
    | (with_reducible apply Touches.fold (fun _ _ => ?_))
    | split

theorem castVotes_touches (s : State) (fuel : Nat) : Touches [.host, .chans, .topo, .ckpt, .sent] s (castVotes s fuel) := by
  induction fuel generalizing s with
  | zero => exact .refl
  | succ n ih =>
    unfold castVotes
    try dsimp only
    repeat' first
      | ((with_reducible apply Touches.step (ih _)); · decide)
      | with_reducible exact .refl
      | simp only [Touches.mk_iff, Touches.ite_iff]
      | with_reducible refine And.intro (fun _ => ?_) (fun _ => ?_)
      | ((with_reducible refine Leaf.of rfl (fun p hp => ?_) ?_); (cases p <;> first | exact absurd hp (by decide) | (show _ = _; with_reducible rfl) | rfl | (show _ = _; unfold openStep; split <;> rfl)))
      | ((with_reducible apply Touches.step (chanOwn_touches _ _ _ _ _ _)); · decide)
      | ((with_reducible apply Touches.step (cutWord_touches _ _)); · decide)
      | ((with_reducible apply Touches.step (chanIdle_touches _ _)); · decide)
      | (with_reducible apply Touches.fold (fun _ _ => ?_))
      | split

theorem vote_touches (s : State) (cut : Nat) (w : BitVec 32) : Touches [.host, .chans, .topo, .ckpt, .sent] s (vote s cut w) := by
  unfold vote
  try dsimp only
  repeat' first
    | with_reducible exact .refl
    | simp only [Touches.mk_iff, Touches.ite_iff]
    | with_reducible refine And.intro (fun _ => ?_) (fun _ => ?_)
    | ((with_reducible refine Leaf.of rfl (fun p hp => ?_) ?_); (cases p <;> first | exact absurd hp (by decide) | (show _ = _; with_reducible rfl) | rfl | (show _ = _; unfold openStep; split <;> rfl)))
    | ((with_reducible apply Touches.step (castVotes_touches _ _)); · decide)

end Sys2Proof.Machine
end

