-- ==== Sys2Proof/Laws/TouchOps.lean ====
section
/-! SUPPORT. What each operation and meaning of Machine/Ops.lean can change. -/

set_option linter.unusedSimpArgs false
set_option linter.unusedTactic false
set_option linter.unreachableTactic false

namespace Sys2Proof.Machine

theorem reach_touches (s : State) (t : Nat) : Touches [.clk] s (reach s t) := by
  unfold reach
  try dsimp only
  repeat' first
    | with_reducible exact .refl
    | simp only [Touches.mk_iff, Touches.ite_iff]
    | with_reducible refine And.intro (fun _ => ?_) (fun _ => ?_)
    | ((with_reducible refine Leaf.of rfl (fun p hp => ?_) ?_); (cases p <;> first | exact absurd hp (by decide) | (show _ = _; with_reducible rfl) | rfl | (show _ = _; unfold openStep; split <;> rfl)))

theorem reply_touches (s : State) (src : Src) (ty : Nat) (status : Nat) (value : Nat) (body : List Byte) : Touches [.host, .sent] s (reply s src ty status value body) := by
  unfold reply
  try dsimp only
  repeat' first
    | with_reducible exact .refl
    | simp only [Touches.mk_iff, Touches.ite_iff]
    | with_reducible refine And.intro (fun _ => ?_) (fun _ => ?_)
    | ((with_reducible refine Leaf.of rfl (fun p hp => ?_) ?_); (cases p <;> first | exact absurd hp (by decide) | (show _ = _; with_reducible rfl) | rfl | (show _ = _; unfold openStep; split <;> rfl)))
    | (with_reducible apply Touches.fold (fun _ _ => ?_))
    | split

theorem countIllegal_touches (s : State) (src : Src) (reason : Nat) (index : Nat) (sub : Nat) : Touches [.host, .sent] s (countIllegal s src reason index sub) := by
  unfold countIllegal
  try dsimp only
  repeat' first
    | with_reducible exact .refl
    | simp only [Touches.mk_iff, Touches.ite_iff]
    | with_reducible refine And.intro (fun _ => ?_) (fun _ => ?_)
    | ((with_reducible refine Leaf.of rfl (fun p hp => ?_) ?_); (cases p <;> first | exact absurd hp (by decide) | (show _ = _; with_reducible rfl) | rfl | (show _ = _; unfold openStep; split <;> rfl)))
    | ((with_reducible apply Touches.step (post_touches _ _ _ _ _)); · decide)

theorem illegal_touches (s : State) (src : Src) (ty : Nat) (reason : Nat) (index : Nat) (sub : Nat) : Touches [.host, .sent] s (illegal s src ty reason index sub) := by
  unfold illegal
  try dsimp only
  repeat' first
    | with_reducible exact .refl
    | simp only [Touches.mk_iff, Touches.ite_iff]
    | with_reducible refine And.intro (fun _ => ?_) (fun _ => ?_)
    | ((with_reducible refine Leaf.of rfl (fun p hp => ?_) ?_); (cases p <;> first | exact absurd hp (by decide) | (show _ = _; with_reducible rfl) | rfl | (show _ = _; unfold openStep; split <;> rfl)))
    | ((with_reducible apply Touches.step (countIllegal_touches _ _ _ _ _)); · decide)
    | ((with_reducible apply Touches.step (reply_touches _ _ _ _ _ _)); · decide)

theorem traced_touches (s : State) : Touches [.fw, .free] s (traced s) := by
  unfold traced
  try dsimp only
  repeat' first
    | with_reducible exact .refl
    | simp only [Touches.mk_iff, Touches.ite_iff]
    | with_reducible refine And.intro (fun _ => ?_) (fun _ => ?_)
    | ((with_reducible refine Leaf.of rfl (fun p hp => ?_) ?_); (cases p <;> first | exact absurd hp (by decide) | (show _ = _; with_reducible rfl) | rfl | (show _ = _; unfold openStep; split <;> rfl)))
    | ((with_reducible apply Touches.step (drawn_touches _)); · decide)

theorem logEntry_touches (s : State) (source : Nat) (level : Nat) (kind : Nat) : Touches [.fw, .free] s (logEntry s source level kind) := by
  unfold logEntry
  try dsimp only
  repeat' first
    | with_reducible exact .refl
    | simp only [Touches.mk_iff, Touches.ite_iff]
    | with_reducible refine And.intro (fun _ => ?_) (fun _ => ?_)
    | ((with_reducible refine Leaf.of rfl (fun p hp => ?_) ?_); (cases p <;> first | exact absurd hp (by decide) | (show _ = _; with_reducible rfl) | rfl | (show _ = _; unfold openStep; split <;> rfl)))
    | ((with_reducible apply Touches.step (traced_touches _)); · decide)

theorem hwRequest_touches (s : State) (o : Nat) (q : OstlerReq) : Touches [.fw] s (hwRequest s o q) := by
  unfold hwRequest
  try dsimp only
  repeat' first
    | with_reducible exact .refl
    | simp only [Touches.mk_iff, Touches.ite_iff]
    | with_reducible refine And.intro (fun _ => ?_) (fun _ => ?_)
    | ((with_reducible refine Leaf.of rfl (fun p hp => ?_) ?_); (cases p <;> first | exact absurd hp (by decide) | (show _ = _; with_reducible rfl) | rfl | (show _ = _; unfold openStep; split <;> rfl)))
    | ((with_reducible apply Touches.step (onOstler_touches _ _ _)); · decide)

theorem faultEvent_touches (s : State) (r : LRec) : Touches [.ledger, .fw, .free] s (faultEvent s r) := by
  unfold faultEvent
  try dsimp only
  repeat' first
    | with_reducible exact .refl
    | simp only [Touches.mk_iff, Touches.ite_iff]
    | with_reducible refine And.intro (fun _ => ?_) (fun _ => ?_)
    | ((with_reducible refine Leaf.of rfl (fun p hp => ?_) ?_); (cases p <;> first | exact absurd hp (by decide) | (show _ = _; with_reducible rfl) | rfl | (show _ = _; unfold openStep; split <;> rfl)))
    | ((with_reducible apply Touches.step (logEntry_touches _ _ _ _)); · decide)

theorem domainsOn_touches (s : State) (ds : List Nat) : Touches [.domains] s (domainsOn s ds) := by
  unfold domainsOn
  try dsimp only
  repeat' first
    | with_reducible exact .refl
    | simp only [Touches.mk_iff, Touches.ite_iff]
    | with_reducible refine And.intro (fun _ => ?_) (fun _ => ?_)
    | ((with_reducible refine Leaf.of rfl (fun p hp => ?_) ?_); (cases p <;> first | exact absurd hp (by decide) | (show _ = _; with_reducible rfl) | rfl | (show _ = _; unfold openStep; split <;> rfl)))

theorem domainsOff_touches (s : State) (ds : List Nat) : Touches [.domains] s (domainsOff s ds) := by
  unfold domainsOff
  try dsimp only
  repeat' first
    | with_reducible exact .refl
    | simp only [Touches.mk_iff, Touches.ite_iff]
    | with_reducible refine And.intro (fun _ => ?_) (fun _ => ?_)
    | ((with_reducible refine Leaf.of rfl (fun p hp => ?_) ?_); (cases p <;> first | exact absurd hp (by decide) | (show _ = _; with_reducible rfl) | rfl | (show _ = _; unfold openStep; split <;> rfl)))

theorem sendState_touches (s : State) : Touches [.topo, .sent] s (sendState s) := by
  unfold sendState
  try dsimp only
  repeat' first
    | with_reducible exact .refl
    | simp only [Touches.mk_iff, Touches.ite_iff]
    | with_reducible refine And.intro (fun _ => ?_) (fun _ => ?_)
    | ((with_reducible refine Leaf.of rfl (fun p hp => ?_) ?_); (cases p <;> first | exact absurd hp (by decide) | (show _ = _; with_reducible rfl) | rfl | (show _ = _; unfold openStep; split <;> rfl)))
    | ((with_reducible apply Touches.step (sendFrames_touches _ _ _ _)); · decide)

theorem sendLeaving_touches (s : State) (cause : Nat) (ds : List Dir) : Touches [.topo, .sent] s (sendLeaving s cause ds) := by
  unfold sendLeaving
  try dsimp only
  repeat' first
    | with_reducible exact .refl
    | simp only [Touches.mk_iff, Touches.ite_iff]
    | with_reducible refine And.intro (fun _ => ?_) (fun _ => ?_)
    | ((with_reducible refine Leaf.of rfl (fun p hp => ?_) ?_); (cases p <;> first | exact absurd hp (by decide) | (show _ = _; with_reducible rfl) | rfl | (show _ = _; unfold openStep; split <;> rfl)))
    | ((with_reducible apply Touches.step (sendFrames_touches _ _ _ _)); · decide)

theorem linkBack_touches (s : State) (l : Nat) : Touches [.links, .sent] s (linkBack s l) := by
  unfold linkBack
  try dsimp only
  repeat' first
    | with_reducible exact .refl
    | simp only [Touches.mk_iff, Touches.ite_iff]
    | with_reducible refine And.intro (fun _ => ?_) (fun _ => ?_)
    | ((with_reducible refine Leaf.of rfl (fun p hp => ?_) ?_); (cases p <;> first | exact absurd hp (by decide) | (show _ = _; with_reducible rfl) | rfl | (show _ = _; unfold openStep; split <;> rfl)))

theorem endCell_touches (s : State) : Touches [.cores, .links, .sent] s (endCell s) := by
  unfold endCell
  try dsimp only
  repeat' first
    | with_reducible exact .refl
    | simp only [Touches.mk_iff, Touches.ite_iff]
    | with_reducible refine And.intro (fun _ => ?_) (fun _ => ?_)
    | ((with_reducible refine Leaf.of rfl (fun p hp => ?_) ?_); (cases p <;> first | exact absurd hp (by decide) | (show _ = _; with_reducible rfl) | rfl | (show _ = _; unfold openStep; split <;> rfl)))
    | ((with_reducible apply Touches.step (linkBack_touches _ _)); · decide)
    | (with_reducible apply Touches.fold (fun _ _ => ?_))
    | split

theorem gallopAbort_touches (s : State) : Touches [.cores, .links, .tests, .sent] s (gallopAbort s) := by
  unfold gallopAbort
  try dsimp only
  repeat' first
    | with_reducible exact .refl
    | simp only [Touches.mk_iff, Touches.ite_iff]
    | with_reducible refine And.intro (fun _ => ?_) (fun _ => ?_)
    | ((with_reducible refine Leaf.of rfl (fun p hp => ?_) ?_); (cases p <;> first | exact absurd hp (by decide) | (show _ = _; with_reducible rfl) | rfl | (show _ = _; unfold openStep; split <;> rfl)))
    | ((with_reducible apply Touches.step (endCell_touches _)); · decide)

theorem wantActivation_touches (s : State) (ts : List Nat) : Touches [.fw] s (wantActivation s ts) := by
  unfold wantActivation
  try dsimp only
  repeat' first
    | with_reducible exact .refl
    | simp only [Touches.mk_iff, Touches.ite_iff]
    | with_reducible refine And.intro (fun _ => ?_) (fun _ => ?_)
    | ((with_reducible refine Leaf.of rfl (fun p hp => ?_) ?_); (cases p <;> first | exact absurd hp (by decide) | (show _ = _; with_reducible rfl) | rfl | (show _ = _; unfold openStep; split <;> rfl)))

theorem onPair_touches (s : State) (t : Nat) (f : BankPair → BankPair) : Touches [.fw] s (onPair s t f) := by
  unfold onPair
  try dsimp only
  repeat' first
    | with_reducible exact .refl
    | simp only [Touches.mk_iff, Touches.ite_iff]
    | with_reducible refine And.intro (fun _ => ?_) (fun _ => ?_)
    | ((with_reducible refine Leaf.of rfl (fun p hp => ?_) ?_); (cases p <;> first | exact absurd hp (by decide) | (show _ = _; with_reducible rfl) | rfl | (show _ = _; unfold openStep; split <;> rfl)))

theorem updTo_touches (s : State) (st : Nat) (reason : Nat) (pct : Nat) : Touches [.host, .fw, .sent] s (updTo s st reason pct) := by
  unfold updTo
  try dsimp only
  repeat' first
    | with_reducible exact .refl
    | simp only [Touches.mk_iff, Touches.ite_iff]
    | with_reducible refine And.intro (fun _ => ?_) (fun _ => ?_)
    | ((with_reducible refine Leaf.of rfl (fun p hp => ?_) ?_); (cases p <;> first | exact absurd hp (by decide) | (show _ = _; with_reducible rfl) | rfl | (show _ = _; unfold openStep; split <;> rfl)))
    | ((with_reducible apply Touches.step (post_touches _ _ _ _ _)); · decide)

theorem updBank_touches (s : State) (st : Nat) : Touches [.fw] s (updBank s st) := by
  unfold updBank
  try dsimp only
  repeat' first
    | with_reducible exact .refl
    | simp only [Touches.mk_iff, Touches.ite_iff]
    | with_reducible refine And.intro (fun _ => ?_) (fun _ => ?_)
    | ((with_reducible refine Leaf.of rfl (fun p hp => ?_) ?_); (cases p <;> first | exact absurd hp (by decide) | (show _ = _; with_reducible rfl) | rfl | (show _ = _; unfold openStep; split <;> rfl)))
    | ((with_reducible apply Touches.step (onPair_touches _ _ _)); · decide)

theorem updMoves_touches (s : State) : Touches [.host, .fw, .sent] s (updMoves s) := by
  unfold updMoves
  try dsimp only
  repeat' first
    | with_reducible exact .refl
    | simp only [Touches.mk_iff, Touches.ite_iff]
    | with_reducible refine And.intro (fun _ => ?_) (fun _ => ?_)
    | ((with_reducible refine Leaf.of rfl (fun p hp => ?_) ?_); (cases p <;> first | exact absurd hp (by decide) | (show _ = _; with_reducible rfl) | rfl | (show _ = _; unfold openStep; split <;> rfl)))
    | ((with_reducible apply Touches.step (updTo_touches _ _ _ _)); · decide)
    | ((with_reducible apply Touches.step (updBank_touches _ _)); · decide)

theorem tick_touches (s : State) : Touches [.clk, .host, .fw, .sent] s (tick s) := by
  unfold tick
  try dsimp only
  repeat' first
    | with_reducible exact .refl
    | simp only [Touches.mk_iff, Touches.ite_iff]
    | with_reducible refine And.intro (fun _ => ?_) (fun _ => ?_)
    | ((with_reducible refine Leaf.of rfl (fun p hp => ?_) ?_); (cases p <;> first | exact absurd hp (by decide) | (show _ = _; with_reducible rfl) | rfl | (show _ = _; unfold openStep; split <;> rfl)))
    | ((with_reducible apply Touches.step (updMoves_touches _)); · decide)

theorem bankActivated_touches (s : State) (t : Nat) : Touches [.fw] s (bankActivated s t) := by
  unfold bankActivated
  try dsimp only
  repeat' first
    | with_reducible exact .refl
    | simp only [Touches.mk_iff, Touches.ite_iff]
    | with_reducible refine And.intro (fun _ => ?_) (fun _ => ?_)
    | ((with_reducible refine Leaf.of rfl (fun p hp => ?_) ?_); (cases p <;> first | exact absurd hp (by decide) | (show _ = _; with_reducible rfl) | rfl | (show _ = _; unfold openStep; split <;> rfl)))
    | ((with_reducible apply Touches.step (onPair_touches _ _ _)); · decide)

theorem bankReverted_touches (s : State) (t : Nat) : Touches [.fw, .free] s (bankReverted s t) := by
  unfold bankReverted
  try dsimp only
  repeat' first
    | with_reducible exact .refl
    | simp only [Touches.mk_iff, Touches.ite_iff]
    | with_reducible refine And.intro (fun _ => ?_) (fun _ => ?_)
    | ((with_reducible refine Leaf.of rfl (fun p hp => ?_) ?_); (cases p <;> first | exact absurd hp (by decide) | (show _ = _; with_reducible rfl) | rfl | (show _ = _; unfold openStep; split <;> rfl)))
    | ((with_reducible apply Touches.step (onPair_touches _ _ _)); · decide)
    | ((with_reducible apply Touches.step (logEntry_touches _ _ _ _)); · decide)

theorem bootAttempt_touches (s : State) (t : Nat) : Touches [.fw, .free] s (bootAttempt s t) := by
  unfold bootAttempt
  try dsimp only
  repeat' first
    | with_reducible exact .refl
    | simp only [Touches.mk_iff, Touches.ite_iff]
    | with_reducible refine And.intro (fun _ => ?_) (fun _ => ?_)
    | ((with_reducible refine Leaf.of rfl (fun p hp => ?_) ?_); (cases p <;> first | exact absurd hp (by decide) | (show _ = _; with_reducible rfl) | rfl | (show _ = _; unfold openStep; split <;> rfl)))
    | ((with_reducible apply Touches.step (onPair_touches _ _ _)); · decide)
    | ((with_reducible apply Touches.step (bankReverted_touches _ _)); · decide)

theorem modResetRun_touches (s : State) (cause : Nat) : Touches [.devState, .dev, .owner, .host, .cores, .links, .topo, .tests, .recov, .sent] s (modResetRun s cause) := by
  unfold modResetRun
  try dsimp only
  repeat' first
    | with_reducible exact .refl
    | simp only [Touches.mk_iff, Touches.ite_iff]
    | with_reducible refine And.intro (fun _ => ?_) (fun _ => ?_)
    | ((with_reducible refine Leaf.of rfl (fun p hp => ?_) ?_); (cases p <;> first | exact absurd hp (by decide) | (show _ = _; with_reducible rfl) | rfl | (show _ = _; unfold openStep; split <;> rfl)))
    | ((with_reducible apply Touches.step (gallopAbort_touches _)); · decide)
    | ((with_reducible apply Touches.step (sendLeaving_touches _ _ _)); · decide)

theorem activateWith_touches {W : List StatePart} {hub : State → State} {s x : State} {t : Nat} (hw : partsWithin [.fw, .free] W = true)
    (he : ∀ u, Touches W u (hub u)) (h : Touches W s x) : Touches W s (activateWith hub x t) := by
  unfold activateWith
  have hb : Touches W s (bankActivated x t) := .step ((bankActivated_touches x t).mono (by decide : partsWithin _ [.fw, .free] = true)) hw h
  split
  · exact h
  · split
    · refine .step (V := [.fw, .free]) ((bootAttempt_touches _ _).mono (by decide)) hw (hb.trans (Touches.mono (V := [.fw, .free]) hw ?_))
      intro p hp
      cases p <;> first | exact absurd hp (by decide) | rfl
    · exact hb.trans (he _)
    · refine hb.trans (Touches.mono (V := [.fw, .free]) hw ?_)
      intro p hp
      cases p <;> first | exact absurd hp (by decide) | rfl

theorem activateOrDefer_touches {W : List StatePart} {hub : State → State} {s x : State} {ts : List Nat} (hw : partsWithin [.fw, .free] W = true)
    (he : ∀ u, Touches W u (hub u)) (h : Touches W s x) : Touches W s (activateOrDefer hub x ts) := by
  unfold activateOrDefer
  generalize ([3, 1, 2].filter ts.contains) = l
  induction l generalizing x with
  | nil => exact h
  | cons t l ih =>
    refine ih ?_
    dsimp only
    split
    · exact .step ((wantActivation_touches x _).mono (by decide : partsWithin _ [.fw, .free] = true)) hw h
    · exact activateWith_touches hw he h

theorem hubReady_touches (s : State) : Touches [.devState, .dev, .owner, .host, .cores, .links, .topo, .tests, .recov, .fw, .sent] s (hubReady s) := by
  unfold hubReady
  try dsimp only
  repeat' first
    | with_reducible exact .refl
    | simp only [Touches.mk_iff, Touches.ite_iff]
    | with_reducible refine And.intro (fun _ => ?_) (fun _ => ?_)
    | ((with_reducible refine Leaf.of rfl (fun p hp => ?_) ?_); (cases p <;> first | exact absurd hp (by decide) | (show _ = _; with_reducible rfl) | rfl | (show _ = _; unfold openStep; split <;> rfl)))
    | ((with_reducible apply Touches.step (modResetRun_touches _ _)); · decide)

theorem measureConfig_touches (s : State) : Touches [.meas, .sec] s (measureConfig s) := by
  unfold measureConfig
  try dsimp only
  repeat' first
    | with_reducible exact .refl
    | simp only [Touches.mk_iff, Touches.ite_iff]
    | with_reducible refine And.intro (fun _ => ?_) (fun _ => ?_)
    | ((with_reducible refine Leaf.of rfl (fun p hp => ?_) ?_); (cases p <;> first | exact absurd hp (by decide) | (show _ = _; with_reducible rfl) | rfl | (show _ = _; unfold openStep; split <;> rfl)))

theorem configChanged_touches (s : State) : Touches [.meas, .sec] s (configChanged s) := by
  unfold configChanged
  try dsimp only
  repeat' first
    | with_reducible exact .refl
    | simp only [Touches.mk_iff, Touches.ite_iff]
    | with_reducible refine And.intro (fun _ => ?_) (fun _ => ?_)
    | ((with_reducible refine Leaf.of rfl (fun p hp => ?_) ?_); (cases p <;> first | exact absurd hp (by decide) | (show _ = _; with_reducible rfl) | rfl | (show _ = _; unfold openStep; split <;> rfl)))
    | ((with_reducible apply Touches.step (measureConfig_touches _)); · decide)

theorem setState_touches (s : State) (d : DevState) : Touches [.devState, .host, .topo, .tests, .meas, .sec, .sent] s (setState s d) := by
  unfold setState
  try dsimp only
  repeat' first
    | with_reducible exact .refl
    | simp only [Touches.mk_iff, Touches.ite_iff]
    | with_reducible refine And.intro (fun _ => ?_) (fun _ => ?_)
    | ((with_reducible refine Leaf.of rfl (fun p hp => ?_) ?_); (cases p <;> first | exact absurd hp (by decide) | (show _ = _; with_reducible rfl) | rfl | (show _ = _; unfold openStep; split <;> rfl)))
    | ((with_reducible apply Touches.step (measureConfig_touches _)); · decide)
    | ((with_reducible apply Touches.step (sendState_touches _)); · decide)
    | ((with_reducible apply Touches.step (post_touches _ _ _ _ _)); · decide)
    | ((with_reducible apply Touches.step (postHeld_touches _)); · decide)

theorem changeState_touches (s : State) (d : DevState) : Touches [.devState, .host, .cores, .links, .topo, .tests, .meas, .sec, .sent] s (changeState s d) := by
  unfold changeState
  try dsimp only
  repeat' first
    | with_reducible exact .refl
    | simp only [Touches.mk_iff, Touches.ite_iff]
    | with_reducible refine And.intro (fun _ => ?_) (fun _ => ?_)
    | ((with_reducible refine Leaf.of rfl (fun p hp => ?_) ?_); (cases p <;> first | exact absurd hp (by decide) | (show _ = _; with_reducible rfl) | rfl | (show _ = _; unfold openStep; split <;> rfl)))
    | ((with_reducible apply Touches.step (gallopAbort_touches _)); · decide)
    | ((with_reducible apply Touches.step (setState_touches _ _)); · decide)

theorem jobToReady_touches (s : State) : Touches [.devState, .dev, .owner, .host, .cores, .links, .topo, .tests, .recov, .fw, .meas, .sec, .sent, .free] s (jobToReady s) := by
  unfold jobToReady
  try dsimp only
  repeat' first
    | with_reducible exact .refl
    | simp only [Touches.mk_iff, Touches.ite_iff]
    | with_reducible refine And.intro (fun _ => ?_) (fun _ => ?_)
    | ((with_reducible refine Leaf.of rfl (fun p hp => ?_) ?_); (cases p <;> first | exact absurd hp (by decide) | (show _ = _; with_reducible rfl) | rfl | (show _ = _; unfold openStep; split <;> rfl)))
    | ((with_reducible apply Touches.step (hubReady_touches _)); · decide)
    | ((with_reducible refine activateOrDefer_touches ?hw (fun _ => ?he) ?hx); case hw => decide)
    | ((with_reducible apply Touches.step (changeState_touches _ _)); · decide)

theorem gallopStop_touches (s : State) : Touches [.devState, .host, .cores, .links, .topo, .tests, .meas, .sec, .sent] s (gallopStop s) := by
  unfold gallopStop
  try dsimp only
  repeat' first
    | with_reducible exact .refl
    | simp only [Touches.mk_iff, Touches.ite_iff]
    | with_reducible refine And.intro (fun _ => ?_) (fun _ => ?_)
    | ((with_reducible refine Leaf.of rfl (fun p hp => ?_) ?_); (cases p <;> first | exact absurd hp (by decide) | (show _ = _; with_reducible rfl) | rfl | (show _ = _; unfold openStep; split <;> rfl)))
    | ((with_reducible apply Touches.step (gallopAbort_touches _)); · decide)
    | ((with_reducible apply Touches.step (changeState_touches _ _)); · decide)

theorem enterRecovery_touches (s : State) : Touches [.devState, .dev, .host, .cores, .links, .topo, .tests, .meas, .sec, .sent] s (enterRecovery s) := by
  unfold enterRecovery
  try dsimp only
  repeat' first
    | with_reducible exact .refl
    | simp only [Touches.mk_iff, Touches.ite_iff]
    | with_reducible refine And.intro (fun _ => ?_) (fun _ => ?_)
    | ((with_reducible refine Leaf.of rfl (fun p hp => ?_) ?_); (cases p <;> first | exact absurd hp (by decide) | (show _ = _; with_reducible rfl) | rfl | (show _ = _; unfold openStep; split <;> rfl)))
    | ((with_reducible apply Touches.step (changeState_touches _ _)); · decide)

theorem leaveRecovery_touches (s : State) : Touches [.devState, .host, .cores, .links, .topo, .tests, .meas, .sec, .sent] s (leaveRecovery s) := by
  unfold leaveRecovery
  try dsimp only
  repeat' first
    | with_reducible exact .refl
    | simp only [Touches.mk_iff, Touches.ite_iff]
    | with_reducible refine And.intro (fun _ => ?_) (fun _ => ?_)
    | ((with_reducible refine Leaf.of rfl (fun p hp => ?_) ?_); (cases p <;> first | exact absurd hp (by decide) | (show _ = _; with_reducible rfl) | rfl | (show _ = _; unfold openStep; split <;> rfl)))
    | ((with_reducible apply Touches.step (changeState_touches _ _)); · decide)

theorem onCtx_touches (s : State) (c : Nat) (f : Ctx → Ctx) : Touches [.ctxs] s (onCtx s c f) := by
  unfold onCtx
  try dsimp only
  repeat' first
    | with_reducible exact .refl
    | simp only [Touches.mk_iff, Touches.ite_iff]
    | with_reducible refine And.intro (fun _ => ?_) (fun _ => ?_)
    | ((with_reducible refine Leaf.of rfl (fun p hp => ?_) ?_); (cases p <;> first | exact absurd hp (by decide) | (show _ = _; with_reducible rfl) | rfl | (show _ = _; unfold openStep; split <;> rfl)))

theorem haltCtx_touches (s : State) (c : Nat) (cause : Nat) (task : Nat) : Touches [.host, .ctxs, .sent] s (haltCtx s c cause task) := by
  unfold haltCtx
  try dsimp only
  repeat' first
    | with_reducible exact .refl
    | simp only [Touches.mk_iff, Touches.ite_iff]
    | with_reducible refine And.intro (fun _ => ?_) (fun _ => ?_)
    | ((with_reducible refine Leaf.of rfl (fun p hp => ?_) ?_); (cases p <;> first | exact absurd hp (by decide) | (show _ = _; with_reducible rfl) | rfl | (show _ = _; unfold openStep; split <;> rfl)))
    | ((with_reducible apply Touches.step (post_touches _ _ _ _ _)); · decide)
    | ((with_reducible apply Touches.step (onCtx_touches _ _ _)); · decide)

theorem haltAll_touches (s : State) (cause : Nat) (l : List (Nat × Nat)) : Touches [.host, .ctxs, .sent] s (haltAll s cause l) := by
  unfold haltAll
  try dsimp only
  repeat' first
    | with_reducible exact .refl
    | simp only [Touches.mk_iff, Touches.ite_iff]
    | with_reducible refine And.intro (fun _ => ?_) (fun _ => ?_)
    | ((with_reducible refine Leaf.of rfl (fun p hp => ?_) ?_); (cases p <;> first | exact absurd hp (by decide) | (show _ = _; with_reducible rfl) | rfl | (show _ = _; unfold openStep; split <;> rfl)))
    | ((with_reducible apply Touches.step (haltCtx_touches _ _ _ _)); · decide)
    | (with_reducible apply Touches.fold (fun _ _ => ?_))

theorem onCore__touches (s : State) (g : Nat) (f : Core → Core) : Touches [.cores] s (onCore_ s g f) := by
  unfold onCore_
  try dsimp only
  repeat' first
    | with_reducible exact .refl
    | simp only [Touches.mk_iff, Touches.ite_iff]
    | with_reducible refine And.intro (fun _ => ?_) (fun _ => ?_)
    | ((with_reducible refine Leaf.of rfl (fun p hp => ?_) ?_); (cases p <;> first | exact absurd hp (by decide) | (show _ = _; with_reducible rfl) | rfl | (show _ = _; unfold openStep; split <;> rfl)))

theorem taskEvent_touches (s : State) (kind : Nat) (utype : Nat) (g : Nat) (c : Nat) (task : Nat) (arg : BitVec 64) : Touches [.ledger, .fw, .free] s (taskEvent s kind utype g c task arg) := by
  unfold taskEvent
  try dsimp only
  repeat' first
    | with_reducible exact .refl
    | simp only [Touches.mk_iff, Touches.ite_iff]
    | with_reducible refine And.intro (fun _ => ?_) (fun _ => ?_)
    | ((with_reducible refine Leaf.of rfl (fun p hp => ?_) ?_); (cases p <;> first | exact absurd hp (by decide) | (show _ = _; with_reducible rfl) | rfl | (show _ = _; unfold openStep; split <;> rfl)))
    | ((with_reducible apply Touches.step (faultEvent_touches _ _)); · decide)

theorem arbiterCharges_touches (s : State) (g : Nat) (c : CheckPiece) (digests : Option (List (BitVec 64))) : Touches [.num, .ledger, .fw, .free] s (arbiterCharges s g c digests) := by
  unfold arbiterCharges
  try dsimp only
  repeat' first
    | with_reducible exact .refl
    | simp only [Touches.mk_iff, Touches.ite_iff]
    | with_reducible refine And.intro (fun _ => ?_) (fun _ => ?_)
    | ((with_reducible refine Leaf.of rfl (fun p hp => ?_) ?_); (cases p <;> first | exact absurd hp (by decide) | (show _ = _; with_reducible rfl) | rfl | (show _ = _; unfold openStep; split <;> rfl)))
    | ((with_reducible apply Touches.step (taskEvent_touches _ _ _ _ _ _ _)); · decide)
    | (with_reducible apply Touches.fold (fun _ _ => ?_))
    | split

theorem arbitersLost_touches (s : State) (gs : List Nat) : Touches [.num, .ledger, .fw, .free] s (arbitersLost s gs) := by
  unfold arbitersLost
  try dsimp only
  repeat' first
    | with_reducible exact .refl
    | simp only [Touches.mk_iff, Touches.ite_iff]
    | with_reducible refine And.intro (fun _ => ?_) (fun _ => ?_)
    | ((with_reducible refine Leaf.of rfl (fun p hp => ?_) ?_); (cases p <;> first | exact absurd hp (by decide) | (show _ = _; with_reducible rfl) | rfl | (show _ = _; unfold openStep; split <;> rfl)))
    | ((with_reducible apply Touches.step (arbiterCharges_touches _ _ _ _)); · decide)
    | (with_reducible apply Touches.fold (fun _ _ => ?_))

theorem dupsRecorded_touches (s : State) (gs : List Nat) : Touches [.ledger, .fw, .free] s (dupsRecorded s gs) := by
  unfold dupsRecorded
  try dsimp only
  repeat' first
    | with_reducible exact .refl
    | simp only [Touches.mk_iff, Touches.ite_iff]
    | with_reducible refine And.intro (fun _ => ?_) (fun _ => ?_)
    | ((with_reducible refine Leaf.of rfl (fun p hp => ?_) ?_); (cases p <;> first | exact absurd hp (by decide) | (show _ = _; with_reducible rfl) | rfl | (show _ = _; unfold openStep; split <;> rfl)))
    | ((with_reducible apply Touches.step (taskEvent_touches _ _ _ _ _ _ _)); · decide)
    | (with_reducible apply Touches.fold (fun _ _ => ?_))

theorem lateDiscard_touches (s : State) : Touches [.vers, .steps] s (lateDiscard s) := by
  unfold lateDiscard
  try dsimp only
  repeat' first
    | with_reducible exact .refl
    | simp only [Touches.mk_iff, Touches.ite_iff]
    | with_reducible refine And.intro (fun _ => ?_) (fun _ => ?_)
    | ((with_reducible refine Leaf.of rfl (fun p hp => ?_) ?_); (cases p <;> first | exact absurd hp (by decide) | (show _ = _; with_reducible rfl) | rfl | (show _ = _; unfold openStep; split <;> rfl)))

theorem discardOn_touches (s : State) (gs : List Nat) (halts : Bool) : Touches [.host, .ctxs, .vers, .cores, .steps, .num, .ledger, .tests, .fw, .sent, .free] s (discardOn s gs halts) := by
  unfold discardOn
  try dsimp only
  repeat' first
    | with_reducible exact .refl
    | simp only [Touches.mk_iff, Touches.ite_iff]
    | with_reducible refine And.intro (fun _ => ?_) (fun _ => ?_)
    | ((with_reducible refine Leaf.of rfl (fun p hp => ?_) ?_); (cases p <;> first | exact absurd hp (by decide) | (show _ = _; with_reducible rfl) | rfl | (show _ = _; unfold openStep; split <;> rfl)))
    | ((with_reducible apply Touches.step (dupsRecorded_touches _ _)); · decide)
    | ((with_reducible apply Touches.step (arbitersLost_touches _ _)); · decide)
    | ((with_reducible apply Touches.step (lateDiscard_touches _)); · decide)
    | ((with_reducible apply Touches.step (haltAll_touches _ _ _)); · decide)

theorem abandonCapture_touches (s : State) (cut : Nat) (cause : Nat) : Touches [.host, .vers, .chans, .topo, .ckpt, .sent] s (abandonCapture s cut cause) := by
  unfold abandonCapture
  try dsimp only
  repeat' first
    | with_reducible exact .refl
    | simp only [Touches.mk_iff, Touches.ite_iff]
    | with_reducible refine And.intro (fun _ => ?_) (fun _ => ?_)
    | ((with_reducible refine Leaf.of rfl (fun p hp => ?_) ?_); (cases p <;> first | exact absurd hp (by decide) | (show _ = _; with_reducible rfl) | rfl | (show _ = _; unfold openStep; split <;> rfl)))
    | ((with_reducible apply Touches.step (vote_touches _ _ _)); · decide)
    | ((with_reducible apply Touches.step (post_touches _ _ _ _ _)); · decide)

theorem abandonAll_touches (s : State) (cause : Nat) : Touches [.host, .vers, .chans, .topo, .ckpt, .sent] s (abandonAll s cause) := by
  unfold abandonAll
  try dsimp only
  repeat' first
    | with_reducible exact .refl
    | simp only [Touches.mk_iff, Touches.ite_iff]
    | with_reducible refine And.intro (fun _ => ?_) (fun _ => ?_)
    | ((with_reducible refine Leaf.of rfl (fun p hp => ?_) ?_); (cases p <;> first | exact absurd hp (by decide) | (show _ = _; with_reducible rfl) | rfl | (show _ = _; unfold openStep; split <;> rfl)))
    | ((with_reducible apply Touches.step (abandonCapture_touches _ _ _)); · decide)
    | (with_reducible apply Touches.fold (fun _ _ => ?_))

theorem applySig_touches (s : State) (o : Nat) (n : Nat) (inc : Nat) : Touches [.sync, .ledger, .fw, .free] s (applySig s o n inc) := by
  unfold applySig
  try dsimp only
  repeat' first
    | with_reducible exact .refl
    | simp only [Touches.mk_iff, Touches.ite_iff]
    | with_reducible refine And.intro (fun _ => ?_) (fun _ => ?_)
    | ((with_reducible refine Leaf.of rfl (fun p hp => ?_) ?_); (cases p <;> first | exact absurd hp (by decide) | (show _ = _; with_reducible rfl) | rfl | (show _ = _; unfold openStep; split <;> rfl)))
    | ((with_reducible apply Touches.step (faultEvent_touches _ _)); · decide)
    | (with_reducible apply Touches.fold (fun _ _ => ?_))
    | split

theorem proposeFence_touches (s : State) (serial : Nat) (coord : Nat) (reason : Nat) : Touches [.links, .recov, .sent] s (proposeFence s serial coord reason) := by
  unfold proposeFence
  try dsimp only
  repeat' first
    | with_reducible exact .refl
    | simp only [Touches.mk_iff, Touches.ite_iff]
    | with_reducible refine And.intro (fun _ => ?_) (fun _ => ?_)
    | ((with_reducible refine Leaf.of rfl (fun p hp => ?_) ?_); (cases p <;> first | exact absurd hp (by decide) | (show _ = _; with_reducible rfl) | rfl | (show _ = _; unfold openStep; split <;> rfl)))
    | ((with_reducible apply Touches.step (sendFence_touches _ _ _)); · decide)

theorem proposeNeighbour_touches (s : State) (d : Dir) (reason : Nat) : Touches [.links, .recov, .sent] s (proposeNeighbour s d reason) := by
  unfold proposeNeighbour
  try dsimp only
  repeat' first
    | with_reducible exact .refl
    | simp only [Touches.mk_iff, Touches.ite_iff]
    | with_reducible refine And.intro (fun _ => ?_) (fun _ => ?_)
    | ((with_reducible refine Leaf.of rfl (fun p hp => ?_) ?_); (cases p <;> first | exact absurd hp (by decide) | (show _ = _; with_reducible rfl) | rfl | (show _ = _; unfold openStep; split <;> rfl)))
    | ((with_reducible apply Touches.step (proposeFence_touches _ _ _ _)); · decide)

theorem selfFence_touches (s : State) : Touches [.links, .recov, .sent] s (selfFence s) := by
  unfold selfFence
  try dsimp only
  repeat' first
    | with_reducible exact .refl
    | simp only [Touches.mk_iff, Touches.ite_iff]
    | with_reducible refine And.intro (fun _ => ?_) (fun _ => ?_)
    | ((with_reducible refine Leaf.of rfl (fun p hp => ?_) ?_); (cases p <;> first | exact absurd hp (by decide) | (show _ = _; with_reducible rfl) | rfl | (show _ = _; unfold openStep; split <;> rfl)))
    | ((with_reducible apply Touches.step (proposeFence_touches _ _ _ _)); · decide)

end Sys2Proof.Machine
end

