-- ==== Sys2Proof/Laws/TouchLinkOps.lean ====
section
/-! SUPPORT. What each operation and meaning of Machine/LinkOps.lean can change. -/

set_option linter.unusedSimpArgs false
set_option linter.unusedTactic false
set_option linter.unreachableTactic false

namespace Sys2Proof.Machine

theorem reVerdict_touches (s : State) : Touches [.topo] s (reVerdict s) := by
  unfold reVerdict
  try dsimp only
  repeat' first
    | with_reducible exact .refl
    | simp only [Touches.mk_iff, Touches.ite_iff]
    | with_reducible refine And.intro (fun _ => ?_) (fun _ => ?_)
    | ((with_reducible refine Leaf.of rfl (fun p hp => ?_) ?_); (cases p <;> first | exact absurd hp (by decide) | (show _ = _; with_reducible rfl) | rfl | (show _ = _; unfold openStep; split <;> rfl)))

theorem postLink_touches (s : State) (l : Nat) : Touches [.host, .topo, .sent] s (postLink s l) := by
  unfold postLink
  try dsimp only
  repeat' first
    | with_reducible exact .refl
    | simp only [Touches.mk_iff, Touches.ite_iff]
    | with_reducible refine And.intro (fun _ => ?_) (fun _ => ?_)
    | ((with_reducible refine Leaf.of rfl (fun p hp => ?_) ?_); (cases p <;> first | exact absurd hp (by decide) | (show _ = _; with_reducible rfl) | rfl | (show _ = _; unfold openStep; split <;> rfl)))
    | ((with_reducible apply Touches.step (reVerdict_touches _)); · decide)
    | ((with_reducible apply Touches.step (post_touches _ _ _ _ _)); · decide)

theorem countDetour_touches (s : State) (before : BitVec 96) (after : BitVec 96) : Touches [.topo] s (countDetour s before after) := by
  unfold countDetour
  try dsimp only
  repeat' first
    | with_reducible exact .refl
    | simp only [Touches.mk_iff, Touches.ite_iff]
    | with_reducible refine And.intro (fun _ => ?_) (fun _ => ?_)
    | ((with_reducible refine Leaf.of rfl (fun p hp => ?_) ?_); (cases p <;> first | exact absurd hp (by decide) | (show _ = _; with_reducible rfl) | rfl | (show _ = _; unfold openStep; split <;> rfl)))

theorem reportError_touches (s : State) (h : BitVec 96) (payload : List Byte) : Touches [.ctxs, .topo] s (reportError s h payload) := by
  unfold reportError
  try dsimp only
  repeat' first
    | with_reducible exact .refl
    | simp only [Touches.mk_iff, Touches.ite_iff]
    | with_reducible refine And.intro (fun _ => ?_) (fun _ => ?_)
    | ((with_reducible refine Leaf.of rfl (fun p hp => ?_) ?_); (cases p <;> first | exact absurd hp (by decide) | (show _ = _; with_reducible rfl) | rfl | (show _ = _; unfold openStep; split <;> rfl)))
    | ((with_reducible apply Touches.step (onCtx_touches _ _ _)); · decide)
    | (with_reducible apply Touches.fold (fun _ _ => ?_))
    | split

theorem sendHop_touches (s : State) (h : BitVec 96) (payload : List Byte) (came : Option Dir) : Touches [.ctxs, .links, .topo, .sent] s (sendHop s h payload came) := by
  unfold sendHop
  try dsimp only
  repeat' first
    | with_reducible exact .refl
    | simp only [Touches.mk_iff, Touches.ite_iff]
    | with_reducible refine And.intro (fun _ => ?_) (fun _ => ?_)
    | ((with_reducible refine Leaf.of rfl (fun p hp => ?_) ?_); (cases p <;> first | exact absurd hp (by decide) | (show _ = _; with_reducible rfl) | rfl | (show _ = _; unfold openStep; split <;> rfl)))
    | ((with_reducible apply Touches.step (reportError_touches _ _ _)); · decide)
    | ((with_reducible apply Touches.step (countDetour_touches _ _ _)); · decide)
    | ((with_reducible apply Touches.step (pushFlit_touches _ _ _)); · decide)
    | (with_reducible apply Touches.fold (fun _ _ => ?_))
    | split

theorem unroutable_touches (s : State) (h : BitVec 96) (payload : List Byte) : Touches [.ctxs, .links, .topo, .sent] s (unroutable s h payload) := by
  unfold unroutable
  try dsimp only
  repeat' first
    | with_reducible exact .refl
    | simp only [Touches.mk_iff, Touches.ite_iff]
    | with_reducible refine And.intro (fun _ => ?_) (fun _ => ?_)
    | ((with_reducible refine Leaf.of rfl (fun p hp => ?_) ?_); (cases p <;> first | exact absurd hp (by decide) | (show _ = _; with_reducible rfl) | rfl | (show _ = _; unfold openStep; split <;> rfl)))
    | ((with_reducible apply Touches.step (sendHop_touches _ _ _ _)); · decide)

theorem routeFlit_touches (s : State) (h : BitVec 96) (payload : List Byte) (came : Option Dir) : Touches [.ctxs, .links, .topo, .sent] s (routeFlit s h payload came) := by
  unfold routeFlit
  try dsimp only
  repeat' first
    | with_reducible exact .refl
    | simp only [Touches.mk_iff, Touches.ite_iff]
    | with_reducible refine And.intro (fun _ => ?_) (fun _ => ?_)
    | ((with_reducible refine Leaf.of rfl (fun p hp => ?_) ?_); (cases p <;> first | exact absurd hp (by decide) | (show _ = _; with_reducible rfl) | rfl | (show _ = _; unfold openStep; split <;> rfl)))
    | ((with_reducible apply Touches.step (sendHop_touches _ _ _ _)); · decide)
    | ((with_reducible apply Touches.step (unroutable_touches _ _ _)); · decide)
    | (with_reducible apply Touches.fold (fun _ _ => ?_))
    | split

theorem startFlit_touches (s : State) (dest : Nat) (part : Nat) (flow : BitVec 16) (payload : List Byte) : Touches [.ctxs, .links, .topo, .sent] s (startFlit s dest part flow payload) := by
  unfold startFlit
  try dsimp only
  repeat' first
    | with_reducible exact .refl
    | simp only [Touches.mk_iff, Touches.ite_iff]
    | with_reducible refine And.intro (fun _ => ?_) (fun _ => ?_)
    | ((with_reducible refine Leaf.of rfl (fun p hp => ?_) ?_); (cases p <;> first | exact absurd hp (by decide) | (show _ = _; with_reducible rfl) | rfl | (show _ = _; unfold openStep; split <;> rfl)))
    | ((with_reducible apply Touches.step (routeFlit_touches _ _ _ _)); · decide)

theorem controlTo_touches (s : State) (dest : Nat) (payload : List Byte) : Touches [.ctxs, .links, .topo, .sent] s (controlTo s dest payload) := by
  unfold controlTo
  try dsimp only
  repeat' first
    | with_reducible exact .refl
    | simp only [Touches.mk_iff, Touches.ite_iff]
    | with_reducible refine And.intro (fun _ => ?_) (fun _ => ?_)
    | ((with_reducible refine Leaf.of rfl (fun p hp => ?_) ?_); (cases p <;> first | exact absurd hp (by decide) | (show _ = _; with_reducible rfl) | rfl | (show _ = _; unfold openStep; split <;> rfl)))
    | ((with_reducible apply Touches.step (routeFlit_touches _ _ _ _)); · decide)

theorem streamTo_touches (s : State) (dest : Nat) (bs : List Byte) : Touches [.ctxs, .links, .topo, .sent] s (streamTo s dest bs) := by
  unfold streamTo
  try dsimp only
  repeat' first
    | with_reducible exact .refl
    | simp only [Touches.mk_iff, Touches.ite_iff]
    | with_reducible refine And.intro (fun _ => ?_) (fun _ => ?_)
    | ((with_reducible refine Leaf.of rfl (fun p hp => ?_) ?_); (cases p <;> first | exact absurd hp (by decide) | (show _ = _; with_reducible rfl) | rfl | (show _ = _; unfold openStep; split <;> rfl)))
    | ((with_reducible apply Touches.step (startFlit_touches _ _ _ _ _)); · decide)
    | (with_reducible apply Touches.fold (fun _ _ => ?_))

theorem carried_touches (s : State) (a1 : Emit) : Touches [.ctxs, .links, .topo, .sent] s (carried s a1) := by
  unfold carried
  try dsimp only
  repeat' first
    | with_reducible exact .refl
    | simp only [Touches.mk_iff, Touches.ite_iff]
    | with_reducible refine And.intro (fun _ => ?_) (fun _ => ?_)
    | ((with_reducible refine Leaf.of rfl (fun p hp => ?_) ?_); (cases p <;> first | exact absurd hp (by decide) | (show _ = _; with_reducible rfl) | rfl | (show _ = _; unfold openStep; split <;> rfl)))
    | ((with_reducible apply Touches.step (streamTo_touches _ _ _)); · decide)
    | ((with_reducible apply Touches.step (controlTo_touches _ _ _)); · decide)
    | ((with_reducible apply Touches.step (controlOn_touches _ _ _)); · decide)
    | (with_reducible apply Touches.fold (fun _ _ => ?_))
    | split

theorem tell_touches (s : State) (e : Emit) : Touches [.ctxs, .links, .topo, .sent] s (tell s e) := by
  unfold tell
  try dsimp only
  repeat' first
    | with_reducible exact .refl
    | simp only [Touches.mk_iff, Touches.ite_iff]
    | with_reducible refine And.intro (fun _ => ?_) (fun _ => ?_)
    | ((with_reducible refine Leaf.of rfl (fun p hp => ?_) ?_); (cases p <;> first | exact absurd hp (by decide) | (show _ = _; with_reducible rfl) | rfl | (show _ = _; unfold openStep; split <;> rfl)))
    | ((with_reducible apply Touches.step (emit_touches _ _)); · decide)
    | ((with_reducible apply Touches.step (carried_touches _ _)); · decide)

theorem tells_touches (s : State) (es : List Emit) : Touches [.ctxs, .links, .topo, .sent] s (tells s es) := by
  unfold tells
  try dsimp only
  repeat' first
    | with_reducible exact .refl
    | simp only [Touches.mk_iff, Touches.ite_iff]
    | with_reducible refine And.intro (fun _ => ?_) (fun _ => ?_)
    | ((with_reducible refine Leaf.of rfl (fun p hp => ?_) ?_); (cases p <;> first | exact absurd hp (by decide) | (show _ = _; with_reducible rfl) | rfl | (show _ = _; unfold openStep; split <;> rfl)))
    | ((with_reducible apply Touches.step (tell_touches _ _)); · decide)
    | (with_reducible apply Touches.fold (fun _ _ => ?_))

theorem drainLink_touches (s : State) (l : Nat) : Touches [.ctxs, .links, .topo, .sent] s (drainLink s l) := by
  unfold drainLink
  try dsimp only
  repeat' first
    | with_reducible exact .refl
    | simp only [Touches.mk_iff, Touches.ite_iff]
    | with_reducible refine And.intro (fun _ => ?_) (fun _ => ?_)
    | ((with_reducible refine Leaf.of rfl (fun p hp => ?_) ?_); (cases p <;> first | exact absurd hp (by decide) | (show _ = _; with_reducible rfl) | rfl | (show _ = _; unfold openStep; split <;> rfl)))
    | ((with_reducible apply Touches.step (onLink_touches _ _ _)); · decide)
    | ((with_reducible apply Touches.step (routeFlit_touches _ _ _ _)); · decide)
    | ((with_reducible apply Touches.step (pushFlit_touches _ _ _)); · decide)
    | (with_reducible apply Touches.fold (fun _ _ => ?_))

theorem resend_touches (s : State) (d : Dir) (fs : List Flit) : Touches [.ctxs, .links, .topo, .sent] s (resend s d fs) := by
  unfold resend
  try dsimp only
  repeat' first
    | with_reducible exact .refl
    | simp only [Touches.mk_iff, Touches.ite_iff]
    | with_reducible refine And.intro (fun _ => ?_) (fun _ => ?_)
    | ((with_reducible refine Leaf.of rfl (fun p hp => ?_) ?_); (cases p <;> first | exact absurd hp (by decide) | (show _ = _; with_reducible rfl) | rfl | (show _ = _; unfold openStep; split <;> rfl)))
    | ((with_reducible apply Touches.step (routeFlit_touches _ _ _ _)); · decide)
    | ((with_reducible apply Touches.step (pushFlit_touches _ _ _)); · decide)
    | (with_reducible apply Touches.fold (fun _ _ => ?_))
    | split

theorem leaveOn_touches (s : State) (l : Nat) (cause : Nat) : Touches [.topo, .sent] s (leaveOn s l cause) := by
  unfold leaveOn
  try dsimp only
  repeat' first
    | with_reducible exact .refl
    | simp only [Touches.mk_iff, Touches.ite_iff]
    | with_reducible refine And.intro (fun _ => ?_) (fun _ => ?_)
    | ((with_reducible refine Leaf.of rfl (fun p hp => ?_) ?_); (cases p <;> first | exact absurd hp (by decide) | (show _ = _; with_reducible rfl) | rfl | (show _ = _; unfold openStep; split <;> rfl)))
    | ((with_reducible apply Touches.step (sendFrame_touches _ _ _ _)); · decide)

theorem fenceLink_touches (s : State) (l : Nat) (cause : Nat) : Touches [.host, .ctxs, .links, .topo, .ledger, .fw, .sent, .free] s (fenceLink s l cause) := by
  unfold fenceLink
  try dsimp only
  repeat' first
    | with_reducible exact .refl
    | simp only [Touches.mk_iff, Touches.ite_iff]
    | with_reducible refine And.intro (fun _ => ?_) (fun _ => ?_)
    | ((with_reducible refine Leaf.of rfl (fun p hp => ?_) ?_); (cases p <;> first | exact absurd hp (by decide) | (show _ = _; with_reducible rfl) | rfl | (show _ = _; unfold openStep; split <;> rfl)))
    | ((with_reducible apply Touches.step (leaveOn_touches _ _ _)); · decide)
    | ((with_reducible apply Touches.step (onLink_touches _ _ _)); · decide)
    | ((with_reducible apply Touches.step (resend_touches _ _ _)); · decide)
    | ((with_reducible apply Touches.step (faultEvent_touches _ _)); · decide)
    | ((with_reducible apply Touches.step (postLink_touches _ _)); · decide)

theorem fenceByOstler_touches (s : State) (l : Nat) (cause : Nat) : Touches [.host, .ctxs, .links, .topo, .ledger, .fw, .sent, .free] s (fenceByOstler s l cause) := by
  unfold fenceByOstler
  try dsimp only
  repeat' first
    | with_reducible exact .refl
    | simp only [Touches.mk_iff, Touches.ite_iff]
    | with_reducible refine And.intro (fun _ => ?_) (fun _ => ?_)
    | ((with_reducible refine Leaf.of rfl (fun p hp => ?_) ?_); (cases p <;> first | exact absurd hp (by decide) | (show _ = _; with_reducible rfl) | rfl | (show _ = _; unfold openStep; split <;> rfl)))
    | ((with_reducible apply Touches.step (fenceLink_touches _ _ _)); · decide)
    | ((with_reducible apply Touches.step (hwRequest_touches _ _ _)); · decide)

theorem linkDown_touches (s : State) (l : Nat) (cause : Nat) : Touches [.host, .ctxs, .links, .topo, .ledger, .fw, .sent, .free] s (linkDown s l cause) := by
  unfold linkDown
  try dsimp only
  repeat' first
    | with_reducible exact .refl
    | simp only [Touches.mk_iff, Touches.ite_iff]
    | with_reducible refine And.intro (fun _ => ?_) (fun _ => ?_)
    | ((with_reducible refine Leaf.of rfl (fun p hp => ?_) ?_); (cases p <;> first | exact absurd hp (by decide) | (show _ = _; with_reducible rfl) | rfl | (show _ = _; unfold openStep; split <;> rfl)))
    | ((with_reducible apply Touches.step (fenceByOstler_touches _ _ _)); · decide)
    | ((with_reducible apply Touches.step (onLink_touches _ _ _)); · decide)
    | ((with_reducible apply Touches.step (resend_touches _ _ _)); · decide)
    | ((with_reducible apply Touches.step (postLink_touches _ _)); · decide)
    | ((with_reducible apply Touches.step (fenceLink_touches _ _ _)); · decide)

theorem holdLink_touches (s : State) (l : Nat) : Touches [.host, .ctxs, .links, .topo, .sent] s (holdLink s l) := by
  unfold holdLink
  try dsimp only
  repeat' first
    | with_reducible exact .refl
    | simp only [Touches.mk_iff, Touches.ite_iff]
    | with_reducible refine And.intro (fun _ => ?_) (fun _ => ?_)
    | ((with_reducible refine Leaf.of rfl (fun p hp => ?_) ?_); (cases p <;> first | exact absurd hp (by decide) | (show _ = _; with_reducible rfl) | rfl | (show _ = _; unfold openStep; split <;> rfl)))
    | ((with_reducible apply Touches.step (onLink_touches _ _ _)); · decide)
    | ((with_reducible apply Touches.step (resend_touches _ _ _)); · decide)
    | ((with_reducible apply Touches.step (postLink_touches _ _)); · decide)

theorem laneFails_touches (s : State) (l : Nat) (lane : Nat) : Touches [.host, .ctxs, .links, .topo, .ledger, .fw, .sent, .free] s (laneFails s l lane) := by
  unfold laneFails
  try dsimp only
  repeat' first
    | with_reducible exact .refl
    | simp only [Touches.mk_iff, Touches.ite_iff]
    | with_reducible refine And.intro (fun _ => ?_) (fun _ => ?_)
    | ((with_reducible refine Leaf.of rfl (fun p hp => ?_) ?_); (cases p <;> first | exact absurd hp (by decide) | (show _ = _; with_reducible rfl) | rfl | (show _ = _; unfold openStep; split <;> rfl)))
    | ((with_reducible apply Touches.step (onLink_touches _ _ _)); · decide)
    | ((with_reducible apply Touches.step (faultEvent_touches _ _)); · decide)
    | ((with_reducible apply Touches.step (fenceLink_touches _ _ _)); · decide)

theorem frameBad_touches (s : State) (l : Nat) : Touches [.links] s (frameBad s l) := by
  unfold frameBad
  try dsimp only
  repeat' first
    | with_reducible exact .refl
    | simp only [Touches.mk_iff, Touches.ite_iff]
    | with_reducible refine And.intro (fun _ => ?_) (fun _ => ?_)
    | ((with_reducible refine Leaf.of rfl (fun p hp => ?_) ?_); (cases p <;> first | exact absurd hp (by decide) | (show _ = _; with_reducible rfl) | rfl | (show _ = _; unfold openStep; split <;> rfl)))
    | ((with_reducible apply Touches.step (onLink_touches _ _ _)); · decide)

theorem frameSeen_touches (s : State) (l : Nat) : Touches [.links, .topo] s (frameSeen s l) := by
  unfold frameSeen
  try dsimp only
  repeat' first
    | with_reducible exact .refl
    | simp only [Touches.mk_iff, Touches.ite_iff]
    | with_reducible refine And.intro (fun _ => ?_) (fun _ => ?_)
    | ((with_reducible refine Leaf.of rfl (fun p hp => ?_) ?_); (cases p <;> first | exact absurd hp (by decide) | (show _ = _; with_reducible rfl) | rfl | (show _ = _; unfold openStep; split <;> rfl)))
    | ((with_reducible apply Touches.step (onLink_touches _ _ _)); · decide)

theorem noteFrame_touches (s : State) (d : Dir) (f : BitVec 96) : Touches [.topo] s (noteFrame s d f) := by
  unfold noteFrame
  try dsimp only
  repeat' first
    | with_reducible exact .refl
    | simp only [Touches.mk_iff, Touches.ite_iff]
    | with_reducible refine And.intro (fun _ => ?_) (fun _ => ?_)
    | ((with_reducible refine Leaf.of rfl (fun p hp => ?_) ?_); (cases p <;> first | exact absurd hp (by decide) | (show _ = _; with_reducible rfl) | rfl | (show _ = _; unfold openStep; split <;> rfl)))

theorem frameIn_touches (s : State) (l : Nat) (f : BitVec 96) : Touches [.links, .topo] s (frameIn s l f) := by
  unfold frameIn
  try dsimp only
  repeat' first
    | with_reducible exact .refl
    | simp only [Touches.mk_iff, Touches.ite_iff]
    | with_reducible refine And.intro (fun _ => ?_) (fun _ => ?_)
    | ((with_reducible refine Leaf.of rfl (fun p hp => ?_) ?_); (cases p <;> first | exact absurd hp (by decide) | (show _ = _; with_reducible rfl) | rfl | (show _ = _; unfold openStep; split <;> rfl)))
    | ((with_reducible apply Touches.step (frameSeen_touches _ _)); · decide)
    | ((with_reducible apply Touches.step (noteFrame_touches _ _ _)); · decide)

end Sys2Proof.Machine
end

