-- ==== Sys2Proof/Laws/TouchVerdict.lean ====
section
/-! SUPPORT. What each operation and meaning of Machine/Verdict.lean can change. -/

set_option linter.unusedSimpArgs false
set_option linter.unusedTactic false
set_option linter.unreachableTactic false

namespace Sys2Proof.Machine

theorem sendDown_touches (s : State) (n : Nat) (word : Nat) (ds : List Dir) : Touches [.topo, .sent] s (sendDown s n word ds) := by
  unfold sendDown
  try dsimp only
  repeat' first
    | with_reducible exact .refl
    | simp only [Touches.mk_iff, Touches.ite_iff]
    | with_reducible refine And.intro (fun _ => ?_) (fun _ => ?_)
    | ((with_reducible refine Leaf.of rfl (fun p hp => ?_) ?_); (cases p <;> first | exact absurd hp (by decide) | (show _ = _; with_reducible rfl) | rfl | (show _ = _; unfold openStep; split <;> rfl)))
    | ((with_reducible apply Touches.step (sendFrames_touches _ _ _ _)); · decide)

theorem discardSteps_touches (s : State) (n : Nat) : Touches [.vers, .cores, .steps, .sync, .chans, .coll, .place, .mem, .links] s (discardSteps s n) := by
  unfold discardSteps
  try dsimp only
  repeat' first
    | with_reducible exact .refl
    | simp only [Touches.mk_iff, Touches.ite_iff]
    | with_reducible refine And.intro (fun _ => ?_) (fun _ => ?_)
    | ((with_reducible refine Leaf.of rfl (fun p hp => ?_) ?_); (cases p <;> first | exact absurd hp (by decide) | (show _ = _; with_reducible rfl) | rfl | (show _ = _; unfold openStep; split <;> rfl)))

theorem rolledBack_touches (s : State) (n : Nat) : Touches [.host, .vers, .results, .cores, .steps, .sync, .chans, .coll, .place, .mem, .links, .sent] s (rolledBack s n) := by
  unfold rolledBack
  try dsimp only
  repeat' first
    | with_reducible exact .refl
    | simp only [Touches.mk_iff, Touches.ite_iff]
    | with_reducible refine And.intro (fun _ => ?_) (fun _ => ?_)
    | ((with_reducible refine Leaf.of rfl (fun p hp => ?_) ?_); (cases p <;> first | exact absurd hp (by decide) | (show _ = _; with_reducible rfl) | rfl | (show _ = _; unfold openStep; split <;> rfl)))
    | ((with_reducible apply Touches.step (discardSteps_touches _ _)); · decide)
    | ((with_reducible apply Touches.step (post_touches _ _ _ _ _)); · decide)

theorem rollback_touches (s : State) (n : Nat) : Touches [.host, .ctxs, .vers, .results, .cores, .steps, .sync, .chans, .coll, .place, .mem, .links, .sent] s (rollback s n) := by
  unfold rollback
  try dsimp only
  repeat' first
    | with_reducible exact .refl
    | simp only [Touches.mk_iff, Touches.ite_iff]
    | with_reducible refine And.intro (fun _ => ?_) (fun _ => ?_)
    | ((with_reducible refine Leaf.of rfl (fun p hp => ?_) ?_); (cases p <;> first | exact absurd hp (by decide) | (show _ = _; with_reducible rfl) | rfl | (show _ = _; unfold openStep; split <;> rfl)))
    | ((with_reducible apply Touches.step (rolledBack_touches _ _)); · decide)

theorem jobLost_touches (s : State) (n : Nat) : Touches [.host, .ctxs, .vers, .results, .cores, .steps, .sync, .chans, .coll, .place, .mem, .links, .recov, .sent] s (jobLost s n) := by
  unfold jobLost
  try dsimp only
  repeat' first
    | with_reducible exact .refl
    | simp only [Touches.mk_iff, Touches.ite_iff]
    | with_reducible refine And.intro (fun _ => ?_) (fun _ => ?_)
    | ((with_reducible refine Leaf.of rfl (fun p hp => ?_) ?_); (cases p <;> first | exact absurd hp (by decide) | (show _ = _; with_reducible rfl) | rfl | (show _ = _; unfold openStep; split <;> rfl)))
    | ((with_reducible apply Touches.step (rolledBack_touches _ _)); · decide)
    | ((with_reducible apply Touches.step (haltCtx_touches _ _ _ _)); · decide)
    | ((with_reducible apply Touches.step (post_touches _ _ _ _ _)); · decide)

theorem loseJob_touches (s : State) (code : Nat) : Touches [.recov] s (loseJob s code) := by
  unfold loseJob
  try dsimp only
  repeat' first
    | with_reducible exact .refl
    | simp only [Touches.mk_iff, Touches.ite_iff]
    | with_reducible refine And.intro (fun _ => ?_) (fun _ => ?_)
    | ((with_reducible refine Leaf.of rfl (fun p hp => ?_) ?_); (cases p <;> first | exact absurd hp (by decide) | (show _ = _; with_reducible rfl) | rfl | (show _ = _; unfold openStep; split <;> rfl)))

theorem leaveJob_touches (s : State) : Touches [.devState, .dev, .owner, .host, .ctxs, .vers, .cores, .steps, .sync, .chans, .coll, .place, .mem, .links, .topo, .tests, .recov, .fw, .meas, .sec, .sent, .free] s (leaveJob s) := by
  unfold leaveJob
  try dsimp only
  repeat' first
    | with_reducible exact .refl
    | simp only [Touches.mk_iff, Touches.ite_iff]
    | with_reducible refine And.intro (fun _ => ?_) (fun _ => ?_)
    | ((with_reducible refine Leaf.of rfl (fun p hp => ?_) ?_); (cases p <;> first | exact absurd hp (by decide) | (show _ = _; with_reducible rfl) | rfl | (show _ = _; unfold openStep; split <;> rfl)))
    | ((with_reducible apply Touches.step (haltCtx_touches _ _ _ _)); · decide)
    | ((with_reducible apply Touches.step (discardSteps_touches _ _)); · decide)
    | ((with_reducible apply Touches.step (jobToReady_touches _)); · decide)
    | (with_reducible apply Touches.fold (fun _ _ => ?_))

theorem sendPulls_touches (s : State) (l : List Emit) : Touches [.ctxs, .links, .topo, .fw, .sent] s (sendPulls s l) := by
  unfold sendPulls
  try dsimp only
  repeat' first
    | with_reducible exact .refl
    | simp only [Touches.mk_iff, Touches.ite_iff]
    | with_reducible refine And.intro (fun _ => ?_) (fun _ => ?_)
    | ((with_reducible refine Leaf.of rfl (fun p hp => ?_) ?_); (cases p <;> first | exact absurd hp (by decide) | (show _ = _; with_reducible rfl) | rfl | (show _ = _; unfold openStep; split <;> rfl)))
    | ((with_reducible apply Touches.step (tells_touches _ _)); · decide)
    | ((with_reducible apply Touches.step (hwRequest_touches _ _ _)); · decide)

theorem pullDerived_touches (s : State) : Touches [.ctxs, .links, .topo, .fw, .sent] s (pullDerived s) := by
  unfold pullDerived
  try dsimp only
  repeat' first
    | with_reducible exact .refl
    | simp only [Touches.mk_iff, Touches.ite_iff]
    | with_reducible refine And.intro (fun _ => ?_) (fun _ => ?_)
    | ((with_reducible refine Leaf.of rfl (fun p hp => ?_) ?_); (cases p <;> first | exact absurd hp (by decide) | (show _ = _; with_reducible rfl) | rfl | (show _ = _; unfold openStep; split <;> rfl)))
    | ((with_reducible apply Touches.step (sendPulls_touches _ _)); · decide)

theorem repull_touches (s : State) (old : List Emit) : Touches [.ctxs, .links, .topo, .fw, .sent] s (repull s old) := by
  unfold repull
  try dsimp only
  repeat' first
    | with_reducible exact .refl
    | simp only [Touches.mk_iff, Touches.ite_iff]
    | with_reducible refine And.intro (fun _ => ?_) (fun _ => ?_)
    | ((with_reducible refine Leaf.of rfl (fun p hp => ?_) ?_); (cases p <;> first | exact absurd hp (by decide) | (show _ = _; with_reducible rfl) | rfl | (show _ = _; unfold openStep; split <;> rfl)))
    | ((with_reducible apply Touches.step (sendPulls_touches _ _)); · decide)

theorem sendRebuildNow_touches (s : State) : Touches [.ctxs, .links, .topo, .recov, .sent] s (sendRebuildNow s) := by
  unfold sendRebuildNow
  try dsimp only
  repeat' first
    | with_reducible exact .refl
    | simp only [Touches.mk_iff, Touches.ite_iff]
    | with_reducible refine And.intro (fun _ => ?_) (fun _ => ?_)
    | ((with_reducible refine Leaf.of rfl (fun p hp => ?_) ?_); (cases p <;> first | exact absurd hp (by decide) | (show _ = _; with_reducible rfl) | rfl | (show _ = _; unfold openStep; split <;> rfl)))
    | ((with_reducible apply Touches.step (tell_touches _ _)); · decide)

theorem sendRebuild_touches (s : State) : Touches [.ctxs, .links, .topo, .recov, .fw, .sent] s (sendRebuild s) := by
  unfold sendRebuild
  try dsimp only
  repeat' first
    | with_reducible exact .refl
    | simp only [Touches.mk_iff, Touches.ite_iff]
    | with_reducible refine And.intro (fun _ => ?_) (fun _ => ?_)
    | ((with_reducible refine Leaf.of rfl (fun p hp => ?_) ?_); (cases p <;> first | exact absurd hp (by decide) | (show _ = _; with_reducible rfl) | rfl | (show _ = _; unfold openStep; split <;> rfl)))
    | ((with_reducible apply Touches.step (sendRebuildNow_touches _)); · decide)
    | ((with_reducible apply Touches.step (hwRequest_touches _ _ _)); · decide)

theorem giveRebuild_touches (s : State) : Touches [.ctxs, .links, .topo, .recov, .fw, .sent] s (giveRebuild s) := by
  unfold giveRebuild
  try dsimp only
  repeat' first
    | with_reducible exact .refl
    | simp only [Touches.mk_iff, Touches.ite_iff]
    | with_reducible refine And.intro (fun _ => ?_) (fun _ => ?_)
    | ((with_reducible refine Leaf.of rfl (fun p hp => ?_) ?_); (cases p <;> first | exact absurd hp (by decide) | (show _ = _; with_reducible rfl) | rfl | (show _ = _; unfold openStep; split <;> rfl)))
    | ((with_reducible apply Touches.step (sendRebuild_touches _)); · decide)

theorem refetch_touches (s : State) (steps : List Nat) : Touches [.fetch] s (refetch s steps) := by
  unfold refetch
  try dsimp only
  repeat' first
    | with_reducible exact .refl
    | simp only [Touches.mk_iff, Touches.ite_iff]
    | with_reducible refine And.intro (fun _ => ?_) (fun _ => ?_)
    | ((with_reducible refine Leaf.of rfl (fun p hp => ?_) ?_); (cases p <;> first | exact absurd hp (by decide) | (show _ = _; with_reducible rfl) | rfl | (show _ = _; unfold openStep; split <;> rfl)))

theorem takeoverStart_touches (s : State) (r : BitVec 128) : Touches [.devState, .dev, .host, .ctxs, .fetch, .cores, .links, .topo, .tests, .recov, .fw, .meas, .sec, .sent] s (takeoverStart s r) := by
  unfold takeoverStart
  try dsimp only
  repeat' first
    | with_reducible exact .refl
    | simp only [Touches.mk_iff, Touches.ite_iff]
    | with_reducible refine And.intro (fun _ => ?_) (fun _ => ?_)
    | ((with_reducible refine Leaf.of rfl (fun p hp => ?_) ?_); (cases p <;> first | exact absurd hp (by decide) | (show _ = _; with_reducible rfl) | rfl | (show _ = _; unfold openStep; split <;> rfl)))
    | ((with_reducible apply Touches.step (loseJob_touches _ _)); · decide)
    | ((with_reducible apply Touches.step (changeState_touches _ _)); · decide)
    | ((with_reducible apply Touches.step (pullDerived_touches _)); · decide)
    | ((with_reducible apply Touches.step (refetch_touches _ _)); · decide)

theorem waitEnds_touches (s : State) : Touches [.ctxs, .recov] s (waitEnds s) := by
  unfold waitEnds
  try dsimp only
  repeat' first
    | with_reducible exact .refl
    | simp only [Touches.mk_iff, Touches.ite_iff]
    | with_reducible refine And.intro (fun _ => ?_) (fun _ => ?_)
    | ((with_reducible refine Leaf.of rfl (fun p hp => ?_) ?_); (cases p <;> first | exact absurd hp (by decide) | (show _ = _; with_reducible rfl) | rfl | (show _ = _; unfold openStep; split <;> rfl)))

theorem waitStarts_touches (s : State) (word : Nat) : Touches [.recov] s (waitStarts s word) := by
  unfold waitStarts
  try dsimp only
  repeat' first
    | with_reducible exact .refl
    | simp only [Touches.mk_iff, Touches.ite_iff]
    | with_reducible refine And.intro (fun _ => ?_) (fun _ => ?_)
    | ((with_reducible refine Leaf.of rfl (fun p hp => ?_) ?_); (cases p <;> first | exact absurd hp (by decide) | (show _ = _; with_reducible rfl) | rfl | (show _ = _; unfold openStep; split <;> rfl)))

theorem sendHeldNow_touches (s : State) (dest : Nat) : Touches [.ctxs, .links, .topo, .sent] s (sendHeldNow s dest) := by
  unfold sendHeldNow
  try dsimp only
  repeat' first
    | with_reducible exact .refl
    | simp only [Touches.mk_iff, Touches.ite_iff]
    | with_reducible refine And.intro (fun _ => ?_) (fun _ => ?_)
    | ((with_reducible refine Leaf.of rfl (fun p hp => ?_) ?_); (cases p <;> first | exact absurd hp (by decide) | (show _ = _; with_reducible rfl) | rfl | (show _ = _; unfold openStep; split <;> rfl)))
    | ((with_reducible apply Touches.step (tell_touches _ _)); · decide)

theorem sendHeld_touches (s : State) (dest : Nat) : Touches [.ctxs, .links, .topo, .fw, .sent] s (sendHeld s dest) := by
  unfold sendHeld
  try dsimp only
  repeat' first
    | with_reducible exact .refl
    | simp only [Touches.mk_iff, Touches.ite_iff]
    | with_reducible refine And.intro (fun _ => ?_) (fun _ => ?_)
    | ((with_reducible refine Leaf.of rfl (fun p hp => ?_) ?_); (cases p <;> first | exact absurd hp (by decide) | (show _ = _; with_reducible rfl) | rfl | (show _ = _; unfold openStep; split <;> rfl)))
    | ((with_reducible apply Touches.step (sendHeldNow_touches _ _)); · decide)
    | ((with_reducible apply Touches.step (hwRequest_touches _ _ _)); · decide)

theorem answerPull_touches (s : State) (dest : Nat) (c : Nat) (t : Nat) : Touches [.ctxs, .links, .topo, .sent] s (answerPull s dest c t) := by
  unfold answerPull
  try dsimp only
  repeat' first
    | with_reducible exact .refl
    | simp only [Touches.mk_iff, Touches.ite_iff]
    | with_reducible refine And.intro (fun _ => ?_) (fun _ => ?_)
    | ((with_reducible refine Leaf.of rfl (fun p hp => ?_) ?_); (cases p <;> first | exact absurd hp (by decide) | (show _ = _; with_reducible rfl) | rfl | (show _ = _; unfold openStep; split <;> rfl)))
    | ((with_reducible apply Touches.step (streamTo_touches _ _ _)); · decide)

theorem adoptRecord_touches (s : State) (r : BitVec 128) : Touches [.devState, .dev, .owner, .host, .ctxs, .vers, .fetch, .cores, .steps, .sync, .chans, .coll, .place, .mem, .links, .topo, .tests, .fenceSet, .recov, .fw, .meas, .sec, .sent, .free] s (adoptRecord s r) := by
  unfold adoptRecord
  try dsimp only
  repeat' first
    | with_reducible exact .refl
    | simp only [Touches.mk_iff, Touches.ite_iff]
    | with_reducible refine And.intro (fun _ => ?_) (fun _ => ?_)
    | ((with_reducible refine Leaf.of rfl (fun p hp => ?_) ?_); (cases p <;> first | exact absurd hp (by decide) | (show _ = _; with_reducible rfl) | rfl | (show _ = _; unfold openStep; split <;> rfl)))
    | ((with_reducible apply Touches.step (giveRebuild_touches _)); · decide)
    | ((with_reducible apply Touches.step (takeoverStart_touches _ _)); · decide)
    | ((with_reducible apply Touches.step (loseJob_touches _ _)); · decide)
    | ((with_reducible apply Touches.step (repull_touches _ _)); · decide)
    | ((with_reducible apply Touches.step (sendHeld_touches _ _)); · decide)
    | ((with_reducible apply Touches.step (leaveJob_touches _)); · decide)
    | ((with_reducible apply Touches.step (post_touches _ _ _ _ _)); · decide)
    | ((with_reducible apply Touches.step (waitEnds_touches _)); · decide)

theorem adoptNotices_touches (s : State) (word : Nat) : Touches [.devState, .dev, .owner, .host, .ctxs, .vers, .fetch, .cores, .steps, .sync, .chans, .coll, .place, .mem, .links, .topo, .tests, .fenceSet, .recov, .fw, .meas, .sec, .sent, .free] s (adoptNotices s word) := by
  unfold adoptNotices
  try dsimp only
  repeat' first
    | with_reducible exact .refl
    | simp only [Touches.mk_iff, Touches.ite_iff]
    | with_reducible refine And.intro (fun _ => ?_) (fun _ => ?_)
    | ((with_reducible refine Leaf.of rfl (fun p hp => ?_) ?_); (cases p <;> first | exact absurd hp (by decide) | (show _ = _; with_reducible rfl) | rfl | (show _ = _; unfold openStep; split <;> rfl)))
    | ((with_reducible apply Touches.step (adoptRecord_touches _ _)); · decide)
    | (with_reducible apply Touches.fold (fun _ _ => ?_))

theorem replayStop_touches (s : State) : Touches [.host, .ctxs, .steps, .sent] s (replayStop s) := by
  unfold replayStop
  try dsimp only
  repeat' first
    | with_reducible exact .refl
    | simp only [Touches.mk_iff, Touches.ite_iff]
    | with_reducible refine And.intro (fun _ => ?_) (fun _ => ?_)
    | ((with_reducible refine Leaf.of rfl (fun p hp => ?_) ?_); (cases p <;> first | exact absurd hp (by decide) | (show _ = _; with_reducible rfl) | rfl | (show _ = _; unfold openStep; split <;> rfl)))
    | ((with_reducible apply Touches.step (onCtx_touches _ _ _)); · decide)
    | ((with_reducible apply Touches.step (post_touches _ _ _ _ _)); · decide)

theorem abortEnds_touches (s : State) (n : Nat) (was : Role) : Touches [.host, .ctxs, .vers, .results, .cores, .steps, .sync, .chans, .coll, .place, .mem, .links, .sent] s (abortEnds s n was) := by
  unfold abortEnds
  try dsimp only
  repeat' first
    | with_reducible exact .refl
    | simp only [Touches.mk_iff, Touches.ite_iff]
    | with_reducible refine And.intro (fun _ => ?_) (fun _ => ?_)
    | ((with_reducible refine Leaf.of rfl (fun p hp => ?_) ?_); (cases p <;> first | exact absurd hp (by decide) | (show _ = _; with_reducible rfl) | rfl | (show _ = _; unfold openStep; split <;> rfl)))
    | ((with_reducible apply Touches.step (rolledBack_touches _ _)); · decide)
    | ((with_reducible apply Touches.step (rollback_touches _ _)); · decide)

theorem completeAbort_touches (s : State) (n : Nat) (word : Nat) : Touches [.devState, .dev, .owner, .host, .ctxs, .vers, .fetch, .results, .cores, .steps, .sync, .chans, .coll, .place, .mem, .links, .topo, .tests, .fenceSet, .recov, .fw, .meas, .sec, .sent, .free] s (completeAbort s n word) := by
  unfold completeAbort
  try dsimp only
  repeat' first
    | with_reducible exact .refl
    | simp only [Touches.mk_iff, Touches.ite_iff]
    | with_reducible refine And.intro (fun _ => ?_) (fun _ => ?_)
    | ((with_reducible refine Leaf.of rfl (fun p hp => ?_) ?_); (cases p <;> first | exact absurd hp (by decide) | (show _ = _; with_reducible rfl) | rfl | (show _ = _; unfold openStep; split <;> rfl)))
    | ((with_reducible apply Touches.step (abortEnds_touches _ _ _)); · decide)
    | ((with_reducible apply Touches.step (jobLost_touches _ _)); · decide)
    | ((with_reducible apply Touches.step (adoptNotices_touches _ _)); · decide)
    | ((with_reducible apply Touches.step (waitStarts_touches _ _)); · decide)
    | ((with_reducible apply Touches.step (replayStop_touches _)); · decide)
    | ((with_reducible apply Touches.step (waitEnds_touches _)); · decide)
    | ((with_reducible apply Touches.step (onChan_touches _ _ _)); · decide)

theorem contributeAbort_touches (s : State) (n : Nat) : Touches [.devState, .dev, .owner, .host, .ctxs, .vers, .fetch, .results, .cores, .steps, .sync, .chans, .coll, .place, .mem, .links, .topo, .tests, .fenceSet, .recov, .fw, .meas, .sec, .sent, .free] s (contributeAbort s n) := by
  unfold contributeAbort
  try dsimp only
  repeat' first
    | with_reducible exact .refl
    | simp only [Touches.mk_iff, Touches.ite_iff]
    | with_reducible refine And.intro (fun _ => ?_) (fun _ => ?_)
    | ((with_reducible refine Leaf.of rfl (fun p hp => ?_) ?_); (cases p <;> first | exact absurd hp (by decide) | (show _ = _; with_reducible rfl) | rfl | (show _ = _; unfold openStep; split <;> rfl)))
    | ((with_reducible apply Touches.step (sendDown_touches _ _ _ _)); · decide)
    | ((with_reducible apply Touches.step (completeAbort_touches _ _ _)); · decide)

theorem openNext_touches (s : State) : Touches [.steps] s (openNext s) := by
  unfold openNext
  try dsimp only
  repeat' first
    | with_reducible exact .refl
    | simp only [Touches.mk_iff, Touches.ite_iff]
    | with_reducible refine And.intro (fun _ => ?_) (fun _ => ?_)
    | ((with_reducible refine Leaf.of rfl (fun p hp => ?_) ?_); (cases p <;> first | exact absurd hp (by decide) | (show _ = _; with_reducible rfl) | rfl | (show _ = _; unfold openStep; split <;> rfl)))

theorem lossAbort_touches (s : State) : Touches [.devState, .dev, .owner, .host, .ctxs, .vers, .fetch, .results, .cores, .steps, .sync, .chans, .coll, .place, .mem, .links, .topo, .tests, .fenceSet, .recov, .fw, .meas, .sec, .sent, .free] s (lossAbort s) := by
  unfold lossAbort
  try dsimp only
  repeat' first
    | with_reducible exact .refl
    | simp only [Touches.mk_iff, Touches.ite_iff]
    | with_reducible refine And.intro (fun _ => ?_) (fun _ => ?_)
    | ((with_reducible refine Leaf.of rfl (fun p hp => ?_) ?_); (cases p <;> first | exact absurd hp (by decide) | (show _ = _; with_reducible rfl) | rfl | (show _ = _; unfold openStep; split <;> rfl)))
    | ((with_reducible apply Touches.step (openNext_touches _)); · decide)
    | ((with_reducible apply Touches.step (contributeAbort_touches _ _)); · decide)

theorem abortStep_touches (s : State) (n : Nat) (word : Nat) : Touches [.devState, .dev, .owner, .host, .ctxs, .vers, .fetch, .results, .cores, .steps, .sync, .chans, .coll, .place, .mem, .links, .topo, .tests, .fenceSet, .recov, .fw, .meas, .sec, .sent, .free] s (abortStep s n word) := by
  unfold abortStep
  try dsimp only
  repeat' first
    | with_reducible exact .refl
    | simp only [Touches.mk_iff, Touches.ite_iff]
    | with_reducible refine And.intro (fun _ => ?_) (fun _ => ?_)
    | ((with_reducible refine Leaf.of rfl (fun p hp => ?_) ?_); (cases p <;> first | exact absurd hp (by decide) | (show _ = _; with_reducible rfl) | rfl | (show _ = _; unfold openStep; split <;> rfl)))
    | ((with_reducible apply Touches.step (completeAbort_touches _ _ _)); · decide)
    | ((with_reducible apply Touches.step (lossAbort_touches _)); · decide)

theorem ownAbort_touches (s : State) : Touches [.devState, .dev, .owner, .host, .ctxs, .vers, .fetch, .results, .cores, .steps, .sync, .chans, .coll, .place, .mem, .links, .topo, .tests, .fenceSet, .recov, .fw, .meas, .sec, .sent, .free] s (ownAbort s) := by
  unfold ownAbort
  try dsimp only
  repeat' first
    | with_reducible exact .refl
    | simp only [Touches.mk_iff, Touches.ite_iff]
    | with_reducible refine And.intro (fun _ => ?_) (fun _ => ?_)
    | ((with_reducible refine Leaf.of rfl (fun p hp => ?_) ?_); (cases p <;> first | exact absurd hp (by decide) | (show _ = _; with_reducible rfl) | rfl | (show _ = _; unfold openStep; split <;> rfl)))
    | ((with_reducible apply Touches.step (contributeAbort_touches _ _)); · decide)
    | ((with_reducible apply Touches.step (lossAbort_touches _)); · decide)
    | (with_reducible apply Touches.fold (fun _ _ => ?_))
    | split

theorem tryAbort_touches (s : State) : Touches [.devState, .dev, .owner, .host, .ctxs, .vers, .fetch, .results, .cores, .steps, .sync, .chans, .coll, .place, .mem, .links, .topo, .tests, .fenceSet, .recov, .fw, .meas, .sec, .sent, .free] s (tryAbort s) := by
  unfold tryAbort
  try dsimp only
  repeat' first
    | with_reducible exact .refl
    | simp only [Touches.mk_iff, Touches.ite_iff]
    | with_reducible refine And.intro (fun _ => ?_) (fun _ => ?_)
    | ((with_reducible refine Leaf.of rfl (fun p hp => ?_) ?_); (cases p <;> first | exact absurd hp (by decide) | (show _ = _; with_reducible rfl) | rfl | (show _ = _; unfold openStep; split <;> rfl)))
    | ((with_reducible apply Touches.step (lossAbort_touches _)); · decide)
    | ((with_reducible apply Touches.step (ownAbort_touches _)); · decide)
    | (with_reducible apply Touches.fold (fun _ _ => ?_))
    | split

theorem holdAbort_touches (s : State) : Touches [.devState, .dev, .owner, .host, .ctxs, .vers, .fetch, .results, .cores, .steps, .sync, .chans, .coll, .place, .mem, .links, .topo, .tests, .fenceSet, .recov, .fw, .meas, .sec, .sent, .free] s (holdAbort s) := by
  unfold holdAbort
  try dsimp only
  repeat' first
    | with_reducible exact .refl
    | simp only [Touches.mk_iff, Touches.ite_iff]
    | with_reducible refine And.intro (fun _ => ?_) (fun _ => ?_)
    | ((with_reducible refine Leaf.of rfl (fun p hp => ?_) ?_); (cases p <;> first | exact absurd hp (by decide) | (show _ = _; with_reducible rfl) | rfl | (show _ = _; unfold openStep; split <;> rfl)))
    | ((with_reducible apply Touches.step (openNext_touches _)); · decide)
    | ((with_reducible apply Touches.step (tryAbort_touches _)); · decide)

theorem failSteps_touches (s : State) (b : BitVec 16) : Touches [.devState, .dev, .owner, .host, .ctxs, .vers, .fetch, .results, .cores, .steps, .sync, .chans, .coll, .place, .mem, .links, .topo, .tests, .fenceSet, .recov, .fw, .meas, .sec, .sent, .free] s (failSteps s b) := by
  unfold failSteps
  try dsimp only
  repeat' first
    | with_reducible exact .refl
    | simp only [Touches.mk_iff, Touches.ite_iff]
    | with_reducible refine And.intro (fun _ => ?_) (fun _ => ?_)
    | ((with_reducible refine Leaf.of rfl (fun p hp => ?_) ?_); (cases p <;> first | exact absurd hp (by decide) | (show _ = _; with_reducible rfl) | rfl | (show _ = _; unfold openStep; split <;> rfl)))
    | ((with_reducible apply Touches.step (tryAbort_touches _)); · decide)

theorem failStep_touches (s : State) (n : Nat) (b : BitVec 16) : Touches [.devState, .dev, .owner, .host, .ctxs, .vers, .fetch, .results, .cores, .steps, .sync, .chans, .coll, .place, .mem, .links, .topo, .tests, .fenceSet, .recov, .fw, .meas, .sec, .sent, .free] s (failStep s n b) := by
  unfold failStep
  try dsimp only
  repeat' first
    | with_reducible exact .refl
    | simp only [Touches.mk_iff, Touches.ite_iff]
    | with_reducible refine And.intro (fun _ => ?_) (fun _ => ?_)
    | ((with_reducible refine Leaf.of rfl (fun p hp => ?_) ?_); (cases p <;> first | exact absurd hp (by decide) | (show _ = _; with_reducible rfl) | rfl | (show _ = _; unfold openStep; split <;> rfl)))
    | ((with_reducible apply Touches.step (tryAbort_touches _)); · decide)

end Sys2Proof.Machine
end

