-- ==== Sys2Proof/Laws/TouchReset.lean ====
section
/-! SUPPORT. What each operation and meaning of Machine/Reset.lean can change. -/

set_option linter.unusedSimpArgs false
set_option linter.unusedTactic false
set_option linter.unreachableTactic false

namespace Sys2Proof.Machine

theorem storeDump_touches (s : State) (skip : Nat) (h : BitVec 256) (body : Nat) : Touches [.fw] s (storeDump s skip h body) := by
  unfold storeDump
  try dsimp only
  repeat' first
    | with_reducible exact .refl
    | simp only [Touches.mk_iff, Touches.ite_iff]
    | with_reducible refine And.intro (fun _ => ?_) (fun _ => ?_)
    | ((with_reducible refine Leaf.of rfl (fun p hp => ?_) ?_); (cases p <;> first | exact absurd hp (by decide) | (show _ = _; with_reducible rfl) | rfl | (show _ = _; unfold openStep; split <;> rfl)))

theorem fullDump_touches (s : State) (skip : Nat) (trig : Nat) (source : Nat) (part : Nat) (size : Nat) : Touches [.fw, .free] s (fullDump s skip trig source part size) := by
  unfold fullDump
  try dsimp only
  repeat' first
    | with_reducible exact .refl
    | simp only [Touches.mk_iff, Touches.ite_iff]
    | with_reducible refine And.intro (fun _ => ?_) (fun _ => ?_)
    | ((with_reducible refine Leaf.of rfl (fun p hp => ?_) ?_); (cases p <;> first | exact absurd hp (by decide) | (show _ = _; with_reducible rfl) | rfl | (show _ = _; unfold openStep; split <;> rfl)))
    | ((with_reducible apply Touches.step (storeDump_touches _ _ _ _)); · decide)
    | ((with_reducible apply Touches.step (drawn_touches _)); · decide)

theorem flashSummary_touches (s : State) (trig : Nat) (source : Nat) (part : Nat) : Touches [.fw, .free] s (flashSummary s trig source part) := by
  unfold flashSummary
  try dsimp only
  repeat' first
    | with_reducible exact .refl
    | simp only [Touches.mk_iff, Touches.ite_iff]
    | with_reducible refine And.intro (fun _ => ?_) (fun _ => ?_)
    | ((with_reducible refine Leaf.of rfl (fun p hp => ?_) ?_); (cases p <;> first | exact absurd hp (by decide) | (show _ = _; with_reducible rfl) | rfl | (show _ = _; unfold openStep; split <;> rfl)))
    | ((with_reducible apply Touches.step (drawn_touches _)); · decide)

theorem outOfService_touches (s : State) : Touches [.devState, .dev, .host, .cores, .links, .topo, .tests, .meas, .sec, .sent] s (outOfService s) := by
  unfold outOfService
  try dsimp only
  repeat' first
    | with_reducible exact .refl
    | simp only [Touches.mk_iff, Touches.ite_iff]
    | with_reducible refine And.intro (fun _ => ?_) (fun _ => ?_)
    | ((with_reducible refine Leaf.of rfl (fun p hp => ?_) ?_); (cases p <;> first | exact absurd hp (by decide) | (show _ = _; with_reducible rfl) | rfl | (show _ = _; unfold openStep; split <;> rfl)))
    | ((with_reducible apply Touches.step (changeState_touches _ _)); · decide)

theorem partLinkDown_touches (s : State) (l : Nat) : Touches [.host, .ctxs, .links, .topo, .sent] s (partLinkDown s l) := by
  unfold partLinkDown
  try dsimp only
  repeat' first
    | with_reducible exact .refl
    | simp only [Touches.mk_iff, Touches.ite_iff]
    | with_reducible refine And.intro (fun _ => ?_) (fun _ => ?_)
    | ((with_reducible refine Leaf.of rfl (fun p hp => ?_) ?_); (cases p <;> first | exact absurd hp (by decide) | (show _ = _; with_reducible rfl) | rfl | (show _ = _; unfold openStep; split <;> rfl)))
    | ((with_reducible apply Touches.step (onLink_touches _ _ _)); · decide)
    | ((with_reducible apply Touches.step (resend_touches _ _ _)); · decide)
    | ((with_reducible apply Touches.step (postLink_touches _ _)); · decide)

theorem partLinksDown_touches (s : State) (p : Nat) : Touches [.host, .ctxs, .links, .topo, .sent] s (partLinksDown s p) := by
  unfold partLinksDown
  try dsimp only
  repeat' first
    | with_reducible exact .refl
    | simp only [Touches.mk_iff, Touches.ite_iff]
    | with_reducible refine And.intro (fun _ => ?_) (fun _ => ?_)
    | ((with_reducible refine Leaf.of rfl (fun p hp => ?_) ?_); (cases p <;> first | exact absurd hp (by decide) | (show _ = _; with_reducible rfl) | rfl | (show _ = _; unfold openStep; split <;> rfl)))
    | ((with_reducible apply Touches.step (leaveOn_touches _ _ _)); · decide)
    | ((with_reducible apply Touches.step (partLinkDown_touches _ _)); · decide)
    | (with_reducible apply Touches.fold (fun _ _ => ?_))

theorem restoreFails_touches (s : State) (reason : Nat) (cut : Nat) : Touches [.host, .ctxs, .ckpt, .sent] s (restoreFails s reason cut) := by
  unfold restoreFails
  try dsimp only
  repeat' first
    | with_reducible exact .refl
    | simp only [Touches.mk_iff, Touches.ite_iff]
    | with_reducible refine And.intro (fun _ => ?_) (fun _ => ?_)
    | ((with_reducible refine Leaf.of rfl (fun p hp => ?_) ?_); (cases p <;> first | exact absurd hp (by decide) | (show _ = _; with_reducible rfl) | rfl | (show _ = _; unfold openStep; split <;> rfl)))
    | ((with_reducible apply Touches.step (post_touches _ _ _ _ _)); · decide)
    | (with_reducible apply Touches.fold (fun _ _ => ?_))
    | split

theorem partContents_touches (s : State) (p : Nat) : Touches [.staging, .poison, .vers, .fetch, .steps, .coll, .free] s (partContents s p) := by
  unfold partContents
  try dsimp only
  repeat' first
    | with_reducible exact .refl
    | simp only [Touches.mk_iff, Touches.ite_iff]
    | with_reducible refine And.intro (fun _ => ?_) (fun _ => ?_)
    | ((with_reducible refine Leaf.of rfl (fun p hp => ?_) ?_); (cases p <;> first | exact absurd hp (by decide) | (show _ = _; with_reducible rfl) | rfl | (show _ = _; unfold openStep; split <;> rfl)))

theorem pairsCut_touches (s : State) (p : Nat) : Touches [.recov] s (pairsCut s p) := by
  unfold pairsCut
  try dsimp only
  repeat' first
    | with_reducible exact .refl
    | simp only [Touches.mk_iff, Touches.ite_iff]
    | with_reducible refine And.intro (fun _ => ?_) (fun _ => ?_)
    | ((with_reducible refine Leaf.of rfl (fun p hp => ?_) ?_); (cases p <;> first | exact absurd hp (by decide) | (show _ = _; with_reducible rfl) | rfl | (show _ = _; unfold openStep; split <;> rfl)))
    | ((with_reducible apply Touches.step (loseJob_touches _ _)); · decide)

theorem partResetRun_touches (s : State) (p : Nat) (cause : Nat) : Touches [.devState, .dev, .domains, .dict, .owner, .host, .staging, .poison, .ctxs, .vers, .fetch, .results, .cores, .steps, .sync, .chans, .coll, .num, .place, .mem, .links, .topo, .ckpt, .ledger, .tests, .fenceSet, .recov, .fw, .meas, .sec, .sent, .free] s (partResetRun s p cause) := by
  unfold partResetRun
  try dsimp only
  repeat' first
    | with_reducible exact .refl
    | simp only [Touches.mk_iff, Touches.ite_iff]
    | with_reducible refine And.intro (fun _ => ?_) (fun _ => ?_)
    | ((with_reducible refine Leaf.of rfl (fun p hp => ?_) ?_); (cases p <;> first | exact absurd hp (by decide) | (show _ = _; with_reducible rfl) | rfl | (show _ = _; unfold openStep; split <;> rfl)))
    | ((with_reducible apply Touches.step (failSteps_touches _ _)); · decide)
    | ((with_reducible apply Touches.step (holdAbort_touches _)); · decide)
    | ((with_reducible apply Touches.step (keepReadings_touches _ _)); · decide)
    | ((with_reducible apply Touches.step (loseJob_touches _ _)); · decide)
    | ((with_reducible apply Touches.step (post_touches _ _ _ _ _)); · decide)
    | ((with_reducible apply Touches.step (gallopStop_touches _)); · decide)
    | ((with_reducible apply Touches.step (enterRecovery_touches _)); · decide)
    | ((with_reducible apply Touches.step (pairsCut_touches _ _)); · decide)
    | ((with_reducible apply Touches.step (partLinksDown_touches _ _)); · decide)
    | ((with_reducible apply Touches.step (partContents_touches _ _)); · decide)
    | ((with_reducible apply Touches.step (domainsOff_touches _ _)); · decide)
    | ((with_reducible apply Touches.step (restoreFails_touches _ _ _)); · decide)
    | ((with_reducible apply Touches.step (abandonAll_touches _ _)); · decide)
    | ((with_reducible apply Touches.step (discardOn_touches _ _ _)); · decide)
    | ((with_reducible apply Touches.step (outOfService_touches _)); · decide)

theorem partReset_touches (s : State) (p : Nat) (cause : Nat) : Touches [.devState, .dev, .domains, .dict, .owner, .host, .staging, .poison, .ctxs, .vers, .fetch, .results, .cores, .steps, .sync, .chans, .coll, .num, .place, .mem, .links, .topo, .ckpt, .ledger, .tests, .fenceSet, .recov, .fw, .meas, .sec, .sent, .free] s (partReset s p cause) := by
  unfold partReset
  try dsimp only
  repeat' first
    | with_reducible exact .refl
    | simp only [Touches.mk_iff, Touches.ite_iff]
    | with_reducible refine And.intro (fun _ => ?_) (fun _ => ?_)
    | ((with_reducible refine Leaf.of rfl (fun p hp => ?_) ?_); (cases p <;> first | exact absurd hp (by decide) | (show _ = _; with_reducible rfl) | rfl | (show _ = _; unfold openStep; split <;> rfl)))
    | ((with_reducible apply Touches.step (partResetRun_touches _ _ _)); · decide)
    | ((with_reducible apply Touches.step (failSteps_touches _ _)); · decide)

theorem modReset_touches (s : State) (cause : Nat) : Touches [.devState, .dev, .owner, .host, .ctxs, .vers, .fetch, .results, .cores, .steps, .sync, .chans, .coll, .place, .mem, .links, .topo, .tests, .fenceSet, .recov, .fw, .meas, .sec, .sent, .free] s (modReset s cause) := by
  unfold modReset
  try dsimp only
  repeat' first
    | with_reducible exact .refl
    | simp only [Touches.mk_iff, Touches.ite_iff]
    | with_reducible refine And.intro (fun _ => ?_) (fun _ => ?_)
    | ((with_reducible refine Leaf.of rfl (fun p hp => ?_) ?_); (cases p <;> first | exact absurd hp (by decide) | (show _ = _; with_reducible rfl) | rfl | (show _ = _; unfold openStep; split <;> rfl)))
    | ((with_reducible apply Touches.step (modResetRun_touches _ _)); · decide)
    | ((with_reducible apply Touches.step (failSteps_touches _ _)); · decide)

theorem markQuarantined_touches (s : State) (g : Nat) : Touches [.ledger] s (markQuarantined s g) := by
  unfold markQuarantined
  try dsimp only
  repeat' first
    | with_reducible exact .refl
    | simp only [Touches.mk_iff, Touches.ite_iff]
    | with_reducible refine And.intro (fun _ => ?_) (fun _ => ?_)
    | ((with_reducible refine Leaf.of rfl (fun p hp => ?_) ?_); (cases p <;> first | exact absurd hp (by decide) | (show _ = _; with_reducible rfl) | rfl | (show _ = _; unfold openStep; split <;> rfl)))

theorem takeOut_touches (s : State) (g : Nat) : Touches [.dev, .cores, .place] s (takeOut s g) := by
  unfold takeOut
  try dsimp only
  repeat' first
    | with_reducible exact .refl
    | simp only [Touches.mk_iff, Touches.ite_iff]
    | with_reducible refine And.intro (fun _ => ?_) (fun _ => ?_)
    | ((with_reducible refine Leaf.of rfl (fun p hp => ?_) ?_); (cases p <;> first | exact absurd hp (by decide) | (show _ = _; with_reducible rfl) | rfl | (show _ = _; unfold openStep; split <;> rfl)))
    | ((with_reducible apply Touches.step (onCore__touches _ _ _)); · decide)

theorem quarantine_touches (s : State) (g : Nat) : Touches [.devState, .dev, .owner, .host, .ctxs, .vers, .fetch, .results, .cores, .steps, .sync, .chans, .coll, .num, .place, .mem, .links, .topo, .ledger, .tests, .fenceSet, .recov, .fw, .meas, .sec, .sent, .free] s (quarantine s g) := by
  unfold quarantine
  try dsimp only
  repeat' first
    | with_reducible exact .refl
    | simp only [Touches.mk_iff, Touches.ite_iff]
    | with_reducible refine And.intro (fun _ => ?_) (fun _ => ?_)
    | ((with_reducible refine Leaf.of rfl (fun p hp => ?_) ?_); (cases p <;> first | exact absurd hp (by decide) | (show _ = _; with_reducible rfl) | rfl | (show _ = _; unfold openStep; split <;> rfl)))
    | ((with_reducible apply Touches.step (takeOut_touches _ _)); · decide)
    | ((with_reducible apply Touches.step (onCore__touches _ _ _)); · decide)
    | ((with_reducible apply Touches.step (discardOn_touches _ _ _)); · decide)
    | ((with_reducible apply Touches.step (failSteps_touches _ _)); · decide)
    | ((with_reducible apply Touches.step (outOfService_touches _)); · decide)
    | ((with_reducible apply Touches.step (markQuarantined_touches _ _)); · decide)

theorem quarantinesEnd_touches (s : State) (p : Nat) : Touches [.dev, .cores, .place] s (quarantinesEnd s p) := by
  unfold quarantinesEnd
  try dsimp only
  repeat' first
    | with_reducible exact .refl
    | simp only [Touches.mk_iff, Touches.ite_iff]
    | with_reducible refine And.intro (fun _ => ?_) (fun _ => ?_)
    | ((with_reducible refine Leaf.of rfl (fun p hp => ?_) ?_); (cases p <;> first | exact absurd hp (by decide) | (show _ = _; with_reducible rfl) | rfl | (show _ = _; unfold openStep; split <;> rfl)))
    | ((with_reducible apply Touches.step (onCore__touches _ _ _)); · decide)
    | ((with_reducible apply Touches.step (takeOut_touches _ _)); · decide)
    | (with_reducible apply Touches.fold (fun _ _ => ?_))

theorem stateLoss_touches (s : State) : Touches [.devState, .dev, .owner, .host, .ctxs, .vers, .fetch, .results, .cores, .steps, .sync, .chans, .coll, .place, .mem, .links, .topo, .tests, .fenceSet, .recov, .fw, .meas, .sec, .sent, .free] s (stateLoss s) := by
  unfold stateLoss
  try dsimp only
  repeat' first
    | with_reducible exact .refl
    | simp only [Touches.mk_iff, Touches.ite_iff]
    | with_reducible refine And.intro (fun _ => ?_) (fun _ => ?_)
    | ((with_reducible refine Leaf.of rfl (fun p hp => ?_) ?_); (cases p <;> first | exact absurd hp (by decide) | (show _ = _; with_reducible rfl) | rfl | (show _ = _; unfold openStep; split <;> rfl)))
    | ((with_reducible apply Touches.step (selfFence_touches _)); · decide)
    | ((with_reducible apply Touches.step (failSteps_touches _ _)); · decide)

theorem mirrorLoss_touches (s : State) : Touches [.ctxs, .vers, .mem, .links, .topo, .recov, .sent] s (mirrorLoss s) := by
  unfold mirrorLoss
  try dsimp only
  repeat' first
    | with_reducible exact .refl
    | simp only [Touches.mk_iff, Touches.ite_iff]
    | with_reducible refine And.intro (fun _ => ?_) (fun _ => ?_)
    | ((with_reducible refine Leaf.of rfl (fun p hp => ?_) ?_); (cases p <;> first | exact absurd hp (by decide) | (show _ = _; with_reducible rfl) | rfl | (show _ = _; unfold openStep; split <;> rfl)))
    | ((with_reducible apply Touches.step (tell_touches _ _)); · decide)

theorem retireRow_touches (s : State) (e : Ecc) (bad : Bool) : Touches [.mem, .ledger, .fw, .free] s (retireRow s e bad) := by
  unfold retireRow
  try dsimp only
  repeat' first
    | with_reducible exact .refl
    | simp only [Touches.mk_iff, Touches.ite_iff]
    | with_reducible refine And.intro (fun _ => ?_) (fun _ => ?_)
    | ((with_reducible refine Leaf.of rfl (fun p hp => ?_) ?_); (cases p <;> first | exact absurd hp (by decide) | (show _ = _; with_reducible rfl) | rfl | (show _ = _; unfold openStep; split <;> rfl)))
    | ((with_reducible apply Touches.step (faultEvent_touches _ _)); · decide)

theorem eccCorr_touches (s : State) (e : Ecc) : Touches [.mem, .ledger, .fw, .free] s (eccCorr s e) := by
  unfold eccCorr
  try dsimp only
  repeat' first
    | with_reducible exact .refl
    | simp only [Touches.mk_iff, Touches.ite_iff]
    | with_reducible refine And.intro (fun _ => ?_) (fun _ => ?_)
    | ((with_reducible refine Leaf.of rfl (fun p hp => ?_) ?_); (cases p <;> first | exact absurd hp (by decide) | (show _ = _; with_reducible rfl) | rfl | (show _ = _; unfold openStep; split <;> rfl)))
    | ((with_reducible apply Touches.step (retireRow_touches _ _ _)); · decide)

theorem storeCleared_touches (s : State) (g : Nat) : Touches [.vers, .free] s (storeCleared s g) := by
  unfold storeCleared
  try dsimp only
  repeat' first
    | with_reducible exact .refl
    | simp only [Touches.mk_iff, Touches.ite_iff]
    | with_reducible refine And.intro (fun _ => ?_) (fun _ => ?_)
    | ((with_reducible refine Leaf.of rfl (fun p hp => ?_) ?_); (cases p <;> first | exact absurd hp (by decide) | (show _ = _; with_reducible rfl) | rfl | (show _ = _; unfold openStep; split <;> rfl)))

theorem coreReset_touches (s : State) (g : Nat) : Touches [.devState, .dev, .owner, .host, .ctxs, .vers, .fetch, .results, .cores, .steps, .sync, .chans, .coll, .num, .place, .mem, .links, .topo, .ledger, .tests, .fenceSet, .recov, .fw, .meas, .sec, .sent, .free] s (coreReset s g) := by
  unfold coreReset
  try dsimp only
  repeat' first
    | with_reducible exact .refl
    | simp only [Touches.mk_iff, Touches.ite_iff]
    | with_reducible refine And.intro (fun _ => ?_) (fun _ => ?_)
    | ((with_reducible refine Leaf.of rfl (fun p hp => ?_) ?_); (cases p <;> first | exact absurd hp (by decide) | (show _ = _; with_reducible rfl) | rfl | (show _ = _; unfold openStep; split <;> rfl)))
    | ((with_reducible apply Touches.step (discardOn_touches _ _ _)); · decide)
    | ((with_reducible apply Touches.step (storeCleared_touches _ _)); · decide)
    | ((with_reducible apply Touches.step (onCore__touches _ _ _)); · decide)
    | ((with_reducible apply Touches.step (quarantine_touches _ _)); · decide)

theorem heldBack_touches (s : State) (e : Ecc) : Touches [.devState, .dev, .owner, .host, .ctxs, .vers, .fetch, .results, .cores, .steps, .sync, .chans, .coll, .num, .place, .mem, .links, .topo, .ledger, .tests, .fenceSet, .recov, .fw, .meas, .sec, .sent, .free] s (heldBack s e) := by
  unfold heldBack
  try dsimp only
  repeat' first
    | with_reducible exact .refl
    | simp only [Touches.mk_iff, Touches.ite_iff]
    | with_reducible refine And.intro (fun _ => ?_) (fun _ => ?_)
    | ((with_reducible refine Leaf.of rfl (fun p hp => ?_) ?_); (cases p <;> first | exact absurd hp (by decide) | (show _ = _; with_reducible rfl) | rfl | (show _ = _; unfold openStep; split <;> rfl)))
    | ((with_reducible apply Touches.step (drawn_touches _)); · decide)
    | ((with_reducible apply Touches.step (stateLoss_touches _)); · decide)
    | ((with_reducible apply Touches.step (linkDown_touches _ _ _)); · decide)
    | ((with_reducible apply Touches.step (coreReset_touches _ _)); · decide)
    | ((with_reducible apply Touches.step (failSteps_touches _ _)); · decide)
    | (with_reducible apply Touches.fold (fun _ _ => ?_))
    | split

theorem stagingPoison_touches (s : State) (e : Ecc) : Touches [.poison, .mem, .free] s (stagingPoison s e) := by
  unfold stagingPoison
  try dsimp only
  repeat' first
    | with_reducible exact .refl
    | simp only [Touches.mk_iff, Touches.ite_iff]
    | with_reducible refine And.intro (fun _ => ?_) (fun _ => ?_)
    | ((with_reducible refine Leaf.of rfl (fun p hp => ?_) ?_); (cases p <;> first | exact absurd hp (by decide) | (show _ = _; with_reducible rfl) | rfl | (show _ = _; unfold openStep; split <;> rfl)))

theorem contentAct_touches (s : State) (e : Ecc) (read : Bool) : Touches [.devState, .dev, .owner, .host, .poison, .ctxs, .vers, .fetch, .results, .cores, .steps, .sync, .chans, .coll, .num, .place, .mem, .links, .topo, .ledger, .tests, .fenceSet, .recov, .fw, .meas, .sec, .sent, .free] s (contentAct s e read) := by
  unfold contentAct
  try dsimp only
  repeat' first
    | with_reducible exact .refl
    | simp only [Touches.mk_iff, Touches.ite_iff]
    | with_reducible refine And.intro (fun _ => ?_) (fun _ => ?_)
    | ((with_reducible refine Leaf.of rfl (fun p hp => ?_) ?_); (cases p <;> first | exact absurd hp (by decide) | (show _ = _; with_reducible rfl) | rfl | (show _ = _; unfold openStep; split <;> rfl)))
    | ((with_reducible apply Touches.step (heldBack_touches _ _)); · decide)
    | ((with_reducible apply Touches.step (stagingPoison_touches _ _)); · decide)
    | ((with_reducible apply Touches.step (mirrorLoss_touches _)); · decide)
    | ((with_reducible apply Touches.step (stateLoss_touches _)); · decide)
    | ((with_reducible apply Touches.step (failSteps_touches _ _)); · decide)
    | (with_reducible apply Touches.fold (fun _ _ => ?_))
    | split

theorem eccUncorr_touches (s : State) (e : Ecc) (read : Bool) (pc : Nat) : Touches [.devState, .dev, .owner, .host, .poison, .ctxs, .vers, .fetch, .results, .cores, .steps, .sync, .chans, .coll, .num, .place, .mem, .links, .topo, .ledger, .tests, .fenceSet, .recov, .fw, .meas, .sec, .sent, .free] s (eccUncorr s e read pc) := by
  unfold eccUncorr
  try dsimp only
  repeat' first
    | with_reducible exact .refl
    | simp only [Touches.mk_iff, Touches.ite_iff]
    | with_reducible refine And.intro (fun _ => ?_) (fun _ => ?_)
    | ((with_reducible refine Leaf.of rfl (fun p hp => ?_) ?_); (cases p <;> first | exact absurd hp (by decide) | (show _ = _; with_reducible rfl) | rfl | (show _ = _; unfold openStep; split <;> rfl)))
    | ((with_reducible apply Touches.step (faultEvent_touches _ _)); · decide)
    | ((with_reducible apply Touches.step (retireRow_touches _ _ _)); · decide)
    | ((with_reducible apply Touches.step (contentAct_touches _ _ _)); · decide)

theorem eccHit_touches (s : State) (e : Ecc) (read : Bool) (pc : Nat) : Touches [.devState, .dev, .owner, .host, .poison, .ctxs, .vers, .fetch, .results, .cores, .steps, .sync, .chans, .coll, .num, .place, .mem, .links, .topo, .ledger, .tests, .fenceSet, .recov, .fw, .meas, .sec, .sent, .free] s (eccHit s e read pc) := by
  unfold eccHit
  try dsimp only
  repeat' first
    | with_reducible exact .refl
    | simp only [Touches.mk_iff, Touches.ite_iff]
    | with_reducible refine And.intro (fun _ => ?_) (fun _ => ?_)
    | ((with_reducible refine Leaf.of rfl (fun p hp => ?_) ?_); (cases p <;> first | exact absurd hp (by decide) | (show _ = _; with_reducible rfl) | rfl | (show _ = _; unfold openStep; split <;> rfl)))
    | ((with_reducible apply Touches.step (eccCorr_touches _ _)); · decide)
    | ((with_reducible apply Touches.step (eccUncorr_touches _ _ _ _)); · decide)

theorem eccHits_touches (s : State) (c : Nat) (task : Nat) (es : List Ecc) : Touches [.devState, .dev, .owner, .host, .poison, .ctxs, .vers, .fetch, .results, .cores, .steps, .sync, .chans, .coll, .num, .place, .mem, .links, .topo, .ledger, .tests, .fenceSet, .recov, .fw, .meas, .sec, .sent, .free] s (eccHits s c task es) := by
  unfold eccHits
  try dsimp only
  repeat' first
    | with_reducible exact .refl
    | simp only [Touches.mk_iff, Touches.ite_iff]
    | with_reducible refine And.intro (fun _ => ?_) (fun _ => ?_)
    | ((with_reducible refine Leaf.of rfl (fun p hp => ?_) ?_); (cases p <;> first | exact absurd hp (by decide) | (show _ = _; with_reducible rfl) | rfl | (show _ = _; unfold openStep; split <;> rfl)))
    | ((with_reducible apply Touches.step (eccHit_touches _ _ _ _)); · decide)
    | (with_reducible apply Touches.fold (fun _ _ => ?_))

end Sys2Proof.Machine
end

