-- ==== Sys2Proof/Laws/TouchHostOps.lean ====
section
/-! SUPPORT. What each operation and meaning of Machine/HostOps.lean can change. -/

set_option linter.unusedSimpArgs false
set_option linter.unusedTactic false
set_option linter.unreachableTactic false

namespace Sys2Proof.Machine

theorem tagFail_touches (s : State) : Touches [.host] s (tagFail s) := by
  unfold tagFail
  try dsimp only
  repeat' first
    | with_reducible exact .refl
    | simp only [Touches.mk_iff, Touches.ite_iff]
    | with_reducible refine And.intro (fun _ => ?_) (fun _ => ?_)
    | ((with_reducible refine Leaf.of rfl (fun p hp => ?_) ?_); (cases p <;> first | exact absurd hp (by decide) | (show _ = _; with_reducible rfl) | rfl | (show _ = _; unfold openStep; split <;> rfl)))

theorem heard_touches (s : State) (slot : Fin 9) : Touches [.host] s (heard s slot) := by
  unfold heard
  try dsimp only
  repeat' first
    | with_reducible exact .refl
    | simp only [Touches.mk_iff, Touches.ite_iff]
    | with_reducible refine And.intro (fun _ => ?_) (fun _ => ?_)
    | ((with_reducible refine Leaf.of rfl (fun p hp => ?_) ?_); (cases p <;> first | exact absurd hp (by decide) | (show _ = _; with_reducible rfl) | rfl | (show _ = _; unfold openStep; split <;> rfl)))

theorem door_touches {s t : State} {src : Src} (h : door s src = some t) : Touches [.host, .sent] s t := by
  unfold door at h
  repeat' split at h
  all_goals cases h
  all_goals first
    | with_reducible exact .refl
    | exact (tagFail_touches s).mono (by decide)
    | exact .step (emit_touches _ _) (by decide) ((heard_touches s _).mono (by decide))

theorem renewLease_touches (s : State) (m : Fin 9) : Touches [.host] s (renewLease s m) := by
  unfold renewLease
  try dsimp only
  repeat' first
    | with_reducible exact .refl
    | simp only [Touches.mk_iff, Touches.ite_iff]
    | with_reducible refine And.intro (fun _ => ?_) (fun _ => ?_)
    | ((with_reducible refine Leaf.of rfl (fun p hp => ?_) ?_); (cases p <;> first | exact absurd hp (by decide) | (show _ = _; with_reducible rfl) | rfl | (show _ = _; unfold openStep; split <;> rfl)))

theorem accepted_touches (s : State) (src : Src) (ty : Nat) (value : Nat) (body : List Byte) : Touches [.host, .sent] s (accepted s src ty value body) := by
  unfold accepted
  try dsimp only
  repeat' first
    | with_reducible exact .refl
    | simp only [Touches.mk_iff, Touches.ite_iff]
    | with_reducible refine And.intro (fun _ => ?_) (fun _ => ?_)
    | ((with_reducible refine Leaf.of rfl (fun p hp => ?_) ?_); (cases p <;> first | exact absurd hp (by decide) | (show _ = _; with_reducible rfl) | rfl | (show _ = _; unfold openStep; split <;> rfl)))
    | ((with_reducible apply Touches.step (renewLease_touches _ _)); · decide)
    | ((with_reducible apply Touches.step (reply_touches _ _ _ _ _ _)); · decide)

theorem setOwner_touches (s : State) (o : Option (Fin 9)) (prio : Nat) (slot : Nat) : Touches [.owner, .host, .sent] s (setOwner s o prio slot) := by
  unfold setOwner
  try dsimp only
  repeat' first
    | with_reducible exact .refl
    | simp only [Touches.mk_iff, Touches.ite_iff]
    | with_reducible refine And.intro (fun _ => ?_) (fun _ => ?_)
    | ((with_reducible refine Leaf.of rfl (fun p hp => ?_) ?_); (cases p <;> first | exact absurd hp (by decide) | (show _ = _; with_reducible rfl) | rfl | (show _ = _; unfold openStep; split <;> rfl)))
    | ((with_reducible apply Touches.step (post_touches _ _ _ _ _)); · decide)

theorem passOwnership_touches (s : State) : Touches [.owner, .host, .sent] s (passOwnership s) := by
  unfold passOwnership
  try dsimp only
  repeat' first
    | with_reducible exact .refl
    | simp only [Touches.mk_iff, Touches.ite_iff]
    | with_reducible refine And.intro (fun _ => ?_) (fun _ => ?_)
    | ((with_reducible refine Leaf.of rfl (fun p hp => ?_) ?_); (cases p <;> first | exact absurd hp (by decide) | (show _ = _; with_reducible rfl) | rfl | (show _ = _; unfold openStep; split <;> rfl)))
    | ((with_reducible apply Touches.step (setOwner_touches _ _ _ _)); · decide)
    | (with_reducible apply Touches.fold (fun _ _ => ?_))
    | split

theorem seqTaken_touches (s : State) (src : Src) : Touches [.host] s (seqTaken s src) := by
  unfold seqTaken
  try dsimp only
  repeat' first
    | with_reducible exact .refl
    | simp only [Touches.mk_iff, Touches.ite_iff]
    | with_reducible refine And.intro (fun _ => ?_) (fun _ => ?_)
    | ((with_reducible refine Leaf.of rfl (fun p hp => ?_) ?_); (cases p <;> first | exact absurd hp (by decide) | (show _ = _; with_reducible rfl) | rfl | (show _ = _; unfold openStep; split <;> rfl)))

theorem hostCommand_touches {W : List StatePart} {s x : State} {src : Src} {key size value own : Nat} {effect : State → State}
    (hw : partsWithin [.host, .fw, .sent] W = true) (he : ∀ u, Touches W u (effect u)) (h : Touches W s x) :
    Touches W s (hostCommand x src key size value own effect) := by
  unfold hostCommand
  dsimp only
  repeat' split
  · rename_i hd
    exact h.trans (((door_touches hd).mono (by decide : partsWithin _ [.host, .fw, .sent] = true)).mono hw)
  · exact .step ((illegal_touches _ _ _ _ _ _).mono (by decide : partsWithin _ [.host, .fw, .sent] = true)) hw h
  · exact .step ((illegal_touches _ _ _ _ _ _).mono (by decide : partsWithin _ [.host, .fw, .sent] = true)) hw h
  · refine .step (V := [.host, .fw, .sent]) ?_ hw h
    exact .step (seqTaken_touches _ _) (by decide) (.step (renewLease_touches _ _) (by decide) ((onOstler_touches _ _ _).mono (by decide)))
  · exact .step ((accepted_touches _ _ _ _ _).mono (by decide : partsWithin _ [.host, .fw, .sent] = true)) hw (h.trans (he x))

theorem putValue_touches (s : State) (key : Nat) (value : Nat) : Touches [.vals, .dict] s (putValue s key value) := by
  unfold putValue
  try dsimp only
  repeat' first
    | with_reducible exact .refl
    | simp only [Touches.mk_iff, Touches.ite_iff]
    | with_reducible refine And.intro (fun _ => ?_) (fun _ => ?_)
    | ((with_reducible refine Leaf.of rfl (fun p hp => ?_) ?_); (cases p <;> first | exact absurd hp (by decide) | (show _ = _; with_reducible rfl) | rfl | (show _ = _; unfold openStep; split <;> rfl)))

theorem stagePut_touches (s : State) (off : Nat) (bs : List Byte) : Touches [.staging, .poison] s (stagePut s off bs) := by
  unfold stagePut
  try dsimp only
  repeat' first
    | with_reducible exact .refl
    | simp only [Touches.mk_iff, Touches.ite_iff]
    | with_reducible refine And.intro (fun _ => ?_) (fun _ => ?_)
    | ((with_reducible refine Leaf.of rfl (fun p hp => ?_) ?_); (cases p <;> first | exact absurd hp (by decide) | (show _ = _; with_reducible rfl) | rfl | (show _ = _; unfold openStep; split <;> rfl)))

theorem moduleStages_touches (s : State) (off : Nat) (bs : List Byte) : Touches [.staging, .poison, .sent] s (moduleStages s off bs) := by
  unfold moduleStages
  try dsimp only
  repeat' first
    | with_reducible exact .refl
    | simp only [Touches.mk_iff, Touches.ite_iff]
    | with_reducible refine And.intro (fun _ => ?_) (fun _ => ?_)
    | ((with_reducible refine Leaf.of rfl (fun p hp => ?_) ?_); (cases p <;> first | exact absurd hp (by decide) | (show _ = _; with_reducible rfl) | rfl | (show _ = _; unfold openStep; split <;> rfl)))
    | ((with_reducible apply Touches.step (emit_touches _ _)); · decide)
    | ((with_reducible apply Touches.step (stagePut_touches _ _ _)); · decide)

end Sys2Proof.Machine
end

