-- ==== Sys2Proof/Laws/TouchIssue.lean ====
section
/-! SUPPORT. What each operation and meaning of Machine/Issue.lean can change. -/

set_option linter.unusedSimpArgs false
set_option linter.unusedTactic false
set_option linter.unreachableTactic false

namespace Sys2Proof.Machine

theorem onStep_touches (s : State) (n : Nat) (f : OpenStep → OpenStep) : Touches [.steps] s (onStep s n f) := by
  unfold onStep
  try dsimp only
  repeat' first
    | with_reducible exact .refl
    | simp only [Touches.mk_iff, Touches.ite_iff]
    | with_reducible refine And.intro (fun _ => ?_) (fun _ => ?_)
    | ((with_reducible refine Leaf.of rfl (fun p hp => ?_) ?_); (cases p <;> first | exact absurd hp (by decide) | (show _ = _; with_reducible rfl) | rfl | (show _ = _; unfold openStep; split <;> rfl)))

theorem noteWait_touches (s : State) (c : Nat) : Touches [.ctxs] s (noteWait s c) := by
  unfold noteWait
  try dsimp only
  repeat' first
    | with_reducible exact .refl
    | simp only [Touches.mk_iff, Touches.ite_iff]
    | with_reducible refine And.intro (fun _ => ?_) (fun _ => ?_)
    | ((with_reducible refine Leaf.of rfl (fun p hp => ?_) ?_); (cases p <;> first | exact absurd hp (by decide) | (show _ = _; with_reducible rfl) | rfl | (show _ = _; unfold openStep; split <;> rfl)))
    | ((with_reducible apply Touches.step (onCtx_touches _ _ _)); · decide)
    | (with_reducible apply Touches.fold (fun _ _ => ?_))
    | split

theorem noteWaits_touches (s : State) : Touches [.ctxs] s (noteWaits s) := by
  unfold noteWaits
  try dsimp only
  repeat' first
    | with_reducible exact .refl
    | simp only [Touches.mk_iff, Touches.ite_iff]
    | with_reducible refine And.intro (fun _ => ?_) (fun _ => ?_)
    | ((with_reducible refine Leaf.of rfl (fun p hp => ?_) ?_); (cases p <;> first | exact absurd hp (by decide) | (show _ = _; with_reducible rfl) | rfl | (show _ = _; unfold openStep; split <;> rfl)))
    | ((with_reducible apply Touches.step (noteWait_touches _ _)); · decide)
    | (with_reducible apply Touches.fold (fun _ _ => ?_))

theorem pushPieces_touches (s : State) (l : List (Nat × Piece)) : Touches [.cores] s (pushPieces s l).1 := by
  induction l generalizing s with
  | nil => exact .refl
  | cons a l ih =>
    unfold pushPieces
    split
    · exact ((onCore__touches s _ _).mono (by decide)).trans (ih _)
    · exact .refl

theorem pushFor_touches (s : State) (c : Nat) (l : List (Nat × Piece)) : Touches [.ctxs, .cores] s (pushFor s c l) := by
  unfold pushFor
  try dsimp only
  repeat' first
    | with_reducible exact .refl
    | simp only [Touches.mk_iff, Touches.ite_iff]
    | with_reducible refine And.intro (fun _ => ?_) (fun _ => ?_)
    | ((with_reducible refine Leaf.of rfl (fun p hp => ?_) ?_); (cases p <;> first | exact absurd hp (by decide) | (show _ = _; with_reducible rfl) | rfl | (show _ = _; unfold openStep; split <;> rfl)))
    | ((with_reducible apply Touches.step (onCtx_touches _ _ _)); · decide)
    | ((with_reducible apply Touches.step (pushPieces_touches _ _)); · decide)

theorem dispatchTask_touches (s : State) (c : Nat) (ps : List (Nat × Piece)) : Touches [.ctxs, .cores, .steps] s (dispatchTask s c ps) := by
  unfold dispatchTask
  try dsimp only
  repeat' first
    | with_reducible exact .refl
    | simp only [Touches.mk_iff, Touches.ite_iff]
    | with_reducible refine And.intro (fun _ => ?_) (fun _ => ?_)
    | ((with_reducible refine Leaf.of rfl (fun p hp => ?_) ?_); (cases p <;> first | exact absurd hp (by decide) | (show _ = _; with_reducible rfl) | rfl | (show _ = _; unfold openStep; split <;> rfl)))
    | ((with_reducible apply Touches.step (onStep_touches _ _ _)); · decide)
    | ((with_reducible apply Touches.step (onCtx_touches _ _ _)); · decide)
    | ((with_reducible apply Touches.step (pushFor_touches _ _ _)); · decide)

theorem dispatchColl_touches (s : State) (c : Nat) : Touches [.ctxs, .steps] s (dispatchColl s c) := by
  unfold dispatchColl
  try dsimp only
  repeat' first
    | with_reducible exact .refl
    | simp only [Touches.mk_iff, Touches.ite_iff]
    | with_reducible refine And.intro (fun _ => ?_) (fun _ => ?_)
    | ((with_reducible refine Leaf.of rfl (fun p hp => ?_) ?_); (cases p <;> first | exact absurd hp (by decide) | (show _ = _; with_reducible rfl) | rfl | (show _ = _; unfold openStep; split <;> rfl)))
    | ((with_reducible apply Touches.step (onStep_touches _ _ _)); · decide)
    | ((with_reducible apply Touches.step (onCtx_touches _ _ _)); · decide)
    | ((with_reducible apply Touches.step (noteWait_touches _ _)); · decide)

theorem execTaskDispatch_touches (ctx : Fin 16) (task : Nat) (s : State) : OutTouches [.ctxs, .cores, .steps] s (execTaskDispatch ctx task s) := by
  unfold execTaskDispatch
  try dsimp only
  repeat' first
    | with_reducible exact .refl
    | with_reducible apply OutTouches.next
    | with_reducible exact OutTouches.fault
    | simp only [Touches.mk_iff, Touches.ite_iff]
    | with_reducible refine And.intro (fun _ => ?_) (fun _ => ?_)
    | ((with_reducible refine Leaf.of rfl (fun p hp => ?_) ?_); (cases p <;> first | exact absurd hp (by decide) | (show _ = _; with_reducible rfl) | rfl | (show _ = _; unfold openStep; split <;> rfl)))
    | ((with_reducible apply Touches.step (dispatchTask_touches _ _ _)); · decide)
    | ((with_reducible apply Touches.step (dispatchColl_touches _ _)); · decide)
    | (with_reducible apply Touches.fold (fun _ _ => ?_))
    | split

theorem execQueueRoomFreed_touches (ctx : Fin 16) (s : State) : OutTouches [.ctxs, .cores] s (execQueueRoomFreed ctx s) := by
  unfold execQueueRoomFreed
  try dsimp only
  repeat' first
    | with_reducible exact .refl
    | with_reducible apply OutTouches.next
    | with_reducible exact OutTouches.fault
    | simp only [Touches.mk_iff, Touches.ite_iff]
    | with_reducible refine And.intro (fun _ => ?_) (fun _ => ?_)
    | ((with_reducible refine Leaf.of rfl (fun p hp => ?_) ?_); (cases p <;> first | exact absurd hp (by decide) | (show _ = _; with_reducible rfl) | rfl | (show _ = _; unfold openStep; split <;> rfl)))
    | ((with_reducible apply Touches.step (pushFor_touches _ _ _)); · decide)
    | (with_reducible apply Touches.fold (fun _ _ => ?_))
    | split

theorem trotSweeps_touches (s : State) (g : Nat) (pclass : Nat) : Touches [.cores] s (trotSweeps s g pclass) := by
  unfold trotSweeps
  try dsimp only
  repeat' first
    | with_reducible exact .refl
    | simp only [Touches.mk_iff, Touches.ite_iff]
    | with_reducible refine And.intro (fun _ => ?_) (fun _ => ?_)
    | ((with_reducible refine Leaf.of rfl (fun p hp => ?_) ?_); (cases p <;> first | exact absurd hp (by decide) | (show _ = _; with_reducible rfl) | rfl | (show _ = _; unfold openStep; split <;> rfl)))
    | ((with_reducible apply Touches.step (onCore__touches _ _ _)); · decide)

theorem sweepsEnd_touches (s : State) (g : Nat) (pclass : Nat) : Touches [.cores] s (sweepsEnd s g pclass) := by
  unfold sweepsEnd
  try dsimp only
  repeat' first
    | with_reducible exact .refl
    | simp only [Touches.mk_iff, Touches.ite_iff]
    | with_reducible refine And.intro (fun _ => ?_) (fun _ => ?_)
    | ((with_reducible refine Leaf.of rfl (fun p hp => ?_) ?_); (cases p <;> first | exact absurd hp (by decide) | (show _ = _; with_reducible rfl) | rfl | (show _ = _; unfold openStep; split <;> rfl)))
    | ((with_reducible apply Touches.step (onCore__touches _ _ _)); · decide)

theorem enqueueChecks_touches (s : State) (far : Nat) (ks : List CheckPiece) : Touches [.cores] s (enqueueChecks s far ks) := by
  unfold enqueueChecks
  try dsimp only
  repeat' first
    | with_reducible exact .refl
    | simp only [Touches.mk_iff, Touches.ite_iff]
    | with_reducible refine And.intro (fun _ => ?_) (fun _ => ?_)
    | ((with_reducible refine Leaf.of rfl (fun p hp => ?_) ?_); (cases p <;> first | exact absurd hp (by decide) | (show _ = _; with_reducible rfl) | rfl | (show _ = _; unfold openStep; split <;> rfl)))
    | ((with_reducible apply Touches.step (onCore__touches _ _ _)); · decide)

theorem stallPiece_touches (s : State) (g : Nat) (pc : Piece) : Touches [.vers] s (stallPiece s g pc) := by
  unfold stallPiece
  try dsimp only
  repeat' first
    | with_reducible exact .refl
    | simp only [Touches.mk_iff, Touches.ite_iff]
    | with_reducible refine And.intro (fun _ => ?_) (fun _ => ?_)
    | ((with_reducible refine Leaf.of rfl (fun p hp => ?_) ?_); (cases p <;> first | exact absurd hp (by decide) | (show _ = _; with_reducible rfl) | rfl | (show _ = _; unfold openStep; split <;> rfl)))

theorem waitedOver_touches (s : State) (pc : Piece) : Touches [.vers] s (waitedOver s pc) := by
  unfold waitedOver
  try dsimp only
  repeat' first
    | with_reducible exact .refl
    | simp only [Touches.mk_iff, Touches.ite_iff]
    | with_reducible refine And.intro (fun _ => ?_) (fun _ => ?_)
    | ((with_reducible refine Leaf.of rfl (fun p hp => ?_) ?_); (cases p <;> first | exact absurd hp (by decide) | (show _ = _; with_reducible rfl) | rfl | (show _ = _; unfold openStep; split <;> rfl)))

theorem markedRead_touches (s : State) (pc : Piece) (t : Task) (x : State) : Touches [.devState, .dev, .owner, .host, .ctxs, .vers, .fetch, .results, .cores, .steps, .sync, .chans, .coll, .place, .mem, .links, .topo, .tests, .fenceSet, .recov, .fw, .meas, .sec, .sent, .free] x (markedRead s pc t x) := by
  unfold markedRead
  split
  · exact (failSteps_touches x 0x0080).mono (by decide)
  · exact .refl

theorem markedRead_some_touches (s : State) (pc : Piece) (o : Option Task) (x : State) : Touches [.devState, .dev, .owner, .host, .ctxs, .vers, .fetch, .results, .cores, .steps, .sync, .chans, .coll, .place, .mem, .links, .topo, .tests, .fenceSet, .recov, .fw, .meas, .sec, .sent, .free] x ((o.map (markedRead s pc)).getD id x) := by
  cases o with
  | none => exact .refl
  | some t => exact markedRead_touches s pc t x

theorem issuePiece_touches (s : State) (g : Nat) (pc : Piece) (t : Task) (hw : Hw) (w : Work) (clean : Work) (cs : List (CheckSource × List Nat)) (far : Nat) : Touches [.devState, .dev, .owner, .host, .poison, .ctxs, .vers, .fetch, .results, .cores, .steps, .sync, .chans, .coll, .num, .place, .mem, .links, .topo, .ledger, .tests, .fenceSet, .recov, .fw, .meas, .sec, .sent, .free] s (issuePiece s g pc t hw w clean cs far) := by
  unfold issuePiece
  try dsimp only
  repeat' first
    | with_reducible exact .refl
    | simp only [Touches.mk_iff, Touches.ite_iff]
    | with_reducible refine And.intro (fun _ => ?_) (fun _ => ?_)
    | ((with_reducible refine Leaf.of rfl (fun p hp => ?_) ?_); (cases p <;> first | exact absurd hp (by decide) | (show _ = _; with_reducible rfl) | rfl | (show _ = _; unfold openStep; split <;> rfl)))
    | ((with_reducible apply Touches.step (enqueueChecks_touches _ _ _)); · decide)
    | ((with_reducible apply Touches.step (putAll_touches _ _ _ _)); · decide)
    | ((with_reducible apply Touches.step (onCtx_touches _ _ _)); · decide)
    | ((with_reducible apply Touches.step (onCore__touches _ _ _)); · decide)
    | ((with_reducible apply Touches.step (onStep_touches _ _ _)); · decide)
    | ((with_reducible apply Touches.step (waitedOver_touches _ _)); · decide)
    | ((with_reducible apply Touches.step (eccHits_touches _ _ _ _)); · decide)
    | ((with_reducible apply Touches.step (markedRead_touches _ _ _ _)); · decide)

theorem issue_touches (s : State) (g : Nat) (opcode : Nat) (hw : Hw) : Touches [.devState, .dev, .owner, .host, .poison, .ctxs, .vers, .fetch, .results, .cores, .steps, .sync, .chans, .coll, .num, .place, .mem, .links, .topo, .ledger, .tests, .fenceSet, .recov, .fw, .meas, .sec, .sent, .free] s (issue s g opcode hw) := by
  unfold issue
  try dsimp only
  repeat' first
    | with_reducible exact .refl
    | simp only [Touches.mk_iff, Touches.ite_iff]
    | with_reducible refine And.intro (fun _ => ?_) (fun _ => ?_)
    | ((with_reducible refine Leaf.of rfl (fun p hp => ?_) ?_); (cases p <;> first | exact absurd hp (by decide) | (show _ = _; with_reducible rfl) | rfl | (show _ = _; unfold openStep; split <;> rfl)))
    | ((with_reducible apply Touches.step (issuePiece_touches _ _ _ _ _ _ _ _ _)); · decide)
    | ((with_reducible apply Touches.step (noteWaits_touches _)); · decide)
    | ((with_reducible apply Touches.step (stallPiece_touches _ _ _)); · decide)
    | (with_reducible apply Touches.fold (fun _ _ => ?_))
    | split

theorem execMm_touches (core : Fin 136) (hw : Hw) (s : State) : OutTouches [.devState, .dev, .owner, .host, .poison, .ctxs, .vers, .fetch, .results, .cores, .steps, .sync, .chans, .coll, .num, .place, .mem, .links, .topo, .ledger, .tests, .fenceSet, .recov, .fw, .meas, .sec, .sent, .free] s (execMm core hw s) := by
  unfold execMm
  try dsimp only
  repeat' first
    | with_reducible exact .refl
    | with_reducible apply OutTouches.next
    | with_reducible exact OutTouches.fault
    | simp only [Touches.mk_iff, Touches.ite_iff]
    | with_reducible refine And.intro (fun _ => ?_) (fun _ => ?_)
    | ((with_reducible refine Leaf.of rfl (fun p hp => ?_) ?_); (cases p <;> first | exact absurd hp (by decide) | (show _ = _; with_reducible rfl) | rfl | (show _ = _; unfold openStep; split <;> rfl)))
    | ((with_reducible apply Touches.step (issue_touches _ _ _ _)); · decide)

theorem execMmTa_touches (core : Fin 136) (hw : Hw) (s : State) : OutTouches [.devState, .dev, .owner, .host, .poison, .ctxs, .vers, .fetch, .results, .cores, .steps, .sync, .chans, .coll, .num, .place, .mem, .links, .topo, .ledger, .tests, .fenceSet, .recov, .fw, .meas, .sec, .sent, .free] s (execMmTa core hw s) := by
  unfold execMmTa
  try dsimp only
  repeat' first
    | with_reducible exact .refl
    | with_reducible apply OutTouches.next
    | with_reducible exact OutTouches.fault
    | simp only [Touches.mk_iff, Touches.ite_iff]
    | with_reducible refine And.intro (fun _ => ?_) (fun _ => ?_)
    | ((with_reducible refine Leaf.of rfl (fun p hp => ?_) ?_); (cases p <;> first | exact absurd hp (by decide) | (show _ = _; with_reducible rfl) | rfl | (show _ = _; unfold openStep; split <;> rfl)))
    | ((with_reducible apply Touches.step (issue_touches _ _ _ _)); · decide)

theorem execMmTb_touches (core : Fin 136) (hw : Hw) (s : State) : OutTouches [.devState, .dev, .owner, .host, .poison, .ctxs, .vers, .fetch, .results, .cores, .steps, .sync, .chans, .coll, .num, .place, .mem, .links, .topo, .ledger, .tests, .fenceSet, .recov, .fw, .meas, .sec, .sent, .free] s (execMmTb core hw s) := by
  unfold execMmTb
  try dsimp only
  repeat' first
    | with_reducible exact .refl
    | with_reducible apply OutTouches.next
    | with_reducible exact OutTouches.fault
    | simp only [Touches.mk_iff, Touches.ite_iff]
    | with_reducible refine And.intro (fun _ => ?_) (fun _ => ?_)
    | ((with_reducible refine Leaf.of rfl (fun p hp => ?_) ?_); (cases p <;> first | exact absurd hp (by decide) | (show _ = _; with_reducible rfl) | rfl | (show _ = _; unfold openStep; split <;> rfl)))
    | ((with_reducible apply Touches.step (issue_touches _ _ _ _)); · decide)

theorem execMmAcc_touches (core : Fin 136) (hw : Hw) (s : State) : OutTouches [.devState, .dev, .owner, .host, .poison, .ctxs, .vers, .fetch, .results, .cores, .steps, .sync, .chans, .coll, .num, .place, .mem, .links, .topo, .ledger, .tests, .fenceSet, .recov, .fw, .meas, .sec, .sent, .free] s (execMmAcc core hw s) := by
  unfold execMmAcc
  try dsimp only
  repeat' first
    | with_reducible exact .refl
    | with_reducible apply OutTouches.next
    | with_reducible exact OutTouches.fault
    | simp only [Touches.mk_iff, Touches.ite_iff]
    | with_reducible refine And.intro (fun _ => ?_) (fun _ => ?_)
    | ((with_reducible refine Leaf.of rfl (fun p hp => ?_) ?_); (cases p <;> first | exact absurd hp (by decide) | (show _ = _; with_reducible rfl) | rfl | (show _ = _; unfold openStep; split <;> rfl)))
    | ((with_reducible apply Touches.step (issue_touches _ _ _ _)); · decide)

theorem execAttF_touches (core : Fin 136) (hw : Hw) (s : State) : OutTouches [.devState, .dev, .owner, .host, .poison, .ctxs, .vers, .fetch, .results, .cores, .steps, .sync, .chans, .coll, .num, .place, .mem, .links, .topo, .ledger, .tests, .fenceSet, .recov, .fw, .meas, .sec, .sent, .free] s (execAttF core hw s) := by
  unfold execAttF
  try dsimp only
  repeat' first
    | with_reducible exact .refl
    | with_reducible apply OutTouches.next
    | with_reducible exact OutTouches.fault
    | simp only [Touches.mk_iff, Touches.ite_iff]
    | with_reducible refine And.intro (fun _ => ?_) (fun _ => ?_)
    | ((with_reducible refine Leaf.of rfl (fun p hp => ?_) ?_); (cases p <;> first | exact absurd hp (by decide) | (show _ = _; with_reducible rfl) | rfl | (show _ = _; unfold openStep; split <;> rfl)))
    | ((with_reducible apply Touches.step (issue_touches _ _ _ _)); · decide)

theorem execAttB_touches (core : Fin 136) (hw : Hw) (s : State) : OutTouches [.devState, .dev, .owner, .host, .poison, .ctxs, .vers, .fetch, .results, .cores, .steps, .sync, .chans, .coll, .num, .place, .mem, .links, .topo, .ledger, .tests, .fenceSet, .recov, .fw, .meas, .sec, .sent, .free] s (execAttB core hw s) := by
  unfold execAttB
  try dsimp only
  repeat' first
    | with_reducible exact .refl
    | with_reducible apply OutTouches.next
    | with_reducible exact OutTouches.fault
    | simp only [Touches.mk_iff, Touches.ite_iff]
    | with_reducible refine And.intro (fun _ => ?_) (fun _ => ?_)
    | ((with_reducible refine Leaf.of rfl (fun p hp => ?_) ?_); (cases p <;> first | exact absurd hp (by decide) | (show _ = _; with_reducible rfl) | rfl | (show _ = _; unfold openStep; split <;> rfl)))
    | ((with_reducible apply Touches.step (issue_touches _ _ _ _)); · decide)

theorem execEw_touches (core : Fin 136) (hw : Hw) (s : State) : OutTouches [.devState, .dev, .owner, .host, .poison, .ctxs, .vers, .fetch, .results, .cores, .steps, .sync, .chans, .coll, .num, .place, .mem, .links, .topo, .ledger, .tests, .fenceSet, .recov, .fw, .meas, .sec, .sent, .free] s (execEw core hw s) := by
  unfold execEw
  try dsimp only
  repeat' first
    | with_reducible exact .refl
    | with_reducible apply OutTouches.next
    | with_reducible exact OutTouches.fault
    | simp only [Touches.mk_iff, Touches.ite_iff]
    | with_reducible refine And.intro (fun _ => ?_) (fun _ => ?_)
    | ((with_reducible refine Leaf.of rfl (fun p hp => ?_) ?_); (cases p <;> first | exact absurd hp (by decide) | (show _ = _; with_reducible rfl) | rfl | (show _ = _; unfold openStep; split <;> rfl)))
    | ((with_reducible apply Touches.step (issue_touches _ _ _ _)); · decide)

theorem execRed_touches (core : Fin 136) (hw : Hw) (s : State) : OutTouches [.devState, .dev, .owner, .host, .poison, .ctxs, .vers, .fetch, .results, .cores, .steps, .sync, .chans, .coll, .num, .place, .mem, .links, .topo, .ledger, .tests, .fenceSet, .recov, .fw, .meas, .sec, .sent, .free] s (execRed core hw s) := by
  unfold execRed
  try dsimp only
  repeat' first
    | with_reducible exact .refl
    | with_reducible apply OutTouches.next
    | with_reducible exact OutTouches.fault
    | simp only [Touches.mk_iff, Touches.ite_iff]
    | with_reducible refine And.intro (fun _ => ?_) (fun _ => ?_)
    | ((with_reducible refine Leaf.of rfl (fun p hp => ?_) ?_); (cases p <;> first | exact absurd hp (by decide) | (show _ = _; with_reducible rfl) | rfl | (show _ = _; unfold openStep; split <;> rfl)))
    | ((with_reducible apply Touches.step (issue_touches _ _ _ _)); · decide)

theorem execNorm_touches (core : Fin 136) (hw : Hw) (s : State) : OutTouches [.devState, .dev, .owner, .host, .poison, .ctxs, .vers, .fetch, .results, .cores, .steps, .sync, .chans, .coll, .num, .place, .mem, .links, .topo, .ledger, .tests, .fenceSet, .recov, .fw, .meas, .sec, .sent, .free] s (execNorm core hw s) := by
  unfold execNorm
  try dsimp only
  repeat' first
    | with_reducible exact .refl
    | with_reducible apply OutTouches.next
    | with_reducible exact OutTouches.fault
    | simp only [Touches.mk_iff, Touches.ite_iff]
    | with_reducible refine And.intro (fun _ => ?_) (fun _ => ?_)
    | ((with_reducible refine Leaf.of rfl (fun p hp => ?_) ?_); (cases p <;> first | exact absurd hp (by decide) | (show _ = _; with_reducible rfl) | rfl | (show _ = _; unfold openStep; split <;> rfl)))
    | ((with_reducible apply Touches.step (issue_touches _ _ _ _)); · decide)

theorem execSmax_touches (core : Fin 136) (hw : Hw) (s : State) : OutTouches [.devState, .dev, .owner, .host, .poison, .ctxs, .vers, .fetch, .results, .cores, .steps, .sync, .chans, .coll, .num, .place, .mem, .links, .topo, .ledger, .tests, .fenceSet, .recov, .fw, .meas, .sec, .sent, .free] s (execSmax core hw s) := by
  unfold execSmax
  try dsimp only
  repeat' first
    | with_reducible exact .refl
    | with_reducible apply OutTouches.next
    | with_reducible exact OutTouches.fault
    | simp only [Touches.mk_iff, Touches.ite_iff]
    | with_reducible refine And.intro (fun _ => ?_) (fun _ => ?_)
    | ((with_reducible refine Leaf.of rfl (fun p hp => ?_) ?_); (cases p <;> first | exact absurd hp (by decide) | (show _ = _; with_reducible rfl) | rfl | (show _ = _; unfold openStep; split <;> rfl)))
    | ((with_reducible apply Touches.step (issue_touches _ _ _ _)); · decide)

theorem execOpt_touches (core : Fin 136) (hw : Hw) (s : State) : OutTouches [.devState, .dev, .owner, .host, .poison, .ctxs, .vers, .fetch, .results, .cores, .steps, .sync, .chans, .coll, .num, .place, .mem, .links, .topo, .ledger, .tests, .fenceSet, .recov, .fw, .meas, .sec, .sent, .free] s (execOpt core hw s) := by
  unfold execOpt
  try dsimp only
  repeat' first
    | with_reducible exact .refl
    | with_reducible apply OutTouches.next
    | with_reducible exact OutTouches.fault
    | simp only [Touches.mk_iff, Touches.ite_iff]
    | with_reducible refine And.intro (fun _ => ?_) (fun _ => ?_)
    | ((with_reducible refine Leaf.of rfl (fun p hp => ?_) ?_); (cases p <;> first | exact absurd hp (by decide) | (show _ = _; with_reducible rfl) | rfl | (show _ = _; unfold openStep; split <;> rfl)))
    | ((with_reducible apply Touches.step (issue_touches _ _ _ _)); · decide)

theorem execConvFmt_touches (core : Fin 136) (hw : Hw) (s : State) : OutTouches [.devState, .dev, .owner, .host, .poison, .ctxs, .vers, .fetch, .results, .cores, .steps, .sync, .chans, .coll, .num, .place, .mem, .links, .topo, .ledger, .tests, .fenceSet, .recov, .fw, .meas, .sec, .sent, .free] s (execConvFmt core hw s) := by
  unfold execConvFmt
  try dsimp only
  repeat' first
    | with_reducible exact .refl
    | with_reducible apply OutTouches.next
    | with_reducible exact OutTouches.fault
    | simp only [Touches.mk_iff, Touches.ite_iff]
    | with_reducible refine And.intro (fun _ => ?_) (fun _ => ?_)
    | ((with_reducible refine Leaf.of rfl (fun p hp => ?_) ?_); (cases p <;> first | exact absurd hp (by decide) | (show _ = _; with_reducible rfl) | rfl | (show _ = _; unfold openStep; split <;> rfl)))
    | ((with_reducible apply Touches.step (issue_touches _ _ _ _)); · decide)

theorem execAmax_touches (core : Fin 136) (hw : Hw) (s : State) : OutTouches [.devState, .dev, .owner, .host, .poison, .ctxs, .vers, .fetch, .results, .cores, .steps, .sync, .chans, .coll, .num, .place, .mem, .links, .topo, .ledger, .tests, .fenceSet, .recov, .fw, .meas, .sec, .sent, .free] s (execAmax core hw s) := by
  unfold execAmax
  try dsimp only
  repeat' first
    | with_reducible exact .refl
    | with_reducible apply OutTouches.next
    | with_reducible exact OutTouches.fault
    | simp only [Touches.mk_iff, Touches.ite_iff]
    | with_reducible refine And.intro (fun _ => ?_) (fun _ => ?_)
    | ((with_reducible refine Leaf.of rfl (fun p hp => ?_) ?_); (cases p <;> first | exact absurd hp (by decide) | (show _ = _; with_reducible rfl) | rfl | (show _ = _; unfold openStep; split <;> rfl)))
    | ((with_reducible apply Touches.step (issue_touches _ _ _ _)); · decide)

theorem execCopy_touches (engine : Fin 145) (hw : Hw) (s : State) : OutTouches [.devState, .dev, .owner, .host, .poison, .ctxs, .vers, .fetch, .results, .cores, .steps, .sync, .chans, .coll, .num, .place, .mem, .links, .topo, .ledger, .tests, .fenceSet, .recov, .fw, .meas, .sec, .sent, .free] s (execCopy engine hw s) := by
  unfold execCopy
  try dsimp only
  repeat' first
    | with_reducible exact .refl
    | with_reducible apply OutTouches.next
    | with_reducible exact OutTouches.fault
    | simp only [Touches.mk_iff, Touches.ite_iff]
    | with_reducible refine And.intro (fun _ => ?_) (fun _ => ?_)
    | ((with_reducible refine Leaf.of rfl (fun p hp => ?_) ?_); (cases p <;> first | exact absurd hp (by decide) | (show _ = _; with_reducible rfl) | rfl | (show _ = _; unfold openStep; split <;> rfl)))
    | ((with_reducible apply Touches.step (issue_touches _ _ _ _)); · decide)

end Sys2Proof.Machine
end

