-- ==== Sys2Proof/Laws/TouchCommit.lean ====
section
/-! SUPPORT. What each operation and meaning of Machine/Commit.lean can change. -/

set_option linter.unusedSimpArgs false
set_option linter.unusedTactic false
set_option linter.unreachableTactic false

namespace Sys2Proof.Machine

theorem commitPlace_touches (s : State) (n : Nat) : Touches [.place, .mem, .free] s (commitPlace s n) := by
  unfold commitPlace
  try dsimp only
  repeat' first
    | with_reducible exact .refl
    | simp only [Touches.mk_iff, Touches.ite_iff]
    | with_reducible refine And.intro (fun _ => ?_) (fun _ => ?_)
    | ((with_reducible refine Leaf.of rfl (fun p hp => ?_) ?_); (cases p <;> first | exact absurd hp (by decide) | (show _ = _; with_reducible rfl) | rfl | (show _ = _; unfold openStep; split <;> rfl)))

theorem takeCut_touches (s : State) (n : Nat) : Touches [.host, .ctxs, .vers, .chans, .links, .topo, .ckpt, .sent] s (takeCut s n) := by
  unfold takeCut
  try dsimp only
  repeat' first
    | with_reducible exact .refl
    | simp only [Touches.mk_iff, Touches.ite_iff]
    | with_reducible refine And.intro (fun _ => ?_) (fun _ => ?_)
    | ((with_reducible refine Leaf.of rfl (fun p hp => ?_) ?_); (cases p <;> first | exact absurd hp (by decide) | (show _ = _; with_reducible rfl) | rfl | (show _ = _; unfold openStep; split <;> rfl)))
    | ((with_reducible apply Touches.step (tell_touches _ _)); · decide)
    | ((with_reducible apply Touches.step (abandonCapture_touches _ _ _)); · decide)
    | (with_reducible apply Touches.fold (fun _ _ => ?_))
    | split

theorem commitCut_touches (s : State) (n : Nat) (mark : Bool) : Touches [.host, .ctxs, .vers, .chans, .links, .topo, .ckpt, .sent] s (commitCut s n mark) := by
  unfold commitCut
  try dsimp only
  repeat' first
    | with_reducible exact .refl
    | simp only [Touches.mk_iff, Touches.ite_iff]
    | with_reducible refine And.intro (fun _ => ?_) (fun _ => ?_)
    | ((with_reducible refine Leaf.of rfl (fun p hp => ?_) ?_); (cases p <;> first | exact absurd hp (by decide) | (show _ = _; with_reducible rfl) | rfl | (show _ = _; unfold openStep; split <;> rfl)))
    | ((with_reducible apply Touches.step (takeCut_touches _ _)); · decide)

theorem commitState_touches (s : State) (o : OpenStep) (w : Nat) : Touches [.ctxs, .vers, .fetch, .results, .committed, .steps, .chans, .num, .mem] s (commitState s o w) := by
  unfold commitState
  try dsimp only
  repeat' first
    | with_reducible exact .refl
    | simp only [Touches.mk_iff, Touches.ite_iff]
    | with_reducible refine And.intro (fun _ => ?_) (fun _ => ?_)
    | ((with_reducible refine Leaf.of rfl (fun p hp => ?_) ?_); (cases p <;> first | exact absurd hp (by decide) | (show _ = _; with_reducible rfl) | rfl | (show _ = _; unfold openStep; split <;> rfl)))

theorem mirrorStands_touches (s : State) (o : OpenStep) : Touches [.recov] s (mirrorStands s o) := by
  unfold mirrorStands
  try dsimp only
  repeat' first
    | with_reducible exact .refl
    | simp only [Touches.mk_iff, Touches.ite_iff]
    | with_reducible refine And.intro (fun _ => ?_) (fun _ => ?_)
    | ((with_reducible refine Leaf.of rfl (fun p hp => ?_) ?_); (cases p <;> first | exact absurd hp (by decide) | (show _ = _; with_reducible rfl) | rfl | (show _ = _; unfold openStep; split <;> rfl)))

theorem spareBoundary_touches (s : State) : Touches [.ctxs] s (spareBoundary s) := by
  unfold spareBoundary
  try dsimp only
  repeat' first
    | with_reducible exact .refl
    | simp only [Touches.mk_iff, Touches.ite_iff]
    | with_reducible refine And.intro (fun _ => ?_) (fun _ => ?_)
    | ((with_reducible refine Leaf.of rfl (fun p hp => ?_) ?_); (cases p <;> first | exact absurd hp (by decide) | (show _ = _; with_reducible rfl) | rfl | (show _ = _; unfold openStep; split <;> rfl)))

theorem commit_touches (s : State) (w : Nat) : Touches [.devState, .dev, .owner, .host, .ctxs, .vers, .fetch, .results, .cores, .committed, .steps, .sync, .chans, .coll, .num, .place, .mem, .links, .topo, .ckpt, .tests, .fenceSet, .recov, .power, .fw, .meas, .sec, .sent, .free] s (commit s w) := by
  unfold commit
  try dsimp only
  repeat' first
    | with_reducible exact .refl
    | simp only [Touches.mk_iff, Touches.ite_iff]
    | with_reducible refine And.intro (fun _ => ?_) (fun _ => ?_)
    | ((with_reducible refine Leaf.of rfl (fun p hp => ?_) ?_); (cases p <;> first | exact absurd hp (by decide) | (show _ = _; with_reducible rfl) | rfl | (show _ = _; unfold openStep; split <;> rfl)))
    | ((with_reducible apply Touches.step (commitState_touches _ _ _)); · decide)
    | ((with_reducible apply Touches.step (commitPlace_touches _ _)); · decide)
    | ((with_reducible apply Touches.step (commitCut_touches _ _ _)); · decide)
    | ((with_reducible apply Touches.step (post_touches _ _ _ _ _)); · decide)
    | ((with_reducible apply Touches.step (mirrorStands_touches _ _)); · decide)
    | ((with_reducible apply Touches.step (spareBoundary_touches _)); · decide)
    | ((with_reducible apply Touches.step (stateLoss_touches _)); · decide)

theorem replayClose_touches (s : State) (w : Nat) : Touches [.host, .ctxs, .vers, .steps, .num, .sent] s (replayClose s w) := by
  unfold replayClose
  try dsimp only
  repeat' first
    | with_reducible exact .refl
    | simp only [Touches.mk_iff, Touches.ite_iff]
    | with_reducible refine And.intro (fun _ => ?_) (fun _ => ?_)
    | ((with_reducible refine Leaf.of rfl (fun p hp => ?_) ?_); (cases p <;> first | exact absurd hp (by decide) | (show _ = _; with_reducible rfl) | rfl | (show _ = _; unfold openStep; split <;> rfl)))
    | ((with_reducible apply Touches.step (post_touches _ _ _ _ _)); · decide)

theorem cleanWord_touches (s : State) (w : Nat) : Touches [.devState, .dev, .owner, .host, .ctxs, .vers, .fetch, .results, .cores, .committed, .steps, .sync, .chans, .coll, .num, .place, .mem, .links, .topo, .ckpt, .tests, .fenceSet, .recov, .power, .fw, .meas, .sec, .sent, .free] s (cleanWord s w) := by
  unfold cleanWord
  try dsimp only
  repeat' first
    | with_reducible exact .refl
    | simp only [Touches.mk_iff, Touches.ite_iff]
    | with_reducible refine And.intro (fun _ => ?_) (fun _ => ?_)
    | ((with_reducible refine Leaf.of rfl (fun p hp => ?_) ?_); (cases p <;> first | exact absurd hp (by decide) | (show _ = _; with_reducible rfl) | rfl | (show _ = _; unfold openStep; split <;> rfl)))
    | ((with_reducible apply Touches.step (commit_touches _ _)); · decide)
    | ((with_reducible apply Touches.step (adoptNotices_touches _ _)); · decide)
    | ((with_reducible apply Touches.step (waitStarts_touches _ _)); · decide)
    | ((with_reducible apply Touches.step (holdAbort_touches _)); · decide)
    | ((with_reducible apply Touches.step (replayClose_touches _ _)); · decide)
    | ((with_reducible apply Touches.step (waitEnds_touches _)); · decide)
    | ((with_reducible apply Touches.step (chanClose_touches _ _ _)); · decide)

theorem takeAbort_touches (s : State) (n : Nat) (word : Nat) (came : Dir) : Touches [.devState, .dev, .owner, .host, .ctxs, .vers, .fetch, .results, .cores, .steps, .sync, .chans, .coll, .place, .mem, .links, .topo, .tests, .fenceSet, .recov, .fw, .meas, .sec, .sent, .free] s (takeAbort s n word came) := by
  unfold takeAbort
  try dsimp only
  repeat' first
    | with_reducible exact .refl
    | simp only [Touches.mk_iff, Touches.ite_iff]
    | with_reducible refine And.intro (fun _ => ?_) (fun _ => ?_)
    | ((with_reducible refine Leaf.of rfl (fun p hp => ?_) ?_); (cases p <;> first | exact absurd hp (by decide) | (show _ = _; with_reducible rfl) | rfl | (show _ = _; unfold openStep; split <;> rfl)))
    | ((with_reducible apply Touches.step (sendDown_touches _ _ _ _)); · decide)
    | ((with_reducible apply Touches.step (abortStep_touches _ _ _)); · decide)

theorem heldAbort_touches (s : State) : Touches [.devState, .dev, .owner, .host, .ctxs, .vers, .fetch, .results, .cores, .steps, .sync, .chans, .coll, .place, .mem, .links, .topo, .tests, .fenceSet, .recov, .fw, .meas, .sec, .sent, .free] s (heldAbort s) := by
  unfold heldAbort
  try dsimp only
  repeat' first
    | with_reducible exact .refl
    | simp only [Touches.mk_iff, Touches.ite_iff]
    | with_reducible refine And.intro (fun _ => ?_) (fun _ => ?_)
    | ((with_reducible refine Leaf.of rfl (fun p hp => ?_) ?_); (cases p <;> first | exact absurd hp (by decide) | (show _ = _; with_reducible rfl) | rfl | (show _ = _; unfold openStep; split <;> rfl)))
    | ((with_reducible apply Touches.step (takeAbort_touches _ _ _ _)); · decide)
    | (with_reducible apply Touches.fold (fun _ _ => ?_))
    | split

theorem finishStep_touches (s : State) : Touches [.devState, .dev, .owner, .host, .ctxs, .vers, .fetch, .results, .cores, .committed, .steps, .sync, .chans, .coll, .num, .place, .mem, .links, .topo, .ckpt, .tests, .fenceSet, .recov, .power, .fw, .meas, .sec, .sent, .free] s (finishStep s) := by
  unfold finishStep
  try dsimp only
  repeat' first
    | with_reducible exact .refl
    | simp only [Touches.mk_iff, Touches.ite_iff]
    | with_reducible refine And.intro (fun _ => ?_) (fun _ => ?_)
    | ((with_reducible refine Leaf.of rfl (fun p hp => ?_) ?_); (cases p <;> first | exact absurd hp (by decide) | (show _ = _; with_reducible rfl) | rfl | (show _ = _; unfold openStep; split <;> rfl)))
    | ((with_reducible apply Touches.step (abortStep_touches _ _ _)); · decide)
    | ((with_reducible apply Touches.step (cleanWord_touches _ _)); · decide)
    | ((with_reducible apply Touches.step (chanIdle_touches _ _)); · decide)
    | ((with_reducible apply Touches.step (heldAbort_touches _)); · decide)
    | (with_reducible apply Touches.fold (fun _ _ => ?_))
    | split

end Sys2Proof.Machine
end

