-- ==== Sys2Proof/Laws/TouchProgress.lean ====
section
/-! SUPPORT. What each operation and meaning of Machine/Progress.lean can change. -/

set_option linter.unusedSimpArgs false
set_option linter.unusedTactic false
set_option linter.unreachableTactic false

namespace Sys2Proof.Machine

theorem streamMirror_touches (s : State) (n : Nat) : Touches [.ctxs, .steps, .links, .topo, .sent] s (streamMirror s n) := by
  unfold streamMirror
  try dsimp only
  repeat' first
    | with_reducible exact .refl
    | simp only [Touches.mk_iff, Touches.ite_iff]
    | with_reducible refine And.intro (fun _ => ?_) (fun _ => ?_)
    | ((with_reducible refine Leaf.of rfl (fun p hp => ?_) ?_); (cases p <;> first | exact absurd hp (by decide) | (show _ = _; with_reducible rfl) | rfl | (show _ = _; unfold openStep; split <;> rfl)))
    | ((with_reducible apply Touches.step (onStep_touches _ _ _)); · decide)
    | ((with_reducible apply Touches.step (tell_touches _ _)); · decide)
    | (with_reducible apply Touches.fold (fun _ _ => ?_))
    | split

theorem progress_touches (s : State) (n : Nat) : Touches [.ctxs, .steps, .links, .topo, .sent] s (progress s n) := by
  unfold progress
  try dsimp only
  repeat' first
    | with_reducible exact .refl
    | simp only [Touches.mk_iff, Touches.ite_iff]
    | with_reducible refine And.intro (fun _ => ?_) (fun _ => ?_)
    | ((with_reducible refine Leaf.of rfl (fun p hp => ?_) ?_); (cases p <;> first | exact absurd hp (by decide) | (show _ = _; with_reducible rfl) | rfl | (show _ = _; unfold openStep; split <;> rfl)))
    | ((with_reducible apply Touches.step (onStep_touches _ _ _)); · decide)
    | ((with_reducible apply Touches.step (streamMirror_touches _ _)); · decide)

theorem setMaximum_touches (s : State) (c : Nat) (t : Nat) (n : Nat) (v : BitVec 32) : Touches [.ctxs, .steps] s (setMaximum s c t n v) := by
  unfold setMaximum
  try dsimp only
  repeat' first
    | with_reducible exact .refl
    | simp only [Touches.mk_iff, Touches.ite_iff]
    | with_reducible refine And.intro (fun _ => ?_) (fun _ => ?_)
    | ((with_reducible refine Leaf.of rfl (fun p hp => ?_) ?_); (cases p <;> first | exact absurd hp (by decide) | (show _ = _; with_reducible rfl) | rfl | (show _ = _; unfold openStep; split <;> rfl)))
    | ((with_reducible apply Touches.step (onStep_touches _ _ _)); · decide)
    | ((with_reducible apply Touches.step (onCtx_touches _ _ _)); · decide)

theorem sendLand_touches (s : State) (c : Nat) (ord : Nat) (n : Nat) (g : Group) (f : CollFlit) : Touches [.ctxs, .links, .topo, .sent] s (sendLand s c ord n g f) := by
  unfold sendLand
  try dsimp only
  repeat' first
    | with_reducible exact .refl
    | simp only [Touches.mk_iff, Touches.ite_iff]
    | with_reducible refine And.intro (fun _ => ?_) (fun _ => ?_)
    | ((with_reducible refine Leaf.of rfl (fun p hp => ?_) ?_); (cases p <;> first | exact absurd hp (by decide) | (show _ = _; with_reducible rfl) | rfl | (show _ = _; unfold openStep; split <;> rfl)))
    | ((with_reducible apply Touches.step (startFlit_touches _ _ _ _ _)); · decide)

theorem exchSend_touches (s : State) (c : Nat) (t : Nat) (n : Nat) (axis : Nat) (stage : Nat) (hop : Nat) (v : BitVec 32) : Touches [.ctxs, .links, .topo, .sent] s (exchSend s c t n axis stage hop v) := by
  unfold exchSend
  try dsimp only
  repeat' first
    | with_reducible exact .refl
    | simp only [Touches.mk_iff, Touches.ite_iff]
    | with_reducible refine And.intro (fun _ => ?_) (fun _ => ?_)
    | ((with_reducible refine Leaf.of rfl (fun p hp => ?_) ?_); (cases p <;> first | exact absurd hp (by decide) | (show _ = _; with_reducible rfl) | rfl | (show _ = _; unfold openStep; split <;> rfl)))
    | ((with_reducible apply Touches.step (sendLand_touches _ _ _ _ _ _)); · decide)

theorem exchSpread_touches (s : State) (c : Nat) (t : Nat) (n : Nat) (v : BitVec 32) (axes : List Nat) : Touches [.ctxs, .links, .topo, .sent] s (exchSpread s c t n v axes) := by
  unfold exchSpread
  try dsimp only
  repeat' first
    | with_reducible exact .refl
    | simp only [Touches.mk_iff, Touches.ite_iff]
    | with_reducible refine And.intro (fun _ => ?_) (fun _ => ?_)
    | ((with_reducible refine Leaf.of rfl (fun p hp => ?_) ?_); (cases p <;> first | exact absurd hp (by decide) | (show _ = _; with_reducible rfl) | rfl | (show _ = _; unfold openStep; split <;> rfl)))
    | ((with_reducible apply Touches.step (exchSend_touches _ _ _ _ _ _ _ _)); · decide)
    | (with_reducible apply Touches.fold (fun _ _ => ?_))

theorem exchEnd_touches (s : State) (c : Nat) (t : Nat) (n : Nat) (v : BitVec 32) : Touches [.ctxs, .steps] s (exchEnd s c t n v) := by
  unfold exchEnd
  try dsimp only
  repeat' first
    | with_reducible exact .refl
    | simp only [Touches.mk_iff, Touches.ite_iff]
    | with_reducible refine And.intro (fun _ => ?_) (fun _ => ?_)
    | ((with_reducible refine Leaf.of rfl (fun p hp => ?_) ?_); (cases p <;> first | exact absurd hp (by decide) | (show _ = _; with_reducible rfl) | rfl | (show _ = _; unfold openStep; split <;> rfl)))
    | ((with_reducible apply Touches.step (onStep_touches _ _ _)); · decide)
    | ((with_reducible apply Touches.step (setMaximum_touches _ _ _ _ _)); · decide)

theorem exchBegin_touches (s : State) (c : Nat) (t : Nat) (n : Nat) (j : Nat) (v : BitVec 32) : Touches [.ctxs, .steps, .links, .topo, .sent] s (exchBegin s c t n j v) := by
  unfold exchBegin
  try dsimp only
  repeat' first
    | with_reducible exact .refl
    | simp only [Touches.mk_iff, Touches.ite_iff]
    | with_reducible refine And.intro (fun _ => ?_) (fun _ => ?_)
    | ((with_reducible refine Leaf.of rfl (fun p hp => ?_) ?_); (cases p <;> first | exact absurd hp (by decide) | (show _ = _; with_reducible rfl) | rfl | (show _ = _; unfold openStep; split <;> rfl)))
    | ((with_reducible apply Touches.step (exchEnd_touches _ _ _ _ _)); · decide)
    | ((with_reducible apply Touches.step (exchSpread_touches _ _ _ _ _ _)); · decide)
    | ((with_reducible apply Touches.step (exchSend_touches _ _ _ _ _ _ _ _)); · decide)
    | (with_reducible apply Touches.fold (fun _ _ => ?_))
    | split

theorem exchMerge_touches (s : State) (c : Nat) (n : Nat) (e : Exch) (v : BitVec 32) (h : Nat) : Touches [.ctxs, .steps, .links, .topo, .sent] s (exchMerge s c n e v h) := by
  unfold exchMerge
  try dsimp only
  repeat' first
    | with_reducible exact .refl
    | simp only [Touches.mk_iff, Touches.ite_iff]
    | with_reducible refine And.intro (fun _ => ?_) (fun _ => ?_)
    | ((with_reducible refine Leaf.of rfl (fun p hp => ?_) ?_); (cases p <;> first | exact absurd hp (by decide) | (show _ = _; with_reducible rfl) | rfl | (show _ = _; unfold openStep; split <;> rfl)))
    | ((with_reducible apply Touches.step (exchSend_touches _ _ _ _ _ _ _ _)); · decide)
    | ((with_reducible apply Touches.step (exchBegin_touches _ _ _ _ _ _)); · decide)
    | ((with_reducible apply Touches.step (onStep_touches _ _ _)); · decide)

theorem exchTake_touches (s : State) (c t n fuel : Nat) : Touches [.ctxs, .steps, .links, .topo, .sent] s (exchTake s c t n fuel) := by
  induction fuel generalizing s with
  | zero => exact .refl
  | succ n ih =>
    unfold exchTake
    try dsimp only
    repeat' first
      | ((with_reducible apply Touches.step (ih _)); · decide)
      | with_reducible exact .refl
      | simp only [Touches.mk_iff, Touches.ite_iff]
      | with_reducible refine And.intro (fun _ => ?_) (fun _ => ?_)
      | ((with_reducible refine Leaf.of rfl (fun p hp => ?_) ?_); (cases p <;> first | exact absurd hp (by decide) | (show _ = _; with_reducible rfl) | rfl | (show _ = _; unfold openStep; split <;> rfl)))
      | ((with_reducible apply Touches.step (onStep_touches _ _ _)); · decide)
      | ((with_reducible apply Touches.step (exchMerge_touches _ _ _ _ _ _)); · decide)
      | (with_reducible apply Touches.fold (fun _ _ => ?_))
      | split

theorem giveMaximum_touches (s : State) (c : Nat) (t : Nat) (n : Nat) (v : BitVec 32) : Touches [.ctxs, .steps, .links, .topo, .sent] s (giveMaximum s c t n v) := by
  unfold giveMaximum
  try dsimp only
  repeat' first
    | with_reducible exact .refl
    | simp only [Touches.mk_iff, Touches.ite_iff]
    | with_reducible refine And.intro (fun _ => ?_) (fun _ => ?_)
    | ((with_reducible refine Leaf.of rfl (fun p hp => ?_) ?_); (cases p <;> first | exact absurd hp (by decide) | (show _ = _; with_reducible rfl) | rfl | (show _ = _; unfold openStep; split <;> rfl)))
    | ((with_reducible apply Touches.step (setMaximum_touches _ _ _ _ _)); · decide)
    | ((with_reducible apply Touches.step (onStep_touches _ _ _)); · decide)
    | ((with_reducible apply Touches.step (exchBegin_touches _ _ _ _ _ _)); · decide)
    | ((with_reducible apply Touches.step (exchTake_touches _ _ _ _ _)); · decide)

theorem giveRunning_touches (s : State) (c : Nat) (n : Nat) (ts : List Nat) : Touches [.ctxs, .steps, .links, .topo, .sent] s (giveRunning s c n ts) := by
  unfold giveRunning
  try dsimp only
  repeat' first
    | with_reducible exact .refl
    | simp only [Touches.mk_iff, Touches.ite_iff]
    | with_reducible refine And.intro (fun _ => ?_) (fun _ => ?_)
    | ((with_reducible refine Leaf.of rfl (fun p hp => ?_) ?_); (cases p <;> first | exact absurd hp (by decide) | (show _ = _; with_reducible rfl) | rfl | (show _ = _; unfold openStep; split <;> rfl)))
    | ((with_reducible apply Touches.step (giveMaximum_touches _ _ _ _ _)); · decide)
    | (with_reducible apply Touches.fold (fun _ _ => ?_))
    | split

theorem taskEnds_touches (s : State) (t : Task) (r : Run) : Touches [.host, .ctxs, .results, .steps, .links, .topo, .sent] s (taskEnds s t r) := by
  unfold taskEnds
  try dsimp only
  repeat' first
    | with_reducible exact .refl
    | simp only [Touches.mk_iff, Touches.ite_iff]
    | with_reducible refine And.intro (fun _ => ?_) (fun _ => ?_)
    | ((with_reducible refine Leaf.of rfl (fun p hp => ?_) ?_); (cases p <;> first | exact absurd hp (by decide) | (show _ = _; with_reducible rfl) | rfl | (show _ = _; unfold openStep; split <;> rfl)))
    | ((with_reducible apply Touches.step (haltCtx_touches _ _ _ _)); · decide)
    | ((with_reducible apply Touches.step (giveMaximum_touches _ _ _ _ _)); · decide)
    | ((with_reducible apply Touches.step (giveRunning_touches _ _ _ _)); · decide)
    | (with_reducible apply Touches.fold (fun _ _ => ?_))
    | split

theorem runEnds_touches (s : State) (t : Task) (r : Run) : Touches [.host, .ctxs, .results, .steps, .links, .topo, .sent] s (runEnds s t r) := by
  unfold runEnds
  try dsimp only
  repeat' first
    | with_reducible exact .refl
    | simp only [Touches.mk_iff, Touches.ite_iff]
    | with_reducible refine And.intro (fun _ => ?_) (fun _ => ?_)
    | ((with_reducible refine Leaf.of rfl (fun p hp => ?_) ?_); (cases p <;> first | exact absurd hp (by decide) | (show _ = _; with_reducible rfl) | rfl | (show _ = _; unfold openStep; split <;> rfl)))
    | ((with_reducible apply Touches.step (taskEnds_touches _ _ _)); · decide)
    | ((with_reducible apply Touches.step (onStep_touches _ _ _)); · decide)
    | ((with_reducible apply Touches.step (onCtx_touches _ _ _)); · decide)
    | ((with_reducible apply Touches.step (progress_touches _ _)); · decide)

theorem execPieceComplete_touches (core : Fin 145) (which : Fin 2) (s : State) : OutTouches [.host, .ctxs, .results, .cores, .steps, .links, .topo, .sent] s (execPieceComplete core which s) := by
  unfold execPieceComplete
  try dsimp only
  repeat' first
    | with_reducible exact .refl
    | with_reducible apply OutTouches.next
    | with_reducible exact OutTouches.fault
    | simp only [Touches.mk_iff, Touches.ite_iff]
    | with_reducible refine And.intro (fun _ => ?_) (fun _ => ?_)
    | ((with_reducible refine Leaf.of rfl (fun p hp => ?_) ?_); (cases p <;> first | exact absurd hp (by decide) | (show _ = _; with_reducible rfl) | rfl | (show _ = _; unfold openStep; split <;> rfl)))
    | ((with_reducible apply Touches.step (runEnds_touches _ _ _)); · decide)
    | ((with_reducible apply Touches.step (onCore__touches _ _ _)); · decide)
    | (with_reducible apply Touches.fold (fun _ _ => ?_))
    | split

theorem finishHolds_touches (s : State) (n : Nat) : Touches [.vers, .ckpt] s (finishHolds s n) := by
  unfold finishHolds
  try dsimp only
  repeat' first
    | with_reducible exact .refl
    | simp only [Touches.mk_iff, Touches.ite_iff]
    | with_reducible refine And.intro (fun _ => ?_) (fun _ => ?_)
    | ((with_reducible refine Leaf.of rfl (fun p hp => ?_) ?_); (cases p <;> first | exact absurd hp (by decide) | (show _ = _; with_reducible rfl) | rfl | (show _ = _; unfold openStep; split <;> rfl)))

theorem execSplitStallResume_touches (core : Fin 145) (s : State) : OutTouches [.vers, .ckpt] s (execSplitStallResume core s) := by
  unfold execSplitStallResume
  try dsimp only
  repeat' first
    | with_reducible exact .refl
    | with_reducible apply OutTouches.next
    | with_reducible exact OutTouches.fault
    | simp only [Touches.mk_iff, Touches.ite_iff]
    | with_reducible refine And.intro (fun _ => ?_) (fun _ => ?_)
    | ((with_reducible refine Leaf.of rfl (fun p hp => ?_) ?_); (cases p <;> first | exact absurd hp (by decide) | (show _ = _; with_reducible rfl) | rfl | (show _ = _; unfold openStep; split <;> rfl)))
    | ((with_reducible apply Touches.step (finishHolds_touches _ _)); · decide)
    | (with_reducible apply Touches.fold (fun _ _ => ?_))
    | split

theorem execSig_touches (ctx : Fin 16) (s : State) : OutTouches [.ctxs] s (execSig ctx s) := by
  unfold execSig
  try dsimp only
  repeat' first
    | with_reducible exact .refl
    | with_reducible apply OutTouches.next
    | with_reducible exact OutTouches.fault
    | simp only [Touches.mk_iff, Touches.ite_iff]
    | with_reducible refine And.intro (fun _ => ?_) (fun _ => ?_)
    | ((with_reducible refine Leaf.of rfl (fun p hp => ?_) ?_); (cases p <;> first | exact absurd hp (by decide) | (show _ = _; with_reducible rfl) | rfl | (show _ = _; unfold openStep; split <;> rfl)))
    | ((with_reducible apply Touches.step (onCtx_touches _ _ _)); · decide)
    | (with_reducible apply Touches.fold (fun _ _ => ?_))
    | split

theorem execWait_touches (ctx : Fin 16) (s : State) : OutTouches [.ctxs] s (execWait ctx s) := by
  unfold execWait
  try dsimp only
  repeat' first
    | with_reducible exact .refl
    | with_reducible apply OutTouches.next
    | with_reducible exact OutTouches.fault
    | simp only [Touches.mk_iff, Touches.ite_iff]
    | with_reducible refine And.intro (fun _ => ?_) (fun _ => ?_)
    | ((with_reducible refine Leaf.of rfl (fun p hp => ?_) ?_); (cases p <;> first | exact absurd hp (by decide) | (show _ = _; with_reducible rfl) | rfl | (show _ = _; unfold openStep; split <;> rfl)))
    | ((with_reducible apply Touches.step (onCtx_touches _ _ _)); · decide)
    | (with_reducible apply Touches.fold (fun _ _ => ?_))
    | split

theorem execSigTakesEffect_touches (ctx : Fin 16) (s : State) : OutTouches [.ctxs, .steps, .sync, .links, .topo, .ledger, .fw, .sent, .free] s (execSigTakesEffect ctx s) := by
  unfold execSigTakesEffect
  try dsimp only
  repeat' first
    | with_reducible exact .refl
    | with_reducible apply OutTouches.next
    | with_reducible exact OutTouches.fault
    | simp only [Touches.mk_iff, Touches.ite_iff]
    | with_reducible refine And.intro (fun _ => ?_) (fun _ => ?_)
    | ((with_reducible refine Leaf.of rfl (fun p hp => ?_) ?_); (cases p <;> first | exact absurd hp (by decide) | (show _ = _; with_reducible rfl) | rfl | (show _ = _; unfold openStep; split <;> rfl)))
    | ((with_reducible apply Touches.step (applySig_touches _ _ _ _)); · decide)
    | ((with_reducible apply Touches.step (onCtx_touches _ _ _)); · decide)
    | ((with_reducible apply Touches.step (progress_touches _ _)); · decide)
    | (with_reducible apply Touches.fold (fun _ _ => ?_))
    | split

theorem execWaitSatisfied_touches (ctx : Fin 16) (s : State) : OutTouches [.ctxs, .steps, .links, .topo, .sent] s (execWaitSatisfied ctx s) := by
  unfold execWaitSatisfied
  try dsimp only
  repeat' first
    | with_reducible exact .refl
    | with_reducible apply OutTouches.next
    | with_reducible exact OutTouches.fault
    | simp only [Touches.mk_iff, Touches.ite_iff]
    | with_reducible refine And.intro (fun _ => ?_) (fun _ => ?_)
    | ((with_reducible refine Leaf.of rfl (fun p hp => ?_) ?_); (cases p <;> first | exact absurd hp (by decide) | (show _ = _; with_reducible rfl) | rfl | (show _ = _; unfold openStep; split <;> rfl)))
    | ((with_reducible apply Touches.step (onCtx_touches _ _ _)); · decide)
    | ((with_reducible apply Touches.step (progress_touches _ _)); · decide)
    | (with_reducible apply Touches.fold (fun _ _ => ?_))
    | split

theorem fetchBatch_touches (s : State) (n : Nat) : Touches [.fetch] s (fetchBatch s n) := by
  unfold fetchBatch
  try dsimp only
  repeat' first
    | with_reducible exact .refl
    | simp only [Touches.mk_iff, Touches.ite_iff]
    | with_reducible refine And.intro (fun _ => ?_) (fun _ => ?_)
    | ((with_reducible refine Leaf.of rfl (fun p hp => ?_) ?_); (cases p <;> first | exact absurd hp (by decide) | (show _ = _; with_reducible rfl) | rfl | (show _ = _; unfold openStep; split <;> rfl)))

theorem execBatchHeaderPoll_touches (hdrStep : Nat) (filled : Nat) (s : State) : OutTouches [.fetch, .sent] s (execBatchHeaderPoll hdrStep filled s) := by
  unfold execBatchHeaderPoll
  try dsimp only
  repeat' first
    | with_reducible exact .refl
    | with_reducible apply OutTouches.next
    | with_reducible exact OutTouches.fault
    | simp only [Touches.mk_iff, Touches.ite_iff]
    | with_reducible refine And.intro (fun _ => ?_) (fun _ => ?_)
    | ((with_reducible refine Leaf.of rfl (fun p hp => ?_) ?_); (cases p <;> first | exact absurd hp (by decide) | (show _ = _; with_reducible rfl) | rfl | (show _ = _; unfold openStep; split <;> rfl)))
    | ((with_reducible apply Touches.step (emit_touches _ _)); · decide)
    | (with_reducible apply Touches.fold (fun _ _ => ?_))
    | split

theorem execBatchFetchDone_touches (body : List Byte) (s : State) : OutTouches [.fetch, .place, .sent] s (execBatchFetchDone body s) := by
  unfold execBatchFetchDone
  try dsimp only
  repeat' first
    | with_reducible exact .refl
    | with_reducible apply OutTouches.next
    | with_reducible exact OutTouches.fault
    | simp only [Touches.mk_iff, Touches.ite_iff]
    | with_reducible refine And.intro (fun _ => ?_) (fun _ => ?_)
    | ((with_reducible refine Leaf.of rfl (fun p hp => ?_) ?_); (cases p <;> first | exact absurd hp (by decide) | (show _ = _; with_reducible rfl) | rfl | (show _ = _; unfold openStep; split <;> rfl)))
    | ((with_reducible apply Touches.step (emit_touches _ _)); · decide)
    | (with_reducible apply Touches.fold (fun _ _ => ?_))
    | split

theorem plansTake_touches (s : State) (n : Nat) : Touches [.place] s (plansTake s n) := by
  unfold plansTake
  try dsimp only
  repeat' first
    | with_reducible exact .refl
    | simp only [Touches.mk_iff, Touches.ite_iff]
    | with_reducible refine And.intro (fun _ => ?_) (fun _ => ?_)
    | ((with_reducible refine Leaf.of rfl (fun p hp => ?_) ?_); (cases p <;> first | exact absurd hp (by decide) | (show _ = _; with_reducible rfl) | rfl | (show _ = _; unfold openStep; split <;> rfl)))

theorem beginNext_touches (s : State) (n : Nat) : Touches [.ctxs, .fetch, .steps, .place, .mem] s (beginNext s n) := by
  unfold beginNext
  try dsimp only
  repeat' first
    | with_reducible exact .refl
    | simp only [Touches.mk_iff, Touches.ite_iff]
    | with_reducible refine And.intro (fun _ => ?_) (fun _ => ?_)
    | ((with_reducible refine Leaf.of rfl (fun p hp => ?_) ?_); (cases p <;> first | exact absurd hp (by decide) | (show _ = _; with_reducible rfl) | rfl | (show _ = _; unfold openStep; split <;> rfl)))
    | ((with_reducible apply Touches.step (plansTake_touches _ _)); · decide)
    | ((with_reducible apply Touches.step (fetchBatch_touches _ _)); · decide)

theorem execStepBoundary_touches (s : State) : OutTouches [.ctxs, .fetch, .steps, .place, .mem] s (execStepBoundary s) := by
  unfold execStepBoundary
  try dsimp only
  repeat' first
    | with_reducible exact .refl
    | with_reducible apply OutTouches.next
    | with_reducible exact OutTouches.fault
    | simp only [Touches.mk_iff, Touches.ite_iff]
    | with_reducible refine And.intro (fun _ => ?_) (fun _ => ?_)
    | ((with_reducible refine Leaf.of rfl (fun p hp => ?_) ?_); (cases p <;> first | exact absurd hp (by decide) | (show _ = _; with_reducible rfl) | rfl | (show _ = _; unfold openStep; split <;> rfl)))
    | ((with_reducible apply Touches.step (beginNext_touches _ _)); · decide)
    | (with_reducible apply Touches.fold (fun _ _ => ?_))
    | split

theorem contributeClean_touches (s : State) (o : OpenStep) : Touches [.devState, .dev, .owner, .host, .ctxs, .vers, .fetch, .results, .cores, .committed, .steps, .sync, .chans, .coll, .num, .place, .mem, .links, .topo, .ckpt, .tests, .fenceSet, .recov, .power, .fw, .meas, .sec, .sent, .free] s (contributeClean s o) := by
  unfold contributeClean
  try dsimp only
  repeat' first
    | with_reducible exact .refl
    | simp only [Touches.mk_iff, Touches.ite_iff]
    | with_reducible refine And.intro (fun _ => ?_) (fun _ => ?_)
    | ((with_reducible refine Leaf.of rfl (fun p hp => ?_) ?_); (cases p <;> first | exact absurd hp (by decide) | (show _ = _; with_reducible rfl) | rfl | (show _ = _; unfold openStep; split <;> rfl)))
    | ((with_reducible apply Touches.step (chanOwn_touches _ _ _ _ _ _)); · decide)
    | ((with_reducible apply Touches.step (finishStep_touches _)); · decide)

theorem execVerdictContribute_touches (s : State) : OutTouches [.devState, .dev, .owner, .host, .ctxs, .vers, .fetch, .results, .cores, .committed, .steps, .sync, .chans, .coll, .num, .place, .mem, .links, .topo, .ckpt, .tests, .fenceSet, .recov, .power, .fw, .meas, .sec, .sent, .free] s (execVerdictContribute s) := by
  unfold execVerdictContribute
  try dsimp only
  repeat' first
    | with_reducible exact .refl
    | with_reducible apply OutTouches.next
    | with_reducible exact OutTouches.fault
    | simp only [Touches.mk_iff, Touches.ite_iff]
    | with_reducible refine And.intro (fun _ => ?_) (fun _ => ?_)
    | ((with_reducible refine Leaf.of rfl (fun p hp => ?_) ?_); (cases p <;> first | exact absurd hp (by decide) | (show _ = _; with_reducible rfl) | rfl | (show _ = _; unfold openStep; split <;> rfl)))
    | ((with_reducible apply Touches.step (contributeClean_touches _ _)); · decide)
    | ((with_reducible apply Touches.step (ownAbort_touches _)); · decide)
    | (with_reducible apply Touches.fold (fun _ _ => ?_))
    | split

theorem execReplayDispatch_touches (s : State) : OutTouches [.vers, .fetch, .steps] s (execReplayDispatch s) := by
  unfold execReplayDispatch
  try dsimp only
  repeat' first
    | with_reducible exact .refl
    | with_reducible apply OutTouches.next
    | with_reducible exact OutTouches.fault
    | simp only [Touches.mk_iff, Touches.ite_iff]
    | with_reducible refine And.intro (fun _ => ?_) (fun _ => ?_)
    | ((with_reducible refine Leaf.of rfl (fun p hp => ?_) ?_); (cases p <;> first | exact absurd hp (by decide) | (show _ = _; with_reducible rfl) | rfl | (show _ = _; unfold openStep; split <;> rfl)))
    | ((with_reducible apply Touches.step (fetchBatch_touches _ _)); · decide)
    | (with_reducible apply Touches.fold (fun _ _ => ?_))
    | split

end Sys2Proof.Machine
end

