-- ==== Sys2Proof/Laws/TouchChecks.lean ====
section
/-! SUPPORT. What each operation and meaning of Machine/Checks.lean can change. -/

set_option linter.unusedSimpArgs false
set_option linter.unusedTactic false
set_option linter.unreachableTactic false

namespace Sys2Proof.Machine

theorem checkLeaves_touches (s : State) (g : Nat) (c : CheckPiece) : Touches [.cores] s (checkLeaves s g c) := by
  unfold checkLeaves
  try dsimp only
  repeat' first
    | with_reducible exact .refl
    | simp only [Touches.mk_iff, Touches.ite_iff]
    | with_reducible refine And.intro (fun _ => ?_) (fun _ => ?_)
    | ((with_reducible refine Leaf.of rfl (fun p hp => ?_) ?_); (cases p <;> first | exact absurd hp (by decide) | (show _ = _; with_reducible rfl) | rfl | (show _ = _; unfold openStep; split <;> rfl)))
    | ((with_reducible apply Touches.step (onCore__touches _ _ _)); · decide)

theorem arbitersEnter_touches (s : State) : Touches [.cores, .steps] s (arbitersEnter s) := by
  unfold arbitersEnter
  try dsimp only
  repeat' first
    | with_reducible exact .refl
    | simp only [Touches.mk_iff, Touches.ite_iff]
    | with_reducible refine And.intro (fun _ => ?_) (fun _ => ?_)
    | ((with_reducible refine Leaf.of rfl (fun p hp => ?_) ?_); (cases p <;> first | exact absurd hp (by decide) | (show _ = _; with_reducible rfl) | rfl | (show _ = _; unfold openStep; split <;> rfl)))
    | ((with_reducible apply Touches.step (enqueueChecks_touches _ _ _)); · decide)
    | (with_reducible apply Touches.fold (fun _ _ => ?_))
    | split

theorem execReexecIssue_touches (core : Fin 136) (err : CheckErr) (s : State) : OutTouches [.devState, .dev, .owner, .host, .poison, .ctxs, .vers, .fetch, .results, .cores, .steps, .sync, .chans, .coll, .num, .place, .mem, .links, .topo, .ledger, .tests, .fenceSet, .recov, .fw, .meas, .sec, .sent, .free] s (execReexecIssue core err s) := by
  unfold execReexecIssue
  try dsimp only
  repeat' first
    | with_reducible exact .refl
    | with_reducible apply OutTouches.next
    | with_reducible exact OutTouches.fault
    | simp only [Touches.mk_iff, Touches.ite_iff]
    | with_reducible refine And.intro (fun _ => ?_) (fun _ => ?_)
    | ((with_reducible refine Leaf.of rfl (fun p hp => ?_) ?_); (cases p <;> first | exact absurd hp (by decide) | (show _ = _; with_reducible rfl) | rfl | (show _ = _; unfold openStep; split <;> rfl)))
    | ((with_reducible apply Touches.step (onCore__touches _ _ _)); · decide)
    | ((with_reducible apply Touches.step (eccHits_touches _ _ _ _)); · decide)
    | ((with_reducible apply Touches.step (markedRead_touches _ _ _ _)); · decide)
    | ((with_reducible apply Touches.step (markedRead_some_touches _ _ _ _)); · decide)
    | ((with_reducible apply Touches.step (arbitersEnter_touches _)); · decide)
    | (with_reducible apply Touches.fold (fun _ _ => ?_))
    | split

theorem onCheckStep_touches (s : State) (c : CheckPiece) (f : OpenStep → OpenStep) : Touches [.steps] s (onCheckStep s c f) := by
  unfold onCheckStep
  try dsimp only
  repeat' first
    | with_reducible exact .refl
    | simp only [Touches.mk_iff, Touches.ite_iff]
    | with_reducible refine And.intro (fun _ => ?_) (fun _ => ?_)
    | ((with_reducible refine Leaf.of rfl (fun p hp => ?_) ?_); (cases p <;> first | exact absurd hp (by decide) | (show _ = _; with_reducible rfl) | rfl | (show _ = _; unfold openStep; split <;> rfl)))
    | ((with_reducible apply Touches.step (onStep_touches _ _ _)); · decide)

theorem setRec_touches (s : State) (c : CheckPiece) (u : Nat) (st : CheckState) : Touches [.steps] s (setRec s c u st) := by
  unfold setRec
  try dsimp only
  repeat' first
    | with_reducible exact .refl
    | simp only [Touches.mk_iff, Touches.ite_iff]
    | with_reducible refine And.intro (fun _ => ?_) (fun _ => ?_)
    | ((with_reducible refine Leaf.of rfl (fun p hp => ?_) ?_); (cases p <;> first | exact absurd hp (by decide) | (show _ = _; with_reducible rfl) | rfl | (show _ = _; unfold openStep; split <;> rfl)))
    | ((with_reducible apply Touches.step (onCheckStep_touches _ _ _)); · decide)

theorem laneEvents_touches (s : State) (g : Nat) (c : Nat) (task : Nat) (n : Nat) (arg : BitVec 64) : Touches [.ledger, .fw, .free] s (laneEvents s g c task n arg) := by
  unfold laneEvents
  try dsimp only
  repeat' first
    | with_reducible exact .refl
    | simp only [Touches.mk_iff, Touches.ite_iff]
    | with_reducible refine And.intro (fun _ => ?_) (fun _ => ?_)
    | ((with_reducible refine Leaf.of rfl (fun p hp => ?_) ?_); (cases p <;> first | exact absurd hp (by decide) | (show _ = _; with_reducible rfl) | rfl | (show _ = _; unfold openStep; split <;> rfl)))
    | ((with_reducible apply Touches.step (taskEvent_touches _ _ _ _ _ _ _)); · decide)
    | (with_reducible apply Touches.fold (fun _ _ => ?_))

theorem unitMatches_touches (s : State) (g : Nat) (c : CheckPiece) (r : CheckRec) (out : UnitOut) : Touches [.steps, .num, .ledger, .fw, .free] s (unitMatches s g c r out) := by
  unfold unitMatches
  try dsimp only
  repeat' first
    | with_reducible exact .refl
    | simp only [Touches.mk_iff, Touches.ite_iff]
    | with_reducible refine And.intro (fun _ => ?_) (fun _ => ?_)
    | ((with_reducible refine Leaf.of rfl (fun p hp => ?_) ?_); (cases p <;> first | exact absurd hp (by decide) | (show _ = _; with_reducible rfl) | rfl | (show _ = _; unfold openStep; split <;> rfl)))
    | ((with_reducible apply Touches.step (setRec_touches _ _ _ _)); · decide)
    | ((with_reducible apply Touches.step (laneEvents_touches _ _ _ _ _ _)); · decide)

theorem unitDiffers_touches (s : State) (g : Nat) (c : CheckPiece) (r : CheckRec) (u : UnitOut) (chk : List (BitVec 64)) : Touches [.cores, .steps, .num] s (unitDiffers s g c r u chk) := by
  unfold unitDiffers
  try dsimp only
  repeat' first
    | with_reducible exact .refl
    | simp only [Touches.mk_iff, Touches.ite_iff]
    | with_reducible refine And.intro (fun _ => ?_) (fun _ => ?_)
    | ((with_reducible refine Leaf.of rfl (fun p hp => ?_) ?_); (cases p <;> first | exact absurd hp (by decide) | (show _ = _; with_reducible rfl) | rfl | (show _ = _; unfold openStep; split <;> rfl)))
    | ((with_reducible apply Touches.step (setRec_touches _ _ _ _)); · decide)
    | ((with_reducible apply Touches.step (onCheckStep_touches _ _ _)); · decide)
    | ((with_reducible apply Touches.step (arbitersEnter_touches _)); · decide)

theorem judgeUnit_touches (s : State) (g : Nat) (c : CheckPiece) (out : UnitOut) : Touches [.cores, .steps, .num, .ledger, .fw, .free] s (judgeUnit s g c out) := by
  unfold judgeUnit
  try dsimp only
  repeat' first
    | with_reducible exact .refl
    | simp only [Touches.mk_iff, Touches.ite_iff]
    | with_reducible refine And.intro (fun _ => ?_) (fun _ => ?_)
    | ((with_reducible refine Leaf.of rfl (fun p hp => ?_) ?_); (cases p <;> first | exact absurd hp (by decide) | (show _ = _; with_reducible rfl) | rfl | (show _ = _; unfold openStep; split <;> rfl)))
    | ((with_reducible apply Touches.step (unitDiffers_touches _ _ _ _ _ _)); · decide)
    | ((with_reducible apply Touches.step (unitMatches_touches _ _ _ _ _)); · decide)
    | (with_reducible apply Touches.fold (fun _ _ => ?_))
    | split

theorem execCheckPieceComplete_touches (core : Fin 136) (s : State) : OutTouches [.devState, .dev, .owner, .host, .ctxs, .vers, .fetch, .results, .cores, .steps, .sync, .chans, .coll, .num, .place, .mem, .links, .topo, .ledger, .tests, .fenceSet, .recov, .fw, .meas, .sec, .sent, .free] s (execCheckPieceComplete core s) := by
  unfold execCheckPieceComplete
  try dsimp only
  repeat' first
    | with_reducible exact .refl
    | with_reducible apply OutTouches.next
    | with_reducible exact OutTouches.fault
    | simp only [Touches.mk_iff, Touches.ite_iff]
    | with_reducible refine And.intro (fun _ => ?_) (fun _ => ?_)
    | ((with_reducible refine Leaf.of rfl (fun p hp => ?_) ?_); (cases p <;> first | exact absurd hp (by decide) | (show _ = _; with_reducible rfl) | rfl | (show _ = _; unfold openStep; split <;> rfl)))
    | ((with_reducible apply Touches.step (checkLeaves_touches _ _ _)); · decide)
    | ((with_reducible apply Touches.step (judgeUnit_touches _ _ _ _)); · decide)
    | ((with_reducible apply Touches.step (noteWaits_touches _)); · decide)
    | ((with_reducible apply Touches.step (failStep_touches _ _ _)); · decide)
    | (with_reducible apply Touches.fold (fun _ _ => ?_))
    | split

theorem arbiterEnds_touches (s : State) (g : Nat) (c : CheckPiece) (digests : Option (List (BitVec 64))) : Touches [.ctxs, .vers, .cores, .steps, .num, .ledger, .fw, .free] s (arbiterEnds s g c digests) := by
  unfold arbiterEnds
  try dsimp only
  repeat' first
    | with_reducible exact .refl
    | simp only [Touches.mk_iff, Touches.ite_iff]
    | with_reducible refine And.intro (fun _ => ?_) (fun _ => ?_)
    | ((with_reducible refine Leaf.of rfl (fun p hp => ?_) ?_); (cases p <;> first | exact absurd hp (by decide) | (show _ = _; with_reducible rfl) | rfl | (show _ = _; unfold openStep; split <;> rfl)))
    | ((with_reducible apply Touches.step (checkLeaves_touches _ _ _)); · decide)
    | ((with_reducible apply Touches.step (arbiterCharges_touches _ _ _ _)); · decide)
    | ((with_reducible apply Touches.step (lateDiscard_touches _)); · decide)
    | ((with_reducible apply Touches.step (noteWaits_touches _)); · decide)

theorem execArbiterComplete_touches (core : Fin 136) (finished : Bool) (s : State) : OutTouches [.ctxs, .vers, .cores, .steps, .num, .ledger, .fw, .free] s (execArbiterComplete core finished s) := by
  unfold execArbiterComplete
  try dsimp only
  repeat' first
    | with_reducible exact .refl
    | with_reducible apply OutTouches.next
    | with_reducible exact OutTouches.fault
    | simp only [Touches.mk_iff, Touches.ite_iff]
    | with_reducible refine And.intro (fun _ => ?_) (fun _ => ?_)
    | ((with_reducible refine Leaf.of rfl (fun p hp => ?_) ?_); (cases p <;> first | exact absurd hp (by decide) | (show _ = _; with_reducible rfl) | rfl | (show _ = _; unfold openStep; split <;> rfl)))
    | ((with_reducible apply Touches.step (arbiterEnds_touches _ _ _ _)); · decide)
    | (with_reducible apply Touches.fold (fun _ _ => ?_))
    | split

theorem unattributed_touches (s : State) : Touches [.ledger, .fw, .free] s (unattributed s) := by
  unfold unattributed
  try dsimp only
  repeat' first
    | with_reducible exact .refl
    | simp only [Touches.mk_iff, Touches.ite_iff]
    | with_reducible refine And.intro (fun _ => ?_) (fun _ => ?_)
    | ((with_reducible refine Leaf.of rfl (fun p hp => ?_) ?_); (cases p <;> first | exact absurd hp (by decide) | (show _ = _; with_reducible rfl) | rfl | (show _ = _; unfold openStep; split <;> rfl)))
    | ((with_reducible apply Touches.step (faultEvent_touches _ _)); · decide)
    | ((with_reducible apply Touches.step (drawn_touches _)); · decide)

theorem pieceExpires_touches (s : State) (g : Nat) (which : Nat) (r : Run) : Touches [.clk, .devState, .dev, .owner, .host, .ctxs, .vers, .fetch, .results, .cores, .steps, .sync, .chans, .coll, .place, .mem, .links, .topo, .ledger, .tests, .fenceSet, .recov, .fw, .meas, .sec, .sent, .free] s (pieceExpires s g which r) := by
  unfold pieceExpires
  try dsimp only
  repeat' first
    | with_reducible exact .refl
    | simp only [Touches.mk_iff, Touches.ite_iff]
    | with_reducible refine And.intro (fun _ => ?_) (fun _ => ?_)
    | ((with_reducible refine Leaf.of rfl (fun p hp => ?_) ?_); (cases p <;> first | exact absurd hp (by decide) | (show _ = _; with_reducible rfl) | rfl | (show _ = _; unfold openStep; split <;> rfl)))
    | ((with_reducible apply Touches.step (haltCtx_touches _ _ _ _)); · decide)
    | ((with_reducible apply Touches.step (failSteps_touches _ _)); · decide)
    | ((with_reducible apply Touches.step (unattributed_touches _)); · decide)
    | ((with_reducible apply Touches.step (trotSweeps_touches _ _ _)); · decide)
    | ((with_reducible apply Touches.step (reach_touches _ _)); · decide)
    | ((with_reducible apply Touches.step (onCore__touches _ _ _)); · decide)
    | ((with_reducible apply Touches.step (taskEvent_touches _ _ _ _ _ _ _)); · decide)

theorem waitExpires_touches (s : State) (c : Nat) (task : Nat) (f : Ctx → Ctx) : Touches [.clk, .devState, .dev, .owner, .host, .ctxs, .vers, .fetch, .results, .cores, .steps, .sync, .chans, .coll, .place, .mem, .links, .topo, .ledger, .tests, .fenceSet, .recov, .fw, .meas, .sec, .sent, .free] s (waitExpires s c task f) := by
  unfold waitExpires
  try dsimp only
  repeat' first
    | with_reducible exact .refl
    | simp only [Touches.mk_iff, Touches.ite_iff]
    | with_reducible refine And.intro (fun _ => ?_) (fun _ => ?_)
    | ((with_reducible refine Leaf.of rfl (fun p hp => ?_) ?_); (cases p <;> first | exact absurd hp (by decide) | (show _ = _; with_reducible rfl) | rfl | (show _ = _; unfold openStep; split <;> rfl)))
    | ((with_reducible apply Touches.step (reach_touches _ _)); · decide)
    | ((with_reducible apply Touches.step (onCtx_touches _ _ _)); · decide)
    | ((with_reducible apply Touches.step (unattributed_touches _)); · decide)
    | ((with_reducible apply Touches.step (haltCtx_touches _ _ _ _)); · decide)
    | ((with_reducible apply Touches.step (failSteps_touches _ _)); · decide)

theorem execPieceWatchdogExpiry_touches (who : WdTarget) (s : State) : OutTouches [.clk, .devState, .dev, .owner, .host, .ctxs, .vers, .fetch, .results, .cores, .steps, .sync, .chans, .coll, .place, .mem, .links, .topo, .ledger, .tests, .fenceSet, .recov, .fw, .meas, .sec, .sent, .free] s (execPieceWatchdogExpiry who s) := by
  unfold execPieceWatchdogExpiry
  try dsimp only
  repeat' first
    | with_reducible exact .refl
    | with_reducible apply OutTouches.next
    | with_reducible exact OutTouches.fault
    | simp only [Touches.mk_iff, Touches.ite_iff]
    | with_reducible refine And.intro (fun _ => ?_) (fun _ => ?_)
    | ((with_reducible refine Leaf.of rfl (fun p hp => ?_) ?_); (cases p <;> first | exact absurd hp (by decide) | (show _ = _; with_reducible rfl) | rfl | (show _ = _; unfold openStep; split <;> rfl)))
    | ((with_reducible apply Touches.step (waitExpires_touches _ _ _ _)); · decide)
    | ((with_reducible apply Touches.step (noteWait_touches _ _)); · decide)
    | ((with_reducible apply Touches.step (pieceExpires_touches _ _ _ _)); · decide)
    | (with_reducible apply Touches.fold (fun _ _ => ?_))
    | split

theorem expireUnits_touches (s : State) (g : Nat) (c : CheckPiece) : Touches [.cores, .steps, .num] s (expireUnits s g c) := by
  unfold expireUnits
  try dsimp only
  repeat' first
    | with_reducible exact .refl
    | simp only [Touches.mk_iff, Touches.ite_iff]
    | with_reducible refine And.intro (fun _ => ?_) (fun _ => ?_)
    | ((with_reducible refine Leaf.of rfl (fun p hp => ?_) ?_); (cases p <;> first | exact absurd hp (by decide) | (show _ = _; with_reducible rfl) | rfl | (show _ = _; unfold openStep; split <;> rfl)))
    | ((with_reducible apply Touches.step (unitDiffers_touches _ _ _ _ _ _)); · decide)
    | (with_reducible apply Touches.fold (fun _ _ => ?_))
    | split

theorem execCheckWatchdogExpiry_touches (core : Fin 136) (s : State) : OutTouches [.clk, .devState, .dev, .owner, .host, .ctxs, .vers, .fetch, .results, .cores, .steps, .sync, .chans, .coll, .num, .place, .mem, .links, .topo, .ledger, .tests, .fenceSet, .recov, .fw, .meas, .sec, .sent, .free] s (execCheckWatchdogExpiry core s) := by
  unfold execCheckWatchdogExpiry
  try dsimp only
  repeat' first
    | with_reducible exact .refl
    | with_reducible apply OutTouches.next
    | with_reducible exact OutTouches.fault
    | simp only [Touches.mk_iff, Touches.ite_iff]
    | with_reducible refine And.intro (fun _ => ?_) (fun _ => ?_)
    | ((with_reducible refine Leaf.of rfl (fun p hp => ?_) ?_); (cases p <;> first | exact absurd hp (by decide) | (show _ = _; with_reducible rfl) | rfl | (show _ = _; unfold openStep; split <;> rfl)))
    | ((with_reducible apply Touches.step (checkLeaves_touches _ _ _)); · decide)
    | ((with_reducible apply Touches.step (expireUnits_touches _ _ _)); · decide)
    | ((with_reducible apply Touches.step (noteWaits_touches _)); · decide)
    | ((with_reducible apply Touches.step (failStep_touches _ _ _)); · decide)
    | ((with_reducible apply Touches.step (reach_touches _ _)); · decide)
    | ((with_reducible apply Touches.step (taskEvent_touches _ _ _ _ _ _ _)); · decide)
    | ((with_reducible apply Touches.step (arbiterEnds_touches _ _ _ _)); · decide)
    | (with_reducible apply Touches.fold (fun _ _ => ?_))
    | split

end Sys2Proof.Machine
end

