-- ==== Sys2Proof/Laws/TouchCollectives.lean ====
section
/-! SUPPORT. What each operation and meaning of Machine/Collectives.lean can change. -/

set_option linter.unusedSimpArgs false
set_option linter.unusedTactic false
set_option linter.unreachableTactic false

namespace Sys2Proof.Machine

theorem collGoes_touches (s : State) (c : Nat) (task : Nat) : Touches [.ctxs, .vers] s (collGoes s c task) := by
  unfold collGoes
  try dsimp only
  repeat' first
    | with_reducible exact .refl
    | simp only [Touches.mk_iff, Touches.ite_iff]
    | with_reducible refine And.intro (fun _ => ?_) (fun _ => ?_)
    | ((with_reducible refine Leaf.of rfl (fun p hp => ?_) ?_); (cases p <;> first | exact absurd hp (by decide) | (show _ = _; with_reducible rfl) | rfl | (show _ = _; unfold openStep; split <;> rfl)))
    | ((with_reducible apply Touches.step (onCtx_touches _ _ _)); · decide)
    | (with_reducible apply Touches.fold (fun _ _ => ?_))
    | split

theorem collStalls_touches (s : State) (c : Nat) (k : CollTask) : Touches [.vers] s (collStalls s c k) := by
  unfold collStalls
  try dsimp only
  repeat' first
    | with_reducible exact .refl
    | simp only [Touches.mk_iff, Touches.ite_iff]
    | with_reducible refine And.intro (fun _ => ?_) (fun _ => ?_)
    | ((with_reducible refine Leaf.of rfl (fun p hp => ?_) ?_); (cases p <;> first | exact absurd hp (by decide) | (show _ = _; with_reducible rfl) | rfl | (show _ = _; unfold openStep; split <;> rfl)))
    | ((with_reducible apply Touches.step (stallPiece_touches _ _ _)); · decide)

theorem collEnds_touches (s : State) (c : Nat) (k : CollTask) (u : Unit_) : Touches [.devState, .dev, .owner, .host, .ctxs, .vers, .fetch, .results, .cores, .steps, .sync, .chans, .coll, .num, .place, .mem, .links, .topo, .tests, .fenceSet, .recov, .fw, .meas, .sec, .sent, .free] s (collEnds s c k u) := by
  unfold collEnds
  try dsimp only
  repeat' first
    | with_reducible exact .refl
    | simp only [Touches.mk_iff, Touches.ite_iff]
    | with_reducible refine And.intro (fun _ => ?_) (fun _ => ?_)
    | ((with_reducible refine Leaf.of rfl (fun p hp => ?_) ?_); (cases p <;> first | exact absurd hp (by decide) | (show _ = _; with_reducible rfl) | rfl | (show _ = _; unfold openStep; split <;> rfl)))
    | ((with_reducible apply Touches.step (waitedOver_touches _ _)); · decide)
    | ((with_reducible apply Touches.step (putAll_touches _ _ _ _)); · decide)
    | ((with_reducible apply Touches.step (onCtx_touches _ _ _)); · decide)
    | ((with_reducible apply Touches.step (runEnds_touches _ _ _)); · decide)
    | ((with_reducible apply Touches.step (markedRead_touches _ _ _ _)); · decide)
    | ((with_reducible apply Touches.step (markedRead_some_touches _ _ _ _)); · decide)
    | (with_reducible apply Touches.fold (fun _ _ => ?_))
    | split

theorem countColl_touches (s : State) (bytes : Nat) (adds : Nat) : Touches [.coll] s (countColl s bytes adds) := by
  unfold countColl
  try dsimp only
  repeat' first
    | with_reducible exact .refl
    | simp only [Touches.mk_iff, Touches.ite_iff]
    | with_reducible refine And.intro (fun _ => ?_) (fun _ => ?_)
    | ((with_reducible refine Leaf.of rfl (fun p hp => ?_) ?_); (cases p <;> first | exact absurd hp (by decide) | (show _ = _; with_reducible rfl) | rfl | (show _ = _; unfold openStep; split <;> rfl)))

theorem sendFlits_touches (s : State) (c : Nat) (k : CollTask) (fs : List CollFlit) : Touches [.ctxs, .coll, .links, .topo, .sent] s (sendFlits s c k fs) := by
  unfold sendFlits
  try dsimp only
  repeat' first
    | with_reducible exact .refl
    | simp only [Touches.mk_iff, Touches.ite_iff]
    | with_reducible refine And.intro (fun _ => ?_) (fun _ => ?_)
    | ((with_reducible refine Leaf.of rfl (fun p hp => ?_) ?_); (cases p <;> first | exact absurd hp (by decide) | (show _ = _; with_reducible rfl) | rfl | (show _ = _; unfold openStep; split <;> rfl)))
    | ((with_reducible apply Touches.step (sendLand_touches _ _ _ _ _ _)); · decide)
    | ((with_reducible apply Touches.step (countColl_touches _ _ _)); · decide)
    | (with_reducible apply Touches.fold (fun _ _ => ?_))

theorem collRuns_touches (s : State) (c : Nat) (k : CollTask) (u : Unit_) (fs : List CollFlit) (adds : Nat) : Touches [.devState, .dev, .owner, .host, .ctxs, .vers, .fetch, .results, .cores, .steps, .sync, .chans, .coll, .num, .place, .mem, .links, .topo, .tests, .fenceSet, .recov, .fw, .meas, .sec, .sent, .free] s (collRuns s c k u fs adds) := by
  unfold collRuns
  try dsimp only
  repeat' first
    | with_reducible exact .refl
    | simp only [Touches.mk_iff, Touches.ite_iff]
    | with_reducible refine And.intro (fun _ => ?_) (fun _ => ?_)
    | ((with_reducible refine Leaf.of rfl (fun p hp => ?_) ?_); (cases p <;> first | exact absurd hp (by decide) | (show _ = _; with_reducible rfl) | rfl | (show _ = _; unfold openStep; split <;> rfl)))
    | ((with_reducible apply Touches.step (collStalls_touches _ _ _)); · decide)
    | ((with_reducible apply Touches.step (collGoes_touches _ _ _)); · decide)
    | ((with_reducible apply Touches.step (sendFlits_touches _ _ _ _)); · decide)
    | ((with_reducible apply Touches.step (countColl_touches _ _ _)); · decide)
    | ((with_reducible apply Touches.step (collEnds_touches _ _ _ _)); · decide)
    | ((with_reducible apply Touches.step (noteWait_touches _ _)); · decide)

theorem execAllReduce_touches (ctx : Fin 16) (others : OtherRanks) (s : State) : OutTouches [.devState, .dev, .owner, .host, .ctxs, .vers, .fetch, .results, .cores, .steps, .sync, .chans, .coll, .num, .place, .mem, .links, .topo, .tests, .fenceSet, .recov, .fw, .meas, .sec, .sent, .free] s (execAllReduce ctx others s) := by
  unfold execAllReduce
  try dsimp only
  repeat' first
    | with_reducible exact .refl
    | with_reducible apply OutTouches.next
    | with_reducible exact OutTouches.fault
    | simp only [Touches.mk_iff, Touches.ite_iff]
    | with_reducible refine And.intro (fun _ => ?_) (fun _ => ?_)
    | ((with_reducible refine Leaf.of rfl (fun p hp => ?_) ?_); (cases p <;> first | exact absurd hp (by decide) | (show _ = _; with_reducible rfl) | rfl | (show _ = _; unfold openStep; split <;> rfl)))
    | ((with_reducible apply Touches.step (collRuns_touches _ _ _ _ _ _)); · decide)
    | (with_reducible apply Touches.fold (fun _ _ => ?_))
    | split

theorem execReduceScatter_touches (ctx : Fin 16) (members : List (List Nat)) (s : State) : OutTouches [.devState, .dev, .owner, .host, .ctxs, .vers, .fetch, .results, .cores, .steps, .sync, .chans, .coll, .num, .place, .mem, .links, .topo, .tests, .fenceSet, .recov, .fw, .meas, .sec, .sent, .free] s (execReduceScatter ctx members s) := by
  unfold execReduceScatter
  try dsimp only
  repeat' first
    | with_reducible exact .refl
    | with_reducible apply OutTouches.next
    | with_reducible exact OutTouches.fault
    | simp only [Touches.mk_iff, Touches.ite_iff]
    | with_reducible refine And.intro (fun _ => ?_) (fun _ => ?_)
    | ((with_reducible refine Leaf.of rfl (fun p hp => ?_) ?_); (cases p <;> first | exact absurd hp (by decide) | (show _ = _; with_reducible rfl) | rfl | (show _ = _; unfold openStep; split <;> rfl)))
    | ((with_reducible apply Touches.step (collRuns_touches _ _ _ _ _ _)); · decide)
    | (with_reducible apply Touches.fold (fun _ _ => ?_))
    | split

theorem execAllGather_touches (ctx : Fin 16) (members : List (List Byte)) (s : State) : OutTouches [.devState, .dev, .owner, .host, .ctxs, .vers, .fetch, .results, .cores, .steps, .sync, .chans, .coll, .num, .place, .mem, .links, .topo, .tests, .fenceSet, .recov, .fw, .meas, .sec, .sent, .free] s (execAllGather ctx members s) := by
  unfold execAllGather
  try dsimp only
  repeat' first
    | with_reducible exact .refl
    | with_reducible apply OutTouches.next
    | with_reducible exact OutTouches.fault
    | simp only [Touches.mk_iff, Touches.ite_iff]
    | with_reducible refine And.intro (fun _ => ?_) (fun _ => ?_)
    | ((with_reducible refine Leaf.of rfl (fun p hp => ?_) ?_); (cases p <;> first | exact absurd hp (by decide) | (show _ = _; with_reducible rfl) | rfl | (show _ = _; unfold openStep; split <;> rfl)))
    | ((with_reducible apply Touches.step (collRuns_touches _ _ _ _ _ _)); · decide)
    | (with_reducible apply Touches.fold (fun _ _ => ?_))
    | split

theorem execSend_touches (ctx : Fin 16) (s : State) : OutTouches [.devState, .dev, .owner, .host, .ctxs, .vers, .fetch, .results, .cores, .steps, .sync, .chans, .coll, .num, .place, .mem, .links, .topo, .tests, .fenceSet, .recov, .fw, .meas, .sec, .sent, .free] s (execSend ctx s) := by
  unfold execSend
  try dsimp only
  repeat' first
    | with_reducible exact .refl
    | with_reducible apply OutTouches.next
    | with_reducible exact OutTouches.fault
    | simp only [Touches.mk_iff, Touches.ite_iff]
    | with_reducible refine And.intro (fun _ => ?_) (fun _ => ?_)
    | ((with_reducible refine Leaf.of rfl (fun p hp => ?_) ?_); (cases p <;> first | exact absurd hp (by decide) | (show _ = _; with_reducible rfl) | rfl | (show _ = _; unfold openStep; split <;> rfl)))
    | ((with_reducible apply Touches.step (collRuns_touches _ _ _ _ _ _)); · decide)
    | (with_reducible apply Touches.fold (fun _ _ => ?_))
    | split

theorem execRecv_touches (ctx : Fin 16) (data : List Byte) (s : State) : OutTouches [.devState, .dev, .owner, .host, .ctxs, .vers, .fetch, .results, .cores, .steps, .sync, .chans, .coll, .num, .place, .mem, .links, .topo, .tests, .fenceSet, .recov, .fw, .meas, .sec, .sent, .free] s (execRecv ctx data s) := by
  unfold execRecv
  try dsimp only
  repeat' first
    | with_reducible exact .refl
    | with_reducible apply OutTouches.next
    | with_reducible exact OutTouches.fault
    | simp only [Touches.mk_iff, Touches.ite_iff]
    | with_reducible refine And.intro (fun _ => ?_) (fun _ => ?_)
    | ((with_reducible refine Leaf.of rfl (fun p hp => ?_) ?_); (cases p <;> first | exact absurd hp (by decide) | (show _ = _; with_reducible rfl) | rfl | (show _ = _; unfold openStep; split <;> rfl)))
    | ((with_reducible apply Touches.step (drawn_touches _)); · decide)
    | ((with_reducible apply Touches.step (collRuns_touches _ _ _ _ _ _)); · decide)
    | (with_reducible apply Touches.fold (fun _ _ => ?_))
    | split

theorem barrierOpens_touches (s : State) (c : Nat) (k : CollTask) : Touches [.vers, .steps, .num] s (barrierOpens s c k) := by
  unfold barrierOpens
  try dsimp only
  repeat' first
    | with_reducible exact .refl
    | simp only [Touches.mk_iff, Touches.ite_iff]
    | with_reducible refine And.intro (fun _ => ?_) (fun _ => ?_)
    | ((with_reducible refine Leaf.of rfl (fun p hp => ?_) ?_); (cases p <;> first | exact absurd hp (by decide) | (show _ = _; with_reducible rfl) | rfl | (show _ = _; unfold openStep; split <;> rfl)))
    | ((with_reducible apply Touches.step (doSplits_touches _ _ _ _ _)); · decide)
    | ((with_reducible apply Touches.step (onStep_touches _ _ _)); · decide)
    | (with_reducible apply Touches.fold (fun _ _ => ?_))
    | split

theorem barrierEnds_touches (s : State) (c : Nat) (k : CollTask) (w : BitVec 32) : Touches [.devState, .dev, .owner, .host, .ctxs, .vers, .fetch, .results, .cores, .steps, .sync, .chans, .coll, .num, .place, .mem, .links, .topo, .tests, .fenceSet, .recov, .fw, .meas, .sec, .sent, .free] s (barrierEnds s c k w) := by
  unfold barrierEnds
  try dsimp only
  repeat' first
    | with_reducible exact .refl
    | simp only [Touches.mk_iff, Touches.ite_iff]
    | with_reducible refine And.intro (fun _ => ?_) (fun _ => ?_)
    | ((with_reducible refine Leaf.of rfl (fun p hp => ?_) ?_); (cases p <;> first | exact absurd hp (by decide) | (show _ = _; with_reducible rfl) | rfl | (show _ = _; unfold openStep; split <;> rfl)))
    | ((with_reducible apply Touches.step (collEnds_touches _ _ _ _)); · decide)

theorem finishProgram_touches (s : State) (k : Nat) : Touches [.devState, .dev, .owner, .host, .ctxs, .vers, .fetch, .results, .cores, .steps, .sync, .chans, .coll, .num, .place, .mem, .links, .topo, .tests, .fenceSet, .recov, .fw, .meas, .sec, .sent, .free] s (finishProgram s k) := by
  unfold finishProgram
  try dsimp only
  repeat' first
    | with_reducible exact .refl
    | simp only [Touches.mk_iff, Touches.ite_iff]
    | with_reducible refine And.intro (fun _ => ?_) (fun _ => ?_)
    | ((with_reducible refine Leaf.of rfl (fun p hp => ?_) ?_); (cases p <;> first | exact absurd hp (by decide) | (show _ = _; with_reducible rfl) | rfl | (show _ = _; unfold openStep; split <;> rfl)))
    | ((with_reducible apply Touches.step (chanClose_touches _ _ _)); · decide)
    | ((with_reducible apply Touches.step (chanIdle_touches _ _)); · decide)
    | ((with_reducible apply Touches.step (noteWait_touches _ _)); · decide)
    | ((with_reducible apply Touches.step (barrierEnds_touches _ _ _ _)); · decide)
    | ((with_reducible apply Touches.step (onCtx_touches _ _ _)); · decide)
    | (with_reducible apply Touches.fold (fun _ _ => ?_))
    | split

theorem execBarrier_touches (ctx : Fin 16) (s : State) : OutTouches [.devState, .dev, .owner, .host, .ctxs, .vers, .fetch, .results, .cores, .steps, .sync, .chans, .coll, .num, .place, .mem, .links, .topo, .tests, .fenceSet, .recov, .fw, .meas, .sec, .sent, .free] s (execBarrier ctx s) := by
  unfold execBarrier
  try dsimp only
  repeat' first
    | with_reducible exact .refl
    | with_reducible apply OutTouches.next
    | with_reducible exact OutTouches.fault
    | simp only [Touches.mk_iff, Touches.ite_iff]
    | with_reducible refine And.intro (fun _ => ?_) (fun _ => ?_)
    | ((with_reducible refine Leaf.of rfl (fun p hp => ?_) ?_); (cases p <;> first | exact absurd hp (by decide) | (show _ = _; with_reducible rfl) | rfl | (show _ = _; unfold openStep; split <;> rfl)))
    | ((with_reducible apply Touches.step (finishProgram_touches _ _)); · decide)
    | ((with_reducible apply Touches.step (collStalls_touches _ _ _)); · decide)
    | ((with_reducible apply Touches.step (collGoes_touches _ _ _)); · decide)
    | ((with_reducible apply Touches.step (barrierOpens_touches _ _ _)); · decide)
    | ((with_reducible apply Touches.step (onChan_touches _ _ _)); · decide)
    | ((with_reducible apply Touches.step (chanOwn_touches _ _ _ _ _ _)); · decide)
    | (with_reducible apply Touches.fold (fun _ _ => ?_))
    | split

theorem execSignal_touches (ctx : Fin 16) (s : State) : OutTouches [.devState, .dev, .owner, .host, .ctxs, .vers, .fetch, .results, .cores, .steps, .sync, .chans, .coll, .num, .place, .mem, .links, .topo, .tests, .fenceSet, .recov, .fw, .meas, .sec, .sent, .free] s (execSignal ctx s) := by
  unfold execSignal
  try dsimp only
  repeat' first
    | with_reducible exact .refl
    | with_reducible apply OutTouches.next
    | with_reducible exact OutTouches.fault
    | simp only [Touches.mk_iff, Touches.ite_iff]
    | with_reducible refine And.intro (fun _ => ?_) (fun _ => ?_)
    | ((with_reducible refine Leaf.of rfl (fun p hp => ?_) ?_); (cases p <;> first | exact absurd hp (by decide) | (show _ = _; with_reducible rfl) | rfl | (show _ = _; unfold openStep; split <;> rfl)))
    | ((with_reducible apply Touches.step (sendFlits_touches _ _ _ _)); · decide)
    | ((with_reducible apply Touches.step (emit_touches _ _)); · decide)
    | ((with_reducible apply Touches.step (collEnds_touches _ _ _ _)); · decide)
    | (with_reducible apply Touches.fold (fun _ _ => ?_))
    | split

theorem execSignalArrival_touches (ctx : Fin 16) (group : Nat) (step : Nat) (attempt : BitVec 4) (s : State) : OutTouches [.sync, .coll, .ledger, .fw, .free] s (execSignalArrival ctx group step attempt s) := by
  unfold execSignalArrival
  try dsimp only
  repeat' first
    | with_reducible exact .refl
    | with_reducible apply OutTouches.next
    | with_reducible exact OutTouches.fault
    | simp only [Touches.mk_iff, Touches.ite_iff]
    | with_reducible refine And.intro (fun _ => ?_) (fun _ => ?_)
    | ((with_reducible refine Leaf.of rfl (fun p hp => ?_) ?_); (cases p <;> first | exact absurd hp (by decide) | (show _ = _; with_reducible rfl) | rfl | (show _ = _; unfold openStep; split <;> rfl)))
    | ((with_reducible apply Touches.step (applySig_touches _ _ _ _)); · decide)
    | (with_reducible apply Touches.fold (fun _ _ => ?_))
    | split

theorem chunkReduced_touches (s : State) (c : Nat) (task : Nat) (k : Chunk) : Touches [.coll] s (chunkReduced s c task k) := by
  unfold chunkReduced
  try dsimp only
  repeat' first
    | with_reducible exact .refl
    | simp only [Touches.mk_iff, Touches.ite_iff]
    | with_reducible refine And.intro (fun _ => ?_) (fun _ => ?_)
    | ((with_reducible refine Leaf.of rfl (fun p hp => ?_) ?_); (cases p <;> first | exact absurd hp (by decide) | (show _ = _; with_reducible rfl) | rfl | (show _ = _; unfold openStep; split <;> rfl)))
    | ((with_reducible apply Touches.step (countColl_touches _ _ _)); · decide)
    | (with_reducible apply Touches.fold (fun _ _ => ?_))
    | split

theorem exchHolds_touches (s : State) (c : Nat) (n : Nat) (t : Nat) (v : BitVec 32) (h : Nat) : Touches [.steps, .coll] s (exchHolds s c n t v h) := by
  unfold exchHolds
  try dsimp only
  repeat' first
    | with_reducible exact .refl
    | simp only [Touches.mk_iff, Touches.ite_iff]
    | with_reducible refine And.intro (fun _ => ?_) (fun _ => ?_)
    | ((with_reducible refine Leaf.of rfl (fun p hp => ?_) ?_); (cases p <;> first | exact absurd hp (by decide) | (show _ = _; with_reducible rfl) | rfl | (show _ = _; unfold openStep; split <;> rfl)))
    | ((with_reducible apply Touches.step (onStep_touches _ _ _)); · decide)

theorem exchangeLands_touches (s : State) (c : Nat) (n : Nat) (e : Exch) (v : BitVec 32) (h : Nat) : Touches [.ctxs, .steps, .coll, .links, .topo, .sent] s (exchangeLands s c n e v h) := by
  unfold exchangeLands
  try dsimp only
  repeat' first
    | with_reducible exact .refl
    | simp only [Touches.mk_iff, Touches.ite_iff]
    | with_reducible refine And.intro (fun _ => ?_) (fun _ => ?_)
    | ((with_reducible refine Leaf.of rfl (fun p hp => ?_) ?_); (cases p <;> first | exact absurd hp (by decide) | (show _ = _; with_reducible rfl) | rfl | (show _ = _; unfold openStep; split <;> rfl)))
    | ((with_reducible apply Touches.step (exchSend_touches _ _ _ _ _ _ _ _)); · decide)
    | ((with_reducible apply Touches.step (exchSpread_touches _ _ _ _ _ _)); · decide)
    | ((with_reducible apply Touches.step (exchEnd_touches _ _ _ _ _)); · decide)
    | ((with_reducible apply Touches.step (progress_touches _ _)); · decide)
    | ((with_reducible apply Touches.step (exchHolds_touches _ _ _ _ _ _)); · decide)
    | ((with_reducible apply Touches.step (exchMerge_touches _ _ _ _ _ _)); · decide)
    | ((with_reducible apply Touches.step (exchTake_touches _ _ _ _ _)); · decide)
    | (with_reducible apply Touches.fold (fun _ _ => ?_))
    | split

theorem landFlit_touches (s : State) (link : Nat) (part : Nat) (c : Nat) (payload : List Byte) : Touches [.ctxs, .steps, .coll, .links, .topo, .sent] s (landFlit s link part c payload) := by
  unfold landFlit
  try dsimp only
  repeat' first
    | with_reducible exact .refl
    | simp only [Touches.mk_iff, Touches.ite_iff]
    | with_reducible refine And.intro (fun _ => ?_) (fun _ => ?_)
    | ((with_reducible refine Leaf.of rfl (fun p hp => ?_) ?_); (cases p <;> first | exact absurd hp (by decide) | (show _ = _; with_reducible rfl) | rfl | (show _ = _; unfold openStep; split <;> rfl)))
    | ((with_reducible apply Touches.step (chunkReduced_touches _ _ _ _)); · decide)
    | ((with_reducible apply Touches.step (exchHolds_touches _ _ _ _ _ _)); · decide)
    | ((with_reducible apply Touches.step (exchangeLands_touches _ _ _ _ _ _)); · decide)
    | (with_reducible apply Touches.fold (fun _ _ => ?_))
    | split

end Sys2Proof.Machine
end

