-- ==== Sys2Proof/Laws/TouchSync.lean ====
section
/-! SUPPORT. What each operation and meaning of Machine/Sync.lean can change. -/

set_option linter.unusedSimpArgs false
set_option linter.unusedTactic false
set_option linter.unreachableTactic false

namespace Sys2Proof.Machine

theorem bridgeOn_touches (s : State) (p : Nat) (d : Dir) : Touches [.topo, .sent] s (bridgeOn s p d) := by
  unfold bridgeOn
  try dsimp only
  repeat' first
    | with_reducible exact .refl
    | simp only [Touches.mk_iff, Touches.ite_iff]
    | with_reducible refine And.intro (fun _ => ?_) (fun _ => ?_)
    | ((with_reducible refine Leaf.of rfl (fun p hp => ?_) ?_); (cases p <;> first | exact absurd hp (by decide) | (show _ = _; with_reducible rfl) | rfl | (show _ = _; unfold openStep; split <;> rfl)))
    | ((with_reducible apply Touches.step (sendFrame_touches _ _ _ _)); · decide)
    | (with_reducible apply Touches.fold (fun _ _ => ?_))
    | split

theorem upPast_touches (s : State) (p : Nat) (d : Dir) : Touches [.topo, .sent] s (upPast s p d) := by
  unfold upPast
  try dsimp only
  repeat' first
    | with_reducible exact .refl
    | simp only [Touches.mk_iff, Touches.ite_iff]
    | with_reducible refine And.intro (fun _ => ?_) (fun _ => ?_)
    | ((with_reducible refine Leaf.of rfl (fun p hp => ?_) ?_); (cases p <;> first | exact absurd hp (by decide) | (show _ = _; with_reducible rfl) | rfl | (show _ = _; unfold openStep; split <;> rfl)))
    | ((with_reducible apply Touches.step (sendFrame_touches _ _ _ _)); · decide)
    | ((with_reducible apply Touches.step (bridgeOn_touches _ _ _)); · decide)
    | (with_reducible apply Touches.fold (fun _ _ => ?_))
    | split

theorem finishChan_touches (s : State) (k : Nat) : Touches [.devState, .dev, .owner, .host, .ctxs, .vers, .fetch, .results, .cores, .committed, .steps, .sync, .chans, .coll, .num, .place, .mem, .links, .topo, .ckpt, .tests, .fenceSet, .recov, .power, .fw, .meas, .sec, .sent, .free] s (finishChan s k) := by
  unfold finishChan
  try dsimp only
  repeat' first
    | with_reducible exact .refl
    | simp only [Touches.mk_iff, Touches.ite_iff]
    | with_reducible refine And.intro (fun _ => ?_) (fun _ => ?_)
    | ((with_reducible refine Leaf.of rfl (fun p hp => ?_) ?_); (cases p <;> first | exact absurd hp (by decide) | (show _ = _; with_reducible rfl) | rfl | (show _ = _; unfold openStep; split <;> rfl)))
    | ((with_reducible apply Touches.step (finishProgram_touches _ _)); · decide)
    | ((with_reducible apply Touches.step (castVotes_touches _ _)); · decide)
    | ((with_reducible apply Touches.step (finishStep_touches _)); · decide)
    | (with_reducible apply Touches.fold (fun _ _ => ?_))
    | split

theorem noticesIn_touches (s : State) (p : Nat) : Touches [.devState, .dev, .owner, .host, .ctxs, .vers, .fetch, .cores, .steps, .sync, .chans, .coll, .place, .mem, .links, .topo, .tests, .fenceSet, .recov, .fw, .meas, .sec, .sent, .free] s (noticesIn s p) := by
  unfold noticesIn
  try dsimp only
  repeat' first
    | with_reducible exact .refl
    | simp only [Touches.mk_iff, Touches.ite_iff]
    | with_reducible refine And.intro (fun _ => ?_) (fun _ => ?_)
    | ((with_reducible refine Leaf.of rfl (fun p hp => ?_) ?_); (cases p <;> first | exact absurd hp (by decide) | (show _ = _; with_reducible rfl) | rfl | (show _ = _; unfold openStep; split <;> rfl)))
    | ((with_reducible apply Touches.step (adoptNotices_touches _ _)); · decide)

theorem takeUp_touches (s : State) (p : Nat) (d : Dir) : Touches [.devState, .dev, .owner, .host, .ctxs, .vers, .fetch, .results, .cores, .committed, .steps, .sync, .chans, .coll, .num, .place, .mem, .links, .topo, .ckpt, .tests, .fenceSet, .recov, .power, .fw, .meas, .sec, .sent, .free] s (takeUp s p d) := by
  unfold takeUp
  try dsimp only
  repeat' first
    | with_reducible exact .refl
    | simp only [Touches.mk_iff, Touches.ite_iff]
    | with_reducible refine And.intro (fun _ => ?_) (fun _ => ?_)
    | ((with_reducible refine Leaf.of rfl (fun p hp => ?_) ?_); (cases p <;> first | exact absurd hp (by decide) | (show _ = _; with_reducible rfl) | rfl | (show _ = _; unfold openStep; split <;> rfl)))
    | ((with_reducible apply Touches.step (chanTake_touches _ _ _ _ _ _ _ _)); · decide)
    | ((with_reducible apply Touches.step (finishChan_touches _ _)); · decide)
    | ((with_reducible apply Touches.step (noticesIn_touches _ _)); · decide)
    | ((with_reducible apply Touches.step (bridgeOn_touches _ _ _)); · decide)
    | (with_reducible apply Touches.fold (fun _ _ => ?_))
    | split

theorem execSyncUpFrame_touches (link : Fin 48) (frame : BitVec 96) (s : State) : OutTouches [.devState, .dev, .owner, .host, .ctxs, .vers, .fetch, .results, .cores, .committed, .steps, .sync, .chans, .coll, .num, .place, .mem, .links, .topo, .ckpt, .tests, .fenceSet, .recov, .power, .fw, .meas, .sec, .sent, .free] s (execSyncUpFrame link frame s) := by
  unfold execSyncUpFrame
  try dsimp only
  repeat' first
    | with_reducible exact .refl
    | with_reducible apply OutTouches.next
    | with_reducible exact OutTouches.fault
    | simp only [Touches.mk_iff, Touches.ite_iff]
    | with_reducible refine And.intro (fun _ => ?_) (fun _ => ?_)
    | ((with_reducible refine Leaf.of rfl (fun p hp => ?_) ?_); (cases p <;> first | exact absurd hp (by decide) | (show _ = _; with_reducible rfl) | rfl | (show _ = _; unfold openStep; split <;> rfl)))
    | ((with_reducible apply Touches.step (takeUp_touches _ _ _)); · decide)
    | ((with_reducible apply Touches.step (upPast_touches _ _ _)); · decide)
    | ((with_reducible apply Touches.step (frameIn_touches _ _ _)); · decide)
    | ((with_reducible apply Touches.step (frameSeen_touches _ _)); · decide)
    | ((with_reducible apply Touches.step (frameBad_touches _ _)); · decide)
    | (with_reducible apply Touches.fold (fun _ _ => ?_))
    | split

theorem holdDown_touches (s : State) (p : Nat) (d : Dir) : Touches [.chans] s (holdDown s p d) := by
  unfold holdDown
  try dsimp only
  repeat' first
    | with_reducible exact .refl
    | simp only [Touches.mk_iff, Touches.ite_iff]
    | with_reducible refine And.intro (fun _ => ?_) (fun _ => ?_)
    | ((with_reducible refine Leaf.of rfl (fun p hp => ?_) ?_); (cases p <;> first | exact absurd hp (by decide) | (show _ = _; with_reducible rfl) | rfl | (show _ = _; unfold openStep; split <;> rfl)))
    | ((with_reducible apply Touches.step (onChan_touches _ _ _)); · decide)

theorem downPast_touches (s : State) (p : Nat) (d : Dir) : Touches [.steps, .topo, .sent] s (downPast s p d) := by
  unfold downPast
  try dsimp only
  repeat' first
    | with_reducible exact .refl
    | simp only [Touches.mk_iff, Touches.ite_iff]
    | with_reducible refine And.intro (fun _ => ?_) (fun _ => ?_)
    | ((with_reducible refine Leaf.of rfl (fun p hp => ?_) ?_); (cases p <;> first | exact absurd hp (by decide) | (show _ = _; with_reducible rfl) | rfl | (show _ = _; unfold openStep; split <;> rfl)))
    | ((with_reducible apply Touches.step (sendFrames_touches _ _ _ _)); · decide)

theorem execSyncDownFrame_touches (link : Fin 48) (frame : BitVec 96) (s : State) : OutTouches [.devState, .dev, .owner, .host, .ctxs, .vers, .fetch, .results, .cores, .steps, .sync, .chans, .coll, .place, .mem, .links, .topo, .tests, .fenceSet, .recov, .fw, .meas, .sec, .sent, .free] s (execSyncDownFrame link frame s) := by
  unfold execSyncDownFrame
  try dsimp only
  repeat' first
    | with_reducible exact .refl
    | with_reducible apply OutTouches.next
    | with_reducible exact OutTouches.fault
    | simp only [Touches.mk_iff, Touches.ite_iff]
    | with_reducible refine And.intro (fun _ => ?_) (fun _ => ?_)
    | ((with_reducible refine Leaf.of rfl (fun p hp => ?_) ?_); (cases p <;> first | exact absurd hp (by decide) | (show _ = _; with_reducible rfl) | rfl | (show _ = _; unfold openStep; split <;> rfl)))
    | ((with_reducible apply Touches.step (noticesIn_touches _ _)); · decide)
    | ((with_reducible apply Touches.step (holdDown_touches _ _ _)); · decide)
    | ((with_reducible apply Touches.step (takeAbort_touches _ _ _ _)); · decide)
    | ((with_reducible apply Touches.step (downPast_touches _ _ _)); · decide)
    | ((with_reducible apply Touches.step (frameIn_touches _ _ _)); · decide)
    | ((with_reducible apply Touches.step (frameSeen_touches _ _)); · decide)
    | ((with_reducible apply Touches.step (frameBad_touches _ _)); · decide)
    | (with_reducible apply Touches.fold (fun _ _ => ?_))
    | split

theorem takeLeaving_touches (s : State) (l : Nat) (cause : Nat) : Touches [.host, .ctxs, .links, .topo, .recov, .sent] s (takeLeaving s l cause) := by
  unfold takeLeaving
  try dsimp only
  repeat' first
    | with_reducible exact .refl
    | simp only [Touches.mk_iff, Touches.ite_iff]
    | with_reducible refine And.intro (fun _ => ?_) (fun _ => ?_)
    | ((with_reducible refine Leaf.of rfl (fun p hp => ?_) ?_); (cases p <;> first | exact absurd hp (by decide) | (show _ = _; with_reducible rfl) | rfl | (show _ = _; unfold openStep; split <;> rfl)))
    | ((with_reducible apply Touches.step (holdLink_touches _ _)); · decide)
    | ((with_reducible apply Touches.step (proposeNeighbour_touches _ _ _)); · decide)
    | (with_reducible apply Touches.fold (fun _ _ => ?_))

theorem execSyncLeavingFrame_touches (link : Fin 48) (frame : BitVec 96) (s : State) : OutTouches [.host, .ctxs, .links, .topo, .recov, .sent] s (execSyncLeavingFrame link frame s) := by
  unfold execSyncLeavingFrame
  try dsimp only
  repeat' first
    | with_reducible exact .refl
    | with_reducible apply OutTouches.next
    | with_reducible exact OutTouches.fault
    | simp only [Touches.mk_iff, Touches.ite_iff]
    | with_reducible refine And.intro (fun _ => ?_) (fun _ => ?_)
    | ((with_reducible refine Leaf.of rfl (fun p hp => ?_) ?_); (cases p <;> first | exact absurd hp (by decide) | (show _ = _; with_reducible rfl) | rfl | (show _ = _; unfold openStep; split <;> rfl)))
    | ((with_reducible apply Touches.step (frameIn_touches _ _ _)); · decide)
    | ((with_reducible apply Touches.step (takeLeaving_touches _ _ _)); · decide)
    | ((with_reducible apply Touches.step (frameSeen_touches _ _)); · decide)
    | ((with_reducible apply Touches.step (frameBad_touches _ _)); · decide)
    | (with_reducible apply Touches.fold (fun _ _ => ?_))
    | split

theorem takeState_touches (s : State) (d : Dir) (code : Nat) : Touches [.ctxs, .links, .topo, .recov, .fw, .sent] s (takeState s d code) := by
  unfold takeState
  try dsimp only
  repeat' first
    | with_reducible exact .refl
    | simp only [Touches.mk_iff, Touches.ite_iff]
    | with_reducible refine And.intro (fun _ => ?_) (fun _ => ?_)
    | ((with_reducible refine Leaf.of rfl (fun p hp => ?_) ?_); (cases p <;> first | exact absurd hp (by decide) | (show _ = _; with_reducible rfl) | rfl | (show _ = _; unfold openStep; split <;> rfl)))
    | ((with_reducible apply Touches.step (repull_touches _ _)); · decide)
    | ((with_reducible apply Touches.step (proposeNeighbour_touches _ _ _)); · decide)

theorem execSyncStateFrame_touches (link : Fin 48) (frame : BitVec 96) (s : State) : OutTouches [.ctxs, .links, .topo, .recov, .fw, .sent] s (execSyncStateFrame link frame s) := by
  unfold execSyncStateFrame
  try dsimp only
  repeat' first
    | with_reducible exact .refl
    | with_reducible apply OutTouches.next
    | with_reducible exact OutTouches.fault
    | simp only [Touches.mk_iff, Touches.ite_iff]
    | with_reducible refine And.intro (fun _ => ?_) (fun _ => ?_)
    | ((with_reducible refine Leaf.of rfl (fun p hp => ?_) ?_); (cases p <;> first | exact absurd hp (by decide) | (show _ = _; with_reducible rfl) | rfl | (show _ = _; unfold openStep; split <;> rfl)))
    | ((with_reducible apply Touches.step (frameIn_touches _ _ _)); · decide)
    | ((with_reducible apply Touches.step (takeState_touches _ _ _)); · decide)
    | ((with_reducible apply Touches.step (frameSeen_touches _ _)); · decide)
    | ((with_reducible apply Touches.step (frameBad_touches _ _)); · decide)
    | (with_reducible apply Touches.fold (fun _ _ => ?_))
    | split

theorem execSyncIdleFrame_touches (link : Fin 48) (frame : BitVec 96) (s : State) : OutTouches [.links, .topo] s (execSyncIdleFrame link frame s) := by
  unfold execSyncIdleFrame
  try dsimp only
  repeat' first
    | with_reducible exact .refl
    | with_reducible apply OutTouches.next
    | with_reducible exact OutTouches.fault
    | simp only [Touches.mk_iff, Touches.ite_iff]
    | with_reducible refine And.intro (fun _ => ?_) (fun _ => ?_)
    | ((with_reducible refine Leaf.of rfl (fun p hp => ?_) ?_); (cases p <;> first | exact absurd hp (by decide) | (show _ = _; with_reducible rfl) | rfl | (show _ = _; unfold openStep; split <;> rfl)))
    | ((with_reducible apply Touches.step (frameSeen_touches _ _)); · decide)
    | ((with_reducible apply Touches.step (frameBad_touches _ _)); · decide)
    | (with_reducible apply Touches.fold (fun _ _ => ?_))
    | split

theorem execIdleFrameSend_touches (link : Fin 48) (s : State) : OutTouches [.sent] s (execIdleFrameSend link s) := by
  unfold execIdleFrameSend
  try dsimp only
  repeat' first
    | with_reducible exact .refl
    | with_reducible apply OutTouches.next
    | with_reducible exact OutTouches.fault
    | simp only [Touches.mk_iff, Touches.ite_iff]
    | with_reducible refine And.intro (fun _ => ?_) (fun _ => ?_)
    | ((with_reducible refine Leaf.of rfl (fun p hp => ?_) ?_); (cases p <;> first | exact absurd hp (by decide) | (show _ = _; with_reducible rfl) | rfl | (show _ = _; unfold openStep; split <;> rfl)))
    | ((with_reducible apply Touches.step (emit_touches _ _)); · decide)
    | (with_reducible apply Touches.fold (fun _ _ => ?_))
    | split

theorem execSyncLaneHeartbeatLoss_touches (link : Fin 48) (s : State) : OutTouches [.clk, .host, .ctxs, .links, .topo, .ledger, .fw, .sent, .free] s (execSyncLaneHeartbeatLoss link s) := by
  unfold execSyncLaneHeartbeatLoss
  try dsimp only
  repeat' first
    | with_reducible exact .refl
    | with_reducible apply OutTouches.next
    | with_reducible exact OutTouches.fault
    | simp only [Touches.mk_iff, Touches.ite_iff]
    | with_reducible refine And.intro (fun _ => ?_) (fun _ => ?_)
    | ((with_reducible refine Leaf.of rfl (fun p hp => ?_) ?_); (cases p <;> first | exact absurd hp (by decide) | (show _ = _; with_reducible rfl) | rfl | (show _ = _; unfold openStep; split <;> rfl)))
    | ((with_reducible apply Touches.step (reach_touches _ _)); · decide)
    | ((with_reducible apply Touches.step (linkDown_touches _ _ _)); · decide)
    | (with_reducible apply Touches.fold (fun _ _ => ?_))
    | split

theorem execBundleSilent_touches (d : Dir) (s : State) : OutTouches [.clk, .topo] s (execBundleSilent d s) := by
  unfold execBundleSilent
  try dsimp only
  repeat' first
    | with_reducible exact .refl
    | with_reducible apply OutTouches.next
    | with_reducible exact OutTouches.fault
    | simp only [Touches.mk_iff, Touches.ite_iff]
    | with_reducible refine And.intro (fun _ => ?_) (fun _ => ?_)
    | ((with_reducible refine Leaf.of rfl (fun p hp => ?_) ?_); (cases p <;> first | exact absurd hp (by decide) | (show _ = _; with_reducible rfl) | rfl | (show _ = _; unfold openStep; split <;> rfl)))
    | ((with_reducible apply Touches.step (reach_touches _ _)); · decide)
    | (with_reducible apply Touches.fold (fun _ _ => ?_))
    | split

end Sys2Proof.Machine
end

