-- ==== Sys2Proof/Laws/TouchRecovery.lean ====
section
/-! SUPPORT. What each operation and meaning of Machine/Recovery.lean can change. -/

set_option linter.unusedSimpArgs false
set_option linter.unusedTactic false
set_option linter.unreachableTactic false

namespace Sys2Proof.Machine

theorem execFenceProposalTimer_touches (d : Dir) (s : State) : OutTouches [.clk, .links, .recov, .sent] s (execFenceProposalTimer d s) := by
  unfold execFenceProposalTimer
  try dsimp only
  repeat' first
    | with_reducible exact .refl
    | with_reducible apply OutTouches.next
    | with_reducible exact OutTouches.fault
    | simp only [Touches.mk_iff, Touches.ite_iff]
    | with_reducible refine And.intro (fun _ => ?_) (fun _ => ?_)
    | ((with_reducible refine Leaf.of rfl (fun p hp => ?_) ?_); (cases p <;> first | exact absurd hp (by decide) | (show _ = _; with_reducible rfl) | rfl | (show _ = _; unfold openStep; split <;> rfl)))
    | ((with_reducible apply Touches.step (reach_touches _ _)); · decide)
    | ((with_reducible apply Touches.step (proposeNeighbour_touches _ _ _)); · decide)
    | (with_reducible apply Touches.fold (fun _ _ => ?_))
    | split

theorem execFenceFloodRepeat_touches (s : State) : OutTouches [.clk, .links, .sent] s (execFenceFloodRepeat s) := by
  unfold execFenceFloodRepeat
  try dsimp only
  repeat' first
    | with_reducible exact .refl
    | with_reducible apply OutTouches.next
    | with_reducible exact OutTouches.fault
    | simp only [Touches.mk_iff, Touches.ite_iff]
    | with_reducible refine And.intro (fun _ => ?_) (fun _ => ?_)
    | ((with_reducible refine Leaf.of rfl (fun p hp => ?_) ?_); (cases p <;> first | exact absurd hp (by decide) | (show _ = _; with_reducible rfl) | rfl | (show _ = _; unfold openStep; split <;> rfl)))
    | ((with_reducible apply Touches.step (reach_touches _ _)); · decide)
    | ((with_reducible apply Touches.step (sendFence_touches _ _ _)); · decide)
    | (with_reducible apply Touches.fold (fun _ _ => ?_))
    | split

theorem nextAbort_touches (s : State) (k : Nat) (n : Nat) : Touches [.chans, .topo, .sent] s (nextAbort s k n) := by
  unfold nextAbort
  try dsimp only
  repeat' first
    | with_reducible exact .refl
    | simp only [Touches.mk_iff, Touches.ite_iff]
    | with_reducible refine And.intro (fun _ => ?_) (fun _ => ?_)
    | ((with_reducible refine Leaf.of rfl (fun p hp => ?_) ?_); (cases p <;> first | exact absurd hp (by decide) | (show _ = _; with_reducible rfl) | rfl | (show _ = _; unfold openStep; split <;> rfl)))
    | ((with_reducible apply Touches.step (sendDown_touches _ _ _ _)); · decide)
    | ((with_reducible apply Touches.step (onChan_touches _ _ _)); · decide)

theorem proxyAbort_touches (s : State) (d : Dir) : Touches [.devState, .dev, .owner, .host, .ctxs, .vers, .fetch, .results, .cores, .steps, .sync, .chans, .coll, .place, .mem, .links, .topo, .tests, .fenceSet, .recov, .fw, .meas, .sec, .sent, .free] s (proxyAbort s d) := by
  unfold proxyAbort
  try dsimp only
  repeat' first
    | with_reducible exact .refl
    | simp only [Touches.mk_iff, Touches.ite_iff]
    | with_reducible refine And.intro (fun _ => ?_) (fun _ => ?_)
    | ((with_reducible refine Leaf.of rfl (fun p hp => ?_) ?_); (cases p <;> first | exact absurd hp (by decide) | (show _ = _; with_reducible rfl) | rfl | (show _ = _; unfold openStep; split <;> rfl)))
    | ((with_reducible apply Touches.step (sendDown_touches _ _ _ _)); · decide)
    | ((with_reducible apply Touches.step (abortStep_touches _ _ _)); · decide)
    | ((with_reducible apply Touches.step (nextAbort_touches _ _ _)); · decide)

theorem selfAbort_touches (s : State) : Touches [.devState, .dev, .owner, .host, .ctxs, .vers, .fetch, .results, .cores, .steps, .sync, .chans, .coll, .place, .mem, .links, .topo, .tests, .fenceSet, .recov, .fw, .meas, .sec, .sent, .free] s (selfAbort s) := by
  unfold selfAbort
  try dsimp only
  repeat' first
    | with_reducible exact .refl
    | simp only [Touches.mk_iff, Touches.ite_iff]
    | with_reducible refine And.intro (fun _ => ?_) (fun _ => ?_)
    | ((with_reducible refine Leaf.of rfl (fun p hp => ?_) ?_); (cases p <;> first | exact absurd hp (by decide) | (show _ = _; with_reducible rfl) | rfl | (show _ = _; unfold openStep; split <;> rfl)))
    | ((with_reducible apply Touches.step (ownAbort_touches _)); · decide)
    | ((with_reducible apply Touches.step (openNext_touches _)); · decide)
    | ((with_reducible apply Touches.step (nextAbort_touches _ _ _)); · decide)

theorem fenceAbort_touches (s : State) (r : BitVec 128) : Touches [.devState, .dev, .owner, .host, .ctxs, .vers, .fetch, .results, .cores, .steps, .sync, .chans, .coll, .place, .mem, .links, .topo, .tests, .fenceSet, .recov, .fw, .meas, .sec, .sent, .free] s (fenceAbort s r) := by
  unfold fenceAbort
  try dsimp only
  repeat' first
    | with_reducible exact .refl
    | simp only [Touches.mk_iff, Touches.ite_iff]
    | with_reducible refine And.intro (fun _ => ?_) (fun _ => ?_)
    | ((with_reducible refine Leaf.of rfl (fun p hp => ?_) ?_); (cases p <;> first | exact absurd hp (by decide) | (show _ = _; with_reducible rfl) | rfl | (show _ = _; unfold openStep; split <;> rfl)))
    | ((with_reducible apply Touches.step (proxyAbort_touches _ _)); · decide)
    | ((with_reducible apply Touches.step (selfAbort_touches _)); · decide)
    | (with_reducible apply Touches.fold (fun _ _ => ?_))
    | split

theorem execFenceProxyAbort_touches (slot : Fin 6) (s : State) : OutTouches [.clk, .devState, .dev, .owner, .host, .ctxs, .vers, .fetch, .results, .cores, .steps, .sync, .chans, .coll, .place, .mem, .links, .topo, .tests, .fenceSet, .recov, .fw, .meas, .sec, .sent, .free] s (execFenceProxyAbort slot s) := by
  unfold execFenceProxyAbort
  try dsimp only
  repeat' first
    | with_reducible exact .refl
    | with_reducible apply OutTouches.next
    | with_reducible exact OutTouches.fault
    | simp only [Touches.mk_iff, Touches.ite_iff]
    | with_reducible refine And.intro (fun _ => ?_) (fun _ => ?_)
    | ((with_reducible refine Leaf.of rfl (fun p hp => ?_) ?_); (cases p <;> first | exact absurd hp (by decide) | (show _ = _; with_reducible rfl) | rfl | (show _ = _; unfold openStep; split <;> rfl)))
    | ((with_reducible apply Touches.step (reach_touches _ _)); · decide)
    | ((with_reducible apply Touches.step (fenceAbort_touches _ _)); · decide)
    | (with_reducible apply Touches.fold (fun _ _ => ?_))
    | split

theorem adoptAsked_touches (s : State) (slot : Nat) : Touches [.devState, .dev, .owner, .host, .ctxs, .vers, .fetch, .cores, .steps, .sync, .chans, .coll, .place, .mem, .links, .topo, .tests, .fenceSet, .recov, .fw, .meas, .sec, .sent, .free] s (adoptAsked s slot) := by
  unfold adoptAsked
  try dsimp only
  repeat' first
    | with_reducible exact .refl
    | simp only [Touches.mk_iff, Touches.ite_iff]
    | with_reducible refine And.intro (fun _ => ?_) (fun _ => ?_)
    | ((with_reducible refine Leaf.of rfl (fun p hp => ?_) ?_); (cases p <;> first | exact absurd hp (by decide) | (show _ = _; with_reducible rfl) | rfl | (show _ = _; unfold openStep; split <;> rfl)))
    | ((with_reducible apply Touches.step (adoptRecord_touches _ _)); · decide)
    | (with_reducible apply Touches.fold (fun _ _ => ?_))

theorem takeRecord_touches (s : State) (r : BitVec 128) (came : Dir) : Touches [.devState, .dev, .owner, .host, .ctxs, .vers, .fetch, .cores, .steps, .sync, .chans, .coll, .place, .mem, .links, .topo, .tests, .fenceSet, .recov, .fw, .meas, .sec, .sent, .free] s (takeRecord s r came) := by
  unfold takeRecord
  try dsimp only
  repeat' first
    | with_reducible exact .refl
    | simp only [Touches.mk_iff, Touches.ite_iff]
    | with_reducible refine And.intro (fun _ => ?_) (fun _ => ?_)
    | ((with_reducible refine Leaf.of rfl (fun p hp => ?_) ?_); (cases p <;> first | exact absurd hp (by decide) | (show _ = _; with_reducible rfl) | rfl | (show _ = _; unfold openStep; split <;> rfl)))
    | ((with_reducible apply Touches.step (adoptAsked_touches _ _)); · decide)
    | ((with_reducible apply Touches.step (leaveJob_touches _)); · decide)
    | ((with_reducible apply Touches.step (sendFence_touches _ _ _)); · decide)

theorem recordHere_touches (s : State) (l : Nat) (r : BitVec 128) : Touches [.devState, .dev, .owner, .host, .ctxs, .vers, .fetch, .cores, .steps, .sync, .chans, .coll, .place, .mem, .links, .topo, .tests, .fenceSet, .recov, .fw, .meas, .sec, .sent, .free] s (recordHere s l r) := by
  unfold recordHere
  try dsimp only
  repeat' first
    | with_reducible exact .refl
    | simp only [Touches.mk_iff, Touches.ite_iff]
    | with_reducible refine And.intro (fun _ => ?_) (fun _ => ?_)
    | ((with_reducible refine Leaf.of rfl (fun p hp => ?_) ?_); (cases p <;> first | exact absurd hp (by decide) | (show _ = _; with_reducible rfl) | rfl | (show _ = _; unfold openStep; split <;> rfl)))
    | ((with_reducible apply Touches.step (takeRecord_touches _ _ _)); · decide)

theorem execFenceRecordReceived_touches (link : Fin 48) (rec : BitVec 128) (s : State) : OutTouches [.devState, .dev, .owner, .host, .ctxs, .vers, .fetch, .cores, .steps, .sync, .chans, .coll, .place, .mem, .links, .topo, .tests, .fenceSet, .recov, .fw, .meas, .sec, .sent, .free] s (execFenceRecordReceived link rec s) := by
  unfold execFenceRecordReceived
  try dsimp only
  repeat' first
    | with_reducible exact .refl
    | with_reducible apply OutTouches.next
    | with_reducible exact OutTouches.fault
    | simp only [Touches.mk_iff, Touches.ite_iff]
    | with_reducible refine And.intro (fun _ => ?_) (fun _ => ?_)
    | ((with_reducible refine Leaf.of rfl (fun p hp => ?_) ?_); (cases p <;> first | exact absurd hp (by decide) | (show _ = _; with_reducible rfl) | rfl | (show _ = _; unfold openStep; split <;> rfl)))
    | ((with_reducible apply Touches.step (recordHere_touches _ _ _)); · decide)

theorem execFenceRecordRequest_touches (slot : Fin 6) (s : State) : OutTouches [.devState, .dev, .owner, .host, .ctxs, .vers, .fetch, .cores, .steps, .sync, .chans, .coll, .place, .mem, .links, .topo, .tests, .fenceSet, .recov, .fw, .meas, .sec, .sent, .free] s (execFenceRecordRequest slot s) := by
  unfold execFenceRecordRequest
  try dsimp only
  repeat' first
    | with_reducible exact .refl
    | with_reducible apply OutTouches.next
    | with_reducible exact OutTouches.fault
    | simp only [Touches.mk_iff, Touches.ite_iff]
    | with_reducible refine And.intro (fun _ => ?_) (fun _ => ?_)
    | ((with_reducible refine Leaf.of rfl (fun p hp => ?_) ?_); (cases p <;> first | exact absurd hp (by decide) | (show _ = _; with_reducible rfl) | rfl | (show _ = _; unfold openStep; split <;> rfl)))
    | ((with_reducible apply Touches.step (tell_touches _ _)); · decide)
    | ((with_reducible apply Touches.step (adoptAsked_touches _ _)); · decide)
    | (with_reducible apply Touches.fold (fun _ _ => ?_))
    | split

theorem execRecoveryPatienceExpiry_touches (d : Dir) (s : State) : OutTouches [.clk, .links, .recov, .sent] s (execRecoveryPatienceExpiry d s) := by
  unfold execRecoveryPatienceExpiry
  try dsimp only
  repeat' first
    | with_reducible exact .refl
    | with_reducible apply OutTouches.next
    | with_reducible exact OutTouches.fault
    | simp only [Touches.mk_iff, Touches.ite_iff]
    | with_reducible refine And.intro (fun _ => ?_) (fun _ => ?_)
    | ((with_reducible refine Leaf.of rfl (fun p hp => ?_) ?_); (cases p <;> first | exact absurd hp (by decide) | (show _ = _; with_reducible rfl) | rfl | (show _ = _; unfold openStep; split <;> rfl)))
    | ((with_reducible apply Touches.step (reach_touches _ _)); · decide)
    | ((with_reducible apply Touches.step (proposeNeighbour_touches _ _ _)); · decide)
    | (with_reducible apply Touches.fold (fun _ _ => ?_))
    | split

theorem installImages_touches (s : State) (rs : List (BitVec 128)) (imgs : List (Nat × Nat × List Byte)) : Touches [.vers] s (installImages s rs imgs) := by
  unfold installImages
  try dsimp only
  repeat' first
    | with_reducible exact .refl
    | simp only [Touches.mk_iff, Touches.ite_iff]
    | with_reducible refine And.intro (fun _ => ?_) (fun _ => ?_)
    | ((with_reducible refine Leaf.of rfl (fun p hp => ?_) ?_); (cases p <;> first | exact absurd hp (by decide) | (show _ = _; with_reducible rfl) | rfl | (show _ = _; unfold openStep; split <;> rfl)))

theorem installRecs_touches (s : State) (n : Nat) (rs : List (BitVec 128)) : Touches [.ctxs] s (installRecs s n rs) := by
  unfold installRecs
  try dsimp only
  repeat' first
    | with_reducible exact .refl
    | simp only [Touches.mk_iff, Touches.ite_iff]
    | with_reducible refine And.intro (fun _ => ?_) (fun _ => ?_)
    | ((with_reducible refine Leaf.of rfl (fun p hp => ?_) ?_); (cases p <;> first | exact absurd hp (by decide) | (show _ = _; with_reducible rfl) | rfl | (show _ = _; unfold openStep; split <;> rfl)))

theorem takeoverEnds_touches (s : State) (tensors : List (Nat × Nat × List Byte)) (rs : List (BitVec 128)) : Touches [.devState, .host, .ctxs, .vers, .cores, .steps, .links, .topo, .tests, .recov, .power, .meas, .sec, .sent] s (takeoverEnds s tensors rs) := by
  unfold takeoverEnds
  try dsimp only
  repeat' first
    | with_reducible exact .refl
    | simp only [Touches.mk_iff, Touches.ite_iff]
    | with_reducible refine And.intro (fun _ => ?_) (fun _ => ?_)
    | ((with_reducible refine Leaf.of rfl (fun p hp => ?_) ?_); (cases p <;> first | exact absurd hp (by decide) | (show _ = _; with_reducible rfl) | rfl | (show _ = _; unfold openStep; split <;> rfl)))
    | ((with_reducible apply Touches.step (installImages_touches _ _ _)); · decide)
    | ((with_reducible apply Touches.step (installRecs_touches _ _ _)); · decide)
    | ((with_reducible apply Touches.step (leaveRecovery_touches _)); · decide)

theorem execTakeoverDone_touches (digestOk : Bool) (tensors : List (Nat × Nat × List Byte)) (recs : List (BitVec 128)) (s : State) : OutTouches [.devState, .dev, .owner, .host, .ctxs, .vers, .fetch, .results, .cores, .steps, .sync, .chans, .coll, .place, .mem, .links, .topo, .tests, .fenceSet, .recov, .power, .fw, .meas, .sec, .sent, .free] s (execTakeoverDone digestOk tensors recs s) := by
  unfold execTakeoverDone
  try dsimp only
  repeat' first
    | with_reducible exact .refl
    | with_reducible apply OutTouches.next
    | with_reducible exact OutTouches.fault
    | simp only [Touches.mk_iff, Touches.ite_iff]
    | with_reducible refine And.intro (fun _ => ?_) (fun _ => ?_)
    | ((with_reducible refine Leaf.of rfl (fun p hp => ?_) ?_); (cases p <;> first | exact absurd hp (by decide) | (show _ = _; with_reducible rfl) | rfl | (show _ = _; unfold openStep; split <;> rfl)))
    | ((with_reducible apply Touches.step (takeoverEnds_touches _ _ _)); · decide)
    | ((with_reducible apply Touches.step (loseJob_touches _ _)); · decide)
    | ((with_reducible apply Touches.step (tryAbort_touches _)); · decide)
    | ((with_reducible apply Touches.step (hwRequest_touches _ _ _)); · decide)
    | (with_reducible apply Touches.fold (fun _ _ => ?_))
    | split

theorem refillEnds_touches (s : State) : Touches [.devState, .host, .ctxs, .cores, .links, .topo, .tests, .recov, .fw, .meas, .sec, .sent] s (refillEnds s) := by
  unfold refillEnds
  try dsimp only
  repeat' first
    | with_reducible exact .refl
    | simp only [Touches.mk_iff, Touches.ite_iff]
    | with_reducible refine And.intro (fun _ => ?_) (fun _ => ?_)
    | ((with_reducible refine Leaf.of rfl (fun p hp => ?_) ?_); (cases p <;> first | exact absurd hp (by decide) | (show _ = _; with_reducible rfl) | rfl | (show _ = _; unfold openStep; split <;> rfl)))
    | ((with_reducible apply Touches.step (sendRebuild_touches _)); · decide)
    | ((with_reducible apply Touches.step (leaveRecovery_touches _)); · decide)

theorem execRefillDone_touches (refill : Refill) (s : State) : OutTouches [.devState, .host, .ctxs, .vers, .cores, .links, .topo, .tests, .recov, .fw, .meas, .sec, .sent] s (execRefillDone refill s) := by
  unfold execRefillDone
  try dsimp only
  repeat' first
    | with_reducible exact .refl
    | with_reducible apply OutTouches.next
    | with_reducible exact OutTouches.fault
    | simp only [Touches.mk_iff, Touches.ite_iff]
    | with_reducible refine And.intro (fun _ => ?_) (fun _ => ?_)
    | ((with_reducible refine Leaf.of rfl (fun p hp => ?_) ?_); (cases p <;> first | exact absurd hp (by decide) | (show _ = _; with_reducible rfl) | rfl | (show _ = _; unfold openStep; split <;> rfl)))
    | ((with_reducible apply Touches.step (refillEnds_touches _)); · decide)
    | (with_reducible apply Touches.fold (fun _ _ => ?_))
    | split

theorem mirrorBack_touches (s : State) (tensors : List (Nat × Nat × List Byte)) (recs : List (BitVec 128)) : Touches [.vers, .recov] s (mirrorBack s tensors recs) := by
  unfold mirrorBack
  try dsimp only
  repeat' first
    | with_reducible exact .refl
    | simp only [Touches.mk_iff, Touches.ite_iff]
    | with_reducible refine And.intro (fun _ => ?_) (fun _ => ?_)
    | ((with_reducible refine Leaf.of rfl (fun p hp => ?_) ?_); (cases p <;> first | exact absurd hp (by decide) | (show _ = _; with_reducible rfl) | rfl | (show _ = _; unfold openStep; split <;> rfl)))

theorem mirrorRebuilt_touches (s : State) (tensors : List (Nat × Nat × List Byte)) (recs : List (BitVec 128)) : Touches [.devState, .host, .ctxs, .vers, .cores, .links, .topo, .tests, .recov, .fw, .meas, .sec, .sent] s (mirrorRebuilt s tensors recs) := by
  unfold mirrorRebuilt
  try dsimp only
  repeat' first
    | with_reducible exact .refl
    | simp only [Touches.mk_iff, Touches.ite_iff]
    | with_reducible refine And.intro (fun _ => ?_) (fun _ => ?_)
    | ((with_reducible refine Leaf.of rfl (fun p hp => ?_) ?_); (cases p <;> first | exact absurd hp (by decide) | (show _ = _; with_reducible rfl) | rfl | (show _ = _; unfold openStep; split <;> rfl)))
    | ((with_reducible apply Touches.step (refillEnds_touches _)); · decide)
    | ((with_reducible apply Touches.step (mirrorBack_touches _ _ _)); · decide)

theorem mirrorStreamed_touches (s : State) (step : Nat) (news : List Copy) (recs : List (BitVec 128)) : Touches [.vers] s (mirrorStreamed s step news recs) := by
  unfold mirrorStreamed
  try dsimp only
  repeat' first
    | with_reducible exact .refl
    | simp only [Touches.mk_iff, Touches.ite_iff]
    | with_reducible refine And.intro (fun _ => ?_) (fun _ => ?_)
    | ((with_reducible refine Leaf.of rfl (fun p hp => ?_) ?_); (cases p <;> first | exact absurd hp (by decide) | (show _ = _; with_reducible rfl) | rfl | (show _ = _; unfold openStep; split <;> rfl)))

theorem execMirrorStreamReceived_touches (step : Nat) (rebuild : Bool) (tensors : List (Nat × Nat × List Byte)) (recs : List (BitVec 128)) (s : State) : OutTouches [.devState, .host, .ctxs, .vers, .cores, .links, .topo, .tests, .recov, .fw, .meas, .sec, .sent] s (execMirrorStreamReceived step rebuild tensors recs s) := by
  unfold execMirrorStreamReceived
  try dsimp only
  repeat' first
    | with_reducible exact .refl
    | with_reducible apply OutTouches.next
    | with_reducible exact OutTouches.fault
    | simp only [Touches.mk_iff, Touches.ite_iff]
    | with_reducible refine And.intro (fun _ => ?_) (fun _ => ?_)
    | ((with_reducible refine Leaf.of rfl (fun p hp => ?_) ?_); (cases p <;> first | exact absurd hp (by decide) | (show _ = _; with_reducible rfl) | rfl | (show _ = _; unfold openStep; split <;> rfl)))
    | ((with_reducible apply Touches.step (mirrorStreamed_touches _ _ _ _)); · decide)
    | ((with_reducible apply Touches.step (emit_touches _ _)); · decide)
    | ((with_reducible apply Touches.step (mirrorRebuilt_touches _ _ _)); · decide)
    | (with_reducible apply Touches.fold (fun _ _ => ?_))
    | split

theorem execMirrorAckReceived_touches (step : Nat) (s : State) : OutTouches [.steps] s (execMirrorAckReceived step s) := by
  unfold execMirrorAckReceived
  try dsimp only
  repeat' first
    | with_reducible exact .refl
    | with_reducible apply OutTouches.next
    | with_reducible exact OutTouches.fault
    | simp only [Touches.mk_iff, Touches.ite_iff]
    | with_reducible refine And.intro (fun _ => ?_) (fun _ => ?_)
    | ((with_reducible refine Leaf.of rfl (fun p hp => ?_) ?_); (cases p <;> first | exact absurd hp (by decide) | (show _ = _; with_reducible rfl) | rfl | (show _ = _; unfold openStep; split <;> rfl)))
    | ((with_reducible apply Touches.step (onStep_touches _ _ _)); · decide)

theorem execMirrorRebuildDone_touches (s : State) : OutTouches [.recov] s (execMirrorRebuildDone s) := by
  unfold execMirrorRebuildDone
  try dsimp only
  repeat' first
    | with_reducible exact .refl
    | with_reducible apply OutTouches.next
    | with_reducible exact OutTouches.fault
    | simp only [Touches.mk_iff, Touches.ite_iff]
    | with_reducible refine And.intro (fun _ => ?_) (fun _ => ?_)
    | ((with_reducible refine Leaf.of rfl (fun p hp => ?_) ?_); (cases p <;> first | exact absurd hp (by decide) | (show _ = _; with_reducible rfl) | rfl | (show _ = _; unfold openStep; split <;> rfl)))

theorem execModuleStatePieceReceived_touches (cut : Nat) (piece : List Byte) (s : State) : OutTouches [.ckpt] s (execModuleStatePieceReceived cut piece s) := by
  unfold execModuleStatePieceReceived
  try dsimp only
  repeat' first
    | with_reducible exact .refl
    | with_reducible apply OutTouches.next
    | with_reducible exact OutTouches.fault
    | simp only [Touches.mk_iff, Touches.ite_iff]
    | with_reducible refine And.intro (fun _ => ?_) (fun _ => ?_)
    | ((with_reducible refine Leaf.of rfl (fun p hp => ?_) ?_); (cases p <;> first | exact absurd hp (by decide) | (show _ = _; with_reducible rfl) | rfl | (show _ = _; unfold openStep; split <;> rfl)))
    | (with_reducible apply Touches.fold (fun _ _ => ?_))
    | split

end Sys2Proof.Machine
end

