-- ==== Sys2Proof/Laws/TouchLinks.lean ====
section
/-! SUPPORT. What each operation and meaning of Machine/Links.lean can change. -/

set_option linter.unusedSimpArgs false
set_option linter.unusedTactic false
set_option linter.unreachableTactic false

namespace Sys2Proof.Machine

theorem nakFlit_touches (s : State) (l : Nat) : Touches [.sent] s (nakFlit s l) := by
  unfold nakFlit
  try dsimp only
  repeat' first
    | with_reducible exact .refl
    | simp only [Touches.mk_iff, Touches.ite_iff]
    | with_reducible refine And.intro (fun _ => ?_) (fun _ => ?_)
    | ((with_reducible refine Leaf.of rfl (fun p hp => ?_) ?_); (cases p <;> first | exact absurd hp (by decide) | (show _ = _; with_reducible rfl) | rfl | (show _ = _; unfold openStep; split <;> rfl)))
    | ((with_reducible apply Touches.step (emit_touches _ _)); · decide)

theorem takeFlit_touches (s : State) (l : Nat) (h : BitVec 96) : Touches [.links, .sent] s (takeFlit s l h) := by
  unfold takeFlit
  try dsimp only
  repeat' first
    | with_reducible exact .refl
    | simp only [Touches.mk_iff, Touches.ite_iff]
    | with_reducible refine And.intro (fun _ => ?_) (fun _ => ?_)
    | ((with_reducible refine Leaf.of rfl (fun p hp => ?_) ?_); (cases p <;> first | exact absurd hp (by decide) | (show _ = _; with_reducible rfl) | rfl | (show _ = _; unfold openStep; split <;> rfl)))
    | ((with_reducible apply Touches.step (onLink_touches _ _ _)); · decide)
    | ((with_reducible apply Touches.step (emit_touches _ _)); · decide)

theorem controlHere_touches (s : State) (l : Nat) (h : BitVec 96) (payload : List Byte) : Touches [.devState, .dev, .owner, .host, .ctxs, .vers, .fetch, .cores, .steps, .sync, .chans, .coll, .place, .mem, .links, .topo, .tests, .fenceSet, .recov, .fw, .meas, .sec, .sent, .free] s (controlHere s l h payload) := by
  unfold controlHere
  try dsimp only
  repeat' first
    | with_reducible exact .refl
    | simp only [Touches.mk_iff, Touches.ite_iff]
    | with_reducible refine And.intro (fun _ => ?_) (fun _ => ?_)
    | ((with_reducible refine Leaf.of rfl (fun p hp => ?_) ?_); (cases p <;> first | exact absurd hp (by decide) | (show _ = _; with_reducible rfl) | rfl | (show _ = _; unfold openStep; split <;> rfl)))
    | ((with_reducible apply Touches.step (recordHere_touches _ _ _)); · decide)
    | ((with_reducible apply Touches.step (answerPull_touches _ _ _ _)); · decide)
    | ((with_reducible apply Touches.step (sendHeld_touches _ _)); · decide)
    | ((with_reducible apply Touches.step (giveRebuild_touches _)); · decide)
    | ((with_reducible apply Touches.step (sendFence_touches _ _ _)); · decide)
    | (with_reducible apply Touches.fold (fun _ _ => ?_))
    | split

theorem flitHere_touches (s : State) (l : Nat) (h : BitVec 96) (payload : List Byte) : Touches [.devState, .dev, .owner, .host, .ctxs, .vers, .fetch, .cores, .steps, .sync, .chans, .coll, .place, .mem, .links, .topo, .tests, .fenceSet, .recov, .fw, .meas, .sec, .sent, .free] s (flitHere s l h payload) := by
  unfold flitHere
  try dsimp only
  repeat' first
    | with_reducible exact .refl
    | simp only [Touches.mk_iff, Touches.ite_iff]
    | with_reducible refine And.intro (fun _ => ?_) (fun _ => ?_)
    | ((with_reducible refine Leaf.of rfl (fun p hp => ?_) ?_); (cases p <;> first | exact absurd hp (by decide) | (show _ = _; with_reducible rfl) | rfl | (show _ = _; unfold openStep; split <;> rfl)))
    | ((with_reducible apply Touches.step (countIllegal_touches _ _ _ _ _)); · decide)
    | ((with_reducible apply Touches.step (controlHere_touches _ _ _ _)); · decide)
    | ((with_reducible apply Touches.step (reportError_touches _ _ _)); · decide)
    | ((with_reducible apply Touches.step (landFlit_touches _ _ _ _ _)); · decide)
    | (with_reducible apply Touches.fold (fun _ _ => ?_))
    | split

theorem flitOn_touches (s : State) (l : Nat) (h : BitVec 96) (payload : List Byte) : Touches [.devState, .dev, .owner, .host, .ctxs, .vers, .fetch, .cores, .steps, .sync, .chans, .coll, .place, .mem, .links, .topo, .tests, .fenceSet, .recov, .fw, .meas, .sec, .sent, .free] s (flitOn s l h payload) := by
  unfold flitOn
  try dsimp only
  repeat' first
    | with_reducible exact .refl
    | simp only [Touches.mk_iff, Touches.ite_iff]
    | with_reducible refine And.intro (fun _ => ?_) (fun _ => ?_)
    | ((with_reducible refine Leaf.of rfl (fun p hp => ?_) ?_); (cases p <;> first | exact absurd hp (by decide) | (show _ = _; with_reducible rfl) | rfl | (show _ = _; unfold openStep; split <;> rfl)))
    | ((with_reducible apply Touches.step (routeFlit_touches _ _ _ _)); · decide)
    | ((with_reducible apply Touches.step (flitHere_touches _ _ _ _)); · decide)
    | (with_reducible apply Touches.fold (fun _ _ => ?_))
    | split

theorem flitReceived_touches (s : State) (l : Nat) (h : BitVec 96) (payload : List Byte) (crc : BitVec 32) (ws : List (List (Fin 544))) (ack : Option (BitVec 16)) : Touches [.devState, .dev, .owner, .host, .ctxs, .vers, .fetch, .cores, .steps, .sync, .chans, .coll, .place, .mem, .links, .topo, .ledger, .tests, .fenceSet, .recov, .fw, .meas, .sec, .sent, .free] s (flitReceived s l h payload crc ws ack) := by
  unfold flitReceived
  try dsimp only
  repeat' first
    | with_reducible exact .refl
    | simp only [Touches.mk_iff, Touches.ite_iff]
    | with_reducible refine And.intro (fun _ => ?_) (fun _ => ?_)
    | ((with_reducible refine Leaf.of rfl (fun p hp => ?_) ?_); (cases p <;> first | exact absurd hp (by decide) | (show _ = _; with_reducible rfl) | rfl | (show _ = _; unfold openStep; split <;> rfl)))
    | ((with_reducible apply Touches.step (drainLink_touches _ _)); · decide)
    | ((with_reducible apply Touches.step (nakFlit_touches _ _)); · decide)
    | ((with_reducible apply Touches.step (takeFlit_touches _ _ _)); · decide)
    | ((with_reducible apply Touches.step (flitOn_touches _ _ _ _)); · decide)
    | ((with_reducible apply Touches.step (onLink_touches _ _ _)); · decide)
    | ((with_reducible apply Touches.step (fenceLink_touches _ _ _)); · decide)
    | ((with_reducible apply Touches.step (fenceByOstler_touches _ _ _)); · decide)

theorem execLinkFlitReceived_touches (link : Fin 48) (hdr : BitVec 96) (payload : List Byte) (crc : BitVec 32) (codewords : List (List (Fin 544))) (ack : Option (BitVec 16)) (s : State) : OutTouches [.devState, .dev, .owner, .host, .ctxs, .vers, .fetch, .cores, .steps, .sync, .chans, .coll, .place, .mem, .links, .topo, .ledger, .tests, .fenceSet, .recov, .fw, .meas, .sec, .sent, .free] s (execLinkFlitReceived link hdr payload crc codewords ack s) := by
  unfold execLinkFlitReceived
  try dsimp only
  repeat' first
    | with_reducible exact .refl
    | with_reducible apply OutTouches.next
    | with_reducible exact OutTouches.fault
    | simp only [Touches.mk_iff, Touches.ite_iff]
    | with_reducible refine And.intro (fun _ => ?_) (fun _ => ?_)
    | ((with_reducible refine Leaf.of rfl (fun p hp => ?_) ?_); (cases p <;> first | exact absurd hp (by decide) | (show _ = _; with_reducible rfl) | rfl | (show _ = _; unfold openStep; split <;> rfl)))
    | ((with_reducible apply Touches.step (flitReceived_touches _ _ _ _ _ _ _)); · decide)

theorem execLinkNakReceived_touches (link : Fin 48) (lastGood : BitVec 16) (s : State) : OutTouches [.host, .ctxs, .links, .topo, .ledger, .fw, .sent, .free] s (execLinkNakReceived link lastGood s) := by
  unfold execLinkNakReceived
  try dsimp only
  repeat' first
    | with_reducible exact .refl
    | with_reducible apply OutTouches.next
    | with_reducible exact OutTouches.fault
    | simp only [Touches.mk_iff, Touches.ite_iff]
    | with_reducible refine And.intro (fun _ => ?_) (fun _ => ?_)
    | ((with_reducible refine Leaf.of rfl (fun p hp => ?_) ?_); (cases p <;> first | exact absurd hp (by decide) | (show _ = _; with_reducible rfl) | rfl | (show _ = _; unfold openStep; split <;> rfl)))
    | ((with_reducible apply Touches.step (onLink_touches _ _ _)); · decide)
    | ((with_reducible apply Touches.step (emits_touches _ _)); · decide)
    | ((with_reducible apply Touches.step (resend_touches _ _ _)); · decide)
    | ((with_reducible apply Touches.step (drainLink_touches _ _)); · decide)
    | ((with_reducible apply Touches.step (linkDown_touches _ _ _)); · decide)
    | (with_reducible apply Touches.fold (fun _ _ => ?_))
    | split

theorem execErrorReturnReceived_touches (link : Fin 48) (flit : CarriedFlit) (s : State) : OutTouches [.devState, .dev, .owner, .host, .ctxs, .vers, .fetch, .cores, .steps, .sync, .chans, .coll, .place, .mem, .links, .topo, .ledger, .tests, .fenceSet, .recov, .fw, .meas, .sec, .sent, .free] s (execErrorReturnReceived link flit s) := by
  unfold execErrorReturnReceived
  try dsimp only
  repeat' first
    | with_reducible exact .refl
    | with_reducible apply OutTouches.next
    | with_reducible exact OutTouches.fault
    | simp only [Touches.mk_iff, Touches.ite_iff]
    | with_reducible refine And.intro (fun _ => ?_) (fun _ => ?_)
    | ((with_reducible refine Leaf.of rfl (fun p hp => ?_) ?_); (cases p <;> first | exact absurd hp (by decide) | (show _ = _; with_reducible rfl) | rfl | (show _ = _; unfold openStep; split <;> rfl)))
    | ((with_reducible apply Touches.step (flitReceived_touches _ _ _ _ _ _ _)); · decide)
    | (with_reducible apply Touches.fold (fun _ _ => ?_))
    | split

theorem execLaneLossOfLock_touches (link : Fin 48) (lane : Fin 16) (s : State) : OutTouches [.host, .ctxs, .links, .topo, .ledger, .fw, .sent, .free] s (execLaneLossOfLock link lane s) := by
  unfold execLaneLossOfLock
  try dsimp only
  repeat' first
    | with_reducible exact .refl
    | with_reducible apply OutTouches.next
    | with_reducible exact OutTouches.fault
    | simp only [Touches.mk_iff, Touches.ite_iff]
    | with_reducible refine And.intro (fun _ => ?_) (fun _ => ?_)
    | ((with_reducible refine Leaf.of rfl (fun p hp => ?_) ?_); (cases p <;> first | exact absurd hp (by decide) | (show _ = _; with_reducible rfl) | rfl | (show _ = _; unfold openStep; split <;> rfl)))
    | ((with_reducible apply Touches.step (laneFails_touches _ _ _)); · decide)
    | (with_reducible apply Touches.fold (fun _ _ => ?_))
    | split

theorem execLaneErrorWindow_touches (link : Fin 48) (lane : Fin 16) (errors : Nat) (symbols : Nat) (s : State) : OutTouches [.host, .ctxs, .links, .topo, .ledger, .fw, .sent, .free] s (execLaneErrorWindow link lane errors symbols s) := by
  unfold execLaneErrorWindow
  try dsimp only
  repeat' first
    | with_reducible exact .refl
    | with_reducible apply OutTouches.next
    | with_reducible exact OutTouches.fault
    | simp only [Touches.mk_iff, Touches.ite_iff]
    | with_reducible refine And.intro (fun _ => ?_) (fun _ => ?_)
    | ((with_reducible refine Leaf.of rfl (fun p hp => ?_) ?_); (cases p <;> first | exact absurd hp (by decide) | (show _ = _; with_reducible rfl) | rfl | (show _ = _; unfold openStep; split <;> rfl)))
    | ((with_reducible apply Touches.step (onLink_touches _ _ _)); · decide)
    | ((with_reducible apply Touches.step (laneFails_touches _ _ _)); · decide)
    | (with_reducible apply Touches.fold (fun _ _ => ?_))
    | split

theorem execCtleReevaluation_touches (link : Fin 48) (lane : Fin 16) (s : State) : OutTouches [.links] s (execCtleReevaluation link lane s) := by
  unfold execCtleReevaluation
  try dsimp only
  repeat' first
    | with_reducible exact .refl
    | with_reducible apply OutTouches.next
    | with_reducible exact OutTouches.fault
    | simp only [Touches.mk_iff, Touches.ite_iff]
    | with_reducible refine And.intro (fun _ => ?_) (fun _ => ?_)
    | ((with_reducible refine Leaf.of rfl (fun p hp => ?_) ?_); (cases p <;> first | exact absurd hp (by decide) | (show _ = _; with_reducible rfl) | rfl | (show _ = _; unfold openStep; split <;> rfl)))
    | ((with_reducible apply Touches.step (onLink_touches _ _ _)); · decide)
    | (with_reducible apply Touches.fold (fun _ _ => ?_))
    | split

theorem execLinkTrainingDone_touches (link : Fin 48) (latencyNs : Nat) (s : State) : OutTouches [.host, .ctxs, .links, .topo, .ledger, .fw, .sent, .free] s (execLinkTrainingDone link latencyNs s) := by
  unfold execLinkTrainingDone
  try dsimp only
  repeat' first
    | with_reducible exact .refl
    | with_reducible apply OutTouches.next
    | with_reducible exact OutTouches.fault
    | simp only [Touches.mk_iff, Touches.ite_iff]
    | with_reducible refine And.intro (fun _ => ?_) (fun _ => ?_)
    | ((with_reducible refine Leaf.of rfl (fun p hp => ?_) ?_); (cases p <;> first | exact absurd hp (by decide) | (show _ = _; with_reducible rfl) | rfl | (show _ = _; unfold openStep; split <;> rfl)))
    | ((with_reducible apply Touches.step (emit_touches _ _)); · decide)
    | ((with_reducible apply Touches.step (fenceLink_touches _ _ _)); · decide)
    | ((with_reducible apply Touches.step (onLink_touches _ _ _)); · decide)
    | (with_reducible apply Touches.fold (fun _ _ => ?_))
    | split

theorem execLinkLockTimeout_touches (link : Fin 48) (s : State) : OutTouches [.links, .topo, .fw] s (execLinkLockTimeout link s) := by
  unfold execLinkLockTimeout
  try dsimp only
  repeat' first
    | with_reducible exact .refl
    | with_reducible apply OutTouches.next
    | with_reducible exact OutTouches.fault
    | simp only [Touches.mk_iff, Touches.ite_iff]
    | with_reducible refine And.intro (fun _ => ?_) (fun _ => ?_)
    | ((with_reducible refine Leaf.of rfl (fun p hp => ?_) ?_); (cases p <;> first | exact absurd hp (by decide) | (show _ = _; with_reducible rfl) | rfl | (show _ = _; unfold openStep; split <;> rfl)))
    | ((with_reducible apply Touches.step (onLink_touches _ _ _)); · decide)
    | ((with_reducible apply Touches.step (reVerdict_touches _)); · decide)
    | ((with_reducible apply Touches.step (hwRequest_touches _ _ _)); · decide)
    | (with_reducible apply Touches.fold (fun _ _ => ?_))
    | split

theorem execLinkTrainingRetry_touches (link : Fin 48) (s : State) : OutTouches [.links, .fw, .sent] s (execLinkTrainingRetry link s) := by
  unfold execLinkTrainingRetry
  try dsimp only
  repeat' first
    | with_reducible exact .refl
    | with_reducible apply OutTouches.next
    | with_reducible exact OutTouches.fault
    | simp only [Touches.mk_iff, Touches.ite_iff]
    | with_reducible refine And.intro (fun _ => ?_) (fun _ => ?_)
    | ((with_reducible refine Leaf.of rfl (fun p hp => ?_) ?_); (cases p <;> first | exact absurd hp (by decide) | (show _ = _; with_reducible rfl) | rfl | (show _ = _; unfold openStep; split <;> rfl)))
    | ((with_reducible apply Touches.step (onLink_touches _ _ _)); · decide)
    | ((with_reducible apply Touches.step (emit_touches _ _)); · decide)
    | ((with_reducible apply Touches.step (hwRequest_touches _ _ _)); · decide)
    | (with_reducible apply Touches.fold (fun _ _ => ?_))
    | split

theorem execDiscoveryRecordSend_touches (link : Fin 48) (s : State) : OutTouches [.sent] s (execDiscoveryRecordSend link s) := by
  unfold execDiscoveryRecordSend
  try dsimp only
  repeat' first
    | with_reducible exact .refl
    | with_reducible apply OutTouches.next
    | with_reducible exact OutTouches.fault
    | simp only [Touches.mk_iff, Touches.ite_iff]
    | with_reducible refine And.intro (fun _ => ?_) (fun _ => ?_)
    | ((with_reducible refine Leaf.of rfl (fun p hp => ?_) ?_); (cases p <;> first | exact absurd hp (by decide) | (show _ = _; with_reducible rfl) | rfl | (show _ = _; unfold openStep; split <;> rfl)))
    | ((with_reducible apply Touches.step (emit_touches _ _)); · decide)
    | (with_reducible apply Touches.fold (fun _ _ => ?_))
    | split

theorem linkAccepted_touches (s : State) (l : Nat) (c : LinkClass) (r : BitVec 256) : Touches [.host, .ctxs, .links, .topo, .recov, .fw, .sent] s (linkAccepted s l c r) := by
  unfold linkAccepted
  try dsimp only
  repeat' first
    | with_reducible exact .refl
    | simp only [Touches.mk_iff, Touches.ite_iff]
    | with_reducible refine And.intro (fun _ => ?_) (fun _ => ?_)
    | ((with_reducible refine Leaf.of rfl (fun p hp => ?_) ?_); (cases p <;> first | exact absurd hp (by decide) | (show _ = _; with_reducible rfl) | rfl | (show _ = _; unfold openStep; split <;> rfl)))
    | ((with_reducible apply Touches.step (postLink_touches _ _)); · decide)
    | ((with_reducible apply Touches.step (emit_touches _ _)); · decide)
    | ((with_reducible apply Touches.step (tell_touches _ _)); · decide)
    | ((with_reducible apply Touches.step (onLink_touches _ _ _)); · decide)
    | ((with_reducible apply Touches.step (takeState_touches _ _ _)); · decide)
    | ((with_reducible apply Touches.step (reVerdict_touches _)); · decide)

theorem linkRefused_touches (s : State) (l : Nat) (c : LinkClass) (cause : Nat) : Touches [.host, .ctxs, .links, .topo, .sent] s (linkRefused s l c cause) := by
  unfold linkRefused
  try dsimp only
  repeat' first
    | with_reducible exact .refl
    | simp only [Touches.mk_iff, Touches.ite_iff]
    | with_reducible refine And.intro (fun _ => ?_) (fun _ => ?_)
    | ((with_reducible refine Leaf.of rfl (fun p hp => ?_) ?_); (cases p <;> first | exact absurd hp (by decide) | (show _ = _; with_reducible rfl) | rfl | (show _ = _; unfold openStep; split <;> rfl)))
    | ((with_reducible apply Touches.step (reVerdict_touches _)); · decide)
    | ((with_reducible apply Touches.step (onLink_touches _ _ _)); · decide)
    | ((with_reducible apply Touches.step (resend_touches _ _ _)); · decide)
    | ((with_reducible apply Touches.step (postLink_touches _ _)); · decide)

theorem execDiscoveryRecordReceived_touches (link : Fin 48) (rec : BitVec 256) (s : State) : OutTouches [.host, .ctxs, .links, .topo, .recov, .fw, .sent] s (execDiscoveryRecordReceived link rec s) := by
  unfold execDiscoveryRecordReceived
  try dsimp only
  repeat' first
    | with_reducible exact .refl
    | with_reducible apply OutTouches.next
    | with_reducible exact OutTouches.fault
    | simp only [Touches.mk_iff, Touches.ite_iff]
    | with_reducible refine And.intro (fun _ => ?_) (fun _ => ?_)
    | ((with_reducible refine Leaf.of rfl (fun p hp => ?_) ?_); (cases p <;> first | exact absurd hp (by decide) | (show _ = _; with_reducible rfl) | rfl | (show _ = _; unfold openStep; split <;> rfl)))
    | ((with_reducible apply Touches.step (linkAccepted_touches _ _ _ _)); · decide)
    | ((with_reducible apply Touches.step (linkRefused_touches _ _ _ _)); · decide)
    | ((with_reducible apply Touches.step (onLink_touches _ _ _)); · decide)
    | ((with_reducible apply Touches.step (hwRequest_touches _ _ _)); · decide)
    | (with_reducible apply Touches.fold (fun _ _ => ?_))
    | split

end Sys2Proof.Machine
end

