-- ==== Sys2Proof/Laws/TouchPlacing.lean ====
section
/-! SUPPORT. What each operation and meaning of Machine/Placing.lean can change. -/

set_option linter.unusedSimpArgs false
set_option linter.unusedTactic false
set_option linter.unreachableTactic false

namespace Sys2Proof.Machine

theorem replacementFits_touches (s : State) (p : Nat) : Touches [.place] s (replacementFits s p) := by
  unfold replacementFits
  try dsimp only
  repeat' first
    | with_reducible exact .refl
    | simp only [Touches.mk_iff, Touches.ite_iff]
    | with_reducible refine And.intro (fun _ => ?_) (fun _ => ?_)
    | ((with_reducible refine Leaf.of rfl (fun p hp => ?_) ?_); (cases p <;> first | exact absurd hp (by decide) | (show _ = _; with_reducible rfl) | rfl | (show _ = _; unfold openStep; split <;> rfl)))

end Sys2Proof.Machine
end

