-- ==== Sys2Proof/Laws/TouchPrograms.lean ====
section
/-! SUPPORT. What each operation and meaning of Machine/Programs.lean can change. -/

set_option linter.unusedSimpArgs false
set_option linter.unusedTactic false
set_option linter.unreachableTactic false

namespace Sys2Proof.Machine

theorem loadStarts_touches (src : Src) (r : BitVec 128) (s : State) : Touches [.ctxs, .load, .sent] s (loadStarts src r s) := by
  unfold loadStarts
  try dsimp only
  repeat' first
    | with_reducible exact .refl
    | simp only [Touches.mk_iff, Touches.ite_iff]
    | with_reducible refine And.intro (fun _ => ?_) (fun _ => ?_)
    | ((with_reducible refine Leaf.of rfl (fun p hp => ?_) ?_); (cases p <;> first | exact absurd hp (by decide) | (show _ = _; with_reducible rfl) | rfl | (show _ = _; unfold openStep; split <;> rfl)))
    | ((with_reducible apply Touches.step (emit_touches _ _)); · decide)
    | ((with_reducible apply Touches.step (onCtx_touches _ _ _)); · decide)

theorem execProgramLoadRequest_touches (src : Src) (req : BitVec 128) (s : State) : OutTouches [.host, .ctxs, .load, .fw, .sent] s (execProgramLoadRequest src req s) := by
  unfold execProgramLoadRequest
  try dsimp only
  repeat' first
    | with_reducible exact .refl
    | with_reducible apply OutTouches.next
    | with_reducible exact OutTouches.fault
    | simp only [Touches.mk_iff, Touches.ite_iff]
    | with_reducible refine And.intro (fun _ => ?_) (fun _ => ?_)
    | ((with_reducible refine Leaf.of rfl (fun p hp => ?_) ?_); (cases p <;> first | exact absurd hp (by decide) | (show _ = _; with_reducible rfl) | rfl | (show _ = _; unfold openStep; split <;> rfl)))
    | ((with_reducible apply Touches.step (loadStarts_touches _ _ _)); · decide)
    | ((with_reducible apply hostCommand_touches ?hw (fun _ => ?he)); case hw => decide)

theorem loadLatch_touches (s : State) (c : Nat) : Touches [.dict] s (loadLatch s c) := by
  unfold loadLatch
  try dsimp only
  repeat' first
    | with_reducible exact .refl
    | simp only [Touches.mk_iff, Touches.ite_iff]
    | with_reducible refine And.intro (fun _ => ?_) (fun _ => ?_)
    | ((with_reducible refine Leaf.of rfl (fun p hp => ?_) ?_); (cases p <;> first | exact absurd hp (by decide) | (show _ = _; with_reducible rfl) | rfl | (show _ = _; unfold openStep; split <;> rfl)))

theorem judgeView_touches (s : State) (c : Nat) : Touches [.dict] s (judgeView s c) := by
  unfold judgeView
  try dsimp only
  repeat' first
    | with_reducible exact .refl
    | simp only [Touches.mk_iff, Touches.ite_iff]
    | with_reducible refine And.intro (fun _ => ?_) (fun _ => ?_)
    | ((with_reducible refine Leaf.of rfl (fun p hp => ?_) ?_); (cases p <;> first | exact absurd hp (by decide) | (show _ = _; with_reducible rfl) | rfl | (show _ = _; unfold openStep; split <;> rfl)))

theorem clearForJob_touches (s : State) : Touches [.vals, .vers, .fetch, .committed, .steps, .coll, .num, .place, .ckpt, .fenceSet, .recov] s (clearForJob s) := by
  unfold clearForJob
  try dsimp only
  repeat' first
    | with_reducible exact .refl
    | simp only [Touches.mk_iff, Touches.ite_iff]
    | with_reducible refine And.intro (fun _ => ?_) (fun _ => ?_)
    | ((with_reducible refine Leaf.of rfl (fun p hp => ?_) ?_); (cases p <;> first | exact absurd hp (by decide) | (show _ = _; with_reducible rfl) | rfl | (show _ = _; unfold openStep; split <;> rfl)))

theorem placeProgram_touches (s : State) (c : Nat) (p : Program) : Touches [.place] s (placeProgram s c p) := by
  unfold placeProgram
  try dsimp only
  repeat' first
    | with_reducible exact .refl
    | simp only [Touches.mk_iff, Touches.ite_iff]
    | with_reducible refine And.intro (fun _ => ?_) (fun _ => ?_)
    | ((with_reducible refine Leaf.of rfl (fun p hp => ?_) ?_); (cases p <;> first | exact absurd hp (by decide) | (show _ = _; with_reducible rfl) | rfl | (show _ = _; unfold openStep; split <;> rfl)))

theorem sizeReserve_touches (s : State) : Touches [.vers] s (sizeReserve s) := by
  unfold sizeReserve
  try dsimp only
  repeat' first
    | with_reducible exact .refl
    | simp only [Touches.mk_iff, Touches.ite_iff]
    | with_reducible refine And.intro (fun _ => ?_) (fun _ => ?_)
    | ((with_reducible refine Leaf.of rfl (fun p hp => ?_) ?_); (cases p <;> first | exact absurd hp (by decide) | (show _ = _; with_reducible rfl) | rfl | (show _ = _; unfold openStep; split <;> rfl)))

theorem acceptLoad_touches (s : State) (c : Nat) (p : Program) : Touches [.vals, .ctxs, .vers, .fetch, .results, .committed, .steps, .sync, .coll, .num, .place, .mem, .ckpt, .fenceSet, .recov, .meas] s (acceptLoad s c p) := by
  unfold acceptLoad
  try dsimp only
  repeat' first
    | with_reducible exact .refl
    | simp only [Touches.mk_iff, Touches.ite_iff]
    | with_reducible refine And.intro (fun _ => ?_) (fun _ => ?_)
    | ((with_reducible refine Leaf.of rfl (fun p hp => ?_) ?_); (cases p <;> first | exact absurd hp (by decide) | (show _ = _; with_reducible rfl) | rfl | (show _ = _; unfold openStep; split <;> rfl)))
    | ((with_reducible apply Touches.step (clearForJob_touches _)); · decide)
    | ((with_reducible apply Touches.step (onCtx_touches _ _ _)); · decide)
    | ((with_reducible apply Touches.step (placeProgram_touches _ _ _)); · decide)
    | ((with_reducible apply Touches.step (sizeReserve_touches _)); · decide)

theorem loadStatusIs_touches (s : State) (l : Load) : Touches [.host, .load, .sent] s (loadStatusIs s l) := by
  unfold loadStatusIs
  try dsimp only
  repeat' first
    | with_reducible exact .refl
    | simp only [Touches.mk_iff, Touches.ite_iff]
    | with_reducible refine And.intro (fun _ => ?_) (fun _ => ?_)
    | ((with_reducible refine Leaf.of rfl (fun p hp => ?_) ?_); (cases p <;> first | exact absurd hp (by decide) | (show _ = _; with_reducible rfl) | rfl | (show _ = _; unfold openStep; split <;> rfl)))
    | ((with_reducible apply Touches.step (post_touches _ _ _ _ _)); · decide)

theorem loadRejected_touches (s : State) (j : Judged) : Touches [.host, .ctxs, .load, .sent] s (loadRejected s j) := by
  unfold loadRejected
  try dsimp only
  repeat' first
    | with_reducible exact .refl
    | simp only [Touches.mk_iff, Touches.ite_iff]
    | with_reducible refine And.intro (fun _ => ?_) (fun _ => ?_)
    | ((with_reducible refine Leaf.of rfl (fun p hp => ?_) ?_); (cases p <;> first | exact absurd hp (by decide) | (show _ = _; with_reducible rfl) | rfl | (show _ = _; unfold openStep; split <;> rfl)))
    | ((with_reducible apply Touches.step (onCtx_touches _ _ _)); · decide)
    | ((with_reducible apply Touches.step (loadStatusIs_touches _ _)); · decide)
    | ((with_reducible apply Touches.step (countIllegal_touches _ _ _ _ _)); · decide)
    | (with_reducible apply Touches.fold (fun _ _ => ?_))
    | split

theorem loadEnds_touches (s : State) : Touches [.vals, .dict, .host, .ctxs, .load, .vers, .fetch, .results, .committed, .steps, .sync, .coll, .num, .place, .mem, .ckpt, .fenceSet, .recov, .meas, .sent] s (loadEnds s) := by
  unfold loadEnds
  try dsimp only
  repeat' first
    | with_reducible exact .refl
    | simp only [Touches.mk_iff, Touches.ite_iff]
    | with_reducible refine And.intro (fun _ => ?_) (fun _ => ?_)
    | ((with_reducible refine Leaf.of rfl (fun p hp => ?_) ?_); (cases p <;> first | exact absurd hp (by decide) | (show _ = _; with_reducible rfl) | rfl | (show _ = _; unfold openStep; split <;> rfl)))
    | ((with_reducible apply Touches.step (loadRejected_touches _ _)); · decide)
    | ((with_reducible apply Touches.step (loadLatch_touches _ _)); · decide)
    | ((with_reducible apply Touches.step (acceptLoad_touches _ _ _)); · decide)
    | ((with_reducible apply Touches.step (loadStatusIs_touches _ _)); · decide)
    | ((with_reducible apply Touches.step (judgeView_touches _ _)); · decide)
    | (with_reducible apply Touches.fold (fun _ _ => ?_))
    | split

theorem execProgramLoadDone_touches (s : State) : OutTouches [.vals, .dict, .host, .ctxs, .load, .vers, .fetch, .results, .committed, .steps, .sync, .coll, .num, .place, .mem, .ckpt, .fenceSet, .recov, .meas, .sent] s (execProgramLoadDone s) := by
  unfold execProgramLoadDone
  try dsimp only
  repeat' first
    | with_reducible exact .refl
    | with_reducible apply OutTouches.next
    | with_reducible exact OutTouches.fault
    | simp only [Touches.mk_iff, Touches.ite_iff]
    | with_reducible refine And.intro (fun _ => ?_) (fun _ => ?_)
    | ((with_reducible refine Leaf.of rfl (fun p hp => ?_) ?_); (cases p <;> first | exact absurd hp (by decide) | (show _ = _; with_reducible rfl) | rfl | (show _ = _; unfold openStep; split <;> rfl)))
    | ((with_reducible apply Touches.step (loadEnds_touches _)); · decide)
    | (with_reducible apply Touches.fold (fun _ _ => ?_))
    | split

theorem putCommitted_touches (n : Nat) (c : Nat) (s : State) (w : Wr) : Touches [.vers] s (putCommitted n c s w) := by
  unfold putCommitted
  try dsimp only
  repeat' first
    | with_reducible exact .refl
    | simp only [Touches.mk_iff, Touches.ite_iff]
    | with_reducible refine And.intro (fun _ => ?_) (fun _ => ?_)
    | ((with_reducible refine Leaf.of rfl (fun p hp => ?_) ?_); (cases p <;> first | exact absurd hp (by decide) | (show _ = _; with_reducible rfl) | rfl | (show _ = _; unfold openStep; split <;> rfl)))

theorem convertMaster_touches (n : Nat) (c : Nat) (s : State) (w : OpSlot) (work : Nat) (first : Nat) (count : Nat) : Touches [.vers] s (convertMaster n c s w work first count) := by
  unfold convertMaster
  try dsimp only
  repeat' first
    | with_reducible exact .refl
    | simp only [Touches.mk_iff, Touches.ite_iff]
    | with_reducible refine And.intro (fun _ => ?_) (fun _ => ?_)
    | ((with_reducible refine Leaf.of rfl (fun p hp => ?_) ?_); (cases p <;> first | exact absurd hp (by decide) | (show _ = _; with_reducible rfl) | rfl | (show _ = _; unfold openStep; split <;> rfl)))
    | ((with_reducible apply Touches.step (putCommitted_touches _ _ _ _)); · decide)
    | (with_reducible apply Touches.fold (fun _ _ => ?_))

theorem regather_touches (n : Nat) (c : Nat) (pos : Nat) (s : State) (g : Group) (src : Nat) (dst : Nat) : Touches [.ctxs, .vers, .coll, .links, .topo, .sent, .free] s (regather n c pos s g src dst) := by
  unfold regather
  try dsimp only
  repeat' first
    | with_reducible exact .refl
    | simp only [Touches.mk_iff, Touches.ite_iff]
    | with_reducible refine And.intro (fun _ => ?_) (fun _ => ?_)
    | ((with_reducible refine Leaf.of rfl (fun p hp => ?_) ?_); (cases p <;> first | exact absurd hp (by decide) | (show _ = _; with_reducible rfl) | rfl | (show _ = _; unfold openStep; split <;> rfl)))
    | ((with_reducible apply Touches.step (putCommitted_touches _ _ _ _)); · decide)
    | ((with_reducible apply Touches.step (sendFlits_touches _ _ _ _)); · decide)
    | (with_reducible apply Touches.fold (fun _ _ => ?_))

theorem rebuildTask_touches (n : Nat) (c : Nat) (gathers : Bool) (s : State) (t : Task × Nat) : Touches [.ctxs, .vers, .coll, .links, .topo, .sent, .free] s (rebuildTask n c gathers s t) := by
  unfold rebuildTask
  try dsimp only
  repeat' first
    | with_reducible exact .refl
    | simp only [Touches.mk_iff, Touches.ite_iff]
    | with_reducible refine And.intro (fun _ => ?_) (fun _ => ?_)
    | ((with_reducible refine Leaf.of rfl (fun p hp => ?_) ?_); (cases p <;> first | exact absurd hp (by decide) | (show _ = _; with_reducible rfl) | rfl | (show _ = _; unfold openStep; split <;> rfl)))
    | ((with_reducible apply Touches.step (regather_touches _ _ _ _ _ _ _)); · decide)
    | ((with_reducible apply Touches.step (convertMaster_touches _ _ _ _ _ _ _)); · decide)
    | (with_reducible apply Touches.fold (fun _ _ => ?_))
    | split

theorem rebuildCtx_touches (n : Nat) (s : State) (c : Nat) : Touches [.ctxs, .vers, .coll, .links, .topo, .sent, .free] s (rebuildCtx n s c) := by
  unfold rebuildCtx
  try dsimp only
  repeat' first
    | with_reducible exact .refl
    | simp only [Touches.mk_iff, Touches.ite_iff]
    | with_reducible refine And.intro (fun _ => ?_) (fun _ => ?_)
    | ((with_reducible refine Leaf.of rfl (fun p hp => ?_) ?_); (cases p <;> first | exact absurd hp (by decide) | (show _ = _; with_reducible rfl) | rfl | (show _ = _; unfold openStep; split <;> rfl)))
    | ((with_reducible apply Touches.step (rebuildTask_touches _ _ _ _ _)); · decide)
    | (with_reducible apply Touches.fold (fun _ _ => ?_))

theorem rebuildEnds_touches (failed : Bool) (s : State) : Touches [.host, .ctxs, .ckpt, .sent] s (rebuildEnds failed s) := by
  unfold rebuildEnds
  try dsimp only
  repeat' first
    | with_reducible exact .refl
    | simp only [Touches.mk_iff, Touches.ite_iff]
    | with_reducible refine And.intro (fun _ => ?_) (fun _ => ?_)
    | ((with_reducible refine Leaf.of rfl (fun p hp => ?_) ?_); (cases p <;> first | exact absurd hp (by decide) | (show _ = _; with_reducible rfl) | rfl | (show _ = _; unfold openStep; split <;> rfl)))
    | ((with_reducible apply Touches.step (haltCtx_touches _ _ _ _)); · decide)

theorem rebuild_touches (s : State) : Touches [.ctxs, .vers, .coll, .links, .topo, .sent, .free] s (rebuild s) := by
  unfold rebuild
  try dsimp only
  repeat' first
    | with_reducible exact .refl
    | simp only [Touches.mk_iff, Touches.ite_iff]
    | with_reducible refine And.intro (fun _ => ?_) (fun _ => ?_)
    | ((with_reducible refine Leaf.of rfl (fun p hp => ?_) ?_); (cases p <;> first | exact absurd hp (by decide) | (show _ = _; with_reducible rfl) | rfl | (show _ = _; unfold openStep; split <;> rfl)))
    | ((with_reducible apply Touches.step (rebuildCtx_touches _ _ _)); · decide)
    | (with_reducible apply Touches.fold (fun _ _ => ?_))

theorem startFetch_touches (s : State) : Touches [.fetch] s (startFetch s) := by
  unfold startFetch
  try dsimp only
  repeat' first
    | with_reducible exact .refl
    | simp only [Touches.mk_iff, Touches.ite_iff]
    | with_reducible refine And.intro (fun _ => ?_) (fun _ => ?_)
    | ((with_reducible refine Leaf.of rfl (fun p hp => ?_) ?_); (cases p <;> first | exact absurd hp (by decide) | (show _ = _; with_reducible rfl) | rfl | (show _ = _; unfold openStep; split <;> rfl)))
    | ((with_reducible apply Touches.step (fetchBatch_touches _ _)); · decide)
    | (with_reducible apply Touches.fold (fun _ _ => ?_))

theorem startFresh_touches (s : State) (role : Role) : Touches [.dict, .vers, .steps, .chans, .ckpt, .recov, .power] s (startFresh s role) := by
  unfold startFresh
  try dsimp only
  repeat' first
    | with_reducible exact .refl
    | simp only [Touches.mk_iff, Touches.ite_iff]
    | with_reducible refine And.intro (fun _ => ?_) (fun _ => ?_)
    | ((with_reducible refine Leaf.of rfl (fun p hp => ?_) ?_); (cases p <;> first | exact absurd hp (by decide) | (show _ = _; with_reducible rfl) | rfl | (show _ = _; unfold openStep; split <;> rfl)))

theorem startWorking_touches (s : State) : Touches [.devState, .dict, .host, .ctxs, .vers, .fetch, .cores, .steps, .chans, .coll, .links, .topo, .ckpt, .tests, .recov, .power, .meas, .sec, .sent, .free] s (startWorking s) := by
  unfold startWorking
  try dsimp only
  repeat' first
    | with_reducible exact .refl
    | simp only [Touches.mk_iff, Touches.ite_iff]
    | with_reducible refine And.intro (fun _ => ?_) (fun _ => ?_)
    | ((with_reducible refine Leaf.of rfl (fun p hp => ?_) ?_); (cases p <;> first | exact absurd hp (by decide) | (show _ = _; with_reducible rfl) | rfl | (show _ = _; unfold openStep; split <;> rfl)))
    | ((with_reducible apply Touches.step (rebuild_touches _)); · decide)
    | ((with_reducible apply Touches.step (startFresh_touches _ _)); · decide)
    | ((with_reducible apply Touches.step (onCtx_touches _ _ _)); · decide)
    | ((with_reducible apply Touches.step (startFetch_touches _)); · decide)
    | ((with_reducible apply Touches.step (changeState_touches _ _)); · decide)
    | ((with_reducible apply Touches.step (rebuildEnds_touches _ _)); · decide)

theorem startSpare_touches (s : State) : Touches [.devState, .dict, .host, .ctxs, .vers, .cores, .steps, .chans, .links, .topo, .ckpt, .tests, .recov, .power, .meas, .sec, .sent] s (startSpare s) := by
  unfold startSpare
  try dsimp only
  repeat' first
    | with_reducible exact .refl
    | simp only [Touches.mk_iff, Touches.ite_iff]
    | with_reducible refine And.intro (fun _ => ?_) (fun _ => ?_)
    | ((with_reducible refine Leaf.of rfl (fun p hp => ?_) ?_); (cases p <;> first | exact absurd hp (by decide) | (show _ = _; with_reducible rfl) | rfl | (show _ = _; unfold openStep; split <;> rfl)))
    | ((with_reducible apply Touches.step (startFresh_touches _ _)); · decide)
    | ((with_reducible apply Touches.step (onCtx_touches _ _ _)); · decide)
    | ((with_reducible apply Touches.step (changeState_touches _ _)); · decide)

theorem startJob_touches (s : State) : Touches [.devState, .dict, .host, .ctxs, .vers, .fetch, .cores, .steps, .chans, .coll, .links, .topo, .ckpt, .tests, .recov, .power, .meas, .sec, .sent, .free] s (startJob s) := by
  unfold startJob
  try dsimp only
  repeat' first
    | with_reducible exact .refl
    | simp only [Touches.mk_iff, Touches.ite_iff]
    | with_reducible refine And.intro (fun _ => ?_) (fun _ => ?_)
    | ((with_reducible refine Leaf.of rfl (fun p hp => ?_) ?_); (cases p <;> first | exact absurd hp (by decide) | (show _ = _; with_reducible rfl) | rfl | (show _ = _; unfold openStep; split <;> rfl)))
    | ((with_reducible apply Touches.step (startWorking_touches _)); · decide)
    | ((with_reducible apply Touches.step (startSpare_touches _)); · decide)

theorem replayBegins_touches (s : State) : Touches [.ctxs, .vers, .steps, .chans, .coll, .links, .topo, .sent, .free] s (replayBegins s) := by
  unfold replayBegins
  try dsimp only
  repeat' first
    | with_reducible exact .refl
    | simp only [Touches.mk_iff, Touches.ite_iff]
    | with_reducible refine And.intro (fun _ => ?_) (fun _ => ?_)
    | ((with_reducible refine Leaf.of rfl (fun p hp => ?_) ?_); (cases p <;> first | exact absurd hp (by decide) | (show _ = _; with_reducible rfl) | rfl | (show _ = _; unfold openStep; split <;> rfl)))
    | ((with_reducible apply Touches.step (rebuildCtx_touches _ _ _)); · decide)
    | ((with_reducible apply Touches.step (onCtx_touches _ _ _)); · decide)

theorem startReplay_touches (s : State) : Touches [.host, .ctxs, .vers, .steps, .chans, .coll, .links, .topo, .ckpt, .sent, .free] s (startReplay s) := by
  unfold startReplay
  try dsimp only
  repeat' first
    | with_reducible exact .refl
    | simp only [Touches.mk_iff, Touches.ite_iff]
    | with_reducible refine And.intro (fun _ => ?_) (fun _ => ?_)
    | ((with_reducible refine Leaf.of rfl (fun p hp => ?_) ?_); (cases p <;> first | exact absurd hp (by decide) | (show _ = _; with_reducible rfl) | rfl | (show _ = _; unfold openStep; split <;> rfl)))
    | ((with_reducible apply Touches.step (replayBegins_touches _)); · decide)
    | ((with_reducible apply Touches.step (onCtx_touches _ _ _)); · decide)
    | ((with_reducible apply Touches.step (haltCtx_touches _ _ _ _)); · decide)

theorem startCtx_touches (c : Nat) (s : State) : Touches [.devState, .dict, .host, .ctxs, .vers, .fetch, .cores, .steps, .chans, .coll, .links, .topo, .ckpt, .tests, .recov, .power, .meas, .sec, .sent, .free] s (startCtx c s) := by
  unfold startCtx
  try dsimp only
  repeat' first
    | with_reducible exact .refl
    | simp only [Touches.mk_iff, Touches.ite_iff]
    | with_reducible refine And.intro (fun _ => ?_) (fun _ => ?_)
    | ((with_reducible refine Leaf.of rfl (fun p hp => ?_) ?_); (cases p <;> first | exact absurd hp (by decide) | (show _ = _; with_reducible rfl) | rfl | (show _ = _; unfold openStep; split <;> rfl)))
    | ((with_reducible apply Touches.step (onCtx_touches _ _ _)); · decide)
    | ((with_reducible apply Touches.step (startReplay_touches _)); · decide)
    | ((with_reducible apply Touches.step (startJob_touches _)); · decide)

theorem execContextStart_touches (src : Src) (ctx : Fin 16) (s : State) : OutTouches [.devState, .dict, .host, .ctxs, .vers, .fetch, .cores, .steps, .chans, .coll, .links, .topo, .ckpt, .tests, .recov, .power, .fw, .meas, .sec, .sent, .free] s (execContextStart src ctx s) := by
  unfold execContextStart
  try dsimp only
  repeat' first
    | with_reducible exact .refl
    | with_reducible apply OutTouches.next
    | with_reducible exact OutTouches.fault
    | simp only [Touches.mk_iff, Touches.ite_iff]
    | with_reducible refine And.intro (fun _ => ?_) (fun _ => ?_)
    | ((with_reducible refine Leaf.of rfl (fun p hp => ?_) ?_); (cases p <;> first | exact absurd hp (by decide) | (show _ = _; with_reducible rfl) | rfl | (show _ = _; unfold openStep; split <;> rfl)))
    | ((with_reducible apply Touches.step (startCtx_touches _ _)); · decide)
    | ((with_reducible apply hostCommand_touches ?hw (fun _ => ?he)); case hw => decide)

theorem ownerHalt_touches (c : Nat) (s : State) : Touches [.host, .ctxs, .sent] s (ownerHalt c s) := by
  unfold ownerHalt
  try dsimp only
  repeat' first
    | with_reducible exact .refl
    | simp only [Touches.mk_iff, Touches.ite_iff]
    | with_reducible refine And.intro (fun _ => ?_) (fun _ => ?_)
    | ((with_reducible refine Leaf.of rfl (fun p hp => ?_) ?_); (cases p <;> first | exact absurd hp (by decide) | (show _ = _; with_reducible rfl) | rfl | (show _ = _; unfold openStep; split <;> rfl)))
    | ((with_reducible apply Touches.step (haltCtx_touches _ _ _ _)); · decide)

theorem resumeCtx_touches (c : Nat) (s : State) : Touches [.ctxs, .steps, .links, .topo, .sent] s (resumeCtx c s) := by
  unfold resumeCtx
  try dsimp only
  repeat' first
    | with_reducible exact .refl
    | simp only [Touches.mk_iff, Touches.ite_iff]
    | with_reducible refine And.intro (fun _ => ?_) (fun _ => ?_)
    | ((with_reducible refine Leaf.of rfl (fun p hp => ?_) ?_); (cases p <;> first | exact absurd hp (by decide) | (show _ = _; with_reducible rfl) | rfl | (show _ = _; unfold openStep; split <;> rfl)))
    | ((with_reducible apply Touches.step (onCtx_touches _ _ _)); · decide)
    | ((with_reducible apply Touches.step (progress_touches _ _)); · decide)

theorem unloadCtx_touches (c : Nat) (s : State) : Touches [.ctxs] s (unloadCtx c s) := by
  unfold unloadCtx
  try dsimp only
  repeat' first
    | with_reducible exact .refl
    | simp only [Touches.mk_iff, Touches.ite_iff]
    | with_reducible refine And.intro (fun _ => ?_) (fun _ => ?_)
    | ((with_reducible refine Leaf.of rfl (fun p hp => ?_) ?_); (cases p <;> first | exact absurd hp (by decide) | (show _ = _; with_reducible rfl) | rfl | (show _ = _; unfold openStep; split <;> rfl)))
    | ((with_reducible apply Touches.step (onCtx_touches _ _ _)); · decide)

theorem execContextHalt_touches (src : Src) (ctx : Fin 16) (s : State) : OutTouches [.host, .ctxs, .fw, .sent] s (execContextHalt src ctx s) := by
  unfold execContextHalt
  try dsimp only
  repeat' first
    | with_reducible exact .refl
    | with_reducible apply OutTouches.next
    | with_reducible exact OutTouches.fault
    | simp only [Touches.mk_iff, Touches.ite_iff]
    | with_reducible refine And.intro (fun _ => ?_) (fun _ => ?_)
    | ((with_reducible refine Leaf.of rfl (fun p hp => ?_) ?_); (cases p <;> first | exact absurd hp (by decide) | (show _ = _; with_reducible rfl) | rfl | (show _ = _; unfold openStep; split <;> rfl)))
    | ((with_reducible apply Touches.step (ownerHalt_touches _ _)); · decide)
    | ((with_reducible apply hostCommand_touches ?hw (fun _ => ?he)); case hw => decide)

theorem execContextResume_touches (src : Src) (ctx : Fin 16) (s : State) : OutTouches [.host, .ctxs, .steps, .links, .topo, .fw, .sent] s (execContextResume src ctx s) := by
  unfold execContextResume
  try dsimp only
  repeat' first
    | with_reducible exact .refl
    | with_reducible apply OutTouches.next
    | with_reducible exact OutTouches.fault
    | simp only [Touches.mk_iff, Touches.ite_iff]
    | with_reducible refine And.intro (fun _ => ?_) (fun _ => ?_)
    | ((with_reducible refine Leaf.of rfl (fun p hp => ?_) ?_); (cases p <;> first | exact absurd hp (by decide) | (show _ = _; with_reducible rfl) | rfl | (show _ = _; unfold openStep; split <;> rfl)))
    | ((with_reducible apply Touches.step (resumeCtx_touches _ _)); · decide)
    | ((with_reducible apply hostCommand_touches ?hw (fun _ => ?he)); case hw => decide)

theorem execContextUnload_touches (src : Src) (ctx : Fin 16) (s : State) : OutTouches [.host, .ctxs, .fw, .sent] s (execContextUnload src ctx s) := by
  unfold execContextUnload
  try dsimp only
  repeat' first
    | with_reducible exact .refl
    | with_reducible apply OutTouches.next
    | with_reducible exact OutTouches.fault
    | simp only [Touches.mk_iff, Touches.ite_iff]
    | with_reducible refine And.intro (fun _ => ?_) (fun _ => ?_)
    | ((with_reducible refine Leaf.of rfl (fun p hp => ?_) ?_); (cases p <;> first | exact absurd hp (by decide) | (show _ = _; with_reducible rfl) | rfl | (show _ = _; unfold openStep; split <;> rfl)))
    | ((with_reducible apply Touches.step (unloadCtx_touches _ _)); · decide)
    | ((with_reducible apply hostCommand_touches ?hw (fun _ => ?he)); case hw => decide)

theorem freeCtx_touches (s : State) (c : Nat) : Touches [.ctxs, .vers, .place] s (freeCtx s c) := by
  unfold freeCtx
  try dsimp only
  repeat' first
    | with_reducible exact .refl
    | simp only [Touches.mk_iff, Touches.ite_iff]
    | with_reducible refine And.intro (fun _ => ?_) (fun _ => ?_)
    | ((with_reducible refine Leaf.of rfl (fun p hp => ?_) ?_); (cases p <;> first | exact absurd hp (by decide) | (show _ = _; with_reducible rfl) | rfl | (show _ = _; unfold openStep; split <;> rfl)))
    | ((with_reducible apply Touches.step (onCtx_touches _ _ _)); · decide)
    | ((with_reducible apply Touches.step (sizeReserve_touches _)); · decide)

theorem jobEnds_touches (s : State) : Touches [.devState, .dev, .owner, .host, .ctxs, .vers, .cores, .steps, .sync, .chans, .coll, .place, .mem, .links, .topo, .tests, .recov, .fw, .meas, .sec, .sent, .free] s (jobEnds s) := by
  unfold jobEnds
  try dsimp only
  repeat' first
    | with_reducible exact .refl
    | simp only [Touches.mk_iff, Touches.ite_iff]
    | with_reducible refine And.intro (fun _ => ?_) (fun _ => ?_)
    | ((with_reducible refine Leaf.of rfl (fun p hp => ?_) ?_); (cases p <;> first | exact absurd hp (by decide) | (show _ = _; with_reducible rfl) | rfl | (show _ = _; unfold openStep; split <;> rfl)))
    | ((with_reducible apply Touches.step (jobToReady_touches _)); · decide)
    | ((with_reducible apply Touches.step (discardSteps_touches _ _)); · decide)

theorem replayEnds_touches (s : State) : Touches [.steps] s (replayEnds s) := by
  unfold replayEnds
  try dsimp only
  repeat' first
    | with_reducible exact .refl
    | simp only [Touches.mk_iff, Touches.ite_iff]
    | with_reducible refine And.intro (fun _ => ?_) (fun _ => ?_)
    | ((with_reducible refine Leaf.of rfl (fun p hp => ?_) ?_); (cases p <;> first | exact absurd hp (by decide) | (show _ = _; with_reducible rfl) | rfl | (show _ = _; unfold openStep; split <;> rfl)))

theorem execUnloadComplete_touches (ctx : Fin 16) (s : State) : OutTouches [.devState, .dev, .owner, .host, .ctxs, .vers, .cores, .steps, .sync, .chans, .coll, .place, .mem, .links, .topo, .tests, .recov, .fw, .meas, .sec, .sent, .free] s (execUnloadComplete ctx s) := by
  unfold execUnloadComplete
  try dsimp only
  repeat' first
    | with_reducible exact .refl
    | with_reducible apply OutTouches.next
    | with_reducible exact OutTouches.fault
    | simp only [Touches.mk_iff, Touches.ite_iff]
    | with_reducible refine And.intro (fun _ => ?_) (fun _ => ?_)
    | ((with_reducible refine Leaf.of rfl (fun p hp => ?_) ?_); (cases p <;> first | exact absurd hp (by decide) | (show _ = _; with_reducible rfl) | rfl | (show _ = _; unfold openStep; split <;> rfl)))
    | ((with_reducible apply Touches.step (replayEnds_touches _)); · decide)
    | ((with_reducible apply Touches.step (freeCtx_touches _ _)); · decide)
    | ((with_reducible apply Touches.step (jobEnds_touches _)); · decide)
    | (with_reducible apply Touches.fold (fun _ _ => ?_))
    | split

theorem clearCounters_touches (s : State) : Touches [.num] s (clearCounters s) := by
  unfold clearCounters
  try dsimp only
  repeat' first
    | with_reducible exact .refl
    | simp only [Touches.mk_iff, Touches.ite_iff]
    | with_reducible refine And.intro (fun _ => ?_) (fun _ => ?_)
    | ((with_reducible refine Leaf.of rfl (fun p hp => ?_) ?_); (cases p <;> first | exact absurd hp (by decide) | (show _ = _; with_reducible rfl) | rfl | (show _ = _; unfold openStep; split <;> rfl)))

theorem execCounterClear_touches (src : Src) (s : State) : OutTouches [.host, .num, .fw, .sent] s (execCounterClear src s) := by
  unfold execCounterClear
  try dsimp only
  repeat' first
    | with_reducible exact .refl
    | with_reducible apply OutTouches.next
    | with_reducible exact OutTouches.fault
    | simp only [Touches.mk_iff, Touches.ite_iff]
    | with_reducible refine And.intro (fun _ => ?_) (fun _ => ?_)
    | ((with_reducible refine Leaf.of rfl (fun p hp => ?_) ?_); (cases p <;> first | exact absurd hp (by decide) | (show _ = _; with_reducible rfl) | rfl | (show _ = _; unfold openStep; split <;> rfl)))
    | ((with_reducible apply Touches.step (clearCounters_touches _)); · decide)
    | ((with_reducible apply hostCommand_touches ?hw (fun _ => ?he)); case hw => decide)

end Sys2Proof.Machine
end

