-- ==== Sys2Proof/Laws/TouchCheckpoints.lean ====
section
/-! SUPPORT. What each operation and meaning of Machine/Checkpoints.lean can change. -/

set_option linter.unusedSimpArgs false
set_option linter.unusedTactic false
set_option linter.unreachableTactic false

namespace Sys2Proof.Machine

theorem raiseMark_touches (s : State) : Touches [.ckpt] s (raiseMark s) := by
  unfold raiseMark
  try dsimp only
  repeat' first
    | with_reducible exact .refl
    | simp only [Touches.mk_iff, Touches.ite_iff]
    | with_reducible refine And.intro (fun _ => ?_) (fun _ => ?_)
    | ((with_reducible refine Leaf.of rfl (fun p hp => ?_) ?_); (cases p <;> first | exact absurd hp (by decide) | (show _ = _; with_reducible rfl) | rfl | (show _ = _; unfold openStep; split <;> rfl)))

theorem execEpochMarkEdge_touches (highNs : Nat) (s : State) : OutTouches [.ckpt] s (execEpochMarkEdge highNs s) := by
  unfold execEpochMarkEdge
  try dsimp only
  repeat' first
    | with_reducible exact .refl
    | with_reducible apply OutTouches.next
    | with_reducible exact OutTouches.fault
    | simp only [Touches.mk_iff, Touches.ite_iff]
    | with_reducible refine And.intro (fun _ => ?_) (fun _ => ?_)
    | ((with_reducible refine Leaf.of rfl (fun p hp => ?_) ?_); (cases p <;> first | exact absurd hp (by decide) | (show _ = _; with_reducible rfl) | rfl | (show _ = _; unfold openStep; split <;> rfl)))
    | ((with_reducible apply Touches.step (raiseMark_touches _)); · decide)
    | (with_reducible apply Touches.fold (fun _ _ => ?_))
    | split

theorem execEpochMarkCommand_touches (src : Src) (s : State) : OutTouches [.host, .ckpt, .fw, .sent] s (execEpochMarkCommand src s) := by
  unfold execEpochMarkCommand
  try dsimp only
  repeat' first
    | with_reducible exact .refl
    | with_reducible apply OutTouches.next
    | with_reducible exact OutTouches.fault
    | simp only [Touches.mk_iff, Touches.ite_iff]
    | with_reducible refine And.intro (fun _ => ?_) (fun _ => ?_)
    | ((with_reducible refine Leaf.of rfl (fun p hp => ?_) ?_); (cases p <;> first | exact absurd hp (by decide) | (show _ = _; with_reducible rfl) | rfl | (show _ = _; unfold openStep; split <;> rfl)))
    | ((with_reducible apply Touches.step (raiseMark_touches _)); · decide)
    | ((with_reducible apply hostCommand_touches ?hw (fun _ => ?he)); case hw => decide)

theorem onCapture_touches (s : State) (cut : Nat) (f : Capture → Capture) : Touches [.ckpt] s (onCapture s cut f) := by
  unfold onCapture
  try dsimp only
  repeat' first
    | with_reducible exact .refl
    | simp only [Touches.mk_iff, Touches.ite_iff]
    | with_reducible refine And.intro (fun _ => ?_) (fun _ => ?_)
    | ((with_reducible refine Leaf.of rfl (fun p hp => ?_) ?_); (cases p <;> first | exact absurd hp (by decide) | (show _ = _; with_reducible rfl) | rfl | (show _ = _; unfold openStep; split <;> rfl)))

theorem lehrBegins_touches (s : State) (cut : Nat) (area : Nat) : Touches [.ckpt, .sent] s (lehrBegins s cut area) := by
  unfold lehrBegins
  try dsimp only
  repeat' first
    | with_reducible exact .refl
    | simp only [Touches.mk_iff, Touches.ite_iff]
    | with_reducible refine And.intro (fun _ => ?_) (fun _ => ?_)
    | ((with_reducible refine Leaf.of rfl (fun p hp => ?_) ?_); (cases p <;> first | exact absurd hp (by decide) | (show _ = _; with_reducible rfl) | rfl | (show _ = _; unfold openStep; split <;> rfl)))
    | ((with_reducible apply Touches.step (onCapture_touches _ _ _)); · decide)
    | ((with_reducible apply Touches.step (emit_touches _ _)); · decide)

theorem poolBegins_touches (s : State) (cut : Nat) (target : Nat) : Touches [.ckpt, .sent] s (poolBegins s cut target) := by
  unfold poolBegins
  try dsimp only
  repeat' first
    | with_reducible exact .refl
    | simp only [Touches.mk_iff, Touches.ite_iff]
    | with_reducible refine And.intro (fun _ => ?_) (fun _ => ?_)
    | ((with_reducible refine Leaf.of rfl (fun p hp => ?_) ?_); (cases p <;> first | exact absurd hp (by decide) | (show _ = _; with_reducible rfl) | rfl | (show _ = _; unfold openStep; split <;> rfl)))
    | ((with_reducible apply Touches.step (onCapture_touches _ _ _)); · decide)
    | ((with_reducible apply Touches.step (emit_touches _ _)); · decide)

theorem poolStart_touches (s : State) (k : Capture) (from_ : Nat) : Touches [.host, .vers, .chans, .topo, .ckpt, .sent] s (poolStart s k from_) := by
  unfold poolStart
  try dsimp only
  repeat' first
    | with_reducible exact .refl
    | simp only [Touches.mk_iff, Touches.ite_iff]
    | with_reducible refine And.intro (fun _ => ?_) (fun _ => ?_)
    | ((with_reducible refine Leaf.of rfl (fun p hp => ?_) ?_); (cases p <;> first | exact absurd hp (by decide) | (show _ = _; with_reducible rfl) | rfl | (show _ = _; unfold openStep; split <;> rfl)))
    | ((with_reducible apply Touches.step (abandonCapture_touches _ _ _)); · decide)
    | ((with_reducible apply Touches.step (poolBegins_touches _ _ _)); · decide)
    | (with_reducible apply Touches.fold (fun _ _ => ?_))
    | split

theorem captureBegins_touches (s : State) (k : Capture) : Touches [.host, .vers, .chans, .topo, .ckpt, .sent] s (captureBegins s k) := by
  unfold captureBegins
  try dsimp only
  repeat' first
    | with_reducible exact .refl
    | simp only [Touches.mk_iff, Touches.ite_iff]
    | with_reducible refine And.intro (fun _ => ?_) (fun _ => ?_)
    | ((with_reducible refine Leaf.of rfl (fun p hp => ?_) ?_); (cases p <;> first | exact absurd hp (by decide) | (show _ = _; with_reducible rfl) | rfl | (show _ = _; unfold openStep; split <;> rfl)))
    | ((with_reducible apply Touches.step (lehrBegins_touches _ _ _)); · decide)
    | ((with_reducible apply Touches.step (abandonCapture_touches _ _ _)); · decide)
    | ((with_reducible apply Touches.step (poolBegins_touches _ _ _)); · decide)
    | ((with_reducible apply Touches.step (poolStart_touches _ _ _)); · decide)
    | (with_reducible apply Touches.fold (fun _ _ => ?_))
    | split

theorem execCaptureStart_touches (s : State) : OutTouches [.host, .vers, .chans, .topo, .ckpt, .sent] s (execCaptureStart s) := by
  unfold execCaptureStart
  try dsimp only
  repeat' first
    | with_reducible exact .refl
    | with_reducible apply OutTouches.next
    | with_reducible exact OutTouches.fault
    | simp only [Touches.mk_iff, Touches.ite_iff]
    | with_reducible refine And.intro (fun _ => ?_) (fun _ => ?_)
    | ((with_reducible refine Leaf.of rfl (fun p hp => ?_) ?_); (cases p <;> first | exact absurd hp (by decide) | (show _ = _; with_reducible rfl) | rfl | (show _ = _; unfold openStep; split <;> rfl)))
    | ((with_reducible apply Touches.step (captureBegins_touches _ _)); · decide)
    | (with_reducible apply Touches.fold (fun _ _ => ?_))
    | split

theorem execCapturePiecesDone_touches (cut : Nat) (s : State) : OutTouches [.vers, .ckpt, .sent] s (execCapturePiecesDone cut s) := by
  unfold execCapturePiecesDone
  try dsimp only
  repeat' first
    | with_reducible exact .refl
    | with_reducible apply OutTouches.next
    | with_reducible exact OutTouches.fault
    | simp only [Touches.mk_iff, Touches.ite_iff]
    | with_reducible refine And.intro (fun _ => ?_) (fun _ => ?_)
    | ((with_reducible refine Leaf.of rfl (fun p hp => ?_) ?_); (cases p <;> first | exact absurd hp (by decide) | (show _ = _; with_reducible rfl) | rfl | (show _ = _; unfold openStep; split <;> rfl)))
    | ((with_reducible apply Touches.step (onCapture_touches _ _ _)); · decide)
    | ((with_reducible apply Touches.step (emits_touches _ _)); · decide)
    | (with_reducible apply Touches.fold (fun _ _ => ?_))
    | split

theorem manifestIsDurable_touches (s : State) (k : Capture) : Touches [.host, .chans, .topo, .ckpt, .sent] s (manifestIsDurable s k) := by
  unfold manifestIsDurable
  try dsimp only
  repeat' first
    | with_reducible exact .refl
    | simp only [Touches.mk_iff, Touches.ite_iff]
    | with_reducible refine And.intro (fun _ => ?_) (fun _ => ?_)
    | ((with_reducible refine Leaf.of rfl (fun p hp => ?_) ?_); (cases p <;> first | exact absurd hp (by decide) | (show _ = _; with_reducible rfl) | rfl | (show _ = _; unfold openStep; split <;> rfl)))
    | ((with_reducible apply Touches.step (onCapture_touches _ _ _)); · decide)
    | ((with_reducible apply Touches.step (emits_touches _ _)); · decide)
    | ((with_reducible apply Touches.step (vote_touches _ _ _)); · decide)

theorem execManifestDurable_touches (cut : Nat) (s : State) : OutTouches [.host, .chans, .topo, .ckpt, .sent] s (execManifestDurable cut s) := by
  unfold execManifestDurable
  try dsimp only
  repeat' first
    | with_reducible exact .refl
    | with_reducible apply OutTouches.next
    | with_reducible exact OutTouches.fault
    | simp only [Touches.mk_iff, Touches.ite_iff]
    | with_reducible refine And.intro (fun _ => ?_) (fun _ => ?_)
    | ((with_reducible refine Leaf.of rfl (fun p hp => ?_) ?_); (cases p <;> first | exact absurd hp (by decide) | (show _ = _; with_reducible rfl) | rfl | (show _ = _; unfold openStep; split <;> rfl)))
    | ((with_reducible apply Touches.step (manifestIsDurable_touches _ _)); · decide)
    | (with_reducible apply Touches.fold (fun _ _ => ?_))
    | split

theorem fallBack_touches (s : State) (k : Capture) : Touches [.host, .vers, .chans, .topo, .ckpt, .sent] s (fallBack s k) := by
  unfold fallBack
  try dsimp only
  repeat' first
    | with_reducible exact .refl
    | simp only [Touches.mk_iff, Touches.ite_iff]
    | with_reducible refine And.intro (fun _ => ?_) (fun _ => ?_)
    | ((with_reducible refine Leaf.of rfl (fun p hp => ?_) ?_); (cases p <;> first | exact absurd hp (by decide) | (show _ = _; with_reducible rfl) | rfl | (show _ = _; unfold openStep; split <;> rfl)))
    | ((with_reducible apply Touches.step (onCapture_touches _ _ _)); · decide)
    | ((with_reducible apply Touches.step (poolStart_touches _ _ _)); · decide)

theorem lehrFails_touches (s : State) (k : Capture) : Touches [.host, .vers, .chans, .topo, .ckpt, .sent] s (lehrFails s k) := by
  unfold lehrFails
  try dsimp only
  repeat' first
    | with_reducible exact .refl
    | simp only [Touches.mk_iff, Touches.ite_iff]
    | with_reducible refine And.intro (fun _ => ?_) (fun _ => ?_)
    | ((with_reducible refine Leaf.of rfl (fun p hp => ?_) ?_); (cases p <;> first | exact absurd hp (by decide) | (show _ = _; with_reducible rfl) | rfl | (show _ = _; unfold openStep; split <;> rfl)))
    | ((with_reducible apply Touches.step (abandonCapture_touches _ _ _)); · decide)
    | ((with_reducible apply Touches.step (fallBack_touches _ _)); · decide)

theorem execLehrWriteError_touches (cut : Nat) (s : State) : OutTouches [.host, .vers, .chans, .topo, .ckpt, .sent] s (execLehrWriteError cut s) := by
  unfold execLehrWriteError
  try dsimp only
  repeat' first
    | with_reducible exact .refl
    | with_reducible apply OutTouches.next
    | with_reducible exact OutTouches.fault
    | simp only [Touches.mk_iff, Touches.ite_iff]
    | with_reducible refine And.intro (fun _ => ?_) (fun _ => ?_)
    | ((with_reducible refine Leaf.of rfl (fun p hp => ?_) ?_); (cases p <;> first | exact absurd hp (by decide) | (show _ = _; with_reducible rfl) | rfl | (show _ = _; unfold openStep; split <;> rfl)))
    | ((with_reducible apply Touches.step (lehrFails_touches _ _)); · decide)
    | (with_reducible apply Touches.fold (fun _ _ => ?_))
    | split

theorem poolFails_touches (s : State) (k : Capture) (t : Nat) : Touches [.host, .vers, .chans, .topo, .ckpt, .sent] s (poolFails s k t) := by
  unfold poolFails
  try dsimp only
  repeat' first
    | with_reducible exact .refl
    | simp only [Touches.mk_iff, Touches.ite_iff]
    | with_reducible refine And.intro (fun _ => ?_) (fun _ => ?_)
    | ((with_reducible refine Leaf.of rfl (fun p hp => ?_) ?_); (cases p <;> first | exact absurd hp (by decide) | (show _ = _; with_reducible rfl) | rfl | (show _ = _; unfold openStep; split <;> rfl)))
    | ((with_reducible apply Touches.step (onCapture_touches _ _ _)); · decide)
    | ((with_reducible apply Touches.step (poolStart_touches _ _ _)); · decide)

theorem execPoolWriteError_touches (cut : Nat) (s : State) : OutTouches [.host, .vers, .chans, .topo, .ckpt, .sent] s (execPoolWriteError cut s) := by
  unfold execPoolWriteError
  try dsimp only
  repeat' first
    | with_reducible exact .refl
    | with_reducible apply OutTouches.next
    | with_reducible exact OutTouches.fault
    | simp only [Touches.mk_iff, Touches.ite_iff]
    | with_reducible refine And.intro (fun _ => ?_) (fun _ => ?_)
    | ((with_reducible refine Leaf.of rfl (fun p hp => ?_) ?_); (cases p <;> first | exact absurd hp (by decide) | (show _ = _; with_reducible rfl) | rfl | (show _ = _; unfold openStep; split <;> rfl)))
    | ((with_reducible apply Touches.step (poolFails_touches _ _ _)); · decide)
    | (with_reducible apply Touches.fold (fun _ _ => ?_))
    | split

theorem retainStarts_touches (cut : Nat) (s : State) : Touches [.ckpt, .sent] s (retainStarts cut s) := by
  unfold retainStarts
  try dsimp only
  repeat' first
    | with_reducible exact .refl
    | simp only [Touches.mk_iff, Touches.ite_iff]
    | with_reducible refine And.intro (fun _ => ?_) (fun _ => ?_)
    | ((with_reducible refine Leaf.of rfl (fun p hp => ?_) ?_); (cases p <;> first | exact absurd hp (by decide) | (show _ = _; with_reducible rfl) | rfl | (show _ = _; unfold openStep; split <;> rfl)))
    | ((with_reducible apply Touches.step (emit_touches _ _)); · decide)
    | (with_reducible apply Touches.fold (fun _ _ => ?_))
    | split

theorem execRetainCommand_touches (src : Src) (cut : BitVec 64) (s : State) : OutTouches [.host, .ckpt, .fw, .sent] s (execRetainCommand src cut s) := by
  unfold execRetainCommand
  try dsimp only
  repeat' first
    | with_reducible exact .refl
    | with_reducible apply OutTouches.next
    | with_reducible exact OutTouches.fault
    | simp only [Touches.mk_iff, Touches.ite_iff]
    | with_reducible refine And.intro (fun _ => ?_) (fun _ => ?_)
    | ((with_reducible refine Leaf.of rfl (fun p hp => ?_) ?_); (cases p <;> first | exact absurd hp (by decide) | (show _ = _; with_reducible rfl) | rfl | (show _ = _; unfold openStep; split <;> rfl)))
    | ((with_reducible apply Touches.step (retainStarts_touches _ _)); · decide)
    | ((with_reducible apply hostCommand_touches ?hw (fun _ => ?he)); case hw => decide)

theorem execRetainCopyDone_touches (s : State) : OutTouches [.ckpt] s (execRetainCopyDone s) := by
  unfold execRetainCopyDone
  try dsimp only
  repeat' first
    | with_reducible exact .refl
    | with_reducible apply OutTouches.next
    | with_reducible exact OutTouches.fault
    | simp only [Touches.mk_iff, Touches.ite_iff]
    | with_reducible refine And.intro (fun _ => ?_) (fun _ => ?_)
    | ((with_reducible refine Leaf.of rfl (fun p hp => ?_) ?_); (cases p <;> first | exact absurd hp (by decide) | (show _ = _; with_reducible rfl) | rfl | (show _ = _; unfold openStep; split <;> rfl)))
    | (with_reducible apply Touches.fold (fun _ _ => ?_))
    | split

theorem releaseArea_touches (area : Nat) (s : State) : Touches [.ckpt, .sent] s (releaseArea area s) := by
  unfold releaseArea
  try dsimp only
  repeat' first
    | with_reducible exact .refl
    | simp only [Touches.mk_iff, Touches.ite_iff]
    | with_reducible refine And.intro (fun _ => ?_) (fun _ => ?_)
    | ((with_reducible refine Leaf.of rfl (fun p hp => ?_) ?_); (cases p <;> first | exact absurd hp (by decide) | (show _ = _; with_reducible rfl) | rfl | (show _ = _; unfold openStep; split <;> rfl)))
    | ((with_reducible apply Touches.step (emit_touches _ _)); · decide)

theorem execReleaseCommand_touches (src : Src) (area : BitVec 8) (s : State) : OutTouches [.host, .ckpt, .fw, .sent] s (execReleaseCommand src area s) := by
  unfold execReleaseCommand
  try dsimp only
  repeat' first
    | with_reducible exact .refl
    | with_reducible apply OutTouches.next
    | with_reducible exact OutTouches.fault
    | simp only [Touches.mk_iff, Touches.ite_iff]
    | with_reducible refine And.intro (fun _ => ?_) (fun _ => ?_)
    | ((with_reducible refine Leaf.of rfl (fun p hp => ?_) ?_); (cases p <;> first | exact absurd hp (by decide) | (show _ = _; with_reducible rfl) | rfl | (show _ = _; unfold openStep; split <;> rfl)))
    | ((with_reducible apply Touches.step (releaseArea_touches _ _)); · decide)
    | ((with_reducible apply hostCommand_touches ?hw (fun _ => ?he)); case hw => decide)

theorem restoreStarts_touches (r : BitVec 128) (s : State) : Touches [.ckpt, .sent] s (restoreStarts r s) := by
  unfold restoreStarts
  try dsimp only
  repeat' first
    | with_reducible exact .refl
    | simp only [Touches.mk_iff, Touches.ite_iff]
    | with_reducible refine And.intro (fun _ => ?_) (fun _ => ?_)
    | ((with_reducible refine Leaf.of rfl (fun p hp => ?_) ?_); (cases p <;> first | exact absurd hp (by decide) | (show _ = _; with_reducible rfl) | rfl | (show _ = _; unfold openStep; split <;> rfl)))
    | ((with_reducible apply Touches.step (emit_touches _ _)); · decide)

theorem execRestoreRequest_touches (src : Src) (req : BitVec 128) (s : State) : OutTouches [.host, .ckpt, .fw, .sent] s (execRestoreRequest src req s) := by
  unfold execRestoreRequest
  try dsimp only
  repeat' first
    | with_reducible exact .refl
    | with_reducible apply OutTouches.next
    | with_reducible exact OutTouches.fault
    | simp only [Touches.mk_iff, Touches.ite_iff]
    | with_reducible refine And.intro (fun _ => ?_) (fun _ => ?_)
    | ((with_reducible refine Leaf.of rfl (fun p hp => ?_) ?_); (cases p <;> first | exact absurd hp (by decide) | (show _ = _; with_reducible rfl) | rfl | (show _ = _; unfold openStep; split <;> rfl)))
    | ((with_reducible apply Touches.step (restoreStarts_touches _ _)); · decide)
    | ((with_reducible apply hostCommand_touches ?hw (fun _ => ?he)); case hw => decide)

theorem derivedCopies_touches (s : State) (rs : List (BitVec 128)) : Touches [.vers] s (derivedCopies s rs) := by
  unfold derivedCopies
  try dsimp only
  repeat' first
    | with_reducible exact .refl
    | simp only [Touches.mk_iff, Touches.ite_iff]
    | with_reducible refine And.intro (fun _ => ?_) (fun _ => ?_)
    | ((with_reducible refine Leaf.of rfl (fun p hp => ?_) ?_); (cases p <;> first | exact absurd hp (by decide) | (show _ = _; with_reducible rfl) | rfl | (show _ = _; unfold openStep; split <;> rfl)))

theorem restoreOwnState_touches (s : State) (c : Nat) (m : Manifest) (k : Nat × Nat) : Touches [.ctxs, .vers, .ckpt] s (restoreOwnState s c m k) := by
  unfold restoreOwnState
  try dsimp only
  repeat' first
    | with_reducible exact .refl
    | simp only [Touches.mk_iff, Touches.ite_iff]
    | with_reducible refine And.intro (fun _ => ?_) (fun _ => ?_)
    | ((with_reducible refine Leaf.of rfl (fun p hp => ?_) ?_); (cases p <;> first | exact absurd hp (by decide) | (show _ = _; with_reducible rfl) | rfl | (show _ = _; unfold openStep; split <;> rfl)))
    | ((with_reducible apply Touches.step (installImages_touches _ _ _)); · decide)
    | ((with_reducible apply Touches.step (derivedCopies_touches _ _)); · decide)
    | ((with_reducible apply Touches.step (onCtx_touches _ _ _)); · decide)
    | ((with_reducible apply Touches.step (installRecs_touches _ _ _)); · decide)

theorem restoreMirror_touches (s : State) (m : Manifest) (k : Nat × Nat) : Touches [.vers, .ckpt] s (restoreMirror s m k) := by
  unfold restoreMirror
  try dsimp only
  repeat' first
    | with_reducible exact .refl
    | simp only [Touches.mk_iff, Touches.ite_iff]
    | with_reducible refine And.intro (fun _ => ?_) (fun _ => ?_)
    | ((with_reducible refine Leaf.of rfl (fun p hp => ?_) ?_); (cases p <;> first | exact absurd hp (by decide) | (show _ = _; with_reducible rfl) | rfl | (show _ = _; unfold openStep; split <;> rfl)))

theorem restoredSteps_touches (s : State) (c : Nat) (cut : Nat) : Touches [.committed, .steps, .sync, .ckpt] s (restoredSteps s c cut) := by
  unfold restoredSteps
  try dsimp only
  repeat' first
    | with_reducible exact .refl
    | simp only [Touches.mk_iff, Touches.ite_iff]
    | with_reducible refine And.intro (fun _ => ?_) (fun _ => ?_)
    | ((with_reducible refine Leaf.of rfl (fun p hp => ?_) ?_); (cases p <;> first | exact absurd hp (by decide) | (show _ = _; with_reducible rfl) | rfl | (show _ = _; unfold openStep; split <;> rfl)))

theorem restoreFills_touches (s : State) (r : BitVec 128) (m : Manifest) : Touches [.ctxs, .vers, .ckpt] s (restoreFills s r m) := by
  unfold restoreFills
  try dsimp only
  repeat' first
    | with_reducible exact .refl
    | simp only [Touches.mk_iff, Touches.ite_iff]
    | with_reducible refine And.intro (fun _ => ?_) (fun _ => ?_)
    | ((with_reducible refine Leaf.of rfl (fun p hp => ?_) ?_); (cases p <;> first | exact absurd hp (by decide) | (show _ = _; with_reducible rfl) | rfl | (show _ = _; unfold openStep; split <;> rfl)))
    | ((with_reducible apply Touches.step (restoreOwnState_touches _ _ _ _)); · decide)
    | ((with_reducible apply Touches.step (restoreMirror_touches _ _ _)); · decide)
    | (with_reducible apply Touches.fold (fun _ _ => ?_))
    | split

theorem restoreSucceeds_touches (s : State) (r : BitVec 128) (m : Manifest) : Touches [.host, .ctxs, .vers, .committed, .steps, .sync, .ckpt, .meas, .sent] s (restoreSucceeds s r m) := by
  unfold restoreSucceeds
  try dsimp only
  repeat' first
    | with_reducible exact .refl
    | simp only [Touches.mk_iff, Touches.ite_iff]
    | with_reducible refine And.intro (fun _ => ?_) (fun _ => ?_)
    | ((with_reducible refine Leaf.of rfl (fun p hp => ?_) ?_); (cases p <;> first | exact absurd hp (by decide) | (show _ = _; with_reducible rfl) | rfl | (show _ = _; unfold openStep; split <;> rfl)))
    | ((with_reducible apply Touches.step (restoreFills_touches _ _ _)); · decide)
    | ((with_reducible apply Touches.step (restoredSteps_touches _ _ _)); · decide)
    | ((with_reducible apply Touches.step (onCtx_touches _ _ _)); · decide)
    | ((with_reducible apply Touches.step (post_touches _ _ _ _ _)); · decide)

theorem restoreEnds_touches (s : State) (r : BitVec 128) (readError : Bool) (badPiece : Bool) : Touches [.dict, .host, .ctxs, .vers, .committed, .steps, .sync, .ckpt, .meas, .sent] s (restoreEnds s r readError badPiece) := by
  unfold restoreEnds
  dsimp only
  generalize hv : (if restContext r = 15 then judgeView s 15 else s) = v
  have h0 : Touches [.dict, .host, .ctxs, .vers, .committed, .steps, .sync, .ckpt, .meas, .sent] s v := by
    subst hv
    split
    · exact (judgeView_touches _ _).mono (by decide)
    · exact .refl
  split
  · exact (restoreFails_touches _ _ _).mono (by decide)
  · have h := h0.trans ((restoreSucceeds_touches v r (restManifest s r)).mono (by decide : partsWithin _ [.dict, .host, .ctxs, .vers, .committed, .steps, .sync, .ckpt, .meas, .sent] = true))
    intro p hp
    cases p <;> first | exact absurd hp (by decide) | (show _ = _; with_reducible rfl) | exact h _ hp

theorem execRestoreDone_touches (readError : Bool) (badPiece : Bool) (s : State) : OutTouches [.dict, .host, .ctxs, .vers, .committed, .steps, .sync, .ckpt, .meas, .sent] s (execRestoreDone readError badPiece s) := by
  unfold execRestoreDone
  try dsimp only
  repeat' first
    | with_reducible exact .refl
    | with_reducible apply OutTouches.next
    | with_reducible exact OutTouches.fault
    | simp only [Touches.mk_iff, Touches.ite_iff]
    | with_reducible refine And.intro (fun _ => ?_) (fun _ => ?_)
    | ((with_reducible refine Leaf.of rfl (fun p hp => ?_) ?_); (cases p <;> first | exact absurd hp (by decide) | (show _ = _; with_reducible rfl) | rfl | (show _ = _; unfold openStep; split <;> rfl)))
    | ((with_reducible apply Touches.step (restoreEnds_touches _ _ _ _)); · decide)
    | (with_reducible apply Touches.fold (fun _ _ => ?_))
    | split

theorem exportStarts_touches (r : BitVec 128) (s : State) : Touches [.ckpt] s (exportStarts r s) := by
  unfold exportStarts
  try dsimp only
  repeat' first
    | with_reducible exact .refl
    | simp only [Touches.mk_iff, Touches.ite_iff]
    | with_reducible refine And.intro (fun _ => ?_) (fun _ => ?_)
    | ((with_reducible refine Leaf.of rfl (fun p hp => ?_) ?_); (cases p <;> first | exact absurd hp (by decide) | (show _ = _; with_reducible rfl) | rfl | (show _ = _; unfold openStep; split <;> rfl)))

theorem execExportRequest_touches (src : Src) (req : BitVec 128) (s : State) : OutTouches [.host, .ckpt, .fw, .sent] s (execExportRequest src req s) := by
  unfold execExportRequest
  try dsimp only
  repeat' first
    | with_reducible exact .refl
    | with_reducible apply OutTouches.next
    | with_reducible exact OutTouches.fault
    | simp only [Touches.mk_iff, Touches.ite_iff]
    | with_reducible refine And.intro (fun _ => ?_) (fun _ => ?_)
    | ((with_reducible refine Leaf.of rfl (fun p hp => ?_) ?_); (cases p <;> first | exact absurd hp (by decide) | (show _ = _; with_reducible rfl) | rfl | (show _ = _; unfold openStep; split <;> rfl)))
    | ((with_reducible apply Touches.step (exportStarts_touches _ _)); · decide)
    | ((with_reducible apply hostCommand_touches ?hw (fun _ => ?he)); case hw => decide)

theorem exportStatus_touches (s : State) (cut : Nat) (reason : Nat) (st : Nat) : Touches [.host, .ckpt, .sent] s (exportStatus s cut reason st) := by
  unfold exportStatus
  try dsimp only
  repeat' first
    | with_reducible exact .refl
    | simp only [Touches.mk_iff, Touches.ite_iff]
    | with_reducible refine And.intro (fun _ => ?_) (fun _ => ?_)
    | ((with_reducible refine Leaf.of rfl (fun p hp => ?_) ?_); (cases p <;> first | exact absurd hp (by decide) | (show _ = _; with_reducible rfl) | rfl | (show _ = _; unfold openStep; split <;> rfl)))
    | ((with_reducible apply Touches.step (post_touches _ _ _ _ _)); · decide)

theorem exportEnds_touches (s : State) (r : BitVec 128) (ok : Bool) : Touches [.host, .staging, .poison, .ckpt, .sent] s (exportEnds s r ok) := by
  unfold exportEnds
  try dsimp only
  repeat' first
    | with_reducible exact .refl
    | simp only [Touches.mk_iff, Touches.ite_iff]
    | with_reducible refine And.intro (fun _ => ?_) (fun _ => ?_)
    | ((with_reducible refine Leaf.of rfl (fun p hp => ?_) ?_); (cases p <;> first | exact absurd hp (by decide) | (show _ = _; with_reducible rfl) | rfl | (show _ = _; unfold openStep; split <;> rfl)))
    | ((with_reducible apply Touches.step (moduleStages_touches _ _ _)); · decide)
    | ((with_reducible apply Touches.step (exportStatus_touches _ _ _ _)); · decide)
    | (with_reducible apply Touches.fold (fun _ _ => ?_))

theorem execExportDone_touches (ok : Bool) (s : State) : OutTouches [.host, .staging, .poison, .ckpt, .sent] s (execExportDone ok s) := by
  unfold execExportDone
  try dsimp only
  repeat' first
    | with_reducible exact .refl
    | with_reducible apply OutTouches.next
    | with_reducible exact OutTouches.fault
    | simp only [Touches.mk_iff, Touches.ite_iff]
    | with_reducible refine And.intro (fun _ => ?_) (fun _ => ?_)
    | ((with_reducible refine Leaf.of rfl (fun p hp => ?_) ?_); (cases p <;> first | exact absurd hp (by decide) | (show _ = _; with_reducible rfl) | rfl | (show _ = _; unfold openStep; split <;> rfl)))
    | ((with_reducible apply Touches.step (exportEnds_touches _ _ _)); · decide)
    | (with_reducible apply Touches.fold (fun _ _ => ?_))
    | split

end Sys2Proof.Machine
end

