-- ==== Sys2Proof/Laws/TouchBoot.lean ====
section
/-! SUPPORT. What each operation and meaning of Machine/Boot.lean can change. -/

set_option linter.unusedSimpArgs false
set_option linter.unusedTactic false
set_option linter.unreachableTactic false

namespace Sys2Proof.Machine

theorem activateTypes_touches (s : State) (ts : List Nat) : Touches [.fw] s (activateTypes s ts) := by
  unfold activateTypes
  try dsimp only
  repeat' first
    | with_reducible exact .refl
    | simp only [Touches.mk_iff, Touches.ite_iff]
    | with_reducible refine And.intro (fun _ => ?_) (fun _ => ?_)
    | ((with_reducible refine Leaf.of rfl (fun p hp => ?_) ?_); (cases p <;> first | exact absurd hp (by decide) | (show _ = _; with_reducible rfl) | rfl | (show _ = _; unfold openStep; split <;> rfl)))
    | ((with_reducible apply Touches.step (bankActivated_touches _ _)); · decide)
    | (with_reducible apply Touches.fold (fun _ _ => ?_))

theorem securityEvent_touches (s : State) : Touches [.sec] s (securityEvent s) := by
  unfold securityEvent
  try dsimp only
  repeat' first
    | with_reducible exact .refl
    | simp only [Touches.mk_iff, Touches.ite_iff]
    | with_reducible refine And.intro (fun _ => ?_) (fun _ => ?_)
    | ((with_reducible refine Leaf.of rfl (fun p hp => ?_) ?_); (cases p <;> first | exact absurd hp (by decide) | (show _ = _; with_reducible rfl) | rfl | (show _ = _; unfold openStep; split <;> rfl)))

theorem bankConfirmed_touches (s : State) (t : Nat) : Touches [.fw, .counters, .sec] s (bankConfirmed s t) := by
  unfold bankConfirmed
  try dsimp only
  repeat' first
    | with_reducible exact .refl
    | simp only [Touches.mk_iff, Touches.ite_iff]
    | with_reducible refine And.intro (fun _ => ?_) (fun _ => ?_)
    | ((with_reducible refine Leaf.of rfl (fun p hp => ?_) ?_); (cases p <;> first | exact absurd hp (by decide) | (show _ = _; with_reducible rfl) | rfl | (show _ = _; unfold openStep; split <;> rfl)))
    | ((with_reducible apply Touches.step (onPair_touches _ _ _)); · decide)
    | ((with_reducible apply Touches.step (securityEvent_touches _)); · decide)
    | (with_reducible apply Touches.fold (fun _ _ => ?_))
    | split

theorem bootVerify_touches (bad : List (Nat × Nat)) (s : State) (k : Nat) : Touches [.fw, .sec, .free] s (bootVerify bad s k).1 := by
  unfold bootVerify
  dsimp only
  repeat' split
  all_goals
    repeat' first
      | with_reducible exact .refl
      | ((with_reducible apply Touches.step (securityEvent_touches _)); · decide)
      | ((with_reducible apply Touches.step (bankReverted_touches _ _)); · decide)

theorem resetLoss_touches (s : State) : Touches [.dev, .vals, .dict, .owner, .host, .staging, .poison, .ctxs, .load, .vers, .fetch, .results, .cores, .committed, .steps, .sync, .chans, .coll, .num, .place, .mem, .links, .topo, .ckpt, .ledger, .tests, .fenceSet, .recov, .power, .fw, .meas, .sec] s (resetLoss s) := by
  unfold resetLoss
  try dsimp only
  repeat' first
    | with_reducible exact .refl
    | simp only [Touches.mk_iff, Touches.ite_iff]
    | with_reducible refine And.intro (fun _ => ?_) (fun _ => ?_)
    | ((with_reducible refine Leaf.of rfl (fun p hp => ?_) ?_); (cases p <;> first | exact absurd hp (by decide) | (show _ = _; with_reducible rfl) | rfl | (show _ = _; unfold openStep; split <;> rfl)))

theorem powerOff_touches (s : State) : Touches [.clk, .pins, .devState, .dev, .domains, .vals, .dict, .owner, .host, .staging, .poison, .ctxs, .load, .vers, .fetch, .results, .cores, .committed, .steps, .sync, .chans, .coll, .num, .place, .mem, .links, .topo, .ckpt, .ledger, .tests, .fenceSet, .recov, .power, .fw, .meas, .sec] s (powerOff s) := by
  unfold powerOff
  try dsimp only
  repeat' first
    | with_reducible exact .refl
    | simp only [Touches.mk_iff, Touches.ite_iff]
    | with_reducible refine And.intro (fun _ => ?_) (fun _ => ?_)
    | ((with_reducible refine Leaf.of rfl (fun p hp => ?_) ?_); (cases p <;> first | exact absurd hp (by decide) | (show _ = _; with_reducible rfl) | rfl | (show _ = _; unfold openStep; split <;> rfl)))

theorem setAlert_touches (s : State) : Touches [.pins] s (setAlert s) := by
  unfold setAlert
  try dsimp only
  repeat' first
    | with_reducible exact .refl
    | simp only [Touches.mk_iff, Touches.ite_iff]
    | with_reducible refine And.intro (fun _ => ?_) (fun _ => ?_)
    | ((with_reducible refine Leaf.of rfl (fun p hp => ?_) ?_); (cases p <;> first | exact absurd hp (by decide) | (show _ = _; with_reducible rfl) | rfl | (show _ = _; unfold openStep; split <;> rfl)))

theorem powerUp_touches (s : State) (prodEntry : Bool) : Touches [.clk, .pins, .devState, .dev, .vals, .dict, .host, .place, .ledger, .fw, .sec, .free] s (powerUp s prodEntry) := by
  unfold powerUp
  try dsimp only
  repeat' first
    | with_reducible exact .refl
    | simp only [Touches.mk_iff, Touches.ite_iff]
    | with_reducible refine And.intro (fun _ => ?_) (fun _ => ?_)
    | ((with_reducible refine Leaf.of rfl (fun p hp => ?_) ?_); (cases p <;> first | exact absurd hp (by decide) | (show _ = _; with_reducible rfl) | rfl | (show _ = _; unfold openStep; split <;> rfl)))
    | ((with_reducible apply Touches.step (activateTypes_touches _ _)); · decide)
    | ((with_reducible apply Touches.step (bootAttempt_touches _ _)); · decide)
    | ((with_reducible apply Touches.step (setAlert_touches _)); · decide)
    | (with_reducible apply Touches.fold (fun _ _ => ?_))

theorem execPwrEnAssert_touches (inputMv : Nat) (prodEntry : Bool) (s : State) : OutTouches [.clk, .pins, .devState, .dev, .vals, .dict, .host, .place, .ledger, .fw, .sec, .free] s (execPwrEnAssert inputMv prodEntry s) := by
  unfold execPwrEnAssert
  try dsimp only
  repeat' first
    | with_reducible exact .refl
    | with_reducible apply OutTouches.next
    | with_reducible exact OutTouches.fault
    | simp only [Touches.mk_iff, Touches.ite_iff]
    | with_reducible refine And.intro (fun _ => ?_) (fun _ => ?_)
    | ((with_reducible refine Leaf.of rfl (fun p hp => ?_) ?_); (cases p <;> first | exact absurd hp (by decide) | (show _ = _; with_reducible rfl) | rfl | (show _ = _; unfold openStep; split <;> rfl)))
    | ((with_reducible apply Touches.step (powerUp_touches _ _)); · decide)
    | (with_reducible apply Touches.fold (fun _ _ => ?_))
    | split

theorem execInputRestored_touches (inputMv : Nat) (s : State) : OutTouches [.clk, .pins, .devState, .dev, .vals, .dict, .host, .place, .ledger, .fw, .sec, .free] s (execInputRestored inputMv s) := by
  unfold execInputRestored
  try dsimp only
  repeat' first
    | with_reducible exact .refl
    | with_reducible apply OutTouches.next
    | with_reducible exact OutTouches.fault
    | simp only [Touches.mk_iff, Touches.ite_iff]
    | with_reducible refine And.intro (fun _ => ?_) (fun _ => ?_)
    | ((with_reducible refine Leaf.of rfl (fun p hp => ?_) ?_); (cases p <;> first | exact absurd hp (by decide) | (show _ = _; with_reducible rfl) | rfl | (show _ = _; unfold openStep; split <;> rfl)))
    | ((with_reducible apply Touches.step (powerUp_touches _ _)); · decide)
    | (with_reducible apply Touches.fold (fun _ _ => ?_))
    | split

theorem powerDown_touches (s : State) : Touches [.devState, .dev, .host, .cores, .links, .topo, .tests, .meas, .sec, .sent] s (powerDown s) := by
  unfold powerDown
  try dsimp only
  repeat' first
    | with_reducible exact .refl
    | simp only [Touches.mk_iff, Touches.ite_iff]
    | with_reducible refine And.intro (fun _ => ?_) (fun _ => ?_)
    | ((with_reducible refine Leaf.of rfl (fun p hp => ?_) ?_); (cases p <;> first | exact absurd hp (by decide) | (show _ = _; with_reducible rfl) | rfl | (show _ = _; unfold openStep; split <;> rfl)))
    | ((with_reducible apply Touches.step (emit_touches _ _)); · decide)
    | ((with_reducible apply Touches.step (gallopStop_touches _)); · decide)
    | ((with_reducible apply Touches.step (sendLeaving_touches _ _ _)); · decide)

theorem execPwrEnDeassert_touches (s : State) : OutTouches [.pins, .devState, .dev, .host, .cores, .links, .topo, .tests, .meas, .sec, .sent] s (execPwrEnDeassert s) := by
  unfold execPwrEnDeassert
  try dsimp only
  repeat' first
    | with_reducible exact .refl
    | with_reducible apply OutTouches.next
    | with_reducible exact OutTouches.fault
    | simp only [Touches.mk_iff, Touches.ite_iff]
    | with_reducible refine And.intro (fun _ => ?_) (fun _ => ?_)
    | ((with_reducible refine Leaf.of rfl (fun p hp => ?_) ?_); (cases p <;> first | exact absurd hp (by decide) | (show _ = _; with_reducible rfl) | rfl | (show _ = _; unfold openStep; split <;> rfl)))
    | ((with_reducible apply Touches.step (powerDown_touches _)); · decide)

theorem execInputUndervoltage_touches (s : State) : OutTouches [.pins, .devState, .dev, .host, .cores, .links, .topo, .tests, .meas, .sec, .sent] s (execInputUndervoltage s) := by
  unfold execInputUndervoltage
  try dsimp only
  repeat' first
    | with_reducible exact .refl
    | with_reducible apply OutTouches.next
    | with_reducible exact OutTouches.fault
    | simp only [Touches.mk_iff, Touches.ite_iff]
    | with_reducible refine And.intro (fun _ => ?_) (fun _ => ?_)
    | ((with_reducible refine Leaf.of rfl (fun p hp => ?_) ?_); (cases p <;> first | exact absurd hp (by decide) | (show _ = _; with_reducible rfl) | rfl | (show _ = _; unfold openStep; split <;> rfl)))
    | ((with_reducible apply Touches.step (powerDown_touches _)); · decide)

theorem railOff_touches (s : State) : Touches [.clk, .pins, .devState, .dev, .domains, .vals, .dict, .owner, .host, .staging, .poison, .ctxs, .load, .vers, .fetch, .results, .cores, .committed, .steps, .sync, .chans, .coll, .num, .place, .mem, .links, .topo, .ckpt, .ledger, .tests, .fenceSet, .recov, .power, .fw, .meas, .sec, .free] s (railOff s) := by
  unfold railOff
  try dsimp only
  repeat' first
    | with_reducible exact .refl
    | simp only [Touches.mk_iff, Touches.ite_iff]
    | with_reducible refine And.intro (fun _ => ?_) (fun _ => ?_)
    | ((with_reducible refine Leaf.of rfl (fun p hp => ?_) ?_); (cases p <;> first | exact absurd hp (by decide) | (show _ = _; with_reducible rfl) | rfl | (show _ = _; unfold openStep; split <;> rfl)))
    | ((with_reducible apply Touches.step (powerUp_touches _ _)); · decide)
    | ((with_reducible apply Touches.step (powerOff_touches _)); · decide)

theorem packageOff_touches (s : State) : Touches [.domains] s (packageOff s) := by
  unfold packageOff
  try dsimp only
  repeat' first
    | with_reducible exact .refl
    | simp only [Touches.mk_iff, Touches.ite_iff]
    | with_reducible refine And.intro (fun _ => ?_) (fun _ => ?_)
    | ((with_reducible refine Leaf.of rfl (fun p hp => ?_) ?_); (cases p <;> first | exact absurd hp (by decide) | (show _ = _; with_reducible rfl) | rfl | (show _ = _; unfold openStep; split <;> rfl)))
    | ((with_reducible apply Touches.step (domainsOff_touches _ _)); · decide)

theorem powerStep_touches (s : State) (d : Down) : Touches [.clk, .pins, .devState, .dev, .domains, .vals, .dict, .owner, .host, .staging, .poison, .ctxs, .load, .vers, .fetch, .results, .cores, .committed, .steps, .sync, .chans, .coll, .num, .place, .mem, .links, .topo, .ckpt, .ledger, .tests, .fenceSet, .recov, .power, .fw, .meas, .sec, .free] s (powerStep s d) := by
  unfold powerStep
  try dsimp only
  repeat' first
    | with_reducible exact .refl
    | simp only [Touches.mk_iff, Touches.ite_iff]
    | with_reducible refine And.intro (fun _ => ?_) (fun _ => ?_)
    | ((with_reducible refine Leaf.of rfl (fun p hp => ?_) ?_); (cases p <;> first | exact absurd hp (by decide) | (show _ = _; with_reducible rfl) | rfl | (show _ = _; unfold openStep; split <;> rfl)))
    | ((with_reducible apply Touches.step (railOff_touches _)); · decide)
    | ((with_reducible apply Touches.step (packageOff_touches _)); · decide)
    | ((with_reducible apply Touches.step (resetLoss_touches _)); · decide)
    | ((with_reducible apply Touches.step (setAlert_touches _)); · decide)
    | (with_reducible apply Touches.fold (fun _ _ => ?_))
    | split

theorem execPowerDownStepDone_touches (s : State) : OutTouches [.clk, .pins, .devState, .dev, .domains, .vals, .dict, .owner, .host, .staging, .poison, .ctxs, .load, .vers, .fetch, .results, .cores, .committed, .steps, .sync, .chans, .coll, .num, .place, .mem, .links, .topo, .ckpt, .ledger, .tests, .fenceSet, .recov, .power, .fw, .meas, .sec, .free] s (execPowerDownStepDone s) := by
  unfold execPowerDownStepDone
  try dsimp only
  repeat' first
    | with_reducible exact .refl
    | with_reducible apply OutTouches.next
    | with_reducible exact OutTouches.fault
    | simp only [Touches.mk_iff, Touches.ite_iff]
    | with_reducible refine And.intro (fun _ => ?_) (fun _ => ?_)
    | ((with_reducible refine Leaf.of rfl (fun p hp => ?_) ?_); (cases p <;> first | exact absurd hp (by decide) | (show _ = _; with_reducible rfl) | rfl | (show _ = _; unfold openStep; split <;> rfl)))
    | ((with_reducible apply Touches.step (powerStep_touches _ _)); · decide)
    | (with_reducible apply Touches.fold (fun _ _ => ?_))
    | split

theorem execInputFetOpen_touches (inputMv : Nat) (s : State) : OutTouches [.clk, .pins, .devState, .dev, .domains, .vals, .dict, .owner, .host, .staging, .poison, .ctxs, .load, .vers, .fetch, .results, .cores, .committed, .steps, .sync, .chans, .coll, .num, .place, .mem, .links, .topo, .ckpt, .ledger, .tests, .fenceSet, .recov, .power, .fw, .meas, .sec] s (execInputFetOpen inputMv s) := by
  unfold execInputFetOpen
  try dsimp only
  repeat' first
    | with_reducible exact .refl
    | with_reducible apply OutTouches.next
    | with_reducible exact OutTouches.fault
    | simp only [Touches.mk_iff, Touches.ite_iff]
    | with_reducible refine And.intro (fun _ => ?_) (fun _ => ?_)
    | ((with_reducible refine Leaf.of rfl (fun p hp => ?_) ?_); (cases p <;> first | exact absurd hp (by decide) | (show _ = _; with_reducible rfl) | rfl | (show _ = _; unfold openStep; split <;> rfl)))
    | ((with_reducible apply Touches.step (powerOff_touches _)); · decide)
    | (with_reducible apply Touches.fold (fun _ _ => ?_))
    | split

theorem securityOn_touches (s : State) : Touches [.domains, .sec, .free] s (securityOn s) := by
  unfold securityOn
  try dsimp only
  repeat' first
    | with_reducible exact .refl
    | simp only [Touches.mk_iff, Touches.ite_iff]
    | with_reducible refine And.intro (fun _ => ?_) (fun _ => ?_)
    | ((with_reducible refine Leaf.of rfl (fun p hp => ?_) ?_); (cases p <;> first | exact absurd hp (by decide) | (show _ = _; with_reducible rfl) | rfl | (show _ = _; unfold openStep; split <;> rfl)))
    | ((with_reducible apply Touches.step (domainsOn_touches _ _)); · decide)

theorem phase2Ends_touches (s : State) : Touches [.dev, .domains, .fw, .counters, .meas, .sec, .free] s (phase2Ends s) := by
  unfold phase2Ends
  try dsimp only
  repeat' first
    | with_reducible exact .refl
    | simp only [Touches.mk_iff, Touches.ite_iff]
    | with_reducible refine And.intro (fun _ => ?_) (fun _ => ?_)
    | ((with_reducible refine Leaf.of rfl (fun p hp => ?_) ?_); (cases p <;> first | exact absurd hp (by decide) | (show _ = _; with_reducible rfl) | rfl | (show _ = _; unfold openStep; split <;> rfl)))
    | ((with_reducible apply Touches.step (bankConfirmed_touches _ _)); · decide)
    | ((with_reducible apply Touches.step (securityOn_touches _)); · decide)

theorem execModuleResetHoldoffEnd_touches (s : State) : OutTouches [.dev, .domains, .fw, .sec, .free] s (execModuleResetHoldoffEnd s) := by
  unfold execModuleResetHoldoffEnd
  try dsimp only
  repeat' first
    | with_reducible exact .refl
    | with_reducible apply OutTouches.next
    | with_reducible exact OutTouches.fault
    | simp only [Touches.mk_iff, Touches.ite_iff]
    | with_reducible refine And.intro (fun _ => ?_) (fun _ => ?_)
    | ((with_reducible refine Leaf.of rfl (fun p hp => ?_) ?_); (cases p <;> first | exact absurd hp (by decide) | (show _ = _; with_reducible rfl) | rfl | (show _ = _; unfold openStep; split <;> rfl)))
    | ((with_reducible apply Touches.step (activateTypes_touches _ _)); · decide)
    | ((with_reducible apply Touches.step (bootAttempt_touches _ _)); · decide)
    | ((with_reducible apply Touches.step (securityOn_touches _)); · decide)
    | (with_reducible apply Touches.fold (fun _ _ => ?_))
    | split

theorem measureBoot_touches (lib : Bool) (s : State) : Touches [.meas, .sec] s (measureBoot lib s) := by
  unfold measureBoot
  try dsimp only
  repeat' first
    | with_reducible exact .refl
    | simp only [Touches.mk_iff, Touches.ite_iff]
    | with_reducible refine And.intro (fun _ => ?_) (fun _ => ?_)
    | ((with_reducible refine Leaf.of rfl (fun p hp => ?_) ?_); (cases p <;> first | exact absurd hp (by decide) | (show _ = _; with_reducible rfl) | rfl | (show _ = _; unfold openStep; split <;> rfl)))

theorem hostTrains_touches (s : State) : Touches [.host, .free] s (hostTrains s) := by
  unfold hostTrains
  try dsimp only
  repeat' first
    | with_reducible exact .refl
    | simp only [Touches.mk_iff, Touches.ite_iff]
    | with_reducible refine And.intro (fun _ => ?_) (fun _ => ?_)
    | ((with_reducible refine Leaf.of rfl (fun p hp => ?_) ?_); (cases p <;> first | exact absurd hp (by decide) | (show _ = _; with_reducible rfl) | rfl | (show _ = _; unfold openStep; split <;> rfl)))
    | ((with_reducible apply Touches.step (drawn_touches _)); · decide)

theorem hubOn_touches (s : State) : Touches [.clk, .domains, .host, .free] s (hubOn s) := by
  unfold hubOn
  try dsimp only
  repeat' first
    | with_reducible exact .refl
    | simp only [Touches.mk_iff, Touches.ite_iff]
    | with_reducible refine And.intro (fun _ => ?_) (fun _ => ?_)
    | ((with_reducible refine Leaf.of rfl (fun p hp => ?_) ?_); (cases p <;> first | exact absurd hp (by decide) | (show _ = _; with_reducible rfl) | rfl | (show _ = _; unfold openStep; split <;> rfl)))
    | ((with_reducible apply Touches.step (domainsOn_touches _ _)); · decide)
    | ((with_reducible apply Touches.step (hostTrains_touches _)); · decide)

theorem bootFails_touches (s : State) : Touches [.devState, .host, .cores, .links, .topo, .tests, .meas, .sec, .sent] s (bootFails s) := by
  unfold bootFails
  try dsimp only
  repeat' first
    | with_reducible exact .refl
    | simp only [Touches.mk_iff, Touches.ite_iff]
    | with_reducible refine And.intro (fun _ => ?_) (fun _ => ?_)
    | ((with_reducible refine Leaf.of rfl (fun p hp => ?_) ?_); (cases p <;> first | exact absurd hp (by decide) | (show _ = _; with_reducible rfl) | rfl | (show _ = _; unfold openStep; split <;> rfl)))
    | ((with_reducible apply Touches.step (changeState_touches _ _)); · decide)

theorem bringStarts_touches (s : State) (p : Nat) : Touches [.dev] s (bringStarts s p) := by
  unfold bringStarts
  try dsimp only
  repeat' first
    | with_reducible exact .refl
    | simp only [Touches.mk_iff, Touches.ite_iff]
    | with_reducible refine And.intro (fun _ => ?_) (fun _ => ?_)
    | ((with_reducible refine Leaf.of rfl (fun p hp => ?_) ?_); (cases p <;> first | exact absurd hp (by decide) | (show _ = _; with_reducible rfl) | rfl | (show _ = _; unfold openStep; split <;> rfl)))

theorem phase3Ends_touches (bad : List (Nat × Nat)) (s : State) : Touches [.clk, .devState, .dev, .domains, .host, .cores, .links, .topo, .tests, .fw, .counters, .meas, .sec, .sent, .free] s (phase3Ends bad s) := by
  unfold phase3Ends
  try dsimp only
  repeat' first
    | with_reducible exact .refl
    | simp only [Touches.mk_iff, Touches.ite_iff]
    | with_reducible refine And.intro (fun _ => ?_) (fun _ => ?_)
    | ((with_reducible refine Leaf.of rfl (fun p hp => ?_) ?_); (cases p <;> first | exact absurd hp (by decide) | (show _ = _; with_reducible rfl) | rfl | (show _ = _; unfold openStep; split <;> rfl)))
    | ((with_reducible apply Touches.step (bringStarts_touches _ _)); · decide)
    | ((with_reducible apply Touches.step (bootFails_touches _)); · decide)
    | ((with_reducible apply Touches.step (bankConfirmed_touches _ _)); · decide)
    | ((with_reducible apply Touches.step (measureBoot_touches _ _)); · decide)
    | ((with_reducible apply Touches.step (hubOn_touches _)); · decide)
    | ((with_reducible apply Touches.step (bootVerify_touches _ _ _)); · decide)

theorem phase4Ends_touches (s : State) : Touches [.devState, .dev, .host, .cores, .links, .topo, .tests, .meas, .sec, .sent] s (phase4Ends s) := by
  unfold phase4Ends
  try dsimp only
  repeat' first
    | with_reducible exact .refl
    | simp only [Touches.mk_iff, Touches.ite_iff]
    | with_reducible refine And.intro (fun _ => ?_) (fun _ => ?_)
    | ((with_reducible refine Leaf.of rfl (fun p hp => ?_) ?_); (cases p <;> first | exact absurd hp (by decide) | (show _ = _; with_reducible rfl) | rfl | (show _ = _; unfold openStep; split <;> rfl)))
    | ((with_reducible apply Touches.step (bootFails_touches _)); · decide)

theorem phase5Ends_touches (s : State) : Touches [.devState, .dev, .host, .cores, .links, .topo, .tests, .fw, .counters, .meas, .sec, .sent] s (phase5Ends s) := by
  unfold phase5Ends
  try dsimp only
  repeat' first
    | with_reducible exact .refl
    | simp only [Touches.mk_iff, Touches.ite_iff]
    | with_reducible refine And.intro (fun _ => ?_) (fun _ => ?_)
    | ((with_reducible refine Leaf.of rfl (fun p hp => ?_) ?_); (cases p <;> first | exact absurd hp (by decide) | (show _ = _; with_reducible rfl) | rfl | (show _ = _; unfold openStep; split <;> rfl)))
    | ((with_reducible apply Touches.step (changeState_touches _ _)); · decide)
    | ((with_reducible apply Touches.step (bankConfirmed_touches _ _)); · decide)
    | ((with_reducible apply Touches.step (configChanged_touches _)); · decide)
    | ((with_reducible apply Touches.step (bootFails_touches _)); · decide)

theorem phaseEnds_touches (bad : List (Nat × Nat)) (s : State) : Touches [.clk, .pins, .devState, .dev, .domains, .host, .cores, .links, .topo, .tests, .fw, .counters, .meas, .sec, .sent, .free] s (phaseEnds bad s) := by
  unfold phaseEnds
  try dsimp only
  repeat' first
    | with_reducible exact .refl
    | simp only [Touches.mk_iff, Touches.ite_iff]
    | with_reducible refine And.intro (fun _ => ?_) (fun _ => ?_)
    | ((with_reducible refine Leaf.of rfl (fun p hp => ?_) ?_); (cases p <;> first | exact absurd hp (by decide) | (show _ = _; with_reducible rfl) | rfl | (show _ = _; unfold openStep; split <;> rfl)))
    | ((with_reducible apply Touches.step (phase5Ends_touches _)); · decide)
    | ((with_reducible apply Touches.step (phase4Ends_touches _)); · decide)
    | ((with_reducible apply Touches.step (phase3Ends_touches _ _)); · decide)
    | ((with_reducible apply Touches.step (phase2Ends_touches _)); · decide)
    | ((with_reducible apply Touches.step (setAlert_touches _)); · decide)
    | ((with_reducible apply Touches.step (bootVerify_touches _ _ _)); · decide)
    | (with_reducible apply Touches.fold (fun _ _ => ?_))
    | split

theorem execBootPhaseDone_touches (badImages : List (Nat × Nat)) (s : State) : OutTouches [.clk, .pins, .devState, .dev, .domains, .host, .cores, .links, .topo, .tests, .fw, .counters, .meas, .sec, .sent, .free] s (execBootPhaseDone badImages s) := by
  unfold execBootPhaseDone
  try dsimp only
  repeat' first
    | with_reducible exact .refl
    | with_reducible apply OutTouches.next
    | with_reducible exact OutTouches.fault
    | simp only [Touches.mk_iff, Touches.ite_iff]
    | with_reducible refine And.intro (fun _ => ?_) (fun _ => ?_)
    | ((with_reducible refine Leaf.of rfl (fun p hp => ?_) ?_); (cases p <;> first | exact absurd hp (by decide) | (show _ = _; with_reducible rfl) | rfl | (show _ = _; unfold openStep; split <;> rfl)))
    | ((with_reducible apply Touches.step (phaseEnds_touches _ _)); · decide)
    | (with_reducible apply Touches.fold (fun _ _ => ?_))
    | split

theorem stateAct_touches (value : Nat) (s : State) : Touches [.devState, .dev, .domains, .dict, .owner, .host, .staging, .poison, .ctxs, .vers, .fetch, .results, .cores, .steps, .sync, .chans, .coll, .num, .place, .mem, .links, .topo, .ckpt, .ledger, .tests, .fenceSet, .recov, .fw, .meas, .sec, .sent, .free] s (stateAct value s) := by
  unfold stateAct
  try dsimp only
  repeat' first
    | with_reducible exact .refl
    | simp only [Touches.mk_iff, Touches.ite_iff]
    | with_reducible refine And.intro (fun _ => ?_) (fun _ => ?_)
    | ((with_reducible refine Leaf.of rfl (fun p hp => ?_) ?_); (cases p <;> first | exact absurd hp (by decide) | (show _ = _; with_reducible rfl) | rfl | (show _ = _; unfold openStep; split <;> rfl)))
    | ((with_reducible apply Touches.step (partReset_touches _ _ _)); · decide)
    | ((with_reducible apply Touches.step (modReset_touches _ _)); · decide)
    | ((with_reducible apply Touches.step (changeState_touches _ _)); · decide)
    | (with_reducible apply Touches.fold (fun _ _ => ?_))
    | split

theorem execStateEnterTest_touches (src : Src) (s : State) : OutTouches [.devState, .dev, .domains, .dict, .owner, .host, .staging, .poison, .ctxs, .vers, .fetch, .results, .cores, .steps, .sync, .chans, .coll, .num, .place, .mem, .links, .topo, .ckpt, .ledger, .tests, .fenceSet, .recov, .fw, .meas, .sec, .sent, .free] s (execStateEnterTest src s) := by
  unfold execStateEnterTest
  try dsimp only
  repeat' first
    | with_reducible exact .refl
    | with_reducible apply OutTouches.next
    | with_reducible exact OutTouches.fault
    | simp only [Touches.mk_iff, Touches.ite_iff]
    | with_reducible refine And.intro (fun _ => ?_) (fun _ => ?_)
    | ((with_reducible refine Leaf.of rfl (fun p hp => ?_) ?_); (cases p <;> first | exact absurd hp (by decide) | (show _ = _; with_reducible rfl) | rfl | (show _ = _; unfold openStep; split <;> rfl)))
    | ((with_reducible apply Touches.step (stateAct_touches _ _)); · decide)
    | ((with_reducible apply hostCommand_touches ?hw (fun _ => ?he)); case hw => decide)

theorem execStateLeaveTest_touches (src : Src) (s : State) : OutTouches [.devState, .dev, .domains, .dict, .owner, .host, .staging, .poison, .ctxs, .vers, .fetch, .results, .cores, .steps, .sync, .chans, .coll, .num, .place, .mem, .links, .topo, .ckpt, .ledger, .tests, .fenceSet, .recov, .fw, .meas, .sec, .sent, .free] s (execStateLeaveTest src s) := by
  unfold execStateLeaveTest
  try dsimp only
  repeat' first
    | with_reducible exact .refl
    | with_reducible apply OutTouches.next
    | with_reducible exact OutTouches.fault
    | simp only [Touches.mk_iff, Touches.ite_iff]
    | with_reducible refine And.intro (fun _ => ?_) (fun _ => ?_)
    | ((with_reducible refine Leaf.of rfl (fun p hp => ?_) ?_); (cases p <;> first | exact absurd hp (by decide) | (show _ = _; with_reducible rfl) | rfl | (show _ = _; unfold openStep; split <;> rfl)))
    | ((with_reducible apply Touches.step (stateAct_touches _ _)); · decide)
    | ((with_reducible apply hostCommand_touches ?hw (fun _ => ?he)); case hw => decide)

theorem execModuleResetCommand_touches (src : Src) (s : State) : OutTouches [.devState, .dev, .domains, .dict, .owner, .host, .staging, .poison, .ctxs, .vers, .fetch, .results, .cores, .steps, .sync, .chans, .coll, .num, .place, .mem, .links, .topo, .ckpt, .ledger, .tests, .fenceSet, .recov, .fw, .meas, .sec, .sent, .free] s (execModuleResetCommand src s) := by
  unfold execModuleResetCommand
  try dsimp only
  repeat' first
    | with_reducible exact .refl
    | with_reducible apply OutTouches.next
    | with_reducible exact OutTouches.fault
    | simp only [Touches.mk_iff, Touches.ite_iff]
    | with_reducible refine And.intro (fun _ => ?_) (fun _ => ?_)
    | ((with_reducible refine Leaf.of rfl (fun p hp => ?_) ?_); (cases p <;> first | exact absurd hp (by decide) | (show _ = _; with_reducible rfl) | rfl | (show _ = _; unfold openStep; split <;> rfl)))
    | ((with_reducible apply Touches.step (stateAct_touches _ _)); · decide)
    | ((with_reducible apply hostCommand_touches ?hw (fun _ => ?he)); case hw => decide)

theorem execPartitionResetCommand_touches (src : Src) (p : Fin 8) (s : State) : OutTouches [.devState, .dev, .domains, .dict, .owner, .host, .staging, .poison, .ctxs, .vers, .fetch, .results, .cores, .steps, .sync, .chans, .coll, .num, .place, .mem, .links, .topo, .ckpt, .ledger, .tests, .fenceSet, .recov, .fw, .meas, .sec, .sent, .free] s (execPartitionResetCommand src p s) := by
  unfold execPartitionResetCommand
  try dsimp only
  repeat' first
    | with_reducible exact .refl
    | with_reducible apply OutTouches.next
    | with_reducible exact OutTouches.fault
    | simp only [Touches.mk_iff, Touches.ite_iff]
    | with_reducible refine And.intro (fun _ => ?_) (fun _ => ?_)
    | ((with_reducible refine Leaf.of rfl (fun p hp => ?_) ?_); (cases p <;> first | exact absurd hp (by decide) | (show _ = _; with_reducible rfl) | rfl | (show _ = _; unfold openStep; split <;> rfl)))
    | ((with_reducible apply Touches.step (stateAct_touches _ _)); · decide)
    | ((with_reducible apply hostCommand_touches ?hw (fun _ => ?he)); case hw => decide)

theorem execPerstNAssert_touches (s : State) : OutTouches [.pins, .host, .fw] s (execPerstNAssert s) := by
  unfold execPerstNAssert
  try dsimp only
  repeat' first
    | with_reducible exact .refl
    | with_reducible apply OutTouches.next
    | with_reducible exact OutTouches.fault
    | simp only [Touches.mk_iff, Touches.ite_iff]
    | with_reducible refine And.intro (fun _ => ?_) (fun _ => ?_)
    | ((with_reducible refine Leaf.of rfl (fun p hp => ?_) ?_); (cases p <;> first | exact absurd hp (by decide) | (show _ = _; with_reducible rfl) | rfl | (show _ = _; unfold openStep; split <;> rfl)))

theorem execPerstNDeassert_touches (s : State) : OutTouches [.pins, .host, .free] s (execPerstNDeassert s) := by
  unfold execPerstNDeassert
  try dsimp only
  repeat' first
    | with_reducible exact .refl
    | with_reducible apply OutTouches.next
    | with_reducible exact OutTouches.fault
    | simp only [Touches.mk_iff, Touches.ite_iff]
    | with_reducible refine And.intro (fun _ => ?_) (fun _ => ?_)
    | ((with_reducible refine Leaf.of rfl (fun p hp => ?_) ?_); (cases p <;> first | exact absurd hp (by decide) | (show _ = _; with_reducible rfl) | rfl | (show _ = _; unfold openStep; split <;> rfl)))
    | ((with_reducible apply Touches.step (hostTrains_touches _)); · decide)

end Sys2Proof.Machine
end

