-- ==== Sys2Proof/Laws/TouchBringup.lean ====
section
/-! SUPPORT. What each operation and meaning of Machine/Bringup.lean can change. -/

set_option linter.unusedSimpArgs false
set_option linter.unusedTactic false
set_option linter.unreachableTactic false

namespace Sys2Proof.Machine

theorem setBring_touches (s : State) (p : Nat) (k : Nat) : Touches [.dev] s (setBring s p k) := by
  unfold setBring
  try dsimp only
  repeat' first
    | with_reducible exact .refl
    | simp only [Touches.mk_iff, Touches.ite_iff]
    | with_reducible refine And.intro (fun _ => ?_) (fun _ => ?_)
    | ((with_reducible refine Leaf.of rfl (fun p hp => ?_) ?_); (cases p <;> first | exact absurd hp (by decide) | (show _ = _; with_reducible rfl) | rfl | (show _ = _; unfold openStep; split <;> rfl)))

theorem bringingDone_touches (s : State) : Touches [.devState, .dev, .host, .cores, .links, .topo, .tests, .meas, .sec, .sent] s (bringingDone s) := by
  unfold bringingDone
  try dsimp only
  repeat' first
    | with_reducible exact .refl
    | simp only [Touches.mk_iff, Touches.ite_iff]
    | with_reducible refine And.intro (fun _ => ?_) (fun _ => ?_)
    | ((with_reducible refine Leaf.of rfl (fun p hp => ?_) ?_); (cases p <;> first | exact absurd hp (by decide) | (show _ = _; with_reducible rfl) | rfl | (show _ = _; unfold openStep; split <;> rfl)))
    | ((with_reducible apply Touches.step (outOfService_touches _)); · decide)

theorem holdPart_touches (s : State) (p : Nat) : Touches [.devState, .dev, .domains, .dict, .host, .cores, .links, .topo, .tests, .meas, .sec, .sent] s (holdPart s p) := by
  unfold holdPart
  try dsimp only
  repeat' first
    | with_reducible exact .refl
    | simp only [Touches.mk_iff, Touches.ite_iff]
    | with_reducible refine And.intro (fun _ => ?_) (fun _ => ?_)
    | ((with_reducible refine Leaf.of rfl (fun p hp => ?_) ?_); (cases p <;> first | exact absurd hp (by decide) | (show _ = _; with_reducible rfl) | rfl | (show _ = _; unfold openStep; split <;> rfl)))
    | ((with_reducible apply Touches.step (keepReadings_touches _ _)); · decide)
    | ((with_reducible apply Touches.step (setBring_touches _ _ _)); · decide)
    | ((with_reducible apply Touches.step (domainsOff_touches _ _)); · decide)
    | ((with_reducible apply Touches.step (bringingDone_touches _)); · decide)

theorem ucieTrained_touches (s : State) (p : Nat) (bad : List (Fin 8)) : Touches [.devState, .dev, .domains, .dict, .host, .cores, .links, .topo, .ledger, .tests, .fw, .meas, .sec, .sent, .free] s (ucieTrained s p bad) := by
  unfold ucieTrained
  try dsimp only
  repeat' first
    | with_reducible exact .refl
    | simp only [Touches.mk_iff, Touches.ite_iff]
    | with_reducible refine And.intro (fun _ => ?_) (fun _ => ?_)
    | ((with_reducible refine Leaf.of rfl (fun p hp => ?_) ?_); (cases p <;> first | exact absurd hp (by decide) | (show _ = _; with_reducible rfl) | rfl | (show _ = _; unfold openStep; split <;> rfl)))
    | ((with_reducible apply Touches.step (setBring_touches _ _ _)); · decide)
    | ((with_reducible apply Touches.step (faultEvent_touches _ _)); · decide)
    | ((with_reducible apply Touches.step (holdPart_touches _ _)); · decide)
    | (with_reducible apply Touches.fold (fun _ _ => ?_))

theorem rowsRepaired_touches (s : State) (p : Nat) : Touches [.mem] s (rowsRepaired s p) := by
  unfold rowsRepaired
  try dsimp only
  repeat' first
    | with_reducible exact .refl
    | simp only [Touches.mk_iff, Touches.ite_iff]
    | with_reducible refine And.intro (fun _ => ?_) (fun _ => ?_)
    | ((with_reducible refine Leaf.of rfl (fun p hp => ?_) ?_); (cases p <;> first | exact absurd hp (by decide) | (show _ = _; with_reducible rfl) | rfl | (show _ = _; unfold openStep; split <;> rfl)))

theorem memTrained_touches (s : State) (p : Nat) (bad : List (Fin 2)) : Touches [.devState, .dev, .domains, .dict, .host, .cores, .mem, .links, .topo, .ledger, .tests, .fw, .meas, .sec, .sent, .free] s (memTrained s p bad) := by
  unfold memTrained
  try dsimp only
  repeat' first
    | with_reducible exact .refl
    | simp only [Touches.mk_iff, Touches.ite_iff]
    | with_reducible refine And.intro (fun _ => ?_) (fun _ => ?_)
    | ((with_reducible refine Leaf.of rfl (fun p hp => ?_) ?_); (cases p <;> first | exact absurd hp (by decide) | (show _ = _; with_reducible rfl) | rfl | (show _ = _; unfold openStep; split <;> rfl)))
    | ((with_reducible apply Touches.step (rowsRepaired_touches _ _)); · decide)
    | ((with_reducible apply Touches.step (setBring_touches _ _ _)); · decide)
    | ((with_reducible apply Touches.step (faultEvent_touches _ _)); · decide)
    | ((with_reducible apply Touches.step (holdPart_touches _ _)); · decide)
    | (with_reducible apply Touches.fold (fun _ _ => ?_))

theorem reconcileCore_touches (s : State) (g : Nat) : Touches [.devState, .dev, .host, .cores, .steps, .place, .links, .topo, .tests, .meas, .sec, .sent] s (reconcileCore s g) := by
  unfold reconcileCore
  try dsimp only
  repeat' first
    | with_reducible exact .refl
    | simp only [Touches.mk_iff, Touches.ite_iff]
    | with_reducible refine And.intro (fun _ => ?_) (fun _ => ?_)
    | ((with_reducible refine Leaf.of rfl (fun p hp => ?_) ?_); (cases p <;> first | exact absurd hp (by decide) | (show _ = _; with_reducible rfl) | rfl | (show _ = _; unfold openStep; split <;> rfl)))
    | ((with_reducible apply Touches.step (takeOut_touches _ _)); · decide)
    | ((with_reducible apply Touches.step (outOfService_touches _)); · decide)

theorem reconcile_touches (s : State) (p : Nat) : Touches [.devState, .dev, .host, .cores, .steps, .place, .links, .topo, .tests, .meas, .sec, .sent] s (reconcile s p) := by
  unfold reconcile
  try dsimp only
  repeat' first
    | with_reducible exact .refl
    | simp only [Touches.mk_iff, Touches.ite_iff]
    | with_reducible refine And.intro (fun _ => ?_) (fun _ => ?_)
    | ((with_reducible refine Leaf.of rfl (fun p hp => ?_) ?_); (cases p <;> first | exact absurd hp (by decide) | (show _ = _; with_reducible rfl) | rfl | (show _ = _; unfold openStep; split <;> rfl)))
    | ((with_reducible apply Touches.step (reconcileCore_touches _ _)); · decide)
    | (with_reducible apply Touches.fold (fun _ _ => ?_))

theorem ratioLatched_touches (s : State) : Touches [.dict] s (ratioLatched s) := by
  unfold ratioLatched
  try dsimp only
  repeat' first
    | with_reducible exact .refl
    | simp only [Touches.mk_iff, Touches.ite_iff]
    | with_reducible refine And.intro (fun _ => ?_) (fun _ => ?_)
    | ((with_reducible refine Leaf.of rfl (fun p hp => ?_) ?_); (cases p <;> first | exact absurd hp (by decide) | (show _ = _; with_reducible rfl) | rfl | (show _ = _; unfold openStep; split <;> rfl)))

theorem linkStarts_touches (s : State) (l : Nat) : Touches [.dict, .host, .ctxs, .links, .topo, .ledger, .fw, .sent, .free] s (linkStarts s l) := by
  unfold linkStarts
  try dsimp only
  repeat' first
    | with_reducible exact .refl
    | simp only [Touches.mk_iff, Touches.ite_iff]
    | with_reducible refine And.intro (fun _ => ?_) (fun _ => ?_)
    | ((with_reducible refine Leaf.of rfl (fun p hp => ?_) ?_); (cases p <;> first | exact absurd hp (by decide) | (show _ = _; with_reducible rfl) | rfl | (show _ = _; unfold openStep; split <;> rfl)))
    | ((with_reducible apply Touches.step (ratioLatched_touches _)); · decide)
    | ((with_reducible apply Touches.step (onLink_touches _ _ _)); · decide)
    | ((with_reducible apply Touches.step (emit_touches _ _)); · decide)
    | ((with_reducible apply Touches.step (fenceLink_touches _ _ _)); · decide)

theorem coresOn_touches (s : State) (p : Nat) : Touches [.devState, .dev, .domains, .dict, .host, .ctxs, .cores, .steps, .place, .links, .topo, .ledger, .tests, .fw, .meas, .sec, .sent, .free] s (coresOn s p) := by
  unfold coresOn
  try dsimp only
  repeat' first
    | with_reducible exact .refl
    | simp only [Touches.mk_iff, Touches.ite_iff]
    | with_reducible refine And.intro (fun _ => ?_) (fun _ => ?_)
    | ((with_reducible refine Leaf.of rfl (fun p hp => ?_) ?_); (cases p <;> first | exact absurd hp (by decide) | (show _ = _; with_reducible rfl) | rfl | (show _ = _; unfold openStep; split <;> rfl)))
    | ((with_reducible apply Touches.step (reconcile_touches _ _)); · decide)
    | ((with_reducible apply Touches.step (domainsOn_touches _ _)); · decide)
    | ((with_reducible apply Touches.step (setBring_touches _ _ _)); · decide)
    | ((with_reducible apply Touches.step (linkStarts_touches _ _)); · decide)
    | (with_reducible apply Touches.fold (fun _ _ => ?_))

theorem partReturns_touches (s : State) (p : Nat) : Touches [.devState, .host, .ctxs, .fetch, .cores, .sync, .links, .topo, .tests, .recov, .fw, .meas, .sec, .sent] s (partReturns s p) := by
  unfold partReturns
  try dsimp only
  repeat' first
    | with_reducible exact .refl
    | simp only [Touches.mk_iff, Touches.ite_iff]
    | with_reducible refine And.intro (fun _ => ?_) (fun _ => ?_)
    | ((with_reducible refine Leaf.of rfl (fun p hp => ?_) ?_); (cases p <;> first | exact absurd hp (by decide) | (show _ = _; with_reducible rfl) | rfl | (show _ = _; unfold openStep; split <;> rfl)))
    | ((with_reducible apply Touches.step (leaveRecovery_touches _)); · decide)
    | ((with_reducible apply Touches.step (tells_touches _ _)); · decide)
    | ((with_reducible apply Touches.step (pullDerived_touches _)); · decide)
    | ((with_reducible apply Touches.step (refetch_touches _ _)); · decide)

theorem partUp_touches (s : State) (p : Nat) : Touches [.devState, .dev, .host, .ctxs, .fetch, .cores, .sync, .links, .topo, .tests, .recov, .fw, .meas, .sec, .sent] s (partUp s p) := by
  unfold partUp
  try dsimp only
  repeat' first
    | with_reducible exact .refl
    | simp only [Touches.mk_iff, Touches.ite_iff]
    | with_reducible refine And.intro (fun _ => ?_) (fun _ => ?_)
    | ((with_reducible refine Leaf.of rfl (fun p hp => ?_) ?_); (cases p <;> first | exact absurd hp (by decide) | (show _ = _; with_reducible rfl) | rfl | (show _ = _; unfold openStep; split <;> rfl)))
    | ((with_reducible apply Touches.step (partReturns_touches _ _)); · decide)
    | ((with_reducible apply Touches.step (bringingDone_touches _)); · decide)
    | ((with_reducible apply Touches.step (setBring_touches _ _ _)); · decide)
    | ((with_reducible apply Touches.step (post_touches _ _ _ _ _)); · decide)

theorem bringStep_touches (s : State) (p : Nat) (r : Bringup) : Touches [.devState, .dev, .domains, .dict, .host, .ctxs, .fetch, .cores, .steps, .sync, .place, .mem, .links, .topo, .ledger, .tests, .recov, .fw, .meas, .sec, .sent, .free] s (bringStep s p r) := by
  unfold bringStep
  try dsimp only
  repeat' first
    | with_reducible exact .refl
    | simp only [Touches.mk_iff, Touches.ite_iff]
    | with_reducible refine And.intro (fun _ => ?_) (fun _ => ?_)
    | ((with_reducible refine Leaf.of rfl (fun p hp => ?_) ?_); (cases p <;> first | exact absurd hp (by decide) | (show _ = _; with_reducible rfl) | rfl | (show _ = _; unfold openStep; split <;> rfl)))
    | ((with_reducible apply Touches.step (partUp_touches _ _)); · decide)
    | ((with_reducible apply Touches.step (coresOn_touches _ _)); · decide)
    | ((with_reducible apply Touches.step (memTrained_touches _ _ _)); · decide)
    | ((with_reducible apply Touches.step (ucieTrained_touches _ _ _)); · decide)
    | ((with_reducible apply Touches.step (domainsOn_touches _ _)); · decide)
    | ((with_reducible apply Touches.step (setBring_touches _ _ _)); · decide)
    | (with_reducible apply Touches.fold (fun _ _ => ?_))
    | split

theorem execPartitionBringupStagger_touches (s : State) : OutTouches [.dev] s (execPartitionBringupStagger s) := by
  unfold execPartitionBringupStagger
  try dsimp only
  repeat' first
    | with_reducible exact .refl
    | with_reducible apply OutTouches.next
    | with_reducible exact OutTouches.fault
    | simp only [Touches.mk_iff, Touches.ite_iff]
    | with_reducible refine And.intro (fun _ => ?_) (fun _ => ?_)
    | ((with_reducible refine Leaf.of rfl (fun p hp => ?_) ?_); (cases p <;> first | exact absurd hp (by decide) | (show _ = _; with_reducible rfl) | rfl | (show _ = _; unfold openStep; split <;> rfl)))
    | ((with_reducible apply Touches.step (bringStarts_touches _ _)); · decide)
    | (with_reducible apply Touches.fold (fun _ _ => ?_))
    | split

theorem execPartitionBringupStepDone_touches (p : Fin 8) (r : Bringup) (s : State) : OutTouches [.devState, .dev, .domains, .dict, .host, .ctxs, .fetch, .cores, .steps, .sync, .place, .mem, .links, .topo, .ledger, .tests, .recov, .fw, .meas, .sec, .sent, .free] s (execPartitionBringupStepDone p r s) := by
  unfold execPartitionBringupStepDone
  try dsimp only
  repeat' first
    | with_reducible exact .refl
    | with_reducible apply OutTouches.next
    | with_reducible exact OutTouches.fault
    | simp only [Touches.mk_iff, Touches.ite_iff]
    | with_reducible refine And.intro (fun _ => ?_) (fun _ => ?_)
    | ((with_reducible refine Leaf.of rfl (fun p hp => ?_) ?_); (cases p <;> first | exact absurd hp (by decide) | (show _ = _; with_reducible rfl) | rfl | (show _ = _; unfold openStep; split <;> rfl)))
    | ((with_reducible apply Touches.step (bringStep_touches _ _ _)); · decide)
    | ((with_reducible apply Touches.step (hwRequest_touches _ _ _)); · decide)
    | (with_reducible apply Touches.fold (fun _ _ => ?_))
    | split

theorem execPartitionResetDelayEnd_touches (p : Fin 8) (s : State) : OutTouches [.dev] s (execPartitionResetDelayEnd p s) := by
  unfold execPartitionResetDelayEnd
  try dsimp only
  repeat' first
    | with_reducible exact .refl
    | with_reducible apply OutTouches.next
    | with_reducible exact OutTouches.fault
    | simp only [Touches.mk_iff, Touches.ite_iff]
    | with_reducible refine And.intro (fun _ => ?_) (fun _ => ?_)
    | ((with_reducible refine Leaf.of rfl (fun p hp => ?_) ?_); (cases p <;> first | exact absurd hp (by decide) | (show _ = _; with_reducible rfl) | rfl | (show _ = _; unfold openStep; split <;> rfl)))
    | ((with_reducible apply Touches.step (bringStarts_touches _ _)); · decide)
    | (with_reducible apply Touches.fold (fun _ _ => ?_))
    | split

theorem trotEvent_touches (s : State) (g : Nat) (pclass : Nat) (again : optParam Bool false) : Touches [.ledger, .tests, .fw, .free] s (trotEvent s g pclass again) := by
  unfold trotEvent
  try dsimp only
  repeat' first
    | with_reducible exact .refl
    | simp only [Touches.mk_iff, Touches.ite_iff]
    | with_reducible refine And.intro (fun _ => ?_) (fun _ => ?_)
    | ((with_reducible refine Leaf.of rfl (fun p hp => ?_) ?_); (cases p <;> first | exact absurd hp (by decide) | (show _ = _; with_reducible rfl) | rfl | (show _ = _; unfold openStep; split <;> rfl)))
    | ((with_reducible apply Touches.step (faultEvent_touches _ _)); · decide)
    | ((with_reducible apply Touches.step (drawn_touches _)); · decide)

theorem kernelDone_touches (s : State) (g : Nat) (pclass : Nat) (ok : Bool) : Touches [.dev, .ledger, .tests, .fw, .free] s (kernelDone s g pclass ok) := by
  unfold kernelDone
  try dsimp only
  repeat' first
    | with_reducible exact .refl
    | simp only [Touches.mk_iff, Touches.ite_iff]
    | with_reducible refine And.intro (fun _ => ?_) (fun _ => ?_)
    | ((with_reducible refine Leaf.of rfl (fun p hp => ?_) ?_); (cases p <;> first | exact absurd hp (by decide) | (show _ = _; with_reducible rfl) | rfl | (show _ = _; unfold openStep; split <;> rfl)))
    | ((with_reducible apply Touches.step (trotEvent_touches _ _ _ _)); · decide)

theorem execSelftestKernelDone_touches (core : Fin 136) (pclass : Nat) (digestOk : Bool) (s : State) : OutTouches [.dev, .ledger, .tests, .fw, .free] s (execSelftestKernelDone core pclass digestOk s) := by
  unfold execSelftestKernelDone
  try dsimp only
  repeat' first
    | with_reducible exact .refl
    | with_reducible apply OutTouches.next
    | with_reducible exact OutTouches.fault
    | simp only [Touches.mk_iff, Touches.ite_iff]
    | with_reducible refine And.intro (fun _ => ?_) (fun _ => ?_)
    | ((with_reducible refine Leaf.of rfl (fun p hp => ?_) ?_); (cases p <;> first | exact absurd hp (by decide) | (show _ = _; with_reducible rfl) | rfl | (show _ = _; unfold openStep; split <;> rfl)))
    | ((with_reducible apply Touches.step (kernelDone_touches _ _ _ _)); · decide)
    | (with_reducible apply Touches.fold (fun _ _ => ?_))
    | split

theorem setReplay_touches (s : State) (c : Conn) (away : Bool) (b : List (List Byte)) : Touches [.dev] s (setReplay s c away b) := by
  unfold setReplay
  try dsimp only
  repeat' first
    | with_reducible exact .refl
    | simp only [Touches.mk_iff, Touches.ite_iff]
    | with_reducible refine And.intro (fun _ => ?_) (fun _ => ?_)
    | ((with_reducible refine Leaf.of rfl (fun p hp => ?_) ?_); (cases p <;> first | exact absurd hp (by decide) | (show _ = _; with_reducible rfl) | rfl | (show _ = _; unfold openStep; split <;> rfl)))

theorem d2dHolds_touches (s : State) (c : Conn) (away : Bool) (seq : Nat) (flit : List Byte) : Touches [.dev] s (d2dHolds s c away seq flit) := by
  unfold d2dHolds
  try dsimp only
  repeat' first
    | with_reducible exact .refl
    | simp only [Touches.mk_iff, Touches.ite_iff]
    | with_reducible refine And.intro (fun _ => ?_) (fun _ => ?_)
    | ((with_reducible refine Leaf.of rfl (fun p hp => ?_) ?_); (cases p <;> first | exact absurd hp (by decide) | (show _ = _; with_reducible rfl) | rfl | (show _ = _; unfold openStep; split <;> rfl)))
    | ((with_reducible apply Touches.step (setReplay_touches _ _ _ _)); · decide)

theorem d2dAgain_touches (s : State) (c : Conn) (away : Bool) : Touches [.dev, .sent] s (d2dAgain s c away) := by
  unfold d2dAgain
  try dsimp only
  repeat' first
    | with_reducible exact .refl
    | simp only [Touches.mk_iff, Touches.ite_iff]
    | with_reducible refine And.intro (fun _ => ?_) (fun _ => ?_)
    | ((with_reducible refine Leaf.of rfl (fun p hp => ?_) ?_); (cases p <;> first | exact absurd hp (by decide) | (show _ = _; with_reducible rfl) | rfl | (show _ = _; unfold openStep; split <;> rfl)))
    | ((with_reducible apply Touches.step (emits_touches _ _)); · decide)

theorem d2dTaken_touches (s : State) (c : Conn) (away : Bool) (seq : Nat) (flit : List Byte) : Touches [.dev, .sent] s (d2dTaken s c away seq flit) := by
  unfold d2dTaken
  try dsimp only
  repeat' first
    | with_reducible exact .refl
    | simp only [Touches.mk_iff, Touches.ite_iff]
    | with_reducible refine And.intro (fun _ => ?_) (fun _ => ?_)
    | ((with_reducible refine Leaf.of rfl (fun p hp => ?_) ?_); (cases p <;> first | exact absurd hp (by decide) | (show _ = _; with_reducible rfl) | rfl | (show _ = _; unfold openStep; split <;> rfl)))
    | ((with_reducible apply Touches.step (emit_touches _ _)); · decide)
    | ((with_reducible apply Touches.step (setReplay_touches _ _ _ _)); · decide)
    | ((with_reducible apply Touches.step (emits_touches _ _)); · decide)

theorem denied_touches (s : State) (addr : Nat) (cause : Nat) (write : Bool) : Touches [.sec] s (denied s addr cause write) := by
  unfold denied
  try dsimp only
  repeat' first
    | with_reducible exact .refl
    | simp only [Touches.mk_iff, Touches.ite_iff]
    | with_reducible refine And.intro (fun _ => ?_) (fun _ => ?_)
    | ((with_reducible refine Leaf.of rfl (fun p hp => ?_) ?_); (cases p <;> first | exact absurd hp (by decide) | (show _ = _; with_reducible rfl) | rfl | (show _ = _; unfold openStep; split <;> rfl)))

theorem execD2dFlitReceived_touches (c : Conn × Bool) (seq : Nat) (flit : NativeFlit) (crc : BitVec 16) (s : State) : OutTouches [.dev, .sec, .sent] s (execD2dFlitReceived c seq flit crc s) := by
  unfold execD2dFlitReceived
  try dsimp only
  repeat' first
    | with_reducible exact .refl
    | with_reducible apply OutTouches.next
    | with_reducible exact OutTouches.fault
    | simp only [Touches.mk_iff, Touches.ite_iff]
    | with_reducible refine And.intro (fun _ => ?_) (fun _ => ?_)
    | ((with_reducible refine Leaf.of rfl (fun p hp => ?_) ?_); (cases p <;> first | exact absurd hp (by decide) | (show _ = _; with_reducible rfl) | rfl | (show _ = _; unfold openStep; split <;> rfl)))
    | ((with_reducible apply Touches.step (d2dTaken_touches _ _ _ _ _)); · decide)
    | ((with_reducible apply Touches.step (d2dHolds_touches _ _ _ _ _)); · decide)
    | ((with_reducible apply Touches.step (d2dAgain_touches _ _ _)); · decide)
    | ((with_reducible apply Touches.step (denied_touches _ _ _ _)); · decide)
    | (with_reducible apply Touches.fold (fun _ _ => ?_))
    | split

theorem d2dDump_touches (s : State) (requester : Nat) (far : Nat) : Touches [.fw, .free] s (d2dDump s requester far) := by
  unfold d2dDump
  try dsimp only
  repeat' first
    | with_reducible exact .refl
    | simp only [Touches.mk_iff, Touches.ite_iff]
    | with_reducible refine And.intro (fun _ => ?_) (fun _ => ?_)
    | ((with_reducible refine Leaf.of rfl (fun p hp => ?_) ?_); (cases p <;> first | exact absurd hp (by decide) | (show _ = _; with_reducible rfl) | rfl | (show _ = _; unfold openStep; split <;> rfl)))
    | ((with_reducible apply Touches.step (fullDump_touches _ _ _ _ _ _)); · decide)
    | ((with_reducible apply Touches.step (flashSummary_touches _ _ _ _)); · decide)

theorem d2dTimedOut_touches (s : State) (requester : Nat) (far : Nat) : Touches [.devState, .dev, .domains, .dict, .owner, .host, .staging, .poison, .ctxs, .vers, .fetch, .results, .cores, .steps, .sync, .chans, .coll, .num, .place, .mem, .links, .topo, .ckpt, .ledger, .tests, .fenceSet, .recov, .fw, .meas, .sec, .sent, .free] s (d2dTimedOut s requester far) := by
  unfold d2dTimedOut
  try dsimp only
  repeat' first
    | with_reducible exact .refl
    | simp only [Touches.mk_iff, Touches.ite_iff]
    | with_reducible refine And.intro (fun _ => ?_) (fun _ => ?_)
    | ((with_reducible refine Leaf.of rfl (fun p hp => ?_) ?_); (cases p <;> first | exact absurd hp (by decide) | (show _ = _; with_reducible rfl) | rfl | (show _ = _; unfold openStep; split <;> rfl)))
    | ((with_reducible apply Touches.step (failSteps_touches _ _)); · decide)
    | ((with_reducible apply Touches.step (modReset_touches _ _)); · decide)
    | ((with_reducible apply Touches.step (emit_touches _ _)); · decide)
    | ((with_reducible apply Touches.step (faultEvent_touches _ _)); · decide)
    | ((with_reducible apply Touches.step (d2dDump_touches _ _ _)); · decide)
    | ((with_reducible apply Touches.step (partReset_touches _ _ _)); · decide)

theorem execD2dTimeout_touches (requester : Die) (far : Die) (s : State) : OutTouches [.devState, .dev, .domains, .dict, .owner, .host, .staging, .poison, .ctxs, .vers, .fetch, .results, .cores, .steps, .sync, .chans, .coll, .num, .place, .mem, .links, .topo, .ckpt, .ledger, .tests, .fenceSet, .recov, .fw, .meas, .sec, .sent, .free] s (execD2dTimeout requester far s) := by
  unfold execD2dTimeout
  try dsimp only
  repeat' first
    | with_reducible exact .refl
    | with_reducible apply OutTouches.next
    | with_reducible exact OutTouches.fault
    | simp only [Touches.mk_iff, Touches.ite_iff]
    | with_reducible refine And.intro (fun _ => ?_) (fun _ => ?_)
    | ((with_reducible refine Leaf.of rfl (fun p hp => ?_) ?_); (cases p <;> first | exact absurd hp (by decide) | (show _ = _; with_reducible rfl) | rfl | (show _ = _; unfold openStep; split <;> rfl)))
    | ((with_reducible apply Touches.step (d2dTimedOut_touches _ _ _)); · decide)
    | ((with_reducible apply Touches.step (emit_touches _ _)); · decide)
    | (with_reducible apply Touches.fold (fun _ _ => ?_))
    | split

theorem execTestPortInstruction_touches (instr : Nat) (s : State) : OutTouches [.pins, .dev, .sent, .free] s (execTestPortInstruction instr s) := by
  unfold execTestPortInstruction
  try dsimp only
  repeat' first
    | with_reducible exact .refl
    | with_reducible apply OutTouches.next
    | with_reducible exact OutTouches.fault
    | simp only [Touches.mk_iff, Touches.ite_iff]
    | with_reducible refine And.intro (fun _ => ?_) (fun _ => ?_)
    | ((with_reducible refine Leaf.of rfl (fun p hp => ?_) ?_); (cases p <;> first | exact absurd hp (by decide) | (show _ = _; with_reducible rfl) | rfl | (show _ = _; unfold openStep; split <;> rfl)))
    | ((with_reducible apply Touches.step (emit_touches _ _)); · decide)
    | (with_reducible apply Touches.fold (fun _ _ => ?_))
    | split

end Sys2Proof.Machine
end

