-- ==== Sys2Proof/Laws/TouchPower.lean ====
section
/-! SUPPORT. What each operation and meaning of Machine/Power.lean can change. -/

set_option linter.unusedSimpArgs false
set_option linter.unusedTactic false
set_option linter.unreachableTactic false

namespace Sys2Proof.Machine

theorem emerShown_touches (s : State) : Touches [.pins, .host, .sent] s (emerShown s) := by
  unfold emerShown
  try dsimp only
  repeat' first
    | with_reducible exact .refl
    | simp only [Touches.mk_iff, Touches.ite_iff]
    | with_reducible refine And.intro (fun _ => ?_) (fun _ => ?_)
    | ((with_reducible refine Leaf.of rfl (fun p hp => ?_) ?_); (cases p <;> first | exact absurd hp (by decide) | (show _ = _; with_reducible rfl) | rfl | (show _ = _; unfold openStep; split <;> rfl)))
    | ((with_reducible apply Touches.step (setAlert_touches _)); · decide)
    | ((with_reducible apply Touches.step (post_touches _ _ _ _ _)); · decide)

theorem raiseEmer_touches (s : State) (k : Emer) : Touches [.pins, .devState, .host, .cores, .links, .topo, .tests, .power, .meas, .sec, .sent] s (raiseEmer s k) := by
  unfold raiseEmer
  try dsimp only
  repeat' first
    | with_reducible exact .refl
    | simp only [Touches.mk_iff, Touches.ite_iff]
    | with_reducible refine And.intro (fun _ => ?_) (fun _ => ?_)
    | ((with_reducible refine Leaf.of rfl (fun p hp => ?_) ?_); (cases p <;> first | exact absurd hp (by decide) | (show _ = _; with_reducible rfl) | rfl | (show _ = _; unfold openStep; split <;> rfl)))
    | ((with_reducible apply Touches.step (gallopStop_touches _)); · decide)
    | ((with_reducible apply Touches.step (emerShown_touches _)); · decide)

theorem clearEmer_touches (s : State) (k : Emer) : Touches [.pins, .host, .power, .sent] s (clearEmer s k) := by
  unfold clearEmer
  try dsimp only
  repeat' first
    | with_reducible exact .refl
    | simp only [Touches.mk_iff, Touches.ite_iff]
    | with_reducible refine And.intro (fun _ => ?_) (fun _ => ?_)
    | ((with_reducible refine Leaf.of rfl (fun p hp => ?_) ?_); (cases p <;> first | exact absurd hp (by decide) | (show _ = _; with_reducible rfl) | rfl | (show _ = _; unfold openStep; split <;> rfl)))
    | ((with_reducible apply Touches.step (emerShown_touches _)); · decide)

theorem escalate_touches (s : State) (k : Emer) : Touches [.devState, .dev, .domains, .dict, .owner, .host, .staging, .poison, .ctxs, .vers, .fetch, .results, .cores, .steps, .sync, .chans, .coll, .num, .place, .mem, .links, .topo, .ckpt, .ledger, .tests, .fenceSet, .recov, .fw, .meas, .sec, .sent, .free] s (escalate s k) := by
  unfold escalate
  try dsimp only
  repeat' first
    | with_reducible exact .refl
    | simp only [Touches.mk_iff, Touches.ite_iff]
    | with_reducible refine And.intro (fun _ => ?_) (fun _ => ?_)
    | ((with_reducible refine Leaf.of rfl (fun p hp => ?_) ?_); (cases p <;> first | exact absurd hp (by decide) | (show _ = _; with_reducible rfl) | rfl | (show _ = _; unfold openStep; split <;> rfl)))
    | ((with_reducible apply Touches.step (partReset_touches _ _ _)); · decide)
    | ((with_reducible apply Touches.step (modReset_touches _ _)); · decide)
    | (with_reducible apply Touches.fold (fun _ _ => ?_))
    | split

theorem execEmergencyEscalationTimer_touches (e : Emer) (s : State) : OutTouches [.clk, .devState, .dev, .domains, .dict, .owner, .host, .staging, .poison, .ctxs, .vers, .fetch, .results, .cores, .steps, .sync, .chans, .coll, .num, .place, .mem, .links, .topo, .ckpt, .ledger, .tests, .fenceSet, .recov, .fw, .meas, .sec, .sent, .free] s (execEmergencyEscalationTimer e s) := by
  unfold execEmergencyEscalationTimer
  try dsimp only
  repeat' first
    | with_reducible exact .refl
    | with_reducible apply OutTouches.next
    | with_reducible exact OutTouches.fault
    | simp only [Touches.mk_iff, Touches.ite_iff]
    | with_reducible refine And.intro (fun _ => ?_) (fun _ => ?_)
    | ((with_reducible refine Leaf.of rfl (fun p hp => ?_) ?_); (cases p <;> first | exact absurd hp (by decide) | (show _ = _; with_reducible rfl) | rfl | (show _ = _; unfold openStep; split <;> rfl)))
    | ((with_reducible apply Touches.step (reach_touches _ _)); · decide)
    | ((with_reducible apply Touches.step (escalate_touches _ _)); · decide)
    | (with_reducible apply Touches.fold (fun _ _ => ?_))
    | split

theorem readingCleared_touches (s : State) (k : Emer) : Touches [.power, .free] s (readingCleared s k) := by
  unfold readingCleared
  try dsimp only
  repeat' first
    | with_reducible exact .refl
    | simp only [Touches.mk_iff, Touches.ite_iff]
    | with_reducible refine And.intro (fun _ => ?_) (fun _ => ?_)
    | ((with_reducible refine Leaf.of rfl (fun p hp => ?_) ?_); (cases p <;> first | exact absurd hp (by decide) | (show _ = _; with_reducible rfl) | rfl | (show _ = _; unfold openStep; split <;> rfl)))
    | ((with_reducible apply Touches.step (drawn_touches _)); · decide)
    | (with_reducible apply Touches.fold (fun _ _ => ?_))
    | split

theorem execEmergencyClearTimer_touches (e : Emer) (s : State) : OutTouches [.clk, .pins, .host, .power, .sent, .free] s (execEmergencyClearTimer e s) := by
  unfold execEmergencyClearTimer
  try dsimp only
  repeat' first
    | with_reducible exact .refl
    | with_reducible apply OutTouches.next
    | with_reducible exact OutTouches.fault
    | simp only [Touches.mk_iff, Touches.ite_iff]
    | with_reducible refine And.intro (fun _ => ?_) (fun _ => ?_)
    | ((with_reducible refine Leaf.of rfl (fun p hp => ?_) ?_); (cases p <;> first | exact absurd hp (by decide) | (show _ = _; with_reducible rfl) | rfl | (show _ = _; unfold openStep; split <;> rfl)))
    | ((with_reducible apply Touches.step (reach_touches _ _)); · decide)
    | ((with_reducible apply Touches.step (readingCleared_touches _ _)); · decide)
    | ((with_reducible apply Touches.step (clearEmer_touches _ _)); · decide)
    | (with_reducible apply Touches.fold (fun _ _ => ?_))
    | split

theorem controlled_touches (s : State) (w : Nat) : Touches [.power] s (controlled s w) := by
  unfold controlled
  try dsimp only
  repeat' first
    | with_reducible exact .refl
    | simp only [Touches.mk_iff, Touches.ite_iff]
    | with_reducible refine And.intro (fun _ => ?_) (fun _ => ?_)
    | ((with_reducible refine Leaf.of rfl (fun p hp => ?_) ?_); (cases p <;> first | exact absurd hp (by decide) | (show _ = _; with_reducible rfl) | rfl | (show _ = _; unfold openStep; split <;> rfl)))

theorem execPowerControllerIteration_touches (inputW : Nat) (s : State) : OutTouches [.pins, .devState, .host, .cores, .links, .topo, .tests, .power, .meas, .sec, .sent] s (execPowerControllerIteration inputW s) := by
  unfold execPowerControllerIteration
  try dsimp only
  repeat' first
    | with_reducible exact .refl
    | with_reducible apply OutTouches.next
    | with_reducible exact OutTouches.fault
    | simp only [Touches.mk_iff, Touches.ite_iff]
    | with_reducible refine And.intro (fun _ => ?_) (fun _ => ?_)
    | ((with_reducible refine Leaf.of rfl (fun p hp => ?_) ?_); (cases p <;> first | exact absurd hp (by decide) | (show _ = _; with_reducible rfl) | rfl | (show _ = _; unfold openStep; split <;> rfl)))
    | ((with_reducible apply Touches.step (raiseEmer_touches _ _)); · decide)
    | ((with_reducible apply Touches.step (controlled_touches _ _)); · decide)
    | (with_reducible apply Touches.fold (fun _ _ => ?_))
    | split

theorem leaseWritten_touches (value : Nat) (s : State) : Touches [.pins, .vals, .dict, .host, .power, .sent] s (leaseWritten value s) := by
  unfold leaseWritten
  try dsimp only
  repeat' first
    | with_reducible exact .refl
    | simp only [Touches.mk_iff, Touches.ite_iff]
    | with_reducible refine And.intro (fun _ => ?_) (fun _ => ?_)
    | ((with_reducible refine Leaf.of rfl (fun p hp => ?_) ?_); (cases p <;> first | exact absurd hp (by decide) | (show _ = _; with_reducible rfl) | rfl | (show _ = _; unfold openStep; split <;> rfl)))
    | ((with_reducible apply Touches.step (putValue_touches _ _ _)); · decide)
    | ((with_reducible apply Touches.step (setAlert_touches _)); · decide)
    | ((with_reducible apply Touches.step (post_touches _ _ _ _ _)); · decide)

theorem execRackLeaseWrite_touches (src : Src) (value : BitVec 32) (s : State) : OutTouches [.pins, .vals, .dict, .host, .power, .fw, .sent] s (execRackLeaseWrite src value s) := by
  unfold execRackLeaseWrite
  try dsimp only
  repeat' first
    | with_reducible exact .refl
    | with_reducible apply OutTouches.next
    | with_reducible exact OutTouches.fault
    | simp only [Touches.mk_iff, Touches.ite_iff]
    | with_reducible refine And.intro (fun _ => ?_) (fun _ => ?_)
    | ((with_reducible refine Leaf.of rfl (fun p hp => ?_) ?_); (cases p <;> first | exact absurd hp (by decide) | (show _ = _; with_reducible rfl) | rfl | (show _ = _; unfold openStep; split <;> rfl)))
    | ((with_reducible apply Touches.step (leaseWritten_touches _ _)); · decide)
    | ((with_reducible apply hostCommand_touches ?hw (fun _ => ?he)); case hw => decide)

theorem execLeaseExpiry_touches (s : State) : OutTouches [.clk, .pins, .host, .power, .sent] s (execLeaseExpiry s) := by
  unfold execLeaseExpiry
  try dsimp only
  repeat' first
    | with_reducible exact .refl
    | with_reducible apply OutTouches.next
    | with_reducible exact OutTouches.fault
    | simp only [Touches.mk_iff, Touches.ite_iff]
    | with_reducible refine And.intro (fun _ => ?_) (fun _ => ?_)
    | ((with_reducible refine Leaf.of rfl (fun p hp => ?_) ?_); (cases p <;> first | exact absurd hp (by decide) | (show _ = _; with_reducible rfl) | rfl | (show _ = _; unfold openStep; split <;> rfl)))
    | ((with_reducible apply Touches.step (reach_touches _ _)); · decide)
    | ((with_reducible apply Touches.step (setAlert_touches _)); · decide)
    | ((with_reducible apply Touches.step (post_touches _ _ _ _ _)); · decide)
    | (with_reducible apply Touches.fold (fun _ _ => ?_))
    | split

theorem execIslandVoltageLoop_touches (core : Fin 136) (marginMore : Bool) (marginShort : Bool) (s : State) : OutTouches [.cores, .power] s (execIslandVoltageLoop core marginMore marginShort s) := by
  unfold execIslandVoltageLoop
  try dsimp only
  repeat' first
    | with_reducible exact .refl
    | with_reducible apply OutTouches.next
    | with_reducible exact OutTouches.fault
    | simp only [Touches.mk_iff, Touches.ite_iff]
    | with_reducible refine And.intro (fun _ => ?_) (fun _ => ?_)
    | ((with_reducible refine Leaf.of rfl (fun p hp => ?_) ?_); (cases p <;> first | exact absurd hp (by decide) | (show _ = _; with_reducible rfl) | rfl | (show _ = _; unfold openStep; split <;> rfl)))
    | ((with_reducible apply Touches.step (onCore__touches _ _ _)); · decide)
    | (with_reducible apply Touches.fold (fun _ _ => ?_))
    | split

theorem execDroopDetected_touches (core : Fin 136) (s : State) : OutTouches [.cores, .power] s (execDroopDetected core s) := by
  unfold execDroopDetected
  try dsimp only
  repeat' first
    | with_reducible exact .refl
    | with_reducible apply OutTouches.next
    | with_reducible exact OutTouches.fault
    | simp only [Touches.mk_iff, Touches.ite_iff]
    | with_reducible refine And.intro (fun _ => ?_) (fun _ => ?_)
    | ((with_reducible refine Leaf.of rfl (fun p hp => ?_) ?_); (cases p <;> first | exact absurd hp (by decide) | (show _ = _; with_reducible rfl) | rfl | (show _ = _; unfold openStep; split <;> rfl)))
    | ((with_reducible apply Touches.step (onCore__touches _ _ _)); · decide)
    | (with_reducible apply Touches.fold (fun _ _ => ?_))
    | split

theorem execLogicTempSample_touches (core : Fin 136) (temp : Int) (s : State) : OutTouches [.pins, .devState, .host, .cores, .links, .topo, .tests, .power, .meas, .sec, .sent] s (execLogicTempSample core temp s) := by
  unfold execLogicTempSample
  try dsimp only
  repeat' first
    | with_reducible exact .refl
    | with_reducible apply OutTouches.next
    | with_reducible exact OutTouches.fault
    | simp only [Touches.mk_iff, Touches.ite_iff]
    | with_reducible refine And.intro (fun _ => ?_) (fun _ => ?_)
    | ((with_reducible refine Leaf.of rfl (fun p hp => ?_) ?_); (cases p <;> first | exact absurd hp (by decide) | (show _ = _; with_reducible rfl) | rfl | (show _ = _; unfold openStep; split <;> rfl)))
    | ((with_reducible apply Touches.step (raiseEmer_touches _ _)); · decide)
    | ((with_reducible apply Touches.step (onCore__touches _ _ _)); · decide)
    | (with_reducible apply Touches.fold (fun _ _ => ?_))
    | split

theorem execHubHot_touches (temp : Int) (s : State) : OutTouches [.pins, .devState, .host, .cores, .links, .topo, .tests, .power, .meas, .sec, .sent] s (execHubHot temp s) := by
  unfold execHubHot
  try dsimp only
  repeat' first
    | with_reducible exact .refl
    | with_reducible apply OutTouches.next
    | with_reducible exact OutTouches.fault
    | simp only [Touches.mk_iff, Touches.ite_iff]
    | with_reducible refine And.intro (fun _ => ?_) (fun _ => ?_)
    | ((with_reducible refine Leaf.of rfl (fun p hp => ?_) ?_); (cases p <;> first | exact absurd hp (by decide) | (show _ = _; with_reducible rfl) | rfl | (show _ = _; unfold openStep; split <;> rfl)))
    | ((with_reducible apply Touches.step (raiseEmer_touches _ _)); · decide)
    | (with_reducible apply Touches.fold (fun _ _ => ?_))
    | split

theorem execCoolantInletOver_touches (temp : Int) (s : State) : OutTouches [.pins, .devState, .host, .cores, .links, .topo, .tests, .power, .meas, .sec, .sent] s (execCoolantInletOver temp s) := by
  unfold execCoolantInletOver
  try dsimp only
  repeat' first
    | with_reducible exact .refl
    | with_reducible apply OutTouches.next
    | with_reducible exact OutTouches.fault
    | simp only [Touches.mk_iff, Touches.ite_iff]
    | with_reducible refine And.intro (fun _ => ?_) (fun _ => ?_)
    | ((with_reducible refine Leaf.of rfl (fun p hp => ?_) ?_); (cases p <;> first | exact absurd hp (by decide) | (show _ = _; with_reducible rfl) | rfl | (show _ = _; unfold openStep; split <;> rfl)))
    | ((with_reducible apply Touches.step (raiseEmer_touches _ _)); · decide)
    | (with_reducible apply Touches.fold (fun _ _ => ?_))
    | split

theorem undelayed_touches (s : State) (p : Nat) : Touches [.dev] s (undelayed s p) := by
  unfold undelayed
  try dsimp only
  repeat' first
    | with_reducible exact .refl
    | simp only [Touches.mk_iff, Touches.ite_iff]
    | with_reducible refine And.intro (fun _ => ?_) (fun _ => ?_)
    | ((with_reducible refine Leaf.of rfl (fun p hp => ?_) ?_); (cases p <;> first | exact absurd hp (by decide) | (show _ = _; with_reducible rfl) | rfl | (show _ = _; unfold openStep; split <;> rfl)))

theorem railReset_touches (s : State) (r : Rail) : Touches [.devState, .dev, .domains, .dict, .owner, .host, .staging, .poison, .ctxs, .vers, .fetch, .results, .cores, .steps, .sync, .chans, .coll, .num, .place, .mem, .links, .topo, .ckpt, .ledger, .tests, .fenceSet, .recov, .fw, .meas, .sec, .sent, .free] s (railReset s r) := by
  unfold railReset
  try dsimp only
  repeat' first
    | with_reducible exact .refl
    | simp only [Touches.mk_iff, Touches.ite_iff]
    | with_reducible refine And.intro (fun _ => ?_) (fun _ => ?_)
    | ((with_reducible refine Leaf.of rfl (fun p hp => ?_) ?_); (cases p <;> first | exact absurd hp (by decide) | (show _ = _; with_reducible rfl) | rfl | (show _ = _; unfold openStep; split <;> rfl)))
    | ((with_reducible apply Touches.step (partReset_touches _ _ _)); · decide)
    | ((with_reducible apply Touches.step (undelayed_touches _ _)); · decide)
    | ((with_reducible apply Touches.step (modReset_touches _ _)); · decide)
    | (with_reducible apply Touches.fold (fun _ _ => ?_))
    | split

theorem execRegulatorFault_touches (r : Rail) (s : State) : OutTouches [.pins, .devState, .dev, .domains, .dict, .owner, .host, .staging, .poison, .ctxs, .vers, .fetch, .results, .cores, .steps, .sync, .chans, .coll, .num, .place, .mem, .links, .topo, .ckpt, .ledger, .tests, .fenceSet, .recov, .power, .fw, .meas, .sec, .sent, .free] s (execRegulatorFault r s) := by
  unfold execRegulatorFault
  try dsimp only
  repeat' first
    | with_reducible exact .refl
    | with_reducible apply OutTouches.next
    | with_reducible exact OutTouches.fault
    | simp only [Touches.mk_iff, Touches.ite_iff]
    | with_reducible refine And.intro (fun _ => ?_) (fun _ => ?_)
    | ((with_reducible refine Leaf.of rfl (fun p hp => ?_) ?_); (cases p <;> first | exact absurd hp (by decide) | (show _ = _; with_reducible rfl) | rfl | (show _ = _; unfold openStep; split <;> rfl)))
    | ((with_reducible apply Touches.step (raiseEmer_touches _ _)); · decide)
    | ((with_reducible apply Touches.step (railReset_touches _ _)); · decide)
    | (with_reducible apply Touches.fold (fun _ _ => ?_))
    | split

theorem execTelemetryTimeout_touches (s : State) : OutTouches [.pins, .devState, .host, .cores, .links, .topo, .tests, .power, .meas, .sec, .sent] s (execTelemetryTimeout s) := by
  unfold execTelemetryTimeout
  try dsimp only
  repeat' first
    | with_reducible exact .refl
    | with_reducible apply OutTouches.next
    | with_reducible exact OutTouches.fault
    | simp only [Touches.mk_iff, Touches.ite_iff]
    | with_reducible refine And.intro (fun _ => ?_) (fun _ => ?_)
    | ((with_reducible refine Leaf.of rfl (fun p hp => ?_) ?_); (cases p <;> first | exact absurd hp (by decide) | (show _ = _; with_reducible rfl) | rfl | (show _ = _; unfold openStep; split <;> rfl)))
    | ((with_reducible apply Touches.step (raiseEmer_touches _ _)); · decide)
    | (with_reducible apply Touches.fold (fun _ _ => ?_))
    | split

theorem tripped_touches (s : State) : Touches [.pins, .devState, .dev, .domains, .vals, .dict, .owner, .host, .staging, .poison, .ctxs, .load, .vers, .fetch, .results, .cores, .committed, .steps, .sync, .chans, .coll, .num, .place, .mem, .links, .topo, .ckpt, .ledger, .tests, .fenceSet, .recov, .power, .fw, .meas, .sec] s (tripped s) := by
  unfold tripped
  try dsimp only
  repeat' first
    | with_reducible exact .refl
    | simp only [Touches.mk_iff, Touches.ite_iff]
    | with_reducible refine And.intro (fun _ => ?_) (fun _ => ?_)
    | ((with_reducible refine Leaf.of rfl (fun p hp => ?_) ?_); (cases p <;> first | exact absurd hp (by decide) | (show _ = _; with_reducible rfl) | rfl | (show _ = _; unfold openStep; split <;> rfl)))
    | ((with_reducible apply Touches.step (packageOff_touches _)); · decide)
    | ((with_reducible apply Touches.step (resetLoss_touches _)); · decide)
    | ((with_reducible apply Touches.step (setAlert_touches _)); · decide)

theorem execThermalTrip_touches (s : State) : OutTouches [.pins, .devState, .dev, .domains, .vals, .dict, .owner, .host, .staging, .poison, .ctxs, .load, .vers, .fetch, .results, .cores, .committed, .steps, .sync, .chans, .coll, .num, .place, .mem, .links, .topo, .ckpt, .ledger, .tests, .fenceSet, .recov, .power, .fw, .meas, .sec] s (execThermalTrip s) := by
  unfold execThermalTrip
  try dsimp only
  repeat' first
    | with_reducible exact .refl
    | with_reducible apply OutTouches.next
    | with_reducible exact OutTouches.fault
    | simp only [Touches.mk_iff, Touches.ite_iff]
    | with_reducible refine And.intro (fun _ => ?_) (fun _ => ?_)
    | ((with_reducible refine Leaf.of rfl (fun p hp => ?_) ?_); (cases p <;> first | exact absurd hp (by decide) | (show _ = _; with_reducible rfl) | rfl | (show _ = _; unfold openStep; split <;> rfl)))
    | ((with_reducible apply Touches.step (tripped_touches _)); · decide)
    | (with_reducible apply Touches.fold (fun _ _ => ?_))
    | split

end Sys2Proof.Machine
end

