-- ==== Sys2Proof/Laws/TouchMemory.lean ====
section
/-! SUPPORT. What each operation and meaning of Machine/Memory.lean can change. -/

set_option linter.unusedSimpArgs false
set_option linter.unusedTactic false
set_option linter.unreachableTactic false

namespace Sys2Proof.Machine

theorem execMigrationPlanReady_touches (moves : List (Nat × Nat × Fin 8 × Nat)) (s : State) : OutTouches [.place] s (execMigrationPlanReady moves s) := by
  unfold execMigrationPlanReady
  try dsimp only
  repeat' first
    | with_reducible exact .refl
    | with_reducible apply OutTouches.next
    | with_reducible exact OutTouches.fault
    | simp only [Touches.mk_iff, Touches.ite_iff]
    | with_reducible refine And.intro (fun _ => ?_) (fun _ => ?_)
    | ((with_reducible refine Leaf.of rfl (fun p hp => ?_) ?_); (cases p <;> first | exact absurd hp (by decide) | (show _ = _; with_reducible rfl) | rfl | (show _ = _; unfold openStep; split <;> rfl)))
    | (with_reducible apply Touches.fold (fun _ _ => ?_))
    | split

theorem execMigrationCopyDone_touches (ctx : Nat) (tensor : Nat) (s : State) : OutTouches [.place] s (execMigrationCopyDone ctx tensor s) := by
  unfold execMigrationCopyDone
  try dsimp only
  repeat' first
    | with_reducible exact .refl
    | with_reducible apply OutTouches.next
    | with_reducible exact OutTouches.fault
    | simp only [Touches.mk_iff, Touches.ite_iff]
    | with_reducible refine And.intro (fun _ => ?_) (fun _ => ?_)
    | ((with_reducible refine Leaf.of rfl (fun p hp => ?_) ?_); (cases p <;> first | exact absurd hp (by decide) | (show _ = _; with_reducible rfl) | rfl | (show _ = _; unfold openStep; split <;> rfl)))

theorem migrationSet_touches (value : Nat) (s : State) : Touches [.vals, .dict, .place] s (migrationSet value s) := by
  unfold migrationSet
  try dsimp only
  repeat' first
    | with_reducible exact .refl
    | simp only [Touches.mk_iff, Touches.ite_iff]
    | with_reducible refine And.intro (fun _ => ?_) (fun _ => ?_)
    | ((with_reducible refine Leaf.of rfl (fun p hp => ?_) ?_); (cases p <;> first | exact absurd hp (by decide) | (show _ = _; with_reducible rfl) | rfl | (show _ = _; unfold openStep; split <;> rfl)))
    | ((with_reducible apply Touches.step (putValue_touches _ _ _)); · decide)

theorem execMigrationEnableWrite_touches (src : Src) (s : State) : OutTouches [.vals, .dict, .host, .place, .fw, .sent] s (execMigrationEnableWrite src s) := by
  unfold execMigrationEnableWrite
  try dsimp only
  repeat' first
    | with_reducible exact .refl
    | with_reducible apply OutTouches.next
    | with_reducible exact OutTouches.fault
    | simp only [Touches.mk_iff, Touches.ite_iff]
    | with_reducible refine And.intro (fun _ => ?_) (fun _ => ?_)
    | ((with_reducible refine Leaf.of rfl (fun p hp => ?_) ?_); (cases p <;> first | exact absurd hp (by decide) | (show _ = _; with_reducible rfl) | rfl | (show _ = _; unfold openStep; split <;> rfl)))
    | ((with_reducible apply Touches.step (migrationSet_touches _ _)); · decide)
    | ((with_reducible apply hostCommand_touches ?hw (fun _ => ?he)); case hw => decide)

theorem replacementFails_touches (s : State) (p : Nat) (task : Nat) : Touches [.devState, .dev, .host, .ctxs, .cores, .place, .links, .topo, .tests, .meas, .sec, .sent] s (replacementFails s p task) := by
  unfold replacementFails
  try dsimp only
  repeat' first
    | with_reducible exact .refl
    | simp only [Touches.mk_iff, Touches.ite_iff]
    | with_reducible refine And.intro (fun _ => ?_) (fun _ => ?_)
    | ((with_reducible refine Leaf.of rfl (fun p hp => ?_) ?_); (cases p <;> first | exact absurd hp (by decide) | (show _ = _; with_reducible rfl) | rfl | (show _ = _; unfold openStep; split <;> rfl)))
    | ((with_reducible apply Touches.step (haltCtx_touches _ _ _ _)); · decide)
    | ((with_reducible apply Touches.step (outOfService_touches _)); · decide)

theorem execReplacementDone_touches (fits : Bool) (part : Fin 8) (s : State) : OutTouches [.devState, .dev, .host, .ctxs, .cores, .place, .links, .topo, .tests, .meas, .sec, .sent] s (execReplacementDone fits part s) := by
  unfold execReplacementDone
  try dsimp only
  repeat' first
    | with_reducible exact .refl
    | with_reducible apply OutTouches.next
    | with_reducible exact OutTouches.fault
    | simp only [Touches.mk_iff, Touches.ite_iff]
    | with_reducible refine And.intro (fun _ => ?_) (fun _ => ?_)
    | ((with_reducible refine Leaf.of rfl (fun p hp => ?_) ?_); (cases p <;> first | exact absurd hp (by decide) | (show _ = _; with_reducible rfl) | rfl | (show _ = _; unfold openStep; split <;> rfl)))
    | ((with_reducible apply Touches.step (replacementFails_touches _ _ _)); · decide)
    | ((with_reducible apply Touches.step (replacementFits_touches _ _)); · decide)
    | (with_reducible apply Touches.fold (fun _ _ => ?_))
    | split

theorem sharesWritten_touches (value : Nat) (s : State) : Touches [.vals, .dict, .mem] s (sharesWritten value s) := by
  unfold sharesWritten
  try dsimp only
  repeat' first
    | with_reducible exact .refl
    | simp only [Touches.mk_iff, Touches.ite_iff]
    | with_reducible refine And.intro (fun _ => ?_) (fun _ => ?_)
    | ((with_reducible refine Leaf.of rfl (fun p hp => ?_) ?_); (cases p <;> first | exact absurd hp (by decide) | (show _ = _; with_reducible rfl) | rfl | (show _ = _; unfold openStep; split <;> rfl)))
    | ((with_reducible apply Touches.step (putValue_touches _ _ _)); · decide)

theorem execRegulatorSharesWrite_touches (src : Src) (value : BitVec 64) (s : State) : OutTouches [.vals, .dict, .host, .mem, .fw, .sent] s (execRegulatorSharesWrite src value s) := by
  unfold execRegulatorSharesWrite
  try dsimp only
  repeat' first
    | with_reducible exact .refl
    | with_reducible apply OutTouches.next
    | with_reducible exact OutTouches.fault
    | simp only [Touches.mk_iff, Touches.ite_iff]
    | with_reducible refine And.intro (fun _ => ?_) (fun _ => ?_)
    | ((with_reducible refine Leaf.of rfl (fun p hp => ?_) ?_); (cases p <;> first | exact absurd hp (by decide) | (show _ = _; with_reducible rfl) | rfl | (show _ = _; unfold openStep; split <;> rfl)))
    | ((with_reducible apply Touches.step (sharesWritten_touches _ _)); · decide)
    | ((with_reducible apply hostCommand_touches ?hw (fun _ => ?he)); case hw => decide)

theorem execPatrolScrub_touches (p : Fin 8) (err : Option Ecc) (passDone : Bool) (s : State) : OutTouches [.devState, .dev, .owner, .host, .poison, .ctxs, .vers, .fetch, .results, .cores, .steps, .sync, .chans, .coll, .num, .place, .mem, .links, .topo, .ledger, .tests, .fenceSet, .recov, .fw, .meas, .sec, .sent, .free] s (execPatrolScrub p err passDone s) := by
  unfold execPatrolScrub
  try dsimp only
  repeat' first
    | with_reducible exact .refl
    | with_reducible apply OutTouches.next
    | with_reducible exact OutTouches.fault
    | simp only [Touches.mk_iff, Touches.ite_iff]
    | with_reducible refine And.intro (fun _ => ?_) (fun _ => ?_)
    | ((with_reducible refine Leaf.of rfl (fun p hp => ?_) ?_); (cases p <;> first | exact absurd hp (by decide) | (show _ = _; with_reducible rfl) | rfl | (show _ = _; unfold openStep; split <;> rfl)))
    | ((with_reducible apply Touches.step (eccHit_touches _ _ _ _)); · decide)
    | (with_reducible apply Touches.fold (fun _ _ => ?_))
    | split

theorem execRowCopyDone_touches (p : Fin 8) (s : State) : OutTouches [.mem, .ledger, .fw, .free] s (execRowCopyDone p s) := by
  unfold execRowCopyDone
  try dsimp only
  repeat' first
    | with_reducible exact .refl
    | with_reducible apply OutTouches.next
    | with_reducible exact OutTouches.fault
    | simp only [Touches.mk_iff, Touches.ite_iff]
    | with_reducible refine And.intro (fun _ => ?_) (fun _ => ?_)
    | ((with_reducible refine Leaf.of rfl (fun p hp => ?_) ?_); (cases p <;> first | exact absurd hp (by decide) | (show _ = _; with_reducible rfl) | rfl | (show _ = _; unfold openStep; split <;> rfl)))
    | ((with_reducible apply Touches.step (faultEvent_touches _ _)); · decide)
    | (with_reducible apply Touches.fold (fun _ _ => ?_))
    | split

theorem execDramTempSample_touches (n : Fin 16) (temp : Option Int) (dieMax : Int) (s : State) : OutTouches [.pins, .devState, .host, .cores, .mem, .links, .topo, .ledger, .tests, .power, .fw, .meas, .sec, .sent, .free] s (execDramTempSample n temp dieMax s) := by
  unfold execDramTempSample
  try dsimp only
  repeat' first
    | with_reducible exact .refl
    | with_reducible apply OutTouches.next
    | with_reducible exact OutTouches.fault
    | simp only [Touches.mk_iff, Touches.ite_iff]
    | with_reducible refine And.intro (fun _ => ?_) (fun _ => ?_)
    | ((with_reducible refine Leaf.of rfl (fun p hp => ?_) ?_); (cases p <;> first | exact absurd hp (by decide) | (show _ = _; with_reducible rfl) | rfl | (show _ = _; unfold openStep; split <;> rfl)))
    | ((with_reducible apply Touches.step (raiseEmer_touches _ _)); · decide)
    | ((with_reducible apply Touches.step (faultEvent_touches _ _)); · decide)
    | (with_reducible apply Touches.fold (fun _ _ => ?_))
    | split

theorem apertureAccess_touches (s : State) (offset : Nat) (write : Option (List Byte)) (len : Nat) (err : Option Ecc) : Touches [.devState, .dev, .owner, .host, .staging, .poison, .ctxs, .vers, .fetch, .results, .cores, .steps, .sync, .chans, .coll, .num, .place, .mem, .links, .topo, .ledger, .tests, .fenceSet, .recov, .fw, .meas, .sec, .sent, .free] s (apertureAccess s offset write len err) := by
  unfold apertureAccess
  try dsimp only
  repeat' first
    | with_reducible exact .refl
    | simp only [Touches.mk_iff, Touches.ite_iff]
    | with_reducible refine And.intro (fun _ => ?_) (fun _ => ?_)
    | ((with_reducible refine Leaf.of rfl (fun p hp => ?_) ?_); (cases p <;> first | exact absurd hp (by decide) | (show _ = _; with_reducible rfl) | rfl | (show _ = _; unfold openStep; split <;> rfl)))
    | ((with_reducible apply Touches.step (emit_touches _ _)); · decide)
    | ((with_reducible apply Touches.step (eccHit_touches _ _ _ _)); · decide)
    | ((with_reducible apply Touches.step (stagePut_touches _ _ _)); · decide)
    | (with_reducible apply Touches.fold (fun _ _ => ?_))
    | split

theorem execCxlMemAccess_touches (offset : Nat) (write : Option (List Byte)) (len : Nat) (err : Option Ecc) (s : State) : OutTouches [.devState, .dev, .owner, .host, .staging, .poison, .ctxs, .vers, .fetch, .results, .cores, .steps, .sync, .chans, .coll, .num, .place, .mem, .links, .topo, .ledger, .tests, .fenceSet, .recov, .fw, .meas, .sec, .sent, .free] s (execCxlMemAccess offset write len err s) := by
  unfold execCxlMemAccess
  try dsimp only
  repeat' first
    | with_reducible exact .refl
    | with_reducible apply OutTouches.next
    | with_reducible exact OutTouches.fault
    | simp only [Touches.mk_iff, Touches.ite_iff]
    | with_reducible refine And.intro (fun _ => ?_) (fun _ => ?_)
    | ((with_reducible refine Leaf.of rfl (fun p hp => ?_) ?_); (cases p <;> first | exact absurd hp (by decide) | (show _ = _; with_reducible rfl) | rfl | (show _ = _; unfold openStep; split <;> rfl)))
    | ((with_reducible apply Touches.step (apertureAccess_touches _ _ _ _ _)); · decide)
    | ((with_reducible apply Touches.step (countIllegal_touches _ _ _ _ _)); · decide)
    | ((with_reducible apply Touches.step (emit_touches _ _)); · decide)
    | (with_reducible apply Touches.fold (fun _ _ => ?_))
    | split

end Sys2Proof.Machine
end

