-- ==== Sys2Proof/Laws/TouchHealth.lean ====
section
/-! SUPPORT. What each operation and meaning of Machine/Health.lean can change. -/

set_option linter.unusedSimpArgs false
set_option linter.unusedTactic false
set_option linter.unreachableTactic false

namespace Sys2Proof.Machine

theorem noneLeft_touches (s : State) : Touches [.devState, .dev, .host, .cores, .links, .topo, .tests, .meas, .sec, .sent] s (noneLeft s) := by
  unfold noneLeft
  try dsimp only
  repeat' first
    | with_reducible exact .refl
    | simp only [Touches.mk_iff, Touches.ite_iff]
    | with_reducible refine And.intro (fun _ => ?_) (fun _ => ?_)
    | ((with_reducible refine Leaf.of rfl (fun p hp => ?_) ?_); (cases p <;> first | exact absurd hp (by decide) | (show _ = _; with_reducible rfl) | rfl | (show _ = _; unfold openStep; split <;> rfl)))
    | ((with_reducible apply Touches.step (outOfService_touches _)); · decide)

theorem withhold_touches (s : State) (unit : Nat) : Touches [.devState, .dev, .host, .cores, .place, .links, .topo, .tests, .meas, .sec, .sent] s (withhold s unit) := by
  unfold withhold
  try dsimp only
  repeat' first
    | with_reducible exact .refl
    | simp only [Touches.mk_iff, Touches.ite_iff]
    | with_reducible refine And.intro (fun _ => ?_) (fun _ => ?_)
    | ((with_reducible refine Leaf.of rfl (fun p hp => ?_) ?_); (cases p <;> first | exact absurd hp (by decide) | (show _ = _; with_reducible rfl) | rfl | (show _ = _; unfold openStep; split <;> rfl)))
    | ((with_reducible apply Touches.step (noneLeft_touches _)); · decide)

theorem markRetired_touches (s : State) (u : LUnit) : Touches [.ledger] s (markRetired s u) := by
  unfold markRetired
  try dsimp only
  repeat' first
    | with_reducible exact .refl
    | simp only [Touches.mk_iff, Touches.ite_iff]
    | with_reducible refine And.intro (fun _ => ?_) (fun _ => ?_)
    | ((with_reducible refine Leaf.of rfl (fun p hp => ?_) ?_); (cases p <;> first | exact absurd hp (by decide) | (show _ = _; with_reducible rfl) | rfl | (show _ = _; unfold openStep; split <;> rfl)))

theorem retire_touches (s : State) (u : LUnit) : Touches [.devState, .dev, .owner, .host, .ctxs, .vers, .fetch, .results, .cores, .steps, .sync, .chans, .coll, .num, .place, .mem, .links, .topo, .ledger, .tests, .fenceSet, .recov, .fw, .meas, .sec, .sent, .free] s (retire s u) := by
  unfold retire
  try dsimp only
  repeat' first
    | with_reducible exact .refl
    | simp only [Touches.mk_iff, Touches.ite_iff]
    | with_reducible refine And.intro (fun _ => ?_) (fun _ => ?_)
    | ((with_reducible refine Leaf.of rfl (fun p hp => ?_) ?_); (cases p <;> first | exact absurd hp (by decide) | (show _ = _; with_reducible rfl) | rfl | (show _ = _; unfold openStep; split <;> rfl)))
    | ((with_reducible apply Touches.step (noneLeft_touches _)); · decide)
    | ((with_reducible apply Touches.step (withhold_touches _ _)); · decide)
    | ((with_reducible apply Touches.step (quarantine_touches _ _)); · decide)
    | ((with_reducible apply Touches.step (markRetired_touches _ _)); · decide)
    | (with_reducible apply Touches.fold (fun _ _ => ?_))
    | split

theorem classAct_touches (s : State) (r : LRec) (old : Nat) : Touches [.devState, .dev, .owner, .host, .ctxs, .vers, .fetch, .results, .cores, .steps, .sync, .chans, .coll, .num, .place, .mem, .links, .topo, .ledger, .tests, .fenceSet, .recov, .fw, .meas, .sec, .sent, .free] s (classAct s r old) := by
  unfold classAct
  try dsimp only
  repeat' first
    | with_reducible exact .refl
    | simp only [Touches.mk_iff, Touches.ite_iff]
    | with_reducible refine And.intro (fun _ => ?_) (fun _ => ?_)
    | ((with_reducible refine Leaf.of rfl (fun p hp => ?_) ?_); (cases p <;> first | exact absurd hp (by decide) | (show _ = _; with_reducible rfl) | rfl | (show _ = _; unfold openStep; split <;> rfl)))
    | ((with_reducible apply Touches.step (retire_touches _ _)); · decide)
    | ((with_reducible apply Touches.step (quarantine_touches _ _)); · decide)

theorem classed_touches (s : State) (e : LRec) (rest : List LRec) : Touches [.devState, .dev, .owner, .host, .ctxs, .vers, .fetch, .results, .cores, .steps, .sync, .chans, .coll, .num, .place, .mem, .links, .topo, .ledger, .tests, .fenceSet, .recov, .fw, .meas, .sec, .sent, .free] s (classed s e rest) := by
  unfold classed
  try dsimp only
  repeat' first
    | with_reducible exact .refl
    | simp only [Touches.mk_iff, Touches.ite_iff]
    | with_reducible refine And.intro (fun _ => ?_) (fun _ => ?_)
    | ((with_reducible refine Leaf.of rfl (fun p hp => ?_) ?_); (cases p <;> first | exact absurd hp (by decide) | (show _ = _; with_reducible rfl) | rfl | (show _ = _; unfold openStep; split <;> rfl)))
    | ((with_reducible apply Touches.step (classAct_touches _ _ _)); · decide)

theorem execLedgerEventClassed_touches (s : State) : OutTouches [.devState, .dev, .owner, .host, .ctxs, .vers, .fetch, .results, .cores, .steps, .sync, .chans, .coll, .num, .place, .mem, .links, .topo, .ledger, .tests, .fenceSet, .recov, .fw, .meas, .sec, .sent, .free] s (execLedgerEventClassed s) := by
  unfold execLedgerEventClassed
  try dsimp only
  repeat' first
    | with_reducible exact .refl
    | with_reducible apply OutTouches.next
    | with_reducible exact OutTouches.fault
    | simp only [Touches.mk_iff, Touches.ite_iff]
    | with_reducible refine And.intro (fun _ => ?_) (fun _ => ?_)
    | ((with_reducible refine Leaf.of rfl (fun p hp => ?_) ?_); (cases p <;> first | exact absurd hp (by decide) | (show _ = _; with_reducible rfl) | rfl | (show _ = _; unfold openStep; split <;> rfl)))
    | ((with_reducible apply Touches.step (classed_touches _ _ _)); · decide)
    | (with_reducible apply Touches.fold (fun _ _ => ?_))
    | split

theorem execLedgerRecordWritten_touches (s : State) : OutTouches [.clk, .host, .ledger, .sent] s (execLedgerRecordWritten s) := by
  unfold execLedgerRecordWritten
  try dsimp only
  repeat' first
    | with_reducible exact .refl
    | with_reducible apply OutTouches.next
    | with_reducible exact OutTouches.fault
    | simp only [Touches.mk_iff, Touches.ite_iff]
    | with_reducible refine And.intro (fun _ => ?_) (fun _ => ?_)
    | ((with_reducible refine Leaf.of rfl (fun p hp => ?_) ?_); (cases p <;> first | exact absurd hp (by decide) | (show _ = _; with_reducible rfl) | rfl | (show _ = _; unfold openStep; split <;> rfl)))
    | ((with_reducible apply Touches.step (post_touches _ _ _ _ _)); · decide)
    | (with_reducible apply Touches.fold (fun _ _ => ?_))
    | split

theorem execOptimeFlush_touches (s : State) : OutTouches [.clk] s (execOptimeFlush s) := by
  unfold execOptimeFlush
  try dsimp only
  repeat' first
    | with_reducible exact .refl
    | with_reducible apply OutTouches.next
    | with_reducible exact OutTouches.fault
    | simp only [Touches.mk_iff, Touches.ite_iff]
    | with_reducible refine And.intro (fun _ => ?_) (fun _ => ?_)
    | ((with_reducible refine Leaf.of rfl (fun p hp => ?_) ?_); (cases p <;> first | exact absurd hp (by decide) | (show _ = _; with_reducible rfl) | rfl | (show _ = _; unfold openStep; split <;> rfl)))
    | ((with_reducible apply Touches.step (reach_touches _ _)); · decide)
    | (with_reducible apply Touches.fold (fun _ _ => ?_))
    | split

theorem trotIssued_touches (s : State) (g : Nat) (pclass : Nat) : Touches [.clk, .cores, .tests] s (trotIssued s g pclass) := by
  unfold trotIssued
  try dsimp only
  repeat' first
    | with_reducible exact .refl
    | simp only [Touches.mk_iff, Touches.ite_iff]
    | with_reducible refine And.intro (fun _ => ?_) (fun _ => ?_)
    | ((with_reducible refine Leaf.of rfl (fun p hp => ?_) ?_); (cases p <;> first | exact absurd hp (by decide) | (show _ = _; with_reducible rfl) | rfl | (show _ = _; unfold openStep; split <;> rfl)))
    | ((with_reducible apply Touches.step (reach_touches _ _)); · decide)
    | ((with_reducible apply Touches.step (trotSweeps_touches _ _ _)); · decide)
    | (with_reducible apply Touches.fold (fun _ _ => ?_))
    | split

theorem execTrotPieceIssue_touches (core : Fin 136) (pclass : Nat) (s : State) : OutTouches [.clk, .cores, .tests] s (execTrotPieceIssue core pclass s) := by
  unfold execTrotPieceIssue
  try dsimp only
  repeat' first
    | with_reducible exact .refl
    | with_reducible apply OutTouches.next
    | with_reducible exact OutTouches.fault
    | simp only [Touches.mk_iff, Touches.ite_iff]
    | with_reducible refine And.intro (fun _ => ?_) (fun _ => ?_)
    | ((with_reducible refine Leaf.of rfl (fun p hp => ?_) ?_); (cases p <;> first | exact absurd hp (by decide) | (show _ = _; with_reducible rfl) | rfl | (show _ = _; unfold openStep; split <;> rfl)))
    | ((with_reducible apply Touches.step (trotIssued_touches _ _ _)); · decide)
    | (with_reducible apply Touches.fold (fun _ _ => ?_))
    | split

theorem execTrotPieceComplete_touches (digestOk : Bool) (s : State) : OutTouches [.cores, .ledger, .tests, .fw, .free] s (execTrotPieceComplete digestOk s) := by
  unfold execTrotPieceComplete
  try dsimp only
  repeat' first
    | with_reducible exact .refl
    | with_reducible apply OutTouches.next
    | with_reducible exact OutTouches.fault
    | simp only [Touches.mk_iff, Touches.ite_iff]
    | with_reducible refine And.intro (fun _ => ?_) (fun _ => ?_)
    | ((with_reducible refine Leaf.of rfl (fun p hp => ?_) ?_); (cases p <;> first | exact absurd hp (by decide) | (show _ = _; with_reducible rfl) | rfl | (show _ = _; unfold openStep; split <;> rfl)))
    | ((with_reducible apply Touches.step (trotEvent_touches _ _ _ _)); · decide)
    | ((with_reducible apply Touches.step (sweepsEnd_touches _ _ _)); · decide)
    | (with_reducible apply Touches.fold (fun _ _ => ?_))
    | split

theorem beginCell_touches (s : State) : Touches [.host, .ctxs, .cores, .links, .topo, .sent] s (beginCell s) := by
  unfold beginCell
  try dsimp only
  repeat' first
    | with_reducible exact .refl
    | simp only [Touches.mk_iff, Touches.ite_iff]
    | with_reducible refine And.intro (fun _ => ?_) (fun _ => ?_)
    | ((with_reducible refine Leaf.of rfl (fun p hp => ?_) ?_); (cases p <;> first | exact absurd hp (by decide) | (show _ = _; with_reducible rfl) | rfl | (show _ = _; unfold openStep; split <;> rfl)))
    | ((with_reducible apply Touches.step (leaveOn_touches _ _ _)); · decide)
    | ((with_reducible apply Touches.step (trotSweeps_touches _ _ _)); · decide)
    | ((with_reducible apply Touches.step (partLinkDown_touches _ _)); · decide)
    | (with_reducible apply Touches.fold (fun _ _ => ?_))
    | split

theorem pendingEnds_touches (s : State) (u : LUnit) : Touches [.ledger] s (pendingEnds s u) := by
  unfold pendingEnds
  try dsimp only
  repeat' first
    | with_reducible exact .refl
    | simp only [Touches.mk_iff, Touches.ite_iff]
    | with_reducible refine And.intro (fun _ => ?_) (fun _ => ?_)
    | ((with_reducible refine Leaf.of rfl (fun p hp => ?_) ?_); (cases p <;> first | exact absurd hp (by decide) | (show _ = _; with_reducible rfl) | rfl | (show _ = _; unfold openStep; split <;> rfl)))

theorem passCounted_touches (s : State) (u : LUnit) : Touches [.ledger, .tests] s (passCounted s u) := by
  unfold passCounted
  try dsimp only
  repeat' first
    | with_reducible exact .refl
    | simp only [Touches.mk_iff, Touches.ite_iff]
    | with_reducible refine And.intro (fun _ => ?_) (fun _ => ?_)
    | ((with_reducible refine Leaf.of rfl (fun p hp => ?_) ?_); (cases p <;> first | exact absurd hp (by decide) | (show _ = _; with_reducible rfl) | rfl | (show _ = _; unfold openStep; split <;> rfl)))
    | ((with_reducible apply Touches.step (pendingEnds_touches _ _)); · decide)

theorem gallopDone_touches (s : State) : Touches [.devState, .dev, .host, .cores, .links, .topo, .ledger, .tests, .meas, .sec, .sent] s (gallopDone s) := by
  unfold gallopDone
  try dsimp only
  repeat' first
    | with_reducible exact .refl
    | simp only [Touches.mk_iff, Touches.ite_iff]
    | with_reducible refine And.intro (fun _ => ?_) (fun _ => ?_)
    | ((with_reducible refine Leaf.of rfl (fun p hp => ?_) ?_); (cases p <;> first | exact absurd hp (by decide) | (show _ = _; with_reducible rfl) | rfl | (show _ = _; unfold openStep; split <;> rfl)))
    | ((with_reducible apply Touches.step (passCounted_touches _ _)); · decide)
    | ((with_reducible apply Touches.step (outOfService_touches _)); · decide)
    | (with_reducible apply Touches.fold (fun _ _ => ?_))

theorem nextCell_touches (s : State) : Touches [.devState, .dev, .host, .ctxs, .cores, .links, .topo, .ledger, .tests, .meas, .sec, .sent] s (nextCell s) := by
  unfold nextCell
  try dsimp only
  repeat' first
    | with_reducible exact .refl
    | simp only [Touches.mk_iff, Touches.ite_iff]
    | with_reducible refine And.intro (fun _ => ?_) (fun _ => ?_)
    | ((with_reducible refine Leaf.of rfl (fun p hp => ?_) ?_); (cases p <;> first | exact absurd hp (by decide) | (show _ = _; with_reducible rfl) | rfl | (show _ = _; unfold openStep; split <;> rfl)))
    | ((with_reducible apply Touches.step (beginCell_touches _)); · decide)
    | ((with_reducible apply Touches.step (gallopDone_touches _)); · decide)

theorem gallopBegin_touches (s : State) : Touches [.devState, .dev, .host, .ctxs, .cores, .links, .topo, .ledger, .tests, .meas, .sec, .sent] s (gallopBegin s) := by
  unfold gallopBegin
  try dsimp only
  repeat' first
    | with_reducible exact .refl
    | simp only [Touches.mk_iff, Touches.ite_iff]
    | with_reducible refine And.intro (fun _ => ?_) (fun _ => ?_)
    | ((with_reducible refine Leaf.of rfl (fun p hp => ?_) ?_); (cases p <;> first | exact absurd hp (by decide) | (show _ = _; with_reducible rfl) | rfl | (show _ = _; unfold openStep; split <;> rfl)))
    | ((with_reducible apply Touches.step (nextCell_touches _)); · decide)

theorem gallopAct_touches (value : Nat) (s : State) : Touches [.devState, .dev, .host, .ctxs, .cores, .links, .topo, .ledger, .tests, .meas, .sec, .sent] s (gallopAct value s) := by
  unfold gallopAct
  try dsimp only
  repeat' first
    | with_reducible exact .refl
    | simp only [Touches.mk_iff, Touches.ite_iff]
    | with_reducible refine And.intro (fun _ => ?_) (fun _ => ?_)
    | ((with_reducible refine Leaf.of rfl (fun p hp => ?_) ?_); (cases p <;> first | exact absurd hp (by decide) | (show _ = _; with_reducible rfl) | rfl | (show _ = _; unfold openStep; split <;> rfl)))
    | ((with_reducible apply Touches.step (gallopStop_touches _)); · decide)
    | ((with_reducible apply Touches.step (gallopBegin_touches _)); · decide)
    | (with_reducible apply Touches.fold (fun _ _ => ?_))
    | split

theorem execGallopStartCommand_touches (src : Src) (s : State) : OutTouches [.devState, .dev, .host, .ctxs, .cores, .links, .topo, .ledger, .tests, .fw, .meas, .sec, .sent] s (execGallopStartCommand src s) := by
  unfold execGallopStartCommand
  try dsimp only
  repeat' first
    | with_reducible exact .refl
    | with_reducible apply OutTouches.next
    | with_reducible exact OutTouches.fault
    | simp only [Touches.mk_iff, Touches.ite_iff]
    | with_reducible refine And.intro (fun _ => ?_) (fun _ => ?_)
    | ((with_reducible refine Leaf.of rfl (fun p hp => ?_) ?_); (cases p <;> first | exact absurd hp (by decide) | (show _ = _; with_reducible rfl) | rfl | (show _ = _; unfold openStep; split <;> rfl)))
    | ((with_reducible apply Touches.step (gallopAct_touches _ _)); · decide)
    | ((with_reducible apply hostCommand_touches ?hw (fun _ => ?he)); case hw => decide)

theorem execGallopStopCommand_touches (src : Src) (s : State) : OutTouches [.devState, .dev, .host, .ctxs, .cores, .links, .topo, .ledger, .tests, .fw, .meas, .sec, .sent] s (execGallopStopCommand src s) := by
  unfold execGallopStopCommand
  try dsimp only
  repeat' first
    | with_reducible exact .refl
    | with_reducible apply OutTouches.next
    | with_reducible exact OutTouches.fault
    | simp only [Touches.mk_iff, Touches.ite_iff]
    | with_reducible refine And.intro (fun _ => ?_) (fun _ => ?_)
    | ((with_reducible refine Leaf.of rfl (fun p hp => ?_) ?_); (cases p <;> first | exact absurd hp (by decide) | (show _ = _; with_reducible rfl) | rfl | (show _ = _; unfold openStep; split <;> rfl)))
    | ((with_reducible apply Touches.step (gallopAct_touches _ _)); · decide)
    | ((with_reducible apply hostCommand_touches ?hw (fun _ => ?he)); case hw => decide)

theorem execGallopAutoStart_touches (s : State) : OutTouches [.clk, .devState, .dev, .host, .ctxs, .cores, .links, .topo, .ledger, .tests, .meas, .sec, .sent] s (execGallopAutoStart s) := by
  unfold execGallopAutoStart
  try dsimp only
  repeat' first
    | with_reducible exact .refl
    | with_reducible apply OutTouches.next
    | with_reducible exact OutTouches.fault
    | simp only [Touches.mk_iff, Touches.ite_iff]
    | with_reducible refine And.intro (fun _ => ?_) (fun _ => ?_)
    | ((with_reducible refine Leaf.of rfl (fun p hp => ?_) ?_); (cases p <;> first | exact absurd hp (by decide) | (show _ = _; with_reducible rfl) | rfl | (show _ = _; unfold openStep; split <;> rfl)))
    | ((with_reducible apply Touches.step (reach_touches _ _)); · decide)
    | ((with_reducible apply Touches.step (gallopBegin_touches _)); · decide)
    | (with_reducible apply Touches.fold (fun _ _ => ?_))
    | split

theorem cellEvent_touches (s : State) (c : Cell) (cls : Nat) : Touches [.ledger, .fw, .free] s (cellEvent s c cls) := by
  unfold cellEvent
  try dsimp only
  repeat' first
    | with_reducible exact .refl
    | simp only [Touches.mk_iff, Touches.ite_iff]
    | with_reducible refine And.intro (fun _ => ?_) (fun _ => ?_)
    | ((with_reducible refine Leaf.of rfl (fun p hp => ?_) ?_); (cases p <;> first | exact absurd hp (by decide) | (show _ = _; with_reducible rfl) | rfl | (show _ = _; unfold openStep; split <;> rfl)))
    | ((with_reducible apply Touches.step (faultEvent_touches _ _)); · decide)

theorem cellFails_touches (s : State) (c : Cell) (rest : List Cell) : Touches [.devState, .dev, .host, .ctxs, .cores, .links, .topo, .ledger, .tests, .fw, .meas, .sec, .sent, .free] s (cellFails s c rest) := by
  unfold cellFails
  try dsimp only
  repeat' first
    | with_reducible exact .refl
    | simp only [Touches.mk_iff, Touches.ite_iff]
    | with_reducible refine And.intro (fun _ => ?_) (fun _ => ?_)
    | ((with_reducible refine Leaf.of rfl (fun p hp => ?_) ?_); (cases p <;> first | exact absurd hp (by decide) | (show _ = _; with_reducible rfl) | rfl | (show _ = _; unfold openStep; split <;> rfl)))
    | ((with_reducible apply Touches.step (cellEvent_touches _ _ _)); · decide)
    | ((with_reducible apply Touches.step (endCell_touches _)); · decide)
    | ((with_reducible apply Touches.step (nextCell_touches _)); · decide)

theorem cellSweeps_touches (s : State) (c : Cell) : Touches [.cores] s (cellSweeps s c) := by
  unfold cellSweeps
  try dsimp only
  repeat' first
    | with_reducible exact .refl
    | simp only [Touches.mk_iff, Touches.ite_iff]
    | with_reducible refine And.intro (fun _ => ?_) (fun _ => ?_)
    | ((with_reducible refine Leaf.of rfl (fun p hp => ?_) ?_); (cases p <;> first | exact absurd hp (by decide) | (show _ = _; with_reducible rfl) | rfl | (show _ = _; unfold openStep; split <;> rfl)))
    | ((with_reducible apply Touches.step (sweepsEnd_touches _ _ _)); · decide)
    | (with_reducible apply Touches.fold (fun _ _ => ?_))

theorem execGallopCellComplete_touches (failed : Bool) (s : State) : OutTouches [.devState, .dev, .host, .ctxs, .cores, .links, .topo, .ledger, .tests, .fw, .meas, .sec, .sent, .free] s (execGallopCellComplete failed s) := by
  unfold execGallopCellComplete
  try dsimp only
  repeat' first
    | with_reducible exact .refl
    | with_reducible apply OutTouches.next
    | with_reducible exact OutTouches.fault
    | simp only [Touches.mk_iff, Touches.ite_iff]
    | with_reducible refine And.intro (fun _ => ?_) (fun _ => ?_)
    | ((with_reducible refine Leaf.of rfl (fun p hp => ?_) ?_); (cases p <;> first | exact absurd hp (by decide) | (show _ = _; with_reducible rfl) | rfl | (show _ = _; unfold openStep; split <;> rfl)))
    | ((with_reducible apply Touches.step (endCell_touches _)); · decide)
    | ((with_reducible apply Touches.step (nextCell_touches _)); · decide)
    | ((with_reducible apply Touches.step (cellSweeps_touches _ _)); · decide)
    | ((with_reducible apply Touches.step (cellFails_touches _ _ _)); · decide)
    | ((with_reducible apply Touches.step (hwRequest_touches _ _ _)); · decide)
    | (with_reducible apply Touches.fold (fun _ _ => ?_))
    | split

theorem probeEvent_touches {W : List StatePart} {s e : State} {g : Nat} {c : Instr} (hw : partsWithin [.fw] W = true) (he : Touches W s e) :
    OutTouches W s (probeEvent s g c e) := by
  unfold probeEvent
  split
  · exact .next he
  · split
    · exact .next (.step ((hwRequest_touches _ _ _).mono (by decide : partsWithin _ [.fw] = true)) hw .refl)
    · exact .next .refl

theorem probeFails_touches (s : State) (g : Nat) : Touches [.devState, .dev, .owner, .host, .ctxs, .vers, .fetch, .results, .cores, .steps, .sync, .chans, .coll, .num, .place, .mem, .links, .topo, .ledger, .tests, .fenceSet, .recov, .fw, .meas, .sec, .sent, .free] s (probeFails s g) := by
  unfold probeFails
  try dsimp only
  repeat' first
    | with_reducible exact .refl
    | simp only [Touches.mk_iff, Touches.ite_iff]
    | with_reducible refine And.intro (fun _ => ?_) (fun _ => ?_)
    | ((with_reducible refine Leaf.of rfl (fun p hp => ?_) ?_); (cases p <;> first | exact absurd hp (by decide) | (show _ = _; with_reducible rfl) | rfl | (show _ = _; unfold openStep; split <;> rfl)))
    | ((with_reducible apply Touches.step (onCore__touches _ _ _)); · decide)
    | ((with_reducible apply Touches.step (quarantine_touches _ _)); · decide)
    | ((with_reducible apply Touches.step (coreReset_touches _ _)); · decide)

theorem execCoreProbeDone_touches (core : Fin 136) (digestOk : Bool) (s : State) : OutTouches [.devState, .dev, .owner, .host, .ctxs, .vers, .fetch, .results, .cores, .steps, .sync, .chans, .coll, .num, .place, .mem, .links, .topo, .ledger, .tests, .fenceSet, .recov, .fw, .meas, .sec, .sent, .free] s (execCoreProbeDone core digestOk s) := by
  unfold execCoreProbeDone
  try dsimp only
  repeat' first
    | with_reducible exact .refl
    | with_reducible apply OutTouches.next
    | with_reducible exact OutTouches.fault
    | simp only [Touches.mk_iff, Touches.ite_iff]
    | with_reducible refine And.intro (fun _ => ?_) (fun _ => ?_)
    | ((with_reducible refine Leaf.of rfl (fun p hp => ?_) ?_); (cases p <;> first | exact absurd hp (by decide) | (show _ = _; with_reducible rfl) | rfl | (show _ = _; unfold openStep; split <;> rfl)))
    | ((with_reducible apply Touches.step (trotEvent_touches _ _ _ _)); · decide)
    | ((with_reducible apply Touches.step (probeFails_touches _ _)); · decide)
    | ((with_reducible apply Touches.step (sweepsEnd_touches _ _ _)); · decide)
    | ((with_reducible apply Touches.step (onCore__touches _ _ _)); · decide)
    | ((with_reducible refine probeEvent_touches ?hw ?he); case hw => decide)
    | (with_reducible apply Touches.fold (fun _ _ => ?_))
    | split

theorem execCoreProbeTimeout_touches (core : Fin 136) (s : State) : OutTouches [.devState, .dev, .owner, .host, .ctxs, .vers, .fetch, .results, .cores, .steps, .sync, .chans, .coll, .num, .place, .mem, .links, .topo, .ledger, .tests, .fenceSet, .recov, .fw, .meas, .sec, .sent, .free] s (execCoreProbeTimeout core s) := by
  unfold execCoreProbeTimeout
  try dsimp only
  repeat' first
    | with_reducible exact .refl
    | with_reducible apply OutTouches.next
    | with_reducible exact OutTouches.fault
    | simp only [Touches.mk_iff, Touches.ite_iff]
    | with_reducible refine And.intro (fun _ => ?_) (fun _ => ?_)
    | ((with_reducible refine Leaf.of rfl (fun p hp => ?_) ?_); (cases p <;> first | exact absurd hp (by decide) | (show _ = _; with_reducible rfl) | rfl | (show _ = _; unfold openStep; split <;> rfl)))
    | ((with_reducible apply Touches.step (probeFails_touches _ _)); · decide)
    | ((with_reducible refine probeEvent_touches ?hw ?he); case hw => decide)
    | (with_reducible apply Touches.fold (fun _ _ => ?_))
    | split

theorem probeSweeps_touches (s : State) (g : Nat) : Touches [.cores] s (probeSweeps s g) := by
  unfold probeSweeps
  try dsimp only
  repeat' first
    | with_reducible exact .refl
    | simp only [Touches.mk_iff, Touches.ite_iff]
    | with_reducible refine And.intro (fun _ => ?_) (fun _ => ?_)
    | ((with_reducible refine Leaf.of rfl (fun p hp => ?_) ?_); (cases p <;> first | exact absurd hp (by decide) | (show _ = _; with_reducible rfl) | rfl | (show _ = _; unfold openStep; split <;> rfl)))
    | ((with_reducible apply Touches.step (trotSweeps_touches _ _ _)); · decide)

theorem execCoreResetDone_touches (core : Fin 136) (s : State) : OutTouches [.cores, .fw] s (execCoreResetDone core s) := by
  unfold execCoreResetDone
  try dsimp only
  repeat' first
    | with_reducible exact .refl
    | with_reducible apply OutTouches.next
    | with_reducible exact OutTouches.fault
    | simp only [Touches.mk_iff, Touches.ite_iff]
    | with_reducible refine And.intro (fun _ => ?_) (fun _ => ?_)
    | ((with_reducible refine Leaf.of rfl (fun p hp => ?_) ?_); (cases p <;> first | exact absurd hp (by decide) | (show _ = _; with_reducible rfl) | rfl | (show _ = _; unfold openStep; split <;> rfl)))
    | ((with_reducible apply Touches.step (onCore__touches _ _ _)); · decide)
    | ((with_reducible apply Touches.step (probeSweeps_touches _ _)); · decide)
    | ((with_reducible refine probeEvent_touches ?hw ?he); case hw => decide)
    | (with_reducible apply Touches.fold (fun _ _ => ?_))
    | split

theorem hubReset_touches (s : State) : Touches [.pins, .devState, .dev, .domains, .vals, .dict, .owner, .host, .staging, .poison, .ctxs, .load, .vers, .fetch, .results, .cores, .committed, .steps, .sync, .chans, .coll, .num, .place, .mem, .links, .topo, .ckpt, .ledger, .tests, .fenceSet, .recov, .power, .fw, .meas, .sec, .sent, .free] s (hubReset s) := by
  unfold hubReset
  try dsimp only
  repeat' first
    | with_reducible exact .refl
    | simp only [Touches.mk_iff, Touches.ite_iff]
    | with_reducible refine And.intro (fun _ => ?_) (fun _ => ?_)
    | ((with_reducible refine Leaf.of rfl (fun p hp => ?_) ?_); (cases p <;> first | exact absurd hp (by decide) | (show _ = _; with_reducible rfl) | rfl | (show _ = _; unfold openStep; split <;> rfl)))
    | ((with_reducible apply Touches.step (modReset_touches _ _)); · decide)
    | ((with_reducible apply Touches.step (modResetRun_touches _ _)); · decide)
    | ((with_reducible apply Touches.step (packageOff_touches _)); · decide)
    | ((with_reducible apply Touches.step (resetLoss_touches _)); · decide)
    | ((with_reducible apply Touches.step (bankReverted_touches _ _)); · decide)
    | ((with_reducible apply Touches.step (setAlert_touches _)); · decide)

theorem execHubWatchdogExpiry_touches (s : State) : OutTouches [.pins, .devState, .dev, .domains, .vals, .dict, .owner, .host, .staging, .poison, .ctxs, .load, .vers, .fetch, .results, .cores, .committed, .steps, .sync, .chans, .coll, .num, .place, .mem, .links, .topo, .ckpt, .ledger, .tests, .fenceSet, .recov, .power, .fw, .meas, .sec, .sent, .free] s (execHubWatchdogExpiry s) := by
  unfold execHubWatchdogExpiry
  try dsimp only
  repeat' first
    | with_reducible exact .refl
    | with_reducible apply OutTouches.next
    | with_reducible exact OutTouches.fault
    | simp only [Touches.mk_iff, Touches.ite_iff]
    | with_reducible refine And.intro (fun _ => ?_) (fun _ => ?_)
    | ((with_reducible refine Leaf.of rfl (fun p hp => ?_) ?_); (cases p <;> first | exact absurd hp (by decide) | (show _ = _; with_reducible rfl) | rfl | (show _ = _; unfold openStep; split <;> rfl)))
    | ((with_reducible apply Touches.step (modReset_touches _ _)); · decide)
    | ((with_reducible apply Touches.step (flashSummary_touches _ _ _ _)); · decide)
    | ((with_reducible apply Touches.step (hubReset_touches _)); · decide)
    | (with_reducible apply Touches.fold (fun _ _ => ?_))
    | split

theorem historiesCleared_touches (s : State) : Touches [.recov] s (historiesCleared s) := by
  unfold historiesCleared
  try dsimp only
  repeat' first
    | with_reducible exact .refl
    | simp only [Touches.mk_iff, Touches.ite_iff]
    | with_reducible refine And.intro (fun _ => ?_) (fun _ => ?_)
    | ((with_reducible refine Leaf.of rfl (fun p hp => ?_) ?_); (cases p <;> first | exact absurd hp (by decide) | (show _ = _; with_reducible rfl) | rfl | (show _ = _; unfold openStep; split <;> rfl)))

theorem execEscalationClear_touches (src : Src) (s : State) : OutTouches [.host, .recov, .fw, .sent] s (execEscalationClear src s) := by
  unfold execEscalationClear
  try dsimp only
  repeat' first
    | with_reducible exact .refl
    | with_reducible apply OutTouches.next
    | with_reducible exact OutTouches.fault
    | simp only [Touches.mk_iff, Touches.ite_iff]
    | with_reducible refine And.intro (fun _ => ?_) (fun _ => ?_)
    | ((with_reducible refine Leaf.of rfl (fun p hp => ?_) ?_); (cases p <;> first | exact absurd hp (by decide) | (show _ = _; with_reducible rfl) | rfl | (show _ = _; unfold openStep; split <;> rfl)))
    | ((with_reducible apply Touches.step (historiesCleared_touches _)); · decide)
    | ((with_reducible apply hostCommand_touches ?hw (fun _ => ?he)); case hw => decide)

end Sys2Proof.Machine
end

