-- ==== Sys2Proof/Laws/TouchFirmware.lean ====
section
/-! SUPPORT. What each operation and meaning of Machine/Firmware.lean can change. -/

set_option linter.unusedSimpArgs false
set_option linter.unusedTactic false
set_option linter.unreachableTactic false

namespace Sys2Proof.Machine

theorem restartBegins_touches (s : State) (o : Nat) (trig : Nat) : Touches [.fw] s (restartBegins s o trig) := by
  unfold restartBegins
  try dsimp only
  repeat' first
    | with_reducible exact .refl
    | simp only [Touches.mk_iff, Touches.ite_iff]
    | with_reducible refine And.intro (fun _ => ?_) (fun _ => ?_)
    | ((with_reducible refine Leaf.of rfl (fun p hp => ?_) ?_); (cases p <;> first | exact absurd hp (by decide) | (show _ = _; with_reducible rfl) | rfl | (show _ = _; unfold openStep; split <;> rfl)))
    | ((with_reducible apply Touches.step (onOstler_touches _ _ _)); · decide)

theorem ostlerReset_touches (s : State) (o : Nat) (trig : Nat) : Touches [.pins, .devState, .dev, .domains, .vals, .dict, .owner, .host, .staging, .poison, .ctxs, .load, .vers, .fetch, .results, .cores, .committed, .steps, .sync, .chans, .coll, .num, .place, .mem, .links, .topo, .ckpt, .ledger, .tests, .fenceSet, .recov, .power, .fw, .meas, .sec, .sent, .free] s (ostlerReset s o trig) := by
  unfold ostlerReset
  try dsimp only
  repeat' first
    | with_reducible exact .refl
    | simp only [Touches.mk_iff, Touches.ite_iff]
    | with_reducible refine And.intro (fun _ => ?_) (fun _ => ?_)
    | ((with_reducible refine Leaf.of rfl (fun p hp => ?_) ?_); (cases p <;> first | exact absurd hp (by decide) | (show _ = _; with_reducible rfl) | rfl | (show _ = _; unfold openStep; split <;> rfl)))
    | ((with_reducible apply Touches.step (fullDump_touches _ _ _ _ _ _)); · decide)
    | ((with_reducible apply Touches.step (flashSummary_touches _ _ _ _)); · decide)
    | ((with_reducible apply Touches.step (hubReset_touches _)); · decide)
    | ((with_reducible apply Touches.step (partReset_touches _ _ _)); · decide)

theorem restartFails_touches (s : State) (o : Nat) (trig : Nat) : Touches [.pins, .devState, .dev, .domains, .vals, .dict, .owner, .host, .staging, .poison, .ctxs, .load, .vers, .fetch, .results, .cores, .committed, .steps, .sync, .chans, .coll, .num, .place, .mem, .links, .topo, .ckpt, .ledger, .tests, .fenceSet, .recov, .power, .fw, .meas, .sec, .sent, .free] s (restartFails s o trig) := by
  unfold restartFails
  try dsimp only
  repeat' first
    | with_reducible exact .refl
    | simp only [Touches.mk_iff, Touches.ite_iff]
    | with_reducible refine And.intro (fun _ => ?_) (fun _ => ?_)
    | ((with_reducible refine Leaf.of rfl (fun p hp => ?_) ?_); (cases p <;> first | exact absurd hp (by decide) | (show _ = _; with_reducible rfl) | rfl | (show _ = _; unfold openStep; split <;> rfl)))
    | ((with_reducible apply Touches.step (onOstler_touches _ _ _)); · decide)
    | ((with_reducible apply Touches.step (ostlerReset_touches _ _ _)); · decide)
    | ((with_reducible apply Touches.step (restartBegins_touches _ _ _)); · decide)

theorem ostlerStops_touches (s : State) (o : Nat) (trig : Nat) : Touches [.pins, .devState, .dev, .domains, .vals, .dict, .owner, .host, .staging, .poison, .ctxs, .load, .vers, .fetch, .results, .cores, .committed, .steps, .sync, .chans, .coll, .num, .place, .mem, .links, .topo, .ckpt, .ledger, .tests, .fenceSet, .recov, .power, .fw, .meas, .sec, .sent, .free] s (ostlerStops s o trig) := by
  unfold ostlerStops
  try dsimp only
  repeat' first
    | with_reducible exact .refl
    | simp only [Touches.mk_iff, Touches.ite_iff]
    | with_reducible refine And.intro (fun _ => ?_) (fun _ => ?_)
    | ((with_reducible refine Leaf.of rfl (fun p hp => ?_) ?_); (cases p <;> first | exact absurd hp (by decide) | (show _ = _; with_reducible rfl) | rfl | (show _ = _; unfold openStep; split <;> rfl)))
    | ((with_reducible apply Touches.step (restartBegins_touches _ _ _)); · decide)
    | ((with_reducible apply Touches.step (restartFails_touches _ _ _)); · decide)

theorem execOstlerTrap_touches (o : Fin 12) (s : State) : OutTouches [.pins, .devState, .dev, .domains, .vals, .dict, .owner, .host, .staging, .poison, .ctxs, .load, .vers, .fetch, .results, .cores, .committed, .steps, .sync, .chans, .coll, .num, .place, .mem, .links, .topo, .ckpt, .ledger, .tests, .fenceSet, .recov, .power, .fw, .meas, .sec, .sent, .free] s (execOstlerTrap o s) := by
  unfold execOstlerTrap
  try dsimp only
  repeat' first
    | with_reducible exact .refl
    | with_reducible apply OutTouches.next
    | with_reducible exact OutTouches.fault
    | simp only [Touches.mk_iff, Touches.ite_iff]
    | with_reducible refine And.intro (fun _ => ?_) (fun _ => ?_)
    | ((with_reducible refine Leaf.of rfl (fun p hp => ?_) ?_); (cases p <;> first | exact absurd hp (by decide) | (show _ = _; with_reducible rfl) | rfl | (show _ = _; unfold openStep; split <;> rfl)))
    | ((with_reducible apply Touches.step (ostlerStops_touches _ _ _)); · decide)

theorem execOstlerWatchdogExpiry_touches (o : Fin 12) (s : State) : OutTouches [.pins, .devState, .dev, .domains, .vals, .dict, .owner, .host, .staging, .poison, .ctxs, .load, .vers, .fetch, .results, .cores, .committed, .steps, .sync, .chans, .coll, .num, .place, .mem, .links, .topo, .ckpt, .ledger, .tests, .fenceSet, .recov, .power, .fw, .meas, .sec, .sent, .free] s (execOstlerWatchdogExpiry o s) := by
  unfold execOstlerWatchdogExpiry
  try dsimp only
  repeat' first
    | with_reducible exact .refl
    | with_reducible apply OutTouches.next
    | with_reducible exact OutTouches.fault
    | simp only [Touches.mk_iff, Touches.ite_iff]
    | with_reducible refine And.intro (fun _ => ?_) (fun _ => ?_)
    | ((with_reducible refine Leaf.of rfl (fun p hp => ?_) ?_); (cases p <;> first | exact absurd hp (by decide) | (show _ = _; with_reducible rfl) | rfl | (show _ = _; unfold openStep; split <;> rfl)))
    | ((with_reducible apply Touches.step (ostlerStops_touches _ _ _)); · decide)

theorem ostlerAct_touches (value : Nat) (s : State) : Touches [.fw] s (ostlerAct value s) := by
  unfold ostlerAct
  try dsimp only
  repeat' first
    | with_reducible exact .refl
    | simp only [Touches.mk_iff, Touches.ite_iff]
    | with_reducible refine And.intro (fun _ => ?_) (fun _ => ?_)
    | ((with_reducible refine Leaf.of rfl (fun p hp => ?_) ?_); (cases p <;> first | exact absurd hp (by decide) | (show _ = _; with_reducible rfl) | rfl | (show _ = _; unfold openStep; split <;> rfl)))
    | ((with_reducible apply Touches.step (restartBegins_touches _ _ _)); · decide)

theorem execOstlerRestartCommand_touches (src : Src) (o : Fin 16) (s : State) : OutTouches [.host, .fw, .sent] s (execOstlerRestartCommand src o s) := by
  unfold execOstlerRestartCommand
  try dsimp only
  repeat' first
    | with_reducible exact .refl
    | with_reducible apply OutTouches.next
    | with_reducible exact OutTouches.fault
    | simp only [Touches.mk_iff, Touches.ite_iff]
    | with_reducible refine And.intro (fun _ => ?_) (fun _ => ?_)
    | ((with_reducible refine Leaf.of rfl (fun p hp => ?_) ?_); (cases p <;> first | exact absurd hp (by decide) | (show _ = _; with_reducible rfl) | rfl | (show _ = _; unfold openStep; split <;> rfl)))
    | ((with_reducible apply Touches.step (ostlerAct_touches _ _)); · decide)
    | ((with_reducible apply hostCommand_touches ?hw (fun _ => ?he)); case hw => decide)

theorem execOstlerDumpCommand_touches (src : Src) (o : Fin 16) (s : State) : OutTouches [.host, .fw, .sent] s (execOstlerDumpCommand src o s) := by
  unfold execOstlerDumpCommand
  try dsimp only
  repeat' first
    | with_reducible exact .refl
    | with_reducible apply OutTouches.next
    | with_reducible exact OutTouches.fault
    | simp only [Touches.mk_iff, Touches.ite_iff]
    | with_reducible refine And.intro (fun _ => ?_) (fun _ => ?_)
    | ((with_reducible refine Leaf.of rfl (fun p hp => ?_) ?_); (cases p <;> first | exact absurd hp (by decide) | (show _ = _; with_reducible rfl) | rfl | (show _ = _; unfold openStep; split <;> rfl)))
    | ((with_reducible apply Touches.step (ostlerAct_touches _ _)); · decide)
    | ((with_reducible apply hostCommand_touches ?hw (fun _ => ?he)); case hw => decide)

theorem ostlerDumped_touches (s : State) (o : Nat) (trig : Nat) (stamp : Nat) (n : Nat) (digestOk : Bool) (timeouts : Nat) (truncated : Bool) (size : Nat) : Touches [.pins, .devState, .dev, .domains, .vals, .dict, .owner, .host, .staging, .poison, .ctxs, .load, .vers, .fetch, .results, .cores, .committed, .steps, .sync, .chans, .coll, .num, .place, .mem, .links, .topo, .ckpt, .ledger, .tests, .fenceSet, .recov, .power, .fw, .meas, .sec, .sent, .free] s (ostlerDumped s o trig stamp n digestOk timeouts truncated size) := by
  unfold ostlerDumped
  try dsimp only
  repeat' first
    | with_reducible exact .refl
    | simp only [Touches.mk_iff, Touches.ite_iff]
    | with_reducible refine And.intro (fun _ => ?_) (fun _ => ?_)
    | ((with_reducible refine Leaf.of rfl (fun p hp => ?_) ?_); (cases p <;> first | exact absurd hp (by decide) | (show _ = _; with_reducible rfl) | rfl | (show _ = _; unfold openStep; split <;> rfl)))
    | ((with_reducible apply Touches.step (restartFails_touches _ _ _)); · decide)
    | ((with_reducible apply Touches.step (onOstler_touches _ _ _)); · decide)
    | ((with_reducible apply Touches.step (drawn_touches _)); · decide)
    | ((with_reducible apply Touches.step (storeDump_touches _ _ _ _)); · decide)

theorem execOstlerDumpDone_touches (o : Fin 12) (digestOk : Bool) (timeouts : Nat) (truncated : Bool) (size : Nat) (s : State) : OutTouches [.pins, .devState, .dev, .domains, .vals, .dict, .owner, .host, .staging, .poison, .ctxs, .load, .vers, .fetch, .results, .cores, .committed, .steps, .sync, .chans, .coll, .num, .place, .mem, .links, .topo, .ckpt, .ledger, .tests, .fenceSet, .recov, .power, .fw, .meas, .sec, .sent, .free] s (execOstlerDumpDone o digestOk timeouts truncated size s) := by
  unfold execOstlerDumpDone
  try dsimp only
  repeat' first
    | with_reducible exact .refl
    | with_reducible apply OutTouches.next
    | with_reducible exact OutTouches.fault
    | simp only [Touches.mk_iff, Touches.ite_iff]
    | with_reducible refine And.intro (fun _ => ?_) (fun _ => ?_)
    | ((with_reducible refine Leaf.of rfl (fun p hp => ?_) ?_); (cases p <;> first | exact absurd hp (by decide) | (show _ = _; with_reducible rfl) | rfl | (show _ = _; unfold openStep; split <;> rfl)))
    | ((with_reducible apply Touches.step (ostlerDumped_touches _ _ _ _ _ _ _ _ _)); · decide)
    | (with_reducible apply Touches.fold (fun _ _ => ?_))
    | split

theorem execOstlerReadyTimeout_touches (o : Fin 12) (s : State) : OutTouches [.pins, .devState, .dev, .domains, .vals, .dict, .owner, .host, .staging, .poison, .ctxs, .load, .vers, .fetch, .results, .cores, .committed, .steps, .sync, .chans, .coll, .num, .place, .mem, .links, .topo, .ckpt, .ledger, .tests, .fenceSet, .recov, .power, .fw, .meas, .sec, .sent, .free] s (execOstlerReadyTimeout o s) := by
  unfold execOstlerReadyTimeout
  try dsimp only
  repeat' first
    | with_reducible exact .refl
    | with_reducible apply OutTouches.next
    | with_reducible exact OutTouches.fault
    | simp only [Touches.mk_iff, Touches.ite_iff]
    | with_reducible refine And.intro (fun _ => ?_) (fun _ => ?_)
    | ((with_reducible refine Leaf.of rfl (fun p hp => ?_) ?_); (cases p <;> first | exact absurd hp (by decide) | (show _ = _; with_reducible rfl) | rfl | (show _ = _; unfold openStep; split <;> rfl)))
    | ((with_reducible apply Touches.step (restartFails_touches _ _ _)); · decide)
    | (with_reducible apply Touches.fold (fun _ _ => ?_))
    | split

theorem farrierRestarts_touches (s : State) : Touches [.fw, .free] s (farrierRestarts s) := by
  unfold farrierRestarts
  try dsimp only
  repeat' first
    | with_reducible exact .refl
    | simp only [Touches.mk_iff, Touches.ite_iff]
    | with_reducible refine And.intro (fun _ => ?_) (fun _ => ?_)
    | ((with_reducible refine Leaf.of rfl (fun p hp => ?_) ?_); (cases p <;> first | exact absurd hp (by decide) | (show _ = _; with_reducible rfl) | rfl | (show _ = _; unfold openStep; split <;> rfl)))
    | ((with_reducible apply Touches.step (activateTypes_touches _ _)); · decide)
    | ((with_reducible apply Touches.step (bootAttempt_touches _ _)); · decide)

theorem execFarrierWatchdogExpiry_touches (s : State) : OutTouches [.fw, .free] s (execFarrierWatchdogExpiry s) := by
  unfold execFarrierWatchdogExpiry
  try dsimp only
  repeat' first
    | with_reducible exact .refl
    | with_reducible apply OutTouches.next
    | with_reducible exact OutTouches.fault
    | simp only [Touches.mk_iff, Touches.ite_iff]
    | with_reducible refine And.intro (fun _ => ?_) (fun _ => ?_)
    | ((with_reducible refine Leaf.of rfl (fun p hp => ?_) ?_); (cases p <;> first | exact absurd hp (by decide) | (show _ = _; with_reducible rfl) | rfl | (show _ = _; unfold openStep; split <;> rfl)))
    | ((with_reducible apply Touches.step (farrierRestarts_touches _)); · decide)
    | (with_reducible apply Touches.fold (fun _ _ => ?_))
    | split

theorem laterReset_touches (s : State) (r : Option Nat × Nat) : Touches [.devState, .dev, .domains, .dict, .owner, .host, .staging, .poison, .ctxs, .vers, .fetch, .results, .cores, .steps, .sync, .chans, .coll, .num, .place, .mem, .links, .topo, .ckpt, .ledger, .tests, .fenceSet, .recov, .fw, .meas, .sec, .sent, .free] s (laterReset s r) := by
  unfold laterReset
  try dsimp only
  repeat' first
    | with_reducible exact .refl
    | simp only [Touches.mk_iff, Touches.ite_iff]
    | with_reducible refine And.intro (fun _ => ?_) (fun _ => ?_)
    | ((with_reducible refine Leaf.of rfl (fun p hp => ?_) ?_); (cases p <;> first | exact absurd hp (by decide) | (show _ = _; with_reducible rfl) | rfl | (show _ = _; unfold openStep; split <;> rfl)))
    | ((with_reducible apply Touches.step (modReset_touches _ _)); · decide)
    | ((with_reducible apply Touches.step (partReset_touches _ _ _)); · decide)
    | (with_reducible apply Touches.fold (fun _ _ => ?_))
    | split

theorem execFarrierRestartDone_touches (s : State) : OutTouches [.devState, .dev, .domains, .dict, .owner, .host, .staging, .poison, .ctxs, .vers, .fetch, .results, .cores, .steps, .sync, .chans, .coll, .num, .place, .mem, .links, .topo, .ckpt, .ledger, .tests, .fenceSet, .recov, .fw, .counters, .meas, .sec, .sent, .free] s (execFarrierRestartDone s) := by
  unfold execFarrierRestartDone
  try dsimp only
  repeat' first
    | with_reducible exact .refl
    | with_reducible apply OutTouches.next
    | with_reducible exact OutTouches.fault
    | simp only [Touches.mk_iff, Touches.ite_iff]
    | with_reducible refine And.intro (fun _ => ?_) (fun _ => ?_)
    | ((with_reducible refine Leaf.of rfl (fun p hp => ?_) ?_); (cases p <;> first | exact absurd hp (by decide) | (show _ = _; with_reducible rfl) | rfl | (show _ = _; unfold openStep; split <;> rfl)))
    | ((with_reducible apply Touches.step (bankConfirmed_touches _ _)); · decide)
    | ((with_reducible apply Touches.step (laterReset_touches _ _)); · decide)
    | ((with_reducible apply Touches.step (securityEvent_touches _)); · decide)
    | ((with_reducible apply Touches.step (bankReverted_touches _ _)); · decide)
    | (with_reducible apply Touches.fold (fun _ _ => ?_))
    | split

theorem updFails_touches (s : State) (reason : Nat) : Touches [.host, .fw, .sec, .sent] s (updFails s reason) := by
  unfold updFails
  try dsimp only
  repeat' first
    | with_reducible exact .refl
    | simp only [Touches.mk_iff, Touches.ite_iff]
    | with_reducible refine And.intro (fun _ => ?_) (fun _ => ?_)
    | ((with_reducible refine Leaf.of rfl (fun p hp => ?_) ?_); (cases p <;> first | exact absurd hp (by decide) | (show _ = _; with_reducible rfl) | rfl | (show _ = _; unfold openStep; split <;> rfl)))
    | ((with_reducible apply Touches.step (updBank_touches _ _)); · decide)
    | ((with_reducible apply Touches.step (updTo_touches _ _ _ _)); · decide)
    | ((with_reducible apply Touches.step (securityEvent_touches _)); · decide)

theorem updateStarts_touches (v : Nat) (s : State) : Touches [.host, .fw, .sec, .sent] s (updateStarts v s) := by
  unfold updateStarts
  try dsimp only
  repeat' first
    | with_reducible exact .refl
    | simp only [Touches.mk_iff, Touches.ite_iff]
    | with_reducible refine And.intro (fun _ => ?_) (fun _ => ?_)
    | ((with_reducible refine Leaf.of rfl (fun p hp => ?_) ?_); (cases p <;> first | exact absurd hp (by decide) | (show _ = _; with_reducible rfl) | rfl | (show _ = _; unfold openStep; split <;> rfl)))
    | ((with_reducible apply Touches.step (updBank_touches _ _)); · decide)
    | ((with_reducible apply Touches.step (updTo_touches _ _ _ _)); · decide)
    | ((with_reducible apply Touches.step (emit_touches _ _)); · decide)
    | ((with_reducible apply Touches.step (updFails_touches _ _)); · decide)

theorem execUpdateRequest_touches (src : Src) (req : BitVec 256) (s : State) : OutTouches [.host, .fw, .sec, .sent] s (execUpdateRequest src req s) := by
  unfold execUpdateRequest
  try dsimp only
  repeat' first
    | with_reducible exact .refl
    | with_reducible apply OutTouches.next
    | with_reducible exact OutTouches.fault
    | simp only [Touches.mk_iff, Touches.ite_iff]
    | with_reducible refine And.intro (fun _ => ?_) (fun _ => ?_)
    | ((with_reducible refine Leaf.of rfl (fun p hp => ?_) ?_); (cases p <;> first | exact absurd hp (by decide) | (show _ = _; with_reducible rfl) | rfl | (show _ = _; unfold openStep; split <;> rfl)))
    | ((with_reducible apply Touches.step (updateStarts_touches _ _)); · decide)
    | ((with_reducible apply hostCommand_touches ?hw (fun _ => ?he)); case hw => decide)

theorem updPending_touches (s : State) (img : FwImage) : Touches [.host, .fw, .sent] s (updPending s img) := by
  unfold updPending
  try dsimp only
  repeat' first
    | with_reducible exact .refl
    | simp only [Touches.mk_iff, Touches.ite_iff]
    | with_reducible refine And.intro (fun _ => ?_) (fun _ => ?_)
    | ((with_reducible refine Leaf.of rfl (fun p hp => ?_) ?_); (cases p <;> first | exact absurd hp (by decide) | (show _ = _; with_reducible rfl) | rfl | (show _ = _; unfold openStep; split <;> rfl)))
    | ((with_reducible apply Touches.step (onPair_touches _ _ _)); · decide)
    | ((with_reducible apply Touches.step (updTo_touches _ _ _ _)); · decide)

theorem execUpdateDone_touches (img : FwImage) (writeOk : Bool) (s : State) : OutTouches [.host, .fw, .sec, .sent] s (execUpdateDone img writeOk s) := by
  unfold execUpdateDone
  try dsimp only
  repeat' first
    | with_reducible exact .refl
    | with_reducible apply OutTouches.next
    | with_reducible exact OutTouches.fault
    | simp only [Touches.mk_iff, Touches.ite_iff]
    | with_reducible refine And.intro (fun _ => ?_) (fun _ => ?_)
    | ((with_reducible refine Leaf.of rfl (fun p hp => ?_) ?_); (cases p <;> first | exact absurd hp (by decide) | (show _ = _; with_reducible rfl) | rfl | (show _ = _; unfold openStep; split <;> rfl)))
    | ((with_reducible apply Touches.step (updFails_touches _ _)); · decide)
    | ((with_reducible apply Touches.step (updPending_touches _ _)); · decide)
    | (with_reducible apply Touches.fold (fun _ _ => ?_))
    | split

theorem chunkTaken_touches (s : State) (off : Nat) (n : Nat) : Touches [.host, .fw, .sent] s (chunkTaken s off n) := by
  unfold chunkTaken
  try dsimp only
  repeat' first
    | with_reducible exact .refl
    | simp only [Touches.mk_iff, Touches.ite_iff]
    | with_reducible refine And.intro (fun _ => ?_) (fun _ => ?_)
    | ((with_reducible refine Leaf.of rfl (fun p hp => ?_) ?_); (cases p <;> first | exact absurd hp (by decide) | (show _ = _; with_reducible rfl) | rfl | (show _ = _; unfold openStep; split <;> rfl)))
    | ((with_reducible apply Touches.step (updBank_touches _ _)); · decide)
    | ((with_reducible apply Touches.step (updTo_touches _ _ _ _)); · decide)

theorem execImageChunk_touches (src : Src) (offset : Nat) (bytes : List Byte) (s : State) : OutTouches [.host, .fw, .sent] s (execImageChunk src offset bytes s) := by
  unfold execImageChunk
  try dsimp only
  repeat' first
    | with_reducible exact .refl
    | with_reducible apply OutTouches.next
    | with_reducible exact OutTouches.fault
    | simp only [Touches.mk_iff, Touches.ite_iff]
    | with_reducible refine And.intro (fun _ => ?_) (fun _ => ?_)
    | ((with_reducible refine Leaf.of rfl (fun p hp => ?_) ?_); (cases p <;> first | exact absurd hp (by decide) | (show _ = _; with_reducible rfl) | rfl | (show _ = _; unfold openStep; split <;> rfl)))
    | ((with_reducible apply Touches.step (chunkTaken_touches _ _ _)); · decide)
    | ((with_reducible apply Touches.step (accepted_touches _ _ _ _ _)); · decide)
    | ((with_reducible apply Touches.step (illegal_touches _ _ _ _ _ _)); · decide)
    | (refine Touches.mono (V := [.host, .sent]) (by decide) (door_touches (by assumption)))
    | (with_reducible apply Touches.fold (fun _ _ => ?_))
    | split

theorem execImageChunkTimeout_touches (s : State) : OutTouches [.host, .fw, .sec, .sent] s (execImageChunkTimeout s) := by
  unfold execImageChunkTimeout
  try dsimp only
  repeat' first
    | with_reducible exact .refl
    | with_reducible apply OutTouches.next
    | with_reducible exact OutTouches.fault
    | simp only [Touches.mk_iff, Touches.ite_iff]
    | with_reducible refine And.intro (fun _ => ?_) (fun _ => ?_)
    | ((with_reducible refine Leaf.of rfl (fun p hp => ?_) ?_); (cases p <;> first | exact absurd hp (by decide) | (show _ = _; with_reducible rfl) | rfl | (show _ = _; unfold openStep; split <;> rfl)))
    | ((with_reducible apply Touches.step (updFails_touches _ _)); · decide)
    | (with_reducible apply Touches.fold (fun _ _ => ?_))
    | split

theorem activateAct_touches (mask : Nat) (s : State) : Touches [.devState, .dev, .owner, .host, .ctxs, .vers, .fetch, .results, .cores, .steps, .sync, .chans, .coll, .place, .mem, .links, .topo, .tests, .fenceSet, .recov, .fw, .meas, .sec, .sent, .free] s (activateAct mask s) := by
  unfold activateAct
  try dsimp only
  repeat' first
    | with_reducible exact .refl
    | simp only [Touches.mk_iff, Touches.ite_iff]
    | with_reducible refine And.intro (fun _ => ?_) (fun _ => ?_)
    | ((with_reducible refine Leaf.of rfl (fun p hp => ?_) ?_); (cases p <;> first | exact absurd hp (by decide) | (show _ = _; with_reducible rfl) | rfl | (show _ = _; unfold openStep; split <;> rfl)))
    | ((with_reducible apply Touches.step (modReset_touches _ _)); · decide)
    | ((with_reducible refine activateOrDefer_touches ?hw (fun _ => ?he) ?hx); case hw => decide)

theorem execActivateCommand_touches (src : Src) (mask : BitVec 8) (s : State) : OutTouches [.devState, .dev, .owner, .host, .ctxs, .vers, .fetch, .results, .cores, .steps, .sync, .chans, .coll, .place, .mem, .links, .topo, .tests, .fenceSet, .recov, .fw, .meas, .sec, .sent, .free] s (execActivateCommand src mask s) := by
  unfold execActivateCommand
  try dsimp only
  repeat' first
    | with_reducible exact .refl
    | with_reducible apply OutTouches.next
    | with_reducible exact OutTouches.fault
    | simp only [Touches.mk_iff, Touches.ite_iff]
    | with_reducible refine And.intro (fun _ => ?_) (fun _ => ?_)
    | ((with_reducible refine Leaf.of rfl (fun p hp => ?_) ?_); (cases p <;> first | exact absurd hp (by decide) | (show _ = _; with_reducible rfl) | rfl | (show _ = _; unfold openStep; split <;> rfl)))
    | ((with_reducible apply Touches.step (activateAct_touches _ _)); · decide)
    | ((with_reducible apply hostCommand_touches ?hw (fun _ => ?he)); case hw => decide)

theorem execActivationDeferralEnd_touches (s : State) : OutTouches [.devState, .dev, .owner, .host, .ctxs, .vers, .fetch, .results, .cores, .steps, .sync, .chans, .coll, .place, .mem, .links, .topo, .tests, .fenceSet, .recov, .fw, .meas, .sec, .sent, .free] s (execActivationDeferralEnd s) := by
  unfold execActivationDeferralEnd
  try dsimp only
  repeat' first
    | with_reducible exact .refl
    | with_reducible apply OutTouches.next
    | with_reducible exact OutTouches.fault
    | simp only [Touches.mk_iff, Touches.ite_iff]
    | with_reducible refine And.intro (fun _ => ?_) (fun _ => ?_)
    | ((with_reducible refine Leaf.of rfl (fun p hp => ?_) ?_); (cases p <;> first | exact absurd hp (by decide) | (show _ = _; with_reducible rfl) | rfl | (show _ = _; unfold openStep; split <;> rfl)))
    | ((with_reducible apply Touches.step (modReset_touches _ _)); · decide)
    | ((with_reducible refine activateOrDefer_touches ?hw (fun _ => ?he) ?hx); case hw => decide)

theorem libraryMeasured_touches (s : State) : Touches [.meas] s (libraryMeasured s) := by
  unfold libraryMeasured
  try dsimp only
  repeat' first
    | with_reducible exact .refl
    | simp only [Touches.mk_iff, Touches.ite_iff]
    | with_reducible refine And.intro (fun _ => ?_) (fun _ => ?_)
    | ((with_reducible refine Leaf.of rfl (fun p hp => ?_) ?_); (cases p <;> first | exact absurd hp (by decide) | (show _ = _; with_reducible rfl) | rfl | (show _ = _; unfold openStep; split <;> rfl)))

theorem execPatternLibraryReload_touches (digestOk : Bool) (s : State) : OutTouches [.fw, .counters, .meas, .sec, .free] s (execPatternLibraryReload digestOk s) := by
  unfold execPatternLibraryReload
  try dsimp only
  repeat' first
    | with_reducible exact .refl
    | with_reducible apply OutTouches.next
    | with_reducible exact OutTouches.fault
    | simp only [Touches.mk_iff, Touches.ite_iff]
    | with_reducible refine And.intro (fun _ => ?_) (fun _ => ?_)
    | ((with_reducible refine Leaf.of rfl (fun p hp => ?_) ?_); (cases p <;> first | exact absurd hp (by decide) | (show _ = _; with_reducible rfl) | rfl | (show _ = _; unfold openStep; split <;> rfl)))
    | ((with_reducible apply Touches.step (bankReverted_touches _ _)); · decide)
    | ((with_reducible apply Touches.step (securityEvent_touches _)); · decide)
    | ((with_reducible apply Touches.step (bankConfirmed_touches _ _)); · decide)
    | ((with_reducible apply Touches.step (libraryMeasured_touches _)); · decide)
    | (with_reducible apply Touches.fold (fun _ _ => ?_))
    | split

theorem execLogFlashCopy_touches (s : State) : OutTouches [.fw] s (execLogFlashCopy s) := by
  unfold execLogFlashCopy
  try dsimp only
  repeat' first
    | with_reducible exact .refl
    | with_reducible apply OutTouches.next
    | with_reducible exact OutTouches.fault
    | simp only [Touches.mk_iff, Touches.ite_iff]
    | with_reducible refine And.intro (fun _ => ?_) (fun _ => ?_)
    | ((with_reducible refine Leaf.of rfl (fun p hp => ?_) ?_); (cases p <;> first | exact absurd hp (by decide) | (show _ = _; with_reducible rfl) | rfl | (show _ = _; unfold openStep; split <;> rfl)))
    | (with_reducible apply Touches.fold (fun _ _ => ?_))
    | split

theorem dumpStarts_touches (v : Nat) (s : State) : Touches [.fw] s (dumpStarts v s) := by
  unfold dumpStarts
  try dsimp only
  repeat' first
    | with_reducible exact .refl
    | simp only [Touches.mk_iff, Touches.ite_iff]
    | with_reducible refine And.intro (fun _ => ?_) (fun _ => ?_)
    | ((with_reducible refine Leaf.of rfl (fun p hp => ?_) ?_); (cases p <;> first | exact absurd hp (by decide) | (show _ = _; with_reducible rfl) | rfl | (show _ = _; unfold openStep; split <;> rfl)))

theorem execDumpExportRequest_touches (src : Src) (req : BitVec 128) (s : State) : OutTouches [.host, .fw, .sent] s (execDumpExportRequest src req s) := by
  unfold execDumpExportRequest
  try dsimp only
  repeat' first
    | with_reducible exact .refl
    | with_reducible apply OutTouches.next
    | with_reducible exact OutTouches.fault
    | simp only [Touches.mk_iff, Touches.ite_iff]
    | with_reducible refine And.intro (fun _ => ?_) (fun _ => ?_)
    | ((with_reducible refine Leaf.of rfl (fun p hp => ?_) ?_); (cases p <;> first | exact absurd hp (by decide) | (show _ = _; with_reducible rfl) | rfl | (show _ = _; unfold openStep; split <;> rfl)))
    | ((with_reducible apply Touches.step (dumpStarts_touches _ _)); · decide)
    | ((with_reducible apply hostCommand_touches ?hw (fun _ => ?he)); case hw => decide)

theorem execDumpExportDone_touches (ok : Bool) (s : State) : OutTouches [.staging, .poison, .fw, .sent] s (execDumpExportDone ok s) := by
  unfold execDumpExportDone
  try dsimp only
  repeat' first
    | with_reducible exact .refl
    | with_reducible apply OutTouches.next
    | with_reducible exact OutTouches.fault
    | simp only [Touches.mk_iff, Touches.ite_iff]
    | with_reducible refine And.intro (fun _ => ?_) (fun _ => ?_)
    | ((with_reducible refine Leaf.of rfl (fun p hp => ?_) ?_); (cases p <;> first | exact absurd hp (by decide) | (show _ = _; with_reducible rfl) | rfl | (show _ = _; unfold openStep; split <;> rfl)))
    | ((with_reducible apply Touches.step (moduleStages_touches _ _ _)); · decide)
    | (with_reducible apply Touches.fold (fun _ _ => ?_))
    | split

end Sys2Proof.Machine
end

