-- ==== Sys2Proof/Laws/TouchHostPort.lean ====
section
/-! SUPPORT. What each operation and meaning of Machine/HostPort.lean can change. -/

set_option linter.unusedSimpArgs false
set_option linter.unusedTactic false
set_option linter.unreachableTactic false

namespace Sys2Proof.Machine

theorem fenceAct_touches (coord : Nat) (s : State) : Touches [.links, .recov, .sent] s (fenceAct coord s) := by
  unfold fenceAct
  try dsimp only
  repeat' first
    | with_reducible exact .refl
    | simp only [Touches.mk_iff, Touches.ite_iff]
    | with_reducible refine And.intro (fun _ => ?_) (fun _ => ?_)
    | ((with_reducible refine Leaf.of rfl (fun p hp => ?_) ?_); (cases p <;> first | exact absurd hp (by decide) | (show _ = _; with_reducible rfl) | rfl | (show _ = _; unfold openStep; split <;> rfl)))
    | ((with_reducible apply Touches.step (proposeNeighbour_touches _ _ _)); · decide)
    | (with_reducible apply Touches.fold (fun _ _ => ?_))
    | split

theorem execFenceCommand_touches (src : Src) (coord : BitVec 32) (s : State) : OutTouches [.host, .links, .recov, .fw, .sent] s (execFenceCommand src coord s) := by
  unfold execFenceCommand
  try dsimp only
  repeat' first
    | with_reducible exact .refl
    | with_reducible apply OutTouches.next
    | with_reducible exact OutTouches.fault
    | simp only [Touches.mk_iff, Touches.ite_iff]
    | with_reducible refine And.intro (fun _ => ?_) (fun _ => ?_)
    | ((with_reducible refine Leaf.of rfl (fun p hp => ?_) ?_); (cases p <;> first | exact absurd hp (by decide) | (show _ = _; with_reducible rfl) | rfl | (show _ = _; unfold openStep; split <;> rfl)))
    | ((with_reducible apply Touches.step (fenceAct_touches _ _)); · decide)
    | ((with_reducible apply hostCommand_touches ?hw (fun _ => ?he)); case hw => decide)

theorem linkFenceAct_touches (l : Nat) (s : State) : Touches [.host, .ctxs, .links, .topo, .ledger, .fw, .sent, .free] s (linkFenceAct l s) := by
  unfold linkFenceAct
  try dsimp only
  repeat' first
    | with_reducible exact .refl
    | simp only [Touches.mk_iff, Touches.ite_iff]
    | with_reducible refine And.intro (fun _ => ?_) (fun _ => ?_)
    | ((with_reducible refine Leaf.of rfl (fun p hp => ?_) ?_); (cases p <;> first | exact absurd hp (by decide) | (show _ = _; with_reducible rfl) | rfl | (show _ = _; unfold openStep; split <;> rfl)))
    | ((with_reducible apply Touches.step (fenceLink_touches _ _ _)); · decide)

theorem execLinkFenceCommand_touches (src : Src) (value : BitVec 8) (s : State) : OutTouches [.host, .ctxs, .links, .topo, .ledger, .fw, .sent, .free] s (execLinkFenceCommand src value s) := by
  unfold execLinkFenceCommand
  try dsimp only
  repeat' first
    | with_reducible exact .refl
    | with_reducible apply OutTouches.next
    | with_reducible exact OutTouches.fault
    | simp only [Touches.mk_iff, Touches.ite_iff]
    | with_reducible refine And.intro (fun _ => ?_) (fun _ => ?_)
    | ((with_reducible refine Leaf.of rfl (fun p hp => ?_) ?_); (cases p <;> first | exact absurd hp (by decide) | (show _ = _; with_reducible rfl) | rfl | (show _ = _; unfold openStep; split <;> rfl)))
    | ((with_reducible apply Touches.step (linkFenceAct_touches _ _)); · decide)
    | ((with_reducible apply hostCommand_touches ?hw (fun _ => ?he)); case hw => decide)

theorem defaultsTaken_touches (s : State) : Touches [.vals, .dict] s (defaultsTaken s) := by
  unfold defaultsTaken
  try dsimp only
  repeat' first
    | with_reducible exact .refl
    | simp only [Touches.mk_iff, Touches.ite_iff]
    | with_reducible refine And.intro (fun _ => ?_) (fun _ => ?_)
    | ((with_reducible refine Leaf.of rfl (fun p hp => ?_) ?_); (cases p <;> first | exact absurd hp (by decide) | (show _ = _; with_reducible rfl) | rfl | (show _ = _; unfold openStep; split <;> rfl)))

theorem execRestoreDefaults_touches (src : Src) (value : BitVec 8) (s : State) : OutTouches [.vals, .dict, .host, .fw, .sent] s (execRestoreDefaults src value s) := by
  unfold execRestoreDefaults
  try dsimp only
  repeat' first
    | with_reducible exact .refl
    | with_reducible apply OutTouches.next
    | with_reducible exact OutTouches.fault
    | simp only [Touches.mk_iff, Touches.ite_iff]
    | with_reducible refine And.intro (fun _ => ?_) (fun _ => ?_)
    | ((with_reducible refine Leaf.of rfl (fun p hp => ?_) ?_); (cases p <;> first | exact absurd hp (by decide) | (show _ = _; with_reducible rfl) | rfl | (show _ = _; unfold openStep; split <;> rfl)))
    | ((with_reducible apply Touches.step (defaultsTaken_touches _)); · decide)
    | ((with_reducible apply hostCommand_touches ?hw (fun _ => ?he)); case hw => decide)

theorem ctxAct_touches (value : Nat) (s : State) : Touches [.devState, .dict, .host, .ctxs, .vers, .fetch, .cores, .steps, .chans, .coll, .links, .topo, .ckpt, .tests, .recov, .power, .meas, .sec, .sent, .free] s (ctxAct value s) := by
  unfold ctxAct
  try dsimp only
  repeat' first
    | with_reducible exact .refl
    | simp only [Touches.mk_iff, Touches.ite_iff]
    | with_reducible refine And.intro (fun _ => ?_) (fun _ => ?_)
    | ((with_reducible refine Leaf.of rfl (fun p hp => ?_) ?_); (cases p <;> first | exact absurd hp (by decide) | (show _ = _; with_reducible rfl) | rfl | (show _ = _; unfold openStep; split <;> rfl)))
    | ((with_reducible apply Touches.step (unloadCtx_touches _ _)); · decide)
    | ((with_reducible apply Touches.step (resumeCtx_touches _ _)); · decide)
    | ((with_reducible apply Touches.step (ownerHalt_touches _ _)); · decide)
    | ((with_reducible apply Touches.step (startCtx_touches _ _)); · decide)
    | (with_reducible apply Touches.fold (fun _ _ => ?_))
    | split

theorem effectHigh_touches (key : Nat) (value : Nat) (a2 : State) : Touches [.devState, .product, .fuses, .dev, .vals, .dict, .owner, .host, .staging, .poison, .ctxs, .vers, .fetch, .results, .cores, .steps, .sync, .chans, .coll, .place, .mem, .links, .topo, .ledger, .tests, .fenceSet, .recov, .fw, .creds, .meas, .sec, .sent, .free] a2 (effectHigh key value a2) := by
  unfold effectHigh
  try dsimp only
  repeat' first
    | with_reducible exact .refl
    | simp only [Touches.mk_iff, Touches.ite_iff]
    | with_reducible refine And.intro (fun _ => ?_) (fun _ => ?_)
    | ((with_reducible refine Leaf.of rfl (fun p hp => ?_) ?_); (cases p <;> first | exact absurd hp (by decide) | (show _ = _; with_reducible rfl) | rfl | (show _ = _; unfold openStep; split <;> rfl)))
    | ((with_reducible apply Touches.step (putValue_touches _ _ _)); · decide)
    | ((with_reducible apply Touches.step (windowWritten_touches _ _ _)); · decide)
    | ((with_reducible apply Touches.step (fused_touches _ _)); · decide)
    | ((with_reducible apply Touches.step (ledgerEmptied_touches _)); · decide)
    | ((with_reducible apply Touches.step (prodWritten_touches _ _)); · decide)
    | ((with_reducible apply Touches.step (passWritten_touches _ _)); · decide)
    | ((with_reducible apply Touches.step (removed_touches _ _)); · decide)
    | ((with_reducible apply Touches.step (installed_touches _ _)); · decide)
    | ((with_reducible apply Touches.step (reportOut_touches _ _)); · decide)
    | ((with_reducible apply Touches.step (attestStarts_touches _ _)); · decide)
    | ((with_reducible apply Touches.step (dumpStarts_touches _ _)); · decide)
    | ((with_reducible apply Touches.step (ostlerAct_touches _ _)); · decide)
    | ((with_reducible apply Touches.step (activateAct_touches _ _)); · decide)
    | ((with_reducible apply Touches.step (updateStarts_touches _ _)); · decide)
    | ((with_reducible apply Touches.step (historiesCleared_touches _)); · decide)
    | ((with_reducible apply Touches.step (fenceAct_touches _ _)); · decide)
    | ((with_reducible apply Touches.step (gallopAct_touches _ _)); · decide)
    | (with_reducible apply Touches.fold (fun _ _ => ?_))
    | split

theorem effectOf_touches (src : Src) (key : Nat) (value : Nat) (a3 : State) : Touches [.pins, .devState, .product, .fuses, .dev, .domains, .vals, .dict, .owner, .host, .staging, .poison, .ctxs, .load, .vers, .fetch, .results, .cores, .steps, .sync, .chans, .coll, .num, .place, .mem, .links, .topo, .ckpt, .ledger, .tests, .fenceSet, .recov, .power, .fw, .creds, .meas, .sec, .sent, .free] a3 (effectOf src key value a3) := by
  unfold effectOf
  try dsimp only
  repeat' first
    | with_reducible exact .refl
    | simp only [Touches.mk_iff, Touches.ite_iff]
    | with_reducible refine And.intro (fun _ => ?_) (fun _ => ?_)
    | ((with_reducible refine Leaf.of rfl (fun p hp => ?_) ?_); (cases p <;> first | exact absurd hp (by decide) | (show _ = _; with_reducible rfl) | rfl | (show _ = _; unfold openStep; split <;> rfl)))
    | ((with_reducible apply Touches.step (effectHigh_touches _ _ _)); · decide)
    | ((with_reducible apply Touches.step (leaseWritten_touches _ _)); · decide)
    | ((with_reducible apply Touches.step (exportStarts_touches _ _)); · decide)
    | ((with_reducible apply Touches.step (restoreStarts_touches _ _)); · decide)
    | ((with_reducible apply Touches.step (releaseArea_touches _ _)); · decide)
    | ((with_reducible apply Touches.step (retainStarts_touches _ _)); · decide)
    | ((with_reducible apply Touches.step (raiseMark_touches _)); · decide)
    | ((with_reducible apply Touches.step (sharesWritten_touches _ _)); · decide)
    | ((with_reducible apply Touches.step (migrationSet_touches _ _)); · decide)
    | ((with_reducible apply Touches.step (clearCounters_touches _)); · decide)
    | ((with_reducible apply Touches.step (linkFenceAct_touches _ _)); · decide)
    | ((with_reducible apply Touches.step (ctxAct_touches _ _)); · decide)
    | ((with_reducible apply Touches.step (loadStarts_touches _ _ _)); · decide)
    | ((with_reducible apply Touches.step (defaultsTaken_touches _)); · decide)
    | ((with_reducible apply Touches.step (stateAct_touches _ _)); · decide)
    | (with_reducible apply Touches.fold (fun _ _ => ?_))
    | split

theorem writeEntry_touches (s : State) (src : Src) (key : Nat) (size : Nat) (value : Nat) : Touches [.pins, .devState, .product, .fuses, .dev, .domains, .vals, .dict, .owner, .host, .staging, .poison, .ctxs, .load, .vers, .fetch, .results, .cores, .steps, .sync, .chans, .coll, .num, .place, .mem, .links, .topo, .ckpt, .ledger, .tests, .fenceSet, .recov, .power, .fw, .creds, .meas, .sec, .sent, .free] s (writeEntry s src key size value) := by
  unfold writeEntry
  dsimp only
  split
  · split
    · exact hostCommand_touches (by decide) (fun _ => .refl) .refl
    · exact (unlockCommand_touches _ _ _ _).mono (by decide)
  · exact hostCommand_touches (by decide) (fun u => (effectOf_touches src key value u).mono (by decide)) .refl

theorem execDictWrite_touches (src : Src) (index : Nat) (sub : Nat) (size : Nat) (value : Nat) (s : State) : OutTouches [.pins, .devState, .product, .fuses, .dev, .domains, .vals, .dict, .owner, .host, .staging, .poison, .ctxs, .load, .vers, .fetch, .results, .cores, .steps, .sync, .chans, .coll, .num, .place, .mem, .links, .topo, .ckpt, .ledger, .tests, .fenceSet, .recov, .power, .fw, .creds, .meas, .sec, .sent, .free] s (execDictWrite src index sub size value s) := by
  unfold execDictWrite
  try dsimp only
  repeat' first
    | with_reducible exact .refl
    | with_reducible apply OutTouches.next
    | with_reducible exact OutTouches.fault
    | simp only [Touches.mk_iff, Touches.ite_iff]
    | with_reducible refine And.intro (fun _ => ?_) (fun _ => ?_)
    | ((with_reducible refine Leaf.of rfl (fun p hp => ?_) ?_); (cases p <;> first | exact absurd hp (by decide) | (show _ = _; with_reducible rfl) | rfl | (show _ = _; unfold openStep; split <;> rfl)))
    | ((with_reducible apply Touches.step (writeEntry_touches _ _ _ _ _)); · decide)
    | (with_reducible apply Touches.fold (fun _ _ => ?_))
    | split

theorem execDictRead_touches (src : Src) (index : Nat) (sub : Nat) (s : State) : OutTouches [.host, .sent, .free] s (execDictRead src index sub s) := by
  unfold execDictRead
  try dsimp only
  repeat' first
    | with_reducible exact .refl
    | with_reducible apply OutTouches.next
    | with_reducible exact OutTouches.fault
    | simp only [Touches.mk_iff, Touches.ite_iff]
    | with_reducible refine And.intro (fun _ => ?_) (fun _ => ?_)
    | ((with_reducible refine Leaf.of rfl (fun p hp => ?_) ?_); (cases p <;> first | exact absurd hp (by decide) | (show _ = _; with_reducible rfl) | rfl | (show _ = _; unfold openStep; split <;> rfl)))
    | ((with_reducible apply Touches.step (accepted_touches _ _ _ _ _)); · decide)
    | ((with_reducible apply Touches.step (drawn_touches _)); · decide)
    | ((with_reducible apply Touches.step (reply_touches _ _ _ _ _ _)); · decide)
    | ((with_reducible apply Touches.step (emit_touches _ _)); · decide)
    | (refine Touches.mono (V := [.host, .sent]) (by decide) (door_touches (by assumption)))
    | (with_reducible apply Touches.fold (fun _ _ => ?_))
    | split

theorem mailboxDone_touches (s : State) (status : Nat) (value : Nat) : Touches [.host] s (mailboxDone s status value) := by
  unfold mailboxDone
  try dsimp only
  repeat' first
    | with_reducible exact .refl
    | simp only [Touches.mk_iff, Touches.ite_iff]
    | with_reducible refine And.intro (fun _ => ?_) (fun _ => ?_)
    | ((with_reducible refine Leaf.of rfl (fun p hp => ?_) ?_); (cases p <;> first | exact absurd hp (by decide) | (show _ = _; with_reducible rfl) | rfl | (show _ = _; unfold openStep; split <;> rfl)))

theorem execMailboxIdentify_touches (s : State) : OutTouches [.host] s (execMailboxIdentify s) := by
  unfold execMailboxIdentify
  try dsimp only
  repeat' first
    | with_reducible exact .refl
    | with_reducible apply OutTouches.next
    | with_reducible exact OutTouches.fault
    | simp only [Touches.mk_iff, Touches.ite_iff]
    | with_reducible refine And.intro (fun _ => ?_) (fun _ => ?_)
    | ((with_reducible refine Leaf.of rfl (fun p hp => ?_) ?_); (cases p <;> first | exact absurd hp (by decide) | (show _ = _; with_reducible rfl) | rfl | (show _ = _; unfold openStep; split <;> rfl)))
    | ((with_reducible apply Touches.step (renewLease_touches _ _)); · decide)
    | ((with_reducible apply Touches.step (mailboxDone_touches _ _ _)); · decide)
    | (with_reducible apply Touches.fold (fun _ _ => ?_))
    | split

theorem execMailboxGetSupportedLogs_touches (s : State) : OutTouches [.host] s (execMailboxGetSupportedLogs s) := by
  unfold execMailboxGetSupportedLogs
  try dsimp only
  repeat' first
    | with_reducible exact .refl
    | with_reducible apply OutTouches.next
    | with_reducible exact OutTouches.fault
    | simp only [Touches.mk_iff, Touches.ite_iff]
    | with_reducible refine And.intro (fun _ => ?_) (fun _ => ?_)
    | ((with_reducible refine Leaf.of rfl (fun p hp => ?_) ?_); (cases p <;> first | exact absurd hp (by decide) | (show _ = _; with_reducible rfl) | rfl | (show _ = _; unfold openStep; split <;> rfl)))
    | ((with_reducible apply Touches.step (renewLease_touches _ _)); · decide)
    | ((with_reducible apply Touches.step (mailboxDone_touches _ _ _)); · decide)
    | (with_reducible apply Touches.fold (fun _ _ => ?_))
    | split

theorem execMailboxUnsupportedOpcode_touches (opcode : BitVec 16) (s : State) : OutTouches [.host] s (execMailboxUnsupportedOpcode opcode s) := by
  unfold execMailboxUnsupportedOpcode
  try dsimp only
  repeat' first
    | with_reducible exact .refl
    | with_reducible apply OutTouches.next
    | with_reducible exact OutTouches.fault
    | simp only [Touches.mk_iff, Touches.ite_iff]
    | with_reducible refine And.intro (fun _ => ?_) (fun _ => ?_)
    | ((with_reducible refine Leaf.of rfl (fun p hp => ?_) ?_); (cases p <;> first | exact absurd hp (by decide) | (show _ = _; with_reducible rfl) | rfl | (show _ = _; unfold openStep; split <;> rfl)))
    | ((with_reducible apply Touches.step (mailboxDone_touches _ _ _)); · decide)
    | (with_reducible apply Touches.fold (fun _ _ => ?_))
    | split

theorem genStarts_touches (s : State) : Touches [.dict] s (genStarts s) := by
  unfold genStarts
  try dsimp only
  repeat' first
    | with_reducible exact .refl
    | simp only [Touches.mk_iff, Touches.ite_iff]
    | with_reducible refine And.intro (fun _ => ?_) (fun _ => ?_)
    | ((with_reducible refine Leaf.of rfl (fun p hp => ?_) ?_); (cases p <;> first | exact absurd hp (by decide) | (show _ = _; with_reducible rfl) | rfl | (show _ = _; unfold openStep; split <;> rfl)))

theorem execPersistGenerationStart_touches (s : State) : OutTouches [.clk, .dict] s (execPersistGenerationStart s) := by
  unfold execPersistGenerationStart
  try dsimp only
  repeat' first
    | with_reducible exact .refl
    | with_reducible apply OutTouches.next
    | with_reducible exact OutTouches.fault
    | simp only [Touches.mk_iff, Touches.ite_iff]
    | with_reducible refine And.intro (fun _ => ?_) (fun _ => ?_)
    | ((with_reducible refine Leaf.of rfl (fun p hp => ?_) ?_); (cases p <;> first | exact absurd hp (by decide) | (show _ = _; with_reducible rfl) | rfl | (show _ = _; unfold openStep; split <;> rfl)))
    | ((with_reducible apply Touches.step (reach_touches _ _)); · decide)
    | ((with_reducible apply Touches.step (genStarts_touches _)); · decide)
    | (with_reducible apply Touches.fold (fun _ _ => ?_))
    | split

theorem execPersistGenerationDone_touches (ok : Bool) (s : State) : OutTouches [.dict] s (execPersistGenerationDone ok s) := by
  unfold execPersistGenerationDone
  try dsimp only
  repeat' first
    | with_reducible exact .refl
    | with_reducible apply OutTouches.next
    | with_reducible exact OutTouches.fault
    | simp only [Touches.mk_iff, Touches.ite_iff]
    | with_reducible refine And.intro (fun _ => ?_) (fun _ => ?_)
    | ((with_reducible refine Leaf.of rfl (fun p hp => ?_) ?_); (cases p <;> first | exact absurd hp (by decide) | (show _ = _; with_reducible rfl) | rfl | (show _ = _; unfold onOlder; split <;> rfl)))
    | (with_reducible apply Touches.fold (fun _ _ => ?_))
    | split

theorem execPersistRetry_touches (s : State) : OutTouches [.clk, .dict] s (execPersistRetry s) := by
  unfold execPersistRetry
  try dsimp only
  repeat' first
    | with_reducible exact .refl
    | with_reducible apply OutTouches.next
    | with_reducible exact OutTouches.fault
    | simp only [Touches.mk_iff, Touches.ite_iff]
    | with_reducible refine And.intro (fun _ => ?_) (fun _ => ?_)
    | ((with_reducible refine Leaf.of rfl (fun p hp => ?_) ?_); (cases p <;> first | exact absurd hp (by decide) | (show _ = _; with_reducible rfl) | rfl | (show _ = _; unfold openStep; split <;> rfl)))
    | ((with_reducible apply Touches.step (reach_touches _ _)); · decide)
    | ((with_reducible apply Touches.step (genStarts_touches _)); · decide)
    | (with_reducible apply Touches.fold (fun _ _ => ?_))
    | split

theorem servedHost_touches (s : State) (src : Src) (key : Nat) (value : Nat) : Touches [.pins, .devState, .product, .fuses, .dev, .domains, .vals, .dict, .owner, .host, .staging, .poison, .ctxs, .load, .vers, .fetch, .results, .cores, .steps, .sync, .chans, .coll, .num, .place, .mem, .links, .topo, .ckpt, .ledger, .tests, .fenceSet, .recov, .power, .fw, .creds, .meas, .sec, .sent, .free] s (servedHost s src key value) := by
  unfold servedHost
  try dsimp only
  repeat' first
    | with_reducible exact .refl
    | simp only [Touches.mk_iff, Touches.ite_iff]
    | with_reducible refine And.intro (fun _ => ?_) (fun _ => ?_)
    | ((with_reducible refine Leaf.of rfl (fun p hp => ?_) ?_); (cases p <;> first | exact absurd hp (by decide) | (show _ = _; with_reducible rfl) | rfl | (show _ = _; unfold openStep; split <;> rfl)))
    | ((with_reducible apply Touches.step (effectOf_touches _ _ _ _)); · decide)
    | ((with_reducible apply Touches.step (reply_touches _ _ _ _ _ _)); · decide)
    | ((with_reducible apply Touches.step (illegal_touches _ _ _ _ _ _)); · decide)

theorem nextOr_touches {W : List StatePart} {s : State} {o : Out} (h : OutTouches W s o) : Touches W s (nextOr s o) := by
  cases o with
  | next t => exact h t rfl
  | fault _ => exact .refl
  | refused _ => exact .refl

theorem servedUnit_touches (s : State) (c : Instr) : Touches [.devState, .dev, .domains, .dict, .owner, .host, .ctxs, .vers, .fetch, .results, .cores, .steps, .sync, .chans, .coll, .num, .place, .mem, .links, .topo, .ledger, .tests, .fenceSet, .recov, .power, .fw, .meas, .sec, .sent, .free] s (servedUnit s c) := by
  unfold servedUnit
  try dsimp only
  repeat' first
    | with_reducible exact .refl
    | simp only [Touches.mk_iff, Touches.ite_iff]
    | with_reducible refine And.intro (fun _ => ?_) (fun _ => ?_)
    | ((with_reducible refine Leaf.of rfl (fun p hp => ?_) ?_); (cases p <;> first | exact absurd hp (by decide) | (show _ = _; with_reducible rfl) | rfl | (show _ = _; unfold openStep; split <;> rfl)))
    | ((with_reducible apply fun hv => OutTouches.mono hv (execLinkTrainingRetry_touches _ _)); · decide)
    | with_reducible apply nextOr_touches
    | ((with_reducible apply fun hv => OutTouches.mono hv (execLinkLockTimeout_touches _ _)); · decide)
    | ((with_reducible apply fun hv => OutTouches.mono hv (execTakeoverDone_touches _ _ _ _)); · decide)
    | ((with_reducible apply fun hv => OutTouches.mono hv (execDiscoveryRecordReceived_touches _ _ _)); · decide)
    | ((with_reducible apply fun hv => OutTouches.mono hv (execCoreResetDone_touches _ _)); · decide)
    | ((with_reducible apply fun hv => OutTouches.mono hv (execCoreProbeTimeout_touches _ _)); · decide)
    | ((with_reducible apply fun hv => OutTouches.mono hv (execCoreProbeDone_touches _ _ _)); · decide)
    | ((with_reducible apply fun hv => OutTouches.mono hv (execPartitionBringupStepDone_touches _ _ _)); · decide)
    | ((with_reducible apply fun hv => OutTouches.mono hv (execGallopCellComplete_touches _ _)); · decide)
    | (with_reducible apply Touches.fold (fun _ _ => ?_))
    | split

theorem served_touches (s : State) (q : OstlerReq) : Touches [.pins, .devState, .product, .fuses, .dev, .domains, .vals, .dict, .owner, .host, .staging, .poison, .ctxs, .load, .vers, .fetch, .results, .cores, .steps, .sync, .chans, .coll, .num, .place, .mem, .links, .topo, .ckpt, .ledger, .tests, .fenceSet, .recov, .power, .fw, .creds, .meas, .sec, .sent, .free] s (served s q) := by
  unfold served
  try dsimp only
  repeat' first
    | with_reducible exact .refl
    | simp only [Touches.mk_iff, Touches.ite_iff]
    | with_reducible refine And.intro (fun _ => ?_) (fun _ => ?_)
    | ((with_reducible refine Leaf.of rfl (fun p hp => ?_) ?_); (cases p <;> first | exact absurd hp (by decide) | (show _ = _; with_reducible rfl) | rfl | (show _ = _; unfold openStep; split <;> rfl)))
    | ((with_reducible apply Touches.step (sendRebuildNow_touches _)); · decide)
    | ((with_reducible apply Touches.step (sendHeldNow_touches _ _)); · decide)
    | ((with_reducible apply Touches.step (tells_touches _ _)); · decide)
    | ((with_reducible apply Touches.step (fenceLink_touches _ _ _)); · decide)
    | ((with_reducible apply Touches.step (servedUnit_touches _ _)); · decide)
    | ((with_reducible apply Touches.step (servedHost_touches _ _ _ _)); · decide)
    | (with_reducible apply Touches.fold (fun _ _ => ?_))
    | split

theorem ostlerResumes_touches (s : State) (o : Nat) : Touches [.dev, .cores, .place] s (ostlerResumes s o) := by
  unfold ostlerResumes
  try dsimp only
  repeat' first
    | with_reducible exact .refl
    | simp only [Touches.mk_iff, Touches.ite_iff]
    | with_reducible refine And.intro (fun _ => ?_) (fun _ => ?_)
    | ((with_reducible refine Leaf.of rfl (fun p hp => ?_) ?_); (cases p <;> first | exact absurd hp (by decide) | (show _ = _; with_reducible rfl) | rfl | (show _ = _; unfold openStep; split <;> rfl)))
    | ((with_reducible apply Touches.step (quarantinesEnd_touches _ _)); · decide)

theorem execOstlerReady_touches (o : Fin 12) (s : State) : OutTouches [.pins, .devState, .product, .fuses, .dev, .domains, .vals, .dict, .owner, .host, .staging, .poison, .ctxs, .load, .vers, .fetch, .results, .cores, .steps, .sync, .chans, .coll, .num, .place, .mem, .links, .topo, .ckpt, .ledger, .tests, .fenceSet, .recov, .power, .fw, .creds, .meas, .sec, .sent, .free] s (execOstlerReady o s) := by
  unfold execOstlerReady
  try dsimp only
  repeat' first
    | with_reducible exact .refl
    | with_reducible apply OutTouches.next
    | with_reducible exact OutTouches.fault
    | simp only [Touches.mk_iff, Touches.ite_iff]
    | with_reducible refine And.intro (fun _ => ?_) (fun _ => ?_)
    | ((with_reducible refine Leaf.of rfl (fun p hp => ?_) ?_); (cases p <;> first | exact absurd hp (by decide) | (show _ = _; with_reducible rfl) | rfl | (show _ = _; unfold openStep; split <;> rfl)))
    | ((with_reducible apply Touches.step (onOstler_touches _ _ _)); · decide)
    | ((with_reducible apply Touches.step (drawn_touches _)); · decide)
    | ((with_reducible apply Touches.step (ostlerResumes_touches _ _)); · decide)
    | ((with_reducible apply Touches.step (served_touches _ _)); · decide)
    | (with_reducible apply Touches.fold (fun _ _ => ?_))
    | split

end Sys2Proof.Machine
end

