-- ==== Sys2Proof/WellFormed.lean ====
section
/-! DEFINITION. Which commands are well formed: their operands fit the fields that carry them. -/

namespace Sys2Proof

/-- A request's source: master 0 on the window and the mailbox, a session on Halter (19 R499), with a 32-bit SEQ (19 R497). -/
def srcOk (src : Src) : Bool :=
  decide (src.seq < 2 ^ 32) && (match src.path with
    | .window => decide (src.master = 0)
    | .mailbox => decide (src.master = 0)
    | .halter => decide (src.master ≠ 0))

/-- A context and a tensor number (07 R169, R173). -/
def tensorRefOk (x : Nat × Nat × List Byte) : Bool := decide (x.1 < 16) && decide (x.2.1 < 2 ^ 20)

/-- Do the operands fit the fields that carry them? A command that does not is one that nothing outside can send. -/
def Instr.wf : Instr → Bool
  | .pwrEnAssert _ _ => true
  | .pwrEnDeassert => true
  | .inputUndervoltage => true
  | .powerDownStepDone => true
  | .inputFetOpen _ => true
  | .bootPhaseDone badImages => badImages.all fun x => decide (1 ≤ x.1) && decide (x.1 ≤ 3) && decide (x.2 ≤ 1)
  | .partitionBringupStagger => true
  | .partitionBringupStepDone _ _ => true
  | .selftestKernelDone _ pclass _ => decide (pclass < 16)
  | .stateEnterTest src => srcOk src
  | .stateLeaveTest src => srcOk src
  | .moduleResetCommand src => srcOk src
  | .partitionResetCommand src _ => srcOk src
  | .moduleResetHoldoffEnd => true
  | .partitionResetDelayEnd _ => true
  | .perstNAssert => true
  | .perstNDeassert => true
  | .d2dFlitReceived c seq flit _ =>
    let n := if c.1 = .guest then 256 else 64
    decide (0 < seq) && decide (flit.sent.length = n) && decide (flit.got.length = n)
  | .d2dTimeout _ _ => true
  | .taskDispatch _ task => decide (task < 2 ^ 23)
  | .queueRoomFreed _ => true
  | .mm _ _ => true
  | .mmTa _ _ => true
  | .mmTb _ _ => true
  | .mmAcc _ _ => true
  | .attF _ _ => true
  | .attB _ _ => true
  | .ew _ _ => true
  | .red _ _ => true
  | .norm _ _ => true
  | .smax _ _ => true
  | .opt _ _ => true
  | .convFmt _ _ => true
  | .amax _ _ => true
  | .copy _ _ => true
  | .sig _ => true
  | .wait _ => true
  | .allReduce _ others => others.members.all fun m => m.all fun w => decide (w < 2 ^ 48)
  | .reduceScatter _ members => members.all fun m => m.all fun w => decide (w < 2 ^ 48)
  | .allGather _ _ => true
  | .send _ => true
  | .recv _ _ => true
  | .barrier _ => true
  | .signal _ => true
  | .pieceComplete _ _ => true
  | .splitStallResume _ => true
  | .reexecIssue _ _ => true
  | .checkPieceComplete _ => true
  | .arbiterComplete _ _ => true
  | .pieceWatchdogExpiry _ => true
  | .checkWatchdogExpiry _ => true
  | .sigTakesEffect _ => true
  | .waitSatisfied _ => true
  | .stepBoundary => true
  | .batchHeaderPoll hdrStep filled => decide (hdrStep < 2 ^ 64) && decide (filled < 2 ^ 32)
  | .batchFetchDone _ => true
  | .verdictContribute => true
  | .syncUpFrame _ _ => true
  | .syncDownFrame _ _ => true
  | .replayDispatch => true
  | .syncLeavingFrame _ _ => true
  | .syncStateFrame _ _ => true
  | .syncIdleFrame _ _ => true
  | .idleFrameSend _ => true
  | .syncLaneHeartbeatLoss _ => true
  | .bundleSilent _ => true
  | .fenceProposalTimer _ => true
  | .fenceRecordReceived _ _ => true
  | .fenceFloodRepeat => true
  | .fenceProxyAbort _ => true
  | .fenceRecordRequest _ => true
  | .fenceCommand src _ => srcOk src
  | .recoveryPatienceExpiry _ => true
  | .takeoverDone _ tensors _ => tensors.all tensorRefOk
  | .refillDone refill => refill.tiles.all fun x => decide (x.1 < 32) && decide (x.2.1 < 2 ^ 20)
  | .mirrorStreamReceived step _ tensors _ => decide (step < 2 ^ 64) && tensors.all tensorRefOk
  | .mirrorAckReceived step => decide (step < 2 ^ 64)
  | .mirrorRebuildDone => true
  | .moduleStatePieceReceived cut _ => decide (cut < 2 ^ 64)
  | .linkFlitReceived _ _ _ _ _ _ => true
  | .linkNakReceived _ _ => true
  | .errorReturnReceived _ _ => true
  | .signalArrival _ group step _ => decide (group < 65536) && decide (step < 2 ^ 64)
  | .laneLossOfLock _ _ => true
  | .laneErrorWindow _ _ errors symbols => decide (errors ≤ symbols)
  | .ctleReevaluation _ _ => true
  | .linkTrainingDone _ _ => true
  | .linkLockTimeout _ => true
  | .linkTrainingRetry _ => true
  | .discoveryRecordSend _ => true
  | .discoveryRecordReceived _ _ => true
  | .linkFenceCommand src _ => srcOk src
  | .epochMarkEdge _ => true
  | .epochMarkCommand src => srcOk src
  | .captureStart => true
  | .capturePiecesDone _ => true
  | .manifestDurable _ => true
  | .lehrWriteError _ => true
  | .poolWriteError _ => true
  | .retainCommand src _ => srcOk src
  | .retainCopyDone => true
  | .releaseCommand src _ => srcOk src
  | .restoreRequest src _ => srcOk src
  | .restoreDone _ _ => true
  | .exportRequest src _ => srcOk src
  | .exportDone _ => true
  | .programLoadRequest src _ => srcOk src
  | .programLoadDone => true
  | .contextStart src _ => srcOk src
  | .contextHalt src _ => srcOk src
  | .contextResume src _ => srcOk src
  | .contextUnload src _ => srcOk src
  | .unloadComplete _ => true
  | .counterClear src => srcOk src
  | .migrationPlanReady moves => moves.all fun m => decide (m.1 < 16) && decide (m.2.1 < 2 ^ 20) && decide (m.2.2.2 < 8)
  | .migrationCopyDone ctx tensor => decide (ctx < 16) && decide (tensor < 2 ^ 20)
  | .migrationEnableWrite src => srcOk src
  | .replacementDone _ _ => true
  | .regulatorSharesWrite src _ => srcOk src
  | .patrolScrub _ _ _ => true
  | .rowCopyDone _ => true
  | .dramTempSample _ _ _ => true
  | .cxlMemAccess _ write len _ => decide ((write.map List.length).getD len ≤ 64)
  | .ledgerEventClassed => true
  | .ledgerRecordWritten => true
  | .optimeFlush => true
  | .trotPieceIssue _ pclass => decide (pclass < 16)
  | .trotPieceComplete _ => true
  | .gallopStartCommand src => srcOk src
  | .gallopStopCommand src => srcOk src
  | .gallopAutoStart => true
  | .gallopCellComplete _ => true
  | .coreProbeDone _ _ => true
  | .coreProbeTimeout _ => true
  | .coreResetDone _ => true
  | .hubWatchdogExpiry => true
  | .escalationClear src => srcOk src
  | .powerControllerIteration _ => true
  | .emergencyEscalationTimer _ => true
  | .emergencyClearTimer _ => true
  | .regulatorFault _ => true
  | .telemetryTimeout => true
  | .coolantInletOver _ => true
  | .thermalTrip => true
  | .rackLeaseWrite src _ => srcOk src
  | .leaseExpiry => true
  | .islandVoltageLoop _ _ _ => true
  | .droopDetected _ => true
  | .logicTempSample _ _ => true
  | .ostlerTrap _ => true
  | .ostlerWatchdogExpiry _ => true
  | .ostlerRestartCommand src _ => srcOk src
  | .ostlerDumpCommand src _ => srcOk src
  | .ostlerDumpDone _ _ _ _ size => decide (size ≤ 2 ^ 26)
  | .ostlerReady _ => true
  | .ostlerReadyTimeout _ => true
  | .farrierWatchdogExpiry => true
  | .farrierRestartDone => true
  | .updateRequest src _ => srcOk src
  | .updateDone _ _ => true
  | .activateCommand src _ => srcOk src
  | .activationDeferralEnd => true
  | .patternLibraryReload _ => true
  | .logFlashCopy => true
  | .dumpExportRequest src _ => srcOk src
  | .hello _ => true
  | .halterOpen frags count total => decide (count < 256) && decide (total < 65536) && frags.all fun f => decide (f.1 < 256)
  | .fragmentTimeout _ => true
  | .sessionIdleTimeout _ => true
  | .dictRead src index sub => srcOk src && decide (index < 65536) && decide (sub < 256)
  | .dictWrite src index sub size value => srcOk src && decide (index < 65536) && decide (sub < 256) && decide (1 ≤ size) && decide (size ≤ 64) && decide (value < 2 ^ (8 * size))
  | .claim src _ _ _ => srcOk src
  | .release src => srcOk src
  | .transfer src _ => srcOk src
  | .renew src => srcOk src
  | .pendingClaimLapse => true
  | .ownerLeaseExpiry => true
  | .imageChunk src offset _ => srcOk src && decide (offset < 2 ^ 32)
  | .imageChunkTimeout => true
  | .mailboxIdentify => true
  | .mailboxGetSupportedLogs => true
  | .mailboxUnsupportedOpcode _ => true
  | .persistGenerationStart => true
  | .persistGenerationDone _ => true
  | .persistRetry => true
  | .restoreDefaults src _ => srcOk src
  | .attestationRequest src _ => srcOk src
  | .attestationDone => true
  | .reportExport src _ => srcOk src
  | .credentialInstall src _ => srcOk src
  | .credentialRemove src _ => srcOk src
  | .debugUnlockRequest src _ _ => srcOk src
  | .blinkersWindowWrite src _ _ => srcOk src
  | .guestRequest addr _ _ => decide (addr < 2 ^ 64)
  | .ptEntry _ => true
  | .productionValueWrite src _ => srcOk src
  | .ledgerReset src _ => srcOk src
  | .fuseProgram src _ => srcOk src
  | .inputRestored _ => true
  | .dumpExportDone _ => true
  | .testPortInstruction instr => decide (instr ≤ 7)
  | .hubHot _ => true

end Sys2Proof
end

