-- ==== Sys2Proof/Tests/Slice0.lean ====
section
/-! SUPPORT. Small tests: each check of WellFormed refuses a term that breaks it, and states in which the hypotheses of the statements hold. -/

namespace Sys2Proof.Tests

open Sys2Proof Sys2Proof.Machine

/-! ### WellFormed -/

/-- A source on the mailbox, and one of Halter session 1. -/
def mbox : Src := { master := 0, path := .mailbox }
def hal (seq : Nat) : Src := { master := 1, path := .halter, seq := seq }

theorem test_wf_source_master : (Instr.stateEnterTest { mbox with master := 1 }).wf = false := by decide
theorem test_wf_source_session : (Instr.stateEnterTest { mbox with path := .halter }).wf = false := by decide
theorem test_wf_source_seq : (Instr.release (hal (2 ^ 32))).wf = false := by decide
theorem test_wf_good_source : (Instr.release (hal 7)).wf = true := by decide
theorem test_wf_image_type : (Instr.bootPhaseDone [(4, 0)]).wf = false := by decide
theorem test_wf_bank : (Instr.bootPhaseDone [(1, 2)]).wf = false := by decide
theorem test_wf_pattern_class : (Instr.selftestKernelDone 0 16 true).wf = false := by decide
theorem test_wf_flit_seq : (Instr.d2dFlitReceived (.ring 0, true) 0 ⟨List.replicate 64 0, List.replicate 64 0⟩ 0).wf = false := by decide
theorem test_wf_flit_length : (Instr.d2dFlitReceived (.guest, true) 1 ⟨List.replicate 64 0, List.replicate 256 0⟩ 0).wf = false := by decide
theorem test_wf_refill : (Instr.refillDone ⟨0, [(32, 0, 0, [])], []⟩).wf = false := by decide
theorem test_wf_task : (Instr.taskDispatch 0 (2 ^ 23)).wf = false := by decide
theorem test_wf_member_word : (Instr.allReduce 0 ⟨[[2 ^ 48]], []⟩).wf = false := by decide
theorem test_wf_header_step : (Instr.batchHeaderPoll (2 ^ 64) 0).wf = false := by decide
theorem test_wf_takeover_context : (Instr.takeoverDone true [(16, 0, [])] []).wf = false := by decide
theorem test_wf_mirror_step : (Instr.mirrorAckReceived (2 ^ 64)).wf = false := by decide
theorem test_wf_group : (Instr.signalArrival 0 65536 0 0).wf = false := by decide
theorem test_wf_lane_errors : (Instr.laneErrorWindow 0 0 2 1).wf = false := by decide
theorem test_wf_move : (Instr.migrationPlanReady [(0, 0, 7, 8)]).wf = false := by decide
theorem test_wf_copied_tensor : (Instr.migrationCopyDone 0 (2 ^ 20)).wf = false := by decide
theorem test_wf_cxl_length : (Instr.cxlMemAccess 0 none 65 none).wf = false := by decide
theorem test_wf_dump_size : (Instr.ostlerDumpDone 0 true 0 false (2 ^ 26 + 1)).wf = false := by decide
theorem test_wf_fragment : (Instr.halterOpen [(256, [])] 1 1568).wf = false := by decide
theorem test_wf_read_index : (Instr.dictRead mbox 65536 0).wf = false := by decide
theorem test_wf_write_size : (Instr.dictWrite mbox 0x2000 0x10 0 0).wf = false := by decide
theorem test_wf_write_value : (Instr.dictWrite mbox 0x2000 0x10 1 256).wf = false := by decide
theorem test_wf_chunk_offset : (Instr.imageChunk (hal 1) (2 ^ 32) []).wf = false := by decide
theorem test_wf_guest_address : (Instr.guestRequest (2 ^ 64) 1 none).wf = false := by decide
theorem test_wf_port_instruction : (Instr.testPortInstruction 8).wf = false := by decide

/-! ### The table gives no bits -/

theorem test_decode_none : decodeTableWord 0 0 = none := by decide

/-! ### Halter messages, by the worked examples of 20 and 21 -/

/-- 20, "Raising the check level": the body of a WRITE of 3 to 0x4000.01 is the five bytes 0x00, 0x40, 0x01, 0x01, 0x03. -/
theorem test_write_body : dictBody 0x4000 1 1 3 = [0x00, 0x40, 0x01, 0x01, 0x03] := by decide +kernel

/-- 21, "Opening a session": an OPEN_REPLY of 2,852 bytes travels in fragments of 1,036, 1,036 and 780 bytes, each behind 4 of its own. -/
theorem test_open_reply_fragments : ((fragments (List.replicate 2852 0)).map List.length) = [1040, 1040, 784] := by decide +kernel

/-! ### States for the witnesses -/

/-- A module that is READY with every domain on and a good input, owned by the CXL host. -/
def rdy : State :=
  { State.reset with
    dev := { on := true, state := .ready, phase := 6, inService := 255 }, domains := BitVec.allOnes 50,
    pins := { pwrEn := true, perstN := true, inputMv := 44000, inputOk := true }, host := { owner := some 0 } }

/-- The same module with its device record changed. -/
def dv (f : Dev → Dev) : State := { rdy with dev := f rdy.dev }

/-- The same module in phase `n` of a boot. -/
def bootAt (n : Nat) : State := dv fun d => { d with state := .boot, phase := n }

/-- A one-element FP32 tensor of a persistence class. -/
def one (persist : Nat) : Tensor := { (default : Tensor) with format := 1, persist := persist, dims := [1] }

/-- A group of one member, on channel 2, whose notifications go to object 0. -/
def alone : Group := { barrier := false, order := 0, len := [1, 1, 1], stride := [1, 1, 1], notifyObj := some 0, channel := 2, bop := 0 }

/-- A task, and a COPY, a CONV and a COLL of tensor 0 into tensor 1. -/
def task (opcode : Nat) (b : Body) : Task := { opcode := opcode, cgroup := 0, halt := false, bunit := 0, bound := 1, body := b }
def cp : Task := task 0x31 (.copy ⟨0, 0⟩ 1)
def cvt : Task := task 0x28 (.conv ⟨0, 0⟩ 1)
def coll (kind : Nat) : Task := task 0x30 (.coll kind 0 0 ⟨0, 0⟩ 1 0)

/-- A module in the job with context 0 RUNNING step 1 of a program of these tasks, over a TRANSIENT tensor 0 and a tensor 1 of class `cls`. -/
def inStep (cls : Nat) (ts : List Task) (f : Ctx → Ctx) : State :=
  { rdy with
    dev := { rdy.dev with state := .joined }, recov := { role := .working }, steps := { older := some { step := 1 } },
    ctxs := rdy.ctxs.set 0 (f { state := .running, step := 1, prog := some { (default : Program) with tensors := [one 0, one cls], groups := [alone], tasks := ts } }) }

/-- A state with core 0, or link 0, changed. -/
def core0 (f : Core → Core) (s : State) : State := { s with cores := s.cores.set 0 (f {}) }
def link0 (f : Link → Link) (s : State) : State := { s with links := s.links.set 0 (f {}) }

/-- The hub DMA, engine 144, changed. -/
def engine (f : Core → Core) (s : State) : State := { s with cores := s.cores.set 144 (f {}) }

/-- A piece of context 0's task 0 in step 1, and its execution. -/
def pc0 : Piece := { ctx := 0, task := 0, unit := 0, step := 1 }
def run0 : Run := { piece := pc0 }

/-- Link 0 in service along +X with a module of serial 7 beyond. -/
def linked : State → State := link0 fun k => { k with state := .up, trained := true, dir := some .xp, farSerial := some 7 }
def busyLink : State := linked (inStep 0 [] id)

/-- Side +X of a state changed. -/
def side0 (f : Side → Side) (s : State) : State := { s with topo := { s.topo with sides := s.topo.sides.set 0 (f {}) } }

/-- A module with these cuts being captured, and with area 0 and area 1 as given. -/
def capt (k : Capture) : State := { rdy with ckpt := { captures := [k] } }
def area0 (a : Area) : State := { rdy with ckpt := { areas := rdy.ckpt.areas.set 0 a } }

/-- A module with one ostler changed. -/
def ost (o : Nat) (x : Ostler) (s : State) : State := { s with fw := { s.fw with ostlers := s.fw.ostlers.setIfInBounds o x } }

/-- A module with image type `t`'s spare bank pending. -/
def pend (t : Nat) : State := { rdy with fw := { images := rdy.fw.images.setIfInBounds (t - 1) { b := { state := 4 } } } }

/-- A module with an emergency present. -/
def emer (k : Emer) : State := { rdy with power := { emers := [{ kind := k, since := 0 }] } }

/-- A word is never its own successor: a CRC field can always be wrong. -/
theorem ne_next (x : BitVec 16) : x ≠ x + 1 := by bv_omega

/-- `SendsReach` asks for one of the eight partitions, whichever it is. -/
theorem sends_reach (s : State) (c : Nat) (k : CollTask) (fs : List CollFlit)
    (h : ∀ f ∈ fs, ∀ q : Fin 8, reachable s (ownHeader s (rankCoord s k.group f.rank) q.val 0
      (collFlow c (collOrdinal (progAt s c) k.pos))) = true) : SendsReach s c k fs :=
  fun f hf => h f hf ⟨_, Nat.mod_lt _ (by decide)⟩

/-! ### States and operands in which the hypotheses of each clause hold -/

-- One theorem at a time: each waits for the kernel.
set_option Elab.async false
set_option linter.unusedVariables false

theorem witness_PowerUp :
    (∃ (mv : Nat) (e : Bool) (s : State), s.dev.on = false ∧ inputGood mv = true ∧ s.pins.fetOpen = false) ∧
    (∃ (mv : Nat) (s : State), s.dev.on = false ∧ s.pins.pwrEn = true ∧ inputGood mv = true) :=
  ⟨⟨44000, true, (dv fun d => { d with on := false }), by decide +kernel⟩,
   ⟨44000, (dv fun d => { d with on := false }), by decide +kernel⟩⟩

theorem witness_PowerDown :
    (∃ (s : State), s.dev.on = true ∧ s.dev.down.any (fun d => !d.reset) = false) ∧
    (∃ (s : State), s.dev.on = true ∧ s.dev.down.any (fun d => !d.reset) = false) ∧
    (∃ (s : State) (r : Bool), s.dev.down = some ⟨2, r⟩) ∧
    (∃ (s : State), s.dev.down = some ⟨3, false⟩) ∧
    (∃ (s : State), s.dev.down = some ⟨3, true⟩) ∧
    (∃ (s : State), s.dev.down = some ⟨4, false⟩) ∧
    (∃ (mv : Nat) (s : State), s.dev.on = true ∧ (mv < 36000 ∨ mv > 54000)) :=
  ⟨⟨rdy, by decide +kernel⟩,
   ⟨rdy, by decide +kernel⟩,
   ⟨(dv fun d => { d with down := some ⟨2, true⟩ }), true, by decide +kernel⟩,
   ⟨(dv fun d => { d with down := some ⟨3, false⟩ }), by decide +kernel⟩,
   ⟨(dv fun d => { d with down := some ⟨3, true⟩ }), by decide +kernel⟩,
   ⟨(dv fun d => { d with down := some ⟨4, false⟩ }), by decide +kernel⟩,
   ⟨35999, rdy, by decide +kernel⟩⟩

theorem witness_BootPhases :
    (∃ (s : State), booting s = true ∧ s.dev.phase = 1 ∧ bankVerifies s [] 1 (pairOf s 1).activeB = true) ∧
    (∃ (bad : List (Nat × Nat)) (s : State), booting s = true ∧ s.dev.phase = 1 ∧ s.dev.prodEntry = false ∧ bankVerifies s bad 1 (pairOf s
    1).activeB = false ∧ (bankHolds (otherBank (pairOf s 1)) = false ∨ bankVerifies s bad 1 (!(pairOf s 1).activeB) = false)) ∧
    (∃ (s : State), booting s = true ∧ s.dev.phase = 2 ∧ s.dev.minimal = false) ∧
    (∃ (s : State), booting s = true ∧ s.dev.phase = 3 ∧ s.dev.oosAtEnd = false ∧ s.domains.getLsbD 43 = true ∧ bankVerifies s [] 2 (pairOf
    s 2).activeB = true ∧ bankVerifies s [] 3 (pairOf s 3).activeB = true) ∧
    (∃ (s : State), booting s = true ∧ s.dev.phase = 4 ∧ s.dev.nextPart = 8 ∧ (∀ p : Fin 8, bringAt s p.val = 0) ∧ s.dev.oosAtEnd = false) ∧
    (∃ (s : State), booting s = true ∧ s.dev.phase = 5 ∧ s.dev.kernels = [] ∧ s.dev.retest = [] ∧ s.ledger.events = [] ∧ s.dev.oosAtEnd =
    false ∧ s.dev.prodEntry = false ∧ s.tests.gState = 0 ∧ (∀ p : Fin 8, bringAt s p.val = 0)) :=
  ⟨⟨bootAt 1, by decide +kernel⟩,
   ⟨[(1, 0)], bootAt 1, by decide +kernel⟩,
   ⟨bootAt 2, by decide +kernel⟩,
   ⟨bootAt 3, by decide +kernel⟩,
   ⟨{ bootAt 4 with dev := { (bootAt 4).dev with nextPart := 8 } }, by decide +kernel⟩,
   ⟨bootAt 5, by decide +kernel⟩⟩

theorem witness_PartitionBringup :
    (∃ (s : State), bringing s = true ∧ s.dev.state = .boot ∧ s.dev.phase = 4 ∧ s.dev.nextPart < 8) ∧
    (∃ (p : Fin 8) (r : Bringup) (s : State), bringing s = true ∧ bringAt s p.val = 1 ∧ s.domains.getLsbD 40 = true ∧ s.domains.getLsbD 48 =
    true) ∧
    (∃ (p : Fin 8) (r : Bringup) (s : State), bringing s = true ∧ bringAt s p.val = 2 ∧ (∃ m : Fin 4, Fin.castLE (by decide) m ∉ r.ucieBad ∧
    (p.val, m.val) ∉ s.dev.ucieOff ∧ m.val ∉ permanentUcie s p.val)) ∧
    (∃ (p : Fin 8) (r : Bringup) (s : State), bringing s = true ∧ bringAt s p.val = 2 ∧ (∀ m : Fin 4, Fin.castLE (by decide) m ∈ r.ucieBad ∨
    (p.val, m.val) ∈ s.dev.ucieOff)) ∧
    (∃ (p : Fin 8) (r : Bringup) (s : State), bringing s = true ∧ bringAt s p.val = 3 ∧ r.stackBad = []) ∧
    (∃ (p : Fin 8) (r : Bringup) (s : State), bringing s = true ∧ bringAt s p.val = 3 ∧ r.stackBad.Nodup ∧ r.stackBad ≠ [] ∧ (∀ n ∈
    r.stackBad, nth s.dev.tries (2 * p.val + n.val) 0 < 2)) ∧
    (∃ (p : Fin 8) (r : Bringup) (s : State), bringing s = true ∧ bringAt s p.val = 3 ∧ r.stackBad.Nodup ∧ (∃ n ∈ r.stackBad, 2 ≤ nth
    s.dev.tries (2 * p.val + n.val) 0)) ∧
    (∃ (p : Fin 8) (r : Bringup) (s : State), bringing s = true ∧ bringAt s p.val = 4 ∧ ostlerBusy s (4 + p.val) = false ∧ s.domains.getLsbD
    (5 * p.val + 4) = true) ∧
    (∃ (p : Fin 8) (r : Bringup) (s : State), bringing s = true ∧ bringAt s p.val = 5) ∧
    (∃ (p : Fin 8) (s : State), bringing s = true ∧ s.dev.delayed.getLsbD p.val = true) ∧
    (∃ (s : State), s.dev.holdoff = true) ∧
    (∃ (g : Fin 136) (k : Nat) (ok : Bool) (s : State), booting s = true ∧ s.dev.phase = 5 ∧ (g.val, familyOf k) ∈ s.dev.kernels ∧ (g.val,
    k) ∉ s.dev.retest) ∧
    (∃ (g : Fin 136) (k : Nat) (ok : Bool) (s : State), booting s = true ∧ s.dev.phase = 5 ∧ (g.val, k) ∈ s.dev.retest) :=
  ⟨⟨bootAt 4, by decide +kernel⟩,
   ⟨7, {}, (dv fun d => { d with state := .boot, phase := 4, bring := d.bring.set 7 1 }), by decide +kernel⟩,
   ⟨0, { ucieBad := [1, 5] }, (dv fun d => { d with state := .boot, phase := 4, bring := d.bring.set 0 2 }), by decide +kernel⟩,
   ⟨7, { ucieBad := [3] }, (dv fun d =>
   { d with state := .boot, phase := 4, bring := d.bring.set 7 2, ucieOff := [(7, 0), (7, 1), (7, 2)] }), by decide +kernel⟩,
   ⟨7, {}, (dv fun d => { d with state := .boot, phase := 4, bring := d.bring.set 7 3, tries := d.tries.set 15 2 }), by decide +kernel⟩,
   ⟨7, { stackBad := [1] }, (dv fun d => { d with state := .boot, phase := 4, bring := d.bring.set 7 3, tries := d.tries.set 15 1 }),
   by decide +kernel⟩,
   ⟨7, { stackBad := [1] }, (dv fun d => { d with state := .boot, phase := 4, bring := d.bring.set 7 3, tries := d.tries.set 15 2 }),
   by decide +kernel⟩,
   ⟨7, {}, (dv fun d => { d with state := .boot, phase := 4, bring := d.bring.set 7 4 }), by decide +kernel⟩,
   ⟨7, {}, (dv fun d => { d with inService := 127, inReset := 128, bring := d.bring.set 7 5 }), by decide +kernel⟩,
   ⟨7, (dv fun d => { d with delayed := 128 }), by decide +kernel⟩,
   ⟨(dv fun d => { d with holdoff := true }), by decide +kernel⟩,
   ⟨135, 0, false, { bootAt 5 with dev := { (bootAt 5).dev with kernels := [(135, 1)] } }, by decide +kernel⟩,
   ⟨135, 0, true, { bootAt 5 with dev := { (bootAt 5).dev with kernels := [(135, 1)], retest := [(135, 0)] } }, by decide +kernel⟩⟩

theorem witness_StateCommands :
    (∃ (src : Src) (s : State), Passes s src 0x200002 2 1 (stateOwn s 1) ∧ s.tests.gState = 0) ∧
    (∃ (src : Src) (s : State), Passes s src 0x200002 2 2 (stateOwn s 2) ∧ s.tests.gState = 0) ∧
    (∃ (src : Src) (s : State), Passes s src 0x200002 2 3 (stateOwn s 3) ∧ s.dev.on = true ∧ s.power.trip = false ∧ s.dev.down = none ∧
    s.dev.holdoff = false ∧ s.fw.farrierDown = false) ∧
    (∃ (src : Src) (p : Fin 8) (s : State), Passes s src 0x200002 2 (256 * p.val + 4) (stateOwn s (256 * p.val + 4)) ∧ s.dev.on = true ∧
    s.dev.down = none ∧ s.dev.holdoff = false ∧ s.dev.state ≠ .outOfService ∧ s.dev.inReset.getLsbD p.val = false ∧ s.fw.farrierDown =
    false) :=
  ⟨⟨mbox, rdy, by unfold Passes; decide +kernel, by decide +kernel⟩,
   ⟨mbox, (dv fun d => { d with state := .test }), by unfold Passes; decide +kernel, by decide +kernel⟩,
   ⟨mbox, rdy, by unfold Passes; decide +kernel, by decide +kernel, by decide +kernel, by decide +kernel, by decide +kernel,
   by decide +kernel⟩,
   ⟨mbox, 7, rdy, by unfold Passes; decide +kernel, by decide +kernel, by decide +kernel, by decide +kernel, by decide +kernel,
   by decide +kernel, by decide +kernel⟩⟩

theorem witness_PinsAndTestPort :
    (∃ (c : Conn) (away : Bool) (flit : NativeFlit) (s : State), connUp s c = true ∧ guestBlocked s (c, away) (d2dLast s c away + 1)
    flit.sent = none) ∧
    (∃ (c : Conn) (away : Bool) (seq : Nat) (flit : NativeFlit) (crc : BitVec 16) (s : State), connUp s c = true ∧ connCrc c flit.got ≠ crc
    ∧ guestBlocked s (c, away) seq flit.sent = none ∧ seq ≤ d2dLast s c away + (replayBuffer s c away).length + 1) ∧
    (∃ (c : Conn) (away : Bool) (seq : Nat) (flit : NativeFlit) (s : State), connUp s c = true ∧ d2dLast s c away + 1 < seq ∧ seq ≤ d2dLast
    s c away + (replayBuffer s c away).length + 1 ∧ guestBlocked s (c, away) seq flit.sent = none) ∧
    (∃ (c : Conn) (away : Bool) (seq : Nat) (flit : NativeFlit) (s : State), connUp s c = true ∧ seq ≤ d2dLast s c away ∧ guestBlocked s (c,
    away) seq flit.sent = none) ∧
    (∃ (flit : NativeFlit) (crc : BitVec 16) (s : State), connUp s .guest = true) ∧
    (∃ (p : Fin 8) (s : State), s.domains.getLsbD 48 = true ∧ s.dev.inReset.getLsbD p.val = false ∧ s.dev.on = true ∧ s.dev.down = none ∧
    s.dev.holdoff = false ∧ s.dev.state ≠ .boot ∧ s.dev.state ≠ .outOfService ∧ s.fw.farrierDown = false ∧ s.steps.older = none ∧
    s.steps.younger = none) ∧
    (∃ (q : Die) (p : Fin 8) (s : State), s.domains.getLsbD 48 = true ∧ s.dev.inReset.getLsbD p.val = true ∧ q ≠ .compute p) ∧
    (∃ (i : Fin 7) (s : State), s.dev.on = true ∧ (tapOpen (tapOf i.val) = true ∨ s.dev.scanOpen = true)) ∧
    (∃ (i : Fin 7) (s : State), s.dev.on = true ∧ tapOpen (tapOf i.val) = false ∧ s.dev.scanOpen = false) ∧
    (∃ (s : State), s.dev.on = true) :=
  ⟨⟨.ring 7, true, ⟨(List.replicate 64 0), (List.replicate 64 0)⟩,
   { rdy with dev := { rdy.dev with d2dSeq := [((.ring 7, true), 1)], d2dBuf := [((.ring 7, true), [(List.replicate 64 0), (List.replicate 64 0)])] } },
   by decide +kernel⟩,
   ⟨.ring 7, true, 4, ⟨(List.replicate 64 0), (List.replicate 64 0)⟩, connCrc (.ring 7) (List.replicate 64 0) + 1,
   { rdy with dev := { rdy.dev with d2dSeq := [((.ring 7, true), 1)], d2dBuf := [((.ring 7, true), [(List.replicate 64 0), (List.replicate 64 0)])] } },
   by decide +kernel, ne_next _, by decide +kernel, by decide +kernel⟩,
   ⟨.ring 7, true, 4, ⟨(List.replicate 64 0), (List.replicate 64 0)⟩,
   { rdy with dev := { rdy.dev with d2dSeq := [((.ring 7, true), 1)], d2dBuf := [((.ring 7, true), [(List.replicate 64 0), (List.replicate 64 0)])] } },
   by decide +kernel⟩,
   ⟨.ring 7, true, 1, ⟨(List.replicate 64 0), (List.replicate 64 0)⟩,
   { rdy with dev := { rdy.dev with d2dSeq := [((.ring 7, true), 1)], d2dBuf := [((.ring 7, true), [(List.replicate 64 0), (List.replicate 64 0)])] } },
   by decide +kernel⟩,
   ⟨⟨(List.replicate 64 0), (List.replicate 64 0)⟩, 0, { rdy with dev := { rdy.dev with product := { guestPart := true } } },
   by decide +kernel⟩,
   ⟨7, rdy, by decide +kernel⟩,
   ⟨.compute 0, 7, (dv fun d => { d with inReset := 128 }), by decide +kernel⟩,
   ⟨6, (dv fun d => { d with scanOpen := true }), by decide +kernel⟩,
   ⟨6, rdy, by decide +kernel⟩,
   ⟨rdy, by decide +kernel⟩⟩

theorem witness_DispatchAndSync :
    (∃ (c : Fin 16) (t : Task) (s : State), taskAt s c.val (ctxAt s c.val).pos = some t ∧ dispatchable s c.val = true ∧ firstInLine s c.val
    = true ∧ isColl t = true) ∧
    (∃ (c : Fin 16) (t : Task) (ps : List (Nat × Piece)) (s : State), taskAt s c.val (ctxAt s c.val).pos = some t ∧ dispatchable s c.val =
    true ∧ firstInLine s c.val = true ∧ isColl t = false ∧ isCoreTask t = true ∧ piecesFor s c.val (ctxAt s c.val).step (ctxAt s c.val).pos
    t = some ps) ∧
    (∃ (c : Fin 16) (g : Nat) (pc : Piece) (r : List (Nat × Piece)) (s : State), (ctxAt s c.val).state = .running ∧ heldNow s (ctxAt s
    c.val).held = (g, pc) :: r ∧ g < 145 ∧ hasRoom s g pc = true) ∧
    (∃ (c : Fin 16) (obj : Nat) (inc : Nat) (mask : BitVec 16) (s : State), nextBody s c.val = some (.sig obj inc mask) ∧ dispatchable s
    c.val = true ∧ firstInLine s c.val = true) ∧
    (∃ (c : Fin 16) (obj : Nat) (target : Nat) (s : State), nextBody s c.val = some (.wait obj target) ∧ dispatchable s c.val = true ∧
    firstInLine s c.val = true) ∧
    (∃ (c : Fin 16) (w : SigWait) (s : State), (ctxAt s c.val).sigs.find? (sigReady s c.val) = some w ∧ objInReset s w.obj = false ∧ 0 <
    w.inc ∧ (c.val = 15 → 4096 ≤ w.obj) ∧ (syncAt s w.obj).tag ≤ w.step) ∧
    (∃ (w : SigWait) (s : State), (ctxAt s 15).sigs.find? (sigReady s 15) = some w ∧ w.obj < 4096) ∧
    (∃ (c : Fin 16) (obj : Nat) (target : Nat) (s : State), (ctxAt s c.val).waiting = some (obj, target) ∧ waitMet s obj target (ctxAt s
    c.val).step = true) ∧
    (∃ (c : Fin 16) (n : Nat) (s : State), ((ctxAt s c.val).waiting.isSome = true ∨ (ctxAt s c.val).held ≠ [] ∨ (ctxAt s c.val).state ≠
    .running ∨ ∃ k, k < c.val % 15 ∧ dispatchable s k = true)) :=
  ⟨⟨0, coll 5, inStep 0 [coll 5] id, by decide +kernel⟩,
   ⟨0, cp, [(136, { pc0 with slot := 128 })], inStep 0 [cp] id, by decide +kernel⟩,
   ⟨0, 0, pc0, [], inStep 0 [cp] fun x => { x with held := [(0, pc0)] }, by decide +kernel⟩,
   ⟨0, 0, 1, 1, inStep 0 [task 0x38 (.sig 0 1 1)] id, by decide +kernel⟩,
   ⟨0, 0, 0, inStep 0 [task 0x39 (.wait 0 0)] id, by decide +kernel⟩,
   ⟨0, ⟨0, 1, 0, 1, 1⟩, inStep 0 [task 0x38 (.sig 0 1 1)] fun x => { x with sigs := [⟨0, 1, 0, 1, 1⟩] }, by decide +kernel⟩,
   ⟨⟨0, 1, 0, 1, 1⟩, { rdy with ctxs := rdy.ctxs.set 15 { sigs := [⟨0, 1, 0, 1, 1⟩] } }, by decide +kernel⟩,
   ⟨0, 0, 0, { inStep 0 [task 0x39 (.wait 0 0)] (fun x => { x with waiting := some (0, 0) }) with sync := [(0, ⟨1, 0⟩)] },
   by decide +kernel⟩,
   ⟨1, 0, inStep 0 [cp] id, by decide +kernel⟩⟩

theorem witness_TileOps :
    (∃ x ∈ tileOps, ∃ (g : Fin 136) (hw : Hw) (pc : Piece) (t : Task) (s : State), headReady s g.val x.1 = some (pc, t) ∧ MayIssue s pc t
    hw) ∧
    (∃ (g : Fin 145) (hw : Hw) (pc : Piece) (t : Task) (s : State), headReady s g.val 0x31 = some (pc, t) ∧ MayIssue s pc t hw) ∧
    (∃ x ∈ tileOps, ∃ (g : Fin 136) (hw : Hw) (pc : Piece) (t : Task) (s : State), headReady s g.val x.1 = some (pc, t) ∧ splitRoom s pc.ctx
    (splitsNeeded s pc.ctx pc.step (workWrites (workOf s pc t hw))) = false) ∧
    (∃ (g : Fin 145) (hw : Hw) (pc : Piece) (t : Task) (s : State), headReady s g.val 0x31 = some (pc, t) ∧ splitRoom s pc.ctx (splitsNeeded
    s pc.ctx pc.step (workWrites (workOf s pc t hw))) = false) :=
  ⟨⟨(0x28, .convFmt), by simp [tileOps], 0, {}, pc0, cvt, (core0 (fun k => { k with queue := [pc0] }) (inStep 0 [cvt] id)),
   by decide +kernel, by unfold MayIssue; decide +kernel⟩,
   ⟨144, {}, pc0, cp, (engine (fun k => { k with queue := [pc0] }) (inStep 0 [cp] id)), by decide +kernel,
   by unfold MayIssue; decide +kernel⟩,
   ⟨(0x28, .convFmt), by simp [tileOps], 0, {}, pc0, cvt, (core0 (fun k => { k with queue := [pc0] }) (inStep 1 [cvt] id)),
   by decide +kernel⟩,
   ⟨144, {}, pc0, cp, (engine (fun k => { k with queue := [pc0] }) (inStep 1 [cp] id)), by decide +kernel⟩⟩

theorem witness_PieceCompletion :
    (∃ (g : Fin 145) (which : Fin 2) (r : Run) (t : Task) (s : State), (coreAt s g.val).running[which.val]? = some r ∧ taskAt s r.piece.ctx
    r.piece.task = some t ∧ r.stale = false ∧ r.piece.ctx < 16) ∧
    (∃ (g : Fin 145) (which : Fin 2) (r : Run) (s : State), (coreAt s g.val).running[which.val]? = some r ∧ r.stale = true) ∧
    (∃ (g : Fin 145) (since : Nat) (c : Nat) (ts : List (Nat × Nat)) (s : State), s.vers.stalled.filter (fun x => x.1 = g.val) = [(g.val,
    since)] ∧ headSplits s g.val = some (c, ts) ∧ splitRoom s c ts = true) ∧
    (∃ (g : Fin 145) (c : Nat) (ts : List (Nat × Nat)) (s : State), (s.vers.stalled.any fun x => x.1 = g.val) = true ∧ headSplits s g.val =
    some (c, ts) ∧ splitRoom s c ts = false ∧ splitRoom (finishHolds s (ts.length + poolCopies s - s.vers.reserve)) c ts = false) :=
  ⟨⟨0, 0, run0, cp, core0 (fun k => { k with running := [run0] }) (inStep 0 [cp] id), by decide +kernel⟩,
   ⟨0, 0, { run0 with stale := true }, core0 (fun k => { k with running := [{ run0 with stale := true }] }) (inStep 0 [cp] id),
   by decide +kernel⟩,
   ⟨0, 0, 0, [], { (core0 (fun k => { k with queue := [pc0] }) (inStep 0 [cp] id)) with vers := { stalled := [(0, 0)] } },
   by decide +kernel⟩,
   ⟨0, 0, [(1, 0)], { (core0 (fun k => { k with queue := [pc0] }) (inStep 1 [cp] id)) with vers := { stalled := [(0, 0)] } },
   by decide +kernel⟩⟩

theorem witness_CheckPieces :
    (∃ (g : Fin 136) (err : CheckErr) (c : CheckPiece) (s : State), checkReady s g.val = some c ∧ err.eccs = [] ∧ s.mem.marks = []) ∧
    (∃ (g : Fin 136) (c : CheckPiece) (out : UnitOut) (r : CheckRec) (s : State), (coreAt s g.val).checking = some (c, [out]) ∧ c.source ≠
    .arbiter ∧ findRec s c out.unit = some r ∧ r.digests = out.digests ∧ c.stale = false) ∧
    (∃ (g : Fin 136) (c : CheckPiece) (out : UnitOut) (r : CheckRec) (s : State), (coreAt s g.val).checking = some (c, [out]) ∧ c.source =
    .sample ∧ findRec s c out.unit = some r ∧ r.digests ≠ out.digests) ∧
    (∃ (g : Fin 136) (c : CheckPiece) (outs : List UnitOut) (s : State), (coreAt s g.val).checking = some (c, outs) ∧ c.source = .arbiter) ∧
    (∃ (g : Fin 136) (c : CheckPiece) (outs : List UnitOut) (s : State), (coreAt s g.val).checking = some (c, outs) ∧ c.source = .arbiter ∧
    (outs.flatMap (·.digests) = c.prim ∨ outs.flatMap (·.digests) = c.chk)) ∧
    (∃ (g : Fin 136) (c : CheckPiece) (outs : List UnitOut) (s : State), (coreAt s g.val).checking = some (c, outs) ∧ c.source ≠ .arbiter ∧
    (∀ x ∈ c.units, findRec s c x.unit = none)) ∧
    (∃ (g : Fin 136) (c : CheckPiece) (outs : List UnitOut) (x : UnitOut) (s : State), (coreAt s g.val).checking = some (c, outs) ∧ c.source
    = .sample ∧ c.units = [x] ∧ (findRec s c x.unit).isSome = true) ∧
    (∃ (g : Fin 145) (which : Fin 2) (r : Run) (s : State), (coreAt s g.val).running[which.val]? = some r ∧ r.stale = false ∧ r.piece.ctx <
    16 ∧ (ctxAt s r.piece.ctx).state = .running ∧ s.steps.older = none ∧ s.steps.younger = none ∧ s.recov.lostPend = 0) ∧
    (∃ (c : Fin 16) (n : Nat) (s : State), collLeft s c.val = some n ∧ s.recov.wait = false ∧ collHeld s c.val = false ∧ assoc?
    s.vers.stalled (collStall c.val) = none ∧ (ctxAt s c.val).state = .running ∧ s.steps.older = none ∧ s.steps.younger = none ∧
    s.recov.lostPend = 0) ∧
    (∃ (c : Fin 16) (obj : Nat) (target : Nat) (s : State), (ctxAt s c.val).waiting = some (obj, target) ∧ objInReset s obj = false ∧
    s.recov.wait = false ∧ (ctxAt s c.val).state = .running ∧ s.steps.older = none ∧ s.steps.younger = none ∧ s.recov.lostPend = 0) ∧
    (∃ (c : Fin 16) (w : SigWait) (s : State), (ctxAt s c.val).sigs = [w] ∧ (ctxAt s c.val).state = .running ∧ s.steps.older = none ∧
    s.steps.younger = none ∧ s.recov.lostPend = 0) :=
  ⟨⟨0, {}, { source := .sample, piece := pc0, units := [{ unit := 0, digests := [5] }] }, core0 (fun k =>
   { k with checkQ := [{ source := .sample, piece := pc0, units := [{ unit := 0, digests := [5] }] }] }) (inStep 0 [cp] id),
   by decide +kernel⟩,
   ⟨0, { source := .sample, piece := pc0, units := [{ unit := 0, digests := [5] }] }, { unit := 0, digests := [5] },
   { source := .sample, ctx := 0, task := 0, unit := 0, slot := 0, core := 0, digests := [5] }, core0 (fun k =>
   { k with checking := some ({ source := .sample, piece := pc0, units := [{ unit := 0, digests := [5] }] }, [{ unit := 0, digests := [5] }]) })
   { inStep 0 [cp] id with steps := { older := some { step := 1, checks := [{ source := .sample, ctx := 0, task := 0, unit := 0, slot := 0, core := 0, digests := [5] }] } } },
   by decide +kernel⟩,
   ⟨0, { source := .sample, piece := pc0, units := [{ unit := 0, digests := [5] }] }, { unit := 0, digests := [6] },
   { source := .sample, ctx := 0, task := 0, unit := 0, slot := 0, core := 0, digests := [5] }, core0 (fun k =>
   { k with checking := some ({ source := .sample, piece := pc0, units := [{ unit := 0, digests := [5] }] }, [{ unit := 0, digests := [6] }]) })
   { inStep 0 [cp] id with steps := { older := some { step := 1, checks := [{ source := .sample, ctx := 0, task := 0, unit := 0, slot := 0, core := 0, digests := [5] }] } } },
   by decide +kernel⟩,
   ⟨0, { source := .arbiter, piece := pc0, units := [], prim := [5], chk := [6] }, [], core0 (fun k =>
   { k with checking := some ({ source := .arbiter, piece := pc0, units := [], prim := [5], chk := [6] }, []) }) (inStep 0 [cp] id),
   by decide +kernel⟩,
   ⟨0, { source := .arbiter, piece := pc0, units := [], prim := [5], chk := [6] }, [{ unit := 0, digests := [5] }], core0 (fun k =>
   { k with checking := some ({ source := .arbiter, piece := pc0, units := [], prim := [5], chk := [6] }, [{ unit := 0, digests := [5] }]) })
   (inStep 0 [cp] id), by decide +kernel⟩,
   ⟨0, { source := .sample, piece := pc0, units := [{ unit := 0, digests := [5] }] }, [], core0 (fun k =>
   { k with checking := some ({ source := .sample, piece := pc0, units := [{ unit := 0, digests := [5] }] }, []) }) (inStep 0 [cp] id),
   by decide +kernel⟩,
   ⟨0, { source := .sample, piece := pc0, units := [{ unit := 0, digests := [5] }] }, [{ unit := 0, digests := [5] }],
   { unit := 0, digests := [5] }, core0 (fun k =>
   { k with checking := some ({ source := .sample, piece := pc0, units := [{ unit := 0, digests := [5] }] }, [{ unit := 0, digests := [5] }]) })
   { inStep 0 [cp] id with steps := { older := some { step := 1, checks := [{ source := .sample, ctx := 0, task := 0, unit := 0, slot := 0, core := 0, digests := [5] }] } } },
   by decide +kernel⟩,
   ⟨0, 0, run0, core0 (fun k => { k with running := [run0] }) { inStep 0 [cp] id with steps := {} }, by decide +kernel⟩,
   ⟨0, 0, { inStep 0 [coll 5] (fun x => { x with left := [(0, 1)] }) with steps := {} }, by decide +kernel⟩,
   ⟨0, 0, 0, { inStep 0 [task 0x39 (.wait 0 0)] (fun x => { x with waiting := some (0, 0) }) with steps := {} }, by decide +kernel⟩,
   ⟨0, ⟨0, 1, 0, 1, 1⟩, { inStep 0 [cp] (fun x => { x with sigs := [⟨0, 1, 0, 1, 1⟩] }) with steps := {} }, by decide +kernel⟩⟩

theorem witness_Collectives :
    (∃ (c : Fin 16) (ms : List (List Nat)) (sh : List (List Byte)) (k : CollTask) (u : Unit_) (s : State), collReady s c.val 0 = some k ∧
    allThere k.group ms = true ∧ allThere k.group sh = true ∧ u = (collWork s c.val k fun s => allReduceUnit s c.val k ms sh) ∧ collRoom s
    c.val k u = true ∧ s.mem.marks = [] ∧ SendsReach s c.val k (reduceSends s c.val k ms ++ gatherSends s c.val k u)) ∧
    (∃ (c : Fin 16) (ms : List (List Nat)) (k : CollTask) (s : State), collReady s c.val 1 = some k ∧ allThere k.group ms = true ∧ collRoom
    s c.val k (collWork s c.val k fun s => reduceScatterUnit s c.val k ms) = true ∧ s.mem.marks = [] ∧ SendsReach s c.val k (reduceSends s
    c.val k ms)) ∧
    (∃ (c : Fin 16) (ms : List (List Byte)) (k : CollTask) (u : Unit_) (s : State), collReady s c.val 2 = some k ∧ allThere k.group ms =
    true ∧ u = (collWork s c.val k fun s => gatherUnit s c.val k ms) ∧ collRoom s c.val k u = true ∧ s.mem.marks = [] ∧ SendsReach s c.val k
    (gatherSends s c.val k u)) ∧
    (∃ (c : Fin 16) (k : CollTask) (s : State), collReady s c.val 3 = some k ∧ collRoom s c.val k { unit := 0 } = true ∧ s.mem.marks = [] ∧
    SendsReach s c.val k (sendSends s c.val k)) ∧
    (∃ (c : Fin 16) (data : List Byte) (k : CollTask) (s : State), collReady s c.val 4 = some k ∧ collRoom s c.val k
    { unit := 0, writes := [⟨k.dst, 0, recvBytes s (tensorBytes (tensorAt (progAt s c.val) k.dst)) data⟩] } = true ∧ s.mem.marks = []) ∧
    (∃ (c : Fin 16) (k : CollTask) (s : State), collReady s c.val 5 = some k ∧ (chanAt s k.group.channel).own = none ∧ k.group.channel < 64
    ∧ barrierSplits s c.val k = [] ∧ splitRoom s c.val [] = true ∧ chanWordOf (chanOwn (onChan (collGoes s c.val k.pos) k.group.channel fun
    x => { x with task := some k.pos }) k.group.channel (chanAt s k.group.channel).gen k.group.bop c.val (barrierWord s c.val k))
    k.group.channel = none) ∧
    (∃ (c : Fin 16) (k : CollTask) (w : BitVec 32) (s : State), collReady s c.val 5 = some k ∧ (chanAt s k.group.channel).own = none ∧
    k.group.channel < 64 ∧ barrierSplits s c.val k = [] ∧ splitRoom s c.val [] = true ∧ chanWordOf (chanOwn (onChan (collGoes s c.val k.pos)
    k.group.channel fun x => { x with task := some k.pos }) k.group.channel (chanAt s k.group.channel).gen k.group.bop c.val (barrierWord s
    c.val k)) k.group.channel = some w ∧ collHeld s c.val = false ∧ s.mem.marks = []) ∧
    (∃ (c : Fin 16) (k : CollTask) (s : State), collReady s c.val 6 = some k ∧ s.mem.marks = [] ∧ SendsReach s c.val k [signalFlit k]) ∧
    (∃ (c : Fin 16) (gi : Nat) (n : Nat) (o : Nat) (a : BitVec 4) (s : State), a.toNat = s.steps.attempt % 16 ∧ (progAt s
    c.val).groups[gi]?.bind (·.notifyObj) = some o ∧ objInReset s o = false ∧ (syncAt s o).tag ≤ n) ∧
    (∃ (c : Fin 16) (gi : Nat) (n : Nat) (a : BitVec 4) (s : State), a.toNat ≠ s.steps.attempt % 16) :=
  ⟨⟨0, [[0]], [[0, 0, 0, 0]], { pos := 0, step := 1, kind := 0, redop := 0, group := alone, src := ⟨0, 0⟩, dst := 1, peer := 0 }, (collWork
   (inStep 0 [coll 0] fun x => { x with left := [(0, 1)] }) 0
   { pos := 0, step := 1, kind := 0, redop := 0, group := alone, src := ⟨0, 0⟩, dst := 1, peer := 0 } fun s => allReduceUnit s 0
   { pos := 0, step := 1, kind := 0, redop := 0, group := alone, src := ⟨0, 0⟩, dst := 1, peer := 0 } [[0]] [[0, 0, 0, 0]]), inStep 0 [coll
   0] fun x => { x with left := [(0, 1)] }, by decide +kernel, by decide +kernel, by decide +kernel, rfl, by decide +kernel,
   by decide +kernel, sends_reach _ _ _ _ (by decide +kernel)⟩,
   ⟨0, [[0]], { pos := 0, step := 1, kind := 1, redop := 0, group := alone, src := ⟨0, 0⟩, dst := 1, peer := 0 }, inStep 0 [coll 1] fun x =>
   { x with left := [(0, 1)] }, by decide +kernel, by decide +kernel, by decide +kernel, by decide +kernel, sends_reach _ _ _ _
   (by decide +kernel)⟩,
   ⟨0, [[0, 0, 0, 0]], { pos := 0, step := 1, kind := 2, redop := 0, group := alone, src := ⟨0, 0⟩, dst := 1, peer := 0 }, (collWork (inStep
   0 [coll 2] fun x => { x with left := [(0, 1)] }) 0
   { pos := 0, step := 1, kind := 2, redop := 0, group := alone, src := ⟨0, 0⟩, dst := 1, peer := 0 } fun s => gatherUnit s 0
   { pos := 0, step := 1, kind := 2, redop := 0, group := alone, src := ⟨0, 0⟩, dst := 1, peer := 0 } [[0, 0, 0, 0]]), inStep 0 [coll 2] fun
   x => { x with left := [(0, 1)] }, by decide +kernel, by decide +kernel, rfl, by decide +kernel, by decide +kernel, sends_reach _ _ _ _
   (by decide +kernel)⟩,
   ⟨0, { pos := 0, step := 1, kind := 3, redop := 0, group := alone, src := ⟨0, 0⟩, dst := 1, peer := 0 }, inStep 0 [coll 3] fun x =>
   { x with left := [(0, 1)] }, by decide +kernel, by decide +kernel, by decide +kernel, sends_reach _ _ _ _ (by decide +kernel)⟩,
   ⟨0, [0, 0, 0, 0], { pos := 0, step := 1, kind := 4, redop := 0, group := alone, src := ⟨0, 0⟩, dst := 1, peer := 0 }, inStep 0 [coll 4]
   fun x => { x with left := [(0, 1)] }, by decide +kernel⟩,
   ⟨0, { pos := 0, step := 1, kind := 5, redop := 0, group := alone, src := ⟨0, 0⟩, dst := 1, peer := 0 }, inStep 0 [coll 5] fun x =>
   { x with left := [(0, 1)] }, by decide +kernel⟩,
   ⟨0, { pos := 0, step := 1, kind := 5, redop := 0, group := alone, src := ⟨0, 0⟩, dst := 1, peer := 0 }, (barrierWord
   { inStep 0 [coll 5] fun x => { x with left := [(0, 1)] } with dict := { latched := { shape := 0, block := 0 } } } 0
   { pos := 0, step := 1, kind := 5, redop := 0, group := alone, src := ⟨0, 0⟩, dst := 1, peer := 0 }),
   { inStep 0 [coll 5] fun x => { x with left := [(0, 1)] } with dict := { latched := { shape := 0, block := 0 } } }, by decide +kernel,
   by decide +kernel, by decide +kernel, by decide +kernel, by decide +kernel, rfl, by decide +kernel, by decide +kernel⟩,
   ⟨0, { pos := 0, step := 1, kind := 6, redop := 0, group := alone, src := ⟨0, 0⟩, dst := 1, peer := 0 }, inStep 0 [coll 6] fun x =>
   { x with left := [(0, 1)] }, by decide +kernel, by decide +kernel, sends_reach _ _ _ _ (by decide +kernel)⟩,
   ⟨0, 0, 1, 0, 0, inStep 0 [] id, by decide +kernel⟩,
   ⟨0, 0, 1, 1, inStep 0 [] id, by decide +kernel⟩⟩

theorem witness_StepCourse :
    (∃ (n : Nat) (s : State), nextStep s = some n ∧ mayBegin s n = true) ∧
    (∃ (filled : Nat) (s : State), s.fetch.state = 1 ∧ cxlUp s = true) ∧
    (∃ (h : Nat) (filled : Nat) (s : State), s.fetch.state = 1 ∧ cxlUp s = true ∧ h ≠ s.fetch.step) ∧
    (∃ (body : List Byte) (s : State), s.fetch.state = 2 ∧ cxlUp s = true ∧ batchShut s = false) ∧
    (∃ (body : List Byte) (s : State), s.fetch.state = 2 ∧ cxlUp s = true ∧ batchShut s = true) ∧
    (∃ (n : Nat) (s : State), s.steps.replayDue = some n ∧ replayReady s = true ∧ s.steps.older = none) :=
  ⟨⟨2, inStep 0 [] id, by decide +kernel⟩,
   ⟨64, { rdy with fetch := { state := 1, step := 1 } }, by decide +kernel⟩,
   ⟨2, 64, { rdy with fetch := { state := 1, step := 1 } }, by decide +kernel⟩,
   ⟨[1], { rdy with fetch := { state := 2, step := 1, filled := 1 } }, by decide +kernel⟩,
   ⟨[1],
   { inStep clsInput [] id with fetch := { state := 2, step := 1, filled := 1 }, place := { tensors := [{ ctx := 0, tensor := 1, cls := 4, parts := 1 }] }, dev := { (inStep 0 [] id).dev with inReset := 1 } },
   by decide +kernel⟩,
   ⟨1, { inStep 0 [] id with steps := { replayDue := some 1 } }, by decide +kernel⟩⟩

theorem witness_Verdict :
    (∃ (o : OpenStep) (s : State), s.steps.older = some o ∧ mayContribute s = true ∧ verdictFails s o = true ∧ s.steps.replayActive = false
    ∧ s.recov.role = .working ∧ (∀ k, k < 8 → (abortWord s o.step).testBit (8 + k) = (decide (k = 6) && s.recov.hold))) ∧
    (∃ (o : OpenStep) (s : State), s.steps.older = some o ∧ mayContribute s = true ∧ verdictFails s o = false ∧ verdictClean s o = true ∧
    chanWordOf (chanOwn
    { s with steps := { s.steps with older := some { o with status := .contributed }, contribAt := s.clk.now, lagOwn := fld (cleanContribution s).toNat 31 16 } }
    0 (gen0 o.step) 0 0xF (cleanContribution s)) 0 = none) ∧
    (∃ (o : OpenStep) (s : State), s.steps.older = some o ∧ verdictFails s o = false ∧ verdictClean s o = false) :=
  ⟨⟨{ step := 1, fails := 1 }, { inStep 0 [] id with steps := { older := some { step := 1, fails := 1 } } }, by decide +kernel⟩,
   ⟨{ step := 1, mirrorAcked := true }, { inStep 0 [] id with steps := { older := some { step := 1, mirrorAcked := true } } },
   by decide +kernel⟩,
   ⟨{ step := 1 }, inStep 0 [cp] id, by decide +kernel⟩⟩

theorem witness_SyncLanes :
    (∃ (l : Fin 48) (f : BitVec 96) (plus : Bool) (s : State), frameDue s l.val 1 f = true ∧ frOk f = true ∧ frameNew s l.val f = true ∧
    barriersOn (frameIn s l.val f) = true ∧ upAxis (frLoad f) < 3 ∧ fencedSide (frameIn s l.val f) (linkDir s l.val) = false ∧ s.recov.role
    ≠ .fenced ∧ stepInBlock s (ownCoord s) (linkDir s l.val) = true ∧ attemptOk s (frLoad f) = true ∧ 2 ≤ upChan (frLoad f) ∧ upChan (frLoad
    f) < 64 ∧ upSide (frameIn s l.val f) (frLoad f) (linkDir s l.val) = some plus ∧ upGen (frLoad f) = genNow (frameIn s l.val f) (upChan
    (frLoad f)) (upGen (frLoad f)) ∧ chanWordOf (chanTake (frameIn s l.val f) (upChan (frLoad f)) (upGen (frLoad f)) (upOp (frLoad f))
    (upAxis (frLoad f)) plus (upCount (frLoad f)) (upValue (frLoad f))) (upChan (frLoad f)) = none) ∧
    (∃ (l : Fin 48) (f : BitVec 96) (s : State), frameDue s l.val 2 f = true ∧ frOk f = true ∧ frameNew s l.val f = true ∧ barriersOn
    (frameIn s l.val f) = true ∧ upChan (frLoad f) = 0 ∧ fencedSide (frameIn s l.val f) (linkDir s l.val) = false ∧ s.recov.role = .working
    ∧ (s.dev.state = .joined ∨ s.dev.state = .recovery) ∧ stepInBlock s (ownCoord s) (linkDir s l.val) = true ∧ attemptOk s (frLoad f) =
    true ∧ upGen (frLoad f) = gen0 (downStep s (frLoad f)) ∧ s.steps.replayActive = false ∧ (s.recov.hold && s.recov.holdOwed) = false ∧ (∀
    k, k < 8 → ((upValue (frLoad f)).toNat ||| fenceBits s).testBit (8 + k) = (k = 6 && s.recov.hold))) ∧
    (∃ (l : Fin 48) (f : BitVec 96) (s : State), frameDue s l.val 2 f = true ∧ frOk f = true ∧ frameNew s l.val f = true ∧ barriersOn
    (frameIn s l.val f) = true ∧ upChan (frLoad f) = 0 ∧ fencedSide (frameIn s l.val f) (linkDir s l.val) = false ∧ s.recov.role = .working
    ∧ (s.dev.state = .joined ∨ s.dev.state = .recovery) ∧ stepInBlock s (ownCoord s) (linkDir s l.val) = true ∧ attemptOk s (frLoad f) =
    true ∧ upGen (frLoad f) = gen0 (downStep s (frLoad f) + 1) ∧ (∀ k, k < 6 → (upValue (frLoad f)).toNat.testBit (8 + k) = false)) ∧
    (∃ (l : Fin 48) (f : BitVec 96) (s : State), frameDue s l.val 3 f = true ∧ frOk f = true ∧ frameNew s l.val f = true) ∧
    (∃ (l : Fin 48) (f : BitVec 96) (s : State), frameDue s l.val 4 f = true ∧ frOk f = true ∧ frameNew s l.val f = true ∧ fld (frLoad f) 2
    0 ≠ 0) ∧
    (∃ (l : Fin 48) (f : BitVec 96) (s : State), frameDue s l.val 0 f = true ∧ frOk f = true) ∧
    (∃ (l : Fin 48) (s : State), s.dev.on = true ∧ inService (linkAt s l.val) = true ∧ scanDrives s = false) ∧
    (∃ (l : Fin 48) (s : State), inService (linkAt s l.val) = true) ∧
    (∃ (d : Dir) (s : State), sideServed s d = true ∧ (sideOf s d).silent = false) :=
  ⟨⟨0, frameOf 1 0 (2 * 2 ^ 58 + 2 ^ 38), true, busyLink, by decide +kernel⟩,
   ⟨0, frameOf 2 0 (2 ^ 50), busyLink, by decide +kernel⟩,
   ⟨0, frameOf 2 0 (2 * 2 ^ 50), busyLink, by decide +kernel⟩,
   ⟨0, frameOf 3 0 5, busyLink, by decide +kernel⟩,
   ⟨0, frameOf 4 0 4, busyLink, by decide +kernel⟩,
   ⟨0, frameOf 0 0 0, busyLink, by decide +kernel⟩,
   ⟨0, busyLink, by decide +kernel⟩,
   ⟨0, busyLink, by decide +kernel⟩,
   ⟨.xp, busyLink, by decide +kernel⟩⟩

theorem witness_BadFrames :
    (∃ x ∈ [(0, Instr.syncIdleFrame), (1, Instr.syncUpFrame), (2, Instr.syncDownFrame), (3, Instr.syncLeavingFrame), (4,
    Instr.syncStateFrame)], ∃ (l : Fin 48) (f : BitVec 96) (s : State), s.dev.on = true ∧ inService (linkAt s l.val) = true ∧ frOk f =
    false) :=
  ⟨(1, .syncUpFrame), by simp, 0, 1, busyLink, by decide +kernel⟩

theorem witness_Fencing :
    (∃ (d : Dir) (s : State), (sideOf s d).silent = true ∧ inJob s = true ∧ stepInBlock s (ownCoord s) d = true ∧ inBlock s (stepCoord s
    (ownCoord s) d) = true ∧ knowsFence s (fenceRec s (serialOf s d) (stepCoord s (ownCoord s) d) 1) = false ∧ forwards s.dev.state = true) ∧
    (∃ (d : Dir) (s : State), s.recov.wait = true ∧ (sideOf s d).nbState = some .recovery ∧ inJob s = true ∧ stepInBlock s (ownCoord s) d =
    true ∧ inBlock s (stepCoord s (ownCoord s) d) = true ∧ knowsFence s (fenceRec s (serialOf s d) (stepCoord s (ownCoord s) d) 4) = false) ∧
    (∃ (s : State), s.recov.own ≠ [] ∧ forwards s.dev.state = true) ∧
    (∃ (s : State), forwards s.dev.state = false) ∧
    (∃ (slot : Fin 6) (r : BitVec 128) (at_ : Nat) (d : Dir) (s : State), s.recov.own.find? (fun x => slotOf x.1 = slot.val) = some (r, at_)
    ∧ fenceCoord r ≠ ownCoord s ∧ dirTo s (fenceCoord r) = some d ∧ holdsFrom s d = true) ∧
    (∃ (l : Fin 48) (r : BitVec 128) (s : State), inService (linkAt s l.val) = true ∧ forwards s.dev.state = true ∧ inBlock s (fenceCoord r)
    = true ∧ knowsFence s r = false ∧ s.recov.dropped.any (sameFence r) = false ∧ fenceCoord r ≠ ownCoord s ∧ inJob s = true ∧
    s.recov.asked.getLsbD (slotOf r) = false) ∧
    (∃ (slot : Fin 6) (s : State), s.recov.asked.getLsbD slot.val = true ∧ holdsSlot s slot.val = false) ∧
    (∃ (src : Src) (coord : BitVec 32) (d : Dir) (s : State), Passes s src 0x84000E 4 coord.toNat (fenceOwn s coord.toNat) ∧ neighbourAt s
    coord.toNat = some d ∧ stepInBlock s (ownCoord s) d = true ∧ inBlock s (stepCoord s (ownCoord s) d) = true ∧ knowsFence s (fenceRec s
    (serialOf s d) (stepCoord s (ownCoord s) d) 6) = false) :=
  ⟨⟨.xp, side0 (fun d => { d with silent := true }) busyLink, by decide +kernel⟩,
   ⟨.xp, side0 (fun d => { d with nbState := some .recovery }) { busyLink with recov := { role := .working, wait := true } },
   by decide +kernel⟩,
   ⟨{ busyLink with recov := { role := .working, own := [(fenceRec busyLink 7 1 1, 0)] } }, by decide +kernel⟩,
   ⟨(dv fun d => { d with state := .outOfService }), by decide +kernel⟩,
   ⟨1, fenceRec busyLink 7 1 1, 0, .xp,
   { busyLink with recov := { role := .working, own := [(fenceRec busyLink 7 1 1, 0)] }, chans := busyLink.chans.set 0 { early := [(1, 0, true, 1, 0)] } },
   by decide +kernel⟩,
   ⟨0, fenceRec busyLink 7 2 1, busyLink, by decide +kernel⟩,
   ⟨5, { busyLink with recov := { role := .working, asked := 32 } }, by decide +kernel⟩,
   ⟨mbox, 1, .xp, busyLink, by unfold Passes; decide +kernel, by decide +kernel, by decide +kernel, by decide +kernel, by decide +kernel⟩⟩

theorem witness_TakeoverAndMirror :
    (∃ (tensors : List (Nat × Nat × List Byte)) (recs : List (BitVec 128)) (s : State), s.recov.role = .taking ∧ ostlerBusy s 2 = false ∧
    takeoverComplete s tensors = true) ∧
    (∃ (tensors : List (Nat × Nat × List Byte)) (recs : List (BitVec 128)) (s : State), s.recov.role = .taking ∧ ostlerBusy s 2 = false ∧
    takeoverComplete s tensors = false) ∧
    (∃ (tensors : List (Nat × Nat × List Byte)) (recs : List (BitVec 128)) (o : OpenStep) (s : State), s.recov.role = .taking ∧ ostlerBusy s
    2 = false ∧ s.recov.lostPend = 0 ∧ s.steps.older = some o ∧ o.status = .contributed) ∧
    (∃ (p : Fin 8) (tiles : List (Nat × Nat × Nat × List Byte)) (recs : List (BitVec 128)) (s : State), s.recov.refills.getLsbD p.val = true
    ∧ s.dev.inService.getLsbD p.val = true ∧ (∀ g ∈ missingTiles s p.val, g ∈ tiles.map fun x => (x.1, x.2.1, x.2.2.1))) ∧
    (∃ (p : Fin 8) (tiles : List (Nat × Nat × Nat × List Byte)) (recs : List (BitVec 128)) (s : State), (∃ g ∈ missingTiles s p.val, g ∉
    tiles.map fun x => (x.1, x.2.1, x.2.2.1))) ∧
    (∃ (n : Nat) (tensors : List (Nat × Nat × List Byte)) (recs : List (BitVec 128)) (s : State), isMirror s = true ∧ mirrorShut s
    (mirrorTiles .committed tensors) = false) ∧
    (∃ (n : Nat) (tensors : List (Nat × Nat × List Byte)) (recs : List (BitVec 128)) (s : State), isMirror s = true ∧ mirrorShut s
    (mirrorTiles .committed tensors) = false ∧ (n = s.steps.committed + 1 ∨ n = s.steps.committed + 2) ∧ (mirrorSplits s (mirrorTiles
    (workKind s 0 n) tensors)).length + poolCopies s ≤ s.vers.reserve) ∧
    (∃ (n : Nat) (again : Bool) (tensors : List (Nat × Nat × List Byte)) (recs : List (BitVec 128)) (s : State), isMirror s = true ∧
    mirrorShut s (mirrorTiles .committed tensors) = true) ∧
    (∃ (o : OpenStep) (s : State), s.steps.older = some o ∧ o.mirrorSent = true) ∧
    (∃ (cut : Nat) (piece : List Byte) (s : State), isMirror s = true) :=
  ⟨⟨[], [], { rdy with recov := { role := .taking } }, by decide +kernel⟩,
   ⟨[], [], { rdy with recov := { role := .taking }, dev := { rdy.dev with inReset := 1 } }, by decide +kernel⟩,
   ⟨[], [], { step := 1, status := .contributed },
   { rdy with recov := { role := .taking }, steps := { older := some { step := 1, status := .contributed } } }, by decide +kernel⟩,
   ⟨0, [(0, 0, 0, [1, 2, 3, 4])], [],
   { inStep 1 [] (fun x => { x with prog := x.prog.map fun p => { p with tensors := [one 1], tasks := [task 0x25 (.opt 0 ⟨0, 0⟩ ⟨0, 0⟩ ⟨0, 0⟩ ⟨0, 0⟩ ⟨0, 0⟩ 0 0 0)] } }) with recov := { role := .working, refills := 1 } },
   by decide +kernel⟩,
   ⟨0, [], [],
   { inStep 1 [] (fun x => { x with prog := x.prog.map fun p => { p with tensors := [one 1], tasks := [task 0x25 (.opt 0 ⟨0, 0⟩ ⟨0, 0⟩ ⟨0, 0⟩ ⟨0, 0⟩ ⟨0, 0⟩ 0 0 0)] } }) with recov := { role := .working, refills := 1 } },
   by decide +kernel⟩,
   ⟨0, [(0, 0, [1])], [], inStep 0 [] id, by decide +kernel⟩,
   ⟨1, [(0, 0, [1])], [], { inStep 0 [] id with vers := { reserve := 1 } }, by decide +kernel⟩,
   ⟨1, false, [(0, 0, [1])], [], { inStep 0 [] id with dev := { (inStep 0 [] id).dev with inReset := 255 } }, by decide +kernel⟩,
   ⟨{ step := 1, mirrorSent := true }, { rdy with steps := { older := some { step := 1, mirrorSent := true } } }, by decide +kernel⟩,
   ⟨4, [1], inStep 0 [] id, by decide +kernel⟩⟩

theorem witness_LinkFlits :
    (∃ (l : Fin 48) (h : BitVec 96) (pay : List Byte) (ws : List (List (Fin 544))) (s : State), inService (linkAt s l.val) = true ∧ fecLost
    ws = 0 ∧ tooManyErrors (fecCounts s.clk.now ws (linkAt s l.val)) = false ∧ BitVec.ofNat 16 (hdSeq h) = (linkAt s l.val).rxSeq + 1) ∧
    (∃ (l : Fin 48) (h : BitVec 96) (pay : List Byte) (crc : BitVec 32) (ws : List (List (Fin 544))) (ack : Option (BitVec 16)) (s : State),
    inService (linkAt s l.val) = true ∧ tooManyErrors (fecCounts s.clk.now ws (linkAt s l.val)) = false ∧ (fecLost ws ≠ 0 ∨ flitCrc h pay ≠
    crc)) ∧
    (∃ (l : Fin 48) (h : BitVec 96) (pay : List Byte) (crc : BitVec 32) (ws : List (List (Fin 544))) (ack : Option (BitVec 16)) (s : State),
    inService (linkAt s l.val) = true ∧ tooManyErrors (fecCounts s.clk.now ws (linkAt s l.val)) = true ∧ ostlerBusy s 1 = false) ∧
    (∃ (l : Fin 48) (g : BitVec 16) (s : State), inService (linkAt s l.val) = true ∧ (linkAt s l.val).waits = [] ∧ forwards s.dev.state =
    true ∧ (∀ f ∈ (ackedTo (some g) (linkAt s l.val)).txBuf, f.replays < 8 ∧ mayStillGo s (linkDir s l.val) f = true)) ∧
    (∃ (l : Fin 48) (g : BitVec 16) (s : State), inService (linkAt s l.val) = true ∧ (∃ f ∈ (ackedTo (some g) (linkAt s l.val)).txBuf,
    f.replays ≥ 8)) ∧
    (∃ (l : Fin 48) (h : BitVec 96) (pay : List Byte) (s : State), inService (linkAt s l.val) = true ∧ hdType h = 1 ∧ (linkAt s l.val).waits
    = [] ∧ tooManyErrors (linkAt s l.val) = false ∧ BitVec.ofNat 16 (hdSeq h) = (linkAt s l.val).rxSeq + 1 ∧ stepInBlock s (ownCoord s)
    (linkDir s l.val) = true ∧ forwards s.dev.state = true ∧ nextHop s h (some (opposite (linkDir s l.val))) = .here) :=
  ⟨⟨0, 65536, [], [[3]], busyLink, by decide +kernel⟩,
   ⟨0, 65536, [], 1, [[3]], none, busyLink, by decide +kernel⟩,
   ⟨0, 65536, [], 1, [(List.range 17).map (Fin.ofNat 544)], none, link0 (fun k =>
   { k with state := .up, trained := true, uncWin := [(0, 64)] }) rdy, by decide +kernel⟩,
   ⟨0, 0, link0 (fun k =>
   { k with state := .up, trained := true, dir := some .xp, txBuf := [{ hdr := 0, payload := [], seq := 1, replays := 7 }] }) rdy,
   by decide +kernel⟩,
   ⟨0, 0, link0 (fun k => { k with state := .up, trained := true, txBuf := [{ hdr := 0, payload := [], seq := 1, replays := 8 }] }) rdy,
   by decide +kernel⟩,
   ⟨0, BitVec.ofNat 96 (2 ^ 50 + 65536), [], busyLink, by decide +kernel⟩⟩

theorem witness_LinkLanes :
    (∃ (l : Fin 48) (lane : Fin 16) (s : State), (linkAt s l.val).trained = true ∧ lane.val ∉ (linkAt s l.val).laneBad ∧ (linkAt s
    l.val).spareUsed = false) ∧
    (∃ (l : Fin 48) (lane : Fin 16) (s : State), (linkAt s l.val).trained = true ∧ (linkAt s l.val).spareUsed = true) ∧
    (∃ (l : Fin 48) (lane : Fin 16) (errors : Nat) (symbols : Nat) (s : State), (linkAt s l.val).trained = true ∧ (errors + (linkAt s
    l.val).symErrs[lane]) * 50000 ≤ symbols) ∧
    (∃ (l : Fin 48) (lane : Fin 16) (errors : Nat) (symbols : Nat) (s : State), (linkAt s l.val).trained = true ∧ symbols < (errors +
    (linkAt s l.val).symErrs[lane]) * 50000 ∧ (linkAt s l.val).spareUsed = false) ∧
    (∃ (l : Fin 48) (lane : Fin 16) (s : State), (linkAt s l.val).trained = true) :=
  ⟨⟨0, 15, link0 (fun k => { k with trained := true, state := .up }) rdy, by decide +kernel⟩,
   ⟨0, 15, link0 (fun k => { k with trained := true, state := .up, spareUsed := true }) rdy, by decide +kernel⟩,
   ⟨0, 15, 1, 50000, link0 (fun k => { k with trained := true, state := .up }) rdy, by decide +kernel⟩,
   ⟨0, 15, 1, 49999, link0 (fun k => { k with trained := true, state := .up }) rdy, by decide +kernel⟩,
   ⟨0, 15, link0 (fun k => { k with trained := true, state := .up }) rdy, by decide +kernel⟩⟩

theorem witness_LinkTraining :
    (∃ (l : Fin 48) (latency : Nat) (s : State), mayTrain s l.val = true ∧ permanentLanes s l.val = [] ∧ unitGone s ⟨5, l.val⟩ = false) ∧
    (∃ (l : Fin 48) (latency : Nat) (s : State), mayTrain s l.val = true ∧ unitGone s ⟨5, l.val⟩ = true) ∧
    (∃ (l : Fin 48) (s : State), mayTrain s l.val = true ∧ ostlerBusy s 1 = false) ∧
    (∃ (l : Fin 48) (s : State), mayTrain s l.val = true ∧ (linkAt s l.val).cls = .missing ∧ ostlerBusy s 1 = false) ∧
    (∃ (l : Fin 48) (s : State), (linkAt s l.val).trained = true ∧ ((linkAt s l.val).recOk && (linkAt s l.val).recAcked) = false) ∧
    (∃ (l : Fin 48) (r : BitVec 256) (s : State), (linkAt s l.val).trained = true ∧ ostlerBusy s 1 = false ∧ serves s (classOf s l.val r) =
    true ∧ otherModule (linkAt s l.val) r = false) ∧
    (∃ (l : Fin 48) (r : BitVec 256) (s : State), (linkAt s l.val).trained = true ∧ ostlerBusy s 1 = false ∧ (serves s (classOf s l.val r) =
    false ∨ otherModule (linkAt s l.val) r = true)) ∧
    (∃ (src : Src) (v : BitVec 8) (s : State), Passes s src 0x30000A 1 v.toNat (linkFenceOwn s v.toNat) ∧ v.toNat < 48) :=
  ⟨⟨47, 30, rdy, by decide +kernel⟩,
   ⟨47, 30, { rdy with ledger := { summary := [{ unit := ⟨5, 47⟩, cls := 3 }] } }, by decide +kernel⟩,
   ⟨47, rdy, by decide +kernel⟩,
   ⟨0, link0 (fun k => { k with cls := .missing }) rdy, by decide +kernel⟩,
   ⟨0, link0 (fun k => { k with trained := true, state := .training }) rdy, by decide +kernel⟩,
   ⟨0, ownRecord { rdy with dict := { latched := { machine := 5, coords := 1 } } } 1,
   { link0 (fun k => { k with trained := true, state := .training }) rdy with dict := { latched := { machine := 5 } } }, by decide +kernel⟩,
   ⟨0, 0, link0 (fun k => { k with trained := true, state := .training }) rdy, by decide +kernel⟩,
   ⟨mbox, 0, { busyLink with links := (busyLink.links.set 6 busyLink.links[0]).set 12 busyLink.links[0] }, by unfold Passes; decide +kernel,
   by decide +kernel⟩⟩

theorem witness_ProgramLoad :
    (∃ (src : Src) (req : BitVec 128) (s : State), Passes s src 0x210010 16 req.toNat (loadOwn s req)) ∧
    (∃ (s : State), s.load.status = 1 ∧ ostlerBusy s 0 = false ∧ s.load.ctx < 16) :=
  ⟨⟨mbox, BitVec.ofNat 128 (64 * 2 ^ 64 + 256 * 2 ^ 32 + 15), rdy, by unfold Passes; decide +kernel⟩,
   ⟨{ rdy with load := { status := 1, ctx := 15 } }, by decide +kernel⟩⟩

theorem witness_ContextCommands :
    (∃ (src : Src) (s : State), Passes s src 0x210030 4 (ctxCommand 1 0) (startOwn s 0) ∧ coordOn (ownCoord s) 0 ≠ sparePos s ∧
    s.tests.gState = 0 ∧ rebuildFails s = false) ∧
    (∃ (src : Src) (s : State), Passes s src 0x210030 4 (ctxCommand 1 0) (startOwn s 0) ∧ coordOn (ownCoord s) 0 ≠ sparePos s ∧
    s.tests.gState = 0 ∧ rebuildFails s = true) ∧
    (∃ (src : Src) (s : State), Passes s src 0x210030 4 (ctxCommand 1 0) (startOwn s 0) ∧ coordOn (ownCoord s) 0 = sparePos s ∧
    s.tests.gState = 0) ∧
    (∃ (src : Src) (c : Fin 16) (s : State), Passes s src 0x210030 4 (ctxCommand 1 c.val) (startOwn s c.val) ∧ 1 ≤ c.val ∧ c.val ≤ 14) ∧
    (∃ (src : Src) (s : State), Passes s src 0x210030 4 (ctxCommand 1 15) (startOwn s 15) ∧ rw s 0x210044 ≤ s.steps.replayCut) ∧
    (∃ (src : Src) (s : State), Passes s src 0x210030 4 (ctxCommand 1 15) (startOwn s 15) ∧ s.steps.replayCut < rw s 0x210044 ∧ gatherStuck
    s (progAt s 15) = true) ∧
    (∃ (src : Src) (c : Fin 16) (s : State), Passes s src 0x210030 4 (ctxCommand 2 c.val) (haltOwn s c.val)) ∧
    (∃ (src : Src) (c : Fin 16) (s : State), Passes s src 0x210030 4 (ctxCommand 3 c.val) (resumeOwn s c.val)) ∧
    (∃ (src : Src) (c : Fin 16) (s : State), Passes s src 0x210030 4 (ctxCommand 4 c.val) (unloadOwn s c.val)) ∧
    (∃ (c : Fin 16) (s : State), (ctxAt s c.val).unloading = true ∧ unloadReady s c.val = true) ∧
    (∃ (src : Src) (s : State), Passes s src 0x40000D 1 1 (clearOwn 1)) ∧
    (∃ (src : Src) (c : Fin 16) (s : State), OwnerAsks s src ∧ (ctxAt s c.val).state ≠ .running) ∧
    (∃ (src : Src) (c : Fin 16) (s : State), OwnerAsks s src ∧ (ctxAt s c.val).state ≠ .halted) ∧
    (∃ (src : Src) (c : Fin 16) (s : State), OwnerAsks s src ∧ (ctxAt s c.val).state = .running) :=
  ⟨⟨mbox, { rdy with ctxs := rdy.ctxs.set 0 { state := .loaded, prog := some default }, topo := { verdict := 1 } },
   by unfold Passes; decide +kernel, by decide +kernel, by decide +kernel, by decide +kernel⟩,
   ⟨mbox,
   { rdy with ctxs := rdy.ctxs.set 0 { state := .loaded, restored := true, prog := some { (default : Program) with tensors := [one 0, one 1], groups := [{ alone with len := [2, 1, 1] }], tasks := [coll 2, task 0x25 (.opt 0 ⟨0, 0⟩ ⟨0, 0⟩ ⟨0, 0⟩ ⟨0, 0⟩ ⟨0, 0⟩ 0 0 0)] } }, topo := { verdict := 1 } },
   by unfold Passes; decide +kernel, by decide +kernel, by decide +kernel, by decide +kernel⟩,
   ⟨mbox,
   { rdy with ctxs := rdy.ctxs.set 0 { state := .loaded, prog := some default }, topo := { verdict := 1 }, dict := { latched := { coords := 16 } } },
   by unfold Passes; decide +kernel, by decide +kernel, by decide +kernel⟩,
   ⟨mbox, 14, { inStep 0 [] id with ctxs := (inStep 0 [] id).ctxs.set 14 { state := .loaded } }, by unfold Passes; decide +kernel,
   by decide +kernel, by decide +kernel⟩,
   ⟨mbox, { rdy with ctxs := rdy.ctxs.set 15 { state := .loaded, diag := true, restored := true } }, by unfold Passes; decide +kernel,
   by decide +kernel⟩,
   ⟨mbox,
   { rdy with ctxs := rdy.ctxs.set 15 { state := .loaded, diag := true, restored := true, prog := some { (default : Program) with tensors := [one 0, one 1], groups := [{ alone with len := [2, 1, 1] }], tasks := [coll 2, task 0x25 (.opt 0 ⟨0, 0⟩ ⟨0, 0⟩ ⟨0, 0⟩ ⟨0, 0⟩ ⟨0, 0⟩ 0 0 0)] } }, dict := { vals := [(0x210044, 5)] } },
   by unfold Passes; decide +kernel, by decide +kernel, by decide +kernel⟩,
   ⟨mbox, 0, inStep 0 [] id, by unfold Passes; decide +kernel⟩,
   ⟨mbox, 0, { rdy with ctxs := rdy.ctxs.set 0 { state := .halted, cause := 2 } }, by unfold Passes; decide +kernel⟩,
   ⟨mbox, 0, { rdy with ctxs := rdy.ctxs.set 0 { state := .halted, cause := 2 } }, by unfold Passes; decide +kernel⟩,
   ⟨0, { rdy with ctxs := rdy.ctxs.set 0 { state := .halted, unloading := true } }, by decide +kernel⟩,
   ⟨mbox, rdy, by unfold Passes; decide +kernel⟩,
   ⟨mbox, 15, rdy, ⟨rfl, rfl, by decide⟩, by decide +kernel⟩,
   ⟨mbox, 15, rdy, ⟨rfl, rfl, by decide⟩, by decide +kernel⟩,
   ⟨mbox, 0, inStep 0 [] id, ⟨rfl, rfl, by decide⟩, by decide +kernel⟩⟩

theorem witness_Captures :
    (∃ (high : Nat) (s : State), s.dev.on = true ∧ high ≥ 1000 ∧ (∀ n, s.ckpt.markEdge = some n → s.clk.now ≥ n + 100000)) ∧
    (∃ (src : Src) (s : State), Passes s src 0x60000A 1 1 (markOwn 1)) ∧
    (∃ (k : Capture) (s : State), s.ckpt.captures.find? (fun k => !k.durable) = some k ∧ s.dev.on = true ∧ k.begun = false ∧ cutTooBig s k =
    false ∧ rw s 0x600005 ≠ 2 ∧ rw s 0x600005 ≠ 3 ∧ s.ckpt.retain.map (·.1) ≠ some (pingArea s.ckpt)) ∧
    (∃ (cut : Nat) (k : Capture) (s : State), s.ckpt.captures.find? (fun k => k.cut = cut) = some k ∧ k.begun = true ∧ k.copied = false) ∧
    (∃ (cut : Nat) (a : Nat) (k : Capture) (s : State), s.ckpt.captures.find? (fun k => k.cut = cut) = some k ∧ k.copied = true ∧ k.durable
    = false ∧ ostlerBusy s 2 = false ∧ k.area = some a ∧ a < 18) ∧
    (∃ (cut : Nat) (k : Capture) (s : State), s.ckpt.captures.find? (fun k => k.cut = cut) = some k ∧ k.begun = true ∧ k.durable = false ∧
    (k.area.isSome = true ∨ k.fellBack = true) ∧ (rw s 0x600005 ≠ 1 ∨ k.fellBack = true)) ∧
    (∃ (cut : Nat) (tg : Nat) (k : Capture) (s : State), s.ckpt.captures.find? (fun k => k.cut = cut) = some k ∧ k.target = some tg ∧
    k.durable = false ∧ poolFrom s k (tg + 1) = none) ∧
    (∃ (cut : Nat) (tg : Nat) (next : Nat) (k : Capture) (s : State), s.ckpt.captures.find? (fun k => k.cut = cut) = some k ∧ k.target =
    some tg ∧ k.durable = false ∧ poolFrom s k (tg + 1) = some next) :=
  ⟨⟨1000, rdy, by decide +kernel⟩,
   ⟨mbox, rdy, by unfold Passes; decide +kernel⟩,
   ⟨{ cut := 4 }, capt { cut := 4 }, by decide +kernel⟩,
   ⟨4, { cut := 4, begun := true }, capt { cut := 4, begun := true }, by decide +kernel⟩,
   ⟨4, 0, { cut := 4, begun := true, copied := true, area := some 0 }, capt { cut := 4, begun := true, copied := true, area := some 0 },
   by decide +kernel⟩,
   ⟨4, { cut := 4, begun := true, area := some 0 },
   { capt { cut := 4, begun := true, area := some 0 } with dict := { vals := [(0x600005, 0)] } }, by decide +kernel⟩,
   ⟨4, 7, { cut := 4, begun := true, target := some 7 }, capt { cut := 4, begun := true, target := some 7 }, by decide +kernel⟩,
   ⟨4, 0, 7, { cut := 4, begun := true, target := some 0 },
   { capt { cut := 4, begun := true, target := some 0 } with dict := { vals := [(0x600027, 2 ^ 48 * 64 + 1)] } }, by decide +kernel⟩⟩

theorem witness_RetainRestoreExport :
    (∃ (src : Src) (cut : BitVec 64) (a : Nat) (d : Nat) (s : State), Passes s src 0x600012 8 cut.toNat (retainOwn s cut.toNat) ∧ cutArea
    s.ckpt cut.toNat = some a ∧ freeArea s.ckpt = some d) ∧
    (∃ (a : Nat) (d : Nat) (s : State), s.ckpt.retain = some (a, d) ∧ d < 18) ∧
    (∃ (src : Src) (area : BitVec 8) (s : State), Passes s src 0x600013 1 area.toNat (releaseOwn area.toNat)) ∧
    (∃ (src : Src) (req : BitVec 128) (s : State), Passes s src 0x600018 16 req.toNat (restoreOwn s req)) ∧
    (∃ (readError : Bool) (badPiece : Bool) (r : BitVec 128) (s : State), s.ckpt.restReq = some r ∧ restContext r = 0 ∧ restoreReason s r
    (restManifest s r) readError badPiece ≠ 0) ∧
    (∃ (src : Src) (req : BitVec 128) (s : State), Passes s src 0x60001A 16 req.toNat (exportOwn s req)) ∧
    (∃ (ok : Bool) (r : BitVec 128) (s : State), s.ckpt.expReq = some r ∧ (areaManifest (nth s.ckpt.areas (restArea r) {})).valid = false) ∧
    (∃ (r : BitVec 128) (s : State), s.ckpt.expReq = some r ∧ (areaManifest (nth s.ckpt.areas (restArea r) {})).valid = true ∧
    ((exportWrites r (nth s.ckpt.areas (restArea r) {})).all fun w => decide (w.1 + w.2.length ≤ 2 ^ 36) && !stageAway s w.1 w.2.length) =
    true) ∧
    (∃ (readError : Bool) (badPiece : Bool) (r : BitVec 128) (s : State), s.ckpt.restReq = some r ∧ restContext r = 0 ∧ restoreReason s r
    (restManifest s r) readError badPiece = 0) :=
  ⟨⟨mbox, 4, 0, 2, area0 { state := 2, cut := 4 }, by unfold Passes; decide +kernel, by decide +kernel, by decide +kernel⟩,
   ⟨0, 17, { rdy with ckpt := { retain := some (0, 17) } }, by decide +kernel⟩,
   ⟨mbox, 17, rdy, by unfold Passes; decide +kernel⟩,
   ⟨mbox, BitVec.ofNat 128 (2 ^ 18), { rdy with ctxs := rdy.ctxs.set 0 { state := .loaded, prog := some default } },
   by unfold Passes; decide +kernel⟩,
   ⟨false, false, 0x100, { rdy with ckpt := { restReq := some 0x100 } }, by decide +kernel⟩,
   ⟨mbox, BitVec.ofNat 128 (2 ^ 36 * 2 ^ 64 - 4096 * 2 ^ 64 + 2 ^ 18 + 17), rdy, by unfold Passes; decide +kernel⟩,
   ⟨true, 0x100, { rdy with ckpt := { expReq := some 0x100 } }, by decide +kernel⟩,
   ⟨BitVec.ofNat 128 (2 ^ 18),
   { rdy with ckpt := { expReq := some (BitVec.ofNat 128 (2 ^ 18)), areas := rdy.ckpt.areas.set 0 { state := 2, cut := 4, hdr := 0x4C485243 * 2 ^ 2016 + 2 ^ 2000 + 4 * 2 ^ 1920 + 2 ^ 1346 } } },
   by decide +kernel⟩,
   ⟨false, false, BitVec.ofNat 128 (2 ^ 18),
   { rdy with ctxs := rdy.ctxs.set 0 { state := .loaded, prog := some default }, ckpt := { restReq := some (BitVec.ofNat 128 (2 ^ 18)), areas := rdy.ckpt.areas.set 0 { state := 2, cut := 4, hdr := 0x4C485243 * 2 ^ 2016 + 2 ^ 2000 + 4 * 2 ^ 1920 + 2 ^ 1346 } } },
   by decide +kernel⟩⟩

theorem witness_PlacementAndMemory :
    (∃ (moves : List (Nat × Nat × Fin 8 × Nat)) (s : State), mayPlan s = true) ∧
    (∃ (src : Src) (s : State), Passes s src 0x500001 1 0 0) ∧
    (∃ (p : Fin 8) (r : List Nat) (s : State), s.place.replacing = p.val :: r ∧ ostlerBusy s 0 = false ∧ replaceTrouble s p.val = none) ∧
    (∃ (p : Fin 8) (task : Nat) (r : List Nat) (s : State), s.place.replacing = p.val :: r ∧ ostlerBusy s 0 = false ∧ replaceTrouble s p.val
    = some task ∧ (ctxAt s 0).state = .running ∧ s.dev.state ≠ .boot) ∧
    (∃ (src : Src) (v : BitVec 64) (s : State), Passes s src 0x500040 8 v.toNat (sharesOwn v.toNat)) ∧
    (∃ (p : Fin 8) (passDone : Bool) (s : State), s.dev.inService.getLsbD p.val = true) ∧
    (∃ (p : Fin 8) (k : RowCopy) (s : State), s.mem.copying.find? (fun c => c.part = p.val) = some k) ∧
    (∃ (n : Fin 16) (temp : Option Int) (dieMax : Int) (s : State), s.domains.getLsbD (5 * (n.val / 2) + 4) = true ∧ layerTemp (nth
    s.mem.stk n.val {}) temp dieMax < 950) :=
  ⟨⟨[], inStep 0 [] id, by decide +kernel⟩,
   ⟨mbox, rdy, by unfold Passes; decide +kernel⟩,
   ⟨7, [3], { rdy with place := { replacing := [7, 3] } }, by decide +kernel⟩,
   ⟨7, 0, [],
   { inStep 0 [] (fun x => { x with prog := x.prog.map fun p => { p with tensors := [{ one 1 with dims := [2 ^ 40] }] } }) with place := { replacing := [7] } },
   by decide +kernel⟩,
   ⟨mbox, 0x00320C80640961F4, rdy, by unfold Passes; decide +kernel⟩,
   ⟨7, true, rdy, by decide +kernel⟩,
   ⟨7, { part := 7, row := 3, addr := 0, bad := [(5, 2)] },
   { rdy with mem := { copying := [{ part := 7, row := 3, addr := 0, bad := [(5, 2)] }] } }, by decide +kernel⟩,
   ⟨15, some 949, 0, rdy, by decide +kernel⟩⟩

theorem witness_ApertureAccess :
    (∃ (off : Nat) (len : Nat) (bs : List Byte) (s : State), cxlUp s = true ∧ bs ≠ [] ∧ off + bs.length ≤ 2 ^ 36 ∧ stageAway s off bs.length
    = false ∧ stageDark s off bs.length = false ∧ s.staging.wf = true) ∧
    (∃ (off : Nat) (len : Nat) (s : State), cxlUp s = true ∧ len ≠ 0 ∧ off + len ≤ 2 ^ 36 ∧ stageAway s off len = false ∧ stageDark s off
    len = false) ∧
    (∃ (off : Nat) (len : Nat) (w : Option (List Byte)) (err : Option Ecc) (s : State), off + (w.map List.length).getD len > 2 ^ 36) :=
  ⟨⟨2 ^ 36 - 2, 0, [1, 2], rdy, by decide +kernel⟩,
   ⟨2 ^ 36 - 64, 64, rdy, by decide +kernel⟩,
   ⟨2 ^ 36, 1, none, none, rdy, by decide +kernel⟩⟩

theorem witness_LedgerCourse :
    (∃ (e : LRec) (rest : List LRec) (s : State), s.ledger.events = e :: rest ∧ ostlerBusy s 3 = false ∧ kindGroup e.kind = 0) ∧
    (∃ (e : LRec) (rest : List LRec) (s : State), s.ledger.events = e :: rest ∧ ostlerBusy s 3 = false ∧ eventClass s e ≤ max 1 (unitClass s
    e.unit)) ∧
    (∃ (e : LRec) (rest : List LRec) (s : State), s.ledger.toWrite = e :: rest ∧ s.dev.on = true ∧ s.fw.farrierDown = false) ∧
    (∃ (s : State), s.dev.on = true ∧ s.fw.farrierDown = false) ∧
    (∃ (src : Src) (s : State), Passes s src 0x84000F 1 1 (escalationOwn s 1)) :=
  ⟨⟨{}, [], { rdy with ledger := { events := [{}] } }, by decide +kernel⟩,
   ⟨{ kind := 1 }, [], { rdy with ledger := { events := [{ kind := 1 }] } }, by decide +kernel⟩,
   ⟨{}, [], { rdy with ledger := { toWrite := [{}] } }, by decide +kernel⟩,
   ⟨rdy, by decide +kernel⟩,
   ⟨mbox, (dv fun d => { d with state := .outOfService }), by unfold Passes; decide +kernel⟩⟩

theorem witness_TrotAndGallop :
    (∃ (g : Fin 136) (k : Nat) (s : State), mayTrot s = true ∧ trotCore s = some g.val) ∧
    (∃ (g : Nat) (k : Nat) (again : Bool) (s : State), s.tests.trot = some (g, k, again)) ∧
    (∃ (g : Nat) (k : Nat) (again : Bool) (s : State), s.tests.trot = some (g, k, again)) ∧
    (∃ (src : Src) (s : State), Passes s src 0x800020 1 1 (gallopOwn s 1) ∧ pendCells s ++ sweepCells s ≠ []) ∧
    (∃ (src : Src) (s : State), Passes s src 0x800020 1 2 (gallopOwn s 2) ∧ s.tests.gState ≠ 0 ∧ s.tests.oosAfter = false) ∧
    (∃ (s : State), s.dev.state = .spare ∧ rw s 0x800025 = 1 ∧ mayGallop s = true ∧ ostlerBusy s 3 = false ∧ pendCells s ++ sweepCells s ≠
    []) ∧
    (∃ (c : Cell) (d : Cell) (rest : List Cell) (s : State), s.tests.cells = c :: d :: rest ∧ s.tests.gState = 1 ∧ ostlerBusy s 3 = false) ∧
    (∃ (c : Cell) (rest : List Cell) (s : State), s.tests.cells = c :: rest ∧ s.tests.gState = 1 ∧ ostlerBusy s 3 = false ∧ c.repeat_ =
    false) ∧
    (∃ (g : Fin 136) (s : State), (coreAt s g.val).probe = 1 ∨ (coreAt s g.val).probe = 3 ∧ probeable s g.val = true) ∧
    (∃ (g : Fin 136) (s : State), (coreAt s g.val).probe = 1 ∧ probeable s g.val = true ∧ (∀ x ∈ (coreAt s g.val).resets, optime s > x +
    600)) ∧
    (∃ (g : Fin 136) (s : State), (coreAt s g.val).probe = 2 ∧ probeable s g.val = true) :=
  ⟨⟨0, 0, { inStep 0 [] id with dict := { vals := [] } }, by decide +kernel⟩,
   ⟨0, 0, true, { rdy with tests := { trot := some (0, 0, true) } }, by decide +kernel⟩,
   ⟨0, 0, true, { rdy with tests := { trot := some (0, 0, true) } }, by decide +kernel⟩,
   ⟨mbox, (dv fun d => { d with state := .test }), by unfold Passes; decide +kernel, by decide +kernel⟩,
   ⟨mbox, { (dv fun d => { d with state := .test }) with tests := { gState := 1 } }, by unfold Passes; decide +kernel, by decide +kernel,
   by decide +kernel⟩,
   ⟨(dv fun d => { d with state := .spare }), by decide +kernel⟩,
   ⟨{ unit := ⟨3, 0⟩, pclass := 0, offset := 0, clock := 3000, temp := none },
   { unit := ⟨3, 1⟩, pclass := 0, offset := 0, clock := 3000, temp := none }, [],
   { rdy with tests := { gState := 1, cells := [{ unit := ⟨3, 0⟩, pclass := 0, offset := 0, clock := 3000, temp := none }, { unit := ⟨3, 1⟩, pclass := 0, offset := 0, clock := 3000, temp := none }] } },
   by decide +kernel⟩,
   ⟨{ unit := ⟨3, 0⟩, pclass := 0, offset := 0, clock := 3000, temp := none }, [],
   { rdy with tests := { gState := 1, cells := [{ unit := ⟨3, 0⟩, pclass := 0, offset := 0, clock := 3000, temp := none }] } },
   by decide +kernel⟩,
   ⟨0, core0 (fun k => { k with probe := 3 }) rdy, by decide +kernel⟩,
   ⟨0, core0 (fun k => { k with probe := 1 }) rdy, by decide +kernel⟩,
   ⟨0, core0 (fun k => { k with probe := 2 }) rdy, by decide +kernel⟩⟩

theorem witness_ControllerAndLease :
    (∃ (w : Nat) (s : State), loopsRun s = true ∧ w ≤ 4300 ∧ overTwenty (controlled s w) = false) ∧
    (∃ (w : Nat) (s : State), loopsRun s = true ∧ w > 4300) ∧
    (∃ (src : Src) (v : BitVec 32) (s : State), Passes s src 0x700002 4 v.toNat (leaseOwn v.toNat) ∧ leaseInSeq s v.toNat = true) ∧
    (∃ (src : Src) (v : BitVec 32) (s : State), Passes s src 0x700002 4 v.toNat (leaseOwn v.toNat) ∧ leaseInSeq s v.toNat = false) ∧
    (∃ (n : Nat) (s : State), s.power.leaseEnd = some n) :=
  ⟨⟨4300, rdy, by decide +kernel⟩,
   ⟨4301, rdy, by decide +kernel⟩,
   ⟨mbox, 65536 + 2300, rdy, by unfold Passes; decide +kernel, by decide +kernel⟩,
   ⟨mbox, 2300, rdy, by unfold Passes; decide +kernel, by decide +kernel⟩,
   ⟨0, { rdy with power := { leaseEnd := some 0 } }, by decide +kernel⟩⟩

theorem witness_IslandsAndSensors :
    (∃ (g : Fin 136) (more : Bool) (s : State), corePowered s g.val = true ∧ cellOn s g.val = none ∧ (coreAt s g.val).setpoint < 9000) ∧
    (∃ (g : Fin 136) (more : Bool) (s : State), corePowered s g.val = true ∧ cellOn s g.val = none ∧ 9000 ≤ (coreAt s g.val).setpoint ∧ 2400
    < (coreAt s g.val).freq) ∧
    (∃ (g : Fin 136) (s : State), corePowered s g.val = true ∧ cellOn s g.val = none ∧ 6800 < (coreAt s g.val).setpoint) ∧
    (∃ (g : Fin 136) (s : State), corePowered s g.val = true) ∧
    (∃ (g : Fin 136) (temp : Int) (s : State), s.domains.getLsbD (5 * (g.val / 17) + 4) = true ∧ temp < 1100) :=
  ⟨⟨0, true, rdy, by decide +kernel⟩,
   ⟨0, true, core0 (fun k => { k with setpoint := 9000 }) rdy, by decide +kernel⟩,
   ⟨0, core0 (fun k => { k with setpoint := 6825 }) rdy, by decide +kernel⟩,
   ⟨0, rdy, by decide +kernel⟩,
   ⟨135, 1099, rdy, by decide +kernel⟩⟩

theorem witness_Emergencies :
    (∃ (g : Fin 136) (p : Fin 8) (temp : Int) (s : State), s.domains.getLsbD (5 * (g.val / 17) + 4) = true ∧ loopsRun s = true ∧ 1100 ≤ temp
    ∧ p.val = g.val / 17) ∧
    (∃ (temp : Int) (s : State), loopsRun s = true ∧ 1100 ≤ temp) ∧
    (∃ (temp : Int) (s : State), loopsRun s = true ∧ 450 < temp) ∧
    (∃ (s : State), loopsRun s = true) ∧
    (∃ (x : EmerState) (s : State), s.power.emers.find? (fun x => decide (x.kind = .overpower) && !x.cleared) = some x ∧ s.dev.on = true ∧
    s.power.trip = false ∧ s.dev.down = none ∧ s.dev.holdoff = false ∧ s.dev.state ≠ .boot ∧ s.fw.farrierDown = false) ∧
    (∃ (p : Fin 8) (x : EmerState) (s : State), s.power.emers.find? (fun x => decide (x.kind = .logicHot p) && !x.cleared) = some x ∧
    s.dev.on = true ∧ s.dev.down = none ∧ s.dev.holdoff = false ∧ s.dev.state ≠ .boot ∧ s.dev.state ≠ .outOfService ∧ s.dev.inReset.getLsbD
    p.val = false ∧ s.fw.farrierDown = false) ∧
    (∃ (e : Emer) (x : EmerState) (s : State), s.power.emers.find? (fun x => decide (x.kind = e) && !x.cleared) = some x ∧ mayClear s e =
    true) ∧
    (∃ (s : State), loopsRun s = true ∧ s.dev.on = true ∧ s.power.trip = false ∧ s.dev.down = none ∧ s.dev.holdoff = false ∧ s.dev.state ≠
    .boot ∧ s.fw.farrierDown = false) ∧
    (∃ (p : Fin 8) (s : State), loopsRun s = true ∧ s.dev.on = true ∧ s.dev.down = none ∧ s.dev.holdoff = false ∧ s.dev.state ≠ .boot ∧
    s.dev.state ≠ .outOfService ∧ s.dev.inReset.getLsbD p.val = false ∧ s.fw.farrierDown = false ∧ s.tests.gState = 0) ∧
    (∃ (s : State), s.dev.on = true ∧ s.power.trip = false) :=
  ⟨⟨135, 7, 1100, rdy, by decide +kernel⟩,
   ⟨1100, rdy, by decide +kernel⟩,
   ⟨451, rdy, by decide +kernel⟩,
   ⟨rdy, by decide +kernel⟩,
   ⟨{ kind := .overpower, since := 0 }, emer .overpower, by decide +kernel⟩,
   ⟨7, { kind := .logicHot 7, since := 0 }, emer (.logicHot 7), by decide +kernel⟩,
   ⟨.coolant, { kind := .coolant, since := 0 }, emer .coolant, by decide +kernel⟩,
   ⟨rdy, by decide +kernel⟩,
   ⟨7, rdy, by decide +kernel⟩,
   ⟨rdy, by decide +kernel⟩⟩

theorem witness_OstlerRestarts :
    (∃ (o : Fin 12) (s : State), ostlersOn s = true ∧ (ostlerAt s o.val).state = 0 ∧ (∀ n, (ostlerAt s o.val).readyAt = some n → n +
    1000000000 ≤ s.clk.now)) ∧
    (∃ (o : Fin 12) (s : State), ostlersOn s = true ∧ (ostlerAt s o.val).state = 0 ∧ (∀ n, (ostlerAt s o.val).readyAt = some n → n +
    1000000000 ≤ s.clk.now)) ∧
    (∃ (src : Src) (o : Fin 16) (s : State), Passes s src 0x90000A 1 o.val (ostlerOwn s o.val) ∧ ostlersOn s = true ∧ (ostlerAt s
    o.val).state = 0 ∧ o.val < 12) ∧
    (∃ (src : Src) (o : Fin 16) (s : State), Passes s src 0x90000A 1 (16 + o.val) (ostlerOwn s (16 + o.val)) ∧ ostlersOn s = true ∧
    (ostlerAt s o.val).state = 0 ∧ s.fw.dumping.any (fun d => d.1 = o.val) = false) ∧
    (∃ (o : Fin 12) (d : Nat × Nat × Nat × Nat) (timeouts : Nat) (size : Nat) (truncated : Bool) (s : State), s.fw.dumping.find? (fun d =>
    d.1 = o.val) = some d ∧ o.val ∉ s.fw.dumpOnly ∧ (s.dev.state = .boot ∨ copyServes s 0 = true ∨ copyServes s 1 = true)) ∧
    (∃ (o : Fin 12) (d : Nat × Nat × Nat × Nat) (ok : Bool) (timeouts : Nat) (size : Nat) (truncated : Bool) (s : State), s.fw.dumping.find?
    (fun d => d.1 = o.val) = some d ∧ o.val ∈ s.fw.dumpOnly) ∧
    (∃ (o : Fin 12) (s : State), (ostlerAt s o.val).state = 2 ∧ (ostlerAt s o.val).queue = [] ∧ (∀ h ∈ s.fw.held, h.1 ≠ o.val)) :=
  ⟨⟨11, rdy, by decide +kernel⟩,
   ⟨11, rdy, by decide +kernel⟩,
   ⟨mbox, 11, rdy, by unfold Passes; decide +kernel, by decide +kernel, by decide +kernel, by decide +kernel⟩,
   ⟨mbox, 11, rdy, by unfold Passes; decide +kernel, by decide +kernel, by decide +kernel, by decide +kernel⟩,
   ⟨11, (11, 1, 0, 0), 0, 64, false,
   { ost 11 { state := 1 } rdy with fw := { (ost 11 { state := 1 } rdy).fw with dumping := [(11, 1, 0, 0)] } }, by decide +kernel⟩,
   ⟨11, (11, 5, 0, 0), true, 0, 64, false, { rdy with fw := { dumping := [(11, 5, 0, 0)], dumpOnly := [11] } }, by decide +kernel⟩,
   ⟨11, ost 11 { state := 2 } rdy, by decide +kernel⟩⟩

theorem witness_FailedRestarts :
    (∃ (c : Instr) (o : Fin 12) (s : State), FailsNow c o s ∧ (recentFails s o.val).length < 2) ∧
    (∃ (src : Src) (o : Fin 16) (s : State), Passes s src 0x90000A 1 o.val (ostlerOwn s o.val)) :=
  ⟨⟨.ostlerReadyTimeout 11, 11, ost 11 { state := 2 } rdy, .inl ⟨rfl, by decide +kernel⟩, by decide +kernel⟩,
   ⟨mbox, 11, rdy, by unfold Passes; decide +kernel⟩⟩

theorem witness_RestartsForceResets :
    (∃ (c : Instr) (o : Fin 12) (p : Fin 8) (s : State), FailsNow c o s ∧ o.val = 4 + p.val ∧ 2 ≤ (recentFails s o.val).length ∧ s.dev.on =
    true ∧ s.dev.down = none ∧ s.dev.holdoff = false ∧ s.dev.state ≠ .boot ∧ s.dev.state ≠ .outOfService ∧ s.dev.inReset.getLsbD p.val =
    false ∧ s.fw.farrierDown = false) ∧
    (∃ (c : Instr) (o : Fin 12) (s : State), FailsNow c o s ∧ o.val < 4 ∧ 2 ≤ (recentFails s o.val).length ∧ s.dev.on = true ∧ s.power.trip
    = false ∧ s.dev.down = none ∧ s.dev.holdoff = false ∧ s.dev.state ≠ .boot ∧ s.fw.farrierDown = false) ∧
    (∃ (s : State), s.dev.on = true ∧ s.power.trip = false ∧ s.fw.farrierDown = false ∧ s.domains.getLsbD 40 = true ∧ s.dev.down = none ∧
    s.dev.holdoff = false ∧ s.dev.state ≠ .boot) :=
  ⟨⟨.ostlerReadyTimeout 11, 11, 7, ost 11 { state := 2, fails := [0, 0] } rdy, .inl ⟨rfl, by decide +kernel⟩, by decide +kernel,
   by decide +kernel, by decide +kernel, by decide +kernel, by decide +kernel, by decide +kernel, by decide +kernel, by decide +kernel,
   by decide +kernel⟩,
   ⟨.ostlerReadyTimeout 3, 3, ost 3 { state := 2, fails := [0, 0] } rdy, .inl ⟨rfl, by decide +kernel⟩, by decide +kernel,
   by decide +kernel, by decide +kernel, by decide +kernel, by decide +kernel, by decide +kernel, by decide +kernel, by decide +kernel⟩,
   ⟨rdy, by decide +kernel⟩⟩

theorem witness_FarrierCourse :
    (∃ (s : State), s.dev.on = true ∧ s.fw.farrierDown = false ∧ rw s 0x900005 ≠ 1 ∧ (pairOf s 1).trial = false) ∧
    (∃ (s : State), s.dev.on = true ∧ s.fw.farrierDown = false ∧ rw s 0x900005 ≠ 1 ∧ (pairOf s 1).trial = true ∧ 2 ≤ (activeBank (pairOf s
    1)).fails) ∧
    (∃ (s : State), s.fw.farrierDown = true ∧ (pairOf s 1).trial = true ∧ farrierVerifies s = false) ∧
    (∃ (s : State), s.fw.farrierDown = true ∧ s.fw.later = [] ∧ ((pairOf s 1).trial = true → farrierVerifies s = true)) ∧
    (∃ (e : LogEnt) (s : State), s.fw.log.reverse.find? (fun e => decide (e.level ≥ 5) && !e.copied) = some e ∧ s.fw.farrierDown = false ∧
    ostlerBusy s 3 = false) ∧
    (∃ (src : Src) (req : BitVec 128) (s : State), Passes s src 0x910023 16 req.toNat (dumpOwn s req.toNat)) ∧
    (∃ (ok : Bool) (s : State), s.fw.expState = 1 ∧ dumpSel s.fw s.fw.expSlot = none) ∧
    (∃ (h : BitVec 256) (s : State), s.fw.expState = 1 ∧ dumpSel s.fw s.fw.expSlot = some h ∧ stageAway s s.fw.expOff (dumpSize h) = false) :=
  ⟨⟨{ rdy with dict := { vals := [(0x900005, 0)] } }, by decide +kernel⟩,
   ⟨{ rdy with dict := { vals := [(0x900005, 0)] }, fw := { images := rdy.fw.images.set 0 { trial := true, a := { fails := 2 } } } },
   by decide +kernel⟩,
   ⟨{ rdy with fw := { farrierDown := true, images := rdy.fw.images.set 0 { trial := true } }, sec := { revoked := 15 } },
   by decide +kernel⟩,
   ⟨{ rdy with fw := { farrierDown := true } }, by decide +kernel⟩,
   ⟨{ entry := 1, seq := 0, level := 5 }, { rdy with fw := { log := [{ entry := 1, seq := 0, level := 5 }] } }, by decide +kernel⟩,
   ⟨mbox, BitVec.ofNat 128 (4096 * 2 ^ 64 + 7), rdy, by unfold Passes; decide +kernel⟩,
   ⟨true, { rdy with fw := { expState := 1 } }, by decide +kernel⟩,
   ⟨0, { rdy with fw := { expState := 1, dumps := rdy.fw.dumps.set 0 (some 0) } }, by decide +kernel⟩⟩

theorem witness_Updates :
    (∃ (src : Src) (req : BitVec 256) (s : State), Passes s src 0x900001 32 req.toNat (updateOwn s req.toNat) ∧ updLength req.toNat ≤
    imageLimit (updTypeOf req.toNat)) ∧
    (∃ (src : Src) (req : BitVec 256) (s : State), Passes s src 0x900001 32 req.toNat (updateOwn s req.toNat) ∧ imageLimit (updTypeOf
    req.toNat) < updLength req.toNat) ∧
    (∃ (img : FwImage) (ok : Bool) (s : State), imageThere s.fw = true ∧ s.fw.farrierDown = false ∧ imageReason s img ok = 0 ∧ 1 ≤
    s.fw.updType ∧ s.fw.updType ≤ 3) ∧
    (∃ (img : FwImage) (ok : Bool) (s : State), imageThere s.fw = true ∧ s.fw.farrierDown = false ∧ imageReason s img ok ≠ 0 ∧ 1 ≤
    s.fw.updType ∧ s.fw.updType ≤ 3) ∧
    (∃ (src : Src) (offset : Nat) (bytes : List Byte) (s : State), src.path = .halter ∧ door s src = none ∧ chunkReason s src offset
    bytes.length = 0) ∧
    (∃ (s : State), s.fw.updSource = 1 ∧ s.fw.updState = 1 ∧ s.fw.farrierDown = false) :=
  ⟨⟨mbox, BitVec.ofNat 256 (3 + 48 * 2 ^ 20 * 2 ^ 160), rdy, by unfold Passes; decide +kernel, by decide +kernel⟩,
   ⟨mbox, BitVec.ofNat 256 (3 + (48 * 2 ^ 20 + 1) * 2 ^ 160), rdy, by unfold Passes; decide +kernel, by decide +kernel⟩,
   ⟨{ magicOk := true, svn := 63, version := 1, keySlot := some 0, pdigest := 0 }, true, { rdy with fw := { updState := 1, updType := 3 } },
   by decide +kernel⟩,
   ⟨{ magicOk := false, svn := 63, version := 1, keySlot := some 0, pdigest := 0 }, true,
   { rdy with fw := { updState := 1, updType := 3 } }, by decide +kernel⟩,
   ⟨hal 1, 0, [1],
   { rdy with host := { owner := some 1, sessions := [{ slot := 1, number := 1, transcript := 0, key := 0 }] }, fw := { updSource := 1, updState := 1, updLen := 1 } },
   by decide +kernel⟩,
   ⟨{ rdy with fw := { updSource := 1, updState := 1 } }, by decide +kernel⟩⟩

theorem witness_Activations :
    (∃ (src : Src) (s : State), Passes s src 0x900004 1 8 0 ∧ rw s 0x900005 = 0 ∧ (pendingTypes s).contains 3 = true ∧ deferBlocks s 3 =
    false) ∧
    (∃ (src : Src) (s : State), Passes s src 0x900004 1 2 0 ∧ rw s 0x900005 = 0 ∧ (pendingTypes s).contains 1 = true ∧ deferBlocks s 1 =
    false) ∧
    (∃ (src : Src) (s : State), Passes s src 0x900004 1 8 0 ∧ rw s 0x900005 = 0 ∧ (pendingTypes s).contains 3 = true ∧ deferBlocks s 3 =
    true) ∧
    (∃ (src : Src) (mask : BitVec 8) (s : State), Passes s src 0x900004 1 mask.toNat 0 ∧ rw s 0x900005 ≠ 0) ∧
    (∃ (s : State), s.fw.deferMask = 8 ∧ (pendingTypes s).contains 3 = true ∧ deferBlocks s 3 = false) ∧
    (∃ (s : State), s.fw.libReload = true ∧ s.tests.trot = none ∧ s.tests.gState = 0 ∧ ostlerBusy s 3 = false) ∧
    (∃ (s : State), s.fw.libReload = true ∧ s.tests.trot = none ∧ s.tests.gState = 0 ∧ ostlerBusy s 3 = false) :=
  ⟨⟨mbox, { pend 3 with dict := { vals := [(0x900005, 0)] } }, by unfold Passes; decide +kernel, by decide +kernel, by decide +kernel,
   by decide +kernel⟩,
   ⟨mbox, { pend 1 with dict := { vals := [(0x900005, 0)] } }, by unfold Passes; decide +kernel, by decide +kernel, by decide +kernel,
   by decide +kernel⟩,
   ⟨mbox, { pend 3 with dict := { vals := [(0x900005, 0)] }, power := (emer .coolant).power }, by unfold Passes; decide +kernel,
   by decide +kernel, by decide +kernel, by decide +kernel⟩,
   ⟨mbox, 8, rdy, by unfold Passes; decide +kernel, by decide +kernel⟩,
   ⟨{ pend 3 with fw := { (pend 3).fw with deferMask := 8 } }, by decide +kernel⟩,
   ⟨{ rdy with fw := { libReload := true } }, by decide +kernel⟩,
   ⟨{ rdy with fw := { libReload := true } }, by decide +kernel⟩⟩

theorem witness_DictReads :
    (∃ (src : Src) (index : Nat) (sub : Nat) (s : State), door s src = none ∧ src.path = .window) ∧
    (∃ (src : Src) (index : Nat) (sub : Nat) (s : State), door s src = none ∧ src.path ≠ .window ∧ entryOf index sub = none) ∧
    (∃ (src : Src) (index : Nat) (sub : Nat) (e : Ent) (s : State), door s src = none ∧ src.path ≠ .window ∧ entryOf index sub = some e) ∧
    (∃ (index : Nat) (sub : Nat) (s : State), entryOf index sub = none) ∧
    (∃ (index : Nat) (sub : Nat) (e : Ent) (s : State), entryOf index sub = some e ∧ e.acc = .wo) :=
  ⟨⟨{ master := 0, path := .window }, 0x1000, 1, rdy, by decide +kernel⟩,
   ⟨mbox, 0xFFFF, 255, rdy, by decide +kernel⟩,
   ⟨mbox, 0x1000, 1, (entryOf 0x1000 1).getD default, rdy, by decide +kernel⟩,
   ⟨0xFFFF, 255, rdy, by decide +kernel⟩,
   ⟨0x6000, 0x0A, (entryOf 0x6000 0x0A).getD default, rdy, by decide +kernel⟩⟩

theorem witness_WritesAccepted :
    (∃ (c : Instr) (w : HostWrite) (s : State), hostWrite s c = some w ∧ Passes s w.src w.key w.size w.value w.own) ∧
    (∃ (src : Src) (index : Nat) (sub : Nat) (size : Nat) (value : Nat) (s : State), index < 65536 ∧ sub < 256 ∧ keyOf index sub ≠ 0xA00050
    ∧ Passes s src (keyOf index sub) size (value % 2 ^ (8 * size)) (condOf s (keyOf index sub) (value % 2 ^ (8 * size))) ∧ effectOf src
    (keyOf index sub) (value % 2 ^ (8 * size)) s = putValue s (keyOf index sub) (value % 2 ^ (8 * size)) ∧ valsWf s.dict.vals = true) ∧
    (∃ (c : Instr) (src : Src) (v : Nat) (token : Sig) (s : State), unlockWrite s c = some (src, v, token) ∧ Passes s src 0xA00050 16 v
    (unlockOwn s v token)) :=
  ⟨⟨.counterClear mbox, ⟨mbox, 0x40000D, 1, 1, clearOwn 1⟩, rdy, rfl, by unfold Passes; decide +kernel⟩,
   ⟨mbox, 0x9000, 5, 1, 1, rdy, by decide +kernel, by decide +kernel, by decide +kernel, by unfold Passes; decide +kernel,
   by decide +kernel, by decide +kernel⟩,
   ⟨.debugUnlockRequest mbox 1280
   { key := 0, msg := debugDigest { rdy with sec := { creds := rdy.sec.creds.set 0 { valid := true, debug := true } } } }, mbox, 1280,
   { key := 0, msg := debugDigest { rdy with sec := { creds := rdy.sec.creds.set 0 { valid := true, debug := true } } } },
   { rdy with sec := { creds := rdy.sec.creds.set 0 { valid := true, debug := true } } }, by decide +kernel,
   by unfold Passes; decide +kernel⟩⟩

theorem witness_WritesRefused :
    (∃ (c : Instr) (w : HostWrite) (s : State), hostWrite s c = some w ∧ door s w.src = none ∧ writeReason s w.src w.key w.size w.value
    w.own ≠ 0) ∧
    (∃ (c : Instr) (src : Src) (v : Nat) (token : Sig) (s : State), unlockWrite s c = some (src, v, token) ∧ door s src = none ∧ writeReason
    s src 0xA00050 16 v (unlockOwn s v token) ≠ 0) :=
  ⟨⟨.releaseCommand mbox 255, ⟨mbox, 0x600013, 1, 255, releaseOwn 255⟩, rdy, rfl, by decide +kernel, by decide +kernel⟩,
   ⟨.debugUnlockRequest mbox 1280 { key := 0, msg := 0 }, mbox, 1280, { key := 0, msg := 0 }, rdy, by decide +kernel⟩⟩

theorem witness_OnlyTheOwnerWrites :
    (∃ (c : Instr) (w : HostWrite) (s : State), hostWrite s c = some w ∧ s.host.owner ≠ some w.src.master ∧ ¬(w.key = 0x700002 ∧
    s.host.managers.contains w.src.master = true) ∧ ¬(w.key = 0xA00048 ∧ anyOwner s = false ∧ w.src.master = 0)) ∧
    (∃ (c : Instr) (src : Src) (v : Nat) (token : Sig) (s : State), unlockWrite s c = some (src, v, token) ∧ s.host.owner ≠ some src.master) :=
  ⟨⟨.counterClear mbox, ⟨mbox, 0x40000D, 1, 1, clearOwn 1⟩, { rdy with host := {} }, rfl, by decide +kernel, by decide +kernel,
   by decide +kernel⟩,
   ⟨.debugUnlockRequest mbox 1280 { key := 0, msg := 0 }, mbox, 1280, { key := 0, msg := 0 }, { rdy with host := {} }, by decide +kernel⟩⟩

theorem witness_WritesAtTheDoor :
    (∃ (c : Instr) (w : HostWrite) (o : Nat) (s : State), hostWrite s c = some w ∧ door s w.src = none ∧ writeReason s w.src w.key w.size
    w.value w.own = 0 ∧ waitsFor s w.key w.value = some o ∧ (ostlerAt s o).queue.length < 64) ∧
    (∃ (c : Instr) (w : HostWrite) (o : Nat) (s : State), hostWrite s c = some w ∧ door s w.src = none ∧ writeReason s w.src w.key w.size
    w.value w.own = 0 ∧ waitsFor s w.key w.value = some o ∧ 64 ≤ (ostlerAt s o).queue.length) ∧
    (∃ (c : Instr) (w : HostWrite) (x : Session) (s : State), hostWrite s c = some w ∧ w.src.path = .halter ∧ w.src.master ≠ 0 ∧ farrierUp s
    = true ∧ sessionOf s w.src.master = some x ∧ w.src.tagOk = false) ∧
    (∃ (c : Instr) (w : HostWrite) (x : Session) (s : State) (r : Nat × Nat × Nat × List Byte), hostWrite s c = some w ∧ w.src.path =
    .halter ∧ w.src.master ≠ 0 ∧ farrierUp s = true ∧ sessionOf s w.src.master = some x ∧ w.src.tagOk = true ∧ x.replies.find? (fun r =>
    decide (r.1 = w.src.seq)) = some r) ∧
    (∃ (c : Instr) (src : Src) (v : Nat) (token : Sig) (x : Session) (s : State), unlockWrite s c = some (src, v, token) ∧ src.path =
    .halter ∧ src.master ≠ 0 ∧ farrierUp s = true ∧ sessionOf s src.master = some x ∧ src.tagOk = false) ∧
    (∃ (c : Instr) (src : Src) (v : Nat) (token : Sig) (x : Session) (s : State) (r : Nat × Nat × Nat × List Byte), unlockWrite s c = some
    (src, v, token) ∧ src.path = .halter ∧ src.master ≠ 0 ∧ farrierUp s = true ∧ sessionOf s src.master = some x ∧ src.tagOk = true ∧
    x.replies.find? (fun r => decide (r.1 = src.seq)) = some r) :=
  ⟨⟨.retainCommand mbox 4, ⟨mbox, 0x600012, 8, 4, retainOwn (area0 { state := 2, cut := 4 }) 4⟩, 2, ost 2 { state := 1 } (area0
   { state := 2, cut := 4 }), rfl, by decide +kernel, by decide +kernel, by decide +kernel, by decide +kernel⟩,
   ⟨.retainCommand mbox 4, ⟨mbox, 0x600012, 8, 4, retainOwn (area0 { state := 2, cut := 4 }) 4⟩, 2, ost 2
   { state := 1, queue := List.replicate 64 (.host mbox 0 0) } (area0 { state := 2, cut := 4 }), rfl, by decide +kernel, by decide +kernel,
   by decide +kernel, by decide +kernel⟩,
   ⟨.counterClear { hal 1 with tagOk := false }, ⟨{ hal 1 with tagOk := false }, 0x40000D, 1, 1, clearOwn 1⟩,
   { slot := 1, number := 1, transcript := 0, key := 0 },
   { rdy with host := { owner := some 1, sessions := [{ slot := 1, number := 1, transcript := 0, key := 0 }] } }, rfl, by decide +kernel,
   by decide +kernel, by decide +kernel, by decide +kernel, by decide +kernel⟩,
   ⟨.counterClear (hal 1), ⟨hal 1, 0x40000D, 1, 1, clearOwn 1⟩,
   { slot := 1, number := 1, transcript := 0, key := 0, replies := [(1, 0x11, 0, [])], topSeq := 1 },
   { rdy with host := { owner := some 1, sessions := [{ slot := 1, number := 1, transcript := 0, key := 0, replies := [(1, 0x11, 0, [])], topSeq := 1 }] } },
   (1, 0x11, 0, []), rfl, by decide +kernel, by decide +kernel, by decide +kernel, by decide +kernel, by decide +kernel, by decide +kernel⟩,
   ⟨.debugUnlockRequest { hal 1 with tagOk := false } 1280 { key := 0, msg := 0 }, { hal 1 with tagOk := false }, 1280,
   { key := 0, msg := 0 }, { slot := 1, number := 1, transcript := 0, key := 0 },
   { rdy with host := { owner := some 1, sessions := [{ slot := 1, number := 1, transcript := 0, key := 0 }] } }, by decide +kernel⟩,
   ⟨.debugUnlockRequest (hal 1) 1280 { key := 0, msg := 0 }, hal 1, 1280, { key := 0, msg := 0 },
   { slot := 1, number := 1, transcript := 0, key := 0, replies := [(1, 0x11, 0, [])], topSeq := 1 },
   { rdy with host := { owner := some 1, sessions := [{ slot := 1, number := 1, transcript := 0, key := 0, replies := [(1, 0x11, 0, [])], topSeq := 1 }] } },
   (1, 0x11, 0, []), by decide +kernel⟩⟩

theorem witness_Sessions :
    (∃ (m : Fin 9) (s : State), m ≠ 0 ∧ entryWaits s = false ∧ farrierUp s = true) ∧
    (∃ (m : Fin 9) (s : State), m ≠ 0 ∧ entryWaits s = true) ∧
    (∃ (frags : List (Nat × List Byte)) (count : Nat) (total : Nat) (s : State), farrierUp s = true ∧ frags ≠ [] ∧ fragsTake (fragsHeld s
    count total) frags = none) ∧
    (∃ (frags : List (Nat × List Byte)) (count : Nat) (total : Nat) (f : Frags) (s : State), farrierUp s = true ∧ frags ≠ [] ∧ fragsTake
    (fragsHeld s count total) frags = some f ∧ f.next ≠ count) ∧
    (∃ (frags : List (Nat × List Byte)) (count : Nat) (total : Nat) (f : Frags) (k : Fin 9) (s : State), farrierUp s = true ∧ frags ≠ [] ∧
    fragsTake (fragsHeld s count total) frags = some f ∧ f.next = count ∧ f.total = 1568 ∧ f.bytes.length = 1568 ∧ freeSlot s = some k ∧
    securityUp s = true) ∧
    (∃ (s : State), s.sec.frags.isSome = true) ∧
    (∃ (slot : Fin 9) (s : State), slot ≠ 0 ∧ (sessionOf s slot).isSome = true ∧ farrierUp s = true) ∧
    (∃ (slot : Fin 9) (x : Session) (s : State), sessionOf s slot = some x) :=
  ⟨⟨8, rdy, by decide +kernel⟩,
   ⟨8, { bootAt 0 with dev := { (bootAt 0).dev with prodEntry := true } }, by decide +kernel⟩,
   ⟨[(1, [0])], 2, 1568, rdy, by decide +kernel⟩,
   ⟨[(0, [0])], 2, 1568, ⟨1, 2, 1568, [0]⟩, rdy, by decide +kernel⟩,
   ⟨[(0, (List.replicate 784 0)), (1, (List.replicate 784 0))], 2, 1568, ⟨2, 2, 1568, (List.replicate 784 0) ++ (List.replicate 784 0)⟩, 1,
   rdy, by decide +kernel⟩,
   ⟨{ rdy with sec := { frags := some ⟨1, 2, 1568, [0]⟩ } }, by decide +kernel⟩,
   ⟨1, { rdy with host := { owner := some 1, sessions := [{ slot := 1, number := 1, transcript := 0, key := 0 }] } }, by decide +kernel⟩,
   ⟨1, { slot := 1, number := 1, transcript := 0, key := 0 },
   { rdy with host := { owner := some 1, sessions := [{ slot := 1, number := 1, transcript := 0, key := 0 }] } }, by decide +kernel⟩⟩

theorem witness_Ownership :
    (∃ (src : Src) (slot : Fin 8) (priority : Fin 16) (sig : Sig) (s : State), src.path ≠ .window ∧ door s src = none ∧ securityUp s = true
    ∧ claimValid s src slot priority.val sig = true ∧ (credAt s slot.val).owner = true ∧ s.host.owner = none) ∧
    (∃ (src : Src) (slot : Fin 8) (priority : Fin 16) (sig : Sig) (o : Fin 9) (s : State), src.path ≠ .window ∧ door s src = none ∧
    securityUp s = true ∧ claimValid s src slot priority.val sig = true ∧ (credAt s slot.val).owner = true ∧ s.host.owner = some o ∧ o ≠
    src.master ∧ (∀ p, s.host.claim = some p → p.priority < priority.val)) ∧
    (∃ (src : Src) (slot : Fin 8) (priority : Fin 16) (sig : Sig) (o : Fin 9) (p : Claim) (s : State), src.path ≠ .window ∧ door s src =
    none ∧ securityUp s = true ∧ claimValid s src slot priority.val sig = true ∧ (credAt s slot.val).owner = true ∧ s.host.owner = some o ∧
    o ≠ src.master ∧ s.host.claim = some p ∧ priority.val ≤ p.priority) ∧
    (∃ (src : Src) (slot : Fin 8) (priority : Fin 16) (sig : Sig) (s : State), src.path ≠ .window ∧ door s src = none ∧ securityUp s = true
    ∧ claimValid s src slot priority.val sig = false) ∧
    (∃ (src : Src) (slot : Fin 8) (priority : Fin 16) (sig : Sig) (s : State), src.path ≠ .window ∧ door s src = none ∧ securityUp s =
    false) ∧
    (∃ (src : Src) (s : State), src.path ≠ .window ∧ door s src = none ∧ s.host.owner = some src.master) ∧
    (∃ (src : Src) (dest : Fin 9) (c : Claim) (s : State), src.path ≠ .window ∧ door s src = none ∧ s.host.owner = some src.master ∧
    s.host.claim = some c ∧ c.master = dest) ∧
    (∃ (src : Src) (s : State), src.path ≠ .window ∧ door s src = none ∧ s.host.owner = some src.master) ∧
    (∃ (c : Claim) (s : State), s.host.claim = some c) ∧
    (∃ (s : State), s.host.owner.isSome = true) :=
  ⟨⟨mbox, 0, 3,
   { key := 0, msg := claimDigest { rdy with sec := { creds := rdy.sec.creds.set 0 { valid := true, owner := true } }, host := {} } mbox 3 },
   { rdy with sec := { creds := rdy.sec.creds.set 0 { valid := true, owner := true } }, host := {} }, by decide +kernel⟩,
   ⟨mbox, 0, 3,
   { key := 0, msg := claimDigest { rdy with sec := { creds := rdy.sec.creds.set 0 { valid := true, owner := true } }, host := { owner := some 1 } } mbox 3 },
   1, { rdy with sec := { creds := rdy.sec.creds.set 0 { valid := true, owner := true } }, host := { owner := some 1 } }, by decide +kernel⟩,
   ⟨mbox, 0, 3,
   { key := 0, msg := claimDigest { rdy with sec := { creds := rdy.sec.creds.set 0 { valid := true, owner := true } }, host := { owner := some 1, claim := some ⟨2, 0, 3, 0⟩ } } mbox 3 },
   1, ⟨2, 0, 3, 0⟩,
   { rdy with sec := { creds := rdy.sec.creds.set 0 { valid := true, owner := true } }, host := { owner := some 1, claim := some ⟨2, 0, 3, 0⟩ } },
   by decide +kernel⟩,
   ⟨mbox, 0, 3, { key := 0, msg := 0 }, rdy, by decide +kernel⟩,
   ⟨mbox, 0, 3, { key := 0, msg := 0 }, { rdy with domains := BitVec.ofNat 50 (2 ^ 43 - 1) }, by decide +kernel⟩,
   ⟨mbox, rdy, by decide +kernel⟩,
   ⟨mbox, 8, ⟨8, 0, 3, 0⟩, { rdy with host := { owner := some 0, claim := some ⟨8, 0, 3, 0⟩ } }, by decide +kernel⟩,
   ⟨mbox, rdy, by decide +kernel⟩,
   ⟨⟨8, 0, 3, 0⟩, { rdy with host := { owner := some 0, claim := some ⟨8, 0, 3, 0⟩ } }, by decide +kernel⟩,
   ⟨rdy, by decide +kernel⟩⟩

theorem witness_MailboxAndPersistence :
    (∃ (s : State), cxlUp s = true) ∧
    (∃ (s : State), cxlUp s = true) ∧
    (∃ (op : BitVec 16) (s : State), cxlUp s = true ∧ mailboxHas op.toNat = false) ∧
    (∃ (s : State), mayPersist s = true ∧ s.dict.pendingW = true ∧ s.dict.failed = false) ∧
    (∃ (g : Gen) (s : State), s.dict.writing = some g ∧ s.fw.farrierDown = false) ∧
    (∃ (g : Gen) (s : State), s.dict.writing = some g ∧ s.fw.farrierDown = false) ∧
    (∃ (s : State), mayPersist s = true ∧ s.dict.failed = true) ∧
    (∃ (src : Src) (v : BitVec 8) (s : State), Passes s src 0x20000B 1 v.toNat (defaultsOwn s v.toNat)) :=
  ⟨⟨rdy, by decide +kernel⟩,
   ⟨rdy, by decide +kernel⟩,
   ⟨2, rdy, by decide +kernel⟩,
   ⟨{ rdy with dict := { pendingW := true } }, by decide +kernel⟩,
   ⟨{ number := 1 }, { rdy with dict := { writing := some { number := 1 } } }, by decide +kernel⟩,
   ⟨{ number := 1 }, { rdy with dict := { writing := some { number := 1 } } }, by decide +kernel⟩,
   ⟨{ rdy with dict := { failed := true } }, by decide +kernel⟩,
   ⟨mbox, 1, rdy, by unfold Passes; decide +kernel⟩⟩

theorem witness_SecurityCommands :
    (∃ (src : Src) (nonce : Digest) (s : State), Passes s src 0xA00020 32 nonce.toNat (attestOwn s)) ∧
    (∃ (s : State), s.sec.attState = 1) ∧
    (∃ (src : Src) (off : BitVec 64) (s : State), Passes s src 0xA00024 8 off.toNat (reportOwn s off.toNat) ∧ s.staging.wf = true) ∧
    (∃ (src : Src) (req : BitVec 128) (s : State), Passes s src 0xA00048 16 req.toNat (installOwn s req.toNat)) ∧
    (∃ (src : Src) (slot : BitVec 8) (s : State), Passes s src 0xA00049 1 slot.toNat (removeOwn s slot.toNat)) ∧
    (∃ (src : Src) (req : BitVec 128) (token : Sig) (s : State), Passes s src 0xA00050 16 req.toNat (unlockOwn s req.toNat token)) :=
  ⟨⟨mbox, 1, rdy, by unfold Passes; decide +kernel⟩,
   ⟨{ rdy with sec := { attState := 1 } }, by decide +kernel⟩,
   ⟨mbox, 4096, { rdy with sec := { attState := 2 } }, by unfold Passes; decide +kernel, by decide +kernel⟩,
   ⟨mbox, BitVec.ofNat 128 (7 + 32), rdy, by unfold Passes; decide +kernel⟩,
   ⟨mbox, 7, { rdy with sec := { creds := rdy.sec.creds.set 0 { valid := true, owner := true } } }, by unfold Passes; decide +kernel⟩,
   ⟨mbox, 1280, { key := 0, msg := debugDigest { rdy with sec := { creds := rdy.sec.creds.set 0 { valid := true, debug := true } } } },
   { rdy with sec := { creds := rdy.sec.creds.set 0 { valid := true, debug := true } } }, by unfold Passes; decide +kernel⟩⟩

theorem witness_Blinkers :
    (∃ (src : Src) (w : Fin 16) (v : BitVec 256) (s : State), Passes s src (0xB00010 + w.val) 32 v.toNat (windowOwn s w.val v.toNat) ∧
    valsWf s.dict.vals = true) ∧
    (∃ (addr : Nat) (len : Nat) (off : Nat) (bs : List Byte) (s : State), guestPart s = true ∧ s.domains.getLsbD 47 = true ∧ bs ≠ [] ∧
    guestJudged s addr bs.length true = .ok off ∧ stageAway s off bs.length = false ∧ s.staging.wf = true) ∧
    (∃ (addr : Nat) (len : Nat) (off : Nat) (s : State), guestPart s = true ∧ s.domains.getLsbD 47 = true ∧ len ≠ 0 ∧ guestJudged s addr len
    false = .ok off ∧ stageAway s off len = false) ∧
    (∃ (addr : Nat) (len : Nat) (cause : Nat) (bs : List Byte) (s : State), guestPart s = true ∧ s.domains.getLsbD 47 = true ∧ bs ≠ [] ∧
    guestJudged s addr bs.length true = .error cause) ∧
    (∃ (addr : Nat) (len : Nat) (cause : Nat) (s : State), guestPart s = true ∧ s.domains.getLsbD 47 = true ∧ len ≠ 0 ∧ guestJudged s addr
    len false = .error cause) :=
  ⟨⟨mbox, 15, 0, (dv fun d => { d with product := { guestPart := true } }), by unfold Passes; decide +kernel, by decide +kernel⟩,
   ⟨2 ^ 36 - 1, 0, 2 ^ 36 - 1, [1], { (dv fun d => { d with product := { guestPart := true } }) with dict := { vals := [(0xB00001, 1)] } },
   by decide +kernel⟩,
   ⟨0, 64, 0, { (dv fun d => { d with product := { guestPart := true } }) with dict := { vals := [(0xB00001, 1)] } }, by decide +kernel⟩,
   ⟨2 ^ 36, 0, 1, [1], { (dv fun d => { d with product := { guestPart := true } }) with dict := { vals := [(0xB00001, 1)] } },
   by decide +kernel⟩,
   ⟨2 ^ 36 - 63, 64, 1, { (dv fun d => { d with product := { guestPart := true } }) with dict := { vals := [(0xB00001, 1)] } },
   by decide +kernel⟩⟩

theorem witness_ProductionTest :
    (∃ (sig : Sig) (s : State), entryWaits s = true ∧ s.dev.prodHello = true ∧ sig.key = s.sec.prodKey ∧ sig.msg = entryDigest s) ∧
    (∃ (sig : Sig) (s : State), entryWaits s = true ∧ (s.dev.prodHello = false ∨ sig.key ≠ s.sec.prodKey ∨ sig.msg ≠ entryDigest s)) ∧
    (∃ (src : Src) (req : BitVec 192) (s : State), Passes s src 0xC00010 24 req.toNat (prodOwn s req.toNat)) ∧
    (∃ (src : Src) (v : BitVec 8) (s : State), Passes s src 0xC00011 1 v.toNat (ledgerOwn s v.toNat)) ∧
    (∃ (src : Src) (req : BitVec 128) (s : State), Passes s src 0xC00012 16 req.toNat (fuseOwn s)) :=
  ⟨⟨{ key := 0, msg := entryDigest { bootAt 0 with dev := { (bootAt 0).dev with prodEntry := true, prodHello := true } } },
   { bootAt 0 with dev := { (bootAt 0).dev with prodEntry := true, prodHello := true } }, by decide +kernel⟩,
   ⟨{ key := 1, msg := 0 }, { bootAt 0 with dev := { (bootAt 0).dev with prodEntry := true, prodHello := true } }, by decide +kernel⟩,
   ⟨mbox, BitVec.ofNat 192 (0x1000 + 2 * 2 ^ 16 + 8 * 2 ^ 24 + 5 * 2 ^ 64), (dv fun d => { d with prodTest := true }),
   by unfold Passes; decide +kernel⟩,
   ⟨mbox, 1, (dv fun d => { d with prodTest := true, product := { pkgSerial := 2 } }), by unfold Passes; decide +kernel⟩,
   ⟨mbox, BitVec.ofNat 128 (2 ^ 64 + 3), (dv fun d => { d with prodTest := true }), by unfold Passes; decide +kernel⟩⟩

theorem witness_HaltRanks : (∃ (c : Fin 16) (s : State), (ctxAt s c.val).state = .running) ∧ (∃ (c : Fin 16) (s : State), (ctxAt s c.val).state = .halted) ∧
    (∃ (c : Fin 16) (s : State), (ctxAt s c.val).state ≠ .running ∧ (ctxAt s c.val).state ≠ .halted) ∧ ∃ c k : Fin 16, k ≠ c :=
  ⟨⟨0, inStep 0 [] id, by decide +kernel⟩, ⟨0, inStep 0 [] fun x => { x with state := .halted }, by decide +kernel⟩, ⟨15, rdy, by decide +kernel⟩, 0, 15, by decide⟩

theorem witness_DomainDependencies : ∃ (w : BitVec 50) (d : Nat), d < 50 ∧ DomainsOk w ∧ w.getLsbD 49 = true :=
  ⟨BitVec.allOnes 50, 49, by decide, fun _ _ _ k hk => by
    have h : ∀ d < 50, ∀ k ∈ needs d, (BitVec.allOnes 50).getLsbD k = true := by decide +kernel
    exact h _ ‹_› k hk, by decide⟩

theorem witness_StagedBytes : ∃ (m : Mem) (off a : Nat) (bs : List Byte), m.wf = true ∧ (a < off ∨ off + bs.length ≤ a) := ⟨[], 4, 5, [1], by decide⟩

theorem witness_QueueFirstInFirstOut : (∃ s t : State, step s = .next t) ∧ ∃ s : State, s.pending = [] :=
  ⟨⟨{ rdy with pending := [.perstNDeassert] }, _, rfl⟩, rdy, rfl⟩

theorem witness_FusesStayBlown : ∃ (c : Instr) (s t : State) (g k : Nat), exec c s = .next t ∧ (fusesOf s g).testBit k = true :=
  ⟨.perstNDeassert, dv fun d => { d with fuses := [(3, 1)] }, _, 3, 0, rfl, by decide +kernel⟩

theorem witness_CountersOnlyRise : ∃ (c : Instr) (s t : State) (k : Fin 4), exec c s = .next t ∧ s.sec.revoked.getLsbD k.val = true :=
  ⟨.perstNDeassert, { rdy with sec := { revoked := 8 } }, _, 3, rfl, by decide +kernel⟩

theorem witness_StepKeepsInvariant : ∃ s t : State, Inv s ∧ step s = .next t :=
  ⟨{ State.reset with pending := [.perstNDeassert] }, _,
    ⟨fun d _ h => absurd h (by simp [State.reset]), by decide +kernel, by decide +kernel, by decide +kernel, by decide +kernel, nofun⟩, rfl⟩

/-- One task for each of the thirteen tile operations, over tensors 0 and 1. -/
def opBodies : List (Nat × Body) :=
  let z : OpSlot := ⟨0, 0⟩
  [(0x10, .mat .mm z z 1 z 0 false 0 false false false), (0x11, .mat .mmTa z z 1 z 0 false 0 false true false),
   (0x12, .mat .mmTb z z 1 z 0 false 0 false false true), (0x13, .mat .mmAcc z z 1 z 0 false 0 false false false),
   (0x18, .att false z z z z z z 1 1 1 1 false 0 false 0 0 0), (0x19, .att true z z z z z z 1 1 1 1 false 0 false 0 0 0),
   (0x20, .ew z z 1 0 0 0 0 0 z), (0x21, .red z 1 0 false), (0x22, .norm z z z z z 1 1 1 0 0), (0x23, .smax z z 1 false 0 false 0 0),
   (0x24, .opt 1 ⟨0, 1⟩ ⟨0, 1⟩ ⟨0, 1⟩ z z 1 0 1), (0x28, .conv z 1), (0x29, .amax z 1)]

/-- Its piece at the head of core 0's queue, with both tensors written. -/
def opState (x : Nat × Body) : State :=
  core0 (fun k => { k with queue := [pc0] })
    { inStep 0 [task x.1 x.2] id with
      vers := { reserve := 8, copies := [0, 1].map fun t => { ctx := 0, tensor := t, tile := 0, kind := .w1, mask := (List.range 64).map fun i => (i, 1) } } }

/-- Every one of the thirteen tile operations issues somewhere. -/
theorem witness_TileOps_each : opBodies.map (·.1) = tileOps.map (·.1) ∧ ∀ x ∈ opBodies,
    headReady (opState x) 0 x.1 = some (pc0, task x.1 x.2) ∧
    splitRoom (opState x) 0 (splitsNeeded (opState x) 0 1 (workWrites (workOf (opState x) pc0 (task x.1 x.2) {}))) = true ∧
    partnerCore (opState x) 0 4 = some 68 ∧
    (checksFor (opState x) pc0 (task x.1 x.2) (workOf (opState x) pc0 (task x.1 x.2) {})).length ≤ 64 - (coreAt (opState x) 68).checkQ.length :=
  ⟨by simp [opBodies, tileOps], by decide +kernel⟩

end Sys2Proof.Tests
end

section
/-! SUPPORT. The power domains (01 R34): what `domOn` and `domOff` leave on, and that either keeps the dependencies. -/

-- One theorem at a time: the stacks of parallel proofs add up to more than the memory the check gives.
set_option Elab.async false

namespace Sys2Proof.Machine

/-! ### Domains (01 R34) -/

/-- Switching a list of domains off clears these bits and no other. -/
theorem getLsbD_foldl_clear (l : List Nat) (w : BitVec 50) (k : Nat) :
    (l.foldl (fun w k => w &&& ~~~ BitVec.twoPow 50 k) w).getLsbD k = (w.getLsbD k && !l.contains k) := by
  induction l generalizing w with
  | nil => simp
  | cons a r ih =>
    rw [List.foldl_cons, ih, BitVec.getLsbD_and, BitVec.getLsbD_not, BitVec.getLsbD_twoPow, List.contains_cons]
    by_cases hk : k < 50
    · by_cases ha : k = a
      · simp [ha]
      · simp [hk, Ne.symm ha, beq_false_of_ne ha]
    · simp [BitVec.getLsbD_of_ge w k (not_lt.mp hk)]

theorem domOff_getLsbD (w : BitVec 50) (d k : Nat) :
    (domOff w d).getLsbD k = (w.getLsbD k && !(dependents d ++ [d]).contains k) := getLsbD_foldl_clear _ w k

/-- What `domOn` leaves on: what was on, and the domain itself where its dependencies are on. -/
theorem domOn_getLsbD (w : BitVec 50) (d k : Nat) :
    (domOn w d).getLsbD k = (w.getLsbD k || (decide (k < 50 ∧ d = k) && (needs d).all fun j => w.getLsbD j)) := by
  unfold domOn
  split <;> rename_i h
  · rw [h, BitVec.getLsbD_or, BitVec.getLsbD_twoPow, Bool.and_true]
    by_cases hd : d = k <;> simp [hd]
  · simp [h]

theorem mem_needs {d k : Nat} : k ∈ needs d ↔
    (d < 40 ∧ d % 5 = 4 ∧ (k = 40 ∨ k = 48)) ∨ (d < 40 ∧ d % 5 ≠ 4 ∧ k = d / 5 * 5 + 4) ∨ (40 ≤ d ∧ d ≠ 43 ∧ k = 43) := by
  unfold needs
  repeat' split
  all_goals simp only [List.mem_cons, List.not_mem_nil, or_false, false_iff]
  all_goals omega

theorem mem_dependents {d k : Nat} : k ∈ dependents d ↔
    (d = 43 ∧ k < 50 ∧ k ≠ 43) ∨ ((d = 40 ∨ d = 48) ∧ k < 40) ∨ (d < 40 ∧ d % 5 = 4 ∧ k / 5 = d / 5 ∧ k % 5 ≠ 4) := by
  unfold dependents upto
  simp only [Bool.or_eq_true, Bool.and_eq_true, decide_eq_true_eq]
  repeat' split
  all_goals simp only [List.mem_filter, List.mem_map, List.mem_range, List.not_mem_nil, false_iff, decide_eq_true_eq]
  · omega
  · omega
  · exact ⟨fun ⟨a, h⟩ => by omega, fun h => ⟨k % 5, by omega⟩⟩
  · omega

/-- A domain that needs one which goes off with `d` goes off with `d` too. -/
theorem mem_dependents_of_needs {d e k : Nat} (he : e < 50) (hk : k ∈ needs e) (hd : k ∈ dependents d ++ [d]) : e ∈ dependents d ++ [d] := by
  simp only [List.mem_append, List.mem_singleton, mem_dependents, mem_needs] at *
  omega

theorem domOn_ok {w : BitVec 50} (d : Nat) (h : DomainsOk w) : DomainsOk (domOn w d) := by
  intro e he hon k hk
  rw [domOn_getLsbD, Bool.or_eq_true] at hon ⊢
  left
  rcases hon with hw | hnew
  · exact h e he hw k hk
  · simp only [Bool.and_eq_true, decide_eq_true_eq, List.all_eq_true] at hnew
    obtain ⟨⟨-, rfl⟩, hall⟩ := hnew
    exact hall k hk

theorem domOff_ok {w : BitVec 50} (d : Nat) (h : DomainsOk w) : DomainsOk (domOff w d) := by
  intro e he hon k hk
  simp only [domOff_getLsbD, Bool.and_eq_true, Bool.not_eq_true', List.contains_eq_mem, decide_eq_false_iff_not] at hon ⊢
  exact ⟨h e he hon.1 k hk, fun hd => hon.2 (mem_dependents_of_needs he hk hd)⟩

theorem domOff_off (w : BitVec 50) (d : Nat) : (domOff w d).getLsbD d = false := by simp [domOff_getLsbD]

theorem domainsOk_zero : DomainsOk 0 := fun d _ h => absurd h (by simp)

theorem foldl_domOn_ok (ds : List Nat) {w : BitVec 50} (h : DomainsOk w) : DomainsOk (ds.foldl domOn w) :=
  List.foldlRecOn ds domOn h fun _ hw d _ => domOn_ok d hw

theorem foldl_domOff_ok (ds : List Nat) {w : BitVec 50} (h : DomainsOk w) : DomainsOk (ds.foldl domOff w) :=
  List.foldlRecOn ds domOff h fun _ hw d _ => domOff_ok d hw

/-- Settles O51: `domOn` waits for what the domain needs, and `domOff` takes with it all that needs the domain. -/
theorem domainDependencies : Obligations.DomainDependencies :=
  fun w d _ h => ⟨domOn_ok d h, domOff_ok d h, domOff_off w d⟩

end Sys2Proof.Machine
end

section
/-! SUPPORT. Every command: the parts of the state that it stays within, and that it goes on (09 R241 has the one fault). -/

-- One theorem at a time: the stacks of parallel proofs add up to more than the memory the check gives.
set_option Elab.async false

namespace Sys2Proof.Machine

/-! ### Frames -/

/-- The frame of every command: that of its meaning lies within the parts listed for it. -/
theorem exec_touches : (c : Instr) → (s : State) → OutTouches (mayTouch c) s (exec c s)
  | .pwrEnAssert inputMv prodEntry, s => (execPwrEnAssert_touches inputMv prodEntry s).mono rfl
  | .pwrEnDeassert, s => (execPwrEnDeassert_touches s).mono rfl
  | .inputUndervoltage, s => (execInputUndervoltage_touches s).mono rfl
  | .powerDownStepDone, s => (execPowerDownStepDone_touches s).mono rfl
  | .inputFetOpen inputMv, s => (execInputFetOpen_touches inputMv s).mono rfl
  | .bootPhaseDone badImages, s => (execBootPhaseDone_touches badImages s).mono rfl
  | .partitionBringupStagger, s => (execPartitionBringupStagger_touches s).mono rfl
  | .partitionBringupStepDone p r, s => (execPartitionBringupStepDone_touches p r s).mono rfl
  | .selftestKernelDone core pclass digestOk, s => (execSelftestKernelDone_touches core pclass digestOk s).mono rfl
  | .stateEnterTest src, s => (execStateEnterTest_touches src s).mono rfl
  | .stateLeaveTest src, s => (execStateLeaveTest_touches src s).mono rfl
  | .moduleResetCommand src, s => (execModuleResetCommand_touches src s).mono rfl
  | .partitionResetCommand src p, s => (execPartitionResetCommand_touches src p s).mono rfl
  | .moduleResetHoldoffEnd, s => (execModuleResetHoldoffEnd_touches s).mono rfl
  | .partitionResetDelayEnd p, s => (execPartitionResetDelayEnd_touches p s).mono rfl
  | .perstNAssert, s => (execPerstNAssert_touches s).mono rfl
  | .perstNDeassert, s => (execPerstNDeassert_touches s).mono rfl
  | .d2dFlitReceived c seq flit crc, s => (execD2dFlitReceived_touches c seq flit crc s).mono rfl
  | .d2dTimeout requester far, s => (execD2dTimeout_touches requester far s).mono rfl
  | .taskDispatch ctx task, s => (execTaskDispatch_touches ctx task s).mono rfl
  | .queueRoomFreed ctx, s => (execQueueRoomFreed_touches ctx s).mono rfl
  | .mm core hw, s => (execMm_touches core hw s).mono rfl
  | .mmTa core hw, s => (execMmTa_touches core hw s).mono rfl
  | .mmTb core hw, s => (execMmTb_touches core hw s).mono rfl
  | .mmAcc core hw, s => (execMmAcc_touches core hw s).mono rfl
  | .attF core hw, s => (execAttF_touches core hw s).mono rfl
  | .attB core hw, s => (execAttB_touches core hw s).mono rfl
  | .ew core hw, s => (execEw_touches core hw s).mono rfl
  | .red core hw, s => (execRed_touches core hw s).mono rfl
  | .norm core hw, s => (execNorm_touches core hw s).mono rfl
  | .smax core hw, s => (execSmax_touches core hw s).mono rfl
  | .opt core hw, s => (execOpt_touches core hw s).mono rfl
  | .convFmt core hw, s => (execConvFmt_touches core hw s).mono rfl
  | .amax core hw, s => (execAmax_touches core hw s).mono rfl
  | .copy engine hw, s => (execCopy_touches engine hw s).mono rfl
  | .sig ctx, s => (execSig_touches ctx s).mono rfl
  | .wait ctx, s => (execWait_touches ctx s).mono rfl
  | .allReduce ctx others, s => (execAllReduce_touches ctx others s).mono rfl
  | .reduceScatter ctx members, s => (execReduceScatter_touches ctx members s).mono rfl
  | .allGather ctx members, s => (execAllGather_touches ctx members s).mono rfl
  | .send ctx, s => (execSend_touches ctx s).mono rfl
  | .recv ctx data, s => (execRecv_touches ctx data s).mono rfl
  | .barrier ctx, s => (execBarrier_touches ctx s).mono rfl
  | .signal ctx, s => (execSignal_touches ctx s).mono rfl
  | .pieceComplete core which, s => (execPieceComplete_touches core which s).mono rfl
  | .splitStallResume core, s => (execSplitStallResume_touches core s).mono rfl
  | .reexecIssue core err, s => (execReexecIssue_touches core err s).mono rfl
  | .checkPieceComplete core, s => (execCheckPieceComplete_touches core s).mono rfl
  | .arbiterComplete core finished, s => (execArbiterComplete_touches core finished s).mono rfl
  | .pieceWatchdogExpiry who, s => (execPieceWatchdogExpiry_touches who s).mono rfl
  | .checkWatchdogExpiry core, s => (execCheckWatchdogExpiry_touches core s).mono rfl
  | .sigTakesEffect ctx, s => (execSigTakesEffect_touches ctx s).mono rfl
  | .waitSatisfied ctx, s => (execWaitSatisfied_touches ctx s).mono rfl
  | .stepBoundary, s => (execStepBoundary_touches s).mono rfl
  | .batchHeaderPoll hdrStep filled, s => (execBatchHeaderPoll_touches hdrStep filled s).mono rfl
  | .batchFetchDone body, s => (execBatchFetchDone_touches body s).mono rfl
  | .verdictContribute, s => (execVerdictContribute_touches s).mono rfl
  | .syncUpFrame link frame, s => (execSyncUpFrame_touches link frame s).mono rfl
  | .syncDownFrame link frame, s => (execSyncDownFrame_touches link frame s).mono rfl
  | .replayDispatch, s => (execReplayDispatch_touches s).mono rfl
  | .syncLeavingFrame link frame, s => (execSyncLeavingFrame_touches link frame s).mono rfl
  | .syncStateFrame link frame, s => (execSyncStateFrame_touches link frame s).mono rfl
  | .syncIdleFrame link frame, s => (execSyncIdleFrame_touches link frame s).mono rfl
  | .idleFrameSend link, s => (execIdleFrameSend_touches link s).mono rfl
  | .syncLaneHeartbeatLoss link, s => (execSyncLaneHeartbeatLoss_touches link s).mono rfl
  | .bundleSilent d, s => (execBundleSilent_touches d s).mono rfl
  | .fenceProposalTimer d, s => (execFenceProposalTimer_touches d s).mono rfl
  | .fenceRecordReceived link rec, s => (execFenceRecordReceived_touches link rec s).mono rfl
  | .fenceFloodRepeat, s => (execFenceFloodRepeat_touches s).mono rfl
  | .fenceProxyAbort slot, s => (execFenceProxyAbort_touches slot s).mono rfl
  | .fenceRecordRequest slot, s => (execFenceRecordRequest_touches slot s).mono rfl
  | .fenceCommand src coord, s => (execFenceCommand_touches src coord s).mono rfl
  | .recoveryPatienceExpiry d, s => (execRecoveryPatienceExpiry_touches d s).mono rfl
  | .takeoverDone digestOk tensors recs, s => (execTakeoverDone_touches digestOk tensors recs s).mono rfl
  | .refillDone refill, s => (execRefillDone_touches refill s).mono rfl
  | .mirrorStreamReceived step rebuild tensors recs, s => (execMirrorStreamReceived_touches step rebuild tensors recs s).mono rfl
  | .mirrorAckReceived step, s => (execMirrorAckReceived_touches step s).mono rfl
  | .mirrorRebuildDone, s => (execMirrorRebuildDone_touches s).mono rfl
  | .moduleStatePieceReceived cut piece, s => (execModuleStatePieceReceived_touches cut piece s).mono rfl
  | .linkFlitReceived link hdr payload crc codewords ack, s => (execLinkFlitReceived_touches link hdr payload crc codewords ack s).mono rfl
  | .linkNakReceived link lastGood, s => (execLinkNakReceived_touches link lastGood s).mono rfl
  | .errorReturnReceived link flit, s => (execErrorReturnReceived_touches link flit s).mono rfl
  | .signalArrival ctx group step attempt, s => (execSignalArrival_touches ctx group step attempt s).mono rfl
  | .laneLossOfLock link lane, s => (execLaneLossOfLock_touches link lane s).mono rfl
  | .laneErrorWindow link lane errors symbols, s => (execLaneErrorWindow_touches link lane errors symbols s).mono rfl
  | .ctleReevaluation link lane, s => (execCtleReevaluation_touches link lane s).mono rfl
  | .linkTrainingDone link latencyNs, s => (execLinkTrainingDone_touches link latencyNs s).mono rfl
  | .linkLockTimeout link, s => (execLinkLockTimeout_touches link s).mono rfl
  | .linkTrainingRetry link, s => (execLinkTrainingRetry_touches link s).mono rfl
  | .discoveryRecordSend link, s => (execDiscoveryRecordSend_touches link s).mono rfl
  | .discoveryRecordReceived link rec, s => (execDiscoveryRecordReceived_touches link rec s).mono rfl
  | .linkFenceCommand src value, s => (execLinkFenceCommand_touches src value s).mono rfl
  | .epochMarkEdge highNs, s => (execEpochMarkEdge_touches highNs s).mono rfl
  | .epochMarkCommand src, s => (execEpochMarkCommand_touches src s).mono rfl
  | .captureStart, s => (execCaptureStart_touches s).mono rfl
  | .capturePiecesDone cut, s => (execCapturePiecesDone_touches cut s).mono rfl
  | .manifestDurable cut, s => (execManifestDurable_touches cut s).mono rfl
  | .lehrWriteError cut, s => (execLehrWriteError_touches cut s).mono rfl
  | .poolWriteError cut, s => (execPoolWriteError_touches cut s).mono rfl
  | .retainCommand src cut, s => (execRetainCommand_touches src cut s).mono rfl
  | .retainCopyDone, s => (execRetainCopyDone_touches s).mono rfl
  | .releaseCommand src area, s => (execReleaseCommand_touches src area s).mono rfl
  | .restoreRequest src req, s => (execRestoreRequest_touches src req s).mono rfl
  | .restoreDone readError badPiece, s => (execRestoreDone_touches readError badPiece s).mono rfl
  | .exportRequest src req, s => (execExportRequest_touches src req s).mono rfl
  | .exportDone ok, s => (execExportDone_touches ok s).mono rfl
  | .programLoadRequest src req, s => (execProgramLoadRequest_touches src req s).mono rfl
  | .programLoadDone, s => (execProgramLoadDone_touches s).mono rfl
  | .contextStart src ctx, s => (execContextStart_touches src ctx s).mono rfl
  | .contextHalt src ctx, s => (execContextHalt_touches src ctx s).mono rfl
  | .contextResume src ctx, s => (execContextResume_touches src ctx s).mono rfl
  | .contextUnload src ctx, s => (execContextUnload_touches src ctx s).mono rfl
  | .unloadComplete ctx, s => (execUnloadComplete_touches ctx s).mono rfl
  | .counterClear src, s => (execCounterClear_touches src s).mono rfl
  | .migrationPlanReady moves, s => (execMigrationPlanReady_touches moves s).mono rfl
  | .migrationCopyDone ctx tensor, s => (execMigrationCopyDone_touches ctx tensor s).mono rfl
  | .migrationEnableWrite src, s => (execMigrationEnableWrite_touches src s).mono rfl
  | .replacementDone fits part, s => (execReplacementDone_touches fits part s).mono rfl
  | .regulatorSharesWrite src value, s => (execRegulatorSharesWrite_touches src value s).mono rfl
  | .patrolScrub p err passDone, s => (execPatrolScrub_touches p err passDone s).mono rfl
  | .rowCopyDone p, s => (execRowCopyDone_touches p s).mono rfl
  | .dramTempSample n temp dieMax, s => (execDramTempSample_touches n temp dieMax s).mono rfl
  | .cxlMemAccess offset write len err, s => (execCxlMemAccess_touches offset write len err s).mono rfl
  | .ledgerEventClassed, s => (execLedgerEventClassed_touches s).mono rfl
  | .ledgerRecordWritten, s => (execLedgerRecordWritten_touches s).mono rfl
  | .optimeFlush, s => (execOptimeFlush_touches s).mono rfl
  | .trotPieceIssue core pclass, s => (execTrotPieceIssue_touches core pclass s).mono rfl
  | .trotPieceComplete digestOk, s => (execTrotPieceComplete_touches digestOk s).mono rfl
  | .gallopStartCommand src, s => (execGallopStartCommand_touches src s).mono rfl
  | .gallopStopCommand src, s => (execGallopStopCommand_touches src s).mono rfl
  | .gallopAutoStart, s => (execGallopAutoStart_touches s).mono rfl
  | .gallopCellComplete failed, s => (execGallopCellComplete_touches failed s).mono rfl
  | .coreProbeDone core digestOk, s => (execCoreProbeDone_touches core digestOk s).mono rfl
  | .coreProbeTimeout core, s => (execCoreProbeTimeout_touches core s).mono rfl
  | .coreResetDone core, s => (execCoreResetDone_touches core s).mono rfl
  | .hubWatchdogExpiry, s => (execHubWatchdogExpiry_touches s).mono rfl
  | .escalationClear src, s => (execEscalationClear_touches src s).mono rfl
  | .powerControllerIteration inputW, s => (execPowerControllerIteration_touches inputW s).mono rfl
  | .emergencyEscalationTimer e, s => (execEmergencyEscalationTimer_touches e s).mono rfl
  | .emergencyClearTimer e, s => (execEmergencyClearTimer_touches e s).mono rfl
  | .regulatorFault r, s => (execRegulatorFault_touches r s).mono rfl
  | .telemetryTimeout, s => (execTelemetryTimeout_touches s).mono rfl
  | .coolantInletOver temp, s => (execCoolantInletOver_touches temp s).mono rfl
  | .thermalTrip, s => (execThermalTrip_touches s).mono rfl
  | .rackLeaseWrite src value, s => (execRackLeaseWrite_touches src value s).mono rfl
  | .leaseExpiry, s => (execLeaseExpiry_touches s).mono rfl
  | .islandVoltageLoop core marginMore marginShort, s => (execIslandVoltageLoop_touches core marginMore marginShort s).mono rfl
  | .droopDetected core, s => (execDroopDetected_touches core s).mono rfl
  | .logicTempSample core temp, s => (execLogicTempSample_touches core temp s).mono rfl
  | .ostlerTrap o, s => (execOstlerTrap_touches o s).mono rfl
  | .ostlerWatchdogExpiry o, s => (execOstlerWatchdogExpiry_touches o s).mono rfl
  | .ostlerRestartCommand src o, s => (execOstlerRestartCommand_touches src o s).mono rfl
  | .ostlerDumpCommand src o, s => (execOstlerDumpCommand_touches src o s).mono rfl
  | .ostlerDumpDone o digestOk timeouts truncated size, s => (execOstlerDumpDone_touches o digestOk timeouts truncated size s).mono rfl
  | .ostlerReady o, s => (execOstlerReady_touches o s).mono rfl
  | .ostlerReadyTimeout o, s => (execOstlerReadyTimeout_touches o s).mono rfl
  | .farrierWatchdogExpiry, s => (execFarrierWatchdogExpiry_touches s).mono rfl
  | .farrierRestartDone, s => (execFarrierRestartDone_touches s).mono rfl
  | .updateRequest src req, s => (execUpdateRequest_touches src req s).mono rfl
  | .updateDone img writeOk, s => (execUpdateDone_touches img writeOk s).mono rfl
  | .activateCommand src mask, s => (execActivateCommand_touches src mask s).mono rfl
  | .activationDeferralEnd, s => (execActivationDeferralEnd_touches s).mono rfl
  | .patternLibraryReload digestOk, s => (execPatternLibraryReload_touches digestOk s).mono rfl
  | .logFlashCopy, s => (execLogFlashCopy_touches s).mono rfl
  | .dumpExportRequest src req, s => (execDumpExportRequest_touches src req s).mono rfl
  | .hello master, s => (execHello_touches master s).mono rfl
  | .halterOpen frags count total, s => (execHalterOpen_touches frags count total s).mono rfl
  | .fragmentTimeout slot, s => (execFragmentTimeout_touches slot s).mono rfl
  | .sessionIdleTimeout slot, s => (execSessionIdleTimeout_touches slot s).mono rfl
  | .dictRead src index sub, s => (execDictRead_touches src index sub s).mono rfl
  | .dictWrite src index sub size value, s => (execDictWrite_touches src index sub size value s).mono rfl
  | .claim src slot priority sig, s => (execClaim_touches src slot priority sig s).mono rfl
  | .release src, s => (execRelease_touches src s).mono rfl
  | .transfer src dest, s => (execTransfer_touches src dest s).mono rfl
  | .renew src, s => (execRenew_touches src s).mono rfl
  | .pendingClaimLapse, s => (execPendingClaimLapse_touches s).mono rfl
  | .ownerLeaseExpiry, s => (execOwnerLeaseExpiry_touches s).mono rfl
  | .imageChunk src offset bytes, s => (execImageChunk_touches src offset bytes s).mono rfl
  | .imageChunkTimeout, s => (execImageChunkTimeout_touches s).mono rfl
  | .mailboxIdentify, s => (execMailboxIdentify_touches s).mono rfl
  | .mailboxGetSupportedLogs, s => (execMailboxGetSupportedLogs_touches s).mono rfl
  | .mailboxUnsupportedOpcode opcode, s => (execMailboxUnsupportedOpcode_touches opcode s).mono rfl
  | .persistGenerationStart, s => (execPersistGenerationStart_touches s).mono rfl
  | .persistGenerationDone ok, s => (execPersistGenerationDone_touches ok s).mono rfl
  | .persistRetry, s => (execPersistRetry_touches s).mono rfl
  | .restoreDefaults src value, s => (execRestoreDefaults_touches src value s).mono rfl
  | .attestationRequest src nonce, s => (execAttestationRequest_touches src nonce s).mono rfl
  | .attestationDone, s => (execAttestationDone_touches s).mono rfl
  | .reportExport src offset, s => (execReportExport_touches src offset s).mono rfl
  | .credentialInstall src req, s => (execCredentialInstall_touches src req s).mono rfl
  | .credentialRemove src slot, s => (execCredentialRemove_touches src slot s).mono rfl
  | .debugUnlockRequest src req token, s => (execDebugUnlockRequest_touches src req token s).mono rfl
  | .blinkersWindowWrite src w value, s => (execBlinkersWindowWrite_touches src w value s).mono rfl
  | .guestRequest addr len write, s => (execGuestRequest_touches addr len write s).mono rfl
  | .ptEntry sig, s => (execPtEntry_touches sig s).mono rfl
  | .productionValueWrite src req, s => (execProductionValueWrite_touches src req s).mono rfl
  | .ledgerReset src value, s => (execLedgerReset_touches src value s).mono rfl
  | .fuseProgram src req, s => (execFuseProgram_touches src req s).mono rfl
  | .inputRestored inputMv, s => (execInputRestored_touches inputMv s).mono rfl
  | .dumpExportDone ok, s => (execDumpExportDone_touches ok s).mono rfl
  | .testPortInstruction instr, s => (execTestPortInstruction_touches instr s).mono rfl
  | .hubHot temp, s => (execHubHot_touches temp s).mono rfl

/-! ### Commands that go on -/

/-- A command goes on to a next state. -/
def Completes (o : Out) : Prop := ∃ t, o = .next t

theorem Completes.next (t : State) : Completes (.next t) := ⟨t, rfl⟩

theorem Completes.ite {c : Prop} [Decidable c] {o o' : Out} (h : Completes o) (h' : Completes o') : Completes (if c then o else o') := by
  split <;> assumption

theorem probeEvent_completes (s : State) (g : Nat) (c : Instr) (t : State) : Completes (probeEvent s g c t) :=
  .ite (.next _) (.ite (.next _) (.next _))

/-- Every command but an access of the aperture goes on: its meaning is a tree of conditions and matches whose leaves are all next states.
The commands stand together by the shape of that tree. -/
theorem exec_completes (c : Instr) (s : State) (h : ∀ off w len err, c ≠ .cxlMemAccess off w len err) : Completes (exec c s) := by
  cases c with
  | pwrEnDeassert | inputUndervoltage | stateEnterTest | stateLeaveTest | moduleResetCommand | partitionResetCommand | perstNAssert | perstNDeassert |
    mm | mmTa | mmTb | mmAcc | attF | attB | ew | red | norm | smax | opt | convFmt | amax | copy | fenceRecordReceived | fenceCommand |
    mirrorAckReceived | mirrorRebuildDone | linkFlitReceived | linkFenceCommand | epochMarkCommand | retainCommand | releaseCommand | restoreRequest |
    exportRequest | programLoadRequest | contextStart | contextHalt | contextResume | contextUnload | counterClear | migrationCopyDone |
    migrationEnableWrite | regulatorSharesWrite | gallopStartCommand | gallopStopCommand | escalationClear | rackLeaseWrite | ostlerTrap |
    ostlerWatchdogExpiry | ostlerRestartCommand | ostlerDumpCommand | updateRequest | activateCommand | activationDeferralEnd | dumpExportRequest |
    release | transfer | renew | restoreDefaults | attestationRequest | reportExport | credentialInstall | credentialRemove | debugUnlockRequest |
    blinkersWindowWrite | productionValueWrite | ledgerReset | fuseProgram => exact .next _
  | pwrEnAssert | inputFetOpen | bootPhaseDone | partitionBringupStagger | partitionBringupStepDone | selftestKernelDone | moduleResetHoldoffEnd |
    partitionResetDelayEnd | queueRoomFreed | idleFrameSend | syncLaneHeartbeatLoss | bundleSilent | fenceProposalTimer | fenceRecordRequest |
    recoveryPatienceExpiry | refillDone | moduleStatePieceReceived | errorReturnReceived | laneLossOfLock | laneErrorWindow | ctleReevaluation |
    discoveryRecordSend | epochMarkEdge | programLoadDone | unloadComplete | migrationPlanReady | patrolScrub | dramTempSample | optimeFlush |
    trotPieceIssue | gallopAutoStart | powerControllerIteration | regulatorFault | telemetryTimeout | coolantInletOver | thermalTrip |
    islandVoltageLoop | droopDetected | logicTempSample | ostlerReady | ostlerReadyTimeout | farrierWatchdogExpiry | updateDone | patternLibraryReload |
    dictWrite | ownerLeaseExpiry | imageChunkTimeout | mailboxIdentify | mailboxGetSupportedLogs | mailboxUnsupportedOpcode | persistGenerationStart |
    persistRetry | attestationDone | inputRestored | hubHot => exact .ite (.next _) (.next _)
  | d2dTimeout | batchFetchDone | syncIdleFrame | linkLockTimeout | linkTrainingRetry | farrierRestartDone | ptEntry =>
    exact .ite (.next _) (.ite (.next _) (.next _))
  | batchHeaderPoll | linkTrainingDone => exact .ite (.ite (.next _) (.next _)) (.next _)
  | syncLeavingFrame | syncStateFrame | linkNakReceived | hubWatchdogExpiry | hello | testPortInstruction =>
    exact .ite (.next _) (.ite (.next _) (.ite (.next _) (.next _)))
  | discoveryRecordReceived => exact .ite (.next _) (.ite (.ite (.next _) (.next _)) (.next _))
  | fragmentTimeout => exact .ite (.ite (.next _) (.next _)) (.ite (.next _) (.next _))
  | takeoverDone => exact .ite (.next _) (.ite (.next _) (.ite (.next _) (.ite (.next _) (.next _))))
  | mirrorStreamReceived => exact .ite (.next _) (.ite (.next _) (.ite (.next _) (.ite (.ite (.next _) (.next _)) (.next _))))
  | syncUpFrame => exact .ite (.next _) (.ite (.next _) (.ite (.next _) (.ite (.next _) (.ite (.next _) (.ite (.next _) (.ite (.next _) (.next _)))))))
  | syncDownFrame =>
    refine .ite (.next _) (.ite (.next _) (.ite (.next _) (.ite (.next _) ?_)))
    exact .ite (.next _) (.ite (.next _) (.ite (.next _) (.ite (.next _) (.ite (.next _) (.next _)))))
  | powerDownStepDone | send | recv | reexecIssue | sigTakesEffect | fenceFloodRepeat | fenceProxyAbort | captureStart | manifestDurable |
    lehrWriteError | retainCopyDone | restoreDone | exportDone | rowCopyDone | emergencyEscalationTimer | leaseExpiry | ostlerDumpDone |
    sessionIdleTimeout | pendingClaimLapse =>
    dsimp only [exec,
      execPowerDownStepDone, execSend, execRecv, execReexecIssue, execSigTakesEffect, execFenceFloodRepeat, execFenceProxyAbort, execCaptureStart,
      execManifestDurable, execLehrWriteError, execRetainCopyDone, execRestoreDone, execExportDone, execRowCopyDone, execEmergencyEscalationTimer,
      execLeaseExpiry, execOstlerDumpDone, execSessionIdleTimeout, execPendingClaimLapse]
    split
    · exact .next _
    · exact .next _
  | allReduce | reduceScatter | allGather | checkPieceComplete | arbiterComplete | checkWatchdogExpiry | waitSatisfied | stepBoundary | replayDispatch |
    ledgerEventClassed | ledgerRecordWritten | trotPieceComplete | logFlashCopy =>
    dsimp only [exec,
      execAllReduce, execReduceScatter, execAllGather, execCheckPieceComplete, execArbiterComplete, execCheckWatchdogExpiry, execWaitSatisfied,
      execStepBoundary, execReplayDispatch, execLedgerEventClassed, execLedgerRecordWritten, execTrotPieceComplete, execLogFlashCopy]
    split
    · exact .next _
    · exact .ite (.next _) (.next _)
  | sig | wait | splitStallResume | capturePiecesDone | emergencyClearTimer =>
    dsimp only [exec, execSig, execWait, execSplitStallResume, execCapturePiecesDone, execEmergencyClearTimer]
    split
    · exact .ite (.next _) (.next _)
    · exact .next _
  | signalArrival | guestRequest =>
    dsimp only [exec, execSignalArrival, execGuestRequest]
    refine .ite (.next _) ?_
    split
    · exact .next _
    · exact .next _
  | replacementDone =>
    dsimp only [exec, execReplacementDone]
    refine .ite ?_ (.next _)
    split
    · exact .next _
    · exact .next _
  | signal | pieceComplete =>
    dsimp only [exec, execSignal, execPieceComplete]
    split
    · exact .next _
    · split
      · exact .next _
      · exact .next _
  | poolWriteError =>
    dsimp only [exec, execPoolWriteError]
    split
    · split
      · exact .next _
      · exact .next _
    · exact .next _
  | persistGenerationDone =>
    dsimp only [exec, execPersistGenerationDone]
    split
    · exact .next _
    · exact .ite (.next _) (.ite (.next _) (.next _))
  | d2dFlitReceived | halterOpen | imageChunk | dumpExportDone =>
    dsimp only [exec, execD2dFlitReceived, execHalterOpen, execImageChunk, execDumpExportDone]
    refine .ite (.next _) ?_
    split
    · exact .next _
    · exact .ite (.next _) (.next _)
  | verdictContribute | gallopCellComplete =>
    dsimp only [exec, execVerdictContribute, execGallopCellComplete]
    split
    · exact .next _
    · exact .ite (.next _) (.ite (.next _) (.ite (.next _) (.next _)))
  | barrier =>
    dsimp only [exec, execBarrier]
    split
    · exact .next _
    · exact .ite (.ite (.next _) (.next _)) (.ite (.next _) (.next _))
  | dictRead =>
    dsimp only [exec, execDictRead]
    split
    · exact .next _
    · refine .ite (.next _) ?_
      split
      · exact .next _
      · exact .next _
  | claim =>
    dsimp only [exec, execClaim]
    refine .ite (.next _) ?_
    split
    · exact .next _
    · exact .ite (.next _) (.ite (.next _) (.next _))
  | taskDispatch =>
    dsimp only [exec, execTaskDispatch]
    split
    · exact .next _
    · refine .ite (.next _) ?_
      refine .ite (.next _) ?_
      refine .ite ?_ (.next _)
      split
      · exact .next _
      · exact .next _
  | pieceWatchdogExpiry =>
    dsimp only [exec, execPieceWatchdogExpiry]
    split
    · split
      · exact .next _
      · exact .next _
    · split
      · exact .ite (.next _) (.next _)
      · exact .next _
    · exact .ite (.next _) (.next _)
    · split
      · exact .next _
      · exact .next _
  | coreProbeDone | coreProbeTimeout | coreResetDone => exact .ite (probeEvent_completes _ _ _ _) (.next _)
  | cxlMemAccess off w len err => exact absurd rfl (h off w len err)

/-- An access inside the aperture goes on. -/
theorem execCxlMemAccess_completes (off : Nat) (w : Option (List Byte)) (len : Nat) (err : Option Ecc) (s : State)
    (h : ¬ off + (w.map List.length).getD len > 2 ^ 36) : Completes (execCxlMemAccess off w len err s) := by
  unfold execCxlMemAccess
  extract_lets n
  rw [if_neg h]
  exact .ite (.next _) (.ite (.next _) (.next _))

theorem execCxlMemAccess_outside (off : Nat) (w : Option (List Byte)) (len : Nat) (err : Option Ecc) (s : State)
    (h : off + (w.map List.length).getD len > 2 ^ 36) : execCxlMemAccess off w len err s = .fault .outsideAperture := by
  unfold execCxlMemAccess
  extract_lets n
  rw [if_pos h]

/-- Settles O59: a command that goes on stays within its parts by `exec_touches`, and each does but an access beyond the aperture's end. -/
theorem frames : Obligations.Frames := by
  intro c s
  have framed (hc : Completes (exec c s)) : ∃ t, exec c s = .next t ∧ Touches (mayTouch c) s t := by
    obtain ⟨t, ht⟩ := hc
    exact ⟨t, ht, exec_touches c s t ht⟩
  by_cases hc : ∃ off w len err, c = .cxlMemAccess off w len err
  · obtain ⟨off, w, len, err, rfl⟩ := hc
    by_cases ho : off + (w.map List.length).getD len > 2 ^ 36
    · exact .inr ⟨⟨off, len, w, err, rfl, ho⟩, execCxlMemAccess_outside off w len err s ho⟩
    · exact .inl (framed (execCxlMemAccess_completes off w len err s ho))
  · exact .inl (framed (exec_completes c s fun off w len err h => hc ⟨off, w, len, err, h⟩))

end Sys2Proof.Machine
end

section
/-! SUPPORT. The invariant: domains with what they depend on (01 R34), staged bytes in canonical form (09 R241), entry values in key order (20 R508, R516).
Each operation that changes one of these parts keeps it; the frames of Laws/ say that the others spare them. -/

-- One theorem at a time: the stacks of parallel proofs add up to more than the memory the check gives.
set_option Elab.async false

namespace Sys2Proof.Machine

/-! ### Entry values in key order (20 R508) -/

/-- A list in key order is one whose keys rise pairwise. -/
theorem valsWf_iff {l : List (Nat × Nat)} : valsWf l = true ↔ l.Pairwise fun a b => a.1 < b.1 := by
  induction l with
  | nil => simp [valsWf]
  | cons x r ih =>
    obtain ⟨k, v⟩ := x
    simp only [valsWf]
    rw [Bool.and_eq_true, ih, List.pairwise_cons]
    refine and_congr_left fun hr => ?_
    cases r with
    | nil => simp
    | cons y r =>
      simp only [decide_eq_true_eq, List.mem_cons, forall_eq_or_imp]
      exact ⟨fun h => ⟨h, fun z hz => lt_trans h ((List.pairwise_cons.mp hr).1 z hz)⟩, And.left⟩

theorem valsWf_filter {l : List (Nat × Nat)} (p : Nat × Nat → Bool) (h : valsWf l = true) : valsWf (l.filter p) = true :=
  valsWf_iff.mpr ((valsWf_iff.mp h).filter p)

theorem mem_setVal {l : List (Nat × Nat)} {k v d : Nat} {x : Nat × Nat} (h : x ∈ setVal l k v d) : x.1 = k ∨ x ∈ l := by
  induction l with
  | nil => by_cases hv : v = d <;> simp_all [setVal]
  | cons y r ih =>
    obtain ⟨j, w⟩ := y
    rw [setVal] at h
    split at h
    · split at h
      · exact .inr h
      · exact (List.mem_cons.mp h).imp (congrArg Prod.fst ·) id
    · split at h
      · split at h
        · exact .inr (List.mem_cons_of_mem _ h)
        · exact (List.mem_cons.mp h).imp (congrArg Prod.fst ·) (List.mem_cons_of_mem _)
      · rcases List.mem_cons.mp h with rfl | h
        · exact .inr List.mem_cons_self
        · exact (ih h).imp id (List.mem_cons_of_mem _)

/-- Setting a value keeps the key order. -/
theorem valsWf_setVal {l : List (Nat × Nat)} (k v d : Nat) (h : valsWf l = true) : valsWf (setVal l k v d) = true := by
  rw [valsWf_iff] at *
  induction l with
  | nil => by_cases hv : v = d <;> simp [setVal, hv]
  | cons y r ih =>
    obtain ⟨j, w⟩ := y
    obtain ⟨hj, hr⟩ := List.pairwise_cons.mp h
    rw [setVal]
    split
    · split
      · exact h
      · refine List.pairwise_cons.mpr ⟨fun x hx => ?_, h⟩
        rcases List.mem_cons.mp hx with rfl | hx
        · assumption
        · exact lt_trans ‹_› (hj x hx)
    · split
      · subst_vars
        split
        · exact hr
        · exact List.pairwise_cons.mpr ⟨hj, hr⟩
      · refine List.pairwise_cons.mpr ⟨fun x hx => ?_, ih hr⟩
        rcases mem_setVal hx with rfl | hx
        · dsimp only; omega
        · exact hj x hx

/-! ### The staged bytes (09 R241) -/

/-- Canonical bytes: addresses that rise pairwise, and no zero byte. -/
theorem Mem.wf_iff {m : Mem} : m.wf = true ↔ (m.Pairwise fun a b => a.1 < b.1) ∧ ∀ x ∈ m, x.2 ≠ 0 := by
  induction m with
  | nil => simp [Mem.wf]
  | cons x r ih =>
    obtain ⟨k, b⟩ := x
    constructor
    · intro h
      have hb : b ≠ 0 := by simp only [Mem.wf, Bool.and_eq_true, bne_iff_ne] at h; exact h.1.1
      obtain ⟨hp, hz⟩ := ih.mp (Mem.wf_tail h)
      exact ⟨List.pairwise_cons.mpr ⟨Mem.wf_above h, hp⟩, List.forall_mem_cons.mpr ⟨hb, hz⟩⟩
    · rintro ⟨hp, hz⟩
      obtain ⟨hk, hr⟩ := List.pairwise_cons.mp hp
      exact Mem.wf_cons (hz (k, b) List.mem_cons_self) hk (ih.mpr ⟨hr, fun x hx => hz x (List.mem_cons_of_mem _ hx)⟩)

theorem Mem.wf_filter {m : Mem} (p : Nat × Byte → Bool) (h : m.wf = true) : Mem.wf (m.filter p) = true := by
  obtain ⟨hp, hz⟩ := Mem.wf_iff.mp h
  exact Mem.wf_iff.mpr ⟨hp.filter p, fun x hx => hz x (List.mem_of_mem_filter hx)⟩

/-! ### How the invariant passes from state to state -/

/-- No part that the invariant speaks of lies in `W`. -/
def sparesInv (W : List StatePart) : Bool := [.domains, .staging, .vals, .dict].all fun p => !W.contains p

/-- The dictionary as a whole, from its two parts. -/
theorem Dict.eq_of_parts {d e : Dict} (hv : d.vals = e.vals) (h : { d with vals := [] } = { e with vals := [] }) : d = e := by
  cases d; cases e; simp_all

/-- The invariant speaks of three fields only, and passes to a state that holds the same in them. -/
theorem Inv.congr {s t : State} (hi : Inv s) (hd : t.domains = s.domains := by rfl) (hm : t.staging = s.staging := by rfl)
    (hv : t.dict = s.dict := by rfl) : Inv t :=
  ⟨hd ▸ hi.domains, hm ▸ hi.staging, hv ▸ hi.dict⟩

/-- A call that spares the invariant's parts keeps it. -/
theorem Inv.touch {W : List StatePart} {s t : State} (hi : Inv s) (h : Touches W s t) (hw : sparesInv W = true := by decide) : Inv t := by
  have out : ∀ p ∈ [StatePart.domains, .staging, .vals, .dict], p.same s t := fun p hp =>
    h p (Bool.not_eq_true' _ ▸ List.all_eq_true.mp hw p hp)
  exact hi.congr (out .domains (by decide)).symm (out .staging (by decide)).symm
    (Dict.eq_of_parts (out .vals (by decide)) (out .dict (by decide))).symm

theorem Inv.ite {c : Prop} [Decidable c] {s t : State} (hs : Inv s) (ht : Inv t) : Inv (if c then s else t) := by
  split <;> assumption

theorem Inv.fold {α : Type} {f : State → α → State} (hf : ∀ s a, Inv s → Inv (f s a)) (l : List α) {s : State} (hi : Inv s) : Inv (l.foldl f s) :=
  List.foldlRecOn l f hi fun s hs a _ => hf s a hs

/-- A command keeps the invariant where it goes on. -/
def OutInv (o : Out) : Prop := ∀ t, o = .next t → Inv t

theorem Inv.next {s : State} (hi : Inv s) : OutInv (.next s) := by
  rintro t ⟨⟩
  exact hi

theorem OutInv.fault {r : Fault} : OutInv (.fault r) := by
  rintro t ⟨⟩

theorem OutInv.ite {c : Prop} [Decidable c] {o o' : Out} (h : OutInv o) (h' : OutInv o') : OutInv (if c then o else o') := by
  split <;> assumption

theorem Inv.out {W : List StatePart} {s : State} {o : Out} (hi : Inv s) (h : OutTouches W s o) (hw : sparesInv W = true := by decide) : OutInv o :=
  fun t ht => hi.touch (h t ht) hw

/-! ### Resets of a partition and of the module (01 R29, R34, R37) -/

theorem domainsOn_inv {s : State} (hi : Inv s) (ds : List Nat) : Inv (domainsOn s ds) := ⟨foldl_domOn_ok ds hi.domains, hi.staging, hi.dict⟩

theorem domainsOff_inv {s : State} (hi : Inv s) (ds : List Nat) : Inv (domainsOff s ds) := ⟨foldl_domOff_ok ds hi.domains, hi.staging, hi.dict⟩

theorem keepReadings_inv {s : State} (hi : Inv s) (p : Nat) : Inv (keepReadings s p) :=
  ⟨hi.domains, hi.staging, hi.dict.vals, hi.dict.copyA, hi.dict.copyB, hi.dict.writing⟩

theorem partContents_inv {s : State} (hi : Inv s) (p : Nat) : Inv (partContents s p) := ⟨hi.domains, Mem.wf_filter _ hi.staging, hi.dict⟩

theorem partResetRun_inv {s : State} (hi : Inv s) (p cause : Nat) : Inv (partResetRun s p cause) := by
  unfold partResetRun
  extract_lets kept b _ tooMany thermal _ counted posted cut dark _ conns noRestore _ noCapture dup gone held ks _ brought failed
  have hcounted : Inv counted := (keepReadings_inv hi p).congr
  have hposted : Inv posted := hcounted.touch (post_touches _ _ _ _ _)
  have hcut : Inv cut := ((hposted.touch (gallopStop_touches _)).touch (enterRecovery_touches _)).touch (pairsCut_touches _ _)
  have hdark : Inv dark := domainsOff_inv (partContents_inv (hcut.touch (partLinksDown_touches _ _)) p) _
  have hconns : Inv conns := hdark.congr
  have hnoRestore : Inv noRestore := hconns.touch (restoreFails_touches _ _ _)
  have hnoCapture : Inv noCapture := Inv.touch (Inv.congr hnoRestore) (abandonAll_touches _ _)
  have hgone : Inv gone := hnoCapture.touch (discardOn_touches _ _ _)
  have hheld : Inv held := (hgone.touch (loseJob_touches _ _)).ite hgone
  have hbrought : Inv brought := hheld.congr
  have hfailed : Inv failed := (hbrought.touch (holdAbort_touches _)).ite (hbrought.touch (failSteps_touches _ _))
  exact (hfailed.touch (outOfService_touches _)).ite hfailed

theorem partReset_inv {s : State} (hi : Inv s) (p cause : Nat) : Inv (partReset s p cause) := by
  unfold partReset
  exact hi.ite ((Inv.touch (Inv.congr hi) (failSteps_touches _ _)).ite (partResetRun_inv hi p cause))

theorem modReset_inv {s : State} (hi : Inv s) (cause : Nat) : Inv (modReset s cause) := hi.touch (modReset_touches _ _)

/-! ### Persistence (20 R516 to R518) -/

theorem dictOk_empty : DictOk {} := ⟨rfl, rfl, rfl, nofun⟩

/-- The older copy changed to one in key order. -/
theorem onOlder_ok {d : Dict} (h : DictOk d) {f : Gen → Gen} (hf : ∀ g, valsWf g.image = true → valsWf (f g).image = true) : DictOk (onOlder d f) := by
  unfold onOlder
  split
  · exact ⟨h.vals, hf _ h.copyA, h.copyB, h.writing⟩
  · exact ⟨h.vals, h.copyA, hf _ h.copyB, h.writing⟩

theorem recordSelector_wf {d : Dict} (h : DictOk d) : valsWf (recordSelector d) = true := valsWf_filter _ h.vals

theorem persistOff_ok {d : Dict} (h : DictOk d) : DictOk (persistOff d) := by
  have ho : DictOk (if d.writing.isSome then onOlder d fun g => { g with valid := false } else d) := by
    split
    · exact onOlder_ok h fun _ hg => hg
    · exact h
  exact ⟨recordSelector_wf ho, ho.copyA, ho.copyB, nofun⟩

theorem persistLast_ok {d : Dict} (h : DictOk d) : DictOk (persistLast d) := by
  unfold persistLast
  split
  · have ho := onOlder_ok h (f := fun _ => _) fun _ _ => h.writing _ ‹_›
    exact ⟨ho.vals, ho.copyA, ho.copyB, nofun⟩
  · exact h

/-- The copy taken is one of the two, whichever number is greater (R517). -/
theorem newest_wf {g : Gen} {r : List Gen} (hg : valsWf g.image = true) (hr : ∀ x ∈ r, valsWf x.image = true) :
    valsWf (r.foldl (fun b x => if x.number > b.number then x else b) g).image = true := by
  refine List.foldlRecOn (motive := fun b : Gen => valsWf b.image = true) r _ hg fun b hb x hx => ?_
  split
  · exact hr x hx
  · exact hb

theorem persistedTaken_ok {d : Dict} (h : DictOk d) : DictOk (persistedTaken d) := by
  have copies : ∀ g ∈ [d.copyA, d.copyB].filter (·.valid), valsWf g.image = true := by
    intro g hg
    have := List.mem_of_mem_filter hg
    simp only [List.mem_cons, List.not_mem_nil, or_false] at this
    rcases this with rfl | rfl
    · exact h.copyA
    · exact h.copyB
  unfold persistedTaken
  dsimp only
  split
  · exact ⟨recordSelector_wf h, h.copyA, h.copyB, nofun⟩
  · next g r hgs =>
    have hbest := newest_wf (copies g (hgs ▸ List.mem_cons_self)) fun x hx => copies x (hgs ▸ List.mem_cons_of_mem g hx)
    exact ⟨List.foldlRecOn (motive := fun l => valsWf l = true) _ _ hbest fun _ hl x _ => valsWf_setVal _ _ _ hl, h.copyA, h.copyB, nofun⟩

theorem genStarts_inv {s : State} (hi : Inv s) : Inv (genStarts s) := by
  refine ⟨hi.domains, hi.staging, hi.dict.vals, hi.dict.copyA, hi.dict.copyB, ?_⟩
  rintro g ⟨⟩
  exact valsWf_filter _ hi.dict.vals

/-! ### Power (16 R427 to R436) -/

theorem resetLoss_inv {s : State} (hi : Inv s) : Inv (resetLoss s) :=
  ⟨hi.domains, rfl, valsWf_filter _ hi.dict.vals, hi.dict.copyA, hi.dict.copyB, hi.dict.writing⟩

theorem powerOff_inv {s : State} (hi : Inv s) : Inv (powerOff s) := ⟨domainsOk_zero, rfl, persistOff_ok hi.dict⟩

theorem powerUp_inv {s : State} (hi : Inv s) (prodEntry : Bool) : Inv (powerUp s prodEntry) := by
  unfold powerUp
  extract_lets d _ _ _ _ _ _ up booted
  have hd : DictOk d := persistedTaken_ok hi.dict
  have hup : Inv up := ⟨hi.domains, hi.staging, hd.vals, hd.copyA, hd.copyB, hd.writing⟩
  have hbooted : Inv booted := Inv.fold (fun _ _ h => h.touch (bootAttempt_touches _ _)) _ ((hup.touch (activateTypes_touches _ _)).ite hup)
  exact Inv.touch (Inv.congr hbooted) (setAlert_touches _)

theorem railOff_inv {s : State} (hi : Inv s) : Inv (railOff s) := by
  have hoff : Inv (powerOff { s with dict := persistLast s.dict }) := powerOff_inv ⟨hi.domains, hi.staging, persistLast_ok hi.dict⟩
  exact (powerUp_inv hoff _).ite hoff

theorem packageOff_inv {s : State} (hi : Inv s) : Inv (packageOff s) := domainsOff_inv hi _

theorem powerStep_inv {s : State} (hi : Inv s) (d : Down) : Inv (powerStep s d) := by
  unfold powerStep
  split
  · exact hi.congr
  · exact ((resetLoss_inv (packageOff_inv hi)).touch (setAlert_touches _)).ite (packageOff_inv hi).congr
  · exact railOff_inv hi

theorem tripped_inv {s : State} (hi : Inv s) : Inv (tripped s) :=
  Inv.touch (Inv.congr (resetLoss_inv (packageOff_inv hi))) (setAlert_touches _)

/-! ### Boot and bring-up (16 R429 to R431) -/

theorem securityOn_inv {s : State} (hi : Inv s) : Inv (securityOn s) := domainsOn_inv hi.congr _

theorem phase2Ends_inv {s : State} (hi : Inv s) : Inv (phase2Ends s) := by
  unfold phase2Ends
  extract_lets confirmed
  have hc : Inv confirmed := hi.ite (hi.touch (bankConfirmed_touches _ _))
  exact securityOn_inv hc.congr

theorem hubOn_inv {s : State} (hi : Inv s) : Inv (hubOn s) := (domainsOn_inv hi.congr _).touch (hostTrains_touches _)

theorem measured_inv {s : State} (hi : Inv s) (lib : Bool) : Inv (measureBoot lib (if lib then bankConfirmed s 3 else s)) :=
  Inv.touch ((hi.touch (bankConfirmed_touches _ _)).ite hi) (measureBoot_touches _ _)

theorem phase3Ends_inv {s : State} (hi : Inv s) (bad : List (Nat × Nat)) : Inv (phase3Ends bad s) := by
  have hhub : Inv (hubOn (bootVerify bad (bootVerify bad s 2).1 3).1) :=
    hubOn_inv ((hi.touch (bootVerify_touches _ _ _)).touch (bootVerify_touches _ _ _))
  unfold phase3Ends
  dsimp only
  refine (hhub.touch (bootFails_touches _)).ite ?_
  exact ((measured_inv hhub _).touch (bootFails_touches _)).ite (Inv.touch (Inv.congr (measured_inv hhub _)) (bringStarts_touches _ _))

theorem phaseEnds_inv {s : State} (hi : Inv s) (bad : List (Nat × Nat)) : Inv (phaseEnds bad s) := by
  have hverified : Inv (bootVerify bad s 1).1 := hi.touch (bootVerify_touches _ _ _)
  unfold phaseEnds
  split
  · exact hverified.congr.ite (hverified.congr.ite (Inv.touch (Inv.congr hverified) (setAlert_touches _)))
  · exact phase2Ends_inv hi
  · exact phase3Ends_inv hi bad
  · exact hi.touch (phase4Ends_touches _)
  · exact hi.touch (phase5Ends_touches _)
  · exact hi

theorem setBring_inv {s : State} (hi : Inv s) (p k : Nat) : Inv (setBring s p k) := hi.congr

theorem holdPart_inv {s : State} (hi : Inv s) (p : Nat) : Inv (holdPart s p) := by
  have hoff := domainsOff_inv (setBring_inv (keepReadings_inv hi p) p 0) (partDomains p).reverse
  exact Inv.touch (Inv.congr hoff) (bringingDone_touches _)

theorem ucieTrained_inv {s : State} (hi : Inv s) (p : Nat) (bad : List (Fin 8)) : Inv (ucieTrained s p bad) := by
  unfold ucieTrained
  extract_lets new _ noted recorded
  have hnoted : Inv noted := hi.congr
  have hrecorded : Inv recorded := Inv.fold (fun _ _ h => h.touch (faultEvent_touches _ _)) _ hnoted
  exact (holdPart_inv hrecorded p).ite (setBring_inv hrecorded p 3)

theorem memTrained_inv {s : State} (hi : Inv s) (p : Nat) (bad : List (Fin 2)) : Inv (memTrained s p bad) := by
  unfold memTrained
  extract_lets _ counted dead
  have hcounted : Inv counted := hi.congr
  refine (holdPart_inv (Inv.fold (fun _ _ h => h.touch (faultEvent_touches _ _)) _ hcounted) p).ite (hcounted.ite ?_)
  exact setBring_inv (Inv.touch (Inv.congr hcounted) (rowsRepaired_touches _ _)) p 4

theorem ratioLatched_inv {s : State} (hi : Inv s) : Inv (ratioLatched s) :=
  Inv.ite ⟨hi.domains, hi.staging, hi.dict.vals, hi.dict.copyA, hi.dict.copyB, hi.dict.writing⟩ hi

theorem linkStarts_inv {s : State} (hi : Inv s) (l : Nat) : Inv (linkStarts s l) :=
  hi.ite ((hi.touch (fenceLink_touches _ _ _)).ite (((ratioLatched_inv hi).touch (onLink_touches _ _ _)).touch (emit_touches _ _)))

theorem coresOn_inv {s : State} (hi : Inv s) (p : Nat) : Inv (coresOn s p) := by
  have hmapped : Inv (if s.dev.state = .boot then reconcile s p else s) := (hi.touch (reconcile_touches _ _)).ite hi
  exact Inv.fold (fun _ l h => linkStarts_inv h l) _ (setBring_inv (domainsOn_inv hmapped _) p 5)

theorem bringStep_inv {s : State} (hi : Inv s) (p : Nat) (r : Bringup) : Inv (bringStep s p r) := by
  unfold bringStep
  split
  · exact setBring_inv (domainsOn_inv hi _) p 2
  · exact ucieTrained_inv hi p _
  · exact memTrained_inv hi p _
  · exact coresOn_inv hi p
  · exact hi.touch (partUp_touches _ _)
  · exact hi

/-! ### Resets that an event leads to -/

theorem d2dTimedOut_inv {s : State} (hi : Inv s) (q f : Nat) : Inv (d2dTimedOut s q f) := by
  unfold d2dTimedOut
  extract_lets recorded dumped
  have hdumped : Inv dumped := ((hi.touch (emit_touches _ _)).touch (faultEvent_touches _ _)).touch (d2dDump_touches _ _ _)
  refine Inv.ite ((partReset_inv hdumped f 5).touch (failSteps_touches _ _)) (Inv.ite ?_ (hdumped.touch (failSteps_touches _ _)))
  exact modReset_inv (hdumped.touch (failSteps_touches _ _)) 5

theorem escalate_inv {s : State} (hi : Inv s) (k : Emer) : Inv (escalate s k) := by
  cases k with
  | overpower => exact modReset_inv hi 6
  | regulator => exact hi
  | logicHot p => exact partReset_inv hi p.val 6
  | dramHot n => exact partReset_inv hi (n.val / 2) 6
  | hubHot => exact modReset_inv hi 6
  | coolant => exact hi

theorem railReset_inv {s : State} (hi : Inv s) (r : Rail) : Inv (railReset s r) := by
  cases r with
  | hub => exact modReset_inv hi 6
  | part p => exact hi.ite ((partReset_inv hi p.val 6).touch (undelayed_touches _ _))

theorem hubReset_inv {s : State} (hi : Inv s) : Inv (hubReset s) :=
  (((resetLoss_inv (packageOff_inv hi)).touch (bankReverted_touches _ _)).touch (setAlert_touches _)).ite
    ((hi.touch (modResetRun_touches _ _)).ite (modReset_inv hi 4))

theorem ostlerReset_inv {s : State} (hi : Inv s) (o trig : Nat) : Inv (ostlerReset s o trig) :=
  (partReset_inv hi (o - 4) 4).ite (hubReset_inv ((hi.touch (fullDump_touches _ _ _ _ _ _)).touch (flashSummary_touches _ _ _ _)))

theorem restartFails_inv {s : State} (hi : Inv s) (o trig : Nat) : Inv (restartFails s o trig) := by
  have hnoted (f : Ostler → Ostler) : Inv (onOstler s o f) := hi.touch (onOstler_touches _ _ _)
  unfold restartFails
  extract_lets recent cleared
  refine ((hnoted _).touch (restartBegins_touches _ _ _)).ite (Inv.ite ?_ ?_)
  · exact ostlerReset_inv (Inv.touch (hnoted _) (restartBegins_touches _ _ _)) o trig
  · exact ostlerReset_inv (Inv.touch (hnoted _) (onOstler_touches _ _ _)) o trig

theorem ostlerStops_inv {s : State} (hi : Inv s) (o trig : Nat) : Inv (ostlerStops s o trig) :=
  hi.ite ((restartFails_inv hi o trig).ite (hi.touch (restartBegins_touches _ _ _)))

theorem ostlerDumped_inv {s : State} (hi : Inv s) (o trig stamp n : Nat) (ok : Bool) (timeouts : Nat) (cut : Bool) (size : Nat) :
    Inv (ostlerDumped s o trig stamp n ok timeouts cut size) := by
  unfold ostlerDumped
  extract_lets redrawn header stored only _ left
  have hstored : Inv stored := ((hi.touch (onOstler_touches _ _ _)).touch (drawn_touches _)).touch (storeDump_touches _ _ _ _)
  have hleft : Inv left := hstored.congr
  exact hleft.ite ((hleft.touch (onOstler_touches _ _ _)).ite (restartFails_inv hleft o 2))

theorem laterReset_inv {s : State} (hi : Inv s) (r : Option Nat × Nat) : Inv (laterReset s r) := by
  unfold laterReset
  split
  · exact partReset_inv hi _ _
  · exact modReset_inv hi _

/-! ### The staging aperture (09 R241, 19 R494) -/

theorem stagePut_inv {s : State} (hi : Inv s) (off : Nat) (bs : List Byte) : Inv (stagePut s off bs) := ⟨hi.domains, memPut_wf _ _ hi.staging, hi.dict⟩

theorem moduleStages_inv {s : State} (hi : Inv s) (off : Nat) (bs : List Byte) : Inv (moduleStages s off bs) :=
  stagePut_inv (hi.touch (emit_touches _ _)) off bs

theorem exportEnds_inv {s : State} (hi : Inv s) (r : BitVec 128) (ok : Bool) : Inv (exportEnds s r ok) := by
  unfold exportEnds
  refine (hi.touch (exportStatus_touches _ _ _ _)).ite ((hi.touch (exportStatus_touches _ _ _ _)).ite ?_)
  exact Inv.touch (Inv.fold (fun _ _ h => moduleStages_inv h _ _) _ hi) (exportStatus_touches _ _ _ _)

theorem apertureAccess_inv {s : State} (hi : Inv s) (off : Nat) (w : Option (List Byte)) (n : Nat) (err : Option Ecc) :
    Inv (apertureAccess s off w n err) := by
  unfold apertureAccess
  refine (hi.touch (emit_touches _ _)).ite ?_
  extract_lets met
  have hmet : Inv met := by
    cases err with
    | none => exact hi
    | some e => exact hi.touch (eccHit_touches _ _ _ _)
  cases w with
  | none => exact hmet.touch (emit_touches _ _)
  | some bs => exact stagePut_inv hmet off bs

theorem guestPassed_inv {s : State} (hi : Inv s) (off n : Nat) (w : Option (List Byte)) : Inv (guestPassed s off n w) := by
  unfold guestPassed
  refine (hi.touch (emit_touches _ _)).ite ?_
  cases w with
  | none => exact hi.touch (emits_touches _ _)
  | some bs => exact moduleStages_inv hi off bs

/-! ### Programs and contexts -/

theorem latched_inv {s : State} (hi : Inv s) (l : Latched) : Inv { s with dict := { s.dict with latched := l } } :=
  ⟨hi.domains, hi.staging, hi.dict.vals, hi.dict.copyA, hi.dict.copyB, hi.dict.writing⟩

theorem loadLatch_inv {s : State} (hi : Inv s) (c : Nat) : Inv (loadLatch s c) := latched_inv hi _

theorem clearForJob_inv {s : State} (hi : Inv s) : Inv (clearForJob s) :=
  ⟨hi.domains, hi.staging, valsWf_setVal _ _ _ hi.dict.vals, hi.dict.copyA, hi.dict.copyB, hi.dict.writing⟩

theorem acceptLoad_inv {s : State} (hi : Inv s) (c : Nat) (p : Program) : Inv (acceptLoad s c p) := by
  unfold acceptLoad
  extract_lets cleared loaded _ _ _ placed
  have hcleared : Inv cleared := (clearForJob_inv hi).ite hi
  have hloaded : Inv loaded := hcleared.touch (onCtx_touches _ _ _)
  have hplaced : Inv placed := hloaded.congr
  exact (hplaced.touch (placeProgram_touches _ _ _)).touch (sizeReserve_touches _)

theorem loadEnds_inv {s : State} (hi : Inv s) : Inv (loadEnds s) := by
  unfold loadEnds
  extract_lets c latched j
  have hlatched : Inv latched := loadLatch_inv hi c
  split
  · exact hi.touch (loadRejected_touches _ _)
  · extract_lets t
    split
    · exact Inv.touch (acceptLoad_inv hlatched c _) (loadStatusIs_touches _ _)
    · exact hi.touch (loadRejected_touches _ _)

theorem startFresh_inv {s : State} (hi : Inv s) (role : Role) : Inv (startFresh s role) :=
  ⟨hi.domains, hi.staging, hi.dict.vals, hi.dict.copyA, hi.dict.copyB, hi.dict.writing⟩

theorem startWorking_inv {s : State} (hi : Inv s) : Inv (startWorking s) := by
  unfold startWorking
  extract_lets n ends started opened
  have hstarted : Inv started := (startFresh_inv (hi.touch (rebuild_touches _)) _).touch (onCtx_touches _ _ _)
  have hopened : Inv opened := hstarted.congr
  exact ((hopened.touch (startFetch_touches _)).touch (changeState_touches _ _)).touch (rebuildEnds_touches _ _)

theorem startCtx_inv {s : State} (hi : Inv s) (c : Nat) : Inv (startCtx c s) := by
  have hspare : Inv (startSpare s) := ((startFresh_inv hi _).touch (onCtx_touches _ _ _)).touch (changeState_touches _ _)
  have hjob : Inv (startJob s) := hspare.ite (startWorking_inv hi)
  exact hjob.ite ((hi.touch (startReplay_touches _)).ite (hi.touch (onCtx_touches _ _ _)))

theorem ctxAct_inv {s : State} (hi : Inv s) (v : Nat) : Inv (ctxAct v s) := by
  unfold ctxAct
  extract_lets c
  split
  · exact startCtx_inv hi c
  · exact hi.touch (ownerHalt_touches _ _)
  · exact hi.touch (resumeCtx_touches _ _)
  · exact hi.touch (unloadCtx_touches _ _)
  · exact hi

theorem restoreEnds_inv {s : State} (hi : Inv s) (r : BitVec 128) (readError badPiece : Bool) : Inv (restoreEnds s r readError badPiece) := by
  unfold restoreEnds
  extract_lets v m why t
  have hv : Inv v := (latched_inv hi _).ite hi
  have ht : Inv t := hv.touch (restoreSucceeds_touches _ _ _)
  exact (hi.touch (restoreFails_touches _ _ _)).ite ⟨ht.domains, ht.staging, hi.dict⟩

/-! ### Writes of the dictionary (20 R508, R509) -/

theorem putValue_inv {s : State} (hi : Inv s) (key value : Nat) : Inv (putValue s key value) :=
  hi.ite ⟨hi.domains, hi.staging, valsWf_setVal _ _ _ hi.dict.vals, hi.dict.copyA, hi.dict.copyB, hi.dict.writing⟩

theorem leaseWritten_inv {s : State} (hi : Inv s) (v : Nat) : Inv (leaseWritten v s) := by
  unfold leaseWritten
  extract_lets fell put _ held alerted
  have halerted : Inv alerted := Inv.touch (Inv.congr (putValue_inv hi _ _)) (setAlert_touches _)
  exact hi.ite ((halerted.touch (post_touches _ _ _ _ _)).ite halerted)

theorem migrationSet_inv {s : State} (hi : Inv s) (v : Nat) : Inv (migrationSet v s) := (putValue_inv hi _ _).congr.ite (putValue_inv hi _ _)

theorem windowWritten_inv {s : State} (hi : Inv s) (i w : Nat) : Inv (windowWritten i w s) := (putValue_inv hi _ _).congr

theorem defaultsTaken_inv {s : State} (hi : Inv s) : Inv (defaultsTaken s) :=
  ⟨hi.domains, hi.staging, valsWf_filter _ hi.dict.vals, hi.dict.copyA, hi.dict.copyB, hi.dict.writing⟩

theorem stateAct_inv {s : State} (hi : Inv s) (v : Nat) : Inv (stateAct v s) := by
  unfold stateAct
  split
  · exact hi.touch (changeState_touches _ _)
  · exact hi.touch (changeState_touches _ _)
  · exact modReset_inv hi 2
  · exact partReset_inv hi _ 2
  · exact hi

theorem effectHigh_inv {s : State} (hi : Inv s) (key v : Nat) : Inv (effectHigh key v s) := by
  unfold effectHigh
  split
  · exact hi.touch (gallopAct_touches _ _)
  · exact hi.touch (fenceAct_touches _ _)
  · exact hi.touch (historiesCleared_touches _)
  · exact hi.touch (updateStarts_touches _ _)
  · exact hi.touch (activateAct_touches _ _)
  · exact hi.touch (ostlerAct_touches _ _)
  · exact hi.touch (dumpStarts_touches _ _)
  · exact hi.touch (attestStarts_touches _ _)
  · exact moduleStages_inv hi v _
  · exact hi.touch (installed_touches _ _)
  · exact hi.touch (removed_touches _ _)
  · exact (putValue_inv hi _ v).touch (configChanged_touches _)
  · exact hi.touch (prodWritten_touches _ _)
  · exact hi.touch (ledgerEmptied_touches _)
  · exact hi.touch (fused_touches _ _)
  · split
    · exact windowWritten_inv hi _ v
    · exact putValue_inv hi key v

theorem effectOf_inv {s : State} (hi : Inv s) (src : Src) (key v : Nat) : Inv (effectOf src key v s) := by
  unfold effectOf
  split
  · exact stateAct_inv hi v
  · exact defaultsTaken_inv hi
  · exact hi.touch (loadStarts_touches _ _ _)
  · exact ctxAct_inv hi v
  · exact hi.touch (linkFenceAct_touches _ _)
  · exact hi.touch (clearCounters_touches _)
  · exact migrationSet_inv hi v
  · exact (putValue_inv hi _ v).congr
  · exact hi.touch (raiseMark_touches _)
  · exact hi.touch (retainStarts_touches _ _)
  · exact hi.touch (releaseArea_touches _ _)
  · exact hi.touch (restoreStarts_touches _ _)
  · exact hi.touch (exportStarts_touches _ _)
  · exact leaseWritten_inv hi v
  · exact effectHigh_inv hi key v

/-- A write keeps the invariant if its effect does: what turns it away, or leaves it to an ostler's queue, changes the host's and the ostlers'
parts only. -/
theorem hostCommand_inv {s : State} (hi : Inv s) (src : Src) (key size value own : Nat) {effect : State → State}
    (he : ∀ u, Inv u → Inv (effect u)) : Inv (hostCommand s src key size value own effect) := by
  unfold hostCommand
  split
  · exact hi.touch (door_touches ‹_›)
  · extract_lets why
    refine (hi.touch (illegal_touches _ _ _ _ _ _)).ite ?_
    split
    · refine (hi.touch (illegal_touches _ _ _ _ _ _)).ite ?_
      exact ((hi.touch (onOstler_touches _ _ _)).touch (renewLease_touches _ _)).touch (seqTaken_touches _ _)
    · exact (he _ hi).touch (accepted_touches _ _ _ _ _)

theorem writeEntry_inv {s : State} (hi : Inv s) (src : Src) (key size value : Nat) : Inv (writeEntry s src key size value) := by
  refine Inv.ite (Inv.ite ?_ (hi.touch (unlockCommand_touches _ _ _ _))) ?_
  · exact hostCommand_inv hi _ _ _ _ _ fun _ h => h
  · exact hostCommand_inv hi _ _ _ _ _ fun _ h => effectOf_inv h _ _ _

/-! ### What waited for an ostler (18 R467, R470) -/

theorem Inv.nextOr {s : State} {o : Out} (hi : Inv s) (h : OutInv o) : Inv (nextOr s o) := by
  cases o with
  | next t => exact h t rfl
  | fault _ => exact hi
  | refused _ => exact hi

theorem execPartitionBringupStepDone_inv {s : State} (hi : Inv s) (p : Fin 8) (r : Bringup) : OutInv (execPartitionBringupStepDone p r s) := by
  unfold execPartitionBringupStepDone
  split
  · exact Inv.next ((hi.touch (hwRequest_touches _ _ _)).ite (bringStep_inv hi p.val r))
  · exact hi.next

theorem servedUnit_inv {s : State} (hi : Inv s) (c : Instr) : Inv (servedUnit s c) := by
  unfold servedUnit
  split
  · exact hi.nextOr (hi.out (execGallopCellComplete_touches _ _))
  · exact hi.nextOr (execPartitionBringupStepDone_inv hi _ _)
  · exact hi.nextOr (hi.out (execCoreProbeDone_touches _ _ _))
  · exact hi.nextOr (hi.out (execCoreProbeTimeout_touches _ _))
  · exact hi.nextOr (hi.out (execCoreResetDone_touches _ _))
  · exact hi.nextOr (hi.out (execDiscoveryRecordReceived_touches _ _ _))
  · exact hi.nextOr (hi.out (execTakeoverDone_touches _ _ _ _))
  · exact hi.nextOr (hi.out (execLinkLockTimeout_touches _ _))
  · exact hi.nextOr (hi.out (execLinkTrainingRetry_touches _ _))
  · exact hi

theorem servedHost_inv {s : State} (hi : Inv s) (src : Src) (key v : Nat) : Inv (servedHost s src key v) :=
  (hi.touch (illegal_touches _ _ _ _ _ _)).ite ((effectOf_inv hi src key v).touch (reply_touches _ _ _ _ _ _))

theorem served_inv {s : State} (hi : Inv s) (q : OstlerReq) : Inv (served s q) := by
  cases q with
  | host src key v => exact servedHost_inv hi src key v
  | unit c => exact servedUnit_inv hi c
  | fence l cause => exact hi.touch (fenceLink_touches _ _ _)
  | transfers => exact (hi.touch (tells_touches _ _)).ite hi
  | held dest => exact (hi.touch (sendHeldNow_touches _ _)).ite hi
  | rebuild => exact (hi.touch (sendRebuildNow_touches _)).ite hi

/-! ### Every command, and every step -/

theorem foldl_served_inv (reqs : List OstlerReq) {s : State} (hi : Inv s) : Inv (reqs.foldl served s) := Inv.fold (fun _ q h => served_inv h q) reqs hi

theorem execPersistGenerationDone_inv {s : State} (hi : Inv s) (ok : Bool) : OutInv (execPersistGenerationDone ok s) := by
  unfold execPersistGenerationDone
  split
  · exact hi.next
  · next g hg =>
    refine OutInv.ite hi.next (OutInv.ite ?_ ?_)
    · have ho := onOlder_ok hi.dict (f := fun _ => g) fun _ _ => hi.dict.writing g hg
      exact Inv.next ⟨hi.domains, hi.staging, ho.vals, ho.copyA, ho.copyB, nofun⟩
    · have ho := onOlder_ok hi.dict (f := fun x => { x with valid := false }) fun _ h => h
      exact Inv.next ⟨hi.domains, hi.staging, ho.vals, ho.copyA, ho.copyB, nofun⟩

theorem execOstlerReady_inv {s : State} (hi : Inv s) (o : Fin 12) : OutInv (execOstlerReady o s) := by
  unfold execOstlerReady
  extract_lets k reqs ready _ left
  have hready : Inv ready := (hi.touch (onOstler_touches _ _ _)).touch (drawn_touches _)
  have hleft : Inv left := hready.congr
  exact OutInv.ite (foldl_served_inv reqs (hleft.touch (ostlerResumes_touches _ _))).next hi.next

theorem execFarrierRestartDone_inv {s : State} (hi : Inv s) : OutInv (execFarrierRestartDone s) := by
  unfold execFarrierRestartDone
  extract_lets l _ up
  have hup : Inv up := Inv.touch (Inv.congr hi) (bankConfirmed_touches _ _)
  refine OutInv.ite ((hi.touch (securityEvent_touches _)).touch (bankReverted_touches _ _)).next (OutInv.ite (Inv.next ?_) hi.next)
  exact Inv.fold (fun _ r h => laterReset_inv h r) l hup

theorem execDumpExportDone_inv {s : State} (hi : Inv s) (ok : Bool) : OutInv (execDumpExportDone ok s) := by
  unfold execDumpExportDone
  refine OutInv.ite hi.next ?_
  split
  · exact Inv.next hi.congr
  · exact OutInv.ite (Inv.next hi.congr) (Inv.next (moduleStages_inv hi _ _).congr)

theorem execModuleResetHoldoffEnd_inv {s : State} (hi : Inv s) : OutInv (execModuleResetHoldoffEnd s) := by
  unfold execModuleResetHoldoffEnd
  extract_lets tried _ worded
  have htried : Inv tried := Inv.touch ((hi.touch (activateTypes_touches _ _)).ite hi) (bootAttempt_touches _ _)
  have hworded : Inv worded := htried.congr
  exact OutInv.ite (securityOn_inv hworded.congr).next hi.next

theorem execCxlMemAccess_inv {s : State} (hi : Inv s) (off : Nat) (w : Option (List Byte)) (len : Nat) (err : Option Ecc) :
    OutInv (execCxlMemAccess off w len err s) := by
  unfold execCxlMemAccess
  extract_lets n
  refine OutInv.ite OutInv.fault (OutInv.ite hi.next (OutInv.ite (Inv.next ?_) (apertureAccess_inv hi _ _ _ _).next))
  exact (hi.touch (countIllegal_touches _ _ _ _ _)).touch (emit_touches _ _)

theorem execHubWatchdogExpiry_inv {s : State} (hi : Inv s) : OutInv (execHubWatchdogExpiry s) := by
  have hsummed : Inv (flashSummary s 4 15 8) := hi.touch (flashSummary_touches _ _ _ _)
  exact OutInv.ite hi.next (OutInv.ite (hubReset_inv hsummed).next (OutInv.ite hi.next (modReset_inv hsummed 3).next))

theorem execD2dTimeout_inv {s : State} (hi : Inv s) (q f : Die) : OutInv (execD2dTimeout q f s) :=
  OutInv.ite hi.next (OutInv.ite (hi.touch (emit_touches _ _)).next (d2dTimedOut_inv hi _ _).next)

theorem execGuestRequest_inv {s : State} (hi : Inv s) (addr len : Nat) (w : Option (List Byte)) : OutInv (execGuestRequest addr len w s) := by
  unfold execGuestRequest
  refine OutInv.ite hi.next ?_
  split
  · exact (guestPassed_inv hi _ _ _).next
  · exact (hi.touch (guestDenied_touches _ _ _ _)).next

theorem execEmergencyEscalationTimer_inv {s : State} (hi : Inv s) (e : Emer) : OutInv (execEmergencyEscalationTimer e s) := by
  unfold execEmergencyEscalationTimer
  split
  · exact (escalate_inv (hi.touch (reach_touches _ _)) e).next
  · exact hi.next

theorem execPowerDownStepDone_inv {s : State} (hi : Inv s) : OutInv (execPowerDownStepDone s) := by
  unfold execPowerDownStepDone
  split
  · exact (powerStep_inv hi _).next
  · exact hi.next

theorem execOstlerDumpDone_inv {s : State} (hi : Inv s) (o : Fin 12) (ok : Bool) (n : Nat) (cut : Bool) (size : Nat) :
    OutInv (execOstlerDumpDone o ok n cut size s) := by
  unfold execOstlerDumpDone
  split
  · exact (ostlerDumped_inv hi _ _ _ _ _ _ _ _).next
  · exact hi.next

theorem execRestoreDone_inv {s : State} (hi : Inv s) (readError badPiece : Bool) : OutInv (execRestoreDone readError badPiece s) := by
  unfold execRestoreDone
  split
  · exact (restoreEnds_inv hi _ _ _).next
  · exact hi.next

theorem execExportDone_inv {s : State} (hi : Inv s) (ok : Bool) : OutInv (execExportDone ok s) := by
  unfold execExportDone
  split
  · exact (exportEnds_inv hi _ _).next
  · exact hi.next

/-- What a command leads to keeps the invariant: most commands by their frame, which spares its parts; the others by what they call. -/
theorem exec_inv {s : State} (hi : Inv s) (c : Instr) : OutInv (exec c s) := by
  by_cases hw : sparesInv (mayTouch c) = true
  · exact hi.out (exec_touches c s) hw
  cases c
  case pwrEnAssert mv prod => exact OutInv.ite (powerUp_inv hi.congr _).next (Inv.next hi.congr)
  case inputRestored mv => exact OutInv.ite (powerUp_inv hi.congr _).next hi.next
  case powerDownStepDone => exact execPowerDownStepDone_inv hi
  case inputFetOpen mv => exact OutInv.ite (Inv.next ((powerOff_inv hi.congr).ite hi.congr)) hi.next
  case bootPhaseDone bad => exact OutInv.ite (phaseEnds_inv hi bad).next hi.next
  case partitionBringupStepDone p r => exact execPartitionBringupStepDone_inv hi p r
  case stateEnterTest src => exact (hostCommand_inv hi _ _ _ _ _ fun _ h => stateAct_inv h _).next
  case stateLeaveTest src => exact (hostCommand_inv hi _ _ _ _ _ fun _ h => stateAct_inv h _).next
  case moduleResetCommand src => exact (hostCommand_inv hi _ _ _ _ _ fun _ h => stateAct_inv h _).next
  case partitionResetCommand src p => exact (hostCommand_inv hi _ _ _ _ _ fun _ h => stateAct_inv h _).next
  case moduleResetHoldoffEnd => exact execModuleResetHoldoffEnd_inv hi
  case d2dTimeout q f => exact execD2dTimeout_inv hi q f
  case restoreDone readError badPiece => exact execRestoreDone_inv hi _ _
  case exportDone ok => exact execExportDone_inv hi ok
  case programLoadDone => exact OutInv.ite (loadEnds_inv hi).next hi.next
  case contextStart src ctx => exact (hostCommand_inv hi _ _ _ _ _ fun _ h => startCtx_inv h _).next
  case migrationEnableWrite src => exact (hostCommand_inv hi _ _ _ _ _ fun _ h => migrationSet_inv h _).next
  case regulatorSharesWrite src v => exact (hostCommand_inv hi _ _ _ _ _ fun _ h => (putValue_inv h _ _).congr).next
  case cxlMemAccess off w len err => exact execCxlMemAccess_inv hi off w len err
  case hubWatchdogExpiry => exact execHubWatchdogExpiry_inv hi
  case emergencyEscalationTimer e => exact execEmergencyEscalationTimer_inv hi e
  case regulatorFault r => exact OutInv.ite (railReset_inv (hi.touch (raiseEmer_touches _ _)) r).next hi.next
  case thermalTrip => exact OutInv.ite (tripped_inv hi).next hi.next
  case rackLeaseWrite src v => exact (hostCommand_inv hi _ _ _ _ _ fun _ h => leaseWritten_inv h _).next
  case ostlerTrap o => exact (ostlerStops_inv hi _ _).next
  case ostlerWatchdogExpiry o => exact (ostlerStops_inv hi _ _).next
  case ostlerDumpDone o ok n cut size => exact execOstlerDumpDone_inv hi o ok n cut size
  case ostlerReady o => exact execOstlerReady_inv hi o
  case ostlerReadyTimeout o => exact OutInv.ite (restartFails_inv hi _ _).next hi.next
  case farrierRestartDone => exact execFarrierRestartDone_inv hi
  case dictWrite src index sub size v => exact OutInv.ite hi.next (writeEntry_inv hi _ _ _ _).next
  case persistGenerationStart => exact OutInv.ite (genStarts_inv (hi.ite (hi.touch (reach_touches _ _)))).next hi.next
  case persistGenerationDone ok => exact execPersistGenerationDone_inv hi ok
  case persistRetry => exact OutInv.ite (genStarts_inv (hi.touch (reach_touches _ _))).next hi.next
  case restoreDefaults src v => exact (hostCommand_inv hi _ _ _ _ _ fun _ h => defaultsTaken_inv h).next
  case reportExport src off => exact (hostCommand_inv hi _ _ _ _ _ fun _ h => moduleStages_inv h _ _).next
  case blinkersWindowWrite src w v => exact (hostCommand_inv hi _ _ _ _ _ fun _ h => windowWritten_inv h _ _).next
  case guestRequest addr len w => exact execGuestRequest_inv hi addr len w
  case dumpExportDone ok => exact execDumpExportDone_inv hi ok
  all_goals exact absurd rfl hw

/-- Settles O58: the command at the front of the queue by `exec_inv`; an idle tick moves the clock and the host's part alone. -/
theorem stepKeepsInvariant : Obligations.StepKeepsInvariant := by
  intro s t hi h
  unfold step at h
  split at h
  · cases h
    exact Inv.touch (Inv.congr hi) (updMoves_touches _)
  · exact exec_inv (Inv.congr hi) _ t h

/-- Settles O57: at reset every domain is off and no byte or value is listed. -/
theorem resetInvariant : Obligations.ResetInvariant := ⟨domainsOk_zero, rfl, dictOk_empty⟩

/-! ### The module at reset (16 R427) -/

theorem nth_replicate {α : Type} {n k : Nat} (h : k < n) (a d : α) : nth (Vector.replicate n a) k d = a := by
  simp [nth, h]

theorem ctxAt_reset (c : Fin 16) : ctxAt State.reset c.val = {} := nth_replicate c.isLt _ _

/-- Settles O56: field by field, each as its rule states it. -/
theorem resetState : Obligations.ResetState :=
  ⟨rfl, rfl, rfl, rfl, rfl, fun c => by rw [ctxAt_reset], fun _ => rfl, fun _ => rfl, rfl, rfl, rfl, fun p => nth_replicate p.isLt _ _, rfl, rfl⟩

end Sys2Proof.Machine
end

section
/-! SUPPORT. Partition bring-up, the hold-off and the self-test kernels (16 R430 to R436). -/

-- One theorem at a time: the stacks of parallel proofs add up to more than the memory the check gives.
set_option Elab.async false

namespace Sys2Proof.Machine

/-! ### What bring-up leaves of `dev` and the domains -/

/-- A part of `dev` apart from the device state, the production values and the fuses stands where `dev` is not touched. -/
theorem Touches.dev_eq {α : Type} {W : List StatePart} {s t : State} (h : Touches W s t) (f : Dev → α)
    (hf : ∀ d : Dev, f { d with state := .boot, product := {}, fuses := [] } = f d := by exact fun _ => rfl)
    (hw : W.contains .dev = false := by decide) : f t.dev = f s.dev := by
  have hd : { s.dev with state := .boot, product := {}, fuses := [] } = { t.dev with state := .boot, product := {}, fuses := [] } := h .dev hw
  rw [← hf t.dev, ← hd, hf]

theorem Touches.domains_eq {W : List StatePart} {s t : State} (h : Touches W s t) (hw : W.contains .domains = false := by decide) :
    t.domains = s.domains := (h .domains hw).symm

theorem nth_updN_same {α : Type} {n i : Nat} (v : Vector α n) (f : α → α) (d : α) (h : i < n) : nth (updN v i f) i d = f (nth v i d) := by
  rw [nth_updN, if_pos ⟨rfl, h⟩]

theorem bringAt_setBring (s : State) (p : Fin 8) (k : Nat) : bringAt (setBring s p.val k) p.val = k := nth_updN_same _ _ _ p.isLt

theorem bringAt_bringStarts (s : State) {p : Nat} (h : p < 8) : bringAt (bringStarts s p) p = 1 := nth_updN_same _ _ _ h

theorem Touches.bringAt_eq {W : List StatePart} {s t : State} (h : Touches W s t) (p : Nat) (hw : W.contains .dev = false := by decide) :
    bringAt t p = bringAt s p := h.dev_eq (fun d => nth d.bring p 0) (hw := hw)

/-- A domain that is on stays on while others come on. -/
theorem foldl_domOn_mono (ds : List Nat) {w : BitVec 50} {k : Nat} (h : w.getLsbD k = true) : (ds.foldl domOn w).getLsbD k = true :=
  List.foldlRecOn (motive := fun v : BitVec 50 => v.getLsbD k = true) ds domOn h fun v hv d _ => by rw [domOn_getLsbD, hv, Bool.true_or]

/-- Domains whose dependencies are on come on. -/
theorem foldl_domOn_on (ds : List Nat) {w : BitVec 50} (h : ∀ d ∈ ds, d < 50 ∧ ∀ k ∈ needs d, w.getLsbD k = true) :
    ∀ d ∈ ds, (ds.foldl domOn w).getLsbD d = true := by
  induction ds generalizing w with
  | nil => simp
  | cons a r ih =>
    obtain ⟨⟨ha, hk⟩, hr⟩ := List.forall_mem_cons.mp h
    refine List.forall_mem_cons.mpr ⟨foldl_domOn_mono r ?_, ih fun d hd => ⟨(hr d hd).1, fun k hk => ?_⟩⟩
    · rw [domOn_getLsbD, List.all_eq_true.mpr hk]
      simp [ha]
    · rw [domOn_getLsbD, (hr d hd).2 k hk, Bool.true_or]

/-- A domain that is off stays off while others go off, and each of these is off at the end. -/
theorem foldl_domOff_off (ds : List Nat) (w : BitVec 50) : ∀ d ∈ ds, (ds.foldl domOff w).getLsbD d = false := by
  have stays (r : List Nat) {v : BitVec 50} {k : Nat} (hk : v.getLsbD k = false) : (r.foldl domOff v).getLsbD k = false :=
    List.foldlRecOn (motive := fun u : BitVec 50 => u.getLsbD k = false) r domOff hk fun u hu d _ => by rw [domOff_getLsbD, hu, Bool.false_and]
  induction ds generalizing w with
  | nil => simp
  | cons a r ih => exact List.forall_mem_cons.mpr ⟨stays r (domOff_off w a), ih (domOff w a)⟩

theorem partDomains_off (s : State) (p : Nat) : ∀ d ∈ partDomains p, (domainsOff s (partDomains p).reverse).domains.getLsbD d = false :=
  fun d hd => foldl_domOff_off _ _ d (List.mem_reverse.mpr hd)

/-- A partition's bit among the eight. -/
theorem getLsbD_or_twoPow (b : BitVec 8) (p : Fin 8) : (b ||| BitVec.twoPow 8 p.val).getLsbD p.val = true := by
  simp

theorem getLsbD_and_not_twoPow (b : BitVec 8) (p : Fin 8) : (b &&& ~~~ BitVec.twoPow 8 p.val).getLsbD p.val = false := by
  simp

/-- `bringingDone` goes OUT_OF_SERVICE from outside BOOT only, and so leaves `dev` apart from the device state. -/
theorem bringingDone_spares_dev (s : State) :
    Touches [.devState, .host, .cores, .links, .topo, .tests, .meas, .sec, .sent] s (bringingDone s) := by
  unfold bringingDone
  split
  · next h =>
    have hb : s.dev.state ≠ .boot := by simp only [Bool.and_eq_true, decide_eq_true_eq] at h; exact h.1.1.1
    rw [outOfService, if_neg hb]
    exact changeState_touches s _
  · exact .refl

/-- A held partition: no step in progress, in reset, its domains off (16 R431). -/
theorem holdPart_held (s : State) (p : Fin 8) : bringAt (holdPart s p.val) p.val = 0 ∧ (holdPart s p.val).dev.inReset.getLsbD p.val = true ∧
    ∀ d ∈ partDomains p.val, (holdPart s p.val).domains.getLsbD d = false := by
  unfold holdPart
  extract_lets off _
  have ht := bringingDone_spares_dev { off with dev := { off.dev with
    heldOff := off.dev.heldOff ||| BitVec.twoPow 8 p.val, inReset := off.dev.inReset ||| BitVec.twoPow 8 p.val, oosAtEnd := true } }
  refine ⟨(ht.bringAt_eq p.val).trans (bringAt_setBring (keepReadings s p.val) p 0), ?_, ?_⟩
  · rw [ht.dev_eq (·.inReset)]
    exact getLsbD_or_twoPow _ p
  · rw [ht.domains_eq]
    exact partDomains_off _ p.val

/-! ### The steps of a partition's bring-up (16 R430, R431) -/

/-- A step that does not wait for the partition's ostler is done. -/
theorem bringStepDone_gives {p : Fin 8} {r : Bringup} {s : State} {P : State → Prop} (hb : bringing s = true)
    (h4 : bringAt s p.val = 4 → ostlerBusy s (4 + p.val) = false) (hP : P (bringStep s p.val r)) : Gives (.partitionBringupStepDone p r) s P := by
  refine ⟨_, ?_, hP⟩
  have hw : (decide (bringAt s p.val = 4) && ostlerBusy s (4 + p.val)) = false := by
    by_cases h : bringAt s p.val = 4
    · rw [h4 h, Bool.and_false]
    · simp [h]
  simp only [exec, execPartitionBringupStepDone, hb, hw, if_true, Bool.false_eq_true, if_false]

theorem uncoreOn_spec (s : State) (p : Fin 8) (h40 : s.domains.getLsbD 40 = true) (h48 : s.domains.getLsbD 48 = true) :
    (domainsOn s [5 * p.val + 4]).domains.getLsbD (5 * p.val + 4) = true := by
  refine foldl_domOn_on _ (fun d hd => ?_) _ (List.mem_singleton.mpr rfl)
  obtain rfl := List.mem_singleton.mp hd
  refine ⟨by omega, fun k hk => ?_⟩
  have : k = 40 ∨ k = 48 := by rw [mem_needs] at hk; omega
  rcases this with rfl | rfl
  · exact h40
  · exact h48

theorem quadrantsOn_spec (s : State) (p : Fin 8) (h : s.domains.getLsbD (5 * p.val + 4) = true) (q : Fin 4) :
    (domainsOn s [5 * p.val, 5 * p.val + 1, 5 * p.val + 2, 5 * p.val + 3]).domains.getLsbD (5 * p.val + q.val) = true := by
  refine foldl_domOn_on _ (fun d hd => ?_) _ ?_
  · simp only [List.mem_cons, List.not_mem_nil, or_false] at hd
    refine ⟨by omega, fun k hk => ?_⟩
    have : k = 5 * p.val + 4 := by rw [mem_needs] at hk; omega
    rw [this, h]
  · simp only [List.mem_cons, List.not_mem_nil, or_false]
    omega

theorem mem_nub {α : Type} [DecidableEq α] (l : List α) (a : α) : a ∈ nub l ↔ a ∈ l := by
  have mem_fold (acc : List α) : a ∈ l.foldl (fun acc a => if a ∈ acc then acc else acc ++ [a]) acc ↔ a ∈ acc ∨ a ∈ l := by
    induction l generalizing acc with
    | nil => simp
    | cons b r ih =>
      rw [List.foldl_cons, ih]
      split <;> simp only [List.mem_append, List.mem_cons, List.not_mem_nil, or_false] <;> grind
  simpa [nub] using mem_fold []

theorem foldl_faultEvent_touches {α : Type} (l : List α) (f : α → LRec) (s : State) :
    Touches [.ledger, .fw, .free] s (l.foldl (fun s a => faultEvent s (f a)) s) :=
  Touches.fold (fun _ _ => faultEvent_touches _ _) .refl

/-- The modules disabled once UCIe training is over: those disabled before, those that failed, and the permanent ones. -/
theorem mem_ucieOff_trained (s : State) (p : Nat) (bad : List (Fin 8)) (m : Nat) :
    (p, m) ∈ s.dev.ucieOff ++ ((nub (bad.map (·.val) ++ permanentUcie s p)).filter fun m => !s.dev.ucieOff.contains (p, m)).map (fun m => (p, m)) ↔
      (p, m) ∈ s.dev.ucieOff ∨ m ∈ bad.map (·.val) ∨ m ∈ permanentUcie s p := by
  simp only [List.mem_append, List.mem_map, List.mem_filter, mem_nub, Prod.mk.injEq, true_and, exists_eq_right, List.contains_eq_mem,
    Bool.not_eq_true', decide_eq_false_iff_not]
  by_cases h : (p, m) ∈ s.dev.ucieOff <;> simp [h]

theorem ucieTrained_some {s : State} {p : Fin 8} {bad : List (Fin 8)}
    (h : ∃ m < 4, (p.val, m) ∉ s.dev.ucieOff ∧ m ∉ bad.map (·.val) ∧ m ∉ permanentUcie s p.val) :
    bringAt (ucieTrained s p.val bad) p.val = 3 ∧ (∀ m ∈ bad, (p.val, m.val) ∈ (ucieTrained s p.val bad).dev.ucieOff) ∧
      ∀ x ∈ s.dev.ucieOff, x ∈ (ucieTrained s p.val bad).dev.ucieOff := by
  obtain ⟨m, hm, hoff, hbad, hperm⟩ := h
  unfold ucieTrained
  extract_lets new _ noted recorded
  have hrec : recorded.dev.ucieOff = noted.dev.ucieOff := (foldl_faultEvent_touches new _ noted).dev_eq (·.ucieOff)
  have hlive : ¬ ((upto 4).all fun m => recorded.dev.ucieOff.contains (p.val, m)) = true := by
    simp only [List.all_eq_true, not_forall, hrec]
    refine ⟨m, List.mem_range.mpr hm, ?_⟩
    rw [List.contains_iff_mem, mem_ucieOff_trained]
    tauto
  rw [if_neg hlive]
  refine ⟨bringAt_setBring _ p 3, fun b hb => ?_, fun x hx => ?_⟩
  · show _ ∈ recorded.dev.ucieOff
    rw [hrec]
    exact (mem_ucieOff_trained s p.val bad b.val).mpr (.inr (.inl (List.mem_map_of_mem hb)))
  · show _ ∈ recorded.dev.ucieOff
    rw [hrec]
    exact List.mem_append_left _ hx

theorem ucieTrained_none {s : State} {p : Fin 8} {bad : List (Fin 8)} (h : ∀ m < 4, m ∈ bad.map (·.val) ∨ (p.val, m) ∈ s.dev.ucieOff) :
    ∃ u, ucieTrained s p.val bad = holdPart u p.val := by
  unfold ucieTrained
  extract_lets new _ noted recorded
  have hrec : recorded.dev.ucieOff = noted.dev.ucieOff := (foldl_faultEvent_touches new _ noted).dev_eq (·.ucieOff)
  refine ⟨recorded, if_pos ?_⟩
  rw [List.all_eq_true]
  intro m hm
  rw [hrec, List.contains_iff_mem, mem_ucieOff_trained]
  have := h m (List.mem_range.mp hm)
  tauto

/-- A training that fails adds one to its stack's count. -/
theorem nth_foldl_tries (p k : Nat) (hk : 2 * p + k < 16) (bad : List (Fin 2)) (v : Vector Nat 16) :
    nth (bad.foldl (fun v n => updN v (2 * p + n.val) (· + 1)) v) (2 * p + k) 0 = nth v (2 * p + k) 0 + (bad.map (·.val)).count k := by
  induction bad generalizing v with
  | nil => simp
  | cons n r ih =>
    rw [List.foldl_cons, ih, nth_updN, List.map_cons, List.count_cons]
    by_cases hn : n.val = k
    · simp [hn, hk]; omega
    · simp [hn]

/-- Where no stack is named twice, each that failed counts one more. -/
theorem tries_of_nodup (s : State) (p : Fin 8) (n : Fin 2) {bad : List (Fin 2)} (h : bad.Nodup) :
    nth (bad.foldl (fun v n => updN v (2 * p.val + n.val) (· + 1)) s.dev.tries) (2 * p.val + n.val) 0 =
      nth s.dev.tries (2 * p.val + n.val) 0 + (if n ∈ bad then 1 else 0) := by
  rw [nth_foldl_tries p.val n.val (by omega), List.count_map_of_injective _ _ Fin.val_injective, h.count]

/-- What a round of memory training comes to, by the counts it leaves: a third failure holds the partition, a first or second one leaves it as it
is, and with no failure the step is done (16 R431). -/
theorem memTrained_cases (s : State) (p : Fin 8) (bad : List (Fin 2)) :
    let tries := bad.foldl (fun v n => updN v (2 * p.val + n.val) (· + 1)) s.dev.tries
    ((∃ n ∈ bad, 3 ≤ nth tries (2 * p.val + n.val) 0) → ∃ u, memTrained s p.val bad = holdPart u p.val) ∧
      ((∀ n ∈ bad, nth tries (2 * p.val + n.val) 0 < 3) → bad ≠ [] → memTrained s p.val bad = { s with dev := { s.dev with tries := tries } }) ∧
      (bad = [] → bringAt (memTrained s p.val bad) p.val = 4 ∧
        ∀ n < 2, nth (memTrained s p.val bad).dev.tries (2 * p.val + n) 0 = 0) := by
  intro tries
  unfold memTrained
  extract_lets _ counted dead
  have hdead (n : Fin 2) : n ∈ dead ↔ n ∈ bad ∧ 3 ≤ nth tries (2 * p.val + n.val) 0 := by
    simp only [dead, List.mem_filter, decide_eq_true_eq]
    rfl
  refine ⟨fun ⟨n, hn, h3⟩ => ⟨_, if_pos ?_⟩, fun h hne => ?_, fun h => ?_⟩
  · have : dead ≠ [] := List.ne_nil_of_mem ((hdead n).mpr ⟨hn, h3⟩)
    simpa using this
  · have hd : dead = [] := List.eq_nil_iff_forall_not_mem.mpr fun n hn => by
      have := (hdead n).mp hn
      have := h n this.1
      omega
    rw [hd, if_neg (by simp), if_pos (by simpa using hne)]
  · subst h
    rw [if_neg (by simp [dead]), if_neg (by simp)]
    refine ⟨bringAt_setBring _ p 4, fun n hn => ?_⟩
    show nth (updN (updN counted.dev.tries (2 * p.val) _) (2 * p.val + 1) _) _ 0 = 0
    rw [nth_updN]
    split
    · rfl
    · rw [nth_updN, if_pos (by omega)]

theorem coresOn_spec (s : State) (p : Fin 8) (h : s.domains.getLsbD (5 * p.val + 4) = true) :
    bringAt (coresOn s p.val) p.val = 5 ∧ ∀ q : Fin 4, (coresOn s p.val).domains.getLsbD (5 * p.val + q.val) = true := by
  unfold coresOn
  extract_lets mapped lit
  have hmapped : mapped.domains = s.domains := by
    show (ite _ _ _ : State).domains = _
    split
    · exact (reconcile_touches s p.val).domains_eq
    · rfl
  have hstart : Touches [.dict, .host, .ctxs, .links, .topo, .ledger, .fw, .sent, .free] lit (((upto 6).map (· + 6 * p.val)).foldl linkStarts lit) :=
    Touches.fold (fun x l => linkStarts_touches x l) .refl
  refine ⟨(hstart.bringAt_eq p.val).trans (bringAt_setBring _ p 5), fun q => ?_⟩
  rw [hstart.domains_eq]
  exact quadrantsOn_spec mapped p (hmapped ▸ h) q

theorem partUp_spec (s : State) (p : Fin 8) : bringAt (partUp s p.val) p.val = 0 ∧ (partUp s p.val).dev.inService.getLsbD p.val = true ∧
    (partUp s p.val).dev.inReset.getLsbD p.val = false := by
  unfold partUp
  extract_lets b _ up posted
  have hposted : Touches [.host, .sent] up posted := post_touches _ _ _ _ _
  have hdone : Touches [.devState, .host, .ctxs, .fetch, .cores, .sync, .links, .topo, .tests, .recov, .fw, .meas, .sec, .sent] up
      (bringingDone (partReturns posted p.val)) :=
    .step (bringingDone_spares_dev _) (by decide) (.step (partReturns_touches _ _) (by decide) (hposted.mono (by decide)))
  have hb : bringAt up p.val = 0 := bringAt_setBring _ p 0
  have hs : up.dev.inService.getLsbD p.val = true := getLsbD_or_twoPow _ p
  have hr : up.dev.inReset.getLsbD p.val = false := getLsbD_and_not_twoPow _ p
  split
  · split
    · exact ⟨(hposted.bringAt_eq p.val).trans hb, (hposted.dev_eq (·.inService)) ▸ hs, (hposted.dev_eq (·.inReset)) ▸ hr⟩
    · exact ⟨(hposted.bringAt_eq p.val).trans hb, (hposted.dev_eq (·.inService)) ▸ hs, (hposted.dev_eq (·.inReset)) ▸ hr⟩
  · exact ⟨(hdone.bringAt_eq p.val).trans hb, (hdone.dev_eq (·.inService)) ▸ hs, (hdone.dev_eq (·.inReset)) ▸ hr⟩

/-! ### The self-test kernels (16 R432) -/

theorem trotEvent_trotFail (s : State) (g k : Nat) (again : Bool) : (trotEvent s g k again).tests.trotFail = s.tests.trotFail + 1 := by
  unfold trotEvent
  extract_lets lane rest _ counted
  have : Touches [.ledger, .fw, .free] counted (drawn (drawn (faultEvent counted
      { kind := 4, unit := ⟨if lane then 2 else 1, g⟩, pclass := k, detail := (Config.freeWord (s.free + 1)).toNat % 2 ^ 16,
        arg := (drawnWord s).toNat }))) :=
    .step (drawn_touches _) (by decide) (.step (drawn_touches _) (by decide) (faultEvent_touches _ _))
  exact congrArg Tests.trotFail (this .tests (by decide)).symm

/-- A kernel's first outcome (14 R388): it is no longer left, and a failure brings it again and counts. -/
theorem kernelDone_first {s : State} {g k : Nat} (ok : Bool) (hk : (g, familyOf k) ∈ s.dev.kernels) (hr : (g, k) ∉ s.dev.retest) :
    (kernelDone s g k ok).dev.kernels = s.dev.kernels.erase (g, familyOf k) ∧
      (kernelDone s g k ok).dev.retest = (if ok then s.dev.retest else s.dev.retest ++ [(g, k)]) ∧
      (kernelDone s g k ok).tests.trotFail = s.tests.trotFail + (if ok then 0 else 1) := by
  unfold kernelDone
  extract_lets key _ again _ left
  rw [if_neg (by simpa using hr), if_pos (by simpa using hk)]
  cases ok with
  | true => exact ⟨rfl, rfl, rfl⟩
  | false =>
    have ht (u : State) := trotEvent_touches u g k
    exact ⟨(ht _).dev_eq (·.kernels), (ht _).dev_eq (·.retest), trotEvent_trotFail _ g k false⟩

/-- A second outcome of the same kernel: it is not run again, and a failure counts. -/
theorem kernelDone_again {s : State} {g k : Nat} (ok : Bool) (hr : (g, k) ∈ s.dev.retest) :
    (kernelDone s g k ok).dev.kernels = s.dev.kernels ∧ (kernelDone s g k ok).dev.retest = s.dev.retest.erase (g, k) ∧
      (kernelDone s g k ok).tests.trotFail = s.tests.trotFail + (if ok then 0 else 1) := by
  unfold kernelDone
  extract_lets key _ again _ left
  rw [if_pos (by simpa using hr)]
  cases ok with
  | true => exact ⟨rfl, rfl, rfl⟩
  | false =>
    have ht (u : State) := trotEvent_touches u g k true
    exact ⟨(ht _).dev_eq (·.kernels), (ht _).dev_eq (·.retest), trotEvent_trotFail _ g k true⟩

theorem kernelDone_gives {g : Fin 136} {k : Nat} {ok : Bool} {s : State} {P : State → Prop} (hb : booting s = true) (h5 : s.dev.phase = 5)
    (hP : P (kernelDone s g.val k ok)) : Gives (.selftestKernelDone g k ok) s P :=
  ⟨_, if_pos (by simp [hb, h5]), hP⟩

/-! ### The hold-off (16 R436) -/

theorem moduleResetHoldoffEnd_gives {s : State} (h : s.dev.holdoff = true) :
    Gives .moduleResetHoldoffEnd s fun t => t.dev.holdoff = false ∧ t.dev.phase = 3 ∧ t.domains.getLsbD 43 = true := by
  refine ⟨_, if_pos h, rfl, rfl, ?_⟩
  exact foldl_domOn_on [43] (fun d hd => by obtain rfl := List.mem_singleton.mp hd; exact ⟨by decide, fun k hk => absurd hk List.not_mem_nil⟩) 43
    List.mem_cons_self

/-- Settles O5: each step by what `bringStep` does in its place, the holds by `holdPart_held`. -/
theorem partitionBringup : Obligations.PartitionBringup := by
  refine ⟨?_, ?_, ?_, ?_, ?_, ?_, ?_, ?_, ?_, ?_, ?_, ?_, ?_⟩
  · intro s hb hs h4 hn
    exact ⟨_, if_pos (by simp [hb, hs, h4, hn]), rfl, bringAt_bringStarts _ hn⟩
  · intro p r s hb h1 h40 h48
    refine bringStepDone_gives hb (by simp [h1]) ?_
    simp only [bringStep, h1]
    exact ⟨bringAt_setBring _ p 2, uncoreOn_spec s p h40 h48⟩
  · intro p r s hb h2 ⟨m, hbad, hoff, hperm⟩
    refine bringStepDone_gives hb (by simp [h2]) ?_
    simp only [bringStep, h2]
    refine ucieTrained_some ⟨m.val, m.isLt, hoff, fun hm => hbad ?_, hperm⟩
    obtain ⟨b, hb, he⟩ := List.mem_map.mp hm
    exact (Fin.ext he : b = Fin.castLE (by decide) m) ▸ hb
  · intro p r s hb h2 hall
    refine bringStepDone_gives hb (by simp [h2]) ?_
    simp only [bringStep, h2]
    obtain ⟨u, hu⟩ := ucieTrained_none (s := s) (p := p) (bad := r.ucieBad) fun m hm => (hall ⟨m, hm⟩).imp (fun h => List.mem_map.mpr ⟨_, h, rfl⟩) id
    rw [hu]
    exact holdPart_held u p
  · intro p r s hb h3 hbad
    refine bringStepDone_gives hb (by simp [h3]) ?_
    simp only [bringStep, h3]
    obtain ⟨-, -, hgood⟩ := memTrained_cases s p r.stackBad
    obtain ⟨h4, hz⟩ := hgood hbad
    exact ⟨h4, hz 0 (by decide), hz 1 (by decide)⟩
  · intro p r s hb h3 hnd hne hlow
    refine bringStepDone_gives hb (by simp [h3]) ?_
    simp only [bringStep, h3]
    obtain ⟨-, hagain, -⟩ := memTrained_cases s p r.stackBad
    rw [hagain (fun n hn => ?_) hne]
    · exact ⟨h3, fun n => tries_of_nodup s p n hnd⟩
    · rw [tries_of_nodup s p n hnd, if_pos hn]
      have := hlow n hn
      omega
  · intro p r s hb h3 hnd ⟨n, hn, h2⟩
    refine bringStepDone_gives hb (by simp [h3]) ?_
    simp only [bringStep, h3]
    obtain ⟨hhold, -, -⟩ := memTrained_cases s p r.stackBad
    obtain ⟨u, hu⟩ := hhold ⟨n, hn, by rw [tries_of_nodup s p n hnd, if_pos hn]; omega⟩
    rw [hu]
    exact holdPart_held u p
  · intro p r s hb h4 hfree hunc
    refine bringStepDone_gives hb (fun _ => hfree) ?_
    simp only [bringStep, h4]
    exact coresOn_spec s p hunc
  · intro p r s hb h5
    refine bringStepDone_gives hb (by simp [h5]) ?_
    simp only [bringStep, h5]
    exact partUp_spec s p
  · intro p s hb hd
    exact ⟨_, if_pos (by simp [hb, hd]), bringAt_bringStarts _ p.isLt, getLsbD_and_not_twoPow _ p⟩
  · exact fun s => moduleResetHoldoffEnd_gives
  · exact fun g k ok s hb h5 hk hr => kernelDone_gives hb h5 (kernelDone_first ok hk hr)
  · exact fun g k ok s hb h5 hr => kernelDone_gives hb h5 (kernelDone_again ok hr)

end Sys2Proof.Machine
end

section
/-! SUPPORT. The port's pins, flits and timeouts between dies, and the test port (01 R20 to R22, 16 R438, 21 R538 to R540). -/

-- One theorem at a time: the stacks of parallel proofs add up to more than the memory the check gives.
set_option Elab.async false

namespace Sys2Proof.Machine

/-! ### The port's pins (16 R438, 19 R488) -/

theorem perstNAssert_gives (s : State) :
    Gives .perstNAssert s fun t => t.pins.perstN = false ∧ t.host.linkWidth = 0 ∧ ∀ o, ∀ q ∈ (ostlerAt t o).queue, byMailbox q = false := by
  refine ⟨_, rfl, rfl, rfl, fun o q hq => ?_⟩
  unfold ostlerAt nth at hq
  split at hq
  · rw [Vector.getElem_map] at hq
    simpa using (List.mem_filter.mp hq).2
  · exact absurd hq List.not_mem_nil

theorem perstNDeassert_gives (s : State) : Gives .perstNDeassert s fun t => t.pins = { s.pins with perstN := true } ∧
    (s.domains.getLsbD 41 = true → (t.host.linkWidth = 0 ↔ t.host.only68 = true)) ∧ Touches [.pins, .host, .free] s t := by
  refine ⟨_, rfl, (hostTrains_touches _ .pins (by decide)).symm, fun h41 => ?_, execPerstNDeassert_touches s _ rfl⟩
  unfold hostTrains
  extract_lets _ w no
  rw [if_pos (by simpa using h41)]
  show (if no = true then 0 else 2 ^ fld w 1 0) = 0 ↔ no = true
  split <;> simp_all

/-! ### Flits between dies (01 R20, R21) -/

theorem replayBuffer_setReplay (s : State) (c : Conn) (away : Bool) (b : List (List Byte)) : replayBuffer (setReplay s c away b) c away = b := by
  simp [replayBuffer, setReplay, assocSet_same]

theorem d2dLast_d2dHolds (s : State) (c : Conn) (away : Bool) (seq : Nat) (f : List Byte) :
    d2dLast (d2dHolds s c away seq f) c away = d2dLast s c away := by
  unfold d2dHolds
  extract_lets b
  split <;> rfl

/-- The sending side holds a flit from its first sending on. -/
theorem replayBuffer_d2dHolds (s : State) (c : Conn) (away : Bool) (seq : Nat) (f : List Byte) :
    replayBuffer (d2dHolds s c away seq f) c away =
      if seq = d2dLast s c away + (replayBuffer s c away).length + 1 then replayBuffer s c away ++ [f] else replayBuffer s c away := by
  unfold d2dHolds
  extract_lets b
  split
  · exact replayBuffer_setReplay s c away _
  · rfl

theorem d2dReplays_d2dHolds (s : State) (c : Conn) (away : Bool) (seq : Nat) (f : List Byte) :
    (d2dHolds s c away seq f).dev.d2dReplays = s.dev.d2dReplays := by
  unfold d2dHolds
  extract_lets b
  split <;> rfl

theorem sent_d2dHolds (s : State) (c : Conn) (away : Bool) (seq : Nat) (f : List Byte) : (d2dHolds s c away seq f).sent = s.sent :=
  (d2dHolds_touches s c away seq f .sent (by decide)).symm

/-- The next flit in order is delivered and acknowledged, and leaves the buffer. -/
theorem d2dTaken_next (s : State) (c : Conn) (away : Bool) (f : List Byte) :
    d2dLast (d2dTaken s c away (d2dLast s c away + 1) f) c away = d2dLast s c away + 1 ∧
      (d2dTaken s c away (d2dLast s c away + 1) f).sent = s.sent ++ [.d2dDeliver c away f, .d2dAck c away (d2dLast s c away + 1)] ∧
      replayBuffer (d2dTaken s c away (d2dLast s c away + 1) f) c away = (replayBuffer s c away).drop 1 := by
  unfold d2dTaken
  rw [if_pos rfl]
  refine ⟨?_, rfl, replayBuffer_setReplay _ c away _⟩
  show (assoc? (assocSet s.dev.d2dSeq (c, away) _) (c, away)).getD 0 = _
  rw [assocSet_same, Option.getD_some]

/-- A flit that is not blocked and whose place its sender has reached is held by its sender, and taken where its CRC is good. -/
theorem d2dFlitReceived_good {c : Conn} {away : Bool} {seq : Nat} {flit : NativeFlit} {s : State} {P : State → Prop} (hup : connUp s c = true)
    (hseq : seq ≤ d2dLast s c away + (replayBuffer s c away).length + 1) (hg : guestBlocked s (c, away) seq flit.sent = none)
    (hP : P (d2dTaken (d2dHolds s c away seq flit.sent) c away seq flit.got)) :
    Gives (.d2dFlitReceived (c, away) seq flit (connCrc c flit.got)) s P := by
  refine ⟨_, ?_, hP⟩
  have hd : (!connUp s c || decide (seq > d2dLast s c away + (replayBuffer s c away).length + 1)) = false := by simp [hup, hseq]
  simp only [exec, execD2dFlitReceived, hd, hg, Bool.false_eq_true, if_false, ne_eq, not_true_eq_false]

/-- The same flit with a CRC that fails is asked for again. -/
theorem d2dFlitReceived_bad {c : Conn} {away : Bool} {seq : Nat} {flit : NativeFlit} {crc : BitVec 16} {s : State} {P : State → Prop}
    (hup : connUp s c = true) (hseq : seq ≤ d2dLast s c away + (replayBuffer s c away).length + 1)
    (hg : guestBlocked s (c, away) seq flit.sent = none) (hc : connCrc c flit.got ≠ crc)
    (hP : P (d2dAgain (d2dHolds s c away seq flit.sent) c away)) : Gives (.d2dFlitReceived (c, away) seq flit crc) s P := by
  refine ⟨_, ?_, hP⟩
  have hd : (!connUp s c || decide (seq > d2dLast s c away + (replayBuffer s c away).length + 1)) = false := by simp [hup, hseq]
  simp only [exec, execD2dFlitReceived, hd, hg, hc, Bool.false_eq_true, if_false, ne_eq, not_false_eq_true, if_true]

/-! ### Denied requests to the guest (21 R540) -/

/-- The denial record: the address from bit 64, the cause from bit 4, the kind from bit 0. -/
theorem denialRecord_toNat (a c k : Nat) (hc : c < 16) (hk : k < 16) :
    (BitVec.ofNat 128 (pack [(64, 64, a), (4, 4, c), (0, 4, k)])).toNat = a % 2 ^ 64 * 2 ^ 64 + c * 16 + k := by
  have hcause : c <<< 4 < 2 ^ 64 := by rw [Nat.shiftLeft_eq]; omega
  have hpack : pack [(64, 64, a), (4, 4, c), (0, 4, k)] = a % 2 ^ 64 * 2 ^ 64 + c * 16 + k := by
    calc pack [(64, 64, a), (4, 4, c), (0, 4, k)]
        = ((a % 2 ^ 64) <<< 64 ||| c <<< 4) ||| k := by
          simp [pack, Nat.mod_eq_of_lt hc, Nat.mod_eq_of_lt hk]
      _ = ((a % 2 ^ 64) <<< 60 + c) <<< 4 ||| k := by
          rw [← Nat.shiftLeft_add_eq_or_of_lt hcause]
          simp only [Nat.shiftLeft_eq]
          congr 1
          omega
      _ = a % 2 ^ 64 * 2 ^ 64 + c * 16 + k := by
          rw [← Nat.shiftLeft_add_eq_or_of_lt (by omega : k < 2 ^ 4)]
          simp only [Nat.shiftLeft_eq]
          omega
  rw [BitVec.toNat_ofNat, hpack, Nat.mod_eq_of_lt (by omega)]

theorem denied_record (s : State) (a : Nat) (empty w : Bool) :
    let r := (denied s a (if empty then 1 else 2) w).sec.lastDenial.toNat
    fld r 127 64 = a % 2 ^ 64 ∧ fld r 7 4 = (if empty then 1 else 2) ∧ fld r 3 0 = (if w then 2 else 1) := by
  intro r
  have hr : r = a % 2 ^ 64 * 2 ^ 64 + (if empty then 1 else 2) * 16 + (if w then 2 else 1) :=
    denialRecord_toNat _ _ _ (by split <;> decide) (by split <;> decide)
  simp only [fld, Nat.shiftRight_eq_div_pow, hr]
  refine ⟨?_, ?_, ?_⟩ <;> split <;> split <;> omega

/-- The next flit to the guest that asks for memory no window allows is not sent, and is recorded instead. -/
theorem guestFlit_gives (flit : NativeFlit) (crc : BitVec 16) (s : State) (hup : connUp s .guest = true) :
    Gives (.d2dFlitReceived (.guest, true) (d2dLast s .guest true + (replayBuffer s .guest true).length + 1) flit crc) s fun t =>
      ∀ a n w, Config.guestMem flit.sent = some (a, n, w) → (windowsFor s true a n).any (fun x => x.testBit (if w then 2 else 1)) = false →
        t.sec.denials = s.sec.denials + 1 ∧ fld t.sec.lastDenial.toNat 127 64 = a % 2 ^ 64 ∧
        fld t.sec.lastDenial.toNat 7 4 = (if (windowsFor s true a n).isEmpty then 1 else 2) ∧ fld t.sec.lastDenial.toNat 3 0 = (if w then 2 else 1) ∧
        t.sent = s.sent ∧ Touches [.sec] s t := by
  obtain ⟨t, ht⟩ := exec_completes
    (.d2dFlitReceived (.guest, true) (d2dLast s .guest true + (replayBuffer s .guest true).length + 1) flit crc) s (by simp)
  refine ⟨t, ht, fun a n w hm hw => ?_⟩
  have hg : guestBlocked s (.guest, true) (d2dLast s .guest true + (replayBuffer s .guest true).length + 1) flit.sent =
      some (a, if (windowsFor s true a n).isEmpty then 1 else 2, w) := by
    simp [guestBlocked, hm, hw]
  have hd : t = denied s a (if (windowsFor s true a n).isEmpty then 1 else 2) w := by
    simpa [exec, execD2dFlitReceived, hup, hg] using ht.symm
  obtain ⟨haddr, hcause, hkind⟩ := denied_record s a (windowsFor s true a n).isEmpty w
  subst hd
  exact ⟨rfl, haddr, hcause, hkind, rfl, denied_touches _ _ _ _⟩

/-! ### Requests that time out (01 R22, R29; 15 R400) -/

@[simp] theorem posted_farrierDown (s : State) (source level word : Nat) : (posted s source level word).farrierDown = s.fw.farrierDown := by
  unfold posted
  split <;> rfl

@[simp] theorem traced_farrierDown (s : State) : (traced s).fw.farrierDown = s.fw.farrierDown := by
  unfold traced
  extract_lets p
  split
  · rfl
  · split
    · rfl
    · exact posted_farrierDown s _ _ _

@[simp] theorem faultEvent_farrierDown (s : State) (r : LRec) : (faultEvent s r).fw.farrierDown = s.fw.farrierDown :=
  (traced_farrierDown _).trans (posted_farrierDown _ _ _ _)

@[simp] theorem storeDump_farrierDown (s : State) (skip : Nat) (h : BitVec 256) (body : Nat) :
    (storeDump s skip h body).fw.farrierDown = s.fw.farrierDown := by
  unfold storeDump
  split <;> rfl

@[simp] theorem fullDump_farrierDown (s : State) (skip trig source part size : Nat) :
    (fullDump s skip trig source part size).fw.farrierDown = s.fw.farrierDown := storeDump_farrierDown s skip _ _

@[simp] theorem flashSummary_farrierDown (s : State) (trig source part : Nat) : (flashSummary s trig source part).fw.farrierDown = s.fw.farrierDown := rfl

@[simp] theorem d2dDump_farrierDown (s : State) (q f : Nat) : (d2dDump s q f).fw.farrierDown = s.fw.farrierDown := by
  unfold d2dDump
  extract_lets dumped
  have hd : dumped.fw.farrierDown = s.fw.farrierDown := fullDump_farrierDown s f 3 15 f 65536
  split
  · rw [flashSummary_farrierDown, hd]
  · exact hd

/-- A partition reset that runs ends with the partition's domains off: what follows the removal of power switches none. -/
theorem partResetRun_off (s : State) (p cause : Nat) : ∀ d ∈ partDomains p, (partResetRun s p cause).domains.getLsbD d = false := by
  unfold partResetRun
  extract_lets kept b _ tooMany thermal _ counted posted cut dark _ conns noRestore _ noCapture dup gone held ks _ brought failed
  have hgone : gone.domains = conns.domains :=
    (discardOn_touches _ _ _).domains_eq.trans ((abandonAll_touches _ _).domains_eq.trans (restoreFails_touches _ _ _).domains_eq)
  have hheld : held.domains = gone.domains := by
    show (ite _ _ _ : State).domains = _
    split
    · exact (loseJob_touches _ _).domains_eq
    · rfl
  have hfailed : failed.domains = brought.domains := by
    show (ite _ _ _ : State).domains = _
    split
    · exact (holdAbort_touches _).domains_eq
    · exact (failSteps_touches _ _).domains_eq
  have hlast : (if tooMany = true then outOfService failed else failed).domains = failed.domains := by
    split
    · exact (outOfService_touches _).domains_eq
    · rfl
  rw [hlast, hfailed]
  show ∀ d ∈ partDomains p, held.domains.getLsbD d = false
  rw [hheld, hgone]
  exact partDomains_off _ p

/-- When a partition reset runs at once (01 R29, 16 R437, 18 R472). -/
theorem partReset_off {s : State} {p : Nat} (cause : Nat) (hon : s.dev.on = true) (hd : s.dev.down = none) (hh : s.dev.holdoff = false)
    (hb : s.dev.state ≠ .boot) (ho : s.dev.state ≠ .outOfService) (hr : s.dev.inReset.getLsbD p = false) (hf : s.fw.farrierDown = false) :
    ∀ d ∈ partDomains p, (partReset s p cause).domains.getLsbD d = false := by
  have hrun : partReset s p cause = partResetRun s p cause := by
    simp [partReset, moduleResetting, notStarted, hon, hd, hh, hb, ho, hr, hf]
  rw [hrun]
  exact partResetRun_off s p cause

theorem d2dTimeout_gives (p : Fin 8) (s : State) (h48 : s.domains.getLsbD 48 = true) (hr : s.dev.inReset.getLsbD p.val = false)
    (hon : s.dev.on = true) (hd : s.dev.down = none) (hh : s.dev.holdoff = false) (hb : s.dev.state ≠ .boot) (ho : s.dev.state ≠ .outOfService)
    (hf : s.fw.farrierDown = false) : Gives (.d2dTimeout .hub (.compute p)) s fun t => ∀ d ∈ partDomains p.val, t.domains.getLsbD d = false := by
  refine ⟨d2dTimedOut s 8 p.val, ?_, ?_⟩
  · have hne : ¬ 8 = p.val := by omega
    simp only [exec, execD2dTimeout, dieNo, h48, hr, hne, decide_false, Bool.not_true, Bool.or_self, Bool.and_false, Bool.false_eq_true, if_false]
  · unfold d2dTimedOut
    extract_lets recorded dumped
    have ht : Touches [.sent, .ledger, .fw, .free] s dumped :=
      .step (d2dDump_touches _ _ _) (by decide) (.step (faultEvent_touches _ _) (by decide) ((emit_touches _ _).mono (by decide)))
    have hstate : dumped.dev.state = s.dev.state := (ht .devState (by decide)).symm
    have hfw : dumped.fw.farrierDown = s.fw.farrierDown := (d2dDump_farrierDown _ _ _).trans (faultEvent_farrierDown _ _)
    rw [if_pos p.isLt]
    show ∀ d ∈ partDomains p.val, (failSteps (partReset dumped p.val 5) 0x0040).domains.getLsbD d = false
    rw [(failSteps_touches _ _).domains_eq]
    exact partReset_off 5 ((ht.dev_eq (·.on)).trans hon) ((ht.dev_eq (·.down)).trans hd) ((ht.dev_eq (·.holdoff)).trans hh) (hstate ▸ hb)
      (hstate ▸ ho) ((congrArg (·.getLsbD p.val) (ht.dev_eq (·.inReset))).trans hr) (hfw.trans hf)

theorem d2dTimeout_inReset (q : Die) (p : Fin 8) (s : State) (h48 : s.domains.getLsbD 48 = true) (hr : s.dev.inReset.getLsbD p.val = true)
    (hq : q ≠ .compute p) : Gives (.d2dTimeout q (.compute p)) s fun t =>
      t.sent = s.sent ++ [.errorReply (dieNo q) (packagePath s (dieNo q) 8)] ∧ Touches [.sent] s t := by
  have hne : dieNo q ≠ p.val := by
    cases q with
    | compute r => exact fun h => hq (congrArg Die.compute (Fin.ext h))
    | hub => exact fun h => absurd p.isLt (by rw [← h]; decide)
  refine ⟨emit s (.errorReply (dieNo q) (packagePath s (dieNo q) 8)), ?_, rfl, emit_touches _ _⟩
  have hp : dieNo (.compute p) = p.val := rfl
  simp [exec, execD2dTimeout, hp, hne, h48, hr]

/-! ### The test port (21 R538, 22 R555) -/

theorem testPort_open (i : Fin 7) (s : State) (hon : s.dev.on = true) (ho : tapOpen (tapOf i.val) = true ∨ s.dev.scanOpen = true) :
    Gives (.testPortInstruction i.val) s fun t => t.dev.tap = tapOf i.val ∧ (i.val = 1 → t.sent = s.sent ++ [.tapScan idcodes]) := by
  have h7 : ¬ i.val = 7 := by omega
  have hopen : (tapOpen (tapOf i.val) || s.dev.scanOpen) = true := by simpa using ho
  refine ⟨_, (if_neg (by simp [hon])).trans ((if_neg h7).trans (if_pos hopen)), rfl, fun h1 => ?_⟩
  show s.sent ++ [Emit.tapScan (scanOf _ (tapOf i.val))] = _
  rw [h1]
  rfl

theorem testPort_shut (i : Fin 7) (s : State) (hon : s.dev.on = true) (ht : tapOpen (tapOf i.val) = false) (hs : s.dev.scanOpen = false) :
    Gives (.testPortInstruction i.val) s fun t => t.dev.tap = s.dev.tap ∧ t.sent = s.sent := by
  have h7 : ¬ i.val = 7 := by omega
  refine ⟨{ s with pins := { s.pins with trstN := true } }, ?_, rfl, rfl⟩
  simp [exec, execTestPortInstruction, hon, h7, ht, hs]

theorem testPort_reset (s : State) (hon : s.dev.on = true) :
    Gives (.testPortInstruction 7) s fun t => t.dev.tap = .idcode ∧ t.pins.trstN = false ∧ t.sent = s.sent := by
  refine ⟨{ s with dev := { s.dev with tap := .idcode }, pins := { s.pins with trstN := false, prodHeld := false } }, ?_, rfl, rfl, rfl⟩
  simp [exec, execTestPortInstruction, hon]

/-- Settles O7: a flit by whether its CRC holds and where its place lies, a timeout by the far die's state, the TAPs by what is open. -/
theorem pinsAndTestPort : Obligations.PinsAndTestPort := by
  refine ⟨perstNAssert_gives, perstNDeassert_gives, ?_, ?_, ?_, ?_, guestFlit_gives, ?_, d2dTimeout_inReset, testPort_open, testPort_shut, testPort_reset⟩
  · intro c away flit s hup hg
    refine d2dFlitReceived_good hup (by omega) hg ?_
    obtain ⟨hlast, hsent, hbuf⟩ := d2dTaken_next (d2dHolds s c away (d2dLast s c away + 1) flit.sent) c away flit.got
    rw [d2dLast_d2dHolds] at hlast hsent hbuf
    refine ⟨hlast, by rw [hsent, sent_d2dHolds], ?_⟩
    rw [hbuf, replayBuffer_d2dHolds]
    split
    · next h =>
      have : replayBuffer s c away = [] := List.length_eq_zero_iff.mp (by omega)
      rw [this]
      rfl
    · rfl
  · intro c away seq flit crc s hup hc hg hseq
    refine d2dFlitReceived_bad hup hseq hg hc ?_
    have hbuf := replayBuffer_d2dHolds s c away seq flit.sent
    refine ⟨d2dLast_d2dHolds s c away seq flit.sent, hbuf, ?_, ?_⟩
    · show (d2dHolds s c away seq flit.sent).sent ++ (.d2dReplay c away (d2dLast (d2dHolds s c away seq flit.sent) c away) :: _) = _
      rw [sent_d2dHolds, d2dLast_d2dHolds]
      rfl
    · show (assoc? (assocSet _ c _) c).getD 0 = _
      rw [assocSet_same, Option.getD_some, d2dReplays_d2dHolds]
  · intro c away seq flit s hup hlt hseq hg
    refine d2dFlitReceived_good hup hseq hg ?_
    have hwait : d2dTaken (d2dHolds s c away seq flit.sent) c away seq flit.got = d2dHolds s c away seq flit.sent := by
      rw [d2dTaken, d2dLast_d2dHolds, if_neg (by omega), if_neg (by omega)]
    rw [hwait]
    exact ⟨d2dLast_d2dHolds _ _ _ _ _, sent_d2dHolds _ _ _ _ _, d2dHolds_touches _ _ _ _ _⟩
  · intro c away seq flit s hup hle hg
    refine d2dFlitReceived_good hup (by omega) hg ?_
    have hagain : d2dTaken (d2dHolds s c away seq flit.sent) c away seq flit.got =
        emit (d2dHolds s c away seq flit.sent) (.d2dAck c away (d2dLast s c away)) := by
      rw [d2dTaken, d2dLast_d2dHolds, if_neg (by omega), if_pos hle]
    rw [hagain]
    exact ⟨d2dLast_d2dHolds s c away seq flit.sent, by rw [emit_sent, sent_d2dHolds]⟩
  · exact fun p s h48 hr hon hd hh hb ho hf _ _ => d2dTimeout_gives p s h48 hr hon hd hh hb ho hf

end Sys2Proof.Machine
end

section
/-! SUPPORT. Contexts, cores and open steps: what the small updates of the state leave of them (07 R186 to R190). -/

-- One theorem at a time: the stacks of parallel proofs add up to more than the memory the check gives.
set_option Elab.async false

namespace Sys2Proof.Machine

/-! ### Contexts and cores after an update -/

theorem updN_eq_self {α : Type} {n : Nat} (v : Vector α n) (i : Nat) (f : α → α) (d : α) (h : f (nth v i d) = nth v i d) : updN v i f = v := by
  unfold nth at h
  unfold updN
  split
  · rw [dif_pos ‹_›] at h
    unfold upd
    ext k hk
    rw [Vector.getElem_set]
    split
    · subst_vars; exact h
    · rfl
  · rfl

theorem nth_eq_getElem {α : Type} {n k : Nat} (v : Vector α n) (d : α) (h : k < n) : nth v k d = v[k] := dif_pos h

theorem nth_updN_ne {α : Type} {n i j : Nat} (v : Vector α n) (f : α → α) (d : α) (h : i ≠ j) : nth (updN v i f) j d = nth v j d := by
  rw [nth_updN, if_neg fun hc => h hc.1]

@[simp] theorem ctxAt_onCtx_same (s : State) {c : Nat} (f : Ctx → Ctx) (h : c < 16) : ctxAt (onCtx s c f) c = f (ctxAt s c) :=
  nth_updN_same _ _ _ h

theorem ctxAt_onCtx_ne (s : State) {c k : Nat} (f : Ctx → Ctx) (h : c ≠ k) : ctxAt (onCtx s c f) k = ctxAt s k := nth_updN_ne _ _ _ h

theorem onCtx_eq_self (s : State) (c : Nat) (f : Ctx → Ctx) (h : f (ctxAt s c) = ctxAt s c) : onCtx s c f = s := by
  show { s with ctxs := updN s.ctxs c f } = s
  rw [updN_eq_self _ _ _ _ h]

@[simp] theorem coreAt_onCore_same (s : State) {g : Nat} (f : Core → Core) (h : g < 145) : coreAt (onCore_ s g f) g = f (coreAt s g) :=
  nth_updN_same _ _ _ h

theorem coreAt_onCore (s : State) (g k : Nat) (f : Core → Core) :
    coreAt (onCore_ s g f) k = if g = k ∧ k < 145 then f (coreAt s k) else coreAt s k := by
  unfold coreAt
  rw [onCore_cores, nth_updN]

theorem Touches.ctxs_eq {W : List StatePart} {s t : State} (h : Touches W s t) (hw : W.contains .ctxs = false := by decide) : t.ctxs = s.ctxs :=
  (h .ctxs hw).symm

theorem Touches.ctxAt_eq {W : List StatePart} {s t : State} (h : Touches W s t) (c : Nat) (hw : W.contains .ctxs = false := by decide) :
    ctxAt t c = ctxAt s c := by rw [ctxAt, h.ctxs_eq hw]; rfl

theorem Touches.coreAt_eq {W : List StatePart} {s t : State} (h : Touches W s t) (g : Nat) (hw : W.contains .cores = false := by decide) :
    coreAt t g = coreAt s g := by rw [coreAt, ← h .cores hw]; rfl

/-! ### Halts (07 R186) -/

theorem ctxAt_haltCtx (s : State) (c cause task k : Nat) :
    ctxAt (haltCtx s c cause task) k = ctxAt (onCtx s c fun x => haltedCtx x cause task) k := by
  unfold haltCtx
  extract_lets _ u
  split
  · rfl
  · exact (post_touches u _ _ _ _).ctxAt_eq k

@[simp] theorem ctxAt_haltCtx_same (s : State) {c : Nat} (cause task : Nat) (h : c < 16) :
    ctxAt (haltCtx s c cause task) c = haltedCtx (ctxAt s c) cause task := by rw [ctxAt_haltCtx, ctxAt_onCtx_same s _ h]

theorem ctxAt_haltCtx_ne (s : State) {c k : Nat} (cause task : Nat) (h : c ≠ k) : ctxAt (haltCtx s c cause task) k = ctxAt s k := by
  rw [ctxAt_haltCtx, ctxAt_onCtx_ne s _ h]

theorem haltedCtx_running {x : Ctx} (h : x.state = .running) (cause task : Nat) :
    haltedCtx x cause task = { x with state := .halted, cause := cause, causeTask := task } := by rw [haltedCtx, h]

theorem ctxAt_haltCtx_running {s : State} {c : Nat} (cause task : Nat) (hc : c < 16) (h : (ctxAt s c).state = .running) :
    ctxAt (haltCtx s c cause task) c = { ctxAt s c with state := .halted, cause := cause, causeTask := task } := by
  rw [ctxAt_haltCtx_same s cause task hc, haltedCtx_running h]

theorem haltedCtx_halted {x : Ctx} (h : x.state = .halted) (cause task : Nat) :
    haltedCtx x cause task = if rankOf cause > rankOf x.cause then { x with cause := cause, causeTask := task } else x := by rw [haltedCtx, h]

theorem haltedCtx_other {x : Ctx} (hr : x.state ≠ .running) (hh : x.state ≠ .halted) (cause task : Nat) : haltedCtx x cause task = x := by
  unfold haltedCtx
  split <;> simp_all

theorem haltCtx_other {s : State} {c : Nat} (hr : (ctxAt s c).state ≠ .running) (hh : (ctxAt s c).state ≠ .halted) (cause task : Nat) :
    haltCtx s c cause task = s := by
  have hs := onCtx_eq_self s c (fun x => haltedCtx x cause task) (haltedCtx_other hr hh cause task)
  simp only [haltCtx, hs, decide_true, if_true]

/-- Settles O50: `haltedCtx` by the state of the context that it meets. -/
theorem haltRanks : Obligations.HaltRanks := by
  intro c cause task s
  refine ⟨fun h => ?_, fun h => ?_, fun hr hh => haltCtx_other hr hh cause task, rfl, by decide, by decide, by decide, rfl,
    fun k hk => ctxAt_haltCtx_ne s cause task fun h => hk (Fin.ext h.symm)⟩
  · exact ctxAt_haltCtx_running cause task c.isLt h
  · rw [ctxAt_haltCtx_same s cause task c.isLt, haltedCtx_halted h]

end Sys2Proof.Machine
end

section
/-! SUPPORT. What the flits that a module sends leave of its contexts (11 R310), and dispatch, SIG and WAIT (07 R179 to R191). -/

-- One theorem at a time: the stacks of parallel proofs add up to more than the memory the check gives.
set_option Elab.async false

namespace Sys2Proof.Machine

/-! ### Contexts while flits are sent: an error return changes `cut` and `left` alone (11 R310) -/

theorem Gives.of {c : Instr} {s t : State} {P : State → Prop} (h : exec c s = .next t) (hp : P t) : Gives c s P := ⟨t, h, hp⟩

/-- A reading of a context that sees neither `cut` nor `left`. -/
def SparesReturns {α : Type} (f : Ctx → α) : Prop := ∀ x cut left, f { x with cut := cut, left := left } = f x

/-- A reading of every context that an update of one does not change. -/
theorem ctxAt_onCtx_field {α : Type} (f : Ctx → α) (s : State) (c : Nat) {g : Ctx → Ctx} (k : Nat) (h : ∀ x, f (g x) = f x) :
    f (ctxAt (onCtx s c g) k) = f (ctxAt s k) := by
  unfold ctxAt
  rw [onCtx_ctxs, nth_updN]
  split
  next => rw [h]
  next => rfl

section
variable {α : Type} {f : Ctx → α} (hf : SparesReturns f)
include hf

theorem reportError_ctx (s : State) (h : BitVec 96) (payload : List Byte) (k : Nat) :
    f (ctxAt (reportError s h payload) k) = f (ctxAt s k) := by
  unfold reportError
  extract_lets _ u
  have hu : f (ctxAt u k) = f (ctxAt s k) := rfl
  split
  · exact (ctxAt_onCtx_field f u _ k fun x => hf x _ x.left).trans hu
  · exact (ctxAt_onCtx_field f u _ k fun x => hf x _ _).trans hu
  · exact hu

theorem sendHop_ctx (s : State) (h : BitVec 96) (payload : List Byte) (came : Option Dir) (k : Nat) :
    f (ctxAt (sendHop s h payload came) k) = f (ctxAt s k) := by
  unfold sendHop
  split
  · split
    · rw [(pushFlit_touches _ _ _).ctxAt_eq, (countDetour_touches _ _ _).ctxAt_eq]
    · rfl
  · split
    · exact reportError_ctx hf s h payload k
    · rfl
  · rfl

theorem routeFlit_ctx (s : State) (h : BitVec 96) (payload : List Byte) (came : Option Dir) (k : Nat) :
    f (ctxAt (routeFlit s h payload came) k) = f (ctxAt s k) := by
  unfold routeFlit
  split
  · unfold unroutable
    extract_lets _ u
    split
    · rfl
    · exact sendHop_ctx hf u _ _ _ k
  · exact sendHop_ctx hf s _ _ _ k
  · exact sendHop_ctx hf s _ _ _ k

theorem streamTo_ctx (s : State) (dest : Nat) (bs : List Byte) (k : Nat) : f (ctxAt (streamTo s dest bs) k) = f (ctxAt s k) :=
  List.foldlRecOn (motive := fun u => f (ctxAt u k) = f (ctxAt s k)) _ _ rfl fun u hu _ _ => (routeFlit_ctx hf u _ _ _ k).trans hu

theorem progress_ctx (s : State) (n k : Nat) : f (ctxAt (progress s n) k) = f (ctxAt s k) := by
  unfold progress streamMirror
  extract_lets done
  split
  · rfl
  · split
    · exact streamTo_ctx hf _ _ _ k
    · rfl

end

/-! ### The dispatch unit (07 R190, R191) -/

/-- A context that waits, holds pieces or does not run dispatches nothing. -/
theorem dispatchable_false {s : State} {c : Nat} (h : (ctxAt s c).waiting.isSome = true ∨ (ctxAt s c).held ≠ [] ∨ (ctxAt s c).state ≠ .running) :
    dispatchable s c = false := by
  unfold dispatchable
  rcases h with h | h | h
  · simp [Option.isNone_eq_false_iff.mpr h]
  · simp [List.isEmpty_eq_false_iff.mpr h]
  · simp [h]

/-- A context that waits for one of higher priority is not served. -/
theorem firstInLine_false {s : State} {c k : Nat} (hk : k < c % 15) (hd : dispatchable s k = true) : firstInLine s c = false := by
  refine List.all_eq_false.mpr ⟨k, List.mem_range.mpr hk, ?_⟩
  simp [hd]

/-- A reading of a context that sees neither `collWait` nor `began` stands while the wait of a COLL is noted. -/
theorem noteWait_ctx {α : Type} {f : Ctx → α} (hf : ∀ x w b, f { x with collWait := w, began := b } = f x) (s : State) (c k : Nat) :
    f (ctxAt (noteWait s c) k) = f (ctxAt s k) := by
  unfold noteWait
  split
  · split
    · exact ctxAt_onCtx_field f s c k fun x => hf x _ x.began
    · rfl
  · split
    · rfl
    · exact ctxAt_onCtx_field f s c k fun x => hf x _ _
  · exact ctxAt_onCtx_field f s c k fun x => hf x _ x.began
  · rfl

/-- What is held after a push is the end of what was to be pushed. -/
theorem pushPieces_suffix (s : State) (l : List (Nat × Piece)) : ∃ r, l = r ++ (pushPieces s l).2 := by
  induction l generalizing s with
  | nil => exact ⟨[], rfl⟩
  | cons x l ih =>
    unfold pushPieces
    split
    · obtain ⟨r, hr⟩ := ih (onCore_ s x.1 fun k => { k with queue := k.queue ++ [x.2] })
      exact ⟨x :: r, congrArg (x :: ·) hr⟩
    · exact ⟨[], rfl⟩

/-- A queued piece stays queued while others are pushed. -/
theorem mem_queue_pushPieces (s : State) (l : List (Nat × Piece)) {g : Nat} {pc : Piece} (h : pc ∈ (coreAt s g).queue) :
    pc ∈ (coreAt (pushPieces s l).1 g).queue := by
  induction l generalizing s with
  | nil => exact h
  | cons x l ih =>
    unfold pushPieces
    split
    · refine ih _ ?_
      rw [coreAt_onCore]
      split
      · exact List.mem_append_left _ h
      · exact h
    · exact h

theorem ctxAt_pushFor (s : State) {c : Nat} (l : List (Nat × Piece)) (h : c < 16) :
    ctxAt (pushFor s c l) c = { ctxAt s c with held := (pushPieces s l).2 } := by
  unfold pushFor
  rw [ctxAt_onCtx_same _ _ h, (pushPieces_touches s l).ctxAt_eq]

theorem cores_pushFor (s : State) (c : Nat) (l : List (Nat × Piece)) : (pushFor s c l).cores = (pushPieces s l).1.cores := rfl

theorem taskDispatch_coll {c : Fin 16} {t : Task} {s : State} (ht : taskAt s c.val (ctxAt s c.val).pos = some t)
    (hd : dispatchable s c.val = true) (hf : firstInLine s c.val = true) (hc : isColl t = true) :
    exec (.taskDispatch c (ctxAt s c.val).pos) s = .next (dispatchColl s c.val) := by
  show execTaskDispatch c _ s = _
  simp [execTaskDispatch, ht, hd, hf, hc]

theorem taskDispatch_pieces {c : Fin 16} {t : Task} {ps : List (Nat × Piece)} {s : State} (ht : taskAt s c.val (ctxAt s c.val).pos = some t)
    (hd : dispatchable s c.val = true) (hf : firstInLine s c.val = true) (hc : isColl t = false) (hk : isCoreTask t = true)
    (hp : piecesFor s c.val (ctxAt s c.val).step (ctxAt s c.val).pos t = some ps) :
    exec (.taskDispatch c (ctxAt s c.val).pos) s = .next (dispatchTask s c.val ps) := by
  show execTaskDispatch c _ s = _
  simp [execTaskDispatch, ht, hd, hf, hc, hk, hp]

/-- A context that is not to be served dispatches no task, no SIG and no WAIT. -/
theorem dispatch_idle {c : Fin 16} {s : State} (n : Nat) (h : (dispatchable s c.val && firstInLine s c.val) = false) :
    exec (.taskDispatch c n) s = .next s ∧ exec (.sig c) s = .next s ∧ exec (.wait c) s = .next s := by
  refine ⟨?_, ?_, ?_⟩
  · show execTaskDispatch c n s = _
    unfold execTaskDispatch
    extract_lets x
    split <;> simp [h]
  · show execSig c s = _
    unfold execSig
    split <;> simp [h]
  · show execWait c s = _
    unfold execWait
    split <;> simp [h]

/-- A COLL that the dispatch unit hands to the link blocks is one piece outstanding. -/
theorem ctxAt_dispatchColl (s : State) (c : Fin 16) : (ctxAt (dispatchColl s c.val) c.val).pos = (ctxAt s c.val).pos + 1 ∧
    (ctxAt (dispatchColl s c.val) c.val).left = (ctxAt s c.val).left ++ [((ctxAt s c.val).pos, 1)] := by
  unfold dispatchColl
  extract_lets x
  rw [noteWait_ctx (f := (·.pos)) (fun _ _ _ => rfl), noteWait_ctx (f := (·.left)) (fun _ _ _ => rfl), ctxAt_onCtx_same _ _ c.isLt]
  exact ⟨rfl, rfl⟩

theorem ctxAt_dispatchTask (s : State) (c : Fin 16) (ps : List (Nat × Piece)) :
    (ctxAt (dispatchTask s c.val ps) c.val).pos = (ctxAt s c.val).pos + 1 ∧
    (ctxAt (dispatchTask s c.val ps) c.val).left = (ctxAt s c.val).left ++ [((ctxAt s c.val).pos, ps.length)] ∧
    ∃ l, ps = l ++ (ctxAt (dispatchTask s c.val ps) c.val).held := by
  unfold dispatchTask
  extract_lets x u v
  rw [ctxAt_pushFor v ps c.isLt, ctxAt_onCtx_same u _ c.isLt]
  exact ⟨rfl, rfl, pushPieces_suffix v ps⟩

/-- Held pieces whose first finds room: it is queued, and what is held then is the end of the rest. -/
theorem pushFor_first (s : State) (c : Fin 16) {g : Nat} {pc : Piece} (r : List (Nat × Piece)) (hg : g < 145) (hr : hasRoom s g pc = true) :
    pc ∈ (coreAt (pushFor s c.val ((g, pc) :: r)) g).queue ∧ ∃ l, r = l ++ (ctxAt (pushFor s c.val ((g, pc) :: r)) c.val).held := by
  have hp : pushPieces s ((g, pc) :: r) = pushPieces (onCore_ s g fun k => { k with queue := k.queue ++ [pc] }) r := by rw [pushPieces, if_pos hr]
  rw [ctxAt_pushFor s _ c.isLt, hp]
  refine ⟨?_, pushPieces_suffix _ r⟩
  rw [coreAt, cores_pushFor, hp]
  refine mem_queue_pushPieces _ r ?_
  rw [coreAt_onCore_same s _ hg]
  exact List.mem_append_right _ List.mem_cons_self

/-! ### SIG and WAIT (07 R179 to R181) -/

theorem sig_dispatched {c : Fin 16} {obj inc : Nat} {mask : BitVec 16} {s : State} (hb : nextBody s c.val = some (.sig obj inc mask))
    (hd : dispatchable s c.val = true) (hf : firstInLine s c.val = true) :
    Gives (.sig c) s fun u => (ctxAt u c.val).pos = (ctxAt s c.val).pos + 1 ∧
      (ctxAt u c.val).sigs = (ctxAt s c.val).sigs ++ [⟨(ctxAt s c.val).pos, (ctxAt s c.val).step, obj, inc, mask⟩] ∧ u.sync = s.sync := by
  refine Gives.of (show execSig c s = .next (onCtx s c.val _) by simp only [execSig, hb, hd, hf, Bool.and_self, if_true]; rfl) ?_
  rw [ctxAt_onCtx_same s _ c.isLt]
  exact ⟨rfl, rfl, rfl⟩

theorem wait_dispatched {c : Fin 16} {obj target : Nat} {s : State} (hb : nextBody s c.val = some (.wait obj target))
    (hd : dispatchable s c.val = true) (hf : firstInLine s c.val = true) :
    Gives (.wait c) s fun u => (ctxAt u c.val).pos = (ctxAt s c.val).pos + 1 ∧ (ctxAt u c.val).waiting = some (obj, target) := by
  refine Gives.of (show execWait c s = .next (onCtx s c.val _) by simp only [execWait, hb, hd, hf, Bool.and_self, if_true]; rfl) ?_
  rw [ctxAt_onCtx_same s _ c.isLt]
  exact ⟨rfl, rfl⟩

theorem Touches.syncAt_eq {W : List StatePart} {s t : State} (h : Touches W s t) (o : Nat) (hw : W.contains .sync = false := by decide) :
    syncAt t o = syncAt s o := by rw [syncAt, ← h .sync hw]; rfl

/-- An object reads as it was set. -/
theorem assoc_syncSet (l : List (Nat × SyncObj)) (o : Nat) {v : SyncObj} (hv : v ≠ {}) : assoc? (syncSet l o v) o = some v := by
  induction l with
  | nil => simp [syncSet, hv, assoc?]
  | cons x r ih =>
    obtain ⟨k, w⟩ := x
    unfold syncSet
    split
    · simp [assoc?]
    · split
      · simp [assoc?]
      · rw [assoc?, if_neg (by omega), ih]

/-- A SIG on an object of no later tag adds to its count, from 0 where the object's tag was an earlier one. -/
theorem sigOn_of_le {v : SyncObj} {n : Nat} (inc : Nat) (h : v.tag ≤ n) :
    sigOn v n inc = some { tag := n, count := min ((if v.tag = n then v.count else 0) + inc) 0xFFFFFFFF } := by
  rw [sigOn, if_neg (by omega)]
  split
  · rw [if_neg (by omega)]
  · have he : v.tag = n := by omega
    rw [if_pos he]
    simp only [he]

theorem syncAt_applySig {s : State} {o n inc : Nat} {v : SyncObj} (hr : objInReset s o = false) (hs : sigOn (syncAt s o) n inc = some v)
    (hv : v ≠ {}) : syncAt (applySig s o n inc) o = v := by
  rw [applySig, if_neg (by simp [hr]), hs]
  exact congrArg (Option.getD · {}) (assoc_syncSet s.sync o hv)

/-- A context that a SIG has left. -/
def sigLeaves (s : State) (c : Nat) (w : SigWait) : State := onCtx s c fun x => { x with sigs := x.sigs.filter fun q => q.task ≠ w.task }

theorem sigTakesEffect_next {c : Fin 16} {w : SigWait} {s : State} (hw : (ctxAt s c.val).sigs.find? (sigReady s c.val) = some w) :
    exec (.sigTakesEffect c) s = .next (progress
      (if c.val = 15 && w.obj < 4096 then sigLeaves s c.val w else applySig (sigLeaves s c.val w) w.obj w.step w.inc) w.step) := by
  show execSigTakesEffect c s = _
  simp only [execSigTakesEffect, hw, sigLeaves]

theorem sigTakesEffect_applied {c : Fin 16} {w : SigWait} {s : State} (hw : (ctxAt s c.val).sigs.find? (sigReady s c.val) = some w)
    (hr : objInReset s w.obj = false) (hi : 0 < w.inc) (hc : c.val = 15 → 4096 ≤ w.obj) (ht : (syncAt s w.obj).tag ≤ w.step) :
    Gives (.sigTakesEffect c) s fun u => (syncAt u w.obj).tag = w.step ∧
      (syncAt u w.obj).count = min ((if (syncAt s w.obj).tag = w.step then (syncAt s w.obj).count else 0) + w.inc) 0xFFFFFFFF := by
  refine Gives.of (sigTakesEffect_next hw) ?_
  have hn : (decide (c.val = 15) && decide (w.obj < 4096)) = false := by
    rw [Bool.and_eq_false_iff, decide_eq_false_iff_not, decide_eq_false_iff_not]
    omega
  have hv : ({ tag := w.step, count := min ((if (syncAt s w.obj).tag = w.step then (syncAt s w.obj).count else 0) + w.inc) 0xFFFFFFFF } : SyncObj) ≠ {} := by
    intro h
    have := congrArg SyncObj.count h
    simp only at this
    omega
  have hs := syncAt_applySig (s := sigLeaves s c.val w) hr (sigOn_of_le w.inc ht) hv
  rw [(progress_touches _ _).syncAt_eq, hn, if_neg Bool.false_ne_true, hs]
  exact ⟨rfl, rfl⟩

theorem sigTakesEffect_service {c : Fin 16} {w : SigWait} {s : State} (hw : (ctxAt s c.val).sigs.find? (sigReady s c.val) = some w)
    (hc : c.val = 15) (ho : w.obj < 4096) :
    Gives (.sigTakesEffect c) s fun u => u.sync = s.sync ∧ ∀ q ∈ (ctxAt u c.val).sigs, q.task ≠ w.task := by
  refine Gives.of (sigTakesEffect_next hw) ?_
  rw [if_pos (by simp [hc, ho])]
  refine ⟨(progress_touches _ _ .sync rfl).symm, fun q hq => ?_⟩
  rw [progress_ctx (f := (·.sigs)) (fun _ _ _ => rfl), sigLeaves, ctxAt_onCtx_same s _ c.isLt] at hq
  simpa using (List.mem_filter.mp hq).2

theorem waitSatisfied_gives {c : Fin 16} {obj target : Nat} {s : State} (hw : (ctxAt s c.val).waiting = some (obj, target))
    (hm : waitMet s obj target (ctxAt s c.val).step = true) :
    Gives (.waitSatisfied c) s fun u => (ctxAt u c.val).waiting = none ∧ (ctxAt u c.val).pos = (ctxAt s c.val).pos := by
  refine Gives.of (show execWaitSatisfied c s = .next (progress (onCtx s c.val fun x => { x with waiting := none }) (ctxAt s c.val).step) by
    simp only [execWaitSatisfied, hw, hm, if_true]) ?_
  rw [progress_ctx (f := (·.waiting)) (fun _ _ _ => rfl), progress_ctx (f := (·.pos)) (fun _ _ _ => rfl), ctxAt_onCtx_same s _ c.isLt]
  exact ⟨rfl, rfl⟩

/-- Settles O8: a task by what dispatch makes of it, SIG and WAIT by their effects, and nothing where the context is not to be served. -/
theorem dispatchAndSync : Obligations.DispatchAndSync := by
  refine ⟨fun c t s ht hd hf hc => ⟨_, taskDispatch_coll ht hd hf hc, ctxAt_dispatchColl s c⟩,
    fun c t ps s ht hd hf hc hk hp => ⟨_, taskDispatch_pieces ht hd hf hc hk hp, ctxAt_dispatchTask s c ps⟩, ?_,
    fun c obj inc mask s => sig_dispatched, fun c obj target s => wait_dispatched, fun c w s => sigTakesEffect_applied,
    fun w s hw => sigTakesEffect_service (c := 15) hw rfl, fun c obj target s => waitSatisfied_gives, ?_⟩
  · intro c g pc r s hrun hh hg hroom
    refine ⟨_, show execQueueRoomFreed c s = .next (pushFor s c.val ((g, pc) :: r)) by simp only [execQueueRoomFreed, hrun, hh, if_true], ?_⟩
    exact pushFor_first s c r hg hroom
  · intro c n s h
    refine dispatch_idle n ?_
    rcases h with h | h | h | ⟨k, hk, hd⟩
    · rw [dispatchable_false (.inl h), Bool.false_and]
    · rw [dispatchable_false (.inr (.inl h)), Bool.false_and]
    · rw [dispatchable_false (.inr (.inr h)), Bool.false_and]
    · rw [firstInLine_false hk hd, Bool.and_false]

end Sys2Proof.Machine
end

section
/-! SUPPORT. The course of a step: its beginning, its batch and its replay (07 R188, R193, 10 R268). -/

-- One theorem at a time: the stacks of parallel proofs add up to more than the memory the check gives.
set_option Elab.async false

namespace Sys2Proof.Machine

/-! ### Open steps (10 R244, R246) -/

theorem Touches.steps_eq {W : List StatePart} {s t : State} (h : Touches W s t) (hw : W.contains .steps = false := by decide)
    (hc : W.contains .committed = false := by decide) : t.steps = s.steps := by
  have hs : { s.steps with committed := 0 } = { t.steps with committed := 0 } := h .steps hw
  have hk : s.steps.committed = t.steps.committed := h .committed hc
  calc t.steps = { { t.steps with committed := 0 } with committed := t.steps.committed } := rfl
    _ = { { s.steps with committed := 0 } with committed := s.steps.committed } := by rw [hs, hk]
    _ = s.steps := rfl

/-- Open steps are read from `older` and `younger` alone. -/
theorem openAt_congr {s t : State} (ho : t.steps.older = s.steps.older) (hy : t.steps.younger = s.steps.younger) (n : Nat) :
    openAt t n = openAt s n := by rw [openAt, openAt, ho, hy]

/-- A step opened is open: the older one where none was, or the younger behind one of another number. -/
theorem openAt_openStep {s : State} {t : Steps} {o : OpenStep} (hs : s.steps = openStep t o) (ho : ∀ q, t.older = some q → q.step ≠ o.step) :
    openAt s o.step = some o := by
  unfold openStep at hs
  cases hq : t.older with
  | none =>
    rw [hq, Option.isNone_none, if_pos rfl] at hs
    simp [openAt, hs]
  | some q =>
    rw [hq, Option.isNone_some, if_neg Bool.false_ne_true] at hs
    simp [openAt, hs, ho q hq]

/-! ### The step boundary (07 R188) -/

/-- The step that may begin is not the one that is open. -/
theorem nextStep_ne {s : State} {n : Nat} {o : OpenStep} (h : nextStep s = some n) (ho : s.steps.older = some o) : o.step ≠ n := by
  unfold nextStep at h
  rw [ho] at h
  cases hy : s.steps.younger with
  | some y => simp [hy] at h
  | none =>
    simp only [hy] at h
    split at h
    · cases h; omega
    · cases h

theorem mem_stepCtxs {s : State} {c : Nat} (h : c ∈ stepCtxs s) : c < 16 := by
  unfold stepCtxs at h
  split at h
  · rw [List.mem_singleton.mp h]; decide
  · exact lt_trans (List.mem_range.mp h) (by decide)

/-- What follows a step's opening asks for a batch and lets plans take effect: it leaves contexts and steps. -/
theorem beginNext_opened (s : State) (n : Nat) : ∃ (v : State) (clamps : Nat),
    Touches [.place, .fetch] v (beginNext s n) ∧ v.steps = openStep s.steps { step := n, clamps := clamps } ∧
    v.ctxs = Vector.ofFn fun i => if (stepCtxs s).contains i.val then ctxBegins n s.ctxs[i] else s.ctxs[i] := by
  unfold beginNext
  extract_lets who u v
  refine ⟨v, _, ?_, rfl, rfl⟩
  split
  · exact Touches.refl
  · exact ((plansTake_touches v n).mono rfl).trans ((fetchBatch_touches _ _).mono rfl)

theorem nth_ofFn {α : Type} {n k : Nat} (f : Fin n → α) (d : α) (h : k < n) : nth (Vector.ofFn f) k d = f ⟨k, h⟩ := by
  rw [nth_eq_getElem _ _ h, Vector.getElem_ofFn]

theorem ctxBegins_live {x : Ctx} (h : isLive x = true) (n : Nat) :
    (ctxBegins n x).step = n ∧ (ctxBegins n x).pos = 0 ∧ (ctxBegins n x).left = [] := by
  rw [ctxBegins, if_pos h]
  exact ⟨rfl, rfl, rfl⟩

theorem stepBoundary_gives {n : Nat} {s : State} (hn : nextStep s = some n) (hm : mayBegin s n = true) :
    Gives .stepBoundary s fun t => (openAt t n).map (·.step) = some n ∧
      ∀ c ∈ stepCtxs s, isLive (ctxAt s c) = true → (ctxAt t c).step = n ∧ (ctxAt t c).pos = 0 ∧ (ctxAt t c).left = [] := by
  refine Gives.of (show execStepBoundary s = .next (beginNext s n) by simp only [execStepBoundary, hn, hm, if_true]) ?_
  obtain ⟨v, clamps, hv, hs, hc⟩ := beginNext_opened s n
  refine ⟨?_, fun c hin hl => ?_⟩
  · rw [openAt_openStep (o := { step := n, clamps := clamps }) (hv.steps_eq.trans hs) fun q hq => nextStep_ne hn hq]
    rfl
  · have hlt := mem_stepCtxs hin
    have hx : ctxAt v c = ctxBegins n (ctxAt s c) := by
      rw [ctxAt, hc, nth_ofFn _ _ hlt, if_pos (List.contains_iff_mem.mpr hin), ctxAt, nth_eq_getElem _ _ hlt]
      rfl
    rw [hv.ctxAt_eq, hx]
    exact ctxBegins_live hl n

/-! ### Batches (07 R193, 19 R493) -/

theorem batchHeaderPoll_there {filled : Nat} {s : State} (h1 : s.fetch.state = 1) (hc : cxlUp s = true) :
    Gives (.batchHeaderPoll s.fetch.step filled) s fun t => t.fetch.state = 2 ∧ t.fetch.filled = filled ∧ t.fetch.step = s.fetch.step ∧
      t.sent = s.sent ++ [.pollHeader s.fetch.step (slotAddr s s.fetch.step), .readBody s.fetch.step (slotAddr s s.fetch.step) filled] := by
  refine Gives.of ((if_pos (by simp [h1, hc])).trans (if_pos rfl)) ⟨rfl, rfl, rfl, ?_⟩
  exact List.append_assoc s.sent [_] [_]

theorem batchHeaderPoll_other {h filled : Nat} {s : State} (h1 : s.fetch.state = 1) (hc : cxlUp s = true) (hn : h ≠ s.fetch.step) :
    Gives (.batchHeaderPoll h filled) s fun t => t.fetch = s.fetch ∧ t.sent = s.sent ++ [.pollHeader s.fetch.step (slotAddr s s.fetch.step)] :=
  Gives.of ((if_pos (by simp [h1, hc])).trans (if_neg hn)) ⟨rfl, rfl⟩

/-- The fetcher goes on to its next step or is done, and leaves what it has. -/
theorem fetchNext_spec (f : Fetch) : (fetchNext f).batches = f.batches ∧ (fetchNext f).again = f.again ∧
    ((fetchNext f).state = 3 ∨ (fetchNext f).state = 1) := by
  unfold fetchNext
  split
  · exact ⟨rfl, rfl, .inl rfl⟩
  · exact ⟨rfl, rfl, .inr rfl⟩

theorem batchFetchDone_kept {body : List Byte} {s : State} (h2 : s.fetch.state = 2) (hc : cxlUp s = true) (hs : batchShut s = false) :
    Gives (.batchFetchDone body) s fun t => assoc? t.fetch.batches s.fetch.step = some (body.take s.fetch.filled) ∧
      (t.fetch.state = 3 ∨ t.fetch.state = 1) := by
  refine Gives.of ((if_neg (by simp [h2, hc])).trans (if_neg (by simp [hs]))) ?_
  obtain ⟨hb, -, hst⟩ := fetchNext_spec { s.fetch with batches := assocSet s.fetch.batches s.fetch.step (body.take s.fetch.filled) }
  refine ⟨?_, hst⟩
  rw [hb]
  exact assocSet_same _ _ _

theorem batchFetchDone_shut {body : List Byte} {s : State} (h2 : s.fetch.state = 2) (hc : cxlUp s = true) (hs : batchShut s = true) :
    Gives (.batchFetchDone body) s fun t => t.sent = s.sent ++ [.errorReply 8 []] ∧ t.fetch.batches = s.fetch.batches ∧
      s.fetch.step ∈ t.fetch.again := by
  refine Gives.of ((if_neg (by simp [h2, hc])).trans (if_pos hs)) ?_
  obtain ⟨hb, ha, -⟩ := fetchNext_spec { s.fetch with again := s.fetch.again ++ [s.fetch.step] }
  refine ⟨rfl, hb, ?_⟩
  show s.fetch.step ∈ (fetchNext { s.fetch with again := s.fetch.again ++ [s.fetch.step] }).again
  rw [ha]
  exact List.mem_append_right _ List.mem_cons_self

/-! ### The replay (10 R268) -/

theorem Touches.vers_eq {W : List StatePart} {s t : State} (h : Touches W s t) (hw : W.contains .vers = false := by decide) : t.vers = s.vers :=
  (h .vers hw).symm

theorem replayDispatch_gives {n : Nat} {s : State} (hn : s.steps.replayDue = some n) (hr : replayReady s = true) (ho : s.steps.older = none) :
    Gives .replayDispatch s fun t => t.steps.replayDue = none ∧ t.steps.older.map (·.step) = some n ∧ ∀ k ∈ t.vers.copies, isWork k = false := by
  refine Gives.of (show execReplayDispatch s = .next (fetchBatch { s with
      vers := dropWork s.vers,
      steps := openStep { s.steps with replayDue := none, discardHeld := false }
        { step := n, clamps := clampsOf { s with vers := dropWork s.vers } n } } (n + 1)) by
    simp only [execReplayDispatch, hn, hr, if_true]) ?_
  rw [(fetchBatch_touches _ _).steps_eq, (fetchBatch_touches _ _).vers_eq]
  simp only [openStep, ho, Option.isNone_none, if_true, Option.map_some, true_and]
  intro k hk
  simpa using (List.mem_filter.mp hk).2

/-- Settles O13: the boundary by what `beginNext` opens, a batch by whether its partitions are there, the replay by what it drops. -/
theorem stepCourse : Obligations.StepCourse :=
  ⟨fun _ _ => stepBoundary_gives, fun _ _ => batchHeaderPoll_there, fun _ _ _ => batchHeaderPoll_other, fun _ _ => batchFetchDone_kept,
    fun _ _ => batchFetchDone_shut, fun _ _ => replayDispatch_gives⟩

end Sys2Proof.Machine
end

section
/-! SUPPORT. A program load from its request to its end (07 R195, R196), and what a write that passes leaves. -/

-- One theorem at a time: the stacks of parallel proofs add up to more than the memory the check gives.
set_option Elab.async false

namespace Sys2Proof.Machine

/-! ### Writes that pass -/

/-- The reply to a write that passes touches the host's part and what is sent. -/
theorem Gives.accepted {c : Instr} {s : State} {src : Src} {key size value own : Nat} {effect : State → State} {P : State → Prop}
    (h : Passes s src key size value own) (he : exec c s = .next (hostCommand s src key size value own effect))
    (hp : ∀ t, Touches [.host, .sent] (effect s) t → P t) : Gives c s P :=
  ⟨_, he.trans (congrArg _ (hostCommand_passes h)), hp _ (accepted_touches _ _ _ _ _)⟩

theorem Touches.load_eq {W : List StatePart} {s t : State} (h : Touches W s t) (hw : W.contains .load = false := by decide) : t.load = s.load :=
  (h .load hw).symm

theorem Touches.staging_eq {W : List StatePart} {s t : State} (h : Touches W s t) (hw : W.contains .staging = false := by decide) :
    t.staging = s.staging := (h .staging hw).symm

/-! ### The load (07 R195, R196) -/

theorem reqContext_lt (r : BitVec 128) : reqContext r < 16 := Nat.mod_lt _ (by decide)

theorem programLoadRequest_gives {src : Src} {req : BitVec 128} {s : State} (h : Passes s src 0x210010 16 req.toNat (loadOwn s req)) :
    Gives (.programLoadRequest src req) s fun t => (ctxAt t (reqContext req)).state = .loading ∧ t.load.status = 1 ∧ t.load.ctx = reqContext req ∧
      t.load.image = some (memTake s.staging (reqOffset req) (reqLength req)) ∧ t.staging = s.staging := by
  refine Gives.accepted h rfl fun t ht => ?_
  rw [ht.ctxAt_eq, ht.load_eq, ht.staging_eq, loadStarts, ctxAt_onCtx_same _ _ (reqContext_lt req)]
  exact ⟨rfl, rfl, rfl, rfl, rfl⟩

theorem loadStatusIs_load (s : State) (l : Load) : (loadStatusIs s l).load = l := (post_touches _ _ _ _ _).load_eq

theorem loadStatusIs_ctxAt (s : State) (l : Load) (c : Nat) : ctxAt (loadStatusIs s l) c = ctxAt s c := (loadStatusIs_touches s l).ctxAt_eq c

/-- A rejected load leaves its context EMPTY, with the reason it was rejected for. -/
theorem loadRejected_spec (s : State) (j : Judged) (h : s.load.ctx < 16) : (ctxAt (loadRejected s j) s.load.ctx).state = .empty ∧
    (loadRejected s j).load = { reason := j.reason, ctx := s.load.ctx, wher := j.wher, status := 3, index := j.index } := by
  unfold loadRejected
  extract_lets c src u
  have hc : (ctxAt u c).state = .empty ∧ u.load = { reason := j.reason, ctx := c, wher := j.wher, status := 3, index := j.index } := by
    refine ⟨?_, loadStatusIs_load _ _⟩
    rw [loadStatusIs_ctxAt, ctxAt_onCtx_same s _ h]
  clear_value src
  split
  · split
    · rw [(countIllegal_touches _ _ _ _ _).ctxAt_eq, (countIllegal_touches _ _ _ _ _).load_eq]
      exact hc
    · exact hc
  · exact hc

/-- An accepted program stands in its context. -/
theorem ctxAt_acceptLoad (s : State) {c : Nat} (p : Program) (h : c < 16) :
    (ctxAt (acceptLoad s c p) c).state = .loaded ∧ (ctxAt (acceptLoad s c p) c).prog = some p := by
  unfold acceptLoad
  extract_lets u
  rw [(sizeReserve_touches _).ctxAt_eq, (placeProgram_touches _ _ _).ctxAt_eq]
  show (ctxAt (onCtx u c (ctxLoaded c p)) c).state = _ ∧ (ctxAt (onCtx u c (ctxLoaded c p)) c).prog = _
  rw [ctxAt_onCtx_same u _ h]
  exact ⟨rfl, rfl⟩

theorem loadEnds_accepted {s : State} {p : Program} (hc : s.load.ctx < 16)
    (hp : (judgeImage (judgeView (loadLatch s s.load.ctx) s.load.ctx) s.load).prog = some p)
    (ht : placeTrouble (acceptLoad (loadLatch s s.load.ctx) s.load.ctx p) s.load.ctx = none) :
    (loadEnds s).load.status = 2 ∧ (ctxAt (loadEnds s) s.load.ctx).state = .loaded ∧ (ctxAt (loadEnds s) s.load.ctx).prog = some p := by
  have he : loadEnds s = loadStatusIs (acceptLoad (loadLatch s s.load.ctx) s.load.ctx p) { ctx := s.load.ctx, status := 2 } := by
    simp only [loadEnds, hp, ht]
  rw [he, loadStatusIs_load, loadStatusIs_ctxAt]
  exact ⟨rfl, ctxAt_acceptLoad _ p hc⟩

theorem loadEnds_judged {s : State} (hp : (judgeImage (judgeView (loadLatch s s.load.ctx) s.load.ctx) s.load).prog = none) :
    loadEnds s = loadRejected s (judgeImage (judgeView (loadLatch s s.load.ctx) s.load.ctx) s.load) := by
  simp only [loadEnds, hp]

theorem loadEnds_unplaced {s : State} {p : Program} {i : Nat} (hp : (judgeImage (judgeView (loadLatch s s.load.ctx) s.load.ctx) s.load).prog = some p)
    (ht : placeTrouble (acceptLoad (loadLatch s s.load.ctx) s.load.ctx p) s.load.ctx = some i) :
    loadEnds s = loadRejected s (rejects 0x21 1 i) := by simp only [loadEnds, hp, ht]

/-- Settles O22: the request by what `loadStarts` makes of its context, the end by how the image is judged and placed. -/
theorem programLoad : Obligations.ProgramLoad := by
  refine ⟨fun _ _ _ => programLoadRequest_gives, fun s h1 hb hc => ?_⟩
  refine Gives.of (show execProgramLoadDone s = .next (loadEnds s) from if_pos (by simp [h1, hb])) ?_
  refine ⟨fun p hp ht => loadEnds_accepted hc hp ht, fun hp => ?_, fun p i hp ht => ?_⟩
  · obtain ⟨he, hl⟩ := loadRejected_spec s (judgeImage (judgeView (loadLatch s s.load.ctx) s.load.ctx) s.load) hc
    rw [loadEnds_judged hp, hl]
    exact ⟨rfl, rfl, he⟩
  · obtain ⟨he, hl⟩ := loadRejected_spec s (rejects 0x21 1 i) hc
    rw [loadEnds_unplaced hp ht, hl]
    exact ⟨rfl, rfl, rfl, he⟩

end Sys2Proof.Machine
end

section
/-! SUPPORT. START, HALT, RESUME and UNLOAD of a context, and the counter clear (07 R187, 03 R85). -/

-- One theorem at a time: the stacks of parallel proofs add up to more than the memory the check gives.
set_option Elab.async false

namespace Sys2Proof.Machine

/-! ### Parts that stand in a frame -/

theorem Touches.devState_eq {W : List StatePart} {s t : State} (h : Touches W s t) (hw : W.contains .devState = false := by decide) :
    t.dev.state = s.dev.state := (h .devState hw).symm

theorem Touches.tests_eq {W : List StatePart} {s t : State} (h : Touches W s t) (hw : W.contains .tests = false := by decide) :
    t.tests = s.tests := (h .tests hw).symm

theorem Touches.ckpt_eq {W : List StatePart} {s t : State} (h : Touches W s t) (hw : W.contains .ckpt = false := by decide) :
    t.ckpt = s.ckpt := (h .ckpt hw).symm

theorem Touches.num_eq {W : List StatePart} {s t : State} (h : Touches W s t) (hw : W.contains .num = false := by decide) :
    t.num = s.num := (h .num hw).symm

/-- A part of `recov` apart from the fence set stands where `recov` is not touched. -/
theorem Touches.role_eq {W : List StatePart} {s t : State} (h : Touches W s t) (hw : W.contains .recov = false := by decide) :
    t.recov.role = s.recov.role :=
  have hr : { s.recov with set := [] } = { t.recov with set := [] } := h .recov hw
  (congrArg Recov.role hr).symm

/-! ### A change of device state (16 R434) -/

theorem setState_state (s : State) (d : DevState) : (setState s d).dev.state = d := by
  unfold setState
  extract_lets old _ _ u v w
  have hv : v.dev.state = d := by
    show (if d = .ready then measureConfig _ else _).dev.state = d
    split
    · exact (measureConfig_touches _).devState_eq
    · rfl
  have hw : w.dev.state = d := (post_touches _ _ _ _ _).devState_eq.trans ((sendState_touches v).devState_eq.trans hv)
  split
  · exact (postHeld_touches w).devState_eq.trans hw
  · exact hw

/-- With no gallop run to end, the state is the one asked for. -/
theorem changeState_state {s : State} (d : DevState) (h : s.tests.gState = 0) : (changeState s d).dev.state = d := by
  unfold changeState
  split
  · assumption
  · extract_lets bad u
    have hbad : bad = false := by simp [bad, h]
    rw [hbad, if_neg Bool.false_ne_true]
    exact setState_state _ d

/-! ### What a write that passes, or does not, says of its reason -/

/-- A write that passes has nothing of its entry's own against it. -/
theorem Passes.own_eq {s : State} {src : Src} {key size value own : Nat} (h : Passes s src key size value own) : own = 0 := by
  obtain ⟨-, hr, -⟩ := h
  by_contra ho
  unfold writeReason at hr
  split at hr
  · cases hr
  · simp only [firstReason, decide_eq_true_eq, ho, not_false_eq_true, decide_true, if_true, ne_eq] at hr
    repeat' split at hr
    all_goals omega

/-- A context command that its own rule refuses has reason 6. -/
theorem writeReason_ctxCommand {s : State} {src : Src} {cmd : Nat} (c : Fin 16) (h1 : 1 ≤ cmd) (h4 : cmd ≤ 4) (ho : s.host.owner = some src.master) :
    writeReason s src 0x210030 4 (ctxCommand cmd c.val) 6 = 6 := by
  have he : entryOf (0x210030 / 256) (0x210030 % 256) = some { size := 4, acc := .wo, resv := 0xFFFFFF00, hi := 2 ^ 32 - 1 } := by decide
  have hv : ctxCommand cmd c.val < 80 := by unfold ctxCommand; omega
  have hr : ctxCommand cmd c.val &&& 0xFFFFFF00 = 0 := (by decide : ∀ v < 80, v &&& 0xFFFFFF00 = 0) _ hv
  have ha : areaShut s (0x210030 / 256) = false := rfl
  have hm : mayWrite s src.master 0x210030 = true := by simp [mayWrite, ho]
  have hh : ctxCommand cmd c.val ≤ 4294967295 := by omega
  unfold writeReason
  rw [he]
  simp [firstReason, ha, hm, hr, hh]

/-- A record that is posted leaves the count and the record of illegal sequences. -/
theorem post_illegal (s : State) (kind index sub arg : Nat) :
    (post s kind index sub arg).host.illegal = s.host.illegal ∧ (post s kind index sub arg).host.lastIllegal = s.host.lastIllegal := by
  unfold post
  split
  · exact ⟨rfl, rfl⟩
  · split
    · exact ⟨rfl, rfl⟩
    · exact ⟨rfl, rfl⟩

theorem reply_illegal (s : State) (src : Src) (ty status value : Nat) (body : List Byte) :
    (reply s src ty status value body).host.illegal = s.host.illegal ∧ (reply s src ty status value body).host.lastIllegal = s.host.lastIllegal := by
  unfold reply
  split
  · exact ⟨rfl, rfl⟩
  · exact ⟨rfl, rfl⟩
  · split
    · exact ⟨rfl, rfl⟩
    · exact ⟨rfl, rfl⟩

/-- A context command that its own rule refuses is an illegal sequence of reason 6, and no context changes. -/
theorem ctxCommand_refused {c : Instr} {s : State} {src : Src} {cmd : Nat} (k : Fin 16) {effect : State → State} (ha : OwnerAsks s src)
    (h1 : 1 ≤ cmd) (h4 : cmd ≤ 4) (he : exec c s = .next (hostCommand s src 0x210030 4 (ctxCommand cmd k.val) 6 effect)) :
    Gives c s fun t => t.ctxs = s.ctxs ∧ t.host.illegal = min (s.host.illegal + 1) 0xFFFFFFFF ∧ t.host.lastIllegal = illegalWord src 6 0x2100 0x30 := by
  have hr := writeReason_ctxCommand k h1 h4 ha.owner
  refine Gives.of (he.trans (congrArg _ (hostCommand_refused ha.open_ (by rw [hr]; decide)))) ⟨(illegal_touches _ _ _ _ _ _).ctxs_eq, ?_⟩
  rw [hr, illegal, (reply_illegal _ _ _ _ _ _).1, (reply_illegal _ _ _ _ _ _).2, countIllegal, (post_illegal _ _ _ _ _).1, (post_illegal _ _ _ _ _).2]
  exact ⟨rfl, rfl⟩

/-! ### START of the job (07 R187, R194, 13 R366, 15 R407) -/

/-- A working module whose job has begun: context 0 at the first task of the first step, which is open. -/
def jobOpened (s : State) : State :=
  let u := onCtx (startFresh (rebuild s) .working) 0 (ctxStarted (s.steps.committed + 1))
  { u with steps := openStep u.steps { step := s.steps.committed + 1, clamps := clampsOf u (s.steps.committed + 1) } }

theorem startWorking_eq (s : State) :
    startWorking s = rebuildEnds (rebuildFails s) (changeState (startFetch (jobOpened s)) .joined) := rfl

/-- What a START of a working module brings about, whether or not its rebuild can finish. -/
theorem startWorking_joins (s : State) (hg : s.tests.gState = 0) : (changeState (startFetch (jobOpened s)) .joined).dev.state = .joined ∧
    (ctxAt (changeState (startFetch (jobOpened s)) .joined) 0).state = .running ∧
    (ctxAt (changeState (startFetch (jobOpened s)) .joined) 0).step = s.steps.committed + 1 ∧
    (changeState (startFetch (jobOpened s)) .joined).recov.role = .working ∧
    (openAt (changeState (startFetch (jobOpened s)) .joined) (s.steps.committed + 1)).isSome = true := by
  have hf := startFetch_touches (jobOpened s)
  have hc := changeState_touches (startFetch (jobOpened s)) .joined
  have hx : ctxAt (jobOpened s) 0 = ctxStarted (s.steps.committed + 1) (ctxAt (startFresh (rebuild s) .working) 0) :=
    ctxAt_onCtx_same (startFresh (rebuild s) .working) (c := 0) _ (by decide)
  refine ⟨changeState_state _ ?_, ?_, ?_, ?_, ?_⟩
  · rw [hf.tests_eq]
    show (startFresh (rebuild s) .working).tests.gState = 0
    rw [(startFresh_touches _ _).tests_eq, (rebuild_touches s).tests_eq, hg]
  · rw [hc.ctxAt_eq, hf.ctxAt_eq, hx]; rfl
  · rw [hc.ctxAt_eq, hf.ctxAt_eq, hx]; rfl
  · rw [hc.role_eq, hf.role_eq]; rfl
  · rw [openAt_openStep (t := (startFresh (rebuild s) .working).steps) (o := { step := s.steps.committed + 1, clamps := _ })
      (hc.steps_eq.trans hf.steps_eq) fun q hq => absurd hq (Option.some_ne_none q).symm]
    rfl

theorem rebuildEnds_failed {s : State} (h : (ctxAt s 0).state = .running) : (ctxAt (rebuildEnds true s) 0).state = .halted ∧
    (ctxAt (rebuildEnds true s) 0).cause = 3 ∧ (rebuildEnds true s).ckpt.restReason = 8 := by
  rw [rebuildEnds, if_pos rfl, (haltCtx_touches _ _ _ _).ckpt_eq, ctxAt_haltCtx_running _ _ (by decide)]
  · exact ⟨rfl, rfl, rfl⟩
  · exact h

theorem startSpare_spec (s : State) (hg : s.tests.gState = 0) :
    (startSpare s).dev.state = .spare ∧ (ctxAt (startSpare s) 0).state = .running ∧ (startSpare s).recov.role = .spare := by
  unfold startSpare
  refine ⟨changeState_state _ hg, ?_, (changeState_touches _ _).role_eq⟩
  rw [(changeState_touches _ _).ctxAt_eq, ctxAt_onCtx_same _ _ (by decide)]
  rfl

/-! ### START of a diagnosis replay (10 R274) -/

theorem startReplay_none {s : State} (h : rw s 0x210044 ≤ s.steps.replayCut) : (ctxAt (startReplay s) 15).state = .halted ∧
    (startReplay s).steps.replayResult = 1 ∧ (startReplay s).steps.replayActive = false := by
  rw [startReplay, if_pos h]
  refine ⟨?_, rfl, rfl⟩
  exact congrArg Ctx.state (ctxAt_onCtx_same s (c := 15) _ (by decide))

theorem startReplay_stuck {s : State} (h : s.steps.replayCut < rw s 0x210044) (hg : gatherStuck s (progAt s 15) = true) :
    (ctxAt (startReplay s) 15).state = .halted ∧ (ctxAt (startReplay s) 15).cause = 3 ∧ (startReplay s).ckpt.restReason = 8 := by
  rw [startReplay, if_neg (by omega), if_pos hg, (haltCtx_touches _ _ _ _).ckpt_eq, ctxAt_haltCtx_running _ _ (by decide)]
  · exact ⟨rfl, rfl, rfl⟩
  · exact congrArg Ctx.state (ctxAt_onCtx_same s (c := 15) _ (by decide))

/-! ### UNLOAD (07 R187, 13 R343) -/

/-- Of an unloaded copy only what captures hold is left. -/
theorem unloadedCopy_isHold (s : State) (k : Copy) : ∀ x ∈ unloadedCopy s k, isHold x = true := by
  have hr (cs : List Nat) : ∀ x ∈ released s k cs, isHold x = true := by
    intro x hx
    unfold released at hx
    extract_lets at hx
    split at hx
    · rw [List.mem_singleton.mp hx]; rfl
    · exact absurd hx List.not_mem_nil
  intro x hx
  unfold unloadedCopy at hx
  split at hx
  case h_1 hk => rw [List.mem_singleton.mp hx, isHold, hk]
  case h_2 | h_3 => exact hr _ x hx
  case h_4 | h_5 | h_6 => exact absurd hx List.not_mem_nil

/-- No tile of context `c` is left but those that captures hold. -/
def OnlyHolds (s : State) (c : Nat) : Prop := ∀ k ∈ s.vers.copies, k.ctx = c → isHold k = true

/-- Unloading the copies that `p` names leaves of context `c` what it left, and what is held. -/
theorem onlyHolds_unloaded {s t u : State} {c : Nat} {p : Copy → Bool}
    (ht : t.vers.copies = s.vers.copies.flatMap fun k => if p k = true then unloadedCopy u k else [k])
    (hp : ∀ k ∈ s.vers.copies, p k = false → k.ctx = c → isHold k = true) : OnlyHolds t c := by
  intro x hx hc
  rw [ht] at hx
  obtain ⟨k, hk, hm⟩ := List.mem_flatMap.mp hx
  split at hm
  · exact unloadedCopy_isHold u k x hm
  next hn =>
    rw [List.mem_singleton.mp hm] at hc ⊢
    exact hp k hk (by simpa using hn) hc

theorem discardSteps_copies (s : State) (n : Nat) : ∀ k ∈ (discardSteps s n).vers.copies, k ∈ s.vers.copies := by
  intro k hk
  unfold discardSteps at hk
  extract_lets at hk
  split at hk
  · exact List.mem_of_mem_filter hk
  · exact List.mem_of_mem_filter (List.mem_of_mem_filter hk)

theorem freeCtx_spec (s : State) (c : Fin 16) :
    ctxAt (freeCtx s c.val) c.val = { cause := (ctxAt s c.val).cause, causeTask := (ctxAt s c.val).causeTask } ∧ OnlyHolds (freeCtx s c.val) c.val := by
  refine ⟨?_, ?_⟩
  · unfold freeCtx
    extract_lets u
    rw [(sizeReserve_touches _).ctxAt_eq]
    exact ctxAt_onCtx_same s _ c.isLt
  · refine onlyHolds_unloaded (s := s) (p := fun k => decide (k.ctx = c.val)) (u := onCtx s c.val fun x => { cause := x.cause, causeTask := x.causeTask }) ?_
      fun k _ hn hc => absurd hc (by simpa using hn)
    simp only [decide_eq_true_eq]
    rfl

/-- A context that is not live is not begun again at the end of the job. -/
theorem jobEnds_spec {s : State} (he : (ctxAt s 0).state = .empty) (ho : OnlyHolds s 0) :
    ctxAt (jobEnds s) 0 = ctxAt s 0 ∧ OnlyHolds (jobEnds s) 0 := by
  unfold jobEnds
  extract_lets d copies again _ _ _ u
  have hd : ctxAt d 0 = ctxAt s 0 := (discardSteps_touches _ _).ctxAt_eq 0
  have h0 : d.ctxs[0] = ctxAt d 0 := (nth_eq_getElem _ _ (by decide)).symm
  have hl : ¬isLive (ctxAt d 0) = true := by simp [hd, isLive, he]
  have hu : ctxAt u 0 = ctxAt s 0 := calc
    ctxAt u 0 = again d.ctxs[0] := (nth_ofFn _ _ (by decide)).trans (if_pos (by decide))
    _ = ctxAt d 0 := (congrArg again h0).trans (if_neg hl)
    _ = ctxAt s 0 := hd
  have hh : OnlyHolds u 0 := onlyHolds_unloaded (s := d) (u := d) (p := isMirrorTile) rfl fun k hk _ => ho k (discardSteps_copies _ _ k hk)
  split
  · have ht := jobToReady_touches u
    exact ⟨(ht.ctxAt_eq 0).trans hu, fun k hk => hh k (ht.vers_eq ▸ hk)⟩
  · exact ⟨hu, hh⟩

theorem unloadComplete_gives {c : Fin 16} {s : State} (hu : (ctxAt s c.val).unloading = true) (hr : unloadReady s c.val = true) :
    Gives (.unloadComplete c) s fun t => (ctxAt t c.val).state = .empty ∧ (ctxAt t c.val).prog = none ∧
      ∀ k ∈ t.vers.copies, k.ctx = c.val → isHold k = true := by
  obtain ⟨hx, hh⟩ := freeCtx_spec s c
  refine Gives.of (show execUnloadComplete c s = _ from if_pos (by simp [hu, hr])) ?_
  split
  next h0 =>
    rw [h0] at hx hh ⊢
    obtain ⟨hc, ho⟩ := jobEnds_spec (by rw [hx]) hh
    rw [hc, hx]
    exact ⟨rfl, rfl, ho⟩
  next =>
    split
    · have ht := replayEnds_touches (freeCtx s c.val)
      rw [ht.ctxAt_eq, ht.vers_eq, hx]
      exact ⟨rfl, rfl, hh⟩
    · rw [hx]
      exact ⟨rfl, rfl, hh⟩

/-! ### The other commands that pass -/

theorem contextStart_joins {src : Src} {c : Fin 16} {s : State} (h : Passes s src 0x210030 4 (ctxCommand 1 c.val) (startOwn s c.val))
    (h1 : 1 ≤ c.val) (h14 : c.val ≤ 14) :
    Gives (.contextStart src c) s fun t => (ctxAt t c.val).state = .running ∧ (ctxAt t c.val).joins = true ∧ t.dev.state = s.dev.state := by
  refine Gives.accepted h rfl fun t ht => ?_
  rw [startCtx, if_neg (by omega), if_neg (by omega)] at ht
  rw [ht.ctxAt_eq, ht.devState_eq, ctxAt_onCtx_same s _ c.isLt]
  exact ⟨rfl, rfl, rfl⟩

/-- A context that HALT may name runs. -/
theorem running_of_haltOwn {s : State} {c : Nat} (h : haltOwn s c = 0) : (ctxAt s c).state = .running := by
  unfold haltOwn at h
  split at h
  next hc =>
    obtain ⟨-, hr⟩ := Bool.and_eq_true_iff.mp hc
    exact of_decide_eq_true hr
  · cases h

theorem contextHalt_gives {src : Src} {c : Fin 16} {s : State} (h : Passes s src 0x210030 4 (ctxCommand 2 c.val) (haltOwn s c.val)) :
    Gives (.contextHalt src c) s fun t => (ctxAt t c.val).state = .halted ∧ (ctxAt t c.val).cause = 2 ∧ (ctxAt t c.val).pos = (ctxAt s c.val).pos := by
  refine Gives.accepted h rfl fun t ht => ?_
  rw [ht.ctxAt_eq, ownerHalt, ctxAt_haltCtx_running 2 0 c.isLt (running_of_haltOwn h.own_eq)]
  exact ⟨rfl, rfl, rfl⟩

theorem contextResume_gives {src : Src} {c : Fin 16} {s : State} (h : Passes s src 0x210030 4 (ctxCommand 3 c.val) (resumeOwn s c.val)) :
    Gives (.contextResume src c) s fun t => (ctxAt t c.val).state = .running ∧ (ctxAt t c.val).pos = (ctxAt s c.val).pos := by
  refine Gives.accepted h rfl fun t ht => ?_
  rw [ht.ctxAt_eq, resumeCtx, progress_ctx (f := (·.state)) (fun _ _ _ => rfl), progress_ctx (f := (·.pos)) (fun _ _ _ => rfl),
    ctxAt_onCtx_same s _ c.isLt]
  exact ⟨rfl, rfl⟩

theorem contextUnload_gives {src : Src} {c : Fin 16} {s : State} (h : Passes s src 0x210030 4 (ctxCommand 4 c.val) (unloadOwn s c.val)) :
    Gives (.contextUnload src c) s fun t => (ctxAt t c.val).unloading = true := by
  refine Gives.accepted h rfl fun t ht => ?_
  rw [ht.ctxAt_eq, unloadCtx, ctxAt_onCtx_same s _ c.isLt]

theorem haltOwn_refused {s : State} {c : Nat} (h : (ctxAt s c).state ≠ .running) : haltOwn s c = 6 := by simp [haltOwn, h]

theorem resumeOwn_refused {s : State} {c : Nat} (h : (ctxAt s c).state ≠ .halted) : resumeOwn s c = 6 := by simp [resumeOwn, h]

theorem unloadOwn_refused {s : State} {c : Nat} (h : (ctxAt s c).state = .running) : unloadOwn s c = 6 := by simp [unloadOwn, h]

/-- Settles O23: a command that passes by its effect, one that its own rule refuses by the record of its illegal sequence. -/
theorem contextCommands : Obligations.ContextCommands := by
  refine ⟨?_, ?_, ?_, fun src c s => contextStart_joins, ?_, ?_, fun src c s => contextHalt_gives, fun src c s => contextResume_gives,
    fun src c s => contextUnload_gives, fun c s => unloadComplete_gives, ?_, ?_⟩
  · intro src s h hcoord hg hf
    refine Gives.accepted h rfl fun t ht => ?_
    have he : startCtx (0 : Fin 16).val s = changeState (startFetch (jobOpened s)) .joined := by
      show startJob s = _
      rw [startJob, if_neg hcoord, startWorking_eq, hf]
      rfl
    rw [he] at ht
    obtain ⟨hd, hx, hs, hr, ho⟩ := startWorking_joins s hg
    rw [ht.devState_eq, ht.ctxAt_eq, ht.role_eq, openAt_congr (congrArg _ ht.steps_eq) (congrArg _ ht.steps_eq)]
    exact ⟨hd, hx, hs, hr, ho⟩
  · intro src s h hcoord hg hf
    refine Gives.accepted h rfl fun t ht => ?_
    have he : startCtx (0 : Fin 16).val s = rebuildEnds true (changeState (startFetch (jobOpened s)) .joined) := by
      show startJob s = _
      rw [startJob, if_neg hcoord, startWorking_eq, hf]
    rw [he] at ht
    obtain ⟨-, hx, -⟩ := startWorking_joins s hg
    rw [ht.ctxAt_eq, ht.ckpt_eq]
    exact rebuildEnds_failed hx
  · intro src s h hcoord hg
    refine Gives.accepted h rfl fun t ht => ?_
    have he : startCtx (0 : Fin 16).val s = startSpare s := by
      show startJob s = _
      rw [startJob, if_pos hcoord]
    rw [he] at ht
    rw [ht.devState_eq, ht.ctxAt_eq, ht.role_eq]
    exact startSpare_spec s hg
  · intro src s h hn
    refine Gives.accepted h rfl fun t ht => ?_
    rw [ht.ctxAt_eq, ht.steps_eq]
    exact startReplay_none hn
  · intro src s h hn hg
    refine Gives.accepted h rfl fun t ht => ?_
    rw [ht.ctxAt_eq, ht.ckpt_eq]
    exact startReplay_stuck hn hg
  · intro src s h
    exact Gives.accepted h rfl fun t ht => ht.num_eq
  · intro src c s ha
    refine ⟨fun hn => ctxCommand_refused c ha (cmd := 2) (by decide) (by decide) (by rw [← haltOwn_refused hn]; rfl), fun hn => ?_, fun hn => ?_⟩
    · obtain ⟨t, he, hc, -, hl⟩ := ctxCommand_refused (c := .contextResume src c) c ha (cmd := 3) (by decide) (by decide)
        (by rw [← resumeOwn_refused hn]; rfl)
      exact ⟨t, he, hc, hl⟩
    · obtain ⟨t, he, hc, -, hl⟩ := ctxCommand_refused (c := .contextUnload src c) c ha (cmd := 4) (by decide) (by decide)
        (by rw [← unloadOwn_refused hn]; rfl)
      exact ⟨t, he, hc, hl⟩

end Sys2Proof.Machine
end

section
/-! SUPPORT. Issue of a tile operation, and its stall for reserve tiles (07 R177, R191, 10 R248, R249). -/

-- One theorem at a time: the stacks of parallel proofs add up to more than the memory the check gives.
set_option Elab.async false

namespace Sys2Proof.Machine

/-! ### What issue leaves of a core's queue and of what runs on it -/

@[simp] theorem sweepStarts_queue (s : State) (g : Nat) (t : Task) (k : Core) : (sweepStarts s g t k).queue = k.queue := by
  unfold sweepStarts
  split <;> rfl

@[simp] theorem sweepStarts_running (s : State) (g : Nat) (t : Task) (k : Core) : (sweepStarts s g t k).running = k.running := by
  unfold sweepStarts
  split <;> rfl

/-- A reading of every core that an update of one does not change. -/
theorem coreAt_onCore_field {α : Type} (f : Core → α) (s : State) (g : Nat) {h : Core → Core} (k : Nat) (hf : ∀ x, f (h x) = f x) :
    f (coreAt (onCore_ s g h) k) = f (coreAt s k) := by
  rw [coreAt_onCore]
  split
  · exact hf _
  · rfl

/-- Check pieces join a check queue: task queues and what runs stand. -/
theorem enqueueChecks_running (s : State) (far : Nat) (ks : List CheckPiece) (g : Nat) :
    (coreAt (enqueueChecks s far ks) g).queue = (coreAt s g).queue ∧ (coreAt (enqueueChecks s far ks) g).running = (coreAt s g).running :=
  ⟨coreAt_onCore_field (·.queue) s far g fun _ => rfl, coreAt_onCore_field (·.running) s far g fun _ => rfl⟩

/-! ### The pieces that have waited (10 R252) -/

theorem putTransient_waited (s : State) (c n : Nat) (w : Wr) : (putTransient s c n w).vers.waited = s.vers.waited := by
  unfold putTransient
  extract_lets k vers u put copies
  show u.vers.waited = _
  unfold u
  split <;> rfl

theorem putWr_waited (s : State) (c n : Nat) (w : Wr) : (putWr s c n w).vers.waited = s.vers.waited := by
  unfold putWr
  extract_lets p
  split
  · rfl
  · split
    · rfl
    · exact putTransient_waited s c n w
    · rfl

theorem putAll_waited (s : State) (c n : Nat) (ws : List Wr) : (putAll s c n ws).vers.waited = s.vers.waited := by
  have hf : (ws.foldl (fun s w => putWr s c n w) (doSplits s c n ws (splitsNeeded s c n ws))).vers.waited = s.vers.waited :=
    List.foldlRecOn (motive := fun u : State => u.vers.waited = s.vers.waited) ws _ rfl fun u hu w _ => (putWr_waited u c n w).trans hu
  unfold putAll
  extract_lets u
  split
  · exact hf
  · exact hf

/-! ### Issue (10 R248) -/

theorem markedRead_clear {s : State} {pc : Piece} {t : Task} (h : readsMarked s pc t = false) : markedRead s pc t = id := by
  rw [markedRead, h, Bool.false_and, if_neg Bool.false_ne_true]

/-- A piece whose run stands on its core, and whose writes are written, is issued once it waits no more. -/
theorem issued_of_head {s u : State} {g : Nat} {pc : Piece} {t : Task} {hw : Hw} {run : Run} (hrun : run.piece = pc)
    (hq : (coreAt u g).queue = (coreAt s g).queue.drop 1) (hr : (coreAt u g).running = (coreAt s g).running ++ [run])
    (hv : u.vers = (putAll s pc.ctx pc.step (workWrites (workOf s pc t hw))).vers) :
    Issued s (waitedOver u pc) g pc t hw := by
  refine ⟨hq, ?_, ?_, ?_⟩
  · exact (congrArg List.length hr).trans List.length_append
  · exact (congrArg (List.map Run.piece) hr).trans (by rw [List.map_append, List.map_singleton, hrun])
  · have hw' := putAll_waited s pc.ctx pc.step (workWrites (workOf s pc t hw))
    rw [← hv] at hw' ⊢
    rw [← hw']
    rfl

/-- A piece that meets no memory error is issued, whatever its checks. -/
theorem issuePiece_issued {s : State} {g : Nat} {pc : Piece} {t : Task} {hw : Hw} (hg : g < 145) (he : hw.eccs = [])
    (hm : readsMarked s pc t = false) (clean : Work) (cs : List (CheckSource × List Nat)) (far : Nat) :
    Issued s (issuePiece s g pc t hw (workOf s pc t hw) clean cs far) g pc t hw := by
  unfold issuePiece
  extract_lets ws ts s1 split resv run num place s2 bench marked u0 u1 u2 u3 u4
  have hrun : run.piece = pc := rfl
  have h1 : coreAt u1 g = coreAt s g := (putAll_touches s pc.ctx pc.step ws).coreAt_eq g
  have h2 : (coreAt u2 g).queue = (coreAt u1 g).queue.drop 1 ∧ (coreAt u2 g).running = (coreAt u1 g).running ++ [run] := by
    clear_value u1 run
    unfold u2
    rw [coreAt_onCore_same _ _ hg, sweepStarts_queue, sweepStarts_running]
    exact ⟨rfl, rfl⟩
  have h3 : coreAt u3 g = coreAt u2 g := by
    clear_value u2
    rfl
  have hv : u3.vers = s1.vers := by
    clear_value s1 num run bench
    rfl
  have hfin : marked (eccHits (waitedOver u4 pc) pc.ctx pc.task hw.eccs) = waitedOver u4 pc := by
    rw [he, show marked = id from markedRead_clear hm]
    rfl
  have h4 : (coreAt u4 g).queue = (coreAt u3 g).queue ∧ (coreAt u4 g).running = (coreAt u3 g).running ∧ u4.vers = u3.vers := by
    unfold u4
    clear_value u3
    split
    · exact ⟨rfl, rfl, rfl⟩
    · exact ⟨(enqueueChecks_running ..).1, (enqueueChecks_running ..).2, rfl⟩
  rw [hfin]
  clear_value u4 u3 
  obtain ⟨hq, hr, hv4⟩ := h4
  refine issued_of_head hrun (hq.trans ?_) (hr.trans ?_) (hv4.trans hv)
  · rw [h3, h2.1, h1]
  · rw [h3, h2.2, h1]

theorem issued_of_noteWaits {s u v : State} {g : Nat} {pc : Piece} {t : Task} {hw : Hw} (h : Issued s u g pc t hw) (hv : Touches [.ctxs] u v) :
    Issued s v g pc t hw := by
  unfold Issued
  rw [hv.coreAt_eq, hv.vers_eq]
  exact h

/-- Issue of a piece that may issue. -/
theorem issue_issued {s : State} {g opcode : Nat} {pc : Piece} {t : Task} {hw : Hw} (hg : g < 145) (hr : headReady s g opcode = some (pc, t))
    (hm : MayIssue s pc t hw) : Issued s (issue s g opcode hw) g pc t hw := by
  obtain ⟨he, hmark, hroom, hchecks⟩ := hm
  have hp := issuePiece_issued (g := g) hg he hmark (cleanOf s pc t hw) (checksFor s pc t (workOf s pc t hw))
  unfold issue
  rw [hr]
  dsimp only
  rw [hroom, Bool.not_true, if_neg Bool.false_ne_true]
  split
  · exact hp 0
  next hne =>
    obtain hnil | ⟨far, hfar, hlen⟩ := hchecks
    · exact absurd (hnil ▸ rfl) hne
    · rw [hfar]
      dsimp only
      rw [if_pos hlen]
      exact issued_of_noteWaits (hp far) (noteWaits_touches _)

theorem issue_stalled {s : State} {g opcode : Nat} {pc : Piece} {t : Task} {hw : Hw} (hr : headReady s g opcode = some (pc, t))
    (hroom : splitRoom s pc.ctx (splitsNeeded s pc.ctx pc.step (workWrites (workOf s pc t hw))) = false) :
    Stalled s (issue s g opcode hw) g pc := by
  have hi : issue s g opcode hw = stallPiece s g pc := by
    unfold issue
    rw [hr]
    dsimp only
    rw [hroom, Bool.not_false, if_pos rfl]
  rw [hi]
  refine ⟨rfl, rfl, ?_, rfl, stallPiece_touches s g pc⟩
  show s.vers.stalls + bit (!s.vers.waited.contains pc) = _
  by_cases hw : pc ∈ s.vers.waited <;> simp [bit, hw]

/-- Every tile operation of the cores is the issue of a piece with its opcode. -/
theorem exec_tileOp {x : Nat × (Fin 136 → Hw → Instr)} (hx : x ∈ tileOps) (g : Fin 136) (hw : Hw) (s : State) :
    exec (x.2 g hw) s = .next (issue s g.val x.1 hw) := by
  simp only [tileOps, List.mem_cons, List.not_mem_nil, or_false] at hx
  rcases hx with rfl | rfl | rfl | rfl | rfl | rfl | rfl | rfl | rfl | rfl | rfl | rfl | rfl <;> rfl

/-- Settles O9: each operation is `issue` with its opcode, which issues the piece or stalls it. -/
theorem tileOps_issue : Obligations.TileOps :=
  ⟨fun _ hx g hw _ _ s hr hm => ⟨_, exec_tileOp hx g hw s, issue_issued (by omega) hr hm⟩,
    fun g _ _ _ _ hr hm => ⟨_, rfl, issue_issued g.isLt hr hm⟩,
    fun _ hx g hw _ _ s hr hf => ⟨_, exec_tileOp hx g hw s, issue_stalled hr hf⟩,
    fun _ _ _ _ _ hr hf => ⟨_, rfl, issue_stalled hr hf⟩⟩

end Sys2Proof.Machine
end

section
/-! SUPPORT. A HOLD still owed turns a watchdog's halt into a rollback, which lets the context run (10 R265, R268, 07 R192). -/

-- One theorem at a time: the stacks of parallel proofs add up to more than the memory the check gives.
set_option Elab.async false

namespace Sys2Proof.Machine

theorem Touches.recov_eq {W : List StatePart} {s t : State} (h : Touches W s t) (hw : W.contains .recov = false := by decide)
    (hset : W.contains .fenceSet = false := by decide) : t.recov = s.recov := by
  have h₁ : ({ s.recov with set := default } : Recov) = { t.recov with set := default } := h .recov hw
  have h₂ : s.recov.set = t.recov.set := h .fenceSet hset
  calc t.recov = { ({ t.recov with set := default } : Recov) with set := t.recov.set } := rfl
    _ = s.recov := by rw [← h₁, ← h₂]

theorem Touches.chans_eq {W : List StatePart} {s t : State} (h : Touches W s t) (hw : W.contains .chans = false := by decide) :
    t.chans = s.chans := (h .chans hw).symm

/-! ### A rollback -/

/-- A rollback takes a halt with CAUSE 3 back (10 R268 step 4). -/
theorem ctxAt_rollback_running {s : State} {c : Nat} (n : Nat) (hc : c < 15) (hs : (ctxAt s c).state = .halted) (hcause : (ctxAt s c).cause = 3)
    (hj : (ctxAt s c).joins = false) : (ctxAt (rollback s n) c).state = .running := by
  have hr : ctxAt (rollback s n) c = ctxBack n (ctxAt s c) := by
    rw [← (rolledBack_touches s n).ctxAt_eq c]
    unfold rollback ctxAt
    extract_lets u
    rw [nth_ofFn _ _ (by omega), if_pos hc, nth_eq_getElem _ _ (by omega)]
    rfl
  rw [hr]
  simp [ctxBack, hs, hcause, hj]

/-- An abort word that carries HOLD alone. -/
def holdWord : Nat := 0x4000

theorem adoptNotices_holdWord (s : State) : adoptNotices s holdWord = s := by
  have hslots : ((upto 6).filter fun k => holdWord.testBit (8 + k)) = [] := by decide
  unfold adoptNotices
  rw [hslots]
  rfl

theorem waitStarts_role (s : State) (word : Nat) : (waitStarts s word).recov.role = s.recov.role := by
  unfold waitStarts
  split <;> rfl

theorem waitStarts_ctxs (s : State) (word : Nat) : (waitStarts s word).ctxs = s.ctxs := by
  unfold waitStarts
  split <;> rfl

theorem abortEnds_working {s : State} (n : Nat) (was : Role) (h : s.recov.role = .working) : abortEnds s n was = rollback s n := by
  rw [abortEnds, if_pos h]

/-- At a working member, which has no diagnosis replay, an abort word with HOLD alone brings a rollback. -/
theorem completeAbort_hold {s : State} (n : Nat) (hr : s.recov.role = .working) (hw : s.recov.wait = false) (ha : s.steps.replayActive = false) :
    ∃ v, completeAbort s n holdWord = rollback v n ∧ v.ctxs = s.ctxs := by
  have hends : waitEnds s = s := by rw [waitEnds, hw]; rfl
  unfold completeAbort
  rw [hends]
  extract_lets contributed ns s' steps u v was w x
  have hrep : replaying v = false := ha
  have hw : w = v := by
    unfold w was
    rw [show v.recov.role = .working from hr]
    rfl
  have hx : x.recov.role = .working ∧ x.ctxs = s.ctxs := by
    unfold x
    rw [hw, adoptNotices_holdWord, waitStarts_role, waitStarts_ctxs]
    exact ⟨hr, rfl⟩
  obtain ⟨hxr, hxc⟩ := hx
  refine ⟨x, ?_, hxc⟩
  rw [hrep, if_neg Bool.false_ne_true, if_neg (by rw [hxr]; decide), if_neg (by decide), abortEnds_working n was hxr]

/-- So the member's own abort contribution with HOLD alone brings one. -/
theorem contributeAbort_hold {s : State} {n : Nat} (hword : abortWord s n = holdWord) (hr : s.recov.role = .working) (hw : s.recov.wait = false)
    (ha : s.steps.replayActive = false) : ∃ v, contributeAbort s n = rollback v n ∧ v.ctxs = s.ctxs := by
  have ht := sendDown_touches
    { s with steps := { s.steps with contribAt := s.clk.now }, recov := { s.recov with holdOwed := false } } n holdWord allDirs
  obtain ⟨v, hv, hctxs⟩ := completeAbort_hold n ((congrArg Recov.role ht.recov_eq).trans hr) ((congrArg Recov.wait ht.recov_eq).trans hw)
    ((congrArg Steps.replayActive ht.steps_eq).trans ha)
  refine ⟨v, ?_, hctxs.trans ht.ctxs_eq⟩
  rw [← hv, contributeAbort, hword]

/-! ### A HOLD that is owed -/

/-- A working member, with no step open and nothing begun on channel 0, that owes its job a HOLD and nothing else. -/
structure OwesHold (s : State) : Prop where
  state : s.dev.state = .joined
  recov : s.recov = { role := .working, hold := true, holdOwed := true }
  steps : s.steps = {}
  chan  : chanAt s 0 = {}

/-- What a watchdog does before the step fails leaves that as it is. -/
theorem OwesHold.of_touches {s t : State} (h : OwesHold s) (ht : Touches [.clk, .host, .ctxs, .ledger, .fw, .sent, .free] s t) : OwesHold t where
  state := ht.devState_eq.trans h.state
  recov := ht.recov_eq.trans h.recov
  steps := ht.steps_eq.trans h.steps
  chan := by rw [chanAt, ht.chans_eq]; exact h.chan

/-- It contributes an abort with the HOLD at once, which comes back as a rollback. -/
theorem lossAbort_owesHold {s : State} (h : OwesHold s) (hh : heldByOwner s 1 = false) : ∃ v, lossAbort s = rollback v 1 ∧ v.ctxs = s.ctxs := by
  obtain ⟨hstate, hrecov, hsteps, hchan⟩ := h
  have hclose : stepClosing s = 1 := by rw [stepClosing, hsteps]; rfl
  have hplace : holdsPlace s = true := by rw [holdsPlace, hrecov, hstate]; rfl
  have hopens : lossAbort s = contributeAbort (openNext s) 1 := by
    rw [lossAbort, hclose, hh, hplace, hrecov, hsteps]
    rfl
  have hnext : openNext s = { s with steps := { older := some { step := 1 } } } := by
    rw [openNext, hclose, hsteps]
    rfl
  have hword : abortWord (openNext s) 1 = holdWord := by
    rw [hnext, abortWord, fenceBits, combinedFence]
    change pack [(8, 6, s.recov.notice.toNat), (14, 1, bit s.recov.hold), (15, 1, bit (s.recov.lostPend ≠ 0))] ||| combinedFence s 1 = holdWord
    rw [combinedFence, hchan, hrecov]
    decide
  rw [hopens]
  obtain ⟨v, hv, hctxs⟩ := contributeAbort_hold hword (by rw [hnext, hrecov]) (by rw [hnext, hrecov]) (by rw [hnext])
  exact ⟨v, hv, hctxs.trans (by rw [hnext])⟩

theorem failSteps_none {s : State} {b : BitVec 16} (h : s.steps = {}) : failSteps s b = lossAbort s := by
  have hs : ({ s with steps := { s.steps with older := s.steps.older.map (failOpen b), younger := s.steps.younger.map (failOpen b) } } : State) = s := by
    calc _ = { s with steps := {} } := by rw [h]; rfl
      _ = s := by rw [← h]
  rw [failSteps, hs, tryAbort, h]

/-- The watchdog's halt of a context does not stand. -/
theorem waitExpires_owesHold {s : State} {c : Nat} {task : Nat} {f : Ctx → Ctx} (h : OwesHold s) (hc : c < 15)
    (hstate : (f (ctxAt s c)).state = .running) (hj : (f (ctxAt s c)).joins = false)
    (hidle : ∀ k < 15, k ≠ c → (ctxAt s k).state ≠ .halted) : (ctxAt (waitExpires s c task f) c).state = .running := by
  unfold waitExpires
  extract_lets w
  have ht : Touches [.clk, .host, .ctxs, .ledger, .fw, .sent, .free] s (haltCtx w c 3 task) :=
    .step (haltCtx_touches w c 3 task) (by decide) (.step (unattributed_touches _) (by decide) (.step (onCtx_touches _ c f) (by decide)
      ((reach_touches s _).mono (by decide))))
  have hw : ctxAt w c = f (ctxAt s c) := by
    rw [(unattributed_touches _).ctxAt_eq, ctxAt_onCtx_same _ _ (by omega)]
    rfl
  have hk : ∀ k, k ≠ c → ctxAt (haltCtx w c 3 task) k = ctxAt s k := fun k hk => by
    rw [ctxAt_haltCtx_ne w 3 task (Ne.symm hk), (unattributed_touches _).ctxAt_eq, ctxAt_onCtx_ne _ _ (Ne.symm hk)]
    rfl
  have hhalt := ctxAt_haltCtx_running (s := w) 3 task (show c < 16 by omega) (by rw [hw, hstate])
  rw [hw] at hhalt
  generalize haltCtx w c 3 task = u at ht hk hhalt
  have hu := h.of_touches ht
  have hnone : heldByOwner u 1 = false := by
    rw [heldByOwner, List.any_eq_false]
    intro k hk15
    by_cases hkc : k = c
    · subst hkc
      rw [hhalt]
      simp
    · rw [hk k hkc]
      have := hidle k (by simpa [upto] using hk15) hkc
      simp [this]
  obtain ⟨v, hv, hctxs⟩ := lossAbort_owesHold hu hnone
  have hvc : ctxAt v c = ctxAt u c := by rw [ctxAt, hctxs]; rfl
  rw [failSteps_none hu.steps, hv]
  apply ctxAt_rollback_running 1 hc <;> rw [hvc, hhalt]
  exact hj

/-- A working member in a job that owes it a HOLD, and whose context 0 waits for the effect of a SIG. -/
def owedState : State :=
  { State.reset with
    dev := { on := true, state := .joined, phase := 6, inService := 255 }, recov := { role := .working, hold := true, holdOwed := true },
    ctxs := State.reset.ctxs.set 0 { state := .running, step := 1, prog := some default, sigs := [⟨0, 1, 0, 1, 1⟩] } }

theorem owedState_owesHold : OwesHold owedState := ⟨rfl, rfl, rfl, by decide +kernel⟩

theorem owedState_expires : ∃ u, exec (.pieceWatchdogExpiry (.sig 0)) owedState = .next u ∧ (ctxAt u 0).state = .running :=
  ⟨waitExpires owedState 0 0 fun x => { x with sigs := x.sigs.filter fun q => q.task ≠ 0 }, rfl,
    waitExpires_owesHold owedState_owesHold (by decide) (by decide +kernel) (by decide +kernel) (by decide +kernel)⟩

/-- Refutes O11: in its last clause, the failed step is contributed at once where a HOLD is owed, and the rollback lets the context run again. -/
theorem not_checkPieces : ¬ Obligations.CheckPieces := by
  intro ⟨_, _, _, _, _, _, _, _, _, _, hsig⟩
  obtain ⟨t, ht, hhalted, -⟩ := hsig 0 ⟨0, 1, 0, 1, 1⟩ owedState (by decide +kernel) (by decide +kernel) rfl rfl rfl
  obtain ⟨u, hu, hruns⟩ := owedState_expires
  injection hu.symm.trans ht with hut
  rw [hut] at hruns
  exact absurd (hruns.symm.trans hhalted) (by decide)

end Sys2Proof.Machine
end

section
/-! SUPPORT. A scale exchange whose ordinal wraps around to a COLL of its program: its error return makes that COLL outstanding again
(11 R310, 12 R323, R324). -/

-- One theorem at a time: the stacks of parallel proofs add up to more than the memory the check gives.
set_option Elab.async false

namespace Sys2Proof.Machine

/-! ### A maximum that goes into the exchange of its group (12 R319, R323) -/

/-- The state of a step in which the exchange of tensor `t` has begun with the own maximum `v`. -/
def exchOpened (s : State) (c t n : Nat) (v : BitVec 32) : State :=
  onStep s n fun o =>
    { o with exchanges := o.exchanges + 1, amaxes := o.amaxes ++ [{ ctx := c, tensor := t, value := v }], exchDone := o.exchDone.filter fun x => x ≠ (c, t) }

/-- The member of index 1 on the first axis starts the ring. -/
theorem giveMaximum_starts {s : State} {c t n a : Nat} {v : BitVec 32} {e : Tensor} {g : Group} (he : tensorAt (progAt s c) t = e)
    (hg : scaleGroup (progAt s c) e = g) (hs : e.scopeGroup = true) (hsize : groupSize g > 1) (ha : (phases g)[0]? = some a)
    (hi : ownIndex s g a = 1) :
    giveMaximum s c t n v = exchTake (sendLand (exchOpened s c t n v) c (exchOrdinal (progAt s c) t) n g
      ⟨a, 0, 1, 0, 0, rankWith g (ownRank s g) a (ringNext (lenOn g a) 1 true), toBytes 4 v.toNat⟩) c t n 4 := by
  have hbegin : exchBegin (exchOpened s c t n v) c t n 0 v = exchSend (exchOpened s c t n v) c t n a 0 1 v := by
    unfold exchBegin
    extract_lets g'
    rw [show g' = g from (congrArg (scaleGroup (progAt s c)) he).trans hg, ha]
    exact if_pos hi
  have hsend : exchSend (exchOpened s c t n v) c t n a 0 1 v = sendLand (exchOpened s c t n v) c (exchOrdinal (progAt s c) t) n g
      ⟨a, 0, 1, 0, 0, rankWith g (ownRank s g) a (ringNext (lenOn g a) 1 true), toBytes 4 v.toNat⟩ := by
    unfold exchSend
    extract_lets p g' rank
    rw [← hi]
    unfold rank
    rw [show g' = g from (congrArg (scaleGroup (progAt s c)) he).trans hg]
    rfl
  unfold giveMaximum
  extract_lets p e' u
  rw [show e' = e from he, show scaleGroup p e = g from hg, hs, Bool.true_and, if_pos (decide_eq_true hsize)]
  show exchTake (exchBegin (exchOpened s c t n v) c t n 0 v) c t n 4 = _
  rw [hbegin, hsend]

/-- What an execution leaves of its step and its context, before its task ends. -/
def pieceEnded (s : State) (t : Task) (r : Run) : State :=
  onCtx (onStep s r.piece.step (stepTakes t r)) r.piece.ctx fun x =>
    { x with left := pieceOff x.left r.piece.task, special := nub (x.special ++ specialTasks r) }

theorem runEnds_last {s : State} {t : Task} {r : Run} (h : ((ctxAt (pieceEnded s t r) r.piece.ctx).left.all fun x => x.1 ≠ r.piece.task) = true) :
    runEnds s t r = progress (taskEnds (pieceEnded s t r) t r) r.piece.step := by
  unfold runEnds
  extract_lets c n s₁ s₂
  rw [show s₂ = pieceEnded s t r from rfl, if_pos h]

theorem exec_pieceComplete {g : Fin 145} {which : Fin 2} {r : Run} {t : Task} {s : State} (hr : (coreAt s g.val).running[which.val]? = some r)
    (ht : taskAt s r.piece.ctx r.piece.task = some t) (hs : r.stale = false) :
    exec (.pieceComplete g which) s = .next (runEnds (onCore_ s g.val (runLeaves s.clk.now (usesArray t) which.val)) t r) := by
  show execPieceComplete g which s = _
  unfold execPieceComplete
  rw [hr]
  dsimp only
  rw [ht]
  dsimp only
  rw [hs, if_neg Bool.false_ne_true]

theorem openAt_onStep {s : State} {n : Nat} {f : OpenStep → OpenStep} {o : OpenStep} (h : openAt s n = some o) (hf : ∀ o, (f o).step = o.step) :
    openAt (onStep s n f) n = some (f o) := by
  unfold openAt onStep at *
  cases hq : s.steps.older with
  | none =>
    rw [hq] at h
    obtain ⟨hy, hn⟩ := Option.filter_eq_some_iff.mp h
    simp_all
  | some q =>
    rw [hq] at h
    by_cases hqn : q.step = n
    · simp_all
    · simp only [hqn, if_false] at h
      obtain ⟨hy, hn⟩ := Option.filter_eq_some_iff.mp h
      simp_all

/-- A step whose exchanges have not ended sends no mirror stream, so its progress leaves the contexts alone. -/
theorem progress_exchanging {s : State} {n : Nat} {o : OpenStep} (h : openAt s n = some o) (he : o.exchanges ≠ 0) :
    (progress s n).ctxs = s.ctxs := by
  unfold progress
  extract_lets done
  have ho := openAt_onStep (f := fun o => if done && decide (o.status = .dispatching) then { o with status := .checking } else o) h
    fun o => by split <;> rfl
  unfold streamMirror
  rw [ho]
  dsimp only
  rw [if_neg]
  · rfl
  · unfold mirrorDue
    split <;> simp [he]

/-! ### The counterexample -/

/-- A tensor whose scale is exchanged in group 0. -/
def exchanged : Tensor := { (default : Tensor) with format := 1, policy := 3, scopeGroup := true, dims := [1] }

/-- Two members along X. -/
def pairAlongX : Group := { barrier := false, order := 0, len := [2, 1, 1], stride := [1, 1, 1], notifyObj := none, channel := 2, bop := 0 }

def amaxTask : Task := { opcode := 0x29, cgroup := 0, halt := false, bunit := 0, bound := 1, body := .amax ⟨0, 0⟩ 1 }
def barrierTask : Task := { opcode := 0x30, cgroup := 0, halt := false, bunit := 0, bound := 1, body := .coll 5 0 0 ⟨0, 0⟩ 1 0 }

/-- An AMAX of tensor 1, then `n` COLLs. -/
def amaxThenColls (n : Nat) : Program :=
  { (default : Program) with tensors := [exchanged, exchanged], groups := [pairAlongX], tasks := amaxTask :: List.replicate n barrierTask }

/-- The exchange of tensor 1 counts on from the COLLs. -/
theorem exchOrdinal_amaxThenColls (n : Nat) : exchOrdinal (amaxThenColls n) 1 = n + 1 := by
  have hcolls : (List.replicate n barrierTask).filter isColl = List.replicate n barrierTask := List.filter_replicate_of_pos rfl
  have htasks : (amaxThenColls n).tasks.filter isColl = List.replicate n barrierTask := hcolls
  rw [exchOrdinal, collOrdinal, List.take_length, htasks, List.length_replicate]

/-- With as many tasks as a program image holds (NTASK of 07), the exchange of tensor 1 has the ordinal 2 ^ 22, which a landing header holds as
0: the ordinal of the first COLL. -/
def wrapProgram : Program := amaxThenColls (2 ^ 22 - 1)

/-- The execution of the AMAX, whose result is for tensor 1. -/
def wrapRun : Run := { piece := { ctx := 0, task := 0, unit := 0, step := 1 }, amax := some (1, 0) }

/-- A module at X = 1 with no link up, in step 1, whose first COLL has ended and whose AMAX is still on core 0. -/
def wrapState : State :=
  { State.reset with
    dev := { on := true, state := .joined, phase := 6, inService := 255 }, recov := { role := .working },
    dict := { State.reset.dict with latched := { State.reset.dict.latched with coords := 1 } }, steps := { older := some { step := 1 } },
    cores := State.reset.cores.set 0 { running := [wrapRun] },
    ctxs := State.reset.ctxs.set 0 { state := .running, step := 1, pos := 2, left := [(0, 1)], prog := some wrapProgram } }

/-- The AMAX has left core 0 and is outstanding no more. -/
def wrapEnded : State := pieceEnded (onCore_ wrapState 0 (runLeaves wrapState.clk.now (usesArray amaxTask) 0)) amaxTask wrapRun

/-- Its maximum is in the exchange. -/
def wrapOpened : State := exchOpened wrapEnded 0 1 1 0

/-- The first flit of the exchange, with its landing header. -/
def wrapFlit : CollFlit := ⟨0, 0, 1, 0, 0, 0, [0, 0, 0, 0]⟩
def wrapLand : Nat := landOf 1 0 (2 ^ 22) wrapFlit

theorem wrapOpened_sends : sendLand wrapOpened 0 (exchOrdinal wrapProgram 1) 1 pairAlongX
    ⟨0, 0, 1, 0, 0, rankWith pairAlongX (ownRank wrapEnded pairAlongX) 0 (ringNext (lenOn pairAlongX 0) 1 true), toBytes 4 0⟩ =
    routeFlit wrapOpened (ownHeader wrapOpened 0 (Config.landingPart (landKey wrapLand) % 8) 0 (collFlow 0 (2 ^ 22)))
      (collPayload wrapLand wrapFlit.data) none := by
  have hord : exchOrdinal wrapProgram 1 = 2 ^ 22 := exchOrdinal_amaxThenColls (2 ^ 22 - 1)
  have hrank : rankWith pairAlongX (ownRank wrapEnded pairAlongX) 0 (ringNext (lenOn pairAlongX 0) 1 true) = 0 := by decide +kernel
  have hdest : rankCoord wrapOpened pairAlongX 0 = 0 := by decide +kernel
  have hattempt : wrapOpened.steps.attempt = 0 := by decide +kernel
  have hdata : toBytes 4 0 = wrapFlit.data := by decide +kernel
  rw [hord, hrank, hdata]
  show startFlit wrapOpened (rankCoord wrapOpened pairAlongX 0) (Config.landingPart (landKey (landOf 1 wrapOpened.steps.attempt (2 ^ 22) wrapFlit)) % 8)
    (collFlow 0 (2 ^ 22)) (collPayload (landOf 1 wrapOpened.steps.attempt (2 ^ 22) wrapFlit) wrapFlit.data) = _
  rw [hdest, hattempt]
  rfl

/-- The state once that flit has gone out, with the partition that its landing takes. -/
def wrapSent (p : Nat) : State :=
  exchTake (routeFlit wrapOpened (ownHeader wrapOpened 0 p 0 (collFlow 0 (2 ^ 22))) (collPayload wrapLand wrapFlit.data) none) 0 1 1 4

/-- Whatever partition that is, the flit comes back and makes the COLL outstanding, while the exchange goes on. -/
theorem wrapSent_left (p : Fin 8) : (ctxAt (wrapSent p) 0).left = [(1, 1)] := by
  revert p
  decide +kernel

theorem wrapSent_exchanging (p : Fin 8) : (openAt (wrapSent p) 1).map (·.exchanges) = some 1 := by
  revert p
  decide +kernel

/-- The AMAX has no output and no halt flag, so its end only gives its maximum. -/
theorem taskEnds_wrap (s : State) : taskEnds s amaxTask wrapRun = giveMaximum s 0 1 1 0 := rfl

theorem giveMaximum_wrap : giveMaximum wrapEnded 0 1 1 0 = wrapSent (Config.landingPart (landKey wrapLand) % 8) := by
  have hp : progAt wrapEnded 0 = wrapProgram := rfl
  rw [giveMaximum_starts (e := exchanged) (g := pairAlongX) (a := 0) (by rw [hp]; rfl) (by rw [hp]; rfl) rfl (by decide) (by decide)
    (by decide +kernel), hp]
  exact congrArg (exchTake · 0 1 1 4) wrapOpened_sends

theorem wrapRun_running : (coreAt wrapState 0).running[0]? = some wrapRun := by decide +kernel

theorem wrapState_completes : exec (.pieceComplete 0 0) wrapState = .next (progress (giveMaximum wrapEnded 0 1 1 0) 1) := by
  rw [exec_pieceComplete (t := amaxTask) wrapRun_running rfl rfl, runEnds_last (by decide +kernel), taskEnds_wrap]
  rfl

/-- The COLL is outstanding again once the AMAX has completed. -/
theorem wrapState_left : (ctxAt (progress (giveMaximum wrapEnded 0 1 1 0) 1) 0).left = [(1, 1)] := by
  obtain ⟨o, ho, he⟩ := Option.map_eq_some_iff.mp (wrapSent_exchanging ⟨_, Nat.mod_lt (Config.landingPart (landKey wrapLand)) (by decide)⟩)
  rw [giveMaximum_wrap, ctxAt, progress_exchanging ho (by rw [he]; decide)]
  exact wrapSent_left ⟨_, Nat.mod_lt _ (by decide)⟩

/-- Refutes O10: in its first clause, the flit with which the piece's maximum enters an exchange comes back as unreachable, and a COLL whose
ordinal the landing header cannot tell from the exchange's becomes outstanding again. -/
theorem not_pieceCompletion : ¬ Obligations.PieceCompletion := by
  intro ⟨hends, _⟩
  obtain ⟨t, ht, -, hleft⟩ := hends 0 0 wrapRun amaxTask wrapState wrapRun_running rfl rfl (by decide)
  injection wrapState_completes.symm.trans ht with hut
  have hnil : pieceOff (ctxAt wrapState 0).left 0 = [] := by decide +kernel
  have hagain : (ctxAt t 0).left = [(1, 1)] := hut ▸ wrapState_left
  exact absurd (hagain.symm.trans (hleft.trans hnil)) (by decide)

end Sys2Proof.Machine
end

section
/-! SUPPORT. Migration, re-placement, regulator shares, scrubbing, row retirement and heat in the stacks (08 R213 to R217, 09 R228, R235 to R239). -/

-- One theorem at a time: the stacks of parallel proofs add up to more than the memory the check gives.
set_option Elab.async false

namespace Sys2Proof.Machine

/-! ### Parts that stand in a frame -/

theorem Touches.place_eq {W : List StatePart} {s t : State} (h : Touches W s t) (hw : W.contains .place = false := by decide) :
    t.place = s.place := (h .place hw).symm

theorem Touches.mem_eq {W : List StatePart} {s t : State} (h : Touches W s t) (hw : W.contains .mem = false := by decide) : t.mem = s.mem :=
  (h .mem hw).symm

theorem Touches.rw_eq {W : List StatePart} {s t : State} (h : Touches W s t) (key : Nat) (hw : W.contains .vals = false := by decide) :
    rw t key = rw s key := by
  have hv : s.dict.vals = t.dict.vals := h .vals hw
  simp only [rw, dictVal, hv]

/-! ### Entry values (20 R508) -/

/-- A value other than the default is the one found, in whatever order the list stands. -/
theorem assoc_setVal_same (l : List (Nat × Nat)) {key v dflt : Nat} (h : v ≠ dflt) : assoc? (setVal l key v dflt) key = some v := by
  induction l with
  | nil => simp [setVal, assoc?, h]
  | cons x r ih =>
    obtain ⟨k, w⟩ := x
    rw [setVal]
    by_cases hlt : key < k
    · simp [hlt, h, assoc?]
    · by_cases hk : key = k
      · simp [hk, h, assoc?]
      · simp [hlt, hk, Ne.symm hk, assoc?, ih]

/-- An entry reads what was put there, where that is not its default. -/
theorem rw_putValue_same (s : State) {key v : Nat} (h : v ≠ dfltOf key) : rw (putValue s key v) key = v := by
  unfold putValue
  split
  · assumption
  · show (assoc? (setVal s.dict.vals key v (dfltOf key)) key).getD _ = v
    rw [assoc_setVal_same _ h, Option.getD_some]

/-! ### Plans (08 R213 to R215) -/

/-- A move joins a plan only while that holds fewer than 64 (R214). -/
theorem addMove_length_le (s : State) {q : Plan} (m : Placed × Nat × Nat) (h : q.moves.length ≤ 64) : (addMove s q m).moves.length ≤ 64 := by
  unfold addMove
  split
  extract_lets n
  split
  · exact h
  · rename_i hadd
    have hlt : q.moves.length < 64 := by
      simp only [Bool.or_eq_true, decide_eq_true_eq, not_or] at hadd
      omega
    split
    · exact h
    · rw [List.length_append, List.length_singleton]
      exact hlt

theorem planOf_length_le (s : State) (moves : List (Nat × Nat × Fin 8 × Nat)) : (planOf s moves).length ≤ 64 :=
  List.foldlRecOn (motive := fun q : Plan => q.moves.length ≤ 64) _ _ (Nat.zero_le 64) fun _ hq m _ => addMove_length_le s m hq

theorem migrationPlanReady_gives {moves : List (Nat × Nat × Fin 8 × Nat)} {s : State} (h : mayPlan s = true) :
    Gives (.migrationPlanReady moves) s fun t => t.place.plan = s.place.plan ++ planOf s moves ∧ (planOf s moves).length ≤ 64 :=
  Gives.of (if_pos h) ⟨rfl, planOf_length_le s moves⟩

theorem length_mapWhere {α : Type} (l : List α) (p : α → Bool) (f : α → α) : (mapWhere l p f).length = l.length := List.length_map _

/-- What `f` gives holds of every element of the new list that still meets the condition, where `f` leaves the condition as it is. -/
theorem mapWhere_forall {α : Type} {l : List α} {p : α → Bool} {f : α → α} {P : α → Prop} (hP : ∀ a, P (f a)) :
    ∀ b ∈ mapWhere l p f, p b = true → P b := by
  intro b hb hp
  obtain ⟨a, -, rfl⟩ := List.mem_map.mp hb
  by_cases ha : p a = true
  · rw [if_pos ha]
    exact hP a
  · rw [if_neg ha] at hp
    exact absurd hp ha

theorem migrationCopyDone_gives (c n : Nat) (s : State) :
    Gives (.migrationCopyDone c n) s fun t => t.place.plan.length = s.place.plan.length ∧
      ∀ m ∈ t.place.plan, m.ctx = c → m.tensor = n → m.copied = true :=
  Gives.of rfl ⟨length_mapWhere _ _ _, fun m hm hc hn =>
    mapWhere_forall (P := fun m : Move => m.copied = true) (fun _ => rfl) m hm (by simp [hc, hn])⟩

theorem migrationEnableWrite_gives {src : Src} {s : State} (h : Passes s src 0x500001 1 0 0) :
    Gives (.migrationEnableWrite src) s fun t => t.place.plan = [] ∧ rw t 0x500001 = 0 := by
  refine Gives.accepted h rfl fun t ht => ⟨by rw [ht.place_eq]; rfl, ?_⟩
  rw [ht.rw_eq]
  exact rw_putValue_same s (by decide)

/-! ### Re-placement (08 R217) -/

theorem replacementDone_fits {p : Fin 8} {r : List Nat} {s : State} (hr : s.place.replacing = p.val :: r) (hb : ostlerBusy s 0 = false)
    (hn : replaceTrouble s p.val = none) :
    Gives (.replacementDone true p) s fun t => t.place.replacing = r ∧ t.place.gen = s.place.gen + 1 ∧ Touches [.place] s t := by
  have he : exec (.replacementDone true p) s = .next (replacementFits s p.val) := by
    show execReplacementDone true p s = _
    simp [execReplacementDone, hr, hb, hn]
  refine Gives.of he ⟨?_, rfl, replacementFits_touches s p.val⟩
  show s.place.replacing.drop 1 = r
  rw [hr, List.drop_one, List.tail_cons]

/-- No gallop run keeps a module from OUT_OF_SERVICE. -/
theorem changeState_outOfService (s : State) : (changeState s .outOfService).dev.state = .outOfService := by
  unfold changeState
  split
  · assumption
  · extract_lets bad u
    have hbad : bad = false := by simp [bad]
    rw [hbad, if_neg Bool.false_ne_true]
    exact setState_state _ _

theorem outOfService_state {s : State} (h : s.dev.state ≠ .boot) : (outOfService s).dev.state = .outOfService := by
  rw [outOfService, if_neg h]
  exact changeState_outOfService s

/-- Where the map no longer fits, a running context 0 halts at the task, and the module leaves service. -/
theorem replacementFails_spec {s : State} (p task : Nat) (hc : (ctxAt s 0).state = .running) (hb : s.dev.state ≠ .boot) :
    (replacementFails s p task).place.status = 0x21 + 256 * p ∧
      ctxAt (replacementFails s p task) 0 = { ctxAt s 0 with state := .halted, cause := 5, causeTask := task } ∧
      (replacementFails s p task).dev.state = .outOfService := by
  unfold replacementFails
  extract_lets _ u
  have hu : ctxAt u 0 = ctxAt s 0 := rfl
  have hh := haltCtx_touches u 0 5 task
  have ho := outOfService_touches (haltCtx u 0 5 task)
  refine ⟨?_, ?_, outOfService_state ?_⟩
  · rw [ho.place_eq, hh.place_eq]
  · rw [ho.ctxAt_eq, ctxAt_haltCtx_running 5 task (by decide) (by rw [hu, hc]), hu]
  · rw [hh.devState_eq]
    exact hb

theorem replacementDone_fails {p : Fin 8} {task : Nat} {r : List Nat} {s : State} (hr : s.place.replacing = p.val :: r)
    (hb : ostlerBusy s 0 = false) (ht : replaceTrouble s p.val = some task) (hc : (ctxAt s 0).state = .running) (hd : s.dev.state ≠ .boot) :
    Gives (.replacementDone false p) s fun t => t.place.status = 0x21 + 256 * p.val ∧ (ctxAt t 0).state = .halted ∧ (ctxAt t 0).cause = 5 ∧
      (ctxAt t 0).causeTask = task ∧ t.dev.state = .outOfService := by
  have he : exec (.replacementDone false p) s = .next (replacementFails s p.val task) := by
    show execReplacementDone false p s = _
    simp [execReplacementDone, hr, hb, ht]
  obtain ⟨hstatus, hctx, hstate⟩ := replacementFails_spec p.val task hc hd
  refine Gives.of he ⟨hstatus, ?_, ?_, ?_, hstate⟩ <;> rw [hctx]

/-! ### Regulator shares (09 R228) -/

theorem regulatorSharesWrite_gives {src : Src} {v : BitVec 64} {s : State} (h : Passes s src 0x500040 8 v.toNat (sharesOwn v.toNat)) :
    Gives (.regulatorSharesWrite src v) s fun t => t.mem.sharesNext = some v ∧ t.mem.shares = s.mem.shares := by
  refine Gives.accepted h rfl fun t ht => ?_
  rw [ht.mem_eq]
  exact ⟨congrArg some (BitVec.eq_of_toNat_eq (Nat.mod_eq_of_lt v.isLt)), rfl⟩

/-! ### Scrubbing and row retirement (09 R235, R236) -/

theorem touches_memUpdate (s : State) (m : MemHealth) : Touches [.mem] s { s with mem := m } := by
  intro part hp
  cases part
  case mem => exact absurd hp (by decide)
  all_goals rfl

theorem patrolScrub_gives {p : Fin 8} {passDone : Bool} {s : State} (h : s.dev.inService.getLsbD p.val = true) :
    Gives (.patrolScrub p none passDone) s fun t => t.mem.passes = s.mem.passes + bit passDone ∧
      nth t.mem.scrubPos p.val 0 = (if passDone then 0 else nth s.mem.scrubPos p.val 0 + 1) ∧ Touches [.mem] s t :=
  Gives.of (if_pos h) ⟨rfl, nth_updN_same _ _ _ p.isLt, touches_memUpdate s _⟩

theorem rowCopyDone_gives {p : Fin 8} {k : RowCopy} {s : State} (h : s.mem.copying.find? (fun c => c.part = p.val) = some k) :
    Gives (.rowCopyDone p) s fun t => t.mem.rows = s.mem.rows ++ [(k.part, k.row)] ∧ t.mem.copying = s.mem.copying.erase k ∧
      t.mem.poisoned = s.mem.poisoned ++ k.bad.map fun b => (k.part, k.row, b.1, b.2) := by
  refine ⟨_, show execRowCopyDone p s = _ by rw [execRowCopyDone, h], ?_⟩
  beta_reduce
  rw [(faultEvent_touches _ _).mem_eq]
  exact ⟨rfl, rfl, rfl⟩

/-! ### Heat in the stacks (09 R239) -/

theorem mem_ite_of_eq {c : Prop} [Decidable c] {x y : State} (h : x.mem = y.mem) : (if c then x else y).mem = y.mem := by
  split
  · exact h
  · rfl

/-- The events and the emergencies of a sample leave the memory part as the sample makes it. -/
theorem dramTempSample_mem {n : Fin 16} (temp : Option Int) (dieMax : Int) {s : State} (h : s.domains.getLsbD (5 * (n.val / 2) + 4) = true) :
    Gives (.dramTempSample n temp dieMax) s fun t =>
      t.mem = { s.mem with stk := updN s.mem.stk n.val fun _ => stackSampled (nth s.mem.stk n.val {}) temp dieMax (emerPresent s (.dramHot n)) } :=
  ⟨_, if_neg (by simp [h]),
    (mem_ite_of_eq (raiseEmer_touches _ (.dramHot n)).mem_eq).trans
      ((mem_ite_of_eq (raiseEmer_touches _ (.logicHot _)).mem_eq).trans (mem_ite_of_eq (faultEvent_touches _ _).mem_eq))⟩

theorem dramTempSample_gives {n : Fin 16} (temp : Option Int) (dieMax : Int) {s : State} (h : s.domains.getLsbD (5 * (n.val / 2) + 4) = true) :
    Gives (.dramTempSample n temp dieMax) s fun t => (nth t.mem.stk n.val {}).temp = layerTemp (nth s.mem.stk n.val {}) temp dieMax := by
  obtain ⟨t, ht, hmem⟩ := dramTempSample_mem temp dieMax h
  refine Gives.of ht ?_
  rw [hmem, nth_updN_same _ _ _ n.isLt]
  rfl

/-- Settles O26, command by command. -/
theorem placementAndMemory : Obligations.PlacementAndMemory :=
  ⟨fun _ _ h => migrationPlanReady_gives h, migrationCopyDone_gives, fun _ _ h => migrationEnableWrite_gives h,
    fun _ _ _ hr hb hn => replacementDone_fits hr hb hn, fun _ _ _ _ hr hb ht hc hd => replacementDone_fails hr hb ht hc hd,
    fun _ _ _ h => regulatorSharesWrite_gives h, fun _ _ _ h => patrolScrub_gives h, fun _ _ _ h => rowCopyDone_gives h,
    fun _ temp dieMax _ h _ => dramTempSample_gives temp dieMax h⟩

end Sys2Proof.Machine
end

section
/-! SUPPORT. The staged bytes: what a store leaves to be read, and the host's accesses to the staging aperture (09 R234, R241). -/

namespace Sys2Proof.Machine

/-! ### Stored bytes (09 R241) -/

/-- A byte outside the stored range reads as before. -/
theorem memGet_memPut_outside {m : Mem} {off a : Nat} {bs : List Byte} (hm : m.wf = true) (ha : a < off ∨ off + bs.length ≤ a) :
    memGet (memPut m off bs) a = memGet m a := by
  induction bs generalizing m off with
  | nil => rfl
  | cons b bs ih =>
    rw [List.length_cons] at ha
    calc memGet (memPut (memSet m off b) (off + 1) bs) a
        = memGet (memSet m off b) a := ih (memSet_wf off b hm) (by omega)
      _ = memGet m a := by rw [memGet_memSet off a b hm, if_neg (by omega)]

/-- The first byte, once stored, lies before those stored after it, which leave it as it is. -/
theorem memTake_memPut {m : Mem} (off : Nat) (bs : List Byte) (hm : m.wf = true) : memTake (memPut m off bs) off bs.length = bs := by
  induction bs generalizing m off with
  | nil => rfl
  | cons b bs ih =>
    have hset := memSet_wf off b hm
    have hfirst : memGet (memPut (memSet m off b) (off + 1) bs) off = b := by
      rw [memGet_memPut_outside hset (.inl (Nat.lt_succ_self off)), memGet_memSet off off b hm, if_pos rfl]
    exact congrArg₂ List.cons hfirst (ih (off + 1) hset)

/-- Settles O52, by induction on the bytes, with the rule of one stored byte for each. -/
theorem stagedBytes_readBack : Obligations.StagedBytes :=
  fun _ off bs hm => ⟨memPut_wf off bs hm, memTake_memPut off bs hm, fun _ ha => memGet_memPut_outside hm ha⟩

/-! ### The host's accesses (09 R234, R241) -/

/-- An access of at least one byte, inside the aperture and outside every dark partition, is carried out while the port is up. -/
theorem cxlMemAccess_inside {off n : Nat} {w : Option (List Byte)} {len : Nat} (err : Option Ecc) {s : State}
    (hw : (w.map List.length).getD len = n) (hup : cxlUp s = true) (hn : n ≠ 0) (hin : off + n ≤ 2 ^ 36) (hdark : stageDark s off n = false) :
    exec (.cxlMemAccess off w len err) s = .next (apertureAccess s off w n err) := by
  subst hw
  change execCxlMemAccess off w len err s = _
  unfold execCxlMemAccess
  extract_lets n
  rw [if_neg (Nat.not_lt.mpr hin), if_neg (by simp [hup, n, hn]), if_neg (by simp [n, hdark])]

theorem apertureAccess_write {off len : Nat} (bs : List Byte) {s : State} (haway : stageAway s off len = false) :
    apertureAccess s off (some bs) len none = stagePut s off bs :=
  if_neg (by simp [haway])

theorem apertureAccess_read {off len : Nat} {s : State} (haway : stageAway s off len = false) :
    apertureAccess s off none len none = emit s (.memData (memTake s.staging off len) (stageBad s off len)) :=
  if_neg (by simp [haway])

/-- A host write is a store into the staged bytes, which ends the poison of the words it fills. -/
theorem cxlMemAccess_write {off : Nat} (len : Nat) {bs : List Byte} {s : State} (hup : cxlUp s = true) (hbs : bs ≠ [])
    (hin : off + bs.length ≤ 2 ^ 36) (haway : stageAway s off bs.length = false) (hdark : stageDark s off bs.length = false) :
    exec (.cxlMemAccess off (some bs) len none) s = .next (stagePut s off bs) := by
  have hn : bs.length ≠ 0 := mt List.length_eq_zero_iff.mp hbs
  rw [cxlMemAccess_inside (w := some bs) (n := bs.length) none rfl hup hn hin hdark, apertureAccess_write bs haway]

/-- A host read is a reply with the staged bytes and their poison. -/
theorem cxlMemAccess_read {off len : Nat} {s : State} (hup : cxlUp s = true) (hlen : len ≠ 0) (hin : off + len ≤ 2 ^ 36)
    (haway : stageAway s off len = false) (hdark : stageDark s off len = false) :
    exec (.cxlMemAccess off none len none) s = .next (emit s (.memData (memTake s.staging off len) (stageBad s off len))) := by
  rw [cxlMemAccess_inside (w := none) (n := len) none rfl hup hlen hin hdark, apertureAccess_read haway]

/-- Settles O27: a write by the rules of stored bytes, a read by the reply it sends, an access outside by the decoder's range. -/
theorem apertureAccess_staged : Obligations.ApertureAccess := by
  refine ⟨fun off len bs s hup hbs hin haway hdark hwf => ?_, fun off len s hup hlen hin haway hdark => ?_, fun off len w err s hout => ?_⟩
  · exact Gives.of (cxlMemAccess_write len hup hbs hin haway hdark)
      ⟨memTake_memPut off bs hwf, fun _ ha => memGet_memPut_outside hwf ha, stagePut_touches s off bs⟩
  · exact Gives.of (cxlMemAccess_read hup hlen hin haway hdark) ⟨emit_sent _ _, emit_touches _ _⟩
  · exact execCxlMemAccess_outside off w len err s hout

end Sys2Proof.Machine
end

section
/-! SUPPORT. The verdict: an abort word that brings a rollback and nothing more, and a word that stands until the combined word (10 R260 to R268). -/

namespace Sys2Proof.Machine

/-! ### The wait of 15 R414: what its start and end leave of the recovery part -/

theorem waitEnds_recov (s : State) : ∃ w, (waitEnds s).recov = { s.recov with wait := w } := by
  unfold waitEnds
  split
  · exact ⟨s.recov.wait, rfl⟩
  · exact ⟨false, rfl⟩

theorem waitStarts_recov (s : State) (word : Nat) : ∃ w f, (waitStarts s word).recov = { s.recov with wait := w, waitFrom := f } := by
  unfold waitStarts
  split
  · exact ⟨true, s.clk.now, rfl⟩
  · exact ⟨s.recov.wait, s.recov.waitFrom, rfl⟩

/-! ### What an abort and a rollback make of the record of steps (10 R265, R268, R269) -/

/-- An abort is counted, and the next attempt begins; commits and rollbacks stand. -/
structure CountsAbort (x y : Steps) : Prop where
  aborts    : y.aborts = x.aborts + 1
  attempt   : y.attempt = (x.attempt + 1) % 256
  rollbacks : y.rollbacks = x.rollbacks
  committed : y.committed = x.committed

/-- A rollback to step `n`: no step is open, and the replay of `n` is due; commits, aborts and the attempt stand. -/
structure RollsBack (n : Nat) (x y : Steps) : Prop where
  rollbacks : y.rollbacks = x.rollbacks + 1
  replayDue : y.replayDue = some n
  older     : y.older = none
  younger   : y.younger = none
  aborts    : y.aborts = x.aborts
  attempt   : y.attempt = x.attempt
  committed : y.committed = x.committed

theorem discardSteps_steps (s : State) (n : Nat) : ∃ d, (discardSteps s n).steps = { s.steps with discardHeld := d } := by
  unfold discardSteps
  extract_lets a b c
  split
  · exact ⟨true, rfl⟩
  · exact ⟨s.steps.discardHeld, rfl⟩

theorem rolledBack_steps (s : State) (n : Nat) : ∃ k w d, (rolledBack s n).steps = { s.steps with
    rollbacks := s.steps.rollbacks + 1, discarded := k, lastFailed := w, older := none, younger := none, lagFrom := none, discardHeld := d } := by
  unfold rolledBack
  extract_lets old steps u
  obtain ⟨d, hd⟩ := discardSteps_steps { s with steps := steps, results := resultsBack s.results } n
  exact ⟨_, _, d, (post_touches u _ _ _ _).steps_eq.trans hd⟩

theorem rollback_steps (s : State) (n : Nat) : RollsBack n s.steps (rollback s n).steps := by
  obtain ⟨k, w, d, hb⟩ := rolledBack_steps s n
  have hr : (rollback s n).steps = { (rolledBack s n).steps with replayDue := some n } := rfl
  rw [hr, hb]
  constructor <;> rfl

/-! ### An abort word that carries no notice and no loss (10 R265, 15 R414, R422) -/

/-- An abort word that names no slot and carries no JOB_LOST; whether it carries HOLD is left open. -/
structure OnlyAborts (word : Nat) : Prop where
  notices : ∀ k < 6, word.testBit (8 + k) = false
  lost    : word.testBit 15 = false

theorem adoptNotices_onlyAborts {word : Nat} (h : OnlyAborts word) (s : State) : adoptNotices s word = s := by
  have hslots : ((upto 6).filter fun k => word.testBit (8 + k)) = [] :=
    List.filter_eq_nil_iff.mpr fun k hk => by simp [h.notices k (List.mem_range.mp hk)]
  unfold adoptNotices
  rw [hslots]
  rfl

/-- At a working member, outside a diagnosis replay, such a word is counted as an abort and brings a rollback. -/
theorem completeAbort_onlyAborts {s : State} {word : Nat} (n : Nat) (h : OnlyAborts word) (hrole : s.recov.role = .working)
    (hreplay : s.steps.replayActive = false) :
    ∃ v, completeAbort s n word = rollback v n ∧ CountsAbort s.steps v.steps ∧
      v.recov.lostPend = s.recov.lostPend ∧ v.recov.holdOwed = s.recov.holdOwed := by
  obtain ⟨we, hends⟩ := waitEnds_recov s
  have hsteps := (waitEnds_touches s).steps_eq
  unfold completeAbort
  extract_lets contributed ns r old counted v was w x
  have hvr : v.recov = { s.recov with wait := we } := hends
  have hvs : CountsAbort s.steps v.steps := by rw [← hsteps]; constructor <;> rfl
  have hrep : replaying v = false := (congrArg Steps.replayActive hsteps).trans hreplay
  have hwas : was = .working := (congrArg Recov.role hvr).trans hrole
  have hw : w = v := if_neg (by rw [hwas]; decide)
  have hx : x = waitStarts v word := by unfold x; rw [hw, adoptNotices_onlyAborts h]
  obtain ⟨ws, wf, hstarts⟩ := waitStarts_recov v word
  have hxr : x.recov = { s.recov with wait := ws, waitFrom := wf } := by rw [hx, hstarts, hvr]
  have hxrole : x.recov.role = .working := (congrArg Recov.role hxr).trans hrole
  refine ⟨x, ?_, ?_, by rw [hxr], by rw [hxr]⟩
  · rw [hrep, if_neg Bool.false_ne_true, if_neg (by rw [hxrole]; decide), if_neg (by rw [h.lost]; decide), abortEnds_working n was hxrole]
  · rw [hx, (waitStarts_touches v word).steps_eq]
    exact hvs

/-- So does the member's own abort contribution with such a word, which sends the HOLD that it owes. -/
theorem contributeAbort_onlyAborts {s : State} {n : Nat} (h : OnlyAborts (abortWord s n)) (hrole : s.recov.role = .working)
    (hreplay : s.steps.replayActive = false) :
    ∃ v, contributeAbort s n = rollback v n ∧ CountsAbort s.steps v.steps ∧ v.recov.lostPend = s.recov.lostPend ∧ v.recov.holdOwed = false := by
  have ht := sendDown_touches { s with steps := { s.steps with contribAt := s.clk.now }, recov := { s.recov with holdOwed := false } } n
    (abortWord s n) allDirs
  obtain ⟨v, hv, ⟨hab, hatt, hrb, hcom⟩, hlost, howed⟩ := completeAbort_onlyAborts n h ((congrArg Recov.role ht.recov_eq).trans hrole)
    ((congrArg Steps.replayActive ht.steps_eq).trans hreplay)
  rw [ht.steps_eq] at hab hatt hrb hcom
  rw [ht.recov_eq] at hlost howed
  exact ⟨v, hv, ⟨hab, hatt, hrb, hcom⟩, hlost, howed⟩

/-! ### The module's own abort (10 R261, R265) -/

/-- Bit 15 of a contribution is JOB_LOST. -/
theorem fenceBits_lost (s : State) : (fenceBits s).testBit 15 = decide (s.recov.lostPend ≠ 0) := by
  simp only [fenceBits, pack, List.foldl, Nat.testBit_or, Nat.testBit_shiftLeft, Nat.testBit_mod_two_pow, -Nat.reducePow]
  by_cases hlost : s.recov.lostPend = 0 <;> simp [hlost, bit]

theorem lossAbort_nothingOwed {s : State} (hlost : s.recov.lostPend = 0) (howed : s.recov.holdOwed = false) : lossAbort s = s :=
  if_neg (by simp [hlost, howed])

theorem ownAbort_onlyAborts {o : OpenStep} {s : State} (ho : s.steps.older = some o) (h : OnlyAborts (abortWord s o.step))
    (hrole : s.recov.role = .working) (hreplay : s.steps.replayActive = false) :
    ∃ v, ownAbort s = rollback v o.step ∧ CountsAbort s.steps v.steps := by
  have hlost : s.recov.lostPend = 0 := by
    have hbit : (fenceBits s).testBit 15 = false := (Bool.or_eq_false_iff.mp ((Nat.testBit_or ..).symm.trans h.lost)).1
    simpa [fenceBits_lost] using hbit
  obtain ⟨v, hv, hcounts, hvlost, hvowed⟩ := contributeAbort_onlyAborts h hrole hreplay
  have hrecov : (rollback v o.step).recov = v.recov := (rollback_touches v o.step).recov_eq
  refine ⟨v, ?_, hcounts⟩
  calc ownAbort s = lossAbort (contributeAbort s o.step) := by rw [ownAbort, ho]
    _ = lossAbort (rollback v o.step) := by rw [hv]
    _ = rollback v o.step := lossAbort_nothingOwed (by rw [hrecov, hvlost, hlost]) (by rw [hrecov, hvowed])

/-! ### The module's own word (12 R331) -/

theorem chanAt_onChan_same (s : State) {k : Nat} (f : Chan → Chan) (h : k < 64) : chanAt (onChan s k f) k = f (chanAt s k) :=
  nth_updN_same _ _ _ h

/-- A phase that begins sends frames, which are no part of a channel, and leaves the own word. -/
theorem enterPhase_own (s : State) {k : Nat} (ph : Nat) (w : BitVec 32) (hk : k < 64) : (chanAt (enterPhase s k ph w) k).own = (chanAt s k).own := by
  unfold enterPhase
  extract_lets u
  have hu : (chanAt u k).own = (chanAt s k).own := by unfold u; rw [chanAt_onChan_same s _ hk]
  split
  · rw [chanAt, (sendUp_touches _ k ph false).chans_eq, (sendUp_touches u k ph true).chans_eq]
    exact hu
  · exact hu

theorem chanGo_own (s : State) {k : Nat} (fuel : Nat) (hk : k < 64) : (chanAt (chanGo s k fuel) k).own = (chanAt s k).own := by
  induction fuel generalizing s with
  | zero => rfl
  | succ fuel ih =>
    unfold chanGo
    extract_lets c
    split
    next => rfl
    next w _ =>
      split
      · rfl
      · split
        · exact (ih _).trans (enterPhase_own s _ _ hk)
        · split
          · exact (ih _).trans (enterPhase_own s _ _ hk)
          · rfl

theorem chanOwn_own (s : State) {k : Nat} (g op ctx : Nat) (w : BitVec 32) (hk : k < 64) : (chanAt (chanOwn s k g op ctx w) k).own = some w := by
  unfold chanOwn
  extract_lets u
  rw [chanGo_own _ 4 hk, enterPhase_own u 0 w hk, chanAt_onChan_same s _ hk]

theorem finishStep_waits {s : State} (h : chanWordOf s 0 = none) : finishStep s = s := by rw [finishStep, h]

/-! ### A clean contribution (10 R261, 12 R331) -/

/-- The record of steps with a clean contribution made for the older step. -/
def cleanSteps (s : State) (o : OpenStep) : Steps :=
  { s.steps with older := some { o with status := .contributed }, contribAt := s.clk.now, lagOwn := fld (cleanContribution s).toNat 31 16 }

/-- A clean contribution is one to channel 0, and the step's end where a combined word is there. -/
theorem contributeClean_eq (s : State) (o : OpenStep) : contributeClean s o =
    finishStep (chanOwn { s with steps := cleanSteps s o } 0 (gen0 o.step) 0 0xF (cleanContribution s)) := rfl

/-- Without a combined word yet, it is the channel's own word and the step's status. -/
theorem contributeClean_waits {o : OpenStep} {s : State}
    (hwait : chanWordOf (chanOwn { s with steps := cleanSteps s o } 0 (gen0 o.step) 0 0xF (cleanContribution s)) 0 = none) :
    (contributeClean s o).steps = cleanSteps s o ∧ (chanAt (contributeClean s o) 0).own = some (cleanContribution s) := by
  rw [contributeClean_eq, finishStep_waits hwait]
  exact ⟨(chanOwn_touches _ _ _ _ _ _).steps_eq, chanOwn_own _ _ _ _ _ (by decide)⟩

/-! ### VERDICT_CONTRIBUTE (10 R260 to R262) -/

section
variable {o : OpenStep} {s : State} (ho : s.steps.older = some o)
include ho

theorem verdictContribute_open : exec .verdictContribute s =
    if !mayContribute s then .next s
    else if verdictFails s o then .next (ownAbort s)
    else if verdictClean s o then .next (contributeClean s o)
    else .next s := by
  change execVerdictContribute s = _
  simp only [execVerdictContribute, ho]

theorem verdictContribute_fails (hmay : mayContribute s = true) (hfails : verdictFails s o = true) :
    exec .verdictContribute s = .next (ownAbort s) := by
  rw [verdictContribute_open ho, hmay, Bool.not_true, if_neg Bool.false_ne_true, if_pos hfails]

theorem verdictContribute_clean (hmay : mayContribute s = true) (hfails : verdictFails s o = false) (hclean : verdictClean s o = true) :
    exec .verdictContribute s = .next (contributeClean s o) := by
  rw [verdictContribute_open ho, hmay, hfails, Bool.not_true, if_neg Bool.false_ne_true, if_neg Bool.false_ne_true, if_pos hclean]

theorem verdictContribute_undecided (hfails : verdictFails s o = false) (hclean : verdictClean s o = false) :
    exec .verdictContribute s = .next s := by
  rw [verdictContribute_open ho, hfails, hclean, if_neg Bool.false_ne_true, if_neg Bool.false_ne_true, ite_self]

end

/-- Settles O14: an abort by the rollback that its word brings, a clean word by the channel that holds it, nothing while the verdict is open. -/
theorem verdict : Obligations.Verdict := by
  refine ⟨fun o s ho hmay hfails hreplay hrole hbits => ?_, fun o s ho hmay hfails hclean hwait => ?_, fun o s => verdictContribute_undecided⟩
  · have hword : OnlyAborts (abortWord s o.step) :=
      ⟨fun k hk => by rw [hbits k (by omega), decide_eq_false (by omega), Bool.false_and], hbits 7 (by decide)⟩
    obtain ⟨v, hv, ha⟩ := ownAbort_onlyAborts ho hword hrole hreplay
    have hr := rollback_steps v o.step
    exact Gives.of ((verdictContribute_fails ho hmay hfails).trans (congrArg _ hv))
      ⟨hr.aborts.trans ha.aborts, hr.attempt.trans ha.attempt, by rw [hr.rollbacks, ha.rollbacks], hr.replayDue, hr.older, hr.younger,
        hr.committed.trans ha.committed⟩
  · obtain ⟨hsteps, hown⟩ := contributeClean_waits hwait
    exact Gives.of (verdictContribute_clean ho hmay hfails hclean) ⟨by rw [hsteps]; rfl, by rw [hsteps]; rfl, hown, by rw [hsteps]; rfl⟩

end Sys2Proof.Machine
end

section
/-! SUPPORT. The links and the module's six sides (11 R278 to R310): what an update of one leaves to be read, what the sending, routing and
re-sending of flits leaves of every link and side, and how a link goes out of service. -/

-- One theorem at a time: the stacks of parallel proofs add up to more than the memory the check gives.
set_option Elab.async false

namespace Sys2Proof.Machine

/-! ### Parts that stand in a frame -/

theorem Touches.links_eq {W : List StatePart} {s t : State} (h : Touches W s t) (hw : W.contains .links = false := by decide) :
    t.links = s.links := (h .links hw).symm

theorem Touches.topo_eq {W : List StatePart} {s t : State} (h : Touches W s t) (hw : W.contains .topo = false := by decide) :
    t.topo = s.topo := (h .topo hw).symm

theorem Touches.clk_eq {W : List StatePart} {s t : State} (h : Touches W s t) (hw : W.contains .clk = false := by decide) :
    t.clk = s.clk := (h .clk hw).symm

theorem Touches.dict_eq {W : List StatePart} {s t : State} (h : Touches W s t) (hw : W.contains .dict = false := by decide)
    (hv : W.contains .vals = false := by decide) : t.dict = s.dict := (Dict.eq_of_parts (h .vals hv) (h .dict hw)).symm

theorem Touches.linkAt_eq {W : List StatePart} {s t : State} (h : Touches W s t) (l : Nat) (hw : W.contains .links = false := by decide) :
    linkAt t l = linkAt s l := by rw [linkAt, h.links_eq hw]; rfl

/-! ### One link and one side -/

@[simp] theorem linkAt_onLink_same (s : State) {l : Nat} (f : Link → Link) (h : l < 48) : linkAt (onLink s l f) l = f (linkAt s l) :=
  nth_updN_same _ _ _ h

/-- A reading of every link that an update of one does not change. -/
theorem linkAt_onLink_field {α : Type} (g : Link → α) (s : State) (l : Nat) {f : Link → Link} (j : Nat) (h : ∀ k, g (f k) = g k) :
    g (linkAt (onLink s l f) j) = g (linkAt s j) := by
  unfold linkAt
  rw [onLink_links, nth_updN]
  split
  · rw [h]
  · rfl

/-- The state with the side in direction `d` changed. -/
def onSide (s : State) (d : Dir) (f : Side → Side) : State := { s with topo := { s.topo with sides := updN s.topo.sides (dirCode d) f } }

@[simp] theorem sideOf_onSide_same (s : State) (d : Dir) (f : Side → Side) : sideOf (onSide s d f) d = f (sideOf s d) :=
  nth_updN_same _ _ _ (by cases d <;> decide)

theorem sideOf_congr {s t : State} (h : t.topo.sides = s.topo.sides) (d : Dir) : sideOf t d = sideOf s d := by rw [sideOf, h]; rfl

/-! ### What the traffic of flits leaves of the links and the sides (R280, R306, R307) -/

/-- A link without its traffic: the buffers, the SEQ of the next flit and the credits. -/
def Link.idle (k : Link) : Link := { k with txSeq := 0, txBuf := [], waits := [], txCred := default, credits := default }

/-- From `s` to `t` the links differ by traffic alone, and no side differs. -/
structure Carries (s t : State) : Prop where
  links : ∀ l, (linkAt t l).idle = (linkAt s l).idle
  sides : t.topo.sides = s.topo.sides

theorem Carries.of_eq {s t : State} (hl : t.links = s.links := by rfl) (hs : t.topo.sides = s.topo.sides := by rfl) : Carries s t :=
  ⟨fun l => by rw [linkAt, hl]; rfl, hs⟩

theorem Carries.trans {s t u : State} (h : Carries s t) (k : Carries t u) : Carries s u :=
  ⟨fun l => (k.links l).trans (h.links l), k.sides.trans h.sides⟩

theorem Carries.fold {α : Type} {f : State → α → State} (hf : ∀ s a, Carries s (f s a)) (l : List α) (s : State) : Carries s (l.foldl f s) :=
  List.foldlRecOn (motive := Carries s) l f .of_eq fun _ h a _ => h.trans (hf _ a)

theorem Touches.carries {W : List StatePart} {s t : State} (h : Touches W s t) (hl : W.contains .links = false := by decide)
    (ht : W.contains .topo = false := by decide) : Carries s t := .of_eq (h.links_eq hl) (by rw [h.topo_eq ht])

/-- A reading of a link that its traffic does not change. -/
theorem Carries.reads {α : Type} {s t : State} (h : Carries s t) (g : Link → α) (l : Nat) (hg : ∀ k, g k.idle = g k := by exact fun _ => rfl) :
    g (linkAt t l) = g (linkAt s l) := by rw [← hg, h.links, hg]

theorem onLink_carries (s : State) (l : Nat) {f : Link → Link} (h : ∀ k, (f k).idle = k.idle) : Carries s (onLink s l f) :=
  ⟨fun j => linkAt_onLink_field Link.idle s l j h, rfl⟩

theorem pushFlit_carries (s : State) (l : Nat) (f : Flit) : Carries s (pushFlit s l f) := by
  unfold pushFlit
  extract_lets k f'
  split
  · exact (onLink_carries s l (f := fun k => linkSends k f') fun _ => rfl).trans .of_eq
  · exact onLink_carries s l fun _ => rfl

theorem reportError_carries (s : State) (h : BitVec 96) (payload : List Byte) : Carries s (reportError s h payload) := by
  unfold reportError
  extract_lets _ u
  split
  · exact .of_eq
  · exact .of_eq
  · exact .of_eq

theorem sendHop_carries (s : State) (h : BitVec 96) (payload : List Byte) (came : Option Dir) : Carries s (sendHop s h payload came) := by
  unfold sendHop
  split
  · split
    · exact (Carries.of_eq (t := countDetour s _ _)).trans (pushFlit_carries _ _ _)
    · exact .of_eq
  · split
    · exact reportError_carries s h payload
    · exact .of_eq
  · exact .of_eq

theorem routeFlit_carries (s : State) (h : BitVec 96) (payload : List Byte) (came : Option Dir) : Carries s (routeFlit s h payload came) := by
  unfold routeFlit
  split
  · unfold unroutable
    extract_lets _ u
    have hu : Carries s u := .of_eq
    split
    · exact hu
    · exact hu.trans (sendHop_carries u _ _ _)
  · exact sendHop_carries s _ _ _
  · exact sendHop_carries s _ _ _

theorem resend_carries (s : State) (d : Dir) (fs : List Flit) : Carries s (resend s d fs) :=
  Carries.fold (fun s f => by
    split
    · exact pushFlit_carries s _ f
    · exact routeFlit_carries s _ _ _) fs s

theorem controlOn_carries (s : State) (d : Dir) (payload : List Byte) : Carries s (controlOn s d payload) := by
  unfold controlOn
  extract_lets h
  split
  · split
    · exact pushFlit_carries s _ _
    · exact .of_eq
  · exact .of_eq

theorem sendFence_carries (s : State) (r : BitVec 128) (ds : List Nat) : Carries s (sendFence s r ds) := by
  unfold sendFence
  split
  · exact (Carries.of_eq (t := emit s _)).trans (Carries.fold (fun s k => controlOn_carries s _ _) ds _)
  · exact .of_eq

theorem proposeNeighbour_carries (s : State) (d : Dir) (reason : Nat) : Carries s (proposeNeighbour s d reason) := by
  unfold proposeNeighbour proposeFence
  extract_lets r _ u
  split
  · split
    · exact .of_eq
    · exact (Carries.of_eq (t := u)).trans (sendFence_carries u r _)
  · exact .of_eq

theorem streamTo_carries (s : State) (dest : Nat) (bs : List Byte) : Carries s (streamTo s dest bs) :=
  Carries.fold (fun s _ => routeFlit_carries s _ _ _) _ s

theorem carried_carries (s : State) (e : Emit) : Carries s (carried s e) := by
  unfold carried
  split
  · exact Carries.fold (fun s _ => controlOn_carries s _ _) _ s
  · exact Carries.fold (fun s _ => controlOn_carries s _ _) _ s
  · exact routeFlit_carries s _ _ _
  · exact routeFlit_carries s _ _ _
  · exact routeFlit_carries s _ _ _
  · exact streamTo_carries s _ _
  · exact streamTo_carries s _ _
  · exact streamTo_carries s _ _
  · exact .of_eq

theorem tell_carries (s : State) (e : Emit) : Carries s (tell s e) := (Carries.of_eq (t := emit s e)).trans (carried_carries _ e)

theorem repull_carries (s : State) (old : List Emit) : Carries s (repull s old) := by
  unfold repull sendPulls
  split
  · split
    · exact .of_eq
    · split
      · exact (hwRequest_touches s _ _).carries
      · exact Carries.fold tell_carries _ s
  · exact .of_eq

theorem postLink_carries (s : State) (l : Nat) : Carries s (postLink s l) :=
  (Carries.of_eq (t := reVerdict s)).trans (post_touches _ _ _ _ _).carries

/-! ### Links that go out of service (R301, R302, R304) -/

/-- A fenced link stays fenced, and any other becomes so; re-sending its flits, the event and the record leave it. -/
theorem fenceLink_state (s : State) {l : Nat} (cause : Nat) (h : l < 48) : (linkAt (fenceLink s l cause) l).state = .fenced := by
  unfold fenceLink
  extract_lets k d up a b _ c e
  split
  · assumption
  · have hb : (linkAt b l).state = .fenced := by unfold b; rw [linkAt_onLink_same _ _ h]; rfl
    have hc : Carries b c := .of_eq
    have he : Carries c e := (resend_carries c d _).trans (faultEvent_touches _ _).carries
    rw [(hc.trans (he.trans (postLink_carries e l))).reads Link.state, hb]

/-- A link that goes down trains again or is fenced. -/
theorem linkDown_inService (s : State) {l : Nat} (cause : Nat) (h : l < 48) : inService (linkAt (linkDown s l cause) l) = false := by
  unfold linkDown
  extract_lets k u d a _ b
  split
  · simpa using ‹(!inService k) = true›
  · split
    · rw [inService, fenceLink_state s 3 h]; rfl
    · have ha : (linkAt a l).state = .training := by unfold a; rw [linkAt_onLink_same _ _ h]; rfl
      have hb : Carries a b := .of_eq
      rw [inService, (hb.trans ((resend_carries b d _).trans (postLink_carries _ l))).reads Link.state, ha]
      rfl

theorem holdLink_sides (s : State) (l : Nat) : (holdLink s l).topo.sides = s.topo.sides := by
  unfold holdLink
  extract_lets k d a _ b
  split
  · rfl
  · exact ((resend_carries b d _).trans (postLink_carries _ l)).sides

end Sys2Proof.Machine
end

section
/-! SUPPORT. Frames with a bad CRC, the lanes and their spare, training and discovery (11 R281 to R303). -/

-- One theorem at a time: the stacks of parallel proofs add up to more than the memory the check gives.
set_option Elab.async false

namespace Sys2Proof.Machine

/-! ### Frames with a bad CRC (R284) -/

theorem frameBad_counts (s : State) (l : Fin 48) : (linkAt (frameBad s l.val) l.val).syncErr = (linkAt s l.val).syncErr + 1 ∧
    (linkAt (frameBad s l.val) l.val).lastFrame = (linkAt s l.val).lastFrame ∧ Touches [.links] s (frameBad s l.val) := by
  refine ⟨?_, ?_, frameBad_touches s l.val⟩ <;> rw [frameBad, linkAt_onLink_same _ _ l.isLt]

/-- On a lane in service a frame that fails its CRC is due whatever its TYPE. -/
theorem frameDue_bad {s : State} {l : Nat} {f : BitVec 96} (ty : Nat) (hon : s.dev.on = true) (hup : inService (linkAt s l) = true)
    (hbad : frOk f = false) : frameDue s l ty f = true := by simp [frameDue, hon, hup, hbad]

/-- Settles O16: each of the five commands takes the frame for one to discard before it looks at anything else of it. -/
theorem badFrames : Obligations.BadFrames := by
  intro x hx l f s hon hup hbad
  have hdue (ty : Nat) := frameDue_bad ty hon hup hbad
  refine Gives.of ?_ (frameBad_counts s l)
  fin_cases hx
  · change execSyncIdleFrame l f s = _
    simp [execSyncIdleFrame, hdue, hbad]
  · change execSyncUpFrame l f s = _
    simp [execSyncUpFrame, hdue, hbad]
  · change execSyncDownFrame l f s = _
    simp [execSyncDownFrame, hdue, hbad]
  · change execSyncLeavingFrame l f s = _
    simp [execSyncLeavingFrame, hdue, hbad]
  · change execSyncStateFrame l f s = _
    simp [execSyncStateFrame, hdue, hbad]

/-! ### Lanes (R281, R282) -/

/-- The spare takes a lane over; the fault event that goes with it leaves the link. -/
theorem laneFails_spare {s : State} {l lane : Nat} (hl : l < 48) (hspare : (linkAt s l).spareUsed = false) :
    linkAt (laneFails s l lane) l = { linkAt s l with
      laneBad := if (linkAt s l).laneBad.contains lane then (linkAt s l).laneBad else (linkAt s l).laneBad ++ [lane],
      spareUsed := true, swapped := lane } := by
  unfold laneFails
  extract_lets k u
  rw [if_neg (by simp [k, hspare]), (faultEvent_touches _ _).linkAt_eq, linkAt_onLink_same _ _ hl, linkAt_onLink_same _ _ hl]

theorem laneFails_noSpare {s : State} {l lane : Nat} (hl : l < 48) (hspare : (linkAt s l).spareUsed = true) :
    (linkAt (laneFails s l lane) l).state = .fenced := by
  unfold laneFails
  extract_lets k u
  rw [if_pos hspare]
  exact fenceLink_state u 1 hl

/-- A window of a lane as it is recorded: its corrections are counted in, and counted anew from then on (R282). -/
def windowOn (s : State) (lane : Fin 16) (all symbols : Nat) (k : Link) : Link :=
  { k with serWin := (s.clk.now, all, symbols) :: k.serWin.filter (fun w => decide (s.clk.now < w.1 + 1000000000)), symErrs := k.symErrs.set lane 0 }

theorem laneErrorWindow_next {l : Fin 48} {lane : Fin 16} {errors symbols all : Nat} {s : State} (ht : (linkAt s l.val).trained = true)
    (hall : errors + (linkAt s l.val).symErrs[lane] = all) :
    exec (.laneErrorWindow l lane errors symbols) s = .next (if all * 50000 > symbols then
      laneFails (onLink s l.val (windowOn s lane all symbols)) l.val lane.val else onLink s l.val (windowOn s lane all symbols)) := by
  subst hall
  exact if_pos ht

/-- Settles O20: a failure by the two lemmas on the spare, a window by its record, the equaliser by the link that it writes. -/
theorem linkLanes : Obligations.LinkLanes := by
  refine ⟨fun l lane s ht hnew hspare => ?_, fun l lane s ht hspare => ?_, fun l lane errors symbols s ht hfew => ?_,
    fun l lane errors symbols s ht hmany hspare => ?_, fun l lane s ht => ?_⟩
  · refine Gives.of (if_pos ht) ?_
    rw [laneFails_spare l.isLt hspare, if_neg (by simpa using hnew)]
    exact ⟨rfl, rfl, rfl, rfl⟩
  · exact Gives.of (if_pos ht) (laneFails_noSpare l.isLt hspare)
  · refine Gives.of ((laneErrorWindow_next ht rfl).trans (congrArg _ (if_neg (Nat.not_lt.mpr hfew)))) ?_
    rw [linkAt_onLink_same _ _ l.isLt]
    exact ⟨rfl, rfl, Vector.getElem_set_self _⟩
  · refine Gives.of ((laneErrorWindow_next ht rfl).trans (congrArg _ (if_pos hmany))) ?_
    rw [laneFails_spare l.isLt (by rw [linkAt_onLink_same _ _ l.isLt]; exact hspare)]
    exact ⟨rfl, rfl⟩
  · refine Gives.of (if_pos ht) ?_
    rw [linkAt_onLink_same _ _ l.isLt]
    exact ⟨Vector.getElem_set_self _, Vector.getElem_set_self _, rfl, onLink_touches _ _ _⟩

/-! ### Training (R296, R297) -/

theorem linkTrained_sound {s : State} {l : Nat} (latency : Nat) (k : Link) (h : permanentLanes s l = []) :
    (linkTrained s l latency k).trained = true ∧ (linkTrained s l latency k).state = .training ∧ (linkTrained s l latency k).latency = latency ∧
      (linkTrained s l latency k).dir = some (assigned s.dict.latched.ratio l).1 := by
  rw [linkTrained, h]
  exact ⟨rfl, rfl, rfl, rfl⟩

theorem linkTrainingDone_next {l : Fin 48} {latency : Nat} {s u : State} (h : mayTrain s l.val = true)
    (hu : onLink s l.val (linkTrained s l.val latency) = u) :
    exec (.linkTrainingDone l latency) s = if lanesLost u l.val || unitGone s ⟨5, l.val⟩ then .next (fenceLink u l.val 1)
      else .next (emit u (.discovery l.val (ownRecord u l.val))) := by
  subst hu
  exact if_pos h

theorem lanesLost_none {s : State} {l : Nat} (h : permanentLanes s l = []) : lanesLost s l = false := by rw [lanesLost, h]; rfl

/-! ### Discovery (R294 to R299) -/

/-- What a STATE code other than 0 makes of a side's neighbour. -/
def notedState (s : State) (d : Dir) (code : Nat) : State := onSide s d fun x => { x with nbState := some (devOfCode code) }

/-- A neighbour's state is noted; the pulls and the proposal that it leads to are traffic. -/
theorem takeState_carries (s : State) (d : Dir) {code : Nat} (h : code ≠ 0) : Carries (notedState s d code) (takeState s d code) := by
  unfold takeState
  extract_lets st _ u
  rw [if_neg h]
  have hu : Carries (notedState s d code) u := repull_carries _ _
  split
  · exact hu.trans (proposeNeighbour_carries u d 3)
  · exact hu

theorem takeState_links (s : State) (d : Dir) (code l : Nat) : (linkAt (takeState s d code) l).idle = (linkAt s l).idle := by
  by_cases h : code = 0
  · rw [takeState, if_pos h]
  · exact (takeState_carries s d h).links l

/-- An accepted link is UP with its class and the far end's serial; all that follows is traffic, the neighbour's state and records. -/
theorem linkAccepted_links (s : State) {l : Nat} (c : LinkClass) (r : BitVec 256) (hl : l < 48) :
    (linkAt (linkAccepted s l c r) l).idle = (linkUp s l c r (linkAt s l)).idle := by
  unfold linkAccepted
  extract_lets was u d _ v w x y
  have hu : linkAt u l = linkUp s l c r (linkAt s l) := linkAt_onLink_same _ _ hl
  have hw : (linkAt w l).idle = (linkAt u l).idle := takeState_links v d _ l
  have hx : Carries w x := by
    unfold x
    split
    · exact tell_carries w _
    · exact .of_eq
  have hy : Carries x y := by
    unfold y
    split
    · exact .of_eq
    · exact .of_eq
  have ht : Carries y (if inService was then reVerdict y else postLink y l) := by
    split
    · exact .of_eq
    · exact postLink_carries y l
  rw [(hx.trans (hy.trans ht)).links, hw, hu]

/-- A refused link is REFUSED with its class; its flits go elsewhere. -/
theorem linkRefused_reads (s : State) {l : Nat} (c : LinkClass) (cause : Nat) (hl : l < 48) :
    (linkAt (linkRefused s l c cause) l).state = .refused ∧ (linkAt (linkRefused s l c cause) l).cls = c := by
  unfold linkRefused
  extract_lets was u
  have hu : (linkAt u l).state = .refused ∧ (linkAt u l).cls = c := by
    unfold u
    rw [linkAt_onLink_same _ _ hl]
    exact ⟨rfl, rfl⟩
  split
  · have ht (v : State) (hv : Carries u v) (d : Dir) (fs : List Flit) : Carries u (postLink (resend v d fs) l) :=
      hv.trans ((resend_carries v d fs).trans (postLink_carries _ l))
    rw [(ht _ .of_eq _ _).reads Link.state, (ht _ .of_eq _ _).reads Link.cls]
    exact hu
  · exact hu

theorem discoveryRecordReceived_next {l : Fin 48} {r : BitVec 256} {s u : State} (ht : (linkAt s l.val).trained = true)
    (hb : ostlerBusy s 1 = false) (hu : onLink s l.val (fun k => { k with farRec := r }) = u) :
    exec (.discoveryRecordReceived l r) s = if otherModule (linkAt s l.val) r || !serves s (classOf s l.val r) then
        .next (linkRefused u l.val (classOf s l.val r) (if otherModule (linkAt s l.val) r then 8 else (linkAt s l.val).cause))
      else .next (linkAccepted u l.val (classOf s l.val r) r) := by
  subst hu
  change execDiscoveryRecordReceived l r s = _
  unfold execDiscoveryRecordReceived
  extract_lets c u other
  have hu : linkAt u l.val = { linkAt s l.val with farRec := r } := linkAt_onLink_same _ _ l.isLt
  have ho : other = otherModule (linkAt s l.val) r := by unfold other; rw [hu]; rfl
  rw [if_neg (by simp [ht, hb]), if_pos ht, ho, hu]
  rfl

/-- Settles O21: training by the link that it leaves, discovery by what acceptance and refusal make of the link, a fence by its state. -/
theorem linkTraining : Obligations.LinkTraining := by
  refine ⟨fun l latency s hm hp hg => ?_, fun l latency s hm hg => ?_, fun l s hm hb => ?_, fun l s hm hc hb => ?_, fun l s ht hr => ?_,
    fun l r s ht hb hs ho => ?_, fun l r s ht hb hn => ?_, fun src v s h hv => ?_⟩
  · obtain ⟨htr, hst, hlat, hdir⟩ := linkTrained_sound latency (linkAt s l.val) hp
    have hlost : lanesLost (onLink s l.val (linkTrained s l.val latency)) l.val = false := lanesLost_none hp
    refine Gives.of ((linkTrainingDone_next hm rfl).trans (if_neg (by rw [hlost, hg]; decide))) ?_
    rw [(emit_touches _ _).linkAt_eq, linkAt_onLink_same _ _ l.isLt]
    exact ⟨htr, hst, hlat, hdir, rfl⟩
  · exact Gives.of ((linkTrainingDone_next hm rfl).trans (if_pos (by rw [hg, Bool.or_true]))) (fenceLink_state _ 1 l.isLt)
  · refine Gives.of ((if_neg (by simp [hm])).trans (if_neg (by simp [hb]))) ?_
    rw [(reVerdict_touches _).linkAt_eq, linkAt_onLink_same _ _ l.isLt]
    exact ⟨rfl, rfl⟩
  · refine Gives.of ((if_neg (by simp [hm, hc])).trans (if_neg (by simp [hb]))) ⟨?_, rfl⟩
    rw [(emit_touches _ _).linkAt_eq, linkAt_onLink_same _ _ l.isLt]
  · exact Gives.of (if_pos (by rw [ht, hr]; rfl)) ⟨rfl, emit_touches _ _⟩
  · refine Gives.of ((discoveryRecordReceived_next ht hb rfl).trans (if_neg (by rw [hs, ho]; decide))) ?_
    have hk := linkAccepted_links (onLink s l.val fun k => { k with farRec := r }) (classOf s l.val r) r l.isLt
    exact ⟨congrArg inService hk, congrArg Link.cls hk, congrArg Link.farSerial hk⟩
  · exact Gives.of ((discoveryRecordReceived_next ht hb rfl).trans (if_pos (by rcases hn with hn | hn <;> simp [hn])))
      (linkRefused_reads _ _ _ l.isLt)
  · refine Gives.accepted h rfl fun t ht => ?_
    rw [ht.linkAt_eq]
    exact fenceLink_state s 4 hv

end Sys2Proof.Machine
end

section
/-! SUPPORT. Flits received in and out of order, replays, and an error return at its source (11 R278 to R310). -/

-- One theorem at a time: the stacks of parallel proofs add up to more than the memory the check gives.
set_option Elab.async false

namespace Sys2Proof.Machine

/-! ### Reception (R278, R280, R302) -/

/-- A link in service as it has counted the codewords of a flit. -/
def flitCounted (s : State) (l : Nat) (ws : List (List (Fin 544))) : State := onLink s l (fecCounts s.clk.now ws)

/-- The same, once the acknowledgement that came beside the flit has been taken. -/
def flitAcked (s : State) (l : Nat) (ws : List (List (Fin 544))) (ack : Option (BitVec 16)) : State := onLink (flitCounted s l ws) l (ackedTo ack)

theorem linkAt_flitCounted (s : State) {l : Nat} (ws : List (List (Fin 544))) (hl : l < 48) :
    linkAt (flitCounted s l ws) l = fecCounts s.clk.now ws (linkAt s l) := linkAt_onLink_same _ _ hl

theorem linkAt_flitAcked (s : State) {l : Nat} (ws : List (List (Fin 544))) (ack : Option (BitVec 16)) (hl : l < 48) :
    linkAt (flitAcked s l ws ack) l = ackedTo ack (fecCounts s.clk.now ws (linkAt s l)) := by
  rw [flitAcked, linkAt_onLink_same _ _ hl, linkAt_flitCounted s ws hl]

section
variable {s : State} {l : Nat} {h : BitVec 96} {pay : List Byte} {crc : BitVec 32} {ws : List (List (Fin 544))} {ack : Option (BitVec 16)}
variable (hl : l < 48) (hup : inService (linkAt s l) = true)
include hl hup

theorem flitReceived_fences (hmany : tooManyErrors (fecCounts s.clk.now ws (linkAt s l)) = true) (hb : ostlerBusy s 1 = false) :
    flitReceived s l h pay crc ws ack = fenceLink (flitCounted s l ws) l 2 := by
  unfold flitReceived
  extract_lets u v
  have hu : tooManyErrors (linkAt u l) = true := by unfold u; rwa [linkAt_onLink_same _ _ hl]
  have hbu : ostlerBusy u 1 = false := hb
  have hv : v = u := if_neg (by rw [hbu, Bool.and_false]; decide)
  rw [if_neg (by simp [hup]), hv, if_pos (by rw [hu, hbu]; rfl)]
  rfl

variable (hfew : tooManyErrors (fecCounts s.clk.now ws (linkAt s l)) = false)
include hfew

/-- Below the limit of lost codewords, the flit is judged by them and by its CRC, and then by its SEQ. -/
theorem flitReceived_judged : flitReceived s l h pay crc ws ack =
    if fecLost ws ≠ 0 || flitCrc h pay ≠ crc then nakFlit (flitCounted s l ws) l
    else if BitVec.ofNat 16 (hdSeq h) = (linkAt (flitAcked s l ws ack) l).rxSeq + 1 then
      flitOn (drainLink (takeFlit (flitAcked s l ws ack) l h) l) l h pay
    else nakFlit (drainLink (flitAcked s l ws ack) l) l := by
  unfold flitReceived
  extract_lets u v w
  have hu : tooManyErrors (linkAt u l) = false := by unfold u; rwa [linkAt_onLink_same _ _ hl]
  have hv : v = u := if_neg (by rw [hu, Bool.false_and]; decide)
  have hw : w = onLink u l (ackedTo ack) := by unfold w; rw [hv]
  rw [if_neg (by simp [hup]), hw, hv, if_neg (by rw [hu, Bool.false_and]; decide)]
  rfl

theorem flitReceived_rejects (hbad : fecLost ws ≠ 0 ∨ flitCrc h pay ≠ crc) :
    flitReceived s l h pay crc ws ack = nakFlit (flitCounted s l ws) l := by
  rw [flitReceived_judged hl hup hfew, if_pos (by simpa using hbad)]

theorem flitReceived_inOrder (hlost : fecLost ws = 0) (hseq : BitVec.ofNat 16 (hdSeq h) = (linkAt s l).rxSeq + 1) :
    flitReceived s l h pay (flitCrc h pay) ws none = flitOn (drainLink (takeFlit (flitAcked s l ws none) l h) l) l h pay := by
  rw [flitReceived_judged hl hup hfew, if_neg (by simp [hlost]), if_pos (by rw [linkAt_flitAcked s ws none hl]; exact hseq)]

end

/-- A link that has taken a flit in order. -/
def linkTakes (h : BitVec 96) (k : Link) : Link :=
  { k with rxSeq := BitVec.ofNat 16 (hdSeq h), credits := updN k.credits (hdVc h) (· + 1),
           txCred := updN k.txCred (fld h.toNat 15 14) (· + fld h.toNat 13 0) }

/-- The link of a flit in order that brings no acknowledgement. -/
theorem linkAt_takeFlit (s : State) {l : Nat} (h : BitVec 96) (ws : List (List (Fin 544))) (hl : l < 48) :
    linkAt (takeFlit (flitAcked s l ws none) l h) l = linkTakes h (fecCounts s.clk.now ws (linkAt s l)) := by
  unfold takeFlit
  rw [(emit_touches _ _).linkAt_eq, linkAt_onLink_same _ _ hl, linkAt_flitAcked s ws none hl]
  rfl

theorem takeFlit_acked_touches (s : State) (l : Nat) (h : BitVec 96) (ws : List (List (Fin 544))) (ack : Option (BitVec 16)) :
    Touches [.links, .sent] s (takeFlit (flitAcked s l ws ack) l h) :=
  .step (takeFlit_touches _ l h) (by decide) (.step (onLink_touches _ _ _) (by decide) ((onLink_touches s l _).mono (by decide)))

/-! ### Replays (R280, R301, R309) -/

theorem dirLinks_congr {s t : State} (h : ∀ l, (linkAt t l).idle = (linkAt s l).idle) (d : Dir) : dirLinks t d = dirLinks s d := by
  have hf (g : Link → Bool × Option Dir × Nat) (hg : ∀ k, g k.idle = g k) (l : Nat) : g (linkAt t l) = g (linkAt s l) := by rw [← hg, h, hg]
  have hr (l : Nat) := hf (fun k => (inService k, k.dir, k.index)) (fun _ => rfl) l
  simp only [Prod.mk.injEq] at hr
  simp only [dirLinks, hr]

/-- Changes of a link's traffic leave the ways that flits may take. -/
theorem mayStillGo_onLink (s : State) (l : Nat) {f : Link → Link} (h : ∀ k, (f k).idle = k.idle) (d : Dir) (x : Flit) :
    mayStillGo (onLink s l f) d x = mayStillGo s d x := by
  have hd : dirLinks (onLink s l f) d = dirLinks s d := dirLinks_congr (onLink_carries s l h).links d
  have hb : blockedDir (onLink s l f) d = blockedDir s d := by rw [blockedDir, hd]; rfl
  rw [mayStillGo, hb]
  rfl

theorem linkDir_congr {s t : State} (h : Carries s t) (hdict : t.dict = s.dict) (l : Nat) : linkDir t l = linkDir s l := by
  rw [linkDir, h.reads Link.dir l, hdict]
  rfl

theorem drainLink_idle {s : State} {l : Nat} (h : (linkAt s l).waits = []) : drainLink s l = s := by
  unfold drainLink
  extract_lets ws
  exact if_pos (by unfold ws; rw [h]; rfl)

theorem ackedTo_idle (ack : Option (BitVec 16)) (k : Link) : (ackedTo ack k).idle = k.idle := by cases ack <;> rfl

theorem ackedTo_waits (ack : Option (BitVec 16)) (k : Link) : (ackedTo ack k).waits = k.waits := by cases ack <;> rfl

/-- The link once the flits before a NAK are acknowledged: no more than its traffic has changed. -/
theorem linkNak_acked (s : State) (l : Fin 48) (g : BitVec 16) :
    linkAt (onLink s l.val (ackedTo (some g))) l.val = ackedTo (some g) (linkAt s l.val) := linkAt_onLink_same _ _ l.isLt

/-- A flit replayed eight times takes the link down. -/
theorem linkNakReceived_down {l : Fin 48} {g : BitVec 16} {s : State} (hup : inService (linkAt s l.val) = true)
    (hold : ∃ f ∈ (ackedTo (some g) (linkAt s l.val)).txBuf, f.replays ≥ 8) :
    exec (.linkNakReceived l g) s = .next (linkDown (onLink s l.val (ackedTo (some g))) l.val 6) := by
  obtain ⟨f, hf, h8⟩ := hold
  refine (if_neg (by simp [hup])).trans (if_pos ?_)
  rw [linkNak_acked]
  exact List.any_eq_true.mpr ⟨f, hf, decide_eq_true h8⟩

/-- The replay where every flit may still go out: each is sent again, and none takes another way. -/
theorem linkNakReceived_replays {l : Fin 48} {g : BitVec 16} {s : State} (hup : inService (linkAt s l.val) = true)
    (hwait : (linkAt s l.val).waits = []) (hfwd : forwards s.dev.state = true)
    (hgo : ∀ f ∈ (ackedTo (some g) (linkAt s l.val)).txBuf, f.replays < 8 ∧ mayStillGo s (linkDir s l.val) f = true) :
    ∃ v, exec (.linkNakReceived l g) s = .next (emits v ((linkAt v l.val).txBuf.map (onWire l.val))) ∧
      linkAt v l.val = linkReplays (ackedTo (some g) (linkAt s l.val)) ∧ v.sent = s.sent := by
  change ∃ v, execLinkNakReceived l g s = _ ∧ _
  unfold execLinkNakReceived
  extract_lets u d gone v
  have hu : linkAt u l.val = ackedTo (some g) (linkAt s l.val) := linkNak_acked s l g
  have hd : d = linkDir s l.val := linkDir_congr (onLink_carries s l.val (ackedTo_idle (some g))) rfl l.val
  have hmay (f : Flit) (hf : f ∈ (linkAt u l.val).txBuf) : mayStillGo u d f = true := by
    rw [hd, mayStillGo_onLink s l.val (ackedTo_idle (some g))]
    exact (hgo f (hu ▸ hf)).2
  have hgone : gone = [] := List.filter_eq_nil_iff.mpr fun f hf => by simp [hmay f hf]
  have hv : linkAt v l.val = linkReplays (ackedTo (some g) (linkAt s l.val)) := by
    unfold v
    rw [linkAt_onLink_same _ _ l.isLt, List.filter_eq_self.mpr hmay, hu]
  have hidle : (linkAt (emits v ((linkAt v l.val).txBuf.map (onWire l.val))) l.val).waits = [] := by
    rw [(emits_touches _ _).linkAt_eq, hv]
    exact (ackedTo_waits _ _).trans hwait
  refine ⟨v, ?_, hv, rfl⟩
  have hfew : ((linkAt u l.val).txBuf.any fun f => decide (f.replays ≥ 8)) = false :=
    List.any_eq_false.mpr fun f hf => by simpa using (hgo f (hu ▸ hf)).1
  rw [if_neg (by simp [hup]), hfew, if_neg Bool.false_ne_true, if_neg (by simp [u, onLink, hfwd]), hgone]
  exact congrArg _ (drainLink_idle hidle)

/-! ### An error return at its source (R310) -/

/-- A flit is here when it is on no detour and its DEST is the module's own position: nothing that a fence or a link decides. -/
theorem nextHop_here {s : State} {h : BitVec 96} {came : Option Dir} :
    nextHop s h came = .here ↔ hdDdir h = 0 ∧ routeDir s (ownCoord s) (hdDest h) = none := by
  have hout (h' : BitVec 96) (side : Bool) (d : Dir) : hopOut s h' side d ≠ .here := by
    unfold hopOut
    split <;> simp
  unfold nextHop
  by_cases hd : hdDdir h = 0
  · simp only [hd, ne_eq, not_true_eq_false, decide_false, Bool.false_and, Bool.false_eq_true, if_false, true_and]
    split
    next hr => simp [hr]
    next d hr =>
      simp only [hr, reduceCtorEq, iff_false]
      split
      · simp
      · split
        · exact hout h false d
        · split
          · simp
          · split
            · exact hout _ true _
            · simp
  · simp only [hd, ne_eq, not_false_eq_true, decide_true, Bool.true_and, if_true, false_and, iff_false]
    split
    · simp
    · split
      · exact hout _ false _
      · exact hout _ true _

/-- The way that a flit takes from a module is read from its dictionary and its record of steps. -/
theorem routeDir_congr {s t : State} (hdict : t.dict = s.dict) (hsteps : t.steps = s.steps) (c c' : Nat) : routeDir t c c' = routeDir s c c' := by
  obtain ⟨⟩ := s
  obtain ⟨⟩ := t
  cases hdict
  cases hsteps
  rfl

theorem stepInBlock_congr {s t : State} (hdict : t.dict = s.dict) (hsteps : t.steps = s.steps) (c : Nat) (d : Dir) :
    stepInBlock t c d = stepInBlock s c d := by
  obtain ⟨⟩ := s
  obtain ⟨⟩ := t
  cases hdict
  cases hsteps
  rfl

theorem reportError_errReturns (s : State) (h : BitVec 96) (payload : List Byte) :
    (reportError s h payload).topo.errReturns = s.topo.errReturns ++ [h] := by
  unfold reportError
  extract_lets _ u
  split <;> rfl

/-- At its source an error return is reported, where no other flit waited for the link. -/
theorem flitOn_errorReturn {s t : State} {l : Nat} {h : BitVec 96} {pay : List Byte} (ht : Touches [.links, .sent] s t)
    (hdir : linkDir t l = linkDir s l) (htype : hdType h = 1) (hblock : stepInBlock s (ownCoord s) (linkDir s l) = true)
    (hfwd : forwards s.dev.state = true) (hhere : nextHop s h (some (opposite (linkDir s l))) = .here) : flitOn t l h pay = reportError t h pay := by
  have hown : ownCoord t = ownCoord s := by rw [ownCoord, ht.dict_eq]; rfl
  have hb : stepInBlock t (ownCoord t) (linkDir t l) = true := by rw [hown, hdir, stepInBlock_congr ht.dict_eq ht.steps_eq, hblock]
  have hh : nextHop t h (some (opposite (linkDir t l))) = .here := by
    obtain ⟨hd, hr⟩ := nextHop_here.mp hhere
    exact nextHop_here.mpr ⟨hd, by rw [hown, routeDir_congr ht.dict_eq ht.steps_eq, hr]⟩
  unfold flitOn
  extract_lets d
  rw [if_neg (by simp [d, hb]), if_neg (by simp [ht.devState_eq, hfwd]), hh]
  simp only [flitHere, htype]

/-- With no codeword to count, the lost codewords of the last second only fall out of the window (R302). -/
theorem tooManyErrors_noCodewords {k : Link} (now : Nat) (h : tooManyErrors k = false) : tooManyErrors (fecCounts now [] k) = false := by
  have hle : ((k.uncWin.filter fun w => decide (now < w.1 + 1000000000)).map (·.2)).sum ≤ (k.uncWin.map (·.2)).sum :=
    (List.filter_sublist.map _).sum_le_sum fun _ _ => Nat.zero_le _
  simp only [tooManyErrors, decide_eq_false_iff_not, not_lt, gt_iff_lt] at h ⊢
  exact hle.trans h

theorem errorReturnReceived_reports {l : Fin 48} {h : BitVec 96} {pay : List Byte} {s : State} (hup : inService (linkAt s l.val) = true)
    (htype : hdType h = 1) (hwait : (linkAt s l.val).waits = []) (hfew : tooManyErrors (linkAt s l.val) = false)
    (hseq : BitVec.ofNat 16 (hdSeq h) = (linkAt s l.val).rxSeq + 1) (hblock : stepInBlock s (ownCoord s) (linkDir s l.val) = true)
    (hfwd : forwards s.dev.state = true) (hhere : nextHop s h (some (opposite (linkDir s l.val))) = .here) :
    exec (.errorReturnReceived l ⟨h, pay, flitCrc h pay, [], none⟩) s = .next (reportError (takeFlit (flitAcked s l.val [] none) l.val h) h pay) := by
  have htake := takeFlit_acked_touches s l.val h [] none
  have hlink := linkAt_takeFlit s h [] l.isLt
  have hdir : linkDir (takeFlit (flitAcked s l.val [] none) l.val h) l.val = linkDir s l.val := by rw [linkDir, hlink, htake.dict_eq]; rfl
  have hidle : drainLink (takeFlit (flitAcked s l.val [] none) l.val h) l.val = _ := drainLink_idle (by rw [hlink]; exact hwait)
  refine (if_pos htype).trans (congrArg Host.Outcome.next ?_)
  calc flitReceived s l.val h pay (flitCrc h pay) [] none
      = flitOn (drainLink (takeFlit (flitAcked s l.val [] none) l.val h) l.val) l.val h pay :=
        flitReceived_inOrder l.isLt hup (tooManyErrors_noCodewords _ hfew) rfl hseq
    _ = flitOn (takeFlit (flitAcked s l.val [] none) l.val h) l.val h pay := by rw [hidle]
    _ = reportError (takeFlit (flitAcked s l.val [] none) l.val h) h pay := flitOn_errorReturn htake hdir htype hblock hfwd hhere

/-- Settles O19: reception by how a flit is judged, replays by the link that is left, an error return by its report. -/
theorem linkFlits : Obligations.LinkFlits := by
  refine ⟨fun l h pay ws s hup hlost hfew hseq => ?_, fun l h pay crc ws ack s hup hfew hbad => ?_, fun l h pay crc ws ack s hup hmany hb => ?_,
    fun l g s hup hwait hfwd hgo => ?_, fun l g s hup hold => ?_, fun l h pay s hup htype hwait hfew hseq hblock hfwd hhere => ?_⟩
  · refine Gives.of (congrArg Host.Outcome.next (flitReceived_inOrder l.isLt hup hfew hlost hseq))
      ⟨_, rfl, takeFlit_acked_touches s l.val h ws none, rfl, ?_⟩
    rw [linkAt_takeFlit s h ws l.isLt]
    exact ⟨rfl, rfl, rfl, rfl⟩
  · refine Gives.of (congrArg Host.Outcome.next (flitReceived_rejects l.isLt hup hfew hbad)) ?_
    rw [nakFlit, (emit_touches _ _).linkAt_eq, linkAt_flitCounted s ws l.isLt]
    exact ⟨rfl, rfl, rfl, .step (emit_touches _ _) (by decide) ((onLink_touches s l.val _).mono (by decide))⟩
  · exact Gives.of (congrArg Host.Outcome.next (flitReceived_fences l.isLt hup hmany hb)) (fenceLink_state _ 2 l.isLt)
  · obtain ⟨v, he, hv, hsent⟩ := linkNakReceived_replays hup hwait hfwd hgo
    refine Gives.of he ⟨?_, ?_⟩
    · rw [← hv, ← hsent]
      rfl
    · rw [(emits_touches _ _).linkAt_eq, hv]
      rfl
  · exact Gives.of (linkNakReceived_down hup hold) (linkDown_inService _ 6 l.isLt)
  · refine Gives.of (errorReturnReceived_reports hup htype hwait hfew hseq hblock hfwd hhere) ⟨?_, ?_⟩
    · rw [reportError_errReturns, (takeFlit_acked_touches s l.val h [] none).topo_eq]
    · rw [(reportError_touches _ _ _).linkAt_eq, linkAt_takeFlit s h [] l.isLt]
      rfl

end Sys2Proof.Machine
end

section
/-! SUPPORT. The sync lanes: UP values that join their channel, aborts taken and held, what a neighbour says of itself, heartbeats and silence
(11 R284 to R308, 12 R329 to R333, 15 R411). -/

-- One theorem at a time: the stacks of parallel proofs add up to more than the memory the check gives.
set_option Elab.async false

namespace Sys2Proof.Machine

/-! ### What a valid first copy leaves to be read (R285, R286) -/

theorem takesPart_working {s : State} (hrole : s.recov.role = .working) (hstate : s.dev.state = .joined ∨ s.dev.state = .recovery) :
    takesPart s = true := by rcases hstate with h | h <;> simp [takesPart, hrole, h]

section
variable {s t : State} (h : Touches [.links, .topo] s t)
include h

theorem takesPart_frame : takesPart t = takesPart s := by
  rw [takesPart, h.steps_eq, h.recov_eq, h.devState_eq]
  rfl

theorem attemptOk_frame (p : Nat) : attemptOk t p = attemptOk s p := by
  rw [attemptOk, takesPart_frame h, h.steps_eq, h.recov_eq]
  rfl

theorem downStep_frame (p : Nat) : downStep t p = downStep s p := by
  rw [downStep, takesPart_frame h, h.recov_eq, stepClosing, h.steps_eq]
  rfl

theorem ownStep_frame (d : Dir) : stepInBlock t (ownCoord t) d = stepInBlock s (ownCoord s) d := by
  have hown : ownCoord t = ownCoord s := by rw [ownCoord, h.dict_eq]; rfl
  rw [hown, stepInBlock_congr h.dict_eq h.steps_eq]

end

/-- A lane's heartbeat changes nothing that says which way the lane goes. -/
theorem linkDir_onLink_lastFrame (s : State) (l n : Nat) : linkDir (onLink s l fun k => { k with lastFrame := n }) l = linkDir s l := by
  rw [linkDir, linkAt_onLink_field Link.dir s l (f := fun k => { k with lastFrame := n }) l fun _ => rfl]
  rfl

theorem frameSeen_eq (s : State) (l : Nat) : frameSeen s l =
    onSide (onLink s l fun k => { k with lastFrame := s.clk.now }) (linkDir s l) fun x => { x with silent := false } := by
  rw [← linkDir_onLink_lastFrame s l s.clk.now]
  rfl

theorem linkDir_frameIn (s : State) (l : Nat) (f : BitVec 96) : linkDir (frameIn s l f) l = linkDir s l := linkDir_onLink_lastFrame s l s.clk.now

/-! ### UP values (12 R331) -/

/-- A side's count is read from what has come in early alone. -/
theorem upFrom_count_congr {c c' : Chan} (h : c'.early = c.early) (k g axis : Nat) (plus : Bool) :
    (upFrom c' k g axis plus).1 = (upFrom c k g axis plus).1 := by
  rw [upFrom, upFrom, h]
  cases c.early.find? fun f => f.1 = g && f.2.1 = axis && f.2.2.1 = plus <;> rfl

/-- What a side has delivered covers every value that it has brought. -/
theorem upTaken_counts (c : Chan) (k g axis : Nat) (plus : Bool) (count : Nat) (v : BitVec 32) :
    count ≤ (upFrom (upTaken c k g axis plus count v) k g axis plus).1 := by
  unfold upTaken
  extract_lets r rest
  have hrest : (rest.find? fun f => f.1 = g && f.2.1 = axis && f.2.2.1 = plus) = none :=
    List.find?_eq_none.mpr fun f hf => Bool.eq_false_iff.mp ((Bool.not_eq_true' _).mp (List.mem_filter.mp hf).2)
  simp [upFrom, List.find?_append, hrest]

/-- A phase that begins leaves what has come in early; the frames that it sends are no part of a channel. -/
theorem enterPhase_early (s : State) {k : Nat} (ph : Nat) (w : BitVec 32) (hk : k < 64) :
    (chanAt (enterPhase s k ph w) k).early = (chanAt s k).early := by
  unfold enterPhase
  extract_lets u
  have hu : (chanAt u k).early = (chanAt s k).early := by unfold u; rw [chanAt_onChan_same s _ hk]
  split
  · rw [chanAt, (sendUp_touches _ k ph false).chans_eq, (sendUp_touches u k ph true).chans_eq]
    exact hu
  · exact hu

theorem chanGo_early (s : State) {k : Nat} (fuel : Nat) (hk : k < 64) : (chanAt (chanGo s k fuel) k).early = (chanAt s k).early := by
  induction fuel generalizing s with
  | zero => rfl
  | succ fuel ih =>
    unfold chanGo
    extract_lets c
    split
    next => rfl
    next w _ =>
      split
      · rfl
      · split
        · exact (ih _).trans (enterPhase_early s _ _ hk)
        · split
          · exact (ih _).trans (enterPhase_early s _ _ hk)
          · rfl

theorem chanIdle_early (s : State) {k : Nat} (hk : k < 64) : (chanAt (chanIdle s k) k).early = (chanAt s k).early := by
  unfold chanIdle chanOwn
  extract_lets c g u
  split
  · rw [chanGo_early _ 4 hk, enterPhase_early u 0 _ hk, chanAt_onChan_same s _ hk]
  · rfl

/-- A value of the generation in progress joins its side, whatever the channel then goes on to do. -/
theorem chanTake_counts {s : State} {k g : Nat} (op axis : Nat) (plus : Bool) (count : Nat) (v : BitVec 32) (hk : k < 64) (hg : g = genNow s k g) :
    count ≤ (upFrom (chanAt (chanTake s k g op axis plus count v) k) k g axis plus).1 := by
  unfold chanTake
  extract_lets now grew seen u w c
  have hu : chanAt u k = upTaken (seen (chanAt s k)) k g axis plus count v := chanAt_onChan_same s _ hk
  have hw : (chanAt w k).early = (chanAt u k).early := chanIdle_early u hk
  rw [if_neg (by simp [now, ← hg])]
  refine (upTaken_counts (seen (chanAt s k)) k g axis plus count v).trans_eq (Eq.symm (upFrom_count_congr ?_ k g axis plus))
  rw [← hu, ← hw]
  split
  · rw [chanGo_early _ 4 hk, chanAt, (sendUp_touches w k axis _).chans_eq]
    rfl
  · rfl

/-- A program channel without a combined word has nothing to finish (12 R328). -/
theorem finishChan_waits {s : State} {k : Nat} (hk : 2 ≤ k) (h : chanWordOf s k = none) : finishChan s k = s := by
  obtain ⟨n, rfl⟩ := Nat.exists_eq_add_of_le' hk
  change finishProgram s (n + 2) = s
  rw [finishProgram, h]

theorem takeUp_waits {s : State} {p : Nat} {d : Dir} {plus : Bool} (hchan : 2 ≤ upChan p) (hside : upSide s p d = some plus)
    (hwait : chanWordOf (chanTake s (upChan p) (upGen p) (upOp p) (upAxis p) plus (upCount p) (upValue p)) (upChan p) = none) :
    takeUp s p d = chanTake s (upChan p) (upGen p) (upOp p) (upAxis p) plus (upCount p) (upValue p) := by
  have hnone : noticesIn s p = s := if_neg (by simp [show upChan p ≠ 0 by omega])
  unfold takeUp
  rw [hnone]
  extract_lets u
  rw [show upSide u p d = some plus from hside]
  exact finishChan_waits hchan hwait

/-! ### Frames that are taken -/

/-- A valid first copy of a frame of TYPE `ty`, from a neighbour that is in the block and not in the fence set, at a module whose barriers work. -/
structure FrameTakes (s : State) (l : Fin 48) (f : BitVec 96) (ty : Nat) : Prop where
  due     : frameDue s l.val ty f = true
  valid   : frOk f = true
  first   : frameNew s l.val f = true
  barrier : barriersOn (frameIn s l.val f) = true
  member  : fencedSide (frameIn s l.val f) (linkDir s l.val) = false
  inBlock : stepInBlock s (ownCoord s) (linkDir s l.val) = true
  attempt : attemptOk s (frLoad f) = true

section
variable {s : State} {l : Fin 48} {f : BitVec 96}

theorem syncUpFrame_takes (h : FrameTakes s l f 1) (haxis : upAxis (frLoad f) < 3) (hrole : s.recov.role ≠ .fenced) :
    exec (.syncUpFrame l f) s = .next (takeUp (frameIn s l.val f) (frLoad f) (linkDir s l.val)) := by
  obtain ⟨hdue, hok, hnew, hon, hside, hblock, hatt⟩ := h
  have ht := frameIn_touches s l.val f
  change execSyncUpFrame l f s = _
  unfold execSyncUpFrame
  extract_lets d p u
  rw [if_neg (by simp [hdue]), if_neg (by simp [hok]), if_neg (by simp [hnew]), if_neg (by simp [u, p, d, hon, hside, haxis.ne]),
    if_neg (by rw [ownStep_frame ht, hblock]; decide), if_neg (by rwa [ht.recov_eq]), if_neg (by rw [attemptOk_frame ht, hatt]; decide)]

/-- The last abort that a module has seen (12 R333). -/
def abortNoted (s : State) (p : Nat) : State := { s with steps := { s.steps with lastAbort := some (upGen p, upAttempt p) } }

/-- What a working member does with a DOWN frame of channel 0 turns on the generation that it names (12 R329, R333). -/
theorem syncDownFrame_takes (h : FrameTakes s l f 2) (hchan : upChan (frLoad f) = 0) (hrole : s.recov.role = .working) (hpart : takesPart s = true) :
    exec (.syncDownFrame l f) s =
      if upGen (frLoad f) = gen0 (downStep s (frLoad f)) then
        .next (takeAbort (abortNoted (frameIn s l.val f) (frLoad f)) (downStep s (frLoad f)) (upValue (frLoad f)).toNat (linkDir s l.val))
      else if upGen (frLoad f) = gen0 (downStep s (frLoad f) + 1) then
        .next (holdDown (noticesIn (frameIn s l.val f) (frLoad f)) (frLoad f) (linkDir s l.val))
      else .next (frameIn s l.val f) := by
  obtain ⟨hdue, hok, hnew, hon, hside, hblock, hatt⟩ := h
  have ht := frameIn_touches s l.val f
  have hfirst : firstAbort (frameIn s l.val f) (frLoad f) = true := by rw [firstAbort, takesPart_frame ht, hpart]; rfl
  change execSyncDownFrame l f s = _
  unfold execSyncDownFrame
  extract_lets d p u v w
  rw [if_neg (by simp [hdue]), if_neg (by simp [hok]), if_neg (by simp [hnew]), if_neg (by simp [u, p, d, hon, hside, hchan]),
    if_neg (by rw [ownStep_frame ht, hblock]; decide), if_neg (by rw [ht.recov_eq, hrole]; decide),
    if_neg (by rw [attemptOk_frame ht, hatt, hfirst]; decide), downStep_frame ht]
  rfl

end

/-! ### Aborts (10 R265, 12 R329, R333) -/

theorem adoptNotices_noSlots {word : Nat} (h : ∀ k < 6, word.testBit (8 + k) = false) (s : State) : adoptNotices s word = s := by
  have hslots : ((upto 6).filter fun k => word.testBit (8 + k)) = [] :=
    List.filter_eq_nil_iff.mpr fun k hk => by simp [h k (List.mem_range.mp hk)]
  unfold adoptNotices
  rw [hslots]
  rfl

/-- An abort word without notices and without JOB_LOST leaves a working member's HOLD as it is. -/
theorem completeAbort_onlyAborts_hold {s : State} {word : Nat} (n : Nat) (h : OnlyAborts word) (hrole : s.recov.role = .working)
    (hreplay : s.steps.replayActive = false) : (completeAbort s n word).recov.hold = s.recov.hold := by
  obtain ⟨we, hends⟩ := waitEnds_recov s
  unfold completeAbort
  extract_lets contributed ns r old counted v was w x
  have hvr : v.recov = { s.recov with wait := we } := hends
  have hrep : replaying v = false := (congrArg Steps.replayActive (waitEnds_touches s).steps_eq).trans hreplay
  have hw : w = v := if_neg (by rw [show was = .working from (congrArg Recov.role hvr).trans hrole]; decide)
  obtain ⟨ws, wf, hstarts⟩ := waitStarts_recov v word
  have hx : x.recov = { s.recov with wait := ws, waitFrom := wf } := by unfold x; rw [hw, adoptNotices_onlyAborts h, hstarts, hvr]
  rw [hrep, if_neg Bool.false_ne_true, if_neg (by rw [hx, hrole]; decide), if_neg (by rw [h.lost]; decide),
    abortEnds_working n was (by rw [hx, hrole]), (rollback_touches x n).recov_eq, hx]

/-- So an abort taken brings a working member that owes no HOLD a rollback, and no abort of its own after it. -/
theorem takeAbort_onlyAborts {s : State} {word : Nat} (n : Nat) (came : Dir) (h : OnlyAborts (word ||| fenceBits s)) (hrole : s.recov.role = .working)
    (hreplay : s.steps.replayActive = false) (howed : (s.recov.hold && s.recov.holdOwed) = false) :
    ∃ v, takeAbort s n word came = rollback v n ∧ CountsAbort s.steps v.steps := by
  unfold takeAbort abortStep
  extract_lets w
  have ht := sendDown_touches s n w (allDirs.filter fun d => d ≠ came)
  generalize sendDown s n w (allDirs.filter fun d => d ≠ came) = u at ht
  have hurole : u.recov.role = .working := by rw [ht.recov_eq, hrole]
  have hureplay : u.steps.replayActive = false := by rw [ht.steps_eq, hreplay]
  obtain ⟨v, hv, hcounts, hvlost, hvowed⟩ := completeAbort_onlyAborts n h hurole hureplay
  have hhold := completeAbort_onlyAborts_hold n h hurole hureplay
  have hrecov : (rollback v n).recov = v.recov := (rollback_touches v n).recov_eq
  have hlost : s.recov.lostPend = 0 := by
    have hbit : (fenceBits s).testBit 15 = false := (Bool.or_eq_false_iff.mp ((Nat.testBit_or ..).symm.trans h.lost)).2
    simpa [fenceBits_lost] using hbit
  rw [hv] at hhold
  refine ⟨v, ?_, ht.steps_eq ▸ hcounts⟩
  rw [hv]
  refine if_neg ?_
  rw [hhold, hrecov, hvlost, hvowed, ht.recov_eq, hlost, howed]
  simp

/-- The generation after the one in progress is another (R329). -/
theorem gen0_succ_ne (n : Nat) : gen0 (n + 1) ≠ gen0 n := by
  unfold gen0
  omega

section
variable {s : State} {l : Fin 48} {f : BitVec 96} (h : FrameTakes s l f 2) (hchan : upChan (frLoad f) = 0) (hrole : s.recov.role = .working)
  (hstate : s.dev.state = .joined ∨ s.dev.state = .recovery)
include h hchan hrole hstate

/-- An abort of the step in progress brings a rollback to it. -/
theorem syncDownFrame_aborts (hgen : upGen (frLoad f) = gen0 (downStep s (frLoad f))) (hword : OnlyAborts ((upValue (frLoad f)).toNat ||| fenceBits s))
    (hreplay : s.steps.replayActive = false) (howed : (s.recov.hold && s.recov.holdOwed) = false) :
    ∃ v, exec (.syncDownFrame l f) s = .next (rollback v (downStep s (frLoad f))) ∧ CountsAbort s.steps v.steps := by
  have ht := frameIn_touches s l.val f
  have hsteps : (abortNoted (frameIn s l.val f) (frLoad f)).steps = { s.steps with lastAbort := some (upGen (frLoad f), upAttempt (frLoad f)) } := by
    rw [← ht.steps_eq]
    rfl
  have hrecov : (abortNoted (frameIn s l.val f) (frLoad f)).recov = s.recov := ht.recov_eq
  have hbits : fenceBits (abortNoted (frameIn s l.val f) (frLoad f)) = fenceBits s := by rw [fenceBits, hrecov]; rfl
  obtain ⟨v, hv, hcounts⟩ := takeAbort_onlyAborts (s := abortNoted (frameIn s l.val f) (frLoad f)) (downStep s (frLoad f)) (linkDir s l.val)
    (by rw [hbits]; exact hword) (by rw [hrecov, hrole]) (by rw [hsteps]; exact hreplay) (by rw [hrecov, howed])
  rw [hsteps] at hcounts
  exact ⟨v, (syncDownFrame_takes h hchan hrole (takesPart_working hrole hstate)).trans ((if_pos hgen).trans (congrArg _ hv)),
    ⟨hcounts.aborts, hcounts.attempt, hcounts.rollbacks, hcounts.committed⟩⟩

/-- An abort of the next step is held, and its notices aside nothing is done yet (R329). -/
theorem syncDownFrame_held (hgen : upGen (frLoad f) = gen0 (downStep s (frLoad f) + 1))
    (hbits : ∀ k < 6, (upValue (frLoad f)).toNat.testBit (8 + k) = false) :
    exec (.syncDownFrame l f) s = .next (holdDown (frameIn s l.val f) (frLoad f) (linkDir s l.val)) := by
  have hnone : noticesIn (frameIn s l.val f) (frLoad f) = frameIn s l.val f := by rw [noticesIn, adoptNotices_noSlots hbits, ite_self]
  rw [syncDownFrame_takes h hchan hrole (takesPart_working hrole hstate), if_neg (by rw [hgen]; exact gen0_succ_ne _), if_pos hgen, hnone]

end

/-! ### LEAVING and STATE (R304, R308) -/

theorem syncLeavingFrame_takes {l : Fin 48} {f : BitVec 96} {s : State} (hdue : frameDue s l.val 3 f = true) (hok : frOk f = true)
    (hnew : frameNew s l.val f = true) : exec (.syncLeavingFrame l f) s = .next (takeLeaving (frameIn s l.val f) l.val (fld (frLoad f) 2 0)) :=
  (if_neg (by simp [hdue])).trans ((if_neg (by simp [hok])).trans (if_neg (by simp [hnew])))

theorem syncStateFrame_takes {l : Fin 48} {f : BitVec 96} {s : State} (hdue : frameDue s l.val 4 f = true) (hok : frOk f = true)
    (hnew : frameNew s l.val f = true) :
    exec (.syncStateFrame l f) s = .next (takeState (frameIn s l.val f) (linkDir s l.val) (fld (frLoad f) 2 0)) :=
  (if_neg (by simp [hdue])).trans ((if_neg (by simp [hok])).trans (if_neg (by simp [hnew])))

/-- The cause of a LEAVING stands at its side while links go HELD and a fence is proposed. -/
theorem takeLeaving_left (s : State) (l cause : Nat) : (sideOf (takeLeaving s l cause) (linkDir s l)).left = cause := by
  unfold takeLeaving
  extract_lets d topo u v
  have hu : (sideOf u d).left = cause := congrArg Side.left (sideOf_onSide_same s d fun x => { x with left := cause })
  have hv : v.topo.sides = u.topo.sides :=
    List.foldlRecOn (motive := fun w => w.topo.sides = u.topo.sides) _ holdLink rfl fun w hw j _ => (holdLink_sides w j).trans hw
  split
  · rw [sideOf_congr ((proposeNeighbour_carries v d 2).sides.trans hv)]
    exact hu
  · rw [sideOf_congr hv]
    exact hu

/-! ### Heartbeats and silence (R286) -/

theorem frameSeen_reads (s : State) (l : Fin 48) :
    (linkAt (frameSeen s l.val) l.val).lastFrame = s.clk.now ∧ (sideOf (frameSeen s l.val) (linkDir s l.val)).silent = false := by
  rw [frameSeen_eq, sideOf_onSide_same]
  exact ⟨congrArg Link.lastFrame (linkAt_onLink_same s (fun k => { k with lastFrame := s.clk.now }) l.isLt), rfl⟩

theorem bundleSilent_next {d : Dir} {s : State} (hserved : sideServed s d = true) (hloud : (sideOf s d).silent = false) :
    exec (.bundleSilent d) s = .next (onSide (reach s (lastOnSide s d + 64000)) d fun x =>
      { x with silent := true, lossAt := (reach s (lastOnSide s d + 64000)).clk.now }) :=
  if_pos (by simp [hserved, hloud])

/-- Settles O15: an UP value by what its side has delivered, an abort by the rollback that it brings or by where it is held, the other
frames by the side and the lane that they write. -/
theorem syncLanes : Obligations.SyncLanes := by
  refine ⟨fun l f plus s hdue hok hnew hon haxis hside hrole hblock hatt hchan hlast hup hgen hwait => ?_,
    fun l f s hdue hok hnew hon hchan hside hrole hstate hblock hatt hgen hreplay howed hbits => ?_,
    fun l f s hdue hok hnew hon hchan hside hrole hstate hblock hatt hgen hbits => ?_,
    fun l f s hdue hok hnew => ?_, fun l f s hdue hok hnew hcode => ?_, fun l f s hdue hok => ?_, fun l s hon hup hscan => ?_,
    fun l s hup => ?_, fun d s hserved hloud => ?_⟩
  · refine Gives.of ((syncUpFrame_takes ⟨hdue, hok, hnew, hon, hside, hblock, hatt⟩ haxis hrole).trans (congrArg _ (takeUp_waits hchan hup hwait))) ?_
    exact chanTake_counts _ _ _ _ _ hlast hgen
  · have hword : OnlyAborts ((upValue (frLoad f)).toNat ||| fenceBits s) :=
      ⟨fun k hk => (hbits k (by omega)).trans (by rw [decide_eq_false (by omega), Bool.false_and]), hbits 7 (by decide)⟩
    obtain ⟨v, he, hcounts⟩ := syncDownFrame_aborts ⟨hdue, hok, hnew, hon, hside, hblock, hatt⟩ hchan hrole hstate hgen hword hreplay howed
    have hr := rollback_steps v (downStep s (frLoad f))
    exact Gives.of he ⟨hr.aborts.trans hcounts.aborts, hr.replayDue, hr.committed.trans hcounts.committed⟩
  · have ht := frameIn_touches s l.val f
    refine Gives.of (syncDownFrame_held ⟨hdue, hok, hnew, hon, hside, hblock, hatt⟩ hchan hrole hstate hgen hbits) ⟨?_, ht.steps_eq, ht.recov_eq⟩
    rw [holdDown, chanAt_onChan_same _ _ (by decide), chanAt, ht.chans_eq]
    rfl
  · rw [← linkDir_frameIn s l.val f]
    exact Gives.of (syncLeavingFrame_takes hdue hok hnew) (takeLeaving_left _ _ _)
  · refine Gives.of (syncStateFrame_takes hdue hok hnew) ?_
    rw [sideOf_congr (takeState_carries _ _ hcode).sides]
    exact congrArg Side.nbState (sideOf_onSide_same _ _ _)
  · exact Gives.of ((if_neg (by simp [hdue])).trans (if_neg (by simp [hok]))) (frameSeen_reads s l)
  · exact Gives.of (if_pos (by simp [hon, hup, hscan])) rfl
  · refine Gives.of (if_pos hup) ⟨linkDown_inService _ 5 l.isLt, ?_⟩
    rw [(linkDown_touches _ _ _).clk_eq]
    exact le_max_left _ _
  · refine Gives.of (bundleSilent_next hserved hloud) ?_
    rw [sideOf_onSide_same]
    exact ⟨rfl, rfl⟩

end Sys2Proof.Machine
end

section
/-! SUPPORT. A COLL whose end begins a scale exchange, and an exchange whose ordinal wraps around to that COLL: the error return of its first flit
makes the COLL outstanding again (11 R310, 12 R317, R323, R324). -/

-- One theorem at a time: the stacks of parallel proofs add up to more than the memory the check gives.
set_option Elab.async false

namespace Sys2Proof.Machine

/-! ### A maximum whose exchange begins when its tensor's last writer ends (03 R79) -/

/-- A DELAYED tensor of GROUP scope gives its running maximum. -/
theorem giveRunning_single {s : State} {c n t : Nat} {o : OpenStep} {m : Nat × Nat × BitVec 32} (hp : (tensorAt (progAt s c) t).policy = 2)
    (hs : (tensorAt (progAt s c) t).scopeGroup = true) (hw : writersDone s c n t = true) (ho : openAt s n = some o)
    (hm : o.maxima.find? (fun m => m.1 = c && m.2.1 = t) = some m) : giveRunning s c n [t] = giveMaximum s c t n m.2.2 := by
  rw [giveRunning, List.foldl_cons, List.foldl_nil]
  dsimp only
  rw [if_pos (by simp [hp, hs, hw]), ho, Option.bind_some, hm]

/-- A landing flit is routed as any other, by the coordinate of its rank and the attempt of its header. -/
theorem sendLand_routes {s : State} {g : Group} {f : CollFlit} {dest attempt : Nat} (c ord n : Nat) (hdest : rankCoord s g f.rank = dest)
    (hattempt : s.steps.attempt = attempt) :
    sendLand s c ord n g f = routeFlit s (ownHeader s dest (Config.landingPart (landKey (landOf n attempt ord f)) % 8) 0 (collFlow c ord))
      (collPayload (landOf n attempt ord f) f.data) none := by
  rw [← hdest, ← hattempt]
  rfl

/-! ### A COLL that ends (12 R318) -/

/-- What a COLL that ends writes and counts. -/
def collPut (s : State) (c : Nat) (k : CollTask) (t : Task) (u : Unit_) (resv : Nat) : State :=
  let v := putAll s c k.step u.writes
  { v with num := countWork v.num { units := [u] } resv (splitOuts s k.pos c k.step u.writes (splitsNeeded s c k.step u.writes)),
           place := { v.place with traffic := countTraffic v (collPiece c k) t u.writes } }

/-- The same with the reserved exponents that it reads first, before the chunks that landed for it are let go. -/
def collWritten (s : State) (c : Nat) (k : CollTask) (t : Task) (u : Unit_) : State :=
  let v := waitedOver s (collPiece c k)
  let resv := newResv (ctxAt v c) (collPiece c k) { units := [u] }
  onCtx (collPut v c k t u resv.length) c fun x => { x with resv := x.resv ++ resv }

/-- What a COLL leaves when it ends: those chunks are let go (12 R325). -/
def collDelivered (s : State) (c : Nat) (k : CollTask) (t : Task) (u : Unit_) : State :=
  let s := collWritten s c k t u
  { s with coll := { s.coll with chunks := s.coll.chunks.filter fun x => !(x.ctx = c && fld x.key 75 54 = collOrdinal (progAt s c) k.pos) } }

/-- The execution as which a COLL ends. -/
def collRun (s : State) (c : Nat) (k : CollTask) (t : Task) (u : Unit_) : Run :=
  let v := waitedOver s (collPiece c k)
  { runOf_ (collWritten s c k t u) t (collPiece c k) { units := [u] }
      (splitOuts v k.pos c k.step u.writes (splitsNeeded v c k.step u.writes)) with units := [] }

/-- A COLL that reads no marked location and is not cut off delivers, and ends as an execution does. -/
theorem collEnds_unmarked {s : State} {c : Nat} {k : CollTask} {t : Task} (u : Unit_) (ht : taskAt s c k.pos = some t)
    (hcut : k.pos ∉ (ctxAt s c).cut) (hm : s.mem.marks = []) :
    collEnds s c k u = runEnds (collDelivered s c k t u) t (collRun s c k t u) := by
  have hmarked : markedRead s (collPiece c k) t = id := by
    rw [markedRead, if_neg]
    simp [readsMarked, hm]
  unfold collEnds
  rw [ht]
  dsimp only
  rw [if_neg (by simpa using hcut), hmarked]
  rfl

/-! ### The programs stand (07 R196) -/

theorem collGoes_prog (s : State) (c task k : Nat) : (ctxAt (collGoes s c task) k).prog = (ctxAt s k).prog := by
  unfold collGoes
  split
  · exact ctxAt_onCtx_field Ctx.prog _ c k fun _ => rfl
  · rfl

theorem progAt_pieceEnded (s : State) (t : Task) (r : Run) (c : Nat) : progAt (pieceEnded s t r) c = progAt s c :=
  congrArg (Option.getD · default) (ctxAt_onCtx_field Ctx.prog (onStep s r.piece.step (stepTakes t r)) r.piece.ctx c fun _ => rfl)

theorem ctxAt_collPut (s : State) (c : Nat) (k : CollTask) (t : Task) (u : Unit_) (resv d : Nat) :
    ctxAt (collPut s c k t u resv) d = ctxAt s d :=
  (putAll_touches s c k.step u.writes).ctxAt_eq d

theorem progAt_collDelivered (s : State) (c : Nat) (k : CollTask) (t : Task) (u : Unit_) (d : Nat) :
    progAt (collDelivered s c k t u) d = progAt s d :=
  have hresv : (ctxAt (collWritten s c k t u) d).prog = (ctxAt (collPut (waitedOver s (collPiece c k)) c k t u _) d).prog :=
    ctxAt_onCtx_field Ctx.prog _ c d fun _ => rfl
  congrArg (Option.getD · default) (hresv.trans (congrArg Ctx.prog (ctxAt_collPut (waitedOver s (collPiece c k)) c k t u _ d)))

/-! ### A RECV that runs, and a task that ends -/

theorem exec_recv {c : Fin 16} {k : CollTask} {s : State} (data : List Byte) (h : collReady s c.val 4 = some k) :
    exec (.recv c data) s = .next (collRuns (drawn s) c.val k
      { unit := 0, writes := [⟨k.dst, 0, recvBytes s (tensorBytes (tensorAt (progAt s c.val) k.dst)) data⟩] } [] 0) := by
  show execRecv c data s = _
  rw [execRecv, h]

theorem collRuns_ends {s : State} {c : Nat} {k : CollTask} {u : Unit_} (fs : List CollFlit) (adds : Nat)
    (h : collRoom (noteWait s c) c k u = true) :
    collRuns s c k u fs adds = collEnds (countColl (sendFlits (collGoes (noteWait s c) c k.pos) c k fs) 0 adds) c k u :=
  if_pos h

/-- Without a halt flag, an AMAX and RESULT objects, the end of a task only gives its tensors' running maxima. -/
theorem taskEnds_plain {s : State} {t : Task} {r : Run} (hhalt : t.halt = false) (hamax : r.amax = none) (hresults : r.results = []) :
    taskEnds s t r = giveRunning s r.piece.ctx r.piece.step (outputsOf t) := by
  unfold taskEnds
  extract_lets c n s₁ s₂ s₃
  have hs₁ : s₁ = s := by simp [s₁, hresults, putResults]
  have hs₂ : s₂ = s := by simp [s₂, hamax, hs₁]
  rw [hhalt, Bool.false_and, if_neg Bool.false_ne_true, ← hs₂]

/-! ### The counterexample -/

/-- The tensor that a CONV_FMT reads. -/
def convSource : Tensor := { (default : Tensor) with format := 1, persist := 1, dims := [1] }

/-- A transient tensor whose running maximum is exchanged in group 0 (03 R79). -/
def delayedTensor : Tensor := { (default : Tensor) with policy := 2, scopeGroup := true, dims := [1] }

/-- Two members along X, with an object that SIGNAL may notify. -/
def notifiedPair : Group := { pairAlongX with notifyObj := some 4096 }

def convTask : Task := { opcode := 0x28, cgroup := 0, halt := false, bunit := 0, bound := 1, body := .conv ⟨0, 0⟩ 3 }
def sigTask : Task := { opcode := 0x38, cgroup := 0, halt := false, bunit := 0, bound := 1, body := .sig 4097 1 1 }
def waitTask : Task := { opcode := 0x39, cgroup := 0, halt := false, bunit := 0, bound := 1, body := .wait 4097 1 }
def recvTask : Task := { opcode := 0x30, cgroup := 0, halt := false, bunit := 0, bound := 1, body := .coll 4 0 0 default 3 0 }
def signalTask : Task := { opcode := 0x30, cgroup := 0, halt := false, bunit := 0, bound := 1, body := .coll 6 0 0 default 0 0 }

/-- Tensor 3 is converted, and then received from the other member; `n` SIGNALs follow. -/
def recvThenSignals (n : Nat) : Program :=
  { (default : Program) with
    tensors := [convSource, convSource, convSource, delayedTensor], groups := [notifiedPair],
    tasks := convTask :: sigTask :: waitTask :: recvTask :: List.replicate n signalTask }

/-- The exchange of tensor 3 counts on from the RECV and the SIGNALs. -/
theorem exchOrdinal_recvThenSignals (n : Nat) : exchOrdinal (recvThenSignals n) 3 = n + 4 := by
  have hsignals : (List.replicate n signalTask).filter isColl = List.replicate n signalTask := List.filter_replicate_of_pos rfl
  have htasks : (recvThenSignals n).tasks.filter isColl = recvTask :: List.replicate n signalTask := congrArg (recvTask :: ·) hsignals
  rw [exchOrdinal, collOrdinal, List.take_length, htasks, List.length_cons, List.length_replicate]

/-- With as many tasks as a program image holds (NTASK of 07 R168), the exchange of tensor 3 has the ordinal 2 ^ 22, which a landing header holds
as 0: the ordinal of the RECV. -/
def recvProgram : Program := recvThenSignals (2 ^ 22 - 4)

/-- The RECV at the link blocks. -/
def recvColl : CollTask := { pos := 3, step := 1, kind := 4, redop := 0, group := notifiedPair, src := default, dst := 3, peer := 0 }

/-- A module at X = 1 with no link up, in step 1: its RECV is at the link blocks, and the conversion before it has left a running maximum of the
tensor that both write. -/
def recvState : State :=
  { State.reset with
    dev := { on := true, state := .joined, phase := 6, inService := 255 }, recov := { role := .working },
    dict := { State.reset.dict with latched := { State.reset.dict.latched with coords := 1 } },
    steps := { older := some { step := 1, maxima := [(0, 3, 0x3F800000)] } }, sync := [(4097, { tag := 1, count := 1 })],
    ctxs := State.reset.ctxs.set 0 { state := .running, step := 1, pos := 4, left := [(3, 1)], prog := some recvProgram } }

/-- The two bytes that come. -/
def recvUnit : Unit_ := { unit := 0, writes := [⟨3, 0, [0, 0x3C]⟩] }

theorem recvState_ready : collReady recvState 0 4 = some recvColl := by decide +kernel

theorem recvState_bytes : recvBytes recvState (tensorBytes (tensorAt (progAt recvState 0) 3)) [0, 0x3C] = [0, 0x3C] := by decide +kernel

theorem recvState_room : collRoom recvState 0 recvColl recvUnit = true := by decide +kernel

/-- The state in which the RECV ends. -/
def recvStart : State := countColl (sendFlits (collGoes (noteWait (drawn recvState) 0) 0 3) 0 recvColl []) 0 0

def recvRun : Run := collRun recvStart 0 recvColl recvTask recvUnit

/-- The RECV has delivered and is outstanding no more. -/
def recvEnded : State := pieceEnded (collDelivered recvStart 0 recvColl recvTask recvUnit) recvTask recvRun

theorem recvEnded_open : (openAt recvEnded 1).bind (fun o => o.maxima.find? fun m => m.1 = 0 && m.2.1 = 3) = some (0, 3, 0x3F800000) := by
  decide +kernel

theorem recvEnded_prog : progAt recvEnded 0 = recvProgram := by
  have hstart : progAt recvStart 0 = recvProgram := by
    show ((ctxAt (collGoes (noteWait (drawn recvState) 0) 0 3) 0).prog).getD default = recvProgram
    rw [collGoes_prog, noteWait_ctx (f := Ctx.prog) fun _ _ _ => rfl]
    rfl
  rw [recvEnded, progAt_pieceEnded, progAt_collDelivered, hstart]

/-- The two writers of tensor 3 are the conversion and the RECV: the SIGNALs write nothing. -/
theorem writersDone_recvThenSignals {s : State} {n : Nat} (hp : progAt s 0 = recvThenSignals n) (hconv : taskDone s 0 1 0 = true)
    (hrecv : taskDone s 0 1 3 = true) : writersDone s 0 1 3 = true := by
  have hsignals : ∀ k ∈ (List.replicate n signalTask).zipIdx 4, (!(outputsOf k.1).contains 3 || taskDone s 0 1 k.2) = true := by
    intro k hk
    rw [List.eq_of_mem_replicate (List.fst_mem_of_mem_zipIdx hk)]
    rfl
  rw [writersDone, hp, recvThenSignals]
  simp only [List.zipIdx_cons, List.all_cons, Bool.and_eq_true]
  exact ⟨by rw [hconv, Bool.or_true], rfl, rfl, by rw [hrecv, Bool.or_true], List.all_eq_true.mpr hsignals⟩

/-- The maximum of the conversion goes into the exchange when the RECV ends. -/
theorem recvEnded_gives : giveRunning recvEnded 0 1 [3] = giveMaximum recvEnded 0 3 1 0x3F800000 := by
  obtain ⟨o, ho, hm⟩ := Option.bind_eq_some_iff.mp recvEnded_open
  have hdone : writersDone recvEnded 0 1 3 = true :=
    writersDone_recvThenSignals recvEnded_prog (by decide +kernel) (by decide +kernel)
  exact giveRunning_single (m := (0, 3, 0x3F800000)) (by rw [recvEnded_prog]; rfl) (by rw [recvEnded_prog]; rfl) hdone ho hm

/-- Its exchange has begun. -/
def recvOpened : State := exchOpened recvEnded 0 3 1 0x3F800000

/-- The first flit of the exchange, with its landing header. -/
def recvFlit : CollFlit := ⟨0, 0, 1, 0, 0, 0, [0, 0, 128, 63]⟩
def recvLand : Nat := landOf 1 0 (2 ^ 22) recvFlit

/-- The state once that flit has gone out, with the partition that its landing takes. -/
def recvSent (p : Nat) : State :=
  exchTake (routeFlit recvOpened (ownHeader recvOpened 0 p 0 (collFlow 0 (2 ^ 22))) (collPayload recvLand recvFlit.data) none) 0 3 1 4

/-- Whatever partition that is, the flit comes back and makes the RECV outstanding again, while the exchange goes on. -/
theorem recvSent_left (p : Fin 8) : (ctxAt (recvSent p) 0).left = [(3, 1)] := by
  revert p
  decide +kernel

theorem recvSent_exchanging (p : Fin 8) : (openAt (recvSent p) 1).map (·.exchanges) = some 1 := by
  revert p
  decide +kernel

theorem giveMaximum_recv : giveMaximum recvEnded 0 3 1 0x3F800000 = recvSent (Config.landingPart (landKey recvLand) % 8) := by
  have hord : exchOrdinal recvProgram 3 = 2 ^ 22 := exchOrdinal_recvThenSignals (2 ^ 22 - 4)
  have hflit : CollFlit.mk 0 0 1 0 0 (rankWith notifiedPair (ownRank recvEnded notifiedPair) 0 (ringNext (lenOn notifiedPair 0) 1 true))
      (toBytes 4 0x3F800000) = recvFlit := by decide +kernel
  have hsend : sendLand recvOpened 0 (2 ^ 22) 1 notifiedPair recvFlit = _ :=
    sendLand_routes (dest := 0) (attempt := 0) 0 (2 ^ 22) 1 (by decide +kernel) (by decide +kernel)
  rw [giveMaximum_starts (e := delayedTensor) (g := notifiedPair) (a := 0) (by rw [recvEnded_prog]; rfl) (by rw [recvEnded_prog]; rfl) rfl
    (by decide) (by decide) (by decide +kernel), recvEnded_prog, hord]
  exact congrArg (exchTake · 0 3 1 4) ((congrArg (sendLand recvOpened 0 (2 ^ 22) 1 notifiedPair) hflit).trans hsend)

theorem recvState_runs : exec (.recv 0 [0, 0x3C]) recvState = .next (progress (giveMaximum recvEnded 0 3 1 0x3F800000) 1) := by
  have hexec : exec (.recv 0 [0, 0x3C]) recvState = .next (collRuns (drawn recvState) 0 recvColl recvUnit [] 0) := by
    rw [exec_recv (c := 0) [0, 0x3C] recvState_ready]
    exact congrArg (fun bs => (.next (collRuns (drawn recvState) 0 recvColl { unit := 0, writes := [⟨3, 0, bs⟩] } [] 0) : Out)) recvState_bytes
  have hends : collRuns (drawn recvState) 0 recvColl recvUnit [] 0 = collEnds recvStart 0 recvColl recvUnit :=
    collRuns_ends [] 0 (by decide +kernel)
  have hrun : collEnds recvStart 0 recvColl recvUnit = runEnds (collDelivered recvStart 0 recvColl recvTask recvUnit) recvTask recvRun :=
    collEnds_unmarked recvUnit (by decide +kernel) (by decide +kernel) (by decide +kernel)
  have hlast : runEnds (collDelivered recvStart 0 recvColl recvTask recvUnit) recvTask recvRun = progress (taskEnds recvEnded recvTask recvRun) 1 :=
    runEnds_last (by decide +kernel)
  have htask : taskEnds recvEnded recvTask recvRun = giveRunning recvEnded 0 1 [3] := taskEnds_plain rfl rfl (by decide +kernel)
  rw [hexec, hends, hrun, hlast, htask, recvEnded_gives]

/-- The RECV is outstanding again once it has run. -/
theorem recvState_left : (ctxAt (progress (giveMaximum recvEnded 0 3 1 0x3F800000) 1) 0).left = [(3, 1)] := by
  obtain ⟨o, ho, he⟩ := Option.map_eq_some_iff.mp (recvSent_exchanging ⟨_, Nat.mod_lt (Config.landingPart (landKey recvLand)) (by decide)⟩)
  rw [giveMaximum_recv, ctxAt, progress_exchanging ho (by rw [he]; decide)]
  exact recvSent_left ⟨_, Nat.mod_lt _ (by decide)⟩

/-- Refutes O12: in its clause of RECV, the flit with which the tensor's running maximum enters its exchange comes back as unreachable, and the
RECV, whose ordinal the landing header cannot tell from the exchange's, becomes outstanding again. -/
theorem not_collectives : ¬ Obligations.Collectives := by
  intro ⟨_, _, _, _, hrecv, _⟩
  have hroom : collRoom recvState 0 recvColl
      { unit := 0, writes := [⟨3, 0, recvBytes recvState (tensorBytes (tensorAt (progAt recvState 0) 3)) [0, 0x3C]⟩] } = true := by
    rw [recvState_bytes]
    exact recvState_room
  obtain ⟨t, ht, hleft, -⟩ := hrecv 0 [0, 0x3C] recvColl recvState recvState_ready hroom rfl
  injection recvState_runs.symm.trans ht with hut
  have hnil : pieceOff (ctxAt recvState 0).left 3 = [] := by decide +kernel
  have hagain : (ctxAt t 0).left = [(3, 1)] := hut ▸ recvState_left
  exact absurd (hagain.symm.trans (hleft.trans hnil)) (by decide)

end Sys2Proof.Machine
end

section
/-! SUPPORT. Captures: epoch marks, the start of a capture, its pieces and manifest, and the failures that end it (13 R346 to R361, 19 R504). -/

-- One theorem at a time: the stacks of parallel proofs add up to more than the memory the check gives.
set_option Elab.async false

namespace Sys2Proof.Machine

/-! ### Epoch marks (13 R346, 19 R504) -/

theorem epochMarkEdge_gives {high : Nat} {s : State} (hon : s.dev.on = true) (hh : high ≥ 1000)
    (hm : ∀ n, s.ckpt.markEdge = some n → s.clk.now ≥ n + 100000) :
    Gives (.epochMarkEdge high) s fun t => t.ckpt.pend = true ∧ t.ckpt.marks = s.ckpt.marks + 1 ∧ t.ckpt.markEdge = some s.clk.now := by
  refine Gives.of (if_pos ?_) ⟨rfl, rfl, rfl⟩
  cases he : s.ckpt.markEdge with
  | none => simp [hon, hh]
  | some n => simp [hon, hh, hm n he]

theorem epochMarkCommand_gives {src : Src} {s : State} (h : Passes s src 0x60000A 1 1 (markOwn 1)) :
    Gives (.epochMarkCommand src) s fun t => t.ckpt.pend = true ∧ t.ckpt.marks = s.ckpt.marks + 1 := by
  refine Gives.accepted h rfl fun t ht => ?_
  rw [ht.ckpt_eq]
  exact ⟨rfl, rfl⟩

/-! ### The captures of a list, and the pool targets -/

/-- The first element that `p` names is found as before, once those that `p` names are changed to others that it names. -/
theorem find?_mapWhere {α : Type} (l : List α) {p : α → Bool} {f : α → α} (h : ∀ a, p (f a) = p a) :
    (mapWhere l p f).find? p = (l.find? p).map f := by
  induction l with
  | nil => rfl
  | cons a r ih =>
    unfold mapWhere at ih ⊢
    cases hp : p a with
    | true => simp [hp, h]
    | false => simpa [hp] using ih

/-- The capture of a cut after a change that keeps its cut. -/
theorem find?_onCapture (s : State) (cut : Nat) {f : Capture → Capture} (h : ∀ k, (f k).cut = k.cut) :
    (onCapture s cut f).ckpt.captures.find? (fun k => k.cut = cut) = (s.ckpt.captures.find? fun k => k.cut = cut).map f :=
  find?_mapWhere _ fun k => by rw [h]

/-- The cut of a capture that is found by it. -/
theorem cut_of_find? {l : List Capture} {cut : Nat} {k : Capture} (h : l.find? (fun k => k.cut = cut) = some k) : k.cut = cut := by
  simpa using List.find?_some h

theorem pingArea_lt (k : Ckpt) : pingArea k < 18 := by
  unfold pingArea bit
  dsimp only
  repeat' split
  all_goals decide

/-- What a capture would hold does not depend on the checkpoint part, but for the partner's pieces. -/
theorem poolFrom_ckpt (s : State) {c : Ckpt} (k : Capture) (i : Nat) (h : c.partnerPieces = s.ckpt.partnerPieces) :
    poolFrom { s with ckpt := c } k i = poolFrom s k i := by
  have hp : captureParts { s with ckpt := c } k = captureParts s k := by
    unfold captureParts
    rw [h]
    rfl
  unfold poolFrom cutNeeds
  rw [hp]
  rfl

theorem poolFrom_lt {s : State} {k : Capture} {i t : Nat} (h : poolFrom s k i = some t) : t < 8 :=
  List.mem_range.mp (List.mem_of_find?_eq_some h)

/-! ### A capture that is given up (13 R352) -/

/-- An open capture that is given up holds no tile any more. -/
theorem abandonCapture_vers {s : State} {cut : Nat} (cause : Nat) {k : Capture} (hk : s.ckpt.captures.find? (fun k => k.cut = cut) = some k)
    (hd : k.durable = false) : (abandonCapture s cut cause).vers = releaseHold s.vers cut := by
  have hany : s.ckpt.captures.any (fun c => c.cut = cut && !c.durable) = true :=
    List.any_eq_true.mpr ⟨k, List.mem_of_find?_eq_some hk, by simp [cut_of_find? hk, hd]⟩
  unfold abandonCapture
  rw [if_pos hany, (post_touches _ _ _ _ _).vers_eq, (vote_touches _ _ _).vers_eq]

/-! ### The start of a capture and its pieces (13 R351, R354, R355, R360) -/

theorem captureBegins_lehr {s : State} {k : Capture} (hb : cutTooBig s k = false) (h2 : rw s 0x600005 ≠ 2) (h3 : rw s 0x600005 ≠ 3)
    (hr : s.ckpt.retain.map (·.1) ≠ some (pingArea s.ckpt)) : captureBegins s k = lehrBegins s k.cut (pingArea s.ckpt) := by
  simp only [captureBegins, hb, h2, h3, hr, if_false, Bool.false_eq_true]

theorem captureStart_gives {k : Capture} {s : State} (hk : s.ckpt.captures.find? (fun k => !k.durable) = some k) (hon : s.dev.on = true)
    (hn : k.begun = false) (hb : cutTooBig s k = false) (h2 : rw s 0x600005 ≠ 2) (h3 : rw s 0x600005 ≠ 3)
    (hr : s.ckpt.retain.map (·.1) ≠ some (pingArea s.ckpt)) :
    Gives .captureStart s fun t => nth t.ckpt.areas (pingArea s.ckpt) {} = { state := 1, cut := k.cut } ∧
      t.sent = s.sent ++ [.lehr 1 (pingArea s.ckpt)] := by
  have he : exec .captureStart s = .next (lehrBegins s k.cut (pingArea s.ckpt)) := by
    show execCaptureStart s = _
    simp only [execCaptureStart, hk, hon, hn, captureBegins_lehr hb h2 h3 hr, Bool.not_false, Bool.and_self, if_true]
  exact Gives.of he ⟨nth_updN_same _ _ _ (pingArea_lt _), rfl⟩

/-- A capture with every piece durable. -/
def copiedWith (ps : List (BitVec 512 × List Byte)) (k : Capture) : Capture := { k with read := true, copied := true, pieces := ps }

theorem capturePiecesDone_next {cut : Nat} {k : Capture} {s : State} (hk : s.ckpt.captures.find? (fun k => k.cut = cut) = some k)
    (hb : k.begun = true) (hc : k.copied = false) :
    ∃ ps es, exec (.capturePiecesDone cut) s = .next (emits { onCapture s cut (copiedWith ps) with vers := releaseHold s.vers cut } es) := by
  rw [show exec (.capturePiecesDone cut) s = execCapturePiecesDone cut s from rfl, execCapturePiecesDone, hk]
  exact ⟨_, _, if_pos (by simp [hb, hc])⟩

theorem capturePiecesDone_gives {cut : Nat} {k : Capture} {s : State} (hk : s.ckpt.captures.find? (fun k => k.cut = cut) = some k)
    (hb : k.begun = true) (hc : k.copied = false) :
    Gives (.capturePiecesDone cut) s fun t => t.vers = releaseHold s.vers cut ∧
      (t.ckpt.captures.find? fun k => k.cut = cut).map (·.copied) = some true := by
  obtain ⟨ps, es, he⟩ := capturePiecesDone_next hk hb hc
  have hfind : (onCapture s cut (copiedWith ps)).ckpt.captures.find? (fun k => k.cut = cut) = some (copiedWith ps k) := by
    rw [find?_onCapture s cut (f := copiedWith ps) fun _ => rfl, hk, Option.map_some]
  exact Gives.of he ⟨rfl, congrArg (Option.map (·.copied)) hfind⟩

/-! ### The manifest (13 R350) -/

/-- An area holds the cut that last became locally complete. -/
def HoldsLocal (k : Ckpt) (cut a : Nat) : Prop :=
  k.lastLocal = cut ∧ (nth k.areas a {}).cut = cut ∧ ((nth k.areas a {}).state = 2 ∨ (nth k.areas a {}).state = 3)

theorem nth_map {α : Type} {n i : Nat} (v : Vector α n) (f : α → α) (d : α) (h : i < n) : nth (v.map f) i d = f (nth v i d) := by
  rw [nth_eq_getElem _ _ h, nth_eq_getElem _ _ h, Vector.getElem_map]

/-- What an area becomes when a cut is job-complete. -/
def jobComplete (cut : Nat) (a : Area) : Area := if a.cut = cut && a.state = 2 then { a with state := 3 } else a

theorem cutComplete_areas (k : Ckpt) (cut : Nat) : (cutComplete k cut).areas = k.areas.map (jobComplete cut) := rfl

/-- A cut that becomes job-complete takes its area from locally complete to job-complete, and leaves the others. -/
theorem cutComplete_holdsLocal {k : Ckpt} {cut a : Nat} (c : Nat) (ha : a < 18) (h : HoldsLocal k cut a) : HoldsLocal (cutComplete k c) cut a := by
  obtain ⟨hl, hc, hs⟩ := h
  refine ⟨hl, ?_⟩
  rw [cutComplete_areas, nth_map k.areas _ _ ha, jobComplete]
  split
  · exact ⟨hc, .inr rfl⟩
  · exact ⟨hc, hs⟩

theorem cutWord_holdsLocal {s : State} {cut a : Nat} (w : BitVec 32) (ha : a < 18) (h : HoldsLocal s.ckpt cut a) :
    HoldsLocal (cutWord s w).ckpt cut a := by
  unfold cutWord
  split
  · rw [(chanClose_touches _ _ _).ckpt_eq]
    exact h
  · rw [(chanClose_touches _ _ _).ckpt_eq]
    split
    · rw [(post_touches _ _ _ _ _).ckpt_eq]
      exact cutComplete_holdsLocal _ ha h
    · exact h

theorem castVotes_holdsLocal {s : State} {cut a : Nat} (fuel : Nat) (ha : a < 18) (h : HoldsLocal s.ckpt cut a) :
    HoldsLocal (castVotes s fuel).ckpt cut a := by
  induction fuel generalizing s with
  | zero => exact h
  | succ n ih =>
    unfold castVotes
    split
    · refine ih ?_
      rw [(chanIdle_touches _ _).ckpt_eq]
      exact cutWord_holdsLocal _ ha h
    · split
      · split
        · refine ih ?_
          rw [(chanOwn_touches _ _ _ _ _ _).ckpt_eq]
          exact h
        · exact h
      · exact h

/-- A word for a cut changes no area but by making it job-complete. -/
theorem vote_holdsLocal {s : State} {cut a : Nat} (c : Nat) (w : BitVec 32) (ha : a < 18) (h : HoldsLocal s.ckpt cut a) :
    HoldsLocal (vote s c w).ckpt cut a := castVotes_holdsLocal _ ha h

theorem manifestIsDurable_holdsLocal (s : State) {k : Capture} {a : Nat} (hk : k.area = some a) (ha : a < 18) :
    HoldsLocal (manifestIsDurable s k).ckpt k.cut a := by
  unfold manifestIsDurable
  extract_lets areas pool u
  have hn : nth areas a {} = wholeArea s k false := by
    simp only [areas, hk]
    exact nth_updN_same _ _ _ ha
  refine vote_holdsLocal _ _ ha ⟨rfl, ?_, .inl ?_⟩
  · exact congrArg Area.cut hn
  · exact congrArg Area.state hn

theorem manifestDurable_gives {cut a : Nat} {k : Capture} {s : State} (hk : s.ckpt.captures.find? (fun k => k.cut = cut) = some k)
    (hc : k.copied = true) (hd : k.durable = false) (ho : ostlerBusy s 2 = false) (ha : k.area = some a) (hlt : a < 18) :
    Gives (.manifestDurable cut) s fun t => HoldsLocal t.ckpt cut a := by
  have he : exec (.manifestDurable cut) s = .next (manifestIsDurable s k) := by
    show execManifestDurable cut s = _
    simp only [execManifestDurable, hk, hc, hd, ho, Bool.not_false, Bool.and_self, if_true]
  exact Gives.of he (cut_of_find? hk ▸ manifestIsDurable_holdsLocal s ha hlt)

/-! ### Write errors (13 R352, R360, R361) -/

/-- A capture is given up for a write error in another mode than 1, or one that has fallen back to the pool already. -/
theorem lehrFails_abandons {s : State} {k : Capture} (hm : rw s 0x600005 ≠ 1 ∨ k.fellBack = true) :
    lehrFails s k = abandonCapture { s with ckpt := { s.ckpt with storeBad := true } } k.cut 2 :=
  if_neg (show ¬(rw s 0x600005 = 1 && !k.fellBack) = true by rcases hm with h | h <;> simp [h])

theorem lehrWriteError_gives {cut : Nat} {k : Capture} {s : State} (hk : s.ckpt.captures.find? (fun k => k.cut = cut) = some k)
    (hb : k.begun = true) (hd : k.durable = false) (ha : k.area.isSome = true ∨ k.fellBack = true)
    (hm : rw s 0x600005 ≠ 1 ∨ k.fellBack = true) : Gives (.lehrWriteError cut) s fun t => t.vers = releaseHold s.vers cut := by
  have hw : (k.area.isSome || k.fellBack) = true := by simpa using ha
  have he : exec (.lehrWriteError cut) s = .next (lehrFails s k) := by
    show execLehrWriteError cut s = _
    simp only [execLehrWriteError, hk, hb, hd, hw, Bool.not_false, Bool.and_self, if_true]
  refine Gives.of he ?_
  rw [lehrFails_abandons hm, cut_of_find? hk]
  exact abandonCapture_vers 2 hk hd

/-- A capture whose pool write has failed, before it starts again. -/
def untargeted (k : Capture) : Capture := { k with target := none, copied := false }

/-- The state in which a pool write of a capture has failed, before its cut starts again. -/
def poolDropped (s : State) (k : Capture) (t : Nat) : State :=
  onCapture { s with ckpt := { s.ckpt with pool := updN s.ckpt.pool t (unwritten k.cut) } } k.cut untargeted

theorem poolWriteError_next {cut tg : Nat} {k : Capture} {s : State} (hk : s.ckpt.captures.find? (fun k => k.cut = cut) = some k)
    (ht : k.target = some tg) (hd : k.durable = false) :
    exec (.poolWriteError cut) s = .next (poolStart (poolDropped s k tg) k (tg + 1)) := by
  show execPoolWriteError cut s = _
  simp only [execPoolWriteError, hk, ht, hd, Bool.false_eq_true, if_false]
  rfl

theorem poolFrom_poolDropped (s : State) (k : Capture) (t i : Nat) : poolFrom (poolDropped s k t) k i = poolFrom s k i :=
  poolFrom_ckpt s k i rfl

theorem poolWriteError_gives_up {cut tg : Nat} {k : Capture} {s : State} (hk : s.ckpt.captures.find? (fun k => k.cut = cut) = some k)
    (ht : k.target = some tg) (hd : k.durable = false) (hp : poolFrom s k (tg + 1) = none) :
    Gives (.poolWriteError cut) s fun t => t.vers = releaseHold s.vers cut := by
  refine Gives.of (poolWriteError_next hk ht hd) ?_
  have hc := cut_of_find? hk
  have hfind : (poolDropped s k tg).ckpt.captures.find? (fun k => k.cut = cut) = some (untargeted k) := by
    rw [poolDropped, hc, find?_onCapture _ cut (f := untargeted) fun _ => rfl]
    exact congrArg (Option.map untargeted) hk
  rw [poolStart, poolFrom_poolDropped, hp, hc]
  exact abandonCapture_vers 4 hfind hd

theorem poolWriteError_starts_again {cut tg next : Nat} {k : Capture} {s : State} (hk : s.ckpt.captures.find? (fun k => k.cut = cut) = some k)
    (ht : k.target = some tg) (hd : k.durable = false) (hp : poolFrom s k (tg + 1) = some next) :
    Gives (.poolWriteError cut) s fun t => nth t.ckpt.pool next {} = { state := 1, cut := cut } ∧ t.vers = s.vers := by
  refine Gives.of (poolWriteError_next hk ht hd) ?_
  rw [poolStart, poolFrom_poolDropped, hp, cut_of_find? hk]
  exact ⟨nth_updN_same _ _ _ (poolFrom_lt hp), rfl⟩

end Sys2Proof.Machine

namespace Sys2Proof

open Machine

/-- Settles O24, command by command. -/
theorem captures : Obligations.Captures :=
  ⟨fun _ _ hon hh hm => epochMarkEdge_gives hon hh hm, fun _ _ h => epochMarkCommand_gives h,
    fun _ _ hk hon hn hb h2 h3 hr => captureStart_gives hk hon hn hb h2 h3 hr, fun _ _ _ hk hb hc => capturePiecesDone_gives hk hb hc,
    fun _ _ _ _ hk hc hd ho ha hlt => manifestDurable_gives hk hc hd ho ha hlt,
    fun _ _ _ hk hb hd ha hm => lehrWriteError_gives hk hb hd ha hm, fun _ _ _ _ hk ht hd hp => poolWriteError_gives_up hk ht hd hp,
    fun _ _ _ _ _ hk ht hd hp => poolWriteError_starts_again hk ht hd hp⟩

end Sys2Proof
end

section
/-! SUPPORT. Retained areas, restores and exports (13 R356, R362 to R370). -/

-- One theorem at a time: the stacks of parallel proofs add up to more than the memory the check gives.
set_option Elab.async false

namespace Sys2Proof.Machine

/-! ### Retained areas (13 R355, R356) -/

theorem freeArea_lt {k : Ckpt} {d : Nat} (h : freeArea k = some d) : d < 18 := by
  obtain ⟨i, hi, rfl⟩ := List.mem_map.mp (List.mem_of_find?_eq_some h)
  have hi := List.mem_range.mp hi
  omega

theorem retainCommand_gives {src : Src} {cut : BitVec 64} {a d : Nat} {s : State}
    (h : Passes s src 0x600012 8 cut.toNat (retainOwn s cut.toNat)) (ha : cutArea s.ckpt cut.toNat = some a) (hd : freeArea s.ckpt = some d) :
    Gives (.retainCommand src cut) s fun t => t.ckpt.retain = some (a, d) ∧ nth t.ckpt.areas d {} = { state := 1, cut := cut.toNat } := by
  refine Gives.accepted h rfl fun t ht => ?_
  rw [ht.ckpt_eq, retainStarts, ha, hd]
  exact ⟨rfl, nth_updN_same _ _ _ (freeArea_lt hd)⟩

/-- A new checkpoint part leaves every other part as it was. -/
theorem touches_ckptUpdate (s : State) (c : Ckpt) : Touches [.ckpt] s { s with ckpt := c } := by
  intro p hp
  cases p
  case ckpt => exact absurd hp (by decide)
  all_goals rfl

theorem retainCopyDone_gives {a d : Nat} {s : State} (h : s.ckpt.retain = some (a, d)) (hd : d < 18) :
    Gives .retainCopyDone s fun t => t.ckpt.retain = none ∧ nth t.ckpt.areas d {} = nth s.ckpt.areas a {} ∧ Touches [.ckpt] s t :=
  ⟨_, show execRetainCopyDone s = _ by rw [execRetainCopyDone, h], rfl, nth_updN_same _ _ _ hd, touches_ckptUpdate s _⟩

/-- A release that passes names a retained area. -/
theorem retained_of_releaseOwn {area : Nat} (h : releaseOwn area = 0) : 2 ≤ area ∧ area ≤ 17 := by
  unfold releaseOwn at h
  split at h
  · assumption
  · exact absurd h (by decide)

theorem releaseCommand_gives {src : Src} {area : BitVec 8} {s : State} (h : Passes s src 0x600013 1 area.toNat (releaseOwn area.toNat)) :
    Gives (.releaseCommand src area) s fun t => (nth t.ckpt.areas area.toNat {}).state = 4 := by
  refine Gives.accepted h rfl fun t ht => ?_
  obtain ⟨-, hlt⟩ := retained_of_releaseOwn h.own_eq
  rw [ht.ckpt_eq]
  exact congrArg Area.state (nth_updN_same s.ckpt.areas (fun a => { state := 4, cut := a.cut }) {} (Nat.lt_succ_of_le hlt))

/-! ### Restores (13 R362, R364, R365) -/

theorem restoreStarts_spec (r : BitVec 128) (s : State) :
    (restoreStarts r s).ckpt.restore = 1 ∧ (restoreStarts r s).ckpt.restReq = some r ∧ (restoreStarts r s).steps = s.steps := by
  unfold restoreStarts
  extract_lets u
  split
  · exact ⟨rfl, rfl, rfl⟩
  · exact ⟨rfl, rfl, rfl⟩

theorem restoreRequest_gives {src : Src} {req : BitVec 128} {s : State} (h : Passes s src 0x600018 16 req.toNat (restoreOwn s req)) :
    Gives (.restoreRequest src req) s fun t => t.ckpt.restore = 1 ∧ t.ckpt.restReq = some req ∧ t.steps = s.steps := by
  refine Gives.accepted h rfl fun t ht => ?_
  rw [ht.ckpt_eq, ht.steps_eq]
  exact restoreStarts_spec req s

/-- The end of a restore that was requested. -/
theorem restoreDone_next {r : BitVec 128} {s : State} (readError badPiece : Bool) (h : s.ckpt.restReq = some r) :
    exec (.restoreDone readError badPiece) s = .next (restoreEnds s r readError badPiece) := by
  show execRestoreDone readError badPiece s = _
  rw [execRestoreDone, h]

/-- A restore of the job is judged by the state as it stands. -/
theorem restoreEnds_job {r : BitVec 128} (s : State) (readError badPiece : Bool) (hc : restContext r = 0) :
    restoreEnds s r readError badPiece =
      if restoreReason s r (restManifest s r) readError badPiece ≠ 0 then
        restoreFails s (restoreReason s r (restManifest s r) readError badPiece)
          (if (restManifest s r).valid then mfCut (restManifest s r).hdr else 0)
      else { restoreSucceeds s r (restManifest s r) with dict := s.dict } := by
  have hv : (if restContext r = 15 then judgeView s 15 else s) = s := if_neg (by rw [hc]; decide)
  rw [restoreEnds, hv]

/-- A restore that fails gives its reason, and leaves its context without a valid committed state. -/
theorem restoreFails_spec {r : BitVec 128} {s : State} (reason cut : Nat) (h : s.ckpt.restReq = some r) (hc : restContext r < 16) :
    (restoreFails s reason cut).ckpt.restore = 3 ∧ (restoreFails s reason cut).ckpt.restReq = none ∧
      (restoreFails s reason cut).ckpt.restReason = reason ∧ (restoreFails s reason cut).steps = s.steps ∧
      (ctxAt (restoreFails s reason cut) (restContext r)).invalid = true := by
  have hck : (restoreFails s reason cut).ckpt =
      { s.ckpt with restore := 3, restReason := reason, restCut := cut, restReq := none, restNoState := false } := by
    simp only [restoreFails, h, (post_touches _ _ _ _ _).ckpt_eq]
  rw [hck]
  refine ⟨rfl, rfl, rfl, (restoreFails_touches s reason cut).steps_eq, ?_⟩
  simp only [restoreFails, h, (post_touches _ _ _ _ _).ctxAt_eq]
  exact congrArg Ctx.invalid (nth_updN_same s.ctxs (fun x => { x with invalid := true }) {} hc)

theorem restoreDone_fails {readError badPiece : Bool} {r : BitVec 128} {s : State} (h : s.ckpt.restReq = some r) (hc : restContext r = 0)
    (hw : restoreReason s r (restManifest s r) readError badPiece ≠ 0) :
    Gives (.restoreDone readError badPiece) s fun t => t.ckpt.restore = 3 ∧ t.ckpt.restReq = none ∧
      t.ckpt.restReason = restoreReason s r (restManifest s r) readError badPiece ∧ t.steps = s.steps ∧ (ctxAt t 0).invalid = true := by
  refine Gives.of (restoreDone_next readError badPiece h) ?_
  rw [restoreEnds_job s readError badPiece hc, if_pos hw]
  exact hc ▸ restoreFails_spec _ _ h (by rw [hc]; decide)

theorem Touches.meas_eq {W : List StatePart} {s t : State} (h : Touches W s t) (hw : W.contains .meas = false := by decide) :
    t.sec.meas = s.sec.meas := (h .meas hw).symm

/-- The state of a restore of the job that succeeds, before its record is posted. -/
def jobRestored (s : State) (r : BitVec 128) (m : Manifest) : State :=
  let u := onCtx (restoredSteps (restoreFills s r m) 0 (mfCut m.hdr)) 0 fun x => { x with restored := true, invalid := false }
  { u with ckpt := { u.ckpt with restore := 2, restReason := 0, restCut := mfCut m.hdr, restReq := none },
           sec := { u.sec with meas := updN u.sec.meas 6 fun d => extend d (shake256 (toBytes 256 m.hdr)) } }

theorem restoreSucceeds_job {r : BitVec 128} (s : State) (m : Manifest) (hc : restContext r = 0) :
    Touches [.host, .sent] (jobRestored s r m) (restoreSucceeds s r m) := by
  unfold restoreSucceeds
  rw [hc]
  exact post_touches (jobRestored s r m) _ _ _ _

theorem jobRestored_spec (s : State) (r : BitVec 128) (m : Manifest) :
    (jobRestored s r m).steps.committed = mfCut m.hdr ∧ (jobRestored s r m).ckpt.lastCut = mfCut m.hdr ∧ (jobRestored s r m).ckpt.restore = 2 ∧
      (ctxAt (jobRestored s r m) 0).restored = true ∧
      nth (jobRestored s r m).sec.meas 6 0 = extend (nth s.sec.meas 6 0) (shake256 (toBytes 256 m.hdr)) := by
  refine ⟨rfl, rfl, rfl, ?_, ?_⟩
  · exact congrArg Ctx.restored (ctxAt_onCtx_same (restoredSteps (restoreFills s r m) 0 (mfCut m.hdr)) (c := 0) _ (by decide))
  · have hm : (restoredSteps (restoreFills s r m) 0 (mfCut m.hdr)).sec.meas = s.sec.meas :=
      (restoredSteps_touches _ _ _).meas_eq.trans (restoreFills_touches _ _ _).meas_eq
    rw [← hm]
    exact nth_updN_same _ _ _ (by decide)

theorem restoreDone_succeeds {readError badPiece : Bool} {r : BitVec 128} {s : State} (h : s.ckpt.restReq = some r) (hc : restContext r = 0)
    (hw : restoreReason s r (restManifest s r) readError badPiece = 0) :
    Gives (.restoreDone readError badPiece) s fun t => t.steps.committed = mfCut (restManifest s r).hdr ∧
      t.ckpt.lastCut = mfCut (restManifest s r).hdr ∧ t.ckpt.restore = 2 ∧ (ctxAt t 0).restored = true ∧ t.dict = s.dict ∧
      nth t.sec.meas 6 0 = extend (nth s.sec.meas 6 0) (shake256 (toBytes 256 (restManifest s r).hdr)) := by
  refine Gives.of (restoreDone_next readError badPiece h) ?_
  rw [restoreEnds_job s readError badPiece hc, if_neg (not_not.mpr hw)]
  generalize restManifest s r = m
  have ht := restoreSucceeds_job s m hc
  obtain ⟨hn, hl, hr, hx, hm⟩ := jobRestored_spec s r m
  refine ⟨?_, ?_, ?_, ?_, rfl, ?_⟩
  · rw [← hn]; exact congrArg Steps.committed ht.steps_eq
  · rw [← hl]; exact congrArg Ckpt.lastCut ht.ckpt_eq
  · rw [← hr]; exact congrArg Ckpt.restore ht.ckpt_eq
  · rw [← hx]; exact congrArg Ctx.restored (ht.ctxAt_eq 0)
  · rw [← hm]; exact congrArg (nth · 6 0) ht.meas_eq

/-! ### Exports (13 R370) -/

theorem exportRequest_gives {src : Src} {req : BitVec 128} {s : State} (h : Passes s src 0x60001A 16 req.toNat (exportOwn s req)) :
    Gives (.exportRequest src req) s fun t => t.ckpt.expStatus = 1 ∧ t.ckpt.expReq = some req := by
  refine Gives.accepted h rfl fun t ht => ?_
  rw [ht.ckpt_eq]
  exact ⟨rfl, rfl⟩

/-- The end of an export that was requested. -/
theorem exportDone_next {r : BitVec 128} {s : State} (ok : Bool) (h : s.ckpt.expReq = some r) :
    exec (.exportDone ok) s = .next (exportEnds s r ok) := by
  show execExportDone ok s = _
  rw [execExportDone, h]

/-- An export's status as it ends, its staged bytes as they were. -/
theorem exportStatus_spec (s : State) (cut reason st : Nat) :
    (exportStatus s cut reason st).ckpt.expStatus = st ∧ (exportStatus s cut reason st).ckpt.expReason = reason ∧
      (exportStatus s cut reason st).ckpt.expReq = none ∧ (exportStatus s cut reason st).staging = s.staging := by
  refine ⟨?_, ?_, ?_, (exportStatus_touches s cut reason st).staging_eq⟩
  all_goals rw [exportStatus, (post_touches _ _ _ _ _).ckpt_eq]

theorem exportDone_no_manifest {ok : Bool} {r : BitVec 128} {s : State} (h : s.ckpt.expReq = some r)
    (hv : (areaManifest (nth s.ckpt.areas (restArea r) {})).valid = false) :
    Gives (.exportDone ok) s fun t => t.ckpt.expStatus = 3 ∧ t.ckpt.expReason = 1 ∧ t.ckpt.expReq = none ∧ t.staging = s.staging := by
  refine Gives.of (exportDone_next ok h) ?_
  rw [exportEnds, if_pos (by rw [hv]; rfl)]
  exact exportStatus_spec s 0 1 3

/-- Writes of the module into the aperture, one after the other. -/
theorem foldl_moduleStages_staging (ws : List (Nat × List Byte)) (s : State) :
    (ws.foldl (fun s w => moduleStages s w.1 w.2) s).staging = ws.foldl (fun m w => memPut m w.1 w.2) s.staging := by
  induction ws generalizing s with
  | nil => rfl
  | cons w r ih => exact ih (moduleStages s w.1 w.2)

/-- An export whose bytes all fit, in partitions that are not in reset, meets no failure. -/
theorem export_meets_no_failure {s : State} {ws : List (Nat × List Byte)}
    (h : (ws.all fun w => decide (w.1 + w.2.length ≤ 2 ^ 36) && !stageAway s w.1 w.2.length) = true) :
    (ws.any fun w => decide (w.1 + w.2.length > 2 ^ 36) || stageAway s w.1 w.2.length) = false := by
  rw [List.any_eq_false]
  intro w hw
  have hf := List.all_eq_true.mp h w hw
  rw [Bool.and_eq_true, decide_eq_true_eq, Bool.not_eq_true'] at hf
  obtain ⟨hlen, hshut⟩ := hf
  simpa [hshut] using hlen

theorem exportDone_writes {r : BitVec 128} {s : State} (h : s.ckpt.expReq = some r)
    (hv : (areaManifest (nth s.ckpt.areas (restArea r) {})).valid = true)
    (hw : ((exportWrites r (nth s.ckpt.areas (restArea r) {})).all fun w =>
      decide (w.1 + w.2.length ≤ 2 ^ 36) && !stageAway s w.1 w.2.length) = true) :
    Gives (.exportDone true) s fun t => t.ckpt.expStatus = 2 ∧ t.ckpt.expReason = 0 ∧ t.ckpt.expReq = none ∧
      t.staging = (exportWrites r (nth s.ckpt.areas (restArea r) {})).foldl (fun m w => memPut m w.1 w.2) s.staging := by
  refine Gives.of (exportDone_next true h) ?_
  unfold exportEnds
  extract_lets a ws
  have hv : (areaManifest a).valid = true := hv
  have hok : ¬(!true || ws.any fun w => decide (w.1 + w.2.length > 2 ^ 36) || stageAway s w.1 w.2.length) = true := by
    rw [export_meets_no_failure hw]
    decide
  rw [if_neg (by rw [hv]; decide), if_neg hok, ← foldl_moduleStages_staging]
  exact exportStatus_spec _ a.cut 0 2

/-- Settles O25, command by command. -/
theorem retainRestoreExport : Obligations.RetainRestoreExport :=
  ⟨fun _ _ _ _ _ h ha hd => retainCommand_gives h ha hd, fun _ _ _ h hd => retainCopyDone_gives h hd, fun _ _ _ h => releaseCommand_gives h,
    fun _ _ _ h => restoreRequest_gives h, fun _ _ _ _ h hc hw => restoreDone_fails h hc hw, fun _ _ _ h => exportRequest_gives h,
    fun _ _ _ h hv => exportDone_no_manifest h hv, fun _ _ h hv hw => exportDone_writes h hv hw,
    fun _ _ _ _ h hc hw => restoreDone_succeeds h hc hw⟩

end Sys2Proof.Machine
end

section
/-! SUPPORT. Classing, the writing of records, the operating time, and the escalation clear (14 R375 to R387, 15 R406). -/

-- One theorem at a time: the stacks of parallel proofs add up to more than the memory the check gives.
set_option Elab.async false

namespace Sys2Proof.Machine

/-! ### Classing (14 R377, R378, R381) -/

theorem Touches.ledger_eq {W : List StatePart} {s t : State} (h : Touches W s t) (hw : W.contains .ledger = false := by decide) :
    t.ledger = s.ledger := (h .ledger hw).symm

/-- The record that ostler 3 makes of an event. -/
def classedRec (s : State) (e : LRec) : LRec :=
  { e with cls := eventClass s e, gallop := decide (kindGroup e.kind = 3),
           retired := decide (eventClass s e = 3) && decide (unitClass s e.unit < 3) && retirable e.unit }

/-- The record of an event joins those that wait for the Farrier, before its class is acted on. -/
def leftToFarrier (s : State) (e : LRec) (rest : List LRec) : State :=
  { s with ledger := { s.ledger with events := rest, toWrite := s.ledger.toWrite ++ [classedRec s e], classed := classedKept s (classedRec s e) } }

theorem classed_eq (s : State) (e : LRec) (rest : List LRec) :
    classed s e rest = classAct (leftToFarrier s e rest) (classedRec s e) (unitClass s e.unit) := rfl

theorem leftToFarrier_touches (s : State) (e : LRec) (rest : List LRec) : Touches [.ledger] s (leftToFarrier s e rest) := by
  intro p hp
  cases p
  case ledger => exact absurd hp (by decide)
  all_goals rfl

/-- TRANSIENT, or a class that the unit has already, calls for no action. -/
theorem classAct_known {s : State} {r : LRec} {old : Nat} (h : r.cls ≤ max 1 old) : classAct s r old = s := by
  have h₂ : ¬(r.cls = 2 ∧ old < 2) := by omega
  have h₃ : ¬(r.cls = 3 ∧ old < 3) := by omega
  simp only [classAct, Bool.and_eq_true, decide_eq_true_eq, h₂, h₃, false_and, if_false]

theorem eventClass_informational {s : State} {e : LRec} (h : kindGroup e.kind = 0) : eventClass s e = 0 := if_pos h

theorem ledgerEventClassed_known {e : LRec} {rest : List LRec} {s : State} (he : s.ledger.events = e :: rest) (hb : ostlerBusy s 3 = false)
    (hc : eventClass s e ≤ max 1 (unitClass s e.unit)) :
    Gives .ledgerEventClassed s fun t => t.ledger.events = rest ∧ t.ledger.toWrite.map (·.kind) = s.ledger.toWrite.map (·.kind) ++ [e.kind] ∧
      t.ledger.toWrite.map (·.cls) = s.ledger.toWrite.map (·.cls) ++ [eventClass s e] ∧ Touches [.ledger] s t := by
  have hrun : exec .ledgerEventClassed s = .next (classed s e rest) := by
    show execLedgerEventClassed s = _
    simp only [execLedgerEventClassed, he, hb, Bool.false_eq_true, if_false]
  have hleft : classed s e rest = leftToFarrier s e rest := (classed_eq s e rest).trans (classAct_known hc)
  exact Gives.of (hrun.trans (congrArg _ hleft)) ⟨rfl, List.map_append, List.map_append, leftToFarrier_touches s e rest⟩

theorem ledgerEventClassed_informational {e : LRec} {rest : List LRec} {s : State} (he : s.ledger.events = e :: rest) (hb : ostlerBusy s 3 = false)
    (hk : kindGroup e.kind = 0) :
    Gives .ledgerEventClassed s fun t => t.ledger.events = rest ∧ t.ledger.toWrite.map (·.kind) = s.ledger.toWrite.map (·.kind) ++ [e.kind] ∧
      t.ledger.toWrite.map (·.cls) = s.ledger.toWrite.map (·.cls) ++ [0] := by
  have hcls : eventClass s e = 0 := eventClass_informational hk
  obtain ⟨t, ht, hevents, hkinds, hclasses, -⟩ := ledgerEventClassed_known he hb (hcls ▸ Nat.zero_le _)
  exact ⟨t, ht, hevents, hkinds, hcls ▸ hclasses⟩

/-! ### Writing records (14 R375, R384, R385) -/

/-- A record is numbered as it is written, and comes first in the ring; what waits is not looked at. -/
theorem recWritten_spec (l : Ledger) (e : LRec) : (recWritten l e).toWrite = l.toWrite ∧ (recWritten l e).written = l.written + 1 ∧
    (recWritten l e).ring = { e with seq := l.written + 1 } :: l.ring.take 262143 := by
  unfold recWritten
  extract_lets
  split
  · exact ⟨rfl, rfl, rfl⟩
  · exact ⟨rfl, rfl, rfl⟩

/-- The first record that waits is in the ledger, and the operating time in flash, before a notification of it. -/
def recordStored (s : State) (e : LRec) (rest : List LRec) : State :=
  { s with ledger := recWritten { s.ledger with toWrite := rest } e, clk := { s.clk with optimeFlash := optime s } }

theorem ledgerRecordWritten_next {e : LRec} {rest : List LRec} {s : State} (he : s.ledger.toWrite = e :: rest) (hon : s.dev.on = true)
    (hf : s.fw.farrierDown = false) :
    Gives .ledgerRecordWritten s fun t => Touches [.host, .sent] (recordStored s e rest) t := by
  refine Gives.of (t := if e.cls ≥ 2 && e.cls > ((summaryOf s e.unit).map (·.cls)).getD 0 then
    post (recordStored s e rest) 13 0x8000 2 (recordStored s e rest).ledger.written else recordStored s e rest) ?_ ?_
  · show execLedgerRecordWritten s = _
    simp only [execLedgerRecordWritten, he, hon, hf, Bool.not_true, Bool.or_self, Bool.false_eq_true, if_false]
    rfl
  · split
    · exact post_touches _ _ _ _ _
    · exact .refl

theorem ledgerRecordWritten_gives {e : LRec} {rest : List LRec} {s : State} (he : s.ledger.toWrite = e :: rest) (hon : s.dev.on = true)
    (hf : s.fw.farrierDown = false) :
    Gives .ledgerRecordWritten s fun t => t.ledger.toWrite = rest ∧ t.ledger.written = s.ledger.written + 1 ∧
      t.ledger.ring.head? = some { e with seq := s.ledger.written + 1 } ∧ t.ledger.ring.length ≤ 262144 ∧ t.clk.optimeFlash = optime s := by
  obtain ⟨t, ht, htouch⟩ := ledgerRecordWritten_next he hon hf
  obtain ⟨hwaits, hnumber, hring⟩ := recWritten_spec { s.ledger with toWrite := rest } e
  have hledger : t.ledger = recWritten { s.ledger with toWrite := rest } e := htouch.ledger_eq
  refine ⟨t, ht, hledger ▸ hwaits, hledger ▸ hnumber, ?_, ?_, ?_⟩
  · rw [hledger, hring, List.head?_cons]
  · rw [hledger, hring, List.length_cons, List.length_take]
    omega
  · rw [htouch.clk_eq]
    rfl

theorem optimeFlush_gives {s : State} (hon : s.dev.on = true) (hf : s.fw.farrierDown = false) :
    Gives .optimeFlush s fun t => t.clk.optimeFlash = optime t ∧ Touches [.clk] s t := by
  have hrun : exec .optimeFlush s = execOptimeFlush s := rfl
  have htouch := execOptimeFlush_touches s
  simp only [execOptimeFlush, hon, hf, Bool.not_true, Bool.or_self, Bool.false_eq_true, if_false] at hrun htouch
  exact Gives.of hrun ⟨rfl, htouch _ rfl⟩

/-! ### Escalation (15 R406) -/

theorem escalationClear_gives {src : Src} {s : State} (h : Passes s src 0x84000F 1 1 (escalationOwn s 1)) :
    Gives (.escalationClear src) s fun t => t.recov.partHist = [] ∧ t.recov.modHist = [] := by
  refine Gives.accepted h rfl fun t ht => ?_
  rw [ht.recov_eq]
  exact ⟨rfl, rfl⟩

/-- Settles O28, command by command. -/
theorem ledgerCourse : Obligations.LedgerCourse :=
  ⟨fun _ _ _ he hb hk => ledgerEventClassed_informational he hb hk, fun _ _ _ he hb hc => ledgerEventClassed_known he hb hc,
    fun _ _ _ he hon hf => ledgerRecordWritten_gives he hon hf, fun _ hon hf => optimeFlush_gives hon hf,
    fun _ _ h => escalationClear_gives h⟩

end Sys2Proof.Machine
end

section
/-! SUPPORT. Trot pieces, gallop runs, and the probes and resets of cores (14 R388 to R396, 15 R399). -/

-- One theorem at a time: the stacks of parallel proofs add up to more than the memory the check gives.
set_option Elab.async false

namespace Sys2Proof.Machine

/-! ### Trot (14 R388, R390) -/

theorem owedNow_congr {s t : State} (ht : t.tests = s.tests) (hp : t.place = s.place) : owedNow t = owedNow s := by
  simp only [owedNow, ht, coreActive, coreMapOf, hp]

/-- A core that is owed a repeat comes first. -/
theorem trotCore_owed {s : State} {o : Nat × Nat} {r : List (Nat × Nat)} {g : Nat} (ho : owedNow s = o :: r) (hg : trotCore s = some g) :
    o.1 = g := by
  have hfirst : trotCore s = if coreIdle s o.1 then some o.1 else none := by rw [trotCore, ho]
  rw [hfirst, Option.ite_none_right_eq_some] at hg
  exact Option.some.inj hg.2

theorem trotIssued_spec {s : State} {g : Nat} (k : Nat) (hg : trotCore s = some g) :
    (trotIssued s g k).tests.trot.map (·.1) = some g ∧ (trotIssued s g k).tests.trotRun = s.tests.trotRun + 1 := by
  unfold trotIssued
  extract_lets u v
  have hv : Touches [.clk, .cores] s v := .step (trotSweeps_touches _ _ _) (by decide) (.step (reach_touches _ _) (by decide) .refl)
  rw [owedNow_congr hv.tests_eq hv.place_eq, hv.tests_eq]
  split
  · exact ⟨congrArg some (trotCore_owed ‹_› hg), rfl⟩
  · exact ⟨rfl, rfl⟩

theorem trotPieceIssue_gives {g : Fin 136} {k : Nat} {s : State} (hm : mayTrot s = true) (hg : trotCore s = some g.val) :
    Gives (.trotPieceIssue g k) s fun t => t.tests.trot.map (·.1) = some g.val ∧ t.tests.trotRun = s.tests.trotRun + 1 :=
  Gives.of (if_pos (by simp [hm, hg])) (trotIssued_spec k hg)

/-- The piece in progress is over, its core's last sweep with it. -/
def trotOver (s : State) (g k : Nat) : State := sweepsEnd { s with tests := { s.tests with trot := none, trotAt := s.clk.now } } g k

theorem trotOver_tests (s : State) (g k : Nat) : (trotOver s g k).tests = { s.tests with trot := none, trotAt := s.clk.now } :=
  (sweepsEnd_touches _ _ _).tests_eq

theorem trotPieceComplete_passes {g k : Nat} {again : Bool} {s : State} (h : s.tests.trot = some (g, k, again)) :
    Gives (.trotPieceComplete true) s fun t => t.tests.trot = none ∧ t.tests.owed = s.tests.owed ∧ t.tests.trotFail = s.tests.trotFail := by
  refine Gives.of (t := trotOver s g k) ?_ ?_
  · show execTrotPieceComplete true s = _
    rw [execTrotPieceComplete, h]
    rfl
  · rw [trotOver_tests]
    exact ⟨rfl, rfl, rfl⟩

/-- A trot failure leaves the piece in progress and the repeats owed. -/
theorem trotEvent_tests (s : State) (g k : Nat) (again : Bool) :
    (trotEvent s g k again).tests.trot = s.tests.trot ∧ (trotEvent s g k again).tests.owed = s.tests.owed := by
  unfold trotEvent
  extract_lets lane rest detail counted
  have ht (r : LRec) : Touches [.ledger, .fw, .free] counted (drawn (drawn (faultEvent counted r))) :=
    .step (drawn_touches _) (by decide) (.step (drawn_touches _) (by decide) (faultEvent_touches _ _))
  rw [(ht _).tests_eq]
  exact ⟨rfl, rfl⟩

theorem trotPieceComplete_fails {g k : Nat} {again : Bool} {s : State} (h : s.tests.trot = some (g, k, again)) :
    Gives (.trotPieceComplete false) s fun t => t.tests.trot = none ∧ t.tests.trotFail = s.tests.trotFail + 1 ∧
      t.tests.owed = (if again then s.tests.owed else s.tests.owed ++ [(g, k)]) := by
  have hover := trotOver_tests s g k
  refine Gives.of (t := trotEvent { trotOver s g k with tests := { (trotOver s g k).tests with
    owed := if again then (trotOver s g k).tests.owed else (trotOver s g k).tests.owed ++ [(g, k)] } } g k again) ?_ ?_
  · show execTrotPieceComplete false s = _
    rw [execTrotPieceComplete, h]
    rfl
  · rw [trotEvent_trotFail, (trotEvent_tests _ g k again).1, (trotEvent_tests _ g k again).2, hover]
    exact ⟨rfl, rfl, rfl⟩

/-! ### Gallop runs (14 R391, R395, R396) -/

theorem beginCell_tests (s : State) : (beginCell s).tests = s.tests := (beginCell_touches s).tests_eq

/-- While a cell is left, the run goes on with it. -/
theorem nextCell_tests {s : State} (h : s.tests.cells ≠ []) : (nextCell s).tests = s.tests := by
  rw [nextCell, if_neg (by simpa using h), beginCell_tests]

theorem gallopBegin_spec {s : State} (h : pendCells s ++ sweepCells s ≠ []) : (gallopBegin s).tests.gState = 1 ∧
    (gallopBegin s).tests.cells = pendCells s ++ sweepCells s ∧ (gallopBegin s).tests.gTotal = (pendCells s ++ sweepCells s).length := by
  unfold gallopBegin
  extract_lets cells
  rw [nextCell_tests h]
  exact ⟨rfl, rfl, rfl⟩

theorem gallopStartCommand_gives {src : Src} {s : State} (hp : Passes s src 0x800020 1 1 (gallopOwn s 1)) (h : pendCells s ++ sweepCells s ≠ []) :
    Gives (.gallopStartCommand src) s fun t => t.tests.gState = 1 ∧ t.tests.cells = pendCells s ++ sweepCells s ∧
      t.tests.gTotal = (pendCells s ++ sweepCells s).length := by
  refine Gives.accepted hp rfl fun t ht => ?_
  rw [ht.tests_eq]
  exact gallopBegin_spec h

theorem gallopAutoStart_gives {s : State} (hd : s.dev.state = .spare) (hrun : rw s 0x800025 = 1) (hm : mayGallop s = true)
    (hb : ostlerBusy s 3 = false) (h : pendCells s ++ sweepCells s ≠ []) :
    Gives .gallopAutoStart s fun t => t.tests.gState = 1 ∧ t.tests.cells = pendCells s ++ sweepCells s := by
  obtain ⟨hstate, hcells, -⟩ := gallopBegin_spec (s := reach s s.tests.gDue) h
  exact Gives.of (if_pos (by simp [hd, hrun, hm, hb])) ⟨hstate, hcells⟩

theorem gallopAbort_spec {s : State} (h : s.tests.gState ≠ 0) : (gallopAbort s).tests.gState = 0 ∧ (gallopAbort s).tests.gResult = 3 ∧
    (gallopAbort s).tests.aborts = s.tests.aborts + 1 ∧ (gallopAbort s).tests.cells = [] := by
  rw [gallopAbort, if_neg h]
  exact ⟨rfl, rfl, congrArg (·.aborts + 1) (endCell_touches s).tests_eq, rfl⟩

theorem gallopStopCommand_gives {src : Src} {s : State} (hp : Passes s src 0x800020 1 2 (gallopOwn s 2)) (hrun : s.tests.gState ≠ 0)
    (hoos : s.tests.oosAfter = false) :
    Gives (.gallopStopCommand src) s fun t => t.tests.gState = 0 ∧ t.tests.gResult = 3 ∧ t.tests.aborts = s.tests.aborts + 1 ∧
      t.tests.cells = [] := by
  have hstop : gallopAct 2 s = gallopAbort s := by
    show gallopStop s = _
    rw [gallopStop, if_neg (by simp [hoos])]
  refine Gives.accepted hp rfl fun t ht => ?_
  rw [ht.tests_eq, hstop]
  exact gallopAbort_spec hrun

theorem gallopCellComplete_next {c : Cell} {rest : List Cell} {s : State} (failed : Bool) (hc : s.tests.cells = c :: rest)
    (hrun : s.tests.gState = 1) (hb : ostlerBusy s 3 = false) :
    exec (.gallopCellComplete failed) s = .next (if failed then cellFails (cellSweeps s c) c rest
      else nextCell { endCell (cellSweeps s c) with tests := { s.tests with cells := rest } }) := by
  show execGallopCellComplete failed s = _
  rw [execGallopCellComplete, hc]
  cases failed <;> simp [hrun, hb]

theorem gallopCellComplete_passes {c d : Cell} {rest : List Cell} {s : State} (hc : s.tests.cells = c :: d :: rest) (hrun : s.tests.gState = 1)
    (hb : ostlerBusy s 3 = false) :
    Gives (.gallopCellComplete false) s fun t => t.tests.cells = d :: rest ∧ t.tests.gState = 1 := by
  refine Gives.of (gallopCellComplete_next false hc hrun hb) ?_
  rw [if_neg Bool.false_ne_true, nextCell_tests (List.cons_ne_nil d rest)]
  exact ⟨rfl, hrun⟩

/-- A cell that fails for the first time counts as a failure and comes again at once. -/
theorem cellFails_first {s : State} {c : Cell} (rest : List Cell) (hr : c.repeat_ = false) :
    (cellFails s c rest).tests.gFails = s.tests.gFails + 1 ∧ (cellFails s c rest).tests.gState = s.tests.gState ∧
      (cellFails s c rest).tests.cells.map (·.repeat_) = true :: rest.map (·.repeat_) := by
  unfold cellFails
  extract_lets d fp _ _ _ _ failed
  have hd : ¬d.repeat_ = true := Bool.eq_false_iff.mp hr
  have hfailed : failed.tests = { s.tests with gFails := s.tests.gFails + 1, failedPend := fp } := (cellEvent_touches _ _ _).tests_eq
  rw [if_neg hd]
  exact ⟨(congrArg Tests.gFails hfailed :), (congrArg Tests.gState hfailed :), rfl⟩

theorem gallopCellComplete_fails {c : Cell} {rest : List Cell} {s : State} (hc : s.tests.cells = c :: rest) (hrun : s.tests.gState = 1)
    (hb : ostlerBusy s 3 = false) (hr : c.repeat_ = false) :
    Gives (.gallopCellComplete true) s fun t => t.tests.gFails = s.tests.gFails + 1 ∧ t.tests.gState = 1 ∧
      t.tests.cells.map (·.repeat_) = true :: rest.map (·.repeat_) := by
  obtain ⟨hfails, hstate, hcells⟩ := cellFails_first (s := cellSweeps s c) rest hr
  rw [(cellSweeps_touches s c).tests_eq] at hfails hstate
  refine Gives.of (gallopCellComplete_next true hc hrun hb) ?_
  rw [if_pos rfl]
  exact ⟨hfails, hstate.trans hrun, hcells⟩

/-! ### Probes and resets of cores (15 R399) -/

theorem probeEvent_next {s : State} {g : Nat} (c : Instr) (effect : State) (h : probeable s g = true) : probeEvent s g c effect = .next effect :=
  if_pos h

theorem coreProbeDone_passes {g : Fin 136} {s : State} (hn : (coreAt s g.val).probe = 1 ∨ (coreAt s g.val).probe = 3)
    (hp : probeable s g.val = true) :
    Gives (.coreProbeDone g true) s fun t => (coreAt t g.val).probe = 0 ∧ Touches [.cores] s t := by
  have hrun : exec (.coreProbeDone g true) s = .next (onCore_ (sweepsEnd s g.val (coreAt s g.val).probeCls) g.val fun k => { k with probe := 0 }) :=
    (if_pos (by simpa using hn)).trans (probeEvent_next _ _ hp)
  refine Gives.of hrun ⟨?_, (sweepsEnd_touches _ _ _).trans (onCore__touches _ _ _)⟩
  rw [coreAt_onCore_same _ _ (by omega)]

theorem coreAt_trotSweeps_probe (s : State) (g k : Nat) : (coreAt (trotSweeps s g k) g).probe = (coreAt s g).probe := by
  unfold trotSweeps
  split
  · exact coreAt_onCore_field Core.probe s g g fun _ => rfl
  · rfl

theorem coreResetDone_gives {g : Fin 136} {s : State} (hn : (coreAt s g.val).probe = 2) (hp : probeable s g.val = true) :
    Gives (.coreResetDone g) s fun t => (coreAt t g.val).probe = 3 ∧ Touches [.cores] s t := by
  have hrun : exec (.coreResetDone g) s = .next (probeSweeps (onCore_ s g.val fun k => { k with probe := 3 }) g.val) :=
    (if_pos hn).trans (probeEvent_next _ _ hp)
  refine Gives.of hrun ⟨?_, (onCore__touches _ _ _).trans (trotSweeps_touches _ _ _)⟩
  rw [probeSweeps, coreAt_trotSweeps_probe, coreAt_onCore_same _ _ (by omega)]

theorem Touches.cores_eq {W : List StatePart} {s t : State} (h : Touches W s t) (hw : W.contains .cores = false := by decide) :
    t.cores = s.cores := (h .cores hw).symm

/-- What is noted of the duplicates and arbiters that cores lose. -/
theorem lostNoted_touches (s : State) (gs : List Nat) : Touches [.num, .ledger, .fw, .free] s (arbitersLost (dupsRecorded s gs) gs) :=
  ((dupsRecorded_touches s gs).mono (by decide)).trans (arbitersLost_touches _ gs)

/-- A discard without halts clears the cores that it names, and counts no reset. -/
theorem discardOn_spec (s : State) (gs : List Nat) : (discardOn s gs false).cores = gs.foldl (fun v g => updN v g clearedCore) s.cores ∧
    (discardOn s gs false).tests.coreResets = s.tests.coreResets := by
  unfold discardOn
  extract_lets _ _ noted cleared _ stopped late
  have hlate : Touches [.vers, .steps] stopped late := lateDiscard_touches stopped
  have hstopped : stopped.cores = cleared.cores ∧ stopped.tests.coreResets = cleared.tests.coreResets := by
    simp only [stopped]
    split
    · exact ⟨rfl, rfl⟩
    · exact ⟨rfl, rfl⟩
  have hcores : noted.cores = s.cores := (lostNoted_touches _ gs).cores_eq
  have htests : noted.tests = s.tests := (lostNoted_touches _ gs).tests_eq
  rw [if_neg Bool.false_ne_true, hlate.cores_eq, hlate.tests_eq, hstopped.1, hstopped.2]
  exact ⟨congrArg (gs.foldl _) hcores, congrArg Tests.coreResets htests⟩

/-- What is discarded on one core leaves its queue empty. -/
theorem discardOn_queue (s : State) {g : Nat} (h : g < 145) : (coreAt (discardOn s [g] false) g).queue = [] := by
  rw [coreAt, (discardOn_spec s [g]).1]
  exact congrArg Core.queue (nth_updN_same s.cores clearedCore {} h)

/-- A core without a reset in the last 600 s is reset: its queue is empty, and the reset counts. -/
theorem coreReset_spec {s : State} {g : Nat} (hg : g < 145) (h : ∀ x ∈ (coreAt s g).resets, optime s > x + 600) :
    (coreAt (coreReset s g) g).probe = 2 ∧ (coreAt (coreReset s g) g).queue = [] ∧
      (coreReset s g).tests.coreResets = s.tests.coreResets + 1 := by
  have hfirst : ¬((coreAt s g).resets.any fun t => decide (optime s ≤ t + 600)) = true := by
    simpa using h
  rw [coreReset, if_neg hfirst]
  extract_lets u
  have hcleared := storeCleared_touches (discardOn s [g] false) g
  have hu : coreAt u g = { coreAt (discardOn s [g] false) g with
      probe := 2, resets := optime s :: (coreAt (discardOn s [g] false) g).resets } :=
    (coreAt_onCore_same _ _ hg).trans (by rw [hcleared.coreAt_eq])
  have hcount : u.tests.coreResets = s.tests.coreResets :=
    (congrArg Tests.coreResets hcleared.tests_eq).trans (discardOn_spec s [g]).2
  exact ⟨congrArg Core.probe hu, (congrArg Core.queue hu).trans (discardOn_queue s hg), congrArg (· + 1) hcount⟩

theorem coreProbeTimeout_resets {g : Fin 136} {s : State} (hn : (coreAt s g.val).probe = 1) (hp : probeable s g.val = true)
    (h : ∀ x ∈ (coreAt s g.val).resets, optime s > x + 600) :
    Gives (.coreProbeTimeout g) s fun t => (coreAt t g.val).probe = 2 ∧ (coreAt t g.val).queue = [] ∧
      t.tests.coreResets = s.tests.coreResets + 1 := by
  have hrun : exec (.coreProbeTimeout g) s = .next (coreReset s g.val) :=
    ((if_pos (by simp [hn])).trans (probeEvent_next _ _ hp)).trans (congrArg _ (if_pos hn))
  exact Gives.of hrun (coreReset_spec (by omega) h)

/-- Settles O29, command by command. -/
theorem trotAndGallop : Obligations.TrotAndGallop :=
  ⟨fun _ _ _ hm hg => trotPieceIssue_gives hm hg, fun _ _ _ _ h => trotPieceComplete_passes h, fun _ _ _ _ h => trotPieceComplete_fails h,
    fun _ _ hp h => gallopStartCommand_gives hp h, fun _ _ hp hrun hoos => gallopStopCommand_gives hp hrun hoos,
    fun _ hd hrun hm hb h => gallopAutoStart_gives hd hrun hm hb h, fun _ _ _ _ hc hrun hb => gallopCellComplete_passes hc hrun hb,
    fun _ _ _ hc hrun hb hr => gallopCellComplete_fails hc hrun hb hr, fun _ _ hn hp => coreProbeDone_passes hn hp,
    fun _ _ hn hp h => coreProbeTimeout_resets hn hp h, fun _ _ hn hp => coreResetDone_gives hn hp⟩

end Sys2Proof.Machine
end

section
/-! SUPPORT. The resets that failed restarts of an ostler and a silent hub force (15 R401, 16 R436, 18 R469). -/

-- One theorem at a time: the stacks of parallel proofs add up to more than the memory the check gives.
set_option Elab.async false

namespace Sys2Proof.Machine

theorem Touches.power_eq {W : List StatePart} {s t : State} (h : Touches W s t) (hw : W.contains .power = false := by decide) :
    t.power = s.power := (h .power hw).symm

/-! ### When a reset runs at once (16 R437, 18 R472) -/

/-- A reset runs at once: the module is on and past BOOT, no power-down or hold-off is in progress, and the Farrier answers. -/
structure ResetsAtOnce (s : State) : Prop where
  on      : s.dev.on = true
  down    : s.dev.down = none
  holdoff : s.dev.holdoff = false
  state   : s.dev.state ≠ .boot
  farrier : s.fw.farrierDown = false

/-- What firmware does before a reset, crash dumps among it, leaves the reset to run at once. -/
theorem ResetsAtOnce.frame {W : List StatePart} {s t : State} (h : ResetsAtOnce s) (ht : Touches W s t)
    (hf : t.fw.farrierDown = s.fw.farrierDown) (hd : W.contains .dev = false := by decide) (hs : W.contains .devState = false := by decide) :
    ResetsAtOnce t where
  on      := (ht.dev_eq (·.on) (hw := hd)).trans h.on
  down    := (ht.dev_eq (·.down) (hw := hd)).trans h.down
  holdoff := (ht.dev_eq (·.holdoff) (hw := hd)).trans h.holdoff
  state   := by rw [ht.devState_eq hs]; exact h.state
  farrier := hf.trans h.farrier

/-- A module reset is in progress, with its cause, from the step after LEAVING on (16 R436). -/
structure ModuleResetBegun (cause : Nat) (d : Dev) : Prop where
  state : d.state = .boot
  kind  : d.lastKind = 1
  cause : d.lastCause = cause
  down  : d.down = some ⟨2, true⟩

theorem modReset_begun {s : State} (cause : Nat) (h : ResetsAtOnce s) (ht : s.power.trip = false) : ModuleResetBegun cause (modReset s cause).dev := by
  have hrun : modReset s cause = modResetRun s cause := by
    simp [modReset, moduleResetting, h.on, ht, h.down, h.holdoff, h.state, h.farrier]
  rw [hrun]
  exact ⟨rfl, rfl, rfl, rfl⟩

/-- Past BOOT no hub image is on trial by booting, and the module reset is a plain one (18 R477). -/
theorem hubReset_begun {s : State} (h : ResetsAtOnce s) (ht : s.power.trip = false) : ModuleResetBegun 4 (hubReset s).dev := by
  have hplain : hubReset s = modReset s 4 := by simp [hubReset, hubBooting, booting, h.state]
  rw [hplain]
  exact modReset_begun 4 h ht

/-! ### What a dump leaves of the ostlers (18 R482, R484) -/

@[simp] theorem storeDump_ostlers (s : State) (skip : Nat) (h : BitVec 256) (body : Nat) : (storeDump s skip h body).fw.ostlers = s.fw.ostlers := by
  unfold storeDump
  split <;> rfl

@[simp] theorem storeDump_dumpOnly (s : State) (skip : Nat) (h : BitVec 256) (body : Nat) :
    (storeDump s skip h body).fw.dumpOnly = s.fw.dumpOnly := by
  unfold storeDump
  split <;> rfl

theorem ostlerAt_onOstler_same (s : State) {o : Nat} (f : Ostler → Ostler) (h : o < 12) : ostlerAt (onOstler s o f) o = f (ostlerAt s o) :=
  nth_updN_same _ _ _ h

/-- The failed restarts that count are those of the ostler's own record and of the clock. -/
theorem recentFails_congr {s t : State} {o : Nat} (hf : (ostlerAt t o).fails = (ostlerAt s o).fails) (hc : t.clk = s.clk) :
    recentFails t o = recentFails s o := by
  rw [recentFails, hf, hc]
  rfl

/-! ### A restart that has failed (18 R469) -/

/-- From `s` to `u` firmware alone has worked: the Farrier answers as before, and ostler `o` has the same failed restarts. -/
structure KeepsRestarts (o : Nat) (s u : State) : Prop where
  touches : Touches [.fw, .free] s u
  farrier : u.fw.farrierDown = s.fw.farrierDown
  recent  : recentFails u o = recentFails s o

theorem KeepsRestarts.refl (o : Nat) (s : State) : KeepsRestarts o s s := ⟨.refl, rfl, rfl⟩

/-- A dump whose program then fails its digest is a restart that has failed, after the dump is stored (18 R468, R469). -/
theorem ostlerDumped_fails {o : Nat} {s : State} (trig stamp n timeouts size : Nat) (truncated : Bool) (ho : o < 12) (honly : o ∉ s.fw.dumpOnly) :
    ∃ u, ostlerDumped s o trig stamp n false timeouts truncated size = restartFails u o 2 ∧ KeepsRestarts o s u := by
  unfold ostlerDumped
  extract_lets kept hdr stored only _ left
  have hkept : Touches [.fw, .free] s kept := .step (drawn_touches _) (by decide) ((onOstler_touches _ _ _).mono (by decide))
  have hstored : Touches [.fw, .free] s stored := .step (storeDump_touches _ _ _ _) (by decide) hkept
  have hrest : only = false := by
    have hsame : stored.fw.dumpOnly = s.fw.dumpOnly := storeDump_dumpOnly kept 9 hdr _
    simpa [only, hsame] using honly
  have hostler : (ostlerAt stored o).fails = (ostlerAt s o).fails := by
    have hsame : ostlerAt stored o = ostlerAt kept o := by rw [ostlerAt, storeDump_ostlers]; rfl
    rw [hsame]
    exact (congrArg Ostler.fails (ostlerAt_onOstler_same s (fun k => { k with contents := s.free }) ho) :)
  have hleft : Touches [.fw, .free] stored left := by
    intro p hp
    cases p
    case fw => exact absurd hp (by decide)
    all_goals rfl
  refine ⟨left, ?_, hstored.trans hleft, storeDump_farrierDown kept 9 hdr _, recentFails_congr hostler hstored.clk_eq⟩
  rw [hrest, if_neg Bool.false_ne_true, if_neg (by simp)]

theorem ostlerStops_fails {o : Nat} {s : State} (trig : Nat) {n : Nat} (hon : ostlersOn s = true) (hrun : (ostlerAt s o).state = 0)
    (hready : (ostlerAt s o).readyAt = some n) (hsoon : s.clk.now < n + 1000000000) : ostlerStops s o trig = restartFails s o trig := by
  unfold ostlerStops
  extract_lets k
  have hany : (k.readyAt.any fun t => decide (s.clk.now < t + 1000000000)) = true := by
    rw [show k.readyAt = some n from hready, Option.any_some, decide_eq_true hsoon]
  rw [if_neg (by simp [hon, k, hrun]), if_pos hany]

/-- Each way to fail a restart comes to the same. -/
theorem failsNow_next {c : Instr} {o : Fin 12} {s : State} (h : FailsNow c o s) :
    ∃ u trig, exec c s = .next (restartFails u o.val trig) ∧ KeepsRestarts o.val s u := by
  rcases h with ⟨rfl, hwaits⟩ | ⟨⟨timeouts, truncated, size, rfl⟩, hdump, honly⟩ | ⟨hc, hon, hrun, n, hready, hsoon⟩
  · exact ⟨s, 2, if_pos hwaits, .refl o.val s⟩
  · obtain ⟨d, hd⟩ := Option.isSome_iff_exists.mp (List.find?_isSome.mpr (List.any_eq_true.mp hdump))
    obtain ⟨u, hu, hkeeps⟩ := ostlerDumped_fails d.2.1 d.2.2.1 d.2.2.2 timeouts size truncated o.isLt honly
    refine ⟨u, 2, ?_, hkeeps⟩
    show execOstlerDumpDone o false timeouts truncated size s = _
    rw [execOstlerDumpDone, hd, ← hu]
  · rcases hc with rfl | rfl
    · exact ⟨s, 1, congrArg _ (ostlerStops_fails 1 hon hrun hready hsoon), .refl o.val s⟩
    · exact ⟨s, 2, congrArg _ (ostlerStops_fails 2 hon hrun hready hsoon), .refl o.val s⟩

/-! ### The third failure within 60 s (15 R401) -/

theorem restartFails_third {s : State} {o : Nat} (trig : Nat) (h : 2 ≤ (recentFails s o).length) :
    ∃ u, restartFails s o trig = ostlerReset u o trig ∧ Touches [.fw] s u ∧ u.fw.farrierDown = s.fw.farrierDown := by
  unfold restartFails
  extract_lets recent cleared
  have hthird : ¬ recent.length < 3 := by
    show ¬ (recentFails s o).length + 1 < 3
    omega
  have hcleared : Touches [.fw] s cleared := onOstler_touches s o _
  rw [if_neg hthird]
  split
  · exact ⟨_, rfl, hcleared.trans (restartBegins_touches _ _ _), rfl⟩
  · exact ⟨_, rfl, hcleared.trans (onOstler_touches _ _ _), rfl⟩

/-- So the third failure leads to the ostler's reset, in a state that only firmware has worked on. -/
theorem failsNow_third {c : Instr} {o : Fin 12} {s : State} (h : FailsNow c o s) (hthird : 2 ≤ (recentFails s o.val).length) :
    ∃ u trig, exec c s = .next (ostlerReset u o.val trig) ∧ Touches [.fw, .free] s u ∧ u.fw.farrierDown = s.fw.farrierDown := by
  obtain ⟨u, trig, hu, hkeeps⟩ := failsNow_next h
  obtain ⟨v, hv, htouches, hfarrier⟩ := restartFails_third trig (by rwa [hkeeps.recent])
  exact ⟨v, trig, by rw [hu, hv], hkeeps.touches.trans (htouches.mono (by decide)), hfarrier.trans hkeeps.farrier⟩

theorem thirdFailure_partition {c : Instr} {o : Fin 12} {p : Fin 8} {s : State} (h : FailsNow c o s) (hop : o.val = 4 + p.val)
    (hthird : 2 ≤ (recentFails s o.val).length) (hr : ResetsAtOnce s) (hout : s.dev.state ≠ .outOfService)
    (hp : s.dev.inReset.getLsbD p.val = false) : Gives c s fun t => ∀ d ∈ partDomains p.val, t.domains.getLsbD d = false := by
  obtain ⟨u, trig, hu, ht, hf⟩ := failsNow_third h hthird
  have hru := hr.frame ht hf
  have hpart : ostlerReset u o.val trig = partReset u p.val 4 := by
    rw [ostlerReset, if_pos (by omega), hop, Nat.add_sub_cancel_left]
  refine Gives.of (hu.trans (congrArg _ hpart)) (partReset_off 4 hru.on hru.down hru.holdoff hru.state ?_ ?_ hru.farrier)
  · rwa [ht.devState_eq]
  · exact (congrArg (·.getLsbD p.val) (ht.dev_eq (·.inReset))).trans hp

theorem thirdFailure_module {c : Instr} {o : Fin 12} {s : State} (h : FailsNow c o s) (ho : o.val < 4)
    (hthird : 2 ≤ (recentFails s o.val).length) (hr : ResetsAtOnce s) (htrip : s.power.trip = false) :
    Gives c s fun t => ModuleResetBegun 4 t.dev := by
  obtain ⟨u, trig, hu, ht, hf⟩ := failsNow_third h hthird
  have hdumps : Touches [.fw, .free] u (flashSummary (fullDump u 9 trig o.val 8 65536) trig o.val 8) :=
    (fullDump_touches _ _ _ _ _ _).trans (flashSummary_touches _ _ _ _)
  have hmodule : ostlerReset u o.val trig = hubReset (flashSummary (fullDump u 9 trig o.val 8 65536) trig o.val 8) := if_neg (by omega)
  refine Gives.of (hu.trans (congrArg _ hmodule)) (hubReset_begun ((hr.frame ht hf).frame hdumps (by simp)) ?_)
  rw [(ht.trans hdumps).power_eq, htrip]

/-! ### The hub's heartbeat (15 R401, 18 R482) -/

theorem hubWatchdogExpiry_resets {s : State} (hr : ResetsAtOnce s) (htrip : s.power.trip = false) (h40 : s.domains.getLsbD 40 = true) :
    Gives .hubWatchdogExpiry s fun t => ModuleResetBegun 3 t.dev := by
  have hs := flashSummary_touches s 4 15 8
  refine Gives.of (t := modReset (flashSummary s 4 15 8) 3) ?_
    (modReset_begun 3 (hr.frame hs rfl) (by rw [hs.power_eq, htrip]))
  simp [exec, execHubWatchdogExpiry, hubBooting, moduleResetting, hr.on, hr.down, hr.holdoff, hr.state, hr.farrier, h40]

/-- Settles O35: a third failure by the ostler's reset that every way to fail comes to, the hub's silence by the module reset itself. -/
theorem restartsForceResets : Obligations.RestartsForceResets := by
  refine ⟨fun c o p s h hop hthird hon hd hh hb hout hp hf => thirdFailure_partition h hop hthird ⟨hon, hd, hh, hb, hf⟩ hout hp,
    fun c o s h ho hthird hon htrip hd hh hb hf => ?_, fun s hon htrip hf h40 hd hh hb => ?_⟩
  · obtain ⟨t, ht, hstate, hkind, hcause, hdown⟩ := thirdFailure_module h ho hthird ⟨hon, hd, hh, hb, hf⟩ htrip
    exact ⟨t, ht, hstate, hkind, hcause, hdown⟩
  · obtain ⟨t, ht, hstate, hkind, hcause, hdown⟩ := hubWatchdogExpiry_resets ⟨hon, hd, hh, hb, hf⟩ htrip h40
    exact ⟨t, ht, hstate, hkind, hcause, hdown⟩

end Sys2Proof.Machine
end

section
/-! SUPPORT. Fences: proposals, floods, aborts on behalf of others, records and requests, with the flits that carry them (11 R305, 15 R411 to
R415, R425). -/

-- One theorem at a time: the stacks of parallel proofs add up to more than the memory the check gives.
set_option Elab.async false

namespace Sys2Proof.Machine

/-! ### What control flits add to what is sent (11 R305; log 224) -/

theorem pushFlit_sent (s : State) (l : Nat) (f : Flit) : s.sent <+: (pushFlit s l f).sent := by
  unfold pushFlit
  extract_lets k g
  split
  · exact List.prefix_append _ _
  · exact List.prefix_rfl

theorem controlOn_sent (s : State) (d : Dir) (payload : List Byte) : s.sent <+: (controlOn s d payload).sent := by
  unfold controlOn
  extract_lets h
  split
  · split
    · exact pushFlit_sent s _ _
    · exact List.prefix_rfl
  · exact List.prefix_rfl

theorem foldl_sent {α : Type} {f : State → α → State} (hf : ∀ s a, s.sent <+: (f s a).sent) (l : List α) (s : State) :
    s.sent <+: (l.foldl f s).sent :=
  List.foldlRecOn (motive := fun u => s.sent <+: u.sent) l f List.prefix_rfl fun _ h a _ => h.trans (hf _ a)

/-- From a module that forwards, a fence record is sent before the flits that carry it. -/
theorem sendFence_sent {s : State} (r : BitVec 128) (ds : List Nat) (h : forwards s.dev.state = true) :
    s.sent ++ [.fence r ds] <+: (sendFence s r ds).sent := by
  rw [sendFence, if_pos h]
  exact foldl_sent (fun u _ => controlOn_sent u _ _) ds (emit s (.fence r ds))

theorem sendFence_shut {s : State} (r : BitVec 128) (ds : List Nat) (h : forwards s.dev.state = false) : sendFence s r ds = s :=
  if_neg (by simp [h])

theorem eq_append_cons_of_prefix {l m : List Emit} {e : Emit} (h : l ++ [e] <+: m) : ∃ more, m = l ++ e :: more := by
  obtain ⟨more, rfl⟩ := h
  exact ⟨more, List.append_assoc l [e] more⟩

/-- Traffic leaves the directions that are served. -/
theorem liveDirs_congr {s t : State} (h : Carries s t) : liveDirs t = liveDirs s := by simp only [liveDirs, dirLinks_congr h.links]

/-! ### Proposals (15 R411, R413) -/

/-- The record of a fence of the neighbour in direction `d`. -/
def neighbourRec (s : State) (d : Dir) (reason : Nat) : BitVec 128 := fenceRec s (serialOf s d) (stepCoord s (ownCoord s) d) reason

/-- A fence of the neighbour in direction `d` is to be proposed: the module is in a job, the neighbour in its block, and the fence is new. -/
structure ProposalDue (s : State) (d : Dir) (reason : Nat) : Prop where
  job   : inJob s = true
  step  : stepInBlock s (ownCoord s) d = true
  place : inBlock s (stepCoord s (ownCoord s) d) = true
  new   : knowsFence s (neighbourRec s d reason) = false

/-- Which fences are new does not turn on the time. -/
theorem ProposalDue.later {s : State} {d : Dir} {reason : Nat} (h : ProposalDue s d reason) (n : Nat) : ProposalDue (reach s n) d reason :=
  ⟨h.job, h.step, h.place, h.new⟩

/-- A record is the module's own proposal, with its NOTICE bit. -/
def ownProposal (s : State) (r : BitVec 128) : State :=
  { s with recov := { s.recov with own := s.recov.own ++ [(r, s.clk.now)], notice := s.recov.notice ||| noticeBit r } }

theorem proposeNeighbour_due {s : State} {d : Dir} {reason : Nat} (h : ProposalDue s d reason) :
    proposeNeighbour s d reason = sendFence (ownProposal s (neighbourRec s d reason)) (neighbourRec s d reason) (liveDirs s) := by
  have hnew : knowsFence s (fenceRec s (serialOf s d) (stepCoord s (ownCoord s) d) reason) = false := h.new
  rw [proposeNeighbour, if_pos h.step]
  exact if_neg (by simp [h.job, h.place, hnew])

theorem proposeNeighbour_own {s : State} {d : Dir} {reason : Nat} (h : ProposalDue s d reason) :
    (proposeNeighbour s d reason).recov.own.map (·.1) = s.recov.own.map (·.1) ++ [neighbourRec s d reason] := by
  rw [proposeNeighbour_due h, (sendFence_touches _ _ _).recov_eq]
  exact List.map_append

theorem proposeNeighbour_sent {s : State} {d : Dir} {reason : Nat} (h : ProposalDue s d reason) (hf : forwards s.dev.state = true) :
    ∃ more, (proposeNeighbour s d reason).sent = s.sent ++ .fence (neighbourRec s d reason) (liveDirs s) :: more := by
  rw [proposeNeighbour_due h]
  exact eq_append_cons_of_prefix (sendFence_sent (s := ownProposal s (neighbourRec s d reason)) _ _ hf)

theorem fenceProposalTimer_gives {d : Dir} {s : State} (hsilent : (sideOf s d).silent = true) (h : ProposalDue s d 1)
    (hf : forwards s.dev.state = true) :
    Gives (.fenceProposalTimer d) s fun t => t.recov.own.map (·.1) = s.recov.own.map (·.1) ++ [neighbourRec s d 1] ∧
      ∃ more, t.sent = s.sent ++ .fence (neighbourRec s d 1) (liveDirs s) :: more :=
  have hdue := h.later ((sideOf s d).lossAt + 1000000)
  Gives.of (if_pos hsilent) ⟨proposeNeighbour_own hdue, proposeNeighbour_sent hdue hf⟩

theorem recoveryPatienceExpiry_gives {d : Dir} {s : State} (hwait : s.recov.wait = true) (hnb : (sideOf s d).nbState = some .recovery)
    (h : ProposalDue s d 4) :
    Gives (.recoveryPatienceExpiry d) s fun t => t.recov.own.map (·.1) = s.recov.own.map (·.1) ++ [neighbourRec s d 4] :=
  Gives.of (if_pos (by simp [hwait, hnb])) (proposeNeighbour_own (h.later _))

/-- A fence command that passes is given in a job. -/
theorem fenceOwn_inJob {s : State} {coord : Nat} {d : Dir} (h : fenceOwn s coord = 0) (hd : neighbourAt s coord = some d) : inJob s = true := by
  simpa [fenceOwn, firstReason, hd] using h

theorem fenceCommand_gives {src : Src} {coord : BitVec 32} {d : Dir} {s : State}
    (hp : Passes s src 0x84000E 4 coord.toNat (fenceOwn s coord.toNat)) (hd : neighbourAt s coord.toNat = some d) (h : ProposalDue s d 6) :
    Gives (.fenceCommand src coord) s fun t => t.recov.own.map (·.1) = s.recov.own.map (·.1) ++ [neighbourRec s d 6] := by
  have hact : fenceAct coord.toNat s = proposeNeighbour s d 6 := by rw [fenceAct, hd]
  refine Gives.accepted hp rfl fun t ht => ?_
  rw [ht.recov_eq, hact]
  exact proposeNeighbour_own h

/-! ### Floods (15 R413) -/

/-- One of the module's own proposals is flooded. -/
def flood (s : State) (x : BitVec 128 × Nat) : State := sendFence s x.1 (liveDirs s)

theorem flood_touches (s : State) (x : BitVec 128 × Nat) : Touches [.links, .sent] s (flood s x) := sendFence_touches _ _ _

theorem flood_sent (s : State) (x : BitVec 128 × Nat) : s.sent <+: (flood s x).sent := by
  cases hf : forwards s.dev.state with
  | false => rw [flood, sendFence_shut _ _ hf]
  | true => exact (List.prefix_append _ _).trans (sendFence_sent x.1 (liveDirs s) hf)

/-- A flood sends every record in the directions that are served: the flits of one leave those directions for the next. -/
theorem mem_sent_foldl_flood (l : List (BitVec 128 × Nat)) {s : State} (hf : forwards s.dev.state = true) :
    ∀ x ∈ l, .fence x.1 (liveDirs s) ∈ (l.foldl flood s).sent := by
  induction l generalizing s with
  | nil => simp
  | cons x rest ih =>
    have hlive : liveDirs (flood s x) = liveDirs s := liveDirs_congr (sendFence_carries _ _ _)
    have hx : .fence x.1 (liveDirs s) ∈ (flood s x).sent := (sendFence_sent x.1 (liveDirs s) hf).subset (by simp)
    refine List.forall_mem_cons.mpr ⟨(foldl_sent flood_sent rest (flood s x)).subset hx, ?_⟩
    rw [← hlive]
    exact ih (by rw [(flood_touches s x).devState_eq, hf])

theorem foldl_flood_shut (l : List (BitVec 128 × Nat)) {s : State} (hf : forwards s.dev.state = false) : l.foldl flood s = s :=
  List.foldlRecOn (motive := fun u => u = s) l flood rfl fun u hu x _ => by rw [hu, flood, sendFence_shut _ _ hf]

theorem fenceFloodRepeat_next (s : State) : ∃ n, exec .fenceFloodRepeat s = .next (s.recov.own.foldl flood (reach s n)) := by
  show ∃ n, execFenceFloodRepeat s = _
  unfold execFenceFloodRepeat
  cases s.recov.own with
  | nil =>
    have hnow : reach s s.clk.now = s := by rw [reach, max_self]
    exact ⟨s.clk.now, congrArg _ hnow.symm⟩
  | cons x rest => exact ⟨x.2 + 100000, rfl⟩

theorem fenceFloodRepeat_floods {s : State} (hf : forwards s.dev.state = true) :
    Gives .fenceFloodRepeat s fun t => (∀ x ∈ s.recov.own, .fence x.1 (liveDirs s) ∈ t.sent) ∧ t.recov = s.recov := by
  obtain ⟨n, hn⟩ := fenceFloodRepeat_next s
  have ht : Touches [.links, .sent] (reach s n) (s.recov.own.foldl flood (reach s n)) := .fold flood_touches .refl
  exact Gives.of hn ⟨mem_sent_foldl_flood s.recov.own (s := reach s n) hf, ht.recov_eq⟩

theorem fenceFloodRepeat_shut {s : State} (hf : forwards s.dev.state = false) :
    Gives .fenceFloodRepeat s fun t => t.sent = s.sent ∧ t.recov = s.recov := by
  obtain ⟨n, hn⟩ := fenceFloodRepeat_next s
  rw [foldl_flood_shut s.recov.own (s := reach s n) hf] at hn
  exact Gives.of hn ⟨rfl, rfl⟩

/-! ### The abort on behalf of a fenced neighbour (15 R413 point 3) -/

/-- The abort of the next step is held behind what channel 0 has received early. -/
theorem nextAbort_early (s : State) (k n : Nat) : (chanAt (nextAbort s k n) 0).early =
    (chanAt s 0).early ++ [(gen0 (n + 1), 3, false, k, BitVec.ofNat 32 (abortWord s n))] := by
  unfold nextAbort
  extract_lets w
  have hsent : chanAt (sendDown s (n + 1) w allDirs) 0 = chanAt s 0 := by rw [chanAt, (sendDown_touches _ _ _ _).chans_eq]; rfl
  rw [chanAt_onChan_same _ _ (by decide), hsent]

theorem fenceAbort_held {s : State} {r : BitVec 128} {d : Dir} (hother : fenceCoord r ≠ ownCoord s) (hd : dirTo s (fenceCoord r) = some d)
    (hheld : holdsFrom s d = true) : fenceAbort s r = nextAbort s (dirCode d) (stepClosing s) := by
  rw [fenceAbort, if_neg hother, hd]
  exact if_pos hheld

theorem fenceProxyAbort_gives {slot : Fin 6} {r : BitVec 128} {at_ : Nat} {d : Dir} {s : State}
    (hown : s.recov.own.find? (fun x => slotOf x.1 = slot.val) = some (r, at_)) (hother : fenceCoord r ≠ ownCoord s)
    (hd : dirTo s (fenceCoord r) = some d) (hheld : holdsFrom s d = true) :
    Gives (.fenceProxyAbort slot) s fun t => (chanAt t 0).early = (chanAt s 0).early ++
      [(gen0 (stepClosing s + 1), 3, false, dirCode d, BitVec.ofNat 32 (abortWord s (stepClosing s)))] := by
  have habort : fenceAbort (reach s (at_ + 100000)) r = nextAbort (reach s (at_ + 100000)) (dirCode d) (stepClosing s) :=
    fenceAbort_held hother hd hheld
  refine Gives.of (t := fenceAbort (reach s (at_ + 100000)) r) ?_ ?_
  · show execFenceProxyAbort slot s = _
    rw [execFenceProxyAbort, hown]
  · rw [habort]
    exact nextAbort_early _ _ _

/-! ### Records (15 R413, R415) -/

/-- A record that is neither known nor discarded is taken (R413). -/
theorem recordHere_new {s : State} (l : Nat) {r : BitVec 128} (hblock : inBlock s (fenceCoord r) = true) (hnew : knowsFence s r = false)
    (hdropped : s.recov.dropped.any (sameFence r) = false) : recordHere s l r = takeRecord s r (linkDir s l) := by
  obtain ⟨hholds, -⟩ := Bool.or_eq_false_iff.mp hnew
  exact if_pos (by simp only [hblock, hholds, hdropped, Bool.or_self, Bool.not_false, Bool.and_self])

theorem adoptAsked_unasked {s : State} {slot : Nat} (h : s.recov.asked.getLsbD slot = false) : adoptAsked s slot = s := if_neg (by simp [h])

/-- A record of another module that no adopted one opposes is forwarded and then kept, at a member of the job that has not asked for it. -/
theorem takeRecord_kept {s : State} {r : BitVec 128} (came : Dir) (hset : (s.recov.set.any fun q => opposed q r) = false)
    (hother : fenceCoord r ≠ ownCoord s) (hjob : inJob s = true) (hasked : s.recov.asked.getLsbD (slotOf r) = false) :
    (takeRecord s r came).recov.known = s.recov.known ++ [r] ∧
      (takeRecord s r came).sent = (sendFence s r ((liveDirs s).filter fun d => d ≠ dirCode came)).sent := by
  unfold takeRecord
  extract_lets u out _ v
  have ht : Touches [.links, .sent] s u := sendFence_touches _ _ _
  have hout : out = false := by
    unfold out
    rw [ht.recov_eq, hset]
  have hcoord : ownCoord v = ownCoord s := congrArg (·.latched.coords) ht.dict_eq
  have hin : inJob v = true := by
    rw [← hjob, inJob, inJob, ← ht.devState_eq]
  rw [if_neg (by rw [hout]; decide), if_neg (by simp [hcoord, hother]), if_pos hin, adoptAsked_unasked]
  · refine ⟨?_, rfl⟩
    show (if out then u.recov.known else u.recov.known ++ [r]) = _
    rw [hout, ht.recov_eq]
    rfl
  · show u.recov.asked.getLsbD (slotOf r) = false
    rw [ht.recov_eq, hasked]

theorem fenceRecordReceived_gives {l : Fin 48} {r : BitVec 128} {s : State} (hl : inService (linkAt s l.val) = true)
    (hf : forwards s.dev.state = true) (hblock : inBlock s (fenceCoord r) = true) (hnew : knowsFence s r = false)
    (hdropped : s.recov.dropped.any (sameFence r) = false) (hother : fenceCoord r ≠ ownCoord s) (hjob : inJob s = true)
    (hasked : s.recov.asked.getLsbD (slotOf r) = false) :
    Gives (.fenceRecordReceived l r) s fun t => t.recov.known = s.recov.known ++ [r] ∧
      ∃ more, t.sent = s.sent ++ .fence r ((liveDirs s).filter fun d => d ≠ dirCode (linkDir s l.val)) :: more := by
  obtain ⟨-, hset⟩ := Bool.or_eq_false_iff.mp hnew
  obtain ⟨hknown, hsent⟩ := takeRecord_kept (linkDir s l.val) hset hother hjob hasked
  have hrun : exec (.fenceRecordReceived l r) s = .next (takeRecord s r (linkDir s l.val)) :=
    congrArg _ ((if_pos (by simp [hl, hf])).trans (recordHere_new l.val hblock hnew hdropped))
  refine Gives.of hrun ⟨hknown, ?_⟩
  rw [hsent]
  exact eq_append_cons_of_prefix (sendFence_sent r _ hf)

/-! ### Requests (15 R414) -/

/-- Where no record of a slot is held, there is none to adopt. -/
theorem adoptAsked_unheld {s : State} {slot : Nat} (h : holdsSlot s slot = false) : adoptAsked s slot = s := by
  have hnone : (heldRecords s).filter (fun r => slotOf r = slot) = [] := by
    refine List.filter_eq_nil_iff.mpr fun r hr => ?_
    have hmem : r ∈ s.recov.set ++ s.recov.known ++ s.recov.own.map (·.1) ++ s.recov.dropped := by
      have hheld := (List.mem_filter.mp hr).1
      simp only [List.mem_append] at hheld ⊢
      tauto
    exact List.any_eq_false.mp h r hmem
  unfold adoptAsked
  rw [hnone]
  split
  · exact if_neg (by simpa using h)
  · rfl

theorem tell_askRecord_sent (s : State) (slot : Nat) : s.sent ++ [.askRecord slot] <+: (tell s (.askRecord slot)).sent :=
  foldl_sent (fun u _ => controlOn_sent u _ _) (liveDirs (emit s (.askRecord slot))) (emit s (.askRecord slot))

theorem fenceRecordRequest_gives {slot : Fin 6} {s : State} (hasked : s.recov.asked.getLsbD slot.val = true)
    (hnone : holdsSlot s slot.val = false) :
    Gives (.fenceRecordRequest slot) s fun t => (∃ more, t.sent = s.sent ++ .askRecord slot.val :: more) ∧ t.recov = s.recov := by
  refine Gives.of (t := tell s (.askRecord slot.val)) ?_ ⟨eq_append_cons_of_prefix (tell_askRecord_sent s slot.val), (tell_touches s _).recov_eq⟩
  show execFenceRecordRequest slot s = _
  rw [execFenceRecordRequest, if_pos hasked, adoptAsked_unheld hnone]
  exact congrArg _ (if_pos hasked)

/-- Settles O17, command by command. -/
theorem fencing : Obligations.Fencing :=
  ⟨fun _ _ hsilent hjob hstep hplace hnew hf => fenceProposalTimer_gives hsilent ⟨hjob, hstep, hplace, hnew⟩ hf,
    fun _ _ hwait hnb hjob hstep hplace hnew => recoveryPatienceExpiry_gives hwait hnb ⟨hjob, hstep, hplace, hnew⟩,
    fun _ _ hf => fenceFloodRepeat_floods hf, fun _ hf => fenceFloodRepeat_shut hf,
    fun _ _ _ _ _ hown hother hd hheld => fenceProxyAbort_gives hown hother hd hheld,
    fun _ _ _ hl hf hblock hnew hdropped hother hjob hasked => fenceRecordReceived_gives hl hf hblock hnew hdropped hother hjob hasked,
    fun _ _ hasked hnone => fenceRecordRequest_gives hasked hnone,
    fun _ _ _ _ hp hd hstep hplace hnew => fenceCommand_gives hp hd ⟨fenceOwn_inJob hp.own_eq hd, hstep, hplace, hnew⟩⟩

end Sys2Proof.Machine
end

section
/-! SUPPORT. Takeovers, refills and the mirror (13 R345, 15 R403, R409, R418). -/

-- One theorem at a time: the stacks of parallel proofs add up to more than the memory the check gives.
set_option Elab.async false

namespace Sys2Proof.Machine

/-! ### Takeovers (15 R418, R422) -/

/-- A takeover that ends leaves its module WORKING, with the step after the last committed one due again. -/
theorem takeoverEnds_spec (s : State) (tensors : List (Nat × Nat × List Byte)) (recs : List (BitVec 128)) :
    (takeoverEnds s tensors recs).recov.role = .working ∧ (takeoverEnds s tensors recs).recov.taking = none ∧
      (takeoverEnds s tensors recs).steps.replayDue = some (s.steps.committed + 1) ∧
      (takeoverEnds s tensors recs).steps.committed = s.steps.committed := by
  unfold takeoverEnds
  extract_lets n installed _ _ _ held
  have ht := leaveRecovery_touches held
  rw [ht.recov_eq, ht.steps_eq]
  exact ⟨rfl, rfl, rfl, rfl⟩

theorem takeoverDone_next {s : State} (tensors : List (Nat × Nat × List Byte)) (recs : List (BitVec 128)) (hrole : s.recov.role = .taking)
    (hb : ostlerBusy s 2 = false) :
    exec (.takeoverDone true tensors recs) s = .next (if takeoverComplete s tensors then takeoverEnds s tensors recs else s) := by
  show execTakeoverDone true tensors recs s = _
  rw [execTakeoverDone, if_neg (by simp [hrole]), if_neg (by simp [hb]), if_neg (by decide), ← apply_ite]

/-- A step that is contributed already brings no abort of its own (10 R261). -/
theorem tryAbort_contributed {s : State} {o : OpenStep} (ho : s.steps.older = some o) (hc : o.status = .contributed) : tryAbort s = s := by
  rw [tryAbort, ho]
  exact if_neg (by simp [mayContribute, ho, hc])

theorem takeoverDone_loses {s : State} (tensors : List (Nat × Nat × List Byte)) (recs : List (BitVec 128)) {o : OpenStep}
    (hrole : s.recov.role = .taking) (hb : ostlerBusy s 2 = false) (hlost : s.recov.lostPend = 0) (ho : s.steps.older = some o)
    (hc : o.status = .contributed) : Gives (.takeoverDone false tensors recs) s fun t => t.recov.lostPend = 5 ∧ Touches [.recov] s t := by
  have hloses : loseJob s 5 = { s with recov := { s.recov with lostPend := 5 } } := if_pos (by simp [hlost, hrole])
  refine Gives.of (t := loseJob s 5) ?_ ⟨by rw [hloses], loseJob_touches s 5⟩
  show execTakeoverDone false tensors recs s = _
  rw [execTakeoverDone, if_neg (by simp [hrole]), if_neg (by simp [hb]), if_pos (by decide),
    tryAbort_contributed ((congrArg Steps.older (loseJob_touches s 5).steps_eq).trans ho) hc]

/-! ### The end of a refill (15 R402, R403, R409) -/

/-- A rebuild that is owed sets SINGLE until it is acknowledged, and neither refills nor the module's own rebuild. -/
theorem sendRebuild_recov (s : State) : ∃ last, (sendRebuild s).recov = { s.recov with single := true, rebuilding := true, last := last } := by
  unfold sendRebuild
  split
  · exact ⟨s.recov.last, (hwRequest_touches _ _ _).recov_eq⟩
  · exact ⟨5, (tell_touches _ _).recov_eq⟩

theorem refillEnds_recov (s : State) :
    (refillEnds s).recov.refills = s.recov.refills ∧ (refillEnds s).recov.rebuild = s.recov.rebuild := by
  unfold refillEnds
  extract_lets _ u
  rw [(leaveRecovery_touches _).recov_eq]
  split
  · obtain ⟨last, hlast⟩ := sendRebuild_recov { u with recov := { u.recov with owed := false } }
    rw [hlast]
    exact ⟨rfl, rfl⟩
  · exact ⟨rfl, rfl⟩

/-! ### Refills (15 R403) -/

/-- Context, tensor and tile number of a tile that comes back. -/
def tileKey (x : Nat × Nat × Nat × List Byte) : Nat × Nat × Nat := (x.1, x.2.1, x.2.2.1)

/-- Of the tiles that come back, those that partition `p` has lost. -/
def givenTiles (s : State) (p : Nat) (tiles : List (Nat × Nat × Nat × List Byte)) : List (Nat × Nat × Nat × List Byte) :=
  tiles.filter fun x => (missingTiles s p).contains (tileKey x)

/-- The tiles that come back stand as committed copies, and the partition's refill is over. -/
def refilled (s : State) (r : Refill) : State :=
  { s with vers := { s.vers with copies := s.vers.copies ++ refillTiles s (givenTiles s r.part.val r.tiles) r.recs },
           recov := { s.recov with refills := s.recov.refills &&& ~~~ BitVec.twoPow 8 r.part.val } }

/-- What is given covers what is missing where every missing tile comes back. -/
theorem givenTiles_cover {s : State} {p : Nat} {tiles : List (Nat × Nat × Nat × List Byte)} :
    ((missingTiles s p).all fun g => (givenTiles s p tiles).any fun x => decide (tileKey x = g)) = true ↔
      ∀ g ∈ missingTiles s p, g ∈ tiles.map tileKey := by
  simp only [List.all_eq_true, List.any_eq_true, decide_eq_true_eq, List.mem_map, givenTiles, List.mem_filter, List.contains_iff_mem]
  refine forall₂_congr fun g hg => exists_congr fun x => ?_
  constructor
  · rintro ⟨⟨hx, -⟩, rfl⟩
    exact ⟨hx, rfl⟩
  · rintro ⟨hx, rfl⟩
    exact ⟨⟨hx, hg⟩, rfl⟩

theorem refillDone_next {s : State} {r : Refill} (hr : s.recov.refills.getLsbD r.part.val = true) (hin : s.dev.inService.getLsbD r.part.val = true)
    (hall : ∀ g ∈ missingTiles s r.part.val, g ∈ r.tiles.map tileKey) :
    exec (.refillDone r) s = .next (refilled s r) ∨ exec (.refillDone r) s = .next (refillEnds (refilled s r)) := by
  have hrun : exec (.refillDone r) s = .next (if (refilled s r).recov.refills = 0 && (refilled s r).dev.inReset = 0 &&
      (refilled s r).recov.role ≠ .taking && !(refilled s r).recov.rebuild then refillEnds (refilled s r) else refilled s r) :=
    if_pos (by rw [hr, hin]; exact givenTiles_cover.mpr hall)
  rw [hrun]
  split
  · exact .inr rfl
  · exact .inl rfl

/-- Every missing tile that comes back has a committed copy. -/
theorem copyOf_refilled {s : State} {r : Refill} {g : Nat × Nat × Nat} (hg : g ∈ missingTiles s r.part.val) (hback : g ∈ r.tiles.map tileKey) :
    (copyOf (refilled s r) g.1 g.2.1 g.2.2 .committed).isSome = true := by
  obtain ⟨x, hx, rfl⟩ := List.mem_map.mp hback
  have hgiven : x ∈ givenTiles s r.part.val r.tiles := List.mem_filter.mpr ⟨hx, List.contains_iff_mem.mpr hg⟩
  refine List.find?_isSome.mpr ⟨_, List.mem_append_right _ (List.mem_map_of_mem hgiven), ?_⟩
  simp [tileKey]

theorem refillDone_gives {s : State} {r : Refill} (hr : s.recov.refills.getLsbD r.part.val = true)
    (hin : s.dev.inService.getLsbD r.part.val = true) (hall : ∀ g ∈ missingTiles s r.part.val, g ∈ r.tiles.map tileKey) :
    Gives (.refillDone r) s fun t => t.recov.refills.getLsbD r.part.val = false ∧
      ∀ g ∈ missingTiles s r.part.val, (copyOf t g.1 g.2.1 g.2.2 .committed).isSome = true := by
  have hoff : (refilled s r).recov.refills.getLsbD r.part.val = false := getLsbD_and_not_twoPow _ r.part
  have hcopies (g : Nat × Nat × Nat) (hg : g ∈ missingTiles s r.part.val) := copyOf_refilled hg (hall g hg)
  rcases refillDone_next hr hin hall with hn | hn
  · exact Gives.of hn ⟨hoff, hcopies⟩
  · refine Gives.of hn ⟨by rw [(refillEnds_recov _).1, hoff], fun g hg => ?_⟩
    rw [copyOf, (refillEnds_touches _).vers_eq]
    exact hcopies g hg

/-- A refill that lacks a missing tile changes nothing. -/
theorem refillDone_incomplete {s : State} {r : Refill} (h : ∃ g ∈ missingTiles s r.part.val, g ∉ r.tiles.map tileKey) :
    exec (.refillDone r) s = .next s := by
  obtain ⟨g, hg, hlacks⟩ := h
  refine if_neg fun hall => hlacks (givenTiles_cover.mp ?_ g hg)
  exact (Bool.and_eq_true_iff.mp hall).2

/-! ### The mirror region (15 R409, 13 R351) -/

theorem mem_mirrorTiles {kind : CopyKind} {imgs : List (Nat × Nat × List Byte)} {k : Copy} (h : k ∈ mirrorTiles kind imgs) :
    isMirrorTile k = true ∧ k.kind = kind := by
  obtain ⟨x, -, hk⟩ := List.mem_flatMap.mp h
  obtain ⟨n, -, rfl⟩ := List.mem_map.mp hk
  exact ⟨decide_eq_true (Nat.le_add_right 16 x.1), rfl⟩

/-- The committed state that a rebuild brings is all that the mirror region holds of it. -/
theorem mirrorBack_committed (s : State) (tensors : List (Nat × Nat × List Byte)) (recs : List (BitVec 128)) :
    ((mirrorBack s tensors recs).vers.copies.filter fun k => isMirrorTile k && decide (k.kind = .committed)) = mirrorTiles .committed tensors := by
  have hnew : (mirrorTiles .committed tensors).filter (fun k => isMirrorTile k && decide (k.kind = .committed)) = mirrorTiles .committed tensors :=
    List.filter_eq_self.mpr fun k hk => by simp [mem_mirrorTiles hk]
  simp [mirrorBack, List.filter_append, hnew, List.filter_filter]

theorem mirrorRebuilt_spec (s : State) (tensors : List (Nat × Nat × List Byte)) (recs : List (BitVec 128)) :
    (mirrorRebuilt s tensors recs).vers = (mirrorBack s tensors recs).vers ∧ (mirrorRebuilt s tensors recs).recov.rebuild = false := by
  unfold mirrorRebuilt
  extract_lets back
  split
  · exact ⟨(refillEnds_touches back).vers_eq, (refillEnds_recov back).2⟩
  · exact ⟨rfl, rfl⟩

theorem mirrorStreamReceived_next {s : State} (n : Nat) (again : Bool) (tensors : List (Nat × Nat × List Byte)) (recs : List (BitVec 128))
    (hm : isMirror s = true) :
    exec (.mirrorStreamReceived n again tensors recs) s =
      if mirrorShut s (mirrorTiles .committed tensors) then .next (emit s (.errorReply 8 []))
      else if again then .next (emit (mirrorRebuilt s tensors recs) (.mirrorAck n))
      else if n = s.steps.committed + 1 || n = s.steps.committed + 2 then
        if (mirrorSplits s (mirrorTiles (workKind s 0 n) tensors)).length + poolCopies s ≤ s.vers.reserve then
          .next (emit (mirrorStreamed s n (mirrorTiles (workKind s 0 n) tensors) recs) (.mirrorAck n))
        else .next s
      else .next s :=
  if_neg (by simp [hm])

theorem mirrorStreamReceived_rebuild {s : State} (n : Nat) (tensors : List (Nat × Nat × List Byte)) (recs : List (BitVec 128))
    (hm : isMirror s = true) (hopen : mirrorShut s (mirrorTiles .committed tensors) = false) :
    Gives (.mirrorStreamReceived n true tensors recs) s fun t => t.vers.mirrorRecs = recs ∧
      (t.vers.copies.filter fun k => isMirrorTile k && decide (k.kind = .committed)) = mirrorTiles .committed tensors ∧ t.recov.rebuild = false ∧
      t.sent.getLast? = some (.mirrorAck n) := by
  obtain ⟨hvers, hrebuild⟩ := mirrorRebuilt_spec s tensors recs
  have hrun : exec (.mirrorStreamReceived n true tensors recs) s = .next (emit (mirrorRebuilt s tensors recs) (.mirrorAck n)) := by
    rw [mirrorStreamReceived_next n true tensors recs hm, hopen]
    rfl
  refine Gives.of hrun ⟨?_, ?_, hrebuild, List.getLast?_concat⟩
  · exact congrArg Vers.mirrorRecs hvers
  · show (mirrorRebuilt s tensors recs).vers.copies.filter _ = _
    rw [hvers]
    exact mirrorBack_committed s tensors recs

theorem mirrorStreamReceived_step {s : State} {n : Nat} {tensors : List (Nat × Nat × List Byte)} (recs : List (BitVec 128))
    (hm : isMirror s = true) (hopen : mirrorShut s (mirrorTiles .committed tensors) = false)
    (hn : n = s.steps.committed + 1 ∨ n = s.steps.committed + 2)
    (hroom : (mirrorSplits s (mirrorTiles (workKind s 0 n) tensors)).length + poolCopies s ≤ s.vers.reserve) :
    Gives (.mirrorStreamReceived n false tensors recs) s fun t => (∀ k ∈ mirrorTiles (workKind s 0 n) tensors, k ∈ t.vers.copies) ∧
      t.vers.mirrorRecs = s.vers.mirrorRecs ∧ t.sent = s.sent ++ [.mirrorAck n] := by
  have hrun : exec (.mirrorStreamReceived n false tensors recs) s =
      .next (emit (mirrorStreamed s n (mirrorTiles (workKind s 0 n) tensors) recs) (.mirrorAck n)) := by
    rw [mirrorStreamReceived_next n false tensors recs hm, hopen, if_neg Bool.false_ne_true, if_neg Bool.false_ne_true,
      if_pos (by simpa using hn), if_pos hroom]
  exact Gives.of hrun ⟨fun k hk => List.mem_append_right _ hk, rfl, rfl⟩

theorem mirrorStreamReceived_shut {s : State} (n : Nat) (again : Bool) {tensors : List (Nat × Nat × List Byte)} (recs : List (BitVec 128))
    (hm : isMirror s = true) (hshut : mirrorShut s (mirrorTiles .committed tensors) = true) :
    Gives (.mirrorStreamReceived n again tensors recs) s fun t => t.sent = s.sent ++ [.errorReply 8 []] ∧ Touches [.sent] s t :=
  Gives.of ((mirrorStreamReceived_next n again tensors recs hm).trans (if_pos hshut)) ⟨rfl, emit_touches s _⟩

theorem mirrorAckReceived_gives {s : State} {o : OpenStep} (ho : s.steps.older = some o) (hsent : o.mirrorSent = true) :
    Gives (.mirrorAckReceived o.step) s fun t => t.steps.older = some { o with mirrorAcked := true } := by
  refine Gives.of (t := onStep s o.step fun k => if k.mirrorSent then { k with mirrorAcked := true } else k) rfl ?_
  simp [onStep, ho, hsent]

/-! ### Pieces of the partner's module state (13 R345) -/

theorem moduleStatePieceReceived_gives {s : State} (cut : Nat) (piece : List Byte) (hm : isMirror s = true) :
    Gives (.moduleStatePieceReceived cut piece) s fun t => assoc? t.ckpt.partnerPieces cut = some piece ∧
      (∀ c, c ≠ cut → assoc? t.ckpt.partnerPieces c = assoc? s.ckpt.partnerPieces c) ∧ Touches [.ckpt] s t := by
  have hrun : exec (.moduleStatePieceReceived cut piece) s =
      .next { s with ckpt := { s.ckpt with partnerPieces := assocSet s.ckpt.partnerPieces cut piece } } := if_pos hm
  exact Gives.of hrun ⟨assocSet_same _ cut piece, fun c hc => assocSet_other _ cut c piece hc,
    execModuleStatePieceReceived_touches cut piece s _ hrun⟩

/-- Settles O18, command by command: a takeover by its DIGEST and what has come, a refill by whether it covers what is missing, a mirror
stream by where its tiles lie. -/
theorem takeoverAndMirror : Obligations.TakeoverAndMirror := by
  refine ⟨fun tensors recs s hrole hb hall => ?_, fun tensors recs s hrole hb hnot => ?_,
    fun tensors recs o s hrole hb hlost ho hc => takeoverDone_loses tensors recs hrole hb hlost ho hc,
    fun p tiles recs s hr hin hall => refillDone_gives (r := ⟨p, tiles, recs⟩) hr hin hall,
    fun p tiles recs s h => refillDone_incomplete (r := ⟨p, tiles, recs⟩) h,
    fun n tensors recs s hm hopen => mirrorStreamReceived_rebuild n tensors recs hm hopen,
    fun n tensors recs s hm hopen hn hroom => mirrorStreamReceived_step recs hm hopen hn hroom,
    fun n again tensors recs s hm hshut => mirrorStreamReceived_shut n again recs hm hshut,
    fun o s ho hsent => mirrorAckReceived_gives ho hsent, fun s => Gives.of rfl ⟨rfl, execMirrorRebuildDone_touches s _ rfl⟩,
    fun cut piece s hm => moduleStatePieceReceived_gives cut piece hm⟩
  · exact Gives.of ((takeoverDone_next tensors recs hrole hb).trans (congrArg _ (if_pos hall))) (takeoverEnds_spec s tensors recs)
  · exact (takeoverDone_next tensors recs hrole hb).trans (congrArg _ (if_neg (by simp [hnot])))

end Sys2Proof.Machine
end

section
/-! SUPPORT. Power-up, power-down, the phases of a boot, and the state commands (16 R427 to R436, 21 R526, 22 R547). -/

-- One theorem at a time: the stacks of parallel proofs add up to more than the memory the check gives.
set_option Elab.async false

namespace Sys2Proof.Machine

/-! ### Power-up (16 R427, R429, 22 R557) -/

/-- The whole of `dev`, from the four parts that frames tell apart. -/
theorem Touches.wholeDev_eq {W : List StatePart} {s t : State} (h : Touches W s t) (hw : W.contains .dev = false := by decide)
    (hs : W.contains .devState = false := by decide) (hp : W.contains .product = false := by decide)
    (hf : W.contains .fuses = false := by decide) : t.dev = s.dev := by
  have hrest : { t.dev with state := .boot, product := {}, fuses := [] } = { s.dev with state := .boot, product := {}, fuses := [] } := (h .dev hw).symm
  have hstate : t.dev.state = s.dev.state := h.devState_eq hs
  have hproduct : t.dev.product = s.dev.product := (h .product hp).symm
  have hfuses : t.dev.fuses = s.dev.fuses := (h .fuses hf).symm
  calc t.dev = { ({ t.dev with state := .boot, product := {}, fuses := [] } : Dev) with
        state := t.dev.state, product := t.dev.product, fuses := t.dev.fuses } := rfl
    _ = s.dev := by rw [hrest, hstate, hproduct, hfuses]

/-- ALERT_N is the one pin that `setAlert` drives. -/
theorem setAlert_pins {s : State} {p : Pins} (h : s.pins = p) : (setAlert s).pins = { p with alert := (setAlert s).pins.alert } := by
  rw [← h]
  rfl

/-- What a power-up leaves of the start-up state, of the power cycles and of the pins: the image banks that it tries lie in firmware. -/
theorem powerUp_spec (s : State) (e : Bool) :
    (powerUp s e).dev = { s.dev with on := true, state := .boot, phase := if e then 0 else 1, lastKind := 0, lastPart := 0, lastCause := 1, prodEntry := e } ∧
      (powerUp s e).clk.pcycle = s.clk.pcycle + 1 ∧ (powerUp s e).pins = { s.pins with alert := (powerUp s e).pins.alert } := by
  unfold powerUp
  extract_lets d _ _ _ _ _ _ up booted
  have hactive : Touches [.fw, .free] up (if rw up 0x900005 = 2 then activateTypes up [1, 2, 3] else up) := by
    split
    · exact (activateTypes_touches up [1, 2, 3]).mono (by decide)
    · exact .refl
  have hbooted : Touches [.fw, .free] up booted := Touches.fold (fun u t => bootAttempt_touches u t) hactive
  exact ⟨hbooted.wholeDev_eq, congrArg Clk.pcycle hbooted.clk_eq, setAlert_pins (hbooted .pins (by decide)).symm⟩

theorem pwrEnAssert_powersUp {mv : Nat} (e : Bool) {s : State} (hoff : s.dev.on = false) (hmv : inputGood mv = true) (hfet : s.pins.fetOpen = false) :
    Gives (.pwrEnAssert mv e) s fun t => t.pins.pwrEn = true ∧ t.pins.inputMv = mv ∧ t.dev.on = true ∧ t.dev.state = .boot ∧
      t.dev.phase = (if e then 0 else 1) ∧ t.dev.lastCause = 1 ∧ t.clk.pcycle = s.clk.pcycle + 1 := by
  obtain ⟨hdev, hcycle, hpins⟩ := powerUp_spec { s with pins := { s.pins with
    pwrEn := true, inputMv := mv, inputOk := inputGood mv, trstN := s.pins.trstN || e, prodHeld := e } } e
  refine Gives.of (if_pos (by simp [hoff, hmv, hfet])) ?_
  rw [hpins, hdev]
  exact ⟨rfl, rfl, rfl, rfl, rfl, rfl, hcycle⟩

theorem inputRestored_powersUp {mv : Nat} {s : State} (hoff : s.dev.on = false) (hen : s.pins.pwrEn = true) (hmv : inputGood mv = true) :
    Gives (.inputRestored mv) s fun t => t.pins.inputOk = true ∧ t.pins.fetOpen = false ∧ t.dev.on = true ∧ t.dev.state = .boot ∧
      t.dev.phase = (if s.pins.prodHeld then 0 else 1) ∧ t.dev.lastCause = 1 ∧ t.clk.pcycle = s.clk.pcycle + 1 := by
  obtain ⟨hdev, hcycle, hpins⟩ := powerUp_spec { s with pins := { s.pins with inputMv := mv, inputOk := true, fetOpen := false } } s.pins.prodHeld
  refine Gives.of (if_pos (by simp [hoff, hen, hmv])) ?_
  rw [hpins, hdev]
  exact ⟨rfl, rfl, rfl, rfl, rfl, rfl, hcycle⟩

/-- Settles O2: either way on is the model's `powerUp`, which has the obligation's name, with the pins that the command leaves. -/
theorem powerUpFromOff : Obligations.PowerUp :=
  ⟨fun _ e _ hoff hmv hfet => pwrEnAssert_powersUp e hoff hmv hfet, fun _ _ hoff hen hmv => inputRestored_powersUp hoff hen hmv⟩

/-! ### Power-down (16 R428, R436, 22 R547) -/

/-- A power-down begins at the Lehr store's step, or past it while the Farrier restarts (18 R472). -/
theorem powerDown_begins {s : State} (hon : s.dev.on = true) (hd : s.dev.down.any (fun d => !d.reset) = false) :
    (powerDown s).dev.holdoff = false ∧ ∃ d, (powerDown s).dev.down = some d ∧ d.reset = false ∧ (d.step = 2 ∨ d.step = 3) := by
  unfold powerDown
  rw [if_neg (by simp [hon, hd])]
  extract_lets left _ begun
  have hdown : begun.dev.down = some ⟨if left.fw.farrierDown then 3 else 2, false⟩ := rfl
  split
  · next h => exact ⟨rfl, _, hdown, rfl, .inr (if_pos h)⟩
  · next h => exact ⟨rfl, _, hdown, rfl, .inl (if_neg h)⟩

/-- A request to power down meets `powerDown` with one pin changed, which it leaves as it is. -/
theorem powerDown_gives {c : Instr} {s : State} (pins : Pins) (he : exec c s = .next (powerDown { s with pins := pins })) (hon : s.dev.on = true)
    (hd : s.dev.down.any (fun d => !d.reset) = false) :
    Gives c s fun t => t.pins = pins ∧ t.dev.holdoff = false ∧ ∃ d, t.dev.down = some d ∧ d.reset = false ∧ (d.step = 2 ∨ d.step = 3) :=
  Gives.of he ⟨((powerDown_touches _) .pins (by decide)).symm, powerDown_begins (s := { s with pins := pins }) hon hd⟩

/-- Every domain is among those that go off in the order of 01 R34. -/
theorem packageOff_domains (s : State) : (packageOff s).domains = 0 := by
  refine BitVec.eq_of_getLsbD_eq fun k hk => ?_
  have hmem : k ∈ (upto 8).reverse.flatMap (fun p => (partDomains p).reverse) ++ [47, 49, 41, 44, 45, 46, 42, 48, 40, 43] :=
    (by decide : ∀ k < 50, k ∈ (upto 8).reverse.flatMap (fun p => (partDomains p).reverse) ++ [47, 49, 41, 44, 45, 46, 42, 48, 40, 43]) k hk
  exact (foldl_domOff_off _ s.domains k hmem).trans BitVec.getLsbD_zero.symm

theorem powerDownStepDone_gives {s : State} {d : Down} {P : State → Prop} (h : s.dev.down = some d) (hp : P (powerStep s d)) :
    Gives .powerDownStepDone s P := by
  refine Gives.of ?_ hp
  show execPowerDownStepDone s = _
  rw [execPowerDownStepDone, h]

/-- With the rail off the module is OFF, or starts again where PWR_EN and the input allow it (16 R427). -/
theorem railOff_spec (s : State) : (railOff s).dev.on = (s.pins.pwrEn && s.pins.inputOk && !s.pins.fetOpen) ∧ (railOff s).domains = 0 ∧
    (railOff s).dev.down = none := by
  unfold railOff
  extract_lets off
  show (ite _ _ _ : State).dev.on = (off.pins.pwrEn && off.pins.inputOk && !off.pins.fetOpen) ∧ _
  split
  · next h =>
    obtain ⟨hdev, -, -⟩ := powerUp_spec off off.pins.prodHeld
    rw [hdev]
    exact ⟨h.symm, (powerUp_touches off _).domains_eq, rfl⟩
  · next h => exact ⟨(Bool.eq_false_of_not_eq_true h).symm, rfl, rfl⟩

theorem inputFetOpen_gives {mv : Nat} {s : State} (hon : s.dev.on = true) (hmv : mv < 36000 ∨ mv > 54000) :
    Gives (.inputFetOpen mv) s fun t => t.pins.fetOpen = true ∧ t.pins.inputMv = mv ∧ t.dev.on = false ∧ t.domains = 0 ∧ t.host.owner = none := by
  have hrun : exec (.inputFetOpen mv) s = .next (powerOff { s with pins := { s.pins with inputMv := mv, inputOk := false, fetOpen := true } }) := by
    show execInputFetOpen mv s = _
    simp [execInputFetOpen, hmv, hon]
  exact Gives.of hrun ⟨rfl, rfl, rfl, rfl, rfl⟩

/-- Settles O3: a request by the model's `powerDown`, which has the obligation's name, each step by what `powerStep` does in its place, the open FET by what OFF leaves. -/
theorem powerDownSequence : Obligations.PowerDown := by
  refine ⟨fun s hon hd => ?_, fun s hon hd => ?_, fun s r h => powerDownStepDone_gives h ⟨rfl, rfl⟩,
    fun s h => powerDownStepDone_gives h ⟨rfl, packageOff_domains s⟩, fun s h => powerDownStepDone_gives h ⟨rfl, rfl, packageOff_domains s⟩,
    fun s h => powerDownStepDone_gives h (railOff_spec s), fun mv s hon hmv => inputFetOpen_gives hon hmv⟩
  · obtain ⟨t, hrun, hpins, hbegun⟩ := powerDown_gives (c := .pwrEnDeassert) { s.pins with pwrEn := false } rfl hon hd
    exact ⟨t, hrun, by rw [hpins], hbegun⟩
  · obtain ⟨t, hrun, hpins, hbegun⟩ := powerDown_gives (c := .inputUndervoltage) { s.pins with inputOk := false } rfl hon hd
    exact ⟨t, hrun, by rw [hpins], hbegun⟩

/-! ### Image banks at boot (18 R477, 21 R525, R526) -/

/-- An active bank that verifies is taken as it is. -/
theorem bootVerify_active {bad : List (Nat × Nat)} {s : State} {t : Nat} (h : bankVerifies s bad t (pairOf s t).activeB = true) :
    bootVerify bad s t = (s, true) := if_pos h

/-- With neither bank good, verification fails, and only security events are counted. -/
theorem bootVerify_neither {bad : List (Nat × Nat)} {s : State} {t : Nat} (ha : bankVerifies s bad t (pairOf s t).activeB = false)
    (ho : bankHolds (otherBank (pairOf s t)) = false ∨ bankVerifies s bad t (!(pairOf s t).activeB) = false) :
    ∃ u, bootVerify bad s t = (u, false) ∧ Touches [.sec] s u := by
  have hmiss : bootVerify bad s t = if !bankHolds (otherBank (pairOf s t)) then (securityEvent s, false)
      else if !bankVerifies s bad t (!(pairOf s t).activeB) then (securityEvent (securityEvent s), false)
      else (bankReverted (securityEvent s) t, true) := if_neg (by simp [ha])
  rw [hmiss]
  by_cases hh : bankHolds (otherBank (pairOf s t)) = false
  · exact ⟨securityEvent s, by simp [hh], securityEvent_touches s⟩
  · exact ⟨securityEvent (securityEvent s), by simp [hh, ho.resolve_left hh], (securityEvent_touches s).trans (securityEvent_touches _)⟩

/-- Confirming a bank ends its trial, and is all that firmware sees of it. -/
theorem bankConfirmed_fw (s : State) (t : Nat) :
    (bankConfirmed s t).fw = if (pairOf s t).trial then (onPair s t fun p => { p with trial := false }).fw else s.fw := by
  unfold bankConfirmed
  extract_lets p img ended svns risen
  show (ite _ _ _ : State).fw = if p.trial then ended.fw else s.fw
  by_cases h : p.trial = true
  · rw [if_neg (by simp [h]), if_pos h]
    split
    · split <;> rfl
    · rfl
  · rw [if_pos (by simp [h]), if_neg h]

theorem activeBank_bankConfirmed (s : State) (t : Nat) : activeBank (pairOf (bankConfirmed s t) t) = activeBank (pairOf s t) := by
  rw [pairOf, bankConfirmed_fw]
  split
  · show activeBank (nth (updN s.fw.images (t - 1) _) (t - 1) {}) = _
    rw [nth_updN]
    split <;> rfl
  · rfl

/-! ### The phases of a boot (16 R429) -/

theorem booting_iff (s : State) : booting s = true ↔ s.dev.on = true ∧ s.dev.state = .boot ∧ s.dev.down = none ∧ s.dev.holdoff = false ∧
    s.fw.farrierDown = false ∧ s.dev.stuck = false := by
  simp [booting, and_assoc]

theorem bootPhaseDone_gives {bad : List (Nat × Nat)} {s : State} {P : State → Prop} (hb : booting s = true) (hp : P (phaseEnds bad s)) :
    Gives (.bootPhaseDone bad) s P := Gives.of (if_pos hb) hp

/-- A boot that does not go on: the Farrier holds the package unpowered, and ALERT_N says so (21 R526). -/
theorem phaseEnds_stuck {bad : List (Nat × Nat)} {s : State} (hb : booting s = true) (h1 : s.dev.phase = 1) (he : s.dev.prodEntry = false)
    (ha : bankVerifies s bad 1 (pairOf s 1).activeB = false)
    (ho : bankHolds (otherBank (pairOf s 1)) = false ∨ bankVerifies s bad 1 (!(pairOf s 1).activeB) = false) :
    (phaseEnds bad s).dev = { s.dev with stuck := true } ∧ (phaseEnds bad s).pins.alert = true ∧ (phaseEnds bad s).domains = s.domains := by
  obtain ⟨u, hv, hu⟩ := bootVerify_neither ha ho
  have hdev : u.dev = s.dev := hu.wholeDev_eq
  have hon : s.dev.on = true := ((booting_iff s).mp hb).1
  have hend : phaseEnds bad s = setAlert { u with dev := { u.dev with stuck := true } } := by
    simp [phaseEnds, h1, hv, hdev, he]
  rw [hend]
  refine ⟨by rw [setAlert_dev, hdev], ?_, hu.domains_eq⟩
  show (u.dev.on && (_ || _ || true)) = true
  rw [hdev, hon, Bool.or_true, Bool.and_self]

/-- PD43 needs no other domain (01 R34). -/
theorem securityOn_on (s : State) : (securityOn s).domains.getLsbD 43 = true := by
  refine foldl_domOn_on [43] (fun d hd => ?_) 43 List.mem_cons_self
  obtain rfl := List.mem_singleton.mp hd
  exact ⟨by decide, fun k hk => absurd hk List.not_mem_nil⟩

/-- M0 takes the digest of the Farrier image that runs, and PD43 comes on (21 R527). -/
theorem phase2Ends_spec {s : State} (hmin : s.dev.minimal = false) : (phase2Ends s).dev.phase = 3 ∧ (phase2Ends s).domains.getLsbD 43 = true ∧
    nth (phase2Ends s).sec.meas 0 0 = extend (nth s.sec.meas 0 0) (activeBank (pairOf s 1)).img.pdigest := by
  unfold phase2Ends
  extract_lets confirmed image _ measured
  have hc : confirmed = bankConfirmed s 1 := if_neg (by simp [hmin])
  have ht : Touches [.fw, .counters, .sec] s confirmed := hc ▸ bankConfirmed_touches s 1
  have himage : image = (activeBank (pairOf s 1)).img.pdigest := by
    show (if confirmed.dev.minimal then _ else (activeBank (pairOf confirmed 1)).img.pdigest) = _
    rw [if_neg (by rw [ht.dev_eq (·.minimal), hmin]; exact Bool.false_ne_true), hc, activeBank_bankConfirmed]
  refine ⟨rfl, securityOn_on _, ?_⟩
  show nth (updN confirmed.sec.meas 0 fun m => extend m image) 0 0 = _
  rw [nth_updN_same _ _ _ (by decide), ht.meas_eq, himage]

/-- The hub's domains need the security core's, and no other (01 R34). -/
theorem hubOn_on {s : State} (h43 : s.domains.getLsbD 43 = true) : (hubOn s).domains.getLsbD 40 = true ∧ (hubOn s).domains.getLsbD 41 = true := by
  have hall : ∀ d ∈ [40, 48, 42, 46, 45, 44, 41, 49] ++ (if guestPart s then [47] else []), d < 50 ∧ ∀ k ∈ needs d, s.domains.getLsbD k = true := by
    intro d hd
    have hr : 40 ≤ d ∧ d < 50 := by
      rcases List.mem_append.mp hd with hd | hd
      · exact (by decide : ∀ d ∈ [40, 48, 42, 46, 45, 44, 41, 49], 40 ≤ d ∧ d < 50) d hd
      · have h47 : d = 47 := by split at hd <;> simp_all
        omega
    refine ⟨hr.2, fun k hk => ?_⟩
    have : k = 43 := by rw [mem_needs] at hk; omega
    rw [this, h43]
  have hon := foldl_domOn_on _ hall
  unfold hubOn
  rw [(hostTrains_touches _).domains_eq]
  exact ⟨hon 40 (by simp), hon 41 (by simp)⟩

/-- With both images good and no reset history over, the hub is on and partition 0 comes up (16 R430). -/
theorem phase3Ends_spec {bad : List (Nat × Nat)} {s : State} (ho : s.dev.oosAtEnd = false) (h43 : s.domains.getLsbD 43 = true)
    (hhub : bankVerifies s bad 2 (pairOf s 2).activeB = true) (hlib : bankVerifies s bad 3 (pairOf s 3).activeB = true) :
    (phase3Ends bad s).dev.phase = 4 ∧ (phase3Ends bad s).dev.nextPart = 1 ∧ bringAt (phase3Ends bad s) 0 = 1 ∧
      (phase3Ends bad s).domains.getLsbD 40 = true ∧ (phase3Ends bad s).domains.getLsbD 41 = true := by
  have hmeas : Touches [.fw, .counters, .sec, .meas] (hubOn s) (measureBoot true (bankConfirmed (hubOn s) 3)) :=
    .step (measureBoot_touches _ _) (by decide) ((bankConfirmed_touches _ _).mono (by decide))
  have hoos : (measureBoot true (bankConfirmed (hubOn s) 3)).dev.oosAtEnd = false :=
    (hmeas.dev_eq (·.oosAtEnd)).trans (((hubOn_touches s).dev_eq (·.oosAtEnd)).trans ho)
  have hend : phase3Ends bad s = bringStarts { measureBoot true (bankConfirmed (hubOn s) 3) with
      dev := { (measureBoot true (bankConfirmed (hubOn s) 3)).dev with phase := 4, nextPart := 1 } } 0 := by
    simp [phase3Ends, bootVerify_active hhub, bootVerify_active hlib, hoos]
  rw [hend]
  refine ⟨rfl, rfl, bringAt_bringStarts _ (by decide), ?_⟩
  show (measureBoot true (bankConfirmed (hubOn s) 3)).domains.getLsbD 40 = true ∧ (measureBoot true (bankConfirmed (hubOn s) 3)).domains.getLsbD 41 = true
  rw [hmeas.domains_eq]
  exact hubOn_on h43

/-- No partition is being brought up. -/
theorem bring_idle {s : State} (h : ∀ p : Fin 8, bringAt s p.val = 0) : s.dev.bring.toList.any (· ≠ 0) = false := by
  rw [List.any_eq_false]
  intro x hx
  obtain ⟨i, hi, rfl⟩ := Vector.mem_iff_getElem.mp (Vector.mem_toList_iff.mp hx)
  have := h ⟨i, hi⟩
  rw [bringAt, nth_eq_getElem _ _ hi] at this
  simpa using this

theorem phase4Ends_next {s : State} (hn : s.dev.nextPart = 8) (hb : ∀ p : Fin 8, bringAt s p.val = 0) (ho : s.dev.oosAtEnd = false) :
    phase4Ends s = { s with dev := { s.dev with phase := 5, kernels := bootKernels s, retest := [] } } := by
  rw [phase4Ends, bring_idle hb, hn, ho]
  rfl

/-- With the self-test over and nothing against it, the boot ends in READY (16 R434). -/
theorem phase5Ends_ready {s : State} (hk : s.dev.kernels = []) (hr : s.dev.retest = []) (hev : s.ledger.events = []) (ho : s.dev.oosAtEnd = false)
    (he : s.dev.prodEntry = false) (hg : s.tests.gState = 0) (hb : ∀ p : Fin 8, bringAt s p.val = 0) :
    (phase5Ends s).dev.phase = 6 ∧ (phase5Ends s).dev.state = .ready := by
  have hend : phase5Ends s = bankConfirmed (changeState { s with dev := { s.dev with phase := 6, marched := 0x1FF } } .ready) 2 := by
    unfold phase5Ends
    rw [if_neg (by rw [hk, hr, hev, bring_idle hb]; decide)]
    dsimp only
    rw [ho, he]
    rfl
  rw [hend]
  exact ⟨((bankConfirmed_touches _ _).dev_eq (·.phase)).trans ((changeState_touches _ _).dev_eq (·.phase)),
    (bankConfirmed_touches _ _).devState_eq.trans (changeState_state _ hg)⟩

/-- Settles O4, phase by phase. -/
theorem bootPhases : Obligations.BootPhases := by
  refine ⟨fun s hb h1 hv => ?_, fun bad s hb h1 he ha ho => ?_, fun s hb h2 hmin => ?_, fun s hb h3 ho h43 hhub hlib => ?_,
    fun s hb h4 hn hp ho => ?_, fun s hb h5 hk hr hev ho he hg hp => ?_⟩ <;> refine bootPhaseDone_gives hb ?_
  · have hend : phaseEnds [] s = { s with dev := { s.dev with phase := 2 } } := by simp [phaseEnds, h1, bootVerify_active hv]
    rw [hend]
    exact ⟨rfl, ((booting_iff s).mp hb).2.1⟩
  · obtain ⟨hdev, halert, hdom⟩ := phaseEnds_stuck hb h1 he ha ho
    have hstays : booting (phaseEnds bad s) = false := by simp [booting, hdev]
    exact ⟨by rw [hdev]; exact h1, halert, hdom, fun b => if_neg (by simp [hstays])⟩
  · simp only [phaseEnds, h2]
    exact phase2Ends_spec hmin
  · simp only [phaseEnds, h3]
    exact phase3Ends_spec ho h43 hhub hlib
  · have hend : phaseEnds [] s = phase4Ends s := by simp only [phaseEnds, h4]
    rw [hend, phase4Ends_next hn hp ho]
    exact ⟨rfl, rfl⟩
  · simp only [phaseEnds, h5]
    exact phase5Ends_ready hk hr hev ho he hg hp

/-! ### The state commands (16 R434, R435) -/

/-- The partition's command carries its number above the command's own. -/
theorem fld_partitionCommand (p : Fin 8) : fld (256 * p.val + 4) 7 0 = 4 ∧ fld (256 * p.val + 4) 11 8 = p.val := by
  revert p
  decide

/-- A reset command that passes meets a module past BOOT. -/
theorem not_boot_of_passes {s : State} {src : Src} {value : Nat} (h : Passes s src 0x200002 2 value (stateOwn s value))
    (hc : fld value 7 0 = 3 ∨ fld value 7 0 = 4) : s.dev.state ≠ .boot := by
  intro hb
  have hown := h.own_eq
  rcases hc with hc | hc <;> simp only [stateOwn, hc, hb] at hown
  · cases hown
  · split at hown <;> cases hown

theorem modReset_runs {s : State} (cause : Nat) (h : ResetsAtOnce s) (ht : s.power.trip = false) : modReset s cause = modResetRun s cause := by
  simp [modReset, moduleResetting, h.on, ht, h.down, h.holdoff, h.state, h.farrier]

/-- What precedes the count, the end of a gallop run and LEAVING, leaves the recovery part (15 R405). -/
theorem modResetRun_counts (s : State) (cause : Nat) : (modResetRun s cause).recov.modResets = s.recov.modResets + 1 := by
  have hleft : Touches [.cores, .links, .topo, .tests, .sent] s (sendLeaving (gallopAbort s) 2 allDirs) :=
    .step (sendLeaving_touches _ _ _) (by decide) ((gallopAbort_touches s).mono (by decide))
  exact congrArg (fun r : Recov => r.modResets + 1) hleft.recov_eq

theorem moduleResetCommand_gives {src : Src} {s : State} (hp : Passes s src 0x200002 2 3 (stateOwn s 3)) (h : ResetsAtOnce s)
    (ht : s.power.trip = false) :
    Gives (.moduleResetCommand src) s fun t => t.dev.state = .boot ∧ t.dev.lastKind = 1 ∧ t.dev.lastCause = 2 ∧ t.dev.down = some ⟨2, true⟩ ∧
      t.host.owner = none ∧ t.recov.modResets = s.recov.modResets + 1 ∧ t.domains = s.domains := by
  refine Gives.accepted hp rfl fun t hrest => ?_
  have hrun : stateAct (stateCommand 3 0) s = modResetRun s 2 := modReset_runs 2 h ht
  rw [hrun] at hrest
  rw [hrest.wholeDev_eq, hrest.recov_eq, hrest.domains_eq, ← hrest .owner (by decide)]
  exact ⟨rfl, rfl, rfl, rfl, rfl, modResetRun_counts s 2, (modResetRun_touches s 2).domains_eq⟩

theorem partitionResetCommand_gives {src : Src} {p : Fin 8} {s : State}
    (hp : Passes s src 0x200002 2 (256 * p.val + 4) (stateOwn s (256 * p.val + 4))) (h : ResetsAtOnce s) (ho : s.dev.state ≠ .outOfService)
    (hr : s.dev.inReset.getLsbD p.val = false) :
    Gives (.partitionResetCommand src p) s fun t => ∀ d ∈ partDomains p.val, t.domains.getLsbD d = false := by
  refine Gives.accepted hp rfl fun t hrest => ?_
  obtain ⟨hcmd, hpart⟩ := fld_partitionCommand p
  have hrun : stateAct (256 * p.val + 4) s = partReset s p.val 2 := by simp only [stateAct, hcmd, hpart]
  rw [hrest.domains_eq, stateCommand, hrun]
  exact partReset_off 2 h.on h.down h.holdoff h.state ho hr h.farrier

/-- Settles O6: TEST and READY by the change of state, the resets by what either does where it runs at once. -/
theorem stateCommands : Obligations.StateCommands := by
  refine ⟨fun src s hp hg => Gives.accepted hp rfl fun t ht => ?_, fun src s hp hg => Gives.accepted hp rfl fun t ht => ?_,
    fun src s hp hon ht hd hh hf => ?_, fun src p s hp hon hd hh ho hr hf => ?_⟩
  · exact ht.devState_eq.trans (changeState_state (s := s) .test hg)
  · exact ht.devState_eq.trans (changeState_state (s := s) .ready hg)
  · exact moduleResetCommand_gives hp ⟨hon, hd, hh, not_boot_of_passes hp (.inl rfl), hf⟩ ht
  · exact partitionResetCommand_gives hp ⟨hon, hd, hh, not_boot_of_passes hp (.inr (fld_partitionCommand p).1), hf⟩ ho hr

end Sys2Proof.Machine
end

section
/-! SUPPORT. Rules of the whole machine: the queue, the fuses, and the counters of 21 R525 and R528. -/

-- One theorem at a time: the stacks of parallel proofs add up to more than the memory the check gives.
set_option Elab.async false

namespace Sys2Proof.Machine

/-! ### The queue (95_what_each_step_holds.md) -/

/-- Settles O1: a step with a command in the queue is that command's meaning. -/
theorem stepRunsFront : Obligations.StepRunsFront := fun _ _ => rfl

/-- An idle module whose update has its image to write: nothing waits in the queue. -/
def updatingState : State := { fw := { updState := 1 } }

theorem updatingState_idles : step updatingState = .next (tick updatingState) := rfl

/-- The idle tick carries the update on (18 R474), from state 1 to state 2. -/
theorem tick_updatingState : (tick updatingState).fw.updState = 2 := rfl

/-- Refutes O53: an idle tick also carries an update on (18 R474, R487), which is firmware state, beyond the clock and the host's part. -/
theorem not_queueFirstInFirstOut : ¬ Obligations.QueueFirstInFirstOut := by
  rintro ⟨-, hidle⟩
  obtain ⟨t, ht, -, htouch⟩ := hidle updatingState rfl
  obtain rfl : tick updatingState = t := Host.Outcome.next.inj (updatingState_idles.symm.trans ht)
  have hfw : updatingState.fw = (tick updatingState).fw := htouch .fw rfl
  have hstate := congrArg Fw.updState hfw
  rw [tick_updatingState] at hstate
  exact absurd hstate (by decide)

/-! ### Writes, whatever becomes of them (20 R509) -/

/-- A write either stays with the host's port and the ostlers' queues, or it is its effect and the reply. -/
theorem hostCommand_cases (s : State) (src : Src) (key size value own : Nat) (effect : State → State) :
    Touches [.host, .fw, .sent] s (hostCommand s src key size value own effect) ∨
      hostCommand s src key size value own effect = accepted (effect s) src 0x11 0 [] := by
  unfold hostCommand
  split
  · exact .inl ((door_touches ‹_›).mono (by decide))
  · extract_lets why
    split
    · exact .inl ((illegal_touches _ _ _ _ _ _).mono (by decide))
    · split
      · split
        · exact .inl ((illegal_touches _ _ _ _ _ _).mono (by decide))
        · exact .inl (.step (seqTaken_touches _ _) (by decide) (.step (renewLease_touches _ _) (by decide) ((onOstler_touches _ _ _).mono (by decide))))
      · exact .inr rfl

/-! ### Fuses (22 R558) -/

/-- Every fuse that is blown in `s` is blown in `t`. -/
def FusesKept (s t : State) : Prop := ∀ g k, (fusesOf s g).testBit k = true → (fusesOf t g).testBit k = true

theorem FusesKept.refl (s : State) : FusesKept s s := fun _ _ h => h

theorem FusesKept.trans {s t u : State} (h : FusesKept s t) (h' : FusesKept t u) : FusesKept s u := fun g k hk => h' g k (h g k hk)

theorem Touches.fusesKept {W : List StatePart} {s t : State} (h : Touches W s t) (hw : W.contains .fuses = false := by decide) : FusesKept s t := by
  have hf : s.dev.fuses = t.dev.fuses := h .fuses hw
  intro g k hk
  rwa [fusesOf, ← hf]

/-- The fuses of the group that a request names are joined to those that are blown. -/
theorem fusesOf_fused (s : State) (v g : Nat) :
    fusesOf (fused v s) g = if g = fld v 7 0 then fusesOf s g ||| fld v 127 64 else fusesOf s g := by
  have hf : fusesOf (fused v s) g = (assoc? (assocSet s.dev.fuses (fld v 7 0) (fusesOf s (fld v 7 0) ||| fld v 127 64)) g).getD 0 := rfl
  rw [hf]
  split
  · next h => rw [h, assocSet_same, Option.getD_some]
  · next h => rw [assocSet_other _ _ _ _ h]; rfl

theorem fused_fusesKept (s : State) (v : Nat) : FusesKept s (fused v s) := by
  intro g k hk
  rw [fusesOf_fused]
  split
  · rw [Nat.testBit_or, hk, Bool.true_or]
  · exact hk

theorem effectHigh_fusesKept (key v : Nat) (s : State) : FusesKept s (effectHigh key v s) := by
  unfold effectHigh
  split
  · exact (gallopAct_touches _ _).fusesKept
  · exact (fenceAct_touches _ _).fusesKept
  · exact (historiesCleared_touches _).fusesKept
  · exact (updateStarts_touches _ _).fusesKept
  · exact (activateAct_touches _ _).fusesKept
  · exact (ostlerAct_touches _ _).fusesKept
  · exact (dumpStarts_touches _ _).fusesKept
  · exact (attestStarts_touches _ _).fusesKept
  · exact (reportOut_touches _ _).fusesKept
  · exact (installed_touches _ _).fusesKept
  · exact (removed_touches _ _).fusesKept
  · exact (passWritten_touches _ _).fusesKept
  · exact (prodWritten_touches _ _).fusesKept
  · exact (ledgerEmptied_touches _).fusesKept
  · exact fused_fusesKept s v
  · split
    · exact (windowWritten_touches _ _ _).fusesKept
    · exact (putValue_touches _ _ _).fusesKept

theorem effectOf_fusesKept (src : Src) (key v : Nat) (s : State) : FusesKept s (effectOf src key v s) := by
  unfold effectOf
  split
  · exact (stateAct_touches _ _).fusesKept
  · exact (defaultsTaken_touches _).fusesKept
  · exact (loadStarts_touches _ _ _).fusesKept
  · exact (ctxAct_touches _ _).fusesKept
  · exact (linkFenceAct_touches _ _).fusesKept
  · exact (clearCounters_touches _).fusesKept
  · exact (migrationSet_touches _ _).fusesKept
  · exact (sharesWritten_touches _ _).fusesKept
  · exact (raiseMark_touches _).fusesKept
  · exact (retainStarts_touches _ _).fusesKept
  · exact (releaseArea_touches _ _).fusesKept
  · exact (restoreStarts_touches _ _).fusesKept
  · exact (exportStarts_touches _ _).fusesKept
  · exact (leaseWritten_touches _ _).fusesKept
  · exact effectHigh_fusesKept key v s

theorem hostCommand_fusesKept {s : State} {src : Src} {key size value own : Nat} {effect : State → State} (he : FusesKept s (effect s)) :
    FusesKept s (hostCommand s src key size value own effect) := by
  rcases hostCommand_cases s src key size value own effect with h | h
  · exact h.fusesKept
  · rw [h]
    exact he.trans (accepted_touches _ _ _ _ _).fusesKept

theorem writeEntry_fusesKept (s : State) (src : Src) (key size value : Nat) : FusesKept s (writeEntry s src key size value) := by
  unfold writeEntry
  split
  · split
    · exact hostCommand_fusesKept (.refl s)
    · exact (unlockCommand_touches _ _ _ _).fusesKept
  · exact hostCommand_fusesKept (effectOf_fusesKept src key value s)

/-- What waited for an ostler keeps the fuses: a host's write by its effect, module hardware by what it can change. -/
theorem served_fusesKept (s : State) (q : OstlerReq) : FusesKept s (served s q) := by
  cases q with
  | host src key v =>
    show FusesKept s (servedHost s src key v)
    unfold servedHost
    extract_lets why
    split
    · exact (illegal_touches _ _ _ _ _ _).fusesKept
    · exact (effectOf_fusesKept src key v s).trans (reply_touches _ _ _ _ _ _).fusesKept
  | unit c => exact (servedUnit_touches s c).fusesKept
  | fence l cause => exact (fenceLink_touches s l cause).fusesKept
  | transfers => exact (Touches.ite_iff.mpr ⟨fun _ => tells_touches _ _, fun _ => .refl⟩).fusesKept
  | held dest => exact (Touches.ite_iff.mpr ⟨fun _ => sendHeldNow_touches _ _, fun _ => .refl⟩).fusesKept
  | rebuild => exact (Touches.ite_iff.mpr ⟨fun _ => sendRebuildNow_touches _, fun _ => .refl⟩).fusesKept

theorem foldl_served_fusesKept (reqs : List OstlerReq) (s : State) : FusesKept s (reqs.foldl served s) := by
  induction reqs generalizing s with
  | nil => exact .refl s
  | cons q r ih => exact (served_fusesKept s q).trans (ih _)

theorem execOstlerReady_fusesKept {o : Fin 12} {s t : State} (h : execOstlerReady o s = .next t) : FusesKept s t := by
  unfold execOstlerReady at h
  extract_lets k reqs ready _ left at h
  have hready : Touches [.fw, .free] s ready := .step (drawn_touches _) (by decide) ((onOstler_touches _ _ _).mono (by decide))
  have hleft : FusesKept ready left := FusesKept.refl ready
  split at h
  · obtain rfl := Host.Outcome.next.inj h
    exact (hready.fusesKept.trans hleft).trans ((ostlerResumes_touches _ _).fusesKept.trans (foldl_served_fusesKept _ _))
  · obtain rfl := Host.Outcome.next.inj h
    exact .refl s

/-- Settles O54: fuses are changed by the fuse command, a dictionary write and what waited for an ostler, each of which only joins bits. -/
theorem fusesStayBlown : Obligations.FusesStayBlown := by
  intro c s t g k h
  suffices hk : FusesKept s t from hk g k
  by_cases hw : (mayTouch c).contains .fuses = false
  · exact (exec_touches c s t h).fusesKept hw
  cases c
  case fuseProgram src req =>
    obtain rfl := Host.Outcome.next.inj h
    exact hostCommand_fusesKept (fused_fusesKept s req.toNat)
  case dictWrite src index sub size value =>
    have hd : execDictWrite src index sub size value s = .next t := h
    unfold execDictWrite at hd
    split at hd
    · obtain rfl := Host.Outcome.next.inj hd
      exact .refl s
    · obtain rfl := Host.Outcome.next.inj hd
      exact writeEntry_fusesKept s src _ size _
  case ostlerReady o => exact execOstlerReady_fusesKept h
  all_goals exact absurd rfl hw

/-! ### Version counters and revocations (21 R525, R528) -/

/-- No version counter of `s` is higher than in `t`, and every revocation of `s` stands in `t`. -/
structure CountersKept (s t : State) : Prop where
  svns    : ∀ k : Fin 3, nth s.sec.svns k.val 0 ≤ nth t.sec.svns k.val 0
  revoked : ∀ k : Fin 4, s.sec.revoked.getLsbD k.val = true → t.sec.revoked.getLsbD k.val = true

theorem CountersKept.refl {s : State} : CountersKept s s := ⟨fun _ => le_rfl, fun _ h => h⟩

theorem CountersKept.congr {s t u : State} (h : CountersKept s t) (hs : u.sec.svns = t.sec.svns := by rfl)
    (hr : u.sec.revoked = t.sec.revoked := by rfl) : CountersKept s u := ⟨fun k => by rw [hs]; exact h.svns k, fun k hk => by rw [hr]; exact h.revoked k hk⟩

theorem CountersKept.ite {c : Prop} [Decidable c] {s t u : State} (h : CountersKept s t) (h' : CountersKept s u) :
    CountersKept s (if c then t else u) := by
  split <;> assumption

theorem CountersKept.fold {α : Type} {s t : State} {f : State → α → State} (hf : ∀ u a, CountersKept s u → CountersKept s (f u a)) (l : List α)
    (h : CountersKept s t) : CountersKept s (l.foldl f t) :=
  List.foldlRecOn l f h fun u hu a _ => hf u a hu

theorem CountersKept.touch {W : List StatePart} {s t u : State} (h : CountersKept s t) (ht : Touches W t u)
    (hw : W.contains .counters = false := by decide) : CountersKept s u := by
  have hc : (t.sec.svns, t.sec.revoked) = (u.sec.svns, u.sec.revoked) := ht .counters hw
  obtain ⟨hs, hr⟩ := Prod.mk.inj hc
  exact h.congr hs.symm hr.symm

/-- The confirmation of a trial image raises its counter to the image's SVN, and adds the revocation that a hub image asks for. -/
theorem CountersKept.confirmed {s t : State} (h : CountersKept s t) (ty : Nat) : CountersKept s (bankConfirmed t ty) := by
  unfold bankConfirmed
  extract_lets p img ended svns _ risen
  have hrisen : CountersKept s risen := by
    refine ⟨fun k => (h.svns k).trans ?_, h.revoked⟩
    show nth t.sec.svns k.val 0 ≤ nth (updN t.sec.svns (ty - 1) fun n => max n img.svn) k.val 0
    rw [nth_updN]
    split
    · exact le_max_left _ _
    · exact le_rfl
  refine h.ite ?_
  split
  · refine CountersKept.ite ⟨hrisen.svns, fun k hk => ?_⟩ hrisen
    show (risen.sec.revoked ||| _).getLsbD k.val = true
    rw [BitVec.getLsbD_or, hrisen.revoked k hk, Bool.true_or]
  · exact hrisen

theorem phase2Ends_countersKept (s : State) : CountersKept s (phase2Ends s) := by
  unfold phase2Ends
  extract_lets confirmed image _ measured
  have hconfirmed : CountersKept s confirmed := CountersKept.ite .refl (CountersKept.refl.confirmed 1)
  exact CountersKept.touch hconfirmed.congr (securityOn_touches _)

theorem phase3Ends_countersKept (bad : List (Nat × Nat)) (s : State) : CountersKept s (phase3Ends bad s) := by
  have hhub : CountersKept s (hubOn (bootVerify bad (bootVerify bad s 2).1 3).1) :=
    ((CountersKept.refl.touch (bootVerify_touches bad s 2)).touch (bootVerify_touches bad _ 3)).touch (hubOn_touches _)
  have hmeasured (lib : Bool) : CountersKept s (measureBoot lib (if lib then bankConfirmed _ 3 else _)) :=
    CountersKept.touch ((hhub.confirmed 3).ite hhub) (measureBoot_touches _ _)
  unfold phase3Ends
  dsimp only
  refine (hhub.touch (bootFails_touches _)).ite (((hmeasured _).touch (bootFails_touches _)).ite ?_)
  exact CountersKept.touch (CountersKept.congr (hmeasured _)) (bringStarts_touches _ _)

theorem phase5Ends_countersKept (s : State) : CountersKept s (phase5Ends s) := by
  have hphase (d : Dev) : CountersKept s { s with dev := d } := CountersKept.refl.congr
  unfold phase5Ends
  refine CountersKept.refl.ite (((hphase _).touch (bootFails_touches _)).ite (CountersKept.ite ?_ ?_))
  · exact CountersKept.touch (CountersKept.touch CountersKept.refl.congr (changeState_touches _ _)) (configChanged_touches _)
  · exact ((hphase _).touch (changeState_touches _ _)).confirmed 2

theorem phaseEnds_countersKept (bad : List (Nat × Nat)) (s : State) : CountersKept s (phaseEnds bad s) := by
  have hverified : CountersKept s (bootVerify bad s 1).1 := CountersKept.refl.touch (bootVerify_touches bad s 1)
  unfold phaseEnds
  split
  · exact hverified.congr.ite (hverified.congr.ite (CountersKept.touch hverified.congr (setAlert_touches _)))
  · exact phase2Ends_countersKept s
  · exact phase3Ends_countersKept bad s
  · exact CountersKept.refl.touch (phase4Ends_touches s)
  · exact phase5Ends_countersKept s
  · exact .refl

theorem CountersKept.later {s t : State} (h : CountersKept s t) (r : Option Nat × Nat) : CountersKept s (laterReset t r) := by
  unfold laterReset
  split
  · exact h.touch (partReset_touches _ _ _)
  · exact h.touch (modReset_touches _ _)

theorem execFarrierRestartDone_countersKept {s t : State} (h : execFarrierRestartDone s = .next t) : CountersKept s t := by
  unfold execFarrierRestartDone at h
  split at h
  · obtain rfl := Host.Outcome.next.inj h
    exact (CountersKept.refl.touch (securityEvent_touches s)).touch (bankReverted_touches _ _)
  · split at h
    · obtain rfl := Host.Outcome.next.inj h
      exact CountersKept.fold (fun _ r hu => hu.later r) _ (CountersKept.confirmed CountersKept.refl.congr 1)
    · obtain rfl := Host.Outcome.next.inj h
      exact .refl

theorem execPatternLibraryReload_countersKept {ok : Bool} {s t : State} (h : execPatternLibraryReload ok s = .next t) : CountersKept s t := by
  have hfw (f : Fw) : CountersKept s { s with fw := f } := CountersKept.refl.congr
  unfold execPatternLibraryReload at h
  split at h
  · obtain rfl := Host.Outcome.next.inj h
    refine CountersKept.touch (CountersKept.ite ?_ ?_) (libraryMeasured_touches _)
    · exact (hfw _).confirmed 3
    · exact ((hfw _).touch (bankReverted_touches _ _)).touch (securityEvent_touches _)
  · obtain rfl := Host.Outcome.next.inj h
    exact .refl

/-- Settles O55: only the end of a boot phase, a Farrier that is up again and a reloaded library change the counters, each by a confirmation. -/
theorem countersOnlyRise : Obligations.CountersOnlyRise := by
  intro c s t h
  suffices hk : CountersKept s t from ⟨hk.svns, hk.revoked⟩
  by_cases hw : (mayTouch c).contains .counters = false
  · exact CountersKept.refl.touch (exec_touches c s t h) hw
  cases c
  case bootPhaseDone bad =>
    have hb : execBootPhaseDone bad s = .next t := h
    unfold execBootPhaseDone at hb
    split at hb
    · obtain rfl := Host.Outcome.next.inj hb
      exact phaseEnds_countersKept bad s
    · obtain rfl := Host.Outcome.next.inj hb
      exact .refl
  case farrierRestartDone => exact execFarrierRestartDone_countersKept h
  case patternLibraryReload ok => exact execPatternLibraryReload_countersKept h
  all_goals exact absurd rfl hw

end Sys2Proof.Machine
end

section
/-! SUPPORT. Reads and writes of the dictionary at the host's door (19 R490, R497 to R501, 20 R509, R510, 21 R537, 18 R470). -/

-- One theorem at a time: the stacks of parallel proofs add up to more than the memory the check gives.
set_option Elab.async false

namespace Sys2Proof.Machine

/-! ### What a reply and a lease leave to be read (19 R497, R500) -/

theorem reply_owner (s : State) (src : Src) (ty status value : Nat) (body : List Byte) :
    (reply s src ty status value body).host.owner = s.host.owner ∧ (reply s src ty status value body).host.leaseEnd = s.host.leaseEnd := by
  unfold reply
  split
  · exact ⟨rfl, rfl⟩
  · exact ⟨rfl, rfl⟩
  · split
    · exact ⟨rfl, rfl⟩
    · exact ⟨rfl, rfl⟩

/-- An accepted request leaves the owner, and starts the owner's lease again. -/
theorem accepted_owner (s : State) (src : Src) (ty value : Nat) (body : List Byte) :
    (accepted s src ty value body).host.owner = s.host.owner ∧
      (s.host.owner = some src.master → (accepted s src ty value body).host.leaseEnd = s.clk.now + 5000000000) := by
  unfold accepted
  rw [(reply_owner _ _ _ _ _ _).1, (reply_owner _ _ _ _ _ _).2]
  unfold renewLease
  split
  · exact ⟨rfl, fun _ => rfl⟩
  · next h => exact ⟨rfl, fun ho => absurd ho h⟩

/-- On the mailbox a reply is the completion's record. -/
theorem reply_mailbox (s : State) {src : Src} (ty status value : Nat) (body : List Byte) (h : src.path = .mailbox) :
    (reply s src ty status value body).host.reply = some (status, value) := by
  unfold reply
  rw [h]

theorem accepted_mailbox (s : State) {src : Src} (ty value : Nat) (body : List Byte) (h : src.path = .mailbox) :
    (accepted s src ty value body).host.reply = some (0, value) := reply_mailbox _ _ _ _ _ h

/-! ### The door (19 R497) -/

/-- The door is open to a request that reaches the module and, on Halter, comes in a session with a right tag and a new SEQ. -/
theorem door_eq_none (s : State) (src : Src) : door s src = none ↔ reaches s src = true ∧ (src.path = .halter → ∃ x, sessionOf s src.master = some x ∧
    src.tagOk = true ∧ x.replies.find? (fun r => decide (r.1 = src.seq)) = none ∧ (src.seq ≤ x.topSeq && x.seqSeen) = false) := by
  unfold door
  rcases hr : reaches s src with _ | _
  · simp
  rcases hp : src.path with _ | _ | _
  · simp
  · simp
  rcases hx : sessionOf s src.master with _ | x
  · simp
  rcases ht : src.tagOk with _ | _
  · simp
  rcases hf : x.replies.find? (fun r => decide (r.1 = src.seq)) with _ | r
  · simp [hf, -List.find?_eq_none]
  · simp [hf, -List.find?_eq_none]

theorem door_emit (s : State) (e : Emit) (src : Src) : door (emit s e) src = none ↔ door s src = none := by
  rw [door_eq_none, door_eq_none]
  rfl

/-- A request that comes through on Halter has a session. -/
theorem session_of_door {s : State} {src : Src} (h : door s src = none) (hp : src.path = .halter) :
    (s.host.sessions.any fun x => x.slot = src.master) = true := by
  obtain ⟨-, hs⟩ := (door_eq_none s src).mp h
  obtain ⟨x, hx, -⟩ := hs hp
  rw [List.any_eq_true]
  exact ⟨x, List.mem_of_find?_eq_some hx, by simpa using List.find?_some hx⟩

/-- A Halter request in a session reaches the judgement of its tag. -/
structure InSession (s : State) (src : Src) (x : Session) : Prop where
  halter  : src.path = .halter
  master  : src.master ≠ 0
  farrier : farrierUp s = true
  session : sessionOf s src.master = some x

theorem InSession.reaches {s : State} {src : Src} {x : Session} (h : InSession s src x) : reaches s src = true := by
  simp [Machine.reaches, h.halter, h.farrier, h.master]

theorem door_badTag {s : State} {src : Src} {x : Session} (h : InSession s src x) (ht : src.tagOk = false) : door s src = some (tagFail s) := by
  simp [door, h.reaches, h.halter, h.session, ht]

theorem door_repeated {s : State} {src : Src} {x : Session} {r : Nat × Nat × Nat × List Byte} (h : InSession s src x) (ht : src.tagOk = true)
    (hr : x.replies.find? (fun r => decide (r.1 = src.seq)) = some r) :
    door s src = some (emit (heard s src.master) (halterMsg s src.master r.2.1 src.seq r.2.2.1 r.2.2.2)) := by
  simp [door, h.reaches, h.halter, h.session, ht, hr]

theorem hostCommand_shut {s t : State} {src : Src} {key size value own : Nat} {effect : State → State} (h : door s src = some t) :
    hostCommand s src key size value own effect = t := by
  simp only [hostCommand, h]

/-! ### Reads (19 R490, 20 R510) -/

/-- A reply to a request that came through is recorded, but for the window, which has none. -/
theorem reply_recorded (s : State) {src : Src} (ty status value : Nat) (body : List Byte) (hp : src.path ≠ .window)
    (hs : src.path = .halter → (s.host.sessions.any fun x => x.slot = src.master) = true) :
    (reply s src ty status value body).host.reply = some (status, value) := by
  unfold reply
  split
  · contradiction
  · rfl
  · next h => rw [if_neg (by simp [hs h])]

theorem renewLease_sessions (s : State) (m : Fin 9) : (renewLease s m).host.sessions = s.host.sessions ∧ (renewLease s m).host.illegal = s.host.illegal := by
  unfold renewLease
  split
  · exact ⟨rfl, rfl⟩
  · exact ⟨rfl, rfl⟩

theorem readEntry_unlisted {index sub : Nat} (s : State) (h : entryOf index sub = none) : readEntry s index sub = 0 := by
  simp only [readEntry, h]

theorem readEntry_writeOnly {index sub : Nat} {e : Ent} (s : State) (h : entryOf index sub = some e) (hw : e.acc = .wo) : readEntry s index sub = 0 := by
  simp [readEntry, h, hw]

/-- A read draws a free value where its entry shows a sensor, and leaves everything else. -/
def readDrawn (s : State) (index sub : Nat) : State := if freeReading index sub then drawn s else s

theorem readDrawn_touches (s : State) (index sub : Nat) : Touches [.free] s (readDrawn s index sub) :=
  Touches.ite_iff.mpr ⟨fun _ => drawn_touches s, fun _ => .refl⟩

theorem readDrawn_host (s : State) (index sub : Nat) : (readDrawn s index sub).host = s.host := by
  unfold readDrawn
  split <;> rfl

theorem readDrawn_sent (s : State) (index sub : Nat) : (readDrawn s index sub).sent = s.sent := by
  unfold readDrawn
  split <;> rfl

theorem dictRead_window {src : Src} {index sub : Nat} {s : State} (hd : door s src = none) (hp : src.path = .window) :
    Gives (.dictRead src index sub) s fun t =>
      t.sent = s.sent ++ [.window (windowOffset index sub) (readEntry s index sub)] ∧ Touches [.sent, .free] s t := by
  refine Gives.of (t := emit (readDrawn s index sub) (.window (windowOffset index sub) (readEntry s index sub))) ?_
    ⟨?_, .step (emit_touches _ _) (by decide) ((readDrawn_touches s index sub).mono (by decide))⟩
  · show execDictRead src index sub s = _
    simp only [execDictRead, hd, hp, if_true]
    rfl
  · rw [emit_sent, readDrawn_sent]

theorem dictRead_unlisted {src : Src} {index sub : Nat} {s : State} (hd : door s src = none) (hp : src.path ≠ .window) (he : entryOf index sub = none) :
    Gives (.dictRead src index sub) s fun t =>
      t.host.reply = some (3, 0) ∧ t.host.illegal = s.host.illegal ∧ Touches [.host, .sent, .free] s t := by
  refine Gives.of (t := reply (readDrawn s index sub) src 0x10 3 0 (dictBody index sub 0 0)) ?_ ⟨?_, ?_, ?_⟩
  · show execDictRead src index sub s = _
    simp only [execDictRead, hd, if_neg hp, he]
    rfl
  · exact reply_recorded _ _ _ _ _ hp fun hh => by rw [readDrawn_host]; exact session_of_door hd hh
  · rw [(reply_illegal _ _ _ _ _ _).1, readDrawn_host]
  · exact .step (reply_touches _ _ _ _ _ _) (by decide) ((readDrawn_touches s index sub).mono (by decide))

theorem dictRead_listed {src : Src} {index sub : Nat} {e : Ent} {s : State} (hd : door s src = none) (hp : src.path ≠ .window)
    (he : entryOf index sub = some e) : Gives (.dictRead src index sub) s fun t =>
      t.host.reply = some (0, readEntry s index sub) ∧ t.host.illegal = s.host.illegal ∧ Touches [.host, .sent, .free] s t := by
  refine Gives.of (t := accepted (readDrawn s index sub) src 0x10 (readEntry s index sub) (dictBody index sub e.size (readEntry s index sub))) ?_ ⟨?_, ?_, ?_⟩
  · show execDictRead src index sub s = _
    simp only [execDictRead, hd, if_neg hp, he]
    rfl
  · exact reply_recorded _ _ _ _ _ hp fun hh => by rw [(renewLease_sessions _ _).1, readDrawn_host]; exact session_of_door hd hh
  · rw [accepted, (reply_illegal _ _ _ _ _ _).1, (renewLease_sessions _ _).2, readDrawn_host]
  · exact .step (accepted_touches _ _ _ _ _) (by decide) ((readDrawn_touches s index sub).mono (by decide))

/-- Settles O39, path by path. -/
theorem dictReads : Obligations.DictReads :=
  ⟨fun _ _ _ _ => dictRead_window, fun _ _ _ _ => dictRead_unlisted, fun _ _ _ _ _ => dictRead_listed, fun _ _ s => readEntry_unlisted s,
    fun _ _ _ s => readEntry_writeOnly s⟩

/-! ### Which command is which write (20 R509) -/

/-- A command that is a write runs as the host's write of its entry, and leaves the clock. -/
theorem exec_hostWrite {c : Instr} {w : HostWrite} {s : State} (h : hostWrite s c = some w) :
    (∃ effect, exec c s = .next (hostCommand s w.src w.key w.size w.value w.own effect)) ∧ (mayTouch c).contains .clk = false := by
  cases c
  case dictWrite src index sub size value =>
    refine ⟨?_, rfl⟩
    show ∃ effect, execDictWrite src index sub size value s = _
    simp only [hostWrite] at h
    split at h
    · cases h
    · next hin =>
      have hrun : execDictWrite src index sub size value s = .next (writeEntry s src (keyOf index sub) size (value % 2 ^ (8 * size))) :=
        if_neg (by simpa using hin)
      rw [hrun, writeEntry]
      split at h
      · next hk =>
        rw [if_pos hk]
        split at h
        · cases h
        · next hs =>
          rw [if_pos hs]
          cases h
          exact ⟨fun s => s, by rw [hk]⟩
      · next hk =>
        rw [if_neg hk]
        cases h
        exact ⟨_, rfl⟩
  all_goals cases h
  all_goals exact ⟨⟨_, rfl⟩, rfl⟩

end Sys2Proof.Machine
end

section
/-! SUPPORT. Writes at the host's door: accepted, refused, left to an ostler, or shut out (18 R470, 19 R497 to R501, 20 R509, 21 R537). -/

-- One theorem at a time: the stacks of parallel proofs add up to more than the memory the check gives.
set_option Elab.async false

namespace Sys2Proof.Machine

/-! ### Whole fields of the state, from the parts that frames tell apart -/

theorem Touches.sec_eq {W : List StatePart} {s t : State} (h : Touches W s t) (hw : W.contains .sec = false := by decide)
    (hc : W.contains .counters = false := by decide) (hk : W.contains .creds = false := by decide) (hm : W.contains .meas = false := by decide) :
    t.sec = s.sec := by
  have hrest : ({ t.sec with svns := default, revoked := 0, creds := default, meas := default } : Sec) =
      { s.sec with svns := default, revoked := 0, creds := default, meas := default } := (h .sec hw).symm
  obtain ⟨hsvns, hrevoked⟩ := Prod.mk.inj (h .counters hc)
  have hcreds : s.sec.creds = t.sec.creds := h .creds hk
  have hmeas : s.sec.meas = t.sec.meas := h .meas hm
  calc t.sec = { ({ t.sec with svns := default, revoked := 0, creds := default, meas := default } : Sec) with
        svns := t.sec.svns, revoked := t.sec.revoked, creds := t.sec.creds, meas := t.sec.meas } := rfl
    _ = s.sec := by rw [hrest, ← hsvns, ← hrevoked, ← hcreds, ← hmeas]

theorem Touches.host_eq {W : List StatePart} {s t : State} (h : Touches W s t) (hw : W.contains .host = false := by decide)
    (ho : W.contains .owner = false := by decide) : t.host = s.host := by
  have hrest : { t.host with owner := none } = { s.host with owner := none } := (h .host hw).symm
  have howner : s.host.owner = t.host.owner := h .owner ho
  calc t.host = { ({ t.host with owner := none } : HostPort) with owner := t.host.owner } := rfl
    _ = s.host := by rw [hrest, ← howner]

theorem Touches.fw_eq {W : List StatePart} {s t : State} (h : Touches W s t) (hw : W.contains .fw = false := by decide) : t.fw = s.fw := (h .fw hw).symm

theorem Touches.free_eq {W : List StatePart} {s t : State} (h : Touches W s t) (hw : W.contains .free = false := by decide) : t.free = s.free :=
  (h .free hw).symm

theorem Touches.pins_eq {W : List StatePart} {s t : State} (h : Touches W s t) (hw : W.contains .pins = false := by decide) : t.pins = s.pins :=
  (h .pins hw).symm

/-! ### Frames of one field -/

theorem Touches.setFw (s : State) (f : Fw) : Touches [.fw] s { s with fw := f } := by
  intro p hp
  cases p
  case fw => exact absurd hp (by decide)
  all_goals rfl

theorem Touches.setPower (s : State) (f : Power) : Touches [.power] s { s with power := f } := by
  intro p hp
  cases p
  case power => exact absurd hp (by decide)
  all_goals rfl

theorem Touches.setSent (s : State) (l : List Emit) : Touches [.sent] s { s with sent := l } := by
  intro p hp
  cases p
  case sent => exact absurd hp (by decide)
  all_goals rfl

/-- Of the security part, all but the counters, the credentials and the measurements. -/
theorem Touches.setSec (s : State) (c : Sec) (hs : c.svns = s.sec.svns := by rfl) (hr : c.revoked = s.sec.revoked := by rfl)
    (hc : c.creds = s.sec.creds := by rfl) (hm : c.meas = s.sec.meas := by rfl) : Touches [.sec] s { s with sec := c } := by
  intro p hp
  cases p
  case sec => exact absurd hp (by decide)
  case counters =>
    show (s.sec.svns, s.sec.revoked) = (c.svns, c.revoked)
    rw [hs, hr]
  case creds => exact hc.symm
  case meas => exact hm.symm
  all_goals rfl

/-! ### Debug unlocks (21 R537) -/

/-- A command that is a debug unlock runs as one, and leaves the clock. -/
theorem exec_unlockWrite {c : Instr} {src : Src} {v : Nat} {token : Sig} {s : State} (h : unlockWrite s c = some (src, v, token)) :
    exec c s = .next (unlockCommand s src v token) ∧ (mayTouch c).contains .clk = false := by
  cases c
  case dictWrite src' index sub size value =>
    refine ⟨?_, rfl⟩
    show execDictWrite src' index sub size value s = _
    simp only [unlockWrite] at h
    split at h
    · next hin =>
      simp only [Bool.and_eq_true, decide_eq_true_eq] at hin
      obtain ⟨⟨⟨hi, hs⟩, hk⟩, rfl⟩ := hin
      cases h
      have hrun : execDictWrite src index sub 16 value s = .next (writeEntry s src (keyOf index sub) 16 (value % 2 ^ (8 * 16))) :=
        if_neg (by simp; omega)
      rw [hrun, writeEntry, if_pos hk]
      rfl
    · cases h
  all_goals cases h
  exact ⟨rfl, rfl⟩

/-- The new configuration word is measured; nothing else of the security part changes. -/
theorem configChanged_sec (s : State) : ∃ m w, (configChanged s).sec = { s.sec with meas := m, cfgWord := w } := by
  unfold configChanged
  split
  · exact ⟨_, _, rfl⟩
  · exact ⟨_, _, rfl⟩

theorem unlock_sec (s : State) : ∃ m w, (unlock s).sec =
    { s.sec with unlocked := true, unlockSeen := true, debugNonce := Config.freeWord s.free, meas := m, cfgWord := w } := configChanged_sec _

/-- A debug unlock whose token is good reads it behind a snoop and unlocks. -/
theorem unlockCommand_passes {s : State} {src : Src} {v : Nat} {token : Sig} (h : Passes s src 0xA00050 16 v (unlockOwn s v token)) :
    unlockCommand s src v token = accepted (unlock (emit s (.snoop (fld v 127 64)))) src 0x11 0 [] := by
  have hown := h.own_eq
  obtain ⟨hd, hr, hw⟩ := h
  have hr' : writeReason s src 0xA00050 16 v 0 = 0 := hown ▸ hr
  have hpass : Passes (emit s (.snoop (fld v 127 64))) src 0xA00050 16 v 0 := ⟨(door_emit _ _ _).mpr hd, hr', hw⟩
  unfold unlockCommand
  simp only [hown, hd, hr', Option.isNone_none, decide_true, Bool.and_true, Bool.true_or, if_true, OfNat.zero_ne_ofNat, decide_false,
    Bool.and_false, Bool.false_eq_true, if_false]
  exact hostCommand_passes hpass

/-- What a debug unlock brings to the judgement of its write: the token read behind a snoop, and a refused one counted. -/
def unlockJudged (s u : State) : Prop := ∃ l n, u = { s with sent := s.sent ++ l, sec := { s.sec with events := n } }

theorem unlockCommand_judged (s : State) (src : Src) (v : Nat) (token : Sig) :
    ∃ u, unlockJudged s u ∧ unlockCommand s src v token = hostCommand u src 0xA00050 16 v (unlockOwn s v token) unlock := by
  unfold unlockCommand
  extract_lets own judged refused read read_
  have hread : ∃ l, read_ = { s with sent := s.sent ++ l } := by
    unfold read_
    split
    · exact ⟨_, rfl⟩
    · exact ⟨[], by rw [List.append_nil]⟩
  obtain ⟨l, hl⟩ := hread
  refine ⟨_, ?_, rfl⟩
  split
  · exact ⟨l, _, by rw [hl]; rfl⟩
  · exact ⟨l, s.sec.events, by rw [hl]⟩

theorem unlockJudged.door {s u : State} (h : unlockJudged s u) {src : Src} (hd : door s src = none) : door u src = none := by
  obtain ⟨l, n, rfl⟩ := h
  rw [door_eq_none] at hd ⊢
  exact hd

theorem unlockJudged.writeReason {s u : State} (h : unlockJudged s u) (src : Src) (key size value own : Nat) :
    writeReason u src key size value own = Machine.writeReason s src key size value own := by
  obtain ⟨l, n, rfl⟩ := h
  rfl

theorem unlockJudged.touches {s u : State} (h : unlockJudged s u) : Touches [.sent, .sec] s u := by
  obtain ⟨l, n, rfl⟩ := h
  exact .step (Touches.setSec { s with sent := s.sent ++ l } { s.sec with events := n }) (by decide) ((Touches.setSent s _).mono (by decide))

theorem unlockJudged.host {s u : State} (h : unlockJudged s u) : u.host = s.host := by
  obtain ⟨l, n, rfl⟩ := h
  rfl

theorem unlockJudged.sec {s u : State} (h : unlockJudged s u) : u.sec = { s.sec with events := u.sec.events } := by
  obtain ⟨l, n, rfl⟩ := h
  rfl

/-- A debug unlock that the door stops ends there. -/
theorem unlockCommand_shut {s t : State} {src : Src} {v : Nat} {token : Sig} (h : door s src = some t) : unlockCommand s src v token = t := by
  unfold unlockCommand
  simp only [h, Option.isNone_some, Bool.false_and, Bool.false_eq_true, if_false]
  exact hostCommand_shut h

/-! ### A write that passes (20 R509) -/

theorem dictVal_congr {d e : Dict} {key : Nat} (h : assoc? d.vals key = assoc? e.vals key) : dictVal d key = dictVal e key := by
  rw [dictVal, dictVal, h]

theorem assoc_none {l : List (Nat × Nat)} {k : Nat} (h : ∀ x ∈ l, x.1 ≠ k) : assoc? l k = none := by
  induction l with
  | nil => rfl
  | cons x r ih =>
    obtain ⟨j, w⟩ := x
    rw [assoc?, if_neg (h (j, w) List.mem_cons_self), ih fun y hy => h y (List.mem_cons_of_mem _ hy)]

/-- Setting one entry leaves the others. -/
theorem assoc_setVal_other (l : List (Nat × Nat)) {key k v dflt : Nat} (h : k ≠ key) : assoc? (setVal l key v dflt) k = assoc? l k := by
  induction l with
  | nil =>
    rw [setVal]
    split
    · rfl
    · exact if_neg (Ne.symm h)
  | cons x r ih =>
    obtain ⟨j, w⟩ := x
    rw [setVal]
    split
    · split
      · rfl
      · rw [assoc?, if_neg (Ne.symm h)]
    · split
      · next hj =>
        have hjk : ¬ j = k := fun e => h (e.symm.trans hj.symm)
        split
        · rw [assoc?, if_neg hjk]
        · rw [assoc?, if_neg (Ne.symm h), assoc?, if_neg hjk]
      · rw [assoc?, assoc?, ih]

/-- An entry set to its default is no longer listed, where the list stands in key order. -/
theorem assoc_setVal_default {l : List (Nat × Nat)} (key dflt : Nat) (hl : valsWf l = true) : assoc? (setVal l key dflt dflt) key = none := by
  rw [valsWf_iff] at hl
  induction l with
  | nil => rw [setVal, if_pos rfl, assoc?]
  | cons x r ih =>
    obtain ⟨j, w⟩ := x
    obtain ⟨hx, hr⟩ := List.pairwise_cons.mp hl
    rw [setVal, if_pos rfl, if_pos rfl]
    split
    · next hlt =>
      refine assoc_none fun y hy => ?_
      rcases List.mem_cons.mp hy with rfl | hy
      · exact Nat.ne_of_gt hlt
      · exact Nat.ne_of_gt (hlt.trans (hx y hy))
    · split
      · next hj => exact assoc_none fun y hy => Nat.ne_of_gt (hj ▸ hx y hy)
      · next hj => rw [assoc?, if_neg (Ne.symm hj), ih hr]

/-- An entry reads what was put there. -/
theorem rw_putValue (s : State) (key v : Nat) (hl : valsWf s.dict.vals = true) : rw (putValue s key v) key = v := by
  by_cases hv : v = dfltOf key
  · unfold putValue
    split
    · assumption
    · show (assoc? (setVal s.dict.vals key v (dfltOf key)) key).getD _ = v
      rw [← hv, assoc_setVal_default _ _ hl, Option.getD_none]
  · exact rw_putValue_same s hv

theorem rw_putValue_other (s : State) {key k : Nat} (v : Nat) (h : k ≠ key) : rw (putValue s key v) k = rw s k := by
  unfold putValue
  split
  · rfl
  · exact dictVal_congr (assoc_setVal_other _ h)

/-- An accepted write is answered with STATUS 0 and starts the owner's lease. -/
theorem accepted_answers (s : State) (src : Src) : (src.path = .mailbox → (accepted s src 0x11 0 []).host.reply = some (0, 0)) ∧
    ((accepted s src 0x11 0 []).host.owner = some src.master → (accepted s src 0x11 0 []).host.leaseEnd = (accepted s src 0x11 0 []).clk.now + 5000000000) := by
  obtain ⟨howner, hlease⟩ := accepted_owner s src 0x11 0 []
  refine ⟨accepted_mailbox s 0x11 0 [], fun ho => ?_⟩
  rw [(accepted_touches s src 0x11 0 []).clk_eq]
  exact hlease (howner ▸ ho)

theorem write_answered {c : Instr} {w : HostWrite} {s : State} (hw : hostWrite s c = some w) (h : Passes s w.src w.key w.size w.value w.own) :
    Gives c s fun t => (w.src.path = .mailbox → t.host.reply = some (0, 0)) ∧
      (t.host.owner = some w.src.master → t.host.leaseEnd = s.clk.now + 5000000000) := by
  obtain ⟨⟨effect, he⟩, hclk⟩ := exec_hostWrite hw
  rw [hostCommand_passes h] at he
  refine Gives.of he ?_
  rw [← (exec_touches c s _ he).clk_eq hclk]
  exact accepted_answers _ _

theorem dictWrite_puts {src : Src} {index sub size value : Nat} {s : State} (hi : index < 65536) (hs : sub < 256) (hk : keyOf index sub ≠ 0xA00050)
    (h : Passes s src (keyOf index sub) size (value % 2 ^ (8 * size)) (condOf s (keyOf index sub) (value % 2 ^ (8 * size))))
    (he : effectOf src (keyOf index sub) (value % 2 ^ (8 * size)) s = putValue s (keyOf index sub) (value % 2 ^ (8 * size)))
    (hl : valsWf s.dict.vals = true) : Gives (.dictWrite src index sub size value) s fun t => rw t (keyOf index sub) = value % 2 ^ (8 * size) ∧
      (∀ k, k ≠ keyOf index sub → rw t k = rw s k) ∧ Touches [.vals, .dict, .host, .sent] s t := by
  have hrun : exec (.dictWrite src index sub size value) s = .next (hostCommand s src (keyOf index sub) size (value % 2 ^ (8 * size))
      (condOf s (keyOf index sub) (value % 2 ^ (8 * size))) (effectOf src (keyOf index sub) (value % 2 ^ (8 * size)))) := by
    show execDictWrite src index sub size value s = _
    rw [execDictWrite, if_neg (by simp; omega), writeEntry, if_neg hk]
  refine Gives.accepted h hrun fun t ht => ?_
  rw [he] at ht
  refine ⟨?_, fun k hne => ?_, .step ht (by decide) ((putValue_touches _ _ _).mono (by decide))⟩
  · rw [ht.rw_eq, rw_putValue s _ _ hl]
  · rw [ht.rw_eq, rw_putValue_other s _ hne]

theorem unlock_answered {c : Instr} {src : Src} {v : Nat} {token : Sig} {s : State} (hu : unlockWrite s c = some (src, v, token))
    (h : Passes s src 0xA00050 16 v (unlockOwn s v token)) :
    Gives c s fun t => t.sec.unlocked = true ∧ t.sec.unlockSeen = true ∧ (src.path = .mailbox → t.host.reply = some (0, 0)) ∧
      (t.host.owner = some src.master → t.host.leaseEnd = s.clk.now + 5000000000) := by
  obtain ⟨he, hclk⟩ := exec_unlockWrite hu
  rw [unlockCommand_passes h] at he
  obtain ⟨m, w, hsec⟩ := unlock_sec (emit s (.snoop (fld v 127 64)))
  have hkept : (accepted (unlock (emit s (.snoop (fld v 127 64)))) src 0x11 0 []).sec = _ := (accepted_touches _ _ _ _ _).sec_eq.trans hsec
  refine Gives.of he ⟨by rw [hkept], by rw [hkept], ?_⟩
  rw [← (exec_touches c s _ he).clk_eq hclk]
  exact accepted_answers _ _

/-- Settles O40: through the reply that every write that passes ends in. -/
theorem writesAccepted : Obligations.WritesAccepted :=
  ⟨fun _ _ _ => write_answered, fun _ _ _ _ _ _ => dictWrite_puts, fun _ _ _ _ _ => unlock_answered⟩

/-! ### A write that fails (19 R501, 20 R509) -/

/-- An illegal sequence is counted and recorded. -/
theorem illegal_recorded (s : State) (src : Src) (ty reason index sub : Nat) :
    (illegal s src ty reason index sub).host.illegal = min (s.host.illegal + 1) 0xFFFFFFFF ∧
      (illegal s src ty reason index sub).host.lastIllegal = illegalWord src reason index sub := by
  rw [illegal, (reply_illegal _ _ _ _ _ _).1, (reply_illegal _ _ _ _ _ _).2, countIllegal, (post_illegal _ _ _ _ _).1, (post_illegal _ _ _ _ _).2]
  exact ⟨rfl, rfl⟩

theorem write_refused {c : Instr} {w : HostWrite} {s : State} (hw : hostWrite s c = some w) (hd : door s w.src = none)
    (hr : writeReason s w.src w.key w.size w.value w.own ≠ 0) : Gives c s fun t => t.host.illegal = min (s.host.illegal + 1) 0xFFFFFFFF ∧
      t.host.lastIllegal = illegalWord w.src (writeReason s w.src w.key w.size w.value w.own) (w.key / 256) (w.key % 256) ∧ Touches [.host, .sent] s t := by
  obtain ⟨⟨effect, he⟩, -⟩ := exec_hostWrite hw
  rw [hostCommand_refused hd hr] at he
  obtain ⟨hcount, hlast⟩ := illegal_recorded s w.src 0x11 (writeReason s w.src w.key w.size w.value w.own) (w.key / 256) (w.key % 256)
  exact Gives.of he ⟨hcount, hlast, illegal_touches _ _ _ _ _ _⟩

theorem unlock_refused {c : Instr} {src : Src} {v : Nat} {token : Sig} {s : State} (hu : unlockWrite s c = some (src, v, token))
    (hd : door s src = none) (hr : writeReason s src 0xA00050 16 v (unlockOwn s v token) ≠ 0) :
    Gives c s fun t => t.host.illegal = min (s.host.illegal + 1) 0xFFFFFFFF ∧
      t.host.lastIllegal = illegalWord src (writeReason s src 0xA00050 16 v (unlockOwn s v token)) 0xA000 0x50 ∧
      t.sec = { s.sec with events := t.sec.events } ∧ Touches [.host, .sent, .sec] s t := by
  obtain ⟨he, -⟩ := exec_unlockWrite hu
  obtain ⟨u, hju, hrun⟩ := unlockCommand_judged s src v token
  have hru : writeReason u src 0xA00050 16 v (unlockOwn s v token) ≠ 0 := by rwa [hju.writeReason]
  rw [hrun, hostCommand_refused (hju.door hd) hru, hju.writeReason] at he
  obtain ⟨hcount, hlast⟩ := illegal_recorded u src 0x11 (writeReason s src 0xA00050 16 v (unlockOwn s v token)) 0xA000 0x50
  have ht := illegal_touches u src 0x11 (writeReason s src 0xA00050 16 v (unlockOwn s v token)) 0xA000 0x50
  refine Gives.of he ⟨?_, hlast, ?_, .step ht (by decide) (hju.touches.mono (by decide))⟩
  · rw [hju.host] at hcount
    exact hcount
  · rw [ht.sec_eq]
    exact hju.sec

/-- Settles O41: through the illegal sequence that every write that fails ends in. -/
theorem writesRefused : Obligations.WritesRefused := ⟨fun _ _ _ => write_refused, fun _ _ _ _ _ => unlock_refused⟩

/-! ### Only the owner writes (19 R499) -/

/-- Where nothing lets a master write an entry, something stands against its write beyond the entry's own rules. -/
theorem writeReason_stranger {s : State} {src : Src} {key : Nat} (size value own : Nat) (h : mayWrite s src.master key = false) :
    writeReason s src key size value own ≠ 0 := by
  unfold writeReason
  split
  · decide
  · simp only [firstReason, h, Bool.not_false, if_true]
    repeat' split
    all_goals decide

theorem mayWrite_stranger {s : State} {m : Fin 9} {key : Nat} (ho : s.host.owner ≠ some m)
    (hl : ¬(key = 0x700002 ∧ s.host.managers.contains m = true)) (hc : ¬(key = 0xA00048 ∧ anyOwner s = false ∧ m = 0)) : mayWrite s m key = false := by
  unfold mayWrite
  split
  · next hk =>
    simp only [Bool.and_eq_true, decide_eq_true_eq, Bool.not_eq_true'] at hk
    exact decide_eq_false fun hm => hc ⟨hk.1, hk.2, hm⟩
  · rw [decide_eq_false ho, Bool.false_or, Bool.and_eq_false_iff, decide_eq_false_iff_not]
    by_cases hk : key = 0x700002
    · exact .inr (Bool.eq_false_iff.mpr fun hm => hl ⟨hk, hm⟩)
    · exact .inl hk

/-- A write against which something stands stays with the host's port. -/
theorem hostCommand_stranger {s : State} {src : Src} {key size value own : Nat} {effect : State → State}
    (h : door s src = none → writeReason s src key size value own ≠ 0) : Touches [.host, .sent] s (hostCommand s src key size value own effect) := by
  rcases hd : door s src with _ | t
  · rw [hostCommand_refused hd (h hd)]
    exact illegal_touches _ _ _ _ _ _
  · rw [hostCommand_shut hd]
    exact door_touches hd

/-- What stands against another master's debug unlock: a shut area, or the ownership. -/
theorem writeReason_unlock_stranger {s : State} {src : Src} (v own : Nat) (h : s.host.owner ≠ some src.master) :
    writeReason s src 0xA00050 16 v own = 6 ∨ writeReason s src 0xA00050 16 v own = 1 := by
  have hm : mayWrite s src.master 0xA00050 = false := mayWrite_stranger h (by simp) (by simp)
  have he : ∃ e, entryOf (0xA00050 / 256) (0xA00050 % 256) = some e ∧ e.acc ≠ .ro := by decide
  obtain ⟨e, he, hacc⟩ := he
  simp only [writeReason, he, firstReason, hm, hacc, decide_false, Bool.false_eq_true, if_false, Bool.not_false, if_true]
  split
  · exact .inl rfl
  · exact .inr rfl

/-- Another master's debug unlock brings no token to the judgement. -/
theorem unlockCommand_stranger {s : State} {src : Src} (v : Nat) (token : Sig) (h : s.host.owner ≠ some src.master) :
    Touches [.host, .sent] s (unlockCommand s src v token) := by
  have hr := writeReason_unlock_stranger v (unlockOwn s v token) h
  have hunread : writeReason s src 0xA00050 16 v (unlockOwn s v token) = unlockOwn s v token →
      unlockOwn s v token ≠ 0 ∧ unlockOwn s v token ≠ 9 := by omega
  have hrun : unlockCommand s src v token = hostCommand s src 0xA00050 16 v (unlockOwn s v token) unlock := by
    unfold unlockCommand
    by_cases hj : writeReason s src 0xA00050 16 v (unlockOwn s v token) = unlockOwn s v token
    · obtain ⟨h0, h9⟩ := hunread hj
      simp [h0, h9]
    · simp [hj]
  rw [hrun]
  exact hostCommand_stranger fun _ => by omega

/-- Settles O42: the stranger's write is refused, whatever the entry's own rules say. -/
theorem onlyTheOwnerWrites : Obligations.OnlyTheOwnerWrites := by
  refine ⟨fun c w s hw ho hl hc => ?_, fun c src v token s hu ho => ?_⟩
  · obtain ⟨⟨effect, he⟩, -⟩ := exec_hostWrite hw
    exact Gives.of he (hostCommand_stranger fun _ => writeReason_stranger _ _ _ (mayWrite_stranger ho hl hc))
  · exact Gives.of (exec_unlockWrite hu).1 (unlockCommand_stranger v token ho)

/-! ### Writes that wait, bad tags, repeated requests (18 R470, 19 R497) -/

theorem waitsFor_lt {s : State} {key value o : Nat} (h : waitsFor s key value = some o) : o < 12 := by
  unfold waitsFor at h
  split at h
  · cases h
  · have ho : ostlerOf key = some o := (Option.filter_eq_some_iff.mp h).1
    unfold ostlerOf at ho
    repeat' split at ho
    all_goals cases ho
    all_goals decide

theorem write_waits {c : Instr} {w : HostWrite} {o : Nat} {s : State} (hw : hostWrite s c = some w) (hd : door s w.src = none)
    (hr : writeReason s w.src w.key w.size w.value w.own = 0) (ho : waitsFor s w.key w.value = some o) :
    ((ostlerAt s o).queue.length < 64 →
      Gives c s fun t => (ostlerAt t o).queue = (ostlerAt s o).queue ++ [.host w.src w.key w.value] ∧ Touches [.fw, .host] s t) ∧
    (64 ≤ (ostlerAt s o).queue.length →
      Gives c s fun t => t.host.lastIllegal = illegalWord w.src 8 (w.key / 256) (w.key % 256) ∧ Touches [.host, .sent] s t) := by
  obtain ⟨⟨effect, he⟩, -⟩ := exec_hostWrite hw
  simp only [hostCommand, hd, hr, ho, ne_eq, not_true_eq_false, if_false] at he
  refine ⟨fun hroom => Gives.of (he.trans (congrArg _ (if_neg (Nat.not_le.mpr hroom)))) ⟨?_, ?_⟩,
    fun hfull => Gives.of (he.trans (congrArg _ (if_pos hfull))) ⟨(illegal_recorded _ _ _ _ _ _).2, illegal_touches _ _ _ _ _ _⟩⟩
  · have hfw := ((renewLease_touches (onOstler s o fun k => { k with queue := k.queue ++ [.host w.src w.key w.value] }) w.src.master).trans
      (seqTaken_touches _ w.src)).fw_eq
    rw [ostlerAt, hfw]
    exact congrArg Ostler.queue (ostlerAt_onOstler_same s _ (waitsFor_lt ho))
  · exact .step (seqTaken_touches _ _) (by decide) (.step (renewLease_touches _ _) (by decide) ((onOstler_touches _ _ _).mono (by decide)))

/-- A request whose tag is wrong is counted and not answered; a repeated one has its reply again. -/
theorem shut_gives {c : Instr} {src : Src} {x : Session} {s : State} (hx : InSession s src x) (hrun : ∀ t, door s src = some t → exec c s = .next t) :
    (src.tagOk = false → Gives c s fun t => t.host.tagFails = s.host.tagFails + 1 ∧ t.sent = s.sent ∧ Touches [.host] s t) ∧
    (∀ r, src.tagOk = true → x.replies.find? (fun r => decide (r.1 = src.seq)) = some r →
      Gives c s fun t => t.sent = s.sent ++ [halterMsg s src.master r.2.1 src.seq r.2.2.1 r.2.2.2] ∧ Touches [.host, .sent] s t) := by
  refine ⟨fun ht => Gives.of (hrun _ (door_badTag hx ht)) ⟨rfl, rfl, tagFail_touches s⟩, fun r ht hr => ?_⟩
  have hdoor := door_repeated hx ht hr
  refine Gives.of (hrun _ hdoor) ⟨?_, door_touches hdoor⟩
  rfl

/-- Settles O43: by what stops a write before it is carried out. -/
theorem writesAtTheDoor : Obligations.WritesAtTheDoor := by
  refine ⟨fun c w o s => write_waits, fun c w x s hw hp hm hf hx => ?_, fun s v => rfl, fun c src v token x s hu hp hm hf hx => ?_⟩
  · obtain ⟨⟨effect, he⟩, -⟩ := exec_hostWrite hw
    exact shut_gives ⟨hp, hm, hf, hx⟩ fun t ht => he.trans (congrArg _ (hostCommand_shut ht))
  · exact shut_gives ⟨hp, hm, hf, hx⟩ fun t ht => (exec_unlockWrite hu).1.trans (congrArg _ (unlockCommand_shut ht))

end Sys2Proof.Machine
end

section
/-! SUPPORT. Sessions, claims and how ownership passes (19 R497 to R500, 21 R533 to R536). -/

-- One theorem at a time: the stacks of parallel proofs add up to more than the memory the check gives.
set_option Elab.async false

namespace Sys2Proof.Machine

/-! ### The election, and what leaves it (19 R499, R500) -/

/-- The owner, its claim's priority and slot, its lease, the pending claim, the power managers and the count of changes stand the same. -/
structure SameElection (s t : State) : Prop where
  owner    : t.host.owner = s.host.owner
  prio     : t.host.ownerPrio = s.host.ownerPrio
  slot     : t.host.ownerSlot = s.host.ownerSlot
  lease    : t.host.leaseEnd = s.host.leaseEnd
  claim    : t.host.claim = s.host.claim
  managers : t.host.managers = s.host.managers
  changes  : t.host.changes = s.host.changes

theorem SameElection.refl (s : State) : SameElection s s := ⟨rfl, rfl, rfl, rfl, rfl, rfl, rfl⟩

theorem SameElection.trans {s t u : State} (h : SameElection s t) (h' : SameElection t u) : SameElection s u :=
  ⟨h'.owner.trans h.owner, h'.prio.trans h.prio, h'.slot.trans h.slot, h'.lease.trans h.lease, h'.claim.trans h.claim,
    h'.managers.trans h.managers, h'.changes.trans h.changes⟩

theorem post_election (s : State) (kind index sub arg : Nat) : SameElection s (post s kind index sub arg) := by
  unfold post
  split
  · exact ⟨rfl, rfl, rfl, rfl, rfl, rfl, rfl⟩
  · split
    · exact ⟨rfl, rfl, rfl, rfl, rfl, rfl, rfl⟩
    · exact .refl s

theorem reply_election (s : State) (src : Src) (ty status value : Nat) (body : List Byte) : SameElection s (reply s src ty status value body) := by
  unfold reply
  split
  · exact .refl s
  · exact ⟨rfl, rfl, rfl, rfl, rfl, rfl, rfl⟩
  · split
    · exact .refl s
    · exact ⟨rfl, rfl, rfl, rfl, rfl, rfl, rfl⟩

theorem illegal_election (s : State) (src : Src) (ty reason index sub : Nat) : SameElection s (illegal s src ty reason index sub) := by
  unfold illegal countIllegal
  refine SameElection.trans (SameElection.trans ?_ (post_election _ _ _ _ _)) (reply_election _ _ _ _ _ _)
  exact ⟨rfl, rfl, rfl, rfl, rfl, rfl, rfl⟩

theorem newClaimNonce_election (s : State) : SameElection s (newClaimNonce s) := ⟨rfl, rfl, rfl, rfl, rfl, rfl, rfl⟩

/-- An accepted request leaves the election, but for the lease of the owner that sends it. -/
theorem accepted_election (s : State) (src : Src) (ty value : Nat) (body : List Byte) :
    SameElection (renewLease s src.master) (accepted s src ty value body) := reply_election _ _ _ _ _ _

theorem renewLease_claim (s : State) (m : Fin 9) : (renewLease s m).host.owner = s.host.owner ∧ (renewLease s m).host.claim = s.host.claim ∧
    (renewLease s m).host.ownerPrio = s.host.ownerPrio ∧ (renewLease s m).host.ownerSlot = s.host.ownerSlot := by
  unfold renewLease
  split
  · exact ⟨rfl, rfl, rfl, rfl⟩
  · exact ⟨rfl, rfl, rfl, rfl⟩

theorem accepted_claim (s : State) (src : Src) (ty value : Nat) (body : List Byte) : (accepted s src ty value body).host.claim = s.host.claim :=
  (accepted_election s src ty value body).claim.trans (renewLease_claim s src.master).2.1

/-- The state with a new owner, before the change is posted. -/
def ownerSet (s : State) (o : Option (Fin 9)) (prio slot : Nat) : State :=
  { s with host := { s.host with owner := o, ownerPrio := prio, ownerSlot := slot, changes := s.host.changes + 1,
                                 leaseEnd := if o.isSome then s.clk.now + 5000000000 else 0 } }

theorem setOwner_election (s : State) (o : Option (Fin 9)) (prio slot : Nat) : SameElection (ownerSet s o prio slot) (setOwner s o prio slot) :=
  post_election _ _ _ _ _

/-- Ownership passes to the pending claimant, who no longer waits, or to no one. -/
theorem passOwnership_election (s : State) : (passOwnership s).host.owner = s.host.claim.map (·.master) ∧ (passOwnership s).host.claim = none ∧
    (passOwnership s).host.changes = s.host.changes + 1 := by
  unfold passOwnership
  rcases hc : s.host.claim with _ | c
  · have h := setOwner_election s none 0 0
    exact ⟨h.owner, h.claim.trans hc, h.changes⟩
  · have h := setOwner_election { s with host := { s.host with claim := none } } (some c.master) c.priority c.slot.val
    exact ⟨h.owner, h.claim, h.changes⟩

/-! ### Claims (21 R533) -/

theorem elect_first {s : State} (m : Fin 9) (slot : Fin 8) (priority : Nat) (h : s.host.owner = none) :
    elect s m slot priority = setOwner s (some m) priority slot.val := by rw [elect, h]

/-- The claim that waits once `c` has come, unless one of as high a priority waits already. -/
def waitingClaim (s : State) (c : Claim) : Option Claim := if s.host.claim.all (fun p => decide (p.priority < c.priority)) then some c else s.host.claim

theorem waitingClaim_higher {s : State} {c : Claim} (h : ∀ p, s.host.claim = some p → p.priority < c.priority) : waitingClaim s c = some c := by
  refine if_pos ?_
  rcases hc : s.host.claim with _ | p
  · rfl
  · exact decide_eq_true (h p hc)

theorem waitingClaim_lower {s : State} {c p : Claim} (hc : s.host.claim = some p) (h : c.priority ≤ p.priority) : waitingClaim s c = some p := by
  rw [waitingClaim, if_neg (by simp [hc, h]), hc]

/-- Behind another owner a claim waits, unless one of as high a priority waits already. -/
theorem elect_behind {s : State} {m o : Fin 9} (slot : Fin 8) (priority : Nat) (h : s.host.owner = some o) (ho : o ≠ m) :
    elect s m slot priority = { s with host := { s.host with
      claim := waitingClaim s ⟨m, slot, priority, s.clk.now + 10000000000⟩ } } := by
  rw [elect, h]
  dsimp only
  rw [if_neg ho]
  rcases hc : s.host.claim with _ | p
  · rw [waitingClaim_higher (by simp [hc])]
  · dsimp only
    split
    · next hp =>
      rw [waitingClaim_higher]
      intro q hq
      obtain rfl := Option.some.inj (hc.symm.trans hq)
      exact hp
    · next hp => rw [waitingClaim_lower hc (Nat.not_lt.mp hp), ← hc]

/-- A claim with POWER makes its master a power manager, and leaves everything else. -/
def managed (s : State) (m : Fin 9) (slot : Fin 8) : State :=
  if (credAt s slot.val).power && !s.host.managers.contains m then { s with host := { s.host with managers := s.host.managers ++ [m] } } else s

theorem claimed_owner {s : State} (m : Fin 9) {slot : Fin 8} (priority : Nat) (h : (credAt s slot.val).owner = true) :
    claimed s m slot priority = elect (managed s m slot) m slot priority := if_pos h

theorem managed_spec (s : State) (m : Fin 9) (slot : Fin 8) : (managed s m slot).host.owner = s.host.owner ∧
    (managed s m slot).host.claim = s.host.claim ∧ (managed s m slot).clk = s.clk ∧ (managed s m slot).free = s.free := by
  unfold managed
  split
  · exact ⟨rfl, rfl, rfl, rfl⟩
  · exact ⟨rfl, rfl, rfl, rfl⟩

/-- A claim at the door of a path other than the window. -/
structure ClaimAsked (s : State) (src : Src) : Prop where
  path : src.path ≠ .window
  door : door s src = none

/-- A claim that is judged valid: the election, a new nonce, and the reply. -/
theorem claim_valid {s : State} {src : Src} {slot : Fin 8} {priority : Fin 16} {sig : Sig} (ha : ClaimAsked s src) (hsec : securityUp s = true)
    (hv : claimValid s src slot priority.val sig = true) : exec (.claim src slot priority sig) s =
      .next (accepted (newClaimNonce (claimed s src.master slot priority.val)) src 0x20 0 []) := by
  show execClaim src slot priority sig s = _
  simp only [execClaim, if_neg ha.path, ha.door, hsec, hv, Bool.not_true, Bool.false_eq_true, if_false, if_true]

theorem claim_refused {s : State} {src : Src} {slot : Fin 8} {priority : Fin 16} {sig : Sig} {why : Nat} (ha : ClaimAsked s src)
    (hwhy : securityUp s = true ∧ claimValid s src slot priority.val sig = false ∧ why = 9 ∨ securityUp s = false ∧ why = 6) :
    Gives (.claim src slot priority sig) s fun t => t.host.owner = s.host.owner ∧ t.host.claim = s.host.claim ∧
      t.host.lastIllegal = illegalWord src why 0 0 ∧ t.sec.claimNonce = Config.freeWord s.free := by
  have hrun : exec (.claim src slot priority sig) s = .next (illegal (newClaimNonce s) src 0x20 why 0 0) := by
    show execClaim src slot priority sig s = _
    rcases hwhy with ⟨hsec, hv, rfl⟩ | ⟨hsec, rfl⟩
    · simp only [execClaim, if_neg ha.path, ha.door, hsec, hv, Bool.not_true, Bool.false_eq_true, if_false]
    · simp only [execClaim, if_neg ha.path, ha.door, hsec, Bool.not_false, if_true]
  have he := (newClaimNonce_election s).trans (illegal_election (newClaimNonce s) src 0x20 why 0 0)
  refine Gives.of hrun ⟨he.owner, he.claim, (illegal_recorded _ _ _ _ _ _).2, ?_⟩
  rw [(illegal_touches _ _ _ _ _ _).sec_eq]
  rfl

theorem claim_first {s : State} {src : Src} {slot : Fin 8} {priority : Fin 16} {sig : Sig} (ha : ClaimAsked s src) (hsec : securityUp s = true)
    (hv : claimValid s src slot priority.val sig = true) (hk : (credAt s slot.val).owner = true) (ho : s.host.owner = none) :
    Gives (.claim src slot priority sig) s fun t => t.host.owner = some src.master ∧ t.host.ownerPrio = priority.val ∧ t.host.ownerSlot = slot.val ∧
      t.host.leaseEnd = s.clk.now + 5000000000 ∧ t.sec.claimNonce = Config.freeWord s.free := by
  obtain ⟨howner, -, hclk, hfree⟩ := managed_spec s src.master slot
  have hrun := claim_valid ha hsec hv
  rw [claimed_owner _ _ hk, elect_first _ _ _ (howner.trans ho)] at hrun
  have hset := (setOwner_election (managed s src.master slot) (some src.master) priority.val slot.val).trans (newClaimNonce_election _)
  obtain ⟨hown, -, hprio, hslot⟩ := renewLease_claim (newClaimNonce (setOwner (managed s src.master slot) (some src.master) priority.val slot.val)) src.master
  have hacc := accepted_election (newClaimNonce (setOwner (managed s src.master slot) (some src.master) priority.val slot.val)) src 0x20 0 []
  have hnow : (setOwner (managed s src.master slot) (some src.master) priority.val slot.val).clk = s.clk := (setOwner_touches _ _ _ _).clk_eq.trans hclk
  refine Gives.of hrun ⟨hacc.owner.trans (hown.trans hset.owner), hacc.prio.trans (hprio.trans hset.prio), hacc.slot.trans (hslot.trans hset.slot), ?_, ?_⟩
  · rw [(accepted_owner _ _ _ _ _).2 hset.owner]
    exact congrArg (·.now + 5000000000) hnow
  · rw [(accepted_touches _ _ _ _ _).sec_eq]
    exact congrArg Config.freeWord ((setOwner_touches _ _ _ _).free_eq.trans hfree)

theorem claim_behind {s : State} {src : Src} {slot : Fin 8} {priority : Fin 16} {sig : Sig} {o : Fin 9} (ha : ClaimAsked s src) (hsec : securityUp s = true)
    (hv : claimValid s src slot priority.val sig = true) (hk : (credAt s slot.val).owner = true) (ho : s.host.owner = some o) (hm : o ≠ src.master) :
    Gives (.claim src slot priority sig) s fun t => t.host.owner = some o ∧ t.host.claim =
      waitingClaim s ⟨src.master, slot, priority.val, s.clk.now + 10000000000⟩ := by
  obtain ⟨howner, hclaim, hclk, -⟩ := managed_spec s src.master slot
  have hrun := claim_valid ha hsec hv
  rw [claimed_owner _ _ hk, elect_behind _ _ (howner.trans ho) hm, waitingClaim, hclaim, hclk] at hrun
  refine Gives.of hrun ⟨(accepted_owner _ _ _ _ _).1.trans (howner.trans ho), accepted_claim _ _ _ _ _⟩

/-! ### Release, transfer, renewal, and the ends of claims and leases (19 R500) -/

theorem portRequest_accepted {s : State} {src : Src} (ty : Nat) {why : Nat} (effect : State → State) (ha : ClaimAsked s src) (hw : why = 0) :
    portRequest s src ty why effect = accepted (effect s) src ty 0 [] := by
  simp only [portRequest, if_neg ha.path, ha.door, hw, ne_eq, not_true_eq_false, if_false]

theorem ownerOnly_owner {s : State} {src : Src} (h : s.host.owner = some src.master) : ownerOnly s src = 0 := if_pos h

/-- A request that passes ownership on. -/
theorem passes_on {c : Instr} {s : State} {src : Src} {ty why : Nat} (ha : ClaimAsked s src) (hw : why = 0)
    (he : exec c s = .next (portRequest s src ty why passOwnership)) :
    Gives c s fun t => t.host.owner = s.host.claim.map (·.master) ∧ t.host.claim = none := by
  obtain ⟨howner, hclaim, -⟩ := passOwnership_election s
  refine Gives.of (he.trans (congrArg _ (portRequest_accepted _ _ ha hw))) ⟨(accepted_owner _ _ _ _ _).1.trans howner, (accepted_claim _ _ _ _ _).trans hclaim⟩

theorem renew_gives {s : State} {src : Src} (ha : ClaimAsked s src) (ho : s.host.owner = some src.master) :
    Gives (.renew src) s fun t => t.host.owner = some src.master ∧ t.host.leaseEnd = s.clk.now + 5000000000 := by
  have hrun : exec (.renew src) s = .next (accepted s src 0x23 0 []) := congrArg _ (portRequest_accepted _ _ ha (ownerOnly_owner ho))
  obtain ⟨howner, hlease⟩ := accepted_owner s src 0x23 0 []
  exact Gives.of hrun ⟨howner.trans ho, hlease ho⟩

theorem pendingClaimLapse_gives {s : State} {c : Claim} (h : s.host.claim = some c) :
    Gives .pendingClaimLapse s fun t => t.host.claim = none ∧ t.host.owner = s.host.owner ∧ c.until_ ≤ t.clk.now := by
  refine Gives.of (t := { reach s c.until_ with host := { s.host with claim := none } }) ?_ ⟨rfl, rfl, le_max_right _ _⟩
  show execPendingClaimLapse s = _
  simp only [execPendingClaimLapse, h]
  rfl

theorem ownerLeaseExpiry_gives {s : State} (h : s.host.owner.isSome = true) :
    Gives .ownerLeaseExpiry s fun t => t.host.owner = s.host.claim.map (·.master) ∧ t.host.changes = s.host.changes + 1 ∧ s.host.leaseEnd ≤ t.clk.now := by
  have hrun : exec .ownerLeaseExpiry s = .next (passOwnership (reach s s.host.leaseEnd)) := if_pos h
  obtain ⟨howner, -, hchanges⟩ := passOwnership_election (reach s s.host.leaseEnd)
  refine Gives.of hrun ⟨howner, hchanges, ?_⟩
  rw [(passOwnership_touches _).clk_eq]
  exact le_max_right _ _

/-- Settles O45: by the election that a claim, a release or a lease's end leaves. -/
theorem ownership : Obligations.Ownership := by
  refine ⟨fun src slot priority sig s hp hd => claim_first ⟨hp, hd⟩, fun src slot priority sig o s hp hd hsec hv hk ho hm hlow => ?_,
    fun src slot priority sig o p s hp hd hsec hv hk ho hm hc hhigh => ?_, fun src slot priority sig s hp hd hsec hv => ?_,
    fun src slot priority sig s hp hd hsec => ?_, fun src s hp hd ho => passes_on ⟨hp, hd⟩ (ownerOnly_owner ho) rfl,
    fun src dest c s hp hd ho hc hm => ?_, fun src s hp hd => renew_gives ⟨hp, hd⟩, fun c s => pendingClaimLapse_gives, fun s => ownerLeaseExpiry_gives⟩
  · obtain ⟨t, ht, howner, hclaim⟩ := claim_behind ⟨hp, hd⟩ hsec hv hk ho hm
    exact ⟨t, ht, howner, hclaim.trans (waitingClaim_higher hlow)⟩
  · obtain ⟨t, ht, howner, hclaim⟩ := claim_behind ⟨hp, hd⟩ hsec hv hk ho hm
    exact ⟨t, ht, howner, hclaim.trans (waitingClaim_lower hc hhigh)⟩
  · exact claim_refused ⟨hp, hd⟩ (.inl ⟨hsec, hv, rfl⟩)
  · exact claim_refused ⟨hp, hd⟩ (.inr ⟨hsec, rfl⟩)
  · obtain ⟨t, ht, howner, hclaim⟩ := passes_on ⟨hp, hd⟩ (show transferOwn s src dest = 0 by simp [transferOwn, firstReason, ownerOnly_owner ho, hc, hm])
      (show exec (.transfer src dest) s = _ from rfl)
    exact ⟨t, ht, by rw [howner, hc, Option.map_some, hm], hclaim⟩

/-! ### HELLO and OPEN (19 R498, 21 R534, R535) -/

theorem hello_answered {m : Fin 9} {s : State} (hm : m ≠ 0) (hw : entryWaits s = false) (hf : farrierUp s = true) :
    Gives (.hello m) s fun t => t.sent = s.sent ++ [setupMsg m 1 0 0 (helloBody s)] ∧ Touches [.sent] s t := by
  refine Gives.of (t := emit s (setupMsg m 1 0 0 (helloBody s))) ?_ ⟨rfl, emit_touches _ _⟩
  show execHello m s = _
  simp only [execHello, if_neg hm, hw, hf, Bool.false_eq_true, if_false, if_true]

theorem hello_production {m : Fin 9} {s : State} (hm : m ≠ 0) (hw : entryWaits s = true) :
    Gives (.hello m) s fun t => t.dev.prodNonce = Config.freeWord s.free ∧ t.dev.prodHello = true ∧
      t.sent = s.sent ++ [setupMsg m 1 0 0 (helloBody s ++ toBytes 8 (Config.freeWord s.free).toNat)] :=
  Gives.of (show execHello m s = _ from (if_neg hm).trans (if_pos hw)) ⟨rfl, rfl, rfl⟩

/-- The state in which an OPEN's fragments are taken: an operation that another breaks off is counted. -/
def openTaken (s : State) (count total : Nat) : State := if fragsOther s count total then tagFail s else s

theorem openTaken_spec (s : State) (count total : Nat) : (openTaken s count total).host.tagFails = s.host.tagFails + bit (fragsOther s count total) ∧
    (openTaken s count total).host.sessions = s.host.sessions ∧ Touches [.host] s (openTaken s count total) := by
  unfold openTaken
  split
  · next h => exact ⟨by rw [h]; rfl, rfl, tagFail_touches s⟩
  · next h => exact ⟨by rw [Bool.eq_false_iff.mpr h]; rfl, rfl, .refl⟩

/-- Fragments of an OPEN reach the Farrier. -/
structure OpenArrives (s : State) (frags : List (Nat × List Byte)) : Prop where
  farrier : farrierUp s = true
  some_   : frags ≠ []

theorem OpenArrives.goesOn {s : State} {frags : List (Nat × List Byte)} (h : OpenArrives s frags) : (!farrierUp s || frags.isEmpty) = false := by
  simp [h.farrier, h.some_]

theorem halterOpen_dropped {frags : List (Nat × List Byte)} {count total : Nat} {s : State} (h : OpenArrives s frags)
    (ht : fragsTake (fragsHeld s count total) frags = none) : Gives (.halterOpen frags count total) s fun t => t.sec.frags = none ∧
      t.host.tagFails = s.host.tagFails + 1 + bit (fragsOther s count total) ∧ t.host.sessions = s.host.sessions := by
  obtain ⟨hfails, hsessions, -⟩ := openTaken_spec s count total
  refine Gives.of (t := tagFail { openTaken s count total with sec := { (openTaken s count total).sec with frags := none } }) ?_ ⟨rfl, ?_, hsessions⟩
  · show execHalterOpen frags count total s = _
    simp only [execHalterOpen, h.goesOn, ht, Bool.false_eq_true, if_false]
    rfl
  · show (openTaken s count total).host.tagFails + 1 = _
    omega

theorem halterOpen_held {frags : List (Nat × List Byte)} {count total : Nat} {f : Frags} {s : State} (h : OpenArrives s frags)
    (ht : fragsTake (fragsHeld s count total) frags = some f) (hn : f.next ≠ count) : Gives (.halterOpen frags count total) s fun t =>
      t.sec.frags = some f ∧ t.host.tagFails = s.host.tagFails + bit (fragsOther s count total) ∧ Touches [.sec, .host] s t := by
  obtain ⟨hfails, -, htouch⟩ := openTaken_spec s count total
  refine Gives.of (t := { openTaken s count total with sec := { (openTaken s count total).sec with frags := some f } }) ?_ ⟨rfl, hfails, ?_⟩
  · show execHalterOpen frags count total s = _
    simp only [execHalterOpen, h.goesOn, ht, if_neg hn, Bool.false_eq_true, if_false]
    rfl
  · exact .step (Touches.setSec _ { (openTaken s count total).sec with frags := some f }) (by decide) (htouch.mono (by decide))

/-- The number of a session is never 0 (21 R534). -/
theorem sessionNumber_ne_zero (n : Nat) : BitVec.ofNat 32 (n % (2 ^ 32 - 1) + 1) ≠ 0 := by
  intro h
  have h := congrArg BitVec.toNat h
  simp only [BitVec.toNat_ofNat, BitVec.ofNat_eq_ofNat] at h
  omega

theorem openSession_opens (s : State) (slot : Fin 9) (body : List Byte) : (openSession s slot body).sec = s.sec ∧
    ∃ x : Session, (openSession s slot body).host.sessions = s.host.sessions ++ [x] ∧ x.slot = slot ∧ x.number ≠ 0 ∧ x.topSeq = 0 ∧ x.seqSeen = false ∧
      x.lastAt = s.clk.now :=
  ⟨rfl, _, rfl, rfl, sessionNumber_ne_zero _, rfl, rfl, rfl⟩

theorem halterOpen_whole {frags : List (Nat × List Byte)} {count total : Nat} {f : Frags} {k : Fin 9} {s : State} (h : OpenArrives s frags)
    (ht : fragsTake (fragsHeld s count total) frags = some f) (hn : f.next = count) (htotal : f.total = 1568) (hlen : f.bytes.length = 1568)
    (hk : freeSlot s = some k) (hsec : securityUp s = true) : Gives (.halterOpen frags count total) s fun t => t.sec.frags = none ∧
      ∃ x : Session, t.host.sessions = s.host.sessions ++ [x] ∧ x.slot = k ∧ x.number ≠ 0 ∧ x.topSeq = 0 ∧ x.seqSeen = false ∧ x.lastAt = s.clk.now := by
  obtain ⟨-, hsessions, htouch⟩ := openTaken_spec s count total
  have hfree : freeSlot { openTaken s count total with sec := { (openTaken s count total).sec with frags := none } } = some k := by
    rw [← hk]
    simp only [freeSlot, sessionOf, hsessions]
  have hup : securityUp { openTaken s count total with sec := { (openTaken s count total).sec with frags := none } } = true := by
    rw [← hsec]
    exact congrArg (BitVec.getLsbD · 43) htouch.domains_eq
  obtain ⟨hkept, x, hx, hslot, hnumber, htop, hseen, hlast⟩ :=
    openSession_opens { openTaken s count total with sec := { (openTaken s count total).sec with frags := none } } k f.bytes
  refine Gives.of (t := openSession { openTaken s count total with sec := { (openTaken s count total).sec with frags := none } } k f.bytes) ?_
    ⟨congrArg Sec.frags hkept, x, hx.trans (congrArg (· ++ [x]) hsessions), hslot, hnumber, htop, hseen, hlast.trans (congrArg Clk.now htouch.clk_eq)⟩
  show execHalterOpen frags count total s = _
  have hwhole : openWhole { openTaken s count total with sec := { (openTaken s count total).sec with frags := none } } f =
      openSession { openTaken s count total with sec := { (openTaken s count total).sec with frags := none } } k f.bytes := by
    simp only [openWhole, htotal, hlen, hfree, hup, ne_eq, not_true_eq_false, decide_false, Bool.or_self, Bool.false_eq_true, if_false, if_true]
  rw [← hwhole]
  simp only [execHalterOpen, h.goesOn, ht, if_pos hn, Bool.false_eq_true, if_false]
  rfl

theorem sessionOf_filtered (l : List Session) (slot : Fin 9) : (l.filter fun x => x.slot ≠ slot).find? (fun x => decide (x.slot = slot)) = none := by
  rw [List.find?_eq_none]
  intro x hx
  simpa using (List.mem_filter.mp hx).2

theorem sessionIdleTimeout_gives {slot : Fin 9} {x : Session} {s : State} (h : sessionOf s slot = some x) :
    Gives (.sessionIdleTimeout slot) s fun t => sessionOf t slot = none ∧ t.host.managers = s.host.managers.filter (· ≠ slot) ∧ t.host.owner = s.host.owner ∧
      x.lastAt + 30000000000 ≤ t.clk.now := by
  refine Gives.of (t := closeSession (reach s (x.lastAt + 30000000000)) slot) ?_ ⟨sessionOf_filtered _ _, rfl, rfl, le_max_right _ _⟩
  show execSessionIdleTimeout slot s = _
  simp only [execSessionIdleTimeout, h]

/-- Settles O44: message by message. -/
theorem sessions : Obligations.Sessions := by
  refine ⟨fun m s => hello_answered, fun m s => hello_production, fun frags count total s hf hn => halterOpen_dropped ⟨hf, hn⟩,
    fun frags count total f s hf hn => halterOpen_held ⟨hf, hn⟩, fun frags count total f k s hf hn => halterOpen_whole ⟨hf, hn⟩, fun s h => ?_,
    fun slot s hslot hx hf => ?_, fun slot x s => sessionIdleTimeout_gives⟩
  · exact Gives.of (show execFragmentTimeout 0 s = _ from (if_pos rfl).trans (if_pos h)) ⟨rfl, rfl⟩
  · exact Gives.of (show execFragmentTimeout slot s = _ from (if_neg hslot).trans (if_pos (by rw [hx, hf]; rfl))) ⟨rfl, tagFail_touches s⟩

end Sys2Proof.Machine
end

section
/-! SUPPORT. The standard mailbox commands and persistence; attestation, credentials and debug unlock; blinkers; production test
(19 R491, 20 R516 to R519, 21 R527 to R544, 22 R557 to R559). -/

-- One theorem at a time: the stacks of parallel proofs add up to more than the memory the check gives.
set_option Elab.async false

namespace Sys2Proof.Machine

/-! ### The mailbox (19 R491) -/

theorem renewLease_msix0 (s : State) (m : Fin 9) : (renewLease s m).host.msix0 = s.host.msix0 := by
  unfold renewLease
  split
  · rfl
  · rfl

/-- A standard command of master 0: the owner's lease, a completion with STATUS 0, and vector 0. -/
theorem mailbox_answers {c : Instr} {s : State} {value : Nat} (he : exec c s = .next (mailboxDone (renewLease s 0) 0 value)) :
    Gives c s fun t => t.host.msix0 = s.host.msix0 + 1 ∧ t.host.reply.map (·.1) = some 0 ∧ Touches [.host] s t :=
  Gives.of he ⟨congrArg (· + 1) (renewLease_msix0 s 0), rfl, (renewLease_touches s 0).trans (mailboxDone_touches _ _ _)⟩

theorem mailboxUnsupportedOpcode_gives {op : BitVec 16} {s : State} (hup : cxlUp s = true) (hop : mailboxHas op.toNat = false) :
    Gives (.mailboxUnsupportedOpcode op) s fun t => t.host.msix0 = s.host.msix0 + 1 ∧ t.host.reply = some (0x10003, 0) ∧ Touches [.host] s t :=
  Gives.of (show execMailboxUnsupportedOpcode op s = _ from if_pos (by rw [hup, hop]; rfl)) ⟨rfl, rfl, mailboxDone_touches _ _ _⟩

/-! ### Persistence (20 R516 to R519) -/

theorem persistGenerationStart_gives {s : State} (hm : mayPersist s = true) (hp : s.dict.pendingW = true) (hf : s.dict.failed = false) :
    Gives .persistGenerationStart s fun t => t.dict.writing = some ⟨max s.dict.copyA.number s.dict.copyB.number + 1, true, keepRwp s.dict.vals⟩ ∧
      t.dict.copyA = s.dict.copyA ∧ t.dict.copyB = s.dict.copyB := by
  have hdict : (if s.dict.lastStart = 0 then s else reach s (s.dict.lastStart + 100000000)).dict = s.dict := by split <;> rfl
  refine Gives.of (show execPersistGenerationStart s = _ from if_pos (by rw [hm, hp, hf]; rfl)) ?_
  unfold genStarts
  rw [hdict]
  exact ⟨rfl, rfl, rfl⟩

/-- What is changed is the older copy alone. -/
theorem onOlder_spec (d : Dict) (f : Gen → Gen) : if olderIsA d then (onOlder d f).copyA = f d.copyA ∧ (onOlder d f).copyB = d.copyB
    else (onOlder d f).copyB = f d.copyB ∧ (onOlder d f).copyA = d.copyA := by
  unfold onOlder
  split
  · exact ⟨rfl, rfl⟩
  · exact ⟨rfl, rfl⟩

theorem persistGenerationDone_whole {g : Gen} {s : State} (hw : s.dict.writing = some g) (hf : s.fw.farrierDown = false) :
    Gives (.persistGenerationDone true) s fun t => t.dict.writing = none ∧ t.dict.gen = g.number ∧ t.dict.failed = false ∧
      (if olderIsA s.dict then t.dict.copyA = g ∧ t.dict.copyB = s.dict.copyB else t.dict.copyB = g ∧ t.dict.copyA = s.dict.copyA) := by
  have hrun : exec (.persistGenerationDone true) s = .next { s with dict := { onOlder s.dict (fun _ => g) with
      writing := none, gen := g.number, failed := false, defaulted := false, pendingW := (onOlder s.dict fun _ => g).again, again := false } } := by
    show execPersistGenerationDone true s = _
    simp only [execPersistGenerationDone, hw, hf, Bool.false_eq_true, if_false, if_true]
  exact Gives.of hrun ⟨rfl, rfl, rfl, onOlder_spec s.dict fun _ => g⟩

theorem persistGenerationDone_failed {g : Gen} {s : State} (hw : s.dict.writing = some g) (hf : s.fw.farrierDown = false) :
    Gives (.persistGenerationDone false) s fun t => t.dict.writing = none ∧ t.dict.failed = true ∧
      (if olderIsA s.dict then t.dict.copyA.valid = false ∧ t.dict.copyB = s.dict.copyB else t.dict.copyB.valid = false ∧ t.dict.copyA = s.dict.copyA) := by
  have hrun : exec (.persistGenerationDone false) s = .next { s with dict := { onOlder s.dict (fun x => { x with valid := false }) with
      writing := none, failed := true } } := by
    show execPersistGenerationDone false s = _
    simp only [execPersistGenerationDone, hw, hf, Bool.false_eq_true, if_false]
  refine Gives.of hrun ⟨rfl, rfl, ?_⟩
  have holder := onOlder_spec s.dict fun x => { x with valid := false }
  split at holder
  · next h => exact (if_pos h).mpr ⟨congrArg Gen.valid holder.1, holder.2⟩
  · next h => exact (if_neg h).mpr ⟨congrArg Gen.valid holder.1, holder.2⟩

theorem persistRetry_gives {s : State} (hm : mayPersist s = true) (hf : s.dict.failed = true) :
    Gives .persistRetry s fun t => t.dict.writing.map (·.image) = some (keepRwp s.dict.vals) ∧ s.dict.lastStart + 1000000000 ≤ t.clk.now :=
  Gives.of (show execPersistRetry s = _ from if_pos (by rw [hm, hf]; rfl)) ⟨rfl, le_max_right _ _⟩

theorem restoreDefaults_gives {src : Src} {v : BitVec 8} {s : State} (h : Passes s src 0x20000B 1 v.toNat (defaultsOwn s v.toNat)) :
    Gives (.restoreDefaults src v) s fun t => t.dict.pendingW = true ∧
      ∀ x, x ∈ t.dict.vals ↔ x ∈ s.dict.vals ∧ ¬(isRwp x.1 = true ∧ x.1 < 0xA00000) := by
  refine Gives.accepted h rfl fun t ht => ?_
  rw [ht.dict_eq]
  refine ⟨rfl, fun x => ?_⟩
  show x ∈ s.dict.vals.filter _ ↔ _
  rw [List.mem_filter, Bool.not_eq_true', Bool.and_eq_false_iff, decide_eq_false_iff_not, Bool.eq_false_iff, ne_eq, not_and_or]

/-- Settles O46: the mailbox by its completion, persistence by the older copy. -/
theorem mailboxAndPersistence : Obligations.MailboxAndPersistence :=
  ⟨fun _ hup => ⟨mailbox_answers (if_pos hup), mailbox_answers (if_pos hup)⟩, fun _ _ => mailboxUnsupportedOpcode_gives,
    fun _ => persistGenerationStart_gives, fun _ _ hw hf => ⟨persistGenerationDone_whole hw hf, persistGenerationDone_failed hw hf⟩,
    fun _ => persistRetry_gives, fun _ _ _ => restoreDefaults_gives⟩

/-! ### Attestation (21 R543, R544) -/

theorem attestationRequest_gives {src : Src} {nonce : Digest} {s : State} (h : Passes s src 0xA00020 32 nonce.toNat (attestOwn s)) :
    Gives (.attestationRequest src nonce) s fun t => t.sec.attState = 1 ∧ t.sec.attNonce = nonce ∧ t.sec.report = s.sec.report := by
  refine Gives.accepted h rfl fun t ht => ?_
  rw [ht.sec_eq]
  exact ⟨rfl, BitVec.ofNat_toNat _ _, rfl⟩

theorem attestationDone_gives {s : State} (h : s.sec.attState = 1) :
    Gives .attestationDone s fun t => t.sec.attState = 2 ∧ t.sec.report = reportOf s.sec s.sec.reportNext ∧ Touches [.sec] s t := by
  refine Gives.of (show execAttestationDone s = _ from if_pos h) ⟨rfl, rfl, Touches.setSec _ _⟩

theorem reportExport_gives {src : Src} {off : BitVec 64} {s : State} (h : Passes s src 0xA00024 8 off.toNat (reportOwn s off.toNat))
    (hm : s.staging.wf = true) : Gives (.reportExport src off) s fun t => memTake t.staging off.toNat s.sec.report.length = s.sec.report ∧
      (∀ a, a < off.toNat ∨ off.toNat + s.sec.report.length ≤ a → memGet t.staging a = memGet s.staging a) ∧ t.sec = s.sec := by
  refine Gives.accepted h rfl fun t ht => ?_
  rw [ht.staging_eq, ht.sec_eq]
  exact ⟨memTake_memPut _ _ hm, fun a ha => memGet_memPut_outside hm ha, rfl⟩

/-! ### Credentials (21 R531, R532) -/

theorem configChanged_creds (s : State) : (configChanged s).sec.creds = s.sec.creds := by
  obtain ⟨m, w, h⟩ := configChanged_sec s
  rw [h]

theorem configChanged_owner (s : State) : (configChanged s).host.owner = s.host.owner := by rw [(configChanged_touches s).host_eq]

theorem slotTouched_owner {s : State} {i : Nat} (ho : s.host.owner.isSome = true) (hs : s.host.ownerSlot = i) :
    (slotTouched s i).host.owner = s.host.claim.map (·.master) := by
  rw [slotTouched, if_pos (by simp [ho, hs])]
  exact (passOwnership_election s).1

/-- The credentials with one slot changed. -/
def credsWith (s : State) (i : Nat) (f : Cred → Cred) : State := { s with sec := { s.sec with creds := updN s.sec.creds i f } }

/-- A change of one slot, after which ownership passes if its present owner claimed with it. -/
def credChanged (s : State) (i : Nat) (f : Cred → Cred) : State := configChanged (slotTouched (credsWith s i f) i)

theorem credChanged_creds (s : State) (i : Nat) (f : Cred → Cred) : (credChanged s i f).sec.creds = updN s.sec.creds i f := by
  rw [credChanged, configChanged_creds, (slotTouched_touches _ _).sec_eq]
  rfl

theorem credChanged_owner {s : State} {i : Nat} (f : Cred → Cred) (ho : s.host.owner.isSome = true) (hs : s.host.ownerSlot = i) :
    (credChanged s i f).host.owner = s.host.claim.map (·.master) := by
  rw [credChanged, configChanged_owner]
  exact slotTouched_owner ho hs

theorem Touches.owner_eq {W : List StatePart} {s t : State} (h : Touches W s t) (hw : W.contains .owner = false := by decide) :
    t.host.owner = s.host.owner := (h .owner hw).symm

theorem Touches.creds_eq {W : List StatePart} {s t : State} (h : Touches W s t) (hw : W.contains .creds = false := by decide) :
    t.sec.creds = s.sec.creds := (h .creds hw).symm

/-- An install that nothing stands against names one of the eight slots. -/
theorem credSlot_lt {s : State} {v : Nat} (h : installOwn s v = 0) : credSlot v < 8 := by
  by_contra hs
  have hbad : (decide (credSlot v > 7) || decide (credOffset v + 1793 > 2 ^ 36)) = true := by
    rw [decide_eq_true (show credSlot v > 7 by omega), Bool.true_or]
  rw [installOwn, firstReason, if_pos hbad] at h
  exact absurd h (by decide)

theorem credentialInstall_gives {src : Src} {req : BitVec 128} {s : State} (h : Passes s src 0xA00048 16 req.toNat (installOwn s req.toNat)) :
    Gives (.credentialInstall src req) s fun t =>
      credAt t (credSlot req.toNat) = ⟨true, shake256 (memTake s.staging (credOffset req.toNat) 1793), req.getLsbD 5, req.getLsbD 6, req.getLsbD 7, req.getLsbD 8⟩ ∧
      (∀ k, k ≠ credSlot req.toNat → credAt t k = credAt s k) ∧
      (s.host.owner.isSome = true → s.host.ownerSlot = credSlot req.toNat → t.host.owner = s.host.claim.map (·.master)) := by
  refine Gives.accepted h rfl fun t ht => ?_
  have hcreds : t.sec.creds = updN s.sec.creds (credSlot req.toNat) fun _ =>
      ⟨true, shake256 (memTake s.staging (credOffset req.toNat) 1793), req.getLsbD 5, req.getLsbD 6, req.getLsbD 7, req.getLsbD 8⟩ :=
    ht.creds_eq.trans (credChanged_creds (emit s (.snoop (credOffset req.toNat))) _ _)
  refine ⟨?_, fun k hk => ?_, fun ho hs => ht.owner_eq.trans (credChanged_owner (s := emit s (.snoop (credOffset req.toNat))) _ ho hs)⟩
  · rw [credAt, hcreds, nth_updN_same _ _ _ (credSlot_lt h.own_eq)]
  · rw [credAt, hcreds, nth_updN_ne _ _ _ (Ne.symm hk), credAt]

theorem nth_updN_clear {n : Nat} (v : Vector Cred n) (i : Nat) : nth (updN v i fun _ => {}) i {} = {} := by
  by_cases h : i < n
  · exact nth_updN_same v _ _ h
  · exact dif_neg h

theorem credentialRemove_gives {src : Src} {slot : BitVec 8} {s : State} (h : Passes s src 0xA00049 1 slot.toNat (removeOwn s slot.toNat)) :
    Gives (.credentialRemove src slot) s fun t => credAt t slot.toNat = {} ∧ (∀ k, k ≠ slot.toNat → credAt t k = credAt s k) ∧
      (s.host.owner.isSome = true → s.host.ownerSlot = slot.toNat → t.host.owner = s.host.claim.map (·.master)) := by
  refine Gives.accepted h rfl fun t ht => ?_
  have hcreds : t.sec.creds = updN s.sec.creds slot.toNat fun _ => {} := ht.creds_eq.trans (credChanged_creds s _ _)
  refine ⟨?_, fun k hk => ?_, fun ho hs => ht.owner_eq.trans (credChanged_owner _ ho hs)⟩
  · rw [credAt, hcreds, nth_updN_clear]
  · rw [credAt, hcreds, nth_updN_ne _ _ _ (Ne.symm hk), credAt]

theorem debugUnlockRequest_gives {src : Src} {req : BitVec 128} {token : Sig} {s : State}
    (h : Passes s src 0xA00050 16 req.toNat (unlockOwn s req.toNat token)) :
    Gives (.debugUnlockRequest src req token) s fun t => t.sec.unlocked = true ∧ t.sec.unlockSeen = true ∧ t.sec.debugNonce = Config.freeWord s.free ∧
      t.sec.events = s.sec.events := by
  obtain ⟨m, w, hsec⟩ := unlock_sec (emit s (.snoop (fld req.toNat 127 64)))
  have hrun : exec (.debugUnlockRequest src req token) s = .next (unlockCommand s src req.toNat token) := rfl
  rw [unlockCommand_passes h] at hrun
  refine Gives.of hrun ?_
  rw [(accepted_touches _ _ _ _ _).sec_eq, hsec]
  exact ⟨rfl, rfl, rfl, rfl⟩

/-- Settles O47: each command by what it sets, credentials by the slot that changes. -/
theorem securityCommands : Obligations.SecurityCommands :=
  ⟨fun _ _ _ => attestationRequest_gives, fun _ => attestationDone_gives, fun _ _ _ => reportExport_gives, fun _ _ _ => credentialInstall_gives,
    fun _ _ _ => credentialRemove_gives, fun _ _ _ _ => debugUnlockRequest_gives⟩

/-! ### Blinkers (21 R539, R540) -/

theorem windowsDigest_congr {s t : State} (h : ∀ k, winAt t k = winAt s k) : windowsDigest t = windowsDigest s := by simp only [windowsDigest, h]

theorem blinkersWindowWrite_gives {src : Src} {w : Fin 16} {v : BitVec 256} {s : State}
    (h : Passes s src (0xB00010 + w.val) 32 v.toNat (windowOwn s w.val v.toNat)) (hv : valsWf s.dict.vals = true) :
    Gives (.blinkersWindowWrite src w v) s fun t => winAt t w.val = v.toNat ∧ (∀ k, k ≠ w.val → winAt t k = winAt s k) ∧
      nth t.sec.meas 7 0 = extend (nth s.sec.meas 7 0) (windowsDigest t) := by
  refine Gives.accepted h rfl fun t ht => ?_
  have hwin (k : Nat) : winAt t k = winAt (putValue s (0xB00010 + w.val) v.toNat) k := ht.rw_eq _
  have hmeas : t.sec.meas = updN s.sec.meas 7 fun m => extend m (windowsDigest (putValue s (0xB00010 + w.val) v.toNat)) := by
    rw [ht.sec_eq, ← (putValue_touches s (0xB00010 + w.val) v.toNat).meas_eq]
    rfl
  refine ⟨(hwin w.val).trans (rw_putValue s _ _ hv), fun k hk => (hwin k).trans (rw_putValue_other s _ (by omega)), ?_⟩
  rw [hmeas, nth_updN_same _ _ _ (by decide), windowsDigest_congr hwin]

/-- A guest's request that its die can send. -/
structure GuestAsks (s : State) (n : Nat) : Prop where
  part  : guestPart s = true
  port  : s.domains.getLsbD 47 = true
  bytes : n ≠ 0

theorem guestRequest_judged {addr len : Nat} {w : Option (List Byte)} {s : State} (h : GuestAsks s ((w.map List.length).getD len)) :
    exec (.guestRequest addr len w) s = match guestJudged s addr ((w.map List.length).getD len) w.isSome with
      | .ok off => .next (guestPassed s off ((w.map List.length).getD len) w)
      | .error cause => .next (guestDenied s addr cause w.isSome) := by
  show execGuestRequest addr len w s = _
  exact if_neg (by simp [h.part, h.port, h.bytes])

theorem guestWrite_passes {addr len off : Nat} {bs : List Byte} {s : State} (h : GuestAsks s bs.length)
    (hj : guestJudged s addr bs.length true = .ok off) (ha : stageAway s off bs.length = false) (hm : s.staging.wf = true) :
    Gives (.guestRequest addr len (some bs)) s fun t => memTake t.staging off bs.length = bs ∧
      (∀ a, a < off ∨ off + bs.length ≤ a → memGet t.staging a = memGet s.staging a) ∧ t.sec.denials = s.sec.denials := by
  refine Gives.of (t := moduleStages s off bs) ?_ ⟨memTake_memPut _ _ hm, fun a ha => memGet_memPut_outside hm ha, rfl⟩
  rw [guestRequest_judged (w := some bs) h]
  simp only [Option.map_some, Option.getD_some, Option.isSome_some, hj, guestPassed, ha, Bool.false_eq_true, if_false]

theorem guestRead_passes {addr len off : Nat} {s : State} (h : GuestAsks s len) (hj : guestJudged s addr len false = .ok off)
    (ha : stageAway s off len = false) : Gives (.guestRequest addr len none) s fun t =>
      t.sent = s.sent ++ [.snoop off, .guestData (memTake s.staging off len) true] ∧ Touches [.sent] s t := by
  refine Gives.of (t := emits s [.snoop off, .guestData (memTake s.staging off len) true]) ?_ ⟨rfl, emits_touches _ _⟩
  rw [guestRequest_judged (w := none) h]
  simp only [Option.map_none, Option.getD_none, Option.isSome_none, hj, guestPassed, ha, Bool.false_eq_true, if_false]

theorem guestWrite_denied {addr len cause : Nat} {bs : List Byte} {s : State} (h : GuestAsks s bs.length)
    (hj : guestJudged s addr bs.length true = .error cause) : Gives (.guestRequest addr len (some bs)) s fun t =>
      t.sec.denials = s.sec.denials + 1 ∧ t.sent = s.sent ∧ Touches [.sec] s t := by
  refine Gives.of (t := denied s addr cause true) ?_ ⟨rfl, rfl, denied_touches _ _ _ _⟩
  rw [guestRequest_judged (w := some bs) h]
  simp only [Option.map_some, Option.getD_some, Option.isSome_some, hj, guestDenied, if_true]

theorem guestRead_denied {addr len cause : Nat} {s : State} (h : GuestAsks s len) (hj : guestJudged s addr len false = .error cause) :
    Gives (.guestRequest addr len none) s fun t =>
      t.sec.denials = s.sec.denials + 1 ∧ t.sent = s.sent ++ [.guestData [] false] ∧ Touches [.sec, .sent] s t := by
  refine Gives.of (t := emit (denied s addr cause false) (.guestData [] false)) ?_
    ⟨rfl, rfl, .step (emit_touches _ _) (by decide) ((denied_touches _ _ _ _).mono (by decide))⟩
  rw [guestRequest_judged (w := none) h]
  simp only [Option.map_none, Option.getD_none, Option.isSome_none, hj, guestDenied, Bool.false_eq_true, if_false]

/-- Settles O48: windows by their entries, guest requests by the judgement. -/
theorem blinkers : Obligations.Blinkers :=
  ⟨fun _ _ _ _ => blinkersWindowWrite_gives,
    fun _ _ _ _ _ hp hd hb => guestWrite_passes ⟨hp, hd, fun h => hb (List.length_eq_zero_iff.mp h)⟩,
    fun _ _ _ _ hp hd hb => guestRead_passes ⟨hp, hd, hb⟩,
    fun _ _ _ _ _ hp hd hb => guestWrite_denied ⟨hp, hd, fun h => hb (List.length_eq_zero_iff.mp h)⟩,
    fun _ _ _ _ hp hd hb => guestRead_denied ⟨hp, hd, hb⟩⟩

/-! ### Production test (22 R557 to R559) -/

theorem ptEntry_valid {sig : Sig} {s : State} (hw : entryWaits s = true) (hh : s.dev.prodHello = true) (hk : sig.key = s.sec.prodKey)
    (hm : sig.msg = entryDigest s) : Gives (.ptEntry sig) s fun t => t.dev = { s.dev with phase := 1 } ∧ Touches [.dev] s t := by
  refine Gives.of (t := { s with dev := { s.dev with phase := 1 } }) ?_ ⟨rfl, fun p hp => ?_⟩
  · show execPtEntry sig s = _
    rw [execPtEntry, if_neg (by simp [hw]), if_pos (by simp [hh, hk, hm])]
  · cases p
    case dev => exact absurd hp (by decide)
    all_goals rfl

theorem ptEntry_invalid {sig : Sig} {s : State} (hw : entryWaits s = true)
    (hbad : s.dev.prodHello = false ∨ sig.key ≠ s.sec.prodKey ∨ sig.msg ≠ entryDigest s) :
    Gives (.ptEntry sig) s fun t => t.dev.phase = s.dev.phase ∧ t.dev.prodNonce = Config.freeWord s.free ∧ t.sec.events = s.sec.events + 1 := by
  refine Gives.of (t := securityEvent (drawn { s with dev := { s.dev with prodNonce := drawnWord s } })) ?_ ⟨rfl, rfl, rfl⟩
  show execPtEntry sig s = _
  have hneg : ¬(((s.dev.prodHello && decide (sig.key = s.sec.prodKey)) && decide (sig.msg = entryDigest s)) = true) := by
    rcases hbad with h | h | h
    · simp [h]
    · simp [h]
    · simp [h]
  rw [execPtEntry, if_neg (by simp [hw]), if_neg hneg]

theorem configChanged_dev (s : State) : (configChanged s).dev = s.dev := (configChanged_touches s).wholeDev_eq

theorem productionValueWrite_gives {src : Src} {req : BitVec 192} {s : State} (h : Passes s src 0xC00010 24 req.toNat (prodOwn s req.toNat)) :
    Gives (.productionValueWrite src req) s fun t => t.dev.product = prodWith s.dev.product (prodSub req.toNat) (prodValue req.toNat) ∧
      t.dev.fuses = s.dev.fuses := by
  refine Gives.accepted h rfl fun t ht => ?_
  rw [ht.wholeDev_eq, prodWritten, configChanged_dev]
  exact ⟨rfl, rfl⟩

theorem ledgerReset_gives {src : Src} {v : BitVec 8} {s : State} (h : Passes s src 0xC00011 1 v.toNat (ledgerOwn s v.toNat)) :
    Gives (.ledgerReset src v) s fun t => t.ledger.ring = [] ∧ t.ledger.kept = [] ∧ t.ledger.summary = [] ∧ t.ledger.pkgSerial = s.dev.product.pkgSerial ∧
      t.ledger.written = s.ledger.written ∧ t.dev.ledgerRst = true := by
  refine Gives.accepted h rfl fun t ht => ?_
  rw [ht.ledger_eq, ht.wholeDev_eq]
  exact ⟨rfl, rfl, rfl, rfl, rfl, rfl⟩

theorem fuseProgram_gives {src : Src} {req : BitVec 128} {s : State} (h : Passes s src 0xC00012 16 req.toNat (fuseOwn s)) :
    Gives (.fuseProgram src req) s fun t => fusesOf t (req.toNat % 256) = fusesOf s (req.toNat % 256) ||| fld req.toNat 127 64 ∧
      (∀ g, g ≠ req.toNat % 256 → fusesOf t g = fusesOf s g) ∧ t.dev.fused = true := by
  refine Gives.accepted h rfl fun t ht => ?_
  have hdev := ht.wholeDev_eq
  have hfuses (g : Nat) : fusesOf t g = fusesOf (fused req.toNat s) g := by rw [fusesOf, hdev, fusesOf]
  have hgroup : fld req.toNat 7 0 = req.toNat % 256 := rfl
  refine ⟨?_, fun g hg => ?_, by rw [hdev]; rfl⟩
  · rw [hfuses, fusesOf_fused, if_pos hgroup.symm]
  · rw [hfuses, fusesOf_fused, if_neg (hgroup ▸ hg)]

/-- Settles O49: each command by what it sets. -/
theorem productionTest : Obligations.ProductionTest :=
  ⟨fun _ _ => ptEntry_valid, fun _ _ => ptEntry_invalid, fun _ _ _ => productionValueWrite_gives, fun _ _ _ => ledgerReset_gives,
    fun _ _ _ => fuseProgram_gives⟩

end Sys2Proof.Machine
end

section
/-! SUPPORT. Power and thermal control: the controller and the lease, islands and sensors, emergencies and what they lead to (17 R446 to R460). -/

-- One theorem at a time: the stacks of parallel proofs add up to more than the memory the check gives.
set_option Elab.async false

namespace Sys2Proof.Machine

/-! ### Emergencies that are raised (17 R457) -/

theorem emerPresent_congr {s t : State} (h : t.power = s.power) (k : Emer) : emerPresent t k = emerPresent s k := by rw [emerPresent, emerBit, h]; rfl

/-- The power part once an emergency that was not present is raised. -/
theorem raiseEmer_power {s : State} {k : Emer} (h : emerPresent s k = false) : (raiseEmer s k).power =
    { s.power with emers := (s.power.emers.filter fun e => e.kind ≠ k) ++ [{ kind := k, since := s.clk.now }] } := by
  rw [raiseEmer, if_neg (by simp [h])]
  exact (emerShown_touches _).power_eq.trans (gallopStop_touches _).power_eq

theorem raiseEmer_present (s : State) (k : Emer) : emerPresent (raiseEmer s k) k = true := by
  rcases h : emerPresent s k with _ | _
  · rw [emerPresent, emerBit, raiseEmer_power h]
    simp
  · rw [raiseEmer, if_pos h, h]

/-- What an emergency leaves of the power part: all but the list of emergencies. -/
theorem raiseEmer_rest {α : Type} (f : Power → α) (hf : ∀ p l, f { p with emers := l } = f p) (s : State) (k : Emer) :
    f (raiseEmer s k).power = f s.power := by
  rcases h : emerPresent s k with _ | _
  · rw [raiseEmer_power h, hf]
  · rw [raiseEmer, if_pos h]

/-! ### The controller and the lease (17 R446 to R449) -/

theorem powerControllerIteration_gives {w : Nat} {s : State} (hl : loopsRun s = true) (hw : w ≤ 4300) (ho : overTwenty (controlled s w) = false) :
    Gives (.powerControllerIteration w) s fun t => t.power.inputW = w ∧ 0 < t.power.targetDen ∧ t.power.target ≤ 3600 * t.power.targetDen ∧
      t.pins = s.pins ∧
      t.power.p = (if w * t.power.targetDen > t.power.target then
          max 16 (s.power.p - (w * t.power.targetDen - t.power.target + 24 * t.power.targetDen - 1) / (24 * t.power.targetDen))
        else if (w + 50) * t.power.targetDen < t.power.target ∧ s.power.p < 64 then s.power.p + 1 else s.power.p) := by
  have hrun : exec (.powerControllerIteration w) s = .next (controlled s w) := by
    show execPowerControllerIteration w s = _
    rw [execPowerControllerIteration, if_pos hl]
    exact congrArg _ (if_neg (by simp [ho]; omega))
  refine Gives.of hrun ⟨rfl, lt_of_lt_of_le Nat.one_pos (le_max_left 1 _), ?_, rfl, ?_⟩
  · rw [Nat.mul_comm]
    exact min_le_left _ _
  · show nextP s.power.p w (controlled s w).power.target (controlled s w).power.targetDen = _
    simp only [nextP, Bool.and_eq_true, decide_eq_true_eq]

theorem powerControllerIteration_over {w : Nat} {s : State} (hl : loopsRun s = true) (hw : w > 4300) :
    Gives (.powerControllerIteration w) s fun t => emerPresent t .overpower = true := by
  have hrun : exec (.powerControllerIteration w) s = .next (raiseEmer (controlled s w) .overpower) := by
    show execPowerControllerIteration w s = _
    rw [execPowerControllerIteration, if_pos hl]
    exact congrArg _ (if_pos (by simp [hw]))
  exact Gives.of hrun (raiseEmer_present _ _)

theorem leaseWritten_power {s : State} {v : Nat} (h : leaseInSeq s v = true) : (leaseWritten v s).power =
    { s.power with leaseSeq := v / 65536, leaseW := v % 65536, leaseEnd := some (s.clk.now + 10000000000) } := by
  have hclk : (putValue s 0x700002 v).clk = s.clk := (putValue_touches _ _ _).clk_eq
  unfold leaseWritten
  rw [if_neg (by simp [h])]
  extract_lets fell _ put shown
  have hshown : shown.power = { s.power with leaseSeq := v / 65536, leaseW := v % 65536, leaseEnd := some (s.clk.now + 10000000000) } := rfl
  split
  · exact (post_touches _ _ _ _ _).power_eq.trans hshown
  · exact hshown

theorem rackLeaseWrite_inSeq {src : Src} {v : BitVec 32} {s : State} (h : Passes s src 0x700002 4 v.toNat (leaseOwn v.toNat))
    (hs : leaseInSeq s v.toNat = true) : Gives (.rackLeaseWrite src v) s fun t => t.power.leaseSeq = v.toNat / 65536 ∧
      t.power.leaseW = v.toNat % 65536 ∧ t.power.leaseEnd = some (s.clk.now + 10000000000) ∧ t.power.expiries = s.power.expiries := by
  refine Gives.accepted h rfl fun t ht => ?_
  rw [ht.power_eq, leaseWritten_power hs]
  exact ⟨rfl, rfl, rfl, rfl⟩

theorem rackLeaseWrite_outOfSeq {src : Src} {v : BitVec 32} {s : State} (h : Passes s src 0x700002 4 v.toNat (leaseOwn v.toNat))
    (hs : leaseInSeq s v.toNat = false) : Gives (.rackLeaseWrite src v) s fun t => Touches [.host, .sent] s t := by
  refine Gives.accepted h rfl fun t ht => ?_
  rwa [leaseWritten, if_pos (by rw [hs]; rfl)] at ht

/-- The state in which a lease has ended, before the fallback is posted. -/
def leaseEnded (s : State) (n : Nat) : State :=
  setAlert { reach s n with power := { s.power with leaseEnd := none, expiries := s.power.expiries + 1 } }

theorem leaseExpiry_gives {n : Nat} {s : State} (h : s.power.leaseEnd = some n) : Gives .leaseExpiry s fun t =>
    t.power = { s.power with leaseEnd := none, expiries := s.power.expiries + 1 } ∧ t.pins.alert = s.dev.on ∧ n ≤ t.clk.now ∧ s.clk.now ≤ t.clk.now := by
  have hrun : exec .leaseExpiry s = .next (post (leaseEnded s n) 10 0x7000 0x14 (reinStatus (leaseEnded s n))) := by
    show execLeaseExpiry s = _
    simp only [execLeaseExpiry, h]
    rfl
  have ht := post_touches (leaseEnded s n) 10 0x7000 0x14 (reinStatus (leaseEnded s n))
  have hfallback : (leaseEnded s n).pins.alert = s.dev.on := by
    show (s.dev.on && (_ || !(none : Option Nat).isSome || _)) = s.dev.on
    simp
  refine Gives.of hrun ⟨ht.power_eq, ?_, ?_, ?_⟩
  · rw [ht.pins_eq, hfallback]
  · rw [ht.clk_eq]
    exact le_max_right _ _
  · rw [ht.clk_eq]
    exact le_max_left _ _

/-- Settles O30: the controller by its rule for P, the lease by what ends and starts it. -/
theorem controllerAndLease : Obligations.ControllerAndLease :=
  ⟨fun _ _ => powerControllerIteration_gives, fun _ _ => powerControllerIteration_over, fun _ _ _ => rackLeaseWrite_inSeq,
    fun _ _ _ => rackLeaseWrite_outOfSeq, fun _ _ => leaseExpiry_gives⟩

/-! ### Islands and sensors (17 R450, R451, R456) -/

/-- An island outside a gallop cell is regulated around 0 mV, at the clock of the core. -/
theorem islandVoltageLoop_free {g : Fin 136} {more short : Bool} {s : State} (hp : corePowered s g.val = true) (hc : cellOn s g.val = none) :
    Gives (.islandVoltageLoop g more short) s fun t => coreAt t g.val = islandLoop (coreAt s g.val) (rw s 0x700005) 0 false more short := by
  have hrun : ∃ n, exec (.islandVoltageLoop g more short) s =
      .next (onCore_ { s with power := { s.power with floors := n } } g.val fun k => islandLoop k (rw s 0x700005) 0 false more short) := by
    refine ⟨s.power.floors + bit (atFloor (coreAt s g.val) 0 short), ?_⟩
    show execIslandVoltageLoop g more short s = _
    simp only [execIslandVoltageLoop, hp, hc, Bool.not_true, Bool.false_eq_true, if_false]
    rfl
  obtain ⟨n, hrun⟩ := hrun
  exact Gives.of hrun (coreAt_onCore_same _ _ (by omega))

theorem islandLoop_rises {k : Core} (ceiling : Nat) (more : Bool) (h : k.setpoint < 9000) :
    islandLoop k ceiling 0 false more true = { k with setpoint := k.setpoint + 25 } := by
  have hv : (k.setpoint : Int) - 0 < 9000 := by omega
  have hset : ((k.setpoint : Int) - 0 + 25 + 0).toNat = k.setpoint + 25 := by omega
  simp only [islandLoop, if_true, if_pos hv, hset]

theorem islandLoop_slows {k : Core} (ceiling : Nat) (more : Bool) (h : 9000 ≤ k.setpoint) (hf : 2400 < k.freq) :
    islandLoop k ceiling 0 false more true = { k with freq := max 2400 (k.freq - 25) } := by
  have hv : ¬((k.setpoint : Int) - 0 < 9000) := by omega
  have hfreq : ¬k.freq ≤ 2400 := by omega
  simp only [islandLoop, if_true, if_neg hv, Bool.false_or, decide_eq_true_eq, if_neg hfreq]

theorem islandLoop_falls {k : Core} (ceiling : Nat) (h : 6800 < k.setpoint) : (islandLoop k ceiling 0 false true false).setpoint = k.setpoint - 25 := by
  have hv : (k.setpoint : Int) - 0 > 6800 := by omega
  have hset : ((k.setpoint : Int) - 0 - 25 + 0).toNat = k.setpoint - 25 := by omega
  simp only [islandLoop, Bool.false_eq_true, if_false, if_true, if_pos hv, hset]

theorem droopDetected_gives {g : Fin 136} {s : State} (h : corePowered s g.val = true) : Gives (.droopDetected g) s fun t =>
    t.power.stretches = s.power.stretches + 1 ∧ (coreAt t g.val).stretch = (coreAt s g.val).stretch + 1 ∧ Touches [.cores, .power] s t := by
  refine Gives.of (show execDroopDetected g s = _ from if_pos h) ⟨rfl, ?_, ?_⟩
  · rw [coreAt_onCore_same _ _ (by omega)]
    rfl
  · exact .step (onCore__touches _ _ _) (by decide) ((Touches.setPower s _).mono (by decide))

/-- A ceiling is recomputed at every tenth sample, and rises by at most 4. -/
theorem tempSampled_spec (k : Core) (temp : Int) : (tempSampled k temp).temp = temp ∧ (tempSampled k temp).therm ≤ k.therm + 4 := by
  unfold tempSampled
  split
  · exact ⟨rfl, min_le_right _ _⟩
  · exact ⟨rfl, Nat.le_add_right _ _⟩

theorem logicTempSample_cool {g : Fin 136} {temp : Int} {s : State} (hd : s.domains.getLsbD (5 * (g.val / 17) + 4) = true) (ht : temp < 1100) :
    Gives (.logicTempSample g temp) s fun t => (coreAt t g.val).temp = temp ∧ (coreAt t g.val).therm ≤ (coreAt s g.val).therm + 4 ∧ Touches [.cores] s t := by
  have hrun : exec (.logicTempSample g temp) s = .next (onCore_ s g.val fun k => tempSampled k temp) := by
    show execLogicTempSample g temp s = _
    simp [execLogicTempSample, hd, Int.not_le.mpr ht]
  refine Gives.of hrun ?_
  rw [coreAt_onCore_same _ _ (by omega)]
  exact ⟨(tempSampled_spec _ _).1, (tempSampled_spec _ _).2, onCore__touches _ _ _⟩

/-- Settles O31: an island by one pass of its loop outside a gallop cell. -/
theorem islandsAndSensors : Obligations.IslandsAndSensors := by
  refine ⟨fun g more s hp hc hv => ?_, fun g more s hp hc hv hf => ?_, fun g s hp hc hv => ?_, fun g s => droopDetected_gives,
    fun g temp s => logicTempSample_cool⟩
  · obtain ⟨t, ht, hcore⟩ := islandVoltageLoop_free (more := more) (short := true) hp hc
    rw [islandLoop_rises _ _ hv] at hcore
    exact ⟨t, ht, by rw [hcore], by rw [hcore]⟩
  · obtain ⟨t, ht, hcore⟩ := islandVoltageLoop_free (more := more) (short := true) hp hc
    rw [islandLoop_slows _ _ hv hf] at hcore
    exact ⟨t, ht, by rw [hcore], by rw [hcore]⟩
  · obtain ⟨t, ht, hcore⟩ := islandVoltageLoop_free (more := true) (short := false) hp hc
    exact ⟨t, ht, (congrArg Core.setpoint hcore).trans (islandLoop_falls _ hv)⟩

/-! ### What an emergency leads to (17 R457 to R459) -/

/-- A condition on a hot core raises its die's emergency. -/
theorem logicTempSample_hot {g : Fin 136} {p : Fin 8} {temp : Int} {s : State} (hd : s.domains.getLsbD (5 * (g.val / 17) + 4) = true)
    (hl : loopsRun s = true) (ht : 1100 ≤ temp) (hp : p.val = g.val / 17) :
    Gives (.logicTempSample g temp) s fun t => emerPresent t (.logicHot p) = true := by
  have hkind : Emer.logicHot ⟨g.val / 17, by omega⟩ = .logicHot p := congrArg _ (Fin.ext hp.symm)
  have hloops : loopsRun (onCore_ s g.val fun k => tempSampled k temp) = true := hl
  have hrun : exec (.logicTempSample g temp) s = .next (raiseEmer (onCore_ s g.val fun k => tempSampled k temp) (.logicHot ⟨g.val / 17, by omega⟩)) := by
    show execLogicTempSample g temp s = _
    simp [execLogicTempSample, hd, hloops, ht]
  rw [hkind] at hrun
  exact Gives.of hrun (raiseEmer_present _ _)

theorem hubHot_gives {temp : Int} {s : State} (hl : loopsRun s = true) (ht : 1100 ≤ temp) :
    Gives (.hubHot temp) s fun t => emerPresent t .hubHot = true ∧ t.power.hubTemp = temp :=
  Gives.of (show execHubHot temp s = _ from if_pos (by simp [hl, ht])) ⟨raiseEmer_present _ _, raiseEmer_rest (·.hubTemp) (fun _ _ => rfl) _ _⟩

theorem coolantInletOver_gives {temp : Int} {s : State} (hl : loopsRun s = true) (ht : 450 < temp) :
    Gives (.coolantInletOver temp) s fun t => emerPresent t .coolant = true ∧ t.power.inlet = temp :=
  Gives.of (show execCoolantInletOver temp s = _ from if_pos (by simp [hl, ht])) ⟨raiseEmer_present _ _, raiseEmer_rest (·.inlet) (fun _ _ => rfl) _ _⟩

theorem telemetryTimeout_gives {s : State} (hl : loopsRun s = true) : Gives .telemetryTimeout s fun t => emerPresent t .regulator = true :=
  Gives.of (show execTelemetryTimeout s = _ from if_pos hl) (raiseEmer_present _ _)

/-- The first emergency of a kind that has not cleared. -/
def FirstOf (s : State) (e : Emer) (x : EmerState) : Prop := s.power.emers.find? (fun x => decide (x.kind = e) && !x.cleared) = some x

theorem emergencyEscalationTimer_next {s : State} {e : Emer} {x : EmerState} {n : Nat} (h : FirstOf s e x) (hn : escalatesAfter e = some n) :
    exec (.emergencyEscalationTimer e) s = .next (escalate (reach s (x.since + n)) e) := by
  show execEmergencyEscalationTimer e s = _
  unfold FirstOf at h
  simp only [execEmergencyEscalationTimer, h, hn]

theorem ResetsAtOnce.later {s : State} (h : ResetsAtOnce s) (n : Nat) : ResetsAtOnce (reach s n) := ⟨h.on, h.down, h.holdoff, h.state, h.farrier⟩

theorem escalate_overpower {s : State} {x : EmerState} (h : FirstOf s .overpower x) (hr : ResetsAtOnce s) (ht : s.power.trip = false) :
    Gives (.emergencyEscalationTimer .overpower) s fun t => t.dev.state = .boot ∧ t.dev.lastCause = 6 ∧ t.dev.down = some ⟨2, true⟩ ∧
      x.since + 100000000 ≤ t.clk.now := by
  obtain ⟨hstate, -, hcause, hdown⟩ := modReset_begun (s := reach s (x.since + 100000000)) 6 (hr.later _) ht
  refine Gives.of (emergencyEscalationTimer_next h rfl) ⟨hstate, hcause, hdown, ?_⟩
  rw [(escalate_touches _ _).clk_eq]
  exact le_max_right _ _

theorem escalate_logicHot {s : State} {p : Fin 8} {x : EmerState} (h : FirstOf s (.logicHot p) x) (hr : ResetsAtOnce s)
    (ho : s.dev.state ≠ .outOfService) (hp : s.dev.inReset.getLsbD p.val = false) :
    Gives (.emergencyEscalationTimer (.logicHot p)) s fun t =>
      (∀ d ∈ partDomains p.val, t.domains.getLsbD d = false) ∧ x.since + 2000000000 ≤ t.clk.now := by
  refine Gives.of (emergencyEscalationTimer_next h rfl)
    ⟨partReset_off (s := reach s (x.since + 2000000000)) 6 hr.on hr.down hr.holdoff hr.state ho hp hr.farrier, ?_⟩
  rw [(escalate_touches _ _).clk_eq]
  exact le_max_right _ _

/-- A kind that clears has no emergency left that has not. -/
theorem clearEmer_absent (s : State) (k : Emer) : emerPresent (clearEmer s k) k = false := by
  rw [emerPresent, emerBit, clearEmer, (emerShown_touches _).power_eq, List.any_eq_false]
  intro e he
  obtain ⟨x, -, rfl⟩ := List.mem_map.mp he
  by_cases hx : x.kind = k
  · simp [hx]
  · simp [hx]

theorem emergencyClearTimer_gives {s : State} {e : Emer} {x : EmerState} (h : FirstOf s e x) (hm : mayClear s e = true) :
    Gives (.emergencyClearTimer e) s fun t => emerPresent t e = false ∧ x.since + 100000000 ≤ t.clk.now := by
  have hrun : exec (.emergencyClearTimer e) s = .next (clearEmer (readingCleared (reach s (x.since + 100000000)) e) e) := by
    show execEmergencyClearTimer e s = _
    unfold FirstOf at h
    simp only [execEmergencyClearTimer, h, hm, if_true]
  refine Gives.of hrun ⟨clearEmer_absent _ _, ?_⟩
  rw [(clearEmer_touches _ _).clk_eq, (readingCleared_touches _ _).clk_eq]
  exact le_max_right _ _

/-- A gallop run that ends leaves the device state, or ends the service: it never brings BOOT. -/
theorem gallopStop_state {s : State} (h : s.dev.state ≠ .boot) : (gallopStop s).dev.state ≠ .boot := by
  unfold gallopStop
  split
  · rw [changeState_outOfService]
    decide
  · rwa [(gallopAbort_touches s).devState_eq]

theorem gallopStop_idle {s : State} (h : s.tests.gState = 0) : gallopStop s = s := by
  rw [gallopStop, if_neg (by simp [h]), gallopAbort, if_pos h]

theorem raiseEmer_state {s : State} (k : Emer) (h : s.dev.state ≠ .boot) : (raiseEmer s k).dev.state ≠ .boot := by
  unfold raiseEmer
  split
  · exact h
  · rw [(emerShown_touches _).devState_eq]
    exact gallopStop_state h

/-- With no gallop run, an emergency leaves the device state. -/
theorem raiseEmer_state_idle {s : State} (k : Emer) (h : s.tests.gState = 0) : (raiseEmer s k).dev.state = s.dev.state := by
  unfold raiseEmer
  split
  · rfl
  · rw [(emerShown_touches _).devState_eq, gallopStop_idle (by exact h)]

/-- An emergency leaves a reset to run at once. -/
theorem ResetsAtOnce.raised {s : State} (h : ResetsAtOnce s) (k : Emer) : ResetsAtOnce (raiseEmer s k) where
  on      := ((raiseEmer_touches s k).dev_eq (·.on)).trans h.on
  down    := ((raiseEmer_touches s k).dev_eq (·.down)).trans h.down
  holdoff := ((raiseEmer_touches s k).dev_eq (·.holdoff)).trans h.holdoff
  state   := raiseEmer_state k h.state
  farrier := (congrArg Fw.farrierDown (raiseEmer_touches s k).fw_eq).trans h.farrier

theorem regulatorFault_hub {s : State} (hl : loopsRun s = true) (hr : ResetsAtOnce s) (ht : s.power.trip = false) :
    Gives (.regulatorFault .hub) s fun t => emerPresent t .regulator = true ∧ t.dev.state = .boot ∧ t.dev.lastCause = 6 := by
  have htrip : (raiseEmer s .regulator).power.trip = false := (raiseEmer_rest (·.trip) (fun _ _ => rfl) s .regulator).trans ht
  obtain ⟨hstate, -, hcause, -⟩ := modReset_begun 6 (hr.raised .regulator) htrip
  refine Gives.of (show execRegulatorFault .hub s = _ from if_pos hl) ⟨?_, hstate, hcause⟩
  exact (emerPresent_congr (modReset_touches _ _).power_eq _).trans (raiseEmer_present _ _)

theorem regulatorFault_part {p : Fin 8} {s : State} (hl : loopsRun s = true) (hr : ResetsAtOnce s) (ho : s.dev.state ≠ .outOfService)
    (hp : s.dev.inReset.getLsbD p.val = false) (hg : s.tests.gState = 0) :
    Gives (.regulatorFault (.part p)) s fun t => emerPresent t .regulator = true ∧ ∀ d ∈ partDomains p.val, t.domains.getLsbD d = false := by
  have hraised := hr.raised .regulator
  have hreset : (raiseEmer s .regulator).dev.inReset.getLsbD p.val = false :=
    (congrArg (·.getLsbD p.val) ((raiseEmer_touches s .regulator).dev_eq (·.inReset))).trans hp
  have hrun : exec (.regulatorFault (.part p)) s = .next (undelayed (partReset (raiseEmer s .regulator) p.val 6) p.val) := by
    show execRegulatorFault (.part p) s = _
    rw [execRegulatorFault, if_pos hl, railReset, if_neg (Bool.eq_false_iff.mp hreset)]
  refine Gives.of hrun ⟨?_, ?_⟩
  · exact (emerPresent_congr ((undelayed_touches _ _).power_eq.trans (partReset_touches _ _ _).power_eq) _).trans (raiseEmer_present _ _)
  · rw [(undelayed_touches _ _).domains_eq]
    exact partReset_off 6 hraised.on hraised.down hraised.holdoff hraised.state (by rwa [raiseEmer_state_idle _ hg]) hreset hraised.farrier

theorem thermalTrip_gives {s : State} (hon : s.dev.on = true) (ht : s.power.trip = false) : Gives .thermalTrip s fun t =>
    t.domains = 0 ∧ t.pins.thermTrip = true ∧ t.power.trip = true ∧ t.dev.state = .outOfService ∧ t.dev.on = true ∧ t.host.owner = s.host.owner ∧
      t.sent = s.sent := by
  refine Gives.of (show execThermalTrip s = _ from if_pos (by simp [hon, ht])) ⟨packageOff_domains s, rfl, rfl, rfl, hon, rfl, rfl⟩

/-- Settles O32: an emergency that is raised leaves a reset to run at once. -/
theorem emergencies : Obligations.Emergencies := by
  refine ⟨fun g p temp s => logicTempSample_hot, fun temp s => hubHot_gives, fun temp s => coolantInletOver_gives, fun s => telemetryTimeout_gives,
    fun x s hx hon htrip hd hh hb hf => escalate_overpower hx ⟨hon, hd, hh, hb, hf⟩ htrip,
    fun p x s hx hon hd hh hb ho hp hf => escalate_logicHot hx ⟨hon, hd, hh, hb, hf⟩ ho hp,
    fun e x s => emergencyClearTimer_gives, fun s hl hon htrip hd hh hb hf => regulatorFault_hub hl ⟨hon, hd, hh, hb, hf⟩ htrip,
    fun p s hl hon hd hh hb ho hp hf hg => regulatorFault_part hl ⟨hon, hd, hh, hb, hf⟩ ho hp hg, fun s => thermalTrip_gives⟩

end Sys2Proof.Machine
end

section
/-! SUPPORT. Ostler restarts, crash dumps and failed restarts (18 R468, R469, R482, R484). -/

-- One theorem at a time: the stacks of parallel proofs add up to more than the memory the check gives.
set_option Elab.async false

namespace Sys2Proof.Machine

/-! ### Ostlers, one by one -/

/-- A change of one ostler leaves of every ostler what the change itself leaves. -/
theorem ostlerAt_onOstler_field {α : Type} (f : Ostler → α) (s : State) (o : Nat) {g : Ostler → Ostler} (k : Nat) (h : ∀ x, f (g x) = f x) :
    f (ostlerAt (onOstler s o g) k) = f (ostlerAt s k) := by
  show f (nth (updN s.fw.ostlers o g) k {}) = _
  rw [nth_updN]
  split
  · rw [h]
    rfl
  · rfl

/-! ### A restart that begins (18 R468, R482) -/

/-- A restart of ostler `o` has begun: its dump, of trigger `trig`, is taken, and the restart is counted. -/
structure RestartBegun (s t : State) (o trig : Nat) : Prop where
  state  : (ostlerAt t o).state = 1
  counts : t.fw.restarts = s.fw.restarts + 1
  dump   : (o, trig, localCounter s, stepNow s) ∈ t.fw.dumping

theorem restartBegins_begun (s : State) {o : Nat} (trig : Nat) (h : o < 12) : RestartBegun s (restartBegins s o trig) o trig :=
  ⟨congrArg Ostler.state (ostlerAt_onOstler_same s _ h), rfl, List.mem_append_right _ (List.mem_singleton.mpr rfl)⟩

theorem restartBegins_fails (s : State) (o trig k : Nat) : (ostlerAt (restartBegins s o trig) k).fails = (ostlerAt s k).fails :=
  ostlerAt_onOstler_field Ostler.fails s o k fun _ => rfl

/-- A running ostler, ready for a second or more. -/
structure RunsOn (s : State) (o : Nat) : Prop where
  on      : ostlersOn s = true
  running : (ostlerAt s o).state = 0
  since   : ∀ n, (ostlerAt s o).readyAt = some n → n + 1000000000 ≤ s.clk.now

theorem ostlerStops_restarts {s : State} {o : Nat} (trig : Nat) (h : RunsOn s o) : ostlerStops s o trig = restartBegins s o trig := by
  unfold ostlerStops
  extract_lets k
  have hlong : (k.readyAt.any fun t => decide (s.clk.now < t + 1000000000)) = false := by
    rcases hk : k.readyAt with _ | n
    · rfl
    · rw [Option.any_some, decide_eq_false (Nat.not_lt.mpr (h.since n hk))]
  rw [if_neg (by simp [h.on, k, h.running]), if_neg (by simp [hlong])]

/-- A trap or a watchdog of a running ostler. -/
theorem ostler_stops {c : Instr} {o : Fin 12} {trig : Nat} {s : State} (h : RunsOn s o.val) (he : exec c s = .next (ostlerStops s o.val trig)) :
    Gives c s fun t => (ostlerAt t o.val).state = 1 ∧ t.fw.restarts = s.fw.restarts + 1 ∧ (o.val, trig, localCounter s, stepNow s) ∈ t.fw.dumping ∧
      Touches [.fw] s t := by
  obtain ⟨hstate, hcounts, hdump⟩ := restartBegins_begun s trig o.isLt
  exact Gives.of (he.trans (congrArg _ (ostlerStops_restarts trig h))) ⟨hstate, hcounts, hdump, restartBegins_touches _ _ _⟩

/-- An owner's restart of an ostler that runs. -/
theorem ostlerAct_restarts {s : State} {o : Nat} (h : o < 16) (hon : ostlersOn s = true) (hrun : (ostlerAt s o).state = 0) :
    ostlerAct o s = restartBegins s o 5 := by
  rw [ostlerAct, Nat.mod_eq_of_lt h, if_neg (by simp [hon, hrun]), if_pos h]

theorem ostlerRestartCommand_gives {src : Src} {o : Fin 16} {s : State} (h : Passes s src 0x90000A 1 o.val (ostlerOwn s o.val))
    (hon : ostlersOn s = true) (hrun : (ostlerAt s o.val).state = 0) (ho : o.val < 12) :
    Gives (.ostlerRestartCommand src o) s fun t => (ostlerAt t o.val).state = 1 ∧ t.fw.restarts = s.fw.restarts + 1 ∧
      (o.val, 5, localCounter s, stepNow s) ∈ t.fw.dumping ∧ (ostlerAt t o.val).fails = (ostlerAt s o.val).fails := by
  refine Gives.accepted h rfl fun t ht => ?_
  obtain ⟨hstate, hcounts, hdump⟩ := restartBegins_begun s 5 ho
  have hfw : t.fw = (restartBegins s o.val 5).fw := by rw [ht.fw_eq, ostlerAct_restarts o.isLt hon hrun]
  rw [ostlerAt, hfw]
  exact ⟨hstate, hcounts, hdump, restartBegins_fails _ _ _ _⟩

theorem ostlerDumpCommand_gives {src : Src} {o : Fin 16} {s : State} (h : Passes s src 0x90000A 1 (16 + o.val) (ostlerOwn s (16 + o.val)))
    (hon : ostlersOn s = true) (hrun : (ostlerAt s o.val).state = 0) (hd : s.fw.dumping.any (fun d => d.1 = o.val) = false) :
    Gives (.ostlerDumpCommand src o) s fun t => t.fw.ostlers = s.fw.ostlers ∧ t.fw.dumping = s.fw.dumping ++ [(o.val, 5, localCounter s, stepNow s)] ∧
      t.fw.dumpOnly = s.fw.dumpOnly ++ [o.val] := by
  refine Gives.accepted h rfl fun t ht => ?_
  have hmod : (16 + o.val) % 16 = o.val := by omega
  have hact : ostlerAct (16 + o.val) s =
      { s with fw := { s.fw with dumping := s.fw.dumping ++ [(o.val, 5, localCounter s, stepNow s)], dumpOnly := s.fw.dumpOnly ++ [o.val] } } := by
    rw [ostlerAct, hmod, if_neg (by simp [hon, hrun]), if_neg (by omega), if_neg (Bool.eq_false_iff.mp hd)]
  rw [ht.fw_eq, hact]
  exact ⟨rfl, rfl, rfl⟩

/-! ### A dump that is done (18 R484) -/

@[simp] theorem storeDump_dumping (s : State) (skip : Nat) (h : BitVec 256) (body : Nat) : (storeDump s skip h body).fw.dumping = s.fw.dumping := by
  unfold storeDump
  split <;> rfl

@[simp] theorem storeDump_restarts (s : State) (skip : Nat) (h : BitVec 256) (body : Nat) : (storeDump s skip h body).fw.restarts = s.fw.restarts := by
  unfold storeDump
  split <;> rfl

/-- The ostler's contents as the dump finds them are free. -/
def dumpRead (s : State) (o : Nat) : State := drawn (onOstler s o fun k => { k with contents := s.free })

/-- The state in which a dump of ostler `o` is stored, and no longer in progress. -/
def dumpStored (s : State) (o : Nat) (h : BitVec 256) : State :=
  let u := storeDump (dumpRead s o) 9 h (dumpHolds (dumpRead s o) o)
  { u with fw := { u.fw with dumping := u.fw.dumping.filter fun d => d.1 ≠ o, dumpOnly := u.fw.dumpOnly.filter (· ≠ o) } }

/-- A dump leaves everything but firmware, and of that the restarts, the failures, the states and the queues. -/
structure DumpLeaves (s u : State) (o : Nat) : Prop where
  touches  : Touches [.fw, .free] s u
  farrier  : u.fw.farrierDown = s.fw.farrierDown
  restarts : u.fw.restarts = s.fw.restarts
  dumping  : u.fw.dumping = s.fw.dumping.filter fun d => d.1 ≠ o
  dumpOnly : u.fw.dumpOnly = s.fw.dumpOnly.filter (· ≠ o)
  ostlers  : u.fw.ostlers = (dumpRead s o).fw.ostlers

theorem dumpStored_leaves (s : State) (o : Nat) (h : BitVec 256) : DumpLeaves s (dumpStored s o h) o where
  touches := by
    have hread : Touches [.fw, .free] s (dumpRead s o) := .step (drawn_touches _) (by decide) ((onOstler_touches _ _ _).mono (by decide))
    have hstored : Touches [.fw, .free] s (storeDump (dumpRead s o) 9 h (dumpHolds (dumpRead s o) o)) := .step (storeDump_touches _ _ _ _) (by decide) hread
    exact .step (Touches.setFw _ _) (by decide) hstored
  farrier := storeDump_farrierDown (dumpRead s o) 9 h _
  restarts := storeDump_restarts (dumpRead s o) 9 h _
  dumping := congrArg (List.filter _) (storeDump_dumping (dumpRead s o) 9 h _)
  dumpOnly := congrArg (List.filter _) (storeDump_dumpOnly (dumpRead s o) 9 h _)
  ostlers := storeDump_ostlers (dumpRead s o) 9 h _

/-- Of each ostler a dump leaves all but the contents. -/
theorem DumpLeaves.field {s u : State} {o : Nat} (h : DumpLeaves s u o) {α : Type} (f : Ostler → α) (hf : ∀ x n, f { x with contents := n } = f x)
    (k : Nat) : f (ostlerAt u k) = f (ostlerAt s k) := by
  rw [ostlerAt, h.ostlers]
  exact ostlerAt_onOstler_field f s o k fun x => hf x _

theorem DumpLeaves.keeps {s u : State} {o : Nat} (h : DumpLeaves s u o) : KeepsRestarts o s u :=
  ⟨h.touches, h.farrier, recentFails_congr (h.field Ostler.fails (fun _ _ => rfl) o) h.touches.clk_eq⟩

theorem copyServes_congr {s u : State} (h : Touches [.fw, .free] s u) (c : Nat) : copyServes u c = copyServes s c := by
  rw [copyServes, h.wholeDev_eq, h.mem_eq, h.clk_eq]
  rfl

/-- After a dump the ostler is reloaded where its digest is right and its program can be read, unless only a dump was asked for. -/
theorem ostlerDumped_cases (s : State) (o trig stamp n : Nat) (ok : Bool) (timeouts : Nat) (truncated : Bool) (size : Nat) :
    ∃ u, DumpLeaves s u o ∧ ostlerDumped s o trig stamp n ok timeouts truncated size =
      if s.fw.dumpOnly.contains o then u
      else if ok && (s.dev.state = .boot || copyServes s 0 || copyServes s 1) then onOstler u o fun k => { k with state := 2 }
      else restartFails u o 2 := by
  refine ⟨dumpStored s o (dumpHeaderAt (dumpRead s o) stamp n trig o (if o ≥ 4 then o - 4 else 8) timeouts (min (max size 32) (2 ^ 26)) truncated false),
    dumpStored_leaves _ _ _, ?_⟩
  have hleaves := dumpStored_leaves s o
    (dumpHeaderAt (dumpRead s o) stamp n trig o (if o ≥ 4 then o - 4 else 8) timeouts (min (max size 32) (2 ^ 26)) truncated false)
  have honly := storeDump_dumpOnly (dumpRead s o) 9
    (dumpHeaderAt (dumpRead s o) stamp n trig o (if o ≥ 4 then o - 4 else 8) timeouts (min (max size 32) (2 ^ 26)) truncated false) (dumpHolds (dumpRead s o) o)
  rw [← copyServes_congr hleaves.touches 0, ← copyServes_congr hleaves.touches 1, ← hleaves.touches.devState_eq,
    show s.fw.dumpOnly = (dumpRead s o).fw.dumpOnly from rfl, ← honly]
  rfl

theorem exec_ostlerDumpDone {o : Fin 12} {d : Nat × Nat × Nat × Nat} {s : State} (ok : Bool) (timeouts size : Nat) (truncated : Bool)
    (hd : s.fw.dumping.find? (fun d => d.1 = o.val) = some d) : exec (.ostlerDumpDone o ok timeouts truncated size) s =
      .next (ostlerDumped s o.val d.2.1 d.2.2.1 d.2.2.2 ok timeouts truncated size) := by
  show execOstlerDumpDone o ok timeouts truncated size s = _
  rw [execOstlerDumpDone, hd]

theorem ostlerDumpDone_reloads {o : Fin 12} {d : Nat × Nat × Nat × Nat} {timeouts size : Nat} {truncated : Bool} {s : State}
    (hd : s.fw.dumping.find? (fun d => d.1 = o.val) = some d) (honly : o.val ∉ s.fw.dumpOnly)
    (hc : s.dev.state = .boot ∨ copyServes s 0 = true ∨ copyServes s 1 = true) :
    Gives (.ostlerDumpDone o true timeouts truncated size) s fun t => (ostlerAt t o.val).state = 2 ∧
      t.fw.dumping = s.fw.dumping.filter (fun d => d.1 ≠ o.val) := by
  obtain ⟨u, hu, hrun⟩ := ostlerDumped_cases s o.val d.2.1 d.2.2.1 d.2.2.2 true timeouts truncated size
  have hread : (true && (s.dev.state = .boot || copyServes s 0 || copyServes s 1)) = true := by
    rcases hc with h | h | h <;> simp [h]
  rw [if_neg (by simpa using honly), if_pos hread] at hrun
  exact Gives.of ((exec_ostlerDumpDone _ _ _ _ hd).trans (congrArg _ hrun)) ⟨congrArg Ostler.state (ostlerAt_onOstler_same u _ o.isLt), hu.dumping⟩

theorem ostlerDumpDone_only {o : Fin 12} {d : Nat × Nat × Nat × Nat} {ok : Bool} {timeouts size : Nat} {truncated : Bool} {s : State}
    (hd : s.fw.dumping.find? (fun d => d.1 = o.val) = some d) (honly : o.val ∈ s.fw.dumpOnly) :
    Gives (.ostlerDumpDone o ok timeouts truncated size) s fun t => (∀ k : Fin 12, (ostlerAt t k.val).state = (ostlerAt s k.val).state ∧
      (ostlerAt t k.val).queue = (ostlerAt s k.val).queue) ∧ t.fw.restarts = s.fw.restarts ∧ t.fw.dumpOnly = s.fw.dumpOnly.filter (· ≠ o.val) := by
  obtain ⟨u, hu, hrun⟩ := ostlerDumped_cases s o.val d.2.1 d.2.2.1 d.2.2.2 ok timeouts truncated size
  rw [if_pos (by simpa using honly)] at hrun
  exact Gives.of ((exec_ostlerDumpDone _ _ _ _ hd).trans (congrArg _ hrun))
    ⟨fun k => ⟨hu.field Ostler.state (fun _ _ => rfl) k.val, hu.field Ostler.queue (fun _ _ => rfl) k.val⟩, hu.restarts, hu.dumpOnly⟩

/-! ### Ready again (18 R468, R470) -/

/-- An ostler that is ready with nothing waiting for it. -/
def ostlerReadied (s : State) (o : Nat) : State :=
  let u := drawn (onOstler s o fun k => { k with state := 0, readyAt := some s.clk.now, queue := [], contents := s.free })
  { u with fw := { u.fw with held := u.fw.held.filter fun h => h.1 ≠ o } }

theorem ostlerResumes_fw (s : State) (o : Nat) : (ostlerResumes s o).fw = s.fw := (ostlerResumes_touches s o).fw_eq

theorem ostlerReady_gives {o : Fin 12} {s : State} (hs : (ostlerAt s o.val).state = 2) (hq : (ostlerAt s o.val).queue = [])
    (hh : ∀ h ∈ s.fw.held, h.1 ≠ o.val) :
    Gives (.ostlerReady o) s fun t => (ostlerAt t o.val).state = 0 ∧ (ostlerAt t o.val).readyAt = some s.clk.now := by
  have hnone : (s.fw.held.filter fun h => h.1 = o.val) = [] := List.filter_eq_nil_iff.mpr fun h hm => by simpa using hh h hm
  have hrun : exec (.ostlerReady o) s = .next (ostlerResumes (ostlerReadied s o.val) o.val) := by
    show execOstlerReady o s = _
    simp only [execOstlerReady, hs, hq, hnone, if_true, List.map_nil, List.append_nil]
    rfl
  have hat : ostlerAt (ostlerReadied s o.val) o.val = _ := ostlerAt_onOstler_same s _ o.isLt
  refine Gives.of hrun ?_
  rw [ostlerAt, ostlerResumes_fw]
  exact ⟨congrArg Ostler.state hat, congrArg Ostler.readyAt hat⟩

/-- Settles O33: by the restart that begins and the dump that is stored. -/
theorem ostlerRestarts : Obligations.OstlerRestarts :=
  ⟨fun _ _ hon hrun hsince => ostler_stops ⟨hon, hrun, hsince⟩ rfl, fun _ _ hon hrun hsince => ostler_stops ⟨hon, hrun, hsince⟩ rfl,
    fun _ _ _ => ostlerRestartCommand_gives, fun _ _ _ => ostlerDumpCommand_gives, fun _ _ _ _ _ _ => ostlerDumpDone_reloads,
    fun _ _ _ _ _ _ _ => ostlerDumpDone_only, fun _ _ => ostlerReady_gives⟩

/-! ### Failed restarts (18 R469) -/

/-- Each way to fail a restart comes to `restartFails`, with as many restarts counted before. -/
theorem failsNow_counts {c : Instr} {o : Fin 12} {s : State} (h : FailsNow c o s) :
    ∃ u trig, exec c s = .next (restartFails u o.val trig) ∧ KeepsRestarts o.val s u ∧ u.fw.restarts = s.fw.restarts := by
  rcases h with ⟨rfl, hwaits⟩ | ⟨⟨timeouts, truncated, size, rfl⟩, hdump, honly⟩ | ⟨hc, hon, hrun, n, hready, hsoon⟩
  · exact ⟨s, 2, if_pos hwaits, .refl o.val s, rfl⟩
  · obtain ⟨d, hd⟩ := Option.isSome_iff_exists.mp (List.find?_isSome.mpr (List.any_eq_true.mp hdump))
    obtain ⟨u, hu, hrun⟩ := ostlerDumped_cases s o.val d.2.1 d.2.2.1 d.2.2.2 false timeouts truncated size
    rw [if_neg (by simpa using honly), Bool.false_and, if_neg Bool.false_ne_true] at hrun
    exact ⟨u, 2, (exec_ostlerDumpDone _ _ _ _ hd).trans (congrArg _ hrun), hu.keeps, hu.restarts⟩
  · have hstops (trig : Nat) := ostlerStops_fails trig hon hrun hready hsoon
    rcases hc with rfl | rfl
    · exact ⟨s, 1, congrArg _ (hstops 1), .refl o.val s, rfl⟩
    · exact ⟨s, 2, congrArg _ (hstops 2), .refl o.val s, rfl⟩

/-- The ostler's failures with one more, now. -/
def failureNoted (s : State) (o : Nat) : State := onOstler s o fun k => { k with fails := s.clk.now :: recentFails s o }

theorem restartFails_again {s : State} {o : Nat} (trig : Nat) (h : (recentFails s o).length < 2) :
    restartFails s o trig = restartBegins (failureNoted s o) o trig :=
  if_pos (show (recentFails s o).length + 1 < 3 by omega)

theorem failsNow_again {c : Instr} {o : Fin 12} {s : State} (h : FailsNow c o s) (hr : (recentFails s o.val).length < 2) :
    Gives c s fun t => (ostlerAt t o.val).state = 1 ∧ t.fw.restarts = s.fw.restarts + 1 ∧ (ostlerAt t o.val).fails = s.clk.now :: recentFails s o.val := by
  obtain ⟨u, trig, hu, hkeeps, hcount⟩ := failsNow_counts h
  obtain ⟨hstate, hcounts, -⟩ := restartBegins_begun (failureNoted u o.val) trig o.isLt
  have hfails : (ostlerAt (failureNoted u o.val) o.val).fails = u.clk.now :: recentFails u o.val :=
    congrArg Ostler.fails (ostlerAt_onOstler_same u _ o.isLt)
  refine Gives.of (hu.trans (congrArg _ (restartFails_again trig (by rwa [hkeeps.recent])))) ⟨hstate, hcounts.trans (congrArg (· + 1) hcount), ?_⟩
  rw [restartBegins_fails, hfails, hkeeps.recent, hkeeps.touches.clk_eq]

/-- A restart that the owner commands is no failure. -/
theorem ostlerAct_fails (v : Nat) (s : State) (k : Nat) : (ostlerAt (ostlerAct v s) k).fails = (ostlerAt s k).fails := by
  unfold ostlerAct
  extract_lets o
  split
  · rfl
  · split
    · exact restartBegins_fails _ _ _ _
    · split
      · rfl
      · rfl

/-- Settles O34: every way to fail comes to one restart more. -/
theorem failedRestarts : Obligations.FailedRestarts := by
  refine ⟨fun c o s => failsNow_again, fun src o s h => Gives.accepted h rfl fun t ht => ?_⟩
  rw [ostlerAt, ht.fw_eq]
  exact ostlerAct_fails _ _ _

end Sys2Proof.Machine
end

section
/-! SUPPORT. The Farrier's restarts, the flash log and dump exports; firmware updates and activations (18 R472 to R485, 19 R498). -/

-- One theorem at a time: the stacks of parallel proofs add up to more than the memory the check gives.
set_option Elab.async false

namespace Sys2Proof.Machine

/-! ### What the log leaves of firmware (18 R478, R480) -/

/-- A part of firmware beside the log, its numbering and its losses. -/
def SparesLog {α : Type} (f : Fw → α) : Prop :=
  ∀ w log idx loss drops, f { w with log := log, logIdx := idx, flashLoss := loss, traceDrops := drops } = f w

theorem posted_spares {α : Type} {f : Fw → α} (hf : SparesLog f) (s : State) (source level word : Nat) : f (posted s source level word) = f s.fw := by
  unfold posted
  split
  · rfl
  · exact hf s.fw _ _ _ s.fw.traceDrops

theorem traced_spares {α : Type} {f : Fw → α} (hf : SparesLog f) (s : State) : f (traced s).fw = f s.fw := by
  unfold traced
  extract_lets p
  split
  · rfl
  · split
    · exact hf s.fw s.fw.log s.fw.logIdx s.fw.flashLoss _
    · exact posted_spares hf _ _ _ _

theorem logEntry_spares {α : Type} {f : Fw → α} (hf : SparesLog f) (s : State) (source level kind : Nat) : f (logEntry s source level kind).fw = f s.fw :=
  (traced_spares hf _).trans (posted_spares hf _ _ _ _)

/-! ### Banks (18 R475, R477) -/

theorem pairOf_onPair (s : State) {t : Nat} (f : BankPair → BankPair) (h : t - 1 < 3) : pairOf (onPair s t f) t = f (pairOf s t) := nth_updN_same _ _ _ h

theorem pairOf_congr {s u : State} (h : u.fw.images = s.fw.images) (t : Nat) : pairOf u t = pairOf s t := by rw [pairOf, h, pairOf]

theorem onOther_sides (p : BankPair) (f : Bank → Bank) : (onOther p f).activeB = p.activeB ∧ (onOther p f).trial = p.trial ∧
    activeBank (onOther p f) = activeBank p ∧ otherBank (onOther p f) = f (otherBank p) := by
  unfold onOther activeBank otherBank
  rcases p.activeB with _ | _
  · simp
  · simp

/-- An active bank is given up: the other one is active, the trial is over, and the reversion is counted. -/
structure BankGivenUp (s u : State) (t : Nat) : Prop where
  side      : (pairOf u t).activeB = !(pairOf s t).activeB
  trial     : (pairOf u t).trial = false
  counts    : u.fw.reversions = s.fw.reversions + 1
  farrier   : u.fw.farrierDown = s.fw.farrierDown
  libReload : u.fw.libReload = s.fw.libReload

/-- The pair once its active bank is given up. -/
def pairReverted (p : BankPair) : BankPair := onOther { p with activeB := !p.activeB, trial := false } fun b => { b with state := 1, fails := 0 }

theorem bankReverted_givenUp (s : State) {t : Nat} (h : t - 1 < 3) : BankGivenUp s (bankReverted s t) t := by
  have himages : (bankReverted s t).fw.images = (onPair s t pairReverted).fw.images := logEntry_spares (f := Fw.images) (fun _ _ _ _ _ => rfl) _ _ _ _
  have hpair : pairOf (bankReverted s t) t = pairReverted (pairOf s t) := (pairOf_congr himages t).trans (pairOf_onPair s _ h)
  refine ⟨?_, ?_, logEntry_spares (f := Fw.reversions) (fun _ _ _ _ _ => rfl) _ _ _ _, logEntry_spares (f := Fw.farrierDown) (fun _ _ _ _ _ => rfl) _ _ _ _,
    logEntry_spares (f := Fw.libReload) (fun _ _ _ _ _ => rfl) _ _ _ _⟩
  · rw [hpair]
    exact (onOther_sides _ _).1
  · rw [hpair]
    exact (onOther_sides _ _).2.1

/-! ### The Farrier restarts (18 R472, R477) -/

/-- The Farrier's watchdog outside mode 1: a boot attempt of the image in its active bank. -/
theorem farrierWatchdogExpiry_next {s : State} (hon : s.dev.on = true) (hm : rw s 0x900005 ≠ 1) :
    exec .farrierWatchdogExpiry s = .next (bootAttempt { s with fw := { s.fw with farrierDown := true } } 1) := by
  show execFarrierWatchdogExpiry s = _
  rw [execFarrierWatchdogExpiry, if_pos hon, farrierRestarts, if_neg (by simp [hm])]

theorem farrierWatchdogExpiry_plain {s : State} (hon : s.dev.on = true) (hm : rw s 0x900005 ≠ 1) (ht : (pairOf s 1).trial = false) :
    Gives .farrierWatchdogExpiry s fun t => t.fw.farrierDown = true ∧ t.fw.images = s.fw.images ∧ Touches [.fw] s t := by
  have htrial : (pairOf { s with fw := { s.fw with farrierDown := true } } 1).trial = false := ht
  have hboot : bootAttempt { s with fw := { s.fw with farrierDown := true } } 1 = { s with fw := { s.fw with farrierDown := true } } :=
    if_pos (by rw [htrial]; rfl)
  refine Gives.of ((farrierWatchdogExpiry_next hon hm).trans (congrArg _ hboot)) ⟨rfl, rfl, Touches.setFw _ _⟩

theorem farrierWatchdogExpiry_reverts {s : State} (hon : s.dev.on = true) (hm : rw s 0x900005 ≠ 1) (ht : (pairOf s 1).trial = true)
    (hf : 2 ≤ (activeBank (pairOf s 1)).fails) : Gives .farrierWatchdogExpiry s fun t => t.fw.farrierDown = true ∧ (pairOf t 1).trial = false ∧
      (pairOf t 1).activeB = !(pairOf s 1).activeB ∧ t.fw.reversions = s.fw.reversions + 1 := by
  have htrial : (pairOf { s with fw := { s.fw with farrierDown := true } } 1).trial = true := ht
  have hboot : bootAttempt { s with fw := { s.fw with farrierDown := true } } 1 = bankReverted { s with fw := { s.fw with farrierDown := true } } 1 :=
    (if_neg (by rw [htrial]; simp)).trans (if_pos hf)
  have hup := bankReverted_givenUp { s with fw := { s.fw with farrierDown := true } } (t := 1) (by decide)
  exact Gives.of ((farrierWatchdogExpiry_next hon hm).trans (congrArg _ hboot)) ⟨hup.farrier, hup.trial, hup.side, hup.counts⟩

theorem farrierRestartDone_reverts {s : State} (hd : s.fw.farrierDown = true) (ht : (pairOf s 1).trial = true) (hv : farrierVerifies s = false) :
    Gives .farrierRestartDone s fun t => t.fw.farrierDown = true ∧ (pairOf t 1).activeB = !(pairOf s 1).activeB ∧ t.sec.events = s.sec.events + 1 ∧
      t.fw.reversions = s.fw.reversions + 1 := by
  have hup := bankReverted_givenUp (securityEvent s) (t := 1) (by decide)
  refine Gives.of (show execFarrierRestartDone s = _ from if_pos (by simp [hd, ht, hv])) ⟨hup.farrier.trans hd, hup.side, ?_, hup.counts⟩
  rw [(bankReverted_touches _ _).sec_eq]
  rfl

/-- What a confirmation does to the counters: that of a trial image rises to the image's SVN. -/
theorem bankConfirmed_svns (s : State) (t : Nat) : (bankConfirmed s t).sec.svns =
    if (pairOf s t).trial then updN s.sec.svns (t - 1) fun n => max n (activeBank (pairOf s t)).img.svn else s.sec.svns := by
  unfold bankConfirmed
  extract_lets p img ended svns _ risen
  rcases h : p.trial with _ | _
  · rw [if_pos (show (!false) = true from rfl), if_neg Bool.false_ne_true]
  · rw [if_neg (by decide), if_pos rfl]
    split
    · split
      · rfl
      · rfl
    · rfl

theorem bankConfirmed_trial (s : State) {t : Nat} (h : t - 1 < 3) : (pairOf (bankConfirmed s t) t).trial = false := by
  rw [pairOf, bankConfirmed_fw]
  split
  · exact congrArg BankPair.trial (pairOf_onPair s _ h)
  · next ht => exact Bool.eq_false_iff.mpr ht

/-- Of firmware a confirmation leaves all but the banks. -/
theorem bankConfirmed_spares {α : Type} {f : Fw → α} (hf : ∀ w i, f { w with images := i } = f w) (s : State) (t : Nat) :
    f (bankConfirmed s t).fw = f s.fw := by
  rw [bankConfirmed_fw]
  split
  · exact hf s.fw _
  · rfl

theorem farrierRestartDone_confirms {s : State} (hd : s.fw.farrierDown = true) (hl : s.fw.later = [])
    (hv : (pairOf s 1).trial = true → farrierVerifies s = true) : Gives .farrierRestartDone s fun t => t.fw.farrierDown = false ∧
      (pairOf t 1).trial = false ∧ t.dev = s.dev ∧
      nth t.sec.svns 0 0 = (if (pairOf s 1).trial then max (nth s.sec.svns 0 0) (activeBank (pairOf s 1)).img.svn else nth s.sec.svns 0 0) := by
  have hgood : ¬(s.fw.farrierDown && (pairOf s 1).trial && !farrierVerifies s) = true := by
    rcases ht : (pairOf s 1).trial with _ | _
    · simp
    · simp [hv ht]
  have hrun : exec .farrierRestartDone s = .next (bankConfirmed { s with fw := { s.fw with farrierDown := false, later := [] } } 1) := by
    show execFarrierRestartDone s = _
    rw [execFarrierRestartDone, if_neg hgood, if_pos hd, hl]
    rfl
  refine Gives.of hrun ⟨bankConfirmed_spares (f := Fw.farrierDown) (fun _ _ => rfl) _ _, bankConfirmed_trial _ (by decide),
    (bankConfirmed_touches _ _).wholeDev_eq, ?_⟩
  rw [bankConfirmed_svns]
  show nth (if (pairOf s 1).trial = true then updN s.sec.svns 0 _ else s.sec.svns) 0 0 = _
  split
  · exact nth_updN_same _ _ _ (by decide)
  · rfl

/-! ### The flash log and dump exports (18 R479, R484, R487) -/

theorem logFlashCopy_gives {e : LogEnt} {s : State} (he : s.fw.log.reverse.find? (fun e => decide (e.level ≥ 5) && !e.copied) = some e)
    (hd : s.fw.farrierDown = false) (hb : ostlerBusy s 3 = false) : Gives .logFlashCopy s fun t =>
      t.fw.flashLog.head? = some e.entry ∧ t.fw.flashIdx = s.fw.flashIdx + 1 ∧ Touches [.fw] s t := by
  have hrun : exec .logFlashCopy s = .next { s with fw := { s.fw with
      flashLog := e.entry :: s.fw.flashLog.take 524287, flashIdx := s.fw.flashIdx + 1, log := logCopied s.fw.log e.seq } } := by
    show execLogFlashCopy s = _
    simp only [execLogFlashCopy, he, hd, hb, Bool.or_self, Bool.false_eq_true, if_false]
  refine Gives.of hrun ⟨rfl, rfl, Touches.setFw _ _⟩

theorem dumpExportRequest_gives {src : Src} {req : BitVec 128} {s : State} (h : Passes s src 0x910023 16 req.toNat (dumpOwn s req.toNat)) :
    Gives (.dumpExportRequest src req) s fun t => t.fw.expState = 1 ∧ t.fw.expSlot = req.toNat % 256 ∧ t.fw.expOff = fld req.toNat 127 64 := by
  refine Gives.accepted h rfl fun t ht => ?_
  rw [ht.fw_eq]
  exact ⟨rfl, rfl, rfl⟩

theorem dumpExportDone_empty {ok : Bool} {s : State} (h1 : s.fw.expState = 1) (hn : dumpSel s.fw s.fw.expSlot = none) :
    Gives (.dumpExportDone ok) s fun t => t.fw.expState = 3 ∧ t.staging = s.staging := by
  have hshown : dumpShown s.fw s.fw.expSlot = none := by rw [dumpShown, hn]; rfl
  refine Gives.of (t := { s with fw := { s.fw with expState := 3 } }) ?_ ⟨rfl, rfl⟩
  show execDumpExportDone ok s = _
  rw [execDumpExportDone, if_neg (by simp [h1]), hshown]

/-- The CRC of a dump stands in bits 31:0 of its header, beside the size. -/
theorem dumpSize_withCrc (h : BitVec 256) (c : BitVec 32) : dumpSize (h ||| BitVec.ofNat 256 c.toNat) = dumpSize h := by
  have hc : (c.toNat % 2 ^ 256) >>> 64 = 0 := by
    rw [Nat.shiftRight_eq_div_pow]
    omega
  simp only [dumpSize, fld, BitVec.toNat_or, BitVec.toNat_ofNat, Nat.shiftRight_or_distrib, hc, Nat.or_zero]

theorem dumpExportDone_whole {h : BitVec 256} {s : State} (h1 : s.fw.expState = 1) (hs : dumpSel s.fw s.fw.expSlot = some h)
    (ha : stageAway s s.fw.expOff (dumpSize h) = false) :
    Gives (.dumpExportDone true) s fun t => t.fw.expState = 2 ∧ t.sent = s.sent ++ [.snoop s.fw.expOff] := by
  obtain ⟨c, hshown⟩ : ∃ c : BitVec 32, dumpShown s.fw s.fw.expSlot = some (h ||| BitVec.ofNat 256 c.toNat) := by
    rw [dumpShown, hs]
    exact ⟨_, rfl⟩
  have haway : (!true || stageAway s s.fw.expOff (dumpSize (h ||| BitVec.ofNat 256 c.toNat))) = false := by rw [dumpSize_withCrc, ha]; rfl
  refine Gives.of (t := { moduleStages s s.fw.expOff (dumpBytes (h ||| BitVec.ofNat 256 c.toNat) (dumpBody s.fw s.fw.expSlot)) with
    fw := { s.fw with expState := 2 } }) ?_ ⟨rfl, rfl⟩
  show execDumpExportDone true s = _
  rw [execDumpExportDone, if_neg (by simp [h1]), hshown]
  exact if_neg (Bool.eq_false_iff.mp haway)

/-- Settles O36: a bank is confirmed, or given up for the other. -/
theorem farrierCourse : Obligations.FarrierCourse :=
  ⟨fun _ hon _ => farrierWatchdogExpiry_plain hon, fun _ hon _ => farrierWatchdogExpiry_reverts hon, fun _ => farrierRestartDone_reverts,
    fun _ => farrierRestartDone_confirms, fun _ _ => logFlashCopy_gives, fun _ _ _ => dumpExportRequest_gives, fun _ _ => dumpExportDone_empty,
    fun _ _ => dumpExportDone_whole⟩

/-! ### Updates (18 R474, 19 R498) -/

theorem post_chunks (s : State) (kind index sub arg : Nat) : (post s kind index sub arg).host.chunks = s.host.chunks := by
  unfold post
  split
  · rfl
  · split
    · rfl
    · rfl

theorem accepted_chunks (s : State) (src : Src) (ty value : Nat) (body : List Byte) : (accepted s src ty value body).host.chunks = s.host.chunks := by
  have hlease : (renewLease s src.master).host.chunks = s.host.chunks := by
    unfold renewLease
    split
    · rfl
    · rfl
  rw [← hlease]
  unfold accepted reply
  split
  · rfl
  · rfl
  · split
    · rfl
    · rfl

/-- The update's new state and reason; of the rest of firmware nothing changes. -/
theorem updTo_fw (s : State) (st reason pct : Nat) : (updTo s st reason pct).fw = { s.fw with updState := st, updReason := reason, updPct := pct } :=
  (post_touches _ _ _ _ _).fw_eq

theorem updTo_chunks (s : State) (st reason pct : Nat) : (updTo s st reason pct).host.chunks = s.host.chunks := post_chunks _ _ _ _ _

/-- An update that fails: its state and reason, and the chunks dropped. -/
theorem updFails_spec (s : State) (reason : Nat) : (updFails s reason).fw =
    { (updBank s 1).fw with updState := 5, updReason := reason, updPct := 0 } ∧ (updFails s reason).host.chunks = [] := by
  unfold updFails
  split
  · exact ⟨updTo_fw _ _ _ _, updTo_chunks _ _ _ _⟩
  · exact ⟨updTo_fw _ _ _ _, updTo_chunks _ _ _ _⟩

/-- The bank that an update writes is the one that is not active. -/
theorem otherBank_updBank (s : State) (st : Nat) (h : s.fw.updType - 1 < 3) : (otherBank (pairOf (updBank s st) s.fw.updType)).state = st := by
  rw [updBank, pairOf_onPair _ _ h, (onOther_sides _ _).2.2.2]

/-- The firmware part once an update has been asked for, before its image is read. -/
def updAsked (v : Nat) (s : State) : State :=
  { s with fw := { s.fw with updType := updTypeOf v, updSource := updSrc v, updLen := updLength v }, host := { s.host with chunks := [] } }

/-- The update receives: from the aperture behind a snoop. -/
def updReads (v : Nat) (s : State) : State :=
  let u := updTo (updBank (updAsked v s) 1) 1 0 0
  if updSrc v = 0 then emit u (.snoop (updOffset v)) else u

theorem updateStarts_eq (v : Nat) (s : State) :
    updateStarts v s = if updLength v > imageLimit (updTypeOf v) then updFails (updReads v s) 3 else updReads v s := rfl

theorem updReads_fw (v : Nat) (s : State) :
    (updReads v s).fw = { (updBank (updAsked v s) 1).fw with updState := 1, updReason := 0, updPct := 0 } := by
  unfold updReads
  dsimp only
  split
  · exact updTo_fw _ _ _ _
  · exact updTo_fw _ _ _ _

theorem updType_lt {s : State} {v : Nat} (h : updateOwn s v = 0) : updTypeOf v - 1 < 3 := by
  by_contra ht
  have hbad : (decide (updTypeOf v = 0) || decide (updTypeOf v > 3) || decide (updSrc v > 1) ||
      (decide (updSrc v = 0) && decide (updOffset v % 4096 ≠ 0))) = true := by
    rw [decide_eq_true (show updTypeOf v > 3 by omega), Bool.or_true, Bool.true_or, Bool.true_or]
  rw [updateOwn, firstReason, if_pos hbad] at h
  exact absurd h (by decide)

theorem updateRequest_receives {src : Src} {req : BitVec 256} {s : State} (h : Passes s src 0x900001 32 req.toNat (updateOwn s req.toNat))
    (hlen : updLength req.toNat ≤ imageLimit (updTypeOf req.toNat)) : Gives (.updateRequest src req) s fun t => t.fw.updState = 1 ∧ t.fw.updReason = 0 ∧
      t.fw.updType = updTypeOf req.toNat ∧ t.fw.updLen = updLength req.toNat ∧ (otherBank (pairOf t (updTypeOf req.toNat))).state = 1 := by
  refine Gives.accepted h rfl fun t ht => ?_
  have hfw := ht.fw_eq
  rw [updateStarts_eq, if_neg (Nat.not_lt.mpr hlen), updReads_fw] at hfw
  refine ⟨by rw [hfw], by rw [hfw], by rw [hfw]; rfl, by rw [hfw]; rfl, ?_⟩
  rw [pairOf_congr (s := updBank (updAsked req.toNat s) 1) (by rw [hfw])]
  exact otherBank_updBank (updAsked req.toNat s) 1 (updType_lt h.own_eq)

theorem updateRequest_tooLarge {src : Src} {req : BitVec 256} {s : State} (h : Passes s src 0x900001 32 req.toNat (updateOwn s req.toNat))
    (hlen : imageLimit (updTypeOf req.toNat) < updLength req.toNat) :
    Gives (.updateRequest src req) s fun t => t.fw.updState = 5 ∧ t.fw.updReason = 3 := by
  refine Gives.accepted h rfl fun t ht => ?_
  rw [ht.fw_eq, updateStarts_eq, if_pos hlen, (updFails_spec _ _).1]
  exact ⟨rfl, rfl⟩

/-- The type of an image that an update writes. -/
structure UpdRuns (s : State) : Prop where
  there : imageThere s.fw = true
  up    : s.fw.farrierDown = false
  low   : 1 ≤ s.fw.updType
  high  : s.fw.updType ≤ 3

theorem UpdRuns.type_lt {s : State} (h : UpdRuns s) : s.fw.updType - 1 < 3 := by
  have := h.low
  have := h.high
  omega

theorem updateDone_next {img : FwImage} {ok : Bool} {s : State} (h : UpdRuns s) : exec (.updateDone img ok) s =
    .next (if imageReason s img ok = 0 then updPending s img else updFails s (imageReason s img ok)) :=
  show execUpdateDone img ok s = _ from if_pos (by rw [h.there, h.up]; rfl)

theorem updateDone_pending {img : FwImage} {ok : Bool} {s : State} (h : UpdRuns s) (hr : imageReason s img ok = 0) :
    Gives (.updateDone img ok) s fun t => t.fw.updState = 4 ∧ t.fw.updReason = 0 ∧ (otherBank (pairOf t s.fw.updType)).state = 4 ∧
      (otherBank (pairOf t s.fw.updType)).img = img ∧ activeBank (pairOf t s.fw.updType) = activeBank (pairOf s s.fw.updType) := by
  have hfw := updTo_fw (onPair s s.fw.updType fun p => onOther p fun _ => { state := 4, img := img }) 4 0 100
  have hpair : pairOf (updPending s img) s.fw.updType = onOther (pairOf s s.fw.updType) fun _ => { state := 4, img := img } :=
    (pairOf_congr (congrArg Fw.images hfw :) _).trans (pairOf_onPair s _ h.type_lt)
  obtain ⟨-, -, hactive, hother⟩ := onOther_sides (pairOf s s.fw.updType) fun _ => { state := 4, img := img }
  refine Gives.of ((updateDone_next h).trans (congrArg _ (if_pos hr))) ⟨congrArg Fw.updState hfw, congrArg Fw.updReason hfw, ?_, ?_, ?_⟩
  · rw [hpair, hother]
  · rw [hpair, hother]
  · rw [hpair, hactive]

theorem updateDone_fails {img : FwImage} {ok : Bool} {s : State} (h : UpdRuns s) (hr : imageReason s img ok ≠ 0) :
    Gives (.updateDone img ok) s fun t => t.fw.updState = 5 ∧ t.fw.updReason = imageReason s img ok ∧ (otherBank (pairOf t s.fw.updType)).state = 1 := by
  obtain ⟨hfw, -⟩ := updFails_spec s (imageReason s img ok)
  refine Gives.of ((updateDone_next h).trans (congrArg _ (if_neg hr))) ⟨congrArg Fw.updState hfw, congrArg Fw.updReason hfw, ?_⟩
  rw [pairOf_congr (s := updBank s 1) (congrArg Fw.images hfw :)]
  exact otherBank_updBank s 1 h.type_lt

/-- A chunk that nothing stands against comes in state 1 of an update. -/
theorem updState_of_chunk {s : State} {src : Src} {off n : Nat} (h : chunkReason s src off n = 0) : s.fw.updState = 1 := by
  by_contra hs
  simp only [chunkReason, firstReason, hs, ne_eq, not_false_eq_true, decide_true, Bool.or_true, if_true] at h
  repeat' split at h
  all_goals cases h

theorem chunkTaken_spec (s : State) (off n : Nat) : (chunkTaken s off n).host.chunks = chunkIn s.host.chunks off n ∧
    (chunkTaken s off n).fw.updState =
      if covered (chunkIn s.host.chunks off n) s.fw.updLen (chunkIn s.host.chunks off n).length 0 then 2 else s.fw.updState := by
  unfold chunkTaken
  extract_lets l taken
  show _ ∧ _ = if covered l s.fw.updLen l.length 0 then 2 else s.fw.updState
  split
  · exact ⟨updTo_chunks _ _ _ _, congrArg Fw.updState (updTo_fw _ _ _ _)⟩
  · exact ⟨rfl, rfl⟩

theorem imageChunk_gives {src : Src} {offset : Nat} {bytes : List Byte} {s : State} (hp : src.path = .halter) (hd : door s src = none)
    (hr : chunkReason s src offset bytes.length = 0) : Gives (.imageChunk src offset bytes) s fun t =>
      t.host.chunks = chunkIn s.host.chunks offset bytes.length ∧
      t.fw.updState = (if covered (chunkIn s.host.chunks offset bytes.length) s.fw.updLen (chunkIn s.host.chunks offset bytes.length).length 0 then 2 else 1) := by
  have hrun : exec (.imageChunk src offset bytes) s = .next (accepted (chunkTaken s offset bytes.length) src 0x30 0 []) := by
    show execImageChunk src offset bytes s = _
    simp only [execImageChunk, hp, hd, hr, ne_eq, not_true_eq_false, if_false]
  obtain ⟨hchunks, hstate⟩ := chunkTaken_spec s offset bytes.length
  refine Gives.of hrun ⟨(accepted_chunks _ _ _ _ _).trans hchunks, ?_⟩
  rw [(accepted_touches _ _ _ _ _).fw_eq, hstate, updState_of_chunk hr]

theorem imageChunkTimeout_gives {s : State} (hsrc : s.fw.updSource = 1) (hst : s.fw.updState = 1) (hf : s.fw.farrierDown = false) :
    Gives .imageChunkTimeout s fun t => t.fw.updState = 5 ∧ t.fw.updReason = 6 ∧ t.host.chunks = [] := by
  obtain ⟨hfw, hchunks⟩ := updFails_spec s 6
  exact Gives.of (show execImageChunkTimeout s = _ from if_pos (by simp [hsrc, hst, hf])) ⟨congrArg Fw.updState hfw, congrArg Fw.updReason hfw, hchunks⟩

/-- Settles O37: an update by the bank that it writes. -/
theorem updates : Obligations.Updates :=
  ⟨fun _ _ _ => updateRequest_receives, fun _ _ _ => updateRequest_tooLarge,
    fun _ _ _ hi hf hr h1 h3 => updateDone_pending ⟨hi, hf, h1, h3⟩ hr, fun _ _ _ hi hf hr h1 h3 => updateDone_fails ⟨hi, hf, h1, h3⟩ hr,
    fun _ _ _ _ => imageChunk_gives, fun _ => imageChunkTimeout_gives⟩

/-! ### Activations (18 R473 to R477) -/

/-- One type in turn: deferred where a condition stands, else activated. -/
theorem activateOrDefer_one (hub : State → State) (s : State) {t : Nat} (h : t = 1 ∨ t = 2 ∨ t = 3) :
    activateOrDefer hub s [t] = if deferBlocks s t then wantActivation s [t] else activateWith hub s t := by
  rcases h with rfl | rfl | rfl <;> rfl

/-- The owner's activate command of one PENDING type in mode 0. -/
theorem activateAct_one {s : State} {mask t : Nat} (hmask : maskTypes mask = [t]) (ht : t = 1 ∨ t = 2 ∨ t = 3) (hm : rw s 0x900005 = 0)
    (hp : (pendingTypes s).contains t = true) :
    activateAct mask s = if deferBlocks s t then wantActivation s [t] else activateWith (modReset · 7) s t := by
  have hts : (maskTypes mask).filter (pendingTypes s).contains = [t] := by rw [hmask, List.filter_cons_of_pos hp, List.filter_nil]
  rw [activateAct, if_neg (by simp [hm]), hts, activateOrDefer_one _ _ ht]

theorem maskTypes_two : maskTypes 2 = [1] := by decide
theorem maskTypes_eight : maskTypes 8 = [3] := by decide

/-- The pair once its other bank is active and on trial. -/
def pairActivated (p : BankPair) : BankPair := { onOther p fun b => { b with state := 3, fails := 0 } with activeB := !p.activeB, trial := true }

theorem pairOf_bankActivated (s : State) {t : Nat} (h : t - 1 < 3) : pairOf (bankActivated s t) t = pairActivated (pairOf s t) := pairOf_onPair s _ h

/-- The bank that becomes active has no failed boot yet. -/
theorem activeBank_pairActivated (p : BankPair) : (activeBank (pairActivated p)).fails = 0 := by
  unfold pairActivated activeBank onOther
  rcases h : p.activeB with _ | _
  · rfl
  · rfl

theorem activateWith_library (hub : State → State) {s : State} (hp : (pendingTypes s).contains 3 = true) : (activateWith hub s 3).fw.libReload = true ∧
    (pairOf (activateWith hub s 3) 3).activeB = (!(pairOf s 3).activeB) ∧ (pairOf (activateWith hub s 3) 3).trial = true ∧
    (activateWith hub s 3).fw.deferred = s.fw.deferred ∧ (activateWith hub s 3).fw.deferMask = s.fw.deferMask := by
  have hrun : activateWith hub s 3 = { bankActivated s 3 with fw := { (bankActivated s 3).fw with libReload := true } } :=
    if_neg (by rw [hp]; decide)
  have hpair : pairOf (activateWith hub s 3) 3 = pairActivated (pairOf s 3) := by
    rw [hrun]
    exact pairOf_bankActivated s (by decide)
  rw [hpair, hrun]
  exact ⟨rfl, rfl, rfl, rfl, rfl⟩

/-- A Farrier image restarts the Farrier, and its first boot begins. -/
theorem activateWith_farrier (hub : State → State) {s : State} (hp : (pendingTypes s).contains 1 = true) : (activateWith hub s 1).fw.farrierDown = true ∧
    (pairOf (activateWith hub s 1) 1).activeB = (!(pairOf s 1).activeB) ∧ (pairOf (activateWith hub s 1) 1).trial = true := by
  have hrun : activateWith hub s 1 = bootAttempt { bankActivated s 1 with fw := { (bankActivated s 1).fw with farrierDown := true } } 1 :=
    if_neg (by rw [hp]; decide)
  have hpair : pairOf { bankActivated s 1 with fw := { (bankActivated s 1).fw with farrierDown := true } } 1 = pairActivated (pairOf s 1) :=
    pairOf_bankActivated s (by decide)
  have hfails : ¬(activeBank (pairActivated (pairOf s 1))).fails ≥ 2 := by rw [activeBank_pairActivated]; decide
  rw [hrun, bootAttempt, hpair, if_neg (show ¬(!(pairActivated (pairOf s 1)).trial) = true from Bool.false_ne_true), if_neg hfails,
    pairOf_onPair _ _ (by decide), hpair]
  refine ⟨rfl, ?_, ?_⟩
  · split <;> rfl
  · split <;> rfl

theorem activateCommand_library {src : Src} {s : State} (h : Passes s src 0x900004 1 8 0) (hm : rw s 0x900005 = 0)
    (hp : (pendingTypes s).contains 3 = true) (hb : deferBlocks s 3 = false) : Gives (.activateCommand src 8) s fun t => t.fw.libReload = true ∧
      (pairOf t 3).activeB = !(pairOf s 3).activeB ∧ (pairOf t 3).trial = true ∧ t.fw.deferred = s.fw.deferred := by
  refine Gives.accepted h rfl fun t ht => ?_
  have hact : activateAct 8 s = activateWith (modReset · 7) s 3 :=
    (activateAct_one maskTypes_eight (.inr (.inr rfl)) hm hp).trans (if_neg (by simp [hb]))
  obtain ⟨hlib, hside, htrial, hdeferred, -⟩ := activateWith_library (modReset · 7) hp
  have hfw : t.fw = (activateWith (modReset · 7) s 3).fw := ht.fw_eq.trans (congrArg State.fw hact)
  rw [pairOf_congr (congrArg Fw.images hfw), hfw]
  exact ⟨hlib, hside, htrial, hdeferred⟩

theorem activateCommand_farrier {src : Src} {s : State} (h : Passes s src 0x900004 1 2 0) (hm : rw s 0x900005 = 0)
    (hp : (pendingTypes s).contains 1 = true) (hb : deferBlocks s 1 = false) : Gives (.activateCommand src 2) s fun t => t.fw.farrierDown = true ∧
      (pairOf t 1).activeB = !(pairOf s 1).activeB ∧ (pairOf t 1).trial = true := by
  refine Gives.accepted h rfl fun t ht => ?_
  have hact : activateAct 2 s = activateWith (modReset · 7) s 1 := (activateAct_one maskTypes_two (.inl rfl) hm hp).trans (if_neg (by simp [hb]))
  have hfw : t.fw = (activateWith (modReset · 7) s 1).fw := ht.fw_eq.trans (congrArg State.fw hact)
  rw [pairOf_congr (congrArg Fw.images hfw), hfw]
  exact activateWith_farrier (modReset · 7) hp

theorem activateCommand_deferred {src : Src} {s : State} (h : Passes s src 0x900004 1 8 0) (hm : rw s 0x900005 = 0)
    (hp : (pendingTypes s).contains 3 = true) (hb : deferBlocks s 3 = true) : Gives (.activateCommand src 8) s fun t =>
      t.fw.deferMask = s.fw.deferMask ||| 8 ∧ t.fw.deferred = s.fw.deferred + 1 ∧ t.fw.images = s.fw.images := by
  refine Gives.accepted h rfl fun t ht => ?_
  have hact : activateAct 8 s = wantActivation s [3] := (activateAct_one maskTypes_eight (.inr (.inr rfl)) hm hp).trans (if_pos hb)
  have hcount : ([3].filter (deferBlocks s)).length = 1 := by rw [List.filter_cons_of_pos hb]; rfl
  rw [ht.fw_eq.trans (congrArg State.fw hact)]
  exact ⟨rfl, congrArg (s.fw.deferred + ·) hcount, rfl⟩

theorem activateCommand_shut {src : Src} {mask : BitVec 8} {s : State} (h : Passes s src 0x900004 1 mask.toNat 0) (hm : rw s 0x900005 ≠ 0) :
    Gives (.activateCommand src mask) s fun t => t.fw = s.fw := by
  refine Gives.accepted h rfl fun t ht => ?_
  rw [ht.fw_eq, activateAct, if_pos hm]

theorem activationDeferralEnd_gives {s : State} (hmask : s.fw.deferMask = 8) (hp : (pendingTypes s).contains 3 = true) (hb : deferBlocks s 3 = false) :
    Gives .activationDeferralEnd s fun t => t.fw.deferMask = 0 ∧ t.fw.libReload = true ∧ (pairOf t 3).activeB = !(pairOf s 3).activeB := by
  have hts : (maskTypes s.fw.deferMask.toNat).filter (fun t => !deferBlocks s t) = [3] := by
    rw [hmask, show (8 : BitVec 8).toNat = 8 from rfl, maskTypes_eight, List.filter_cons_of_pos (by simp [hb]), List.filter_nil]
  have hleft : [3].foldl (fun m t => m &&& ~~~ BitVec.twoPow 8 t) s.fw.deferMask = 0 := by rw [hmask]; decide
  have hrun : exec .activationDeferralEnd s = .next (activateWith (modReset · 7) { s with fw := { s.fw with deferMask := 0 } } 3) := by
    show execActivationDeferralEnd s = _
    rw [execActivationDeferralEnd]
    dsimp only
    rw [hts, hleft, activateOrDefer_one _ _ (.inr (.inr rfl))]
    exact congrArg _ (if_neg (Bool.eq_false_iff.mp hb))
  obtain ⟨hlib, hside, -, -, hdefer⟩ := activateWith_library (modReset · 7) (s := { s with fw := { s.fw with deferMask := 0 } }) hp
  exact Gives.of hrun ⟨hdefer, hlib, hside⟩

/-- The pattern library is reloaded between trot pieces and gallop runs. -/
structure LibReloads (s : State) : Prop where
  due    : s.fw.libReload = true
  trot   : s.tests.trot = none
  gallop : s.tests.gState = 0
  ostler : ostlerBusy s 3 = false

/-- The state once the reload is no longer due. -/
def reloaded (s : State) : State := { s with fw := { s.fw with libReload := false } }

theorem patternLibraryReload_next {s : State} (h : LibReloads s) (ok : Bool) : exec (.patternLibraryReload ok) s =
    .next (libraryMeasured (if ok then bankConfirmed (reloaded s) 3 else securityEvent (bankReverted (reloaded s) 3))) :=
  show execPatternLibraryReload ok s = _ from if_pos (by simp [h.due, h.trot, h.gallop, h.ostler])

theorem patternLibraryReload_good {s : State} (h : LibReloads s) : Gives (.patternLibraryReload true) s fun t => t.fw.libReload = false ∧
    (pairOf t 3).trial = false ∧ nth t.sec.meas 3 0 = extend (nth s.sec.meas 3 0) (activeBank (pairOf s 3)).img.pdigest := by
  refine Gives.of (patternLibraryReload_next h true) ⟨bankConfirmed_spares (f := Fw.libReload) (fun _ _ => rfl) (reloaded s) 3,
    bankConfirmed_trial (reloaded s) (t := 3) (by decide), ?_⟩
  have hmeas : (bankConfirmed (reloaded s) 3).sec.meas = s.sec.meas := (bankConfirmed_touches _ _).meas_eq
  rw [if_pos rfl, libraryMeasured, hmeas, activeBank_bankConfirmed]
  exact nth_updN_same _ _ _ (by decide)

theorem patternLibraryReload_bad {s : State} (h : LibReloads s) : Gives (.patternLibraryReload false) s fun t => t.fw.libReload = false ∧
    (pairOf t 3).activeB = !(pairOf s 3).activeB ∧ t.sec.events = s.sec.events + 1 ∧ t.fw.reversions = s.fw.reversions + 1 := by
  have hup := bankReverted_givenUp (reloaded s) (t := 3) (by decide)
  have hsec : (bankReverted (reloaded s) 3).sec = s.sec := (bankReverted_touches _ _).sec_eq
  exact Gives.of (patternLibraryReload_next h false) ⟨hup.libReload, hup.side, congrArg (fun c : Sec => c.events + 1) hsec, hup.counts⟩

/-- Settles O38: type by type, deferred or activated. -/
theorem activations : Obligations.Activations :=
  ⟨fun _ _ => activateCommand_library, fun _ _ => activateCommand_farrier, fun _ _ => activateCommand_deferred, fun _ _ _ => activateCommand_shut,
    fun _ => activationDeferralEnd_gives, fun _ hd ht hg ho => patternLibraryReload_good ⟨hd, ht, hg, ho⟩,
    fun _ hd ht hg ho => patternLibraryReload_bad ⟨hd, ht, hg, ho⟩⟩

end Sys2Proof.Machine
end
